-- ==== Sys2Proof/Word.lean ====
section
/-! DEFINITION. The words of the AVG-4128 and their plainest arithmetic (R7, R89). -/

namespace Sys2Proof

/-- One byte. -/
abbrev Byte := BitVec 8
/-- A 32-bit word: one `g` or `k` register (R37). -/
abbrev W32 := BitVec 32
/-- A 64-bit word: one `a` register, or a register pair (R37, R38). -/
abbrev W64 := BitVec 64
/-- A virtual (generic) address (R48). -/
abbrev Addr := BitVec 64
/-- The code of one register specifier field (R62): which register it names depends on the operand
class and on the executing unit. -/
abbrev Spec := BitVec 8
/-- A mask over the positions `%lane` of a crew (R22). -/
abbrev Mask := BitVec 64

/-- `wrap32(x)` of R89. -/
def wrap32 (x : Int) : W32 := BitVec.ofInt 32 x
/-- `wrap64(x)` of R89. -/
def wrap64 (x : Int) : W64 := BitVec.ofInt 64 x

/-- The low word of a 64-bit value (R38). -/
def lo32 (x : W64) : W32 := x.setWidth 32
/-- The high word of a 64-bit value (R38). -/
def hi32 (x : W64) : W32 := (x >>> 32).setWidth 32
/-- The 64-bit value whose low word is `lo` and whose high word is `hi` (R38). -/
def pair64 (lo hi : W32) : W64 := hi ++ lo

/-- A finite table keyed by numbers, kept with its keys rising: plain data that two equal tables share. -/
abbrev Tab (α : Type) := List (Nat × α)

end Sys2Proof
end

