-- ==== Sys2Proof/Config.lean ====
section
/-! DEFINITION. What the manual leaves open, as constants without a body: no proof can see what they are.
Each is named in a row of the assumption log. -/

namespace Sys2Proof.Config

/-- The n-th free 64-bit value: a value the manual leaves undefined or does not state (log 2). -/
opaque freeWord : Nat → W64

/-- The n-th free choice between two outcomes that the manual allows (log 2). -/
opaque freeBool : Nat → Bool

/-- The home slice of a line on a die: the hash of its physical address is not given (R142; log 15). -/
opaque homeSlice : (die line : Nat) → Nat

/-- Which of the values that R260 and R262 allow the special function numbered `f` returns for `a`
(log 3): an index, reduced modulo the number of allowed values. -/
opaque sfuPick : (f : Nat) → (a : W32) → Nat

/-- SHA-384, which the manual names and does not define (R380, R381; log 4). -/
opaque sha384 : List Byte → BitVec 384

/-- The key of the start record's HMAC-SHA-384 tag, from the unique device secret (R430; log 4). -/
opaque recordKey : (secret : BitVec 256) → List Byte

/-- Whether a signature of `msg` verifies under the keys whose hash is `keys`: RSASSA-PSS first, then
SLH-DSA (R382, R388; log 4). -/
opaque rsaVerifies : (keys : BitVec 384) → (msg sig : List Byte) → Bool
opaque slhVerifies : (keys : BitVec 384) → (msg sig : List Byte) → Bool

/-- A signature by a private key (R380, R384; log 4). -/
opaque signRsa : (key msg : List Byte) → List Byte
opaque signSlh : (key msg : List Byte) → List Byte

/-- The public and the private key that are derived from a seed (R380; log 4). -/
opaque rsaPair : (seed : List Byte) → List Byte × List Byte
opaque slhPair : (seed : List Byte) → List Byte × List Byte

/-- The unique device secret in Hollyhock's fuses, which no instruction, request or debug level reads (R380; log 4). -/
opaque deviceSecret : BitVec 256

/-- The session keys that a KEY_EXCHANGE gives, by its transcript; the bytes of an owner's request, by its kind, its context and what it carries; and
whether the AES-256-GCM tag of a session's n-th message verifies (R386; log 4). -/
opaque sessionKeys : (transcript : List Byte) → BitVec 256
opaque ownerRequest : (kind : Nat) → (ctx : Option Nat) → (body : List Byte) → List Byte
opaque gcmOpens : (keys : BitVec 256) → (n : Nat) → (msg tag : List Byte) → Bool

/-- The hash of Plovaux's keys for firmware image kind n (R382; log 4). -/
opaque vendorKeys : Nat → BitVec 384

/-- The firmware image bytes of image kind n (R381), 16 higher for the second slot, which the manual does not give (log 4). -/
opaque firmware : Nat → List Byte

/-- An image's two signatures and its security version number, numbered as the images are (R382, R384; log 4). -/
opaque imageSigs : Nat → List Byte × List Byte
opaque svn : Nat → BitVec 8

/-- What is measured into MR7 to MR9 of an event, by kind and value, and the bytes that a request to raise a fused minimum signs: the manual
gives neither (R381, R382, R389; log 4). -/
opaque measured : (kind value : Nat) → List Byte
opaque raiseRequest : (kind version : Nat) → List Byte

/-- The silicon stepping (R440). -/
opaque stepping : BitVec 8

/-- What the entropy-coded part of a page gives by its codec's own standard (R313; log 5). The codec is 0 JPEG, 1 JPEG 2000, 2 Group 4; the
answer is whether the coded data violate the standard, how many input bytes have been read where decoding stops before the stream's end, and
the samples of each component, row-major in the component's own size: bytes, or for Group 4 the coded bits, 1 for a run of the second
colour. -/
opaque decodeScan : (codec ifd : Nat) → (input : List Byte) → Bool × Nat × List (List Byte)

/-- Where the Primrose monitor's code stands in a context's global window (R387), which the manual does not give (log 4). -/
opaque primroseBase : W64

/-- AES and link keys never show; a pairing key is a number that only its pairing knows (R378). -/
opaque pairingKey : (ctx port partner : Nat) → BitVec 256

end Sys2Proof.Config
end

