-- ==== Sys2Proof/Syntax.lean ====
section
/-! DEFINITION. The instructions and the device's indivisible events: one constructor for every row of
spec/opcode_table.json, in the table's order but for the last twenty-five. An encoded instruction carries its control fields (R56) and
its specifier codes; an event carries the names of what it acts on and what the outside gives it. -/

namespace Sys2Proof

/-- WAIT, GUARD and STALL of word 0 (R56). -/
structure Ctl where
  wait  : BitVec 8
  neg   : Bool
  pred  : BitVec 3
  stall : BitVec 4
  deriving DecidableEq, Repr

/-- Integer comparisons (R94). -/
inductive ICmp where
  | eq | ne | lt | le | gt | ge
  deriving DecidableEq, Repr

/-- Floating comparisons (R252). -/
inductive FCmp where
  | eq | ne | lt | le | gt | ge | un | ord
  deriving DecidableEq, Repr

/-- Rounding modes (R237); `sr` is code 4. -/
inductive Rnd where
  | rne | rz | ru | rd | sr
  deriving DecidableEq, Repr

/-- The special registers of R44. -/
inductive Special where
  | lane | quad | crew | team | thread | core | cluster | die | gridX | gridY | gridZ | clock | entry
  deriving DecidableEq, Repr

/-- The conversions of `CVTI` (R107). -/
inductive CvtiOp where
  | s32s8 | b32b8 | s32s16 | b32b16 | s8s32 | b8s32 | s16s32 | b16s32 | s32b32 | b32s32 | s4s32 | s32s4
  deriving DecidableEq, Repr

/-- The forms of `BRA` (R108). -/
inductive BraForm where
  | always | zero | nonzero
  deriving DecidableEq, Repr

/-- Branch hints (R63, R109). -/
inductive Hint where
  | none | uni | both
  deriving DecidableEq, Repr

/-- Modes of `SHFL` (R119). -/
inductive ShflMode where
  | idx | up | down | xor
  deriving DecidableEq, Repr

/-- Modes of `VOTE` (R120). -/
inductive VoteMode where
  | all | any | eq | ballot
  deriving DecidableEq, Repr

/-- Operations of `REDC` and `SCAN` (R121). -/
inductive RedOp where
  | add | mins | minb | maxs | maxb | and | or | xor | fadd | fmin | fmax | maxidx
  deriving DecidableEq, Repr

/-- Element format codes (R236). -/
inductive Fmt where
  | fp32 | fp16 | bf16 | e4m3 | e5m2 | e3m2 | e2m3 | e2m1 | int32 | int64 | int8 | int4 | e8m0
  deriving DecidableEq, Repr

/-- Access sizes (R66, R159). -/
inductive Size where
  | b8 | s8 | b16 | s16 | b32 | b64 | b128
  deriving DecidableEq, Repr

/-- Scopes of the memory word (R64, R128). -/
inductive Scope where
  | thread | crew | team | cluster | die | device | system
  deriving DecidableEq, Repr

/-- ORD of the memory word (R64). -/
inductive Ordr where
  | plain | relaxed | acquire | release
  deriving DecidableEq, Repr

/-- The memory word (R64). -/
structure MemWord where
  off   : BitVec 20
  rc    : BitVec 4
  evict : BitVec 3
  scope : Scope
  ord   : Ordr
  deriving DecidableEq, Repr

/-- Operations of `CCTL` (R175). -/
inductive CctlOp where
  | wb | inv | wbinv
  deriving DecidableEq, Repr

/-- Operation codes of the atomics (R170). -/
inductive AtomOp where
  | add | fadd | mins | minb | maxs | maxb | and | or | xor | exch | inc | dec | maxidx
  deriving DecidableEq, Repr

/-- The command byte (R194). -/
structure CmdByte where
  bv  : Bool
  tv  : Bool
  tok : BitVec 3
  deriving DecidableEq, Repr

/-- Frame format codes that name an operand or accumulator frame (R268). -/
inductive FrameFmt where
  | e4m3 | e5m2 | e3m2 | e2m3 | e2m1 | int8 | int4 | fp16 | bf16
  | mxe4m3 | mxe5m2 | mxe3m2 | mxe2m3 | mxe2m1 | mxint8 | accF32 | accS32
  deriving DecidableEq, Repr

/-- Operand roles of a frame (R203, R269). -/
inductive Role where
  | a | b | acc
  deriving DecidableEq, Repr

/-- Element types of `CHAIN` (R312). -/
inductive ChainTy where
  | f32 | f16 | bf16 | s32 | s16 | s8
  deriving DecidableEq, Repr

/-- A unit that issues instructions: an issue group of a crew, named by the crew's number in the
state and the group's lowest `%lane`; or a team's access thread. -/
inductive UnitRef where
  | crew (uid lane : Nat)
  | access (team : Nat)
  deriving DecidableEq, Repr

/-- Which of the pieces of a unit's accesses that may be performed an event performs. -/
structure ResultRef where
  unit : UnitRef
  nth  : Nat
  deriving DecidableEq, Repr

/-- A unit that can wait and send a probe (R356, R357): an issue group or access thread, a launch in a queue by its order of entry, a
command, a quarter's sequencer. -/
inductive Waiter where
  | unit (u : UnitRef)
  | launch (q order : Nat)
  | command (n : Nat)
  | sequencer (q : Nat)
  deriving DecidableEq, Repr

/-- What a scope cache does on its own (R129, R130, R132). -/
inductive CacheMove where
  | fill | dropClean | writeOut
  deriving DecidableEq, Repr

/-- A flit of a link whose CRC has failed (R437): whether it is the one that was replayed last, and has failed again. -/
structure FlitRef where
  link  : Nat
  again : Bool
  deriving DecidableEq, Repr

/-- The outcome of one attempt at a start-record step (R431, R432): it passed, or it failed; the cores and dies that its self-test
finds failing, which an alternative path maps out; whether the tag of the stored record
fails at step 4 (R430). -/
structure StepOutcome where
  pass     : Bool
  badCores : List Nat
  badDies  : List Nat
  tagFails : Bool
  deriving DecidableEq, Repr

/-- How a request reaches Hollyhock in an owner session (R386): the session's number, the KEY_EXCHANGE transcript with which it begins where it is a
new one, and the request's authentication tag. -/
structure OwnerMsg where
  session : Nat
  hello   : Option (List Byte)
  tag     : List Byte
  deriving DecidableEq, Repr

/-- A request of an owner session (R386): its message, and what the request is about (a context, the device or a context, the owner's keys). -/
structure OwnerReq (α : Type) where
  msg  : OwnerMsg
  about : α
  deriving DecidableEq, Repr

/-- An owner's public keys: the RSA key and the SLH-DSA key. -/
structure OwnerKeys where
  rsa : List Byte
  slh : List Byte
  deriving DecidableEq, Repr

/-- A turn of a command (R146): so many pieces of its work, or with 0 all that is left. -/
structure CmdTurn where
  cmd   : Nat
  limit : Nat
  ahead : Nat := 0
  deriving DecidableEq, Repr

/-- Debug levels (R384, R389). -/
inductive DebugLevel where
  | none | context | full
  deriving DecidableEq, Repr

/-- A request signed by owner keys (R388), with its parts as numbers and its two signatures. -/
structure SignedToken where
  kind      : W32
  perms     : W32
  deviceId  : BitVec 384
  context   : W32
  zeroA     : W32
  challenge : BitVec 128
  zeroB     : BitVec 384
  sigRsa    : List Byte
  sigSlh    : List Byte
  deriving DecidableEq, Repr

/-- The kind of one access that a paired peer asks for (R378, R379). -/
inductive PeerReq where
  | load (n : Nat)
  | store (bytes : List Byte)
  | atomic (op : AtomOp) (wide : Bool) (v : W64)
  | cas (wide : Bool) (cmp swap : W64)
  deriving DecidableEq, Repr

/-- One constructor for each row of spec/opcode_table.json. -/
inductive Instr where
  -- group 0x0, integer (R90 to R95)
  | iadd (c : Ctl) (sat : Bool) (d a b : Spec)
  | iaddImm (c : Ctl) (sat : Bool) (d a : Spec) (imm : W32)
  | isub (c : Ctl) (sat : Bool) (d a b : Spec)
  | isubImm (c : Ctl) (sat : Bool) (d a : Spec) (imm : W32)
  | iaddc (c : Ctl) (d a b p : Spec)
  | iaddcImm (c : Ctl) (d a : Spec) (imm : W32) (p : Spec)
  | imul (c : Ctl) (d a b : Spec)
  | imulImm (c : Ctl) (d a : Spec) (imm : W32)
  | imulh (c : Ctl) (sg : Bool) (d a b : Spec)
  | imulhImm (c : Ctl) (sg : Bool) (d a : Spec) (imm : W32)
  | imad (c : Ctl) (d a b x : Spec)
  | imadw (c : Ctl) (sg : Bool) (d a b x : Spec)
  | idiv (c : Ctl) (sg : Bool) (d a b : Spec)
  | idivImm (c : Ctl) (sg : Bool) (d a : Spec) (imm : W32)
  | irem (c : Ctl) (sg : Bool) (d a b : Spec)
  | iremImm (c : Ctl) (sg : Bool) (d a : Spec) (imm : W32)
  | imin (c : Ctl) (sg : Bool) (d a b : Spec)
  | iminImm (c : Ctl) (sg : Bool) (d a : Spec) (imm : W32)
  | imax (c : Ctl) (sg : Bool) (d a b : Spec)
  | imaxImm (c : Ctl) (sg : Bool) (d a : Spec) (imm : W32)
  | iabs (c : Ctl) (sat : Bool) (d a : Spec)
  | ineg (c : Ctl) (sat : Bool) (d a : Spec)
  | iset (c : Ctl) (cmp : ICmp) (sg : Bool) (d a b : Spec)
  | isetImm (c : Ctl) (cmp : ICmp) (sg : Bool) (d a : Spec) (imm : W32)
  | lea (c : Ctl) (sh : BitVec 3) (sx : Bool) (d a b : Spec)
  | iadd64 (c : Ctl) (sat : Bool) (d a b : Spec)
  | iadd64Imm (c : Ctl) (sat : Bool) (d a : Spec) (imm : W32)
  -- group 0x1, logic and bit (R96 to R101)
  | ltab (c : Ctl) (d a b x : Spec) (ft : BitVec 8)
  | shl (c : Ctl) (wrap : Bool) (d a b : Spec)
  | shlImm (c : Ctl) (wrap : Bool) (d a : Spec) (imm : W32)
  | shr (c : Ctl) (wrap : Bool) (d a b : Spec)
  | shrImm (c : Ctl) (wrap : Bool) (d a : Spec) (imm : W32)
  | sar (c : Ctl) (wrap : Bool) (d a b : Spec)
  | sarImm (c : Ctl) (wrap : Bool) (d a : Spec) (imm : W32)
  | rot (c : Ctl) (right : Bool) (d a b : Spec)
  | rotImm (c : Ctl) (right : Bool) (d a : Spec) (imm : W32)
  | fshf (c : Ctl) (right : Bool) (d a b x : Spec)
  | popc (c : Ctl) (d a : Spec)
  | clz (c : Ctl) (d a : Spec)
  | brev (c : Ctl) (d a : Spec)
  | bfx (c : Ctl) (sg : Bool) (d a b x : Spec)
  | bfi (c : Ctl) (d a b x : Spec)
  | ptab (c : Ctl) (d a b x : Spec) (ft : BitVec 8)
  -- group 0x2, move (R102 to R107)
  | mov (c : Ctl) (wide : Bool) (d a : Spec)
  | movi (c : Ctl) (d : Spec) (imm : W32)
  | moviB64 (c : Ctl) (d : Spec) (lo hi : W32)
  | movk (c : Ctl) (d a b : Spec)
  | sel (c : Ctl) (wide : Bool) (d a b p : Spec)
  | rdsp (c : Ctl) (d : Spec) (sp : Special)
  | cvti (c : Ctl) (op : CvtiOp) (d a : Spec)
  -- group 0x3, control (R108 to R115)
  | bra (c : Ctl) (form : BraForm) (a : Spec) (off : W32)
  | braHint (c : Ctl) (form : BraForm) (a : Spec) (off : W32) (h : Hint)
  | brx (c : Ctl) (a : Spec)
  | call (c : Ctl) (d : Spec) (off : W32)
  | callHint (c : Ctl) (d : Spec) (off : W32) (h : Hint)
  | callx (c : Ctl) (d a : Spec)
  | ret (c : Ctl) (a : Spec)
  | exit (c : Ctl)
  | enrol (c : Ctl) (j : Spec)
  | join (c : Ctl) (j : Spec)
  | reform (c : Ctl)
  | yield (c : Ctl)
  | nop (c : Ctl)
  | replay (c : Ctl) (id : BitVec 16)
  -- group 0x4, cross-lane (R116 to R125)
  | shfl (c : Ctl) (mode : ShflMode) (wide : Bool) (d a b x v : Spec)
  | vote (c : Ctl) (mode : VoteMode) (d a : Spec)
  | redc (c : Ctl) (op : RedOp) (d a x v : Spec)
  | scan (c : Ctl) (op : RedOp) (excl : Bool) (d a x v : Spec)
  | matchLanes (c : Ctl) (wide : Bool) (d a : Spec)
  -- group 0x5, FP32 (R250 to R254)
  | fadd (c : Ctl) (rnd : Rnd) (sat : Bool) (d a b : Spec)
  | faddImm (c : Ctl) (rnd : Rnd) (sat : Bool) (d a : Spec) (imm : W32)
  | fmul (c : Ctl) (rnd : Rnd) (sat : Bool) (d a b : Spec)
  | fmulImm (c : Ctl) (rnd : Rnd) (sat : Bool) (d a : Spec) (imm : W32)
  | ffma (c : Ctl) (rnd : Rnd) (sat : Bool) (d a b x : Spec)
  | fmin (c : Ctl) (nan : Bool) (d a b : Spec)
  | fminImm (c : Ctl) (nan : Bool) (d a : Spec) (imm : W32)
  | fmax (c : Ctl) (nan : Bool) (d a b : Spec)
  | fmaxImm (c : Ctl) (nan : Bool) (d a : Spec) (imm : W32)
  | fset (c : Ctl) (cmp : FCmp) (d a b : Spec)
  | fsetImm (c : Ctl) (cmp : FCmp) (d a : Spec) (imm : W32)
  | fclass (c : Ctl) (d a b : Spec)
  | fclassImm (c : Ctl) (d a : Spec) (imm : W32)
  | frnd (c : Ctl) (rnd : Rnd) (d a : Spec)
  -- group 0x6, packed 16-bit (R255 to R258); bf: BF16 elements, otherwise FP16
  | hadd2 (c : Ctl) (bf : Bool) (rnd : Rnd) (sat : Bool) (d a b : Spec)
  | hadd2Imm (c : Ctl) (bf : Bool) (rnd : Rnd) (sat : Bool) (d a : Spec) (imm : W32)
  | hmul2 (c : Ctl) (bf : Bool) (rnd : Rnd) (sat : Bool) (d a b : Spec)
  | hmul2Imm (c : Ctl) (bf : Bool) (rnd : Rnd) (sat : Bool) (d a : Spec) (imm : W32)
  | hfma2 (c : Ctl) (bf : Bool) (rnd : Rnd) (sat : Bool) (d a b x : Spec)
  | hmin2 (c : Ctl) (bf nan : Bool) (d a b : Spec)
  | hmin2Imm (c : Ctl) (bf nan : Bool) (d a : Spec) (imm : W32)
  | hmax2 (c : Ctl) (bf nan : Bool) (d a b : Spec)
  | hmax2Imm (c : Ctl) (bf nan : Bool) (d a : Spec) (imm : W32)
  | hset2 (c : Ctl) (cmp : FCmp) (bf : Bool) (d a b : Spec)
  | hset2Imm (c : Ctl) (cmp : FCmp) (bf : Bool) (d a : Spec) (imm : W32)
  -- group 0x7, special functions and conversion (R259 to R264)
  | rcp (c : Ctl) (d a : Spec)
  | rsq (c : Ctl) (d a : Spec)
  | sqrt (c : Ctl) (d a : Spec)
  | exp2 (c : Ctl) (d a : Spec)
  | log2 (c : Ctl) (d a : Spec)
  | fsin (c : Ctl) (d a : Spec)
  | fcos (c : Ctl) (d a : Spec)
  | tanh (c : Ctl) (d a : Spec)
  | fdiv (c : Ctl) (rnd : Rnd) (d a b : Spec)
  | fcvt (c : Ctl) (rnd : Rnd) (sat : Bool) (src dst : Fmt) (d a : Spec)
  | fcvtp (c : Ctl) (rnd : Rnd) (sat : Bool) (dst : Fmt) (slot : BitVec 2) (d a b x : Spec)
  -- group 0x8, memory (R163 to R177)
  | ld (c : Ctl) (sz : Size) (m : MemWord) (d a : Spec)
  | st (c : Ctl) (sz : Size) (m : MemWord) (a b : Spec)
  | lds (c : Ctl) (sz : Size) (m : MemWord) (d a : Spec)
  | sts (c : Ctl) (sz : Size) (m : MemWord) (a b : Spec)
  | ldc (c : Ctl) (sz : Size) (m : MemWord) (d a : Spec)
  | stc (c : Ctl) (sz : Size) (m : MemWord) (a b : Spec)
  | fence (c : Ctl) (m : MemWord)
  | cctl (c : Ctl) (op : CctlOp) (m : MemWord) (a b : Spec)
  | icinv (c : Ctl) (m : MemWord) (a b : Spec)
  | pref (c : Ctl) (m : MemWord) (a : Spec)
  -- group 0x9, atomics (R169 to R172)
  | atom (c : Ctl) (op : AtomOp) (wide ar : Bool) (m : MemWord) (d a b : Spec)
  | atomcas (c : Ctl) (wide ar : Bool) (m : MemWord) (d a b x : Spec)
  | atoms (c : Ctl) (op : AtomOp) (wide ar : Bool) (m : MemWord) (d a b : Spec)
  | red (c : Ctl) (op : AtomOp) (wide : Bool) (m : MemWord) (a b : Spec)
  -- group 0xA, access and asynchronous (R186 to R206)
  | astream (c : Ctl) (q : BitVec 4) (a b x : Spec) (n0 n1 : BitVec 16) (cmd : CmdByte)
  | opush (c : Ctl) (q : BitVec 4) (a : Spec) (n : BitVec 5)
  | opop (c : Ctl) (wide : Bool) (d : Spec) (q : BitVec 4)
  | gather (c : Ctl) (esz : BitVec 3) (i64 : Bool) (d a b x : Spec) (count : BitVec 16) (cmd : CmdByte)
  | scatter (c : Ctl) (esz : BitVec 3) (i64 : Bool) (d a b x : Spec) (count : BitVec 16) (cmd : CmdByte)
  | cpy (c : Ctl) (d a b x : Spec) (cmd : CmdByte)
  | cpy2g (c : Ctl) (d a b x : Spec) (pitch : BitVec 20) (esz : BitVec 2) (count : BitVec 12)
      (ph pw : BitVec 8) (cmd : CmdByte)
  | cpyt (c : Ctl) (pack : Bool) (d a b x : Spec) (spitch : BitVec 16) (role : Role) (fmt : FrameFmt)
      (pitch : BitVec 20) (count : BitVec 12) (cmd : CmdByte)
  | cpyr (c : Ctl) (d a b x : Spec) (off : W32) (cmd : CmdByte)
  | close (c : Ctl) (t : Spec)
  | waitb (c : Ctl) (n : BitVec 4) (d t : Spec)
  | barinit (c : Ctl) (a b : Spec) (off : W32)
  | bararv (c : Ctl) (one x : Bool) (a b : Spec) (off : W32)
  | barexp (c : Ctl) (a b : Spec) (off : W32)
  | barwait (c : Ctl) (scope : Scope) (d a b : Spec)
  | bartest (c : Ctl) (scope : Scope) (d a b : Spec)
  | fred (c : Ctl) (s32 : Bool) (d a b x : Spec) (group : BitVec 16) (e : BitVec 8) (parts : BitVec 16)
      (cmd : CmdByte)
  -- group 0xB, transactions (R212 to R225)
  | txopen (c : Ctl) (ts : Bool) (d : Spec)
  | txcommit (c : Ctl)
  | txquit (c : Ctl) (code : BitVec 7)
  | txstat (c : Ctl) (d : Spec)
  | spopen (c : Ctl) (ts : Bool) (dom : BitVec 3) (d a : Spec)
  | spcommit (c : Ctl)
  -- group 0xC, matrix (R277 to R286)
  | mzero (c : Ctl) (s32 : Bool) (m : Spec)
  | mld (c : Ctl) (m a : Spec) (off : W32)
  | mst (c : Ctl) (a m : Spec) (off : W32)
  | mma (c : Ctl) (sat : Bool) (m a b : Spec)
  | mloop (c : Ctl) (sat : Bool) (m a b : Spec) (fv : Bool) (f : BitVec 3) (tv : Bool) (tok : BitVec 3)
      (n : BitVec 12) (inca incb : BitVec 16)
  | mconv (c : Ctl) (sat : Bool) (m a b x : Spec) (tv : Bool) (tok : BitVec 3)
  | mmas (c : Ctl) (sat x2 : Bool) (m a b x : Spec)
  | mcomp (c : Ctl) (d a b : Spec)
  | mqnt (c : Ctl) (rnd : Rnd) (role : Role) (fmt : FrameFmt) (m b : Spec)
  | mstat (c : Ctl) (d m : Spec)
  | fsetm (c : Ctl) (wide : Bool) (f a : Spec)
  -- group 0xD, streams and decoders (R307 to R317)
  | sbind (c : Ctl) (slot : BitVec 7) (d a : Spec)
  | sunbind (c : Ctl) (a : Spec)
  | ginv (c : Ctl) (scope : Scope) (a : Spec)
  | chain (c : Ctl) (sat : Bool) (ty : ChainTy) (d a b x : Spec) (ops : BitVec 56) (cmd : CmdByte)
  | sstat (c : Ctl) (d a : Spec)
  | pdec (c : Ctl) (a x : Spec) (cmd : CmdByte)
  -- group 0xE, work creation (R349)
  | launch (c : Ctl) (a : Spec) (cmd : CmdByte)
  | spawn (c : Ctl) (pool : BitVec 4) (data : Bool) (a : Spec) (cmd : CmdByte)
  | wpop (c : Ctl) (pool : BitVec 4) (d p : Spec)
  | wsteal (c : Ctl) (pool : BitVec 4) (d a p : Spec)
  -- group 0xF, system (R383, R390, R406, R407, R409)
  | sysr (c : Ctl) (idx : BitVec 12) (d : Spec)
  | sysw (c : Ctl) (idx : BitVec 12) (b : Spec)
  | trap (c : Ctl) (code : BitVec 16)
  | tretRetry (c : Ctl) (d a b : Spec)
  | tretNext (c : Ctl) (d a b : Spec)
  | tretError (c : Ctl) (d a b : Spec)
  | tretEnd (c : Ctl) (d a b : Spec)
  | bkpt (c : Ctl)
  | mboxSend (c : Ctl) (d a b : Spec)
  | mboxRecv (c : Ctl) (d a b : Spec)
  | attest (c : Ctl) (d a b : Spec) (cmd : CmdByte)
  -- events inside a crew, a quarter or a core
  | joinRelease (crew : Nat) (j : Nat)
  | binAgeLimit (q : Nat) (bin : Nat)
  | recordFile (core : Nat)
  | issueSelect (q : Nat)
  | readyAgeRaise (q : Nat)
  | playQuotaExpire (q : Nat)
  | commandAccept (u : UnitRef)
  | commandComplete (turn : CmdTurn)
  | engineFault (cmd : Nat)
  | astreamPush (cmd : Nat)
  | fredGroupClose (ctx grid group : Nat)
  | barwaitRelease (u : UnitRef)
  | tokenWaitRelease (u : UnitRef)
  | opopFill (u : UnitRef)
  | accumulatorRelease (u : UnitRef)
  | sequencerStep (q : Nat)
  | txBackoffExpire (u : UnitRef)
  | txPeriodicValidate (crew lane : Nat)
  | commitTokenGrant (u : UnitRef)
  | serialCommitGrant
  | specIterationGrant (u : UnitRef)
  | lineMigrate (die line : Nat)
  | rcDrop (line : Nat)
  | persistentRequest (line : Nat)
  | trackingUnitMerge (start : Nat)
  | windowReadTransform
  | windowWriteTransform
  | decodeJobStart
  | decodeJobComplete (turn : CmdTurn)
  | aelogRecordWrite (core : Nat)
  | waitsForProbe (w : Waiter)
  -- events of the launch queues and the global scheduler
  | doorbell (q : Nat) (tail : W32)
  | queueStatusWrite (q : Nat) (v : W32)
  | launchEnqueue (q : Nat)
  | admission
  | prereqPoll
  | teamPlace (grid : Nat)
  | teamComplete (team : Nat)
  | gridComplete (grid : Nat)
  | spillReturn (core : Nat)
  | steal (core : Nat)
  | coreVacate (grid : Nat)
  | teamStop (team : Nat)
  | teamMove (team : Nat)
  | forwardedRequest (core : Nat)
  | divertedOperation (die : Nat) (entry : Nat)
  | teamResume (team : Nat)
  | spawnedThreadResume (ctx : Nat)
  | handlerStart (dom : Nat)
  | faultRecordWrite (dom : Nat)
  -- links
  | linkRetrain (peer : Bool) (link : Nat) (ok : Bool)
  -- requests on the context manager mailbox and in owner sessions
  | contextOpen (ctx key : Nat)
  | contextClose (ctx : Nat)
  | map (ctx : Nat) (va : Addr) (pa : Nat) (big : Bool) (flags : BitVec 5) (auth : Bool)
  | unmap (ctx : Nat) (va : Addr) (remap : Option Nat) (auth : Bool)
  | queueSetup (q ctx : Nat) (ring : Addr) (log2 : Nat) (auth : Bool)
  | aperturePlacement (base : Nat)
  | contextControlWrite (ctx : Nat) (idx : BitVec 12) (v : W32) (auth : Bool)
  | s3Entry
  | newStartRequest
  | attestService
  -- accesses by the host and by peers
  | apertureAccess (off : Nat) (n : Nat) (write : Option (List Byte))
  | peerAccessIn (port : Nat) (partner : Nat) (ctx : Nat) (va : Addr) (req : PeerReq)
  -- power, start and errors
  | powerSample (watts milliwatts : Nat) (hot below95 : Bool)
  | coreGate (core : Nat)
  | coreWake (core : Nat)
  | dieRetention (die : Nat)
  | coldStart
  | startStep (o : StepOutcome)
  | variableLatencyResult (r : ResultRef)
  | windowWriteAcknowledged
  -- events the model never builds itself, last: the owner, tokens, links and losses of power
  | pairing (ctx port partner : Nat) (farAgrees : Bool)
  | securityStateRequest (toOpen : Bool) (byOwner : Option OwnerMsg)
  | debugLevelRequest (level : DebugLevel) (ctx : Nat)
  | fusedMinimumRaise (kind : Nat) (version : Nat) (sigRsa sigSlh : List Byte)
  | ownerOpen (m : OwnerMsg) (ctx : Nat) (keys : OwnerKeys)
  | ownerSeal (r : OwnerReq Nat)
  | ownerChange (r : OwnerReq Nat) (request : List Byte)
  | ownerChallenge (r : OwnerReq (Option Nat))
  | ownerRevoke (r : OwnerReq Nat)
  | ownerClaim (r : OwnerReq OwnerKeys)
  | consentToken (t : SignedToken)
  | repairToken (t : SignedToken)
  | ideKeySet (stream : Nat) (ctx : Option Nat)
  | debugMailboxHostWrite (msg : Option (List Byte))
  | hostWriteDropped
  | sramScrub (core : Nat) (corrected bad : Bool)
  | flitReplay (peer : Bool) (flit : FlitRef)
  | scopeCacheEviction (cluster : Bool) (id : Nat) (sector : Nat) (mv : CacheMove)
  | peerWriteDropped
  | powerLoss
  | patrolScrub (ctl : Nat) (corrected bad : Bool)
  | dieWake (die : Nat)
  | s3Exit
  | stepTimeout
  deriving DecidableEq, Repr

end Sys2Proof
end

