-- ==== Sys2Proof/WellFormed.lean ====
section
/-! DEFINITION. Which instructions can be encoded: the conditions under which R67 row 5 does not raise
ILLEGAL_FIELD, as far as they depend on the encoding alone. -/

namespace Sys2Proof

/-! ## Element formats (R236, R240) -/

/-- Whether the format is an integer format (R232). -/
def Fmt.isInt : Fmt → Bool
  | .int32 | .int64 | .int8 | .int4 => true
  | _ => false

/-- Width in bits (R232 to R234). -/
def Fmt.bits : Fmt → Nat
  | .fp32 | .int32 => 32
  | .fp16 | .bf16 => 16
  | .e4m3 | .e5m2 | .int8 | .e8m0 => 8
  | .e3m2 | .e2m3 => 6
  | .e2m1 | .int4 => 4
  | .int64 => 64

/-- The widening pairs of R240. -/
def Fmt.widens (src dst : Fmt) : Bool :=
  match src, dst with
  | .e4m3, .fp16 | .e4m3, .bf16 | .e4m3, .fp32 | .e5m2, .fp16 | .e5m2, .bf16 | .e5m2, .fp32
  | .e3m2, .fp16 | .e3m2, .bf16 | .e3m2, .fp32 | .e2m3, .fp16 | .e2m3, .bf16 | .e2m3, .fp32
  | .e2m1, .fp16 | .e2m1, .bf16 | .e2m1, .fp32 => true
  | .fp16, .fp32 | .bf16, .fp32 => true
  | .e2m1, .e4m3 | .e2m1, .e5m2 | .e2m1, .e3m2 | .e2m1, .e2m3 => true
  | .e3m2, .e5m2 | .e2m3, .e4m3 => true
  | .int4, .fp16 | .int4, .bf16 | .int4, .fp32 | .int8, .fp16 | .int8, .bf16 | .int8, .fp32 => true
  | .int4, .e4m3 | .int4, .e5m2 => true
  | .e8m0, .fp32 => true
  | _, _ => if src.isInt && dst.isInt then decide (src.bits < dst.bits) else false

/-- The pairs and rounding codes that `FCVT` allows (R263). -/
def fcvtOk (src dst : Fmt) (rnd : Rnd) : Bool :=
  src != dst
  && !(src.isInt && dst == .e8m0) && !(src == .e8m0 && dst.isInt)
  && (if src.isInt && dst.isInt then rnd == .rne
      else if src.widens dst then rnd != .sr
      else if dst.isInt || dst == .e8m0 then rnd != .sr
      else true)

/-- The destinations, slots and rounding codes that `FCVTP` allows (R264). -/
def fcvtpOk (dst : Fmt) (slot : BitVec 2) (rnd : Rnd) : Bool :=
  match dst with
  | .fp16 | .bf16 => slot == 0
  | .e4m3 | .e5m2 => decide (slot.toNat < 2)
  | .int8 => decide (slot.toNat < 2) && rnd != .sr
  | .e2m1 => true
  | .int4 => rnd != .sr
  | _ => false

/-! ## The memory word (R64, R65) -/

/-- The place of a scope in the order of R128, which is also its code (R64). -/
def Scope.code : Scope → Nat
  | .thread => 0 | .crew => 1 | .team => 2 | .cluster => 3 | .die => 4 | .device => 5 | .system => 6

/-- ORD = plain only at SCOPE 0 (R65). -/
def MemWord.base (m : MemWord) : Bool := m.ord != .plain || m.scope == .thread
/-- A load: not a release; RC only where it is allowed; a widest scope (R65). -/
def MemWord.load (m : MemWord) (widest : Scope) (rc : Bool) : Bool :=
  m.base && m.ord != .release && decide (m.scope.code ≤ widest.code) && (rc || m.rc == 0)
/-- A store: not an acquire, no RC, a widest scope (R65). -/
def MemWord.store (m : MemWord) (widest : Scope) : Bool :=
  m.base && m.ord != .acquire && decide (m.scope.code ≤ widest.code) && m.rc == 0
/-- `FENCE` (R65, R174). -/
def MemWord.fence (m : MemWord) : Bool := m.ord != .relaxed && m.off == 0 && m.evict == 0 && m.rc == 0
/-- `CCTL` (R175). -/
def MemWord.cctl (m : MemWord) : Bool := m.ord == .relaxed && m.evict == 0 && m.rc == 0
/-- `ICINV` (R65, R177). -/
def MemWord.icinv (m : MemWord) : Bool := m.ord == .relaxed && m.off == 0 && m.evict == 0 && m.rc == 0
/-- `PREF` (R176). -/
def MemWord.pref (m : MemWord) : Bool := m.ord == .relaxed
/-- An atomic: no RC, and relaxed beside the acquire-release bit (R65, R169). -/
def MemWord.atomic (m : MemWord) (ar : Bool) : Bool := m.base && m.rc == 0 && (!ar || m.ord == .relaxed)

/-- The widths of an atomic operation (R170). -/
def AtomOp.widthOk (op : AtomOp) (wide : Bool) : Bool :=
  match op with
  | .fadd => !wide
  | .maxidx => wide
  | _ => true

/-- The sizes a store may have (R159). -/
def Size.storeOk : Size → Bool
  | .s8 | .s16 => false
  | _ => true

/-! ## Commands (R194) -/

/-- The command byte and the barrier operand `x` of a command that may count on a barrier. -/
def CmdByte.ok (cb : CmdByte) (x : Spec) : Bool := (cb.tv || cb.tok == 0) && (cb.bv || x == 0)
/-- A command byte whose BV must be 0. -/
def CmdByte.noBar (cb : CmdByte) : Bool := (cb.tv || cb.tok == 0) && !cb.bv

/-- The roles a frame format has (R203, R268). -/
def FrameFmt.isAcc : FrameFmt → Bool
  | .accF32 | .accS32 => true
  | _ => false
/-- The MX formats, which have scales (R235, R268). -/
def FrameFmt.isMx : FrameFmt → Bool
  | .mxe4m3 | .mxe5m2 | .mxe3m2 | .mxe2m3 | .mxe2m1 | .mxint8 => true
  | _ => false

/-- The operations of a `CHAIN` (R312): code and constant index of operation `i`. -/
def chainOp (ops : BitVec 56) (i : Nat) : Nat × Nat :=
  let v := (ops >>> (7 * i)).toNat % 128
  (v % 16, v / 16)
def ChainTy.isInt : ChainTy → Bool
  | .s32 | .s16 | .s8 => true
  | _ => false
/-- One operation of a chain is legal for its type (R312). -/
def chainOpOk (ty : ChainTy) (o : Nat × Nat) : Bool :=
  match o.1 with
  | 0 => o.2 == 0
  | 6 | 7 => o.2 == 0
  | 11 | 12 | 14 => ty.isInt
  | 13 => decide (o.2 ≤ 6)
  | 15 => false
  | _ => true
/-- After an end operation every later operation is 0 (R312). -/
def chainOk (ty : ChainTy) (ops : BitVec 56) : Bool :=
  (List.range 8).all fun i =>
    chainOpOk ty (chainOp ops i) && (i == 0 || (chainOp ops (i - 1)).1 != 0 || chainOp ops i == (0, 0))

/-- Scope codes 2 to 5 of `BARWAIT`, `BARTEST` and `GINV` (R192, R307). -/
def Scope.mid : Scope → Bool
  | .team | .cluster | .die | .device => true
  | _ => false

/-! ## Instructions -/

/-- An instruction that the encoding can express and R67 row 5 lets pass. Events have no encoding. -/
def Instr.wf : Instr → Bool
  | .bra _ form a _ | .braHint _ form a _ _ => form != .always || a == 0
  | .replay c _ => c.pred == 7 && !c.neg
  | .fadd _ r _ _ _ _ | .fmul _ r _ _ _ _ | .ffma _ r _ _ _ _ _ | .faddImm _ r _ _ _ _ | .fmulImm _ r _ _ _ _
  | .frnd _ r _ _ | .fdiv _ r _ _ _ => r != .sr
  | .hadd2 _ _ r _ _ _ _ | .hmul2 _ _ r _ _ _ _ | .hfma2 _ _ r _ _ _ _ _
  | .hadd2Imm _ _ r _ _ _ _ | .hmul2Imm _ _ r _ _ _ _ => r != .sr
  | .fcvt _ r _ src dst _ _ => fcvtOk src dst r
  | .fcvtp _ r _ dst slot _ _ _ _ => fcvtpOk dst slot r
  | .ld _ _ m _ _ => m.load .system true
  | .lds _ _ m _ _ => m.load .team false
  | .ldc _ _ m _ _ => m.load .cluster false
  | .st _ sz m _ _ => m.store .system && sz.storeOk
  | .sts _ sz m _ _ => m.store .team && sz.storeOk
  | .stc _ sz m _ _ => m.store .cluster && sz.storeOk
  | .fence _ m => m.fence
  | .cctl _ _ m _ _ => m.cctl
  | .icinv _ m _ _ => m.icinv
  | .pref _ m _ => m.pref
  | .atom _ op wide ar m _ _ _ | .atoms _ op wide ar m _ _ _ => m.atomic ar && op.widthOk wide
  | .atomcas _ _ ar m _ _ _ _ => m.atomic ar
  | .red _ op wide m _ _ => m.atomic false && m.ord != .acquire && op.widthOk wide
  | .astream _ _ _ _ _ n0 n1 cmd => n0 != 0 && n1 != 0 && cmd.noBar
  | .opush _ _ _ n => decide (1 ≤ n.toNat) && decide (n.toNat ≤ 16)
  | .gather _ _ _ _ _ _ x count cmd | .scatter _ _ _ _ _ _ x count cmd => count != 0 && cmd.ok x
  | .cpy _ _ _ _ x cmd | .cpyr _ _ _ _ x _ cmd => cmd.ok x
  | .cpy2g _ _ _ _ x pitch esz count ph pw cmd =>
    pitch != 0 && esz != 3 && count != 0 && ph != 0 && pw != 0 && cmd.ok x
  | .cpyt _ _ _ _ b x _ role fmt pitch count cmd =>
    (role == .acc) == fmt.isAcc && fmt.isMx == (b != 0xFF#8) && pitch != 0 && count != 0 && cmd.ok x
  | .bararv _ _ x _ b _ => x || b == 0
  | .barwait _ sc _ _ _ | .bartest _ sc _ _ _ => sc.mid
  | .fred _ s32 _ _ _ x _ e parts cmd => parts != 0 && (!s32 || e == 0) && cmd.ok x
  | .mloop _ _ _ _ _ fv f tv tok n _ _ =>
    n != 0 && (!fv || decide (n.toNat ≤ 64)) && (tv || tok == 0) && (fv || f == 0)
  | .mconv _ _ _ _ _ _ tv tok => tv || tok == 0
  | .mqnt _ _ role fmt _ _ => role != .acc && fmt.isMx
  | .sbind _ slot _ _ => decide (slot.toNat ≤ 63) || slot == 0x7F#7
  | .ginv _ sc _ => sc.mid
  | .chain _ _ ty _ _ _ x ops cmd => cmd.ok x && chainOk ty ops
  | .pdec _ _ x cmd => cmd.ok x
  | .launch _ _ cmd | .spawn _ _ _ _ cmd | .attest _ _ _ _ cmd => cmd.noBar
  | _ => true

end Sys2Proof
end

