-- ==== Sys2Proof/Decode.lean ====
section
/-! DEFINITION. Instruction words: decoding (R53 to R56, R62 to R67), and the encoder after it. Both go through `Fields`, the fields
of an instruction's words; operand numbers, enumerations and immediates are read from the fields in `decodeFields` and
put back in `encodeFields`. -/

namespace Sys2Proof

/-! ## Fields (R56, R63) -/

/-- The fields of an instruction: word 0, word 1, and words 2 and 3 (zero where LEN gives none). -/
structure Fields where
  len   : BitVec 2
  stall : BitVec 4
  pred  : BitVec 3
  neg   : BitVec 1
  wait  : BitVec 8
  op    : BitVec 6
  grp   : BitVec 4
  sub   : BitVec 4
  d     : Spec
  a     : Spec
  b     : Spec
  c     : Spec
  w2    : W32
  w3    : W32
  deriving DecidableEq, Repr

/-- Word 0 (R56). -/
def Fields.word0 (f : Fields) : W32 :=
  f.sub ++ f.grp ++ f.op ++ f.wait ++ f.neg ++ f.pred ++ f.stall ++ f.len
/-- Word 1 (R56). -/
def Fields.word1 (f : Fields) : W32 := f.c ++ f.b ++ f.a ++ f.d

/-- The fields of four words; words beyond LEN belong to other instructions and are not read. -/
def Fields.ofWords (w0 w1 w2 w3 : W32) : Fields :=
  let len := w0.extractLsb' 0 2
  { len, stall := w0.extractLsb' 2 4, pred := w0.extractLsb' 6 3, neg := w0.extractLsb' 9 1,
    wait := w0.extractLsb' 10 8, op := w0.extractLsb' 18 6, grp := w0.extractLsb' 24 4, sub := w0.extractLsb' 28 4,
    d := w1.extractLsb' 0 8, a := w1.extractLsb' 8 8, b := w1.extractLsb' 16 8, c := w1.extractLsb' 24 8,
    w2 := if len = 0 then 0 else w2, w3 := if len = 2 then w3 else 0 }

/-- The control fields (R56). -/
def Fields.ctl (f : Fields) : Ctl := { wait := f.wait, neg := f.neg = 1, pred := f.pred, stall := f.stall }

/-! ## Codes of the enumerations -/

def ICmp.code : ICmp → Nat
  | .eq => 0 | .ne => 1 | .lt => 2 | .le => 3 | .gt => 4 | .ge => 5
def ICmp.ofCode : Nat → Option ICmp
  | 0 => some .eq | 1 => some .ne | 2 => some .lt | 3 => some .le | 4 => some .gt | 5 => some .ge | _ => none
def FCmp.code : FCmp → Nat
  | .eq => 0 | .ne => 1 | .lt => 2 | .le => 3 | .gt => 4 | .ge => 5 | .un => 6 | .ord => 7
def FCmp.ofCode : Nat → Option FCmp
  | 0 => some .eq | 1 => some .ne | 2 => some .lt | 3 => some .le | 4 => some .gt | 5 => some .ge
  | 6 => some .un | 7 => some .ord | _ => none
def Rnd.code : Rnd → Nat
  | .rne => 0 | .rz => 1 | .ru => 2 | .rd => 3 | .sr => 4
def Rnd.ofCode : Nat → Option Rnd
  | 0 => some .rne | 1 => some .rz | 2 => some .ru | 3 => some .rd | 4 => some .sr | _ => none
def Special.code : Special → Nat
  | .lane => 0 | .quad => 1 | .crew => 2 | .team => 3 | .thread => 4 | .core => 5 | .cluster => 6 | .die => 7
  | .gridX => 8 | .gridY => 9 | .gridZ => 10 | .clock => 11 | .entry => 12
def Special.ofCode : Nat → Option Special
  | 0 => some .lane | 1 => some .quad | 2 => some .crew | 3 => some .team | 4 => some .thread | 5 => some .core
  | 6 => some .cluster | 7 => some .die | 8 => some .gridX | 9 => some .gridY | 10 => some .gridZ | 11 => some .clock
  | 12 => some .entry | _ => none
def CvtiOp.code : CvtiOp → Nat
  | .s32s8 => 0 | .b32b8 => 1 | .s32s16 => 2 | .b32b16 => 3 | .s8s32 => 4 | .b8s32 => 5 | .s16s32 => 6 | .b16s32 => 7
  | .s32b32 => 8 | .b32s32 => 9 | .s4s32 => 10 | .s32s4 => 11
def CvtiOp.ofCode : Nat → Option CvtiOp
  | 0 => some .s32s8 | 1 => some .b32b8 | 2 => some .s32s16 | 3 => some .b32b16 | 4 => some .s8s32 | 5 => some .b8s32
  | 6 => some .s16s32 | 7 => some .b16s32 | 8 => some .s32b32 | 9 => some .b32s32 | 10 => some .s4s32
  | 11 => some .s32s4 | _ => none
def BraForm.code : BraForm → Nat
  | .always => 0 | .zero => 1 | .nonzero => 2
def BraForm.ofCode : Nat → Option BraForm
  | 0 => some .always | 1 => some .zero | 2 => some .nonzero | _ => none
def Hint.code : Hint → Nat
  | .none => 0 | .uni => 1 | .both => 2
def Hint.ofCode : Nat → Option Hint
  | 0 => some .none | 1 => some .uni | 2 => some .both | _ => Option.none
def ShflMode.code : ShflMode → Nat
  | .idx => 0 | .up => 1 | .down => 2 | .xor => 3
def ShflMode.ofCode : Nat → Option ShflMode
  | 0 => some .idx | 1 => some .up | 2 => some .down | 3 => some .xor | _ => none
def VoteMode.code : VoteMode → Nat
  | .all => 0 | .any => 1 | .eq => 2 | .ballot => 3
def VoteMode.ofCode : Nat → Option VoteMode
  | 0 => some .all | 1 => some .any | 2 => some .eq | 3 => some .ballot | _ => none
def RedOp.code : RedOp → Nat
  | .add => 0 | .mins => 1 | .minb => 2 | .maxs => 3 | .maxb => 4 | .and => 5 | .or => 6 | .xor => 7 | .fadd => 8
  | .fmin => 9 | .fmax => 10 | .maxidx => 11
def RedOp.ofCode : Nat → Option RedOp
  | 0 => some .add | 1 => some .mins | 2 => some .minb | 3 => some .maxs | 4 => some .maxb | 5 => some .and
  | 6 => some .or | 7 => some .xor | 8 => some .fadd | 9 => some .fmin | 10 => some .fmax | 11 => some .maxidx
  | _ => none
/-- R236. -/
def Fmt.code : Fmt → Nat
  | .fp32 => 0 | .fp16 => 1 | .bf16 => 2 | .e4m3 => 3 | .e5m2 => 4 | .e3m2 => 5 | .e2m3 => 6 | .e2m1 => 7
  | .int32 => 8 | .int64 => 9 | .int8 => 10 | .int4 => 11 | .e8m0 => 12
def Fmt.ofCode : Nat → Option Fmt
  | 0 => some .fp32 | 1 => some .fp16 | 2 => some .bf16 | 3 => some .e4m3 | 4 => some .e5m2 | 5 => some .e3m2
  | 6 => some .e2m3 | 7 => some .e2m1 | 8 => some .int32 | 9 => some .int64 | 10 => some .int8 | 11 => some .int4
  | 12 => some .e8m0 | _ => none
/-- R66. -/
def Size.code : Size → Nat
  | .b8 => 0 | .s8 => 1 | .b16 => 2 | .s16 => 3 | .b32 => 4 | .b64 => 5 | .b128 => 6
def Size.ofCode : Nat → Option Size
  | 0 => some .b8 | 1 => some .s8 | 2 => some .b16 | 3 => some .s16 | 4 => some .b32 | 5 => some .b64 | 6 => some .b128
  | _ => none
def Scope.ofCode : Nat → Option Scope
  | 0 => some .thread | 1 => some .crew | 2 => some .team | 3 => some .cluster | 4 => some .die | 5 => some .device
  | 6 => some .system | _ => none
def Ordr.code : Ordr → Nat
  | .plain => 0 | .relaxed => 1 | .acquire => 2 | .release => 3
def Ordr.ofCode : Nat → Option Ordr
  | 0 => some .plain | 1 => some .relaxed | 2 => some .acquire | 3 => some .release | _ => none
def CctlOp.code : CctlOp → Nat
  | .wb => 0 | .inv => 1 | .wbinv => 2
def CctlOp.ofCode : Nat → Option CctlOp
  | 0 => some .wb | 1 => some .inv | 2 => some .wbinv | _ => none
/-- R170. -/
def AtomOp.code : AtomOp → Nat
  | .add => 0 | .fadd => 1 | .mins => 2 | .minb => 3 | .maxs => 4 | .maxb => 5 | .and => 6 | .or => 7 | .xor => 8
  | .exch => 9 | .inc => 10 | .dec => 11 | .maxidx => 12
def AtomOp.ofCode : Nat → Option AtomOp
  | 0 => some .add | 1 => some .fadd | 2 => some .mins | 3 => some .minb | 4 => some .maxs | 5 => some .maxb
  | 6 => some .and | 7 => some .or | 8 => some .xor | 9 => some .exch | 10 => some .inc | 11 => some .dec
  | 12 => some .maxidx | _ => none
/-- R268. -/
def FrameFmt.code : FrameFmt → Nat
  | .e4m3 => 1 | .e5m2 => 2 | .e3m2 => 3 | .e2m3 => 4 | .e2m1 => 5 | .int8 => 6 | .int4 => 7 | .fp16 => 8 | .bf16 => 9
  | .mxe4m3 => 0x11 | .mxe5m2 => 0x12 | .mxe3m2 => 0x13 | .mxe2m3 => 0x14 | .mxe2m1 => 0x15 | .mxint8 => 0x16
  | .accF32 => 0x20 | .accS32 => 0x21
def FrameFmt.ofCode : Nat → Option FrameFmt
  | 1 => some .e4m3 | 2 => some .e5m2 | 3 => some .e3m2 | 4 => some .e2m3 | 5 => some .e2m1 | 6 => some .int8
  | 7 => some .int4 | 8 => some .fp16 | 9 => some .bf16 | 0x11 => some .mxe4m3 | 0x12 => some .mxe5m2
  | 0x13 => some .mxe3m2 | 0x14 => some .mxe2m3 | 0x15 => some .mxe2m1 | 0x16 => some .mxint8 | 0x20 => some .accF32
  | 0x21 => some .accS32 | _ => none
def Role.code : Role → Nat
  | .a => 0 | .b => 1 | .acc => 2
def Role.ofCode : Nat → Option Role
  | 0 => some .a | 1 => some .b | 2 => some .acc | _ => none
/-- R312. -/
def ChainTy.code : ChainTy → Nat
  | .f32 => 0 | .f16 => 1 | .bf16 => 2 | .s32 => 4 | .s16 => 5 | .s8 => 6
def ChainTy.ofCode : Nat → Option ChainTy
  | 0 => some .f32 | 1 => some .f16 | 2 => some .bf16 | 4 => some .s32 | 5 => some .s16 | 6 => some .s8 | _ => none

/-- A truth value as a bit. -/
def bit1 (b : Bool) : BitVec 1 := if b then 1 else 0
/-- A bit as a truth value. -/
def isOne (b : BitVec 1) : Bool := b == 1

/-- The memory word (R64). -/
def MemWord.bits (m : MemWord) : W32 :=
  m.off ++ m.rc ++ m.evict ++ BitVec.ofNat 3 m.scope.code ++ BitVec.ofNat 2 m.ord.code
def MemWord.ofBits (w : W32) : Option MemWord :=
  match Scope.ofCode (w.extractLsb' 2 3).toNat, Ordr.ofCode (w.extractLsb' 0 2).toNat with
  | some scope, some ord =>
    some { off := w.extractLsb' 12 20, rc := w.extractLsb' 8 4, evict := w.extractLsb' 5 3, scope, ord }
  | _, _ => none

/-- The command byte (R194). -/
def CmdByte.bits (cb : CmdByte) : BitVec 8 := bit1 cb.bv ++ bit1 cb.tv ++ 0#3 ++ cb.tok
def CmdByte.ofBits (w : BitVec 8) : Option CmdByte :=
  if w.extractLsb' 3 3 = 0 then
    some { bv := isOne (w.extractLsb' 7 1), tv := isOne (w.extractLsb' 6 1), tok := w.extractLsb' 0 3 }
  else none

/-! ## The opcode map (R66) -/

/-- The units that execute an operation. -/
inductive Units where
  | both | crew | access
  deriving DecidableEq, Repr

/-- The unit column of the opcode map; none for an unassigned operation (R67 row 2). -/
def unitsOf (grp op : Nat) : Option Units :=
  match grp with
  | 0x0 => if op ≤ 0x0F then some .both else none
  | 0x1 => if op ≤ 0x0A then some .both else if op = 0x0B then some .crew else none
  | 0x2 => if op = 2 then some .crew else if op ≤ 5 then some .both else none
  | 0x3 => if op = 6 ∨ op = 7 ∨ op = 8 then some .crew else if op ≤ 0x0B then some .both else none
  | 0x4 => if op ≤ 4 then some .crew else none
  | 0x5 => if op ≤ 7 then some .crew else none
  | 0x6 => if op ≤ 5 then some .crew else none
  | 0x7 => if op ≤ 0x0A then some .crew else none
  | 0x8 => if 2 ≤ op ∧ op ≤ 5 then some .crew else if op ≤ 9 then some .both else none
  | 0x9 => if op = 2 then some .crew else if op ≤ 3 then some .both else none
  | 0xA => if op = 2 then some .crew else if op ≤ 8 then some .access else if op ≤ 0x10 then some .both else none
  | 0xB => if op ≤ 5 then some .crew else none
  | 0xC => if op ≤ 0x0A then some .crew else none
  | 0xD => if op = 3 ∨ op = 5 then some .access else if op ≤ 5 then some .both else none
  | 0xE => if op ≤ 3 then some .crew else none
  | 0xF => if op = 3 ∨ op = 5 ∨ op = 6 then some .crew else if op ≤ 6 then some .both else none
  | _ => none

/-! ## Decoding the fields -/

namespace Fields

/-- A 64-bit instruction with SUB as given and specifier C unused. -/
def three (f : Fields) (i : Instr) : Option Instr := if f.len = 0 ∧ f.c = 0 then some i else none
/-- A 64-bit instruction that uses all four specifiers. -/
def four (f : Fields) (i : Instr) : Option Instr := if f.len = 0 then some i else none
/-- A 64-bit instruction with D and A. -/
def two (f : Fields) (i : Instr) : Option Instr := if f.len = 0 ∧ f.b = 0 ∧ f.c = 0 then some i else none
/-- A 64-bit instruction with D only. -/
def onlyD (f : Fields) (i : Instr) : Option Instr :=
  if f.len = 0 ∧ f.a = 0 ∧ f.b = 0 ∧ f.c = 0 then some i else none
/-- A 64-bit instruction with A only. -/
def onlyA (f : Fields) (i : Instr) : Option Instr :=
  if f.len = 0 ∧ f.d = 0 ∧ f.b = 0 ∧ f.c = 0 then some i else none
/-- A 64-bit instruction with no specifier. -/
def bare (f : Fields) (i : Instr) : Option Instr :=
  if f.len = 0 ∧ f.d = 0 ∧ f.a = 0 ∧ f.b = 0 ∧ f.c = 0 then some i else none
/-- "64, 96i" with D, A and B (R63): the register form and the immediate form. -/
def regImm (f : Fields) (r m : Instr) : Option Instr :=
  if f.c = 0 then (if f.len = 0 then some r else if f.len = 1 ∧ f.b = 0 then some m else none) else none
/-- The same with C used. -/
def regImmC (f : Fields) (r m : Instr) : Option Instr :=
  if f.len = 0 then some r else if f.len = 1 ∧ f.b = 0 then some m else none
/-- SUB is 0. -/
def sub0 (f : Fields) (o : Option Instr) : Option Instr := if f.sub = 0 then o else none
/-- SUB [0] is a modifier and SUB [3:1] is 0. -/
def sub1 (f : Fields) (k : Bool → Option Instr) : Option Instr :=
  if f.sub = 0 then k false else if f.sub = 1 then k true else none
/-- SUB [2:0] and SUB [3]. -/
def sub31 (f : Fields) (k : Nat → Bool → Option Instr) : Option Instr :=
  k (f.sub.extractLsb' 0 3).toNat (isOne (f.sub.extractLsb' 3 1))
/-- SUB [1:0] rounding, SUB [2] saturate, SUB [3] zero (R250). -/
def subRnd (f : Fields) (k : Rnd → Bool → Option Instr) : Option Instr :=
  if f.sub.extractLsb' 3 1 = 0 then
    match Rnd.ofCode (f.sub.extractLsb' 0 2).toNat with
    | some r => k r (isOne (f.sub.extractLsb' 2 1))
    | none => none
  else none
/-- SUB [0] format, SUB [2:1] rounding, SUB [3] saturate (R256). -/
def subHalf (f : Fields) (k : Bool → Rnd → Bool → Option Instr) : Option Instr :=
  match Rnd.ofCode (f.sub.extractLsb' 1 2).toNat with
  | some r => k (isOne (f.sub.extractLsb' 0 1)) r (isOne (f.sub.extractLsb' 3 1))
  | none => none
/-- Word 2 is a memory word (R63). -/
def mem (f : Fields) (k : MemWord → Option Instr) : Option Instr :=
  if f.len = 1 then (match MemWord.ofBits f.w2 with | some m => k m | none => none) else none
/-- The command byte in word 2 [7:0]. -/
def cmd (f : Fields) (k : CmdByte → Option Instr) : Option Instr :=
  match CmdByte.ofBits (f.w2.extractLsb' 0 8) with | some m => k m | none => none
/-- The command byte in word 2, whose other bits are zero. -/
def cmdOnly (f : Fields) (k : CmdByte → Option Instr) : Option Instr :=
  if f.w2.extractLsb' 8 24 = 0 then f.cmd k else none

/-- Group 0x0. -/
def group0 (f : Fields) : Option Instr :=
  let c := f.ctl
  match f.op.toNat with
  | 0x00 => f.sub1 fun s => f.regImm (.iadd c s f.d f.a f.b) (.iaddImm c s f.d f.a f.w2)
  | 0x01 => f.sub1 fun s => f.regImm (.isub c s f.d f.a f.b) (.isubImm c s f.d f.a f.w2)
  | 0x02 => f.sub0 (f.regImmC (.iaddc c f.d f.a f.b f.c) (.iaddcImm c f.d f.a f.w2 f.c))
  | 0x03 => f.sub0 (f.regImm (.imul c f.d f.a f.b) (.imulImm c f.d f.a f.w2))
  | 0x04 => f.sub1 fun s => f.regImm (.imulh c s f.d f.a f.b) (.imulhImm c s f.d f.a f.w2)
  | 0x05 => f.sub0 (f.four (.imad c f.d f.a f.b f.c))
  | 0x06 => f.sub1 fun s => f.four (.imadw c s f.d f.a f.b f.c)
  | 0x07 => f.sub1 fun s => f.regImm (.idiv c s f.d f.a f.b) (.idivImm c s f.d f.a f.w2)
  | 0x08 => f.sub1 fun s => f.regImm (.irem c s f.d f.a f.b) (.iremImm c s f.d f.a f.w2)
  | 0x09 => f.sub1 fun s => f.regImm (.imin c s f.d f.a f.b) (.iminImm c s f.d f.a f.w2)
  | 0x0A => f.sub1 fun s => f.regImm (.imax c s f.d f.a f.b) (.imaxImm c s f.d f.a f.w2)
  | 0x0B => f.sub1 fun s => f.two (.iabs c s f.d f.a)
  | 0x0C => f.sub1 fun s => f.two (.ineg c s f.d f.a)
  | 0x0D => f.sub31 fun n s =>
      match ICmp.ofCode n with
      | some cmp => f.regImm (.iset c cmp s f.d f.a f.b) (.isetImm c cmp s f.d f.a f.w2)
      | none => none
  | 0x0E => f.three (.lea c (f.sub.extractLsb' 0 3) (isOne (f.sub.extractLsb' 3 1)) f.d f.a f.b)
  | 0x0F => f.sub1 fun s => f.regImm (.iadd64 c s f.d f.a f.b) (.iadd64Imm c s f.d f.a f.w2)
  | _ => none

/-- Group 0x1. -/
def group1 (f : Fields) : Option Instr :=
  let c := f.ctl
  match f.op.toNat with
  | 0x00 => f.sub0 (if f.len = 1 ∧ f.w2.extractLsb' 8 24 = 0 then
      some (.ltab c f.d f.a f.b f.c (f.w2.extractLsb' 0 8)) else none)
  | 0x01 => f.sub1 fun s => f.regImm (.shl c s f.d f.a f.b) (.shlImm c s f.d f.a f.w2)
  | 0x02 => f.sub1 fun s => f.regImm (.shr c s f.d f.a f.b) (.shrImm c s f.d f.a f.w2)
  | 0x03 => f.sub1 fun s => f.regImm (.sar c s f.d f.a f.b) (.sarImm c s f.d f.a f.w2)
  | 0x04 => f.sub1 fun s => f.regImm (.rot c s f.d f.a f.b) (.rotImm c s f.d f.a f.w2)
  | 0x05 => f.sub1 fun s => f.four (.fshf c s f.d f.a f.b f.c)
  | 0x06 => f.sub0 (f.two (.popc c f.d f.a))
  | 0x07 => f.sub0 (f.two (.clz c f.d f.a))
  | 0x08 => f.sub0 (f.two (.brev c f.d f.a))
  | 0x09 => f.sub1 fun s => f.four (.bfx c s f.d f.a f.b f.c)
  | 0x0A => f.sub0 (f.four (.bfi c f.d f.a f.b f.c))
  | 0x0B => f.sub0 (if f.len = 1 ∧ f.w2.extractLsb' 8 24 = 0 then
      some (.ptab c f.d f.a f.b f.c (f.w2.extractLsb' 0 8)) else none)
  | _ => none

/-- Group 0x2. -/
def group2 (f : Fields) : Option Instr :=
  let c := f.ctl
  match f.op.toNat with
  | 0x00 => f.sub1 fun s => f.two (.mov c s f.d f.a)
  | 0x01 => f.sub1 fun s =>
      if f.a = 0 ∧ f.b = 0 ∧ f.c = 0 then
        (if s then (if f.len = 2 then some (.moviB64 c f.d f.w2 f.w3) else none)
         else (if f.len = 1 then some (.movi c f.d f.w2) else none))
      else none
  | 0x02 => f.sub0 (f.three (.movk c f.d f.a f.b))
  | 0x03 => f.sub1 fun s => f.four (.sel c s f.d f.a f.b f.c)
  | 0x04 => f.sub0 (match Special.ofCode f.a.toNat with | some sp => f.two (.rdsp c f.d sp) | none => none)
  | 0x05 => match CvtiOp.ofCode f.sub.toNat with | some o => f.two (.cvti c o f.d f.a) | none => none
  | _ => none

/-- Group 0x3. -/
def group3 (f : Fields) : Option Instr :=
  let c := f.ctl
  match f.op.toNat with
  | 0x00 =>
    if f.d = 0 ∧ f.b = 0 ∧ f.c = 0 then
      match BraForm.ofCode f.sub.toNat with
      | some form =>
        if f.len = 1 then some (.bra c form f.a f.w2)
        else if f.len = 2 then
          (match Hint.ofCode f.w3.toNat with | some h => some (.braHint c form f.a f.w2 h) | none => none)
        else none
      | none => none
    else none
  | 0x01 => f.sub0 (f.onlyA (.brx c f.a))
  | 0x02 => f.sub0 (
    if f.a = 0 ∧ f.b = 0 ∧ f.c = 0 then
      if f.len = 1 then some (.call c f.d f.w2)
      else if f.len = 2 then
        (match Hint.ofCode f.w3.toNat with | some h => some (.callHint c f.d f.w2 h) | none => none)
      else none
    else none)
  | 0x03 => f.sub0 (f.two (.callx c f.d f.a))
  | 0x04 => f.sub0 (f.onlyA (.ret c f.a))
  | 0x05 => f.sub0 (f.bare (.exit c))
  | 0x06 => f.sub0 (f.onlyA (.enrol c f.a))
  | 0x07 => f.sub0 (f.onlyA (.join c f.a))
  | 0x08 => f.sub0 (f.bare (.reform c))
  | 0x09 => f.sub0 (f.bare (.yield c))
  | 0x0A => f.sub0 (f.bare (.nop c))
  | 0x0B => f.sub0 (if f.len = 1 ∧ f.d = 0 ∧ f.a = 0 ∧ f.b = 0 ∧ f.c = 0 ∧ f.w2.extractLsb' 16 16 = 0 then
      some (.replay c (f.w2.extractLsb' 0 16)) else none)
  | _ => none

/-- Group 0x4: word 2 [7:0] is VALID and word 2 [8] EXCL (R118). -/
def group4 (f : Fields) : Option Instr :=
  let c := f.ctl
  let v : Spec := f.w2.extractLsb' 0 8
  match f.op.toNat with
  | 0x00 =>
    if f.len = 1 ∧ f.w2.extractLsb' 8 24 = 0 ∧ f.sub.extractLsb' 3 1 = 0 then
      match ShflMode.ofCode (f.sub.extractLsb' 0 2).toNat with
      | some m => some (.shfl c m (isOne (f.sub.extractLsb' 2 1)) f.d f.a f.b f.c v)
      | none => none
    else none
  | 0x01 => match VoteMode.ofCode f.sub.toNat with | some m => f.two (.vote c m f.d f.a) | none => none
  | 0x02 =>
    if f.len = 1 ∧ f.b = 0 ∧ f.w2.extractLsb' 8 24 = 0 then
      match RedOp.ofCode f.sub.toNat with | some o => some (.redc c o f.d f.a f.c v) | none => none
    else none
  | 0x03 =>
    if f.len = 1 ∧ f.b = 0 ∧ f.w2.extractLsb' 9 23 = 0 then
      match RedOp.ofCode f.sub.toNat with
      | some o => some (.scan c o (isOne (f.w2.extractLsb' 8 1)) f.d f.a f.c v)
      | none => none
    else none
  | 0x04 => f.sub1 fun s => f.two (.matchLanes c s f.d f.a)
  | _ => none

/-- Group 0x5. -/
def group5 (f : Fields) : Option Instr :=
  let c := f.ctl
  match f.op.toNat with
  | 0x00 => f.subRnd fun r s => f.regImm (.fadd c r s f.d f.a f.b) (.faddImm c r s f.d f.a f.w2)
  | 0x01 => f.subRnd fun r s => f.regImm (.fmul c r s f.d f.a f.b) (.fmulImm c r s f.d f.a f.w2)
  | 0x02 => f.subRnd fun r s => f.four (.ffma c r s f.d f.a f.b f.c)
  | 0x03 => f.sub1 fun n => f.regImm (.fmin c n f.d f.a f.b) (.fminImm c n f.d f.a f.w2)
  | 0x04 => f.sub1 fun n => f.regImm (.fmax c n f.d f.a f.b) (.fmaxImm c n f.d f.a f.w2)
  | 0x05 => match FCmp.ofCode f.sub.toNat with
      | some m => f.regImm (.fset c m f.d f.a f.b) (.fsetImm c m f.d f.a f.w2) | none => none
  | 0x06 => f.sub0 (f.regImm (.fclass c f.d f.a f.b) (.fclassImm c f.d f.a f.w2))
  | 0x07 => f.subRnd fun r s => if s then none else f.two (.frnd c r f.d f.a)
  | _ => none

/-- Group 0x6. -/
def group6 (f : Fields) : Option Instr :=
  let c := f.ctl
  match f.op.toNat with
  | 0x00 => f.subHalf fun bf r s => f.regImm (.hadd2 c bf r s f.d f.a f.b) (.hadd2Imm c bf r s f.d f.a f.w2)
  | 0x01 => f.subHalf fun bf r s => f.regImm (.hmul2 c bf r s f.d f.a f.b) (.hmul2Imm c bf r s f.d f.a f.w2)
  | 0x02 => f.subHalf fun bf r s => f.four (.hfma2 c bf r s f.d f.a f.b f.c)
  | 0x03 => if f.sub.extractLsb' 2 2 = 0 then
      f.regImm (.hmin2 c (isOne (f.sub.extractLsb' 0 1)) (isOne (f.sub.extractLsb' 1 1)) f.d f.a f.b)
        (.hmin2Imm c (isOne (f.sub.extractLsb' 0 1)) (isOne (f.sub.extractLsb' 1 1)) f.d f.a f.w2) else none
  | 0x04 => if f.sub.extractLsb' 2 2 = 0 then
      f.regImm (.hmax2 c (isOne (f.sub.extractLsb' 0 1)) (isOne (f.sub.extractLsb' 1 1)) f.d f.a f.b)
        (.hmax2Imm c (isOne (f.sub.extractLsb' 0 1)) (isOne (f.sub.extractLsb' 1 1)) f.d f.a f.w2) else none
  | 0x05 => f.sub31 fun n bf =>
      match FCmp.ofCode n with
      | some m => f.regImm (.hset2 c m bf f.d f.a f.b) (.hset2Imm c m bf f.d f.a f.w2)
      | none => none
  | _ => none

/-- Group 0x7. -/
def group7 (f : Fields) : Option Instr :=
  let c := f.ctl
  match f.op.toNat with
  | 0x00 => f.sub0 (f.two (.rcp c f.d f.a))
  | 0x01 => f.sub0 (f.two (.rsq c f.d f.a))
  | 0x02 => f.sub0 (f.two (.sqrt c f.d f.a))
  | 0x03 => f.sub0 (f.two (.exp2 c f.d f.a))
  | 0x04 => f.sub0 (f.two (.log2 c f.d f.a))
  | 0x05 => f.sub0 (f.two (.fsin c f.d f.a))
  | 0x06 => f.sub0 (f.two (.fcos c f.d f.a))
  | 0x07 => f.sub0 (f.two (.tanh c f.d f.a))
  | 0x08 => f.subRnd fun r s => if s then none else f.three (.fdiv c r f.d f.a f.b)
  | 0x09 => f.sub31 fun n s =>
      if f.len = 1 ∧ f.b = 0 ∧ f.c = 0 ∧ f.w2.extractLsb' 8 24 = 0 then
        match Rnd.ofCode n, Fmt.ofCode (f.w2.extractLsb' 0 4).toNat, Fmt.ofCode (f.w2.extractLsb' 4 4).toNat with
        | some r, some src, some dst => some (.fcvt c r s src dst f.d f.a)
        | _, _, _ => none
      else none
  | 0x0A => f.sub31 fun n s =>
      if f.len = 1 ∧ f.w2.extractLsb' 10 22 = 0 ∧ f.w2.extractLsb' 0 4 = 0 then
        match Rnd.ofCode n, Fmt.ofCode (f.w2.extractLsb' 4 4).toNat with
        | some r, some dst => some (.fcvtp c r s dst (f.w2.extractLsb' 8 2) f.d f.a f.b f.c)
        | _, _ => none
      else none
  | _ => none

/-- Group 0x8. -/
def group8 (f : Fields) : Option Instr :=
  let c := f.ctl
  let load (mk : Size → MemWord → Instr) : Option Instr := f.mem fun m =>
    match Size.ofCode f.sub.toNat with
    | some sz => if f.b = 0 ∧ f.c = 0 then some (mk sz m) else none
    | none => none
  let store (mk : Size → MemWord → Instr) : Option Instr := f.mem fun m =>
    match Size.ofCode f.sub.toNat with
    | some sz => if f.d = 0 ∧ f.c = 0 then some (mk sz m) else none
    | none => none
  match f.op.toNat with
  | 0x00 => load fun sz m => .ld c sz m f.d f.a
  | 0x01 => store fun sz m => .st c sz m f.a f.b
  | 0x02 => load fun sz m => .lds c sz m f.d f.a
  | 0x03 => store fun sz m => .sts c sz m f.a f.b
  | 0x04 => load fun sz m => .ldc c sz m f.d f.a
  | 0x05 => store fun sz m => .stc c sz m f.a f.b
  | 0x06 => f.sub0 (f.mem fun m =>
      if f.d = 0 ∧ f.a = 0 ∧ f.b = 0 ∧ f.c = 0 then some (.fence c m) else none)
  | 0x07 => f.mem fun m =>
      match CctlOp.ofCode f.sub.toNat with
      | some o => if f.d = 0 ∧ f.c = 0 then some (.cctl c o m f.a f.b) else none
      | none => none
  | 0x08 => f.sub0 (f.mem fun m => if f.d = 0 ∧ f.c = 0 then some (.icinv c m f.a f.b) else none)
  | 0x09 => f.sub0 (f.mem fun m => if f.d = 0 ∧ f.b = 0 ∧ f.c = 0 then some (.pref c m f.a) else none)
  | _ => none

/-- Group 0x9: SUB [0] 64-bit, SUB [3] acquire-release, SUB [2:1] zero (R169). -/
def group9 (f : Fields) : Option Instr :=
  let c := f.ctl
  let wide := isOne (f.sub.extractLsb' 0 1)
  let ar := isOne (f.sub.extractLsb' 3 1)
  if f.sub.extractLsb' 1 2 = 0 then
    match f.op.toNat with
    | 0x00 => f.mem fun m =>
        match AtomOp.ofCode f.c.toNat with | some o => some (.atom c o wide ar m f.d f.a f.b) | none => none
    | 0x01 => f.mem fun m => some (.atomcas c wide ar m f.d f.a f.b f.c)
    | 0x02 => f.mem fun m =>
        match AtomOp.ofCode f.c.toNat with | some o => some (.atoms c o wide ar m f.d f.a f.b) | none => none
    | 0x03 => f.mem fun m =>
        match AtomOp.ofCode f.c.toNat with
        | some o => if ar ∨ f.d ≠ 0 then none else some (.red c o wide m f.a f.b)
        | none => none
    | _ => none
  else none

/-- The queue X code of R193. -/
def queue (q : Spec) (k : BitVec 4 → Option Instr) : Option Instr :=
  if q.extractLsb' 4 4 = 0 then k (q.extractLsb' 0 4) else none

/-- Group 0xA (R193). -/
def groupA (f : Fields) : Option Instr :=
  let c := f.ctl
  match f.op.toNat with
  | 0x00 => f.sub0 (if f.len = 2 ∧ f.w3.extractLsb' 8 24 = 0 then
      queue f.d fun q =>
        match CmdByte.ofBits (f.w3.extractLsb' 0 8) with
        | some cmd => some (.astream c q f.a f.b f.c (f.w2.extractLsb' 0 16) (f.w2.extractLsb' 16 16) cmd)
        | none => none
      else none)
  | 0x01 => f.sub0 (if f.len = 1 ∧ f.b = 0 ∧ f.c = 0 ∧ f.w2.extractLsb' 5 27 = 0 then
      queue f.d fun q => some (.opush c q f.a (f.w2.extractLsb' 0 5)) else none)
  | 0x02 => f.sub1 fun w => queue f.a fun q => f.two (.opop c w f.d q)
  | 0x03 => if f.len = 1 ∧ f.w2.extractLsb' 24 8 = 0 then f.cmd fun m =>
      some (.gather c (f.sub.extractLsb' 0 3) (isOne (f.sub.extractLsb' 3 1)) f.d f.a f.b f.c (f.w2.extractLsb' 8 16) m)
      else none
  | 0x04 => if f.len = 1 ∧ f.w2.extractLsb' 24 8 = 0 then f.cmd fun m =>
      some (.scatter c (f.sub.extractLsb' 0 3) (isOne (f.sub.extractLsb' 3 1)) f.d f.a f.b f.c (f.w2.extractLsb' 8 16) m)
      else none
  | 0x05 => f.sub0 (if f.len = 1 then f.cmdOnly fun m => some (.cpy c f.d f.a f.b f.c m) else none)
  | 0x06 => f.sub0 (if f.len = 2 ∧ f.w2.extractLsb' 10 2 = 0 ∧ f.w3.extractLsb' 28 4 = 0 then f.cmd fun m =>
      some (.cpy2g c f.d f.a f.b f.c (f.w2.extractLsb' 12 20) (f.w2.extractLsb' 8 2) (f.w3.extractLsb' 16 12)
        (f.w3.extractLsb' 8 8) (f.w3.extractLsb' 0 8) m) else none)
  | 0x07 => f.sub1 fun pack => if f.len = 2 then f.cmd fun m =>
      match Role.ofCode (f.w2.extractLsb' 14 2).toNat, FrameFmt.ofCode (f.w2.extractLsb' 8 6).toNat with
      | some role, some fmt => some (.cpyt c pack f.d f.a f.b f.c (f.w2.extractLsb' 16 16) role fmt
          (f.w3.extractLsb' 12 20) (f.w3.extractLsb' 0 12) m)
      | _, _ => none
      else none
  | 0x08 => f.sub0 (if f.len = 2 then f.cmdOnly fun m => some (.cpyr c f.d f.a f.b f.c f.w3 m) else none)
  | 0x09 => f.sub0 (f.onlyA (.close c f.a))
  | 0x0A => f.two (.waitb c f.sub f.d f.a)
  | 0x0B => f.sub0 (if f.len = 1 ∧ f.d = 0 ∧ f.c = 0 then some (.barinit c f.a f.b f.w2) else none)
  | 0x0C => if f.len = 1 ∧ f.d = 0 ∧ f.c = 0 ∧ f.sub.extractLsb' 2 2 = 0 then
      some (.bararv c (isOne (f.sub.extractLsb' 1 1)) (isOne (f.sub.extractLsb' 0 1)) f.a f.b f.w2) else none
  | 0x0D => f.sub0 (if f.len = 1 ∧ f.d = 0 ∧ f.c = 0 then some (.barexp c f.a f.b f.w2) else none)
  | 0x0E => match Scope.ofCode f.sub.toNat with | some s => f.three (.barwait c s f.d f.a f.b) | none => none
  | 0x0F => match Scope.ofCode f.sub.toNat with | some s => f.three (.bartest c s f.d f.a f.b) | none => none
  | 0x10 => f.sub1 fun s =>
      if f.len = 2 ∧ f.w2.extractLsb' 24 8 = 0 ∧ f.w3.extractLsb' 24 8 = 0 then f.cmd fun m =>
        some (.fred c s f.d f.a f.b f.c (f.w2.extractLsb' 8 16) (f.w3.extractLsb' 16 8) (f.w3.extractLsb' 0 16) m)
      else none
  | _ => none

/-- Group 0xB (R224). -/
def groupB (f : Fields) : Option Instr :=
  let c := f.ctl
  match f.op.toNat with
  | 0x00 => f.sub1 fun s => f.onlyD (.txopen c s f.d)
  | 0x01 => f.sub0 (f.bare (.txcommit c))
  | 0x02 => f.sub0 (if f.len = 1 ∧ f.d = 0 ∧ f.a = 0 ∧ f.b = 0 ∧ f.c = 0 ∧ f.w2.extractLsb' 7 25 = 0 then
      some (.txquit c (f.w2.extractLsb' 0 7)) else none)
  | 0x03 => f.sub0 (f.onlyD (.txstat c f.d))
  | 0x04 => f.two (.spopen c (isOne (f.sub.extractLsb' 0 1)) (f.sub.extractLsb' 1 3) f.d f.a)
  | 0x05 => f.sub0 (f.bare (.spcommit c))
  | _ => none

/-- Group 0xC (R277). -/
def groupC (f : Fields) : Option Instr :=
  let c := f.ctl
  match f.op.toNat with
  | 0x00 => f.sub1 fun s => f.onlyD (.mzero c s f.d)
  | 0x01 => f.sub0 (if f.len = 1 ∧ f.b = 0 ∧ f.c = 0 then some (.mld c f.d f.a f.w2) else none)
  | 0x02 => f.sub0 (if f.len = 1 ∧ f.d = 0 ∧ f.c = 0 then some (.mst c f.a f.b f.w2) else none)
  | 0x03 => f.sub1 fun s => f.three (.mma c s f.d f.a f.b)
  | 0x04 => f.sub1 fun s => if f.len = 2 ∧ f.c = 0 ∧ f.w2.extractLsb' 20 12 = 0 then
      some (.mloop c s f.d f.a f.b (isOne (f.w2.extractLsb' 19 1)) (f.w2.extractLsb' 16 3)
        (isOne (f.w2.extractLsb' 15 1)) (f.w2.extractLsb' 12 3) (f.w2.extractLsb' 0 12)
        (f.w3.extractLsb' 0 16) (f.w3.extractLsb' 16 16)) else none
  | 0x05 => f.sub1 fun s =>
      if f.len = 2 ∧ f.w2.extractLsb' 16 16 = 0 ∧ f.w2.extractLsb' 0 12 = 0 ∧ f.w3 = 0 then
        some (.mconv c s f.d f.a f.b f.c (isOne (f.w2.extractLsb' 15 1)) (f.w2.extractLsb' 12 3)) else none
  | 0x06 => if f.sub.extractLsb' 2 2 = 0 then
      f.four (.mmas c (isOne (f.sub.extractLsb' 0 1)) (isOne (f.sub.extractLsb' 1 1)) f.d f.a f.b f.c) else none
  | 0x07 => f.sub0 (if f.len = 1 ∧ f.c = 0 ∧ f.w2 = 0 then some (.mcomp c f.d f.a f.b) else none)
  | 0x08 => f.sub0 (if f.len = 1 ∧ f.d = 0 ∧ f.c = 0 ∧ f.w2.extractLsb' 11 21 = 0 then
      match Rnd.ofCode (f.w2.extractLsb' 8 3).toNat, Role.ofCode (f.w2.extractLsb' 6 2).toNat,
        FrameFmt.ofCode (f.w2.extractLsb' 0 6).toNat with
      | some r, some role, some fmt => some (.mqnt c r role fmt f.a f.b)
      | _, _, _ => none
      else none)
  | 0x09 => f.sub0 (f.two (.mstat c f.d f.a))
  | 0x0A => f.sub1 fun w => f.two (.fsetm c w f.d f.a)
  | _ => none

/-- Group 0xD (R307). -/
def groupD (f : Fields) : Option Instr :=
  let c := f.ctl
  match f.op.toNat with
  | 0x00 => f.sub0 (if f.len = 1 ∧ f.b = 0 ∧ f.c = 0 ∧ f.w2.extractLsb' 7 25 = 0 then
      some (.sbind c (f.w2.extractLsb' 0 7) f.d f.a) else none)
  | 0x01 => f.sub0 (f.onlyA (.sunbind c f.a))
  | 0x02 => match Scope.ofCode f.sub.toNat with | some s => f.onlyA (.ginv c s f.a) | none => none
  | 0x03 => f.sub31 fun n s => if f.len = 2 then
      match ChainTy.ofCode n with
      | some ty => f.cmd fun m => some (.chain c s ty f.d f.a f.b f.c (f.w3 ++ f.w2.extractLsb' 8 24) m)
      | none => none
      else none
  | 0x04 => f.sub0 (f.two (.sstat c f.d f.a))
  | 0x05 => f.sub0 (if f.len = 1 ∧ f.d = 0 ∧ f.b = 0 then f.cmdOnly fun m => some (.pdec c f.a f.c m) else none)
  | _ => none

/-- Group 0xE (R349): the command byte is in field C. -/
def groupE (f : Fields) : Option Instr :=
  let c := f.ctl
  match f.op.toNat with
  | 0x00 => f.sub0 (if f.len = 0 ∧ f.d = 0 ∧ f.b = 0 then
      (match CmdByte.ofBits f.c with | some m => some (.launch c f.a m) | none => none) else none)
  | 0x01 => if f.len = 0 ∧ f.d = 0 ∧ f.b.extractLsb' 1 7 = 0 then
      (match CmdByte.ofBits f.c with
        | some m => some (.spawn c f.sub (isOne (f.b.extractLsb' 0 1)) f.a m) | none => none) else none
  | 0x02 => if f.a = 0 then f.three (.wpop c f.sub f.d f.b) else none
  | 0x03 => f.three (.wsteal c f.sub f.d f.a f.b)
  | _ => none

/-- Group 0xF (R383, R390, R406, R407, R409). -/
def groupF (f : Fields) : Option Instr :=
  let c := f.ctl
  match f.op.toNat with
  | 0x00 => if f.len = 0 ∧ f.b = 0 ∧ f.c = 0 then some (.sysr c (f.sub ++ f.a) f.d) else none
  | 0x01 => if f.len = 0 ∧ f.d = 0 ∧ f.c = 0 then some (.sysw c (f.sub ++ f.a) f.b) else none
  | 0x02 => f.sub0 (if f.len = 1 ∧ f.d = 0 ∧ f.a = 0 ∧ f.b = 0 ∧ f.c = 0 ∧ f.w2.extractLsb' 16 16 = 0 then
      some (.trap c (f.w2.extractLsb' 0 16)) else none)
  | 0x03 => match f.sub.toNat with
    | 0 => f.three (.tretRetry c f.d f.a f.b)
    | 1 => f.three (.tretNext c f.d f.a f.b)
    | 2 => f.three (.tretError c f.d f.a f.b)
    | 3 => f.three (.tretEnd c f.d f.a f.b)
    | _ => none
  | 0x04 => f.sub0 (f.bare (.bkpt c))
  | 0x05 => match f.sub.toNat with
    | 0 => f.three (.mboxSend c f.d f.a f.b)
    | 1 => f.three (.mboxRecv c f.d f.a f.b)
    | _ => none
  | 0x06 => f.sub0 (if f.len = 1 ∧ f.c = 0 then f.cmdOnly fun m => some (.attest c f.d f.a f.b m) else none)
  | _ => none

/-- The instruction of an assigned operation, before the value checks of `Instr.wf`. -/
def shape (f : Fields) : Option Instr :=
  match f.grp.toNat with
  | 0x0 => f.group0 | 0x1 => f.group1 | 0x2 => f.group2 | 0x3 => f.group3
  | 0x4 => f.group4 | 0x5 => f.group5 | 0x6 => f.group6 | 0x7 => f.group7
  | 0x8 => f.group8 | 0x9 => f.group9 | 0xA => f.groupA | 0xB => f.groupB
  | 0xC => f.groupC | 0xD => f.groupD | 0xE => f.groupE | _ => f.groupF

end Fields

/-- The instruction that the fields encode, or none where R67 row 5 raises ILLEGAL_FIELD. -/
def decodeFields (f : Fields) : Option Instr :=
  match f.shape with
  | some i => if i.wf then some i else none
  | none => none

/-! ## Decoding words (R53, R55, R67 rows 1 to 5) -/

/-- Why words are no instruction: rows 1, 2 and 5 of R67. A bad field still names the units of its operation, because rows
3 and 4 come first. -/
inductive DecodeError where
  | pad | op | field (u : Units)
  deriving DecidableEq, Repr

/-- What stands at a word where control arrives. -/
inductive Decoded where
  | padWord
  | bad (e : DecodeError)
  | instr (i : Instr) (bytes : Nat) (u : Units)
  deriving DecidableEq, Repr

/-- Words 0 to 3 of an instruction whose length fits its fetch block. -/
def decodeOp (f : Fields) : Decoded :=
  match unitsOf f.grp.toNat f.op.toNat with
  | none => .bad .op
  | some u =>
    match decodeFields f with
    | some i => .instr i (8 + 4 * f.len.toNat) u
    | none => .bad (.field u)

/-- The words from where control arrives to the end of the fetch block (R55). -/
def decodeWords : List W32 → Decoded
  | [] => .bad .pad
  | w0 :: rest =>
    if w0.extractLsb' 0 2 = 3 then (if w0 = 3 then .padWord else .bad .pad)
    else if rest.length < 1 + (w0.extractLsb' 0 2).toNat then .bad .pad
    else decodeOp (Fields.ofWords w0 (rest.getD 0 0) (rest.getD 1 0) (rest.getD 2 0))

/-- The little-endian 32-bit words of a byte string (R7); a tail shorter than a word is dropped. -/
def wordsOf : List Byte → List W32
  | b0 :: b1 :: b2 :: b3 :: rest => (b3 ++ b2 ++ b1 ++ b0) :: wordsOf rest
  | _ => []

/-- The instruction at the start of the bytes of a fetch block, or the reason there is none. -/
def decode (bs : List Byte) : Decoded := decodeWords (wordsOf bs)

/-- The bytes that the host gives as one number: the first word's bits lowest (R53), bits above `nbits` zero. -/
def tableBytes (nbits w : Nat) : List Byte :=
  (List.range 16).map fun k => BitVec.ofNat 8 ((w % 2 ^ nbits) / 2 ^ (8 * k))

/-- The instruction that the decoder reads from a table word. -/
def decodeTableWord (nbits w : Nat) : Option Instr :=
  match decode (tableBytes nbits w) with
  | .instr i _ _ => some i
  | _ => none

/-! ## Encoding -/

/-- Fields of an operation with its control fields; every specifier, SUB and word zero. -/
def Fields.base (c : Ctl) (grp op : Nat) (len : BitVec 2) : Fields :=
  { len, stall := c.stall, pred := c.pred, neg := bit1 c.neg, wait := c.wait, op := BitVec.ofNat 6 op,
    grp := BitVec.ofNat 4 grp, sub := 0, d := 0, a := 0, b := 0, c := 0, w2 := 0, w3 := 0 }

/-- SUB of a modifier in bit 0. -/
def subBit (b : Bool) : BitVec 4 := 0#3 ++ bit1 b
/-- SUB of a rounding code and a saturate bit (R250). -/
def subRound (r : Rnd) (s : Bool) : BitVec 4 := 0#1 ++ bit1 s ++ BitVec.ofNat 2 r.code
/-- SUB of a packed 16-bit operation (R256). -/
def subHalf (bf : Bool) (r : Rnd) (s : Bool) : BitVec 4 := bit1 s ++ BitVec.ofNat 2 r.code ++ bit1 bf
/-- SUB of a code in bits [2:0] and a modifier in bit 3. -/
def sub31 (n : Nat) (s : Bool) : BitVec 4 := bit1 s ++ BitVec.ofNat 3 n
/-- SUB of an atomic (R169). -/
def subAtom (wide ar : Bool) : BitVec 4 := bit1 ar ++ 0#2 ++ bit1 wide
/-- Word 2 with only a low byte. -/
def lowByte (v : BitVec 8) : W32 := 0#24 ++ v

/-- The fields of an instruction; none for an event, which has no encoding. -/
def encodeFields : Instr → Option Fields
  | .iadd k s d a b => some { Fields.base k 0 0x00 0 with sub := subBit s, d, a, b }
  | .iaddImm k s d a n => some { Fields.base k 0 0x00 1 with sub := subBit s, d, a, w2 := n }
  | .isub k s d a b => some { Fields.base k 0 0x01 0 with sub := subBit s, d, a, b }
  | .isubImm k s d a n => some { Fields.base k 0 0x01 1 with sub := subBit s, d, a, w2 := n }
  | .iaddc k d a b p => some { Fields.base k 0 0x02 0 with d, a, b, c := p }
  | .iaddcImm k d a n p => some { Fields.base k 0 0x02 1 with d, a, c := p, w2 := n }
  | .imul k d a b => some { Fields.base k 0 0x03 0 with d, a, b }
  | .imulImm k d a n => some { Fields.base k 0 0x03 1 with d, a, w2 := n }
  | .imulh k s d a b => some { Fields.base k 0 0x04 0 with sub := subBit s, d, a, b }
  | .imulhImm k s d a n => some { Fields.base k 0 0x04 1 with sub := subBit s, d, a, w2 := n }
  | .imad k d a b x => some { Fields.base k 0 0x05 0 with d, a, b, c := x }
  | .imadw k s d a b x => some { Fields.base k 0 0x06 0 with sub := subBit s, d, a, b, c := x }
  | .idiv k s d a b => some { Fields.base k 0 0x07 0 with sub := subBit s, d, a, b }
  | .idivImm k s d a n => some { Fields.base k 0 0x07 1 with sub := subBit s, d, a, w2 := n }
  | .irem k s d a b => some { Fields.base k 0 0x08 0 with sub := subBit s, d, a, b }
  | .iremImm k s d a n => some { Fields.base k 0 0x08 1 with sub := subBit s, d, a, w2 := n }
  | .imin k s d a b => some { Fields.base k 0 0x09 0 with sub := subBit s, d, a, b }
  | .iminImm k s d a n => some { Fields.base k 0 0x09 1 with sub := subBit s, d, a, w2 := n }
  | .imax k s d a b => some { Fields.base k 0 0x0A 0 with sub := subBit s, d, a, b }
  | .imaxImm k s d a n => some { Fields.base k 0 0x0A 1 with sub := subBit s, d, a, w2 := n }
  | .iabs k s d a => some { Fields.base k 0 0x0B 0 with sub := subBit s, d, a }
  | .ineg k s d a => some { Fields.base k 0 0x0C 0 with sub := subBit s, d, a }
  | .iset k m s d a b => some { Fields.base k 0 0x0D 0 with sub := sub31 m.code s, d, a, b }
  | .isetImm k m s d a n => some { Fields.base k 0 0x0D 1 with sub := sub31 m.code s, d, a, w2 := n }
  | .lea k sh s d a b => some { Fields.base k 0 0x0E 0 with sub := bit1 s ++ sh, d, a, b }
  | .iadd64 k s d a b => some { Fields.base k 0 0x0F 0 with sub := subBit s, d, a, b }
  | .iadd64Imm k s d a n => some { Fields.base k 0 0x0F 1 with sub := subBit s, d, a, w2 := n }
  | .ltab k d a b x ft => some { Fields.base k 1 0x00 1 with d, a, b, c := x, w2 := lowByte ft }
  | .shl k s d a b => some { Fields.base k 1 0x01 0 with sub := subBit s, d, a, b }
  | .shlImm k s d a n => some { Fields.base k 1 0x01 1 with sub := subBit s, d, a, w2 := n }
  | .shr k s d a b => some { Fields.base k 1 0x02 0 with sub := subBit s, d, a, b }
  | .shrImm k s d a n => some { Fields.base k 1 0x02 1 with sub := subBit s, d, a, w2 := n }
  | .sar k s d a b => some { Fields.base k 1 0x03 0 with sub := subBit s, d, a, b }
  | .sarImm k s d a n => some { Fields.base k 1 0x03 1 with sub := subBit s, d, a, w2 := n }
  | .rot k s d a b => some { Fields.base k 1 0x04 0 with sub := subBit s, d, a, b }
  | .rotImm k s d a n => some { Fields.base k 1 0x04 1 with sub := subBit s, d, a, w2 := n }
  | .fshf k s d a b x => some { Fields.base k 1 0x05 0 with sub := subBit s, d, a, b, c := x }
  | .popc k d a => some { Fields.base k 1 0x06 0 with d, a }
  | .clz k d a => some { Fields.base k 1 0x07 0 with d, a }
  | .brev k d a => some { Fields.base k 1 0x08 0 with d, a }
  | .bfx k s d a b x => some { Fields.base k 1 0x09 0 with sub := subBit s, d, a, b, c := x }
  | .bfi k d a b x => some { Fields.base k 1 0x0A 0 with d, a, b, c := x }
  | .ptab k d a b x ft => some { Fields.base k 1 0x0B 1 with d, a, b, c := x, w2 := lowByte ft }
  | .mov k w d a => some { Fields.base k 2 0x00 0 with sub := subBit w, d, a }
  | .movi k d n => some { Fields.base k 2 0x01 1 with d, w2 := n }
  | .moviB64 k d lo hi => some { Fields.base k 2 0x01 2 with sub := 1, d, w2 := lo, w3 := hi }
  | .movk k d a b => some { Fields.base k 2 0x02 0 with d, a, b }
  | .sel k w d a b p => some { Fields.base k 2 0x03 0 with sub := subBit w, d, a, b, c := p }
  | .rdsp k d sp => some { Fields.base k 2 0x04 0 with d, a := BitVec.ofNat 8 sp.code }
  | .cvti k o d a => some { Fields.base k 2 0x05 0 with sub := BitVec.ofNat 4 o.code, d, a }
  | .bra k form a off => some { Fields.base k 3 0x00 1 with sub := BitVec.ofNat 4 form.code, a, w2 := off }
  | .braHint k form a off h =>
    some { Fields.base k 3 0x00 2 with sub := BitVec.ofNat 4 form.code, a, w2 := off, w3 := BitVec.ofNat 32 h.code }
  | .brx k a => some { Fields.base k 3 0x01 0 with a }
  | .call k d off => some { Fields.base k 3 0x02 1 with d, w2 := off }
  | .callHint k d off h => some { Fields.base k 3 0x02 2 with d, w2 := off, w3 := BitVec.ofNat 32 h.code }
  | .callx k d a => some { Fields.base k 3 0x03 0 with d, a }
  | .ret k a => some { Fields.base k 3 0x04 0 with a }
  | .exit k => some (Fields.base k 3 0x05 0)
  | .enrol k j => some { Fields.base k 3 0x06 0 with a := j }
  | .join k j => some { Fields.base k 3 0x07 0 with a := j }
  | .reform k => some (Fields.base k 3 0x08 0)
  | .yield k => some (Fields.base k 3 0x09 0)
  | .nop k => some (Fields.base k 3 0x0A 0)
  | .replay k id => some { Fields.base k 3 0x0B 1 with w2 := 0#16 ++ id }
  | .shfl k m w d a b x v => some { Fields.base k 4 0x00 1 with
      sub := 0#1 ++ bit1 w ++ BitVec.ofNat 2 m.code, d, a, b, c := x, w2 := lowByte v }
  | .vote k m d a => some { Fields.base k 4 0x01 0 with sub := BitVec.ofNat 4 m.code, d, a }
  | .redc k o d a x v => some { Fields.base k 4 0x02 1 with sub := BitVec.ofNat 4 o.code, d, a, c := x, w2 := lowByte v }
  | .scan k o e d a x v => some { Fields.base k 4 0x03 1 with
      sub := BitVec.ofNat 4 o.code, d, a, c := x, w2 := 0#23 ++ bit1 e ++ v }
  | .matchLanes k w d a => some { Fields.base k 4 0x04 0 with sub := subBit w, d, a }
  | .fadd k r s d a b => some { Fields.base k 5 0x00 0 with sub := subRound r s, d, a, b }
  | .faddImm k r s d a n => some { Fields.base k 5 0x00 1 with sub := subRound r s, d, a, w2 := n }
  | .fmul k r s d a b => some { Fields.base k 5 0x01 0 with sub := subRound r s, d, a, b }
  | .fmulImm k r s d a n => some { Fields.base k 5 0x01 1 with sub := subRound r s, d, a, w2 := n }
  | .ffma k r s d a b x => some { Fields.base k 5 0x02 0 with sub := subRound r s, d, a, b, c := x }
  | .fmin k n d a b => some { Fields.base k 5 0x03 0 with sub := subBit n, d, a, b }
  | .fminImm k n d a v => some { Fields.base k 5 0x03 1 with sub := subBit n, d, a, w2 := v }
  | .fmax k n d a b => some { Fields.base k 5 0x04 0 with sub := subBit n, d, a, b }
  | .fmaxImm k n d a v => some { Fields.base k 5 0x04 1 with sub := subBit n, d, a, w2 := v }
  | .fset k m d a b => some { Fields.base k 5 0x05 0 with sub := BitVec.ofNat 4 m.code, d, a, b }
  | .fsetImm k m d a n => some { Fields.base k 5 0x05 1 with sub := BitVec.ofNat 4 m.code, d, a, w2 := n }
  | .fclass k d a b => some { Fields.base k 5 0x06 0 with d, a, b }
  | .fclassImm k d a n => some { Fields.base k 5 0x06 1 with d, a, w2 := n }
  | .frnd k r d a => some { Fields.base k 5 0x07 0 with sub := subRound r false, d, a }
  | .hadd2 k bf r s d a b => some { Fields.base k 6 0x00 0 with sub := subHalf bf r s, d, a, b }
  | .hadd2Imm k bf r s d a n => some { Fields.base k 6 0x00 1 with sub := subHalf bf r s, d, a, w2 := n }
  | .hmul2 k bf r s d a b => some { Fields.base k 6 0x01 0 with sub := subHalf bf r s, d, a, b }
  | .hmul2Imm k bf r s d a n => some { Fields.base k 6 0x01 1 with sub := subHalf bf r s, d, a, w2 := n }
  | .hfma2 k bf r s d a b x => some { Fields.base k 6 0x02 0 with sub := subHalf bf r s, d, a, b, c := x }
  | .hmin2 k bf n d a b => some { Fields.base k 6 0x03 0 with sub := 0#2 ++ bit1 n ++ bit1 bf, d, a, b }
  | .hmin2Imm k bf n d a v => some { Fields.base k 6 0x03 1 with sub := 0#2 ++ bit1 n ++ bit1 bf, d, a, w2 := v }
  | .hmax2 k bf n d a b => some { Fields.base k 6 0x04 0 with sub := 0#2 ++ bit1 n ++ bit1 bf, d, a, b }
  | .hmax2Imm k bf n d a v => some { Fields.base k 6 0x04 1 with sub := 0#2 ++ bit1 n ++ bit1 bf, d, a, w2 := v }
  | .hset2 k m bf d a b => some { Fields.base k 6 0x05 0 with sub := sub31 m.code bf, d, a, b }
  | .hset2Imm k m bf d a n => some { Fields.base k 6 0x05 1 with sub := sub31 m.code bf, d, a, w2 := n }
  | .rcp k d a => some { Fields.base k 7 0x00 0 with d, a }
  | .rsq k d a => some { Fields.base k 7 0x01 0 with d, a }
  | .sqrt k d a => some { Fields.base k 7 0x02 0 with d, a }
  | .exp2 k d a => some { Fields.base k 7 0x03 0 with d, a }
  | .log2 k d a => some { Fields.base k 7 0x04 0 with d, a }
  | .fsin k d a => some { Fields.base k 7 0x05 0 with d, a }
  | .fcos k d a => some { Fields.base k 7 0x06 0 with d, a }
  | .tanh k d a => some { Fields.base k 7 0x07 0 with d, a }
  | .fdiv k r d a b => some { Fields.base k 7 0x08 0 with sub := subRound r false, d, a, b }
  | .fcvt k r s src dst d a => some { Fields.base k 7 0x09 1 with
      sub := sub31 r.code s, d, a, w2 := 0#24 ++ BitVec.ofNat 4 dst.code ++ BitVec.ofNat 4 src.code }
  | .fcvtp k r s dst slot d a b x => some { Fields.base k 7 0x0A 1 with
      sub := sub31 r.code s, d, a, b, c := x, w2 := 0#22 ++ slot ++ BitVec.ofNat 4 dst.code ++ 0#4 }
  | .ld k sz m d a => some { Fields.base k 8 0x00 1 with sub := BitVec.ofNat 4 sz.code, d, a, w2 := m.bits }
  | .st k sz m a b => some { Fields.base k 8 0x01 1 with sub := BitVec.ofNat 4 sz.code, a, b, w2 := m.bits }
  | .lds k sz m d a => some { Fields.base k 8 0x02 1 with sub := BitVec.ofNat 4 sz.code, d, a, w2 := m.bits }
  | .sts k sz m a b => some { Fields.base k 8 0x03 1 with sub := BitVec.ofNat 4 sz.code, a, b, w2 := m.bits }
  | .ldc k sz m d a => some { Fields.base k 8 0x04 1 with sub := BitVec.ofNat 4 sz.code, d, a, w2 := m.bits }
  | .stc k sz m a b => some { Fields.base k 8 0x05 1 with sub := BitVec.ofNat 4 sz.code, a, b, w2 := m.bits }
  | .fence k m => some { Fields.base k 8 0x06 1 with w2 := m.bits }
  | .cctl k o m a b => some { Fields.base k 8 0x07 1 with sub := BitVec.ofNat 4 o.code, a, b, w2 := m.bits }
  | .icinv k m a b => some { Fields.base k 8 0x08 1 with a, b, w2 := m.bits }
  | .pref k m a => some { Fields.base k 8 0x09 1 with a, w2 := m.bits }
  | .atom k o w ar m d a b => some { Fields.base k 9 0x00 1 with
      sub := subAtom w ar, d, a, b, c := BitVec.ofNat 8 o.code, w2 := m.bits }
  | .atomcas k w ar m d a b x => some { Fields.base k 9 0x01 1 with sub := subAtom w ar, d, a, b, c := x, w2 := m.bits }
  | .atoms k o w ar m d a b => some { Fields.base k 9 0x02 1 with
      sub := subAtom w ar, d, a, b, c := BitVec.ofNat 8 o.code, w2 := m.bits }
  | .red k o w m a b => some { Fields.base k 9 0x03 1 with
      sub := subAtom w false, a, b, c := BitVec.ofNat 8 o.code, w2 := m.bits }
  | .astream k q a b x n0 n1 cmd => some { Fields.base k 0xA 0x00 2 with
      d := 0#4 ++ q, a, b, c := x, w2 := n1 ++ n0, w3 := lowByte cmd.bits }
  | .opush k q a n => some { Fields.base k 0xA 0x01 1 with d := 0#4 ++ q, a, w2 := 0#27 ++ n }
  | .opop k w d q => some { Fields.base k 0xA 0x02 0 with sub := subBit w, d, a := 0#4 ++ q }
  | .gather k e i d a b x n cmd => some { Fields.base k 0xA 0x03 1 with
      sub := bit1 i ++ e, d, a, b, c := x, w2 := 0#8 ++ n ++ cmd.bits }
  | .scatter k e i d a b x n cmd => some { Fields.base k 0xA 0x04 1 with
      sub := bit1 i ++ e, d, a, b, c := x, w2 := 0#8 ++ n ++ cmd.bits }
  | .cpy k d a b x cmd => some { Fields.base k 0xA 0x05 1 with d, a, b, c := x, w2 := lowByte cmd.bits }
  | .cpy2g k d a b x pitch e n ph pw cmd => some { Fields.base k 0xA 0x06 2 with
      d, a, b, c := x, w2 := pitch ++ 0#2 ++ e ++ cmd.bits, w3 := 0#4 ++ n ++ ph ++ pw }
  | .cpyt k pack d a b x sp role fmt pitch n cmd => some { Fields.base k 0xA 0x07 2 with
      sub := subBit pack, d, a, b, c := x,
      w2 := sp ++ BitVec.ofNat 2 role.code ++ BitVec.ofNat 6 fmt.code ++ cmd.bits, w3 := pitch ++ n }
  | .cpyr k d a b x off cmd => some { Fields.base k 0xA 0x08 2 with d, a, b, c := x, w2 := lowByte cmd.bits, w3 := off }
  | .close k t => some { Fields.base k 0xA 0x09 0 with a := t }
  | .waitb k n d t => some { Fields.base k 0xA 0x0A 0 with sub := n, d, a := t }
  | .barinit k a b off => some { Fields.base k 0xA 0x0B 1 with a, b, w2 := off }
  | .bararv k one x a b off => some { Fields.base k 0xA 0x0C 1 with sub := 0#2 ++ bit1 one ++ bit1 x, a, b, w2 := off }
  | .barexp k a b off => some { Fields.base k 0xA 0x0D 1 with a, b, w2 := off }
  | .barwait k s d a b => some { Fields.base k 0xA 0x0E 0 with sub := BitVec.ofNat 4 s.code, d, a, b }
  | .bartest k s d a b => some { Fields.base k 0xA 0x0F 0 with sub := BitVec.ofNat 4 s.code, d, a, b }
  | .fred k s d a b x g e parts cmd => some { Fields.base k 0xA 0x10 2 with
      sub := subBit s, d, a, b, c := x, w2 := 0#8 ++ g ++ cmd.bits, w3 := 0#8 ++ e ++ parts }
  | .txopen k ts d => some { Fields.base k 0xB 0x00 0 with sub := subBit ts, d }
  | .txcommit k => some (Fields.base k 0xB 0x01 0)
  | .txquit k code => some { Fields.base k 0xB 0x02 1 with w2 := 0#25 ++ code }
  | .txstat k d => some { Fields.base k 0xB 0x03 0 with d }
  | .spopen k ts dom d a => some { Fields.base k 0xB 0x04 0 with sub := dom ++ bit1 ts, d, a }
  | .spcommit k => some (Fields.base k 0xB 0x05 0)
  | .mzero k s m => some { Fields.base k 0xC 0x00 0 with sub := subBit s, d := m }
  | .mld k m a off => some { Fields.base k 0xC 0x01 1 with d := m, a, w2 := off }
  | .mst k a m off => some { Fields.base k 0xC 0x02 1 with a, b := m, w2 := off }
  | .mma k s m a b => some { Fields.base k 0xC 0x03 0 with sub := subBit s, d := m, a, b }
  | .mloop k s m a b fv f tv tok n ia ib => some { Fields.base k 0xC 0x04 2 with
      sub := subBit s, d := m, a, b, w2 := 0#12 ++ bit1 fv ++ f ++ bit1 tv ++ tok ++ n, w3 := ib ++ ia }
  | .mconv k s m a b x tv tok => some { Fields.base k 0xC 0x05 2 with
      sub := subBit s, d := m, a, b, c := x, w2 := 0#16 ++ bit1 tv ++ tok ++ 0#12 }
  | .mmas k s x2 m a b x => some { Fields.base k 0xC 0x06 0 with
      sub := 0#2 ++ bit1 x2 ++ bit1 s, d := m, a, b, c := x }
  | .mcomp k d a b => some { Fields.base k 0xC 0x07 1 with d, a, b }
  | .mqnt k r role fmt m b => some { Fields.base k 0xC 0x08 1 with
      a := m, b, w2 := 0#21 ++ BitVec.ofNat 3 r.code ++ BitVec.ofNat 2 role.code ++ BitVec.ofNat 6 fmt.code }
  | .mstat k d m => some { Fields.base k 0xC 0x09 0 with d, a := m }
  | .fsetm k w f a => some { Fields.base k 0xC 0x0A 0 with sub := subBit w, d := f, a }
  | .sbind k slot d a => some { Fields.base k 0xD 0x00 1 with d, a, w2 := 0#25 ++ slot }
  | .sunbind k a => some { Fields.base k 0xD 0x01 0 with a }
  | .ginv k s a => some { Fields.base k 0xD 0x02 0 with sub := BitVec.ofNat 4 s.code, a }
  | .chain k s ty d a b x ops cmd => some { Fields.base k 0xD 0x03 2 with
      sub := sub31 ty.code s, d, a, b, c := x, w2 := ops.extractLsb' 0 24 ++ cmd.bits, w3 := ops.extractLsb' 24 32 }
  | .sstat k d a => some { Fields.base k 0xD 0x04 0 with d, a }
  | .pdec k a x cmd => some { Fields.base k 0xD 0x05 1 with a, c := x, w2 := lowByte cmd.bits }
  | .launch k a cmd => some { Fields.base k 0xE 0x00 0 with a, c := cmd.bits }
  | .spawn k pool data a cmd => some { Fields.base k 0xE 0x01 0 with sub := pool, a, b := 0#7 ++ bit1 data, c := cmd.bits }
  | .wpop k pool d p => some { Fields.base k 0xE 0x02 0 with sub := pool, d, b := p }
  | .wsteal k pool d a p => some { Fields.base k 0xE 0x03 0 with sub := pool, d, a, b := p }
  | .sysr k idx d => some { Fields.base k 0xF 0x00 0 with sub := idx.extractLsb' 8 4, d, a := idx.extractLsb' 0 8 }
  | .sysw k idx b => some { Fields.base k 0xF 0x01 0 with sub := idx.extractLsb' 8 4, a := idx.extractLsb' 0 8, b }
  | .trap k code => some { Fields.base k 0xF 0x02 1 with w2 := 0#16 ++ code }
  | .tretRetry k d a b => some { Fields.base k 0xF 0x03 0 with sub := 0, d, a, b }
  | .tretNext k d a b => some { Fields.base k 0xF 0x03 0 with sub := 1, d, a, b }
  | .tretError k d a b => some { Fields.base k 0xF 0x03 0 with sub := 2, d, a, b }
  | .tretEnd k d a b => some { Fields.base k 0xF 0x03 0 with sub := 3, d, a, b }
  | .bkpt k => some (Fields.base k 0xF 0x04 0)
  | .mboxSend k d a b => some { Fields.base k 0xF 0x05 0 with sub := 0, d, a, b }
  | .mboxRecv k d a b => some { Fields.base k 0xF 0x05 0 with sub := 1, d, a, b }
  | .attest k d a b cmd => some { Fields.base k 0xF 0x06 1 with d, a, b, w2 := lowByte cmd.bits }
  | _ => none

/-- The words of an instruction, first word first (R53): 2, 3 or 4 of them; none for an event. -/
def encode (i : Instr) : List W32 :=
  match encodeFields i with
  | none => []
  | some f => [f.word0, f.word1, f.w2, f.w3].take (2 + f.len.toNat)

/-- Length in bytes (R53). -/
def Instr.bytes (i : Instr) : Nat := 4 * (encode i).length

/-- Whether the constructor is an encoded instruction rather than an event of the device. -/
def Instr.encoded (i : Instr) : Bool := (encodeFields i).isSome

end Sys2Proof
end

