-- ==== Sys2Proof/Machine/State.lean ====
section
/-! DEFINITION. The state of an AVG-4128 package, its fault and refusal reasons, and the state after reset.
All plain data. Tables are keyed by numbers: core 0 to 127 (R2), cluster 0 to 31, die 0 to 3, quarter
4 x core + quarter, context 0 to 255 (R367), queue 0 to 15 (R333); grids, teams, crews and commands by
a number the model gives them when they are made. -/

namespace Sys2Proof.Machine

open Sys2Proof

/-! ## Reasons -/

/-- Faults of the device, by the CAUSE codes of R397. -/
inductive Cause where
  | illegalPad | illegalOp | illegalField | illegalReg | copyRights | pcAlign | stallShort | illegalWidth
  | addrNoncanon | addrReserved | clusterWindow | scratchBounds | misaligned | windowAtomic | xlateInvalid
  | xlateFormat | xlatePerm | poison | sysregDenied | codeRetired | descTorn | cmdRange | remoteTeam
  | copyQuota | frameFormat | fredMismatch | convDesc | mmaType | sparseMeta | segInvalid | graphInvalid
  | graphTooLarge | streamFull | streamDir | spawnTarget | launchInvalid | txIrrevocable | debugDenied
  | writeDropped | trap | bkpt | waitCycle | arithTrap | handlerFault
  deriving DecidableEq, Repr

/-- Arithmetic causes (R244). -/
inductive Arith where
  | divz | divovf | invalid | fdivz | overflow | cvtSpecial | quantSpecial | accSat | fredClamp
  deriving DecidableEq, Repr

/-- Why a step of the model can stop the machine. No step of this model does: every fault of the
manual is an effect (a held unit and a fault-domain record), hence a next state. -/
inductive Fault where
  /-- Raised by no step; safe. -/
  | none
  deriving DecidableEq, Repr

/-- Why the model gives an instruction no meaning. -/
inductive Refusal where
  /-- Raised by an arm of exec that has no meaning yet; safe. -/
  | notModelled (mnemonic : String)
  deriving DecidableEq, Repr

/-! ## Threads, crews, teams -/

/-- A fixed-latency result that a thread may still read too early (R60, R61): the register code, its
value before the producing instruction, and the cycle from which the result can be read. -/
structure Short where
  reg   : Spec
  old   : W64
  ready : Nat
  deriving DecidableEq, Repr

/-- Where a variable-latency result goes (R60). -/
inductive Dst where
  | g (i : Nat) | k (i : Nat) | p (i : Nat) | a (i : Nat) | none
  deriving DecidableEq, Repr

/-- A variable-latency result of one lane on its way to its register; `val` is absent while a window
access that gives it is still queued, under the number `tag` (R60, R304). -/
structure Result where
  lane : Nat
  dst  : Dst
  val  : Option W64
  tag  : Nat
  deriving DecidableEq, Repr

/-- A thread's transaction (R212 to R225); `shown` is the abort count that a returned abort left in the status (R218, R225). -/
structure Tx where
  active   : Bool
  isSpec   : Bool
  ts       : Bool
  irrev    : Bool
  cause    : BitVec 4
  code     : BitVec 7
  k        : Nat
  shown    : Nat
  dReg     : Spec
  after    : Addr
  dom      : Nat
  iter     : W32
  rused    : Nat
  wused    : Nat
  checkAt  : Nat
  lines    : List Nat
  deriving DecidableEq, Repr

/-- A thread (R13, R37, R52); `num` tells a spawned thread from every other (the model's number, not the spec's). -/
structure Thread where
  tid   : Nat
  g     : List W32
  p     : BitVec 7
  entry : Addr
  gen   : W32
  tx    : Tx
  short : List Short
  num   : Nat := 0
  deriving DecidableEq, Repr

/-- One batch set of a completion token (R185): the open batch with its number, operations assigned and
operations incomplete; the closed batches outstanding; the error flag. -/
structure Token where
  openId   : Nat
  openAll  : Nat
  openLeft : Nat
  closed   : List (Nat × Nat)
  err      : Bool
  deriving DecidableEq, Repr

/-- What a waiting unit awaits (R343, R356); a WAIT field its tokens, of which those of `todo` are still to be closed (R58). -/
inductive Awaited where
  | join (j : Nat)
  | tokens (mask todo : BitVec 8)
  | tokenRoom (t : Nat)
  | tokenLeft (t n : Nat)
  | barrier (off : Nat) (phase : Bool)
  | queueEmpty (q m : Nat)
  | queueFull (q : Nat)
  | pool (i : Nat)
  | deque
  | launchQueue (q : Nat)
  | line (l : Nat)
  | serial
  | spec (dom : Nat)
  | accumulator (m : Nat)
  | sequencer
  | group (g : Nat)
  | place
  | attestPlace
  | backoff (cycle : Nat)
  | farAck
  | windowQueue
  | partner (t : Nat)
  | sent (t : Nat)
  | places
  | scoreboard
  | unbind (slot : Nat)
  deriving DecidableEq, Repr

/-- A wait: the object, the instruction at which the unit waits, the cycle it began and the cycle of its
next probe (R358). -/
structure Waiting where
  obj   : Awaited
  instr : Option Instr
  since : Nat
  probe : Nat
  deriving DecidableEq, Repr

/-- A launch packet as bound (R334). -/
structure Packet where
  queue   : Nat
  coplace : Bool
  width   : Nat
  team    : Nat
  gz      : Nat
  gy      : Nat
  gx      : Nat
  pre     : List Addr
  done    : Addr
  zcb     : Addr
  args    : W64
  access  : W32
  entry   : W32
  kernel  : Addr
  segment : Addr
  reserved : Bool
  torn    : Bool
  deriving DecidableEq, Repr

/-- The issue state of an issue group or an access thread (R15, R59, R342 to R344). `served` marks
the lanes already served of an instruction that serves its lanes one by one, and `op` the token and batch of its one operation; `waitDone` says that the
WAIT field of the next instruction has been honoured; `parked` is the cycle at which a group out of play was parked; `packets` are the launch
packets bound for the lanes that a waiting `LAUNCH` has not served yet (R349). -/
structure Group where
  mask      : Mask
  pc        : Addr
  wait      : Option Waiting
  notBefore : Nat
  since     : Nat
  issued    : Nat
  inPlay    : Bool
  parked    : Nat
  raised    : Bool
  waitDone  : Bool
  served    : Mask
  op        : Option (Nat × Nat)
  packets   : List (Nat × Packet) := []
  deriving DecidableEq, Repr

/-- What a crew's threads belong to (R26, R348). -/
inductive Owner where
  | team (t : Nat)
  | pool (p : Nat)
  deriving DecidableEq, Repr

/-- A crew (R18, R37, R52). A lane that was never launched, has exited or has left holds no thread. -/
structure Crew where
  ctx     : Nat
  grid    : Nat
  owner   : Owner
  core    : Nat
  quarter : Nat
  num     : Nat
  width   : Nat
  lanes   : List (Option Thread)
  k       : List W32
  j       : List Mask
  f       : List W64
  toks    : List Token
  groups  : List Group
  results : List Result
  held    : Option Nat
  deriving DecidableEq, Repr

/-- An access thread (R33, R37, R52). -/
structure Access where
  slot    : Nat
  a       : List W64
  toks    : List Token
  entry   : Addr
  grp     : Group
  short   : List Short
  results : List Result
  held    : Option Nat
  deriving DecidableEq, Repr

/-- An operand queue (R34, R198): its entries oldest first, its producer, and which entries were read poisoned (R436). -/
structure OpQueue where
  entries  : List (List Byte)
  producer : Option Nat
  marks    : List Bool := []
  deriving DecidableEq, Repr

/-- A tile accumulator (R266). -/
structure Acc where
  valid    : Bool
  dirty    : Bool
  inflight : Bool
  int      : Bool
  elems    : List W32
  deriving DecidableEq, Repr

/-- The fields of a convolution descriptor that a run keeps (R283). -/
structure ConvDesc where
  scales : Addr
  padY   : Nat
  padX   : Nat
  y0     : Nat
  x0     : Nat
  fmt    : FrameFmt
  sy     : Nat
  sx     : Nat
  kw     : Nat
  kh     : Nat
  cb     : Nat
  h      : Nat
  w      : Nat
  deriving DecidableEq, Repr

/-- Who issued a command, a run or a token operation, and which batch it joined (R182, R185). -/
structure Issuer where
  ctx     : Nat
  grid    : Nat
  team    : Option Nat
  crew    : Option Nat
  crewNum : Nat
  core    : Nat
  quarter : Nat
  lanes   : Mask
  pc      : Addr
  tok     : Option (Nat × Nat)
  deriving DecidableEq, Repr

/-- A run of `MLOOP` or `MCONV` (R282, R283, R289); `absent` says that its team has been absent since its last step (R423). -/
structure Run where
  by_     : Issuer
  m       : Nat
  sat     : Bool
  a       : Addr
  b       : Addr
  inca    : BitVec 16
  incb    : BitVec 16
  n       : Nat
  mask    : Option Mask
  conv    : Option ConvDesc
  next    : Nat
  stopped : Bool
  absent  : Bool := false
  deriving DecidableEq, Repr

/-- Where a team is (R28, R411, R418 to R421): on its core; being stopped, for another core and base quarter, or to become absent; absent,
behind a diversion entry; or on its way back to a core and base quarter. -/
inductive TeamAt where
  | resident
  | stopping (target : Option (Nat × Nat))
  | absent (die entry : Nat)
  | returning (die entry core qb : Nat)
  deriving DecidableEq, Repr

/-- What an atomic does (R170, R171): its operation (none: compare and swap), its width, its operand and its comparand. -/
structure FarAtom where
  op   : Option AtomOp
  wide : Bool
  v    : W64
  cmp  : W64
  deriving DecidableEq, Repr

/-- A request for a team's scratchpad, barriers or tokens (R418, R419, R420): a write, with which of its bytes are poisoned, an atomic, which answers piece `piece` of the access
numbered `tag`, a barrier update, or a token completion. -/
inductive TeamReq where
  | write (off : Nat) (bytes : List Byte) (bad : List Bool)
  | atom (off : Nat) (a : FarAtom) (tag piece : Nat)
  | bar (off : Nat) (bytes : Nat) (err : Bool)
  | token (crew : Option Nat) (tok batch : Nat) (err : Bool)
  deriving DecidableEq, Repr

/-- A request on its way: the identity of the unit, command or run that sent it (R423), the numbers of the threads whose store it is (R132, R135), and
what it asks. -/
structure Sent where
  src     : W64
  writers : List Nat
  req     : TeamReq
  deriving DecidableEq, Repr

/-- What a stopped team keeps of one quarter (R52, R411): the quarter, counted from its base quarter, its accumulators there and its run,
and its threads in bins with their next program counters and their ages. -/
structure SavedQuarter where
  rel  : Nat
  accs : List Acc
  run  : Option Run
  bins : List (Addr × Thread × Nat)
  deriving DecidableEq, Repr

/-- A team (R28). Its scratchpad bytes are in `scratch` while it is on a core and in its image in memory, from address `image` upward,
while it is absent (R416). Requests wait at `ingress` while it is on its way back, each with the identity of what sent it. -/
structure Team where
  ctx     : Nat
  grid    : Nat
  idx     : Nat
  core    : Nat
  qb      : Nat
  size    : Nat
  alloc   : Nat
  place   : TeamAt
  scratch : List Host.Cell
  poison  : List Nat
  access  : Option Access
  queues  : List OpQueue
  ingress : List Sent
  image   : Option Nat
  saved   : List SavedQuarter
  deriving DecidableEq, Repr

/-! ## Quarters and cores -/

/-- The key of a bin (R24, R113): a team, or a grid's spawn pool, with the next program counter. -/
structure BinKey where
  grid  : Nat
  owner : Owner
  pc    : Addr
  deriving DecidableEq, Repr

/-- A bin (R24): its key and its threads, oldest first, each with the cycle it entered. -/
structure Bin where
  key   : BinKey
  slots : List (Thread × Nat)
  deriving DecidableEq, Repr

/-- A quarter (R15, R24, R41, R267): accumulators, the team that holds them, the sequencer's run, bins, the
cycle of its last issue; and the threads come back to it that no bin could take yet (R421), each as a bin of one. -/
structure Quarter where
  accs   : List Acc
  holder : Option Nat
  run    : Option Run
  bins   : List (Option Bin)
  last   : Nat
  waiting : List Bin := []
  deriving DecidableEq, Repr

/-- What a quarter has filed, or is yet to file. -/
def Quarter.filed (q : Quarter) : List Bin := q.bins.filterMap id ++ q.waiting

/-- A continuation record (R346), with the generator state held beside it; `slot` is its place in the spill region while it is spilled (R369). -/
structure Rec where
  entry : Addr
  grid  : Nat
  pool  : Nat
  data  : Bool
  args  : List W32
  gen   : W32
  slot  : Option Nat := none
  deriving DecidableEq, Repr

/-- An open record of the arithmetic error log (R245), with the raising unit's context, grid and identity. -/
structure AeRec where
  ctx    : Nat
  grid   : Nat
  subject : W64
  cause  : Arith
  lanes  : Mask
  count  : Nat
  team   : W64
  pc     : Addr
  core   : Nat
  crew   : Nat
  ap     : Bool
  exact  : Bool
  engine : Bool
  stamp  : W32
  opened : Nat
  deriving DecidableEq, Repr

/-- A forwarding entry (R417): the team, the core, or the die and diversion entry, it points to, the requests in transit, and the number that the
next command had when the entry was made. -/
structure Forward where
  team   : Nat
  target : Nat ⊕ (Nat × Nat)
  queue  : List Sent
  made   : Nat := 0
  deriving DecidableEq, Repr

/-- How a cached line is to be replaced (R167). -/
inductive Treat where
  | normal | first | last
  deriving DecidableEq, Repr

/-- One cached byte of a scope cache (R127, R129, R132): the writer and the number of the store that gave it its value order write-backs;
`owed` lists, for each thread that has stored to it since it was last clean, the number of the first such store. -/
structure CacheByte where
  addr   : Nat
  val    : Byte
  dirty  : Bool
  writer : Nat
  seq    : Nat
  owed   : List (Nat × Nat)
  deriving DecidableEq, Repr

/-- A core: its L1 data cache with its lines' replacement treatment (R167), instruction cache (with its quarters' line buffers) with the blocks of it that are poisoned (R434), deque (owner
end first), coalescing buffer (oldest first), forwarding entries, whether it is gated (R391), since when it is idle, and whether it
is reserved for a pre-empting grid (R350). `uses` lists the lines of the L1, least recently used first. -/
structure Core where
  l1       : List CacheByte
  uses     : List (Nat × Treat)
  icache   : List (Nat × List Byte)
  icBad    : List Nat := []
  deque    : List Rec
  aebuf    : List AeRec
  forward  : List Forward
  gated    : Bool
  idleFrom : Nat
  clockOff : Nat
  vacated  : Option Nat
  deriving DecidableEq, Repr

/-- A cluster: its cluster cache, with the treatment of its lines, and its middle instruction cache with its poisoned blocks (R127, R167, R177, R434). -/
structure Cluster where
  cache  : List CacheByte
  uses   : List (Nat × Treat)
  icache : List (Nat × List Byte)
  icBad  : List Nat := []
  deriving DecidableEq, Repr

/-- A diversion entry (R419), with the requests that wait at it: PENDING is their number; `grid` is the grid's handle. `held` is the fault record
that the oldest waits on; `quiet` says that a handler has completed it in error and that it waits for its page (R423). -/
structure Divert where
  team    : Nat
  grid    : Nat
  ctx     : Nat
  image   : Addr
  core    : Nat
  state   : BitVec 2
  queue   : List Sent
  applied : W32
  held    : Option Nat
  quiet   : Bool
  deriving DecidableEq, Repr

/-- Power states of a die (R391). -/
inductive DiePower where
  | a0 | a1 | c2
  deriving DecidableEq, Repr

/-- A die: its power state, its diversion table (256 entries; absent ones are free), and the lines for which a home slice of its L2 keeps a
forwarding entry, oldest first (R142). -/
structure Die where
  power  : DiePower
  divert : Tab Divert
  moved  : List Nat
  deriving DecidableEq, Repr

/-- What a line of the L2 carries beside its bytes (R142 to R145): version, remaining read count, the
slice holding it on each die where it has migrated, the die holding each of its four tokens (the owner token first), the cluster of its
latest accesses with their number, the commit or irrevocable thread that holds it, the dies that have failed once to collect its tokens, and
its replacement treatment in the L2 (R167). -/
structure Line where
  version : W32
  rc      : Option Nat
  slices  : List (Nat × Nat)
  tokens  : List Nat
  recent  : Option (Nat × Nat)
  holder  : Option (Nat × Nat)
  failed  : List Nat
  treat   : Treat
  deriving DecidableEq, Repr

/-! ## Commands -/

/-- The operands of a command, read at its acceptance (R180). -/
inductive CmdKind where
  | astream (q : Nat) (a : Addr) (b x : W32) (n0 n1 : Nat)
  | gather (d a b : Addr) (esz count : Nat) (i64 : Bool)
  | scatter (d a b : Addr) (esz count : Nat) (i64 : Bool)
  | cpy (d a : Addr) (n : Nat)
  | cpy2g (d a b : Addr) (pitch esz pw ph count : Nat)
  | cpyt (pack : Bool) (d a : Addr) (scales : Option Addr) (role : Role) (fmt : FrameFmt) (pitch spitch count : Nat)
  | cpyr (team : W64) (off : Nat) (a : Addr) (n : Nat)
  | fred (d a : Addr) (n : Nat) (group : Nat) (parts : Nat) (s32 : Bool) (e : BitVec 8)
  | chain (d a : Addr) (n : Nat) (ty : ChainTy) (sat : Bool) (ops : List (Nat × Nat)) (consts : List W64)
  | pdec (job : Addr) (desc : List Byte)
  | attest (a b : Addr) (seq : W32)
  deriving DecidableEq, Repr

/-- A command accepted and not complete (R180 to R183): `pos` is the element or byte it has reached, `stopped`
the fault record it waits on, `bar` the barrier it counts on and its declared bytes; `place` its place in the core's copy engine,
`sums` the results of a closed reduction group on their way to a contributor, each with whether it is poisoned (R184, R205); `probe`
the cycle of its next probe while it waits (R358); `index` the index or coordinates read for the element reached, with whether they are
poisoned: each is read once (R201); `job` the input that a decode job has read, with whether it is poisoned, and the free value that it has drawn;
`ahead` the pieces done out of order, from and to (R146); `lost` says that it has stopped because its target team has no scratchpad (R204). -/
structure Cmd where
  kind    : CmdKind
  by_     : Issuer
  place   : Nat
  sums    : Option (List (W32 × Bool))
  zone    : List Addr
  bar     : Option Nat
  bytes   : Nat
  pos     : Nat
  stopped : Option Nat
  started : Bool
  bad     : Option Cause
  probe   : Nat
  index   : Option (Nat × Bool) := none
  job     : Option (List Byte × Bool × Nat) := none
  ahead   : List (Nat × Nat) := []
  lost    : Bool := false
  deriving DecidableEq, Repr

/-- An open reduction group (R205): its key, and what its first contribution gave it. -/
structure FredGroup where
  ctx   : Nat
  grid  : Nat
  group : Nat
  parts : Nat
  n     : Nat
  s32   : Bool
  e     : BitVec 8
  cmds  : List Nat
  deriving DecidableEq, Repr

/-! ## Contexts, streams -/

/-- The context control registers (R46, R47). -/
structure CtlRegs where
  sctl       : W32
  atrap      : W32
  binAge     : W32
  srseed     : W32
  aelogBase  : W32
  aelogBaseH : W32
  aelogSize  : W32
  aelogHead  : W32
  spillBase  : W32
  spillBaseH : W32
  spillSize  : W32
  shadowBase  : W32
  shadowBaseH : W32
  shadowSize  : W32
  deriving DecidableEq, Repr

/-- A node record of a graph (R296). -/
structure Node where
  op   : Nat
  ty   : Nat
  rnd  : Nat
  sat  : Bool
  uns  : Bool
  srca : Nat
  srcb : Nat
  srcc : Nat
  dst  : Nat
  imm  : W64
  deriving DecidableEq, Repr

/-- A bound stream entry with its graph, constants and tables as read when it was bound (R295, R302, R308). -/
structure Binding where
  write   : Bool
  vbase   : Nat
  vlen    : Nat
  backing : Nat
  ratio   : Nat
  nodes   : List Node
  consts  : List W32
  luts    : List (Nat × List W32)
  arrays  : List (Nat × Nat)
  deriving DecidableEq, Repr

/-- A bound copy of a generation descriptor (R294): its address and bytes. -/
structure BoundCopy where
  core  : Nat
  addr  : Addr
  bytes : List Byte
  deriving DecidableEq, Repr

/-- A stopped spawned thread in the shadow region, with its age; or, where it is not `ready`, the record reserved for one of a core that has been
vacated (R412, R415). -/
structure Spawned where
  grid   : Nat
  pool   : Nat
  pc     : Addr
  thread : Thread
  age    : Nat := 0
  core   : Nat := 0
  ready  : Bool := true
  deriving DecidableEq, Repr

/-- A context (R367, R368). `spill` lists the spilled records, farthest first, each with the core whose deque it left (128: a core
still to be chosen, R351); `shadow` lists what the shadow region holds: first 1,024-byte unit, number of units, and the
team whose image it is, or a stopped spawned thread; `granted` counts the changes that the owner has authorised and the context manager
has not yet made (R368, R386). -/
structure Ctx where
  key        : Nat
  root       : Nat
  sealed     : Bool
  owner      : Option (BitVec 384)
  session    : BitVec 384
  meas       : BitVec 384
  regs       : CtlRegs
  bindings   : Tab Binding
  copies     : List BoundCopy
  spill      : List (Nat × Rec)
  shadow     : List (Nat × Nat × (Nat ⊕ Spawned))
  debug      : DebugLevel
  perms      : BitVec 3
  challenges : List (BitVec 128)
  ide        : Bool
  granted    : Nat
  deriving DecidableEq, Repr

/-! ## Launches, grids, zones -/

/-- A kernel record (R79) with its pool table. -/
structure Kernel where
  codeLen : Nat
  access  : W32
  logsW   : Nat
  logsR   : Nat
  scratch : Nat
  queues  : Nat
  kregs   : Nat
  regs    : Nat
  width   : Nat
  pools   : List Nat
  deriving DecidableEq, Repr

/-- A segment descriptor as bound (R82). -/
structure Segment where
  desc      : Addr
  successor : Addr
  mapCount  : Nat
  map       : Addr
  retired   : Bool
  length    : Nat
  base      : Addr
  deriving DecidableEq, Repr

/-- The effective values of a zone that a launch binds (R31, R32), with the ZCB addresses from the named one to the root and each
ZCB's own effective limits for its budget. -/
structure Zone where
  chain   : List Addr
  max     : Nat
  min     : Nat
  scratch : Nat
  regs    : Nat
  shadow  : Nat
  spill   : Nat
  quota   : Nat
  prio    : Nat
  fdom    : Addr
  key     : Nat
  deriving DecidableEq, Repr

/-- A grid (R29): its bound launch, the next team to place, host cores, records outstanding in each pool (R345), and
the next iteration of each speculation domain (R222). A handler grid serves the fault domain `handles`; `primrose` says that the
Primrose monitor runs in it (R387, R405). -/
structure Grid where
  ctx      : Nat
  handle   : Nat
  packet   : Packet
  kernel   : Kernel
  segment  : Segment
  zones    : List Zone
  next     : Nat
  hosts    : List Nat
  pools    : List Nat
  specN    : List W32
  handles  : Option Nat
  primrose : Bool
  order    : Nat
  subject  : W64
  slane    : W32
  stile    : W32
  deriving DecidableEq, Repr

/-- A launch pending in a hardware queue (R333, R336, R337): its bound packet, and since when it waits for what it waits for now: the launch ahead
of it, or the completion object `object` of a prerequisite. -/
structure Pending where
  packet : Packet
  order  : Nat
  issuer : Option Issuer
  since  : Nat
  probe  : Nat
  object : Option Addr := none
  deriving DecidableEq, Repr

/-- A launch queue (R333). -/
structure LaunchQueue where
  ctx     : Option Nat
  ring    : Addr
  log2    : Nat
  head    : W32
  tail    : W32
  pending : List Pending
  dropped : Nat
  lost    : Bool
  overrun : Bool
  deriving DecidableEq, Repr

/-! ## Fault domains -/

/-- What a fault record holds until `TRET` (R396, R406). -/
inductive Held where
  | crew (uid lane : Nat)
  | access (team : Nat)
  | cmd (uid : Nat)
  | run (team : Option Nat) (rel : Nat)
  | image (team : Nat) (restore : Bool)
  | divert (die entry : Nat)
  | launch (q : Nat)
  | none
  deriving DecidableEq, Repr

/-- A fault record (R403), with the members of a WAIT_CYCLE report (R359); `resume` is RESUME of R408 where it is known apart from the
code at PC. -/
structure FRec where
  cause   : Cause
  addr    : W64
  pc      : Addr
  entry   : Addr
  info    : W64
  team    : W64
  subject : W64
  seq     : W32
  detail  : W32
  held    : Bool
  exact   : Bool
  absent  : Bool
  async   : Bool
  members : List (W64 × W64)
  stamp   : W64
  who     : Held
  grid    : Option Nat
  uid     : Nat
  resume  : Option Addr
  deriving DecidableEq, Repr

/-- A fault domain in use (R402 to R405): descriptor address and fields, next SEQ, records not yet written
(oldest first), records outstanding, and the grid of its running handler team. -/
structure Domain where
  ctx      : Nat
  addr     : Addr
  qsize    : Nat
  entry    : W32
  qctl     : Addr
  qbase    : Addr
  kernel   : Addr
  segment  : Addr
  seq      : Nat
  pending  : List FRec
  outst    : List FRec
  handler  : Option Nat
  deriving DecidableEq, Repr

/-! ## Windows, host port, peers -/

/-- A request to a bound view that waits at its controller (R166, R304, R309): who made it and at which instruction, its block, and for a
write the bytes that it carries. A read gives its bytes to the pieces of the access numbered `tag` that lie in its line and in its pass.
`writers` are the numbers of the threads that made it (R135), `subject` their unit's identity then. -/
structure WinReq where
  ctx    : Nat
  grid   : Nat
  core   : Nat
  crew   : Option Nat
  team   : Option Nat
  pc     : Addr
  va     : Nat
  len    : Nat
  write  : Option (List (Nat × Byte))
  tag    : Nat
  pass   : Nat
  writers : List Nat := []
  subject : W64 := 0
  deriving DecidableEq, Repr

/-- Where a byte is: in device memory, at the host or a peer, in a team's scratchpad, or in a bound view. -/
inductive Place where
  | dev (pa : Nat)
  | far (port : Option Nat) (addr : Nat)
  | pad (team off : Nat)
  | view (slot off : Nat)
  deriving DecidableEq, Repr

/-- The level of P(S) (R128). -/
inductive Lvl where
  | l1 | cluster | l2
  deriving DecidableEq, Repr

/-- How a thread's access to device memory is performed: its core and writer number, the level of P(S) when it is strong,
and the EVICT class and read count it carries. -/
structure Path where
  core   : Nat
  writer : Nat
  strong : Option Lvl
  ev     : Nat
  rc     : Nat
  deriving DecidableEq, Repr

/-- One piece of a lane's access, which is performed whole: its first address, its place, its length, how it is performed, and its bytes: those
to store, or those read once it is done. `bad` says that they were poisoned; `op` is the operation of an atomic, and `sent` says that it is on
its way to a team that is not on its core (R417, R419). -/
structure Piece where
  lane  : Nat
  va    : Nat
  place : Place
  n     : Nat
  path  : Path
  bytes : List Byte
  done  : Bool
  bad   : Bool
  op    : Option FarAtom := none
  sent  : Bool := false
  deriving DecidableEq, Repr

/-- A load, store or atomic that has issued and is not wholly performed (R138, R141, R172, R304): who made it and at which instruction, its
number, whether it is a store, the level of its release, its size in bytes, and, for a load or an atomic, the registers that its bytes go to, as
(code, first byte, bytes), sign-extended where `signed`; the level of its acquire. `mask` is the issue group that issued it, `entries` the
`%entry` of each of its lanes at its issue (R400), and `subject` its unit's identity then. -/
structure Pend where
  tag    : Nat
  ctx    : Nat
  grid   : Nat
  core   : Nat
  crew   : Option Nat
  team   : Option Nat
  pc     : Addr
  store  : Bool
  rel    : Option Lvl
  size   : Nat
  parts  : List (Nat × Nat × Nat)
  signed : Bool
  pieces : List Piece
  acq    : Option Lvl := none
  mask   : Mask := 0
  entries : List (Nat × Addr) := []
  subject : W64 := 0
  deriving DecidableEq, Repr

/-- A store or atomic sent to a host or peer window and not yet acknowledged (R150, R171, R377, R378): the port (none: the
host), the far addresses with their bytes, all of one 128-byte line, the operation of an atomic, and the unit or the command that sent it;
`core` is the unit's, whose outstanding-request place it occupies (R166); `dom` is the fault domain of a grid that has ended. -/
structure FarWrite where
  port  : Option Nat
  addr  : Nat
  cells : List (Nat × Byte)
  atom  : Option FarAtom
  core  : Nat
  ctx   : Nat
  grid  : Option Nat
  crew  : Option Nat
  team  : Option Nat
  cmd   : Option Nat
  va    : Addr
  pc    : Addr
  dom   : Option Nat := none
  writers : List Nat := []
  deriving DecidableEq, Repr

/-- A pairing of a context with a partner context through a peer port (R378). -/
structure Pair where
  ctx     : Nat
  port    : Nat
  partner : Nat
  key     : BitVec 256
  deriving DecidableEq, Repr

/-- The host port (R333, R376, R390): MSI-X vectors raised (oldest first), aperture base, denied-access counter,
the two halves of the debug mailbox with their sequence numbers, IDE streams with keys, and replies on the mailbox. -/
structure HostPort where
  msix    : List Nat
  apbase  : Nat
  denied  : Nat
  d2h     : Option (List Byte)
  d2hSeq  : W32
  h2d     : Option (List Byte)
  h2dSeq  : W32
  ide     : List Nat
  replies : List Bool
  reads   : List (List Byte)
  deriving DecidableEq, Repr

/-- A frame's owner in the ownership table (R368); a frame not listed is free. -/
inductive Frame where
  | own (ctx : Nat)
  | shared
  | table (ctx : Nat)
  deriving DecidableEq, Repr

/-! ## Security, power, start -/

/-- Security states (R394). -/
inductive SecState where
  | manufacture | secure | opened
  deriving DecidableEq, Repr

/-- An owner session (R386): the SHA-384 of its transcript, its keys, the messages received in it, and the owner keys that it has named. -/
structure OwnerSession where
  transcript : BitVec 384
  secret     : BitVec 256
  count      : Nat
  keys       : Option (BitVec 384)
  deriving DecidableEq, Repr

/-- Hollyhock (R380 to R394). `fuse` says whether the fuse that provisioning blows is blown: without it a cold start is in MANUFACTURE (R394).
`slots` lists the key slots in use with their contexts; `attest` the
requests accepted and not served; `next` the security state to enter at the next cold start. -/
structure Security where
  state     : SecState
  next      : Option SecState
  full      : Bool
  mr        : List (BitVec 384)
  slots     : List (Nat × Nat)
  owner     : Option (BitVec 384)
  ownerChal : List (BitVec 128)
  minima    : List Nat
  attest    : List Nat
  seq       : W32
  fuse      : Bool
  sessions  : Tab OwnerSession
  deriving DecidableEq, Repr

/-- One entry of the start record (R430). -/
structure StartEntry where
  attempts : BitVec 8
  path     : BitVec 4
  state    : BitVec 3
  deriving DecidableEq, Repr

/-- The start (R430 to R433): the record, the start counter, what the record's tag was last computed over, whether the tag was found right as this
start began, the step to be attempted, whether the device refused to start, has made its ready report, or has stopped (R437), the units
mapped out, the die that the next start maps out, and the HBM rate. -/
structure Start where
  entries  : List StartEntry
  counter  : W64
  tagged   : List StartEntry × W64
  found    : Bool
  step     : Nat
  refused  : Bool
  ready    : Bool
  stopped  : Bool
  outCores : List Nat
  outDies  : List Nat
  badLink  : Option Nat
  hbmRate  : Nat
  deriving DecidableEq, Repr

/-- Package power (R391): running, stopping its work to enter S3, in S3, or off. -/
inductive Package where
  | on | toS3 | s3 | off
  deriving DecidableEq, Repr

/-- The soft error counters in the order of R438. -/
structure Counters where
  hbmCe : W32
  hbmUe : W32
  sramCe : W32
  sramUe : W32
  regReread : W32
  poisonUsed : W32
  d2dReplay : W32
  peerReplay : W32
  scrubPass : W32
  deriving DecidableEq, Repr

/-- Links and scrubs (R435, R437): failed replays of the current flit on each link (peer, number), the
peer ports that are up, the next block of each controller's patrol scrub, and the replies to peers' requests: port, and bytes with
whether they are poisoned, or none for a refusal (R378). -/
structure Links where
  replays : List (Bool × Nat × Nat)
  peersUp : List Nat
  scrub   : Tab Nat
  sent    : List (Nat × Option (List Byte × Bool))
  deriving DecidableEq, Repr

/-- The package directory and scheduler's package-wide state: holder of the serial-commit token and those who asked for it in order (R220), tracking
units split below 64 KiB with the cycle of their last conflict (R145), requests for lines in order. -/
structure Directory where
  serial    : Option (Nat × Nat)
  serialAsk : List (Nat × Nat)
  units     : List (Nat × Nat × Nat)
  persist   : List (Nat × Nat)
  deriving DecidableEq, Repr

/-- Numbers the model hands out, and its own free-value counter `fresh` (the model's field, not the spec's). -/
structure Serial where
  uid    : Nat
  order  : Nat
  store  : Nat
  fresh  : Nat
  deriving DecidableEq, Repr

/-! ## The whole -/

/-- What the management controller keeps (R392): the power in milliwatts measured in the last 100 samples, newest first; for how many samples in a row their average
has been below 2,700 W; and whether it has moved the dies to A1. -/
structure Thermal where
  samples : List Nat
  calm    : Nat
  capped  : Bool
  deriving DecidableEq, Repr

/-- A register's parity that fails in a lane of a unit when it is next read, or that of the accumulator `acc` of a quarter, and whether the re-read
that follows succeeds (R434, R436). -/
structure Parity where
  unit   : UnitRef
  lane   : Nat
  reread : Bool
  acc    : Option (Nat × Nat) := none
  deriving DecidableEq, Repr

/-- The machine. `agenda` holds the events whose turn has come, oldest first: what the outside does, and any
order of the device's own steps that is to be followed; `cur` is the unit selected to issue. `late` says, for the next loads and stores to
issue, which of them the memory system performs after their issue (R138); with none listed each is performed as it issues. `parity` lists
the parity errors that registers are to meet (R436); `told` the closed sets reported, each with the cycle (R358). -/
structure State where
  clock    : Nat
  cur      : Option UnitRef
  agenda   : List Instr
  nums     : Serial
  mem      : List Host.Cell
  poison   : List Nat
  lines    : Tab Line
  topVer   : W32
  frames   : Tab Frame
  ctxs     : Tab Ctx
  grids    : Tab Grid
  teams    : Tab Team
  crews    : Tab Crew
  quarters : Tab Quarter
  cores    : Tab Core
  clusters : Tab Cluster
  dies     : Tab Die
  cmds     : Tab Cmd
  freds    : List FredGroup
  pend     : List Pend
  late     : List Bool
  parity   : List Parity
  winq     : List WinReq
  far      : List FarWrite
  queues   : Tab LaunchQueue
  domains  : Tab Domain
  host     : HostPort
  pairs    : List Pair
  sec      : Security
  start    : Start
  package  : Package
  counters : Counters
  links    : Links
  dir      : Directory
  told     : List (Nat × List (W64 × W64))
  thermal  : Thermal
  deriving DecidableEq, Repr

/-! ## Values at reset -/

/-- The context control registers when a context opens (R46). -/
def CtlRegs.reset : CtlRegs :=
  { sctl := 0, atrap := 0, binAge := 0x100, srseed := 0, aelogBase := 0, aelogBaseH := 0, aelogSize := 0,
    aelogHead := 0, spillBase := 0, spillBaseH := 0, spillSize := 0, shadowBase := 0, shadowBaseH := 0, shadowSize := 0 }

/-- Hollyhock after a cold start in the shipping state (R381, R394; log 7). -/
def Security.reset : Security :=
  { state := .secure, next := none, full := false, mr := List.replicate 12 0, slots := [], owner := none,
    ownerChal := [], minima := List.replicate 7 0, attest := [], seq := 0,
    fuse := true, sessions := [] }

/-- The start record's entries and the units in service when a start begins (R430). -/
def Start.reset : Start :=
  { entries := List.replicate 24 { attempts := 0, path := 0, state := 0 }, counter := 0,
    tagged := (List.replicate 24 { attempts := 0, path := 0, state := 0 }, 0), found := true, step := 1, refused := false,
    ready := false, stopped := false, outCores := [], outDies := [], badLink := none, hbmRate := 11 }

/-- The machine right after reset: a cold start has begun and no step of the start record is done. -/
def State.reset : State :=
  { clock := 0, cur := none, agenda := [],
    nums := { uid := 1, order := 0, store := 0, fresh := 0 },
    mem := [], poison := [], lines := [], topVer := 0, frames := [], ctxs := [], grids := [], teams := [], crews := [],
    quarters := [], cores := [], clusters := [], dies := [], cmds := [], freds := [], pend := [], late := [], parity := [], winq := [], far := [],
    queues := [], domains := [],
    host := { msix := [], apbase := 0, denied := 0, d2h := none, d2hSeq := 0, h2d := none, h2dSeq := 0, ide := [],
              replies := [], reads := [] },
    pairs := [], sec := Security.reset, start := Start.reset, package := .on,
    counters := { hbmCe := 0, hbmUe := 0, sramCe := 0, sramUe := 0, regReread := 0, poisonUsed := 0, d2dReplay := 0,
                  peerReplay := 0, scrubPass := 0 },
    links := { replays := [], peersUp := [], scrub := [], sent := [] },
    dir := { serial := none, serialAsk := [], units := [], persist := [] }, told := [],
    thermal := { samples := [], calm := 0, capped := false } }

end Sys2Proof.Machine
end

