-- ==== Sys2Proof/Machine/Fp.lean ====
section
/-! DEFINITION. Floating values and their arithmetic: exact values, rounding (R233 to R243), the FP32 and packed
operations (R248 to R259), the special functions (R260 to R262) and conversions (R263, R264). -/

namespace Sys2Proof.Machine

open Sys2Proof

/-! ## Exact values -/

/-- The value of a code: a NaN, an infinity, or the exact number (-1)^neg * n * 2^e; n = 0 is a signed zero. -/
inductive Num where
  | nan
  | inf (neg : Bool)
  | fin (neg : Bool) (n : Nat) (e : Int)
  deriving DecidableEq, Repr

/-- Which special codes a format has (R233). -/
inductive Specials where
  | ieee | nanOnly | finite
  deriving DecidableEq, Repr

/-- A floating format: exponent bits, fraction bits, bias and special codes (R233). -/
structure FloatFmt where
  eb   : Nat
  mb   : Nat
  bias : Nat
  sp   : Specials
  deriving DecidableEq, Repr

def fp32  : FloatFmt := ⟨8, 23, 127, .ieee⟩
def fp16  : FloatFmt := ⟨5, 10, 15, .ieee⟩
def bf16  : FloatFmt := ⟨8, 7, 127, .ieee⟩
def fE4M3 : FloatFmt := ⟨4, 3, 7, .nanOnly⟩
def fE5M2 : FloatFmt := ⟨5, 2, 15, .ieee⟩
def fE3M2 : FloatFmt := ⟨3, 2, 3, .finite⟩
def fE2M3 : FloatFmt := ⟨2, 3, 1, .finite⟩
def fE2M1 : FloatFmt := ⟨2, 1, 1, .finite⟩

namespace FloatFmt

/-- The weight of the sign bit. -/
def signBit (f : FloatFmt) : Nat := 2 ^ (f.eb + f.mb)
/-- The code of +infinity in a format that has one; the first code above the normals otherwise. -/
def infCode (f : FloatFmt) : Nat := (2 ^ f.eb - 1) * 2 ^ f.mb
/-- The largest finite magnitude (R233). -/
def maxCode (f : FloatFmt) : Nat :=
  match f.sp with
  | .ieee => f.infCode - 1
  | .nanOnly => f.signBit - 2
  | .finite => f.signBit - 1
/-- nan_result of R237 and R240: the default NaN, or +0 in a format without NaNs. -/
def nanCode (f : FloatFmt) : Nat :=
  match f.sp with
  | .ieee => f.infCode + 2 ^ (f.mb - 1)
  | .nanOnly => f.signBit - 1
  | .finite => 0
/-- A magnitude code with a sign. -/
def signed (f : FloatFmt) (neg : Bool) (mag : Nat) : Nat := if neg then f.signBit + mag else mag
/-- The sign of a code. -/
def isNeg (f : FloatFmt) (c : Nat) : Bool := decide (c / f.signBit % 2 = 1)
/-- The magnitude part of a code. -/
def mag (f : FloatFmt) (c : Nat) : Nat := c % f.signBit
/-- Whether a code is a NaN (R233). -/
def isNan (f : FloatFmt) (c : Nat) : Bool :=
  match f.sp with
  | .ieee => decide (f.infCode < f.mag c)
  | .nanOnly => decide (f.mag c = f.signBit - 1)
  | .finite => false
/-- Whether a code is a subnormal. -/
def isSub (f : FloatFmt) (c : Nat) : Bool := f.mag c != 0 && decide (f.mag c < 2 ^ f.mb)
/-- A subnormal replaced by a zero of its sign (R240, R255). -/
def flush (f : FloatFmt) (c : Nat) : Nat := if f.isSub c then f.signed (f.isNeg c) 0 else c

/-- The value of a code (R233). -/
def value (f : FloatFmt) (c : Nat) : Num :=
  let neg := f.isNeg c
  let m := f.mag c
  if f.isNan c then .nan
  else if f.sp = .ieee ∧ m = f.infCode then .inf neg
  else
    let e := m / 2 ^ f.mb
    let frac := m % 2 ^ f.mb
    if e = 0 then .fin neg frac (1 - (f.bias : Int) - f.mb)
    else .fin neg (2 ^ f.mb + frac) ((e : Int) - f.bias - f.mb)

end FloatFmt

/-! ## Rounding (R237) -/

/-- The overflow table of R237: a magnitude code. -/
def overflowMag (f : FloatFmt) (neg : Bool) (rnd : Rnd) (sat : Bool) : Nat :=
  let beyond := match f.sp with | .ieee => f.infCode | .nanOnly => f.signBit - 1 | .finite => f.maxCode
  if sat then f.maxCode
  else match rnd with
    | .rne | .sr => beyond
    | .rz => f.maxCode
    | .ru => if neg then f.maxCode else beyond
    | .rd => if neg then beyond else f.maxCode

/-- Whether a magnitude `lo + rem / 2^sh` (plus something below its last place where `sticky`) rounds up; `odd` is the last
bit of `lo`, `draw` the generator's draw of R238. -/
def roundsUp (rnd : Rnd) (neg odd : Bool) (rem sh : Nat) (sticky : Bool) (draw : Nat) : Bool :=
  if rem = 0 ∧ !sticky then false
  else match rnd with
    | .rne => if 2 * rem = 2 ^ sh then sticky || odd else decide (2 ^ sh < 2 * rem)
    | .rz => false
    | .ru => !neg
    | .rd => neg
    | .sr => decide (draw < rem * 65536 / 2 ^ sh)

/-- `round` of R237 for a nonzero n * 2^e, or for a value strictly between n and n + 1 times 2^e where `sticky`: the code and
whether it overflowed. -/
def roundFin (f : FloatFmt) (rnd : Rnd) (sat : Bool) (draw : Nat) (neg : Bool) (n : Nat) (e : Int) (sticky : Bool) :
    Nat × Bool :=
  let top : Int := Nat.log2 n + e
  let emin : Int := 1 - (f.bias : Int)
  let q : Int := (if top < emin then emin else top) - f.mb
  let shift : Int := q - e
  let m : Nat :=
    if shift ≤ 0 then n * 2 ^ shift.natAbs
    else
      let sh := shift.natAbs
      let lo := n / 2 ^ sh
      let rem := n % 2 ^ sh
      lo + (if roundsUp rnd neg (lo % 2 == 1) rem sh sticky draw then 1 else 0)
  let code : Nat := ((q + f.mb + f.bias).toNat - 1) * 2 ^ f.mb + m
  if f.maxCode < code then (f.signed neg (overflowMag f neg rnd sat), true) else (f.signed neg code, false)

/-- inf_result of R237 and R240. -/
def infResult (f : FloatFmt) (neg sat : Bool) : Nat :=
  f.signed neg (if sat then f.maxCode else
    match f.sp with | .ieee => f.infCode | .nanOnly => f.signBit - 1 | .finite => f.maxCode)

/-- `round` of R237: the code, and whether a finite value overflowed. -/
def roundNum (f : FloatFmt) (rnd : Rnd) (sat : Bool) (draw : Nat) : Num → Nat × Bool
  | .nan => (f.nanCode, false)
  | .inf neg => (infResult f neg sat, false)
  | .fin neg n e => if n = 0 then (f.signed neg 0, false) else roundFin f rnd sat draw neg n e false

/-- The stochastic generator's step (R238). -/
def lfsrStep (st : W32) : W32 := if st.getLsbD 0 then (st >>> 1) ^^^ 0x80200003#32 else st >>> 1
/-- The draw a step returns (R238). -/
def lfsrDraw (st : W32) : Nat := (st >>> 16).toNat

/-! ## Exact arithmetic (R248) -/

/-- The exact integer of a finite value scaled to the exponent `e`, which is not above its own. -/
def scaled (neg : Bool) (n : Nat) (e : Int) (base : Int) : Int :=
  let v : Int := n * 2 ^ (e - base).natAbs
  if neg then -v else v

/-- A finite value of an integer times 2^e. -/
def ofIntExp (z : Int) (e : Int) : Num := .fin (decide (z < 0)) z.natAbs e

/-- A + B, exactly; `none` for infinities of opposite sign. An exact zero has the sign of R248. -/
def Num.add (rnd : Rnd) : Num → Num → Option Num
  | .nan, _ => some .nan
  | _, .nan => some .nan
  | .inf a, .inf b => if a = b then some (.inf a) else none
  | .inf a, .fin .. => some (.inf a)
  | .fin .., .inf b => some (.inf b)
  | .fin s n e, .fin t m d =>
    let lo := if e < d then e else d
    let z := scaled s n e lo + scaled t m d lo
    if z = 0 then
      (if n = 0 ∧ m = 0 ∧ s = t then some (.fin s 0 0) else some (.fin (rnd == .rd) 0 0))
    else some (ofIntExp z lo)

/-- A * B, exactly; `none` for a zero times an infinity. -/
def Num.mul : Num → Num → Option Num
  | .nan, _ => some .nan
  | _, .nan => some .nan
  | .inf a, .inf b => some (.inf (a != b))
  | .inf a, .fin t m _ => if m = 0 then none else some (.inf (a != t))
  | .fin s n _, .inf b => if n = 0 then none else some (.inf (s != b))
  | .fin s n e, .fin t m d => some (.fin (s != t) (n * m) (e + d))

/-- -A. -/
def Num.neg : Num → Num
  | .nan => .nan
  | .inf a => .inf (!a)
  | .fin s n e => .fin (!s) n e

def Num.isNan : Num → Bool
  | .nan => true
  | _ => false
def Num.isZero : Num → Bool
  | .fin _ n _ => n == 0
  | _ => false
def Num.isNeg : Num → Bool
  | .nan => false
  | .inf a => a
  | .fin s _ _ => s

/-- The comparison of two values that are not NaN: negative, zero or positive; zeros are equal (R252). -/
def Num.cmp : Num → Num → Int
  | .nan, _ => 0
  | _, .nan => 0
  | .inf a, .inf b => if a = b then 0 else if a then -1 else 1
  | .inf a, .fin .. => if a then -1 else 1
  | .fin .., .inf b => if b then 1 else -1
  | .fin s n e, .fin t m d =>
    let lo := if e < d then e else d
    scaled s n e lo - scaled t m d lo

/-- The result of an operation: an invalid one gives the default NaN and INVALID; a finite one is rounded (R248, R250). -/
def finish (f : FloatFmt) (rnd : Rnd) (x : Option Num) : Nat × Option Arith :=
  match x with
  | none => (f.nanCode, some .invalid)
  | some v => let r := roundNum f rnd false 0 v; (r.1, if r.2 then some .overflow else none)

/-- The clamp to [0, 1] of `.sat` (R250). -/
def clamp01 (f : FloatFmt) (sat : Bool) (c : Nat) : Nat :=
  if !sat then c
  else match f.value c with
    | .nan => 0
    | .inf neg => if neg then 0 else f.bias * 2 ^ f.mb
    | .fin neg n _ =>
      if neg ∨ n = 0 then 0 else if f.bias * 2 ^ f.mb < f.mag c then f.bias * 2 ^ f.mb else c

/-- A + B rounded once (R250). -/
def fAdd (f : FloatFmt) (rnd : Rnd) (a b : Nat) : Nat × Option Arith :=
  finish f rnd ((f.value a).add rnd (f.value b))
/-- A * B rounded once (R250). -/
def fMul (f : FloatFmt) (rnd : Rnd) (a b : Nat) : Nat × Option Arith :=
  finish f rnd ((f.value a).mul (f.value b))
/-- A * B + C rounded once (R250): a NaN operand gives a NaN with no event, even beside 0 * infinity. -/
def fFma (f : FloatFmt) (rnd : Rnd) (a b c : Nat) : Nat × Option Arith :=
  if (f.value c).isNan then (f.nanCode, none)
  else finish f rnd (match (f.value a).mul (f.value b) with
    | none => none
    | some p => p.add rnd (f.value c))

/-- The order of `FMIN` and `FMAX` on codes that are not NaN: -0 below +0 (R251). -/
def orderKey (f : FloatFmt) (c : Nat) : Int := if f.isNeg c then -(f.mag c : Int) - 1 else f.mag c

/-- `FMIN` and `FMAX` (R251). -/
def fMinMax (f : FloatFmt) (max nanProp : Bool) (a b : Nat) : Nat :=
  match f.isNan a, f.isNan b with
  | true, true => f.nanCode
  | true, false => if nanProp then f.nanCode else b
  | false, true => if nanProp then f.nanCode else a
  | false, false =>
    if (if max then decide (orderKey f a < orderKey f b) else decide (orderKey f b < orderKey f a)) then b else a

/-- The comparisons of R252. -/
def fCompare (f : FloatFmt) (cmp : FCmp) (a b : Nat) : Bool :=
  let un := f.isNan a || f.isNan b
  let c := (f.value a).cmp (f.value b)
  match cmp with
  | .eq => !un && c == 0
  | .ne => un || c != 0
  | .lt => !un && decide (c < 0)
  | .le => !un && decide (c ≤ 0)
  | .gt => !un && decide (0 < c)
  | .ge => !un && decide (0 ≤ c)
  | .un => un
  | .ord => !un

/-- The class number of R253. -/
def fClass (f : FloatFmt) (c : Nat) : Nat :=
  let neg := f.isNeg c
  let m := f.mag c
  if f.isNan c then 8
  else if f.sp = .ieee ∧ m = f.infCode then (if neg then 0 else 7)
  else if m = 0 then (if neg then 3 else 4)
  else if m < 2 ^ f.mb then (if neg then 2 else 5)
  else (if neg then 1 else 6)

/-- The magnitude of a finite value rounded to an integer by the mode (R243, R254). -/
def roundInt (rnd : Rnd) (draw : Nat) (neg : Bool) (n : Nat) (e : Int) : Nat :=
  if 0 ≤ e then n * 2 ^ e.natAbs
  else
    let sh := e.natAbs
    let lo := n / 2 ^ sh
    lo + (if roundsUp rnd neg (lo % 2 == 1) (n % 2 ^ sh) sh false draw then 1 else 0)

/-- `FRND` (R254). -/
def fRound (rnd : Rnd) (a : Nat) : Nat :=
  match fp32.value a with
  | .nan => fp32.nanCode
  | .inf _ => a
  | .fin neg n e => (roundNum fp32 .rne false 0 (.fin neg (roundInt rnd 0 neg n e) 0)).1

/-- The integer square root of n below 4^k, found bit by bit from the top. -/
def isqrt (k n : Nat) : Nat :=
  (List.range k).foldl (fun r i => let t := r + 2 ^ (k - 1 - i); if t * t ≤ n then t else r) 0

/-- `SQRT` (R259). -/
def fSqrt (a : Nat) : Nat × Option Arith :=
  match fp32.value a with
  | .nan => (fp32.nanCode, none)
  | .inf neg => if neg then (fp32.nanCode, some .invalid) else (a, none)
  | .fin neg n e =>
    if n = 0 then (a, none)
    else if neg then (fp32.nanCode, some .invalid)
    else
      let sh : Nat := if e % 2 = 0 then 64 else 65
      let m := n * 2 ^ sh
      let r := isqrt 48 m
      ((roundFin fp32 .rne false 0 false r ((e - sh) / 2) (r * r != m)).1, none)

/-- `FDIV` (R259). -/
def fDiv (rnd : Rnd) (a b : Nat) : Nat × Option Arith :=
  match fp32.value a, fp32.value b with
  | .nan, _ => (fp32.nanCode, none)
  | _, .nan => (fp32.nanCode, none)
  | .inf _, .inf _ => (fp32.nanCode, some .invalid)
  | .inf s, .fin t _ _ => (fp32.signed (s != t) fp32.infCode, none)
  | .fin s _ _, .inf t => (fp32.signed (s != t) 0, none)
  | .fin s n e, .fin t m d =>
    if m = 0 then
      (if n = 0 then (fp32.nanCode, some .invalid) else (fp32.signed (s != t) fp32.infCode, some .fdivz))
    else if n = 0 then (fp32.signed (s != t) 0, none)
    else
      let r := roundFin fp32 rnd false 0 (s != t) (n * 2 ^ 64 / m) (e - d - 64) (n * 2 ^ 64 % m != 0)
      (r.1, if r.2 then some .overflow else none)

/-! ## Special functions (R260 to R262)

The manual leaves open which value within its bounds a special function returns. Each function below computes the
interval of FP32 values that the bounds allow, from the exact result to a precision far below the bounds, and
`Config.sfuPick` names one of them (log 3). -/

/-- ln 2 times 2^256. -/
def ln2Fix : Nat := 0xb17217f7d1cf79abc9e3b39803f2f6af40f343267298b62d8a0d175b8baafa2b
/-- Half of pi times 2^512 (R262). -/
def halfPiFix : Nat :=
  0x1921fb54442d18469898cc51701b839a252049c1114cf98e804177d4c76273644a29410f31c6809bbdf2a33679a748636605614dbe4be286e9fc26adadaa3848b

/-- The sum of terms t0, t1, ... where each term is the one before times x / (k * 2^p), k counting on from `k0` by `kd`
with factor (k)(k + 1) when `two`; signs alternate when `alt`. -/
def taylor (p : Nat) (two alt : Bool) (x : Int) : (terms k : Nat) → (t : Int) → Int
  | 0, _, _ => 0
  | n + 1, k, t =>
    let d : Int := if two then k * (k + 1) else k
    let t' := t * x / (d * 2 ^ p)
    t + taylor p two alt x n (k + (if two then 2 else 1)) (if alt then -t' else t')

/-- e^x times 2^p for a fixed-point x at p bits. -/
def expFix (p : Nat) (x : Int) : Int := taylor p false false x 240 1 (2 ^ p)
/-- sin x times 2^p, for a fixed-point x of at most 2 at p bits. -/
def sinFix (p : Nat) (x : Int) : Int := taylor p true true (x * x / 2 ^ p) 64 2 x
/-- cos x times 2^p. -/
def cosFix (p : Nat) (x : Int) : Int := taylor p true true (x * x / 2 ^ p) 64 1 (2 ^ p)
/-- The odd powers of z summed over their exponents, at p bits: artanh z. -/
def artanhFix (p : Nat) (z2 : Int) : (terms k : Nat) → (t : Int) → Int
  | 0, _, _ => 0
  | n + 1, k, t => t / k + artanhFix p z2 n (k + 2) (t * z2 / 2 ^ p)

/-- The FP32 value whose place in the order -max ... -0 +0 ... +max is given: the inverse of `orderKey`. -/
def ofOrderKey (k : Int) : Nat := if k < 0 then 0x80000000 + (-k - 1).natAbs else k.natAbs

/-- The value with the order key nearest below (or above) y * 2^-p, finite. -/
def keyAt (up : Bool) (p : Nat) (y : Int) : Int :=
  let r := (roundNum fp32 (if up then .ru else .rd) true 0 (ofIntExp y (-(p : Int)))).1
  if y = 0 then (if up then -1 else 0) else orderKey fp32 r

/-- The FP32 values within `bound` of y, both times 2^-p, as an index picks one. -/
def pickWithin (p : Nat) (y bound : Int) (pick : Nat) : Nat :=
  let lo := keyAt true p (y - bound)
  let hi := keyAt false p (y + bound)
  ofOrderKey (lo + (pick % ((hi - lo).toNat + 1) : Nat))

/-- `m` units in the last place of y * 2^-p, where R260 measures them, in units of 2^-p, less what a value computed to p bits may be off: no value
outside the bound is picked. -/
def ulps (m : Nat) (p : Nat) (y : Int) : Int :=
  let top : Int := Nat.log2 y.natAbs - (p : Int)
  let u : Int := (if top < -126 then -126 else top) - 23
  m * 2 ^ (u + p).toNat - 2 ^ (p / 16)

/-- A finite value at p fraction bits, rounded down. -/
def fixOf (p : Nat) (neg : Bool) (n : Nat) (e : Int) : Int :=
  let v : Int := if 0 ≤ e + p then n * 2 ^ (e + p).natAbs else n / 2 ^ (e + p).natAbs
  if neg then -v else v

/-- One of the FP32 values nearest an exact quotient or root (R260): its neighbours below and above where it is not itself a
value; else the value, the one below, and, where the spacing is the same, the one above. -/
def pickNearest (neg : Bool) (n : Nat) (e : Int) (sticky : Bool) (pick : Nat) : Nat :=
  let lo := (roundFin fp32 .rz true 0 false n e sticky).1
  let exact := !sticky && (match fp32.value lo with
    | .fin _ m d => decide ((Num.fin false n e).cmp (.fin false m d) = 0)
    | _ => false)
  let c := if exact then (if lo % 2 ^ 23 = 0 ∧ 2 ^ 24 ≤ lo then lo - pick % 2 else lo - 1 + pick % 3)
    else lo + pick % 2
  fp32.signed neg c

/-- The special functions by the low digit of their operation code (R66). -/
inductive Sfu where
  | rcp | rsq | exp2 | log2 | sin | cos | tanh
  deriving DecidableEq, Repr

def Sfu.code : Sfu → Nat
  | .rcp => 0 | .rsq => 1 | .exp2 => 3 | .log2 => 4 | .sin => 5 | .cos => 6 | .tanh => 7

/-- `RCP` of a nonzero finite value (R260, R261). -/
def sfuRcp (neg : Bool) (n : Nat) (e : Int) (pick : Nat) : Nat × Option Arith :=
  -- 1 / (n * 2^e) as a quotient of 2^128 by n
  let q := 2 ^ 128 / n
  let sticky := 2 ^ 128 % n != 0
  let r := roundFin fp32 .rz false 0 neg q (-e - 128) sticky
  if r.2 then (fp32.signed neg fp32.infCode, some .overflow) else (pickNearest neg q (-e - 128) sticky pick, none)

/-- `RSQ` of a positive finite value (R260). -/
def sfuRsq (n : Nat) (e : Int) (pick : Nat) : Nat :=
  -- 1 / sqrt(n * 2^e) is the root of 2^s / n times a power of two, with s + e even
  let s : Nat := if e % 2 = 0 then 160 else 161
  let v := 2 ^ s / n
  let r := isqrt 84 v
  pickNearest false r ((-e - s) / 2) (r * r != v || 2 ^ s % n != 0) pick

/-- `EXP2` of a nonzero finite value (R260). -/
def sfuExp2 (neg : Bool) (n : Nat) (e : Int) (pick : Nat) : Nat × Option Arith :=
  let x := fixOf 256 neg n e            -- exact: a FP32 value above 2^-149 has its last bit at 2^-149
  let k : Int := x / 2 ^ 256            -- floor
  let r := x % 2 ^ 256
  if 128 ≤ k then (fp32.infCode, some .overflow)
  else if x < -150 * 2 ^ 256 then (0, none)
  else if r = 0 ∧ -149 ≤ k then ((roundFin fp32 .rne false 0 false 1 k false).1, none)
  else
    -- 2^A at 512 fraction bits: 2^r at 256 bits, moved by k + 256
    let y := expFix 256 (r * ln2Fix / 2 ^ 256) * 2 ^ (k + 256).toNat
    (pickWithin 512 y (ulps 2 512 y - 2 ^ 280) pick, none)

/-- `LOG2` of a positive finite value (R260). -/
def sfuLog2 (n : Nat) (e : Int) (pick : Nat) : Nat :=
  let l := Nat.log2 n
  let k : Int := l + e
  let m : Int := n * 2 ^ 256 / 2 ^ l      -- in [1, 2) at 256 bits
  if n = 2 ^ l then (roundNum fp32 .rne false 0 (ofIntExp k 0)).1
  else
    let z := (m - 2 ^ 256) * 2 ^ 256 / (m + 2 ^ 256)
    let y := k * 2 ^ 256 + 2 * artanhFix 256 (z * z / 2 ^ 256) 96 1 z * 2 ^ 256 / ln2Fix
    if k = -1 ∨ k = 0 then pickWithin 256 y (2 ^ 234 - 2 ^ 32) pick else pickWithin 256 y (ulps 2 256 y) pick

/-- The sine (or cosine) of a positive finite value as a fixed-point number at 512 bits: reduction modulo half of pi (R262). -/
def trigFix (cosine : Bool) (n : Nat) (e : Int) : Int :=
  let x := (fixOf 512 false n e).toNat
  let q := x / halfPiFix + (if cosine then 1 else 0)
  let r : Int := (x % halfPiFix : Nat)
  match q % 4 with
  | 0 => sinFix 512 r
  | 1 => cosFix 512 r
  | 2 => -sinFix 512 r
  | _ => -cosFix 512 r

/-- A function of a finite nonzero magnitude within 2 units in the last place. -/
def pick2 (y : Int) (pick : Nat) : Nat := pickWithin 512 y (ulps 2 512 y) pick

/-- tanh of a positive finite value at 512 bits. -/
def tanhFix (n : Nat) (e : Int) : Int :=
  let x := fixOf 512 false n e
  let t := expFix 512 (2 * x) - 2 ^ 512
  t * 2 ^ 512 / (t + 2 * 2 ^ 512)

/-- A special function of an FP32 code: its result and its event (R260 to R262). -/
def sfu (fn : Sfu) (a : Nat) : Nat × Option Arith :=
  let neg := fp32.isNeg a
  let one := 0x3F800000
  let pick := Config.sfuPick fn.code (BitVec.ofNat 32 a)
  -- the functions with a symmetry pick by the magnitude, so that the identities of R260 hold
  let pickMag := Config.sfuPick fn.code (BitVec.ofNat 32 (fp32.mag a))
  match fn, fp32.value a with
  | _, .nan => (fp32.nanCode, none)
  | .rcp, .inf s => (fp32.signed s 0, none)
  | .rcp, .fin s n e =>
    if n = 0 then (fp32.signed s fp32.infCode, some .fdivz) else sfuRcp s n e pickMag
  | .rsq, .inf s => if s then (fp32.nanCode, some .invalid) else (0, none)
  | .rsq, .fin s n e =>
    if n = 0 then (fp32.signed s fp32.infCode, some .fdivz)
    else if s then (fp32.nanCode, some .invalid) else (sfuRsq n e pick, none)
  | .exp2, .inf s => if s then (0, none) else (fp32.infCode, none)
  | .exp2, .fin s n e => if n = 0 then (one, none) else sfuExp2 s n e pick
  | .log2, .inf s => if s then (fp32.nanCode, some .invalid) else (fp32.infCode, none)
  | .log2, .fin s n e =>
    if n = 0 then (fp32.signed true fp32.infCode, some .fdivz)
    else if s then (fp32.nanCode, some .invalid) else (sfuLog2 n e pick, none)
  | .sin, .inf _ => (fp32.nanCode, some .invalid)
  | .sin, .fin _ n e =>
    if n = 0 then (a, none)
    else
      let r := pick2 (trigFix false n e) pickMag
      (if neg then (r + 0x80000000) % 2 ^ 32 else r, none)
  | .cos, .inf _ => (fp32.nanCode, some .invalid)
  | .cos, .fin _ n e =>
    if n = 0 then (one, none)
    -- the worked case of R262 names two values
    else if fp32.mag a = 0x40490FDB then (0xBF800000 - pickMag % 2, none)
    else (pick2 (trigFix true n e) pickMag, none)
  | .tanh, .inf s => (fp32.signed s one, none)
  | .tanh, .fin s n e =>
    if n = 0 then (a, none)
    else if fp32.mag a ≥ 0x41200000 then (fp32.signed s one, none)
    else
      let r := pick2 (tanhFix n e) pickMag
      (if neg then (r + 0x80000000) % 2 ^ 32 else r, none)

/-! ## Conversions (R240, R243, R263) -/

/-- The floating format of an element format; FP32 for those that are none. -/
def fltOf : Fmt → FloatFmt
  | .fp16 => fp16 | .bf16 => bf16 | .e4m3 => fE4M3 | .e5m2 => fE5M2 | .e3m2 => fE3M2 | .e2m3 => fE2M3 | .e2m1 => fE2M1
  | _ => fp32

/-- The integer a code of an integer format stands for (R232). -/
def intOf (bits : Nat) (c : Nat) : Int := (BitVec.ofNat bits c).toInt

/-- An integer clamped to a two's complement range of `bits` bits, and whether it was clamped. -/
def clampInt (bits : Nat) (z : Int) : Int × Bool :=
  if z < -(2 ^ (bits - 1) : Int) then (-(2 ^ (bits - 1) : Int), true)
  else if (2 ^ (bits - 1) : Int) - 1 < z then ((2 ^ (bits - 1) : Int) - 1, true) else (z, false)

/-- The value of an E8M0 code (R234). -/
def e8m0Value (c : Nat) : Num := if c = 255 then .nan else .fin false 1 ((c : Int) - 127)

/-- The exact value of a source code (R263). -/
def srcValue (src : Fmt) (c : Nat) : Num :=
  if src.isInt then ofIntExp (intOf src.bits c) 0
  else if src = .e8m0 then e8m0Value c
  else (fltOf src).value c

/-- A value into an integer format (R243): the integer and its event. -/
def toInt (rnd : Rnd) (draw : Nat) (bits : Nat) : Num → Int × Option Arith
  | .nan => (0, some .cvtSpecial)
  | .inf neg => (if neg then -(2 ^ (bits - 1) : Int) else (2 ^ (bits - 1) : Int) - 1, some .cvtSpecial)
  | .fin neg n e =>
    let m : Int := roundInt rnd draw neg n e
    let r := clampInt bits (if neg then -m else m)
    (r.1, if r.2 then some .overflow else none)

/-- A value into E8M0 (R243). -/
def toE8m0 (rnd : Rnd) : Num → Nat × Option Arith
  | .fin false n e =>
    if n = 0 then (255, some .cvtSpecial)
    else
      let l := Nat.log2 n
      let k : Int := l + e + 127 + (if rnd = .ru ∧ n ≠ 2 ^ l then 1 else 0)
      if k < 0 then (0, some .overflow) else if 254 < k then (254, some .overflow) else (k.toNat, none)
  | _ => (255, some .cvtSpecial)

/-- A value into a floating format (R237, R240): widening conversions are exact; narrowing ones into FP16 and BF16 flush. -/
def toFloat (dst : Fmt) (widening : Bool) (rnd : Rnd) (sat : Bool) (draw : Nat) (x : Num) : Nat × Option Arith :=
  let f := fltOf dst
  match x with
  | .fin .. =>
    let r := roundNum f rnd sat draw x
    (if !widening ∧ (dst = .fp16 ∨ dst = .bf16) then f.flush r.1 else r.1, if r.2 then some .overflow else none)
  | .nan => (f.nanCode, if f.sp = .ieee then none else some .cvtSpecial)
  | .inf neg => (infResult f neg (sat && !widening), if f.sp = .ieee then none else some .cvtSpecial)

/-- The conversion of one element (R263): the destination code at its own width, and its event. -/
def convert (src dst : Fmt) (rnd : Rnd) (sat : Bool) (draw : Nat) (c : Nat) : Nat × Option Arith :=
  let x := srcValue src (c % 2 ^ src.bits)
  if dst.isInt then
    let r := toInt rnd draw dst.bits x
    ((BitVec.ofInt dst.bits r.1).toNat, r.2)
  else if dst = .e8m0 then toE8m0 rnd x
  else toFloat dst (src.widens dst) rnd sat draw x

/-- How a destination code stands in its register (R263): INT8 and INT4 sign-extended to 32 bits, others zero-extended. -/
def regForm (dst : Fmt) (c : Nat) : W64 :=
  match dst with
  | .int8 => ((BitVec.ofNat 8 c).signExtend 32).setWidth 64
  | .int4 => ((BitVec.ofNat 4 c).signExtend 32).setWidth 64
  | _ => BitVec.ofNat 64 c

/-- The element width of `FCVTP`'s destinations, and the two converted elements placed in C (R264). -/
def placePair (dst : Fmt) (slot : Nat) (u : W32) (a b : Nat) : W32 :=
  let n := dst.bits
  let lo := 2 * slot * n
  let mask : W32 := BitVec.ofNat 32 ((2 ^ (2 * n) - 1) * 2 ^ lo)
  (u &&& ~~~mask) ||| BitVec.ofNat 32 ((a + b * 2 ^ n) * 2 ^ lo)

/-! ## Packed 16-bit operations (R255 to R258) -/

/-- The format of a packed operation. -/
def halfFmt (bf : Bool) : FloatFmt := if bf then bf16 else fp16

/-- An element operation of group 0x6: flushed operands, flushed result, clamp. -/
def halfOp (bf sat : Bool) (op : FloatFmt → Nat × Option Arith) : Nat × Option Arith :=
  let f := halfFmt bf
  let r := op f
  (clamp01 f sat (f.flush r.1), r.2)

/-- Both elements of a packed operation: the word and the events of its halves. -/
def packed (op : (lo : Nat → Nat) → Nat × Option Arith) : W32 × List Arith :=
  let a := op (fun w => w % 65536)
  let b := op (fun w => w / 65536)
  (BitVec.ofNat 32 (a.1 + b.1 * 65536), a.2.toList ++ b.2.toList)

def hAdd2 (bf : Bool) (rnd : Rnd) (sat : Bool) (a b : W32) : W32 × List Arith :=
  packed fun h => halfOp bf sat fun f => fAdd f rnd (f.flush (h a.toNat)) (f.flush (h b.toNat))
def hMul2 (bf : Bool) (rnd : Rnd) (sat : Bool) (a b : W32) : W32 × List Arith :=
  packed fun h => halfOp bf sat fun f => fMul f rnd (f.flush (h a.toNat)) (f.flush (h b.toNat))
def hFma2 (bf : Bool) (rnd : Rnd) (sat : Bool) (a b c : W32) : W32 × List Arith :=
  packed fun h => halfOp bf sat fun f =>
    fFma f rnd (f.flush (h a.toNat)) (f.flush (h b.toNat)) (f.flush (h c.toNat))
def hMinMax2 (bf max nan : Bool) (a b : W32) : W32 :=
  let f := halfFmt bf
  (packed fun h => (fMinMax f max nan (f.flush (h a.toNat)) (f.flush (h b.toNat)), none)).1
def hSet2 (bf : Bool) (cmp : FCmp) (a b : W32) : W32 :=
  let f := halfFmt bf
  (packed fun h => (if fCompare f cmp (f.flush (h a.toNat)) (f.flush (h b.toNat)) then 0xFFFF else 0, none)).1

end Sys2Proof.Machine
end

