-- ==== Sys2Proof/Machine/AtomOps.lean ====
section
/-! DEFINITION. Numbers as bytes (R7), and what an atomic makes of the bytes it finds (R170). -/

namespace Sys2Proof.Machine

open Sys2Proof

/-- A little-endian number (R7). -/
def ofBytes : List Byte → Nat
  | [] => 0
  | b :: bs => b.toNat + 256 * ofBytes bs

/-- The n bytes of a little-endian number (R7). -/
def toBytes : (n : Nat) → (v : Nat) → List Byte
  | 0, _ => []
  | n + 1, v => BitVec.ofNat 8 v :: toBytes n (v / 256)

/-- The pair with the greater high word; of two that are level, the one with the lesser low word (R121, R170). -/
def maxIdx (x y : W64) : W64 :=
  if hi32 x == hi32 y then (if (lo32 y).ult (lo32 x) then y else x) else (if (hi32 x).ult (hi32 y) then y else x)

/-- The new value of an atomic at 32 bits (R170). -/
def atomNew32 (op : AtomOp) (x v : W32) : W32 :=
  match op with
  | .add => x + v
  | .fadd => BitVec.ofNat 32 (fAdd fp32 .rne x.toNat v.toNat).1
  | .mins => if v.slt x then v else x
  | .minb => if v.ult x then v else x
  | .maxs => if x.slt v then v else x
  | .maxb => if x.ult v then v else x
  | .and => x &&& v
  | .or => x ||| v
  | .xor => x ^^^ v
  | .exch | .maxidx => v
  | .inc => if x.ult v then x + 1 else 0
  | .dec => if x = 0 ∨ v.ult x then v else x - 1

/-- The new value of an atomic at 64 bits (R170). -/
def atomNew64 (op : AtomOp) (x v : W64) : W64 :=
  match op with
  | .add => x + v
  | .mins => if v.slt x then v else x
  | .minb => if v.ult x then v else x
  | .maxs => if x.slt v then v else x
  | .maxb => if x.ult v then v else x
  | .and => x &&& v
  | .or => x ||| v
  | .xor => x ^^^ v
  | .fadd | .exch => v
  | .maxidx => maxIdx x v
  | .inc => if x.ult v then x + 1 else 0
  | .dec => if x = 0 ∨ v.ult x then v else x - 1

/-- The new bytes of an atomic. -/
def atomBytes (op : AtomOp) (wide : Bool) (v : W64) (old : List Byte) : List Byte :=
  if wide then toBytes 8 (atomNew64 op (BitVec.ofNat 64 (ofBytes old)) v).toNat
  else toBytes 4 (atomNew32 op (BitVec.ofNat 32 (ofBytes old)) (lo32 v)).toNat

/-- The new bytes of a compare and swap. -/
def casBytes (wide : Bool) (cmp swap : W64) (old : List Byte) : List Byte :=
  let n := if wide then 8 else 4
  if ofBytes old = cmp.toNat % 2 ^ (8 * n) then toBytes n swap.toNat else old

/-- The bytes that an atomic leaves where it finds others (R170). -/
def FarAtom.new (a : FarAtom) (old : List Byte) : List Byte :=
  match a.op with
  | some op => atomBytes op a.wide a.v old
  | none => casBytes a.wide a.cmp a.v old

/-- The width of an atomic in bytes. -/
def FarAtom.bytes (a : FarAtom) : Nat := if a.wide then 8 else 4

end Sys2Proof.Machine
end

