-- ==== Sys2Proof/Machine/Ops.lean ====
section
/-! DEFINITION. The named operations over the machine's tables, memory cells, units, tokens and barriers, and taking an exception:
a fault record is made and its unit held (R396 to R403), and the return from one beside it (R406). -/

namespace Sys2Proof.Machine

open Sys2Proof

/-! ## Tables -/

/-- The entry of a table under a key. -/
def tget {α : Type} (t : Tab α) (k : Nat) : Option α :=
  match t with
  | [] => none
  | (j, v) :: r => if j = k then some v else tget r k

/-- A table with an entry put under a key. -/
def tset {α : Type} (t : Tab α) (k : Nat) (v : α) : Tab α :=
  match t with
  | [] => [(k, v)]
  | (j, w) :: r => if j = k then (k, v) :: r else if k < j then (k, v) :: (j, w) :: r else (j, w) :: tset r k v

/-- A table without the entry under a key. -/
def tdel {α : Type} (t : Tab α) (k : Nat) : Tab α :=
  match t with
  | [] => []
  | (j, w) :: r => if j = k then tdel r k else (j, w) :: tdel r k

/-- A table with one entry changed. -/
def tmod {α : Type} (t : Tab α) (k : Nat) (f : α → α) : Tab α :=
  match tget t k with
  | some v => tset t k (f v)
  | none => t

/-- An element put before the first of a list that it may precede. -/
def insertBy {α : Type} (le : α → α → Bool) (x : α) : List α → List α
  | [] => [x]
  | y :: r => if le x y then x :: y :: r else y :: insertBy le x r

/-- A list in order; elements that are level keep their order. -/
def sortBy {α : Type} (le : α → α → Bool) (l : List α) : List α := l.foldr (insertBy le) []

/-- A list with the element at a place changed. -/
def lset {α : Type} : List α → Nat → α → List α
  | [], _, _ => []
  | _ :: r, 0, v => v :: r
  | x :: r, n + 1, v => x :: lset r n v

/-! ## Changing one entry of a table of the state -/

def modCrew (s : State) (uid : Nat) (f : Crew → Crew) : State := { s with crews := tmod s.crews uid f }
def modTeam (s : State) (t : Nat) (f : Team → Team) : State := { s with teams := tmod s.teams t f }
def modAccess (s : State) (t : Nat) (f : Access → Access) : State :=
  modTeam s t fun tm => { tm with access := tm.access.map f }
def modGrid (s : State) (g : Nat) (f : Grid → Grid) : State := { s with grids := tmod s.grids g f }
def modCtx (s : State) (c : Nat) (f : Ctx → Ctx) : State := { s with ctxs := tmod s.ctxs c f }
def modDomain (s : State) (d : Nat) (f : Domain → Domain) : State := { s with domains := tmod s.domains d f }
def modCmd (s : State) (c : Nat) (f : Cmd → Cmd) : State := { s with cmds := tmod s.cmds c f }
def modQueue (s : State) (q : Nat) (f : LaunchQueue → LaunchQueue) : State := { s with queues := tmod s.queues q f }

/-! ## Memory cells

A store of bytes is a list of (address, byte) with rising addresses and no zero byte: an address that is not listed reads as
zero (log 1). -/

/-- The byte at an address. -/
def cellGet (m : List Host.Cell) (a : Nat) : Byte :=
  match m with
  | [] => 0
  | (x, b) :: r => if x = a then b else cellGet r a

/-- The cells with a byte written. -/
def cellSet (m : List Host.Cell) (a : Nat) (v : Byte) : List Host.Cell :=
  match m with
  | [] => if v = 0 then [] else [(a, v)]
  | (x, b) :: r =>
    if x = a then (if v = 0 then r else (a, v) :: r)
    else if a < x then (if v = 0 then (x, b) :: r else (a, v) :: (x, b) :: r)
    else (x, b) :: cellSet r a v

/-- The canonical form of a list of cells, above a bound: addresses rise and no byte is zero. -/
def cellsFrom (lo : Nat) : List Host.Cell → Bool
  | [] => true
  | (a, b) :: r => decide (lo ≤ a) && b != 0 && cellsFrom (a + 1) r

/-- The canonical form of memory. -/
def Memory.wf (m : List Host.Cell) : Bool := cellsFrom 0 m

/-- The bytes at an address upward. -/
def cellsRead (m : List Host.Cell) (a n : Nat) : List Byte := (List.range n).map fun i => cellGet m (a + i)

/-- The cells with bytes written from an address upward. -/
def cellsWrite (m : List Host.Cell) (a : Nat) : List Byte → List Host.Cell
  | [] => m
  | b :: bs => cellsWrite (cellSet m a b) (a + 1) bs

/-! ## Lane masks -/

/-- The lanes of a mask, ascending. -/
def lanesOf (m : Mask) : List Nat := (List.range 64).filter fun i => m.getLsbD i

/-- The mask of a list of lanes. -/
def maskOf (ls : List Nat) : Mask := ls.foldl (fun m i => m ||| (1#64 <<< i)) 0

/-- The lowest lane of a mask; 64 for none. -/
def lowLane (m : Mask) : Nat := ((List.range 64).find? fun i => m.getLsbD i).getD 64

/-! ## Causes (R244, R397) -/

/-- CAUSE codes of R397. -/
def Cause.code : Cause → Nat
  | .illegalPad => 1 | .illegalOp => 2 | .illegalField => 3 | .illegalReg => 4 | .copyRights => 5 | .pcAlign => 6
  | .stallShort => 7 | .illegalWidth => 8 | .addrNoncanon => 9 | .addrReserved => 10 | .clusterWindow => 11
  | .scratchBounds => 12 | .misaligned => 13 | .windowAtomic => 14 | .xlateInvalid => 15 | .xlateFormat => 16
  | .xlatePerm => 17 | .poison => 18 | .sysregDenied => 19 | .codeRetired => 20 | .descTorn => 21 | .cmdRange => 22
  | .remoteTeam => 23 | .copyQuota => 24 | .frameFormat => 25 | .fredMismatch => 26 | .convDesc => 27 | .mmaType => 28
  | .sparseMeta => 29 | .segInvalid => 30 | .graphInvalid => 31 | .graphTooLarge => 32 | .streamFull => 33
  | .streamDir => 34 | .spawnTarget => 35 | .launchInvalid => 36 | .txIrrevocable => 37 | .debugDenied => 38
  | .writeDropped => 39 | .trap => 40 | .bkpt => 41 | .waitCycle => 42 | .arithTrap => 43 | .handlerFault => 44

/-- Cause codes of R244. -/
def Arith.code : Arith → Nat
  | .divz => 1 | .divovf => 2 | .invalid => 3 | .fdivz => 4 | .overflow => 5 | .cvtSpecial => 6 | .quantSpecial => 7
  | .accSat => 8 | .fredClamp => 9

/-! ## Numbers the model hands out -/

/-- The next number for a thing the model makes, and the state that has handed it out. -/
def takeUid (s : State) : Nat × State := (s.nums.uid, { s with nums := { s.nums with uid := s.nums.uid + 1 } })

/-- A free value (log 2). -/
def takeFree (s : State) : W64 × State :=
  (Config.freeWord (2 * s.nums.fresh + 1), { s with nums := { s.nums with fresh := s.nums.fresh + 1 } })

/-- n free bytes (log 2). -/
def takeFreeBytes (s : State) (n : Nat) : List Byte × State :=
  let k := (n + 7) / 8
  ((((List.range k).map fun i => toBytes 8 (Config.freeWord (2 * (s.nums.fresh + i) + 1)).toNat).flatten).take n,
   { s with nums := { s.nums with fresh := s.nums.fresh + k } })

/-! ## Units -/

/-- What issues: a crew or an access thread. -/
inductive Body where
  | crew (c : Crew)
  | ap (a : Access)
  deriving DecidableEq, Repr

/-- The issuing unit's registers and groups. -/
def bodyOf (s : State) : UnitRef → Option Body
  | .crew uid _ => match tget s.crews uid with | some c => some (.crew c) | none => none
  | .access t => match tget s.teams t with
    | some tm => (match tm.access with | some a => some (.ap a) | none => none)
    | none => none

/-- The state with a unit's registers and groups put back. -/
def putBody (s : State) (u : UnitRef) (b : Body) : State :=
  match u, b with
  | .crew uid _, .crew c => { s with crews := tset s.crews uid c }
  | .access t, .ap a => { s with teams := tmod s.teams t fun tm => { tm with access := some a } }
  | _, _ => s

/-- The issue group of a unit: for a crew, the group whose lowest lane is named. -/
def groupOf (b : Body) (u : UnitRef) : Option Group :=
  match b, u with
  | .crew c, .crew _ lane => c.groups.find? fun g => lowLane g.mask == lane
  | .ap a, .access _ => some a.grp
  | _, _ => none

/-- The unit with its issue group replaced by others (none where its lanes have left). -/
def setGroups (b : Body) (u : UnitRef) (gs : List Group) : Body :=
  match b, u with
  | .crew c, .crew _ lane =>
    .crew { c with groups := gs.filter (fun g => g.mask != 0) ++ c.groups.filter (fun g => lowLane g.mask != lane) }
  | .ap a, _ => match gs with
    | g :: _ => .ap { a with grp := g }
    | [] => .ap a
  | b, _ => b

def Body.isAp : Body → Bool
  | .ap _ => true
  | .crew _ => false
def Body.toks : Body → List Token
  | .crew c => c.toks
  | .ap a => a.toks
def Body.setToks (b : Body) (t : List Token) : Body :=
  match b with
  | .crew c => .crew { c with toks := t }
  | .ap a => .ap { a with toks := t }
def Body.results : Body → List Result
  | .crew c => c.results
  | .ap a => a.results
def Body.setResults (b : Body) (r : List Result) : Body :=
  match b with
  | .crew c => .crew { c with results := r }
  | .ap a => .ap { a with results := r }
def Body.held : Body → Option Nat
  | .crew c => c.held
  | .ap a => a.held
/-- A unit held by a fault, or no longer: the groups of a held crew are out of play. -/
def Body.setHeld (b : Body) (h : Option Nat) : Body :=
  match b with
  | .crew c => .crew { c with held := h, groups := if h.isSome then c.groups.map fun g => { g with inPlay := false } else c.groups }
  | .ap a => .ap { a with held := h }

/-- The team of a unit; none for spawned threads (R348). -/
def teamOf (s : State) : UnitRef → Option Nat
  | .crew uid _ => match tget s.crews uid with
    | some c => (match c.owner with | .team t => some t | .pool _ => none)
    | none => none
  | .access t => some t

/-- The context, grid and core of a unit. -/
def ctxOf (s : State) : UnitRef → Nat
  | .crew uid _ => match tget s.crews uid with | some c => c.ctx | none => 0
  | .access t => match tget s.teams t with | some tm => tm.ctx | none => 0
def gridOf (s : State) : UnitRef → Nat
  | .crew uid _ => match tget s.crews uid with | some c => c.grid | none => 0
  | .access t => match tget s.teams t with | some tm => tm.grid | none => 0
def coreOf (s : State) : UnitRef → Nat
  | .crew uid _ => match tget s.crews uid with | some c => c.core | none => 0
  | .access t => match tget s.teams t with | some tm => tm.core | none => 0

/-- The device-wide number of a crew's quarter. -/
def Crew.quarterId (c : Crew) : Nat := 4 * c.core + c.quarter

/-- A core, cluster, die, quarter or line of the state, with the value it has before anything happened to it. -/
def Core.fresh : Core :=
  { l1 := [], uses := [], icache := [], deque := [], aebuf := [], forward := [], gated := false, idleFrom := 0, clockOff := 0,
    vacated := none }
def coreAt (s : State) (n : Nat) : Core := (tget s.cores n).getD Core.fresh
def setCore (s : State) (n : Nat) (c : Core) : State := { s with cores := tset s.cores n c }
def clusterAt (s : State) (n : Nat) : Cluster := (tget s.clusters n).getD { cache := [], uses := [], icache := [] }
def setCluster (s : State) (n : Nat) (c : Cluster) : State := { s with clusters := tset s.clusters n c }
def dieAt (s : State) (n : Nat) : Die := (tget s.dies n).getD { power := .a0, divert := [], moved := [] }
def setDie (s : State) (n : Nat) (d : Die) : State := { s with dies := tset s.dies n d }
/-- An accumulator with VALID, DIRTY and INFLIGHT clear (R37). -/
def Acc.fresh : Acc := { valid := false, dirty := false, inflight := false, int := false, elems := List.replicate 256 0 }
def Quarter.fresh : Quarter :=
  { accs := List.replicate 8 Acc.fresh, holder := none, run := none, bins := List.replicate 16 none, last := 0 }
def quarterAt (s : State) (n : Nat) : Quarter := (tget s.quarters n).getD Quarter.fresh
def setQuarter (s : State) (n : Nat) (q : Quarter) : State := { s with quarters := tset s.quarters n q }
/-- The die whose HBM holds a physical address (R291). -/
def homeDie (pa : Nat) : Nat := pa / 0x3000000000

/-- A line of die 0 not yet in any L2: version 0, no read count (R143, R145). -/
def Line.fresh : Line :=
  { version := 0, rc := none, slices := [], tokens := [0, 0, 0, 0], recent := none, holder := none, failed := [], treat := .normal }
/-- A line not yet in any L2, with all tokens at its HBM's die. -/
def Line.freshAt (n : Nat) : Line := let d := homeDie (128 * n); { Line.fresh with tokens := [d, d, d, d] }
def lineAt (s : State) (n : Nat) : Line := (tget s.lines n).getD (Line.freshAt n)
def setLine (s : State) (n : Nat) (l : Line) : State := { s with lines := tset s.lines n l }

/-- The power state of a die that runs: A1 while the management controller holds every die there (R392). -/
def awake (s : State) : DiePower := if s.thermal.capped then .a1 else .a0

/-- A core on which work is placed leaves C1, and its die C2 (R391). -/
def wakeCore (s : State) (core : Nat) : State :=
  let c := coreAt s core
  let s1 := if c.gated then
      setCore s core { c with gated := false, clockOff := c.clockOff + (s.clock - c.idleFrom), idleFrom := s.clock } else s
  let d := dieAt s1 (core / 32)
  if d.power = .c2 then setDie s1 (core / 32) { d with power := awake s1 } else s1

/-- `%clock` as a core counts it: the cycles in which it was gated are missing (R391). -/
def coreClock (s : State) (core : Nat) : Nat := s.clock - (coreAt s core).clockOff

/-- A core that has just lost work: its idle time counts from now (R391). -/
def idleNow (s : State) (core : Nat) : State := setCore s core { coreAt s core with idleFrom := s.clock }

/-- The control registers of a context (R46). -/
def ctlOf (s : State) (ctx : Nat) : CtlRegs := match tget s.ctxs ctx with | some c => c.regs | none => CtlRegs.reset

/-- The effective values that a grid's launch bound (R32). -/
def zoneOf (s : State) (grid : Nat) : Option Zone := match tget s.grids grid with | some g => g.zones.head? | none => none

/-! ## Allocation sizes (R21, R49, R79) -/

/-- Threads in a team of a grid. -/
def Kernel.logBytes (k : Kernel) (threads : Nat) : Nat := threads * (k.logsR + k.logsW) * 16
/-- The declared crew width, or 32 (R19). -/
def Kernel.w (k : Kernel) : Nat := if k.width = 0 then 32 else k.width

/-! ## Completion tokens (R185, R186) -/

/-- A token with no batches (R37). -/
def Token.fresh : Token := { openId := 0, openAll := 0, openLeft := 0, closed := [], err := false }

/-- Whether closing must wait: a nonempty open batch beside 15 outstanding closed ones (R186). -/
def Token.full (t : Token) : Bool := t.openAll != 0 && decide (15 ≤ t.closed.length)

/-- The open batch closed; an empty one is left open, a complete one leaves nothing outstanding (R186). -/
def Token.close (t : Token) : Token :=
  if t.openAll = 0 then t
  else { t with openId := t.openId + 1, openAll := 0, openLeft := 0,
                closed := if t.openLeft = 0 then t.closed else t.closed ++ [(t.openId, t.openLeft)] }

/-- One more operation in the open batch; a batch of 4,095 is closed first (R185). -/
def Token.assign (t : Token) : Token :=
  let t := if 4095 ≤ t.openAll then t.close else t
  { t with openAll := t.openAll + 1, openLeft := t.openLeft + 1 }

/-- Whether assigning one more operation must wait (R185). -/
def Token.assignFull (t : Token) : Bool := decide (4095 ≤ t.openAll) && t.full

/-- An operation of a batch is complete, in error or not (R182, R185). -/
def Token.complete (t : Token) (batch : Nat) (err : Bool) : Token :=
  let t := if err then { t with err := true } else t
  if batch = t.openId then { t with openLeft := t.openLeft - 1 }
  else { t with closed := (t.closed.map fun b => if b.1 = batch then (b.1, b.2 - 1) else b).filter fun b => b.2 != 0 }

/-- A unit's tokens with those of a mask closed. -/
def closeMask (ts : List Token) (m : BitVec 8) : List Token :=
  ts.mapIdx fun i t => if m.getLsbD i then t.close else t

/-- Whether any token of a mask has a batch outstanding. -/
def anyOutstanding (ts : List Token) (m : BitVec 8) : Bool :=
  (ts.mapIdx fun i t => m.getLsbD i && !t.closed.isEmpty).any id

/-- The tokens of a mask that cannot be closed yet. -/
def fullOf (ts : List Token) (m : BitVec 8) : BitVec 8 :=
  (List.range 8).foldl (fun v i => if m.getLsbD i ∧ (ts.getD i Token.fresh).full then v ||| (1#8 <<< i) else v) 0

/-- Whether any token of a mask cannot be closed yet. -/
def anyFull (ts : List Token) (m : BitVec 8) : Bool := (ts.mapIdx fun i t => m.getLsbD i && t.full).any id

/-! ## Barrier objects (R188, R189) -/

/-- The fields of a barrier object. -/
structure Bar where
  expected : Nat
  remain   : Nat
  balance  : Int
  reserved : Nat
  error    : Bool
  phase    : Bool
  deriving DecidableEq, Repr

/-- A barrier object's 16 bytes as fields (R188). -/
def Bar.ofNat (v : Nat) : Bar :=
  { expected := v / 2 ^ 112 % 2 ^ 16, remain := v / 2 ^ 96 % 2 ^ 16,
    balance := (BitVec.ofNat 48 (v / 2 ^ 48)).toInt, reserved := v / 4 % 2 ^ 46,
    error := v / 2 % 2 == 1, phase := v % 2 == 1 }

/-- Fields as a barrier object's 16 bytes. -/
def Bar.toNat (b : Bar) : Nat :=
  b.expected * 2 ^ 112 + b.remain * 2 ^ 96 + (BitVec.ofInt 48 b.balance).toNat * 2 ^ 48 + b.reserved * 4
    + (if b.error then 2 else 0) + (if b.phase then 1 else 0)

/-- `bar_update` of R189. -/
def Bar.update (b : Bar) (arr : Nat) (bytes : Int) (err : Bool) : Bar :=
  let b := if err then { b with error := true } else b
  let tooMany := decide (b.remain < arr)
  let arr := if tooMany then b.remain else arr
  let nb := b.balance + bytes
  let out := decide (nb < -(2 ^ 47 : Int)) || decide ((2 ^ 47 : Int) - 1 < nb)
  let nb := if out then 0 else nb
  let b := { b with error := b.error || tooMany || out, remain := b.remain - arr, balance := nb }
  if b.remain = 0 ∧ b.balance = 0 then { b with phase := !b.phase, remain := b.expected } else b

/-- The barrier at an offset of a scratchpad. -/
def barAt (cells : List Host.Cell) (off : Nat) : Bar := Bar.ofNat (ofBytes (cellsRead cells off 16))
/-- A scratchpad with the barrier at an offset put back. -/
def putBar (cells : List Host.Cell) (off : Nat) (b : Bar) : List Host.Cell := cellsWrite cells off (toBytes 16 b.toNat)

/-! ## Requests that reach a team (R182, R416 to R420) -/

/-- Tokens with one operation of one token complete. -/
def completeIn (ts : List Token) (tok batch : Nat) (err : Bool) : List Token :=
  ts.mapIdx fun i t => if i = tok then t.complete batch err else t

/-- The state with one of a team's tokens, of its crew or of its access thread, told of a completed operation. -/
def completeTokenOf (s : State) (team : Option Nat) (crew : Option Nat) (tok batch : Nat) (err : Bool) : State :=
  match crew, team with
  | some uid, _ => modCrew s uid fun c => { c with toks := completeIn c.toks tok batch err }
  | none, some t => modAccess s t fun a => { a with toks := completeIn a.toks tok batch err }
  | none, none => s

/-- The 16-byte units that bytes from an offset touch. -/
def unitsFrom (off n : Nat) : List Nat := ((List.range n).map fun i => (off + i) / 16).eraseDups

/-- Poisoned units after a write: poisoned data marks every unit it touches; other data clears the units that it covers whole (R184, R436). -/
def poisonAfter (p : List Nat) (off n : Nat) (poisoned : Bool) : List Nat :=
  let us := unitsFrom off n
  if poisoned then us ++ p.filter fun u => !us.contains u
  else p.filter fun u => !(us.contains u && decide (off ≤ 16 * u) && decide (16 * u + 16 ≤ off + n))

/-- Poisoned units after a write: those with a poisoned byte are marked, and those that it covers whole with no such byte are clean (R184, R436). -/
def poisonBy (p : List Nat) (off n : Nat) (bad : List Bool) : List Nat :=
  let hit := (((List.range n).filter fun i => bad.getD i false).map fun i => (off + i) / 16).eraseDups
  let whole : Nat → Bool := fun u => decide (off ≤ 16 * u) && decide (16 * u + 16 ≤ off + n)
  hit ++ p.filter fun u => !hit.contains u && !whole u

/-- A piece of an access that has its answer from the team that it was sent to: the old bytes, or that they were poisoned, and nothing done
(R172, R417). -/
def answerPiece (s : State) (tag i : Nat) (old : List Byte) (bad : Bool) : State :=
  { s with pend := s.pend.map fun p =>
    if p.tag = tag then { p with pieces := p.pieces.mapIdx fun j q => if j = i then { q with bytes := old, done := true, bad } else q } else p }

/-- A request performed at a team's own scratchpad or tokens. -/
def applyReq (s : State) (t : Nat) : TeamReq → State
  | .write off bytes bad => modTeam s t fun tm =>
    { tm with scratch := cellsWrite tm.scratch off bytes, poison := poisonBy tm.poison off bytes.length bad }
  | .atom off a tag i =>
    (match tget s.teams t with
    | none => s
    | some tm =>
      let old := cellsRead tm.scratch off a.bytes
      let bad := (unitsFrom off a.bytes).any tm.poison.contains
      let s1 := if bad then s else modTeam s t fun tm => { tm with scratch := cellsWrite tm.scratch off (a.new old) }
      answerPiece s1 tag i old bad)
  | .bar off bytes err => modTeam s t fun tm =>
    { tm with scratch := putBar tm.scratch off ((barAt tm.scratch off).update 0 bytes err) }
  | .token crew tok batch err => completeTokenOf s (some t) crew tok batch err

/-- The core at whose forwarding entry requests for a team are in transit. -/
def transitAt (s : State) (t : Nat) : Option Nat :=
  (s.cores.find? fun e => e.2.forward.any fun f => f.team == t && !f.queue.isEmpty).map (·.1)

/-- A request put behind those in transit at a core's forwarding entry for a team. -/
def queueForward (s : State) (core t : Nat) (r : Sent) : State :=
  let c := coreAt s core
  setCore s core { c with forward := c.forward.map fun f => if f.team = t then { f with queue := f.queue ++ [r] } else f }

/-- A request on its way to a team: behind others in transit; performed at once while the team is on its core; else
in transit at the core it leaves, at the diversion entry of an absent team, whose former core it wakes (R391), or at the ingress of a team on
its way back (R417 to R421). -/
def deliver (s : State) (t : Nat) (r : Sent) : State :=
  match tget s.teams t with
  | none => s
  | some tm =>
    match transitAt s t with
    | some c => queueForward s c t r
    | none => match tm.place with
      | .resident => applyReq s t r.req
      | .stopping _ => queueForward s tm.core t r
      | .absent die entry =>
        let s := wakeCore s tm.core
        let d := dieAt s die
        setDie s die { d with divert := tmod d.divert entry (fun e => { e with queue := e.queue ++ [r] }) }
      | .returning _ _ _ _ => modTeam s t fun tm => { tm with ingress := tm.ingress ++ [r] }

/-- Whether requests for a team are on their way to it or wait for it, so that another unit's access to its scratchpad must come after them
(R51, R416 to R420). -/
def padBusy (s : State) (t : Nat) : Bool :=
  match tget s.teams t with
  | none => false
  | some tm => (transitAt s t).isSome || (match tm.place with
    | .resident => false
    | .stopping _ | .returning _ _ _ _ => true
    | .absent die entry => match tget (dieAt s die).divert entry with
      | some e => !e.queue.isEmpty
      | none => false)

/-- The number that tells a thread's accesses from those of others, whichever crew it is in (R132). -/
def Crew.writer (c : Crew) (l : Nat) : Nat :=
  match c.owner, c.lanes.getD l none with
  | .team t, some th => t * 4096 + 2 * th.tid
  | .pool _, some th => 2 ^ 40 + th.num
  | _, none => 0

/-- The numbers of a unit's threads. -/
def writersOf (s : State) : UnitRef → List Nat
  | .access t => [t * 4096 + 1]
  | .crew uid lane => match tget s.crews uid with
    | some c => (match c.groups.find? (fun g => lowLane g.mask == lane) with
      | some g => (lanesOf g.mask).map c.writer
      | none => [])
    | none => []

/-- Whether two lists of threads have one in common. -/
def meetIn (ws vs : List Nat) : Bool := ws.any vs.contains

/-- The team for which requests of some sender still wait, where one does (R417 to R420). -/
def queuedFrom (s : State) (mine : Sent → Bool) : Option Nat :=
  let mineIn : List Sent → Bool := fun q => q.any mine
  match s.cores.findSome? (fun e => (e.2.forward.find? fun f => mineIn f.queue).map (·.team)) with
  | some t => some t
  | none => match s.dies.findSome? (fun e => (e.2.divert.find? fun d => mineIn d.2.queue).map (·.2.team)) with
    | some t => some t
    | none => (s.teams.find? fun e => mineIn e.2.ingress).map (·.1)

/-- The core of an issuer: its team's where that has moved since. -/
def Issuer.coreNow (s : State) (by_ : Issuer) : Nat :=
  match by_.team.bind (tget s.teams) with | some tm => tm.core | none => by_.core

/-- Completion of a token operation of an issuer (R182, R185). -/
def completeToken (s : State) (by_ : Issuer) (src : W64) (err : Bool) : State :=
  match by_.tok with
  | none => s
  | some (tok, batch) =>
    match by_.team with
    | some t => deliver s t { src, writers := [], req := .token by_.crew tok batch err }
    | none => completeTokenOf s none by_.crew tok batch err

/-! ## Waiting (R343, R356) -/

/-- Whether a wait keeps its group in play: it leaves play at the waits that R343 lists, `JOIN`, `BARWAIT`, `WAITB`, `OPOP`, an accumulator or the
sequencer, commit tokens, and the acceptance of a command, `SPAWN` or `LAUNCH`. -/
def Awaited.inPlay (obj : Awaited) (i : Option Instr) : Bool :=
  match obj with
  | .join _ | .barrier _ _ | .tokenLeft _ _ | .queueEmpty _ _ | .accumulator _ | .sequencer | .line _ | .serial => false
  | .place | .attestPlace | .queueFull _ | .pool _ | .deque | .launchQueue _ | .group _ => false
  | .tokenRoom _ => (match i with | some (.close _ _) => true | _ => false)
  | .tokens _ _ | .scoreboard | .spec _ | .backoff _ | .farAck | .windowQueue | .partner _ | .sent _ | .places | .unbind _ => true

/-- Whether a wait ends by selecting its group again, so that the selection that met it counts for no issue (R343). -/
def Awaited.selectsAgain : Awaited → Bool
  | .tokens _ _ | .scoreboard | .line _ | .serial | .backoff _ | .farAck | .windowQueue | .partner _ | .sent _ | .places => true
  | .accumulator _ | .sequencer => true
  | _ => false

/-- Whether a group that waits so was not ready when it was selected (R342). -/
def Awaited.unready : Awaited → Bool
  | .tokens _ _ | .scoreboard => true
  | _ => false

/-- The selector of a unit: its quarter, or, from 512 upward, the access processor of its core. -/
def selectorOf (s : State) (u : UnitRef) : Nat :=
  match u with
  | .crew uid _ => (match tget s.crews uid with | some c => c.quarterId | none => 0)
  | .access t => (match tget s.teams t with | some tm => 512 + tm.core | none => 0)

/-- The cycle that a selector spent on a group which turns out not to be ready, given back (R342, R344). -/
def giveCycle (s : State) (u : UnitRef) : State :=
  let q := selectorOf s u
  setQuarter s q { quarterAt s q with last := s.clock - 1 }

/-- A unit's group set waiting at an object, at the instruction it is to issue again when it can advance. A group that the scoreboard or its WAIT
field keeps back was not ready, and its selector selects again (R342). -/
def setWait (s : State) (u : UnitRef) (obj : Awaited) (i : Option Instr) : State :=
  match bodyOf s u with
  | none => s
  | some b =>
    match groupOf b u with
    | none => s
    | some g =>
      let mine := s.cur = some u
      let s1 := if mine ∧ obj.unready then giveCycle s u else s
      putBody { s1 with cur := if mine then none else s.cur } u
        (setGroups b u [{ g with
          wait := some { obj, instr := i, since := s.clock, probe := s.clock + 65536 }
          inPlay := g.inPlay && obj.inPlay i
          issued := if mine ∧ obj.selectsAgain then g.issued - 1 else g.issued }])

/-- The group of a unit changed. -/
def modGroup (s : State) (u : UnitRef) (f : Group → Group) : State :=
  match bodyOf s u with
  | none => s
  | some b => match groupOf b u with
    | none => s
    | some g => putBody s u (setGroups b u [f g])

/-- A selected unit that is not ready before a cycle: it issues nothing, and is not looked at again until then (R60, R342). -/
def holdBack (s : State) (u : UnitRef) (cycle : Nat) : State :=
  match bodyOf s u with
  | none => s
  | some b =>
    match groupOf b u with
    | none => s
    | some g =>
      putBody { giveCycle s u with cur := none } u
        (setGroups b u [{ g with notBefore := cycle, since := cycle, issued := g.issued - 1 }])

/-- A unit's group made ready again: it is newly ready, and not raised (R344). -/
def clearWait (s : State) (u : UnitRef) : State :=
  match bodyOf s u with
  | none => s
  | some b =>
    match groupOf b u with
    | none => s
    | some g => putBody s u (setGroups b u [{ g with wait := none, since := s.clock, parked := s.clock, raised := false }])

/-- Every issuing unit of the state. -/
def allUnits (s : State) : List UnitRef :=
  (s.crews.map fun e => e.2.groups.map fun g => UnitRef.crew e.1 (lowLane g.mask)).flatten
    ++ s.teams.filterMap fun e => e.2.access.map fun _ => UnitRef.access e.1

/-- The group of a unit, in the state. -/
def groupAt (s : State) (u : UnitRef) : Option Group :=
  match bodyOf s u with | some b => groupOf b u | none => none

/-- What a unit awaits. -/
def waitingAt (s : State) (u : UnitRef) : Option Waiting :=
  match groupAt s u with | some g => g.wait | none => none

/-! ## Unit identities (R357) -/

/-- A unit identity from its fields. -/
def identity (kind core quarter crew detail : Nat) : W64 :=
  BitVec.ofNat 64 (kind * 2 ^ 60 + core * 2 ^ 49 + quarter * 2 ^ 47 + crew * 2 ^ 37 + detail % 2 ^ 32)

/-- The identity of an issuing unit: the lane mask by `%lane` mod 32 of the pass of its lowest lane, or the access slot. -/
def unitIdentity (s : State) (u : UnitRef) : W64 :=
  match u with
  | .crew uid lane =>
    (match tget s.crews uid with
    | some c =>
      let m := match c.groups.find? (fun g => lowLane g.mask == lane) with | some g => g.mask.toNat | none => 0
      identity 0 c.core c.quarter c.num (if lane < 32 then m % 2 ^ 32 else m / 2 ^ 32)
    | none => 0)
  | .access t =>
    (match tget s.teams t with
    | some tm => identity 1 tm.core 0 0x3FF (match tm.access with | some a => a.slot | none => 0)
    | none => 0)

/-- `%team` of a unit, all ones for spawned threads (R44, R403). -/
def teamIndex (s : State) (t : Option Nat) : W64 :=
  match t with
  | some t => (match tget s.teams t with | some tm => BitVec.ofNat 64 tm.idx | none => BitVec.allOnes 64)
  | none => BitVec.allOnes 64

/-! ## Taking an exception (R396, R400, R403) -/

/-- A fault domain before its first record. -/
def Domain.fresh (ctx : Nat) (addr : Addr) : Domain :=
  { ctx, addr, qsize := 0, entry := 0, qctl := 0, qbase := 0, kernel := 0, segment := 0, seq := 0, pending := [],
    outst := [], handler := none }

/-- The number of the fault domain with this descriptor address in a context, made when it is first used (R402, R403). -/
def domainFor (s : State) (ctx : Nat) (addr : Addr) : Nat × State :=
  match s.domains.find? (fun e => e.2.ctx == ctx && e.2.addr == addr) with
  | some e => (e.1, s)
  | none =>
    let n := takeUid s
    (n.1, { n.2 with domains := tset n.2.domains n.1 (Domain.fresh ctx addr) })

/-- The fault domain to which a grid reports: the one its launch bound, or the one a handler grid serves (R402, R405). -/
def domainOfGrid (s : State) (grid : Nat) : Nat × State :=
  match tget s.grids grid with
  | none => domainFor s 0 0
  | some g => match g.handles with
    | some d => (d, s)
    | none => domainFor s g.ctx (match g.zones.head? with | some z => z.fdom | none => 0)

/-- A record put on its domain's list of records to be written, with its number in the domain (R403). -/
def addRecord (s : State) (dom : Nat) (r : FRec) : State :=
  modDomain s dom fun d =>
    { d with pending := d.pending ++ [{ r with seq := BitVec.ofNat 32 d.seq }], seq := d.seq + 1 }

/-- A record before its cause is filled in. -/
def FRec.blank : FRec :=
  { cause := .illegalOp, addr := 0, pc := 0, entry := 0, info := 0, team := 0, subject := 0, seq := 0, detail := 0,
    held := false, exact := false, absent := false, async := false, members := [], stamp := 0, who := .none,
    grid := none, uid := 0, resume := none }

/-- `%entry` of the held unit: of its lowest lane, or of the access thread. -/
def entryOf (b : Body) (u : UnitRef) : Addr :=
  match b, u with
  | .crew c, .crew _ lane => match c.lanes.getD lane none with | some t => t.entry | none => 0
  | .ap a, _ => a.entry
  | _, _ => 0

/-- What a fault says of itself: its cause, the address it names, the mask it puts in INFO, and DETAIL. -/
structure FaultInfo where
  cause  : Cause
  addr   : W64
  mask   : W64
  detail : W32
  exact  : Bool
  deriving DecidableEq, Repr

/-- The fault of a cause at an address, with the mask of the lanes that met it. -/
def FaultInfo.at (cause : Cause) (addr : W64) (mask : Mask) : FaultInfo :=
  { cause, addr, mask, detail := 0, exact := false }

/-- A saturating counter one higher. -/
def satInc (w : W32) : W32 := if w = 0xFFFFFFFF#32 then w else w + 1

/-- POISON faults and poisoned transforms counted (R438). -/
def countPoison (s : State) (c : Cause) : State :=
  if c = .poison then { s with counters := { s.counters with poisonUsed := satInc s.counters.poisonUsed } } else s

/-- Taking an exception: the unit is held, its record is made and waits to be written to its fault domain, and the unit
no longer issues (R396, R400, R403). The record's SUBJECT is the unit, PC its instruction. -/
def takeFault (s : State) (u : UnitRef) (pc : Addr) (f : FaultInfo) : State :=
  match bodyOf s u with
  | none => s
  | some b =>
    let d := domainOfGrid s (gridOf s u)
    let n := takeUid d.2
    let r : FRec := { FRec.blank with
      cause := f.cause, addr := f.addr, pc, entry := entryOf b u, info := if f.cause = .trap ∨ f.cause = .bkpt then 0 else f.mask,
      team := teamIndex s (teamOf s u), subject := unitIdentity s u, detail := f.detail, held := true, exact := f.exact,
      who := match u with | .crew uid lane => .crew uid lane | .access t => .access t,
      grid := some (gridOf s u), uid := n.1 }
    let s1 := countPoison (addRecord n.2 d.1 r) f.cause
    putBody { s1 with cur := if s1.cur = some u then none else s1.cur } u (b.setHeld (some n.1))

/-- A fault that stops no issuing unit: an engine, sequencer or launch fault, or a dropped write (R183, R288, R377). -/
def takeAsync (s : State) (grid : Nat) (r : FRec) : Nat × State :=
  let d := domainOfGrid s grid
  let n := takeUid d.2
  (n.1, countPoison (addRecord n.2 d.1 { r with async := true, grid := some grid, uid := n.1 }) r.cause)

/-! ## The return from an exception (R400, R406) -/

/-- Each lane of a faulting group resumes at its own address: one group per address (R15, R400). -/
def regroupAt (c : Crew) (g : Group) (pcOf : Nat → Addr) (clock : Nat) : List Group :=
  let ls := lanesOf g.mask
  (ls.map pcOf).eraseDups.map fun a =>
    { g with
      mask := maskOf ((ls.filter fun l => pcOf l == a).filter fun l => (c.lanes.getD l none).isSome)
      pc := a, wait := none, since := clock, waitDone := false, served := 0, op := none, packets := [], notBefore := clock
      inPlay := false, raised := false }

/-- A held crew with the named group's lanes resumed, each at its own address. -/
def resumeCrew (c : Crew) (lane : Nat) (dest : Option Addr) (clock : Nat) : Crew :=
  match c.groups.find? (fun g => lowLane g.mask == lane) with
  | none => { c with held := none }
  | some g =>
    let pcOf : Nat → Addr := fun l =>
      match dest, c.lanes.getD l none with
      | some a, _ => a
      | none, some t => t.entry
      | none, none => g.pc
    { c with
      held := none
      groups := ((regroupAt c g pcOf clock).filter (fun g => g.mask != 0)
        ++ c.groups.filter (fun g => lowLane g.mask != lane)).map fun g => { g with parked := clock } }

/-- A held access thread resumed. -/
def resumeAccess (a : Access) (dest : Option Addr) (clock : Nat) : Access :=
  let g := { a.grp with pc := dest.getD a.entry, wait := none, since := clock, waitDone := false, served := 0, op := none, packets := [],
                        notBefore := clock }
  { a with held := none, grp := g }

/-- The held unit resumes: at its region entry, or at one address for every lane (R400, R406). -/
def resumeUnit (s : State) (who : Held) (dest : Option Addr) : State :=
  match who with
  | .crew uid lane => modCrew s uid fun c => resumeCrew c lane dest s.clock
  | .access t => modAccess s t fun a => resumeAccess a dest s.clock
  | _ => s

end Sys2Proof.Machine
end

