-- ==== Sys2Proof/Machine/Mem.lean ====
section
/-! DEFINITION. Memory: address windows (R48 to R51), translation (R370 to R372), the scope caches and the L2 (R127 to R145), scratchpads
wherever they are held (R416), and the checks of instruction accesses (R161). -/

namespace Sys2Proof.Machine

open Sys2Proof

/-! ## Windows (R48) -/

/-- Where a generic address lies. -/
inductive Win where
  | noncanon | reserved | global | host
  | peer (p : Nat)
  | own (off : Nat)
  | slot (c off : Nat)
  deriving DecidableEq, Repr

/-- The window of an address (R48). -/
def winOf (va : Nat) : Win :=
  if 0x80000000000000 ≤ va then .noncanon
  else if va < 0x40000000000000 then .global
  else if va < 0x48000000000000 then .host
  else if va < 0x50000000000000 then .peer ((va - 0x48000000000000) / 0x1000000000000)
  else if va < 0x7FFF0000000000 then .reserved
  else if va < 0x7FFF0000100000 then .own (va - 0x7FFF0000000000)
  else if va < 0x7FFF0100000000 then .reserved
  else if va < 0x7FFF0100400000 then .slot ((va - 0x7FFF0100000000) / 0x100000) ((va - 0x7FFF0100000000) % 0x100000)
  else .reserved

/-- The team that shares cluster slot c with a team under co-placement, where that team has an allocation (R50). -/
def partnerOf (s : State) (t : Nat) (c : Nat) : Option Nat :=
  match tget s.teams t with
  | none => none
  | some tm =>
    match s.teams.find? (fun e => e.2.grid == tm.grid && e.2.idx == tm.idx / 4 * 4 + c) with
    | some e => some e.1
    | none => none

/-- Whether a team's launch asked for co-placement (R50). -/
def coplaced (s : State) (t : Option Nat) : Bool :=
  match t with
  | none => false
  | some t => match tget s.teams t with
    | none => false
    | some tm => (match tget s.grids tm.grid with | some g => g.packet.coplace | none => false)

/-- A team's allocation size (R49); 0 for a spawned thread (R348). -/
def allocOf (s : State) (t : Option Nat) : Nat :=
  match t with
  | none => 0
  | some t => match tget s.teams t with | some tm => tm.alloc | none => 0

/-! ## The L2 (R142 to R145) -/

/-- The counts that a read or write at the L2 leaves on a line: consecutive accesses of one cluster (R142). -/
def Line.seen (l : Line) (cluster : Option Nat) : Line :=
  match cluster with
  | none => { l with recent := none }
  | some c => { l with recent := match l.recent with
      | some (d, n) => if d = c then some (c, n + 1) else some (c, 1)
      | none => some (c, 1) }

/-- A line with a token at a die, so that the die can read its copy: a token other than the owner's comes from a die that keeps another
(R145). -/
def Line.share (l : Line) (die : Nat) : Line :=
  if l.tokens.contains die then l
  else
    let spare := (List.range l.tokens.length).reverse.find? fun i => i != 0 && decide (2 ≤ l.tokens.count (l.tokens.getD i 0))
    { l with tokens := lset l.tokens (spare.getD 3) die }

/-- The later of two versions, modulo 2^32 (R143). -/
def newer (a b : W32) : W32 := if (0#32).slt (b - a) then b else a

/-- The die whose L2 an access goes to: that of its cluster, or, for engines and the outside, that of the HBM that holds the line. -/
def l2Die (line : Nat) (cluster : Option Nat) : Nat := match cluster with | some c => c / 8 | none => homeDie (128 * line)

/-- The home slice of a line on a die (R142). -/
def homeSlice (die line : Nat) : Nat := Config.homeSlice die line % 48

/-- The slice of a die that holds a line: where it has migrated, else its home slice. -/
def sliceOf (die line : Nat) (l : Line) : Nat :=
  match l.slices.find? fun e => e.1 == die with | some e => e.2 | none => homeSlice die line

/-- Lines that a slice of an L2 holds (R127). -/
def sliceLines : Nat := 768 * 2 ^ 20 / 48 / 128

/-- The lines that a slice of a die holds; none are named where the die holds fewer than `least` lines in all. -/
def linesOfSlice (s : State) (die slice least : Nat) : List (Nat × Line) :=
  let here := s.lines.filter fun e => e.2.tokens.contains die
  if here.length < least then [] else here.filter fun e => sliceOf die e.1 e.2 == slice

/-- A slice with room for one more line: where it is full a line leaves it, one marked evict-first before a normal one and that before one marked
evict-last; none with a read count under way or held for a commit (R127, R144, R167). -/
def roomIn (s : State) (die slice : Nat) : State :=
  let here := linesOfSlice s die slice sliceLines
  if here.length < sliceLines then s
  else
    let may := here.filter fun e => e.2.rc.isNone && e.2.holder.isNone
    let pick : Treat → Option (Nat × Line) := fun t => may.find? fun e => e.2.treat == t
    match (pick .first <|> pick .normal <|> pick .last) with
    | none => s
    | some e => match e.2.tokens.find? (· != die) with
      | some d => setLine s e.1 { e.2 with tokens := e.2.tokens.map fun t => if t = die then d else t }
      | none => { s with lines := tdel s.lines e.1 }

/-- The L2 of a die with room for a line, in the slice that is to hold it there. -/
def l2Room (s : State) (die line : Nat) : State :=
  if (s.lines.filter fun e => e.2.tokens.contains die).length < sliceLines then s else roomIn s die (sliceOf die line (lineAt s line))

/-- A line whose four tokens a die holds: where that is not the die whose HBM holds it, its read count there is over (R144, R145). -/
def Line.ownedBy (l : Line) (line die : Nat) : Line :=
  { l with
    tokens := [die, die, die, die], failed := l.failed.filter (· != die)
    rc := if die = homeDie (128 * line) then l.rc else none }

/-- A read at the L2 of a die (R143 to R145). Where that L2 does not hold the line it is filled, and the die takes a token; the read count asked for
is honoured at the die whose HBM holds the line, and the fill is its first read. The count runs down with each read performed at that
L2: its own hits, and fills of other dies from it. A line in no L2 takes a new version. -/
def l2Touch (s : State) (pa : Nat) (cluster : Option Nat) (rc : Nat) : State :=
  let n := pa / 128
  let die := l2Die n cluster
  let home := homeDie pa
  let asked : Option Nat := if rc ≠ 0 ∧ die = home then some (rc - 1) else none
  match tget s.lines n with
  | none =>
    let s := l2Room (l2Room s home n) die n
    let v := s.topVer + 1
    let l := { (Line.freshAt n).share die with version := v, rc := asked }
    { setLine s n (l.seen cluster) with topVer := v }
  | some l =>
    let less := l.rc.map fun k => k - 1
    if l.tokens.contains die then setLine s n ({ l with rc := if die = home then less else l.rc }.seen cluster)
    else
      let s := l2Room s die n
      setLine s n ({ l.share die with rc := if die = home then asked else if l.tokens.contains home then less else l.rc }.seen cluster)

/-- A line dropped without write-back: from then on its bytes in device memory are free values (R144, log 2). -/
def dropLine (s : State) (line : Nat) : State :=
  let f := takeFreeBytes s 128
  { f.2 with lines := tdel f.2.lines line, mem := cellsWrite f.2.mem (128 * line) f.1 }

/-- A line whose read count has reached 0 dropped, before anything else reaches it (R144). -/
def l2Due (s : State) (line : Nat) : State :=
  match tget s.lines line with
  | some l => if l.rc = some 0 ∧ l.holder.isNone then dropLine s line else s
  | none => s

/-- Every line whose read count has reached 0 dropped. -/
def dropDue (s : State) : State := s.lines.foldl (fun s e => l2Due s e.1) s

/-- A tracking unit halved around a line on a conflict, down to one line (R145). A unit is its first line, its length in lines and the
cycle of its last conflict; 64 KiB units that were never split are not listed. -/
def splitUnit (us : List (Nat × Nat × Nat)) (line clock : Nat) : List (Nat × Nat × Nat) :=
  let u := (us.find? fun u => decide (u.1 ≤ line) && decide (line < u.1 + u.2.1)).getD (line / 512 * 512, 512, clock)
  let h := u.2.1 / 2
  if u.2.1 ≤ 1 then tset us u.1 (1, clock) else tset (tset us u.1 (h, clock)) (u.1 + h) (h, clock)

/-- Whether another thread's irrevocable attempt holds a line's tokens. -/
def heldByOther (s : State) (me : Nat × Nat) (line : Nat) : Bool :=
  match (lineAt s line).holder with | some h => h != me | none => false

/-- The first line of some that another thread's irrevocable attempt holds (R211, R220). -/
def heldLine (s : State) (me : Nat × Nat) (lines : List Nat) : Option Nat := lines.find? fun l => heldByOther s me l

/-- A die that fails to collect a line's tokens: its second failure makes a persistent request (R145). -/
def tokensFail (s : State) (line die : Nat) : State :=
  let l := lineAt s line
  let dir := { s.dir with
    units := splitUnit s.dir.units line s.clock
    persist := if l.failed.contains die ∧ !s.dir.persist.contains (line, die) then s.dir.persist ++ [(line, die)] else s.dir.persist }
  { setLine s line { l with failed := if l.failed.contains die then l.failed else l.failed ++ [die] } with dir }

/-- Units that bytes cover whole (R436). -/
def wholeUnits (pa n : Nat) : List Nat := (unitsFrom pa n).filter fun u => decide (pa ≤ 16 * u) && decide (16 * u + 16 ≤ pa + n)

/-- What one write performed at the L2 does to its line beside its bytes: the line's version is advanced, its four tokens are collected at the
writing die, which is a conflict where another die held one, and the poison mark of a unit that the write covers whole is cleared (R143,
R145, R436). The L2 and the HBM are one store of bytes, so the owner has nothing to drain. -/
def l2Mark (s : State) (line : Nat) (cluster : Option Nat) (whole : Nat → Bool) : State :=
  let s := l2Due s line
  let s := if (tget s.lines line).isSome then s else l2Touch s (128 * line) cluster 0
  let l := lineAt s line
  let v := l.version + 1
  let d := l2Die line cluster
  let clash := l.tokens.any (· != d)
  let s := if l.tokens.contains d then s else l2Room s d line
  let s := setLine s line { (l.seen cluster).ownedBy line d with version := v }
  { s with
    poison := s.poison.filter fun u => !(u / 8 == line && whole u)
    topVer := newer s.topVer v
    dir := if clash then { s.dir with units := splitUnit s.dir.units line s.clock } else s.dir }

/-- One write performed at the L2 (R143). The bytes lie in one line. -/
def l2Write (s : State) (pa : Nat) (bs : List Byte) (cluster : Option Nat) : State :=
  let whole := wholeUnits pa bs.length
  let s := l2Mark s (pa / 128) cluster whole.contains
  { s with mem := cellsWrite s.mem pa bs }

/-- One write of scattered bytes of one line performed at the L2: a write-back by byte mask, or a line of a commit (R129, R143, R215). -/
def l2Cells (s : State) (line : Nat) (bs : List (Nat × Byte)) (cluster : Option Nat) : State :=
  let whole : Nat → Bool := fun u => (List.range 16).all fun i => bs.any fun b => b.1 == 16 * u + i
  let s := l2Mark s line cluster whole
  { s with mem := bs.foldl (fun m b => cellSet m b.1 b.2) s.mem }

/-- A range split where it crosses lines. -/
def splitLines (pa : Nat) : List Byte → List (Nat × List Byte)
  | [] => []
  | b :: bs =>
    match splitLines (pa + 1) bs with
    | (a, xs) :: r => if a / 128 = pa / 128 then (pa, b :: xs) :: r else (pa, [b]) :: (a, xs) :: r
    | [] => [(pa, [b])]

/-- Bytes written at the L2, one write a line. -/
def l2Store (s : State) (pa : Nat) (bs : List Byte) (cluster : Option Nat) : State :=
  (splitLines pa bs).foldl (fun s x => l2Write s x.1 x.2 cluster) s

/-- Bytes read at the L2, one read a line. -/
def l2Load (s : State) (pa n : Nat) (cluster : Option Nat) : List Byte × State :=
  let lines := ((List.range n).map fun i => (pa + i) / 128).eraseDups
  let s := lines.foldl l2Due s
  (cellsRead s.mem pa n, lines.foldl (fun s l => l2Touch s (128 * l) cluster 0) s)

/-- A line after a pass of an issue: the pass's reads of it are one request and count once (R142, R144, R166). `left` is the count that
the pass leaves on a line it has filled. -/
def Line.onePass (l : Line) (old : Option Line) (by_ left : Nat) : Line :=
  match old with
  | some o =>
    let rc := match o.rc, l.rc with
      | some k, some j => some (if j < k then k - by_ else k)
      | none, some _ => some left
      | _, none => none
    let recent := if l.recent = o.recent then o.recent else (o.seen (l.recent.map (·.1))).recent
    { l with rc, recent }
  | none => { l with rc := l.rc.map fun _ => left, recent := l.recent.map fun e => (e.1, 1) }

/-- The reads of a pass counted: `s` before it and `t` after it. -/
def countReads (s t : State) (by_ left : Nat) : State :=
  { t with lines := t.lines.map fun e => (e.1, e.2.onePass (tget s.lines e.1) by_ left) }

/-- Whether bytes of device memory are poisoned. -/
def poisonedAt (s : State) (pa n : Nat) : Bool := (unitsFrom pa n).any fun u => s.poison.contains u

/-! ## Scope caches (R129 to R132) -/

/-- The copy of a byte in a scope cache. -/
def cbGet (c : List CacheByte) (a : Nat) : Option CacheByte := c.find? fun b => b.addr == a

/-- A scope cache with the copy of a byte put in. -/
def cbPut (c : List CacheByte) (b : CacheByte) : List CacheByte :=
  match c with
  | [] => [b]
  | x :: r => if x.addr = b.addr then b :: r else if b.addr < x.addr then b :: x :: r else x :: cbPut r b

/-- A clean copy. -/
def CacheByte.clean (a : Nat) (v : Byte) : CacheByte := { addr := a, val := v, dirty := false, writer := 0, seq := 0, owed := [] }

/-- A dirty byte put over what a cache holds there: the first store of each thread that the next level has not seen stays the first (R132). -/
def cbStore (c : List CacheByte) (b : CacheByte) : List CacheByte :=
  let before := match cbGet c b.addr with | some o => if o.dirty then o.owed else [] | none => []
  cbPut c { b with owed := before ++ b.owed.filter fun o => !before.any fun e => e.1 == o.1 }

/-- The addresses of a 16-byte sector. -/
def sectorAddrs (sec : Nat) : List Nat := (List.range 16).map fun i => 16 * sec + i

/-- A sector filled around the bytes a cache already holds (R129, R134). -/
def fillFrom (c : List CacheByte) (sec : Nat) (from_ : Nat → Byte) : List CacheByte :=
  (sectorAddrs sec).foldl (fun c a => if (cbGet c a).isSome then c else cbPut c (.clean a (from_ a))) c

/-- Whether a cache holds every byte of a sector. -/
def hasSector (c : List CacheByte) (sec : Nat) : Bool := (sectorAddrs sec).all fun a => (cbGet c a).isSome

/-- The byte a cache holds, or the one of the level behind it. -/
def cbRead (c : List CacheByte) (a : Nat) (behind : Byte) : Byte := match cbGet c a with | some b => b.val | none => behind

/-- A sector filled into a cluster cache from the L2. -/
def fillCluster (s : State) (cl sec rc : Nat) : State :=
  let c := clusterAt s cl
  if hasSector c.cache sec then s
  else
    let s := l2Touch s (16 * sec) (some cl) rc
    setCluster s cl { c with cache := fillFrom c.cache sec fun a => cellGet s.mem a }

/-- A sector filled into an L1 from its cluster cache. -/
def fillL1 (s : State) (core sec rc : Nat) : State :=
  let c := coreAt s core
  if hasSector c.l1 sec then s
  else
    let s := fillCluster s (core / 4) sec rc
    let cl := clusterAt s (core / 4)
    setCore s core { c with l1 := fillFrom c.l1 sec fun a => cbRead cl.cache a (cellGet s.mem a) }

/-- The sectors that must be written outward with some sectors: those with a dirty byte of an earlier store of a thread whose
later dirty byte goes (R132). -/
def closure (c : List CacheByte) : (fuel : Nat) → List Nat → List Nat
  | 0, secs => secs
  | n + 1, secs =>
    let going := c.filter fun b => b.dirty && secs.contains (b.addr / 16)
    let more := (c.filter fun b => b.dirty && !secs.contains (b.addr / 16)
      && going.any fun g => b.owed.any fun o => o.1 == g.writer && decide (o.2 < g.seq)).map fun b => b.addr / 16
    if more.isEmpty then secs else closure c n (secs ++ more.eraseDups)

/-- The dirty bytes of some sectors, oldest store first. -/
def dirtyIn (c : List CacheByte) (secs : List Nat) : List CacheByte :=
  sortBy (fun a b => decide (a.seq ≤ b.seq)) (c.filter fun b => b.dirty && secs.contains (b.addr / 16))

/-- Some sectors' bytes made clean. -/
def cleanIn (c : List CacheByte) (secs : List Nat) : List CacheByte :=
  c.map fun b => if secs.contains (b.addr / 16) then { b with dirty := false, owed := [] } else b

/-- Every sector with a dirty byte. -/
def dirtySectors (c : List CacheByte) : List Nat := ((c.filter (·.dirty)).map fun b => b.addr / 16).eraseDups

/-- Dirty bytes gathered by sector, the sector of the oldest store first: each is one write-back, by byte mask (R129, R143). DESIGN CHOICE
(log 15): how many writes of its line a write-back counts as is left open; here it is one for each sector. -/
def bySector (bs : List CacheByte) : List (Nat × List (Nat × Byte)) :=
  ((bs.map fun b => b.addr / 16).eraseDups).map fun sec =>
    (sec, (bs.filter fun b => b.addr / 16 == sec).map fun b => (b.addr, b.val))

/-- Dirty sectors of a cluster cache written back to the L2. -/
def backCluster (s : State) (cl : Nat) (secs : List Nat) : State :=
  let c := clusterAt s cl
  let bs := dirtyIn c.cache secs
  if bs.isEmpty then s
  else
    let s := setCluster s cl { c with cache := cleanIn c.cache secs }
    (bySector bs).foldl (fun s x => l2Cells s (x.1 / 8) x.2 (some cl)) s

/-! ## Replacement (R127, R167) -/

/-- How an access's EVICT class has its line replaced in the scope caches and in the L2 (R167). -/
def evictTreats (ev : Nat) : Treat × Treat :=
  match ev with
  | 1 => (.normal, .first)
  | 2 => (.first, .normal)
  | 3 => (.first, .first)
  | 4 => (.last, .normal)
  | 5 => (.normal, .last)
  | 6 => (.last, .last)
  | 7 => (.normal, .first)
  | _ => (.normal, .normal)

/-- Lines that an L1 and a cluster cache hold (R127). -/
def l1Lines : Nat := 256 * 2 ^ 10 / 128
def clusterLines : Nat := 4 * 2 ^ 20 / 128

/-- The lines of which a cache holds a byte. -/
def linesIn (c : List CacheByte) : List Nat := (c.map fun b => b.addr / 128).eraseDups

/-- A line used: it is now the most recently used, and evict-last only while no more than a quarter of the cache is. The whole cache is one
set (log 15). -/
def useLine (uses : List (Nat × Treat)) (line : Nat) (t : Treat) (cap : Nat) : List (Nat × Treat) :=
  let rest := uses.filter fun e => e.1 != line
  let t := if t = .last ∧ cap / 4 ≤ (rest.filter fun e => e.2 == .last).length then .normal else t
  rest ++ [(line, t)]

/-- The next line replaced: the least recently used of those marked evict-first, else of the normal ones, else of those marked evict-last. -/
def nextVictim (c : List CacheByte) (uses : List (Nat × Treat)) : Option Nat :=
  let held := linesIn c
  let uses := uses.filter fun e => held.contains e.1
  let plain := held.filter fun l => !uses.any fun e => e.1 == l
  let pick : Treat → Option Nat := fun t => (uses.find? fun e => e.2 == t).map (·.1)
  pick .first <|> plain.head? <|> pick .normal <|> pick .last

/-- The identity among holders of lines of what is no thread. -/
def nobody : Nat × Nat := (0, 128)

/-- A line leaves a cluster cache. -/
def evictCluster (s : State) (cl line : Nat) : State :=
  let c := (clusterAt s cl).cache
  let s := backCluster s cl (closure c c.length ((List.range 8).map fun i => 8 * line + i))
  let k := clusterAt s cl
  setCluster s cl { k with cache := k.cache.filter (fun b => b.addr / 128 != line), uses := k.uses.filter fun e => e.1 != line }

/-- Whether an irrevocable attempt holds a line that a cluster cache would have to write to let one of its lines go (R145, R217). -/
def lineStays (s : State) (c : List CacheByte) (line : Nat) : Bool :=
  let out := dirtyIn c (closure c c.length ((List.range 8).map fun i => 8 * line + i))
  (heldLine s nobody ((out.map fun b => b.addr / 128).eraseDups)).isSome

/-- A cluster cache brought within its capacity (R127). A line whose write-back an irrevocable attempt keeps from the L2 stays. -/
def fitCluster (s : State) (cl : Nat) : State :=
  if (clusterAt s cl).cache.length ≤ clusterLines then s
  else (List.range ((linesIn (clusterAt s cl).cache).length - clusterLines)).foldl (fun s _ =>
    let k := clusterAt s cl
    match nextVictim (k.cache.filter fun b => !lineStays s k.cache (b.addr / 128)) k.uses with
    | some l => evictCluster s cl l
    | none => s) s

/-- Dirty sectors of an L1 written back to its cluster cache, which stays within its capacity (R127). -/
def backL1 (s : State) (core : Nat) (secs : List Nat) : State :=
  let c := coreAt s core
  let bs := dirtyIn c.l1 secs
  if bs.isEmpty then s
  else
    let s := setCore s core { c with l1 := cleanIn c.l1 secs }
    let cl := clusterAt s (core / 4)
    fitCluster (setCluster s (core / 4) { cl with cache := bs.foldl cbStore cl.cache }) (core / 4)

/-! ## Releases and acquires (R134, R135) -/

/-- The level of P(S) (R128). -/
def lvlOf : Scope → Lvl
  | .thread | .crew | .team => .l1
  | .cluster => .cluster
  | .die | .device | .system => .l2

/-- The write-back of a release at S: every dirty byte below S on the path (R135). -/
def releaseAt (s : State) (core : Nat) (lvl : Lvl) : State :=
  match lvl with
  | .l1 => s
  | .cluster => backL1 s core (dirtySectors (coreAt s core).l1)
  | .l2 =>
    let s := backL1 s core (dirtySectors (coreAt s core).l1)
    backCluster s (core / 4) (dirtySectors (clusterAt s (core / 4)).cache)

/-- The invalidation of an acquire at S: clean bytes below S on the path (R134). -/
def acquireAt (s : State) (core : Nat) (lvl : Lvl) : State :=
  match lvl with
  | .l1 => s
  | .cluster => let c := coreAt s core; setCore s core { c with l1 := c.l1.filter (·.dirty) }
  | .l2 =>
    let c := coreAt s core
    let s := setCore s core { c with l1 := c.l1.filter (·.dirty) }
    let cl := clusterAt s (core / 4)
    setCluster s (core / 4) { cl with cache := cl.cache.filter (·.dirty) }

/-- The write-back below a level of the sectors that some bytes lie in (R133). -/
def backSectors (s : State) (core : Nat) (lvl : Lvl) (secs : List Nat) : State :=
  match lvl with
  | .l1 => s
  | .cluster => let c := (coreAt s core).l1; backL1 s core (closure c c.length secs)
  | .l2 =>
    let c := (coreAt s core).l1
    let s := backL1 s core (closure c c.length secs)
    let d := (clusterAt s (core / 4)).cache
    backCluster s (core / 4) (closure d d.length secs)

/-- The sectors of a cache that hold a dirty byte of a thread, or one stored over it that the next level has not seen either (R132). -/
def sectorsOf (c : List CacheByte) (writer : Nat) : List Nat :=
  ((c.filter fun b => b.dirty && (b.writer == writer || b.owed.any fun o => o.1 == writer)).map fun b => b.addr / 16).eraseDups

/-- A thread's earlier dirty bytes below a level written back (R132). -/
def backWriter (s : State) (core : Nat) (lvl : Lvl) (writer : Nat) : State :=
  let s := match lvl with
    | .l1 => s
    | _ => let c := (coreAt s core).l1; backL1 s core (closure c c.length (sectorsOf c writer))
  match lvl with
  | .l2 => let d := (clusterAt s (core / 4)).cache
           backCluster s (core / 4) (closure d d.length (sectorsOf d writer))
  | _ => s

/-- The sectors of a range. -/
def sectorsIn (pa n : Nat) : List Nat := ((List.range n).map fun i => (pa + i) / 16).eraseDups

/-- Copies that a cache holds brought to new values, clean. -/
def refresh (c : List CacheByte) (pa : Nat) (bs : List Byte) : List CacheByte :=
  (bs.mapIdx fun i v => (pa + i, v)).foldl (fun c x => if (cbGet c x.1).isSome then cbPut c (.clean x.1 x.2) else c) c

/-- The lines that a write-back of some sectors of a core's path would write at the L2, with what must go before them (R132). -/
def backLines (s : State) (core : Nat) (secs : List Nat) : List Nat :=
  let c := (coreAt s core).l1
  let out := closure c c.length secs
  let d := (clusterAt s (core / 4)).cache
  let dirty := dirtyIn c out ++ dirtyIn d (closure d d.length (secs ++ out))
  (dirty.map fun b => b.addr / 128).eraseDups

/-- The first line that another thread's irrevocable attempt holds and that a write-back of some sectors would write: a write needs all four
tokens (R145, R217). -/
def backHeld (s : State) (me : Nat × Nat) (core : Nat) (secs : List Nat) : Option Nat := heldLine s me (backLines s core secs)

/-- The dirty sectors of a core's path. -/
def pathSectors (s : State) (core : Nat) : List Nat := dirtySectors (coreAt s core).l1 ++ dirtySectors (clusterAt s (core / 4)).cache

/-- Whether a byte of device memory is read from a poisoned unit rather than from a later store in a scope cache of the path (R436). -/
def readsPoison (s : State) (core pa n : Nat) : Bool :=
  (List.range n).any fun i =>
    let a := pa + i
    let isDirty : List CacheByte → Bool := fun c => match cbGet c a with | some b => b.dirty | none => false
    s.poison.contains (a / 16) && !isDirty (coreAt s core).l1 && !isDirty (clusterAt s (core / 4)).cache

/-- Whether a path's EVICT class is `.once`: the access does not allocate in the scope caches (R167). -/
def Path.once (p : Path) : Bool := p.ev == 7

/-- A load of device memory (R130, R133). DESIGN CHOICE (log 36): its bytes are read together, in one step; an access of 16 bytes or at a misaligned
address tears, as R141 and R160 allow, only where it is performed after its issue, piece by piece. -/
def loadDev (s : State) (p : Path) (pa n : Nat) : List Byte × State :=
  let secs := sectorsIn pa n
  let cl := p.core / 4
  match p.strong with
  | some .l2 =>
    let s := backSectors s p.core .l2 secs
    let s := ((List.range n).map fun i => (pa + i) / 128).eraseDups.foldl (fun s l => l2Touch s (128 * l) (some cl) p.rc) s
    let bs := cellsRead s.mem pa n
    let c := coreAt s p.core
    let s := setCore s p.core { c with l1 := refresh c.l1 pa bs }
    let d := clusterAt s cl
    (bs, setCluster s cl { d with cache := refresh d.cache pa bs })
  | some .cluster =>
    let s := backSectors s p.core .cluster secs
    let s := secs.foldl (fun s x =>
      if !p.once then fillCluster s cl x p.rc
      else if hasSector (clusterAt s cl).cache x then s else l2Touch s (16 * x) (some cl) p.rc) s
    let d := (clusterAt s cl).cache
    let bs := (List.range n).map fun i => cbRead d (pa + i) (cellGet s.mem (pa + i))
    let c := coreAt s p.core
    (bs, setCore s p.core { c with l1 := refresh c.l1 pa bs })
  | _ =>
    let c := (coreAt s p.core).l1
    if p.once && !(secs.all (hasSector c)) then
      let s := secs.foldl (fun s x => if hasSector (clusterAt s cl).cache x then s else l2Touch s (16 * x) (some cl) p.rc) s
      let d := (clusterAt s cl).cache
      ((List.range n).map fun i => cbRead c (pa + i) (cbRead d (pa + i) (cellGet s.mem (pa + i))), s)
    else
      let s := secs.foldl (fun s x => fillL1 s p.core x p.rc) s
      let c := (coreAt s p.core).l1
      ((List.range n).map fun i => cbRead c (pa + i) 0, s)

/-- Bytes put dirty into a cache as one store. -/
def dirtyPut (c : List CacheByte) (pa : Nat) (bs : List Byte) (writer seq : Nat) : List CacheByte :=
  (bs.mapIdx fun i v => ({ addr := pa + i, val := v, dirty := true, writer, seq, owed := [(writer, seq)] } : CacheByte)).foldl cbStore c

/-- A store to device memory (R131 to R133, R167). DESIGN CHOICE (log 36): its bytes are written together, in one step; it tears (R141, R160) only
where it is performed after its issue, piece by piece. -/
def storeDev (s : State) (p : Path) (pa : Nat) (bs : List Byte) : State :=
  let seq := s.nums.store
  let s := { s with nums := { s.nums with store := seq + 1 } }
  let lvl : Lvl := match p.strong with
    | some .l1 | none => if p.once then .cluster else .l1
    | some l => l
  match lvl with
  | .l1 => let c := coreAt s p.core; setCore s p.core { c with l1 := dirtyPut c.l1 pa bs p.writer seq }
  | .cluster =>
    let s := backWriter s p.core .cluster p.writer
    let s := backSectors s p.core .cluster (sectorsIn pa bs.length)
    let c := coreAt s p.core
    let s := setCore s p.core { c with l1 := refresh c.l1 pa bs }
    let d := clusterAt s (p.core / 4)
    setCluster s (p.core / 4) { d with cache := dirtyPut d.cache pa bs p.writer seq }
  | .l2 =>
    let s := backWriter s p.core .l2 p.writer
    let s := backSectors s p.core .l2 (sectorsIn pa bs.length)
    let c := coreAt s p.core
    let s := setCore s p.core { c with l1 := refresh c.l1 pa bs }
    let d := clusterAt s (p.core / 4)
    let s := setCluster s (p.core / 4) { d with cache := refresh d.cache pa bs }
    l2Store s pa bs (some (p.core / 4))

/-! ## Replacement of lines on a path (R127, R167) -/

/-- A line leaves an L1: its dirty sectors are written back with the earlier stores of their threads, and its bytes dropped (R131, R132). -/
def evictL1 (s : State) (core line : Nat) : State :=
  let c := (coreAt s core).l1
  let s := backL1 s core (closure c c.length ((List.range 8).map fun i => 8 * line + i))
  let cr := coreAt s core
  setCore s core { cr with l1 := cr.l1.filter (fun b => b.addr / 128 != line), uses := cr.uses.filter fun e => e.1 != line }

/-- The scope caches of a core's path brought within their capacity (R127). -/
def fitPath (s : State) (core : Nat) : State :=
  let s := if (coreAt s core).l1.length ≤ l1Lines then s
    else (List.range ((linesIn (coreAt s core).l1).length - l1Lines)).foldl (fun s _ =>
      match nextVictim (coreAt s core).l1 (coreAt s core).uses with
      | some l => evictL1 s core l
      | none => s) s
  fitCluster s (core / 4)

/-- Whether a quarter of a slice's lines are evict-last beside a line, which is then treated as normal (R167). -/
def lastFull (s : State) (die line : Nat) : Bool :=
  if (s.lines.filter fun e => e.2.tokens.contains die).length < sliceLines / 4 then false
  else decide (sliceLines / 4 ≤ ((linesOfSlice s die (sliceOf die line (lineAt s line)) 0).filter fun e => e.1 != line && e.2.treat == .last).length)

/-- An access noted for replacement in the levels of its path that hold its lines, which stay within their capacity (R127, R167). -/
def noteUse (s : State) (p : Path) (pa n : Nat) : State :=
  let t := evictTreats p.ev
  let s := (((List.range n).map fun i => (pa + i) / 128).eraseDups).foldl (fun s line =>
    let c := coreAt s p.core
    let s := if c.l1.any (fun b => b.addr / 128 == line) then setCore s p.core { c with uses := useLine c.uses line t.1 l1Lines } else s
    let k := clusterAt s (p.core / 4)
    let s := if k.cache.any (fun b => b.addr / 128 == line) then
        setCluster s (p.core / 4) { k with uses := useLine k.uses line t.1 clusterLines } else s
    match tget s.lines line with
    | some l => setLine s line { l with treat := if t.2 = .last ∧ lastFull s (p.core / 32) line then .normal else t.2 }
    | none => s) s
  fitPath s p.core

/-- A load of device memory, with its note for replacement. -/
def loadAt (s : State) (p : Path) (pa n : Nat) : List Byte × State :=
  let r := loadDev s p pa n
  (r.1, noteUse r.2 p pa n)

/-- A store to device memory, with its note for replacement. -/
def storeAt (s : State) (p : Path) (pa : Nat) (bs : List Byte) : State := noteUse (storeDev s p pa bs) p pa bs.length

/-- An atomic on device memory: one indivisible read and write of the copy at its level (R140). -/
def atomicDev (s : State) (p : Path) (pa n : Nat) (f : List Byte → List Byte) : List Byte × State :=
  let q := { p with strong := some (p.strong.getD .l1), ev := if p.once then 1 else p.ev }
  let r := loadDev s q pa n
  (r.1, storeAt r.2 q pa (f r.1))

/-! ## Translation (R370 to R372) -/

/-- Access kinds, in the order of DETAIL [4:2] (R403). -/
inductive AccKind where
  | load | store | atomic | fetch | eread | ewrite
  deriving DecidableEq, Repr

def AccKind.code : AccKind → Nat
  | .load => 0 | .store => 1 | .atomic => 2 | .fetch => 3 | .eread => 4 | .ewrite => 5

/-- DETAIL of a translation fault (R403). -/
def xlateDetail (level : Nat) (acc : AccKind) : W32 := BitVec.ofNat 32 (level + 4 * acc.code)

/-- Whether bits of a table entry are set where R371 wants zero: reserved bits, or bits [6:2] of a non-leaf. -/
def entryReserved (e : Nat) : Bool := e / 2 ^ 52 != 0 || e / 128 % 512 != 0

/-- The permissions a leaf grants (R371, R372). -/
def leafGrants (e : Nat) (acc : AccKind) : Bool :=
  let rd := e / 4 % 2 == 1
  let wr := e / 8 % 2 == 1
  let ex := e / 16 % 2 == 1
  match acc with
  | .load | .eread => rd
  | .store | .ewrite => wr
  | .atomic => rd && wr
  | .fetch => ex

/-- The frame address of an entry: bits [51:16]. -/
def entryPa (e : Nat) : Nat := e / 2 ^ 16 % 2 ^ 36 * 2 ^ 16

/-- An entry read at the L2. -/
def readEntry (s : State) (pa : Nat) : Nat := ofBytes (cellsRead s.mem pa 8)

/-- A checked leaf: the address it gives, or the fault at its level (R372 rows 2 and 3). -/
def leafResult (dev : Bool) (level : Nat) (e : Nat) (acc : Option AccKind) (va pageBits : Nat) : Except (Cause × Nat) (Nat × Nat) :=
  let pa := entryPa e / 2 ^ pageBits * 2 ^ pageBits + va % 2 ^ pageBits
  if entryReserved e ∨ (pageBits = 29 ∧ entryPa e % 2 ^ 29 ≠ 0) ∨ (dev ∧ 0xC000000000 ≤ pa) then .error (.xlateFormat, level)
  else match acc with
    | some a => if leafGrants e a then .ok (pa, e) else .error (.xlatePerm, level)
    | none => .ok (pa, e)

/-- A checked table pointer. -/
def tablePointer (e : Nat) : Bool := !entryReserved e && e / 4 % 32 == 0 && decide (entryPa e < 0xC000000000)

/-- The walk of R370 from a root table: the physical address and the leaf, or the fault and its level. Without an access
kind the leaf's permissions are not checked (R372). -/
def walk (s : State) (root : Nat) (dev : Bool) (va : Nat) (acc : Option AccKind) : Except (Cause × Nat) (Nat × Nat) :=
  let a1 := root + 8 * (va / 2 ^ 42 % 8192)
  let e1 := readEntry s a1
  if poisonedAt s a1 8 then .error (.poison, 1)
  else if e1 % 2 = 0 then .error (.xlateInvalid, 1)
  else if e1 / 2 % 2 = 1 ∨ !tablePointer e1 then .error (.xlateFormat, 1)
  else
    let a2 := entryPa e1 + 8 * (va / 2 ^ 29 % 8192)
    let e2 := readEntry s a2
    if poisonedAt s a2 8 then .error (.poison, 2)
    else if e2 % 2 = 0 then .error (.xlateInvalid, 2)
    else if e2 / 2 % 2 = 1 then leafResult dev 2 e2 acc va 29
    else if !tablePointer e2 then .error (.xlateFormat, 2)
    else
      let a3 := entryPa e2 + 8 * (va / 2 ^ 16 % 8192)
      let e3 := readEntry s a3
      if poisonedAt s a3 8 then .error (.poison, 3)
      else if e3 % 2 = 0 then .error (.xlateInvalid, 3)
      else if e3 / 2 % 2 = 0 then .error (.xlateFormat, 3)
      else leafResult dev 3 e3 acc va 16

/-- The bound view that an address of a context's global window lies in: slot, binding and offset (R302, R304). -/
def viewOf (s : State) (ctx va : Nat) : Option (Nat × Binding × Nat) :=
  match tget s.ctxs ctx with
  | none => none
  | some c => (c.bindings.find? fun e => decide (e.2.vbase ≤ va) && decide (va < e.2.vbase + e.2.vlen)).map
      fun e => (e.1, e.2, va - e.2.vbase)

/-- The root table of a context. -/
def rootOf (s : State) (ctx : Nat) : Option Nat := match tget s.ctxs ctx with | some c => some c.root | none => none

/-- The level of the leaf that a walk of a mapped address ends at (R370). -/
def leafLevel (s : State) (root va : Nat) : Nat :=
  if readEntry s (entryPa (readEntry s (root + 8 * (va / 2 ^ 42 % 8192))) + 8 * (va / 2 ^ 29 % 8192)) / 2 % 2 = 1 then 2 else 3

/-- A translated address in a window of R48 that is translated; a fetch there is refused once the walk has passed (R372), as is a
load through a peer port that has gone down (R437). -/
def translate (s : State) (ctx va : Nat) (acc : Option AccKind) : Except (Cause × Nat) Place :=
  match rootOf s ctx with
  | none => .error (.xlateInvalid, 1)
  | some root =>
    match winOf va with
    | .global => (match walk s root true va acc with | .ok r => .ok (.dev r.1) | .error e => .error e)
    | .host => (match walk s root false va (if acc = some .fetch then none else acc) with
      | .ok r => if acc = some .fetch then .error (.xlatePerm, leafLevel s root va) else .ok (.far none r.1)
      | .error e => .error e)
    | .peer p =>
      if s.pairs.any (fun q => q.ctx == ctx && q.port == p) then
        (match walk s root false va (if acc = some .fetch then none else acc) with
        | .ok r =>
          if acc = some .fetch ∨ (!s.links.peersUp.contains p ∧ (acc = some .load ∨ acc = some .eread)) then .error (.xlatePerm, leafLevel s root va)
          else .ok (.far (some p) (r.1 % 2 ^ 48))
        | .error e => .error e)
      else .error (.xlateInvalid, 1)
    | _ => .error (.xlateInvalid, 1)

/-! ## Scratchpad bytes (R49 to R51, R416) -/

/-- The offset of the scratchpad image in a shadow image (R414). -/
def scrOff (t g c q a p : Nat) : Nat :=
  (4096 + t * (4 * g + 64) + 512 * c + 8192 * q + 8448 * a + 1024 * p + 4095) / 4096 * 4096

/-- A range cut at the boundaries of 64 KiB pages: the start and length of each part. -/
def pageParts (va n : Nat) : List (Nat × Nat) :=
  if n = 0 then []
  else (List.range ((va + n - 1) / 65536 - va / 65536 + 1)).map fun i =>
    let lo := max va ((va / 65536 + i) * 65536)
    (lo, min (va + n) ((va / 65536 + i + 1) * 65536) - lo)

/-- The first translation fault that a range of an image meets, with its address (R423). -/
def imageMiss (s : State) (ctx va n : Nat) (acc : AccKind) : Option (Nat × Cause × Nat) :=
  (pageParts va n).findSome? fun r => match translate s ctx r.1 (some acc) with
    | .ok (.dev _) => none
    | .ok _ => some (r.1, .xlateInvalid, 1)
    | .error e => some (r.1, e.1, e.2)

/-- Bytes of a scratchpad, where they are held: on the core, or in the image while the team is absent (R416). -/
def padRead (s : State) (t off n : Nat) : List Byte × State :=
  match tget s.teams t with
  | none => (List.replicate n 0, s)
  | some tm =>
    match tm.image with
    | none => (cellsRead tm.scratch off n, s)
    | some base =>
      (pageParts (base + off) n).foldl (fun r e =>
        match translate r.2 tm.ctx e.1 (some .eread) with
        | .ok (.dev pa) => let x := l2Load r.2 pa e.2 none; (r.1 ++ x.1, x.2)
        | _ => (r.1 ++ List.replicate e.2 0, r.2)) (([], s) : List Byte × State)

/-- Bytes written to a scratchpad, where it is held. -/
def padWrite (s : State) (t off : Nat) (bs : List Byte) : State :=
  match tget s.teams t with
  | none => s
  | some tm =>
    match tm.image with
    | none => modTeam s t fun tm => { tm with
        scratch := cellsWrite tm.scratch off bs
        poison := tm.poison.filter fun u => !(wholeUnits off bs.length).contains u }
    | some base =>
      (pageParts (base + off) bs.length).foldl (fun s e =>
        match translate s tm.ctx e.1 (some .ewrite) with
        | .ok (.dev pa) => l2Store s pa ((bs.drop (e.1 - (base + off))).take e.2) none
        | _ => s) s

/-- Whether bytes of a scratchpad are poisoned: in the scratchpad, or in the image that holds them (R416, R436). -/
def padPoisoned (s : State) (t off n : Nat) : Bool :=
  match tget s.teams t with
  | none => false
  | some tm => match tm.image with
    | none => (unitsFrom off n).any fun u => tm.poison.contains u
    | some base => (pageParts (base + off) n).any fun e => match translate s tm.ctx e.1 (some .eread) with
      | .ok (.dev pa) => poisonedAt s pa e.2
      | _ => false

/-! ## Checks of an access (R161) -/

/-- An access to be checked: by which context and team, its kind and bytes, its alignment, whether it is transactional (in a bound view it then
aborts instead of faulting, R211, R304), and which windows an atomic may reach (R171). -/
structure AccessReq where
  ctx   : Nat
  team  : Option Nat
  acc   : AccKind
  va    : Nat
  n     : Nat
  align : Nat
  tx    : Bool
  farOk : Nat → Bool

/-- A failed check: its place in the order of R161 and R372, its fault and the walk level. -/
structure Failed where
  rank  : Nat
  cause : Cause
  level : Nat
  deriving DecidableEq, Repr

/-- The bytes of an access: each address. -/
def spanOf (va n : Nat) : List Nat := (List.range n).map fun i => (va + i) % 2 ^ 64

/-- Row 6: scratchpad bytes below the holder's allocation size (R49, R50). -/
def padCheck (s : State) (team : Option Nat) (w : Win) : Option Failed :=
  match w with
  | .own off => if off < allocOf s team then none else some ⟨6, .scratchBounds, 0⟩
  | .slot c off =>
    (match team with
    | none => none
    | some t => match partnerOf s t c with
      | none => none
      | some p => if off < allocOf s (some p) then none else some ⟨6, .scratchBounds, 0⟩)
  | _ => none

/-- Row 3: the cluster window (R50). -/
def slotCheck (s : State) (team : Option Nat) (w : Win) : Option Failed :=
  match w with
  | .slot c _ =>
    if !coplaced s team then some ⟨3, .clusterWindow, 0⟩
    else (match team with
      | none => some ⟨3, .clusterWindow, 0⟩
      | some t => if (partnerOf s t c).isSome then none else some ⟨3, .clusterWindow, 0⟩)
  | _ => none

/-- The rank of a translation fault in the order of R372. -/
def xlateRank : Cause → Nat
  | .xlateInvalid => 70 | .xlateFormat => 71 | .xlatePerm => 72 | .streamDir => 73 | _ => 74

/-- The translation fault that reading a scratchpad's byte meets, where the team is absent and the page of its image does not translate (R416,
R423). -/
def imageError (s : State) (t off : Nat) : Option (Cause × Nat) :=
  match tget s.teams t with
  | some tm => (match tm.image with
    | some base => (match translate s tm.ctx (base + off) (some .eread) with | .error e => some e | .ok _ => none)
    | none => none)
  | none => none

/-- Row 7 for one byte: its place, or the fault. A write or atomic to an absent partner's scratchpad meets no fault here: its diverted operation
does (R419, R423). An engine's read of its own absent team's scratchpad does. -/
def placeOf (s : State) (ctx : Nat) (team : Option Nat) (acc : Option AccKind) (va : Nat) : Except (Cause × Nat) Place :=
  match winOf va with
  | .own off =>
    (match team with
    | some t =>
      if acc = some .eread then (match imageError s t off with | some e => .error e | none => .ok (.pad t off)) else .ok (.pad t off)
    | none => .error (.scratchBounds, 0))
  | .slot c off =>
    (match team with
    | some t => (match partnerOf s t c with
      | some p =>
        if acc = some .store ∨ acc = some .ewrite ∨ acc = some .atomic then .ok (.pad p off)
        else (match imageError s p off with | some e => .error e | none => .ok (.pad p off))
      | none => .error (.clusterWindow, 0))
    | none => .error (.clusterWindow, 0))
  | .global =>
    (match viewOf s ctx va with
    | some (slot, b, off) =>
      (match acc with
      | some .load | some .eread => if b.write then .error (.streamDir, 0) else .ok (.view slot off)
      | some .store | some .ewrite => if b.write then .ok (.view slot off) else .error (.streamDir, 0)
      | some .fetch => .error (.streamDir, 0)
      | some .atomic => .error (.windowAtomic, 0)
      | none => .ok (.view slot off))
    | none => translate s ctx va acc)
  | .host | .peer _ => translate s ctx va acc
  | .noncanon => .error (.addrNoncanon, 0)
  | .reserved => .error (.addrReserved, 0)

/-- One byte put before a list of ranges, each a place, its first address and its length; ranges whose bytes lie side by side are
one. -/
def joinSeg (p : Place) (va : Nat) (r : List (Place × Nat × Nat)) : List (Place × Nat × Nat) :=
  match p, r with
  | .dev a, (.dev b, v, k) :: r => if b = a + 1 then (.dev a, va, k + 1) :: r else (.dev a, va, 1) :: (.dev b, v, k) :: r
  | .pad t a, (.pad u b, v, k) :: r =>
    if t = u ∧ b = a + 1 then (.pad t a, va, k + 1) :: r else (.pad t a, va, 1) :: (.pad u b, v, k) :: r
  | .far q a, (.far w b, v, k) :: r =>
    if q = w ∧ b = a + 1 then (.far q a, va, k + 1) :: r else (.far q a, va, 1) :: (.far w b, v, k) :: r
  | .view z a, (.view y b, v, k) :: r =>
    if z = y ∧ b = a + 1 then (.view z a, va, k + 1) :: r else (.view z a, va, 1) :: (.view y b, v, k) :: r
  | p, r => (p, va, 1) :: r

/-- Row 4: an atomic to a window that does not support it (R171). -/
def atomicCheck (s : State) (q : AccessReq) : Option Failed :=
  if q.acc ≠ .atomic then none
  else match winOf q.va with
    | .host => if q.farOk 0 then none else some ⟨4, .windowAtomic, 0⟩
    | .peer _ => if q.farOk 1 then none else some ⟨4, .windowAtomic, 0⟩
    | .global => if (viewOf s q.ctx q.va).isSome then some ⟨4, .windowAtomic, 0⟩ else none
    | _ => none

/-- The checks of one lane's access, in the order of R161: the first that fails, or none. -/
def checkAccess (s : State) (q : AccessReq) : Option Failed :=
  let bytes := spanOf q.va q.n
  if 0x80000000000000 ≤ q.va then some ⟨1, .addrNoncanon, 0⟩
  else if bytes.any (fun a => winOf a == .reserved || winOf a == .noncanon) then some ⟨2, .addrReserved, 0⟩
  else match bytes.findSome? (fun a => slotCheck s q.team (winOf a)) with
    | some f => some f
    | none => match atomicCheck s q with
      | some f => some f
      | none =>
        if q.va % q.align ≠ 0 then some ⟨5, .misaligned, 0⟩
        else match bytes.findSome? (fun a => padCheck s q.team (winOf a)) with
          | some f => some f
          | none => bytes.findSome? fun a =>
            match placeOf s q.ctx q.team (some q.acc) a with
            | .error e => if q.tx && e.1 == .streamDir then none else some ⟨xlateRank e.1, e.1, e.2⟩
            | .ok _ => none

end Sys2Proof.Machine
end

