-- ==== Sys2Proof/Machine/Grids.lean ====
section
/-! DEFINITION. Blocks that the device itself reads and writes (descriptors, completion objects), the end of a grid (R406), and
a fault in a handler crew (R405). -/

namespace Sys2Proof.Machine

open Sys2Proof

/-! ## Aligned blocks of the global window -/

/-- The physical address of a block that lies in one page of the global window. -/
def blockAt (s : State) (ctx va : Nat) (acc : AccKind) : Except (Cause × Nat) Nat :=
  match winOf va with
  | .global => (match placeOf s ctx none (some acc) va with
    | .ok (.dev pa) => .ok pa
    | .ok _ => .error (.streamDir, 0)
    | .error e => .error e)
  | .noncanon => .error (.addrNoncanon, 0)
  | _ => .error (.addrReserved, 0)

/-- The part of a block that lies in one page, read at the L2. -/
def pageRead (s : State) (ctx va n : Nat) : Except (Cause × Nat) (List Byte × State) :=
  match blockAt s ctx va .load with
  | .error e => .error e
  | .ok pa => if poisonedAt s pa n then .error (.poison, 0) else .ok (l2Load s pa n none)

/-- A block of at most 64 KiB read at the L2 (R146, R293), its two parts where it crosses a page. -/
def blockRead (s : State) (ctx va n : Nat) : Except (Cause × Nat) (List Byte × State) :=
  let here := min n (65536 - va % 65536)
  match pageRead s ctx va here with
  | .error e => .error e
  | .ok r =>
    if here = n then .ok r
    else match pageRead r.2 ctx (va + here) (n - here) with
      | .error e => .error e
      | .ok q => .ok (r.1 ++ q.1, q.2)

/-- A block written at the L2. -/
def blockWrite (s : State) (ctx va : Nat) (bs : List Byte) : Except (Cause × Nat) State :=
  match blockAt s ctx va .store with
  | .error e => .error e
  | .ok pa => .ok (l2Store s pa bs none)

/-- A generation descriptor read up to a number of times (R293): its bytes as a number, torn where at each its first and last 8 bytes differ. -/
def descTries (ctx va n : Nat) : (tries : Nat) → State → Except (Cause × Nat) (Nat × State)
  | 0, _ => .error (.descTorn, 0)
  | t + 1, s => match blockRead s ctx va n with
    | .error e => .error e
    | .ok (bs, s1) =>
      let v := ofBytes bs
      if v % 2 ^ 64 = v / 2 ^ (8 * n - 64) then .ok (v, s1) else descTries ctx va n t s1

/-- A generation descriptor read, with four re-reads while it is torn (R293). DESIGN CHOICE (log 41): the five attempts come within one step, so that
nothing changes the descriptor between them, and each is one read. -/
def descRead (s : State) (ctx va n : Nat) : Except (Cause × Nat) (Nat × State) := descTries ctx va n 5 s

/-! ## Completion objects (R336) -/

/-- Whether an irrevocable attempt holds a line of a block of the global window: a write of the device's own waits for it (R145, R217). -/
def blockHeld (s : State) (ctx va n : Nat) : Bool :=
  match blockAt s ctx va .store with
  | .ok pa => (sectorsIn pa n).any fun k => heldByOther s nobody (k / 8)
  | .error _ => false

/-- Whether the completion object of a launch lies in a held line. -/
def doneHeld (s : State) (ctx : Nat) (p : Packet) : Bool := blockHeld s ctx p.done.toNat 16

/-- The 16 bytes of a completion object. -/
def doneBytes (s : State) (state code : Nat) : List Byte := toBytes 16 (state + code * 2 ^ 32 + s.clock * 2 ^ 64)

/-- A record that a write was dropped (R337, R377, R378). -/
def dropRecord (va : Nat) (pc : Addr) (team subject : W64) : FRec :=
  { FRec.blank with cause := .writeDropped, addr := BitVec.ofNat 64 va, pc, team, subject }

/-- A change of STATE written to a grid's completion object; dropped and reported where the object cannot be written (R337). -/
def gridDone (s : State) (g : Nat) (state code : Nat) : State :=
  match tget s.grids g with
  | none => s
  | some gr =>
    if gr.handles.isSome then s
    else match blockWrite s gr.ctx gr.packet.done.toNat (doneBytes s state code) with
      | .ok s' => s'
      | .error _ =>
        (takeAsync s g (dropRecord gr.packet.done.toNat 0 (BitVec.allOnes 64) (identity 3 0 0 0x3FF gr.packet.queue))).2

/-! ## The arithmetic error log (R245) -/

/-- The 32 bytes of a record of the log (R245). -/
def AeRec.toNat (r : AeRec) : Nat :=
  r.lanes.toNat * 2 ^ 192 + min r.count (2 ^ 32 - 1) * 2 ^ 160 + r.team.toNat % 2 ^ 32 * 2 ^ 128 + r.pc.toNat * 2 ^ 64
    + r.cause.code * 2 ^ 56 + r.core % 128 * 2 ^ 49 + r.crew % 1024 * 2 ^ 39 + (if r.ap then 2 ^ 38 else 0)
    + (if r.exact then 2 ^ 37 else 0) + (if r.engine then 2 ^ 36 else 0) + r.stamp.toNat

/-- The slot that a context's next record takes. -/
def aelogSlot (s : State) (ctx : Nat) : Nat :=
  let c := ctlOf s ctx
  ((pair64 c.aelogBase c.aelogBaseH).toNat / 32 * 32 + 32 * (c.aelogHead.toNat % c.aelogSize.toNat)) % 2 ^ 64

/-- Whether the slot of a record lies in a held line. -/
def aelogHeld (s : State) (r : AeRec) : Bool := (ctlOf s r.ctx).aelogSize != 0 && blockHeld s r.ctx (aelogSlot s r.ctx) 32

/-- Part of a record written to its slot: at the L2, or sent to the far side where the log lies in a host or peer window. -/
def aelogPut (s : State) (r : AeRec) (va : Nat) (bs : List Byte) : Except (Cause × Nat) State :=
  match winOf va with
  | .host | .peer _ => (match translate s r.ctx va (some .store) with
    | .error e => .error e
    | .ok (.far port a) => .ok { s with far := s.far ++ [
        { port, addr := a, cells := bs.mapIdx fun i v => (a + i, v), atom := none, core := r.core, ctx := r.ctx, grid := some r.grid
          crew := none, team := none, cmd := none, va := BitVec.ofNat 64 va, pc := r.pc }] }
    | .ok _ => .error (.xlateInvalid, 0))
  | _ => blockWrite s r.ctx va bs

/-- A record written to its context's log: the index is claimed, then bytes 16 to 31 and bytes 0 to 15 are written; a slot that cannot
be written drops the record and reports it (R245). -/
def aelogWrite (s : State) (r : AeRec) : State :=
  let c := ctlOf s r.ctx
  let slot := aelogSlot s r.ctx
  let s := modCtx s r.ctx fun x => { x with regs := { x.regs with aelogHead := c.aelogHead + 1 } }
  if c.aelogSize = 0#32 then s
  else
    let bs := toBytes 32 r.toNat
    match aelogPut s r (slot + 16) (bs.drop 16) with
    | .error _ => (takeAsync s r.grid (dropRecord slot r.pc r.team r.subject)).2
    | .ok s => match aelogPut s r slot (bs.take 16) with
      | .ok s => s
      | .error _ => s

/-- The open arithmetic error records of a core that a test accepts written to their log (R245). -/
def flushLog (s : State) (core : Nat) (p : AeRec → Bool) : State :=
  let c := coreAt s core
  (c.aebuf.filter p).foldl aelogWrite (setCore s core { c with aebuf := c.aebuf.filter fun r => !p r })

/-- The open records of a team on every core written: those of its commands may be where it has been (R245). -/
def flushTeam (s : State) (tm : Team) : State :=
  s.cores.foldl (fun s e => flushLog s e.1 fun r => r.grid == tm.grid && r.team == BitVec.ofNat 64 tm.idx) s

/-- The open records of a grid on every core written. -/
def flushGrid (s : State) (g : Nat) : State := s.cores.foldl (fun s e => flushLog s e.1 fun r => r.grid == g) s

/-! ## The end of a grid (R406) -/

/-- What a quarter keeps when a grid ends. -/
def Quarter.without (q : Quarter) (g : Nat) (teams : List Nat) : Quarter :=
  let bins := q.bins.map fun b => match b with
    | some b => if b.key.grid = g then none else some b
    | none => none
  let waiting := q.waiting.filter fun b => b.key.grid != g
  let run := match q.run with
    | some r => if r.by_.grid = g then none else some r
    | none => none
  match q.holder with
  | some t => if teams.contains t then { q with bins, waiting, run, holder := none, accs := List.replicate 8 Acc.fresh }
              else { q with bins, waiting, run }
  | none => { q with bins, waiting, run }

/-- What a core keeps when a grid ends. -/
def Core.without (c : Core) (g : Nat) (teams : List Nat) : Core :=
  let deque := c.deque.filter fun r => r.grid != g
  let forward := c.forward.filter fun f => !teams.contains f.team
  { c with deque, forward, vacated := if c.vacated = some g then none else c.vacated }

/-- What a die keeps when a grid ends. -/
def Die.without (d : Die) (teams : List Nat) : Die := { d with divert := d.divert.filter fun e => !teams.contains e.2.team }

/-- What a context keeps when a grid ends. -/
def Ctx.without (c : Ctx) (g : Nat) (teams : List Nat) : Ctx :=
  let spill := c.spill.filter fun r => r.2.grid != g
  let shadow := c.shadow.filter fun e => match e.2.2 with
    | .inl t => !teams.contains t
    | .inr sp => sp.grid != g
  { c with spill, shadow }

/-- What a fault domain keeps when a grid ends: its held records are discarded. -/
def Domain.without (d : Domain) (g : Nat) : Domain :=
  let keep : FRec → Bool := fun r => !(r.held && r.grid == some g)
  { d with pending := d.pending.filter keep, outst := d.outst.filter keep,
           handler := if d.handler = some g then none else d.handler }

/-- The state without the teams, crews, commands, records and waiting work of a grid; its cores have been idle from now on (R391). -/
def dropGrid (s : State) (g : Nat) : State :=
  let worked := ((s.teams.filterMap fun e => if e.2.grid = g then some e.2.core else none)
    ++ (s.crews.filterMap fun e => if e.2.grid = g then some e.2.core else none)
    ++ (s.cmds.filterMap fun e => if e.2.by_.grid = g then some e.2.by_.core else none)
    ++ s.cores.filterMap fun e => if e.2.deque.any (fun r => r.grid == g) then some e.1 else none).eraseDups
  let teams := (s.teams.filter fun e => e.2.grid == g).map (·.1)
  let crews := (s.crews.filter fun e => e.2.grid == g).map (·.1)
  let mine : Option (Nat × Nat) → Bool := fun h => match h with | some h => crews.contains h.1 | none => false
  worked.foldl idleNow { s with
    cur := match s.cur with
      | some (.crew u l) => if crews.contains u then none else some (.crew u l)
      | some (.access t) => if teams.contains t then none else some (.access t)
      | none => none
    teams := s.teams.filter fun e => e.2.grid != g
    crews := s.crews.filter fun e => e.2.grid != g
    cmds := s.cmds.filter fun e => e.2.by_.grid != g
    sec := { s.sec with
      attest := s.sec.attest.filter fun n => match tget s.cmds n with | some c => c.by_.grid != g | none => false }
    freds := s.freds.filter fun f => f.grid != g
    pend := s.pend.filter fun p => p.grid != g
    winq := s.winq.filter fun w => w.grid != g
    quarters := s.quarters.map fun e => (e.1, e.2.without g teams)
    cores := s.cores.map fun e => (e.1, e.2.without g teams)
    dies := s.dies.map fun e => (e.1, e.2.without teams)
    ctxs := s.ctxs.map fun e => (e.1, e.2.without g teams)
    domains := s.domains.map fun e => (e.1, e.2.without g)
    lines := s.lines.map fun e => (e.1, if mine e.2.holder then { e.2 with holder := none } else e.2)
    dir := { s.dir with
      serial := if mine s.dir.serial then none else s.dir.serial
      serialAsk := s.dir.serialAsk.filter fun h => !crews.contains h.1 } }

/-- The far writes of a grid that ends go on their way: what is dropped of them is still reported to the grid's fault domain. -/
def keepFar (s : State) (g : Nat) : State :=
  if s.far.any (fun f => f.grid == some g) then
    let d := domainOfGrid s g
    { d.2 with far := d.2.far.map fun f => if f.grid = some g then { f with grid := none, dom := some d.1 } else f }
  else s

/-- A grid ends as `TRET.end` ends it: its teams stop, their open arithmetic error records being written before (R245), its commands
complete in error, its held records are discarded, and its completion object takes STATE 4 and CODE 8 (R337, R406). -/
def endGrid (s : State) (g : Nat) : State :=
  match tget s.grids g with
  | none => s
  | some _ =>
    let s := gridDone (dropGrid (keepFar (flushGrid s g) g) g) g 4 8
    { s with grids := tdel s.grids g }

/-- The grids that report to a fault domain, handler grids included. -/
def gridsOfDomain (s : State) (d : Nat) : List Nat :=
  match tget s.domains d with
  | none => []
  | some dm => (s.grids.filter fun e =>
      e.2.handles == some d || (e.2.handles.isNone && e.2.ctx == dm.ctx
        && (match e.2.zones.head? with | some z => z.fdom == dm.addr | none => false))).map (·.1)

/-- Taking a fault: in a handler crew a region-precise one ends every grid of the domain and adds a HANDLER_FAULT record
(R405); in any other unit it is the exception of R396. -/
def raise (s : State) (u : UnitRef) (pc : Addr) (f : FaultInfo) : State :=
  match tget s.grids (gridOf s u) with
  | none => takeFault s u pc f
  | some g => match g.handles with
    | none => takeFault s u pc f
    | some d =>
      if f.exact then takeFault s u pc f
      else
        let r := { FRec.blank with cause := .handlerFault, addr := f.addr, pc, team := teamIndex s (teamOf s u),
                                   subject := unitIdentity s u }
        let s1 := (gridsOfDomain s d).foldl endGrid s
        let n := takeUid s1
        addRecord n.2 d { r with uid := n.1 }

end Sys2Proof.Machine
end

