-- ==== Sys2Proof/Machine/Operands.lean ====
section
/-! DEFINITION. Operand forms: the classes of specifiers (R62), the registers a specifier names (R38, R39, R43), and reads and
writes of registers with their latencies (R60, R61). A register code is a `g` index, 192 + a `k` index, or 240 + a predicate
index in a crew, and an `a` index in an access thread. -/

namespace Sys2Proof.Machine

open Sys2Proof

/-! ## Classes -/

/-- Operand classes (R62): `quad` is a `.b128` operand (R159), `blk` a block of 16 registers (R349), `kd` the destination of
`MOVK` (R104), `ps` and `pd` a predicate as source and as destination. -/
inductive Cls where
  | v | w | quad | blk | kd | ps | pd | j | f | m | t
  deriving DecidableEq, Repr

/-- One operand of an instruction: its class, its code, and whether it is read. -/
structure Opnd where
  cls  : Cls
  code : Spec
  rd   : Bool
  deriving DecidableEq, Repr

def srcV (c : Spec) : Opnd := { cls := .v, code := c, rd := true }
def srcW (c : Spec) : Opnd := { cls := .w, code := c, rd := true }
def srcP (c : Spec) : Opnd := { cls := .ps, code := c, rd := true }
def dstV (c : Spec) : Opnd := { cls := .v, code := c, rd := false }
def dstW (c : Spec) : Opnd := { cls := .w, code := c, rd := false }
def dstP (c : Spec) : Opnd := { cls := .pd, code := c, rd := false }
/-- A 32-bit or a 64-bit source or destination. -/
def srcX (wide : Bool) (c : Spec) : Opnd := if wide then srcW c else srcV c
def dstX (wide : Bool) (c : Spec) : Opnd := if wide then dstW c else dstV c

/-! ## What a specifier names -/

/-- The registers declared for a crew: general and crew-uniform. -/
structure RegFile where
  g : Nat
  k : Nat
  deriving DecidableEq, Repr

/-- n registers from a code, within a crew's allocation (R43). -/
def crewRange (r : RegFile) (c n : Nat) : Option (List Nat) :=
  if c < 192 then (if c + n ≤ r.g then some ((List.range n).map (c + ·)) else none)
  else if c < 240 then (if c + n ≤ 192 + r.k then some ((List.range n).map (c + ·)) else none)
  else none

/-- The register codes that an operand names in a crew; none where it names no register of its class or one outside the
allocation, which raises ILLEGAL_REG (R43, R62). -/
def crewRegs (r : RegFile) (o : Opnd) : Option (List Nat) :=
  let c := o.code.toNat
  match o.cls with
  | .v => if c = 255 then some [] else crewRange r c 1
  | .w => if c = 255 then some [] else if c % 2 = 0 then crewRange r c 2 else none
  | .quad => if c = 255 then some [] else if c % 4 = 0 then crewRange r c 4 else none
  | .blk => if c % 4 = 0 then crewRange r c 16 else none
  | .kd => if c = 255 then some [] else if c < 192 then none else crewRange r c 1
  | .ps | .pd => if c % 8 = 7 then some [] else some [240 + c % 8]
  | .j | .f | .m | .t => if c < 8 then some [] else none

/-- The register codes that an operand names in an access thread (R43, R62, R87, R159). -/
def apRegs (o : Opnd) : Option (List Nat) :=
  let c := o.code.toNat
  match o.cls with
  | .v | .w | .ps | .pd => if c = 255 then some [] else if c < 32 then some [c] else none
  | .quad => if c = 255 then some [] else if c % 2 = 0 ∧ c < 32 then some [c, c + 1] else none
  | .t => if c < 8 then some [] else none
  | .blk | .kd | .j | .f | .m => none

/-- Whether a P specifier has a set bit that must be zero (R62): [7:4], or the negate bit of a destination. -/
def predField (o : Opnd) : Bool :=
  match o.cls with
  | .ps => o.code.toNat / 16 != 0
  | .pd => o.code.toNat / 8 != 0
  | _ => false

/-- The kernel of a grid. -/
def kernelOf (s : State) (g : Nat) : Option Kernel := match tget s.grids g with | some g => some g.kernel | none => none

/-- The registers declared by a crew's kernel. -/
def regFileOf (s : State) (g : Nat) : RegFile :=
  match kernelOf s g with
  | some k => { g := k.regs, k := k.kregs }
  | none => { g := 0, k := 0 }

/-! ## Reading -/

/-- The bits of a predicate register as a word. -/
def predBit (p : BitVec 7) (i : Nat) : W64 := if p.getLsbD i then 1 else 0

/-- The value of the register with a code in a lane. -/
def Body.reg (b : Body) (lane code : Nat) : W64 :=
  match b with
  | .ap a => a.a.getD code 0
  | .crew c =>
    if code < 192 then (match c.lanes.getD lane none with | some t => (t.g.getD code 0).setWidth 64 | none => 0)
    else if code < 240 then (c.k.getD (code - 192) 0).setWidth 64
    else (match c.lanes.getD lane none with | some t => predBit t.p (code - 240) | none => 0)

/-- The fixed-latency results that a lane may still read too early. -/
def Body.shorts (b : Body) (lane : Nat) : List Short :=
  match b with
  | .ap a => a.short
  | .crew c => (match c.lanes.getD lane none with | some t => t.short | none => [])

/-- The result with a code that is not ready yet at a cycle. -/
def Body.early (b : Body) (clock lane code : Nat) : Option Short :=
  (b.shorts lane).find? fun e => e.reg.toNat == code && decide (clock < e.ready)

/-- What a read at a cycle gives: the register, or, where it is stall-short, either its value or the one before (R61). `seed`
numbers the choice. -/
def Body.see (b : Body) (clock seed lane code : Nat) : W64 :=
  match b.early clock lane code with
  | none => b.reg lane code
  | some e => if Config.freeBool (2 * ((seed * 64 + lane) * 256 + code)) then e.old else b.reg lane code

/-- The issue of an instruction: its unit, group, executing lanes, addresses, cycle, and the cycles that a crew of 64 adds (R59). -/
structure Ex where
  ref   : UnitRef
  body  : Body
  grp   : Group
  exec  : Mask
  pc    : Addr
  next  : Addr
  clock : Nat
  seed  : Nat
  lag   : Nat
  deriving DecidableEq, Repr

/-- A 32-bit source (R62): the low word of an `a` register. -/
def Ex.v (x : Ex) (c : Spec) (l : Nat) : W32 :=
  if c = 255#8 then 0 else (x.body.see x.clock x.seed l c.toNat).setWidth 32

/-- A 64-bit source (R38, R62): a pair, low word first, or a whole `a` register. -/
def Ex.w (x : Ex) (c : Spec) (l : Nat) : W64 :=
  if c = 255#8 then 0
  else if x.body.isAp then x.body.see x.clock x.seed l c.toNat
  else pair64 ((x.body.see x.clock x.seed l c.toNat).setWidth 32) ((x.body.see x.clock x.seed l (c.toNat + 1)).setWidth 32)

/-- A predicate source with its negate bit (R40, R62); in an access thread a register that is true when nonzero (R87). -/
def Ex.p (x : Ex) (c : Spec) (l : Nat) : Bool :=
  if x.body.isAp then (if c = 255#8 then false else (x.body.see x.clock x.seed l c.toNat).setWidth 32 != 0#32)
  else
    let i := c.toNat % 8
    let b := if i = 7 then true else x.body.see x.clock x.seed l (240 + i) != 0
    xor b (c.getLsbD 3)

/-- The lanes that execute. -/
def Ex.lanes (x : Ex) : List Nat := lanesOf x.exec

/-- The lowest executing lane. -/
def Ex.low (x : Ex) : Nat := lowLane x.exec

/-! ## Writing -/

/-- A predicate register with one bit written. -/
def setPred (p : BitVec 7) (i : Nat) (v : Bool) : BitVec 7 := if v then p ||| (1#7 <<< i) else p &&& ~~~(1#7 <<< i)

/-- A note that a result is ready at a cycle, beside the notes that still count. -/
def noteShort (ss : List Short) (clock code : Nat) (old : W64) (ready : Option Nat) : List Short :=
  let keep := ss.filter fun e => decide (clock < e.ready) && e.reg.toNat != code
  match ready with
  | some r => keep ++ [{ reg := BitVec.ofNat 8 code, old, ready := r }]
  | none => keep

/-- A thread with a register of its own written. -/
def Thread.put (t : Thread) (clock code : Nat) (v : W64) (ready : Option Nat) : Thread :=
  if code < 192 then
    { t with g := lset t.g code (v.setWidth 32), short := noteShort t.short clock code ((t.g.getD code 0).setWidth 64) ready }
  else
    { t with p := setPred t.p (code - 240) (v != 0), short := noteShort t.short clock code (predBit t.p (code - 240)) ready }

/-- A unit with the register of a code written in the lanes of a mask; a crew-uniform register takes the value of the lowest
(R39). `own` are the lanes of the issue group that writes: the result of a crew-uniform register is noted in every one of them, since it is
stall-short for them all (R60, R61). -/
def Body.put (b : Body) (m : Mask) (clock code : Nat) (f : Nat → W64) (ready : Option Nat) (own : Mask := m) : Body :=
  match b with
  | .ap a =>
    if m = 0 then b
    else .ap { a with a := lset a.a code (f 0), short := noteShort a.short clock code (a.a.getD code 0) ready }
  | .crew c =>
    if 192 ≤ code ∧ code < 240 then
      if m = 0#64 then b
      else
        let old := (c.k.getD (code - 192) 0).setWidth 64
        .crew { c with
          k := lset c.k (code - 192) ((f (lowLane m)).setWidth 32)
          lanes := c.lanes.mapIdx (fun l t =>
            bif (m ||| own).getLsbD l then t.map (fun t => { t with short := noteShort t.short clock code old ready }) else t) }
    else
      .crew { c with lanes := c.lanes.mapIdx (fun l t =>
        bif m.getLsbD l then t.map (fun t => t.put clock code (f l) ready) else t) }

/-- The unit with a 32-bit result in a V destination (R38, R39, R62). -/
def Body.putV (b : Body) (m : Mask) (clock : Nat) (c : Spec) (f : Nat → W32) (ready : Option Nat) (own : Mask := m) : Body :=
  if c = 255#8 then b else b.put m clock c.toNat (fun l => (f l).setWidth 64) ready own

/-- The unit with a 64-bit result in a W destination. -/
def Body.putW (b : Body) (m : Mask) (clock : Nat) (c : Spec) (f : Nat → W64) (ready : Option Nat) (own : Mask := m) : Body :=
  if c = 255#8 then b
  else if b.isAp then b.put m clock c.toNat f ready
  else (b.put m clock c.toNat (fun l => (lo32 (f l)).setWidth 64) ready own).put m clock (c.toNat + 1)
    (fun l => (hi32 (f l)).setWidth 64) ready own

/-- The unit with a predicate written; `pt` discards (R40), and an access thread's register receives 1 or 0 (R87). -/
def Body.putP (b : Body) (m : Mask) (clock : Nat) (c : Spec) (f : Nat → Bool) (ready : Option Nat) : Body :=
  let v : Nat → W64 := fun l => if f l then 1 else 0
  if b.isAp then (if c = 255#8 then b else b.put m clock c.toNat v ready)
  else if c.toNat % 8 = 7 then b else b.put m clock (240 + c.toNat % 8) v ready

/-- The cycle at which a fixed-latency result can be read (R59, R60). -/
def Ex.ready (x : Ex) (latency : Nat) : Option Nat := some (x.clock + x.lag + latency)

/-- The unit with a fixed-latency result (R60). -/
def Ex.fixV (x : Ex) (lat : Nat) (d : Spec) (f : Nat → W32) : Body := x.body.putV x.exec x.clock d f (x.ready lat) x.grp.mask
def Ex.fixW (x : Ex) (lat : Nat) (d : Spec) (f : Nat → W64) : Body := x.body.putW x.exec x.clock d f (x.ready lat) x.grp.mask
def Ex.fixP (x : Ex) (lat : Nat) (d : Spec) (f : Nat → Bool) : Body := x.body.putP x.exec x.clock d f (x.ready lat)

/-! ## Results of variable latency -/

/-- The register of a code as the destination of a result. -/
def dstOf (ap : Bool) (code : Nat) : Dst :=
  if ap then .a code
  else if code < 192 then .g code
  else if code < 240 then .k (code - 192)
  else .p (code - 240)

/-- The code of a result's register. -/
def Dst.code : Dst → Option Nat
  | .g i => some i
  | .k i => some (192 + i)
  | .p i => some (240 + i)
  | .a i => some i
  | Dst.none => Option.none

/-- The unit with results on their way to the register of a code, in the lanes of a mask; `tag` names the window accesses they wait for, 0
for none. -/
def Body.send (b : Body) (m : Mask) (code tag : Nat) (f : Nat → Option W64) : Body :=
  let ls := match b with
    | .ap _ => if m = 0 then [] else [0]
    | .crew _ => if 192 ≤ code ∧ code < 240 then (lanesOf m).take 1 else lanesOf m
  b.setResults (b.results ++ ls.map fun l => { lane := l, dst := dstOf b.isAp code, val := f l, tag })

def Body.sendV (b : Body) (m : Mask) (c : Spec) (f : Nat → W32) : Body :=
  if c = 255#8 then b else b.send m c.toNat 0 fun l => some ((f l).setWidth 64)
def Body.sendW (b : Body) (m : Mask) (c : Spec) (f : Nat → W64) : Body :=
  if c = 255#8 then b
  else if b.isAp then b.send m c.toNat 0 fun l => some (f l)
  else (b.send m c.toNat 0 fun l => some ((lo32 (f l)).setWidth 64)).send m (c.toNat + 1) 0
    fun l => some ((hi32 (f l)).setWidth 64)
def Body.sendP (b : Body) (m : Mask) (c : Spec) (f : Nat → Bool) : Body :=
  let v : Nat → Option W64 := fun l => some (if f l then 1 else 0)
  if b.isAp then (if c = 255#8 then b else b.send m c.toNat 0 v)
  else if c.toNat % 8 = 7 then b else b.send m (240 + c.toNat % 8) 0 v

/-- A result of variable latency written to its register. -/
def Body.land (b : Body) (r : Result) (v : W64) : Body :=
  match r.dst.code with
  | none => b
  | some c => b.put (1#64 <<< r.lane) 0 c (fun _ => v) none

/-- Every result of a unit that has its value written, the others kept (R60). -/
def Body.landAll (b : Body) : Body :=
  let rest := b.results.filter fun r => r.val.isNone
  (b.results.foldl (fun b r => match r.val with | some v => b.land r v | none => b) b).setResults rest

/-- The cycle until which a fixed-latency result for one of the codes keeps the lanes of a mask back: one for a crew-uniform register that another
issue group of the crew has written (R60). Lanes that bear the note themselves belong to the group that wrote it. -/
def Body.uniformUntil (b : Body) (m : Mask) (clock : Nat) (codes : List Nat) : Option Nat :=
  match b with
  | .ap _ => none
  | .crew c =>
    let others := (List.range c.width).filter fun l => !m.getLsbD l
    let notes := (others.map b.shorts).flatten.filter fun e =>
      decide (192 ≤ e.reg.toNat) && decide (e.reg.toNat < 240) && decide (clock < e.ready) && codes.contains e.reg.toNat
        && !((lanesOf m).all fun l => (b.shorts l).contains e)
    (notes.map (·.ready)).max?

/-- Whether a result for one of the codes is on its way, in the lanes of a mask. -/
def Body.awaits (b : Body) (m : Mask) (codes : List Nat) : Bool :=
  b.results.any fun r => match r.dst with
    | .k i => codes.contains (192 + i)
    | d => m.getLsbD r.lane && (match d.code with | some c => codes.contains c | none => false)

end Sys2Proof.Machine
end

