-- ==== Sys2Proof/Machine/TxCore.lean ====
section
/-! DEFINITION. Transactions: the logs (R209 to R211), validation (R216), aborts and their fates (R218, R219), the status word (R225), and a
fault met inside a transaction (R221). -/

namespace Sys2Proof.Machine

open Sys2Proof

/-! ## Log entries (R210) -/

/-- A log entry: the bytes or version, the mask of bytes stored, the word's (or line's) address, and the kind. -/
structure LogEntry where
  data : W64
  mask : BitVec 8
  addr : Nat
  kind : Nat
  deriving DecidableEq, Repr

def LogEntry.ofNat (v : Nat) : LogEntry :=
  { data := BitVec.ofNat 64 (v / 2 ^ 64), mask := BitVec.ofNat 8 (v / 2 ^ 56), addr := v / 8 % 2 ^ 52 * 8, kind := v % 8 }
def LogEntry.toNat (e : LogEntry) : Nat :=
  e.data.toNat * 2 ^ 64 + e.mask.toNat * 2 ^ 56 + e.addr / 8 % 2 ^ 52 * 8 + e.kind % 8

/-- A thread's log area: the team whose scratchpad holds it, the offset of its first entry, and its read and write entries
(R209). A spawned thread's logs have no entries. -/
structure LogArea where
  team : Nat
  off  : Nat
  nr   : Nat
  nw   : Nat
  deriving DecidableEq, Repr

def logArea (s : State) (c : Crew) (t : Thread) : LogArea :=
  match c.owner, kernelOf s c.grid with
  | .team tm, some k =>
    { team := tm, off := k.scratch + t.tid * (k.logsR + k.logsW) * 16, nr := k.logsR, nw := k.logsW }
  | .team tm, none => { team := tm, off := 0, nr := 0, nw := 0 }
  | .pool _, _ => { team := 0, off := 0, nr := 0, nw := 0 }

/-- One entry of a log. -/
def logGet (s : State) (a : LogArea) (i : Nat) : LogEntry := LogEntry.ofNat (ofBytes (padRead s a.team (a.off + 16 * i) 16).1)
/-- One entry of a log written. -/
def logPut (s : State) (a : LogArea) (i : Nat) (e : LogEntry) : State :=
  padWrite s a.team (a.off + 16 * i) (toBytes 16 e.toNat)

/-- The read entries and the write entries in use. -/
def readLog (s : State) (c : Crew) (t : Thread) : List LogEntry :=
  (List.range t.tx.rused).map fun i => logGet s (logArea s c t) i
def writeLog (s : State) (c : Crew) (t : Thread) : List LogEntry :=
  let a := logArea s c t
  (List.range t.tx.wused).map fun i => logGet s a (a.nr + i)

/-! ## Status (R225) -/

/-- ABORTS of the status: the abort count, or outside a transaction the count that a returned abort left (R218, R225). -/
def Tx.aborts (t : Tx) : Nat := if t.k = 0 then t.shown else t.k

/-- The status word. -/
def Tx.status (t : Tx) : W32 :=
  BitVec.ofNat 32 ((if t.active then t.rused * 2 ^ 25 + t.wused * 2 ^ 19 else 0) + t.code.toNat * 2 ^ 12 + min t.aborts 15 * 2 ^ 8
    + t.cause.toNat * 2 ^ 4 + (if t.ts then 8 else 0) + (if t.irrev then 4 else 0) + (if t.isSpec then 2 else 0)
    + (if t.active then 1 else 0))

/-- A thread outside any transaction. -/
def Tx.fresh : Tx :=
  { active := false, isSpec := false, ts := false, irrev := false, cause := 0, code := 0, k := 0, shown := 0, dReg := 0xFF, after := 0,
    dom := 0, iter := 0, rused := 0, wused := 0, checkAt := 0, lines := [] }

/-! ## Validation (R216) -/

/-- Whether one read entry still holds. -/
def entryValid (s : State) (me : Nat × Nat) (ctx : Nat) (e : LogEntry) : Bool :=
  match placeOf s ctx none none e.addr with
  | .ok (.dev pa) =>
    !heldByOther s me (pa / 128)
      && (if e.kind = 1 then BitVec.ofNat 64 (ofBytes (cellsRead s.mem (pa / 8 * 8) 8)) == e.data
          else (lineAt s (pa / 128)).version == e.data.setWidth 32 && (tget s.lines (pa / 128)).isSome)
  | _ => false

/-- Whether a thread's read set still holds. -/
def validates (s : State) (uid lane : Nat) : Bool :=
  match tget s.crews uid with
  | none => true
  | some c => match c.lanes.getD lane none with
    | none => true
    | some t => (readLog s c t).all (entryValid s (uid, lane) c.ctx)

/-! ## Aborts (R218, R219) -/

/-- Abort causes (R218). -/
inductive TxCause where
  | intra | conflict | capacity | explicit | instr | preempt | fault | order | stale
  deriving DecidableEq, Repr

def TxCause.code : TxCause → Nat
  | .intra => 1 | .conflict => 2 | .capacity => 3 | .explicit => 4 | .instr => 5 | .preempt => 6 | .fault => 7
  | .order => 8 | .stale => 9

/-- Where an aborted thread goes on: after its `TXOPEN`, at its region entry after a wait of some cycles, or where it stands. -/
inductive Fate where
  | returned
  | retried (wait : Nat)
  | stays
  deriving DecidableEq, Repr

/-- The abort count after an abort. -/
def TxCause.count (x : TxCause) (k : Nat) : Nat :=
  match x with
  | .intra | .conflict | .order => k + 1
  | .capacity => max (k + 1) 9
  | .explicit | .instr | .stale => 0
  | .preempt | .fault => k

/-- The back-off of R219. -/
def backoff (k : Nat) : Nat := 64 * 2 ^ min (k - 1) 6

/-- The fate of an abort; `EXIT` and `REFORM` go on where they stand. -/
def TxCause.fate (x : TxCause) (k : Nat) (leaving : Bool) : Fate :=
  match x with
  | .intra | .conflict | .capacity => .retried (backoff (x.count k))
  | .order | .preempt => .retried 0
  | .explicit | .stale => .returned
  | .instr => if leaving then .stays else .returned
  | .fault => .stays

/-- A thread's transaction after an abort: both logs discarded, CAUSE set; where the abort count goes back to 0 the status keeps it, the abort
included (R218, R225). The bytes of both logs stay as the transaction left them, where R209 gives them no value (log 53). -/
def Tx.abort (t : Tx) (x : TxCause) (code : Option (BitVec 7)) : Tx :=
  let kept := match x with | .explicit | .instr | .stale => true | _ => false
  { t with active := false, irrev := false, cause := BitVec.ofNat 4 x.code, k := x.count t.k, rused := 0, wused := 0
           code := code.getD t.code, shown := if kept then t.k + 1 else t.shown }

/-- A crew with the aborts of some lanes done to its threads. A returned one's D takes the status word in place of any result on its way
there; every other abort keeps what is on its way (R212, R214, R225). -/
def abortThreads (c : Crew) (m : Mask) (x : TxCause) (code : Option (BitVec 7)) (leaving : Bool) : Crew :=
  (lanesOf m).foldl (fun c l =>
    match c.lanes.getD l none with
    | none => c
    | some t =>
      let tx := t.tx.abort x code
      let c := { c with lanes := lset c.lanes l (some { t with tx }) }
      match x.fate t.tx.k leaving with
      | .returned =>
        let c := { c with results := c.results.filter fun r => !(r.lane == l && r.dst.code == some t.tx.dReg.toNat) }
        (match (Body.crew c).putV (1#64 <<< l) 0 t.tx.dReg (fun _ => tx.status) none with
        | .crew c => c
        | .ap _ => c)
      | _ => c) c

/-- A group's lanes of a mask moved out into groups of their own, each where `place` puts it: an address and the cycle to wait for. -/
def moveOut (c : Crew) (low : Nat) (m : Mask) (place : Nat → Addr × Option Nat) (i : Option Instr) (clock : Nat) : Crew :=
  match c.groups.find? (fun g => lowLane g.mask == low) with
  | none => c
  | some g =>
    let ls := lanesOf (g.mask &&& m)
    let outs := (ls.map place).eraseDups.map fun p =>
      ({ g with
        mask := maskOf (ls.filter fun l => place l == p)
        pc := p.1
        wait := p.2.map fun n => { obj := .backoff n, instr := i, since := clock, probe := clock + 65536 }
        since := clock, notBefore := clock, waitDone := false, served := 0, op := none, packets := [], inPlay := false, parked := clock } : Group)
    let rest := { g with mask := g.mask &&& ~~~m }
    let outs := match outs with
      | o :: r => if rest.mask = 0#64 then { o with inPlay := g.inPlay } :: r else outs
      | [] => []
    { c with groups := (outs ++ [rest]).filter (fun g => g.mask != 0) ++ c.groups.filter fun g => lowLane g.mask != low }

/-- The lanes of a mask whose threads are in a transaction or speculation. -/
def txLanes (c : Crew) (m : Mask) : Mask :=
  maskOf ((lanesOf m).filter fun l => match c.lanes.getD l none with | some t => t.tx.active | none => false)

/-- The lanes of a mask whose threads run irrevocably. -/
def irrevLanes (c : Crew) (m : Mask) : Mask :=
  maskOf ((lanesOf m).filter fun l => match c.lanes.getD l none with | some t => t.tx.active && t.tx.irrev | none => false)

/-- Lanes of an issue group abort: their threads leave the transaction and the lanes that do not stay leave the group (R215, R218). -/
def abortLanes (s : State) (uid low : Nat) (m : Mask) (x : TxCause) (code : Option (BitVec 7)) (leaving : Bool) : State :=
  match tget s.crews uid with
  | none => s
  | some c =>
    let place : Nat → Addr × Option Nat := fun l =>
      match c.lanes.getD l none with
      | none => (0, none)
      | some t => match x.fate t.tx.k leaving with
        | .returned => (t.tx.after, none)
        | .retried 0 => (t.entry, none)
        | .retried n => (t.entry, some (s.clock + n))
        | .stays => (0, none)
    let c1 := abortThreads c m x code leaving
    let stays := leaving || x == .fault
    let c2 := if stays then c1 else moveOut c1 low m place none s.clock
    { s with crews := tset s.crews uid c2,
             cur := if !stays && s.cur == some (.crew uid low) then none else s.cur }

/-- A thread's irrevocable attempt gives up its lines and the serial-commit token (R220). -/
def endIrrevocable (s : State) (uid lane : Nat) : State :=
  { s with
    lines := s.lines.map fun e => (e.1, if e.2.holder = some (uid, lane) then { e.2 with holder := none } else e.2)
    dir := { s.dir with
      serial := if s.dir.serial = some (uid, lane) then none else s.dir.serial
      serialAsk := s.dir.serialAsk.filter fun h => h != (uid, lane) } }

/-! ## Faults (R221) -/

/-- A unit's fault, with what a transaction makes of it: a lane in a transaction that fails validation aborts with CONFLICT and
no fault is raised; otherwise the group's transactions abort with FAULT and the fault is raised, or, in an irrevocable attempt,
it is precise to the instruction (R221). Lanes that must resume elsewhere than the lanes of the record do so in a group of their own: aborted
ones at their region's entry, irrevocable ones at the instruction. `gm` is the group's mask. -/
def faultUnit (s : State) (u : UnitRef) (gm : Mask) (pc : Addr) (f : FaultInfo) : State :=
  match u with
  | .access _ => raise s u pc f
  | .crew uid low =>
    match tget s.crews uid with
    | none => s
    | some c =>
      let irr := irrevLanes c gm
      let open_ := txLanes c gm &&& ~~~irr
      if open_ = 0#64 ∧ irr = 0#64 then raise s u pc f
      else
        let stale := maskOf ((lanesOf (open_ &&& f.mask)).filter fun l => !validates s uid l)
        if stale != 0 then abortLanes s uid low stale .conflict none false
        else
          let s := abortLanes s uid low open_ .fault none false
          let exact := f.exact || (irr &&& f.mask) != 0 || (irr != 0 && gm &&& ~~~irr == 0)
          let out := if irr = 0#64 then 0#64 else if exact then open_ else irr
          let place : Nat → Addr × Option Nat := fun l =>
            (if exact then (match c.lanes.getD l none with | some t => t.entry | none => pc) else pc, none)
          if out = 0#64 then raise s u pc { f with exact }
          else
            let s := modCrew s uid fun c => moveOut c low out place none s.clock
            let v := UnitRef.crew uid (lowLane (gm &&& ~~~out))
            let s := raise { s with cur := if s.cur = some u then some v else s.cur } v pc { f with exact, mask := f.mask &&& ~~~out }
            { s with cur := if s.cur = some v then none else s.cur }

end Sys2Proof.Machine
end

