-- ==== Sys2Proof/Machine/Flags.lean ====
section
/-! DEFINITION. What instructions compute beside a result: predicates of comparisons (R94), saturation (R89), and arithmetic events with their log
and traps (R244, R245). -/

namespace Sys2Proof.Machine

open Sys2Proof

/-! ## Comparison and saturation -/

/-- An integer comparison (R94). -/
def icmpHolds (c : ICmp) (sg : Bool) (a b : W32) : Bool :=
  let lt := if sg then a.slt b else a.ult b
  match c with
  | .eq => a == b
  | .ne => a != b
  | .lt => lt
  | .le => lt || a == b
  | .gt => !(lt || a == b)
  | .ge => !lt

/-- `sat_s32` of R89. -/
def satS32 (x : Int) : W32 := wrap32 (max (-(2 ^ 31)) (min (2 ^ 31 - 1) x))
/-- `sat_s64` of R89. -/
def satS64 (x : Int) : W64 := wrap64 (max (-(2 ^ 63)) (min (2 ^ 63 - 1) x))
/-- A value clamped to a range (R107). -/
def clampTo (lo hi x : Int) : Int := max lo (min hi x)

/-- The bit of a function table that three bits select: A has weight 1, B 2 and C 4 (R96). -/
def tableBit (ft : BitVec 8) (a b c : Bool) : Bool := ft.getLsbD (a.toNat + 2 * b.toNat + 4 * c.toNat)

/-! ## Arithmetic events (R244, R245) -/

/-- Events of an instruction: a cause and the lanes that met it. -/
abbrev Events := List (Arith × Mask)

/-- The events of lanes that each meet some causes: one a cause. DESIGN CHOICE (log 54): the cause of the lowest raising lane enters the buffer
first; R246 leaves the order of records open. -/
def eventsOf (ls : List Nat) (f : Nat → List Arith) : Events :=
  let causes := ((ls.map f).flatten).eraseDups
  causes.map fun c => (c, maskOf (ls.filter fun l => (f l).contains c))

/-- The trap that events take, if any: the lowest selected cause that can trap (R244). -/
def trapOf (r : CtlRegs) (evs : Events) : Option (Arith × Mask) :=
  if !r.sctl.getLsbD 1 then none
  else
    let sel := evs.filter fun e => e.2 != 0#64 && e.1 != .fredClamp && r.atrap.getLsbD e.1.code
    sel.foldl (fun best e => match best with
      | none => some e
      | some b => if e.1.code < b.1.code then some e else some b) none

/-- Whether an event falls to an open record. -/
def AeRec.takes (o r : AeRec) : Bool :=
  o.ctx == r.ctx && o.cause == r.cause && o.pc == r.pc && o.team == r.team && o.crew == r.crew && o.engine == r.engine

/-- An event put into a core's coalescing buffer: merged into the record it matches, or in a record of its own, the oldest open record being
written where four are open (R245). -/
def aeNote (s : State) (core : Nat) (r : AeRec) : State :=
  let c := coreAt s core
  if c.aebuf.any (fun o => o.takes r) then
    let merge : AeRec → AeRec := fun o =>
      if o.takes r then { o with lanes := o.lanes ||| r.lanes, count := min (o.count + 1) (2 ^ 32 - 1) } else o
    setCore s core { c with aebuf := c.aebuf.map merge }
  else if c.aebuf.length < 4 then setCore s core { c with aebuf := c.aebuf ++ [r] }
  else match c.aebuf with
    | [] => setCore s core { c with aebuf := [r] }
    | o :: rest =>
      let s := setCore s core { c with aebuf := rest ++ [r] }
      aelogWrite s o

/-- The record that an event of an issuing unit opens. DESIGN CHOICE (log 54): PC is always the raising instruction, with EXACT 1; R245 allows one
of the 15 before it as well. -/
def aeOf (s : State) (u : UnitRef) (pc : Addr) (cause : Arith) (m : Mask) : AeRec :=
  { ctx := ctxOf s u, grid := gridOf s u, subject := unitIdentity s u, cause, lanes := m, count := 1,
    team := teamIndex s (teamOf s u), pc, core := coreOf s u,
    crew := match u with
      | .crew uid _ => (match tget s.crews uid with | some c => c.num | none => 0)
      | .access _ => 0x3FF
    ap := match u with | .access _ => true | .crew _ _ => false
    exact := true, engine := false, stamp := BitVec.ofNat 32 (coreClock s (coreOf s u)), opened := s.clock }

/-- `log_arith` of R89 for the events of an instruction that a unit executes. -/
def logEvents (s : State) (u : UnitRef) (pc : Addr) (evs : Events) : State :=
  evs.foldl (fun s e => if e.2 = 0#64 then s else aeNote s (coreOf s u) (aeOf s u pc e.1 e.2)) s

end Sys2Proof.Machine
end

