-- ==== Sys2Proof/Machine/Graph.lean ====
section
/-! DEFINITION. MX quantisation of a block (R235, R284), and the evaluation of a stream graph over one packet (R295 to R299, R303 to R305). -/

namespace Sys2Proof.Machine

open Sys2Proof

/-! ## MX blocks -/

/-- The element kinds of an MX block: a floating format, or the MXINT8 element. -/
inductive MxElem where
  | flt (f : FloatFmt)
  | int8
  deriving DecidableEq, Repr

/-- emax of R284. -/
def MxElem.emax : MxElem → Int
  | .int8 => 0
  | .flt f => if f = fE4M3 then 8 else if f = fE5M2 then 15 else if f = fE3M2 then 4 else 2

def MxElem.bits : MxElem → Nat
  | .int8 => 8
  | .flt f => 1 + f.eb + f.mb

/-- An MXINT8 element from its exact value times 64 (R284): rounded by mode and clamped. -/
def mxInt8 (rnd : Rnd) (draw : Nat) (neg : Bool) (n : Nat) (e : Int) : Nat :=
  let z : Int :=
    if rnd = .sr then
      if 0 ≤ e then (if neg then -((n * 2 ^ e.natAbs : Nat) : Int) else ((n * 2 ^ e.natAbs : Nat) : Int))
      else
        let v : Int := if neg then -(n : Int) else n
        let lo := v.fdiv (2 ^ e.natAbs)
        let frac := (v.fmod (2 ^ e.natAbs)) * 65536 / 2 ^ e.natAbs
        if (draw : Int) < frac then lo + 1 else lo
    else
      let m : Int := roundInt rnd draw neg n e
      if neg then -m else m
  (BitVec.ofInt 8 (clampInt 8 z).1).toNat

/-- One element of a block under a scale code. -/
def mxElement (el : MxElem) (rnd : Rnd) (draw : Nat) (scale : Nat) (x : Num) : Nat :=
  match el, x with
  | _, .nan => 0
  | .flt f, .inf neg => f.signed neg f.maxCode
  | .int8, .inf neg => if neg then 0x80 else 0x7F
  | .flt f, .fin neg n e => (roundNum f rnd true draw (.fin neg n (e - ((scale : Int) - 127)))).1
  | .int8, .fin neg n e => mxInt8 rnd draw neg n (e - ((scale : Int) - 127) + 6)

/-- The scale of a block without a NaN (R284). -/
def mxScale (el : MxElem) (xs : List Num) : Nat :=
  let tops := xs.filterMap fun x => match x with
    | .fin _ n e => if n = 0 then none else some ((Nat.log2 n : Int) + e)
    | _ => none
  match tops with
  | [] => 0
  | t :: r =>
    let top := r.foldl max t
    (clampTo 0 254 (top - el.emax + 127)).toNat

/-- A block quantised: its scale, its element codes, whether it is special, and the generator after it (R284). -/
def mxQuantise (el : MxElem) (rnd : Rnd) (gen : W32) (codes : List Nat) : Nat × List Nat × Bool × W32 :=
  let xs := codes.map fp32.value
  let steps : List W32 := (List.range codes.length).map fun i => (List.range (i + 1)).foldl (fun g _ => lfsrStep g) gen
  let last := if rnd = .sr then steps.getLastD gen else gen
  if xs.any Num.isNan then (255, List.replicate codes.length 0, true, last)
  else
    let sc := mxScale el xs
    let els := (xs.zip steps).map fun p => mxElement el rnd (lfsrDraw p.2) sc p.1
    (sc, els, xs.any (fun x => match x with | .inf _ => true | _ => false), last)

/-- The exact FP32 code of an MX element under its scale, as a number (R235). -/
def mxValue (el : MxElem) (scale code : Nat) : Num :=
  if scale = 255 then .nan
  else
    let v : Num := match el with
      | .flt f => f.value code
      | .int8 => ofIntExp (intOf 8 code) (-6)
    match v with
    | .fin neg n e => .fin neg n (e + ((scale : Int) - 127))
    | v => v

/-! ## Vectors -/

/-- Element i of a vector held as a number. -/
def elemAt (bits v i : Nat) : Nat := v / 2 ^ (bits * i) % 2 ^ bits
/-- A vector from its elements. -/
def vecOf (bits : Nat) : List Nat → Nat
  | [] => 0
  | e :: es => e % 2 ^ bits + 2 ^ bits * vecOf bits es
/-- The elements of a 64-byte vector. -/
def elemsOf (bits v : Nat) : List Nat := (List.range (512 / bits)).map (elemAt bits v)

/-- The element format of a graph type code (R296); none for INT16. -/
def gFmt : Nat → Option Fmt
  | 0 => some .fp32 | 1 => some .fp16 | 2 => some .bf16 | 3 => some .e4m3 | 4 => some .e5m2 | 7 => some .e2m1
  | 8 => some .int32 | 10 => some .int8 | 11 => some .int4 | 12 => some .e8m0 | _ => none

/-- Width in bits of a graph type. -/
def gBits (ty : Nat) : Nat := match gFmt ty with | some f => f.bits | none => 16
/-- Whether a graph type is an integer type. -/
def gInt (ty : Nat) : Bool := match gFmt ty with | some f => f.isInt | none => true
/-- The float format of a graph type. -/
def gFlt (ty : Nat) : FloatFmt := match gFmt ty with | some f => fltOf f | none => fp32
/-- A subnormal operand of a 16-bit type is read as zero (R240, R299). -/
def gIn (ty c : Nat) : Nat := if ty = 1 ∨ ty = 2 then (gFlt ty).flush c else c
/-- The integer an element stands for. -/
def gIntVal (ty : Nat) (uns : Bool) (c : Nat) : Int := if uns then c else (BitVec.ofNat (gBits ty) c).toInt
/-- The exact value of an element. -/
def gValue (ty : Nat) (uns : Bool) (c : Nat) : Num :=
  if gInt ty then ofIntExp (gIntVal ty uns c) 0
  else if ty = 12 then e8m0Value c else (gFlt ty).value (gIn ty c)

/-- An integer result: wrapped, or clamped with SAT (R299). -/
def gIntOut (ty : Nat) (sat uns : Bool) (z : Int) : Nat :=
  let n := gBits ty
  let z := if sat then (if uns then clampTo 0 (2 ^ n - 1) z else (clampInt n z).1) else z
  (BitVec.ofInt n z).toNat

/-- A float result with its event (R299). -/
def gFltOut (ty : Nat) (r : Nat × Option Arith) : Nat × Option Arith :=
  (if ty = 1 ∨ ty = 2 then (gFlt ty).flush r.1 else r.1, r.2)

/-- Rounding code of a node (R237). -/
def rndOf : Nat → Rnd
  | 1 => .rz | 2 => .ru | 3 => .rd | _ => .rne

/-- The comparison of a code (R252). -/
def cmpOf : Nat → FCmp
  | 0 => .eq | 1 => .ne | 2 => .lt | 3 => .le | 4 => .gt | 5 => .ge | 6 => .un | _ => .ord

/-- A comparison of two elements (R298). -/
def gCmp (ty : Nat) (uns : Bool) (cmp : FCmp) (a b : Nat) : Bool :=
  if gInt ty then
    let x := gIntVal ty uns a
    let y := gIntVal ty uns b
    match cmp with
    | .eq => x == y | .ne => x != y | .lt => decide (x < y) | .le => decide (x ≤ y) | .gt => decide (y < x)
    | .ge => decide (y ≤ x) | .un => false | .ord => true
  else fCompare (gFlt ty) cmp (gIn ty a) (gIn ty b)

/-- The element-wise operations 0x01 to 0x0F (R298). -/
def gElem (n : Node) (a b c : Nat) : Nat × Option Arith :=
  let ty := n.ty
  let bits := gBits ty
  let rnd := rndOf n.rnd
  let f := gFlt ty
  let int : Int → Nat × Option Arith := fun z => (gIntOut ty n.sat n.uns z, none)
  let va := gIntVal ty n.uns a
  let vb := gIntVal ty n.uns b
  let vc := gIntVal ty n.uns c
  let signBit := 2 ^ (bits - 1)
  match n.op with
  | 1 => if gInt ty then int (va + vb) else gFltOut ty (fAdd f rnd (gIn ty a) (gIn ty b))
  | 2 => if gInt ty then int (va - vb)
         else gFltOut ty (finish f rnd ((f.value (gIn ty a)).add rnd (f.value (gIn ty b)).neg))
  | 3 => if gInt ty then int (va * vb) else gFltOut ty (fMul f rnd (gIn ty a) (gIn ty b))
  | 4 => if gInt ty then int (va * vb + vc) else gFltOut ty (fFma f rnd (gIn ty a) (gIn ty b) (gIn ty c))
  | 5 => if gInt ty then (if vb < va then b else a, none) else (fMinMax f false false (gIn ty a) (gIn ty b), none)
  | 6 => if gInt ty then (if va < vb then b else a, none) else (fMinMax f true false (gIn ty a) (gIn ty b), none)
  | 7 => if gInt ty then int (if va < 0 then -va else va) else (gIn ty a % signBit, none)
  | 8 => if gInt ty then int (-va) else ((gIn ty a + signBit) % 2 ^ bits, none)
  | 9 => (if gCmp ty n.uns (cmpOf (n.imm.toNat % 8)) a b then 2 ^ bits - 1 else 0, none)
  | 10 => (if a ≠ 0 then b else c, none)
  | 11 => (a &&& b, none)
  | 12 => (a ||| b, none)
  | 13 => (a ^^^ b, none)
  | 14 => (if bits ≤ b then 0 else a * 2 ^ b % 2 ^ bits, none)
  | 15 => ((BitVec.ofInt bits (va.fdiv (2 ^ min b bits))).toNat, none)
  | _ => (0, none)

/-- A conversion between graph types (R298): of an integer to an integer, wrapped, or clamped with SAT (R299). -/
def gConvert (src dst : Nat) (rnd : Rnd) (sat uns : Bool) (c : Nat) : Nat × Option Arith :=
  let x := if gInt src then ofIntExp (gIntVal src uns c) 0 else if src = 12 then e8m0Value c else (gFlt src).value c
  if gInt src && gInt dst then (gIntOut dst sat uns (gIntVal src uns c), none)
  else if gInt dst then
    let r := toInt rnd 0 (gBits dst) x
    ((BitVec.ofInt (gBits dst) r.1).toNat, r.2)
  else match gFmt dst with
    | some .e8m0 => toE8m0 rnd x
    | some f =>
      let wide := match gFmt src with | some g => g.widens f | none => false
      toFloat f wide rnd sat 0 x
    | none => (0, none)

/-- The blocks of `BSUM` and `BMAX`: lists of 32 source elements (R298). -/
def gBlocks (src a b : Nat) : List (List Nat) :=
  let bits := gBits src
  if bits = 32 then [elemsOf 32 a ++ elemsOf 32 b]
  else if bits = 16 then [elemsOf 16 a]
  else [(elemsOf 8 a).take 32, (elemsOf 8 a).drop 32]

/-- The exact sum of a block of floats; none where it meets infinities of both signs. -/
def exactSum : List Num → Option Num
  | [] => some (.fin false 0 0)
  | x :: xs => xs.foldl (fun acc y => match acc with | some v => v.add .rne y | none => none) (some x)

/-- `BSUM` of one block into its result type. -/
def gBsum (n : Node) (src : Nat) (xs : List Nat) : Nat × Option Arith :=
  if gInt n.ty then (gIntOut n.ty n.sat n.uns (xs.foldl (fun z c => z + gIntVal src n.uns c) 0), none)
  else
    let vs := xs.map (gValue src n.uns)
    if vs.any Num.isNan then (fp32.nanCode, none) else finish fp32 .rne (exactSum vs)

/-- The value with its sign dropped. -/
def numAbs : Num → Num
  | .nan => .nan
  | .inf _ => .inf false
  | .fin _ n e => .fin false n e

/-- `BMAX` of one block: the greatest element, a NaN losing to any number, or the greatest magnitude with U. -/
def gBmax (n : Node) (src : Nat) (xs : List Nat) : Nat × Option Arith :=
  let vs := xs.map fun c => if n.uns then numAbs (gValue src false c) else gValue src false c
  if gInt n.ty then
    let zs := xs.map fun c => let v := gIntVal src false c; if n.uns ∧ v < 0 then -v else v
    (gIntOut n.ty n.sat false (match zs with | [] => 0 | z :: r => r.foldl max z), none)
  else
    let best : Num := vs.foldl (fun m v => match m, v with
      | .nan, v => v
      | m, .nan => m
      | m, v => if m.cmp v < 0 ∨ (m.cmp v = 0 ∧ m.isNeg) then v else m) .nan
    ((roundNum fp32 .rne false 0 best).1, none)

/-- The MX element kind of a graph type. -/
def gMx : Nat → MxElem
  | 3 => .flt fE4M3 | 4 => .flt fE5M2 | 7 => .flt fE2M1 | _ => .int8

/-- CRC-32C of bytes (R298). -/
def crc32c (bs : List Byte) : Nat :=
  let step : Nat → Nat := fun c => if c % 2 = 1 then c / 2 ^^^ 0x82F63B78 else c / 2
  let byte : Nat → Byte → Nat := fun c b => (List.range 8).foldl (fun c _ => step c) (c ^^^ b.toNat)
  bs.foldl byte 0xFFFFFFFF ^^^ 0xFFFFFFFF

/-- A source of a node of a type as a 64-byte vector: a constant fills every element of the node's type, whatever type its operation reads (R296). -/
def gSource (b : Binding) (inputs results : List Nat) (ty sel : Nat) : Nat :=
  if sel < 4 then inputs.getD sel 0
  else if 16 ≤ sel ∧ sel < 48 then results.getD (sel - 16) 0
  else if 64 ≤ sel ∧ sel < 128 then
    let w := (b.consts.getD (sel - 64) 0).toNat
    vecOf (gBits ty) (List.replicate (512 / gBits ty) w)
  else 0

/-- The result of one node, with its events (R298). -/
def evalNode (b : Binding) (inputs results : List Nat) (n : Node) : Nat × List Arith :=
  let imm := n.imm.toNat
  let bits := gBits n.ty
  let src := gSource b inputs results n.ty
  let va := src n.srca
  let vb := src n.srcb
  let vc := src n.srcc
  let pack : List (Nat × Option Arith) → Nat × List Arith := fun rs =>
    (vecOf bits (rs.map (·.1)), (rs.filterMap (·.2)).eraseDups)
  if n.op ≤ 15 then
    pack ((List.range (512 / bits)).map fun i => gElem n (elemAt bits va i) (elemAt bits vb i) (elemAt bits vc i))
  else match n.op with
  | 0x10 =>
    let t := match b.luts.find? (fun t => t.1 == imm % 4) with | some t => t.2 | none => []
    (vecOf bits ((elemsOf bits va).map fun e => (t.getD (e % 256) 0).toNat), [])
  | 0x11 => let s := imm % 16; pack ((gBlocks s va vb).map (gBsum n s))
  | 0x12 => let s := imm % 16; pack ((gBlocks s va vb).map (gBmax n s))
  | 0x13 =>
    let el := gMx n.ty
    let xs := elemsOf 32 va ++ elemsOf 32 vb
    let q := mxQuantise el (rndOf n.rnd) 1 xs
    (vecOf el.bits q.2.1 + 2 ^ (32 * el.bits) * q.1, if q.2.2.1 then [.quantSpecial] else [])
  | 0x14 =>
    let st := imm % 16
    let part := imm / 16 % 4
    let sb := gBits st
    let e := 512 / bits
    let e' := 512 / sb
    let conv := gConvert st n.ty (rndOf n.rnd) n.sat n.uns
    if sb ≤ bits then pack ((List.range e).map fun i => conv (elemAt sb va (part * e + i)))
    else pack ((List.range e).map fun i =>
      if part * e' ≤ i ∧ i < part * e' + e' then conv (elemAt sb va (i - part * e')) else (elemAt bits vc i, none))
  | 0x15 =>
    let c := imm % 64
    let pat : Nat → Nat := fun i => (b.consts.getD (c + i / 4) 0).toNat / 2 ^ (8 * (i % 4)) % 256
    (vecOf 8 ((List.range 64).map fun i =>
      let p := pat i
      if 128 ≤ p then 0 else if p < 64 then elemAt 8 va p else elemAt 8 vb (p - 64)), [])
  | 0x16 => (crc32c (toBytes 64 va), [])
  | 0x17 =>
    let el := gMx (imm % 16)
    let v := va
    let h := imm % 2
    let scale := v / 2 ^ (32 * el.bits) % 256
    -- exact but beyond the greatest FP32 value, which R299 rounds once with its event
    pack ((List.range 16).map fun i =>
      finish fp32 (rndOf n.rnd) (some (mxValue el scale (elemAt el.bits v (16 * h + i)))))
  | _ => (0, [])

/-- A graph over one packet: nodes in ascending index, each output slice from the node that writes it (R297). -/
def runGraph (b : Binding) (input : List Byte) (outLen : Nat) : List Byte × List Arith :=
  let inputs := (List.range 4).map fun i => ofBytes ((input.drop (64 * i)).take 64)
  let r := b.nodes.foldl (fun acc n =>
    let e := evalNode b inputs acc.1 n
    (acc.1 ++ [e.1 % 2 ^ 512], acc.2 ++ e.2)) (([], []) : List Nat × List Arith)
  let slice : Nat → List Byte := fun k =>
    match (b.nodes.zip r.1).find? (fun p => p.1.dst == k + 1) with
    | some p => toBytes 64 p.2
    | none => List.replicate 64 0
  (((List.range 4).map slice).flatten.take outLen, r.2.eraseDups)

/-- Stored bytes of a granule (R295, R303). -/
def storedLen : Nat → Nat
  | 0 => 64 | 1 => 32 | 2 => 128 | 3 => 16 | _ => 256

/-! ## Granules of a bound view (R303 to R305) -/

/-- Who asks for a granule, for the records of its events (R299). DESIGN CHOICE (log 57): the unit named where such a record is dropped is the one
that asked, for a command the one that issued it. -/
structure Asker where
  ctx  : Nat
  grid : Nat
  core : Nat
  team : W64
  subject : W64
  deriving DecidableEq, Repr

/-- Events of a transform put in the log of the binding's context (R299). -/
def noteGraph (s : State) (q : Asker) (va : Nat) (es : List Arith) : State :=
  es.foldl (fun s e => aeNote s q.core
    { ctx := q.ctx, grid := q.grid, subject := q.subject, cause := e, lanes := 0, count := 1, team := q.team, pc := BitVec.ofNat 64 va
      core := q.core, crew := 0x3FF, ap := false, exact := false, engine := true, stamp := BitVec.ofNat 32 (coreClock s q.core)
      opened := s.clock }) s

/-- The physical address of a stored granule; none where its page does not translate. -/
def granuleAt (s : State) (ctx : Nat) (b : Binding) (g : Nat) : Option Nat :=
  match rootOf s ctx with
  | none => none
  | some root => match walk s root true (b.backing + g * storedLen b.ratio) none with
    | .ok r => some r.1
    | .error _ => none

/-- A view granule read: one whole transform of its stored granule; its bytes and whether they are poisoned. Bytes without a translation
are free values. -/
def granuleRead (s : State) (q : Asker) (b : Binding) (g : Nat) : List Byte × Bool × State :=
  match granuleAt s q.ctx b g with
  | none => let f := takeFreeBytes s 64; (f.1, false, f.2)
  | some pa =>
    let n := storedLen b.ratio
    let r := runGraph b (cellsRead s.mem pa n) 64
    let bad := poisonedAt s pa n
    (r.1, bad, noteGraph (if bad then countPoison s .poison else s) q (b.vbase + 64 * g) r.2)

/-- A view granule written: the bytes carried, zeros elsewhere, transformed whole; the whole stored granule is replaced. -/
def granuleWrite (s : State) (q : Asker) (b : Binding) (g : Nat) (bytes : List (Nat × Byte)) (poisoned : Bool) : State :=
  match granuleAt s q.ctx b g with
  | none => s
  | some pa =>
    let base := b.vbase + 64 * g
    let input := (List.range 64).map fun i => match bytes.find? (fun x => x.1 == base + i) with | some x => x.2 | none => 0
    let n := storedLen b.ratio
    let r := runGraph b input n
    let s := noteGraph (if poisoned then countPoison s .poison else s) q base r.2
    let us := unitsFrom pa n
    let rest := s.poison.filter fun u => !us.contains u
    { s with mem := cellsWrite s.mem pa r.1, poison := if poisoned then us ++ rest else rest }

/-- The byte of a view address read through its granule; the granules already read are kept beside it, so that one access reads each once. -/
def viewRead (s : State) (q : Asker) (b : Binding) (off n : Nat) : List Byte × Bool × State :=
  let gs := ((List.range n).map fun i => (off + i) / 64).eraseDups
  let r := gs.foldl (fun acc g =>
    let x := granuleRead acc.2.2 q b g
    (acc.1 ++ [(g, x.1)], acc.2.1 || x.2.1, x.2.2)) (([], false, s) : List (Nat × List Byte) × Bool × State)
  ((List.range n).map fun i =>
    match r.1.find? (fun x => x.1 == (off + i) / 64) with
    | some x => x.2.getD ((off + i) % 64) 0
    | none => 0, r.2.1, r.2.2)

/-- Bytes at view addresses written, one transform for each granule they touch. -/
def viewWrite (s : State) (q : Asker) (b : Binding) (bytes : List (Nat × Byte)) (poisoned : Bool) : State :=
  let gs := (bytes.map fun x => (x.1 - b.vbase) / 64).eraseDups
  gs.foldl (fun s g => granuleWrite s q b g bytes poisoned) s

end Sys2Proof.Machine
end

