-- ==== Sys2Proof/Machine/Pending.lean ====
section
/-! DEFINITION. Loads, stores and atomics that have issued and are performed afterwards: pieces in an order that R132, R134, R135 and R137 leave open
(R138), a 16-byte access in two halves and a misaligned one byte by byte (R141, R160), and the registers that a load gives when the
last piece of the last lane is there (R172). The log entry 36 names the choices. -/

namespace Sys2Proof.Machine

open Sys2Proof

/-- The crew number of a unit, or none for an access thread. -/
def crewOf : UnitRef → Option Nat
  | .crew uid _ => some uid
  | .access _ => none

/-- Whether an access was made by a unit's threads, in whichever crew they were then (R113), or by another issue group of its crew. -/
def Pend.ofUnit (p : Pend) (s : State) (u : UnitRef) : Bool :=
  (match u with
    | .crew uid _ => p.crew == some uid
    | .access t => p.crew.isNone && p.team == some t)
    || (let ws := writersOf s u; p.pieces.any fun q => ws.contains q.path.writer)

/-- The accesses of a unit that are not wholly performed, oldest first. -/
def pendOf (s : State) (u : UnitRef) : List Pend := s.pend.filter fun p => p.ofUnit s u

/-- The identity of a thread among holders of lines. -/
def Pend.me (p : Pend) (lane : Nat) : Nat × Nat :=
  match p.crew, p.team with
  | some uid, _ => (uid, lane)
  | none, some t => (t, 64)
  | none, none => (0, 64)

/-! ## One piece -/

/-- The sectors of its path that a strong access at the L2 writes back first: those it touches, and for a store those of its thread's earlier
stores (R132, R133). -/
def pathOut (s : State) (p : Path) (pa n : Nat) (store : Bool) : List Nat :=
  sectorsIn pa n ++ (if store then sectorsOf (coreAt s p.core).l1 p.writer ++ sectorsOf (clusterAt s (p.core / 4)).cache p.writer else [])

/-- Whether a piece writes what it reaches: that of a store, or of an atomic. -/
def Piece.writes (p : Pend) (q : Piece) : Bool := p.store || q.op.isSome

/-- What keeps a piece from being performed now: a line that an irrevocable attempt holds, or, where a load reads another team's scratchpad,
requests on their way to it or an image that does not translate. Pieces in bound views are performed by their controller. -/
def Piece.blocked (s : State) (p : Pend) (q : Piece) : Option Awaited :=
  let back := match p.rel with
    | some .l2 => (backHeld s (p.me q.lane) p.core (pathSectors s p.core)).map Awaited.line
    | _ => none
  back <|> match q.place with
  | .dev pa =>
    if q.path.strong = some .l2 then
      let own := if q.writes p then heldLine s (p.me q.lane) (((List.range q.n).map fun i => (pa + i) / 128).eraseDups) else none
      (own <|> backHeld s (p.me q.lane) q.path.core (pathOut s q.path pa q.n (q.writes p))).map .line
    else none
  | .pad t off =>
    if !q.writes p && some t != p.team && (padBusy s t || (imageError s t off).isSome) then some (.partner t) else none
  | .far _ _ => none
  | .view slot _ => some (.unbind slot)

/-- The request that an atomic on another team's scratchpad is (R417, R419). -/
def Piece.away (p : Pend) (q : Piece) (i : Nat) : Option (Nat × Sent) :=
  match q.place, q.op with
  | .pad t off, some a =>
    if some t = p.team then none else some (t, { src := p.subject, writers := [q.path.writer], req := .atom off a p.tag i })
  | _, _ => none

/-- One piece performed whole. An atomic whose target is poisoned does nothing (R172); one at a host or peer is sent there, and its old value is
free (log 2). -/
def Piece.perform (s : State) (p : Pend) (q : Piece) : Piece × State :=
  match q.place, q.op, p.store with
  | .dev pa, some a, _ =>
    if readsPoison s q.path.core pa q.n then ({ q with done := true, bad := true }, s)
    else let r := atomicDev s q.path pa q.n a.new; ({ q with bytes := r.1, done := true }, r.2)
  | .pad t off, some a, _ =>
    if padPoisoned s t off q.n then ({ q with done := true, bad := true }, s)
    else let r := padRead s t off q.n; ({ q with bytes := r.1, done := true }, padWrite r.2 t off (a.new r.1))
  | .dev pa, none, false =>
    let r := loadAt s q.path pa q.n
    ({ q with bytes := r.1, done := true, bad := readsPoison r.2 q.path.core pa q.n }, countReads s r.2 1 (q.path.rc - 1))
  | .pad t off, none, false =>
    let r := padRead s t off q.n
    ({ q with bytes := r.1, done := true, bad := padPoisoned s t off q.n }, r.2)
  | .far port a, some op, _ =>
    let f := takeFreeBytes s q.n
    ({ q with bytes := f.1, done := true },
      { f.2 with far := f.2.far ++ [
        { port, addr := a, cells := [], atom := some op, core := p.core, ctx := p.ctx, grid := some p.grid, crew := p.crew, team := p.team
          cmd := none, va := BitVec.ofNat 64 q.va, pc := p.pc, writers := [q.path.writer] }] })
  | .dev pa, none, true => ({ q with done := true }, storeAt s q.path pa q.bytes)
  | .pad t off, none, true =>
    ({ q with done := true },
     if some t = p.team then padWrite s t off q.bytes
     else deliver s t { src := p.subject, writers := [q.path.writer], req := .write off q.bytes [] })
  | _, _, _ => (q, s)

/-! ## Landing -/

/-- The bytes of one lane's load, in the order of their addresses. -/
def Pend.laneBytes (p : Pend) (lane : Nat) : List Byte :=
  ((sortBy (fun a b => decide (a.va ≤ b.va)) (p.pieces.filter fun q => q.lane == lane)).map (·.bytes)).flatten

/-- The register value of a part of the bytes loaded (R159). -/
def partVal (sg : Bool) (bs : List Byte) (p : Nat × Nat × Nat) : W64 :=
  let v := ofBytes ((bs.drop p.2.1).take p.2.2)
  if sg then ((BitVec.ofInt 32 ((BitVec.ofNat (8 * p.2.2) v).toInt)).setWidth 64) else BitVec.ofNat 64 v

/-- The results of an access given the bytes that it has read. -/
def Pend.arrive (p : Pend) (rs : List Result) : List Result :=
  rs.map fun r =>
    if r.tag ≠ p.tag then r
    else match p.parts.find? (fun d => r.dst.code == some d.1) with
      | some d => { r with val := some (partVal p.signed (p.laneBytes r.lane) d) }
      | none => r

/-- The state without an access. -/
def dropPend (s : State) (tag : Nat) : State := { s with pend := s.pend.filter fun p => p.tag != tag }

/-- The results on their way to an access's unit changed. -/
def modResults (s : State) (p : Pend) (f : List Result → List Result) : State :=
  match p.crew, p.team with
  | some uid, _ => modCrew s uid fun c => { c with results := f c.results }
  | none, some t => modAccess s t fun a => { a with results := f a.results }
  | none, none => s

/-- A crew with the lanes of a mask in one issue group at an address, out of the groups that they have gone to since. -/
def gatherLanes (c : Crew) (m : Mask) (pc : Addr) (clock : Nat) : Crew :=
  match c.groups.find? fun g => (g.mask &&& m) != 0#64 with
  | none => c
  | some g =>
    let rest := (c.groups.map fun g => { g with mask := g.mask &&& ~~~m }).filter fun g => g.mask != 0#64
    { c with groups :=
        { g with mask := m, pc, wait := none, since := clock, raised := false, waitDone := false, served := 0, op := none, packets := [] } :: rest }

/-- A crew with `%entry` of the lanes of a mask as it was when an access issued (R400). -/
def entriesBack (c : Crew) (p : Pend) (m : Mask) : Crew :=
  { c with lanes := c.lanes.mapIdx fun l t => if m.getLsbD l then t.map (fun t =>
      match p.entries.find? (fun e => e.1 == l) with | some e => { t with entry := e.2 } | none => t) else t }

/-- Poison that an access has met in the lanes of a mask, once its unit is held by no other fault. A load writes no lane's register, and every lane of
the group that issued it that has not ended is in the faulting group again, wherever it has gone to since, to resume at the `%entry` that it
had (R172, R395, R400). An atomic has been performed in the other lanes: they have their results, and the record's mask names them. -/
def poisonPend (s : State) (p : Pend) (bad : Mask) : State :=
  let atomic := p.pieces.any (·.op.isSome)
  let va := match p.pieces.find? (fun q => q.bad && bad.getLsbD q.lane) with | some q => BitVec.ofNat 64 q.va | none => 0
  let did := maskOf ((p.pieces.filter fun q => !q.bad).map (·.lane))
  let info := FaultInfo.at .poison va (if atomic then did else bad)
  let rs : List Result → List Result := fun rs =>
    if atomic then p.arrive (rs.filter fun r => r.tag != p.tag || !bad.getLsbD r.lane) else rs.filter fun r => r.tag != p.tag
  match p.crew, p.team with
  | some uid, _ => (match tget s.crews uid with
    | none => dropPend s p.tag
    | some c =>
      if c.held.isSome then s
      else
        let here := maskOf ((lanesOf p.mask).filter fun l => (c.lanes.getD l none).isSome)
        let s1 := modResults (dropPend s p.tag) p rs
        if here &&& bad = 0#64 then modResults (dropPend s p.tag) p p.arrive
        else
          let s2 := modCrew s1 uid fun c => gatherLanes (entriesBack c p (if atomic then bad else here)) here p.pc s.clock
          faultUnit s2 (.crew uid (lowLane here)) here p.pc info)
  | none, some t => (match bodyOf s (.access t) with
    | some b =>
      if b.held.isSome then s
      else
        let s1 := modAccess (modResults (dropPend s p.tag) p rs) t fun a =>
          match p.entries with | e :: _ => { a with entry := e.2 } | [] => a
        faultUnit s1 (.access t) 1 p.pc info
    | none => dropPend s p.tag)
  | none, none => dropPend s p.tag

/-- An access whose pieces are all performed is over. A load or atomic gives its registers their values, after which its acquire part is performed
(R134, R172); poison is a fault (R172, R395). -/
def landPend (s : State) (tag : Nat) : State :=
  match s.pend.find? (fun p => p.tag == tag) with
  | none => s
  | some p =>
    if p.pieces.any (fun q => !q.done) then s
    else if p.store then dropPend s tag
    else
      let bad := maskOf ((p.pieces.filter (·.bad)).map (·.lane))
      if bad != 0#64 then poisonPend s p bad
      else
        let s1 := modResults (dropPend s tag) p p.arrive
        match p.acq with
        | some lvl => acquireAt s1 p.core lvl
        | none => s1

/-- An access with a piece put back. -/
def setPiece (s : State) (tag i : Nat) (q : Piece) : State :=
  { s with pend := s.pend.map fun e => if e.tag = tag then { e with pieces := lset e.pieces i q } else e }

/-- One piece of an access performed where nothing keeps it, after the write-back of the access's release, or sent to the team that it concerns; the
access ends with its last. -/
def performPiece (s : State) (tag i : Nat) : State :=
  match s.pend.find? (fun p => p.tag == tag) with
  | none => s
  | some p => match p.pieces[i]? with
    | none => landPend s tag
    | some q =>
      if q.done || q.sent || (q.blocked s p).isSome then s
      else
        let s := match p.rel with
          | some lvl => releaseAt s p.core lvl
          | none => s
        match q.away p i with
        | some (t, r) => landPend (deliver (setPiece s tag i { q with sent := true }) t r) tag
        | none =>
          let r := q.perform (dropDue s) p
          landPend (setPiece r.2 tag i r.1) tag

/-- The loads of a crew's lanes that end or resume elsewhere given up, with their results (R111, R400): their stores and atomics are performed as
ever, and a load for a crew-uniform register, which is the crew's, goes on. -/
def forgetLoads (s : State) (uid : Nat) (m : Mask) : State :=
  let gone : Pend → Piece → Bool := fun p q =>
    !p.store && q.op.isNone && m.getLsbD q.lane && !p.parts.any fun d => decide (192 ≤ d.1) && decide (d.1 < 240)
  let ps := s.pend.map fun p => if p.crew = some uid then { p with pieces := p.pieces.filter fun q => !gone p q } else p
  modCrew { s with pend := ps.filter fun p => p.store || !p.pieces.isEmpty } uid fun c =>
    { c with results := c.results.filter fun r => !(m.getLsbD r.lane && (match r.dst with | .k _ => false | _ => true)) }

/-- The loads of an access thread that ends given up (R111). -/
def forgetAccess (s : State) (t : Nat) : State :=
  { s with pend := s.pend.filter fun p => p.crew.isSome || p.team != some t || p.store || p.pieces.any (·.op.isSome) }

/-! ## The order of pieces (R132, R135, R138) -/

/-- Whether two pieces have a byte in common. -/
def Piece.meets (p q : Piece) : Bool :=
  match p.place, q.place with
  | .dev a, .dev b => decide (a < b + q.n) && decide (b < a + p.n)
  | .pad t a, .pad u b => t == u && decide (a < b + q.n) && decide (b < a + p.n)
  | _, _ => false

/-- The pieces of a unit's accesses that may be performed next, each as access and place in it: of one access in any order, but the lanes of its
first pass before those of its second, and in turn, ascending, where bytes coincide (R162); what a store or atomic writes behind every
earlier store or atomic of its thread, and behind every earlier access of the unit where it is a release. A load whose pieces are all there
may land. -/
def nextPieces : (before : List Pend) → List Pend → List (Nat × Nat)
  | _, [] => []
  | before, p :: r =>
    let free : Nat → Piece → Bool := fun i q =>
      !((p.pieces.take i).any fun o => !o.done && o.meets q)
        && !(decide (32 ≤ q.lane) && p.pieces.any fun o => !o.done && decide (o.lane < 32))
        && (!q.writes p || ((p.rel.isNone || before.isEmpty)
          && !before.any fun e => e.pieces.any fun o => o.writes e && o.path.writer == q.path.writer && !o.done))
    let idx := (List.range p.pieces.length).filter fun i => match p.pieces[i]? with
      | some q => !q.done && !q.sent && free i q
      | none => false
    let land := if p.pieces.all (·.done) then [(p.tag, p.pieces.length)] else []
    idx.map (fun i => (p.tag, i)) ++ land ++ nextPieces (before ++ [p]) r

/-- The n-th of some accesses' pieces that may be performed now is performed. -/
def performOf (s : State) (ps : List Pend) (n : Nat) : State :=
  let may := (nextPieces [] ps).filter fun e => match s.pend.find? (fun p => p.tag == e.1) with
    | some p => (match p.pieces[e.2]? with | some q => (q.blocked s p).isNone | none => true)
    | none => false
  match may[n % max 1 may.length]? with
  | some e => performPiece s e.1 e.2
  | none => s

/-- The n-th of a unit's pieces that may be performed now is performed. -/
def performNth (s : State) (u : UnitRef) (n : Nat) : State := performOf s (pendOf s u) n

/-- Which of its unit's earlier accesses an instruction waits for: none, those that give registers their values, or all. -/
inductive PendWait where
  | none | loads | all
  deriving DecidableEq, Repr

/-- Those accesses, with what comes before them. -/
def PendWait.of (k : PendWait) (ps : List Pend) : List Pend :=
  match k with
  | .none => []
  | .loads => (ps.reverse.dropWhile (·.store)).reverse
  | .all => ps

/-- What keeps the oldest unperformed piece of some accesses from being performed. -/
def piecesAwait (s : State) (ps : List Pend) : Option Awaited :=
  ps.findSome? fun p => p.pieces.findSome? fun q =>
    if q.done then none
    else match q.place with
      | .view _ _ => some .windowQueue
      | .pad t _ => if q.sent then some (.partner t) else q.blocked s p
      | _ => q.blocked s p

/-- What keeps the oldest unperformed piece of a unit from being performed. -/
def pendAwaits (s : State) (u : UnitRef) : Option Awaited := piecesAwait s (pendOf s u)

/-- Every piece of some accesses performed in order, as far as nothing keeps it. -/
def drainOf (s : State) (ps : List Pend) : State :=
  ps.foldl (fun s p => (List.range (p.pieces.length + 1)).foldl (fun s i => performPiece s p.tag i) s) s

/-- Every piece of a unit's accesses performed in order, as far as nothing keeps it. -/
def drain (s : State) (u : UnitRef) : State := drainOf s (pendOf s u)

/-- A unit that must see its earlier accesses performed before its instruction: they are performed, and the unit issues the instruction
again; where they cannot be, it waits for what keeps them (R134 to R136). -/
def drainFirst (s : State) (u : UnitRef) (i : Instr) (k : PendWait := .all) : State :=
  let s1 := drainOf s (k.of (pendOf s u))
  match piecesAwait s1 (k.of (pendOf s1 u)) with
  | some obj => if (match bodyOf s1 u with | some b => b.held.isSome | none => true) then s1 else setWait s1 u obj (some i)
  | none => s1

/-- Which earlier accesses an instruction waits for: all, where it orders accesses or acts outside its unit; those that give registers their values,
where it ends a replay region, which POISON would need again; none for arithmetic, transfers, cross-lane instructions and `REPLAY`, `EXIT`
and `REFORM`, which order nothing (R88, R111, R113, R115), and `SSTAT` (R310). Loads and stores look themselves. -/
def waitsForPend (i : Instr) (runs : Bool) : PendWait :=
  match i with
  | .txcommit _ | .spcommit _ | .txquit _ _ => .all
  | .lds _ _ _ _ _ | .sts _ _ _ _ _ | .ldc _ _ _ _ _ | .stc _ _ _ _ _ => .none
  | .enrol _ _ | .join _ _ | .shfl _ _ _ _ _ _ _ _ | .vote _ _ _ _ | .redc _ _ _ _ _ _ | .scan _ _ _ _ _ _ _ | .matchLanes _ _ _ _ => .none
  | .replay _ _ | .exit _ | .reform _ | .sstat _ _ _ => .none
  | .atom _ _ _ _ _ _ _ _ | .atomcas _ _ _ _ _ _ _ _ | .atoms _ _ _ _ _ _ _ _ | .red _ _ _ _ _ _ | .trap _ _ | .bkpt _ => .loads
  | _ => if runs then .none else .all

/-- The accesses that a unit's instruction must see performed first. -/
def owed (s : State) (u : UnitRef) (i : Instr) (runs : Bool) : List Pend := (waitsForPend i runs).of (pendOf s u)

/-- Whether the results of a crew's or access thread's loads have returned, but for those that met poison and wait for the unit to be free (R400). -/
def returned (s : State) (crew team : Option Nat) : Bool :=
  let ps := s.pend.filter fun p => p.crew == crew && (crew.isSome || p.team == team) && !p.store && !p.parts.isEmpty
  ps.all fun p => p.pieces.all (·.done) && p.pieces.any (·.bad)

/-! ## What a release waits for (R135, R150) -/

/-- A unit among holders of lines: the thread of its group that holds the serial-commit token, if one does, else its lowest. -/
def meOfUnit (s : State) (u : UnitRef) : Nat × Nat :=
  match u with
  | .access t => (t, 64)
  | .crew uid lane =>
    match s.dir.serial, groupAt s u with
    | some h, some g => if h.1 = uid ∧ g.mask.getLsbD h.2 then h else (uid, lane)
    | _, _ => (uid, lane)

/-- What a release must wait for: the window accesses of the unit's threads, their requests on their way to another team's scratchpad, at system scope
the acknowledgements of their far writes, and a line to be written back that an irrevocable attempt holds. -/
def releaseObject (s : State) (u : UnitRef) (sc : Scope) : Option Awaited :=
  let ws := writersOf s u
  let me := meOfUnit s u
  if s.winq.any fun w => meetIn w.writers ws then some .windowQueue
  else match queuedFrom s fun r => meetIn r.writers ws with
    | some t => some (.sent t)
    | none =>
      if sc = .system ∧ s.far.any (fun w => meetIn w.writers ws) then some .farAck
      else if lvlOf sc = .l2 then (backHeld s me (coreOf s u) (pathSectors s (coreOf s u))).map .line
      else none

end Sys2Proof.Machine
end

