-- ==== Sys2Proof/Machine/Issue.lean ====
section
/-! DEFINITION. The issue of an instruction, said once for all: decode checks that depend on the unit (R43, R62, R67), WAIT (R58), the scoreboard
(R60, R61), the guard (R57), accesses still to be performed (R135, R138), transactions (R214), and how an issued instruction ends (R59, R398). -/

namespace Sys2Proof.Machine

open Sys2Proof

/-- What a transaction makes of an instruction (R214): it runs, it aborts the transaction and is not executed, or it aborts it and
goes on (`EXIT`, `REFORM`). -/
inductive TxRule where
  | runs | aborts | leaves
  deriving DecidableEq, Repr

/-! ## Decode checks -/

/-- The registers an operand names in a unit. -/
def regsOf (s : State) (b : Body) (o : Opnd) : Option (List Nat) :=
  match b with
  | .crew c => crewRegs (regFileOf s c.grid) o
  | .ap _ => apRegs o

/-- The guard predicate as a register code; none for `pt`. -/
def guardCodes (b : Body) (c : Ctl) : List Nat := if b.isAp || c.pred == 7#3 then [] else [240 + c.pred.toNat]

/-- The decode fault of an instruction that depends on its unit and allocation, in the order of R67: ILLEGAL_FIELD, ILLEGAL_REG, then what the
instruction adds. -/
def badDecode (s : State) (b : Body) (c : Ctl) (ops : List Opnd) (extra : List Cause) : Option Cause :=
  if (!b.isAp && ops.any predField) || extra.contains .illegalField then some .illegalField
  else if (b.isAp && c.pred != 7#3) || ops.any (fun o => (regsOf s b o).isNone) || extra.contains .illegalReg then
    some .illegalReg
  else extra.head?

/-- The register codes an instruction reads or writes. -/
def codesOf (s : State) (b : Body) (c : Ctl) (ops : List Opnd) : List Nat :=
  guardCodes b c ++ (ops.map fun o => (regsOf s b o).getD []).flatten

/-- The register codes that an instruction's operands read. -/
def readCodes (s : State) (b : Body) (ops : List Opnd) : List Nat :=
  ((ops.filter (·.rd)).map fun o => (regsOf s b o).getD []).flatten

/-! ## The guard (R57) -/

/-- The cycles that a crew of 64 adds to an issue (R59). -/
def Body.lag : Body → Nat
  | .crew c => if c.width = 64 then 1 else 0
  | .ap _ => 0

/-- The number that tells one issue's choices from another's (R61). -/
def seedOf (s : State) : UnitRef → Nat
  | .crew uid _ => s.clock * 2 ^ 20 + 2 * uid
  | .access t => s.clock * 2 ^ 20 + 2 * t + 1

/-- The lanes of a group in which the guard is true. -/
def guardMask (s : State) (u : UnitRef) (b : Body) (g : Group) (c : Ctl) : Mask :=
  match b with
  | .ap _ => if c.neg then 0 else 1
  | .crew _ =>
    if c.pred = 7#3 then (if c.neg then 0 else g.mask)
    else maskOf ((lanesOf g.mask).filter fun l =>
      xor (b.see s.clock (seedOf s u) l (240 + c.pred.toNat) != 0) c.neg)

/-- The context handed to a meaning. -/
def exOf (s : State) (u : UnitRef) (b : Body) (g : Group) (i : Instr) (c : Ctl) : Ex :=
  { ref := u, body := b, grp := g, exec := guardMask s u b g c, pc := g.pc, next := g.pc + BitVec.ofNat 64 i.bytes,
    clock := s.clock, seed := seedOf s u, lag := b.lag }

/-! ## How an issued instruction ends -/

/-- The group after an instruction has issued: at the next address, ready again no earlier than its STALL allows (R59, R344). -/
def Group.issue (g : Group) (pc : Addr) (clock lag : Nat) (c : Ctl) : Group :=
  let t := clock + lag + max 1 c.stall.toNat
  { g with pc, notBefore := t, since := t, raised := false, waitDone := false, served := 0, op := none, packets := [],
           wait := none }

/-- The unit's body put back with its group moved on to an address. -/
def finishAt (x : Ex) (c : Ctl) (b : Body) (pc : Addr) (s : State) : State :=
  putBody { s with cur := none } x.ref (setGroups b x.ref [x.grp.issue pc x.clock x.lag c])

/-- An instruction ends at the next one. -/
def retire (x : Ex) (c : Ctl) (b : Body) (s : State) : State := finishAt x c b x.next s

/-- `%entry` of the threads of a mask set (R115, R398). -/
def Body.setEntry (b : Body) (m : Mask) (a : Addr) : Body :=
  match b with
  | .ap t => if m = 0 then b else .ap { t with entry := a }
  | .crew c => .crew { c with lanes := c.lanes.mapIdx (fun l t => bif m.getLsbD l then t.map (fun t => { t with entry := a }) else t) }

/-- An instruction that ends its replay region ends (R398). -/
def retireEnd (x : Ex) (c : Ctl) (b : Body) (s : State) : State := retire x c (b.setEntry x.exec x.next) s

/-- A fault of the issuing instruction over some lanes. -/
def faultEx (x : Ex) (cause : Cause) (addr : W64) (m : Mask) (s : State) : State :=
  faultUnit s x.ref x.grp.mask x.pc (FaultInfo.at cause addr m)

/-- The issuing group waits at an object, to issue its instruction again. -/
def waitEx (x : Ex) (obj : Awaited) (i : Instr) (s : State) : State := setWait s x.ref obj (some i)

/-- An instruction with events ends: it traps with none of its effects, or logs them and takes its effect (R244). -/
def withEvents (x : Ex) (evs : Events) (s : State) (k : State → State) : State :=
  match trapOf (ctlOf s (ctxOf s x.ref)) evs with
  | some e => faultUnit s x.ref x.grp.mask x.pc
      { cause := .arithTrap, addr := 0, mask := e.2, detail := BitVec.ofNat 32 e.1.code, exact := false }
  | none => k (logEvents s x.ref x.pc evs)

/-! ## WAIT (R58) -/

/-- The named tokens closed where they can be. -/
def closeNamed (b : Body) (m : BitVec 8) : Body :=
  b.setToks (b.toks.mapIdx fun i t => if m.getLsbD i && !t.full then t.close else t)

/-- The WAIT field: the named tokens' open batches are closed and no batch of them may be outstanding; then the unit acquires at
device scope (R58, R147). Answers the state to go on in, or the one in which the unit waits. -/
def waitField (s : State) (u : UnitRef) (b : Body) (g : Group) (i : Instr) (c : Ctl) : State ⊕ State :=
  if c.wait = 0#8 ∨ g.waitDone then .inl s
  else
    let full := anyFull b.toks c.wait
    let b1 := closeNamed b c.wait
    if full || anyOutstanding b1.toks c.wait then .inr (setWait (putBody s u b1) u (.tokens c.wait (fullOf b.toks c.wait)) (some i))
    else .inl (acquireAt (putBody s u (setGroups b1 u [{ g with waitDone := true }])) (coreOf s u) .l2)

/-! ## Transactions (R214, R220) -/

/-- Irrevocable attempts of some lanes end without an abort (R220). -/
def endAttempts (s : State) (uid : Nat) (m : Mask) : State :=
  let s := (lanesOf m).foldl (fun s l => endIrrevocable s uid l) s
  modCrew s uid fun c => { c with lanes := c.lanes.mapIdx (fun l t =>
    bif m.getLsbD l then t.map (fun t => { t with tx := { t.tx with active := false, irrev := false } }) else t) }

/-- The issue without lanes that have left its group; none where no lane is left. -/
def Ex.without (x : Ex) (m : Mask) (s : State) : Option Ex :=
  match x.ref with
  | .access _ => some x
  | .crew uid _ =>
    let mask := x.grp.mask &&& ~~~m
    if mask = 0#64 then none
    else
      let ref := UnitRef.crew uid (lowLane mask)
      some { x with ref, grp := { x.grp with mask }, exec := x.exec &&& ~~~m, body := (bodyOf s ref).getD x.body }

/-- Irrevocable attempts of some lanes end at an instruction that they may not reach: TX_IRREVOCABLE, precise to it (R220). -/
def irrevFault (s : State) (x : Ex) (uid : Nat) (irr : Mask) : State :=
  raise { endAttempts s uid irr with cur := if s.cur = some x.ref then s.cur else none } x.ref x.pc
    { cause := .txIrrevocable, addr := 0, mask := irr, detail := 0, exact := true }

/-- Lanes that meet an instruction which aborts their transactions: an irrevocable attempt ends with TX_IRREVOCABLE, the others abort with
INSTR (R214, R220). None where no lane of the mask is in a transaction; the flag says that a leaving lane goes on; one in a group that is then
held leaves in a group of its own, once the crew goes on. -/
def instrAbort (s : State) (x : Ex) (m : Mask) (leaving : Bool) : Option (State × Bool) :=
  match x.ref, x.body with
  | .crew uid low, .crew c =>
    let irr := irrevLanes c m
    let open_ := txLanes c m &&& ~~~irr
    if irr != 0#64 then
      if open_ = 0#64 then some (irrevFault s x uid irr, false)
      else
        let s1 := abortLanes s uid low open_ .instr none leaving
        let s2 := if leaving then modCrew s1 uid fun c => moveOut c low open_ (fun _ => (x.pc, none)) none s.clock else s1
        match x.without open_ s2 with
        | some y => some (irrevFault s2 y uid irr, false)
        | none => some ({ s2 with cur := none }, false)
    else if open_ != 0#64 then some (abortLanes s uid low open_ .instr none leaving, leaving)
    else none
  | _, _ => none

/-- What the open transactions of the executing lanes make of an instruction: none lets it execute; otherwise the state in which it is not
executed, or, for an instruction that leaves, the state in which it goes on. -/
def txGate (s : State) (x : Ex) (r : TxRule) : Option (State × Bool) :=
  match r with
  | .runs => none
  | .aborts => instrAbort s x x.exec false
  | .leaves => instrAbort s x x.exec true

/-! ## Debug levels (R387, R389) -/

/-- The debug level in force for a context. -/
def debugOf (s : State) (ctx : Nat) : DebugLevel :=
  if s.sec.full then .full else match tget s.ctxs ctx with | some c => c.debug | none => .none

/-- Whether the debug level of a context grants the accesses of a PERMS bit (R388, R389). -/
def debugGrants (s : State) (ctx bit : Nat) : Bool :=
  match debugOf s ctx with
  | .full => true
  | .context => (match tget s.ctxs ctx with | some c => c.perms.getLsbD bit | none => false)
  | .none => false

/-- Whether the Primrose monitor runs in a grid. -/
def inPrimrose (s : State) (grid : Nat) : Bool := match tget s.grids grid with | some g => g.primrose | none => false

/-- Whether an instruction reads or writes memory of its context outside its scratchpad. -/
def usesMemory : Instr → Bool
  | .ld _ _ _ _ _ | .st _ _ _ _ _ | .atom _ _ _ _ _ _ _ _ | .atomcas _ _ _ _ _ _ _ _ | .red _ _ _ _ _ _ => true
  | .astream _ _ _ _ _ _ _ _ | .gather _ _ _ _ _ _ _ _ _ | .scatter _ _ _ _ _ _ _ _ _ | .cpy _ _ _ _ _ _ => true
  | .cpy2g _ _ _ _ _ _ _ _ _ _ _ | .cpyt _ _ _ _ _ _ _ _ _ _ _ _ | .cpyr _ _ _ _ _ _ _ | .fred _ _ _ _ _ _ _ _ _ _ => true
  | .chain _ _ _ _ _ _ _ _ _ | .pdec _ _ _ _ | .sbind _ _ _ _ | .launch _ _ _ | .attest _ _ _ _ _ => true
  | _ => false

/-- Whether an instruction is kept from the Primrose monitor: any while no debug level is in force (R387), one that uses memory where PERMS do not
grant it (R389). -/
def barred (s : State) (u : UnitRef) (i : Instr) : Bool :=
  inPrimrose s (gridOf s u) && (debugOf s (ctxOf s u) == .none || (usesMemory i && !debugGrants s (ctxOf s u) 2))

/-! ## Issue -/

/-- The lanes of an issue that would read a result too early (R61): the guard in any lane of the group, an operand in an executing
one. -/
def shortMask (s : State) (x : Ex) (c : Ctl) (ops : List Opnd) : Mask :=
  let isEarly : Nat → Nat → Bool := fun l r => (x.body.early s.clock l r).isSome
  let codes := readCodes s x.body ops
  maskOf ((lanesOf x.grp.mask).filter fun l =>
    (guardCodes x.body c).any (isEarly l) || (x.exec.getLsbD l && codes.any (isEarly l)))

/-- The parity errors that an issue's registers meet: its guard's in any lane of the group, its operands' in the executing ones (R436, R439). -/
def parityAt (s : State) (x : Ex) (c : Ctl) (ops : List Opnd) : List Parity :=
  let m := (if (readCodes s x.body ops).isEmpty then 0#64 else x.exec) ||| (if (guardCodes x.body c).isEmpty then 0#64 else x.grp.mask)
  s.parity.filter fun p => p.acc.isNone && p.unit == x.ref && m.getLsbD p.lane

/-- Those errors met: they are over, and those that a re-read clears are counted (R436, R438). -/
def metParity (s : State) (ps : List Parity) : State :=
  if ps.isEmpty then s
  else { s with
    parity := s.parity.filter fun p => !ps.contains p
    counters := { s.counters with regReread := ((ps.filter (·.reread)).foldl (fun n _ => satInc n) s.counters.regReread) } }

/-- The part of an issue that follows the reading of its registers. -/
def issueOn (i : Instr) (c : Ctl) (r : TxRule) (k : Ex → State → State) (x : Ex) (s : State) : State :=
  let u := x.ref
  let g := x.grp
  if x.exec = 0#64 then retire x c x.body s
  else if barred s u i then faultUnit s u g.mask g.pc (FaultInfo.at .debugDenied g.pc x.exec)
  else if !(owed s u i (r == .runs)).isEmpty then drainFirst s u i (waitsForPend i (r == .runs))
  else match txGate s x r with
    | none => k x s
    | some (s', false) => s'
    | some (s', true) => (match bodyOf s' u with
      | some b' => k { x with body := b' } s'
      | none => s')

/-- The part of an issue that follows WAIT. -/
def issueRest (i : Instr) (c : Ctl) (ops : List Opnd) (r : TxRule) (k : Ex → State → State) (u : UnitRef) (b : Body) (g : Group)
    (s : State) : State :=
  if b.awaits g.mask (codesOf s b c ops) then setWait s u .scoreboard (some i)
  else if let some t := b.uniformUntil g.mask s.clock (codesOf s b c ops) then holdBack s u t
  else
    let x := exOf s u b g i c
    let short := shortMask s x c ops
    if (ctlOf s (ctxOf s u)).sctl.getLsbD 0 && short != 0#64 then faultUnit s u g.mask g.pc (FaultInfo.at .stallShort g.pc short)
    else
      let ps := parityAt s x c ops
      let bad := ps.filter fun p => !p.reread
      if bad.isEmpty then issueOn i c r k x (metParity s ps)
      else faultUnit (metParity s ps) u g.mask g.pc (FaultInfo.at .poison g.pc (maskOf (bad.map (·.lane))))

/-- The issue of an instruction by the selected unit: its decode checks, WAIT, scoreboard, guard and transaction, then its own effect
`k`. Without a selected unit, or while it is held, nothing issues. DESIGN CHOICE (log 38): of two groups of a crew at one cross-lane instruction
each executes it once, for its own lanes; R117 allows one execution for both where the device has fused them. -/
def issue (i : Instr) (c : Ctl) (ops : List Opnd) (extra : List Cause) (r : TxRule) (k : Ex → State → State) (s : State) :
    State :=
  match s.cur with
  | none => s
  | some u =>
    match bodyOf s u with
    | none => { s with cur := none }
    | some b =>
      match groupOf b u with
      | none => { s with cur := none }
      | some g =>
        if b.held.isSome then { s with cur := none }
        else match badDecode s b c ops extra with
          | some cause => faultUnit s u g.mask g.pc (FaultInfo.at cause g.pc g.mask)
          | none =>
            match waitField s u b g i c with
            | .inr s' => s'
            | .inl s' =>
              match bodyOf s' u with
              | none => s'
              | some b' => issueRest i c ops r k u b' ((groupOf b' u).getD g) s'

end Sys2Proof.Machine
end

