-- ==== Sys2Proof/Machine/MemInstr.lean ====
section
/-! DEFINITION. Group 0x8, loads, stores, fences and cache operations (R158 to R168, R174 to R177), and transactional accesses (R211, R220). -/

namespace Sys2Proof.Machine

open Sys2Proof

/-! ## Sizes (R159) -/

def sizeBytes : Size → Nat
  | .b8 | .s8 => 1
  | .b16 | .s16 => 2
  | .b32 => 4
  | .b64 => 8
  | .b128 => 16

/-- The class of a register operand of a size. -/
def sizeCls : Size → Cls
  | .b64 => .w
  | .b128 => .quad
  | _ => .v

/-- Whether a load of the size is sign-extended. -/
def sizeSigned : Size → Bool
  | .s8 | .s16 => true
  | _ => false

/-- The registers a load fills: code, first byte, bytes. -/
def loadParts (ap : Bool) (sz : Size) (d : Spec) : List (Nat × Nat × Nat) :=
  let c := d.toNat
  if d = 255#8 then []
  else match sz with
    | .b64 => if ap then [(c, 0, 8)] else [(c, 0, 4), (c + 1, 4, 4)]
    | .b128 => if ap then [(c, 0, 8), (c + 1, 8, 8)] else (List.range 4).map fun i => (c + i, 4 * i, 4)
    | _ => [(c, 0, sizeBytes sz)]

/-- The bytes of a store's operand. -/
def storeBytes (x : Ex) (sz : Size) (b : Spec) (l : Nat) : List Byte :=
  match sz with
  | .b64 => toBytes 8 (x.w b l).toNat
  | .b128 =>
    if x.body.isAp then toBytes 8 (x.w b l).toNat ++ (if b = 255#8 then toBytes 8 0 else toBytes 8 (x.w (b + 1) l).toNat)
    else ((List.range 4).map fun i => toBytes 4 (if b = 255#8 then 0 else (x.v (b + BitVec.ofNat 8 i) l).toNat)).flatten
  | sz => (toBytes 4 (x.v b l).toNat).take (sizeBytes sz)

/-! ## Addresses and checks (R158, R160, R161) -/

/-- Which windows an instruction reaches (R158). -/
inductive Reach where
  | generic | own | slot
  deriving DecidableEq, Repr

/-- An access of a lane to be checked. -/
structure LaneReq where
  reach : Reach
  acc   : AccessReq

/-- Where an own-scratchpad offset lies in the own window (R49). -/
def ownWindow : Nat := 0x7FFF0000000000

/-- The effective address of a lane: generic, or that of a scratchpad offset; the exact offset is kept for its checks. -/
def effAddr (x : Ex) (reach : Reach) (a : Spec) (off : BitVec 20) (l : Nat) : Int :=
  match reach with
  | .own => (ownWindow : Int) + ((x.v a l).toNat + off.toInt)
  | _ => ((x.w a l + off.signExtend 64).toNat : Int)

/-- Check 2 of R161 for instructions that reach one window only (R158, R164, R165). -/
def reachCheck (q : LaneReq) (ea : Int) : Option Failed :=
  match q.reach with
  | .generic => none
  | .own => if ea < ownWindow then some ⟨2, .scratchBounds, 0⟩ else none
  | .slot =>
    if 0x80000000000000 ≤ q.acc.va then none
    else if (spanOf q.acc.va q.acc.n).all fun a => (match winOf a with | .slot _ _ => true | _ => false) then none
    else if (spanOf q.acc.va q.acc.n).any fun a => winOf a == .reserved || winOf a == .noncanon then some ⟨2, .addrReserved, 0⟩
    else some ⟨2, .clusterWindow, 0⟩

/-- The check of an own-scratchpad access beyond the window that R49 gives it: the exact offset against the allocation (R164). -/
def ownCheck (s : State) (q : LaneReq) (ea : Int) : Option Failed :=
  if ea < ownWindow then some ⟨2, .scratchBounds, 0⟩
  else if q.acc.va % q.acc.align ≠ 0 then some ⟨5, .misaligned, 0⟩
  else if (ownWindow : Int) + allocOf s q.acc.team < ea + q.acc.n then some ⟨6, .scratchBounds, 0⟩
  else none

/-- The first check that a lane's access fails. -/
def laneCheck (s : State) (q : LaneReq) (ea : Int) : Option Failed :=
  match q.reach with
  | .own => ownCheck s q ea
  | _ => match reachCheck q ea with
    | some f => if f.rank = 2 then some f else checkAccess s q.acc
    | none => checkAccess s q.acc

/-- Every executing lane checked: the first failing check of R161, with the lanes that fail it and the lowest one's address (R161). -/
def checkLanes (s : State) (ls : List (Nat × LaneReq × Int)) : Option (Failed × AccessReq × Mask) :=
  let fails := ls.filterMap fun e => match laneCheck s e.2.1 e.2.2 with
    | some f => some (e.1, f, e.2.1.acc)
    | none => none
  match fails with
  | [] => none
  | e :: r =>
    let first := r.foldl (fun m e => min m e.2.1.rank) e.2.1.rank
    let same := fails.filter fun e => e.2.1.rank == first
    match same with
    | [] => none
    | e :: _ => some (e.2.1, e.2.2, maskOf (same.map (·.1)))

/-- The fault of failed checks (R161, R403). -/
def failLanes (x : Ex) (f : Failed × AccessReq × Mask) (s : State) : State :=
  let detail := if 70 ≤ f.1.rank ∧ f.1.rank ≤ 72 then xlateDetail f.1.level f.2.1.acc else 0
  faultUnit s x.ref x.grp.mask x.pc
    { cause := f.1.cause, addr := BitVec.ofNat 64 f.2.1.va, mask := f.2.2, detail, exact := false }

/-! ## Who accesses -/

/-- The number that tells a thread's stores from others' (R132). -/
def writerOf (x : Ex) (l : Nat) : Nat :=
  match x.body, x.ref with
  | .crew c, _ => c.writer l
  | .ap _, .access t => t * 4096 + 1
  | .ap _, .crew u _ => u

/-- How a lane's access is performed (R128, R133, R144, R167). -/
def pathOf (s : State) (x : Ex) (m : MemWord) (l : Nat) : Path :=
  { core := coreOf s x.ref, writer := writerOf x l, strong := if m.ord = .plain then none else some (lvlOf m.scope),
    ev := m.evict.toNat, rc := m.rc.toNat }

/-- Whether a lane's thread is in a transaction that is not irrevocable, and whether it runs irrevocably. -/
def txMode (x : Ex) (l : Nat) : Bool × Bool :=
  match x.body with
  | .crew c => (match c.lanes.getD l none with
    | some t => (t.tx.active && !t.tx.irrev, t.tx.active && t.tx.irrev)
    | none => (false, false))
  | .ap _ => (false, false)

/-- Who asks for a window granule. -/
def askerOf (s : State) (x : Ex) : Asker :=
  { ctx := ctxOf s x.ref, grid := gridOf s x.ref, core := coreOf s x.ref,
    team := teamIndex s (teamOf s x.ref), subject := unitIdentity s x.ref }

/-- The identity of a thread among holders of lines. -/
def meOf (x : Ex) (l : Nat) : Nat × Nat := match x.ref with | .crew uid _ => (uid, l) | .access t => (t, 64)

/-- The thread of a lane. -/
def Ex.thread (x : Ex) (l : Nat) : Option Thread :=
  match x.body with | .crew c => c.lanes.getD l none | .ap _ => none

/-- A lane's thread as the state now holds it. -/
def threadNow (s : State) (x : Ex) (l : Nat) : Option (Crew × Thread) :=
  match x.ref with
  | .crew uid _ => (match tget s.crews uid with
    | some c => (match c.lanes.getD l none with | some t => some (c, t) | none => none)
    | none => none)
  | .access _ => none

/-- A thread of a crew in the state changed. -/
def modThread (s : State) (uid l : Nat) (f : Thread → Thread) : State :=
  modCrew s uid fun c => { c with lanes := lset c.lanes l ((c.lanes.getD l none).map f) }

/-! ## Segments of an access -/

/-- A range split where its bytes stop lying side by side in one place. -/
def segments (s : State) (ctx : Nat) (team : Option Nat) (acc : AccKind) (va : Nat) : (n : Nat) → List (Place × Nat × Nat)
  | 0 => []
  | n + 1 =>
    joinSeg (match placeOf s ctx team (some acc) va with | .ok p => p | .error _ => .far none 0) va
      (segments s ctx team acc (va + 1) n)

/-- The segments of a checked lane's access. -/
def segsOf (s : State) (q : AccessReq) : List (Place × Nat × Nat) := segments s q.ctx q.team q.acc q.va q.n

/-- Whether an access touches a bound view. -/
def touchesView (segs : List (Place × Nat × Nat)) : Bool := segs.any fun e => match e.1 with | .view _ _ => true | _ => false

/-- Whether every byte of an access is in device memory. -/
def allDevice (segs : List (Place × Nat × Nat)) : Bool := segs.all fun e => match e.1 with | .dev _ => true | _ => false

/-- The lines of device memory that segments touch. -/
def linesOf (segs : List (Place × Nat × Nat)) : List Nat :=
  (segs.map fun e => match e.1 with
    | .dev pa => (List.range e.2.2).map fun i => (pa + i) / 128
    | _ => []).flatten.eraseDups

/-- The outcome of one lane's load or store: its bytes; pieces of which some are still to be performed; done; or why it is not. -/
inductive LaneOut where
  | bytes (bs : List Byte)
  | pieces (ps : List Piece)
  | stored
  | poison
  | refused
  | abort (x : TxCause)
  | held (obj : Awaited)
  deriving DecidableEq, Repr

/-! ## Loads -/

/-- One segment of a load read. -/
def loadSeg (s : State) (x : Ex) (p : Path) (seg : Place × Nat × Nat) : List Byte × Bool × State :=
  let n := seg.2.2
  match seg.1 with
  | .dev pa =>
    let r := loadAt s p pa n
    (r.1, readsPoison r.2 p.core pa n, r.2)
  | .pad t off => let r := padRead s t off n; (r.1, padPoisoned s t off n, r.2)
  | .far _ _ => let r := takeFreeBytes s n; (r.1, false, r.2)
  | .view slot off =>
    (match tget s.ctxs (ctxOf s x.ref) with
    | none => (List.replicate n 0, false, s)
    | some c => match tget c.bindings slot with
      | none => (List.replicate n 0, false, s)
      | some b => viewRead s (askerOf s x) b off n)

/-- Whether a far side refuses a read or an atomic (R377, R378): a free choice for each (log 2). -/
def farRefuses (s : State) (segs : List (Place × Nat × Nat)) : Bool :=
  (segs.any fun e => match e.1 with | .far _ _ => true | _ => false) && Config.freeBool (2 * s.nums.fresh + 1)

/-- What keeps a load from being performed now: requests on their way to the team whose scratchpad it reads, or a line that it must write back
first and that an irrevocable attempt holds (R51, R133, R417). -/
def loadBlocked (s : State) (x : Ex) (p : Path) (segs : List (Place × Nat × Nat)) (l : Nat) : Option Awaited :=
  segs.findSome? fun seg => match seg.1 with
    | .pad t _ => if some t ≠ teamOf s x.ref ∧ padBusy s t then some (.partner t) else none
    | .dev pa =>
      if p.strong = some .l2 then (backHeld s (meOf x l) p.core (pathOut s p pa seg.2.2 false)).map .line else none
    | _ => none

/-- A segment as pieces that each lie in one 128-byte line. -/
def segPieces (p : Path) (l : Nat) (seg : Place × Nat × Nat) : List Piece :=
  let n := seg.2.2
  let k := min n (128 - seg.2.1 % 128)
  let at_ : Nat → Nat → Piece := fun o n =>
    { lane := l, va := seg.2.1 + o, n, path := p, bytes := [], done := false, bad := false
      place := match seg.1 with
        | .dev a => .dev (a + o)
        | .far q a => .far q (a + o)
        | .pad t a => .pad t (a + o)
        | .view z a => .view z (a + o) }
  at_ 0 k :: (if k < n then [at_ k (n - k)] else [])

/-- The pieces of a segment of a load: one in a bound view is queued at its controller unless the load acquires (R150, R304); any other is read
now. -/
def readPieces (s : State) (x : Ex) (m : MemWord) (p : Path) (l : Nat) (seg : Place × Nat × Nat) : List Piece × State :=
  let now :=
    let y := loadSeg s x p seg
    ([{ lane := l, va := seg.2.1, place := seg.1, n := seg.2.2, path := p, bytes := y.1, done := true, bad := y.2.1 }], y.2.2)
  match seg.1 with
  | .view _ _ => if m.ord = .acquire then now else (segPieces p l seg, s)
  | _ => now

/-- A load that is not transactional: it waits for no line of its own (R220). -/
def loadLane (s : State) (x : Ex) (m : MemWord) (p : Path) (acc : AccessReq) (l : Nat) : LaneOut × State :=
  let segs := segsOf s acc
  match loadBlocked s x p segs l with
  | some obj => (.held obj, s)
  | none =>
    if farRefuses s segs then (.refused, s)
    else
      let r := segs.foldl (fun acc seg =>
        let y := readPieces acc.2 x m p l seg
        (acc.1 ++ y.1, y.2)) (([], s) : List Piece × State)
      if r.1.any (·.bad) then (.poison, s)
      else if r.1.all (·.done) then (.bytes (r.1.map (·.bytes)).flatten, r.2)
      else (.pieces r.1, r.2)

/-- One byte as a transaction sees it: from its write log where that marks it stored (R211). -/
def logByte (ws : List LogEntry) (va : Nat) : Option Byte :=
  match ws.find? (fun e => e.addr == va / 8 * 8 && e.mask.getLsbD (va % 8)) with
  | some e => some ((e.data >>> (8 * (va % 8))).setWidth 8)
  | none => none

/-- A transactional load (R211): the bytes not in the write log are read at the L2 and their granules enter the read log. Copies on its path
are brought to the value read (R137). -/
def txLoad (s : State) (x : Ex) (acc : AccessReq) (l : Nat) : LaneOut × State :=
  match threadNow s x l, x.ref with
  | some (c, t), .crew uid _ =>
    if !allDevice (segsOf s acc) then (.abort .instr, s)
    else
      let ws := writeLog s c t
      let need := (spanOf acc.va acc.n).filter fun a => (logByte ws a).isNone
      let words := (need.map fun a => a / 8 * 8).eraseDups
      let gran : Nat → Nat := fun a => if t.tx.ts then a / 128 * 128 else a / 8 * 8
      let rs := readLog s c t
      let fresh := (need.map gran).eraseDups.filter fun g => !rs.any fun e => e.addr == g
      let area := logArea s c t
      let paOf : Nat → Nat := fun a => match placeOf s acc.ctx acc.team (some .load) a with | .ok (.dev pa) => pa | _ => 0
      let p : Path := { core := coreOf s x.ref, writer := writerOf x l, strong := some .l2, ev := 0, rc := 0 }
      if area.nr < t.tx.rused + fresh.length then (.abort .capacity, s)
      else match (heldLine s (uid, l) ((words.map fun w => paOf w / 128).eraseDups)
          <|> backHeld s (uid, l) p.core (words.map fun w => paOf w / 16).eraseDups) with
        | some line => (.held (.line line), s)
        | none =>
          let s1 := words.foldl (fun s w => (loadAt s p (paOf w) 8).2) s
          let entry : Nat → LogEntry := fun g =>
            if t.tx.ts then { data := (lineAt s1 (paOf g / 128)).version.setWidth 64, mask := 0, addr := g, kind := 2 }
            else { data := BitVec.ofNat 64 (ofBytes (cellsRead s1.mem (paOf g) 8)), mask := 0xFF, addr := g, kind := 1 }
          let s2 := (fresh.zipIdx).foldl (fun s e => logPut s area (t.tx.rused + e.2) (entry e.1)) s1
          let s3 := modThread s2 uid l fun t => { t with tx := { t.tx with rused := t.tx.rused + fresh.length } }
          let bs := (spanOf acc.va acc.n).map fun a => match logByte ws a with
            | some b => b
            | none => cellGet s1.mem (paOf a)
          if need.any fun a => s1.poison.contains (paOf a / 16) then (.poison, s) else (.bytes bs, s3)
  | _, _ => (.abort .instr, s)

/-! ## Stores -/

/-- A transactional store: merged into the write entry of its word, or a new entry (R211). -/
def txStore (s : State) (x : Ex) (acc : AccessReq) (bs : List Byte) (l : Nat) : LaneOut × State :=
  match threadNow s x l, x.ref with
  | some (c, t), .crew uid _ =>
    if !allDevice (segsOf s acc) then (.abort .instr, s)
    else
      let ws := writeLog s c t
      let area := logArea s c t
      let words := ((spanOf acc.va acc.n).map fun a => a / 8 * 8).eraseDups
      let fresh := words.filter fun w => !ws.any fun e => e.addr == w
      if area.nw < t.tx.wused + fresh.length then (.abort .capacity, s)
      else
        let all := ws ++ fresh.map fun w => ({ data := 0, mask := 0, addr := w, kind := 3 } : LogEntry)
        let put : LogEntry → LogEntry := fun e =>
          (bs.zipIdx).foldl (fun (e : LogEntry) (b : Byte × Nat) =>
            let a := acc.va + b.2
            if a / 8 * 8 = e.addr then
              let sh := 8 * (a % 8)
              { e with data := (e.data &&& ~~~(0xFF#64 <<< sh)) ||| (b.1.setWidth 64 <<< sh), mask := e.mask ||| (1#8 <<< (a % 8)) }
            else e) e
        let s1 := ((all.map put).zipIdx).foldl (fun s e => logPut s area (area.nr + e.2) e.1) s
        (.stored, modThread s1 uid l fun t => { t with tx := { t.tx with wused := all.length } })
  | _, _ => (.abort .instr, s)

/-- One segment of a store performed; what goes to a window is sent by `sendStores`. -/
def storeSeg (s : State) (x : Ex) (p : Path) (seg : Place × Nat × Nat) (bs : List Byte) : State :=
  match seg.1 with
  | .dev pa => storeAt s p pa bs
  | .pad t off => if some t = teamOf s x.ref then padWrite s t off bs else deliver s t { src := unitIdentity s x.ref, writers := [p.writer], req := .write off bs [] }
  | .far _ _ | .view _ _ => s

/-- The bytes of a store that go to windows: their place, address and value. -/
def windowBytes (segs : List (Place × Nat × Nat)) (va : Nat) (bs : List Byte) : List (Place × Nat × Byte) :=
  (segs.map fun e =>
    let mine := (bs.drop (e.2.1 - va)).take e.2.2
    match e.1 with
    | .view z off => mine.mapIdx fun i b => (Place.view z (off + i), e.2.1 + i, b)
    | .far q a => mine.mapIdx fun i b => (Place.far q (a + i), e.2.1 + i, b)
    | _ => []).flatten

/-- What makes bytes of one pass one request: the window and the 128-byte line, at the far side the line there and the page (R166). -/
def requestKey : Place × Nat × Byte → Option (Option Nat) × Nat × Nat
  | (.far q a, va, _) => (some q, a / 128, va / 65536)
  | (_, va, _) => (none, va / 128, 0)

/-- The window requests of a store's passes: the bytes of each line in one request, the highest lane's where lanes coincide (R162, R166). -/
def windowRequests (stores : List (Nat × List (Place × Nat × Byte))) : List (Nat × List (Place × Nat × Byte)) :=
  let pass : Nat → List (Place × Nat × Byte) := fun k =>
    (stores.filter fun e => e.1 / 32 == k).foldl (fun acc e =>
      e.2.foldl (fun acc b => (acc.filter fun y => y.2.1 != b.2.1) ++ [b]) acc) []
  ([0, 1].map fun k => ((pass k).map requestKey).eraseDups.map fun key =>
    (k, (pass k).filter fun b => requestKey b == key)).flatten

/-- The window requests of a store sent: to the controller of the view, or to the host or a peer (R150, R304). -/
def sendStores (s : State) (x : Ex) (stores : List (Nat × List (Place × Nat × Byte))) : State :=
  (windowRequests stores).foldl (fun s r =>
    match r.2 with
    | [] => s
    | b :: _ =>
      match b.1 with
      | .far port a =>
        { s with far := s.far ++ [
          { port, addr := a, atom := none, core := coreOf s x.ref, ctx := ctxOf s x.ref, grid := some (gridOf s x.ref)
            crew := crewOf x.ref, team := teamOf s x.ref, cmd := none, va := BitVec.ofNat 64 b.2.1, pc := x.pc, writers := x.lanes.map (writerOf x)
            cells := r.2.map fun e => (match e.1 with | .far _ a => a | _ => 0, e.2.2) }] }
      | _ =>
        { s with winq := s.winq ++ [
          { ctx := ctxOf s x.ref, grid := gridOf s x.ref, core := coreOf s x.ref, crew := crewOf x.ref, team := teamOf s x.ref
            pc := x.pc, va := b.2.1, len := 0, write := some (r.2.map fun e => e.2), tag := 0, pass := r.1
            writers := x.lanes.map (writerOf x), subject := unitIdentity s x.ref }] }) s

/-- What keeps a store from being performed now: a line that it writes, or must write back first, and that another thread's irrevocable
attempt holds (R145, R217). -/
def storeBlocked (s : State) (x : Ex) (p : Path) (segs : List (Place × Nat × Nat)) (l : Nat) : Option Awaited :=
  if p.strong ≠ some .l2 then none
  else ((heldLine s (meOf x l) (linesOf segs)) <|> (segs.findSome? fun seg => match seg.1 with
    | .dev pa => backHeld s (meOf x l) p.core (pathOut s p pa seg.2.2 true)
    | _ => none)).map .line

/-- A store that is not transactional; an irrevocable attempt's store takes its line's tokens (R220). -/
def storeLane (s : State) (x : Ex) (p : Path) (acc : AccessReq) (bs : List Byte) (irrev : Bool) (l : Nat) : LaneOut × State :=
  let segs := segsOf s acc
  match storeBlocked s x p segs l with
  | some obj => (.held obj, s)
  | none =>
    let s1 := segs.foldl (fun s seg => storeSeg s x p seg ((bs.drop (seg.2.1 - acc.va)).take seg.2.2)) s
    let s2 := if irrev then (linesOf segs).foldl (fun s ln => setLine s ln { lineAt s ln with holder := some (meOf x l) }) s1 else s1
    (.stored, s2)

/-! ## LD and ST (R163) -/

/-- The lanes' outcomes of a load or store, in ascending lane. -/
def eachLane (ls : List Nat) (f : State → Nat → LaneOut × State) (s : State) : List (Nat × LaneOut) × State :=
  ls.foldl (fun acc l => let r := f acc.2 l; (acc.1 ++ [(l, r.1)], r.2)) (([], s) : List (Nat × LaneOut) × State)

/-- The lanes of a load in its passes of 32: a line whose read count has run out is dropped before a pass, and the reads of each pass are counted
once a line (R59, R144, R166). -/
def eachPass (rc : Nat) (ls : List Nat) (f : State → Nat → LaneOut × State) (s : State) : List (Nat × LaneOut) × State :=
  let s0 := dropDue s
  let a := eachLane (ls.filter fun l => decide (l < 32)) f s0
  let s1 := dropDue (countReads s0 a.2 1 (rc - 1))
  let b := eachLane (ls.filter fun l => decide (32 ≤ l)) f s1
  (a.1 ++ b.1, countReads s1 b.2 1 (rc - 1))

/-- Lanes of some outcomes. -/
def lanesWith (outs : List (Nat × LaneOut)) (p : LaneOut → Bool) : Mask := maskOf ((outs.filter fun e => p e.2).map (·.1))

/-- Lanes that must wait for an object do so in a group of their own; the others of the group issue without them. DESIGN CHOICE (log 49): R15
and R211 do not say that a load of which only some lanes wait splits; of a k destination the group that issues last has the value. -/
def parkLanes (x : Ex) (m : Mask) (obj : Awaited) (i : Instr) (s : State) : State :=
  let rest := x.grp.mask &&& ~~~m
  match x.ref with
  | .access _ => waitEx x obj i s
  | .crew _ _ =>
    if rest = 0#64 then waitEx x obj i s
    else
      let w : Waiting := { obj, instr := some i, since := x.clock, probe := x.clock + 65536 }
      putBody { s with cur := none } x.ref
        (setGroups x.body x.ref [{ x.grp with mask := m, inPlay := false, wait := some w }, { x.grp with mask := rest }])

/-- What keeps a load or store from being performed now, in this order: lanes that abort their transaction leave first and the others issue
again; lanes that must wait do so and the others issue without them; poison and a far refusal are faults (R211, R218, R377, R436). -/
def memStop (x : Ex) (i : Instr) (outs : List (Nat × LaneOut)) (addr : Nat → Nat) (s : State) : Option State :=
  let instrM := lanesWith outs fun o => o == .abort .instr
  let capM := lanesWith outs fun o => o == .abort .capacity
  let low : Mask → W64 := fun m => BitVec.ofNat 64 (addr (lowLane m))
  match x.ref with
  | .crew uid g =>
    if instrM != 0#64 then some (abortLanes s uid g instrM .instr none false)
    else if capM != 0#64 then some (abortLanes s uid g capM .capacity none false)
    else memFault outs low
  | .access _ => memFault outs low
where
  memFault (outs : List (Nat × LaneOut)) (low : Mask → W64) : Option State :=
    match outs.findSome? (fun e => match e.2 with | .held o => some o | _ => none) with
    | some obj => some (parkLanes x (lanesWith outs fun o => o == .held obj) obj i s)
    | none =>
      let pm := lanesWith outs fun o => o == .poison
      let rm := lanesWith outs fun o => o == .refused
      if pm != 0#64 then some (faultEx x .poison (low pm) pm s)
      else if rm != 0#64 then
        some (faultUnit { s with nums := { s.nums with fresh := s.nums.fresh + 1 } } x.ref x.grp.mask x.pc
          { cause := .xlatePerm, addr := low rm, mask := rm, detail := xlateDetail 0 .load, exact := false })
      else none

/-- The body of a unit as the state now holds it. -/
def Ex.now (x : Ex) (s : State) : Body := (bodyOf s x.ref).getD x.body

/-- The registers of a load sent on their way: its bytes at once, or, where the access is still to be performed, results under its number. -/
def sendLoads (x : Ex) (sz : Size) (d : Spec) (tag : Option Nat) (outs : List (Nat × LaneOut)) (b : Body) : Body :=
  outs.foldl (fun b e =>
    (loadParts b.isAp sz d).foldl (fun b p =>
      if isUniform b p.1 ∧ e.1 ≠ x.low then b
      else match tag, e.2 with
        | some t, _ => b.send (1#64 <<< e.1) p.1 t fun _ => none
        | none, .bytes bs => b.send (1#64 <<< e.1) p.1 0 fun _ => some (partVal (sizeSigned sz) bs p)
        | none, _ => b) b) b
where
  isUniform (b : Body) (code : Nat) : Bool := !b.isAp && decide (192 ≤ code) && decide (code < 240)

/-- The request of a lane's access. -/
def laneReq (s : State) (x : Ex) (reach : Reach) (acc : AccKind) (ea : Int) (n align : Nat) (farOk : Nat → Bool) (l : Nat) : LaneReq :=
  { reach, acc := { ctx := ctxOf s x.ref, team := teamOf s x.ref, acc, va := ea.toNat, n, align, tx := (txMode x l).1, farOk } }

/-- The alignment that an access needs (R160). -/
def alignOf (m : MemWord) (sz : Size) : Nat := if m.ord = .plain then 1 else sizeBytes sz

/-! ## Accesses performed after their issue (R138, R141, R160; log 36) -/

/-- The length of the pieces of an access: a naturally aligned one is whole, one of 16 bytes has two halves, a misaligned one is performed byte
by byte (R141, R160). -/
def grainOf (va n : Nat) : Nat := if va % max 1 n ≠ 0 then 1 else min n 8

/-- The pieces of a lane's access, in ascending address; `bs` are the bytes of a store. -/
def lanePieces (s : State) (q : AccessReq) (p : Path) (bs : List Byte) (l : Nat) : List Piece :=
  let g := max 1 (grainOf q.va q.n)
  (List.range (q.n / g)).map fun k =>
    { lane := l, va := q.va + k * g, n := g, path := p, bytes := (bs.drop (k * g)).take g, done := false, bad := false
      place := match placeOf s q.ctx q.team (some q.acc) (q.va + k * g) with | .ok pl => pl | .error _ => .far none 0 }

/-- The `%entry` of each thread of the issuing group. -/
def Ex.entries (x : Ex) : List (Nat × Addr) :=
  match x.body with
  | .ap a => [(0, a.entry)]
  | .crew c => (lanesOf x.grp.mask).filterMap fun l => (c.lanes.getD l none).map fun t => (l, t.entry)

/-- An access of an instruction as its unit's accesses are held: `d` gives the registers that its bytes go to, `rel` and `acq` the levels of its
release and acquire parts. -/
def pendFor (s : State) (x : Ex) (store : Bool) (rel acq : Option Lvl) (sz : Size) (d : Option Spec) (ps : List Piece) : Pend :=
  { tag := s.nums.uid, ctx := ctxOf s x.ref, grid := gridOf s x.ref, core := coreOf s x.ref, crew := crewOf x.ref
    team := teamOf s x.ref, pc := x.pc, store, rel, size := sizeBytes sz
    parts := match d with | some d => loadParts x.body.isAp sz d | none => []
    signed := sizeSigned sz, pieces := ps, acq, mask := x.grp.mask, entries := x.entries, subject := unitIdentity s x.ref }

/-- Whether a piece goes to memory through the core's outstanding-request places: any but those of scratchpads (R166). -/
def Piece.placed (q : Piece) : Bool := match q.place with | .pad _ _ => false | _ => true

/-- The requests of an access still to be performed: one for each line that a pass touches, and one for each lane of an atomic (R166). -/
def requestsOf (ps : List Piece) : List (Nat × Nat) :=
  let out := ps.filter fun q => !q.done && q.placed
  ((out.filter fun q => q.op.isNone).map fun q => (q.lane / 32, q.va / 128)).eraseDups
    ++ (out.filter fun q => q.op.isSome).map fun q => (q.lane, q.va / 128)

/-- The outstanding-request places of a core in use (R166). -/
def placesUsed (s : State) (core : Nat) : Nat :=
  (s.winq.filter fun w => w.core == core).length + (s.far.filter fun f => f.cmd.isNone && f.core == core).length
    + ((s.pend.filter fun p => p.core == core).map fun p =>
        (requestsOf (p.pieces.filter fun q => match q.place with | .view _ _ => false | _ => true)).length).sum

/-- Outstanding-request places of a core. -/
def corePlaces : Nat := 2048

/-- Whether requests find places at their core. -/
def placesFor (s : State) (core n : Nat) : Bool := n == 0 || decide (placesUsed s core + n ≤ corePlaces)

/-- Whether a piece may be performed after its issue: in device memory, or in the scratchpad of a team on its core (log 36). -/
def Piece.mayWait (s : State) (q : Piece) : Bool :=
  match q.place with
  | .dev _ => true
  | .pad t _ => (match tget s.teams t with | some tm => tm.image.isNone | none => false)
  | _ => false

/-- Whether the memory system performs the next access after its issue (log 36), where the rules let it: it counts no read, is in no transaction,
and goes to device memory and scratchpads alone. -/
def defers (s : State) (x : Ex) (m : MemWord) (ps : List Piece) : Bool :=
  s.late.headD false && m.rc == 0#4 && x.lanes.all (fun l => !(txMode x l).1 && !(txMode x l).2) && ps.all (Piece.mayWait s)

/-- Whether an access must see one of its unit's performed first that still is to be: one with which it has a byte in common (R137), or one that
acquires (R134). -/
def meetsPend (s : State) (u : UnitRef) (ps : List Piece) : Bool :=
  (pendOf s u).any fun p => p.acq.isSome || p.pieces.any fun o => !o.done && ps.any fun q => q.meets o

/-- An access entered among its unit's, with its requests to bound views. -/
def addPend (s : State) (p : Pend) : State :=
  let views := p.pieces.filter fun q => !q.done && (match q.place with | .view _ _ => true | _ => false)
  let reqs : List WinReq := (requestsOf views).map fun k =>
    let mine := views.filter fun q => q.lane / 32 == k.1 && q.va / 128 == k.2
    let lo := mine.foldl (fun a q => min a q.va) (128 * k.2 + 127)
    let hi := mine.foldl (fun a q => max a (q.va + q.n)) lo
    { ctx := p.ctx, grid := p.grid, core := p.core, crew := p.crew, team := p.team, pc := p.pc, va := lo, len := hi - lo
      write := none, tag := p.tag, pass := k.1, writers := (mine.map fun q => q.path.writer).eraseDups, subject := p.subject }
  { s with nums := { s.nums with uid := s.nums.uid + 1 }, pend := s.pend ++ [p], winq := s.winq ++ reqs }

/-- The pieces of a load's outcomes. -/
def LaneOut.pieceList (o : LaneOut) (p : Path) (va l : Nat) : List Piece :=
  match o with
  | .pieces ps => ps
  | .bytes bs => [{ lane := l, va, place := .dev 0, n := bs.length, path := p, bytes := bs, done := true, bad := false }]
  | _ => []

/-- The level of an acquire or release part, where the access has one. -/
def partLvl (has : Bool) (m : MemWord) : Option Lvl := if has then some (lvlOf m.scope) else none

/-- A load as its lanes ask for it: the size, the memory word, the destination and each lane's request. It waits until its requests find places
(R166). -/
def loadWork (i : Instr) (c : Ctl) (sz : Size) (m : MemWord) (d : Spec) (q : Nat → AccessReq) (x : Ex) (s : State) : State :=
  let ps := (x.lanes.map fun l => lanePieces s (q l) (pathOf s x m l) [] l).flatten
  let acq := m.ord == .acquire && x.lanes.any fun l => txMode x l == (false, false)
  if meetsPend s x.ref ps then drainFirst s x.ref i
  else if !placesFor s (coreOf s x.ref) (requestsOf ps).length then waitEx x .places i s
  else if defers s x m ps then
    let s1 := addPend { s with late := s.late.drop 1 } (pendFor s x false none (partLvl acq m) sz (some d) ps)
    retire x c (sendLoads x sz d (some s.nums.uid) (x.lanes.map fun l => (l, .stored)) (x.now s1)) s1
  else
    let one : State → Nat → LaneOut × State := fun s l =>
      match txMode x l with
      | (true, _) => txLoad s x (q l) l
      | (false, true) => loadLane s x { m with ord := .relaxed } { pathOf s x m l with strong := some .l2, ev := 0, rc := 0 } (q l) l
      | (false, false) => loadLane s x m (pathOf s x m l) (q l) l
    let r := eachPass m.rc.toNat x.lanes one s
    match memStop x i r.1 (fun l => (q l).va) s with
    | some s' => s'
    | none =>
      let s1 := if acq then acquireAt r.2 (coreOf s x.ref) (lvlOf m.scope) else r.2
      let s2 := { s1 with late := s1.late.drop 1 }
      if r.1.any (fun e => match e.2 with | .pieces _ => true | _ => false) then
        let all := (r.1.map fun e => e.2.pieceList (pathOf s x m e.1) (q e.1).va e.1).flatten
        let s3 := addPend s2 (pendFor s2 x false none none sz (some d) all)
        retire x c (sendLoads x sz d (some s2.nums.uid) r.1 (x.now s3)) s3
      else retire x c (sendLoads x sz d none r.1 (x.now s2)) s2

/-- A load instruction (R163 to R165). -/
def loadInstr (i : Instr) (c : Ctl) (reach : Reach) (sz : Size) (m : MemWord) (d a : Spec) (tx : TxRule) (s : State) : State :=
  let addr : Opnd := match reach with | .own => srcV a | _ => srcW a
  issue i c [{ cls := sizeCls sz, code := d, rd := false }, addr] [] tx (fun x s =>
    let ea : Nat → Int := fun l => effAddr x reach a m.off l
    let req : Nat → LaneReq := fun l => laneReq s x reach .load (ea l) (sizeBytes sz) (alignOf m sz) (fun _ => true) l
    match checkLanes s (x.lanes.map fun l => (l, req l, ea l)) with
    | some f => failLanes x f s
    | none => loadWork i c sz m d (fun l => (req l).acc) x s) s

/-- A store as its lanes ask for it: a store follows its thread's earlier ones, so that those still to be performed are performed first unless it
too is performed afterwards (R132). It waits until its requests find places (R166). -/
def storeWork (i : Instr) (c : Ctl) (sz : Size) (m : MemWord) (b : Spec) (q : Nat → AccessReq) (x : Ex) (s : State) : State :=
  let plain := x.lanes.any fun l => txMode x l == (false, false)
  let rel := m.ord == .release && plain
  let bytes := storeBytes x sz b
  let ps := (x.lanes.map fun l => lanePieces s (q l) (pathOf s x m l) (bytes l) l).flatten
  let late := defers s x m ps
  let lvl := lvlOf m.scope
  if meetsPend s x.ref ps || (!late && (pendOf s x.ref).any fun p => p.pieces.any (·.writes p) || rel) then drainFirst s x.ref i
  else if !placesFor s (coreOf s x.ref) (requestsOf ps).length then waitEx x .places i s
  else match (if rel then releaseObject s x.ref m.scope else none) with
    | some obj => waitEx x obj i s
    | none =>
      if late then
        let s1 := addPend { s with late := s.late.drop 1 } (pendFor s x true (partLvl rel m) none sz none ps)
        retire x c (x.now s1) s1
      else
        let s0 := if rel then releaseAt s (coreOf s x.ref) lvl else s
        let one : State → Nat → LaneOut × State := fun s l =>
          match txMode x l with
          | (true, _) => txStore s x (q l) (bytes l) l
          | (false, true) => storeLane s x { pathOf s x m l with strong := some .l2, ev := 0 } (q l) (bytes l) true l
          | (false, false) => storeLane s x (pathOf s x m l) (q l) (bytes l) false l
        let r := eachLane x.lanes one s0
        let out := x.lanes.map fun l => (l, if (txMode x l).1 then [] else windowBytes (segsOf s (q l)) (q l).va (bytes l))
        match memStop x i r.1 (fun l => (q l).va) s with
        | some s' => s'
        | none =>
          let s1 := sendStores { r.2 with late := r.2.late.drop 1 } x out
          retire x c (x.now s1) s1

/-- A store instruction (R163 to R165). -/
def storeInstr (i : Instr) (c : Ctl) (reach : Reach) (sz : Size) (m : MemWord) (a b : Spec) (tx : TxRule) (s : State) : State :=
  let addr : Opnd := match reach with | .own => srcV a | _ => srcW a
  issue i c [addr, { cls := sizeCls sz, code := b, rd := true }] [] tx (fun x s =>
    let ea : Nat → Int := fun l => effAddr x reach a m.off l
    let req : Nat → LaneReq := fun l => laneReq s x reach .store (ea l) (sizeBytes sz) (alignOf m sz) (fun _ => true) l
    match checkLanes s (x.lanes.map fun l => (l, req l, ea l)) with
    | some f => failLanes x f s
    | none => storeWork i c sz m b (fun l => (req l).acc) x s) s

def execLd (c : Ctl) (sz : Size) (m : MemWord) (d a : Spec) (s : State) : Host.Outcome State Fault Refusal :=
  .next (loadInstr (.ld c sz m d a) c .generic sz m d a .runs s)
def execSt (c : Ctl) (sz : Size) (m : MemWord) (a b : Spec) (s : State) : Host.Outcome State Fault Refusal :=
  .next (storeInstr (.st c sz m a b) c .generic sz m a b .runs s)
def execLds (c : Ctl) (sz : Size) (m : MemWord) (d a : Spec) (s : State) : Host.Outcome State Fault Refusal :=
  .next (loadInstr (.lds c sz m d a) c .own sz m d a .aborts s)
def execSts (c : Ctl) (sz : Size) (m : MemWord) (a b : Spec) (s : State) : Host.Outcome State Fault Refusal :=
  .next (storeInstr (.sts c sz m a b) c .own sz m a b .aborts s)
def execLdc (c : Ctl) (sz : Size) (m : MemWord) (d a : Spec) (s : State) : Host.Outcome State Fault Refusal :=
  .next (loadInstr (.ldc c sz m d a) c .slot sz m d a .aborts s)
def execStc (c : Ctl) (sz : Size) (m : MemWord) (a b : Spec) (s : State) : Host.Outcome State Fault Refusal :=
  .next (storeInstr (.stc c sz m a b) c .slot sz m a b .aborts s)

/-! ## FENCE (R136, R174) -/

def execFence (c : Ctl) (m : MemWord) (s : State) : Host.Outcome State Fault Refusal :=
  .next (issue (.fence c m) c [] [] .aborts (fun x s =>
    let rel := m.ord != .acquire
    let acq := m.ord != .release
    match (if rel then releaseObject s x.ref m.scope else none) with
    | some obj => waitEx x obj (.fence c m) s
    | none =>
      let core := coreOf s x.ref
      let s1 := if rel then releaseAt s core (lvlOf m.scope) else s
      let s2 := if acq then acquireAt s1 core (lvlOf m.scope) else s1
      retire x c x.body s2) s)

/-! ## CCTL, ICINV and PREF (R175 to R177) -/

/-- The physical ranges of a virtual range, page by page; a page that does not translate, or that is bound in a view or lies outside device
memory, is skipped. -/
def devRanges (s : State) (ctx va n : Nat) : List (Nat × Nat) :=
  let first := va / 65536
  let pages := if n = 0 then 0 else (va + n - 1) / 65536 - first + 1
  (List.range pages).filterMap fun i =>
    let lo := max va ((first + i) * 65536)
    let hi := min (va + n) ((first + i + 1) * 65536)
    match winOf lo with
    | .global => (match placeOf s ctx none none lo with
      | .ok (.dev pa) => some (pa, hi - lo)
      | _ => none)
    | _ => none

/-- Whether a block of bytes overlaps a range. -/
def overlaps (rs : List (Nat × Nat)) (blk size : Nat) : Bool :=
  rs.any fun r => decide (r.1 < blk * size + size) && decide (blk * size < r.1 + r.2)

/-- The sectors of a cache that overlap ranges. -/
def sectorsHit (c : List CacheByte) (rs : List (Nat × Nat)) : List Nat :=
  ((c.map fun b => b.addr / 16).eraseDups).filter fun sec => overlaps rs sec 16

/-- A cache without the bytes of some sectors, all or only the clean ones. -/
def dropSectors (c : List CacheByte) (rs : List (Nat × Nat)) (cleanOnly : Bool) : List CacheByte :=
  c.filter fun b => !(overlaps rs (b.addr / 16) 16) || (cleanOnly && b.dirty)

/-- `CCTL` on ranges, at the scope caches below a level (R175). -/
def cctlOn (s : State) (core : Nat) (lvl : Lvl) (op : CctlOp) (rs : List (Nat × Nat)) : State :=
  let wb := fun s =>
    let hit := sectorsHit (coreAt s core).l1 rs ++ sectorsHit (clusterAt s (core / 4)).cache rs
    backSectors s core lvl hit
  let drop := fun (s : State) (cleanOnly : Bool) =>
    let cr := coreAt s core
    let s := setCore s core { cr with l1 := dropSectors cr.l1 rs cleanOnly }
    match lvl with
    | .l2 => let cl := clusterAt s (core / 4); setCluster s (core / 4) { cl with cache := dropSectors cl.cache rs cleanOnly }
    | _ => s
  match lvl with
  | .l1 => s
  | _ => match op with
    | .wb => wb s
    | .inv => drop s true
    | .wbinv => drop (wb s) false

/-- The first line held by an irrevocable attempt that `CCTL` would write back (R145, R175, R220). -/
def cctlHeld (s : State) (x : Ex) (lvl : Lvl) (op : CctlOp) (rs : List (Nat × Nat)) : Option Awaited :=
  let core := coreOf s x.ref
  let hit := sectorsHit (coreAt s core).l1 rs ++ sectorsHit (clusterAt s (core / 4)).cache rs
  if lvl = .l2 ∧ op ≠ .inv then (backHeld s (meOf x x.low) core hit).map .line else none

/-- The lanes whose address is not canonical, with the fault (R175, R177). -/
def noncanonLanes (x : Ex) (ea : Nat → Nat) (s : State) : Option State :=
  let bad := x.lanes.filter fun l => decide (0x80000000000000 ≤ ea l)
  if bad.isEmpty then none else some (faultEx x .addrNoncanon (BitVec.ofNat 64 (ea (bad.headD 0))) (maskOf bad) s)

def execCctl (c : Ctl) (op : CctlOp) (m : MemWord) (a b : Spec) (s : State) : Host.Outcome State Fault Refusal :=
  .next (issue (.cctl c op m a b) c [srcW a, srcV b] [] .aborts (fun x s =>
    let ea : Nat → Nat := fun l => (effAddr x .generic a m.off l).toNat
    let ranges : Nat → List (Nat × Nat) := fun l => devRanges s (ctxOf s x.ref) (ea l) (x.v b l).toNat
    match noncanonLanes x ea s, x.lanes.findSome? (fun l => cctlHeld s x (lvlOf m.scope) op (ranges l)) with
    | some s', _ => s'
    | none, some obj => waitEx x obj (.cctl c op m a b) s
    | none, none =>
      let s1 := x.lanes.foldl (fun s l =>
        cctlOn s (coreOf s x.ref) (lvlOf m.scope) op (devRanges s (ctxOf s x.ref) (ea l) (x.v b l).toNat)) s
      retire x c x.body s1) s)

/-- An instruction cache without the fetch blocks that overlap ranges. -/
def dropBlocks (c : List (Nat × List Byte)) (rs : List (Nat × Nat)) : List (Nat × List Byte) :=
  c.filter fun e => !overlaps rs e.1 32

/-- The cores and clusters whose instruction caches a scope covers (R177). -/
def icScope (core : Nat) : Scope → (Nat → Bool) × (Nat → Bool)
  | .thread | .crew | .team => (fun n => n == core, fun _ => false)
  | .cluster => (fun n => n / 4 == core / 4, fun n => n == core / 4)
  | .die => (fun n => n / 32 == core / 32, fun n => n / 8 == core / 32)
  | .device | .system => (fun _ => true, fun _ => true)

/-- The fetch blocks of ranges discarded from the instruction caches of a scope. -/
def icDrop (s : State) (core : Nat) (sc : Scope) (rs : List (Nat × Nat)) : State :=
  let w := icScope core sc
  { s with
    cores := s.cores.map fun e => (e.1, if w.1 e.1 then { e.2 with icache := dropBlocks e.2.icache rs } else e.2)
    clusters := s.clusters.map fun e => (e.1, if w.2 e.1 then { e.2 with icache := dropBlocks e.2.icache rs } else e.2) }

def execIcinv (c : Ctl) (m : MemWord) (a b : Spec) (s : State) : Host.Outcome State Fault Refusal :=
  .next (issue (.icinv c m a b) c [srcW a, srcV b] [] .aborts (fun x s =>
    let ea : Nat → Nat := fun l => (x.w a l).toNat
    match noncanonLanes x ea s with
    | some s' => s'
    | none =>
      let s1 := x.lanes.foldl (fun s l =>
        icDrop s (coreOf s x.ref) m.scope (devRanges s (ctxOf s x.ref) (ea l) (x.v b l).toNat)) s
      retire x c x.body s1) s)

/-- `PREF` of one lane (R176): the line filled into the L2 and the scope caches that the scope names, without counting as a read. -/
def prefLine (s : State) (core ctx : Nat) (m : MemWord) (ea : Nat) : State :=
  match devRanges s ctx ea 1 with
  | [] => s
  | r :: _ =>
    let line := r.1 / 128
    let s := l2Due s line
    let s := if (lineAt s line).tokens.contains (core / 32) && (tget s.lines line).isSome then s
             else l2Touch s (128 * line) (some (core / 4)) (if m.rc = 0#4 then 0 else m.rc.toNat + 1)
    let secs := (List.range 8).map fun i => 8 * line + i
    let t := match lvlOf m.scope with
      | .l1 => countReads s (secs.foldl (fun s x => fillL1 s core x 0) s) 0 0
      | .cluster => countReads s (secs.foldl (fun s x => fillCluster s (core / 4) x 0) s) 0 0
      | .l2 => s
    noteUse t { core, writer := 0, strong := none, ev := m.evict.toNat, rc := 0 } (128 * line) 128

def execPref (c : Ctl) (m : MemWord) (a : Spec) (s : State) : Host.Outcome State Fault Refusal :=
  .next (issue (.pref c m a) c [srcW a] [] .runs (fun x s =>
    let s1 := x.lanes.foldl (fun s l =>
      prefLine s (coreOf s x.ref) (ctxOf s x.ref) m (effAddr x .generic a m.off l).toNat) s
    retire x c x.body s1) s)

end Sys2Proof.Machine
end

