-- ==== Sys2Proof/Machine/Engine.lean ====
section
/-! DEFINITION. What an engine does (R146, R182 to R184): its reads and writes, copies of bytes and elements, barrier updates and token
operations at completion, and engine faults. -/

namespace Sys2Proof.Machine

open Sys2Proof

/-- An engine fault on its way to a record: its cause, the faulting address, DETAIL. `held` marks no fault, but a line that an irrevocable
attempt holds, or a scratchpad to which requests are on their way: the command waits there (R145, R220, R417). -/
structure EngFail where
  cause  : Cause
  addr   : Nat
  detail : W32
  held   : Bool := false
  deriving DecidableEq, Repr

def EngFail.at (cause : Cause) (addr : Nat) : EngFail := { cause, addr, detail := 0 }

/-! ## Bytes (R183) -/

/-- Where an engine's byte lies, for the unit that issued it, or the fault it meets. A far side may refuse a read, and a peer a write (R377,
R378): a free choice (log 2). -/
def engByte (s : State) (by_ : Issuer) (acc : AccKind) (a : Nat) : Except EngFail Place :=
  let w := winOf a
  match w with
  | .noncanon => .error (.at .addrNoncanon a)
  | .reserved => .error (.at .addrReserved a)
  | _ =>
    match slotCheck s by_.team w with
    | some f => .error (.at f.cause a)
    | none => match padCheck s by_.team w with
      | some f => .error (.at f.cause a)
      | none => match placeOf s by_.ctx by_.team (some acc) a with
        | .error (c, l) =>
          .error { cause := c, addr := a, detail := if 70 ≤ xlateRank c ∧ xlateRank c ≤ 72 then xlateDetail l acc else 0 }
        | .ok (.far p b) =>
          if (acc = .eread ∨ p.isSome) ∧ Config.freeBool (2 * s.nums.fresh + 1) = true then
            .error { cause := .xlatePerm, addr := a, detail := xlateDetail 0 acc }
          else .ok (.far p b)
        | .ok (.dev pa) =>
          if acc = .ewrite ∧ heldByOther s nobody (pa / 128) = true then .error { cause := .xlatePerm, addr := a, detail := 0, held := true }
          else .ok (.dev pa)
        | .ok (.pad t off) =>
          if acc = .eread ∧ padBusy s t = true then .error { cause := .remoteTeam, addr := a, detail := 0, held := true } else .ok (.pad t off)
        | .ok p => .ok p

/-- The ranges that n bytes lie in, up to the first that faults. -/
def engScan (s : State) (by_ : Issuer) (acc : AccKind) (va : Nat) : (n : Nat) → List (Place × Nat × Nat) × Option EngFail
  | 0 => ([], none)
  | n + 1 =>
    match engByte s by_ acc (va % 2 ^ 64) with
    | .error e => ([], some e)
    | .ok p =>
      let r := engScan s by_ acc (va + 1) n
      (joinSeg p va r.1, r.2)

/-- How many bytes ranges hold. -/
def segsLen (segs : List (Place × Nat × Nat)) : Nat := segs.foldl (fun n e => n + e.2.2) 0

/-- Who asks, for an engine's granules of a bound view. -/
def Issuer.asker (s : State) (by_ : Issuer) : Asker :=
  let core := by_.coreNow s
  { ctx := by_.ctx, grid := by_.grid, core, team := teamIndex s by_.team
    subject := if by_.crew.isSome then identity 0 core by_.quarter by_.crewNum (if by_.lanes.toNat % 2 ^ 32 = 0 then by_.lanes.toNat / 2 ^ 32 else by_.lanes.toNat) else identity 1 core 0 0x3FF 0 }

/-- The binding of a slot. -/
def bindingOf (s : State) (ctx slot : Nat) : Option Binding :=
  match tget s.ctxs ctx with | some c => tget c.bindings slot | none => none

/-- Which bytes of a range are in poisoned units. -/
def badBytes (units : List Nat) (off n : Nat) : List Bool := (List.range n).map fun i => units.contains ((off + i) / 16)

/-- One range read: its bytes and which of them are poisoned. -/
def engReadSeg (s : State) (by_ : Issuer) (seg : Place × Nat × Nat) : List Byte × List Bool × State :=
  let n := seg.2.2
  match seg.1 with
  | .dev pa => let r := l2Load s pa n none; (r.1, badBytes s.poison pa n, r.2)
  | .pad t off => let r := padRead s t off n; (r.1, (List.range n).map fun i => padPoisoned s t (off + i) 1, r.2)
  | .far _ _ => let r := takeFreeBytes s n; (r.1, List.replicate n false, r.2)
  | .view slot off => match bindingOf s by_.ctx slot with
    | some b => let r := viewRead s (by_.asker s) b off n; (r.1, List.replicate n r.2.1, r.2.2)
    | none => (List.replicate n 0, List.replicate n false, s)

/-- Ranges read in order. -/
def engReadSegs (s : State) (by_ : Issuer) (segs : List (Place × Nat × Nat)) : List Byte × List Bool × State :=
  segs.foldl (fun acc seg =>
    let r := engReadSeg acc.2.2 by_ seg
    (acc.1 ++ r.1, acc.2.1 ++ r.2.1, r.2.2)) (([], [], s) : List Byte × List Bool × State)

/-- The identity of a command (R357). -/
def cmdIdentity (c : Cmd) : W64 :=
  match c.kind with
  | .fred _ _ _ g _ _ _ =>
    identity 4 c.by_.core (if c.by_.crew.isSome then c.by_.quarter else 0) (if c.by_.crew.isSome then c.by_.crewNum else 0x3FF)
      (2 ^ 31 + g)
  | _ => identity 4 c.by_.core 0 0x3FF c.place

/-- The identity of the command that is at work; zero where there is none. -/
def srcOf (s : State) (cmd : Option Nat) : W64 :=
  match cmd with
  | some n => (match tget s.cmds n with | some c => cmdIdentity c | none => 0)
  | none => 0

/-- One range written; `bad` says which bytes are poisoned, and their units are marked (R184). -/
def engWriteSeg (s : State) (by_ : Issuer) (cmd : Option Nat) (seg : Place × Nat × Nat) (bs : List Byte) (bad : List Bool) : State :=
  match seg.1 with
  | .dev pa => let s := l2Store s pa bs none; { s with poison := poisonBy s.poison pa bs.length bad }
  | .pad t off => deliver s t { src := srcOf s cmd, writers := [], req := .write off bs bad }
  | .far port a =>
    { s with far := s.far ++ (splitLines a bs).map fun r =>
      { port, addr := r.1, cells := r.2.mapIdx (fun i b => (r.1 + i, b)), atom := none, core := by_.core, ctx := by_.ctx
        grid := some by_.grid, crew := by_.crew, team := by_.team, cmd, va := BitVec.ofNat 64 (seg.2.1 + (r.1 - a)), pc := by_.pc } }
  | .view slot off => match bindingOf s by_.ctx slot with
    | some b => viewWrite s (by_.asker s) b (bs.mapIdx fun i v => (b.vbase + off + i, v)) (bad.any id)
    | none => s

/-- Ranges written in order. -/
def engWriteSegs (s : State) (by_ : Issuer) (cmd : Option Nat) (va : Nat) (segs : List (Place × Nat × Nat)) (bs : List Byte)
    (bad : List Bool) : State :=
  segs.foldl (fun s seg => engWriteSeg s by_ cmd seg ((bs.drop (seg.2.1 - va)).take seg.2.2) ((bad.drop (seg.2.1 - va)).take seg.2.2)) s

/-- n bytes read with their marks, or the fault of the first that faults. -/
def engTake (s : State) (by_ : Issuer) (va n : Nat) : Except EngFail (List Byte × List Bool × State) :=
  match engScan s by_ .eread va n with
  | (_, some e) => .error e
  | (segs, none) => .ok (engReadSegs s by_ segs)

/-- Bytes written with their marks, or the fault of the first that faults. -/
def engPut (s : State) (by_ : Issuer) (cmd : Option Nat) (va : Nat) (bs : List Byte) (bad : List Bool) : Except EngFail State :=
  match engScan s by_ .ewrite va bs.length with
  | (_, some e) => .error e
  | (segs, none) => .ok (engWriteSegs s by_ cmd va segs bs bad)

/-- n bytes read, with whether any is poisoned. -/
def engRead (s : State) (by_ : Issuer) (va n : Nat) : Except EngFail (List Byte × Bool × State) :=
  (engTake s by_ va n).map fun r => (r.1, r.2.1.any id, r.2.2)

/-- Bytes written, poisoned as a whole or not. -/
def engWrite (s : State) (by_ : Issuer) (cmd : Option Nat) (va : Nat) (bs : List Byte) (bad : Bool) : Except EngFail State :=
  engPut s by_ cmd va bs (List.replicate bs.length bad)

/-! ## Progress of a command -/

/-- What a piece of a command's work leaves: the state, the position reached, the fault it met, the index or coordinates read for the element
there, what a decode job has read, and the position at which all is done. -/
structure Prog where
  s     : State
  pos   : Nat
  fail  : Option EngFail
  index : Option (Nat × Bool) := none
  job   : Option (List Byte × Bool × Nat) := none
  total : Nat := 0

/-- A piece of a command's work, from a state, a position and the index read for its element. -/
abbrev PieceFn := State → Nat → Option (Nat × Bool) → Prog

/-- A piece, but for what has been done ahead of its turn (R146). -/
def skipAhead (ahead : List (Nat × Nat)) (piece : PieceFn) : PieceFn := fun s pos index =>
  match ahead.find? fun a => a.1 == pos with
  | some a => { s, pos := a.2, fail := none }
  | none => piece s pos index

/-- Work done piece by piece from a position up to a total; a piece is given the index read for its element, where one has been. -/
def runPieces (total : Nat) (piece : PieceFn) : (fuel : Nat) → State → Nat → Option (Nat × Bool) → Prog
  | 0, s, pos, index => { s, pos, fail := none, index }
  | n + 1, s, pos, index =>
    if total ≤ pos then { s, pos, fail := none, index }
    else
      let r := piece s pos index
      match r.fail with
      | some _ => r
      | none => runPieces total piece n r.s r.pos r.index

/-- The bytes of a copy up to the end of a destination unit: of 128 bytes (R419), or of a granule of a view of 64. -/
def copyUnit (s : State) (by_ : Issuer) (toPad : Bool) (d n : Nat) : Nat :=
  let unit := match winOf (d % 2 ^ 64) with
    | .global => if !toPad ∧ (viewOf s by_.ctx d).isSome then 64 else 128
    | _ => 128
  min (unit - d % unit) n

/-- A piece of a copy of n bytes: up to the end of a destination unit; it stops at the byte that faults. -/
def copyPiece (by_ : Issuer) (cmd : Option Nat) (src dst n : Nat) (toPad : Option Nat) (s : State) (pos : Nat) : Prog :=
  let a := src + pos
  let d := dst + pos
  let k := copyUnit s by_ toPad.isSome d (n - pos)
  let r := engScan s by_ .eread a k
  let w := match toPad with
    | some t => ([(Place.pad t d, d, k)], none)
    | none => engScan s by_ .ewrite d k
  let good := min (segsLen r.1) (segsLen w.1)
  let fail := if good < k then (if segsLen r.1 ≤ segsLen w.1 then r.2 else w.2) else none
  let rd := engReadSegs s by_ (engScan s by_ .eread a good).1
  let ws := match toPad with
    | some t => [(Place.pad t d, d, good)]
    | none => (engScan s by_ .ewrite d good).1
  { s := if good = 0 then s else engWriteSegs rd.2.2 by_ cmd d ws rd.1 rd.2.1, pos := pos + good, fail }

/-- One element copied whole, or not at all where a byte of it faults; `bad` says that its index was poisoned (R184). -/
def copyElem (s : State) (by_ : Issuer) (cmd : Option Nat) (src dst n : Nat) (bad : Bool) : Except EngFail State :=
  match engScan s by_ .eread src n, engScan s by_ .ewrite dst n with
  | (_, some e), _ => .error e
  | _, (_, some e) => .error e
  | (rs, none), (ws, none) =>
    let r := engReadSegs s by_ rs
    .ok (engWriteSegs r.2.2 by_ cmd dst ws r.1 (r.2.1.map (bad || ·)))

/-- An element piece: the position moves on by one where it succeeds. -/
def elemPiece (s : State) (pos : Nat) (r : Except EngFail State) : Prog :=
  match r with
  | .ok s' => { s := s', pos := pos + 1, fail := none }
  | .error e => { s, pos, fail := some e }

/-! ## Completion (R182, R185, R189) -/

/-- One update of the barrier at an offset of a team's scratchpad, wherever the team is. -/
def barUpdateAt (s : State) (team : Option Nat) (src : W64) (off bytes : Nat) (err : Bool) : State :=
  match team with
  | some t => deliver s t { src, writers := [], req := .bar off bytes err }
  | none => s

/-- The team of a grid with an index, where it has a scratchpad now (R204). -/
def teamAtIdx (s : State) (grid : Nat) (idx : W64) : Option Nat :=
  match s.teams.find? (fun e => e.2.grid == grid && e.2.idx == idx.toNat) with
  | some e => some e.1
  | none => none

/-- The team whose barrier a command counts on. -/
def Cmd.barTeam (s : State) (c : Cmd) : Option Nat :=
  match c.kind with
  | .cpyr t _ _ _ => teamAtIdx s c.by_.grid t
  | _ => c.by_.team

/-- The state with no command producing into an operand queue that a command produced into (R198). -/
def freeProducer (s : State) (n : Nat) (c : Cmd) : State :=
  match c.kind, c.by_.team with
  | .astream _ _ _ _ _ _, some t => modTeam s t fun tm =>
    { tm with queues := tm.queues.map fun q => if q.producer = some n then { q with producer := none } else q }
  | _, _ => s

/-- A command completes (R182): its token operation, then its barrier update, which one that stopped because its target team has no scratchpad
makes nowhere (R204). -/
def completeCmd (s : State) (n : Nat) (err : Bool) : State :=
  match tget s.cmds n with
  | none => s
  | some c =>
    let s1 := completeToken (freeProducer { s with cmds := tdel s.cmds n } n c) c.by_ (cmdIdentity c) err
    let s2 := match c.bar, c.lost with
      | some off, false => barUpdateAt s1 (c.barTeam s) (cmdIdentity c) off c.bytes err
      | _, _ => s1
    { idleNow s2 c.by_.core with
      sec := { s2.sec with attest := s2.sec.attest.filter (· != n) }
      freds := (s2.freds.map fun f => { f with cmds := f.cmds.filter (· != n) }).filter fun f => !f.cmds.isEmpty }

/-- Whether a team is away from every core. -/
def teamAway (s : State) (t : Option Nat) : Bool :=
  match t with
  | some t => (match tget s.teams t with
    | some tm => (match tm.place with | .absent _ _ | .returning _ _ _ _ => true | _ => false)
    | none => false)
  | none => false

/-- Whether writes of a command are still on their way: to a far side that has not acknowledged them, or to a team that is being moved or is
absent (R147, R148, R207). -/
def writesWait (s : State) (n : Nat) (c : Cmd) : Bool :=
  (s.far.any fun w => w.cmd == some n) || (queuedFrom s fun r => r.writers.isEmpty && r.src == cmdIdentity c).isSome

/-- The team that a command's record names: the one that it works for, or the absent one whose scratchpad it is bound for (R403, R423). -/
def Cmd.faultTeam (s : State) (c : Cmd) : Option Nat :=
  if !teamAway s c.by_.team && teamAway s (c.barTeam s) then c.barTeam s else c.by_.team

/-- A command stops at a fault, at the position it has reached: its record is made with the ASYNC flag, and ABSENT where the team it works for, or
is bound for, is away (R183, R403, R423). -/
def stopCmd (s : State) (n : Nat) (c : Cmd) (e : EngFail) : State :=
  let r := takeAsync s c.by_.grid
    { FRec.blank with
      cause := e.cause, addr := BitVec.ofNat 64 e.addr, pc := c.by_.pc, info := BitVec.ofNat 64 c.pos
      team := teamIndex s (c.faultTeam s), subject := cmdIdentity c, detail := e.detail, held := true, who := .cmd n
      absent := teamAway s (c.faultTeam s) }
  { r.2 with cmds := tset r.2.cmds n { c with stopped := some r.1, lost := e.cause == .remoteTeam }
             nums := { r.2.nums with fresh := r.2.nums.fresh + 1 } }

end Sys2Proof.Machine
end

