-- ==== Sys2Proof/Machine/Frames.lean ====
section
/-! DEFINITION. Operand and accumulator frames (R268 to R271), the step of the matrix slice (R274, R275), pruning (R281) and quantisation into
frames (R284). -/

namespace Sys2Proof.Machine

open Sys2Proof

/-! ## Formats (R268) -/

/-- Classes of formats: a step's two operands share one. -/
inductive FrameCls where
  | f8 | f46 | i8 | i4 | h16 | hb16 | mf8 | mf46 | mi8 | acc
  deriving DecidableEq, Repr

def frCls : FrameFmt → FrameCls
  | .e4m3 | .e5m2 => .f8
  | .e3m2 | .e2m3 | .e2m1 => .f46
  | .int8 => .i8
  | .int4 => .i4
  | .fp16 => .h16
  | .bf16 => .hb16
  | .mxe4m3 | .mxe5m2 => .mf8
  | .mxe3m2 | .mxe2m3 | .mxe2m1 => .mf46
  | .mxint8 => .mi8
  | .accF32 | .accS32 => .acc

/-- Bits of an element. -/
def frBits : FrameFmt → Nat
  | .e4m3 | .e5m2 | .int8 | .mxe4m3 | .mxe5m2 | .mxint8 => 8
  | .e3m2 | .e2m3 | .mxe3m2 | .mxe2m3 => 6
  | .e2m1 | .int4 | .mxe2m1 => 4
  | .fp16 | .bf16 => 16
  | .accF32 | .accS32 => 32

/-- K indices of an operand frame; the 16 columns of an accumulator frame. -/
def frKt (f : FrameFmt) : Nat := if frBits f = 8 then 32 else if frBits f < 8 then 64 else 16
/-- Bytes of a frame. -/
def frBytes (f : FrameFmt) : Nat := if frBits f = 32 then 1088 else if frBits f = 6 then 832 else 576
/-- Whether a format carries scales. -/
def frMx (f : FrameFmt) : Bool :=
  match frCls f with | .mf8 | .mf46 | .mi8 => true | _ => false
/-- Whether steps of a format add into INT32 accumulators. -/
def frInt (f : FrameFmt) : Bool :=
  match f with | .int8 | .int4 | .accS32 => true | _ => false
/-- Whether a format's frame can be a 4-of-8 value frame (R269, R281). -/
def frSparse (f : FrameFmt) : Bool :=
  match frCls f with | .f8 | .i8 | .mf8 | .mi8 => true | _ => false

/-- The value of an element code, before its scale (R232, R233). -/
def frValue (f : FrameFmt) (c : Nat) : Num :=
  match f with
  | .e4m3 | .mxe4m3 => fE4M3.value c
  | .e5m2 | .mxe5m2 => fE5M2.value c
  | .e3m2 | .mxe3m2 => fE3M2.value c
  | .e2m3 | .mxe2m3 => fE2M3.value c
  | .e2m1 | .mxe2m1 => fE2M1.value c
  | .fp16 => fp16.value c
  | .bf16 => bf16.value c
  | .int8 | .mxint8 => ofIntExp (intOf 8 c) 0
  | .int4 => ofIntExp (intOf 4 c) 0
  | .accF32 => fp32.value c
  | .accS32 => ofIntExp (intOf 32 c) 0

/-- The integer an element of an integer format stands for. -/
def frIntVal (f : FrameFmt) (c : Nat) : Int := intOf (frBits f) c

/-! ## Frames (R269, R270) -/

/-- A frame as read: its format, role, SPARSE bit, header and body as numbers. -/
structure Frm where
  fmt    : FrameFmt
  role   : Role
  sparse : Bool
  hdr    : Nat
  body   : Nat
  deriving DecidableEq, Repr

def roleCode : Role → Nat
  | .a => 0 | .b => 1 | .acc => 2

/-- DIM0 and DIM1 of a role. -/
def frDims (f : FrameFmt) (r : Role) : Nat × Nat :=
  match r with | .a => (16, frKt f) | .b => (frKt f, 16) | .acc => (16, 16)

/-- The scale of block b of row or column r. -/
def Frm.scale (f : Frm) (r b : Nat) : Nat := f.hdr / 2 ^ (8 * (32 + 2 * r + b)) % 256
/-- The element of row or column m at K index k. -/
def Frm.elem (f : Frm) (m k : Nat) : Nat := elemAt (frBits f.fmt) f.body (m * frKt f.fmt + k)

/-- Whether SCALES are as the format wants them. -/
def scalesOk (f : FrameFmt) (hdr : Nat) : Bool :=
  if frMx f then frKt f != 32 || (List.range 16).all fun r => hdr / 2 ^ (8 * (33 + 2 * r)) % 256 == 0
  else hdr / 2 ^ 256 == 0

/-- A well-formed frame from its header and body; none where it is not well-formed. -/
def Frm.parse (hdr body : Nat) : Option Frm :=
  match FrameFmt.ofCode (hdr % 64), Role.ofCode (hdr / 2 ^ 8 % 4) with
  | some f, some r =>
    let sparse := hdr / 2 ^ 10 % 2 == 1
    let dims := frDims f r
    let ok := (frCls f == .acc) == (r == .acc) && hdr / 64 % 4 == 0 && hdr / 2 ^ 11 % 32 == 0
      && hdr / 2 ^ 32 % 2 ^ 224 == 0 && hdr / 2 ^ 16 % 256 == dims.1 && hdr / 2 ^ 24 % 256 == dims.2
      && scalesOk f hdr && (!sparse || (r == .a && frSparse f))
    if ok then some { fmt := f, role := r, sparse, hdr, body } else none
  | _, _ => none

/-- The header of a frame with its scales as a number in SCALES' place. -/
def frHeader (f : FrameFmt) (r : Role) (sparse : Bool) (scales : Nat) : Nat :=
  FrameFmt.code f + roleCode r * 2 ^ 8 + (if sparse then 2 ^ 10 else 0) + (frDims f r).1 * 2 ^ 16
    + (frDims f r).2 * 2 ^ 24 + scales * 2 ^ 256

/-- SCALES from a scale for each row or column and block. -/
def scalesOf (f : FrameFmt) (sc : Nat → Nat → Nat) : Nat :=
  if frMx f then vecOf 8 ((List.range 32).map fun i => if i % 2 * 32 < frKt f then sc (i / 2) (i % 2) else 0) else 0

/-- The bytes of an operand frame from its elements by row or column and K index. -/
def frFrame (f : FrameFmt) (r : Role) (sc elem : Nat → Nat → Nat) : List Byte :=
  let kt := frKt f
  let body := vecOf (frBits f) ((List.range (16 * kt)).map fun i => elem (i / kt) (i % kt))
  toBytes 64 (frHeader f r false (scalesOf f sc)) ++ toBytes (frBytes f - 64) body

/-! ## Accumulators (R266, R279) -/

/-- The elements that an accumulator reads as. -/
def Acc.read (a : Acc) (i j : Nat) : W32 := if a.valid then a.elems.getD (16 * i + j) 0 else 0

/-- An accumulator frame (R279). -/
def accFrame (a : Acc) : List Byte :=
  toBytes 64 (frHeader (if a.int then .accS32 else .accF32) .acc false 0)
    ++ toBytes 1024 (vecOf 32 ((List.range 256).map fun i => (a.read (i / 16) (i % 16)).toNat))

/-- An accumulator loaded from a frame (R279). -/
def accLoad (f : Frm) (a : Acc) : Acc :=
  { a with valid := true, dirty := false, int := frInt f.fmt
           elems := (List.range 256).map fun i => BitVec.ofNat 32 (elemAt 32 f.body i) }

/-! ## The step (R274, R275) -/

/-- The A operand of a step: its format, the element of row i at k where the pair contributes, and the scale of row i, block b. -/
structure StepA where
  fmt   : FrameFmt
  elem  : Nat → Nat → Option Nat
  scale : Nat → Nat → Nat

/-- The A operand of a dense frame. -/
def Frm.asA (f : Frm) : StepA := { fmt := f.fmt, elem := fun i k => some (f.elem i k), scale := f.scale }

/-- A product's value under the scales of its blocks; none for a zero times an infinity. -/
def termOf (a : StepA) (b : Frm) (i j k : Nat) (c : Nat) : Option Num :=
  match (frValue a.fmt c).mul (frValue b.fmt (b.elem j k)) with
  | none => if frMx a.fmt ∧ (a.scale i (k / 32) = 255 ∨ b.scale j (k / 32) = 255) then some .nan else none
  | some v =>
    if frMx a.fmt then
      let sa := a.scale i (k / 32)
      let sb := b.scale j (k / 32)
      if sa = 255 ∨ sb = 255 then some .nan
      else some (match v with
        | .fin s n e => .fin s n (e + (sa : Int) + (sb : Int) - 254)
        | v => v)
    else some v

/-- The contributing pairs of an element. -/
def pairsOf (a : StepA) (i : Nat) : List (Nat × Nat) :=
  (List.range (frKt a.fmt)).filterMap fun k => match a.elem i k with | some c => some (k, c) | none => none

/-- The terms of an element (R274): one for each pair, or one for each block of MXINT8. -/
def stepTerms (a : StepA) (b : Frm) (i j : Nat) : List (Option Num) :=
  let ps := pairsOf a i
  if frCls a.fmt = .mi8 then
    if ps.isEmpty then []
    else
      let z := ps.foldl (fun z p => z + frIntVal a.fmt p.2 * frIntVal b.fmt (b.elem j p.1)) 0
      let sa := a.scale i 0
      let sb := b.scale j 0
      [some (if sa = 255 ∨ sb = 255 then .nan else ofIntExp z ((sa : Int) + (sb : Int) - 254 - 12))]
  else ps.map fun p => termOf a b i j p.1 p.2

/-- A finite term in units of 2^g, truncated toward zero. -/
def truncTo (g : Int) : Num → Int
  | .fin s n e =>
    let m : Nat := if g ≤ e then n * 2 ^ (e - g).natAbs else n / 2 ^ (g - e).natAbs
    if s then -(m : Int) else m
  | _ => 0

/-- S of R274: the sum of finite terms, each truncated 34 places below the greatest. -/
def stepSum (ts : List Num) : Num :=
  let tops := ts.filterMap fun t => match t with
    | .fin _ n e => if n = 0 then none else some ((Nat.log2 n : Int) + e)
    | _ => none
  match tops with
  | [] => .fin (ts.all Num.isNeg) 0 0
  | t :: r =>
    let g := r.foldl max t - 34
    let z := ts.foldl (fun z x => z + truncTo g x) 0
    if z = 0 then .fin false 0 0 else ofIntExp z g

/-- The new value of an FP32 element (R274). -/
def stepF32 (sat : Bool) (c : W32) (ts : List (Option Num)) : W32 × Option Arith :=
  let vs := ts.filterMap id
  let cv := fp32.value c.toNat
  let clamp : Nat × Option Arith → W32 × Option Arith := fun r =>
    if r.1 % 2 ^ 31 = fp32.infCode ∧ sat then (BitVec.ofNat 32 (r.1 - 1), some .accSat) else (BitVec.ofNat 32 r.1, r.2)
  if ts.isEmpty then (c, none)
  else if cv.isNan ∨ vs.any Num.isNan then (0x7FC00000, none)
  else if ts.any Option.isNone then (0x7FC00000, some .invalid)
  else
    let infs := (cv :: vs).filterMap fun v => match v with | .inf s => some s | _ => none
    match infs with
    | s :: r => if r.any (· != s) then (0x7FC00000, some .invalid) else clamp (fp32.signed s fp32.infCode, none)
    | [] => clamp (finish fp32 .rne (cv.add .rne (stepSum vs)))

/-- The new value of an INT32 element. -/
def stepS32 (sat : Bool) (c : W32) (ts : List Int) : W32 × Option Arith :=
  let z := ts.foldl (· + ·) c.toInt
  if sat then (let r := clampInt 32 z; (BitVec.ofInt 32 r.1, if r.2 then some .accSat else none)) else (BitVec.ofInt 32 z, none)

/-- One element of a step. -/
def stepElem (sat : Bool) (a : StepA) (b : Frm) (c : W32) (i j : Nat) : W32 × Option Arith :=
  if frInt a.fmt then
    stepS32 sat c ((pairsOf a i).map fun p => frIntVal a.fmt p.2 * frIntVal b.fmt (b.elem j p.1))
  else stepF32 sat c (stepTerms a b i j)

/-- A step into an accumulator, with its events (R266, R274). -/
def stepAcc (sat : Bool) (a : StepA) (b : Frm) (m : Acc) : Acc × List Arith :=
  let rs := (List.range 256).map fun e => stepElem sat a b (m.read (e / 16) (e % 16)) (e / 16) (e % 16)
  ({ m with valid := true, dirty := true, int := frInt a.fmt, elems := rs.map (·.1) }, (rs.filterMap (·.2)).eraseDups)

/-! ## 4-of-8 metadata (R271, R281) -/

/-- The four indices of a group's metadata. -/
def metaIdx (m : Nat) : List Nat := [m % 8, m / 8 % 8, m / 64 % 8, m / 512 % 8]

/-- Whether a group's metadata is malformed. -/
def metaBad (m : Nat) : Bool :=
  let x := metaIdx m
  !(decide (x.getD 0 0 < x.getD 1 0) && decide (x.getD 1 0 < x.getD 2 0) && decide (x.getD 2 0 < x.getD 3 0)) || m / 2 ^ 12 != 0

/-- The metadata of group q of row i from the words of the 32 lanes. -/
def metaAt (w : Nat → W32) (i q : Nat) : Nat := (w (2 * i + q / 2)).toNat / 2 ^ (16 * (q % 2)) % 2 ^ 16

/-- The A operand of a value frame under metadata (R280). -/
def sparseA (f : Frm) (w : Nat → W32) : StepA :=
  { fmt := f.fmt, scale := f.scale
    elem := fun i k =>
      match (metaIdx (metaAt w i (k / 8))).findIdx? (· == k % 8) with
      | some u => some (elemAt 8 f.body (16 * i + 4 * (k / 8) + u))
      | none => none }

/-- A magnitude for the order of R281: NaN above infinity above every finite. -/
def pruneKey (f : FrameFmt) (c : Nat) : Num × Bool :=
  match frValue f c with
  | .nan => (.inf false, true)
  | v => (numAbs v, false)

/-- Whether x comes before y by magnitude. -/
def pruneBefore (x y : Num × Bool) : Bool := if x.2 || y.2 then x.2 && !y.2 else decide (0 < x.1.cmp y.1)

/-- The indices kept of a group of eight: the first four by magnitude, ties by lower index; in ascending order. -/
def pruneKeep (f : FrameFmt) (es : List Nat) : List Nat :=
  let keys := es.map (pruneKey f)
  let rank : Nat → Nat := fun i =>
    ((List.range 8).filter fun j =>
      let a := keys.getD j (.nan, true)
      let b := keys.getD i (.nan, true)
      j != i && (pruneBefore a b || (!pruneBefore b a && decide (j < i)))).length
  (List.range 8).filter fun i => decide (rank i < 4)

/-- `MCOMP` (R281): the value frame's bytes, and the metadata word of each lane. Every element under a scale of 0xFF is a NaN (R235), so such
a row keeps the first four of each group. -/
def pruneFrame (f : Frm) : List Byte × (Nat → W32) :=
  let kept : Nat → Nat → List Nat := fun i q =>
    if frMx f.fmt && f.scale i 0 == 255 then [0, 1, 2, 3] else pruneKeep f.fmt ((List.range 8).map fun u => f.elem i (8 * q + u))
  let body := ((List.range 16).map fun i => ((List.range 4).map fun q =>
    (kept i q).map fun u => f.elem i (8 * q + u)).flatten).flatten
  let mt : Nat → Nat → Nat := fun i q =>
    let k := kept i q
    k.getD 0 0 + k.getD 1 0 * 8 + k.getD 2 0 * 64 + k.getD 3 0 * 512
  let hdr := FrameFmt.code f.fmt + 2 ^ 10 + 16 * 2 ^ 16 + 32 * 2 ^ 24 + f.hdr / 2 ^ 256 * 2 ^ 256
  (toBytes 64 hdr ++ toBytes 512 (vecOf 8 body),
   fun l => BitVec.ofNat 32 (mt (l / 2) (2 * (l % 2)) + mt (l / 2) (2 * (l % 2) + 1) * 2 ^ 16))

/-! ## Quantisation (R284) -/

/-- The MX element kind of a format. -/
def frMxElem : FrameFmt → MxElem
  | .mxe4m3 => .flt fE4M3 | .mxe5m2 => .flt fE5M2 | .mxe3m2 => .flt fE3M2 | .mxe2m3 => .flt fE2M3
  | .mxe2m1 => .flt fE2M1 | _ => .int8

/-- An MX frame quantised from accumulators (R284): `src r k` is the FP32 code of row or column r at K index k. The frame's bytes, whether
a block is special, and the generator after one step an element in ascending body order. -/
def quantFrame (f : FrameFmt) (role : Role) (rnd : Rnd) (src : Nat → Nat → Nat) (gen : W32) : List Byte × Bool × W32 :=
  let kt := frKt f
  let blocks := (List.range (16 * (kt / 32))).foldl (fun acc i =>
    let r := i / (kt / 32)
    let b := i % (kt / 32)
    let q := mxQuantise (frMxElem f) rnd acc.2.2 ((List.range 32).map fun u => src r (32 * b + u))
    (acc.1 ++ [(q.1, q.2.1)], acc.2.1 || q.2.2.1, q.2.2.2)) (([], false, gen) : List (Nat × List Nat) × Bool × W32)
  let at_ : Nat → Nat → Nat × List Nat := fun r b => blocks.1.getD (r * (kt / 32) + b) (0, [])
  (frFrame f role (fun r b => (at_ r b).1) (fun r k => (at_ r (k / 32)).2.getD (k % 32) 0), blocks.2.1, blocks.2.2)

end Sys2Proof.Machine
end

