-- ==== Sys2Proof/Machine/Pages.lean ====
section
/-! DEFINITION. Page decoding (R313 to R318): which streams the decoders accept, the colours of a page, resampling, patch records and the status
record. What a stream's entropy-coded part gives is left to its codec's own standard (log 5). -/

namespace Sys2Proof.Machine

open Sys2Proof

/-! ## Headers (R313) -/

/-- n bytes at an offset of a stream, most significant first; none past its end. -/
def be (bs : List Byte) (o n : Nat) : Option Nat :=
  let r := (bs.drop o).take n
  if r.length = n then some (r.foldl (fun z b => 256 * z + b.toNat) 0) else none

/-- What a stream's headers say of its page: its size, and of each component the columns and rows of samples and how many pixels of a row and
of a column share one sample; whether three components are in RGB already; whether its patches are written row by row as it is
decoded (R317); and, for Group 4, whether the first colour is white. -/
structure PageHead where
  w      : Nat
  h      : Nat
  comps  : List (Nat × Nat)
  rgb    : Bool
  byRows : Bool
  white  : Bool
  deriving DecidableEq, Repr

/-- What JPEG's markers have said up to a scan: the frame's kind, precision, lines, columns and sampling factors, and the colour-transform byte
of an APP14 segment. -/
structure JpegHead where
  frame : Option (Nat × Nat × Nat × Nat × List (Nat × Nat))
  app14 : Option Nat

/-- The markers of a JPEG stream up to its first scan, with its offset, or the error code that they give: 1 where they break the standard, 2 outside R313, 3 where
the input ends. -/
def jpegMarkers (bs : List Byte) : (fuel : Nat) → (o : Nat) → JpegHead → Except Nat (JpegHead × Nat)
  | 0, _, _ => .error 1
  | n + 1, o, h =>
    match be bs o 1, be bs (o + 1) 1 with
    | some 0xFF, some 0xFF => jpegMarkers bs n (o + 1) h
    | some 0xFF, some m =>
      if m = 0xDA then .ok (h, o)
      else if m = 0xD9 ∨ m = 0 then .error 1
      else if m = 1 ∨ (0xD0 ≤ m ∧ m ≤ 0xD8) then jpegMarkers bs n (o + 2) h
      else match be bs (o + 2) 2 with
        | none => .error 3
        | some len =>
          if len < 2 then .error 1
          else if bs.length < o + 2 + len then .error 3
          else
            let at_ : Nat → Nat → Nat := fun i k => (be bs (o + 4 + i) k).getD 0
            if m = 0xC0 ∨ m = 0xC1 ∨ m = 0xC2 then
              let comps := (List.range (at_ 5 1)).map fun i => (at_ (7 + 3 * i) 1 / 16, at_ (7 + 3 * i) 1 % 16)
              if len ≠ 8 + 3 * at_ 5 1 ∨ h.frame.isSome then .error 1
              else jpegMarkers bs n (o + 2 + len) { h with frame := some (m, at_ 0 1, at_ 1 2, at_ 3 2, comps) }
            else if m = 0xDE ∨ (0xC3 ≤ m ∧ m ≤ 0xCF ∧ m ≠ 0xC4 ∧ m ≠ 0xC8 ∧ m ≠ 0xCC) then .error 2
            else if m = 0xEE ∧ 14 ≤ len ∧ be bs (o + 4) 5 = some 0x41646F6265 then
              jpegMarkers bs n (o + 2 + len) { h with app14 := some (at_ 11 1) }
            else jpegMarkers bs n (o + 2 + len) h
    | some _, some _ => .error 1
    | _, _ => .error 3

/-- A JPEG stream from a scan to its end (R318): the offset after EOI, with the number of lines that a DNL segment gives; `coded` tells entropy-coded
data from segments. -/
def jpegEnd (bs : List Byte) : (fuel : Nat) → (o : Nat) → (coded : Bool) → (lines : Option Nat) → Except Nat (Nat × Option Nat)
  | 0, _, _, _ => .error 3
  | n + 1, o, coded, lines =>
    match be bs o 1, be bs (o + 1) 1 with
    | some 0xFF, some 0xFF => jpegEnd bs n (o + 1) coded lines
    | some 0xFF, some m =>
      if coded ∧ (m = 0 ∨ (0xD0 ≤ m ∧ m ≤ 0xD7)) then jpegEnd bs n (o + 2) true lines
      else if m = 0xD9 then .ok (o + 2, lines)
      else if m ≤ 1 ∨ (0xC0 ≤ m ∧ m ≤ 0xCF ∧ m ≠ 0xC4 ∧ m ≠ 0xC8 ∧ m ≠ 0xCC) ∨ (0xD0 ≤ m ∧ m ≤ 0xD8) then .error 1
      else match be bs (o + 2) 2 with
        | none => .error 3
        | some len =>
          if len < 2 then .error 1
          else jpegEnd bs n (o + 2 + len) (m == 0xDA) (if m = 0xDC ∧ lines = none then be bs (o + 4) 2 else lines)
    | some _, some _ => if coded then jpegEnd bs n (o + 1) true lines else .error 1
    | _, _ => .error 3

/-- The end of a JPEG page and the lines that its scans give. -/
def jpegTail (bs : List Byte) : Except Nat (Nat × Option Nat) :=
  match jpegMarkers bs (bs.length + 1) 2 { frame := none, app14 := none } with
  | .error e => .error e
  | .ok (_, o) => jpegEnd bs (bs.length + 1) o false none

/-- A JPEG page's head. `lines` is the number of lines where the frame leaves it to the scan. -/
def jpegHead (bs : List Byte) (lines : Nat) : Except Nat PageHead :=
  match be bs 0 2 with
  | none => .error 3
  | some soi =>
    if soi ≠ 0xFFD8 then .error 1
    else match jpegMarkers bs (bs.length + 1) 2 { frame := none, app14 := none } with
      | .error e => .error e
      | .ok (h, _) => match h.frame with
        | none => .error 1
        | some (kind, prec, y, x, comps) =>
          let hm := comps.foldl (fun m c => max m c.1) 1
          let vm := comps.foldl (fun m c => max m c.2) 1
          if prec ≠ 8 ∨ (comps.length ≠ 1 ∧ comps.length ≠ 3) then .error 2
          else if comps.any (fun c => c.1 < 1 || 4 < c.1 || c.2 < 1 || 4 < c.2) ∨ x = 0 then .error 1
          else if comps.any (fun c => 2 < c.1 || 2 < c.2) then .error 2
          else .ok { w := x, h := if y = 0 then lines else y, comps := comps.map fun c => (hm / c.1, vm / c.2)
                     rgb := h.app14 == some 0, byRows := kind != 0xC2, white := false }

/-- The segments of a JPEG 2000 header, the main one after SIZ or a tile part's after SOT, up to the marker that ends it, with that marker's offset: an
error where a region of interest or larger code-blocks are asked for. -/
def j2kMarkers (bs : List Byte) (last : Nat) : (fuel : Nat) → (o : Nat) → Except Nat Nat
  | 0, _ => .error 1
  | n + 1, o =>
    match be bs o 2 with
    | none => .error 3
    | some m =>
      let at_ : Nat → Nat := fun i => (be bs (o + 4 + i) 1).getD 0
      if m = last then .ok o
      else match be bs (o + 2) 2 with
        | none => .error 3
        | some len =>
          if m / 256 ≠ 0xFF ∨ len < 2 then .error 1
          else if m = 0xFF5E then .error 2
          else if m = 0xFF52 ∧ (4 < at_ 6 % 16 ∨ 4 < at_ 7 % 16) then .error 2
          else if m = 0xFF53 ∧ (4 < at_ 3 % 16 ∨ 4 < at_ 4 % 16) then .error 2
          else j2kMarkers bs last n (o + 2 + len)

/-- The offset of the EOC marker from an offset on. -/
def j2kEoc (bs : List Byte) : (fuel : Nat) → (o : Nat) → Except Nat Nat
  | 0, _ => .error 3
  | n + 1, o => match be bs o 2 with
    | none => .error 3
    | some m => if m = 0xFFD9 then .ok o else j2kEoc bs n (o + 1)

/-- The tile parts of a JPEG 2000 codestream from an offset to the end of its EOC (R318). -/
def j2kTiles (bs : List Byte) : (fuel : Nat) → (o : Nat) → Except Nat Nat
  | 0, _ => .error 1
  | n + 1, o =>
    match be bs o 2 with
    | none => .error 3
    | some m =>
      if m = 0xFFD9 then .ok (o + 2)
      else if m ≠ 0xFF90 then .error 1
      else match be bs (o + 6) 4 with
        | none => .error 3
        | some len => match j2kMarkers bs 0xFF93 (bs.length + 1) (o + 12) with
          | .error e => .error e
          | .ok sod => match (if len = 0 then j2kEoc bs (bs.length + 1) (sod + 2) else .ok (o + len)) with
            | .error e => .error e
            | .ok next =>
              if next < sod + 2 then .error 1 else if bs.length < next then .error 3 else j2kTiles bs n next

/-- The end of a JPEG 2000 page whose head is good. -/
def j2kTail (bs : List Byte) : Except Nat Nat :=
  match j2kMarkers bs 0xFF90 (bs.length + 1) (42 + 3 * (be bs 40 2).getD 0) with
  | .error e => .error e
  | .ok o => j2kTiles bs (bs.length + 1) o

/-- A JPEG 2000 page's head. -/
def j2kHead (bs : List Byte) : Except Nat PageHead :=
  let at_ : Nat → Nat → Nat := fun o k => (be bs o k).getD 0
  if bs.length < 4 then .error 3
  else if at_ 0 4 = 0x0000000C then .error 2
  else if at_ 0 4 ≠ 0xFF4FFF51 then .error 1
  else if bs.length < 42 then .error 3
  else
    let n := at_ 40 2
    let w := at_ 8 4 - at_ 16 4
    let h := at_ 12 4 - at_ 20 4
    let comps := (List.range n).map fun i => (at_ (42 + 3 * i) 1, at_ (43 + 3 * i) 1, at_ (44 + 3 * i) 1)
    if at_ 4 2 ≠ 38 + 3 * n ∨ w = 0 ∨ h = 0 then .error 1
    else if bs.length < 42 + 3 * n then .error 3
    else if (n ≠ 1 ∧ n ≠ 3) ∨ (comps.any fun c => c.1 != 7 || c.2.1 != 1 || c.2.2 != 1) then .error 2
    else match j2kMarkers bs 0xFF90 (bs.length + 1) (42 + 3 * n) with
      | .error e => .error e
      | .ok _ => .ok { w, h, comps := comps.map fun _ => (1, 1), rgb := true, byRows := false, white := false }

/-- n bytes of a TIFF file in its byte order. -/
def tiffAt (big : Bool) (bs : List Byte) (o n : Nat) : Option Nat :=
  if big then be bs o n else be (((bs.drop o).take n).reverse) 0 n

/-- The offset of an image file directory of a TIFF file. -/
def tiffIfd (big : Bool) (bs : List Byte) : (k o : Nat) → Except Nat Nat
  | 0, o => if o = 0 then .error 1 else .ok o
  | k + 1, o =>
    if o = 0 then .error 1
    else match tiffAt big bs o 2 with
      | none => .error 3
      | some n => match tiffAt big bs (o + 2 + 12 * n) 4 with
        | none => .error 3
        | some next => tiffIfd big bs k next

/-- A directory of a TIFF file: its byte order, where it stands, and how many entries it has. -/
structure TiffDir where
  big : Bool
  at_ : Nat
  n   : Nat

/-- The directory of a page. -/
def tiffDir (bs : List Byte) (ifd : Nat) : Except Nat TiffDir :=
  match be bs 0 2 with
  | none => .error 3
  | some order =>
    let big := order == 0x4D4D
    if order ≠ 0x4D4D ∧ order ≠ 0x4949 then .error 1
    else if tiffAt big bs 2 2 ≠ some 42 then (if bs.length < 4 then .error 3 else .error 1)
    else match tiffAt big bs 4 4 with
      | none => .error 3
      | some o => match tiffIfd big bs ifd o with
        | .error e => .error e
        | .ok d => match tiffAt big bs d 2 with
          | none => .error 3
          | some n => if bs.length < d + 2 + 12 * n then .error 3 else .ok { big, at_ := d, n }

/-- The values of a tag of a directory, of type SHORT or LONG: in its entry, or, where they do not fit there, at the offset it gives; none where
the tag is absent, and 0 for a value that the input does not reach. -/
def TiffDir.vals (d : TiffDir) (bs : List Byte) (tag : Nat) : Option (List Nat) :=
  let at_ : Nat → Nat → Nat := fun o k => (tiffAt d.big bs o k).getD 0
  ((List.range d.n).find? fun i => tiffAt d.big bs (d.at_ + 2 + 12 * i) 2 == some tag).map fun i =>
    let p := d.at_ + 2 + 12 * i
    let size := if at_ (p + 2) 2 = 3 then 2 else 4
    let count := at_ (p + 4) 4
    let from_ := if count * size ≤ 4 then p + 8 else at_ (p + 8) 4
    (List.range (min count (bs.length + 1))).map fun k => at_ (from_ + size * k) size

/-- A Group 4 page's head: its directory's tags, with TIFF's defaults. A page in tiles has no strips. -/
def tiffHead (bs : List Byte) (ifd : Nat) : Except Nat PageHead :=
  match tiffDir bs ifd with
  | .error e => .error e
  | .ok d =>
    let entry : Nat → Option Nat := fun tag => (d.vals bs tag).bind (·.head?)
    let w := (entry 256).getD 0
    let h := (entry 257).getD 0
    if (entry 259).getD 1 ≠ 4 ∨ (entry 266).getD 1 ≠ 1 then .error 2
    else if (d.vals bs 273).isNone ∧ ((d.vals bs 322).isSome ∨ (d.vals bs 324).isSome) then .error 2
    else if w = 0 ∨ h = 0 then .error 1
    else match entry 262 with
      | some 0 => .ok { w, h, comps := [(1, 1)], rgb := false, byRows := true, white := true }
      | some 1 => .ok { w, h, comps := [(1, 1)], rgb := false, byRows := true, white := false }
      | some _ => .error 2
      | none => .error 1

/-- The end of a Group 4 page: of the last strip of its directory (R318). -/
def tiffTail (bs : List Byte) (ifd : Nat) : Except Nat Nat :=
  match tiffDir bs ifd with
  | .error e => .error e
  | .ok d => match d.vals bs 273, d.vals bs 279 with
    | some os, some ns =>
      if os.isEmpty ∨ os.length ≠ ns.length then .error 1
      else
        let ends := (os.zip ns).map fun e => e.1 + e.2
        if ends.any (fun e => decide (bs.length < e)) then .error 3 else .ok (ends.getLastD 0)
    | _, _ => .error 1

/-- The head of a page, or the error code that refuses it. -/
def pageHead (codec ifd : Nat) (bs : List Byte) : Except Nat PageHead :=
  match codec with
  | 0 => jpegHead bs (match jpegTail bs with | .ok (_, some n) => n | _ => 0)
  | 1 => j2kHead bs
  | _ => tiffHead bs ifd

/-- How many bytes of the input a whole page takes, or the error that its structure shows after its head (R318). -/
def pageEnd (codec ifd : Nat) (bs : List Byte) : Except Nat Nat :=
  match codec with
  | 0 => (jpegTail bs).map (·.1)
  | 1 => j2kTail bs
  | _ => tiffTail bs ifd

/-! ## Colours (R313) -/

/-- The nearest integer to n / d, halves up, within a byte (ITU-T T.871). -/
def byteOf (n d : Int) : Byte :=
  let q := (2 * n + d) / (2 * d)
  BitVec.ofNat 8 (if q < 0 then 0 else min q.toNat 255)

/-- A pixel of JFIF's YCbCr in RGB (ITU-T T.871). -/
def ycc (y cb cr : Nat) : List Byte :=
  let y : Int := y
  let u : Int := (cb : Int) - 128
  let v : Int := (cr : Int) - 128
  [byteOf (1000 * y + 1402 * v) 1000, byteOf (587000 * y - 202008 * u - 419198 * v) 587000, byteOf (1000 * y + 1772 * u) 1000]

/-- The sample of a component that covers a pixel: chroma is replicated. -/
def PageHead.sample (h : PageHead) (planes : List (List Byte)) (c x y : Nat) : Nat :=
  let s := h.comps.getD c (1, 1)
  ((planes.getD c []).getD (y / s.2 * ((h.w + s.1 - 1) / s.1) + x / s.1) 0).toNat

/-- The pixels of a page from the samples of its components. -/
def PageHead.pixels (h : PageHead) (codec : Nat) (planes : List (List Byte)) : List Byte :=
  ((List.range h.h).map fun y => ((List.range h.w).map fun x =>
    let at_ := fun c => h.sample planes c x y
    if h.comps.length = 3 then
      (if codec = 0 ∧ !h.rgb then ycc (at_ 0) (at_ 1) (at_ 2) else [0, 1, 2].map fun c => BitVec.ofNat 8 (at_ c))
    else if codec = 2 then [if (at_ 0 % 2 == 0) == h.white then 255#8 else 0#8]
    else [BitVec.ofNat 8 (at_ 0)]).flatten).flatten

/-! ## Jobs and records (R314 to R316, R318) -/

/-- The fields of a decode job. -/
structure Job where
  status : Nat
  cap    : Nat
  dst    : Nat
  ifd    : Nat
  page   : Nat
  long   : Nat
  p      : Nat
  rgb    : Bool
  codec  : Nat
  srcLen : Nat
  src    : Nat
  deriving DecidableEq, Repr

def Job.ofNat (v : Nat) : Job :=
  { status := v / 2 ^ 384 % 2 ^ 64, cap := v / 2 ^ 320 % 2 ^ 32, dst := v / 2 ^ 256 % 2 ^ 64, ifd := v / 2 ^ 224 % 2 ^ 16
    page := v / 2 ^ 192 % 2 ^ 32, long := v / 2 ^ 176 % 2 ^ 16
    p := (match v / 2 ^ 166 % 4 with | 0 => 14 | 1 => 16 | 2 => 28 | _ => 32)
    rgb := v / 2 ^ 164 % 2 == 1, codec := v / 2 ^ 160 % 16, srcLen := v / 2 ^ 128 % 2 ^ 32, src := v / 2 ^ 64 % 2 ^ 64 }

/-- A decoded page: its error code, bytes consumed, size, colour and pixels. -/
structure Page where
  err  : Nat
  used : Nat
  w    : Nat
  h    : Nat
  rgb  : Bool
  pix  : List Byte
  deriving DecidableEq, Repr

/-- round_half_up(a / b). -/
def halfUp (a b : Nat) : Nat := if b = 0 then 0 else (2 * a + b) / (2 * b)

/-- A pixel's channel after the conversion of stage 1 (R315). -/
def Page.chan (p : Page) (rgb : Bool) (x y ch : Nat) : Nat :=
  let at_ : Nat → Nat := fun k => (p.pix.getD k 0).toNat
  if p.rgb then
    let k := 3 * (y * p.w + x)
    if rgb then at_ (k + ch) else halfUp (77 * at_ k + 150 * at_ (k + 1) + 29 * at_ (k + 2)) 256
  else at_ (y * p.w + x)

/-- The length two ranges share. -/
def shared (a0 a1 b0 b1 : Nat) : Nat := min a1 b1 - max a0 b0

/-- A resampled pixel (R315): the exact mean over its source rectangle, rounded half up. -/
def Page.resampled (p : Page) (rgb : Bool) (w h x y ch : Nat) : Nat :=
  let xs := (List.range ((x + 1) * p.w / w + 1 - x * p.w / w)).map fun i => x * p.w / w + i
  let ys := (List.range ((y + 1) * p.h / h + 1 - y * p.h / h)).map fun i => y * p.h / h + i
  let z := ys.foldl (fun z j => xs.foldl (fun z i =>
    let a := shared (i * w) ((i + 1) * w) (x * p.w) ((x + 1) * p.w)
    let b := shared (j * h) ((j + 1) * h) (y * p.h) ((y + 1) * p.h)
    if a * b = 0 then z else z + a * b * p.chan rgb i j ch) z) 0
  halfUp z (p.w * p.h)

/-- The resampled size. -/
def Page.size (p : Page) (long : Nat) : Nat × Nat :=
  let m := max p.w p.h
  (max 1 (halfUp (p.w * long) m), max 1 (halfUp (p.h * long) m))

/-- A patch record (R316). -/
def patchRecord (j : Job) (p : Page) (row col : Nat) : List Byte :=
  let sz := p.size j.long
  let rows := (sz.2 + j.p - 1) / j.p
  let cols := (sz.1 + j.p - 1) / j.p
  let vw := min j.p (sz.1 - col * j.p)
  let vh := min j.p (sz.2 - row * j.p)
  let c := if j.rgb then 3 else 1
  let flags := (if vw < j.p ∨ vh < j.p then 1 else 0) + (if row + 1 = rows ∧ col + 1 = cols then 2 else 0) + (if j.rgb then 4 else 0)
  let pix := (List.range (j.p * j.p * c)).map fun k =>
    let x := k / c % j.p
    let y := k / c / j.p
    if x < vw ∧ y < vh then BitVec.ofNat 8 (p.resampled j.rgb sz.1 sz.2 (col * j.p + x) (row * j.p + y) (k % c)) else 255#8
  let rec_ := toBytes 4 j.page ++ toBytes 2 j.long ++ toBytes 2 row ++ toBytes 2 col ++ toBytes 2 flags ++ toBytes 2 vw
    ++ toBytes 2 vh ++ pix
  rec_ ++ List.replicate ((rec_.length + 15) / 16 * 16 - rec_.length) 0

/-- Bytes of each record of a job. -/
def recordBytes (j : Job) : Nat := (16 + j.p * j.p * (if j.rgb then 3 else 1) + 15) / 16 * 16

/-- A status record (R318). -/
def statusRecord (j : Job) (p : Page) (err patches : Nat) : List Byte :=
  let known := p.w != 0 && p.h != 0
  let sz := if known then p.size j.long else (0, 0)
  toBytes 4 err ++ toBytes 4 patches ++ toBytes 4 (patches * recordBytes j) ++ toBytes 4 p.used ++ toBytes 2 sz.1 ++ toBytes 2 sz.2
    ++ toBytes 2 ((sz.1 + j.p - 1) / j.p) ++ toBytes 2 ((sz.2 + j.p - 1) / j.p) ++ toBytes 8 0

/-- The error of a page with a good head, before its room at the destination is known: too large, coded data that violate the standard, a structure that
does, or that ends early. -/
def pageError (h : PageHead) (bad : Bool) (stop : Except Nat Nat) : Nat :=
  if 32768 < h.w ∨ 32768 < h.h then 5
  else if bad then 1
  else match stop with
    | .error e => e
    | .ok _ => if h.w = 0 ∨ h.h = 0 then 1 else 0

/-- A decoded page, and how many of its records are written: all of them; those before the first that would pass the capacity; or, after an
error in the stream, a free number of whole patch rows, none where the whole stream is decoded first (R317, R318; log 2). The bytes consumed
are those of the whole stream where it has been decoded, all the input where that ends early, and else unstated (log 5). -/
def jobPage (j : Job) (input : List Byte) (free : Nat) : Page × Nat × Nat :=
  let d := Config.decodeScan j.codec j.ifd input
  let part := min d.2.1 input.length
  match pageHead j.codec j.ifd input with
  | .error e => ({ err := 0, used := if e = 3 then input.length else part, w := 0, h := 0, rgb := false, pix := [] }, e, 0)
  | .ok h =>
    let stop := pageEnd j.codec j.ifd input
    let err := pageError h d.1 stop
    let sz := Page.size { err, used := 0, w := h.w, h := h.h, rgb := false, pix := [] } j.long
    let rows := if h.w = 0 ∨ h.h = 0 then 0 else (sz.2 + j.p - 1) / j.p
    let cols := (sz.1 + j.p - 1) / j.p
    let fits := j.cap / recordBytes j
    let wanted := if err = 0 then rows * cols else if err ≠ 5 ∧ h.byRows then free % (rows + 1) * cols else 0
    let code := if fits < wanted then 4 else err
    let used := match stop with
      | .ok n => if code = 0 ∨ (code = 4 ∧ !h.byRows) then n else part
      | .error _ => if code = 3 then input.length else part
    ({ err, used, w := h.w, h := h.h, rgb := h.comps.length == 3, pix := h.pixels j.codec d.2.2 }, code, min fits wanted)

end Sys2Proof.Machine
end

