-- ==== Sys2Proof/Machine/Commands.lean ====
section
/-! DEFINITION. The commands' work (R195, R199 to R206, R312 to R318) and the events of the engines that do it. -/

namespace Sys2Proof.Machine

open Sys2Proof

/-! ## GATHER, SCATTER, CPY2G (R200 to R202) -/

/-- Address of an element: base plus index times size, modulo 2^64. -/
def elemVa (base : Addr) (x n : Nat) : Nat := (base.toNat + x * n) % 2 ^ 64

/-- An index or a coordinate entry read, unless it has been read already: each is read once, indivisibly (R201). -/
def readIndex (by_ : Issuer) (va n : Nat) (index : Option (Nat × Bool)) (s : State) : Except EngFail ((Nat × Bool) × State) :=
  match index with
  | some x => .ok (x, s)
  | none => match engRead s by_ va n with
    | .error e => .error e
    | .ok (bs, bad, s1) => .ok ((ofBytes bs, bad), s1)

/-- One element of a `GATHER` or a `SCATTER`: its index read, then its bytes copied; a poisoned index poisons them (R184). -/
def gatherPiece (by_ : Issuer) (cmd : Option Nat) (scatter : Bool) (d a b : Addr) (esz : Nat) (i64 : Bool) (s : State) (j : Nat)
    (index : Option (Nat × Bool)) : Prog :=
  let w := if i64 then 8 else 4
  match readIndex by_ (elemVa b j w) w index s with
  | .error e => { s, pos := j, fail := some e }
  | .ok (x, s1) =>
    match (if scatter then copyElem s1 by_ cmd (elemVa a j esz) (elemVa d x.1 esz) esz x.2
      else copyElem s1 by_ cmd (elemVa a x.1 esz) (elemVa d j esz) esz x.2) with
    | .ok s2 => { s := s2, pos := j + 1, fail := none }
    | .error e => { s := s1, pos := j, fail := some e, index := some x }

/-- The rest of one row of a patch of a `CPY2G`, up to the element of which a byte faults (R183, R202). Positions count elements. -/
def patchPiece (by_ : Issuer) (cmd : Option Nat) (d a b : Addr) (pitch esz pw ph : Nat) (s : State) (pos : Nat)
    (index : Option (Nat × Bool)) : Prog :=
  let i := pos / (pw * ph)
  let q := pos % (pw * ph)
  match readIndex by_ (elemVa b i 4) 4 index s with
  | .error e => { s, pos, fail := some e }
  | .ok (v, s1) =>
    let stride := (pw * ph * esz + 15) / 16 * 16
    let src := (a.toNat + (v.1 / 2 ^ 16 + q / pw) * pitch + (v.1 % 2 ^ 16 + q % pw) * esz) % 2 ^ 64
    let dst := (d.toNat + i * stride + q * esz) % 2 ^ 64
    let k := pw - q % pw
    let r := engScan s1 by_ .eread src (k * esz)
    let w := engScan s1 by_ .ewrite dst (k * esz)
    let good := min (segsLen r.1) (segsLen w.1) / esz
    let fail := if good < k then (if segsLen r.1 ≤ segsLen w.1 then r.2 else w.2) else none
    let rd := engReadSegs s1 by_ (engScan s1 by_ .eread src (good * esz)).1
    { s := if good = 0 then s1
        else engWriteSegs rd.2.2 by_ cmd dst (engScan s1 by_ .ewrite dst (good * esz)).1 rd.1 (rd.2.1.map (v.2 || ·))
      pos := pos + good, fail, index := if q + good = pw * ph then none else some v }

/-! ## CPYT (R203) -/

/-- Elements of a tile (R203). -/
def tileElems (f : FrameFmt) (role : Role) : Nat := if role = .acc then 256 else 16 * frKt f

/-- Elements of a storage row: a row of an A operand or of an accumulator, one K index of a B operand. -/
def tileRow (f : FrameFmt) (role : Role) : Nat := match role with | .a => frKt f | _ => 16

/-- Elements that share whole bytes (R203). -/
def tileGroup (f : FrameFmt) : Nat := if frBits f = 4 then 2 else if frBits f = 6 then 4 else 1

/-- The address of the byte where element `off` of storage row r of tile i begins. For accumulators the manual gives no term in i. -/
def tileVa (f : FrameFmt) (role : Role) (base pitch i r off : Nat) : Nat :=
  let x := off * frBits f / 8
  (match role with
  | .a => base + r * pitch + i * frKt f * frBits f / 8 + x
  | .b => base + (i * frKt f + r) * pitch + x
  | .acc => base + r * pitch + x) % 2 ^ 64

/-- The address of the scale of a row or column in block blk of tile i. -/
def scaleVa (f : FrameFmt) (role : Role) (base spitch i rc blk : Nat) : Nat :=
  let b := i * frKt f / 32 + blk
  (match role with
  | .a => base + rc * spitch + b
  | _ => base + b * spitch + rc) % 2 ^ 64

/-- What one piece of a `CPYT` works on: from which element of the tile, and how many, in storage order: the rest of a row, of an A operand with
scales the rest of a block of 32; a `.x` of a B operand takes the rows whose elements share bytes of the frame together. -/
def tileStep (pack : Bool) (f : FrameFmt) (role : Role) (p : Nat) : Nat × Nat :=
  let g := tileGroup f
  let len := tileRow f role
  if !pack ∧ role = .b then (p / (16 * g) * (16 * g), 16 * g)
  else
    let p := p - p % g
    (p, if frMx f ∧ role = .a then 32 - p % 32 else len - p % len)

/-- Whether a scale belongs to the element at which a piece begins, with its block: it does at the start of a block of 32 K indices. -/
def stepBlock (f : FrameFmt) (role : Role) (p : Nat) : Option Nat :=
  if !frMx f then none
  else match role with
    | .a => if p % 32 = 0 then some (p % frKt f / 32) else none
    | .b => if p / 16 % 32 = 0 then some (p / 16 / 32) else none
    | .acc => none

/-- The place of an element of the tile in its frame. -/
def frameIdx (f : FrameFmt) (role : Role) (e : Nat) : Nat := match role with | .b => e % 16 * frKt f + e / 16 | _ => e

/-- The bytes of a frame that hold an element. -/
def frameSpan (f : FrameFmt) (idx : Nat) : Nat × Nat :=
  let lo := idx * frBits f / 8
  (64 + lo, (idx * frBits f + frBits f - 1) / 8 + 1 - lo)

/-- The frame's byte of a scale. -/
def scaleByte (rc blk : Nat) : Nat := 32 + 2 * rc + blk

/-- Some bytes or elements read one after the other, up to the first that faults, each with whether it is poisoned. -/
def takeEach (by_ : Issuer) : List (Nat × Nat) → State → List (Nat × Bool) × Option EngFail × State
  | [], s => ([], none, s)
  | (va, n) :: r, s => match engRead s by_ va n with
    | .error e => ([], some e, s)
    | .ok (bs, bad, s1) => let t := takeEach by_ r s1; ((ofBytes bs, bad) :: t.1, t.2)

/-- Elements as the bytes that they make up, with the marks of those that a poisoned element lies in. -/
def packElems (bits : Nat) (es : List (Nat × Bool)) : List Byte × List Bool :=
  let n := es.length * bits / 8
  (toBytes n (vecOf bits (es.map (·.1))),
   (List.range n).map fun j => ((es.drop (8 * j / bits)).take ((8 * j + 7) / bits + 1 - 8 * j / bits)).any (·.2))

/-- What a piece of a tile leaves that was to do k elements from element p and did `good` of them. -/
def tileProg (f : FrameFmt) (role : Role) (i p k good : Nat) (e : Option EngFail) (s : State) : Prog :=
  { s, pos := i * tileElems f role + p + (if good < k then good else k), fail := if good < k then e else none }

/-- The first of some limits on the elements that a piece can do, each with the fault met there. -/
def firstLimit (k : Nat) (ls : List (Nat × Option EngFail)) : Nat × Option EngFail :=
  ls.foldl (fun b l => if l.1 < b.1 then l else b) (k, none)

/-- A frame packed into its tile, piece by piece: elements of a storage row, with the scales that begin there, up to the one that faults (R183). The
header is checked as its tile begins. -/
def packPiece (by_ : Issuer) (cmd : Option Nat) (f : FrameFmt) (role : Role) (store frame : Nat) (scales : Option Addr)
    (pitch spitch : Nat) (s : State) (pos : Nat) : Prog :=
  let n := tileElems f role
  let i := pos / n
  let st := tileStep true f role (pos % n)
  let p := st.1
  let bits := frBits f
  let frame := (frame + i * frBytes f) % 2 ^ 64
  let base := match scales with | some a => a.toNat | none => 0
  match (if p = 0 then engRead s by_ frame 64 else .ok ([], false, s)) with
  | .error e => { s, pos, fail := some e }
  | .ok (hdr, _, s0) =>
    let h := ofBytes hdr
    if p = 0 ∧ (h % 64 ≠ FrameFmt.code f ∨ h / 2 ^ 8 % 4 ≠ roleCode role) then { s, pos, fail := some (.at .frameFormat frame) }
    else
      let es := (List.range st.2).map fun j => frameIdx f role (p + j)
      let rd := takeEach by_ (es.map fun x => (frame + (frameSpan f x).1, (frameSpan f x).2)) s0
      let elems := (rd.1.zip es).map fun e => (e.1.1 / 2 ^ (e.2 * bits % 8) % 2 ^ bits, e.1.2)
      let blk := stepBlock f role p
      let rcs := match blk, role with
        | none, _ => []
        | some _, .a => [p / frKt f]
        | some _, _ => (List.range st.2).map fun j => p % 16 + j
      let sc := takeEach by_ (rcs.map fun rc => (frame + scaleByte rc (blk.getD 0), 1)) rd.2.2
      let scTo := scaleVa f role base spitch i (rcs.headD 0) (blk.getD 0)
      let w1 := engScan sc.2.2 by_ .ewrite scTo (min rcs.length sc.1.length)
      let dst := tileVa f role store pitch i (p / tileRow f role) (p % tileRow f role)
      let w2 := engScan sc.2.2 by_ .ewrite dst (st.2 * bits / 8)
      let scGood := if segsLen w1.1 < rcs.length then (if role = .a then 0 else segsLen w1.1) else st.2
      let lim := firstLimit st.2 [(rd.1.length, rd.2.1), (scGood, sc.2.1 <|> w1.2), (segsLen w2.1 * 8 / bits, w2.2)]
      let did := lim.1 - lim.1 % tileGroup f
      if did = 0 then tileProg f role i p st.2 lim.1 lim.2 s0
      else
        let scs := if role = .a then sc.1.take 1 else sc.1.take did
        let s1 := match engPut sc.2.2 by_ cmd scTo (scs.map fun e => BitVec.ofNat 8 e.1) (scs.map (·.2)) with | .ok s1 => s1 | .error _ => sc.2.2
        let bs := packElems bits (elems.take did)
        let s2 := match engPut s1 by_ cmd dst bs.1 bs.2 with | .ok s2 => s2 | .error _ => s1
        tileProg f role i p st.2 lim.1 lim.2 s2

/-- Ranges of a frame written, each with its marks. -/
def putParts (by_ : Issuer) (cmd : Option Nat) (ws : List (Nat × List Byte × List Bool)) (s : State) : State :=
  ws.foldl (fun s w => match engPut s by_ cmd w.1 w.2.1 w.2.2 with | .ok s1 => s1 | .error _ => s) s

/-- A tile expanded into its frame, piece by piece: the elements of a storage row, with the scales that begin there and, as the tile begins, the
header, up to the one that faults; of a B operand all the rows that share bytes of the frame, or none of them (R183). -/
def expandPiece (by_ : Issuer) (cmd : Option Nat) (f : FrameFmt) (role : Role) (store frame : Nat) (scales : Option Addr)
    (pitch spitch : Nat) (s : State) (pos : Nat) : Prog :=
  let n := tileElems f role
  let i := pos / n
  let st := tileStep false f role (pos % n)
  let p := st.1
  let bits := frBits f
  let frame := (frame + i * frBytes f) % 2 ^ 64
  let base := match scales with | some a => a.toNat | none => 0
  let blk := stepBlock f role p
  let rcs := match blk, role with
    | none, _ => []
    | some _, .a => [p / frKt f]
    | some _, _ => List.range 16
  let sc := takeEach by_ (rcs.map fun rc => (scaleVa f role base spitch i rc (blk.getD 0), 1)) s
  -- the rows of this piece, each with its first element and its elements
  let rows := if role = .b then (List.range (tileGroup f)).map fun j => (16 * j, 16) else [(0, st.2)]
  let rd := rows.foldl (fun (acc : (List Byte × List Bool) × (Nat × Option EngFail) × State) (r : Nat × Nat) =>
    let e := p + r.1
    let va := tileVa f role store pitch i (e / tileRow f role) (e % tileRow f role)
    let x := engScan acc.2.2 by_ .eread va (r.2 * bits / 8)
    let y := engReadSegs acc.2.2 by_ x.1
    ((acc.1.1 ++ y.1, acc.1.2 ++ y.2.1),
      (if acc.2.1.2.isNone ∧ x.2.isSome then (r.1 + segsLen x.1 * 8 / bits, x.2) else acc.2.1), y.2.2))
    ((([], []), (st.2, none), sc.2.2))
  let scGood := if sc.1.length < rcs.length then (if role = .a then 0 else sc.1.length) else st.2
  let lim0 := firstLimit st.2 [(scGood, sc.2.1), rd.2.1]
  let did0 := if role = .b then (if lim0.1 < st.2 then 0 else st.2) else lim0.1 - lim0.1 % tileGroup f
  let hdr : List (Nat × List Byte × List Bool) :=
    if p = 0 then [(frame, toBytes (if frMx f then 32 else 64) (frHeader f role false 0), [])] else []
  let scs := (rcs.zip sc.1).map fun e =>
    let bs := BitVec.ofNat 8 e.2.1 :: (if frKt f / 32 = 1 then [0] else [])
    (frame + scaleByte e.1 (blk.getD 0), bs, [e.2.2])
  let raw := ofBytes rd.1.1
  let body : List (Nat × List Byte × List Bool) :=
    if role = .b then (List.range 16).map fun c =>
      let es := (List.range (tileGroup f)).map fun j =>
        let at_ := (16 * j + c) * bits
        (raw / 2 ^ at_ % 2 ^ bits, (List.range ((at_ + bits - 1) / 8 + 1 - at_ / 8)).any fun q => rd.1.2.getD (at_ / 8 + q) false)
      let b := packElems bits es
      (frame + 64 + (c * frKt f + p / 16) * bits / 8, b.1, b.2)
    else [(frame + 64 + p * bits / 8, rd.1.1.take (did0 * bits / 8), rd.1.2.take (did0 * bits / 8))]
  let parts := hdr ++ scs ++ body
  match parts.findSome? fun w => (engScan rd.2.2 by_ .ewrite w.1 w.2.1.length).2 with
  | some e => { s, pos := i * n + p, fail := some e }
  | none => tileProg f role i p st.2 lim0.1 lim0.2 (if did0 = 0 then s else putParts by_ cmd parts rd.2.2)

/-- A piece of a `CPYT`. -/
def tilePiece (by_ : Issuer) (cmd : Option Nat) (pack : Bool) (d a : Addr) (scales : Option Addr) (role : Role) (f : FrameFmt)
    (pitch spitch : Nat) (s : State) (pos : Nat) : Prog :=
  if pack then packPiece by_ cmd f role d.toNat a.toNat scales pitch spitch s pos
  else expandPiece by_ cmd f role a.toNat d.toNat scales pitch spitch s pos

/-! ## CHAIN (R312) -/

/-- The graph type of an element type. -/
def chainTy : ChainTy → Nat
  | .f32 => 0 | .f16 => 1 | .bf16 => 2 | .s32 => 8 | .s16 => 13 | .s8 => 10

/-- The graph operation of an operation code, and whether its operands count as unsigned. -/
def chainNode (code : Nat) : Nat × Bool :=
  match code with
  | 1 => (1, false) | 2 => (2, false) | 3 => (3, false) | 4 => (5, false) | 5 => (6, false) | 6 => (7, false)
  | 7 => (8, false) | 8 => (11, false) | 9 => (12, false) | 10 => (13, false) | 11 => (14, false) | 12 => (15, false)
  | 13 => (4, false) | _ => (15, true)

/-- One element through the operations up to the first end. -/
def chainElem (ty : ChainTy) (sat : Bool) (ks : List W64) : List (Nat × Nat) → Nat → Nat × List Arith
  | [], x => (x, [])
  | (code, j) :: r, x =>
    if code = 0 then (x, [])
    else
      let t := chainTy ty
      let o := chainNode code
      let k : Nat → Nat := fun i => (ks.getD i 0).toNat % 2 ^ gBits t
      let n : Node := { op := o.1, ty := t, rnd := 0, sat, uns := o.2, srca := 0, srcb := 0, srcc := 0, dst := 0, imm := 0 }
      let y := gElem n x (k j) (k (j + 1))
      let z := chainElem ty sat ks r y.1
      (z.1, y.2.toList ++ z.2)

/-- Events of an engine for a command (R245, R299). -/
def noteCmd (s : State) (c : Cmd) (crew : Nat) (exact : Bool) (lanes : Mask) (es : List Arith) : State :=
  let core := c.by_.coreNow s
  es.foldl (fun s e => aeNote s core
    { ctx := c.by_.ctx, grid := c.by_.grid, subject := cmdIdentity c, cause := e, lanes, count := 1
      team := teamIndex s c.by_.team, pc := c.by_.pc, core, crew, ap := false, exact, engine := true
      stamp := BitVec.ofNat 32 (coreClock s core), opened := s.clock }) s

/-- One element of a `CHAIN` pass. -/
def chainPiece (c : Cmd) (cmd : Option Nat) (d a : Addr) (ty : ChainTy) (sat : Bool) (ops : List (Nat × Nat)) (ks : List W64)
    (s : State) (i : Nat) : Prog :=
  let n := gBits (chainTy ty) / 8
  match engRead s c.by_ (elemVa a i n) n with
  | .error e => { s, pos := i, fail := some e }
  | .ok (bs, bad, s1) =>
    let r := chainElem ty sat ks ops (ofBytes bs)
    match engWrite s1 c.by_ cmd (elemVa d i n) (toBytes n r.1) bad with
    | .error e => { s, pos := i, fail := some e }
    | .ok s2 => { s := noteCmd s2 c 0x3FF false 0 r.2.eraseDups, pos := i + 1, fail := none }

/-! ## FRED (R205, R206) -/

/-- q of an FP32 element: a truncated and clamped integer, and whether it was clamped. -/
def fredQ (e : Int) (x : W32) : Int × Bool :=
  match fp32.value x.toNat with
  | .fin neg n m =>
    let v : Int := truncTo e (.fin neg n m)
    let top : Int := 2 ^ 79 - 1
    if top < v then (top, true) else if v < -top then (-top, true) else (v, false)
  | _ => (0, false)

/-- One result of a group from its contributions, and whether it overflowed. -/
def fredSum (s32 : Bool) (e : Int) (xs : List W32) : W32 × Bool :=
  if s32 then (BitVec.ofInt 32 (clampInt 32 (xs.foldl (fun z x => z + x.toInt) 0)).1, false)
  else
    let vs := xs.map fun x => fp32.value x.toNat
    let pos := vs.any fun v => v == .inf false
    let neg := vs.any fun v => v == .inf true
    if vs.any Num.isNan ∨ (pos ∧ neg) then (0x7FC00000, false)
    else if pos then (0x7F800000, false)
    else if neg then (0xFF800000, false)
    else
      let z := xs.foldl (fun z x => z + (fredQ e x).1) 0
      let r := roundNum fp32 .rne false 0 (ofIntExp z e)
      (BitVec.ofNat 32 r.1, r.2)

/-- The elements of a contribution, each with whether it is poisoned. -/
def fredRead (by_ : Issuer) (a : Addr) : (n : Nat) → State → Except EngFail (List (W32 × Bool) × State)
  | 0, s => .ok ([], s)
  | n + 1, s => match engRead s by_ a.toNat 4 with
    | .error e => .error e
    | .ok (bs, bad, s1) => match fredRead by_ (a + 4) n s1 with
      | .error e => .error e
      | .ok (r, s2) => .ok ((BitVec.ofNat 32 (ofBytes bs), bad) :: r, s2)

/-- The group that a contribution belongs to, where one is open: a group whose PARTS contributions have arrived takes no more (R205). -/
def fredGroupOf (s : State) (c : Cmd) : Option FredGroup :=
  match c.kind with
  | .fred _ _ _ g _ _ _ => s.freds.find? fun f => f.ctx == c.by_.ctx && f.grid == c.by_.grid && f.group == g && decide (f.cmds.length < f.parts)
  | _ => none

/-- A contribution put into its group: the first opens it; one that differs is not added (R205). -/
def fredJoin (s : State) (n : Nat) (c : Cmd) : State :=
  match c.kind with
  | .fred _ _ cnt g parts s32 e =>
    (match fredGroupOf s c with
    | none => { s with
        freds := s.freds ++ [{ ctx := c.by_.ctx, grid := c.by_.grid, group := g, parts, n := cnt, s32, e, cmds := [n] }]
        cmds := tset s.cmds n { c with bad := none } }
    | some f =>
      if f.parts = parts ∧ f.n = cnt ∧ f.s32 = s32 ∧ f.e = e then
        { s with
          freds := s.freds.map fun x => if x == f then { x with cmds := x.cmds ++ [n] } else x
          cmds := tset s.cmds n { c with bad := none } }
      else { s with cmds := tset s.cmds n { c with bad := some .fredMismatch } })
  | _ => s

/-- One result written to a contributor's destination. -/
def fredPiece (c : Cmd) (cmd : Option Nat) (d : Addr) (s : State) (i : Nat) : Prog :=
  let r := (c.sums.getD []).getD i (0, false)
  match engWrite s c.by_ cmd (elemVa d i 4) (toBytes 4 r.1.toNat) r.2 with
  | .error e => { s, pos := i, fail := some e }
  | .ok s1 => { s := s1, pos := i + 1, fail := none }

/-! ## PDEC (R313 to R318) -/

/-- A piece of a decode job: one record, and after the last the status record. -/
def jobPiece (by_ : Issuer) (cmd : Option Nat) (j : Job) (free : Nat) (bad : Bool) (input : List Byte) (s : State) (i : Nat) : Prog :=
  let g := jobPage j input free
  let cols := ((g.1.size j.long).1 + j.p - 1) / j.p
  let w := if i < g.2.2 then engWrite s by_ cmd ((j.dst + i * recordBytes j) % 2 ^ 64) (patchRecord j g.1 (i / cols) (i % cols)) bad
    else engWrite s by_ cmd j.status (statusRecord j g.1 g.2.1 g.2.2) false
  elemPiece s i w

/-- A decode job run: the input is read once, then the records and the status record are written, at most so many as asked for. -/
def runJob (s : State) (n : Nat) (c : Cmd) (desc : List Byte) (limit : Nat) : Prog :=
  let j := Job.ofNat (ofBytes desc)
  let run := fun (k : List Byte × Bool × Nat) (s : State) =>
    let total := (jobPage j k.1 k.2.2).2.2 + 1
    { runPieces total (fun s i _ => jobPiece c.by_ (some n) j k.2.2 k.2.1 k.1 s i) (if limit = 0 then total + 1 else limit) s c.pos none with
      job := some k, total }
  match c.job with
  | some k => run k s
  | none => match engRead s c.by_ j.src j.srcLen with
    | .error e => { s, pos := c.pos, fail := some e }
    | .ok (input, bad, s1) => let f := takeFree s1; run (input, bad, f.1.toNat) f.2

/-! ## The work of a command -/

/-- The position at which a command's work is done. -/
def Cmd.total (c : Cmd) : Nat :=
  match c.kind with
  | .astream _ _ _ _ n0 n1 => n0 * n1
  | .gather _ _ _ _ n _ | .scatter _ _ _ _ n _ => n
  | .cpy _ _ n => n
  | .cpy2g _ _ _ _ _ pw ph n => n * (pw * ph)
  | .cpyt _ _ _ _ role fmt _ _ n => n * tileElems fmt role
  | .cpyr _ _ _ n => n
  | .fred _ _ n _ _ _ _ => n
  | .chain _ _ n ty _ _ _ => n / (gBits (chainTy ty) / 8)
  | .pdec _ _ | .attest _ _ _ => 0

/-- The pieces of a command's own work, and whether the reads of each line count once for all of it, as those of a contiguous source do (log
15); none for a contribution whose group has not closed, a stream, a job or an attestation. -/
def cmdPieces (s : State) (n : Nat) (c : Cmd) : Option (PieceFn × Bool) :=
  let me := some n
  match c.kind with
  | .gather d a b esz _ i64 => some (gatherPiece c.by_ me false d a b esz i64, false)
  | .scatter d a b esz _ i64 => some (gatherPiece c.by_ me true d a b esz i64, false)
  | .cpy d a n => some (fun s i _ => copyPiece c.by_ me a.toNat d.toNat n none s i, true)
  | .cpy2g d a b pitch esz pw ph _ => some (patchPiece c.by_ me d a b pitch esz pw ph, false)
  | .cpyt pack d a scales role fmt pitch spitch _ => some (fun s i _ => tilePiece c.by_ me pack d a scales role fmt pitch spitch s i, true)
  | .cpyr t off a n => (teamAtIdx s c.by_.grid t).map fun team => (fun s i _ => copyPiece c.by_ me a.toNat off n (some team) s i, true)
  | .fred d _ _ _ _ _ _ => if c.sums.isSome then some (fun s i _ => fredPiece c me d s i, false) else none
  | .chain d a _ ty sat ops ks => some (fun s i _ => chainPiece c me d a ty sat ops ks s i, true)
  | .pdec _ _ | .astream _ _ _ _ _ _ | .attest _ _ _ => none

/-- Where the piece of a command's work at a position ends. -/
def Cmd.pieceEnd (s : State) (c : Cmd) (pos : Nat) : Nat :=
  match c.kind with
  | .cpy d _ n => pos + copyUnit s c.by_ false (d.toNat + pos) (n - pos)
  | .cpyr _ off _ n => pos + copyUnit s c.by_ true (off + pos) (n - pos)
  | .cpy2g _ _ _ _ _ pw _ _ => pos + (pw - pos % pw)
  | .cpyt pack _ _ _ role fmt _ _ _ =>
    let e := tileElems fmt role
    let st := tileStep pack fmt role (pos % e)
    pos / e * e + st.1 + st.2
  | _ => pos + 1

/-- A command's work from its position on (R182): at most `limit` pieces of it, or, with 0, all; done, or stopped at a fault. A contribution whose
group has not closed, and a job or an attestation, have work of their own. Its pieces come in ascending order but for those that
`workAhead` has done before (R146; log 36). -/
def runCmd (s : State) (n : Nat) (c : Cmd) (limit : Nat) : Prog :=
  let stop := fun (e : EngFail) => ({ s, pos := c.pos, fail := some e } : Prog)
  let nothing : Prog := { s, pos := c.pos, fail := none, total := c.total }
  match cmdPieces s n c with
  | some (piece, once) =>
    let r := runPieces c.total (skipAhead c.ahead piece) (if limit = 0 then c.total + 1 else limit) s c.pos c.index
    { r with total := c.total, s := if once then countReads s r.s 1 0 else r.s }
  | none => match c.kind with
    | .cpyr _ off _ _ => stop (.at .remoteTeam (off + c.pos))
    | .fred _ a cnt _ _ _ _ => (match c.bad with
      | some e => stop (.at e a.toNat)
      | none => match fredRead c.by_ a cnt s with
        | .error e => stop e
        | .ok _ => nothing)
    | .pdec _ desc => if c.started then runJob s n c desc limit else nothing
    | _ => nothing

/-- The piece so many pieces after a command's position done before its turn, where it has not been done and meets no fault: the order in which a
command writes its destination is not defined (R146). -/
def workAhead (s : State) (n : Nat) (c : Cmd) (ahead : Nat) : State :=
  match cmdPieces s n c with
  | none => s
  | some (piece, once) =>
    let p := (List.range ahead).foldl (fun p _ => c.pieceEnd s p) c.pos
    if c.total ≤ p ∨ (c.ahead.any fun a => a.1 == p) = true then s
    else
      let r := piece s p none
      if r.fail.isSome then s
      else { (if once then countReads s r.s 1 0 else r.s) with cmds := tset r.s.cmds n { c with ahead := c.ahead ++ [(p, r.pos)] } }

/-- Whether a command completes when its work is done; decoder jobs, streams and attestations complete in events of their own. -/
def Cmd.plain (c : Cmd) : Bool :=
  match c.kind with
  | .pdec _ _ | .attest _ _ _ => false
  | .fred _ _ _ _ _ _ _ => c.sums.isSome
  | _ => true

/-- A command that has got as far as a piece of its work says. -/
def Cmd.reached (c : Cmd) (r : Prog) : Cmd := { c with pos := r.pos, index := r.index, job := if r.job.isSome then r.job else c.job }

/-- Some or all of a command's work done and, once all is done and no write of it is on its way, the command complete. Where it meets a fault
nothing is done here; where it meets a line that an irrevocable attempt holds, what comes before is done (R145, R146, R182). -/
def finishCmd (s : State) (n : Nat) (c : Cmd) (limit : Nat) : State :=
  let r := runCmd s n c limit
  let s1 := { r.s with cmds := tset r.s.cmds n (c.reached r) }
  match r.fail with
  | some e => if e.held then s1 else s
  | none => if r.pos < r.total ∨ writesWait s1 n c = true then s1 else completeCmd s1 n false

/-- Whether a stream has pushed its last entry. -/
def Cmd.pushed (c : Cmd) : Bool :=
  match c.kind with
  | .astream _ _ _ _ n0 n1 => decide (n0 * n1 ≤ c.pos)
  | _ => true

/-- COMMAND_COMPLETE (R182): a command does its work, all of it or only so many pieces, and completes once it has done all; or it does one piece
ahead of its turn (R146). -/
def execCommandComplete (turn : CmdTurn) (s : State) : Host.Outcome State Fault Refusal :=
  .next (match tget s.cmds turn.cmd with
    | none => s
    | some c =>
      if c.stopped.isSome || !c.plain || !c.pushed then s
      else if turn.ahead = 0 then finishCmd s turn.cmd c turn.limit
      else workAhead s turn.cmd c turn.ahead)

/-- The entry that a stream pushes next: its bytes, or the fault it meets (R195). -/
def streamEntry (s : State) (c : Cmd) : Option (Except EngFail (List Byte × Bool × State)) :=
  match c.kind with
  | .astream _ a b x n0 n1 =>
    if n0 * n1 ≤ c.pos then none
    else
      let i0 := c.pos % n0
      let i1 := c.pos / n0
      some (engRead s c.by_ (a + BitVec.ofNat 64 i1 * x.signExtend 64 + BitVec.ofNat 64 i0 * b.signExtend 64).toNat 128)
  | _ => none

/-- ENGINE_FAULT (R183): a running command stops at the element or byte that met a fault. -/
def execEngineFault (cmd : Nat) (s : State) : Host.Outcome State Fault Refusal :=
  .next (match tget s.cmds cmd with
    | none => s
    | some c =>
      if c.stopped.isSome then s
      else match streamEntry s c with
        | some (.error e) => stopCmd s cmd c e
        | some (.ok _) => s
        | none =>
          let r := runCmd s cmd c 0
          match r.fail with
          | some e => if e.held then s else stopCmd r.s cmd (c.reached r) e
          | none => s)

/-- Entries of an operand queue (R34). -/
def queueCap : Nat := 64

/-- An entry put into an operand queue, with whether it was read poisoned (R436). -/
def OpQueue.push (q : OpQueue) (bs : List Byte) (bad : Bool) : OpQueue :=
  { q with entries := q.entries ++ [bs], marks := (q.entries.mapIdx fun i _ => q.marks.getD i false) ++ [bad] }

/-- The oldest entries of an operand queue taken out. -/
def OpQueue.pop (q : OpQueue) (m : Nat) : OpQueue := { q with entries := q.entries.drop m, marks := q.marks.drop m }

/-- ASTREAM_PUSH (R195, R198): a stream's next entry pushed while its team is resident and its queue has room. -/
def execAstreamPush (cmd : Nat) (s : State) : Host.Outcome State Fault Refusal :=
  .next (match tget s.cmds cmd with
    | none => s
    | some c =>
      match c.kind, c.by_.team with
      | .astream q _ _ _ n0 n1, some t =>
        (match tget s.teams t, c.stopped with
        | some tm, none =>
          let oq := tm.queues.getD q { entries := [], producer := none }
          if tm.place = .resident ∧ oq.entries.length < queueCap then
            match streamEntry s c with
            | some (.ok (bs, bad, s1)) =>
              let last := decide (n0 * n1 ≤ c.pos + 1)
              let s2 := modTeam s1 t fun tm =>
                { tm with queues := lset tm.queues q { oq.push bs bad with producer := if last then none else some cmd } }
              { s2 with cmds := tset s2.cmds cmd { c with pos := c.pos + 1, probe := s.clock + 65536 } }
            | _ => s
          else s
        | _, _ => s)
      | _, _ => s)

/-! ## FRED_GROUP_CLOSE (R205, R206) -/

/-- The contributions of a group, each with its command and elements; none where one cannot be read. -/
def fredParts (s : State) : List Nat → Option (List (Nat × Cmd × List (W32 × Bool)) × State)
  | [] => some ([], s)
  | n :: r => match tget s.cmds n with
    | none => none
    | some c => match c.kind, c.stopped with
      | .fred _ a cnt _ _ _ _, none =>
        (match fredRead c.by_ a cnt s with
        | .error _ => none
        | .ok (xs, s1) => match fredParts (countReads s s1 1 0) r with
          | none => none
          | some (t, s2) => some ((n, c, xs) :: t, s2))
      | _, _ => none

/-- The results of a group, each with whether it overflowed and whether a contribution to it was poisoned. -/
def fredResults (f : FredGroup) (xs : List (List (W32 × Bool))) : List (W32 × Bool × Bool) :=
  (List.range f.n).map fun i =>
    let col := xs.map fun x => x.getD i (0, false)
    let r := fredSum f.s32 f.e.toInt (col.map (·.1))
    (r.1, r.2, col.any (·.2))

/-- One contributor's events noted and its results handed to it; it completes at once where they can be written. -/
def fredGive (f : FredGroup) (rs : List (W32 × Bool × Bool)) (s : State) (p : Nat × Cmd × List (W32 × Bool)) : State :=
  let clamped := !f.s32 && p.2.2.any fun x => (fredQ f.e.toInt x.1).2
  let overflowed := rs.any fun r => r.2.1
  let s1 := if clamped then noteCmd s p.2.1 0x3FF true p.2.1.by_.lanes [.fredClamp] else s
  let s2 := if overflowed then noteCmd s1 p.2.1 p.2.1.by_.crewNum true p.2.1.by_.lanes [.overflow] else s1
  let c := { p.2.1 with sums := some (rs.map fun r => (r.1, r.2.2)) }
  finishCmd { s2 with cmds := tset s2.cmds p.1 c } p.1 c 0

/-- A group whose PARTS contributions have arrived and can be read, with what they give. Groups of one GROUP may be open beside each other, an older
one with a contribution that is stopped (R205). -/
def fullGroup (s : State) (ctx grid group : Nat) : Option (FredGroup × List (Nat × Cmd × List (W32 × Bool)) × State) :=
  s.freds.findSome? fun f =>
    if f.ctx == ctx && f.grid == grid && f.group == group && decide (f.parts ≤ f.cmds.length) then (fredParts s f.cmds).map fun r => (f, r)
    else none

/-- FRED_GROUP_CLOSE (R205): the results of a full group are formed and handed to its contributors. -/
def execFredGroupClose (ctx grid group : Nat) (s : State) : Host.Outcome State Fault Refusal :=
  .next (match fullGroup s ctx grid group with
    | none => s
    | some (f, ps, s1) =>
      let rs := fredResults f (ps.map fun p => p.2.2)
      ps.foldl (fredGive f rs) { s1 with freds := s1.freds.filter fun x => !(x == f) })

/-! ## Decoder jobs (R317) -/

/-- Whether a command is a decode job that has not started. -/
def Cmd.queuedJob (c : Cmd) : Bool :=
  match c.kind with | .pdec _ _ => !c.started && c.stopped.isNone | _ => false
def Cmd.runningJob (c : Cmd) : Bool :=
  match c.kind with | .pdec _ _ => c.started | _ => false

/-- The job to start next: the highest zone priority first, then in order of acceptance. -/
def nextJob (s : State) : Option (Nat × Cmd) :=
  (s.cmds.filter fun e => e.2.queuedJob).foldl (fun best e =>
    let prio : Cmd → Nat := fun c => match zoneOf s c.by_.grid with | some z => z.prio | none => 16
    match best with
    | none => some e
    | some b => if prio b.2 < prio e.2 then some e else some b) none

/-- DECODE_JOB_START: a job starts on a free one of the 16 decoders. -/
def execDecodeJobStart (s : State) : Host.Outcome State Fault Refusal :=
  .next (if (s.cmds.filter fun e => e.2.runningJob).length < 16 then
    match nextJob s with
    | some (n, c) => { s with cmds := tset s.cmds n { c with started := true } }
    | none => s
  else s)

/-- DECODE_JOB_COMPLETE (R317, R318): a job does its work, all of it or only so many records, and completes once its status record is written. -/
def execDecodeJobComplete (turn : CmdTurn) (s : State) : Host.Outcome State Fault Refusal :=
  .next (match tget s.cmds turn.cmd with
    | none => s
    | some c => if c.runningJob && c.stopped.isNone then finishCmd s turn.cmd c turn.limit else s)

/-- The status record of a decode job that is completed in error: what is known of its page, and the records written (R318). -/
def faultRecord (j : Job) (c : Cmd) : List Byte :=
  match c.job with
  | some k => let g := jobPage j k.1 k.2.2; statusRecord j g.1 6 (min c.pos g.2.2)
  | none => statusRecord j { err := 6, used := 0, w := 0, h := 0, rgb := false, pix := [] } 6 0

/-- A stopped command completed in error by a handler (R183); a decode job writes its status record first, where it can (R318). -/
def failCmd (s : State) (n : Nat) : State :=
  match tget s.cmds n with
  | none => s
  | some c =>
    match c.kind with
    | .pdec _ desc =>
      let j := Job.ofNat (ofBytes desc)
      let s1 := match engWrite s c.by_ none j.status (faultRecord j c) false with | .ok s1 => s1 | .error _ => s
      completeCmd s1 n true
    | _ => completeCmd s n true

/-- A stopped command continued from the position in its record (R183). A contribution that does not match its group meets FRED_MISMATCH again:
it is never added (R205). -/
def resumeCmd (s : State) (n : Nat) : State :=
  match tget s.cmds n with
  | none => s
  | some c => { s with cmds := tset s.cmds n { c with stopped := none, lost := false } }

end Sys2Proof.Machine
end

