-- ==== Sys2Proof/Machine/Int.lean ====
section
/-! DEFINITION. Group 0x0, integer (R90 to R95). -/

namespace Sys2Proof.Machine

open Sys2Proof

/-! ## Shapes shared by the register-only groups -/

/-- An instruction whose only effect is a 32-bit result of fixed latency. -/
def aluV (i : Instr) (c : Ctl) (ops : List Opnd) (lat : Nat) (d : Spec) (f : Ex → Nat → W32) (s : State) : State :=
  issue i c (dstV d :: ops) [] .runs (fun x s => retire x c (x.fixV lat d (f x)) s) s

/-- An instruction whose only effect is a 64-bit result of fixed latency. -/
def aluW (i : Instr) (c : Ctl) (ops : List Opnd) (lat : Nat) (d : Spec) (f : Ex → Nat → W64) (s : State) : State :=
  issue i c (dstW d :: ops) [] .runs (fun x s => retire x c (x.fixW lat d (f x)) s) s

/-- An instruction whose only effect is a predicate of fixed latency. -/
def aluP (i : Instr) (c : Ctl) (ops : List Opnd) (lat : Nat) (d : Spec) (f : Ex → Nat → Bool) (s : State) : State :=
  issue i c (dstP d :: ops) [] .runs (fun x s => retire x c (x.fixP lat d (f x)) s) s

/-! ## Values -/

/-- `IADD` (R90). -/
def iaddVal (sat : Bool) (a b : W32) : W32 := if sat then satS32 (a.toInt + b.toInt) else a + b
/-- `ISUB` (R90). -/
def isubVal (sat : Bool) (a b : W32) : W32 := if sat then satS32 (a.toInt - b.toInt) else a - b
/-- `IADD64` (R90). -/
def iadd64Val (sat : Bool) (a b : W64) : W64 := if sat then satS64 (a.toInt + b.toInt) else a + b
/-- The exact sum of `IADDC` (R90). -/
def iaddcSum (a b : W32) (p : Bool) : Nat := a.toNat + b.toNat + p.toNat
/-- The exact product, unsigned or signed (R91). -/
def product (sg : Bool) (a b : W32) : Int := if sg then a.toInt * b.toInt else a.toNat * b.toNat
/-- `IMULH` (R91). -/
def imulhVal (sg : Bool) (a b : W32) : W32 := wrap32 ((product sg a b).fdiv (2 ^ 32))
/-- `IMADW` (R91). -/
def imadwVal (sg : Bool) (a b : W32) (c : W64) : W64 := wrap64 (product sg a b + c.toNat)
/-- The quotient and remainder of `IDIV` and `IREM`, with the cause met (R92). -/
def divide (sg : Bool) (a b : W32) : W32 × W32 × List Arith :=
  if b = 0#32 then (0xFFFFFFFF#32, a, [.divz])
  else if sg then
    if a = 0x80000000#32 ∧ b = 0xFFFFFFFF#32 then (0x80000000#32, 0#32, [.divovf])
    else (wrap32 (a.toInt.tdiv b.toInt), wrap32 (a.toInt - a.toInt.tdiv b.toInt * b.toInt), [])
  else (a / b, a % b, [])
/-- `IMIN` and `IMAX` (R93). -/
def iminVal (sg : Bool) (a b : W32) : W32 := if icmpHolds .lt sg b a then b else a
def imaxVal (sg : Bool) (a b : W32) : W32 := if icmpHolds .lt sg a b then b else a
/-- `IABS` and `INEG` (R93). -/
def inegVal (sat : Bool) (a : W32) : W32 := if sat ∧ a = 0x80000000#32 then 0x7FFFFFFF#32 else -a
def iabsVal (sat : Bool) (a : W32) : W32 := if a.toInt < 0 then inegVal sat a else a
/-- `LEA` (R95). -/
def leaVal (sh : BitVec 3) (sx : Bool) (a : W64) (b : W32) : W64 :=
  a + ((if sx then b.signExtend 64 else b.setWidth 64) <<< sh.toNat)

/-! ## Meanings -/

def execIadd (c : Ctl) (sat : Bool) (d a b : Spec) (s : State) : Host.Outcome State Fault Refusal :=
  .next (aluV (.iadd c sat d a b) c [srcV a, srcV b] 4 d (fun x l => iaddVal sat (x.v a l) (x.v b l)) s)
def execIaddImm (c : Ctl) (sat : Bool) (d a : Spec) (imm : W32) (s : State) : Host.Outcome State Fault Refusal :=
  .next (aluV (.iaddImm c sat d a imm) c [srcV a] 4 d (fun x l => iaddVal sat (x.v a l) imm) s)
def execIsub (c : Ctl) (sat : Bool) (d a b : Spec) (s : State) : Host.Outcome State Fault Refusal :=
  .next (aluV (.isub c sat d a b) c [srcV a, srcV b] 4 d (fun x l => isubVal sat (x.v a l) (x.v b l)) s)
def execIsubImm (c : Ctl) (sat : Bool) (d a : Spec) (imm : W32) (s : State) : Host.Outcome State Fault Refusal :=
  .next (aluV (.isubImm c sat d a imm) c [srcV a] 4 d (fun x l => isubVal sat (x.v a l) imm) s)

/-- `IADDC`: the sum to D and the carry to C, which is also the carry in (R90). -/
def iaddc (i : Instr) (c : Ctl) (ops : List Opnd) (d a p : Spec) (b : Ex → Nat → W32) (s : State) : State :=
  let cin : Opnd := { cls := .pd, code := p, rd := true }
  issue i c (dstV d :: srcV a :: cin :: ops) [] .runs (fun x s =>
    let sum : Nat → Nat := fun l => iaddcSum (x.v a l) (b x l) (x.p p l)
    let body := x.fixV 4 d fun l => BitVec.ofNat 32 (sum l)
    retire x c (body.putP x.exec x.clock p (fun l => decide (2 ^ 32 ≤ sum l)) (x.ready 4)) s) s
def execIaddc (c : Ctl) (d a b p : Spec) (s : State) : Host.Outcome State Fault Refusal :=
  .next (iaddc (.iaddc c d a b p) c [srcV b] d a p (fun x l => x.v b l) s)
def execIaddcImm (c : Ctl) (d a : Spec) (imm : W32) (p : Spec) (s : State) : Host.Outcome State Fault Refusal :=
  .next (iaddc (.iaddcImm c d a imm p) c [] d a p (fun _ _ => imm) s)

def execImul (c : Ctl) (d a b : Spec) (s : State) : Host.Outcome State Fault Refusal :=
  .next (aluV (.imul c d a b) c [srcV a, srcV b] 6 d (fun x l => x.v a l * x.v b l) s)
def execImulImm (c : Ctl) (d a : Spec) (imm : W32) (s : State) : Host.Outcome State Fault Refusal :=
  .next (aluV (.imulImm c d a imm) c [srcV a] 6 d (fun x l => x.v a l * imm) s)
def execImulh (c : Ctl) (sg : Bool) (d a b : Spec) (s : State) : Host.Outcome State Fault Refusal :=
  .next (aluV (.imulh c sg d a b) c [srcV a, srcV b] 6 d (fun x l => imulhVal sg (x.v a l) (x.v b l)) s)
def execImulhImm (c : Ctl) (sg : Bool) (d a : Spec) (imm : W32) (s : State) : Host.Outcome State Fault Refusal :=
  .next (aluV (.imulhImm c sg d a imm) c [srcV a] 6 d (fun x l => imulhVal sg (x.v a l) imm) s)
def execImad (c : Ctl) (d a b x : Spec) (s : State) : Host.Outcome State Fault Refusal :=
  .next (aluV (.imad c d a b x) c [srcV a, srcV b, srcV x] 6 d (fun e l => e.v a l * e.v b l + e.v x l) s)
def execImadw (c : Ctl) (sg : Bool) (d a b x : Spec) (s : State) : Host.Outcome State Fault Refusal :=
  .next (aluW (.imadw c sg d a b x) c [srcV a, srcV b, srcW x] 6 d (fun e l => imadwVal sg (e.v a l) (e.v b l) (e.w x l)) s)

/-- `IDIV` and `IREM`: a result of variable latency, with the events DIVZ and DIVOVF (R92). -/
def idivide (i : Instr) (c : Ctl) (ops : List Opnd) (d : Spec) (f : Ex → Nat → W32 × List Arith) (s : State) : State :=
  issue i c (dstV d :: ops) [] .runs (fun x s =>
    withEvents x (eventsOf x.lanes fun l => (f x l).2) s fun s =>
      retire x c (x.body.sendV x.exec d fun l => (f x l).1) s) s
def execIdiv (c : Ctl) (sg : Bool) (d a b : Spec) (s : State) : Host.Outcome State Fault Refusal :=
  .next (idivide (.idiv c sg d a b) c [srcV a, srcV b] d
    (fun x l => let r := divide sg (x.v a l) (x.v b l); (r.1, r.2.2)) s)
def execIdivImm (c : Ctl) (sg : Bool) (d a : Spec) (imm : W32) (s : State) : Host.Outcome State Fault Refusal :=
  .next (idivide (.idivImm c sg d a imm) c [srcV a] d (fun x l => let r := divide sg (x.v a l) imm; (r.1, r.2.2)) s)
def execIrem (c : Ctl) (sg : Bool) (d a b : Spec) (s : State) : Host.Outcome State Fault Refusal :=
  .next (idivide (.irem c sg d a b) c [srcV a, srcV b] d
    (fun x l => let r := divide sg (x.v a l) (x.v b l); (r.2.1, r.2.2)) s)
def execIremImm (c : Ctl) (sg : Bool) (d a : Spec) (imm : W32) (s : State) : Host.Outcome State Fault Refusal :=
  .next (idivide (.iremImm c sg d a imm) c [srcV a] d (fun x l => let r := divide sg (x.v a l) imm; (r.2.1, r.2.2)) s)

def execImin (c : Ctl) (sg : Bool) (d a b : Spec) (s : State) : Host.Outcome State Fault Refusal :=
  .next (aluV (.imin c sg d a b) c [srcV a, srcV b] 4 d (fun x l => iminVal sg (x.v a l) (x.v b l)) s)
def execIminImm (c : Ctl) (sg : Bool) (d a : Spec) (imm : W32) (s : State) : Host.Outcome State Fault Refusal :=
  .next (aluV (.iminImm c sg d a imm) c [srcV a] 4 d (fun x l => iminVal sg (x.v a l) imm) s)
def execImax (c : Ctl) (sg : Bool) (d a b : Spec) (s : State) : Host.Outcome State Fault Refusal :=
  .next (aluV (.imax c sg d a b) c [srcV a, srcV b] 4 d (fun x l => imaxVal sg (x.v a l) (x.v b l)) s)
def execImaxImm (c : Ctl) (sg : Bool) (d a : Spec) (imm : W32) (s : State) : Host.Outcome State Fault Refusal :=
  .next (aluV (.imaxImm c sg d a imm) c [srcV a] 4 d (fun x l => imaxVal sg (x.v a l) imm) s)
def execIabs (c : Ctl) (sat : Bool) (d a : Spec) (s : State) : Host.Outcome State Fault Refusal :=
  .next (aluV (.iabs c sat d a) c [srcV a] 4 d (fun x l => iabsVal sat (x.v a l)) s)
def execIneg (c : Ctl) (sat : Bool) (d a : Spec) (s : State) : Host.Outcome State Fault Refusal :=
  .next (aluV (.ineg c sat d a) c [srcV a] 4 d (fun x l => inegVal sat (x.v a l)) s)
def execIset (c : Ctl) (cmp : ICmp) (sg : Bool) (d a b : Spec) (s : State) : Host.Outcome State Fault Refusal :=
  .next (aluP (.iset c cmp sg d a b) c [srcV a, srcV b] 4 d (fun x l => icmpHolds cmp sg (x.v a l) (x.v b l)) s)
def execIsetImm (c : Ctl) (cmp : ICmp) (sg : Bool) (d a : Spec) (imm : W32) (s : State) : Host.Outcome State Fault Refusal :=
  .next (aluP (.isetImm c cmp sg d a imm) c [srcV a] 4 d (fun x l => icmpHolds cmp sg (x.v a l) imm) s)
def execLea (c : Ctl) (sh : BitVec 3) (sx : Bool) (d a b : Spec) (s : State) : Host.Outcome State Fault Refusal :=
  .next (aluW (.lea c sh sx d a b) c [srcW a, srcV b] 4 d (fun x l => leaVal sh sx (x.w a l) (x.v b l)) s)
def execIadd64 (c : Ctl) (sat : Bool) (d a b : Spec) (s : State) : Host.Outcome State Fault Refusal :=
  .next (aluW (.iadd64 c sat d a b) c [srcW a, srcW b] 4 d (fun x l => iadd64Val sat (x.w a l) (x.w b l)) s)
def execIadd64Imm (c : Ctl) (sat : Bool) (d a : Spec) (imm : W32) (s : State) : Host.Outcome State Fault Refusal :=
  .next (aluW (.iadd64Imm c sat d a imm) c [srcW a] 4 d (fun x l => iadd64Val sat (x.w a l) (imm.signExtend 64)) s)

end Sys2Proof.Machine
end

