-- ==== Sys2Proof/Machine/Cross.lean ====
section
/-! DEFINITION. Group 0x4, cross-lane (R116 to R125). A position participates when its lane executes. -/

namespace Sys2Proof.Machine

open Sys2Proof

/-- The crew width of the selected unit. -/
def curWidth (s : State) : Nat :=
  match s.cur with
  | some (.crew uid _) => (match tget s.crews uid with | some c => c.width | none => 32)
  | _ => 32

/-- The crew width of an issue. -/
def Ex.width (x : Ex) : Nat := match x.body with | .crew c => c.width | .ap _ => 1

/-- A source at the width of an operation, as 64 bits. -/
def Ex.vw (x : Ex) (wide : Bool) (c : Spec) (l : Nat) : W64 := if wide then x.w c l else (x.v c l).setWidth 64

/-- The unit with a result at the width of an operation on its way. -/
def Body.sendX (b : Body) (wide : Bool) (m : Mask) (c : Spec) (f : Nat → W64) : Body :=
  if wide then b.sendW m c f else b.sendV m c fun l => lo32 (f l)

/-! ## SHFL and VOTE -/

/-- The source position of a lane, where there is one (R119). -/
def shflSource (mode : ShflMode) (w l k : Nat) : Option Nat :=
  let s : Int := match mode with
    | .idx => k
    | .up => (l : Int) - k
    | .down => (l : Int) + k
    | .xor => (l ^^^ k : Nat)
  if 0 ≤ s ∧ s < w then some s.toNat else none

/-- What a lane of `SHFL` receives: a value and its validity. -/
def shflVal (x : Ex) (mode : ShflMode) (wide : Bool) (a b c : Spec) (l : Nat) : W64 × Bool :=
  match shflSource mode x.width l (x.v b l).toNat with
  | some p => if x.exec.getLsbD p then (x.vw wide a p, true) else (x.vw wide c l, false)
  | none => (x.vw wide c l, false)

def execShfl (c : Ctl) (mode : ShflMode) (wide : Bool) (d a b x v : Spec) (s : State) : Host.Outcome State Fault Refusal :=
  .next (issue (.shfl c mode wide d a b x v) c [dstX wide d, srcX wide a, srcV b, srcX wide x, dstP v] [] .aborts (fun e s =>
    let f := shflVal e mode wide a b x
    retire e c ((e.body.sendX wide e.exec d fun l => (f l).1).sendP e.exec v fun l => (f l).2) s) s)

/-- The result of `VOTE` over the participating lanes (R120). -/
def voteVal (x : Ex) (mode : VoteMode) (a : Spec) : W64 :=
  let bs := x.lanes.map (x.p a)
  let yes : Bool → W64 := fun b => if b then 1 else 0
  match mode with
  | .all => yes (bs.all id)
  | .any => yes (bs.any id)
  | .eq => yes (bs.all id || bs.all not)
  | .ballot => maskOf (x.lanes.filter (x.p a))

def execVote (c : Ctl) (mode : VoteMode) (d a : Spec) (s : State) : Host.Outcome State Fault Refusal :=
  .next (let wide := curWidth s == 64
    let dst := if mode = .ballot then dstX wide d else dstP d
    issue (.vote c mode d a) c [dst, srcP a] [] .aborts (fun x s =>
      let r := voteVal x mode a
      retire x c (if mode = .ballot then x.body.sendX wide x.exec d fun _ => r
                  else x.body.sendP x.exec d fun _ => r != 0) s) s)

/-! ## REDC, SCAN and MATCH -/

/-- The combination of two values, with its event (R121, R122). -/
def combine (op : RedOp) (x y : W64) : W64 × Option Arith :=
  let a := lo32 x
  let b := lo32 y
  let ext : W32 → W64 := fun v => v.setWidth 64
  match op with
  | .add => (ext (a + b), none)
  | .mins => (ext (iminVal true a b), none)
  | .minb => (ext (iminVal false a b), none)
  | .maxs => (ext (imaxVal true a b), none)
  | .maxb => (ext (imaxVal false a b), none)
  | .and => (ext (a &&& b), none)
  | .or => (ext (a ||| b), none)
  | .xor => (ext (a ^^^ b), none)
  | .fadd => let r := fAdd fp32 .rne a.toNat b.toNat; (BitVec.ofNat 64 r.1, r.2)
  | .fmin => (BitVec.ofNat 64 (fMinMax fp32 false false a.toNat b.toNat), none)
  | .fmax => (BitVec.ofNat 64 (fMinMax fp32 true false a.toNat b.toNat), none)
  | .maxidx => (maxIdx x y, none)

/-- Neighbours combined pairwise, with the events met (R121). -/
def combinePairs (op : RedOp) : List W64 → List W64 × List Arith
  | a :: b :: r =>
    let c := combine op a b
    let t := combinePairs op r
    (c.1 :: t.1, c.2.toList ++ t.2)
  | l => (l, [])

/-- The tree of R121, by halving. -/
def combineTree (op : RedOp) : (fuel : Nat) → List W64 → W64 × List Arith
  | 0, l => (l.headD 0, [])
  | n + 1, l =>
    if l.length ≤ 1 then (l.headD 0, [])
    else
      let p := combinePairs op l
      let t := combineTree op n p.1
      (t.1, p.2 ++ t.2)

/-- The sequential combination from position 0 (R123). -/
def combineSeq (op : RedOp) : List W64 → W64 × List Arith
  | [] => (0, [])
  | v :: r => r.foldl (fun acc y => let c := combine op acc.1 y; (c.1, acc.2 ++ c.2.toList)) (v, [])

/-- What each position contributes: A of a participating lane, otherwise the fill, C of the lowest participating lane (R121). -/
def contribution (x : Ex) (wide : Bool) (a c : Spec) (i : Nat) : W64 :=
  if x.exec.getLsbD i then x.vw wide a i else x.vw wide c x.low

/-- Whether every one of the first n positions participates. -/
def allIn (x : Ex) (n : Nat) : Bool := (List.range n).all fun i => x.exec.getLsbD i

/-- The events of one execution, each cause once with the participating lanes (R121). -/
def crossEvents (x : Ex) (es : List Arith) : Events := es.eraseDups.map fun e => (e, x.exec)

def execRedc (c : Ctl) (op : RedOp) (d a x v : Spec) (s : State) : Host.Outcome State Fault Refusal :=
  .next (let wide := op == .maxidx
    issue (.redc c op d a x v) c [dstX wide d, srcX wide a, srcX wide x, dstP v] [] .aborts (fun e s =>
      let r := combineTree op 6 ((List.range e.width).map (contribution e wide a x))
      withEvents e (crossEvents e r.2) s fun s =>
        retire e c ((e.body.sendX wide e.exec d fun _ => r.1).sendP e.exec v fun _ => allIn e e.width) s) s)

/-- What a lane of `SCAN` receives, with the events of its prefix (R123). -/
def scanVal (x : Ex) (op : RedOp) (excl wide : Bool) (a c : Spec) (l : Nat) : W64 × List Arith :=
  if excl ∧ l = 0 then (x.vw wide c x.low, [])
  else combineSeq op ((List.range (if excl then l else l + 1)).map (contribution x wide a c))

def execScan (c : Ctl) (op : RedOp) (excl : Bool) (d a x v : Spec) (s : State) : Host.Outcome State Fault Refusal :=
  .next (let wide := op == .maxidx
    issue (.scan c op excl d a x v) c [dstX wide d, srcX wide a, srcX wide x, dstP v] [] .aborts (fun e s =>
      let f := scanVal e op excl wide a x
      withEvents e (crossEvents e (e.lanes.map fun l => (f l).2).flatten) s fun s =>
        retire e c ((e.body.sendX wide e.exec d fun l => (f l).1).sendP e.exec v
          fun l => allIn e (if excl then l else l + 1)) s) s)

def execMatchLanes (c : Ctl) (wide : Bool) (d a : Spec) (s : State) : Host.Outcome State Fault Refusal :=
  .next (let big := curWidth s == 64
    issue (.matchLanes c wide d a) c [dstX big d, srcX wide a] [] .aborts (fun x s =>
      retire x c (x.body.sendX big x.exec d fun l =>
        maskOf (x.lanes.filter fun i => x.vw wide a i == x.vw wide a l)) s) s)

end Sys2Proof.Machine
end

