-- ==== Sys2Proof/Machine/Access.lean ====
section
/-! DEFINITION. Group 0xA: the acceptance of commands (R180, R181, R185), operand queues (R195 to R198), tokens (R186, R187) and barriers
(R188 to R192); and `CHAIN` and `PDEC` of group 0xD (R312, R317). -/

namespace Sys2Proof.Machine

open Sys2Proof

/-! ## Ranges at acceptance (R181) -/

/-- Whether [va, va + n) meets [lo, hi). -/
def meets (va n lo hi : Nat) : Bool := decide (0 < n) && decide (va < hi) && decide (lo < va + n)

/-- Whether a range reaches a reserved range of R48. -/
def reachesReserved (va n : Nat) : Bool :=
  meets va n 0x50000000000000 0x7FFF0000000000 || meets va n 0x7FFF0000100000 0x7FFF0100000000
    || meets va n 0x7FFF0100400000 0x80000000000000

/-- Whether a range reaches the cluster window. -/
def slotHit (va n : Nat) : Bool := meets va n 0x7FFF0100000000 0x7FFF0100400000

/-- Blocks of bytes at two strides (R181): n1 rows of n0 blocks of `len` bytes, the blocks `b` and the rows `x` apart. -/
structure Span where
  base : Nat
  len  : Nat
  b    : Int := 0
  n0   : Nat := 1
  x    : Int := 0
  n1   : Nat := 1
  deriving DecidableEq, Repr

/-- Whether one of n addresses at a stride lies above `lo` and below `hi`. -/
def strideHits (lo hi base step : Int) (n : Nat) : Bool :=
  let up : Int → Int → Bool := fun base step =>
    let i := if lo < base then 0 else (lo - base) / step + 1
    decide (i < (n : Int)) && decide (base + i * step < hi)
  if n = 0 then false
  else if step = 0 then decide (lo < base) && decide (base < hi)
  else if 0 < step then up base step
  else up (base + ((n : Int) - 1) * step) (-step)

/-- Whether a block has a byte in [lo, hi). -/
def Span.meets (r : Span) (lo hi : Nat) : Bool :=
  decide (0 < r.len) && (List.range r.n1).any fun j => strideHits ((lo : Int) - r.len) hi ((r.base : Int) + j * r.x) r.b r.n0

/-- The blocks' bytes against the ranges of R48 that are reserved, the bytes of scratchpad windows past an allocation, and the cluster window. -/
def Span.reserved (r : Span) : Bool :=
  r.meets 0x50000000000000 0x7FFF0000000000 || r.meets 0x7FFF0000100000 0x7FFF0100000000 || r.meets 0x7FFF0100400000 0x80000000000000
def Span.past (r : Span) (alloc : Nat) : Bool :=
  r.meets (0x7FFF0000000000 + alloc) 0x7FFF0000100000
    || (List.range 4).any fun c => r.meets (0x7FFF0100000000 + c * 0x100000 + alloc) (0x7FFF0100000000 + (c + 1) * 0x100000)
def Span.slot (r : Span) : Bool := r.meets 0x7FFF0100000000 0x7FFF0100400000

/-- A command as it stands before acceptance: its address ranges, those of them that have gaps, values that need an alignment, scratchpad ranges by offset, and
whether an operand is out of its limits or names no team. `extra` is a fault that comes after the ranges' windows are checked. -/
structure CmdReq where
  kind   : CmdKind
  cb     : CmdByte
  bar    : Option Nat
  bytes  : Nat
  ranges : List (Nat × Nat)
  spans  : List Span := []
  aligns : List (Nat × Nat)
  pads   : List (Nat × Nat)
  pad    : Option Nat
  extra  : Option EngFail
  range  : Bool
  remote : Bool
  queue  : Option Nat

/-- The effective quotas that bind a grid's commands, each with the commands counted against it now (R180, R338, R405). -/
def quotas (s : State) (grid : Nat) : List (Nat × Nat) :=
  match tget s.grids grid with
  | none => []
  | some g =>
    if g.handles.isSome then [(64, (s.cmds.filter fun e => e.2.by_.grid == grid).length)]
    else g.zones.map fun z =>
      let a := z.chain.headD 0
      (z.quota, (s.cmds.filter fun e => e.2.by_.ctx == g.ctx && e.2.zone.contains a).length)

/-- All the ranges of a command, as blocks. -/
def CmdReq.blocks (q : CmdReq) : List Span := (q.ranges.map fun r => { base := r.1, len := r.2 }) ++ q.spans

/-- The first failing check of R181, with the address and DETAIL it names. -/
def cmdCheck (s : State) (x : Ex) (q : CmdReq) : Option EngFail :=
  let team := teamOf s x.ref
  let alloc := allocOf s team
  let bars := match q.bar with | some b => [(b, 16)] | none => []
  match q.blocks.find? (fun r => decide (2 ^ 55 ≤ r.base)) with
  | some r => some (.at .addrNoncanon r.base)
  | none => match q.blocks.find? (·.reserved) with
    | some r => some (.at .addrReserved r.base)
    | none => match q.extra with
      | some e => some e
      | none => match q.blocks.find? (fun r => r.slot && !coplaced s team) with
        | some r => some (.at .clusterWindow r.base)
        | none =>
          let outside := q.pad.toList.filter fun a => match winOf a with | .own _ | .slot _ _ => false | _ => true
          match ((q.aligns ++ bars).find? (fun r => r.1 % r.2 != 0)).map (·.1) <|> outside.head? with
          | some a => some (.at .misaligned a)
          | none => match (q.pads ++ bars).find? (fun r => decide (alloc < r.1 + r.2)) with
            | some r => some (.at .scratchBounds r.1)
            | none => match q.blocks.find? (·.past alloc) with
              | some r => some (.at .scratchBounds r.base)
              | none =>
                if q.range then some (.at .cmdRange 0)
                else if q.remote then some (.at .remoteTeam 0)
                else if (quotas s (gridOf s x.ref)).any (fun z => z.1 == 0) then some (.at .copyQuota 0)
                else none

/-! ## Acceptance (R180, R185) -/

/-- Whether a command holds a place of its core's copy engine. -/
def CmdKind.placed : CmdKind → Bool
  | .fred _ _ _ _ _ _ _ | .attest _ _ _ => false
  | _ => true

/-- The places of a core's copy engine that commands hold. -/
def placesOf (s : State) (core : Nat) : List Nat :=
  (s.cmds.filter fun e => e.2.by_.core == core && e.2.kind.placed).map fun e => e.2.place

/-- A token by its operand code. -/
def tokenAt (b : Body) (t : Nat) : Token := b.toks.getD t Token.fresh

/-- Whether a command is a decode job. -/
def CmdKind.isJob : CmdKind → Bool
  | .pdec _ _ => true
  | _ => false

/-- Whether a contribution would open a reduction group. -/
def newGroup (s : State) (x : Ex) : CmdKind → Bool
  | .fred _ _ _ g _ _ _ => !(s.freds.any fun f =>
      f.ctx == ctxOf s x.ref && f.grid == gridOf s x.ref && f.group == g && decide (f.cmds.length < f.parts))
  | _ => false

/-- What a command waits for at acceptance, if anything: its token's batch, a place, its group, its quota, its queue. -/
def cmdWaits (s : State) (x : Ex) (q : CmdReq) : Option Awaited :=
  let core := coreOf s x.ref
  if q.cb.tv && (tokenAt x.body q.cb.tok.toNat).assignFull then some (.tokenRoom q.cb.tok.toNat)
  else if q.kind.placed && decide (64 ≤ (placesOf s core).length) then some .place
  else if newGroup s x q.kind && decide (64 ≤ s.freds.length) then some .place
  else if q.kind.isJob && decide (256 ≤ (s.cmds.filter fun e => e.2.kind.isJob).length) then some .place
  else if (quotas s (gridOf s x.ref)).any (fun z => decide (z.1 ≤ z.2)) then some .place
  else match q.queue, teamOf s x.ref with
    | some oq, some t => (match tget s.teams t with
      | some tm => if (tm.queues.getD oq { entries := [], producer := none }).producer.isSome then some (.queueFull oq) else none
      | none => none)
    | _, _ => none

/-- One more operation assigned to a token of the unit, with the batch it joins. -/
def assignToken (b : Body) (tv : Bool) (tok : Nat) : Body × Option (Nat × Nat) :=
  if !tv then (b, none)
  else
    let t := (tokenAt b tok).assign
    (b.setToks (lset b.toks tok t), some (tok, t.openId))

/-- Who issues, with the batch its operation joins. -/
def issuerOf (s : State) (x : Ex) (tok : Option (Nat × Nat)) : Issuer :=
  { ctx := ctxOf s x.ref, grid := gridOf s x.ref, team := teamOf s x.ref, crew := crewOf x.ref
    crewNum := match x.body with | .crew c => c.num | .ap _ => 0x3FF
    core := coreOf s x.ref, quarter := match x.body with | .crew c => c.quarter | .ap _ => 0
    lanes := x.exec, pc := x.pc, tok }

/-- A fault of the issuing instruction with the address and DETAIL of a failed read. -/
def failEx (x : Ex) (e : EngFail) (m : Mask) (s : State) : State :=
  faultUnit s x.ref x.grp.mask x.pc
    { cause := e.cause, addr := BitVec.ofNat 64 e.addr, mask := m, detail := e.detail, exact := false }

/-- The failed read of a block, with its address, level and access kind (R372, R403). -/
def blockFail (va : Nat) (acc : AccKind) (e : Cause × Nat) : EngFail :=
  { cause := e.1, addr := va, detail := if 70 ≤ xlateRank e.1 ∧ xlateRank e.1 ≤ 72 then xlateDetail e.2 acc else 0 }

/-- A command checked, waiting or accepted (R180 to R182, R199): once accepted it is assigned to its token and its region ends. -/
def acceptCmd (i : Instr) (c : Ctl) (q : CmdReq) (x : Ex) (s : State) : State :=
  match cmdCheck s x q with
  | some f => failEx x f x.exec s
  | none => match cmdWaits s x q with
    | some obj => waitEx x obj i s
    | none =>
      let b := assignToken x.body q.cb.tv q.cb.tok.toNat
      let by_ := issuerOf s x b.2
      let n := takeUid s
      let chain := match zoneOf s by_.grid with | some z => z.chain | none => []
      let cmd : Cmd :=
        { kind := q.kind, by_, place := lowestFree (placesOf s by_.core), sums := none, zone := chain, bar := q.bar
          bytes := q.bytes, pos := 0, stopped := none, started := false, bad := none
          probe := s.clock + 65536 }
      let s1 := { n.2 with cmds := tset n.2.cmds n.1 cmd }
      let s2 := match q.kind with
        | .fred _ _ _ _ _ _ _ => fredJoin s1 n.1 cmd
        | .astream oq _ _ _ _ _ => (match by_.team with
          | some t => modTeam s1 t fun tm =>
            { tm with queues := lset tm.queues oq { tm.queues.getD oq { entries := [], producer := none } with producer := some n.1 } }
          | none => s1)
        | _ => s1
      let s3 := retireEnd x c b.1 s2
      match q.kind with
      | .cpy _ _ 0 => finishCmd s3 n.1 cmd 0
      | _ => s3
where
  lowestFree (used : List Nat) : Nat := ((List.range 64).find? fun n => !used.contains n).getD 0

/-- The barrier offset of a command byte: the low word of C in the lowest executing lane. -/
def cmdBar (x : Ex) (cb : CmdByte) (c : Spec) : Option Nat := if cb.bv then some (x.v c x.low).toNat else none
/-- C as an operand, where the command byte uses it. -/
def opBar (cb : CmdByte) (c : Spec) : List Opnd := if cb.bv then [srcV c] else []

/-- A request with nothing to check but its ranges. -/
def CmdReq.plain (kind : CmdKind) (cb : CmdByte) (bar : Option Nat) (bytes : Nat) (ranges : List (Nat × Nat)) : CmdReq :=
  { kind, cb, bar, bytes, ranges, aligns := [], pads := [], pad := none, extra := none, range := false, remote := false
    queue := none }

/-! ## Operand queues -/

/-- The operand queues that the selected unit's team declares; a spawned thread has none (R193, R197). -/
def curQueues (s : State) : Nat :=
  match s.cur with
  | some u => (match teamOf s u with
    | some t => (match tget s.teams t with | some tm => tm.queues.length | none => 0)
    | none => 0)
  | none => 0

/-- The decode check of a queue operand. -/
def queueCheck (s : State) (q : BitVec 4) : List Cause := if q.toNat < curQueues s then [] else [.illegalReg]

/-- The entries of a stream (R196): 128 bytes each, n1 rows of n0. -/
def streamSpan (a : Nat) (b x : Int) (n0 n1 : Nat) : Span := { base := a, len := 128, b, n0, x, n1 }

def execAstream (c : Ctl) (q : BitVec 4) (a b v : Spec) (n0 n1 : BitVec 16) (cmd : CmdByte) (s : State) :
    Host.Outcome State Fault Refusal :=
  .next (issue (.astream c q a b v n0 n1 cmd) c [srcW a, srcV b, srcV v] (queueCheck s q) .aborts (fun x s =>
    let base := x.w a x.low
    let kind := CmdKind.astream q.toNat base (x.v b x.low) (x.v v x.low) n0.toNat n1.toNat
    acceptCmd (.astream c q a b v n0 n1 cmd) c
      { CmdReq.plain kind cmd none 0 [] with
        spans := [streamSpan base.toNat (x.v b x.low).toInt (x.v v x.low).toInt n0.toNat n1.toNat]
        aligns := [(base.toNat, 16), ((x.v b x.low).toNat, 16), ((x.v v x.low).toNat, 16)], queue := some q.toNat } x s) s)

/-- The bytes that `OPUSH` pushes (R196). -/
def opushBytes (x : Ex) (a : Spec) (n : Nat) : List Byte :=
  let bs := ((List.range n).map fun i => toBytes 8 (x.w (a + BitVec.ofNat 8 i) x.low).toNat).flatten
  bs ++ List.replicate (128 - bs.length) 0

def execOpush (c : Ctl) (q : BitVec 4) (a : Spec) (n : BitVec 5) (s : State) : Host.Outcome State Fault Refusal :=
  .next (issue (.opush c q a n) c ((List.range n.toNat).map fun i => srcW (a + BitVec.ofNat 8 i))
    (queueCheck s q ++ (if a.toNat + n.toNat ≤ 32 then [] else [.illegalReg])) .aborts (fun x s =>
      match teamOf s x.ref with
      | none => retire x c x.body s
      | some t => match tget s.teams t with
        | none => retire x c x.body s
        | some tm =>
          let oq := tm.queues.getD q.toNat { entries := [], producer := none }
          if oq.producer.isSome || decide (queueCap ≤ oq.entries.length) then waitEx x (.queueFull q.toNat) (.opush c q a n) s
          else
            retire x c x.body (modTeam s t fun tm =>
              { tm with queues := lset tm.queues q.toNat (oq.push (opushBytes x a n.toNat) false) })) s)

/-- Entries that one `OPOP` pops (R197). -/
def opopCount (w : Nat) (wide : Bool) : Nat := (w * (if wide then 8 else 4) + 127) / 128

/-- `OPOP` (R197). An entry that was read poisoned raises POISON and stays in its queue (log 19). -/
def execOpop (c : Ctl) (wide : Bool) (d : Spec) (q : BitVec 4) (s : State) : Host.Outcome State Fault Refusal :=
  .next (issue (.opop c wide d q) c [dstX wide d] (queueCheck s q) .aborts (fun x s =>
    match teamOf s x.ref with
    | none => retire x c x.body s
    | some t => match tget s.teams t with
      | none => retire x c x.body s
      | some tm =>
        let oq := tm.queues.getD q.toNat { entries := [], producer := none }
        let m := opopCount x.width wide
        if oq.entries.length < m then waitEx x (.queueEmpty q.toNat m) (.opop c wide d q) s
        else if (oq.marks.take m).any id then faultEx x .poison 0 x.exec s
        else
          let bs := (oq.entries.take m).flatten
          let e := if wide then 8 else 4
          let s1 := modTeam s t fun tm =>
            { tm with queues := lset tm.queues q.toNat (oq.pop m) }
          retire x c (x.body.sendX wide x.exec d fun l => BitVec.ofNat 64 (ofBytes ((bs.drop (l * e)).take e))) s1) s)

/-! ## Copies -/

/-- Bytes of an element of code 0 to 7 (R200). -/
def eszOf (e : BitVec 3) : Nat := 2 ^ e.toNat

def execGather (c : Ctl) (esz : BitVec 3) (i64 : Bool) (d a b v : Spec) (count : BitVec 16) (cmd : CmdByte) (s : State) :
    Host.Outcome State Fault Refusal :=
  .next (issue (.gather c esz i64 d a b v count cmd) c ([srcW d, srcW a, srcW b] ++ opBar cmd v) [] .aborts (fun x s =>
    let n := count.toNat * eszOf esz
    let w := if i64 then 8 else 4
    acceptCmd (.gather c esz i64 d a b v count cmd) c
      { CmdReq.plain (.gather (x.w d x.low) (x.w a x.low) (x.w b x.low) (eszOf esz) count.toNat i64) cmd (cmdBar x cmd v) n
          [((x.w d x.low).toNat, n), ((x.w a x.low).toNat, 0), ((x.w b x.low).toNat, count.toNat * w)] with
        aligns := [((x.w b x.low).toNat, w)] } x s) s)

def execScatter (c : Ctl) (esz : BitVec 3) (i64 : Bool) (d a b v : Spec) (count : BitVec 16) (cmd : CmdByte) (s : State) :
    Host.Outcome State Fault Refusal :=
  .next (issue (.scatter c esz i64 d a b v count cmd) c ([srcW d, srcW a, srcW b] ++ opBar cmd v) [] .aborts (fun x s =>
    let n := count.toNat * eszOf esz
    let w := if i64 then 8 else 4
    acceptCmd (.scatter c esz i64 d a b v count cmd) c
      { CmdReq.plain (.scatter (x.w d x.low) (x.w a x.low) (x.w b x.low) (eszOf esz) count.toNat i64) cmd (cmdBar x cmd v) n
          [((x.w d x.low).toNat, 0), ((x.w a x.low).toNat, n), ((x.w b x.low).toNat, count.toNat * w)] with
        aligns := [((x.w b x.low).toNat, w)] } x s) s)

def execCpy (c : Ctl) (d a b v : Spec) (cmd : CmdByte) (s : State) : Host.Outcome State Fault Refusal :=
  .next (issue (.cpy c d a b v cmd) c ([srcW d, srcW a, srcV b] ++ opBar cmd v) [] .aborts (fun x s =>
    let n := (x.v b x.low).toNat
    acceptCmd (.cpy c d a b v cmd) c
      (CmdReq.plain (.cpy (x.w d x.low) (x.w a x.low) n) cmd (cmdBar x cmd v) n
        [((x.w d x.low).toNat, n), ((x.w a x.low).toNat, n)]) x s) s)

def execCpy2g (c : Ctl) (d a b v : Spec) (pitch : BitVec 20) (esz : BitVec 2) (count : BitVec 12) (ph pw : BitVec 8) (cmd : CmdByte)
    (s : State) : Host.Outcome State Fault Refusal :=
  .next (issue (.cpy2g c d a b v pitch esz count ph pw cmd) c ([srcW d, srcW a, srcW b] ++ opBar cmd v) [] .aborts (fun x s =>
    let e := 2 ^ esz.toNat
    let one := pw.toNat * ph.toNat * e
    let stride := (one + 15) / 16 * 16
    let n := count.toNat
    acceptCmd (.cpy2g c d a b v pitch esz count ph pw cmd) c
      { CmdReq.plain (.cpy2g (x.w d x.low) (x.w a x.low) (x.w b x.low) pitch.toNat e pw.toNat ph.toNat n) cmd (cmdBar x cmd v)
          (n * one) [((x.w a x.low).toNat, 0), ((x.w b x.low).toNat, 4 * n)] with
        spans := [{ base := (x.w d x.low).toNat, len := one, b := stride, n0 := n }]
        aligns := [((x.w b x.low).toNat, 4)] } x s) s)

/-- Declared bytes of a `CPYT` for each frame (R203). -/
def cpytBytes (pack : Bool) (role : Role) (f : FrameFmt) : Nat :=
  if !pack then frBytes f
  else if role = .acc then 1024
  else frKt f * 16 * frBits f / 8 + (if frMx f then 16 * frKt f / 32 else 0)

/-- The rows of storage and of scales of a `CPYT` (R181, R203). -/
def cpytSpans (role : Role) (f : FrameFmt) (store : Nat) (scales : Option Nat) (pitch spitch n : Nat) : List Span :=
  let nb := n * (frKt f / 32)
  let rows : Span := match role with
    | .a => { base := store, len := n * (frKt f * frBits f / 8), b := pitch, n0 := 16 }
    | .b => { base := store, len := 2 * frBits f, b := pitch, n0 := n * frKt f }
    | .acc => { base := store, len := 64, b := pitch, n0 := 16 }
  match scales with
  | none => [rows]
  | some a => [rows, if role = .a then { base := a, len := nb, b := spitch, n0 := 16 } else { base := a, len := 16, b := spitch, n0 := nb }]

def execCpyt (c : Ctl) (pack : Bool) (d a b v : Spec) (spitch : BitVec 16) (role : Role) (fmt : FrameFmt) (pitch : BitVec 20)
    (count : BitVec 12) (cmd : CmdByte) (s : State) : Host.Outcome State Fault Refusal :=
  .next (issue (.cpyt c pack d a b v spitch role fmt pitch count cmd) c ([srcW d, srcW a, srcW b] ++ opBar cmd v) [] .aborts
    (fun x s =>
      let n := count.toNat
      let frames := if pack then x.w a x.low else x.w d x.low
      let store := if pack then x.w d x.low else x.w a x.low
      let scales := if b = 255#8 then none else some (x.w b x.low)
      acceptCmd (.cpyt c pack d a b v spitch role fmt pitch count cmd) c
        { CmdReq.plain (.cpyt pack (x.w d x.low) (x.w a x.low) scales role fmt pitch.toNat spitch.toNat n) cmd (cmdBar x cmd v)
            (n * cpytBytes pack role fmt)
            [(frames.toNat, n * frBytes fmt)] with
          spans := cpytSpans role fmt store.toNat (scales.map (·.toNat)) pitch.toNat spitch.toNat n
          aligns := [(frames.toNat, 64)], pad := some frames.toNat } x s) s)

/-- Teams of a grid. -/
def teamCount (s : State) (g : Nat) : Nat :=
  match tget s.grids g with | some g => g.packet.gx * g.packet.gy * g.packet.gz | none => 0

def execCpyr (c : Ctl) (d a b v : Spec) (off : W32) (cmd : CmdByte) (s : State) : Host.Outcome State Fault Refusal :=
  .next (issue (.cpyr c d a b v off cmd) c ([srcW d, srcW a, srcV b] ++ opBar cmd v) [] .aborts (fun x s =>
    let n := (x.v b x.low).toNat
    acceptCmd (.cpyr c d a b v off cmd) c
      { CmdReq.plain (.cpyr (x.w d x.low) off.toNat (x.w a x.low) n) cmd (cmdBar x cmd v) n [((x.w a x.low).toNat, n)] with
        pads := if n = 0 then [] else [(off.toNat, n)]
        remote := decide (teamCount s (gridOf s x.ref) ≤ (x.w d x.low).toNat) } x s) s)

def execFred (c : Ctl) (s32 : Bool) (d a b v : Spec) (group : BitVec 16) (e : BitVec 8) (parts : BitVec 16) (cmd : CmdByte)
    (s : State) : Host.Outcome State Fault Refusal :=
  .next (issue (.fred c s32 d a b v group e parts cmd) c ([srcW d, srcW a, srcV b] ++ opBar cmd v) [] .aborts (fun x s =>
    let n := (x.v b x.low).toNat
    let bad := decide (n < 1) || decide (1024 < n)
    acceptCmd (.fred c s32 d a b v group e parts cmd) c
      { CmdReq.plain (.fred (x.w d x.low) (x.w a x.low) n group.toNat parts.toNat s32 e) cmd (cmdBar x cmd v) (4 * n)
          [((x.w d x.low).toNat, 4 * n), ((x.w a x.low).toNat, 4 * n)] with
        range := bad } x s) s)

/-! ## CHAIN (R312) -/

/-- The constants that operations name, as offsets from B. -/
def chainNames (ops : List (Nat × Nat)) : List Nat :=
  (ops.map fun o => match o.1 with
    | 0 | 6 | 7 | 15 => []
    | 13 => [o.2 + 1, o.2 + 2]
    | _ => [o.2 + 1]).flatten.eraseDups

/-- Whether a range meets the view or the backing range of an entry bound in a context. -/
def meetsBound (s : State) (ctx va n : Nat) : Bool :=
  match tget s.ctxs ctx with
  | none => false
  | some c => c.bindings.any fun e =>
    meets va n e.2.vbase (e.2.vbase + e.2.vlen) || meets va n e.2.backing (e.2.backing + e.2.vlen / 64 * storedLen e.2.ratio)

/-- Whether a range is not device memory outside every bound view and backing range. -/
def notPlain (s : State) (ctx va n : Nat) : Bool :=
  decide (0 < n) && (!(decide (va + n ≤ 0x40000000000000)) || meetsBound s ctx va n)

def execChain (c : Ctl) (sat : Bool) (ty : ChainTy) (d a b v : Spec) (ops : BitVec 56) (cmd : CmdByte) (s : State) :
    Host.Outcome State Fault Refusal :=
  .next (let os := (List.range 8).map (Sys2Proof.chainOp ops)
    let names := chainNames os
    let regs := names.map fun j => srcW (b + BitVec.ofNat 8 j)
    let beyond := names.any fun j => decide (31 < b.toNat + j)
    issue (.chain c sat ty d a b v ops cmd) c ([srcW d, srcW a, srcV b] ++ regs ++ opBar cmd v)
      (if beyond then [.illegalReg] else []) .aborts (fun x s =>
        let n := (x.v b x.low).toNat
        let es := gBits (chainTy ty) / 8
        let da := (x.w d x.low).toNat
        let aa := (x.w a x.low).toNat
        let ks := (List.range 9).map fun j => if names.contains (j + 1) then x.w (b + BitVec.ofNat 8 (j + 1)) x.low else 0
        acceptCmd (.chain c sat ty d a b v ops cmd) c
          { CmdReq.plain (.chain (x.w d x.low) (x.w a x.low) n ty sat os ks) cmd (cmdBar x cmd v) n [(da, n), (aa, n)] with
            aligns := [(da, es), (aa, es), (n, es)]
            range := notPlain s (ctxOf s x.ref) da n || notPlain s (ctxOf s x.ref) aa n } x s) s)

/-! ## PDEC (R317) -/

/-- Whether a decode job descriptor has a reserved field set or a value out of its limits (R314, R317). -/
def jobBad (v : Nat) : Bool :=
  let j := Job.ofNat v
  v / 2 ^ 448 % 2 ^ 512 != 0 || v / 2 ^ 352 % 2 ^ 32 != 0 || v / 2 ^ 240 % 2 ^ 16 != 0 || v / 2 ^ 168 % 2 ^ 8 != 0
    || v / 2 ^ 165 % 2 != 0 || decide (2 < j.codec) || (j.codec != 2 && j.ifd != 0) || decide (j.long < j.p) || decide (16384 < j.long)
    || j.srcLen == 0 || j.cap == 0 || j.cap % 16 != 0

/-- The ranges that a decode job reads and writes (R181, R314). -/
def jobRanges (j : Job) : List (Nat × Nat) := [(j.src, j.srcLen), (j.dst, j.cap), (j.status, 32)]

/-- Whether a job's destination lies in the global window or in the own scratchpad (R314). -/
def jobPlace (va n : Nat) : Bool := decide (va + n ≤ 0x40000000000000) || (match winOf va with | .own _ => true | _ => false)

/-- A generation descriptor bound by a unit (R293, R294): read from memory, or, where the unit keeps a bound copy that no `GINV` has
dropped, either version (a free choice, log 2); what it bound is kept as its copy. -/
def bindDesc (s : State) (ctx core va n : Nat) : Except (Cause × Nat) (Nat × State) :=
  let key : BoundCopy → Bool := fun k => k.core == core && k.addr.toNat == va
  let old := match tget s.ctxs ctx with | some c => c.copies.find? key | none => none
  let keep : State → Nat → State := fun s v => modCtx s ctx fun c =>
    { c with copies := c.copies.filter (fun k => !key k) ++ [{ core, addr := BitVec.ofNat 64 va, bytes := toBytes n v }] }
  match old with
  | some k =>
    let s1 := { s with nums := { s.nums with fresh := s.nums.fresh + 1 } }
    if Config.freeBool (2 * s.nums.fresh + 1) then .ok (ofBytes k.bytes, s1)
    else match descRead s1 ctx va n with
      | .ok (v, s2) => .ok (v, keep s2 v)
      | .error e => .error e
  | none => match descRead s ctx va n with
    | .ok (v, s2) => .ok (v, keep s2 v)
    | .error e => .error e

def execPdec (c : Ctl) (a v : Spec) (cmd : CmdByte) (s : State) : Host.Outcome State Fault Refusal :=
  .next (issue (.pdec c a v cmd) c (srcW a :: opBar cmd v) [] .aborts (fun x s =>
    let va := (x.w a x.low).toNat
    let first := CmdReq.plain (.pdec (x.w a x.low) []) cmd (cmdBar x cmd v) 0 [(va, 128)]
    let req := if 2 ^ 55 ≤ va ∨ reachesReserved va 128 = true ∨ va % 64 ≠ 0 then ({ first with aligns := [(va, 64)] }, s)
      else match bindDesc s (ctxOf s x.ref) (coreOf s x.ref) va 128 with
        | .error e => ({ first with extra := some (blockFail va .load e) }, s)
        | .ok (desc, s1) =>
          let j := Job.ofNat desc
          ({ first with
              kind := .pdec (x.w a x.low) (toBytes 128 desc), bytes := j.cap + 32
              ranges := (va, 128) :: jobRanges j, aligns := [(j.dst, 16), (j.status, 32)]
              range := jobBad desc || !(jobPlace j.dst j.cap) || !(jobPlace j.status 32) }, s1)
    acceptCmd (.pdec c a v cmd) c req.1 x req.2) s)

/-! ## Tokens (R186, R187) -/

/-- A specifier of class T. -/
def opT (t : Spec) : Opnd := { cls := .t, code := t, rd := false }

def execClose (c : Ctl) (t : Spec) (s : State) : Host.Outcome State Fault Refusal :=
  .next (issue (.close c t) c [opT t] [] .aborts (fun x s =>
    let k := tokenAt x.body t.toNat
    if k.full then waitEx x (.tokenRoom t.toNat) (.close c t) s
    else retire x c (x.body.setToks (lset x.body.toks t.toNat k.close)) s) s)

/-- `WAITB` once its token's open batch is closed: it waits, or ends with the acquire of R147. -/
def waitbEnd (i : Instr) (c : Ctl) (n : Nat) (d t : Spec) (x : Ex) (s : State) : State :=
  let k := tokenAt x.body t.toNat
  if n < k.closed.length then waitEx x (.tokenLeft t.toNat n) i (putBody s x.ref x.body)
  else
    let b := x.body.setToks (lset x.body.toks t.toNat { k with err := false })
    retire x c (b.sendV x.exec d fun _ => if k.err then 1 else 0) (acquireAt s (coreOf s x.ref) .l2)

/-- Whether the issuing group already waits for its closed batches. -/
def Ex.leftWait (x : Ex) : Bool := match x.grp.wait with | some w => (match w.obj with | .tokenLeft _ _ => true | _ => false) | none => false

def execWaitb (c : Ctl) (n : BitVec 4) (d t : Spec) (s : State) : Host.Outcome State Fault Refusal :=
  .next (issue (.waitb c n d t) c [dstV d, opT t] [] .aborts (fun x s =>
    let k := tokenAt x.body t.toNat
    if x.leftWait then waitbEnd (.waitb c n d t) c n.toNat d t x s
    else if k.full then waitEx x (.tokenRoom t.toNat) (.waitb c n d t) s
    else waitbEnd (.waitb c n d t) c n.toNat d t
      { x with body := x.body.setToks (lset x.body.toks t.toNat k.close) } s) s)

/-! ## Barriers (R189 to R192) -/

/-- Barrier offsets of lanes checked in the order of R181: the first failing check, the lanes that fail it. -/
def barCheck (alloc : Nat) (offs : List (Nat × Int)) (bad : Nat → Bool) : Option (Cause × Int × Mask) :=
  let pick : Cause → (Nat × Int → Bool) → Option (Cause × Int × Mask) := fun cause p =>
    match offs.filter p with
    | [] => none
    | e :: r => some (cause, e.2, maskOf ((e :: r).map (·.1)))
  match pick .misaligned (fun e => decide (e.2 % 16 ≠ 0)) with
  | some f => some f
  | none => match pick .scratchBounds (fun e => decide (e.2 < 0) || decide ((alloc : Int) < e.2 + 16)) with
    | some f => some f
    | none => pick .cmdRange (fun e => bad e.1)

/-- The offset of a lane's barrier: A plus the signed offset of word 2. -/
def barOff (x : Ex) (a : Spec) (off : W32) (l : Nat) : Int := (x.v a l).toNat + off.toInt

/-- The barrier of the unit's team at an offset. -/
def barOf (s : State) (u : UnitRef) (off : Nat) : Bar :=
  match teamOf s u with
  | some t => Bar.ofNat (ofBytes (padRead s t off 16).1)
  | none => Bar.ofNat 0

/-- The unit's team with a barrier put back. -/
def setBar (s : State) (u : UnitRef) (off : Nat) (b : Bar) : State :=
  match teamOf s u with
  | some t => padWrite s t off (toBytes 16 b.toNat)
  | none => s

/-- What `BARINIT` and `BARARV`, releases at team scope, wait for. -/
def barWaits (s : State) (x : Ex) : Option Awaited := releaseObject s x.ref .team

def execBarinit (c : Ctl) (a b : Spec) (off : W32) (s : State) : Host.Outcome State Fault Refusal :=
  .next (issue (.barinit c a b off) c [srcV a, srcV b] [] .aborts (fun x s =>
    let o := barOff x a off x.low
    let n := (x.v b x.low).toNat
    match barCheck (allocOf s (teamOf s x.ref)) [(x.low, o)] (fun _ => decide (n < 1) || decide (65535 < n)) with
    | some f => faultEx x f.1 (BitVec.ofInt 64 f.2.1) f.2.2 s
    | none => match barWaits s x with
      | some obj => waitEx x obj (.barinit c a b off) s
      | none =>
        retire x c x.body (setBar s x.ref o.toNat
          { expected := n, remain := n, balance := 0, reserved := 0, error := false, phase := false })) s)

def execBararv (c : Ctl) (one exp : Bool) (a b : Spec) (off : W32) (s : State) : Host.Outcome State Fault Refusal :=
  .next (issue (.bararv c one exp a b off) c (if exp then [srcV a, srcV b] else [srcV a]) [] .aborts (fun x s =>
    let ls := if one then [x.low] else x.lanes
    let offs := ls.map fun l => (l, barOff x a off l)
    match barCheck (allocOf s (teamOf s x.ref)) offs (fun _ => false) with
    | some f => faultEx x f.1 (BitVec.ofInt 64 f.2.1) f.2.2 s
    | none => match barWaits s x with
      | some obj => waitEx x obj (.bararv c one exp a b off) s
      | none =>
        let s1 := (offs.map (·.2)).eraseDups.foldl (fun s o =>
          let mine := (offs.filter fun e => e.2 == o).map (·.1)
          let sum := if exp then mine.foldl (fun z l => z + (x.v b l).toNat) 0 else 0
          setBar s x.ref o.toNat ((barOf s x.ref o.toNat).update mine.length (-(sum : Int)) false)) s
        retire x c x.body s1) s)

def execBarexp (c : Ctl) (a b : Spec) (off : W32) (s : State) : Host.Outcome State Fault Refusal :=
  .next (issue (.barexp c a b off) c [srcV a, srcV b] [] .aborts (fun x s =>
    let offs := x.lanes.map fun l => (l, barOff x a off l)
    match barCheck (allocOf s (teamOf s x.ref)) offs (fun _ => false) with
    | some f => faultEx x f.1 (BitVec.ofInt 64 f.2.1) f.2.2 s
    | none =>
      retire x c x.body (offs.foldl (fun s e =>
        setBar s x.ref e.2.toNat ((barOf s x.ref e.2.toNat).update 0 (-((x.v b e.1).toNat : Int)) false)) s)) s)

/-- `BARWAIT`: the lanes whose barrier's PHASE differs from B[0] go on, with the acquire and ERROR; the others wait, one group for each
barrier and phase; lanes that do not execute go on. -/
def barwaitLanes (i : Instr) (c : Ctl) (sc : Scope) (d a b : Spec) (x : Ex) (s : State) : State :=
  let off : Nat → Nat := fun l => (x.v a l).toNat
  let ph : Nat → Bool := fun l => (x.v b l).getLsbD 0
  let free : Nat → Bool := fun l => (barOf s x.ref (off l)).phase != ph l
  let out := maskOf (x.lanes.filter free)
  let stuck := x.lanes.filter fun l => !free l
  let s1 := if out = 0#64 then s else acquireAt s (coreOf s x.ref) (lvlOf sc)
  let b1 := x.body.sendV out d fun l => if (barOf s x.ref (off l)).error then 1 else 0
  match x.body with
  | .ap _ => if out = 0#64 then waitEx x (.barrier (off 0) (ph 0)) i s else retire x c b1 s1
  | .crew _ =>
    if stuck.isEmpty then retire x c b1 s1
    else
      let waits := (stuck.map fun l => (off l, ph l)).eraseDups.map fun k =>
        ({ x.grp with
          mask := maskOf (stuck.filter fun l => (off l, ph l) == k), inPlay := false
          wait := some { obj := .barrier k.1 k.2, instr := some i, since := x.clock, probe := x.clock + 65536 } } : Group)
      let rest := { x.grp.issue x.next x.clock x.lag c with mask := x.grp.mask &&& ~~~(maskOf stuck) }
      putBody { s1 with cur := none } x.ref (setGroups b1 x.ref (waits ++ [rest]))

def execBarwait (c : Ctl) (sc : Scope) (d a b : Spec) (s : State) : Host.Outcome State Fault Refusal :=
  .next (issue (.barwait c sc d a b) c [dstV d, srcV a, srcV b] [] .aborts (fun x s =>
    match barCheck (allocOf s (teamOf s x.ref)) (x.lanes.map fun l => (l, ((x.v a l).toNat : Int))) (fun _ => false) with
    | some f => faultEx x f.1 (BitVec.ofInt 64 f.2.1) f.2.2 s
    | none => barwaitLanes (.barwait c sc d a b) c sc d a b x s) s)

def execBartest (c : Ctl) (sc : Scope) (d a b : Spec) (s : State) : Host.Outcome State Fault Refusal :=
  .next (issue (.bartest c sc d a b) c [dstV d, srcV a, srcV b] [] .aborts (fun x s =>
    match barCheck (allocOf s (teamOf s x.ref)) (x.lanes.map fun l => (l, ((x.v a l).toNat : Int))) (fun _ => false) with
    | some f => faultEx x f.1 (BitVec.ofInt 64 f.2.1) f.2.2 s
    | none =>
      let bar : Nat → Bar := fun l => barOf s x.ref (x.v a l).toNat
      let hit : Nat → Bool := fun l => (bar l).phase != (x.v b l).getLsbD 0
      let s1 := if x.lanes.any hit then acquireAt s (coreOf s x.ref) (lvlOf sc) else s
      retire x c (x.body.sendV x.exec d fun l =>
        BitVec.ofNat 32 ((if hit l then 1 else 0) + (if (bar l).error then 2 else 0) + (if (bar l).phase then 4 else 0))) s1) s)

end Sys2Proof.Machine
end

