-- ==== Sys2Proof/Machine/Atomics.lean ====
section
/-! DEFINITION. Group 0x9, atomics (R169 to R172). -/

namespace Sys2Proof.Machine

open Sys2Proof

/-- An atomic as its instruction gives it: its reach and width, its destination, whether it has an acquire and a release part, whether the host
performs it, and what it does in a lane. -/
structure AtomWork where
  reach : Reach
  wide  : Bool
  m     : MemWord
  d     : Option Spec
  acq   : Bool
  rel   : Bool
  host  : Bool
  op    : Nat → FarAtom

/-- Which windows the atomic reaches (R171): the host supports three operations, a peer every one, both at system scope. -/
def AtomWork.farOk (w : AtomWork) (peer : Nat) : Bool := w.m.scope == .system && (peer == 1 || w.host)

/-- The atomic of one lane performed at its copy: its old bytes and the state (R140, R171). A far one's old bytes are free (log 2). -/
def atomLane (s : State) (p : Path) (place : Place) (n : Nat) (f : List Byte → List Byte) : List Byte × State :=
  match place with
  | .dev pa => atomicDev s p pa n f
  | .pad t off => let r := padRead s t off n; (r.1, padWrite r.2 t off (f r.1))
  | .far _ _ => takeFreeBytes s n
  | .view _ _ => (List.replicate n 0, s)

/-- Where a checked lane's atomic lies. -/
def atomPlace (s : State) (q : AccessReq) : Place :=
  match placeOf s q.ctx q.team (some .atomic) q.va with | .ok p => p | .error _ => .far none 0

/-- Whether a lane's atomic would receive poisoned data. -/
def atomPoison (s : State) (core : Nat) (pl : Place) (n : Nat) : Bool :=
  match pl with
  | .dev pa => readsPoison s core pa n
  | .pad t off => padPoisoned s t off n
  | _ => false

/-- How a lane's atomic is performed (R169, R171). -/
def atomPath (s : State) (x : Ex) (m : MemWord) (l : Nat) : Path :=
  { pathOf s x m l with strong := some (if m.ord = .plain then .l1 else lvlOf m.scope) }

/-- A lane's atomic to a host or peer window sent there (R171). -/
def sendAtom (s : State) (x : Ex) (w : AtomWork) (l : Nat) (q : AccessReq) (port : Option Nat) (addr : Nat) : State :=
  { s with far := s.far ++ [
    { port, addr, cells := [], atom := some (w.op l), core := coreOf s x.ref, ctx := q.ctx, grid := some (gridOf s x.ref)
      crew := crewOf x.ref, team := q.team, cmd := none, va := BitVec.ofNat 64 q.va, pc := x.pc
      writers := [writerOf x l] }] }

/-- Every lane's atomic in ascending `%lane` (R172), with the old values. DESIGN CHOICE (log 36): all lanes are performed in one
step; other parties' accesses fall between two of them where the atomic is performed after its issue. -/
def atomLanes (s : State) (x : Ex) (w : AtomWork) (qs : List (Nat × AccessReq)) : List (Nat × List Byte) × State :=
  qs.foldl (fun acc e =>
    let pl := atomPlace acc.2 e.2
    let r := atomLane acc.2 (atomPath acc.2 x w.m e.1) pl e.2.n (w.op e.1).new
    (acc.1 ++ [(e.1, r.1)], match pl with | .far port a => sendAtom r.2 x w e.1 e.2 port a | _ => r.2))
    (([], s) : List (Nat × List Byte) × State)

/-- What keeps a lane's atomic from being performed now (R145, R417). -/
def atomBlocked (s : State) (x : Ex) (m : MemWord) (e : Nat × AccessReq) : Option Awaited :=
  let p := atomPath s x m e.1
  loadBlocked s x p (segsOf s e.2) e.1 <|> storeBlocked s x p (segsOf s e.2) e.1

/-- The old values sent to D. -/
def sendOld (x : Ex) (wide : Bool) (d : Option Spec) (olds : List (Nat × List Byte)) (b : Body) : Body :=
  let v : Nat → W64 := fun l => match olds.find? (fun e => e.1 == l) with | some e => BitVec.ofNat 64 (ofBytes e.2) | none => 0
  match d with
  | none => b
  | some d => if wide then b.sendW x.exec d v else b.sendV x.exec d fun l => lo32 (v l)

/-- The lanes of an atomic as pieces of an access, each of which is performed whole (R172). -/
def atomPieces (s : State) (x : Ex) (w : AtomWork) (qs : List (Nat × AccessReq)) : List Piece :=
  qs.map fun e =>
    { lane := e.1, va := e.2.va, place := atomPlace s e.2, n := e.2.n, path := atomPath s x w.m e.1, bytes := [], done := false, bad := false
      op := some (w.op e.1) }

/-- Whether a lane's atomic goes to another team that is not on its core, or to which requests are on their way: it is sent there (R417, R419). -/
def Piece.toAbsent (s : State) (team : Option Nat) (q : Piece) : Bool :=
  match q.place with
  | .pad t _ => some t != team && (padBusy s t || (match tget s.teams t with | some tm => tm.image.isSome | none => false))
  | _ => false

/-- An atomic performed after its issue, lane by lane (R138, R172; log 36): the accesses of other parties may come between. -/
def atomLater (c : Ctl) (w : AtomWork) (ps : List Piece) (x : Ex) (s : State) : State :=
  let sz : Size := if w.wide then .b64 else .b32
  let s1 := addPend { s with late := s.late.drop 1 } (pendFor s x false (partLvl w.rel w.m) (partLvl w.acq w.m) sz w.d ps)
  let b := x.now s1
  retireEnd x c (match w.d with
    | some d => sendLoads x sz d (some s.nums.uid) (x.lanes.map fun l => (l, .stored)) b
    | none => b) s1

/-- An atomic performed as it issues (R169 to R172): a release part writes back before the first lane, an acquire part invalidates after the last. It
waits while a line is held. One that would receive poison performs no lane, so that the record's mask is empty (R172). -/
def atomNow (i : Instr) (c : Ctl) (w : AtomWork) (n : Nat) (qs : List (Nat × AccessReq)) (x : Ex) (s : State) : State :=
  let core := coreOf s x.ref
  let lvl := lvlOf w.m.scope
  let s0 := if w.rel then releaseAt s core lvl else s
  let places := qs.map fun e => (e.2, atomPlace s0 e.2)
  let farLanes := places.filter fun e => match e.2 with | .far _ _ => true | _ => false
  match qs.findSome? (atomBlocked s0 x w.m) with
  | some obj => waitEx x obj i s
  | none =>
    match places.find? (fun e => atomPoison s0 core e.2 n) with
    | some e => faultEx x .poison (BitVec.ofNat 64 e.1.va) 0 s
    | none =>
      if !farLanes.isEmpty && Config.freeBool (2 * s.nums.fresh + 1) then
        let ls := maskOf ((qs.filter fun e => match atomPlace s0 e.2 with | .far _ _ => true | _ => false).map (·.1))
        faultUnit { s with nums := { s.nums with fresh := s.nums.fresh + 1 } } x.ref x.grp.mask x.pc
          { cause := .xlatePerm, mask := ls, detail := xlateDetail 0 .atomic, exact := false
            addr := match farLanes with | e :: _ => BitVec.ofNat 64 e.1.va | [] => 0 }
      else
        let r := atomLanes (dropDue s0) x w qs
        let s1 := if w.acq then acquireAt r.2 core lvl else r.2
        retireEnd x c (sendOld x w.wide w.d r.1 (x.now s1)) { s1 with late := s1.late.drop 1 }

/-- An atomic (R169 to R172): every lane is checked first. Its thread's earlier stores come before it (R132), and it waits until its lanes find places
(R166). It is performed as it issues, or after that where the memory system does so or a lane's team is away from its core. -/
def atomWork (i : Instr) (c : Ctl) (w : AtomWork) (a : Spec) (x : Ex) (s : State) : State :=
  let n := if w.wide then 8 else 4
  let req : Nat → Int × LaneReq := fun l =>
    let ea := effAddr x w.reach a w.m.off l
    (ea, laneReq s x w.reach .atomic ea n n w.farOk l)
  match checkLanes s (x.lanes.map fun l => (l, (req l).2, (req l).1)) with
  | some f => failLanes x f s
  | none =>
    let qs := x.lanes.map fun l => (l, (req l).2.acc)
    let ps := atomPieces s x w qs
    let late := defers s x w.m ps || ps.any (Piece.toAbsent s (teamOf s x.ref))
    if meetsPend s x.ref ps || (!late && !(pendOf s x.ref).isEmpty) then drainFirst s x.ref i
    else if !placesFor s (coreOf s x.ref) (requestsOf ps).length then waitEx x .places i s
    else match (if w.rel then releaseObject s x.ref w.m.scope else none) with
      | some obj => waitEx x obj i s
      | none => if late then atomLater c w ps x s else atomNow i c w n qs x s

/-- Whether the host performs an operation (R171). -/
def hostAtom : AtomOp → Bool
  | .add | .exch => true
  | _ => false

def execAtom (c : Ctl) (op : AtomOp) (wide ar : Bool) (m : MemWord) (d a b : Spec) (s : State) :
    Host.Outcome State Fault Refusal :=
  .next (issue (.atom c op wide ar m d a b) c [dstX wide d, srcW a, srcX wide b] [] .aborts (fun x s =>
    atomWork (.atom c op wide ar m d a b) c
      { reach := .generic, wide, m, d := some d, acq := ar || m.ord == .acquire, rel := ar || m.ord == .release
        host := hostAtom op, op := fun l => { op := some op, wide, v := x.vw wide b l, cmp := 0 } } a x s) s)

def execAtomcas (c : Ctl) (wide ar : Bool) (m : MemWord) (d a b v : Spec) (s : State) : Host.Outcome State Fault Refusal :=
  .next (issue (.atomcas c wide ar m d a b v) c [dstX wide d, srcW a, srcX wide b, srcX wide v] [] .aborts (fun x s =>
    atomWork (.atomcas c wide ar m d a b v) c
      { reach := .generic, wide, m, d := some d, acq := ar || m.ord == .acquire, rel := ar || m.ord == .release
        host := true, op := fun l => { op := none, wide, v := x.vw wide v l, cmp := x.vw wide b l } } a x s) s)

def execAtoms (c : Ctl) (op : AtomOp) (wide ar : Bool) (m : MemWord) (d a b : Spec) (s : State) :
    Host.Outcome State Fault Refusal :=
  .next (issue (.atoms c op wide ar m d a b) c [dstX wide d, srcV a, srcX wide b] [] .aborts (fun x s =>
    atomWork (.atoms c op wide ar m d a b) c
      { reach := .own, wide, m, d := some d, acq := ar || m.ord == .acquire, rel := ar || m.ord == .release
        host := false, op := fun l => { op := some op, wide, v := x.vw wide b l, cmp := 0 } } a x s) s)

def execRed (c : Ctl) (op : AtomOp) (wide : Bool) (m : MemWord) (a b : Spec) (s : State) : Host.Outcome State Fault Refusal :=
  .next (issue (.red c op wide m a b) c [srcW a, srcX wide b] [] .aborts (fun x s =>
    atomWork (.red c op wide m a b) c
      { reach := .generic, wide, m, d := none, acq := false, rel := m.ord == .release
        host := hostAtom op, op := fun l => { op := some op, wide, v := x.vw wide b l, cmp := 0 } } a x s) s)

end Sys2Proof.Machine
end

