-- ==== Sys2Proof/Machine/Launch.lean ====
section
/-! DEFINITION. What a launch names (R79, R82, R334, R338, R402), the checks that refuse it (R337), the effective values of its
zones (R30 to R32), and what fits on a core (R21, R33, R34, R41, R338, R340). -/

namespace Sys2Proof.Machine

open Sys2Proof

/-- n bits of a number from a place. -/
def field (v lo n : Nat) : Nat := v / 2 ^ lo % 2 ^ n

/-! ## Descriptors -/

/-- A launch packet's fields (R334). -/
def packetOf (v : Nat) (torn : Bool) : Packet :=
  { queue := field v 772 4, coplace := field v 771 1 == 1, width := field v 768 3, team := field v 752 11, gz := field v 736 16
    gy := field v 720 16, gx := field v 704 16, pre := (List.range 4).map fun n => BitVec.ofNat 64 (field v (448 + 64 * n) 64)
    done := BitVec.ofNat 64 (field v 384 64), zcb := BitVec.ofNat 64 (field v 320 64), args := BitVec.ofNat 64 (field v 256 64)
    access := BitVec.ofNat 32 (field v 224 32), entry := BitVec.ofNat 32 (field v 192 32)
    kernel := BitVec.ofNat 64 (field v 128 64), segment := BitVec.ofNat 64 (field v 64 64)
    reserved := field v 776 184 != 0 || field v 763 5 != 0, torn }

/-- The number of teams of a packet's grid (R29). -/
def Packet.teams (p : Packet) : Nat := p.gx * p.gy * p.gz

/-- A kernel record with its pool table, where it is well-formed (R79). -/
def kernelOfNat (v table : Nat) : Option Kernel :=
  let pools := field v 80 16
  let slots := (List.range 16).map fun i => field table (32 * i) 32
  let k : Kernel :=
    { codeLen := field v 128 32, access := BitVec.ofNat 32 (field v 96 32), logsW := field v 72 8, logsR := field v 64 8
      scratch := field v 32 32, queues := field v 24 8, kregs := field v 16 8, regs := field v 8 8, width := field v 0 8
      pools := slots.take pools }
  let a := k.access.toNat
  let good := v / 2 ^ 160 == 0 && decide (1 ≤ k.regs) && decide (k.regs ≤ 192) && decide (k.kregs ≤ 48)
    && [0, 4, 8, 16, 32, 64].contains k.width && decide (k.queues ≤ 16) && decide (pools ≤ 16) && decide (k.logsR ≤ 64)
    && decide (k.logsW ≤ 32) && decide (k.scratch ≤ 1048576) && k.codeLen != 0 && k.codeLen % 32 == 0
    && (a == 2 ^ 32 - 1 || (a % 4 == 0 && decide (a < k.codeLen)))
    && (pools == 0 || ((slots.take pools).all (fun n => decide (1 ≤ n) && decide (n ≤ 65536)) && (slots.drop pools).all (· == 0)))
  if good then some k else none

/-- A segment descriptor's fields (R82). -/
def segmentOf (desc : Addr) (v : Nat) : Segment :=
  { desc, successor := BitVec.ofNat 64 (field v 320 64), mapCount := field v 256 32, map := BitVec.ofNat 64 (field v 192 64)
    retired := field v 160 1 == 1, length := field v 128 32, base := BitVec.ofNat 64 (field v 64 64) }

/-- Whether a segment descriptor is well-formed (R82). -/
def segmentOk (v : Nat) : Bool :=
  field v 384 64 == 0 && field v 288 32 == 0 && field v 161 31 == 0 && field v 64 64 % 32 == 0 && field v 128 32 % 32 == 0
    && field v 128 32 != 0 && field v 192 64 % 8 == 0 && field v 256 32 != 0

/-- The global scheduler's number among the units that keep bound copies (R294, R311). -/
def schedUnit : Nat := 128

/-- The refusal code of a failed descriptor read (R337). -/
def readCode (e : Cause × Nat) : Nat := if e.1 = .descTorn then 4 else 7

/-- A segment descriptor read and bound, or its refusal. -/
def segmentRead (s : State) (ctx core : Nat) (va : Addr) : Except Nat (Segment × State) :=
  match bindDesc s ctx core va.toNat 64 with
  | .error e => .error (readCode e)
  | .ok (v, s1) => if segmentOk v then .ok (segmentOf va v, s1) else .error 5

/-- A kernel record read with its pool table, or its refusal: a record that its own bytes show not to be well-formed is refused for that, whether
its table can be read or not (R337 rows 5 and 7). DESIGN CHOICE (log 40): the spec names no refusal for a KERNEL that is not 32-byte aligned; the
model refuses it as invalid. -/
def kernelRead (s : State) (ctx : Nat) (va : Addr) : Except Nat (Kernel × State) :=
  if va.toNat % 32 ≠ 0 then .error 5
  else match blockRead s ctx va.toNat 32 with
    | .error _ => .error 7
    | .ok (bs, s1) =>
      let v := ofBytes bs
      let pools := field v 80 16
      if (kernelOfNat (v - pools * 2 ^ 80) 0).isNone || decide (16 < pools) then .error 5
      else
        let table := if pools = 0 then .ok ([], s1) else blockRead s1 ctx (va.toNat + 32) 64
        match table with
        | .error _ => .error 7
        | .ok (ts, s2) => match kernelOfNat v (ofBytes ts) with
          | some k => .ok (k, s2)
          | none => .error 5

/-! ## Zones (R30, R31, R338) -/

/-- Whether a ZCB has a reserved bit set. -/
def zcbReserved (v : Nat) : Bool := field v 212 4 != 0 || field v 234 22 != 0 || field v 464 496 != 0

/-- Whether a ZCB overrides the field of an override bit: MIN, MAX, SCRATCH, REGS, SHADOW, SPILL, QUOTA, PRIO, FDOM, KEY. -/
def zcbOver (v i : Nat) : Bool := field v (224 + i) 1 == 1

/-- Whether a ZCB has a field outside R30 and R338. -/
def zcbBad (root : Bool) (v : Nat) : Bool :=
  zcbReserved v || (root && field v 224 10 != 1023)
    || (zcbOver v 1 && (field v 200 8 == 0 || decide (128 < field v 200 8)))
    || (zcbOver v 5 && field v 384 64 % 128 != 0)

/-- The ZCBs from a named one up to the root, each with its address; or the refusal. -/
def zcbChain (ctx : Nat) : (fuel : Nat) → (va : Addr) → List (Addr × Nat) → State → Except Nat (List (Addr × Nat) × State)
  | 0, _, _, _ => .error 2
  | n + 1, va, seen, s =>
    let bad := seen.any fun e => zcbBad false e.2
    if va.toNat % 64 ≠ 0 then .error 3
    else match bindDesc s ctx schedUnit va.toNat 128 with
      | .error e => .error (if bad then 3 else readCode e)
      | .ok (v, s1) =>
        let seen := seen ++ [(va, v)]
        let up := BitVec.ofNat 64 (field v 64 64)
        if up = 0#64 then .ok (seen, s1) else zcbChain ctx n up seen s1

/-- The effective values of a ZCB under its parent's (R31). -/
def zoneUnder (par : Option Zone) (chain : List Addr) (v : Nat) : Zone :=
  let lim : Nat → Nat → (Zone → Nat) → Nat := fun i own up => match par with
    | none => own
    | some p => if zcbOver v i then min own (up p) else up p
  let own : Nat → Nat → (Zone → Nat) → Nat := fun i x up => match par with
    | none => x
    | some p => if zcbOver v i then x else up p
  let max_ := lim 1 (field v 200 8) (·.max)
  { chain, max := max_, min := min (own 0 (field v 192 8) (·.min)) max_, scratch := lim 2 (field v 256 32) (·.scratch)
    regs := lim 3 (field v 288 32) (·.regs), shadow := lim 4 (field v 320 64) (·.shadow), spill := lim 5 (field v 384 64) (·.spill)
    quota := lim 6 (field v 448 16) (·.quota), prio := lim 7 (field v 208 4) (·.prio)
    fdom := BitVec.ofNat 64 (own 8 (field v 128 64) (fun p => p.fdom.toNat)), key := own 9 (field v 216 8) (·.key) }

/-- The zones of a chain of ZCBs, the named one first. -/
def zonesOf : List (Addr × Nat) → List Zone
  | [] => []
  | (a, v) :: r =>
    let up := zonesOf r
    zoneUnder up.head? (a :: r.map (·.1)) v :: up

/-- A fault-domain descriptor read (R402): its fields, or the refusal. -/
def fdomRead (s : State) (ctx : Nat) (va : Addr) : Except Nat (Nat × State) :=
  if va.toNat % 64 ≠ 0 then .error 3
  else match bindDesc s ctx schedUnit va.toNat 128 with
    | .error e => .error (if e.1 = .descTorn then 3 else 7)
    | .ok (v, s1) =>
      let q := field v 352 16
      if field v 368 592 ≠ 0 ∨ q < 16 ∨ 32768 < q ∨ 2 ^ Nat.log2 q ≠ q ∨ field v 192 64 % 64 ≠ 0 ∨ field v 256 64 % 16 ≠ 0 then .error 3
      else .ok (v, s1)

/-- A launch's zones and its fault domain's descriptor, or the refusal (R30, R337, R338, R367). -/
def zonesRead (s : State) (ctx : Nat) (zcb : Addr) : Except Nat (List Zone × Nat × State) :=
  match zcbChain ctx 8 zcb [] s with
  | .error e => .error e
  | .ok (zs, s1) =>
    let zones := zonesOf zs
    let key := match tget s.ctxs ctx with | some c => c.key | none => 0
    let bad := zs.dropLast.any (fun e => zcbBad false e.2) || (match zs.getLast? with | some e => zcbBad true e.2 | none => true)
    match zones.head? with
    | none => .error 3
    | some z =>
      if bad ∨ z.fdom = 0#64 ∨ z.key ≠ key then .error 3
      else match fdomRead s1 ctx z.fdom with
        | .error e => .error e
        | .ok (v, s2) => .ok (zones, v, s2)

/-- The effective fault domain of a ZCB, with its descriptor, where those can be read: the rest of the chain does not matter for it (R31, R337). -/
def fdomOf (ctx : Nat) : (fuel : Nat) → (va : Addr) → State → Option (Addr × Nat × State)
  | 0, _, _ => none
  | n + 1, va, s =>
    if va.toNat % 64 ≠ 0 then none
    else match bindDesc s ctx schedUnit va.toNat 128 with
      | .error _ => none
      | .ok (v, s1) =>
        let up := BitVec.ofNat 64 (field v 64 64)
        if !zcbOver v 8 && up != 0#64 then fdomOf ctx n up s1
        else
          let a := BitVec.ofNat 64 (field v 128 64)
          match fdomRead s1 ctx a with
          | .ok (d, s2) => if a = 0#64 then none else some (a, d, s2)
          | .error _ => none

/-- The fault domain of a bound descriptor, with its fields as bound (R402). -/
def bindDomain (s : State) (ctx : Nat) (addr : Addr) (v : Nat) : State :=
  let d := domainFor s ctx addr
  modDomain d.2 d.1 fun x => { x with
    qsize := field v 352 16, entry := BitVec.ofNat 32 (field v 320 32), qctl := BitVec.ofNat 64 (field v 256 64)
    qbase := BitVec.ofNat 64 (field v 192 64), kernel := BitVec.ofNat 64 (field v 128 64)
    segment := BitVec.ofNat 64 (field v 64 64) }

/-! ## Where threads and sets go (R18, R21) -/

/-- The quarter of a team's set. -/
def quarterOfSet (qb w n : Nat) : Nat := (qb + if w = 64 then n / 2 else n) % 4
/-- Sets of a team. -/
def setsOf (threads : Nat) : Nat := (threads + 31) / 32
/-- Crews of a team as it is launched. -/
def crewsOf (threads w : Nat) : Nat := (threads + w - 1) / w
/-- The quarter of a team's crew. -/
def quarterOfCrew (qb w n : Nat) : Nat := quarterOfSet qb w (n * w / 32)
/-- Allocated general registers per thread. -/
def Kernel.alloc (k : Kernel) : Nat := (k.regs + 7) / 8 * 8

/-- What a quarter holds: sets, general registers, crew-uniform registers, whether its accumulators are taken, and spawned threads. -/
structure Load where
  sets : Nat
  regs : Nat
  kuse : Nat
  accs : Bool
  spawn : Nat
  deriving DecidableEq, Repr

/-- An empty quarter. -/
def Load.empty : Load := { sets := 0, regs := 0, kuse := 0, accs := false, spawn := 0 }

/-- A load with a team's share of a quarter added: the crews it is launched with, or those it has there after a `REFORM` where they are more
(R21). -/
def Load.plus (l : Load) (k : Kernel) (threads qb q : Nat) (live : Nat := 0) : Load :=
  let n := ((List.range (setsOf threads)).filter fun i => quarterOfSet qb k.w i == q).length
  let c := ((List.range (crewsOf threads k.w)).filter fun i => quarterOfCrew qb k.w i == q).length
  { l with sets := l.sets + n, regs := l.regs + n * 32 * k.alloc, kuse := l.kuse + max c live * k.kregs }

/-- Whether a load keeps the limits of R21, and of R36 with the threads of sets and those spawned. -/
def Load.ok (l : Load) : Bool := decide (32 * l.sets + l.spawn ≤ 512) && decide (l.regs ≤ 16384) && decide (l.kuse ≤ 1536)

/-- Live spawned threads of a quarter, as grids with a number of threads and of crews. -/
def spawnedOn (s : State) (q : Nat) : List (Nat × Nat × Nat) :=
  let cs := (s.crews.filter fun e => e.2.quarterId == q && (match e.2.owner with | .pool _ => true | _ => false)).map fun e =>
    (e.2.grid, (e.2.lanes.filter Option.isSome).length, 1)
  let bs := (quarterAt s q).filed.filterMap fun b => match b.key.owner with
    | .pool _ => some (b.key.grid, b.slots.length, 0)
    | .team _ => none
  cs ++ bs

/-- The base quarter of a team on a core where it has its place, or has a place reserved for it. -/
def Team.placeOn (t : Team) (core : Nat) : Option Nat :=
  let own := if t.core = core then some t.qb else none
  match t.place with
  | .resident | .stopping none => own
  | .stopping (some (c, q)) => if c = core then some q else own
  | .absent _ _ => none
  | .returning _ _ c q => if c = core then some q else none

/-- The core that counts for a team; none while it is absent, or is to be. -/
def Team.coreFor (t : Team) : Option Nat :=
  match t.place with
  | .resident => some t.core
  | .stopping r => r.map (·.1)
  | .absent _ _ => none
  | .returning _ _ c _ => some c

/-- Whether a team has a place on some core. -/
def Team.here (t : Team) : Bool := match t.place with | .absent _ _ => false | _ => true

/-- Teams that have a place on a core. -/
def teamsOn (s : State) (core : Nat) : List (Nat × Team) := s.teams.filter fun e => (e.2.placeOn core).isSome

/-- A team's live crews on a quarter. -/
def liveCrews (s : State) (t q : Nat) : Nat := (s.crews.filter fun e => e.2.owner == .team t && e.2.quarterId == q).length

/-- What a quarter of a core holds. -/
def loadOf (s : State) (core q : Nat) : Load :=
  let l0 : Load := { Load.empty with accs := (quarterAt s (4 * core + q)).holder.isSome }
  let l1 := (teamsOn s core).foldl (fun l e => match kernelOf s e.2.grid with
    | some k => l.plus k e.2.size ((e.2.placeOn core).getD 0) q (liveCrews s e.1 (4 * core + q))
    | none => l) l0
  (spawnedOn s (4 * core + q)).foldl (fun (l : Load) e => match kernelOf s e.1 with
    | some k => { l with regs := l.regs + e.2.1 * k.alloc, kuse := l.kuse + e.2.2 * k.kregs, spawn := l.spawn + e.2.1 }
    | none => l) l1

/-- The base quarter of a team on quarters with these loads: the first, by fewest sets and then number, from which its sets fit and,
where it needs them, find accumulators free (R340). -/
def baseQuarter (ls : List Load) (k : Kernel) (threads : Nat) (needs : Bool) : Option Nat :=
  let before : Nat → Nat → Bool := fun a b =>
    let x := (ls.getD a Load.empty).sets
    let y := (ls.getD b Load.empty).sets
    decide (x < y) || (x == y && decide (a ≤ b))
  (sortBy before (List.range 4)).find? fun qb => (List.range 4).all fun q =>
    let l := ls.getD q Load.empty
    let m := l.plus k threads qb q
    m.ok && !(needs && m.sets != l.sets && l.accs)

/-- A team's allocation in bytes (R49). -/
def Kernel.bytes (k : Kernel) (threads : Nat) : Nat := k.scratch + k.logBytes threads

/-! ## Refusals (R337) -/

/-- The crew widths of WIDTH codes 1 to 5 (R334). -/
def widthOfCode (c : Nat) : Nat := 2 ^ (c + 1)

/-- What a launch binds. -/
structure Bound where
  zones   : List Zone
  fdom    : Nat
  kernel  : Kernel
  segment : Segment

/-- The state of a prerequisite's object, acquired at system scope; or its refusal. -/
def preState (s : State) (ctx : Nat) (va : Addr) : Except Nat (Nat × State) :=
  match blockRead s ctx va.toNat 4 with
  | .error _ => .error 7
  | .ok (bs, s1) => .ok (ofBytes bs, s1)

/-- The nonzero prerequisites read in order: refusals met, whether one waits, whether one has failed. -/
def preRead (ctx : Nat) : List Addr → State → List Nat × Bool × State
  | [], s => ([], false, s)
  | a :: r, s =>
    if a = 0#64 then preRead ctx r s
    else match preState s ctx a with
      | .error e => let t := preRead ctx r s; (e :: t.1, t.2.1, t.2.2)
      | .ok (n, s1) =>
        let t := preRead ctx r s1
        if n = 4 then (6 :: t.1, t.2.1, t.2.2) else (t.1, t.2.1 || n != 3, t.2.2)

/-- A packet's first prerequisite that is not complete. -/
def openPre (s : State) (ctx : Nat) (p : Packet) : Option Addr :=
  p.pre.find? fun a => a != 0 && (match preState s ctx a with | .ok r => r.1 != 3 | .error _ => false)

/-- What becomes of a launch at the head of its queue: a refusal, a wait for prerequisites, or what it binds. -/
inductive Verdict where
  | refused (code : Nat)
  | waits
  | bound (b : Bound)

/-- The packet's own limits (R334, R337 row 5). -/
def Packet.bad (p : Packet) : Bool :=
  p.reserved || p.gx == 0 || p.gy == 0 || p.gz == 0 || p.team == 0 || decide (1024 < p.team) || decide (5 < p.width)

/-- Entry points and width against the segment and the kernel, as far as those could be read (R337 row 5). -/
def entryBad (p : Packet) (k : Option Kernel) (g : Option Segment) : Bool :=
  let off : W32 → Bool := fun o => o.toNat % 4 != 0 || (match g with | some g => decide (g.length ≤ o.toNat) | none => false)
  off p.entry || (p.access != 0xFFFFFFFF#32 && off p.access)
    || (p.width != 0 && (match k with | some k => widthOfCode p.width != k.width | none => false))

/-- Whether no core could hold a team (R21, R75). -/
def teamTooLarge (k : Kernel) (threads : Nat) : Bool :=
  decide (1048576 < k.bytes threads)
    || (baseQuarter (List.replicate 4 Load.empty) k threads false).isNone

/-- The checks of R337 on a launch at the head of its queue. While a prerequisite waits, only rows 1 and 5 refuse. -/
def verdict (s : State) (ctx : Nat) (p : Packet) : Verdict × State :=
  if p.torn then (.refused 4, s)
  else
    let z := zonesRead s ctx p.zcb
    let s1 := match z with | .ok x => x.2.2 | .error _ => s
    let g := segmentRead s1 ctx schedUnit p.segment
    let s2 := match g with | .ok x => x.2 | .error _ => s1
    let k := kernelRead s2 ctx p.kernel
    let s3 := match k with | .ok x => x.2 | .error _ => s2
    let pre := preRead ctx p.pre s3
    let codes := (if p.bad then [5] else []) ++ (match z with | .error e => [e] | .ok _ => [])
      ++ (match g with | .error e => [e] | .ok _ => []) ++ (match k with | .error e => [e] | .ok _ => [])
      ++ (match k with | .ok x => if teamTooLarge x.1 p.team then [1] else [] | .error _ => [])
      ++ (if entryBad p (k.toOption.map (·.1)) (g.toOption.map (·.1)) then [5] else [])
      ++ pre.1
    let least : List Nat → Option Nat := fun l => match l with | [] => none | c :: r => some (r.foldl min c)
    let early := least (codes.filter fun c => c == 1 || c == 5)
    let waits := pre.2.1 && pre.1.isEmpty
    match (if waits then early else least codes) with
    | some c => (.refused c, pre.2.2)
    | none =>
      if waits then (.waits, pre.2.2)
      else match z, g, k with
        | .ok x, .ok y, .ok w => (.bound { zones := x.1, fdom := x.2.1, kernel := w.1, segment := y.1 }, pre.2.2)
        | _, _, _ => (.waits, pre.2.2)

/-! ## Budgets (R338) -/

/-- The grids that bind a ZCB or one below it; handler grids bind none (R405). -/
def gridsUnder (s : State) (ctx : Nat) (zcb : Addr) : List Nat :=
  (s.grids.filter fun e => e.2.ctx == ctx && e.2.handles.isNone && e.2.zones.any fun z => z.chain.head? == some zcb).map (·.1)

/-- The cores that hold work of some grids: a team or a spawned thread. -/
def coresWith (s : State) (gs : List Nat) : List Nat :=
  let ts := s.teams.filterMap fun e => if gs.contains e.2.grid then e.2.coreFor else none
  let cs := (s.crews.filter fun e => gs.contains e.2.grid).map (·.2.core)
  let bs := s.quarters.filterMap fun e =>
    if e.2.filed.any fun b => gs.contains b.key.grid then some (e.1 / 4) else none
  (ts ++ cs ++ bs).eraseDups

/-- Registers charged for a resident team. -/
def teamRegs (k : Kernel) (threads : Nat) : Nat :=
  let n := setsOf threads
  n * 32 * k.alloc + (if k.w = 64 then (n + 1) / 2 else n * (32 / k.w)) * k.kregs

/-- Scratchpad bytes and registers that grids hold. -/
def usageOf (s : State) (gs : List Nat) : Nat × Nat :=
  let ts := s.teams.filter fun e => gs.contains e.2.grid && e.2.here
  let scr := ts.foldl (fun n e => n + e.2.alloc) 0
  let r1 := ts.foldl (fun n e => match kernelOf s e.2.grid with | some k => n + teamRegs k e.2.size | none => n) 0
  let sp := ((s.crews.map (·.2.quarterId) ++ s.quarters.map (·.1)).eraseDups.map (spawnedOn s)).flatten
  let r2 := sp.foldl (fun n e => match kernelOf s e.1 with
    | some k => if gs.contains e.1 then n + e.2.1 * k.alloc + e.2.2 * k.kregs else n
    | none => n) 0
  (scr, r1 + r2)

/-- Whether the zones of a grid allow more cores, scratchpad bytes and registers. -/
def zonesAllow (s : State) (g : Grid) (cores : List Nat) (scratch regs : Nat) : Bool :=
  g.handles.isSome || g.zones.all fun z => match z.chain with
    | [] => true
    | a :: _ =>
      let gs := gridsUnder s g.ctx a
      let u := usageOf s gs
      decide ((coresWith s gs ++ cores).eraseDups.length ≤ z.max) && decide (u.1 + scratch ≤ z.scratch * 1024)
        && decide (u.2 + regs ≤ z.regs * 1024)

/-! ## What fits a core (R33, R34, R41, R340) -/

/-- Whether a core is in service (R432). -/
def inService (s : State) (core : Nat) : Bool :=
  decide (core < 128) && !s.start.outCores.contains core && !s.start.outDies.contains (core / 32)

/-- A code word at an address of a context; none where it is not mapped. -/
def codeWord (s : State) (ctx va : Nat) : Option Nat :=
  match placeOf s ctx none none va with
  | .ok (.dev pa) => some (ofBytes (cellsRead s.mem pa 4))
  | _ => none

/-- Whether a fetch block holds an instruction of group 0xC, from its word i on. -/
def blockMatrix (s : State) (ctx va : Nat) : (fuel : Nat) → (i : Nat) → Bool
  | 0, _ => false
  | n + 1, i =>
    if 8 ≤ i then false
    else match codeWord s ctx (va + 4 * i) with
      | none => false
      | some w =>
        let len := w % 4
        if len = 3 ∨ 8 < i + 2 + len then blockMatrix s ctx va n (i + 1)
        else if w / 2 ^ 24 % 16 = 12 then true
        else blockMatrix s ctx va n (i + 2 + len)

/-- Whether a segment holds an instruction of group 0xC (R41). -/
def usesMatrix (s : State) (ctx : Nat) (g : Segment) : Bool :=
  (List.range (g.length / 32)).any fun i => blockMatrix s ctx (g.base.toNat + 32 * i) 8 0

/-- Access thread slots taken on a core. -/
def slotsTaken (s : State) (core : Nat) : List Nat :=
  (teamsOn s core).filterMap fun e => e.2.access.map fun a => a.slot

/-- Whether a grid's launch names an access slice. -/
def Grid.hasAccess (g : Grid) : Bool := g.packet.access != 0xFFFFFFFF#32

/-- Whether a core has the places a team of a grid needs, its zones apart: its base quarter there. -/
def coreFits (s : State) (gid core : Nat) (threads : Nat) : Option Nat :=
  match tget s.grids gid with
  | none => none
  | some g =>
    let c := coreAt s core
    let ts := teamsOn s core
    let room := decide ((ts.foldl (fun n e => n + e.2.alloc) 0) + g.kernel.bytes threads ≤ 1048576)
    let slots := !g.hasAccess || decide ((slotsTaken s core).length < 4)
    let queues := decide ((ts.foldl (fun n e => n + e.2.queues.length) 0) + g.kernel.queues ≤ 16)
    let mine := c.vacated.isNone || c.vacated == some gid
    if inService s core && mine && room && slots && queues then
      baseQuarter ((List.range 4).map (loadOf s core)) g.kernel threads (usesMatrix s g.ctx g.segment)
    else none

/-- The base quarter of a team of a grid on a core where it fits with its zones (R340). -/
def teamFits (s : State) (gid core threads : Nat) : Option Nat :=
  match tget s.grids gid with
  | none => none
  | some g =>
    if zonesAllow s g [core] (g.kernel.bytes threads) (teamRegs g.kernel threads) then coreFits s gid core threads else none

/-- Threads that live on a core, in its crews and in its bins. -/
def residents (s : State) (core : Nat) : Nat :=
  (s.crews.filter fun e => e.2.core == core).foldl (fun n e => n + (e.2.lanes.filter Option.isSome).length) 0
    + (List.range 4).foldl (fun n q => (quarterAt s (4 * core + q)).filed.foldl (fun n b => n + b.slots.length) n) 0

/-- The core for a grid's next team: one that holds a team of the grid, then the fewest resident threads, then the lowest (R340). -/
def pickCore (s : State) (gid threads : Nat) (allowed : Nat → Bool) : Option (Nat × Nat) :=
  let holds := (s.teams.filterMap fun e => if e.2.grid = gid then e.2.coreFor else none).eraseDups
  let cands := (List.range 128).filterMap fun c => if allowed c then (teamFits s gid c threads).map fun q => (c, q) else none
  let best : List (Nat × Nat) → Option (Nat × Nat) := fun l => l.foldl (fun b e => match b with
    | none => some e
    | some x => if residents s e.1 < residents s x.1 then some e else b) none
  match best (cands.filter fun e => holds.contains e.1) with
  | some e => some e
  | none => best cands

/-- The places of the next group of four under COPLACE: team 4g + i on core i of the lowest cluster where all fit. -/
def coplaceAt (s : State) (gid : Nat) (g : Grid) : Option (List (Nat × Nat)) :=
  let n := min 4 (g.packet.teams - g.next)
  let threads := g.packet.team
  (List.range 32).findSome? fun cl =>
    let cores := (List.range n).map fun i => 4 * cl + i
    if !zonesAllow s g cores (n * g.kernel.bytes threads) (n * teamRegs g.kernel threads) then none
    else
      let ps := cores.filterMap fun c => (coreFits s gid c threads).map fun q => (c, q)
      if ps.length = n then some ps else none

/-- The places that a grid's next team, or next group of four under COPLACE, takes now (R340). -/
def teamPlaces (s : State) (gid : Nat) (g : Grid) : Option (List (Nat × Nat)) :=
    if g.packet.coplace then coplaceAt s gid g
    else (pickCore s gid g.packet.team fun _ => true).map fun e => [e]

end Sys2Proof.Machine
end

