-- ==== Sys2Proof/Machine/Bins.lean ====
section
/-! DEFINITION. REFORM bins and the crew former (R24 to R26). -/

namespace Sys2Proof.Machine

open Sys2Proof

/-- n free values (log 2). -/
def freeWords (s : State) (n : Nat) : List W64 × State :=
  ((List.range n).map fun i => Config.freeWord (2 * (s.nums.fresh + i) + 1),
   { s with nums := { s.nums with fresh := s.nums.fresh + n } })

/-- An issue group in play nowhere yet. -/
def Group.fresh (m : Mask) (pc : Addr) (clock : Nat) : Group :=
  { mask := m, pc, wait := none, notBefore := clock, since := clock, issued := 0, inPlay := false, parked := clock,
    raised := false, waitDone := false, served := 0, op := none }

/-- The lowest number from 0 to 1,023 not in a list. -/
def lowestFree (used : List Nat) : Nat := ((List.range 1024).find? fun n => !used.contains n).getD 0

/-- The number a new crew takes: the lowest that no live crew of its team holds, or, for spawned threads, none of its grid on its core
(R26). -/
def crewNumber (s : State) (key : BinKey) (core : Nat) : Nat :=
  lowestFree ((s.crews.filter fun e => match key.owner, e.2.owner with
    | .team t, .team u => t == u
    | .pool _, .pool _ => e.2.grid == key.grid && e.2.core == core
    | _, _ => false).map fun e => e.2.num)

/-- A crew formed from threads (R26): lanes from 0 upward in order, the others never launched; rejoin masks empty, crew-uniform registers and
tile masks undefined. -/
def formCrew (s : State) (q : Nat) (key : BinKey) (ts : List Thread) : State :=
  match tget s.grids key.grid with
  | none => s
  | some g =>
    let w := g.kernel.w
    let ks := freeWords s g.kernel.kregs
    let fs := freeWords ks.2 8
    let n := takeUid fs.2
    let c : Crew :=
      { ctx := g.ctx, grid := key.grid, owner := key.owner, core := q / 4, quarter := q % 4
        num := crewNumber s key (q / 4), width := w
        lanes := (List.range w).map fun l => ts[l]?
        k := ks.1.map lo32, j := List.replicate 8 0, f := fs.1, toks := List.replicate 8 Token.fresh
        groups := [Group.fresh (maskOf (List.range ts.length)) key.pc s.clock], results := [], held := none }
    let s1 := { n.2 with crews := tset n.2.crews n.1 c }
    match key.owner with
    | .team _ => s1
    | .pool _ => acquireAt s1 (q / 4) .l2

/-- Whether a crew just formed on a quarter keeps its limits (R21), and a crew of spawned threads its zones' REGS (R338). -/
def crewKept (s : State) (q : Nat) (key : BinKey) : Bool :=
  (loadOf s (q / 4) (q % 4)).ok && match key.owner, tget s.grids key.grid with
    | .pool _, some g => zonesAllow s g [] 0 0
    | _, _ => true

/-- Whether what a key's bins hold may be drawn from: a team that is being stopped keeps its threads in bins there (R411, R415). -/
def BinKey.drawn (key : BinKey) (s : State) : Bool :=
  match key.owner with
  | .pool _ => true
  | .team t => (match tget s.teams t with | some tm => tm.place == .resident | none => false)

/-- The oldest threads of a bin drawn into a crew (R24). DESIGN CHOICE (log 42): a draw whose crew-uniform registers the quarter, or the zone, has no
room for waits until it has. -/
def drawBin (s : State) (q bi n : Nat) : State :=
  let qs := quarterAt s q
  match qs.bins.getD bi none with
  | none => s
  | some b =>
    let rest := b.slots.drop n
    let bin := if rest.isEmpty then none else some { b with slots := rest }
    let t := formCrew (setQuarter s q { qs with bins := lset qs.bins bi bin }) q b.key ((b.slots.take n).map (·.1))
    if b.key.drawn s && crewKept t q b.key then t else s

/-- The bin a key goes to: the first that matches and has room, else the first free one (R24). -/
def binFor (bins : List (Option Bin)) (key : BinKey) : Option Nat :=
  match bins.findIdx? (fun b => match b with | some b => b.key == key && decide (b.slots.length < 64) | none => false) with
  | some i => some i
  | none => bins.findIdx? Option.isNone

/-- The bin whose oldest entry has waited longest. -/
def oldestBin (bins : List (Option Bin)) : Nat :=
  let age : Option Bin → Option Nat := fun b => match b with
    | some b => (match b.slots.head? with | some e => some e.2 | none => none)
    | none => none
  ((bins.zipIdx).foldl (fun best e => match age e.1, best with
    | some n, none => some (e.2, n)
    | some n, some (_, m) => if n < m then some (e.2, n) else best
    | none, _ => best) none).elim 0 (·.1)

/-- The crew width that draws from a grid's bins (R24). -/
def widthOf (s : State) (g : Nat) : Nat := match kernelOf s g with | some k => k.w | none => 32

/-- A thread put into a bin as having entered at a cycle, behind those that are as old; a crew is drawn from the bin when it holds w threads. -/
def putInBin (s : State) (q bi : Nat) (key : BinKey) (t : Thread) (entered : Nat) : State :=
  let qs := quarterAt s q
  let b : Bin := match qs.bins.getD bi none with
    | some b => { b with slots := insertBy (fun x y => decide (x.2 < y.2)) (t, entered) b.slots }
    | none => { key, slots := [(t, entered)] }
  let s := setQuarter s q { qs with bins := lset qs.bins bi (some b) }
  let w := widthOf s key.grid
  if w ≤ b.slots.length then drawBin s q bi w else s

/-- The crew former draws from the oldest bin, as from one that has reached the age limit (R25). -/
def drawOldest (s : State) (q : Nat) : State :=
  let bi := oldestBin (quarterAt s q).bins
  match (quarterAt s q).bins.getD bi none with
  | some b => drawBin s q bi (widthOf s b.key.grid)
  | none => s

/-- A thread come to a quarter filed into a bin of it, or, where none can take it, left waiting there for one (R24, R421). -/
def fileAged (s : State) (q : Nat) (key : BinKey) (t : Thread) (entered : Nat) : State :=
  match binFor (quarterAt s q).bins key with
  | some bi => putInBin s q bi key t entered
  | none =>
    let qs := quarterAt s q
    setQuarter s q { qs with waiting := qs.waiting ++ [{ key, slots := [(t, entered)] }] }

/-- The threads that wait at a quarter for a bin filed again, in order: those still without one go on waiting (R25, R421). -/
def fileWaiting (s : State) (q : Nat) : State :=
  let qs := quarterAt s q
  qs.waiting.foldl (fun s b => b.slots.foldl (fun s e => fileAged s q b.key e.1 e.2) s) (setQuarter s q { qs with waiting := [] })

/-- A thread filed now. -/
def fileThread (s : State) (q : Nat) (key : BinKey) (t : Thread) : State := fileAged s q key t s.clock

/-- The age limit of a bin's context (R24, R47). -/
def binAge (s : State) (ctx : Nat) : Nat :=
  let a := (ctlOf s ctx).binAge.toNat % 4096
  if a = 0 then 256 else a

/-- Whether a bin's oldest entry has waited the age limit. -/
def binAged (s : State) (q bi : Nat) : Bool :=
  match (quarterAt s q).bins.getD bi none with
  | none => false
  | some b => match b.slots.head?, tget s.grids b.key.grid with
    | some e, some g => decide (e.2 + binAge s g.ctx ≤ s.clock)
    | _, _ => false

/-- Whether the crew former draws from a bin: its oldest entry has waited the age limit, it holds w threads, or it is the oldest bin and a thread
waits for one (R24, R25, R421). -/
def binDue (s : State) (q bi : Nat) : Bool :=
  binAged s q bi || match (quarterAt s q).bins.getD bi none with
    | none => false
    | some b => decide (widthOf s b.key.grid ≤ b.slots.length)
      || (oldestBin (quarterAt s q).bins == bi && !(quarterAt s q).waiting.isEmpty)

/-- BIN_AGE_LIMIT: a bin that is due is drawn from, all its threads up to w; and the threads that wait for a bin are filed (R24, R421). -/
def execBinAgeLimit (q bi : Nat) (s : State) : Host.Outcome State Fault Refusal :=
  .next (match (quarterAt s q).bins.getD bi none with
    | some b => fileWaiting (if binDue s q bi then drawBin s q bi (widthOf s b.key.grid) else s) q
    | none => fileWaiting s q)

end Sys2Proof.Machine
end

