-- ==== Sys2Proof/Machine/Control.lean ====
section
/-! DEFINITION. Group 0x3, control (R108 to R115), and the release of a rejoin barrier (R22). -/

namespace Sys2Proof.Machine

open Sys2Proof

/-! ## Transfers -/

/-- The group's lanes go each to its own address: one group per address (R15). The first keeps its place in play, the others wait for
one. -/
def transfer (x : Ex) (c : Ctl) (b : Body) (target : Nat → Addr) (s : State) : State :=
  match b with
  | .ap _ => finishAt x c b (target 0) s
  | .crew _ =>
    let dest : Nat → Addr := fun l => if x.exec.getLsbD l then target l else x.next
    let ls := lanesOf x.grp.mask
    let gs := (ls.map dest).eraseDups.map fun a =>
      { x.grp.issue a x.clock x.lag c with mask := maskOf (ls.filter fun l => dest l == a) }
    let gs := match gs with
      | g :: r => g :: r.map fun g => { g with inPlay := false, parked := x.clock }
      | [] => []
    putBody { s with cur := none } x.ref (setGroups b x.ref gs)

/-- An indirect transfer's targets checked before any thread transfers (R110). -/
def transferTo (x : Ex) (c : Ctl) (b : Body) (target : Nat → Addr) (s : State) : State :=
  let far := x.lanes.filter fun l => (target l).toNat / 2 ^ 55 != 0
  let odd := x.lanes.filter fun l => (target l).toNat % 4 != 0
  if !far.isEmpty then faultEx x .addrNoncanon (target (far.headD 0)) (maskOf far) s
  else if !odd.isEmpty then faultEx x .pcAlign (target (odd.headD 0)) (maskOf odd) s
  else transfer x c b target s

/-- The decode check of a branch's offset (R67 row 7). -/
def offsetCheck (off : W32) : List Cause := if off.toNat % 4 = 0 then [] else [.pcAlign]

/-- `BRA`: taken where its test holds (R108). -/
def branch (i : Instr) (c : Ctl) (form : BraForm) (a : Spec) (off : W32) (s : State) : State :=
  let ops := match form with | .always => [] | _ => [srcV a]
  issue i c ops (offsetCheck off) .runs (fun x s =>
    let taken : Nat → Bool := fun l => match form with
      | .always => true
      | .zero => x.v a l == 0
      | .nonzero => x.v a l != 0
    transfer x c x.body (fun l => if taken l then x.pc + off.signExtend 64 else x.next) s) s
def execBra (c : Ctl) (form : BraForm) (a : Spec) (off : W32) (s : State) : Host.Outcome State Fault Refusal :=
  .next (branch (.bra c form a off) c form a off s)
def execBraHint (c : Ctl) (form : BraForm) (a : Spec) (off : W32) (h : Hint) (s : State) : Host.Outcome State Fault Refusal :=
  .next (branch (.braHint c form a off h) c form a off s)
def execBrx (c : Ctl) (a : Spec) (s : State) : Host.Outcome State Fault Refusal :=
  .next (issue (.brx c a) c [srcW a] [] .runs (fun x s => transferTo x c x.body (x.w a) s) s)

/-- `CALL`: the address of the next instruction to D, then the transfer (R110). DEDUCED (log 43): its target is checked with those of the table's
other forms, as R110 says, and is no branch target of the decode check (R67 row 7). -/
def callTo (i : Instr) (c : Ctl) (d : Spec) (off : W32) (s : State) : State :=
  issue i c [dstW d] [] .runs (fun x s =>
    transferTo x c (x.body.sendW x.exec d fun _ => x.next) (fun _ => x.pc + off.signExtend 64) s) s
def execCall (c : Ctl) (d : Spec) (off : W32) (s : State) : Host.Outcome State Fault Refusal :=
  .next (callTo (.call c d off) c d off s)
def execCallHint (c : Ctl) (d : Spec) (off : W32) (h : Hint) (s : State) : Host.Outcome State Fault Refusal :=
  .next (callTo (.callHint c d off h) c d off s)
def execCallx (c : Ctl) (d a : Spec) (s : State) : Host.Outcome State Fault Refusal :=
  .next (issue (.callx c d a) c [dstW d, srcW a] [] .runs (fun x s =>
    transferTo x c (x.body.sendW x.exec d fun _ => x.next) (x.w a) s) s)
def execRet (c : Ctl) (a : Spec) (s : State) : Host.Outcome State Fault Refusal :=
  .next (issue (.ret c a) c [srcW a] [] .runs (fun x s => transferTo x c x.body (x.w a) s) s)

/-! ## Leaving a crew (R23, R42, R111) -/

/-- A crew without some lanes: they leave every rejoin mask and the group, and their outstanding results are discarded. -/
def Crew.leave (c : Crew) (m : Mask) : Crew :=
  { c with
    lanes := c.lanes.mapIdx (fun l t => bif m.getLsbD l then none else t)
    j := c.j.map fun x => x &&& ~~~m
    results := c.results.filter fun r => !m.getLsbD r.lane || (match r.dst with | .k _ => true | _ => false)
    groups := (c.groups.map fun g => { g with mask := g.mask &&& ~~~m }).filter fun g => g.mask != 0#64 }

/-- A crew put back, or gone when its last lane has left it (R42). -/
def putCrew (s : State) (uid : Nat) (c : Crew) : State :=
  if c.lanes.all Option.isNone then { s with crews := tdel s.crews uid } else { s with crews := tset s.crews uid c }

/-- Records of a pool that leave it (R345). -/
def leavePool (s : State) (g p n : Nat) : State :=
  modGrid s g fun gr => { gr with pools := lset gr.pools p (gr.pools.getD p 0 - n) }

/-- Threads of a crew end (R111): the others of the group go on. -/
def exitLanes (x : Ex) (c : Ctl) (s : State) : State :=
  match x.ref with
  | .access t => modTeam (forgetAccess { s with cur := none } t) t fun tm => { tm with access := none }
  | .crew uid _ =>
    let s1 := forgetLoads (retire x c x.body s) uid x.exec
    match tget s1.crews uid with
    | none => s1
    | some cr =>
      let s2 := putCrew s1 uid (cr.leave x.exec)
      match cr.owner with
      | .team _ => s2
      | .pool p => leavePool s2 cr.grid p x.lanes.length

def execExit (c : Ctl) (s : State) : Host.Outcome State Fault Refusal :=
  .next (issue (.exit c) c [] [] .leaves (fun x s => exitLanes x c s) s)

/-! ## Rejoin barriers (R22, R112) -/

def Body.crew? : Body → Option Crew
  | .crew c => some c
  | .ap _ => none

/-- A specifier of class J. -/
def opJ (j : Spec) : Opnd := { cls := .j, code := j, rd := false }

def execEnrol (c : Ctl) (j : Spec) (s : State) : Host.Outcome State Fault Refusal :=
  .next (issue (.enrol c j) c [opJ j] [] .aborts (fun x s =>
    match x.body with
    | .crew cr =>
      let b := Body.crew { cr with j := lset cr.j j.toNat (cr.j.getD j.toNat 0 ||| x.exec) }
      retire x c b s
    | .ap _ => retire x c x.body s) s)

/-- `JOIN`: the executing lanes wait where the barrier's mask is not empty, at the address after the `JOIN`; the others go on. -/
def execJoin (c : Ctl) (j : Spec) (s : State) : Host.Outcome State Fault Refusal :=
  .next (issue (.join c j) c [opJ j] [] .aborts (fun x s =>
    match x.body with
    | .crew cr =>
      if cr.j.getD j.toNat 0 = 0#64 then retire x c x.body s
      else
        let g := x.grp.issue x.next x.clock x.lag c
        let waiting := { g with
          mask := x.exec, inPlay := false
          wait := some { obj := .join j.toNat, instr := none, since := x.clock, probe := x.clock + 65536 } }
        let rest := { g with mask := x.grp.mask &&& ~~~x.exec }
        putBody { s with cur := none } x.ref (setGroups x.body x.ref [waiting, rest])
    | .ap _ => retire x c x.body s) s)

/-- The lanes of a crew that wait at a rejoin barrier. -/
def joinWaiters (c : Crew) (j : Nat) : List Group :=
  c.groups.filter fun g => match g.wait with | some w => w.obj == .join j | none => false

/-- Whether a barrier's waiting lanes are to be released: some lane waits, and every lane of the mask does. -/
def joinReady (c : Crew) (j : Nat) : Bool :=
  let ws := joinWaiters c j
  let waiting := ws.foldl (fun m g => m ||| g.mask) (0 : Mask)
  !ws.isEmpty && (c.j.getD j 0 &&& ~~~waiting) == 0#64

/-- The waiting lanes released together: those at one address as one group (R16, R22, R112). -/
def joinFree (c : Crew) (j clock : Nat) : Crew :=
  let ws := joinWaiters c j
  let others := c.groups.filter fun g => !ws.contains g
  let freed := (ws.map (·.pc)).eraseDups.map fun a =>
    let gs := ws.filter fun g => g.pc == a
    { Group.fresh (gs.foldl (fun m g => m ||| g.mask) 0) a clock with
      notBefore := gs.foldl (fun n g => max n g.notBefore) clock }
  { c with j := lset c.j j 0, groups := freed ++ others }

/-- JOIN_RELEASE (R22). -/
def execJoinRelease (crew j : Nat) (s : State) : Host.Outcome State Fault Refusal :=
  .next (match tget s.crews crew with
    | none => s
    | some c => if c.held.isNone && joinReady c j then { s with crews := tset s.crews crew (joinFree c j s.clock) } else s)

/-! ## REFORM, YIELD, NOP, REPLAY -/

/-- The executing threads filed, in ascending lane, into bins of their quarter (R24, R113). -/
def reformLanes (x : Ex) (c : Ctl) (cr : Crew) (uid : Nat) (s : State) : State :=
  let key : BinKey := { grid := cr.grid, owner := cr.owner, pc := x.next }
  let ts := x.lanes.filterMap fun l => cr.lanes.getD l none
  let s1 := retire x c x.body s
  let s2 := match tget s1.crews uid with
    | some now => putCrew s1 uid (now.leave x.exec)
    | none => s1
  ts.foldl (fun s t => fileThread s cr.quarterId key t) s2

/-- The executing threads filed where a bin of the quarter takes them; else the `REFORM` does not retire: the crew former draws from the oldest
bin, and the group tries again in the next cycle (R25). -/
def reformOrRetry (x : Ex) (c : Ctl) (cr : Crew) (uid : Nat) (s : State) : State :=
  if (binFor (quarterAt s cr.quarterId).bins { grid := cr.grid, owner := cr.owner, pc := x.next }).isSome then reformLanes x c cr uid s
  else holdBack (drawOldest s cr.quarterId) x.ref (s.clock + 1)

/-- `REFORM`: a thread whose results are still on their way waits for them; then the executing threads are filed (R25, R113). -/
def execReform (c : Ctl) (s : State) : Host.Outcome State Fault Refusal :=
  .next (issue (.reform c) c [] [] .leaves (fun x s =>
    match x.ref, x.body with
    | .crew uid _, .crew cr =>
      let own : Result → Bool := fun r => x.exec.getLsbD r.lane && (match r.dst with | .g _ | .p _ => true | _ => false)
      if cr.results.any own then waitEx x .scoreboard (.reform c) s else reformOrRetry x c cr uid s
    | _, _ => retire x c x.body s) s)

/-- `YIELD`: the group is newly ready (R114, R344), as it is after every issue. -/
def execYield (c : Ctl) (s : State) : Host.Outcome State Fault Refusal :=
  .next (issue (.yield c) c [] [] .runs (fun x s => retire x c x.body s) s)
def execNop (c : Ctl) (s : State) : Host.Outcome State Fault Refusal :=
  .next (issue (.nop c) c [] [] .runs (fun x s => retire x c x.body s) s)
/-- `REPLAY`: `%entry` of every thread of the group becomes its address (R115). -/
def execReplay (c : Ctl) (id : BitVec 16) (s : State) : Host.Outcome State Fault Refusal :=
  .next (issue (.replay c id) c [] [] .aborts (fun x s => retire x c (x.body.setEntry x.exec x.pc) s) s)

end Sys2Proof.Machine
end

