-- ==== Sys2Proof/Machine/Float.lean ====
section
/-! DEFINITION. Group 0x5, FP32 (R247 to R254), and group 0x6, packed 16-bit (R255 to R258). -/

namespace Sys2Proof.Machine

open Sys2Proof

/-- An instruction with a 32-bit result of latency 5 and events (R247, R249). -/
def floatV (i : Instr) (c : Ctl) (ops : List Opnd) (d : Spec) (f : Ex → Nat → W32 × List Arith) (s : State) : State :=
  issue i c (dstV d :: ops) [] .runs (fun x s =>
    withEvents x (eventsOf x.lanes fun l => (f x l).2) s fun s => retire x c (x.fixV 5 d fun l => (f x l).1) s) s

/-- An FP32 operation's result clamped where asked for, with its event. -/
def floatOut (sat : Bool) (r : Nat × Option Arith) : W32 × List Arith := (BitVec.ofNat 32 (clamp01 fp32 sat r.1), r.2.toList)

def faddVal (rnd : Rnd) (sat : Bool) (a b : W32) : W32 × List Arith := floatOut sat (fAdd fp32 rnd a.toNat b.toNat)
def fmulVal (rnd : Rnd) (sat : Bool) (a b : W32) : W32 × List Arith := floatOut sat (fMul fp32 rnd a.toNat b.toNat)
def ffmaVal (rnd : Rnd) (sat : Bool) (a b c : W32) : W32 × List Arith := floatOut sat (fFma fp32 rnd a.toNat b.toNat c.toNat)
def fminmaxVal (max nan : Bool) (a b : W32) : W32 := BitVec.ofNat 32 (fMinMax fp32 max nan a.toNat b.toNat)
/-- `FCLASS` (R253). -/
def fclassVal (a b : W32) : Bool := b.getLsbD (fClass fp32 a.toNat)

def execFadd (c : Ctl) (rnd : Rnd) (sat : Bool) (d a b : Spec) (s : State) : Host.Outcome State Fault Refusal :=
  .next (floatV (.fadd c rnd sat d a b) c [srcV a, srcV b] d (fun x l => faddVal rnd sat (x.v a l) (x.v b l)) s)
def execFaddImm (c : Ctl) (rnd : Rnd) (sat : Bool) (d a : Spec) (imm : W32) (s : State) : Host.Outcome State Fault Refusal :=
  .next (floatV (.faddImm c rnd sat d a imm) c [srcV a] d (fun x l => faddVal rnd sat (x.v a l) imm) s)
def execFmul (c : Ctl) (rnd : Rnd) (sat : Bool) (d a b : Spec) (s : State) : Host.Outcome State Fault Refusal :=
  .next (floatV (.fmul c rnd sat d a b) c [srcV a, srcV b] d (fun x l => fmulVal rnd sat (x.v a l) (x.v b l)) s)
def execFmulImm (c : Ctl) (rnd : Rnd) (sat : Bool) (d a : Spec) (imm : W32) (s : State) : Host.Outcome State Fault Refusal :=
  .next (floatV (.fmulImm c rnd sat d a imm) c [srcV a] d (fun x l => fmulVal rnd sat (x.v a l) imm) s)
def execFfma (c : Ctl) (rnd : Rnd) (sat : Bool) (d a b x : Spec) (s : State) : Host.Outcome State Fault Refusal :=
  .next (floatV (.ffma c rnd sat d a b x) c [srcV a, srcV b, srcV x] d
    (fun e l => ffmaVal rnd sat (e.v a l) (e.v b l) (e.v x l)) s)
def execFmin (c : Ctl) (nan : Bool) (d a b : Spec) (s : State) : Host.Outcome State Fault Refusal :=
  .next (aluV (.fmin c nan d a b) c [srcV a, srcV b] 5 d (fun x l => fminmaxVal false nan (x.v a l) (x.v b l)) s)
def execFminImm (c : Ctl) (nan : Bool) (d a : Spec) (imm : W32) (s : State) : Host.Outcome State Fault Refusal :=
  .next (aluV (.fminImm c nan d a imm) c [srcV a] 5 d (fun x l => fminmaxVal false nan (x.v a l) imm) s)
def execFmax (c : Ctl) (nan : Bool) (d a b : Spec) (s : State) : Host.Outcome State Fault Refusal :=
  .next (aluV (.fmax c nan d a b) c [srcV a, srcV b] 5 d (fun x l => fminmaxVal true nan (x.v a l) (x.v b l)) s)
def execFmaxImm (c : Ctl) (nan : Bool) (d a : Spec) (imm : W32) (s : State) : Host.Outcome State Fault Refusal :=
  .next (aluV (.fmaxImm c nan d a imm) c [srcV a] 5 d (fun x l => fminmaxVal true nan (x.v a l) imm) s)
def execFset (c : Ctl) (cmp : FCmp) (d a b : Spec) (s : State) : Host.Outcome State Fault Refusal :=
  .next (aluP (.fset c cmp d a b) c [srcV a, srcV b] 5 d
    (fun x l => fCompare fp32 cmp (x.v a l).toNat (x.v b l).toNat) s)
def execFsetImm (c : Ctl) (cmp : FCmp) (d a : Spec) (imm : W32) (s : State) : Host.Outcome State Fault Refusal :=
  .next (aluP (.fsetImm c cmp d a imm) c [srcV a] 5 d (fun x l => fCompare fp32 cmp (x.v a l).toNat imm.toNat) s)
def execFclass (c : Ctl) (d a b : Spec) (s : State) : Host.Outcome State Fault Refusal :=
  .next (aluP (.fclass c d a b) c [srcV a, srcV b] 5 d (fun x l => fclassVal (x.v a l) (x.v b l)) s)
def execFclassImm (c : Ctl) (d a : Spec) (imm : W32) (s : State) : Host.Outcome State Fault Refusal :=
  .next (aluP (.fclassImm c d a imm) c [srcV a] 5 d (fun x l => fclassVal (x.v a l) imm) s)
def execFrnd (c : Ctl) (rnd : Rnd) (d a : Spec) (s : State) : Host.Outcome State Fault Refusal :=
  .next (aluV (.frnd c rnd d a) c [srcV a] 5 d (fun x l => BitVec.ofNat 32 (fRound rnd (x.v a l).toNat)) s)

/-! ## Group 0x6 -/

def execHadd2 (c : Ctl) (bf : Bool) (rnd : Rnd) (sat : Bool) (d a b : Spec) (s : State) : Host.Outcome State Fault Refusal :=
  .next (floatV (.hadd2 c bf rnd sat d a b) c [srcV a, srcV b] d (fun x l => hAdd2 bf rnd sat (x.v a l) (x.v b l)) s)
def execHadd2Imm (c : Ctl) (bf : Bool) (rnd : Rnd) (sat : Bool) (d a : Spec) (imm : W32) (s : State) :
    Host.Outcome State Fault Refusal :=
  .next (floatV (.hadd2Imm c bf rnd sat d a imm) c [srcV a] d (fun x l => hAdd2 bf rnd sat (x.v a l) imm) s)
def execHmul2 (c : Ctl) (bf : Bool) (rnd : Rnd) (sat : Bool) (d a b : Spec) (s : State) : Host.Outcome State Fault Refusal :=
  .next (floatV (.hmul2 c bf rnd sat d a b) c [srcV a, srcV b] d (fun x l => hMul2 bf rnd sat (x.v a l) (x.v b l)) s)
def execHmul2Imm (c : Ctl) (bf : Bool) (rnd : Rnd) (sat : Bool) (d a : Spec) (imm : W32) (s : State) :
    Host.Outcome State Fault Refusal :=
  .next (floatV (.hmul2Imm c bf rnd sat d a imm) c [srcV a] d (fun x l => hMul2 bf rnd sat (x.v a l) imm) s)
def execHfma2 (c : Ctl) (bf : Bool) (rnd : Rnd) (sat : Bool) (d a b x : Spec) (s : State) : Host.Outcome State Fault Refusal :=
  .next (floatV (.hfma2 c bf rnd sat d a b x) c [srcV a, srcV b, srcV x] d
    (fun e l => hFma2 bf rnd sat (e.v a l) (e.v b l) (e.v x l)) s)
def execHmin2 (c : Ctl) (bf nan : Bool) (d a b : Spec) (s : State) : Host.Outcome State Fault Refusal :=
  .next (aluV (.hmin2 c bf nan d a b) c [srcV a, srcV b] 5 d (fun x l => hMinMax2 bf false nan (x.v a l) (x.v b l)) s)
def execHmin2Imm (c : Ctl) (bf nan : Bool) (d a : Spec) (imm : W32) (s : State) : Host.Outcome State Fault Refusal :=
  .next (aluV (.hmin2Imm c bf nan d a imm) c [srcV a] 5 d (fun x l => hMinMax2 bf false nan (x.v a l) imm) s)
def execHmax2 (c : Ctl) (bf nan : Bool) (d a b : Spec) (s : State) : Host.Outcome State Fault Refusal :=
  .next (aluV (.hmax2 c bf nan d a b) c [srcV a, srcV b] 5 d (fun x l => hMinMax2 bf true nan (x.v a l) (x.v b l)) s)
def execHmax2Imm (c : Ctl) (bf nan : Bool) (d a : Spec) (imm : W32) (s : State) : Host.Outcome State Fault Refusal :=
  .next (aluV (.hmax2Imm c bf nan d a imm) c [srcV a] 5 d (fun x l => hMinMax2 bf true nan (x.v a l) imm) s)
def execHset2 (c : Ctl) (cmp : FCmp) (bf : Bool) (d a b : Spec) (s : State) : Host.Outcome State Fault Refusal :=
  .next (aluV (.hset2 c cmp bf d a b) c [srcV a, srcV b] 5 d (fun x l => hSet2 bf cmp (x.v a l) (x.v b l)) s)
def execHset2Imm (c : Ctl) (cmp : FCmp) (bf : Bool) (d a : Spec) (imm : W32) (s : State) : Host.Outcome State Fault Refusal :=
  .next (aluV (.hset2Imm c cmp bf d a imm) c [srcV a] 5 d (fun x l => hSet2 bf cmp (x.v a l) imm) s)

end Sys2Proof.Machine
end

