-- ==== Sys2Proof/Machine/Streams.lean ====
section
/-! DEFINITION. Group 0xD but for its commands: binding and unbinding stream entries (R291, R292, R295, R296, R300 to R302, R308,
R309), their status (R310), and the bound copies of descriptors (R311). -/

namespace Sys2Proof.Machine

open Sys2Proof

/-! ## Graphs (R295, R296, R298, R300, R301) -/

/-- Types that arithmetic operations take. -/
def gArith (ty : Nat) : Bool := ty == 0 || ty == 1 || ty == 2 || ty == 8 || ty == 10 || ty == 13
/-- Every graph type. -/
def gType (ty : Nat) : Bool := gArith ty || ty == 3 || ty == 4 || ty == 7 || ty == 11 || ty == 12
/-- Element types of `QNT` and `DQNT`. -/
def gMxType (ty : Nat) : Bool := ty == 3 || ty == 4 || ty == 7 || ty == 10

/-- A node record's fields (R296). -/
def nodeOf (v : Nat) : Node :=
  { op := v % 64, ty := v / 2 ^ 8 % 16, rnd := v / 2 ^ 12 % 16, sat := v / 2 ^ 16 % 2 == 1, uns := v / 2 ^ 17 % 2 == 1
    srca := v / 2 ^ 24 % 256, srcb := v / 2 ^ 32 % 256, srcc := v / 2 ^ 40 % 256, dst := v / 2 ^ 48 % 256
    imm := BitVec.ofNat 64 (v / 2 ^ 64) }

/-- Whether a node record has a reserved bit set. -/
def nodeReserved (v : Nat) : Bool := v / 2 ^ 6 % 4 != 0 || v / 2 ^ 18 % 64 != 0 || v / 2 ^ 56 % 256 != 0

/-- The types of a `CVT` and its part: parts are counted in the longer vector; integers and E8M0 do not convert (R243, R298). -/
def cvtOk (src dst part : Nat) : Bool :=
  gType src && !((gInt src && dst == 12) || (src == 12 && gInt dst))
    && (let a := gBits src; let b := gBits dst; decide (part < max a b / min a b))

/-- Sources that an operation uses: A, B, C. -/
def nodeUses (n : Node) : Bool × Bool × Bool :=
  match n.op with
  | 4 | 10 => (true, true, true)
  | 7 | 8 | 16 | 22 | 23 => (true, false, false)
  | 17 | 18 => (true, gBits (n.imm.toNat % 16) == 32, false)
  | 20 => (true, false, decide (gBits n.ty < gBits (n.imm.toNat % 16)))
  | _ => (true, true, false)

/-- Whether a node's operation allows its TYPE and IMM (R298, R300). -/
def nodeTypes (n : Node) (nconst luts : Nat) : Bool :=
  let imm := n.imm.toNat
  match n.op with
  | 1 | 2 | 3 | 4 | 5 | 6 | 7 | 8 => gArith n.ty && imm == 0
  | 9 => gArith n.ty && decide (imm < 8)
  | 10 | 11 | 12 | 13 => gType n.ty && imm == 0
  | 14 | 15 => gArith n.ty && gInt n.ty && imm == 0
  | 16 => gArith n.ty && gInt n.ty && decide (imm < 4) && luts / 2 ^ imm % 2 == 1
  | 17 | 18 => (n.ty == 0 || (n.ty == 8 && gInt imm)) && decide (imm < 16) && gArith imm
  | 19 => gMxType n.ty && imm == 0
  | 20 => gType n.ty && decide (imm < 64) && cvtOk (imm % 16) n.ty (imm / 16)
  | 21 => gType n.ty && decide (imm < 64) && decide (imm + 16 ≤ nconst)
  | 22 => n.ty == 8 && imm == 0
  | 23 => n.ty == 0 && decide (imm < 16) && gMxType imm
  | _ => false

/-- Whether a source selector of a node is allowed: used or 0xFF (R296, R300). -/
def selOk (used : Bool) (idx slices nconst sel : Nat) : Bool :=
  if !used then sel == 255
  else sel == 255 || decide (sel < slices) || (decide (16 ≤ sel) && decide (sel < 16 + min idx 32))
    || (decide (64 ≤ sel) && decide (sel < 64 + nconst))

/-- 64-byte slices of a packet's side. -/
def slicesOf (n : Nat) : Nat := (n + 63) / 64

/-- A graph descriptor's header fields (R295). -/
structure GraphHead where
  luts   : Nat
  nconst : Nat
  ratio  : Nat
  nodes  : Nat
  lutAddr   : Nat
  constAddr : Nat
  reserved  : Bool
  deriving DecidableEq, Repr

def GraphHead.ofNat (v : Nat) : GraphHead :=
  { luts := v / 2 ^ 88 % 16, nconst := v / 2 ^ 80 % 128, ratio := v / 2 ^ 72 % 8, nodes := v / 2 ^ 64 % 64
    lutAddr := v / 2 ^ 192 % 2 ^ 64, constAddr := v / 2 ^ 128 % 2 ^ 64
    reserved := v / 2 ^ 256 % 2 ^ 256 != 0 || v / 2 ^ 92 % 2 ^ 36 != 0 || v / 2 ^ 87 % 2 != 0 || v / 2 ^ 75 % 32 != 0
      || v / 2 ^ 70 % 4 != 0 }

/-- Whether a graph is valid for a direction (R300): `raw` are its node records. -/
def graphOk (h : GraphHead) (write : Bool) (raw : List Nat) : Bool :=
  let inLen := if write then 64 else storedLen h.ratio
  let outLen := if write then storedLen h.ratio else 64
  let ns := raw.map nodeOf
  !h.reserved && decide (1 ≤ h.nodes) && decide (h.nodes ≤ 32) && decide (h.nconst ≤ 64) && decide (h.ratio ≤ 4)
    && (h.nconst != 0 || h.constAddr == 0) && (h.luts != 0 || h.lutAddr == 0)
    && raw.all (fun v => !nodeReserved v)
    && (ns.zipIdx.all fun e =>
      let n := e.1
      let u := nodeUses n
      let ok := fun used sel => selOk used e.2 (slicesOf inLen) h.nconst sel
      nodeTypes n h.nconst h.luts && decide (n.rnd < 4) && ok u.1 n.srca && ok u.2.1 n.srcb && ok u.2.2 n.srcc
        && decide (n.dst ≤ slicesOf outLen))
    && ((List.range (slicesOf outLen)).all fun i => (ns.filter fun n => n.dst == i + 1).length == 1)

/-- The PE cost of a node (R298). -/
def nodeCost (n : Node) : Nat :=
  match n.op with
  | 0x11 | 0x12 | 0x16 | 0x17 => 2
  | 0x13 => 4
  | _ => 1

/-- A graph's element cost (R301). -/
def graphCost (ns : List Node) : Nat := ns.foldl (fun z n => z + nodeCost n) 0

/-! ## Arrays (R291, R292, R301) -/

/-- The device-wide array of a physical address. -/
def arrayOf (pa : Nat) : Nat := 12 * homeDie pa + pa / 4096 % 12

/-- The bindings of every context that an array holds. -/
def boundAt (s : State) (a : Nat) : List Binding :=
  ((s.ctxs.map fun c => c.2.bindings.map (·.2)).flatten).filter fun b => b.arrays.any fun e => e.1 == a

/-- Elements that bound graphs take at an array. -/
def costAt (s : State) (a : Nat) : Nat := (boundAt s a).foldl (fun z b => z + graphCost b.nodes) 0

/-- Whether a graph fits an array (R301). -/
def fitsArray (s : State) (cost nconst : Nat) (luts : List Nat) (a : Nat) : Bool :=
  let bs := boundAt s a
  decide (cost + costAt s a ≤ 24) && decide (nconst + bs.foldl (fun z b => z + b.consts.length) 0 ≤ 56)
    && !(bs.any fun b => b.luts.any fun t => luts.contains t.1) && decide (bs.length < 16)

/-- A graph's replication at an array that holds others (R292). -/
def replication (s : State) (cost a : Nat) : Nat := min 6 ((24 - costAt s a) / max 1 cost)

/-! ## Ranges -/

/-- The physical pieces of a range that lies in the global window, page by page, or the first fault (R372). -/
def rangePieces (s : State) (ctx : Nat) (acc : AccKind) : (pages : Nat) → (va n : Nat) → Except EngFail (List (Nat × Nat))
  | 0, _, _ => .ok []
  | k + 1, va, n =>
    if n = 0 then .ok []
    else
      let here := min n (65536 - va % 65536)
      match winOf va with
      | .global =>
        (match translate s ctx va (some acc) with
        | .ok (.dev pa) => (match rangePieces s ctx acc k (va + here) (n - here) with
          | .ok r => .ok ((pa, here) :: r)
          | .error e => .error e)
        | .ok _ => rangePieces s ctx acc k (va + here) (n - here)
        | .error e => .error (blockFail va acc e))
      | _ => .ok []

/-- Bytes that the unit reads as a part of its own instruction (R295). -/
def unitRead (s : State) (x : Ex) (va n align : Nat) : Except EngFail (List Byte × State) :=
  if n = 0 then .ok ([], s)
  else if 0x80000000000000 ≤ va then .error (.at .addrNoncanon va)
  else if va % align ≠ 0 then .error (.at .misaligned va)
  else match engRead s (issuerOf s x none) va n with
    | .error e => .error { e with detail := e.detail &&& 3 }
    | .ok (bs, bad, s1) => if bad then .error (.at .poison va) else .ok (bs, s1)

/-- The lines of physical ranges dropped from every L2: an irrevocable attempt's stay. -/
def l2Drop (s : State) (rs : List (Nat × Nat)) : State :=
  { s with lines := s.lines.filter fun e => e.2.holder.isSome || !overlaps rs e.1 128 }

/-- The cores on which a context has threads. -/
def coresOf (s : State) (ctx : Nat) : List Nat :=
  ((s.crews.filter fun e => e.2.ctx == ctx).map (·.2.core) ++ (s.teams.filter fun e => e.2.ctx == ctx).map (·.2.core)).eraseDups

/-- Clean copies of ranges discarded from the scope caches of a context's cores. -/
def dropClean (s : State) (ctx : Nat) (rs : List (Nat × Nat)) : State :=
  (coresOf s ctx).foldl (fun s core => cctlOn s core .l2 .inv rs) s

/-! ## Checks (R302, R308) -/

/-- A stream entry descriptor's fields (R302). -/
structure Entry where
  write   : Bool
  graph   : Nat
  backing : Nat
  vlen    : Nat
  vbase   : Nat
  reserved : Bool
  deriving DecidableEq, Repr

def Entry.ofNat (v : Nat) : Entry :=
  { write := v / 2 ^ 384 % 2 == 1, graph := v / 2 ^ 320 % 2 ^ 64, backing := v / 2 ^ 256 % 2 ^ 64, vlen := v / 2 ^ 192 % 2 ^ 64
    vbase := v / 2 ^ 128 % 2 ^ 64, reserved := v / 2 ^ 385 % 2 ^ 63 != 0 || v / 2 ^ 64 % 2 ^ 64 != 0 }

/-- Whether an entry breaks a limit or an overlap of R302. -/
def Entry.bad (e : Entry) (s : State) (ctx ratio : Nat) : Bool :=
  let len := e.vlen / 64 * storedLen ratio
  let top := 0x40000000000000
  e.reserved || e.vlen % 65536 != 0 || e.vlen == 0 || decide (2 ^ 40 < e.vlen) || e.vbase % 65536 != 0 || e.backing % 4096 != 0
    || decide (top < e.vbase + e.vlen) || decide (top < e.backing + len) || meets e.vbase e.vlen e.backing (e.backing + len)
    || meetsBound s ctx e.vbase e.vlen || meetsBound s ctx e.backing len

/-- Row 1 of R308 for a descriptor address. -/
def descAddr (va : Nat) : Option EngFail :=
  if 0x80000000000000 ≤ va then some (.at .addrNoncanon va)
  else match winOf va with
    | .global => if va % 64 ≠ 0 then some (.at .misaligned va) else none
    | _ => some (.at .addrReserved va)

/-- The slot that a request asks for: a free one, or the lowest free one for 0x7F. -/
def slotFor (c : Ctx) (slot : Nat) : Option Nat :=
  if slot = 127 then (List.range 64).find? fun i => (tget c.bindings i).isNone
  else if (tget c.bindings slot).isNone then some slot else none

/-- What `SBIND` reads: the entry, the graph's header and node records, constants and tables. -/
structure BindRead where
  entry  : Entry
  head   : GraphHead
  raw    : List Nat
  consts : List W32
  luts   : List (Nat × List W32)
  s      : State

/-- The little-endian words of bytes. -/
def wordsOf (n : Nat) (bs : List Byte) : List W32 :=
  (List.range n).map fun i => BitVec.ofNat 32 (ofBytes ((bs.drop (4 * i)).take 4))

/-- The tables a header names, read in order. -/
def lutsRead (x : Ex) (base : Nat) : List Nat → State → Except EngFail (List (Nat × List W32) × State)
  | [], s => .ok ([], s)
  | t :: ts, s => match unitRead s x ((base + 1024 * t) % 2 ^ 64) 1024 1024 with
    | .error e => .error e
    | .ok (bs, s1) => match lutsRead x base ts s1 with
      | .error e => .error e
      | .ok (r, s2) => .ok ((t, wordsOf 256 bs) :: r, s2)

/-- Rows 1 to 3 of R308 for what the instruction reads. -/
def bindRead (s : State) (x : Ex) (va : Nat) : Except EngFail BindRead :=
  let ctx := ctxOf s x.ref
  let core := coreOf s x.ref
  match descAddr va with
  | some e => .error e
  | none => match bindDesc s ctx core va 64 with
    | .error e => .error (blockFail va .load e)
    | .ok (v, s1) =>
      let en := Entry.ofNat v
      match descAddr en.graph with
      | some e => .error e
      | none => match blockRead s1 ctx en.graph 64 with
        | .error e => .error (blockFail en.graph .load e)
        | .ok (hd, s2) =>
          let len := 72 + 16 * (GraphHead.ofNat (ofBytes hd)).nodes
          match bindDesc s2 ctx core en.graph len with
          | .error e => .error (blockFail en.graph .load e)
          | .ok (g, s3) =>
            let h := GraphHead.ofNat (g % 2 ^ 512)
            match unitRead s3 x h.constAddr (4 * h.nconst) 4 with
            | .error e => .error e
            | .ok (cs, s4) =>
              let ts := (List.range 4).filter fun t => h.luts / 2 ^ t % 2 == 1
              match lutsRead x h.lutAddr ts s4 with
              | .error e => .error e
              | .ok (luts, s5) =>
                .ok { entry := en, head := h, consts := wordsOf h.nconst cs, luts, s := s5
                      raw := (List.range h.nodes).map fun i => g / 2 ^ (512 + 128 * i) % 2 ^ 128 }

/-- The 4 KiB blocks of physical pieces, as arrays (R291). -/
def arraysOf (rs : List (Nat × Nat)) : List Nat :=
  rs.foldl (fun z r => (List.range (r.2 / 4096 + 1)).foldl (fun z i =>
    let pa := r.1 / 4096 * 4096 + 4096 * i
    if pa < r.1 + r.2 ∧ !z.contains (arrayOf pa) then z ++ [arrayOf pa] else z) z) []

/-- The fault of check 7, whose record says whether the graph fits no array at all (R301, R308). DESIGN CHOICE (log 46): it says so in DETAIL [0]. -/
def graphTooLarge (va : Nat) (ns : List Node) (consts : Nat) : EngFail :=
  { cause := .graphTooLarge, addr := va, detail := if 24 < graphCost ns ∨ 56 < consts then 1 else 0 }

/-- The binding of what was read, with its slot and backing pieces, or the first failing check of R308. -/
def bindCheck (x : Ex) (va slot : Nat) (r : BindRead) : Except EngFail (Nat × Binding × List (Nat × Nat)) :=
  let s := r.s
  let ctx := ctxOf s x.ref
  let len := r.entry.vlen / 64 * storedLen r.head.ratio
  match rangePieces s ctx (if r.entry.write then .store else .load) (len / 65536 + 2) r.entry.backing len with
  | .error e => .error e
  | .ok rs => match tget s.ctxs ctx with
    | none => .error (.at .cmdRange va)
    | some c =>
      if r.entry.bad s ctx r.head.ratio || (slot != 127 && (tget c.bindings slot).isSome) then .error (.at .cmdRange va)
      else if !graphOk r.head r.entry.write r.raw then .error (.at .graphInvalid va)
      else if 64 ≤ c.bindings.length then .error (.at .streamFull va)
      else
        let ns := r.raw.map nodeOf
        let arrays := arraysOf rs
        if arrays.any fun a => !fitsArray s (graphCost ns) r.consts.length (r.luts.map (·.1)) a then .error (graphTooLarge va ns r.consts.length)
        else .ok ((slotFor c slot).getD 0,
          { write := r.entry.write, vbase := r.entry.vbase, vlen := r.entry.vlen, backing := r.entry.backing, ratio := r.head.ratio
            nodes := ns, consts := r.consts, luts := r.luts
            arrays := arrays.map fun a => (a, replication s (graphCost ns) a) }, rs)

/-! ## SBIND, SUNBIND (R308, R309) -/

/-- `SBIND`: a release, the reads and checks, the backing range out of the caches, the entry installed, the slot's number to D. -/
def execSbind (c : Ctl) (slot : BitVec 7) (d a : Spec) (s : State) : Host.Outcome State Fault Refusal :=
  .next (issue (.sbind c slot d a) c [dstV d, srcW a] [] .aborts (fun x s =>
    match releaseObject s x.ref .device with
    | some obj => waitEx x obj (.sbind c slot d a) s
    | none =>
      let ctx := ctxOf s x.ref
      let va := (x.w a x.low).toNat
      match bindRead (releaseAt s (coreOf s x.ref) .l2) x va with
      | .error e => failEx x e x.exec s
      | .ok r => match bindCheck x va slot.toNat r with
        | .error e => failEx x e x.exec s
        | .ok (n, b, rs) =>
          let s1 := dropClean (l2Drop r.s rs) ctx rs
          let s2 := modCtx s1 ctx fun k => { k with bindings := tset k.bindings n b }
          retireEnd x c (x.body.sendV x.exec d fun _ => BitVec.ofNat 32 n) s2) s)

/-- Window accesses of a context that a bound view's arrays have not performed. -/
def viewBusy (s : State) (ctx : Nat) (b : Binding) : Bool :=
  s.winq.any fun w => w.ctx == ctx && decide (w.va < b.vbase + b.vlen) && decide (b.vbase < w.va + max 1 w.len)

/-- `SUNBIND`: a release; then it waits for the view's accesses, and the entry is removed. -/
def execSunbind (c : Ctl) (a : Spec) (s : State) : Host.Outcome State Fault Refusal :=
  .next (issue (.sunbind c a) c [srcV a] [] .aborts (fun x s =>
    match releaseObject s x.ref .device with
    | some obj => waitEx x obj (.sunbind c a) s
    | none =>
      let ctx := ctxOf s x.ref
      let slot := (x.v a x.low).toNat
      let s1 := releaseAt s (coreOf s x.ref) .l2
      match bindingOf s ctx slot with
      | none => retireEnd x c x.body s1
      | some b =>
        if viewBusy s ctx b then waitEx x (.unbind slot) (.sunbind c a) s1
        else retireEnd x c x.body (modCtx s1 ctx fun k => { k with bindings := tdel k.bindings slot })) s)

/-! ## SSTAT, GINV (R310, R311) -/

/-- The status of a slot. -/
def slotStatus (s : State) (ctx slot : Nat) : W32 :=
  match bindingOf s ctx slot with
  | none => 0
  | some b =>
    let least := (b.arrays.map (·.2)).foldl min 6
    BitVec.ofNat 32 (least * 2 ^ 16 + b.arrays.length * 2 ^ 8 + b.ratio * 2 ^ 5 + (if b.write then 16 else 0) + 1)

def execSstat (c : Ctl) (d a : Spec) (s : State) : Host.Outcome State Fault Refusal :=
  .next (issue (.sstat c d a) c [dstV d, srcV a] [] .aborts (fun x s =>
    retire x c (x.body.sendV x.exec d fun l => slotStatus s (ctxOf s x.ref) (x.v a l).toNat) s) s)

/-- The units whose bound copies a scope covers: cores 0 to 127, and the global scheduler as 128, on the I/O die (R311). -/
def copyScope (core : Nat) (sc : Scope) (n : Nat) : Bool :=
  match sc with
  | .cluster => decide (n < 128) && n / 4 == core / 4
  | .die => n == 128 || n / 32 == core / 32
  | .device | .system => true
  | _ => n == core

def execGinv (c : Ctl) (sc : Scope) (a : Spec) (s : State) : Host.Outcome State Fault Refusal :=
  .next (issue (.ginv c sc a) c [srcW a] [] .aborts (fun x s =>
    let va := x.w a x.low
    let hit : BoundCopy → Bool := fun k => copyScope (coreOf s x.ref) sc k.core && (a == 255#8 || k.addr == va)
    retire x c x.body (modCtx s (ctxOf s x.ref) fun k => { k with copies := k.copies.filter fun b => !hit b })) s)

end Sys2Proof.Machine
end

