-- ==== Sys2Proof/Machine/Fetch.lean ====
section
/-! DEFINITION. Fetching an instruction: segment descriptors and retired segments (R82 to R85), instruction caches (R177), pad words (R55)
and the faults of decoding (R67). -/

namespace Sys2Proof.Machine

open Sys2Proof

/-- A fault met while fetching. -/
structure FetchFault where
  cause : Cause
  addr  : Nat
  level : Nat

/-- The fault of a failed read of a block while fetching. -/
def FetchFault.of (va : Nat) (e : Cause × Nat) : FetchFault := { cause := e.1, addr := va, level := e.2 }

/-! ## Segments (R82 to R85) -/

/-- A segment descriptor as the fetching core binds it: its bound copy while no `GINV` has dropped it, else the version in memory. DESIGN CHOICE
(log 39): R84 and R294 let a core that keeps a copy bind either version; a fetch always uses the copy. -/
def fetchSeg (s : State) (ctx core : Nat) (at_ : Nat) (va : Addr) : Except FetchFault (Segment × State) :=
  let copy := match tget s.ctxs ctx with
    | some c => c.copies.find? fun (k : BoundCopy) => k.core == core && k.addr == va
    | none => none
  let read : Except FetchFault (Nat × State) := match copy with
    | some k => .ok (ofBytes k.bytes, s)
    | none => match bindDesc s ctx core va.toNat 64 with
      | .ok r => .ok r
      | .error e => .error (.of va.toNat e)
  match read with
  | .error f => .error f
  | .ok (v, s1) => if segmentOk v then .ok (segmentOf va v, s1) else .error { cause := .segInvalid, addr := at_, level := 0 }

/-- Whether a segment holds an address. -/
def Segment.holds (g : Segment) (x : Nat) : Bool := decide (g.base.toNat ≤ x) && decide (x < g.base.toNat + g.length)

/-- The segment that holds an address: the launch's, or one that follows it in the chain of successors, however far (`fuel` is more than there are
addresses); none where no segment does. `seen` are the descriptors already visited: a chain that comes back to one of them holds the address nowhere. -/
def segHolding (ctx core x : Nat) : (fuel : Nat) → (seen : List Addr) → Addr → State → Except FetchFault (Option Segment × State)
  | 0, _, _, s => .ok (none, s)
  | n + 1, seen, va, s => match fetchSeg s ctx core x va with
    | .error f => .error f
    | .ok (g, s1) =>
      if g.holds x then .ok (some g, s1)
      else if g.retired && g.successor != 0 && !seen.contains g.successor then segHolding ctx core x n (va :: seen) g.successor s1
      else .ok (none, s1)

/-- One entry of a segment's region map: offset and id (R80). DESIGN CHOICE (log 40): the spec names no outcome for an entry whose reserved bits
[31:16] are not zero; the model ignores them. -/
def mapEntry (s : State) (ctx : Nat) (g : Segment) (i : Nat) : Except FetchFault (Nat × Nat) :=
  let va := g.map.toNat + 8 * i
  match blockRead s ctx va 8 with
  | .error e => .error (.of va e)
  | .ok (bs, _) => let v := ofBytes bs; .ok (v / 2 ^ 32, v % 2 ^ 16)

/-- The last of the first n entries of a map that a test accepts. DESIGN CHOICE (log 51): of a map that is not sorted, or holds an id twice, it
is the last in the order of the table (R80). -/
def lastEntry (s : State) (ctx : Nat) (g : Segment) (p : Nat × Nat → Bool) : (n : Nat) → Except FetchFault (Option (Nat × Nat))
  | 0 => .ok none
  | n + 1 => match mapEntry s ctx g n with
    | .error f => .error f
    | .ok e => if p e then .ok (some e) else lastEntry s ctx g p n

/-- The redirection of R85 from a segment that holds an address; at most 8 hops. -/
def redirect (ctx core orig : Nat) : (fuel : Nat) → Segment → Nat → State → Except FetchFault (Nat × State)
  | n, g, x, s =>
    let dead : FetchFault := { cause := .codeRetired, addr := orig, level := 0 }
    if !g.retired then .ok (x, s)
    else match n with
      | 0 => .error dead
      | n + 1 => match lastEntry s ctx g (fun e => decide (e.1 ≤ x - g.base.toNat)) g.mapCount with
        | .error f => .error f
        | .ok none => .error dead
        | .ok (some e) =>
          if g.successor = 0 then .error dead
          else match fetchSeg s ctx core orig g.successor with
            | .error f => .error f
            | .ok (nxt, s1) => match lastEntry s1 ctx nxt (fun f => f.2 == e.2) nxt.mapCount with
              | .error f => .error f
              | .ok none => .error dead
              | .ok (some f) => redirect ctx core orig n nxt (nxt.base.toNat + f.1) s1

/-- The address that a fetch at an address reads (R85). DESIGN CHOICE (log 39): the spec names no outcome for a fetch at an address that no segment of
the launch's chain holds; the model reads it as it stands. -/
def resolveFetch (s : State) (u : UnitRef) (x : Nat) : Except FetchFault (Nat × State) :=
  match tget s.grids (gridOf s u) with
  | none => .ok (x, s)
  | some g =>
    if g.primrose then .ok (x, s)
    else match segHolding g.ctx (coreOf s u) x (2 ^ 64) [] g.segment.desc s with
      | .error f => .error f
      | .ok (none, s1) => .ok (x, s1)
      | .ok (some seg, s1) => redirect g.ctx (coreOf s u) x 8 seg x s1

/-! ## Instruction caches (R177) -/

/-- A cached block. -/
def icFind (c : List (Nat × List Byte)) (b : Nat) : Option (List Byte) := (c.find? fun e => e.1 == b).map (·.2)

/-- The 32 bytes of a physical fetch block through the core's and the cluster's instruction caches; none where they are poisoned. DESIGN CHOICE
(log 52): which old and new blocks a thread without the acquire executes is open; the caches drop no block of themselves, so that an old one stays
until `ICINV`, a cleared frame or S3 drops it. -/
def icRead (s : State) (core b : Nat) : Option (List Byte × State) :=
  match icFind (coreAt s core).icache b with
  | some bs => if (coreAt s core).icBad.contains b then none else some (bs, s)
  | none =>
    let fillCore : List Byte → State → State := fun bs s =>
      let c := coreAt s core
      setCore s core { c with icache := (b, bs) :: c.icache, icBad := c.icBad.filter (· != b) }
    match icFind (clusterAt s (core / 4)).icache b with
    | some bs => if (clusterAt s (core / 4)).icBad.contains b then none else some (bs, fillCore bs s)
    | none =>
      if poisonedAt s (32 * b) 32 then none
      else
        let r := l2Load s (32 * b) 32 (some (core / 4))
        let cl := clusterAt r.2 (core / 4)
        some (r.1, fillCore r.1 (setCluster r.2 (core / 4) { cl with icache := (b, r.1) :: cl.icache, icBad := cl.icBad.filter (· != b) }))

/-- The fetch block of an address after redirection (R54): the address read, the block's bytes from it on. DESIGN CHOICE (log 51): a fault met at
the address redirected to names the address before redirection, as R85 has it for CODE_RETIRED. -/
def fetchBlock (s : State) (u : UnitRef) (x : Nat) : Except FetchFault (Nat × List Byte × State) :=
  match resolveFetch s u x with
  | .error f => .error f
  | .ok (y, s1) =>
    let bad : Cause → Nat → FetchFault := fun c l => { cause := c, addr := x, level := l }
    match (match winOf y with
      | .own _ | .slot _ _ => (.error (.addrReserved, 0) : Except (Cause × Nat) Place)
      | _ => placeOf s1 (ctxOf s u) none (some .fetch) y) with
    | .error e => .error (bad e.1 e.2)
    | .ok (.dev pa) => (match icRead s1 (coreOf s u) (pa / 32) with
      | none => .error (bad .poison 0)
      | some (bs, s2) => .ok (y, bs.drop (pa % 32), s2))
    | .ok _ => .error (bad .xlatePerm 0)

/-! ## Decoding at an address (R55, R67) -/

/-- What a unit fetches: an instruction at an address, or a fault. -/
inductive Fetched where
  | instr (i : Instr) (pc : Nat) (s : State)
  | bad (f : FetchFault) (pc : Nat)

/-- The fault of words that are no instruction for a unit, in the order of R67. -/
def decodeFault (ap : Bool) : DecodeError → Cause
  | .pad => .illegalPad
  | .op => .illegalOp
  | .field .crew => if ap then .illegalOp else .illegalField
  | .field .access => if ap then .illegalField else .copyRights
  | .field .both => .illegalField

/-- The fault of an instruction that a unit cannot execute (R67 rows 3 and 4). -/
def unitFault (ap : Bool) : Units → Option Cause
  | .crew => if ap then some .illegalOp else none
  | .access => if ap then none else some .copyRights
  | .both => none

/-- Whether a unit is an access thread. -/
def isAccess : UnitRef → Bool
  | .access _ => true
  | .crew _ _ => false

/-- The instruction at an address, pad words skipped; `fuel` counts them (R55). -/
def fetchFrom (u : UnitRef) : (fuel : Nat) → (x : Nat) → State → Fetched
  | 0, x, _ => .bad { cause := .illegalPad, addr := x, level := 0 } x
  | n + 1, x, s =>
    match fetchBlock s u x with
    | .error f => .bad f x
    | .ok (y, bs, s1) =>
      let stop : Cause → Fetched := fun c => .bad { cause := c, addr := y, level := 0 } y
      match decode bs with
      | .padWord => if n = 0 then stop .illegalPad else fetchFrom u n (y + 4) s1
      | .bad e => stop (decodeFault (isAccess u) e)
      | .instr i _ us => match unitFault (isAccess u) us with
        | some c => stop c
        | none => .instr i y s1

/-- The issue group of a unit at the address that its fetch has come to. A WAIT completed for the instruction at another address, from which the fetch
has been redirected, is not this one's (R58, R85). -/
def setPc (s : State) (u : UnitRef) (pc : Nat) : State :=
  modGroup s u fun g => { g with pc := BitVec.ofNat 64 pc, waitDone := g.waitDone && g.pc == BitVec.ofNat 64 pc }

/-- What the selected unit does next: nothing, since it cannot issue; the instruction it fetched, in the state after the fetch; or a fault
taken. -/
inductive Next where
  | idle (s : State)
  | instr (i : Instr) (s : State)
  | fault (s : State)

/-- The fetch of the selected unit's next instruction. DESIGN CHOICE (log 51): a fault met in reading a segment's descriptor or map names the
address read, and its access kind is a fetch (R82). -/
def fetchNext (s : State) (u : UnitRef) : Next :=
  match bodyOf s u with
  | none => .idle { s with cur := none }
  | some b =>
    match groupOf b u with
    | none => .idle { s with cur := none }
    | some g =>
      if b.held.isSome then .idle { s with cur := none }
      else match fetchFrom u 4096 g.pc.toNat s with
        | .instr i pc s1 => .instr i (setPc s1 u pc)
        | .bad f pc =>
          let detail := if 70 ≤ xlateRank f.cause ∧ xlateRank f.cause ≤ 72 then xlateDetail f.level .fetch else 0
          .fault (faultUnit s u g.mask (BitVec.ofNat 64 pc)
            { cause := f.cause, addr := BitVec.ofNat 64 f.addr, mask := g.mask, detail, exact := false })

end Sys2Proof.Machine
end

