-- ==== Sys2Proof/Machine/Move.lean ====
section
/-! DEFINITION. Group 0x2, move (R102 to R107). -/

namespace Sys2Proof.Machine

open Sys2Proof

def execMov (c : Ctl) (wide : Bool) (d a : Spec) (s : State) : Host.Outcome State Fault Refusal :=
  .next (if wide then aluW (.mov c wide d a) c [srcW a] 4 d (fun x l => x.w a l) s
         else aluV (.mov c wide d a) c [srcV a] 4 d (fun x l => x.v a l) s)
def execMovi (c : Ctl) (d : Spec) (imm : W32) (s : State) : Host.Outcome State Fault Refusal :=
  .next (aluV (.movi c d imm) c [] 4 d (fun _ _ => imm) s)
def execMoviB64 (c : Ctl) (d : Spec) (lo hi : W32) (s : State) : Host.Outcome State Fault Refusal :=
  .next (aluW (.moviB64 c d lo hi) c [] 4 d (fun _ _ => pair64 lo hi) s)

/-- The value that `MOVK` writes: A of the lane that B of the lowest executing lane names, 0 where that lane does not execute (R104). -/
def movkVal (x : Ex) (a b : Spec) : W32 :=
  let l := (x.v b x.low).toNat
  if l < 64 ∧ x.exec.getLsbD l then x.v a l else 0
def execMovk (c : Ctl) (d a b : Spec) (s : State) : Host.Outcome State Fault Refusal :=
  .next (issue (.movk c d a b) c [{ cls := .kd, code := d, rd := false }, srcV a, srcV b] [] .runs
    (fun x s => retire x c (x.fixV 4 d fun _ => movkVal x a b) s) s)

def execSel (c : Ctl) (wide : Bool) (d a b p : Spec) (s : State) : Host.Outcome State Fault Refusal :=
  .next (if wide then aluW (.sel c wide d a b p) c [srcW a, srcW b, srcP p] 4 d
           (fun x l => if x.p p l then x.w a l else x.w b l) s
         else aluV (.sel c wide d a b p) c [srcV a, srcV b, srcP p] 4 d (fun x l => if x.p p l then x.v a l else x.v b l) s)

/-! ## Special registers (R44, R106) -/

/-- The linear index of a thread's team with its grid's extents, where it has a team. -/
def teamPlaceOf (s : State) (u : UnitRef) : Option (Nat × Nat × Nat) :=
  match teamOf s u with
  | none => none
  | some t => match tget s.teams t with
    | none => none
    | some tm => (match tget s.grids tm.grid with
      | some g => some (tm.idx, g.packet.gx, g.packet.gy)
      | none => none)

/-- Whether a special register is 64 bits wide. -/
def specialWide : Special → Bool
  | .team | .clock | .entry => true
  | _ => false

/-- The value of a special register in a lane. -/
def specialVal (s : State) (x : Ex) (sp : Special) (l : Nat) : W64 :=
  let ones : W64 := 0xFFFFFFFF
  let num : Nat → W64 := BitVec.ofNat 64
  let core := coreOf s x.ref
  match sp with
  | .lane => if x.body.isAp then ones else num l
  | .quad => if x.body.isAp then ones else num (l % 32 / 4)
  | .crew => (match x.body with | .crew c => num c.num | .ap _ => ones)
  | .team => teamIndex s (teamOf s x.ref)
  | .thread => (match x.body with
    | .crew c => (match c.owner, c.lanes.getD l none with
      | .team _, some t => num t.tid
      | _, _ => ones)
    | .ap _ => ones)
  | .core => num core
  | .cluster => num (core / 4)
  | .die => num (core / 32)
  | .gridX => (match teamPlaceOf s x.ref with | some (i, gx, _) => num (i % gx) | none => ones)
  | .gridY => (match teamPlaceOf s x.ref with | some (i, gx, gy) => num (i / gx % gy) | none => ones)
  | .gridZ => (match teamPlaceOf s x.ref with | some (i, gx, gy) => num (i / gx / gy) | none => ones)
  | .clock => num (coreClock s core)
  | .entry => (match x.body with
    | .crew c => (match c.lanes.getD l none with | some t => t.entry | none => 0)
    | .ap a => a.entry)

def execRdsp (c : Ctl) (d : Spec) (sp : Special) (s : State) : Host.Outcome State Fault Refusal :=
  .next (issue (.rdsp c d sp) c [dstX (specialWide sp) d] [] .runs
    (fun x s => retire x c (if (specialWide sp) then x.body.sendW x.exec d (specialVal s x sp)
                            else x.body.sendV x.exec d fun l => lo32 (specialVal s x sp l)) s) s)

/-- `CVTI` (R107). -/
def cvtiVal (op : CvtiOp) (a : W32) : W32 :=
  match op with
  | .s32s8 => (a.setWidth 8).signExtend 32
  | .b32b8 => (a.setWidth 8).setWidth 32
  | .s32s16 => (a.setWidth 16).signExtend 32
  | .b32b16 => (a.setWidth 16).setWidth 32
  | .s8s32 => wrap32 (clampTo (-128) 127 a.toInt)
  | .b8s32 => wrap32 (clampTo 0 255 a.toInt)
  | .s16s32 => wrap32 (clampTo (-32768) 32767 a.toInt)
  | .b16s32 => wrap32 (clampTo 0 65535 a.toInt)
  | .s32b32 => BitVec.ofNat 32 (min a.toNat 0x7FFFFFFF)
  | .b32s32 => wrap32 (max a.toInt 0)
  | .s4s32 => wrap32 (clampTo (-8) 7 a.toInt)
  | .s32s4 => (a.setWidth 4).signExtend 32
def execCvti (c : Ctl) (op : CvtiOp) (d a : Spec) (s : State) : Host.Outcome State Fault Refusal :=
  .next (aluV (.cvti c op d a) c [srcV a] 4 d (fun x l => cvtiVal op (x.v a l)) s)

end Sys2Proof.Machine
end

