-- ==== Sys2Proof/Machine/Special.lean ====
section
/-! DEFINITION. Group 0x7, special functions and conversion (R259 to R264): results of variable latency. -/

namespace Sys2Proof.Machine

open Sys2Proof

/-- An instruction with a 32-bit result of variable latency and events (R247, R249). -/
def floatLate (i : Instr) (c : Ctl) (ops : List Opnd) (d : Spec) (f : Ex → Nat → W32 × List Arith) (s : State) : State :=
  issue i c (dstV d :: ops) [] .runs (fun x s =>
    withEvents x (eventsOf x.lanes fun l => (f x l).2) s fun s => retire x c (x.body.sendV x.exec d fun l => (f x l).1) s) s

/-- A result with at most one event. -/
def oneEvent (r : Nat × Option Arith) : W32 × List Arith := (BitVec.ofNat 32 r.1, r.2.toList)

def sfuVal (fn : Sfu) (a : W32) : W32 × List Arith := oneEvent (sfu fn a.toNat)

def execRcp (c : Ctl) (d a : Spec) (s : State) : Host.Outcome State Fault Refusal :=
  .next (floatLate (.rcp c d a) c [srcV a] d (fun x l => sfuVal .rcp (x.v a l)) s)
def execRsq (c : Ctl) (d a : Spec) (s : State) : Host.Outcome State Fault Refusal :=
  .next (floatLate (.rsq c d a) c [srcV a] d (fun x l => sfuVal .rsq (x.v a l)) s)
def execSqrt (c : Ctl) (d a : Spec) (s : State) : Host.Outcome State Fault Refusal :=
  .next (floatLate (.sqrt c d a) c [srcV a] d (fun x l => oneEvent (fSqrt (x.v a l).toNat)) s)
def execExp2 (c : Ctl) (d a : Spec) (s : State) : Host.Outcome State Fault Refusal :=
  .next (floatLate (.exp2 c d a) c [srcV a] d (fun x l => sfuVal .exp2 (x.v a l)) s)
def execLog2 (c : Ctl) (d a : Spec) (s : State) : Host.Outcome State Fault Refusal :=
  .next (floatLate (.log2 c d a) c [srcV a] d (fun x l => sfuVal .log2 (x.v a l)) s)
def execFsin (c : Ctl) (d a : Spec) (s : State) : Host.Outcome State Fault Refusal :=
  .next (floatLate (.fsin c d a) c [srcV a] d (fun x l => sfuVal .sin (x.v a l)) s)
def execFcos (c : Ctl) (d a : Spec) (s : State) : Host.Outcome State Fault Refusal :=
  .next (floatLate (.fcos c d a) c [srcV a] d (fun x l => sfuVal .cos (x.v a l)) s)
def execTanh (c : Ctl) (d a : Spec) (s : State) : Host.Outcome State Fault Refusal :=
  .next (floatLate (.tanh c d a) c [srcV a] d (fun x l => sfuVal .tanh (x.v a l)) s)
def execFdiv (c : Ctl) (rnd : Rnd) (d a b : Spec) (s : State) : Host.Outcome State Fault Refusal :=
  .next (floatLate (.fdiv c rnd d a b) c [srcV a, srcV b] d
    (fun x l => oneEvent (fDiv rnd (x.v a l).toNat (x.v b l).toNat)) s)

/-! ## Conversions and the stochastic generator (R238, R263, R264) -/

/-- A lane's generator. -/
def Ex.gen (x : Ex) (l : Nat) : W32 :=
  match x.body with
  | .crew c => (match c.lanes.getD l none with | some t => t.gen | none => 1)
  | .ap _ => 1

/-- The unit with the generators of the lanes of a mask stepped n times (R238). -/
def Body.stepGen (b : Body) (m : Mask) (n : Nat) : Body :=
  match b with
  | .ap _ => b
  | .crew c =>
    let stepN : W32 → W32 := fun g => (List.range n).foldl (fun g _ => lfsrStep g) g
    .crew { c with lanes := c.lanes.mapIdx (fun l t => bif m.getLsbD l then t.map (fun t => { t with gen := stepN t.gen }) else t) }

/-- How many steps of the generator n elements take. -/
def genSteps (rnd : Rnd) (n : Nat) : Nat := if rnd = .sr then n else 0

/-- `FCVT` of one lane (R263). -/
def fcvtVal (x : Ex) (rnd : Rnd) (sat : Bool) (src dst : Fmt) (a : Spec) (l : Nat) : W64 × List Arith :=
  let r := convert src dst rnd sat (lfsrDraw (lfsrStep (x.gen l))) (if src = .int64 then (x.w a l).toNat else (x.v a l).toNat)
  (regForm dst r.1, r.2.toList)

def execFcvt (c : Ctl) (rnd : Rnd) (sat : Bool) (src dst : Fmt) (d a : Spec) (s : State) : Host.Outcome State Fault Refusal :=
  .next (issue (.fcvt c rnd sat src dst d a) c [dstX (dst == .int64) d, srcX (src == .int64) a] [] .runs (fun x s =>
    let f := fcvtVal x rnd sat src dst a
    withEvents x (eventsOf x.lanes fun l => (f l).2) s fun s =>
      let b := if dst = .int64 then x.body.sendW x.exec d fun l => (f l).1
               else x.body.sendV x.exec d fun l => lo32 (f l).1
      retire x c (b.stepGen x.exec (genSteps rnd 1)) s) s)

/-- `FCVTP` of one lane (R264): `.sr` steps the generator for A, then for B. -/
def fcvtpVal (x : Ex) (rnd : Rnd) (sat : Bool) (dst : Fmt) (slot : BitVec 2) (a b u : Spec) (l : Nat) : W32 × List Arith :=
  let g1 := lfsrStep (x.gen l)
  let ra := convert .fp32 dst rnd sat (lfsrDraw g1) (x.v a l).toNat
  let rb := convert .fp32 dst rnd sat (lfsrDraw (lfsrStep g1)) (x.v b l).toNat
  (placePair dst slot.toNat (x.v u l) ra.1 rb.1, ra.2.toList ++ rb.2.toList)

def execFcvtp (c : Ctl) (rnd : Rnd) (sat : Bool) (dst : Fmt) (slot : BitVec 2) (d a b x : Spec) (s : State) :
    Host.Outcome State Fault Refusal :=
  .next (issue (.fcvtp c rnd sat dst slot d a b x) c [dstV d, srcV a, srcV b, srcV x] [] .runs (fun e s =>
    let f := fcvtpVal e rnd sat dst slot a b x
    withEvents e (eventsOf e.lanes fun l => (f l).2) s fun s =>
      retire e c ((e.body.sendV e.exec d fun l => (f l).1).stepGen e.exec (genSteps rnd 2)) s) s)

end Sys2Proof.Machine
end

