-- ==== Sys2Proof/Machine/Matrix.lean ====
section
/-! DEFINITION. Group 0xC: the matrix slice and its sequencer (R266 to R289). -/

namespace Sys2Proof.Machine

open Sys2Proof

/-! ## Frame addresses (R272) -/

/-- The parts of a range of bytes that lie in one scratchpad's window or slot each, as first address and length; of a range longer than every window
together only so many that one of them lies in none. -/
def padRuns (va n : Nat) : List (Nat × Nat) :=
  (List.range (min 8 ((va + n - 1) / 2 ^ 20 - va / 2 ^ 20 + 1))).filterMap fun k =>
    let lo := max va ((va / 2 ^ 20 + k) * 2 ^ 20)
    let hi := min (va + n) ((va / 2 ^ 20 + k + 1) * 2 ^ 20)
    if lo < hi then some (lo, hi - lo) else none

/-- The first check that a range of frame bytes fails, in the order of R161: each byte lies in the scratchpad that its window or slot names (R272). -/
def frameCheck (s : State) (team : Option Nat) (align va n : Nat) : Option Failed :=
  let runs := padRuns va n
  let pad : Win → Bool := fun w => match w with | .own _ | .slot _ _ => true | _ => false
  if 2 ^ 55 ≤ va then some ⟨1, .addrNoncanon, 0⟩
  else if runs.any fun r => !pad (winOf r.1) then some ⟨2, .addrReserved, 0⟩
  else match runs.findSome? fun r => slotCheck s team (winOf r.1) with
    | some f => some f
    | none =>
      if va % align ≠ 0 then some ⟨5, .misaligned, 0⟩
      else runs.findSome? fun r => padCheck s team (winOf (r.1 + r.2 - 1))

/-- The scratchpad and offset of a checked frame address. -/
def frameAt (s : State) (team : Option Nat) (va : Nat) : Option (Nat × Nat) :=
  match winOf va, team with
  | .own off, some t => some (t, off)
  | .slot c off, some t => (match partnerOf s t c with | some p => some (p, off) | none => none)
  | _, _ => none

/-- The translation fault that a read of a partner's frame meets, with its DETAIL: the partner is absent and a page of its image does not
translate (R288, R423). -/
def frameXlate (s : State) (team : Option Nat) (va : Nat) (acc : AccKind) : Option (Cause × W32) :=
  match frameAt s team va with
  | some (t, off) => (imageError s t off).map fun e => (e.1, xlateDetail e.2 acc)
  | none => none

/-- What keeps bytes from being read now: requests on their way to the partner that holds them. -/
def byteBusy (s : State) (team : Option Nat) (va : Nat) : Option Awaited :=
  match frameAt s team va with
  | some (t, _) => if some t ≠ team ∧ padBusy s t then some (.partner t) else none
  | none => none

/-- Bytes of a frame, and whether any is poisoned. -/
def frameBytes (s : State) (team : Option Nat) (va n : Nat) : List Byte × Bool :=
  let rs := (padRuns va n).map fun r => match frameAt s team r.1 with
    | some (t, off) => ((padRead s t off r.2).1, padPoisoned s t off r.2)
    | none => (List.replicate r.2 0, false)
  ((rs.map (·.1)).flatten, rs.any (·.2))

/-- What keeps frames from being read now: requests on their way to a partner that holds bytes of one, which the issuing threads may have made
themselves (R51, R273, R417). -/
def framesBusy (s : State) (team : Option Nat) (vas : List Nat) : Option Awaited :=
  vas.findSome? fun va => match byteBusy s team va with
    | some o => some o
    | none => byteBusy s team (va + (match FrameFmt.ofCode (ofBytes (frameBytes s team va 1).1 % 64) with | some f => frBytes f | none => 576) - 1)

/-- A frame's size as its header's format gives it, at least `least`. -/
def frameSize (s : State) (team : Option Nat) (va least : Nat) : Nat :=
  match frameCheck s team 64 va 64 with
  | some _ => least
  | none => match FrameFmt.ofCode (ofBytes (frameBytes s team va 1).1 % 64) with
    | some f => if frBits f = 6 then 832 else least
    | none => least

/-- A well-formed frame at an address. -/
def frameRead (s : State) (team : Option Nat) (va n : Nat) : Option Frm :=
  let bs := (frameBytes s team va n).1
  Frm.parse (ofBytes (bs.take 64)) (ofBytes (bs.drop 64))

/-- The earliest failing check of several ranges (alignment, address, bytes), with its address. -/
def frameChecks (s : State) (team : Option Nat) (rs : List (Nat × Nat × Nat)) : Option (Cause × Nat) :=
  let fs := rs.filterMap fun r => match frameCheck s team r.1 r.2.1 r.2.2 with
    | some f => some (f, r.2.1)
    | none => none
  match fs with
  | [] => none
  | e :: r => let m := r.foldl (fun b e => if e.1.rank < b.1.rank then e else b) e; some (m.1.cause, m.2)

/-- The first fault of ranges to read and ranges to write: their checks, then the translation of absent partners' images. -/
def frameReads (s : State) (team : Option Nat) (rs outs : List (Nat × Nat × Nat)) : Option (Cause × Nat) :=
  match frameChecks s team (rs ++ outs) with
  | some e => some e
  | none => rs.findSome? fun r => (spanOf r.2.1 r.2.2).findSome? fun va => (frameXlate s team va .load).map fun e => (e.1, va)

/-- Frames at addresses checked and read: rows 2 and 4 of R278, and poison (R436); the ranges to write are checked with them. -/
def framesIn (s : State) (team : Option Nat) (vas : List Nat) (outs : List (Nat × Nat)) : Except (Cause × Nat) (List Frm) :=
  let rs := vas.map fun va => (64, va, frameSize s team va 576)
  match frameReads s team rs (outs.map fun o => (64, o.1, o.2)) with
  | some e => .error e
  | none => match rs.find? (fun r => (frameBytes s team r.2.1 r.2.2).2) with
    | some r => .error (.poison, r.2.1)
    | none => rs.foldr (fun r acc => match frameRead s team r.2.1 r.2.2, acc with
      | some f, .ok fs => .ok (f :: fs)
      | none, _ => .error (.frameFormat, r.2.1)
      | _, .error e => .error e) (.ok [])

/-- Frame bytes written by a unit: to the own scratchpad, or on their way to a partner's. -/
def frameWrite (s : State) (team : Option Nat) (va : Nat) (u : UnitRef) (bs : List Byte) : State :=
  (padRuns va bs.length).foldl (fun s r =>
    let part := (bs.drop (r.1 - va)).take r.2
    match frameAt s team r.1 with
    | some (t, off) =>
      if some t = team then padWrite s t off part
      else deliver s t { src := unitIdentity s u, writers := writersOf s u, req := .write off part [] }
    | none => s) s

/-! ## Accumulators -/

/-- A specifier of class M. -/
def opM (m : Spec) : Opnd := { cls := .m, code := m, rd := false }

/-- The quarter of an issuing crew. -/
def Ex.quarter (x : Ex) : Nat := match x.body with | .crew c => c.quarterId | .ap _ => 0

def accAt (s : State) (q m : Nat) : Acc := (quarterAt s q).accs.getD m Acc.fresh
def setAcc (s : State) (q m : Nat) (a : Acc) : State :=
  let qs := quarterAt s q
  setQuarter s q { qs with accs := lset qs.accs m a }

/-- Whether a team holds the accumulators of a quarter (R41). -/
def holdsAccs (s : State) (team : Option Nat) (q : Nat) : Bool := team.isSome && (quarterAt s q).holder == team

/-- An accumulator as a team's instruction or run finds it. DESIGN CHOICE (log 56): one that does not hold the quarter's accumulators, which the
spec does not foresee, finds them with VALID clear and keeps nothing there: no state of another team reaches it (R41, R366). -/
def accOf (s : State) (team : Option Nat) (q m : Nat) : Acc := if holdsAccs s team q then accAt s q m else Acc.fresh

/-- An accumulator put back by a team that holds it. -/
def putAcc (s : State) (team : Option Nat) (q m : Nat) (a : Acc) : State := if holdsAccs s team q then setAcc s q m a else s

/-- Whether an accumulator's type is not the one a step wants. -/
def typeClash (a : Acc) (f : FrameFmt) : Bool := a.valid && a.int != frInt f

/-- An instruction on accumulators: it waits while the sequencer owns one of them (R267), then acts. -/
def onAccs (i : Instr) (ms : List Nat) (x : Ex) (s : State) (k : State) : State :=
  match ms.find? (fun m => (accOf s (teamOf s x.ref) x.quarter m).inflight) with
  | some m => waitEx x (.accumulator m) i s
  | none => k

/-- A fault of an instruction that acts once for its group, with the DETAIL of a translation fault (R403). -/
def faultOnce (x : Ex) (e : Cause × Nat) (s : State) : State :=
  faultUnit s x.ref x.grp.mask x.pc
    { cause := e.1, addr := BitVec.ofNat 64 e.2, mask := x.exec, exact := false
      detail := match frameXlate s (teamOf s x.ref) e.2 .load with | some f => if f.1 = e.1 then f.2 else 0 | none => 0 }

/-- An instruction that reads frames: it waits while a request is on its way to one, then acts. -/
def onFrames (i : Instr) (vas : List Nat) (x : Ex) (s : State) (k : State) : State :=
  match framesBusy s (teamOf s x.ref) vas with
  | some obj => waitEx x obj i s
  | none => k

/-- The parity errors that a read of an accumulator meets (R434, R436). -/
def accParity (s : State) (q m : Nat) : List Parity := s.parity.filter fun p => p.acc == some (q, m)

/-- Those errors met by an instruction that reads accumulators: POISON where a re-read does not clear them (R436). -/
def readAccs (ms : List Nat) (x : Ex) (s : State) (k : State → State) : State :=
  let ps := ms.flatMap (accParity s x.quarter)
  if ps.any fun p => !p.reread then faultOnce x (.poison, 0) (metParity s ps) else k (metParity s ps)

def execMzero (c : Ctl) (s32 : Bool) (m : Spec) (s : State) : Host.Outcome State Fault Refusal :=
  .next (issue (.mzero c s32 m) c [opM m] [] .aborts (fun x s =>
    onAccs (.mzero c s32 m) [m.toNat] x s
      (retire x c x.body (putAcc s (teamOf s x.ref) x.quarter m.toNat
        { accOf s (teamOf s x.ref) x.quarter m.toNat with valid := false, dirty := false, int := s32 }))) s)

/-- The frame address of `MLD` and `MST`. -/
def frameVa (x : Ex) (a : Spec) (off : W32) : Nat := (x.w a x.low + off.signExtend 64).toNat

def execMld (c : Ctl) (m a : Spec) (off : W32) (s : State) : Host.Outcome State Fault Refusal :=
  .next (issue (.mld c m a off) c [opM m, srcW a] [] .aborts (fun x s =>
    let va := frameVa x a off
    let team := teamOf s x.ref
    onAccs (.mld c m a off) [m.toNat] x s <| onFrames (.mld c m a off) [va] x s
      (match frameReads s team [(64, va, 1088)] [] with
      | some e => faultOnce x e s
      | none =>
        if (frameBytes s team va 1088).2 then faultOnce x (.poison, va) s
        else match frameRead s team va 1088 with
          | some f =>
            if f.role = .acc then retire x c x.body (putAcc s (teamOf s x.ref) x.quarter m.toNat (accLoad f (accOf s (teamOf s x.ref) x.quarter m.toNat)))
            else faultOnce x (.frameFormat, va) s
          | none => faultOnce x (.frameFormat, va) s)) s)

def execMst (c : Ctl) (a m : Spec) (off : W32) (s : State) : Host.Outcome State Fault Refusal :=
  .next (issue (.mst c a m off) c [srcW a, opM m] [] .aborts (fun x s =>
    let va := frameVa x a off
    let team := teamOf s x.ref
    let q := x.quarter
    onAccs (.mst c a m off) [m.toNat] x s <| readAccs [m.toNat] x s fun s =>
      (match frameChecks s team [(64, va, 1088)] with
      | some e => faultOnce x e s
      | none =>
        let acc := accOf s (teamOf s x.ref) q m.toNat
        retire x c x.body (putAcc (frameWrite s team va x.ref (accFrame acc)) team q m.toNat { acc with dirty := false }))) s)

/-! ## Single steps (R280) -/

/-- Whether A and B serve one dense step. -/
def denseOk (a b : Frm) : Bool := a.role == .a && !a.sparse && b.role == .b && frCls a.fmt == frCls b.fmt
/-- Whether a value frame and B serve one step under metadata. -/
def sparseOk (a b : Frm) : Bool := a.role == .a && a.sparse && b.role == .b && frCls a.fmt == frCls b.fmt

/-- The address that FRAME_FORMAT names of two frames that serve no step together: B's where A alone is in order, else A's (log 55). -/
def misfit (sparse : Bool) (a b : Frm) (va vb : Nat) : Nat := if a.role == .a && a.sparse == sparse && b.role != .b then vb else va

def execMma (c : Ctl) (sat : Bool) (m a b : Spec) (s : State) : Host.Outcome State Fault Refusal :=
  .next (issue (.mma c sat m a b) c [opM m, srcW a, srcW b] [] .aborts (fun x s =>
    let va := (x.w a x.low).toNat
    let q := x.quarter
    onAccs (.mma c sat m a b) [m.toNat] x s <| onFrames (.mma c sat m a b) [va, (x.w b x.low).toNat] x s <| readAccs [m.toNat] x s fun s =>
      (match framesIn s (teamOf s x.ref) [va, (x.w b x.low).toNat] [] with
      | .error e => faultOnce x e s
      | .ok (fa :: fb :: _) =>
        let acc := accOf s (teamOf s x.ref) q m.toNat
        if !denseOk fa fb then faultOnce x (.frameFormat, misfit false fa fb va (x.w b x.low).toNat) s
        else if typeClash acc fa.fmt then faultOnce x (.mmaType, 0) s
        else
          let r := stepAcc sat fa.asA fb acc
          withEvents x (r.2.map fun e => (e, x.exec)) s fun s => retireEnd x c x.body (putAcc s (teamOf s x.ref) q m.toNat r.1)
      | .ok _ => s)) s)

/-- The metadata words of a half: the low or the odd register of C in each participating lane, zero elsewhere. -/
def metaWords (x : Ex) (x2 : Bool) (v : Spec) (h l : Nat) : W32 :=
  if x.exec.getLsbD l then (if x2 then (let w := x.w v l; if h = 0 then lo32 w else hi32 w) else x.v v l) else 0

/-- Whether any group of a half's metadata is malformed. -/
def halfBad (w : Nat → W32) : Bool := (List.range 16).any fun i => (List.range 4).any fun q => metaBad (metaAt w i q)

/-- The width check of `MMAS` and `MCOMP`: the kernel declares the width 32 (R19, R278); one that declares none has crews of 32 and faults. -/
def notW32 (s : State) (x : Ex) : Bool := match kernelOf s (gridOf s x.ref) with | some k => k.width != 32 | none => true

def execMmas (c : Ctl) (sat x2 : Bool) (m a b v : Spec) (s : State) : Host.Outcome State Fault Refusal :=
  .next (issue (.mmas c sat x2 m a b v) c [opM m, srcW a, srcW b, srcX x2 v] [] .aborts (fun x s =>
    let va := (x.w a x.low).toNat
    let vb := (x.w b x.low).toNat
    let q := x.quarter
    let vas := if x2 then [va, vb, (va + 576) % 2 ^ 64, (vb + 576) % 2 ^ 64] else [va, vb]
    onAccs (.mmas c sat x2 m a b v) [m.toNat] x s <| onFrames (.mmas c sat x2 m a b v) vas x s <| readAccs [m.toNat] x s fun s =>
      (if notW32 s x then faultOnce x (.illegalWidth, 0) s
      else match framesIn s (teamOf s x.ref) vas [] with
        | .error e => faultOnce x e s
        | .ok fs =>
          let halves := match fs with
            | a0 :: b0 :: a1 :: b1 :: _ => [(a0, b0, 0), (a1, b1, 1)]
            | a0 :: b0 :: _ => [(a0, b0, 0)]
            | _ => []
          let acc := accOf s (teamOf s x.ref) q m.toNat
          if let some h := halves.find? fun h => !sparseOk h.1 h.2.1 then
            faultOnce x (.frameFormat, misfit true h.1 h.2.1 (va + 576 * h.2.2) (vb + 576 * h.2.2)) s
          else if (halves.any fun h => typeClash acc h.1.fmt) || (halves.any fun h => halves.any fun k => frInt h.1.fmt != frInt k.1.fmt) then
            faultOnce x (.mmaType, 0) s
          else if halves.any fun h => halfBad (metaWords x x2 v h.2.2) then faultOnce x (.sparseMeta, 0) s
          else
            let r := halves.foldl (fun acc h =>
              let t := stepAcc sat (sparseA h.1 (metaWords x x2 v h.2.2)) h.2.1 acc.1
              (t.1, acc.2 ++ t.2)) ((acc, []) : Acc × List Arith)
            withEvents x (r.2.eraseDups.map fun e => (e, x.exec)) s fun s => retireEnd x c x.body (putAcc s (teamOf s x.ref) q m.toNat r.1))) s)

/-! ## MCOMP and MQNT -/

def execMcomp (c : Ctl) (d a b : Spec) (s : State) : Host.Outcome State Fault Refusal :=
  .next (issue (.mcomp c d a b) c [dstV d, srcW a, srcW b] [] .aborts (fun x s =>
    let va := (x.w a x.low).toNat
    let vb := (x.w b x.low).toNat
    let team := teamOf s x.ref
    onFrames (.mcomp c d a b) [va] x s
      (if notW32 s x then faultOnce x (.illegalWidth, 0) s
      else match framesIn s team [va] [(vb, 576)] with
        | .error e => faultOnce x e s
        | .ok (f :: _) =>
          if f.role != .a || f.sparse || !frSparse f.fmt then faultOnce x (.frameFormat, va) s
          else
            let r := pruneFrame f
            retire x c (x.body.sendV x.exec d r.2) (frameWrite s team vb x.ref r.1)
        | .ok [] => s)) s)

/-- The accumulators that `MQNT` reads (R284). -/
def quantAccs (fmt : FrameFmt) (m : Spec) : List Nat := (List.range (frKt fmt / 16)).map (m.toNat + ·)

/-- The unit with a lane's generator put back. -/
def Body.setGen (b : Body) (l : Nat) (g : W32) : Body :=
  match b with
  | .ap _ => b
  | .crew c => .crew { c with lanes := lset c.lanes l ((c.lanes.getD l none).map fun t => { t with gen := g }) }

def execMqnt (c : Ctl) (rnd : Rnd) (role : Role) (fmt : FrameFmt) (m b : Spec) (s : State) : Host.Outcome State Fault Refusal :=
  .next (let ms := quantAccs fmt m
    issue (.mqnt c rnd role fmt m b) c [opM m, srcW b] (if m.toNat % ms.length = 0 then [] else [.illegalReg]) .aborts (fun x s =>
      let vb := (x.w b x.low).toNat
      let team := teamOf s x.ref
      let q := x.quarter
      onAccs (.mqnt c rnd role fmt m b) ms x s <| readAccs ms x s fun s =>
        (match frameChecks s team [(64, vb, frBytes fmt)] with
        | some e => faultOnce x e s
        | none =>
          if ms.any fun i => (accOf s team q i).int then faultOnce x (.mmaType, 0) s
          else
            let src : Nat → Nat → Nat := fun r k =>
              let acc := accOf s team q (m.toNat + k / 16)
              (match role with | .a => acc.read r (k % 16) | _ => acc.read (k % 16) r).toNat
            let r := quantFrame fmt role rnd src (x.gen x.low)
            withEvents x (if r.2.1 then [(.quantSpecial, x.exec)] else []) s fun s =>
              retire x c (x.body.setGen x.low r.2.2) (frameWrite s team vb x.ref r.1))) s)
/-! ## MSTAT and FSETM -/

/-- The status word of an accumulator, with the run that its sequencer has (R285). -/
def accStatus (acc : Acc) (run : Option Run) (m : Nat) : W32 :=
  let next := match run with
    | some r => if acc.inflight && r.m == m then r.next else 0
    | none => 0
  BitVec.ofNat 32 (next * 16 + (if acc.int then 8 else 0) + (if acc.inflight then 4 else 0) + (if acc.dirty then 2 else 0)
    + (if acc.valid then 1 else 0))

/-- The status word of an accumulator of a quarter (R285). -/
def tileStatus (s : State) (team : Option Nat) (q m : Nat) : W32 := accStatus (accOf s team q m) (quarterAt s q).run m

def execMstat (c : Ctl) (d m : Spec) (s : State) : Host.Outcome State Fault Refusal :=
  .next (issue (.mstat c d m) c [dstV d, opM m] [] .aborts (fun x s =>
    retire x c (x.body.sendV x.exec d fun _ => tileStatus s (teamOf s x.ref) x.quarter m.toNat) s) s)

def execFsetm (c : Ctl) (wide : Bool) (f a : Spec) (s : State) : Host.Outcome State Fault Refusal :=
  .next (issue (.fsetm c wide f a) c [{ cls := .f, code := f, rd := false }, if wide then srcW a else srcP a] [] .aborts (fun x s =>
    match x.body with
    | .crew cr =>
      let v : W64 := if wide then x.w a x.low else maskOf (x.lanes.filter fun l => x.p a l)
      retire x c (.crew { cr with f := lset cr.f f.toNat v }) s
    | .ap _ => retire x c x.body s) s)

/-! ## Runs (R282, R283) -/

/-- The addresses of a run's frames at a step. -/
def runVa (base : Addr) (inc : BitVec 16) (i : Nat) : Nat := (base + BitVec.ofInt 64 (64 * (i : Int) * inc.toInt)).toNat

/-- Whether a step of a run is skipped under its mask. -/
def runSkips (mask : Option Mask) (i : Nat) : Bool := match mask with | some m => !m.getLsbD i | none => false

/-- What an accepted run waits for, if anything: its accumulator, the sequencer, its token's batch. -/
def runWaits (s : State) (x : Ex) (m : Nat) (tv : Bool) (tok : Nat) : Option Awaited :=
  if (accOf s (teamOf s x.ref) x.quarter m).inflight then some (.accumulator m)
  else if (quarterAt s x.quarter).run.isSome then some .sequencer
  else if tv && (tokenAt x.body tok).assignFull then some (.tokenRoom tok)
  else match releaseObject s x.ref .cluster with
    | some o => some o
    | none => none

/-- A run starts (R273, R282): a release, INFLIGHT set, its operation assigned; its region ends. -/
def startRun (x : Ex) (c : Ctl) (tv : Bool) (tok : Nat) (partner : Bool) (mk : Issuer → Run) (s : State) : State :=
  let b := assignToken x.body tv tok
  let r := mk (issuerOf s x b.2)
  let s1 := if partner then releaseAt s (coreOf s x.ref) .cluster else s
  let q := x.quarter
  let s2 := putAcc s1 r.by_.team q r.m { accOf s1 r.by_.team q r.m with inflight := true }
  retireEnd x c b.1 (setQuarter s2 q { quarterAt s2 q with run := some r })

def execMloop (c : Ctl) (sat : Bool) (m a b : Spec) (fv : Bool) (f : BitVec 3) (tv : Bool) (tok : BitVec 3) (n : BitVec 12)
    (inca incb : BitVec 16) (s : State) : Host.Outcome State Fault Refusal :=
  .next (issue (.mloop c sat m a b fv f tv tok n inca incb) c [opM m, srcW a, srcW b] [] .aborts (fun x s =>
    match runWaits s x m.toNat tv tok.toNat with
    | some obj => waitEx x obj (.mloop c sat m a b fv f tv tok n inca incb) s
    | none =>
      let team := teamOf s x.ref
      let ba := x.w a x.low
      let bb := x.w b x.low
      let mask := if fv then (match x.body with | .crew cr => some (cr.f.getD f.toNat 0) | .ap _ => none) else none
      let ends := [0, n.toNat - 1].flatMap fun i => [runVa ba inca i, runVa bb incb i]
      onFrames (.mloop c sat m a b fv f tv tok n inca incb) ends x s <|
      match frameChecks s team (ends.map fun va => (64, va, frameSize s team va 576)) with
      | some e => faultOnce x e s
      | none =>
        let first := (List.range n.toNat).find? fun i => !runSkips mask i
        let bad : Option (Cause × Nat) := match first with
          | none => none
          | some i => match framesIn s team [runVa ba inca i, runVa bb incb i] [] with
            | .error e => some e
            | .ok (fa :: fb :: _) =>
              if !denseOk fa fb then some (.frameFormat, misfit false fa fb (runVa ba inca i) (runVa bb incb i))
              else if typeClash (accOf s (teamOf s x.ref) x.quarter m.toNat) fa.fmt then some (.mmaType, 0) else none
            | .ok _ => none
        match bad with
        | some e => faultOnce x e s
        | none => startRun x c tv tok.toNat (slotHit ba.toNat 1 || slotHit bb.toNat 1)
          (fun by_ => { by_, m := m.toNat, sat, a := ba, b := bb, inca, incb, n := n.toNat, mask, conv := none, next := 0
                        stopped := false }) s) s)

/-- A convolution descriptor's fields; none outside its limits (R283). -/
def convOf (v : Nat) : Option ConvDesc :=
  match FrameFmt.ofCode (v / 2 ^ 56 % 64) with
  | none => none
  | some fmt =>
    let d : ConvDesc :=
      { scales := BitVec.ofNat 64 (v / 2 ^ 128), padY := v / 2 ^ 104 % 256, padX := v / 2 ^ 96 % 256, y0 := v / 2 ^ 80 % 2 ^ 16
        x0 := v / 2 ^ 64 % 2 ^ 16, fmt, sy := v / 2 ^ 52 % 16, sx := v / 2 ^ 48 % 16, kw := v / 2 ^ 44 % 16, kh := v / 2 ^ 40 % 16
        cb := v / 2 ^ 32 % 256, h := v / 2 ^ 16 % 2 ^ 16, w := v % 2 ^ 16 }
    let bad := v / 2 ^ 192 % 2 ^ 320 != 0 || v / 2 ^ 112 % 2 ^ 16 != 0 || v / 2 ^ 62 % 4 != 0 || frCls fmt == .acc || frBits fmt == 6
      || d.sy == 0 || d.sx == 0 || d.kw == 0 || d.kh == 0 || d.cb == 0 || d.h == 0 || d.w == 0
      || decide (4095 < d.kw * d.kh * d.cb) || (frMx fmt != (d.scales != 0))
    if bad then none else some d

/-- Bytes of a pixel vector. -/
def ConvDesc.vb (d : ConvDesc) : Nat := frKt d.fmt * frBits d.fmt / 8
/-- Steps of a convolution. -/
def ConvDesc.steps (d : ConvDesc) : Nat := d.kh * d.kw * d.cb

/-- The pixel that row j of step i reads, as an index of pixel vectors; none for padding (R283). -/
def ConvDesc.pixel (d : ConvDesc) (i j : Nat) : Option Nat :=
  let cb := i % d.cb
  let kx := i / d.cb % d.kw
  let ky := i / d.cb / d.kw
  let ix : Int := ((d.x0 + j) * d.sx + kx : Nat) - (d.padX : Int)
  let iy : Int := (d.y0 * d.sy + ky : Nat) - (d.padY : Int)
  if 0 ≤ ix ∧ ix < d.w ∧ 0 ≤ iy ∧ iy < d.h then some ((cb * d.h + iy.toNat) * d.w + ix.toNat) else none

def execMconv (c : Ctl) (sat : Bool) (m a b v : Spec) (tv : Bool) (tok : BitVec 3) (s : State) : Host.Outcome State Fault Refusal :=
  .next (issue (.mconv c sat m a b v tv tok) c [opM m, srcW a, srcW b, srcV v] [] .aborts (fun x s =>
    match runWaits s x m.toNat tv tok.toNat with
    | some obj => waitEx x obj (.mconv c sat m a b v tv tok) s
    | none =>
      let team := teamOf s x.ref
      let ba := x.w a x.low
      let bb := x.w b x.low
      let off := (x.v v x.low).toNat
      let dva := ownWindow + off
      onFrames (.mconv c sat m a b v tv tok) [ba.toNat, bb.toNat] x s <|
      if off % 64 ≠ 0 then faultOnce x (.misaligned, dva) s
      else if allocOf s team < off + 64 then faultOnce x (.scratchBounds, dva) s
      else if (frameBytes s team dva 64).2 then faultOnce x (.poison, dva) s
      else match convOf (ofBytes (frameBytes s team dva 64).1) with
        | none => faultOnce x (.convDesc, dva) s
        | some d =>
          let px := d.cb * d.h * d.w
          let size := frameSize s team bb.toNat 576
          let rs := [(64, ba.toNat, px * d.vb), (64, bb.toNat, d.steps * size)]
            ++ (if frMx d.fmt then [(1, d.scales.toNat, px * (frKt d.fmt / 32))] else [])
          match frameChecks s team rs with
          | some e => faultOnce x e s
          | none => match framesIn s team [bb.toNat] [] with
            | .error e => faultOnce x e s
            | .ok (fb :: _) =>
              if fb.role != .b || frCls fb.fmt != frCls d.fmt then faultOnce x (.frameFormat, bb.toNat) s
              else if typeClash (accOf s (teamOf s x.ref) x.quarter m.toNat) d.fmt then faultOnce x (.mmaType, 0) s
              else startRun x c tv tok.toNat (slotHit ba.toNat 1 || slotHit bb.toNat 1 || slotHit d.scales.toNat 1)
                (fun by_ => { by_, m := m.toNat, sat, a := ba, b := bb, inca := 0, incb := BitVec.ofNat 16 (size / 64)
                              n := d.steps, mask := none, conv := some d, next := 0, stopped := false }) s
            | .ok [] => s) s)

/-! ## SEQUENCER_STEP (R282, R288) -/

/-- The A operand of a convolution's step: the bytes of its pixel vectors and scales, or the fault of one. -/
def convA (s : State) (team : Option Nat) (a : Addr) (d : ConvDesc) (i : Nat) : Except (Cause × Nat) StepA :=
  let vb := d.vb
  let nb := frKt d.fmt / 32
  let px := (List.range 16).map (d.pixel i)
  let at_ : Nat → Nat := fun p => (a.toNat + p * vb) % 2 ^ 64
  let sc : Nat → Nat := fun p => (d.scales.toNat + p * nb) % 2 ^ 64
  let ps := px.filterMap id
  let rs := ps.map (fun p => (1, at_ p, vb)) ++ (if frMx d.fmt then ps.map (fun p => (1, sc p, nb)) else [])
  match frameReads s team rs [] with
  | some e => .error e
  | none => match rs.find? (fun r => (frameBytes s team r.2.1 r.2.2).2) with
    | some r => .error (.poison, r.2.1)
    | none =>
      let rows := px.map fun p => p.map fun p =>
        (ofBytes (frameBytes s team (at_ p) vb).1, if frMx d.fmt then ofBytes (frameBytes s team (sc p) nb).1 else 0)
      .ok { fmt := d.fmt
            elem := fun r k => (rows.getD r none).map fun v => elemAt (frBits d.fmt) v.1 k
            scale := fun r b => match rows.getD r none with | some v => elemAt 8 v.2 b | none => 0 }

/-- The step that a run performs next, or the fault it meets. -/
def runStep (s : State) (q : Nat) (r : Run) : Except (Cause × Nat) (Acc × List Arith) :=
  let team := r.by_.team
  let acc := accOf s team q r.m
  match r.conv with
  | none => match framesIn s team [runVa r.a r.inca r.next, runVa r.b r.incb r.next] [] with
    | .error e => .error e
    | .ok (fa :: fb :: _) =>
      if !denseOk fa fb then .error (.frameFormat, misfit false fa fb (runVa r.a r.inca r.next) (runVa r.b r.incb r.next))
      else if typeClash acc fa.fmt then .error (.mmaType, runVa r.a r.inca r.next)
      else .ok (stepAcc r.sat fa.asA fb acc)
    | .ok _ => .error (.frameFormat, 0)
  | some d => match framesIn s team [runVa r.b r.incb r.next] [] with
    | .error e => .error e
    | .ok (fb :: _) =>
      if fb.role != .b || frCls fb.fmt != frCls d.fmt then .error (.frameFormat, runVa r.b r.incb r.next)
      else if typeClash acc d.fmt then .error (.mmaType, runVa r.b r.incb r.next)
      else (match convA s team r.a d r.next with
        | .error e => .error e
        | .ok a => .ok (stepAcc r.sat a fb acc))
    | .ok [] => .error (.frameFormat, 0)

/-- Events of the run of a quarter (R245). -/
def noteRun (s : State) (q : Nat) (r : Run) (es : List Arith) : State :=
  es.foldl (fun s e => aeNote s (q / 4)
    { ctx := r.by_.ctx, grid := r.by_.grid, subject := identity 2 (q / 4) (q % 4) 0x3FF 0, cause := e, lanes := r.by_.lanes
      count := 1, team := teamIndex s r.by_.team, pc := r.by_.pc, core := q / 4, crew := r.by_.crewNum, ap := false
      exact := true, engine := true, stamp := BitVec.ofNat 32 (coreClock s (q / 4)), opened := s.clock }) s

/-- A run that has passed its last step ends: INFLIGHT clears, then its token operation completes. -/
def endRun (s : State) (q : Nat) (r : Run) (err : Bool) : State :=
  let s1 := putAcc s r.by_.team q r.m { accOf s r.by_.team q r.m with inflight := false }
  completeToken (setQuarter s1 q { quarterAt s1 q with run := none }) r.by_ (identity 2 (q / 4) (q % 4) 0x3FF 0) err

/-- A run moved past its step. -/
def advanceRun (s : State) (q : Nat) (r : Run) : State :=
  if r.n ≤ r.next + 1 then endRun s q r false
  else setQuarter s q { quarterAt s q with run := some { r with next := r.next + 1, absent := false } }

/-- A quarter counted from the base quarter of a team: what names it wherever the team goes. -/
def relQuarter (s : State) (team : Option Nat) (q : Nat) : Nat :=
  match team with
  | some t => (match tget s.teams t with | some tm => (q + 4 - tm.qb) % 4 | none => q)
  | none => q

/-- A run's team has its place on the core. -/
def runHere (s : State) (r : Run) : Bool :=
  match r.by_.team with
  | some t => (match tget s.teams t with | some tm => tm.place == .resident | none => false)
  | none => true

/-- Whether a request is on its way to a frame that a run's next step reads (R273, R417). -/
def runBusy (s : State) (r : Run) : Bool :=
  (framesBusy s r.by_.team (match r.conv with
    | none => [runVa r.a r.inca r.next, runVa r.b r.incb r.next]
    | some d => runVa r.b r.incb r.next :: ((padRuns r.a.toNat (d.cb * d.h * d.w * d.vb)).map (·.1)
        ++ (if frMx d.fmt then (padRuns d.scales.toNat (d.cb * d.h * d.w * (frKt d.fmt / 32))).map (·.1) else [])))).isSome

/-- SEQUENCER_STEP: one step, skipped under the mask, performed once no request is on its way to its frames, or stopped at a fault with a record
(R288). -/
def execSequencerStep (q : Nat) (s : State) : Host.Outcome State Fault Refusal :=
  .next (match (quarterAt s q).run with
    | none => s
    | some r =>
      if r.stopped || !runHere s r then s
      else if runSkips r.mask r.next then advanceRun s q r
      else if runBusy s r then s
      else
        let ps := accParity s q r.m
        let s := metParity s ps
        match (if ps.any fun p => !p.reread then .error (.poison, 0) else runStep s q r) with
        | .ok (acc, es) => advanceRun (noteRun (putAcc s r.by_.team q r.m acc) q r es) q r
        | .error e =>
          let t := takeAsync s r.by_.grid
            { FRec.blank with
              cause := e.1, addr := BitVec.ofNat 64 e.2, pc := r.by_.pc, info := BitVec.ofNat 64 r.next
              team := teamIndex s r.by_.team, subject := identity 2 (q / 4) (q % 4) 0x3FF 0, held := true, absent := r.absent
              detail := match frameXlate s r.by_.team e.2 .eread with | some f => if f.1 = e.1 then f.2 else 0 | none => 0
              who := .run r.by_.team (relQuarter s r.by_.team q) }
          setQuarter t.2 q { quarterAt t.2 q with run := some { r with stopped := true } })

/-- ACCUMULATOR_RELEASE (R267): a group that waits for an accumulator or for the sequencer can go on. -/
def execAccumulatorRelease (u : UnitRef) (s : State) : Host.Outcome State Fault Refusal :=
  .next (match waitingAt s u, u with
    | some w, .crew uid _ => (match tget s.crews uid with
      | none => s
      | some c => match w.obj with
        | .accumulator m => if (accOf s (teamOf s u) c.quarterId m).inflight then s else clearWait s u
        | .sequencer => if (quarterAt s c.quarterId).run.isSome then s else clearWait s u
        | _ => s)
    | _, _ => s)

end Sys2Proof.Machine
end

