-- ==== Sys2Proof/Machine/Work.lean ====
section
/-! DEFINITION. Group 0xE: launches from the device (R333, R337, R349), spawn pools, deques and their spill (R345 to R347, R369), and
the events that make spawned threads and move records (R27, R348). -/

namespace Sys2Proof.Machine

open Sys2Proof

/-! ## Entering a launch queue (R333, R334, R337) -/

/-- MSI-X vectors raised by the host port (R333, R376). -/
def raiseMsix (s : State) (v : Nat) : State := { s with host := { s.host with msix := s.host.msix ++ [v] } }

/-- A launch dropped because its DONE can hold no refusal: counted, LOST set, and reported where its fault domain can be read (R337). -/
def dropLaunch (s : State) (ctx q : Nat) (p : Packet) : State :=
  let was := match tget s.queues q with | some lq => lq.lost | none => true
  let s1 := modQueue s q fun lq => { lq with dropped := min (lq.dropped + 1) 0xFFFF, lost := true }
  let s2 := if was then s1 else raiseMsix s1 61
  match fdomOf ctx 8 p.zcb s2 with
  | none => s2
  | some (a, v, s3) =>
    let d := domainFor (bindDomain s3 ctx a v) ctx a
    let n := takeUid d.2
    addRecord n.2 d.1
      { FRec.blank with
        cause := .launchInvalid, addr := p.done, team := BitVec.allOnes 64, subject := identity 3 0 0 0x3FF q, async := true
        who := .launch q, uid := n.1 }

/-- A completion object written with a state and a code, where it lies in the global window and can be written. -/
def packetDone (s : State) (ctx : Nat) (p : Packet) (state code : Nat) : Option State :=
  if p.done.toNat % 16 ≠ 0 then none
  else match blockWrite s ctx p.done.toNat (doneBytes s state code) with
    | .ok s1 => some s1
    | .error _ => none

/-- A packet that the scheduler takes into a queue: STATE 0 is written, or the launch is dropped (R334, R336, R337). -/
def enqueue (s : State) (ctx q : Nat) (p : Packet) (issuer : Option Issuer) : State :=
  match packetDone s ctx p 0 0 with
  | none => dropLaunch s ctx q p
  | some s1 =>
    let s2 := { s1 with nums := { s1.nums with order := s1.nums.order + 1 } }
    modQueue s2 q fun lq => { lq with pending := lq.pending ++ [{ packet := p, order := s1.nums.order, issuer, since := s.clock, probe := s.clock + 65536 }] }

/-! ## LAUNCH (R349) -/

/-- Step 1 of `LAUNCH` for one packet address: the place of the failed check in the order of R161, and the fault. -/
def packetCheck (s : State) (ctx va : Nat) : Option (Nat × EngFail) :=
  if 0x80000000000000 ≤ va then some (1, .at .addrNoncanon va)
  else match winOf va with
    | .global =>
      if va % 64 ≠ 0 then some (5, .at .misaligned va)
      else (match blockAt s ctx va .load with
        | .error e => some (7, blockFail va .load e)
        | .ok _ => match blockAt s ctx (va + 64) .load with
          | .error e => some (7, blockFail va .load e)
          | .ok _ => none)
    | _ => some (2, .at .addrReserved va)

/-- The first failing check over lanes: its fault at the lowest failing lane, and the lanes that fail the same check. -/
def firstFail (ls : List (Nat × Option (Nat × EngFail))) : Option (EngFail × Mask) :=
  let fails := ls.filterMap fun e => e.2.map fun f => (e.1, f)
  match fails with
  | [] => none
  | f :: r =>
    let best := r.foldl (fun (b : Nat × Nat × EngFail) e => if e.2.1 < b.2.1 then e else b) f
    some (best.2.2, maskOf ((fails.filter fun e => e.2.1 == best.2.1 && e.2.2.cause == best.2.2.cause).map (·.1)))

/-- The packets of lanes, read and bound in ascending lane; or the first that cannot be (R293). -/
def packetsRead (x : Ex) (ctx core : Nat) (a : Spec) : List Nat → State → Except (EngFail × Nat) (List (Nat × Packet) × State)
  | [], s => .ok ([], s)
  | l :: r, s =>
    let va := (x.w a l).toNat
    match bindDesc s ctx core va 128 with
    | .error e => .error (blockFail va .load e, l)
    | .ok (v, s1) => match packetsRead x ctx core a r s1 with
      | .error e => .error e
      | .ok (ps, s2) => .ok ((l, packetOf v false) :: ps, s2)

/-- Whether a DONE address is 16-byte aligned in the global window. -/
def doneOk (p : Packet) : Bool := p.done.toNat % 16 == 0 && winOf p.done.toNat == .global

/-- Packets entered in ascending lane until one finds its queue full: the lanes entered, and the queue that is full. A packet of a queue
that is not its context's is refused in its completion object; launches that a doorbell announced before it enter first (R333). -/
def launchLanes (ctx : Nat) (by_ : Issuer) : List (Nat × Packet) → State → Mask → State × Mask × Option Nat
  | [], s, m => (s, m, none)
  | (l, p) :: r, s, m =>
    let m1 := m ||| (1#64 <<< l)
    match tget s.queues p.queue with
    | none => launchLanes ctx by_ r ((packetDone s ctx p 4 5).getD s) m1
    | some lq =>
      if lq.ctx ≠ some ctx then launchLanes ctx by_ r ((packetDone s ctx p 4 5).getD s) m1
      else if 64 ≤ lq.pending.length ∨ lq.head ≠ lq.tail then (s, m, some p.queue)
      else launchLanes ctx by_ r (enqueue s ctx p.queue p (some by_)) m1

/-- The single token operation of an instruction that serves its lanes one by one, assigned at its first issue (R185, R349). -/
def ownOp (x : Ex) (cmd : CmdByte) : Body × Option (Nat × Nat) :=
  match x.grp.op with
  | some o => (x.body, some o)
  | none => assignToken x.body cmd.tv cmd.tok.toNat

/-- Whether the token has no room for that operation yet. -/
def opFull (x : Ex) (cmd : CmdByte) : Bool := x.grp.op.isNone && cmd.tv && (tokenAt x.body cmd.tok.toNat).assignFull

/-- The instruction waits at an object with some lanes served, or ends: its token operation is complete and its region ends. -/
def serveEnd (x : Ex) (c : Ctl) (i : Instr) (b : Body) (op : Option (Nat × Nat)) (done : Mask) (stuck : Option Awaited) (s : State) :
    State :=
  match stuck with
  | some obj => waitEx x obj i (putBody s x.ref (setGroups b x.ref [{ x.grp with served := done, op }]))
  | none =>
    let b1 := match op with
      | some (tok, batch) => b.setToks (completeIn b.toks tok batch false)
      | none => b
    retireEnd x c b1 s

/-- Step 4 of `LAUNCH` over the packets of the lanes not served yet: those that go on waiting keep the packets bound for them. -/
def launchEnter (i : Instr) (c : Ctl) (cmd : CmdByte) (x : Ex) (ps : List (Nat × Packet)) (s : State) : State :=
  if opFull x cmd then waitEx x (.tokenRoom cmd.tok.toNat) i s
  else match releaseObject s x.ref .device with
    | some obj => waitEx x obj i s
    | none =>
      let o := ownOp x cmd
      let r := launchLanes (ctxOf s x.ref) (issuerOf s x o.2) ps (releaseAt s (coreOf s x.ref) .l2) x.grp.served
      let left := { x with grp := { x.grp with packets := ps.filter fun e => !r.2.1.getLsbD e.1 } }
      serveEnd left c i o.1 o.2 r.2.1 (r.2.2.map Awaited.launchQueue) r.1

/-- `LAUNCH` of the lanes not served yet: steps 1 to 3 once, before the first lane is served (R349). -/
def launchWork (i : Instr) (c : Ctl) (a : Spec) (cmd : CmdByte) (x : Ex) (s : State) : State :=
  let ctx := ctxOf s x.ref
  let core := coreOf s x.ref
  if !x.grp.packets.isEmpty then launchEnter i c cmd x x.grp.packets s
  else match firstFail (x.lanes.map fun l => (l, packetCheck s ctx (x.w a l).toNat)) with
    | some f => failEx x f.1 f.2 s
    | none => match packetsRead x ctx core a x.lanes s with
      | .error f => failEx x f.1 (1#64 <<< f.2) s
      | .ok (ps, s1) =>
        match ps.filter fun e => !doneOk e.2 with
        | e :: r => faultEx x .launchInvalid e.2.done (maskOf ((e :: r).map (·.1))) s1
        | [] => launchEnter i c cmd x ps s1

def execLaunch (c : Ctl) (a : Spec) (cmd : CmdByte) (s : State) : Host.Outcome State Fault Refusal :=
  .next (issue (.launch c a cmd) c [srcW a] [] .aborts (launchWork (.launch c a cmd) c a cmd) s)

/-! ## Deques (R346, R347, R369) -/

/-- A record's 16 words in byte order. -/
def recWords (s : State) (r : Rec) : List W32 :=
  let h := match tget s.grids r.grid with | some g => g.handle | none => 0
  [lo32 r.entry, hi32 r.entry, BitVec.ofNat 32 (16 * h + r.pool), if r.data then 1 else 0] ++ r.args

/-- Bytes that a zone's grids hold in the spill region of their context. -/
def spillHeld (s : State) (ctx : Nat) (zcb : Addr) : Nat :=
  let gs := gridsUnder s ctx zcb
  match tget s.ctxs ctx with
  | some c => 128 * (c.spill.filter fun e => gs.contains e.2.grid).length
  | none => 0

/-- A place of a context's spill region, where the context can write or read it (R369). -/
def spillAt (s : State) (ctx n : Nat) (acc : AccKind) : Option Nat :=
  let c := ctlOf s ctx
  let va := (pair64 c.spillBase c.spillBaseH).toNat / 128 * 128 + 128 * n
  match blockAt s ctx va acc with
  | .ok _ => some va
  | .error _ => none

/-- The lowest n places of a context's spill region that hold no record. -/
def freeSlots (s : State) (ctx n : Nat) : List Nat :=
  let used := match tget s.ctxs ctx with | some c => c.spill.filterMap (fun (r : Nat × Rec) => r.2.slot) | none => []
  ((List.range (used.length + n)).filter fun i => !used.contains i).take n

/-- Whether records can be spilled: their contexts' regions and their zones' SPILL budgets have room for them. DESIGN CHOICE (log 44): a place that
cannot be written, because it is not mapped, is no room. -/
def spillOk (s : State) (rs : List Rec) : Bool :=
  ((rs.map (·.grid)).eraseDups).all fun gid => match tget s.grids gid with
    | none => true
    | some g =>
      let ofCtx := rs.filter fun r => match tget s.grids r.grid with | some h => h.ctx == g.ctx | none => false
      let cap := (ctlOf s g.ctx).spillSize.toNat
      let used := match tget s.ctxs g.ctx with | some c => c.spill.length | none => 0
      decide (used + ofCtx.length ≤ cap) && (freeSlots s g.ctx ofCtx.length).all (fun n => (spillAt s g.ctx n .store).isSome) && g.zones.all fun z => match z.chain with
        | [] => true
        | a :: _ =>
          let gs := gridsUnder s g.ctx a
          let mine := (rs.filter fun r => gs.contains r.grid).length
          decide (spillHeld s g.ctx a + 128 * mine ≤ z.spill)

/-- A record written at a place of its context's spill region: its 64 bytes (R346); the other 64 are free (R369, log 2). -/
def spillBytes (s : State) (ctx n : Nat) (r : Rec) : State :=
  let f := takeFreeBytes s 64
  match spillAt f.2 ctx n .store with
  | none => f.2
  | some va => match blockWrite f.2 ctx va ((recWords s r).flatMap (fun w => toBytes 4 w.toNat) ++ f.1) with
    | .ok s1 => s1
    | .error _ => f.2

/-- A spilled record as it comes back: with the arguments found at its place (R369). DESIGN CHOICE (log 44): where they cannot be read, because the
place is not mapped any more or is poisoned, they are free values. -/
def unspill (s : State) (ctx : Nat) (r : Rec) : Rec × State :=
  let found : Except (Cause × Nat) (List Byte × State) := match r.slot.bind fun n => spillAt s ctx n .load with
    | some va => blockRead s ctx (va + 16) 48
    | none => .error (.xlateInvalid, 0)
  match found with
  | .ok (bs, s1) => ({ r with args := (List.range 12).map fun i => BitVec.ofNat 32 (ofBytes ((bs.drop (4 * i)).take 4)), slot := none }, s1)
  | .error _ => let f := freeWords s 12; ({ r with args := f.1.map lo32, slot := none }, f.2)

/-- Records of a core put into their contexts' spill regions, the farthest first. -/
def toSpill (s : State) (core : Nat) (rs : List Rec) : State :=
  rs.foldl (fun s r => match tget s.grids r.grid with
    | some g =>
      let n := (freeSlots s g.ctx 1).headD 0
      modCtx (spillBytes s g.ctx n r) g.ctx fun c => { c with spill := c.spill ++ [(core, { r with slot := some n })] }
    | none => s) s

/-- A record pushed at the owner end; into a full deque only once the 512 records at its far end can be spilled. -/
def pushRec (s : State) (core : Nat) (r : Rec) : Option State :=
  let c := coreAt s core
  if c.deque.length < 1024 then some (setCore s core { c with deque := r :: c.deque })
  else
    let far := c.deque.drop (c.deque.length - 512)
    if spillOk s far then
      some (toSpill (setCore s core { c with deque := r :: c.deque.take (c.deque.length - 512) }) core far.reverse)
    else none

/-! ## SPAWN (R345, R349) -/

/-- The record that a lane forms. -/
def spawnRec (x : Ex) (pool : Nat) (data : Bool) (a : Spec) (gid l : Nat) : Rec :=
  let w : Nat → W32 := fun j => x.v (a + BitVec.ofNat 8 j) l
  { entry := pair64 (w 0) (w 1), grid := gid, pool, data, args := (List.range 12).map fun j => w (4 + j)
    gen := lfsrStep (x.gen l) }

/-- Whether an address is outside the code of a grid's segment. -/
def outsideCode (s : State) (gid : Nat) (a : Addr) : Bool :=
  match tget s.grids gid with
  | some g => decide (a.toNat < g.segment.base.toNat) || decide (g.segment.base.toNat + g.segment.length ≤ a.toNat)
  | none => true

/-- The declared slots of a pool. -/
def poolSlots (s : State) (gid pool : Nat) : Nat := match kernelOf s gid with | some k => k.pools.getD pool 0 | none => 0
/-- Records of a pool outstanding. -/
def poolHeld (s : State) (gid pool : Nat) : Nat := match tget s.grids gid with | some g => g.pools.getD pool 0 | none => 0

/-- Records pushed in ascending lane until one must wait, for its pool or for the deque. -/
def spawnLanes (core gid pool : Nat) : List (Nat × Rec) → State → Mask → State × Mask × Option Awaited
  | [], s, m => (s, m, none)
  | (l, r) :: rest, s, m =>
    if poolSlots s gid pool ≤ poolHeld s gid pool then (s, m, some (.pool pool))
    else match pushRec s core r with
      | none => (s, m, some .deque)
      | some s1 =>
        spawnLanes core gid pool rest
          (modGrid s1 gid fun g => { g with pools := lset g.pools pool (g.pools.getD pool 0 + 1) }) (m ||| (1#64 <<< l))

/-- The lanes with an entry that `SPAWN` refuses: the fault, the lowest lane's entry, the lanes. -/
def spawnBad (s : State) (gid : Nat) (rs : List (Nat × Rec)) : Option (Cause × Addr × Mask) :=
  let odd := rs.filter fun e => e.2.entry.toNat % 4 != 0
  let out := rs.filter fun e => outsideCode s gid e.2.entry
  match odd, out with
  | e :: r, _ => some (.pcAlign, e.2.entry, maskOf ((e :: r).map (·.1)))
  | [], e :: r => some (.spawnTarget, e.2.entry, maskOf ((e :: r).map (·.1)))
  | [], [] => none

/-- `SPAWN` of the lanes not served yet. -/
def spawnWork (i : Instr) (c : Ctl) (pool : Nat) (data : Bool) (a : Spec) (cmd : CmdByte) (x : Ex) (s : State) : State :=
  let gid := gridOf s x.ref
  let core := coreOf s x.ref
  let rs := (x.lanes.filter fun l => !x.grp.served.getLsbD l).map fun l => (l, spawnRec x pool data a gid l)
  match (if data then none else spawnBad s gid rs) with
  | some f => faultEx x f.1 f.2.1 f.2.2 s
  | none =>
    if opFull x cmd then waitEx x (.tokenRoom cmd.tok.toNat) i s
    else match releaseObject s x.ref .device with
      | some obj => waitEx x obj i s
      | none =>
        let o := ownOp x cmd
        let r := spawnLanes core gid pool rs (releaseAt s core .l2) x.grp.served
        serveEnd x c i (o.1.stepGen (r.2.1 &&& ~~~x.grp.served) 1) o.2 r.2.1 r.2.2 r.1

/-- The number of pools that the selected unit's kernel declares. -/
def curPools (s : State) : Nat :=
  match s.cur with
  | some u => (match kernelOf s (gridOf s u) with | some k => k.pools.length | none => 0)
  | none => 0

/-- The decode check of a pool index. -/
def poolCheck (s : State) (pool : BitVec 4) : List Cause := if pool.toNat < curPools s then [] else [.illegalField]

/-- A block of 16 registers. -/
def srcBlk (c : Spec) : Opnd := { cls := .blk, code := c, rd := true }
def dstBlk (c : Spec) : Opnd := { cls := .blk, code := c, rd := false }

def execSpawn (c : Ctl) (pool : BitVec 4) (data : Bool) (a : Spec) (cmd : CmdByte) (s : State) : Host.Outcome State Fault Refusal :=
  .next (issue (.spawn c pool data a cmd) c [srcBlk a] (poolCheck s pool) .aborts
    (spawnWork (.spawn c pool data a cmd) c pool.toNat data a cmd) s)

/-! ## WPOP and WSTEAL (R349) -/

/-- The cores in the order of R348 from a core: its cluster, its die, the ring neighbours' dies, the opposite die. -/
def searchOrder (core : Nat) : List Nat :=
  let d := core / 32
  let near := (List.range 4).map fun i => core / 4 * 4 + i
  let die := (List.range 32).map fun i => 32 * d + i
  let n1 := (d + 1) % 4
  let n2 := (d + 3) % 4
  let other := [min n1 n2, max n1 n2, (d + 2) % 4]
  (near.filter (· != core)) ++ (die.filter fun c => !near.contains c)
    ++ (other.map fun e => (List.range 32).map fun i => 32 * e + i).flatten

/-- The first record of a list that a test accepts, and the list without it. -/
def takeFirst (p : Rec → Bool) : List Rec → Option (Rec × List Rec)
  | [] => none
  | r :: rs => if p r then some (r, rs) else (takeFirst p rs).map fun e => (e.1, r :: e.2)

/-- The record of a pool nearest the owner end of a core's deque, taken. -/
def popOwner (s : State) (core gid pool : Nat) : Option (Rec × State) :=
  let c := coreAt s core
  (takeFirst (fun r => r.grid == gid && r.pool == pool) c.deque).map fun e => (e.1, setCore s core { c with deque := e.2 })

/-- The record of a pool nearest the far end of a core's deque, taken. -/
def popFar (s : State) (core gid pool : Nat) : Option (Rec × State) :=
  let c := coreAt s core
  (takeFirst (fun r => r.grid == gid && r.pool == pool) c.deque.reverse).map fun e =>
    (e.1, idleNow (setCore s core { c with deque := e.2.reverse }) core)

/-- The record that the first of some deques gives. -/
def popSearch (gid pool : Nat) : List Nat → State → Option (Rec × State)
  | [], _ => none
  | c :: r, s => match popFar s c gid pool with
    | some e => some e
    | none => popSearch gid pool r s

/-- Records taken by lanes in ascending order. -/
def takeLanes (gid pool : Nat) (f : State → Nat → Option (Rec × State)) : List Nat → State → List (Nat × Rec) × State
  | [], s => ([], s)
  | l :: r, s => match f s l with
    | none => takeLanes gid pool f r s
    | some (rec_, s1) =>
      let t := takeLanes gid pool f r (leavePool s1 gid pool 1)
      ((l, rec_) :: t.1, t.2)

/-- What the lanes of `WPOP` or `WSTEAL` take, and its end. -/
def takeWork (c : Ctl) (pool : Nat) (d p : Spec) (f : State → Nat → Option (Rec × State)) (x : Ex) (s : State) : State :=
  let t := takeLanes (gridOf s x.ref) pool f x.lanes s
  let got := maskOf (t.1.map (·.1))
  let words : Nat → List W32 := fun l => match t.1.find? (fun e => e.1 == l) with | some e => recWords t.2 e.2 | none => []
  let b := (List.range 16).foldl (fun (b : Body) j =>
    b.sendV got (d + BitVec.ofNat 8 j) fun l => (words l).getD j 0) x.body
  let s1 := if got = 0#64 then t.2 else acquireAt t.2 (coreOf t.2 x.ref) .l2
  retire x c (b.sendP x.exec p fun l => got.getLsbD l) s1

def execWpop (c : Ctl) (pool : BitVec 4) (d p : Spec) (s : State) : Host.Outcome State Fault Refusal :=
  .next (issue (.wpop c pool d p) c [dstBlk d, dstP p] (poolCheck s pool) .aborts (fun x s =>
    takeWork c pool.toNat d p (fun s _ => popOwner s (coreOf s x.ref) (gridOf s x.ref) pool.toNat) x s) s)

def execWsteal (c : Ctl) (pool : BitVec 4) (d a p : Spec) (s : State) : Host.Outcome State Fault Refusal :=
  .next (issue (.wsteal c pool d a p) c [dstBlk d, srcV a, dstP p] (poolCheck s pool) .aborts (fun x s =>
    takeWork c pool.toNat d p (fun s l =>
      let n := (x.v a l).toNat
      let gid := gridOf s x.ref
      if a = 255#8 ∨ 127 < n then popSearch gid pool.toNat (searchOrder (coreOf s x.ref)) s
      else popFar s n gid pool.toNat) x s) s)

/-! ## Threads from records (R27, R347, R348) -/

/-- Whether a core is a host core of a grid: it holds a team of it, or has been kept for it. -/
def isHost (s : State) (gid core : Nat) : Bool :=
  (match tget s.grids gid with | some g => g.hosts.contains core | none => false)
    || (teamsOn s core).any fun e => e.2.grid == gid

/-- The quarter of a core that could hold a crew of n threads of a grid, by fewest registers held (R21, R27). -/
def roomForMany (s : State) (gid core n : Nat) : Option Nat :=
  match tget s.grids gid with
  | none => none
  | some g =>
    let c := coreAt s core
    let r := n * g.kernel.alloc
    if !inService s core || !(c.vacated.isNone || c.vacated == some gid) || !zonesAllow s g [core] 0 r then none
    else
      let fits := (List.range 4).filter fun q =>
        let l := loadOf s core q
        ({ l with regs := l.regs + r, kuse := l.kuse + g.kernel.kregs, spawn := l.spawn + n } : Load).ok
      fits.foldl (fun b q => match b with
        | none => some q
        | some o => if (loadOf s core q).regs < (loadOf s core o).regs then some q else b) none

/-- The quarter of a core that could create a thread of a grid. -/
def roomFor (s : State) (gid core : Nat) : Option Nat := roomForMany s gid core 1

/-- The thread that a record becomes: `g0` to `g11` are its arguments, its other registers read zero (R27, R238, R348). -/
def spawnedThread (k : Kernel) (r : Rec) : Thread :=
  { tid := 2 ^ 32 - 1, g := (r.args ++ List.replicate 192 0).take k.regs, p := 0, entry := r.entry
    gen := if r.gen = 0#32 then 1 else r.gen, tx := Tx.fresh, short := [] }

/-- The newest non-DATA record of a core's deque whose thread a quarter has room for, with that quarter. -/
def nextRecord (s : State) (core : Nat) : Option (Rec × Nat × List Rec) :=
  let fit : Rec → Bool := fun r => !r.data && isHost s r.grid core && (roomFor s r.grid core).isSome
  match takeFirst fit (coreAt s core).deque with
  | none => none
  | some (r, rest) => (roomFor s r.grid core).map fun q => (r, q, rest)

/-- RECORD_FILE: the crew former makes a thread of a record and files it in the bin of its pool and entry (R27, R347); while no bin can take it,
the crew former draws from the oldest, and the record stays in the deque (R25). -/
def execRecordFile (core : Nat) (s : State) : Host.Outcome State Fault Refusal :=
  .next (match nextRecord s core with
    | none => s
    | some (r, q, rest) =>
      let s1 := setCore s core { coreAt s core with deque := rest }
      let key : BinKey := { grid := r.grid, owner := .pool r.pool, pc := r.entry }
      match kernelOf s r.grid with
      | none => s1
      | some k =>
        if (binFor (quarterAt s (4 * core + q)).bins key).isNone then drawOldest s (4 * core + q)
        else let n := takeUid s1; fileThread n.2 (4 * core + q) key { spawnedThread k r with num := n.1 })

/-- The grids for which a core is an idle host core (R348). -/
def idleGrids (s : State) (core : Nat) : List Nat :=
  (s.grids.filter fun e =>
    isHost s e.1 core && (roomFor s e.1 core).isSome && !((coreAt s core).deque.any fun r => r.grid == e.1 && !r.data)).map (·.1)

/-- What a theft takes of a victim's deque: half of the records of the thief's grids, rounded up, at most 32, oldest first. -/
def theft (s : State) (victim : Nat) (gs : List Nat) : List Rec :=
  let mine := (coreAt s victim).deque.reverse.filter fun r => gs.contains r.grid && !r.data
  mine.take (min 32 ((mine.length + 1) / 2))

/-- Records pushed one after another at the owner end of a core's deque, as far as there is room for them or for what they spill: how many,
and the state (R347). -/
def pushAll (core : Nat) : List Rec → State → Nat × State
  | [], s => (0, s)
  | r :: rest, s => match pushRec s core r with
    | some s1 => let x := pushAll core rest s1; (x.1 + 1, x.2)
    | none => (0, s)

/-- A list without the first n elements that a test accepts. -/
def dropFirst (p : Rec → Bool) : Nat → List Rec → List Rec
  | _, [] => []
  | 0, rs => rs
  | n + 1, r :: rs => if p r then dropFirst p n rs else r :: dropFirst p (n + 1) rs

/-- The victim of an idle host core: the first deque in the order of R348 that holds records it may take. -/
def stealFrom (s : State) (core : Nat) : Option (Nat × List Nat) :=
  let gs := idleGrids s core
  if gs.isEmpty then none
  else ((searchOrder core).find? fun v => !(theft s v gs).isEmpty).map fun v => (v, gs)

/-- STEAL: an idle host core takes records from the far end of another deque (R348). -/
def execSteal (core : Nat) (s : State) : Host.Outcome State Fault Refusal :=
  .next (match stealFrom s core with
    | none => s
    | some (v, gs) =>
      let got := pushAll core (theft s v gs) (wakeCore s core)
      if got.1 = 0 then s else
      let left := (dropFirst (fun r => gs.contains r.grid && !r.data) got.1 (coreAt s v).deque.reverse).reverse
      setCore got.2 v { coreAt got.2 v with deque := left, idleFrom := s.clock })

/-- The spilled records that return to a core: at most 512 of those nearest the far end, from one context. -/
def spillBack (s : State) (core : Nat) : Option (Nat × List Rec) :=
  if 256 ≤ (coreAt s core).deque.length then none
  else s.ctxs.findSome? fun e =>
    let mine := (e.2.spill.filter fun r => r.1 == core).map (·.2)
    if mine.isEmpty then none else some (e.1, mine.drop (mine.length - 512))

/-- Records spilled without a core of their own: where a thread of their grid fits on a core, it is kept as a host core, to which they are
to return (R351). -/
def claimSpill (s : State) (core : Nat) : State :=
  let gs := ((s.ctxs.map fun e => (e.2.spill.filter fun r => r.1 == 128).map fun r => r.2.grid).flatten).eraseDups
  (gs.filter fun g => (roomFor s g core).isSome).foldl (fun s g =>
    let s1 := modGrid s g fun x => { x with hosts := if x.hosts.contains core then x.hosts else core :: x.hosts }
    { s1 with ctxs := s1.ctxs.map fun e =>
        (e.1, { e.2 with spill := e.2.spill.map fun r => if r.1 = 128 ∧ r.2.grid = g then (core, r.2) else r }) }) s

/-- SPILL_RETURN: spilled records return to the far end of their core's deque (R347, R369). -/
def execSpillReturn (core : Nat) (s0 : State) : Host.Outcome State Fault Refusal :=
  let s := claimSpill s0 core
  .next (match spillBack s core with
    | none => s
    | some (ctx, rs) =>
      let keep : List (Nat × Rec) → List (Nat × Rec) := fun l =>
        let n := (l.filter fun r => r.1 == core).length - rs.length
        (l.foldl (fun (acc : List (Nat × Rec) × Nat) e =>
          if e.1 = core then (if acc.2 < n then (acc.1 ++ [e], acc.2 + 1) else acc) else (acc.1 ++ [e], acc.2)) ([], 0)).1
      let back := rs.foldl (fun (a : List Rec × State) r => let b := unspill a.2 ctx r; (b.1 :: a.1, b.2)) (([], s) : List Rec × State)
      let s1 := modCtx back.2 ctx fun c => { c with spill := keep c.spill }
      setCore s1 core { coreAt s1 core with deque := (coreAt s1 core).deque ++ back.1 })

end Sys2Proof.Machine
end

