-- ==== Sys2Proof/Machine/System.lean ====
section
/-! DEFINITION. Group 0xF: system registers (R45 to R47, R335, R407, R408, R438), `TRAP` and `BKPT` (R409), `TRET` (R406), `MBOX` (R390)
and the acceptance of `ATTEST` (R383). -/

namespace Sys2Proof.Machine

open Sys2Proof

/-! ## Handler crews -/

/-- The fault domain that the selected unit's grid serves, if it is a handler crew (R405). -/
def serves (s : State) (u : UnitRef) : Option Nat :=
  match u with
  | .access _ => none
  | .crew _ _ => match tget s.grids (gridOf s u) with | some g => g.handles | none => none

/-! ## The subject of the saved-state window (R408) -/

/-- A unit that a handler may inspect: the unit, the record that holds it, and whether its team is stopped. -/
structure Subject where
  unit    : UnitRef
  record  : Option (Nat × FRec)
  stopped : Bool

/-- The unit that a held record names. -/
def heldUnit (r : FRec) : Option UnitRef :=
  match r.who with
  | .crew uid lane => some (.crew uid lane)
  | .access t => some (.access t)
  | _ => none

/-- Records of a context's domains that are written and outstanding, each with its domain. -/
def outstanding (s : State) (ctx : Nat) : List (Nat × FRec) :=
  ((s.domains.filter fun e => e.2.ctx == ctx).map fun e => e.2.outst.map fun r => (e.1, r)).flatten

/-- Whether a unit is stopped with its team. -/
def teamStopped (s : State) (u : UnitRef) : Bool :=
  match teamOf s u with
  | some t => (match tget s.teams t with | some tm => (match tm.place with | .absent _ _ | .returning _ _ _ _ => true | _ => false) | none => false)
  | none => false

/-- The subject that an identity names in a context. -/
def subjectOf (s : State) (ctx : Nat) (id : W64) : Option Subject :=
  match (outstanding s ctx).find? (fun e => e.2.held && e.2.subject == id && (heldUnit e.2).isSome) with
  | some e => (heldUnit e.2).map fun u => { unit := u, record := some e, stopped := teamStopped s u }
  | none =>
    ((allUnits s).find? fun u => ctxOf s u == ctx && teamStopped s u && unitIdentity s u == id).map fun u =>
      { unit := u, record := none, stopped := true }

/-- The instruction after an address, by the length in its first word (R54); the address itself where the code cannot be read. -/
def nextPc (s : State) (ctx : Nat) (pc : Addr) : Addr :=
  match codeWord s ctx pc.toNat with
  | some w => pc + BitVec.ofNat 64 (8 + 4 * (w % 4))
  | none => pc

/-- RESUME of a subject: the address at which `TRET.next` resumes it. -/
def resumePc (s : State) (ctx : Nat) (r : FRec) : Addr := r.resume.getD (nextPc s ctx r.pc)

/-- The thread of a subject's crew in a lane. -/
def subjThread (b : Body) (lane : Nat) : Option Thread :=
  match b with
  | .crew c => c.lanes.getD lane none
  | .ap _ => none

/-- The quarter of a subject's crew. -/
def Body.quarter? : Body → Option Nat
  | .crew c => some c.quarterId
  | .ap _ => none

/-- Low or high word by an odd or even distance. -/
def halfWord (x : W64) (hi : Bool) : W32 := if hi then hi32 x else lo32 x

/-- One completion token's word: open batch, closed batches, error flag. -/
def tokenWord (t : Token) : W32 :=
  BitVec.ofNat 32 (t.openAll % 4096 + t.closed.length * 2 ^ 12 + (if t.err then 2 ^ 16 else 0))

/-- A value that only a crew has. -/
def Body.ofCrew (b : Body) (f : Crew → W32) : W32 := match b with | .crew c => f c | .ap _ => 0

/-- A value of a subject's thread. -/
def Body.ofLane (b : Body) (lane : Nat) (f : Thread → W32) : W32 := match subjThread b lane with | some t => f t | none => 0

/-- What a stopped team keeps of the quarter of one of its crews. -/
def savedQuarter (s : State) (u : UnitRef) : Option (Nat × SavedQuarter) :=
  match teamOf s u, (bodyOf s u) with
  | some t, some (.crew c) =>
    if !teamStopped s u then none
    else (tget s.teams t).bind fun tm =>
      let i := tm.saved.findIdx? fun x => x.rel == (c.quarter + 4 - tm.qb) % 4
      i.bind fun i => (tm.saved[i]?).map fun x => (i, x)
  | _, _ => none

/-- The accumulators of a subject's crew: those its stopped team keeps, or those of its quarter where its team holds them; with the run that
the sequencer has of them. -/
def subjAccs (s : State) (u : UnitRef) : List Acc × Option Run :=
  match savedQuarter s u, (bodyOf s u).bind Body.quarter? with
  | some (_, x), _ => (x.accs, x.run)
  | none, some q =>
    let qs := quarterAt s q
    if !teamStopped s u && holdsAccs s (teamOf s u) q then (qs.accs, qs.run) else ([], none)
  | none, none => ([], none)

/-- The status word of an accumulator of a subject (R285). -/
def subjTile (s : State) (u : UnitRef) (m : Nat) : W32 :=
  let a := subjAccs s u
  match a.1[m]? with
  | some acc => accStatus acc a.2 m
  | none => 0

/-- Accumulators of a subject changed, where its team keeps them. -/
def modSubAcc (s : State) (u : UnitRef) (m : Nat) (f : Acc → Acc) : State :=
  match savedQuarter s u, teamOf s u with
  | some (i, _), some t => modTeam s t fun tm => { tm with
      saved := tm.saved.mapIdx fun j x => if j = i then { x with accs := x.accs.mapIdx fun n a => if n = m then f a else a } else x }
  | _, _ =>
    if (subjAccs s u).1.isEmpty then s
    else match (bodyOf s u).bind Body.quarter? with
      | some q => setAcc s q m (f (accAt s q m))
      | none => s

/-- One register of the saved-state window of a subject (R408). -/
def savedRead (s : State) (ctx : Nat) (sub : Subject) (slane stile idx : Nat) : W32 :=
  match bodyOf s sub.unit with
  | none => 0
  | some b =>
    let odd : Nat → Bool := fun base => (idx - base) % 2 == 1
    if idx = 0x203 then
      BitVec.ofNat 32 (1 + (if sub.record.isSome then 2 else 0) + (if sub.stopped then 4 else 0) + (if b.isAp then 8 else 0))
    else if 0x280 ≤ idx ∧ idx < 0x340 then b.ofLane slane fun t => t.g.getD (idx - 0x280) 0
    else if 0x340 ≤ idx ∧ idx < 0x370 then b.ofCrew fun c => c.k.getD (idx - 0x340) 0
    else if idx = 0x370 then b.ofLane slane fun t => t.p.setWidth 32
    else if idx = 0x371 ∨ idx = 0x372 then
      (match sub.record with | some r => halfWord (resumePc s ctx r.2) (idx == 0x372) | none => 0)
    else if idx = 0x373 ∨ idx = 0x374 then
      (match b with
      | .ap a => halfWord a.entry (idx == 0x374)
      | .crew _ => b.ofLane slane fun t => halfWord t.entry (idx == 0x374))
    else if idx = 0x375 then b.ofLane slane fun t => t.tx.status
    else if idx = 0x376 then b.ofLane slane fun t => t.gen
    else if 0x378 ≤ idx ∧ idx < 0x388 then b.ofCrew fun c => halfWord (c.j.getD ((idx - 0x378) / 2) 0) (odd 0x378)
    else if 0x388 ≤ idx ∧ idx < 0x398 then b.ofCrew fun c => halfWord (c.f.getD ((idx - 0x388) / 2) 0) (odd 0x388)
    else if 0x398 ≤ idx ∧ idx < 0x3A0 then tokenWord (b.toks.getD (idx - 0x398) Token.fresh)
    else if 0x3C0 ≤ idx ∧ idx < 0x400 then
      (match b with | .ap a => halfWord (a.a.getD ((idx - 0x3C0) / 2) 0) (odd 0x3C0) | .crew _ => 0)
    else if 0x400 ≤ idx ∧ idx < 0x500 then
      (match (subjAccs s sub.unit).1[stile]? with
      | some a => a.read ((idx - 0x400) / 16) ((idx - 0x400) % 16)
      | none => 0)
    else if idx = 0x500 then subjTile s sub.unit stile
    else 0

/-- A subject's lane changed. -/
def modLane (s : State) (u : UnitRef) (lane : Nat) (f : Thread → Thread) : State :=
  match u with
  | .crew uid _ => modCrew s uid fun c => { c with lanes := lset c.lanes lane ((c.lanes.getD lane none).map f) }
  | .access _ => s

/-- A subject's crew changed. -/
def modSubCrew (s : State) (u : UnitRef) (f : Crew → Crew) : State :=
  match u with | .crew uid _ => modCrew s uid f | .access _ => s

/-- A 64-bit value with its low or high word replaced. -/
def withWord (x : W64) (hi : Bool) (v : W32) : W64 := if hi then pair64 (lo32 x) v else pair64 v (hi32 x)

/-- A record of a domain changed. -/
def modRecord (s : State) (dom uid : Nat) (f : FRec → FRec) : State :=
  let g : FRec → FRec := fun r => if r.uid = uid then f r else r
  modDomain s dom fun d => { d with pending := d.pending.map g, outst := d.outst.map g }

/-- One register of the saved-state window written (R408); read-only registers keep their values. -/
def savedWrite (s : State) (ctx : Nat) (sub : Subject) (slane stile idx : Nat) (v : W32) : State :=
  let u := sub.unit
  let odd : Nat → Bool := fun base => (idx - base) % 2 == 1
  if 0x280 ≤ idx ∧ idx < 0x340 then modLane s u slane fun t => { t with g := lset t.g (idx - 0x280) v }
  else if 0x340 ≤ idx ∧ idx < 0x370 then modSubCrew s u fun c => { c with k := lset c.k (idx - 0x340) v }
  else if idx = 0x370 then modLane s u slane fun t => { t with p := v.setWidth 7 }
  else if idx = 0x371 ∨ idx = 0x372 then
    (match sub.record with
    | some r => modRecord s r.1 r.2.uid fun x => { x with resume := some (withWord (resumePc s ctx x) (idx == 0x372) v) }
    | none => s)
  else if idx = 0x373 ∨ idx = 0x374 then
    (match u with
    | .access t => modAccess s t fun a => { a with entry := withWord a.entry (idx == 0x374) v }
    | .crew _ _ => modLane s u slane fun t => { t with entry := withWord t.entry (idx == 0x374) v })
  else if idx = 0x376 then modLane s u slane fun t => { t with gen := v }
  else if 0x378 ≤ idx ∧ idx < 0x388 then
    let i := (idx - 0x378) / 2
    modSubCrew s u fun c => { c with j := lset c.j i (withWord (c.j.getD i 0) (odd 0x378) v) }
  else if 0x388 ≤ idx ∧ idx < 0x398 then
    let i := (idx - 0x388) / 2
    modSubCrew s u fun c => { c with f := lset c.f i (withWord (c.f.getD i 0) (odd 0x388) v) }
  else if 0x3C0 ≤ idx ∧ idx < 0x400 then
    let i := (idx - 0x3C0) / 2
    (match u with
    | .access t => modAccess s t fun a => { a with a := lset a.a i (withWord (a.a.getD i 0) (odd 0x3C0) v) }
    | .crew _ _ => s)
  else if 0x400 ≤ idx ∧ idx < 0x500 then modSubAcc s u stile fun a => { a with elems := lset a.elems (idx - 0x400) v }
  else s

/-! ## SYSR (R45, R407) -/

/-- A context control register (R46). -/
def ctlRead (r : CtlRegs) (idx : Nat) : W32 :=
  match idx with
  | 0x000 => r.sctl | 0x001 => r.atrap | 0x002 => r.binAge | 0x003 => r.srseed
  | 0x010 => r.aelogBase | 0x011 => r.aelogBaseH | 0x012 => r.aelogSize | 0x013 => r.aelogHead
  | 0x014 => r.spillBase | 0x015 => r.spillBaseH | 0x016 => r.spillSize
  | 0x017 => r.shadowBase | 0x018 => r.shadowBaseH | 0x019 => r.shadowSize
  | _ => 0

/-- A context control register written: reserved bits are ignored (R10, R46, R47). -/
def ctlWrite (r : CtlRegs) (idx : Nat) (v : W32) : CtlRegs :=
  match idx with
  | 0x000 => { r with sctl := v &&& 3 } | 0x001 => { r with atrap := v &&& 0x1FE } | 0x002 => { r with binAge := v &&& 0xFFF }
  | 0x003 => { r with srseed := v } | 0x010 => { r with aelogBase := v } | 0x011 => { r with aelogBaseH := v }
  | 0x012 => { r with aelogSize := v } | 0x013 => { r with aelogHead := v } | 0x014 => { r with spillBase := v }
  | 0x015 => { r with spillBaseH := v } | 0x016 => { r with spillSize := v } | 0x017 => { r with shadowBase := v }
  | 0x018 => { r with shadowBaseH := v } | 0x019 => { r with shadowSize := v }
  | _ => r

/-- An identity or status mirror (R335, R438). -/
def mirrorRead (s : State) (u : UnitRef) (idx : Nat) : W32 :=
  let args : W64 := match tget s.grids (gridOf s u) with | some g => g.packet.args | none => 0
  match idx with
  | 0x100 => lo32 args | 0x101 => hi32 args
  | 0x110 => s.counters.hbmCe | 0x111 => s.counters.hbmUe | 0x112 => s.counters.sramCe | 0x113 => s.counters.sramUe
  | 0x114 => s.counters.regReread | 0x115 => s.counters.poisonUsed | 0x116 => s.counters.d2dReplay
  | 0x117 => s.counters.peerReplay | 0x118 => s.counters.scrubPass
  | _ => 0

/-- The fault of a `SYSR` or `SYSW` of an index, if its class forbids it (R45, R389). -/
def sysDenied (s : State) (u : UnitRef) (idx : Nat) (write : Bool) : Option Cause :=
  let handler := (serves s u).isSome
  let saved := decide (0x200 ≤ idx) && decide (idx < 0x800)
  let ok := if write then handler && (decide (idx < 0x100) || saved)
    else decide (idx < 0x200) || (handler && decide (idx < 0xF00))
  if !ok then some .sysregDenied
  else if saved && inPrimrose s (gridOf s u) && !debugGrants s (ctxOf s u) (if write then 1 else 0) then some .debugDenied
  else none

/-- The value that `SYSR` reads. -/
def sysRead (s : State) (u : UnitRef) (idx : Nat) : W32 :=
  if idx < 0x100 then ctlRead (ctlOf s (ctxOf s u)) idx
  else if idx < 0x200 then mirrorRead s u idx
  else if idx < 0x800 then
    (match tget s.grids (gridOf s u) with
    | none => 0
    | some g => match idx with
      | 0x200 => lo32 g.subject
      | 0x201 => hi32 g.subject
      | _ => match subjectOf s g.ctx g.subject with
        | some sub =>
          if idx = 0x202 then g.slane else if idx = 0x204 then g.stile
          else savedRead s g.ctx sub g.slane.toNat (g.stile.toNat % 8) idx
        | none => 0)
  else 0

def execSysr (c : Ctl) (idx : BitVec 12) (d : Spec) (s : State) : Host.Outcome State Fault Refusal :=
  .next (issue (.sysr c idx d) c [dstV d] [] .aborts (fun x s =>
    match sysDenied s x.ref idx.toNat false with
    | some cause => faultEx x cause 0 x.exec s
    | none => retire x c (x.body.sendV x.exec d fun _ => sysRead s x.ref idx.toNat) s) s)

/-- The effect of `SYSW`. -/
def sysWrite (s : State) (u : UnitRef) (idx : Nat) (v : W32) : State :=
  let gid := gridOf s u
  if idx < 0x100 then modCtx s (ctxOf s u) fun c => { c with regs := ctlWrite c.regs idx v }
  else match tget s.grids gid with
    | none => s
    | some g => match idx with
      | 0x200 => modGrid s gid fun g => { g with subject := withWord g.subject false v }
      | 0x201 => modGrid s gid fun g => { g with subject := withWord g.subject true v }
      | _ => match subjectOf s g.ctx g.subject with
        | some sub =>
          if idx = 0x202 then modGrid s gid fun g => { g with slane := v }
          else if idx = 0x204 then modGrid s gid fun g => { g with stile := v }
          else savedWrite s g.ctx sub g.slane.toNat (g.stile.toNat % 8) idx v
        | none => s

def execSysw (c : Ctl) (idx : BitVec 12) (b : Spec) (s : State) : Host.Outcome State Fault Refusal :=
  .next (issue (.sysw c idx b) c [srcV b] [] .aborts (fun x s =>
    match sysDenied s x.ref idx.toNat true with
    | some cause => faultEx x cause 0 x.exec s
    | none => sysWrite (retire x c x.body s) x.ref idx.toNat (x.v b x.low)) s)

/-! ## TRAP and BKPT (R409) -/

/-- The identity of an issuing unit with the mask of its executing lanes. -/
def execIdentity (x : Ex) (s : State) : W64 :=
  match x.ref, x.body with
  | .crew _ _, .crew c =>
    let m := x.exec.toNat
    identity 0 c.core c.quarter c.num (if x.low < 32 then m % 2 ^ 32 else m / 2 ^ 32)
  | u, _ => unitIdentity s u

/-- A unit held at its own request: the record names the executing lanes, and RESUME the next instruction. -/
def trapUnit (x : Ex) (b : Body) (cause : Cause) (detail : W32) (s : State) : State :=
  let s1 := raise (putBody s x.ref b) x.ref x.pc { cause, addr := 0, mask := x.exec, detail, exact := true }
  let d := domainOfGrid s1 (gridOf s x.ref)
  match (bodyOf s1 x.ref).bind Body.held with
  | some n => modRecord d.2 d.1 n fun r => { r with subject := execIdentity x s, resume := some x.next }
  | none => s1

def execTrap (c : Ctl) (code : BitVec 16) (s : State) : Host.Outcome State Fault Refusal :=
  .next (issue (.trap c code) c [] [] .aborts (fun x s =>
    trapUnit x (x.body.setEntry x.exec x.next) .trap (code.setWidth 32) s) s)

def execBkpt (c : Ctl) (s : State) : Host.Outcome State Fault Refusal :=
  .next (issue (.bkpt c) c [] [] .aborts (fun x s =>
    if debugOf s (ctxOf s x.ref) = .none then retire x c x.body s else trapUnit x x.body .bkpt 0 s) s)

/-! ## TRET (R406) -/

/-- What may be done about a record. -/
inductive RecClass where
  | region | exactly | async | report | image
  deriving DecidableEq, Repr

/-- The class of a record (R396, R406). -/
def FRec.cls (r : FRec) : RecClass :=
  match r.who with
  | .crew _ _ | .access _ => if r.exact then .exactly else .region
  | .cmd _ | .run _ _ => .async
  | .image _ _ => .image
  | .divert _ _ => .async
  | .launch _ | .none => .report

/-- The actions of `TRET`. -/
inductive TretAct where
  | retry | next | error | end_
  deriving DecidableEq, Repr

/-- Whether the table of R406 allows an action. -/
def tretOk (k : RecClass) (act : TretAct) : Bool :=
  match act, k with
  | .retry, .report => false
  | .retry, _ => true
  | .next, .exactly => true
  | .next, _ => false
  | .error, .async => true
  | .error, _ => false
  | .end_, _ => true

/-- The core of a held unit. -/
def heldCore (s : State) (who : Held) : Option Nat :=
  match who with
  | .crew uid lane => some (coreOf s (.crew uid lane))
  | .access t => some (coreOf s (.access t))
  | _ => none

/-- A held unit resumed, with the acquire of R149. -/
def resumeHeld (s : State) (who : Held) (dest : Option Addr) : State :=
  match heldCore s who with
  | some core => acquireAt (resumeUnit s who dest) core .l2
  | none => s

/-- A diverted operation that its handler has performed again (R423). -/
def retryDivert (s : State) (die entry : Nat) : State :=
  let d := dieAt s die
  setDie s die { d with divert := tmod d.divert entry fun e => { e with held := none } }

/-- A diverted operation that its handler discards: a write or an atomic is gone, the old value that the atomic answers being free (log 2); a barrier or
token update is made with its error input set as soon as its page can be translated (R423). -/
def failDivert (s : State) (die entry : Nat) : State :=
  match tget (dieAt s die).divert entry with
  | none => s
  | some e =>
    let put : State → List Sent → Bool → State := fun s q quiet =>
      let d := dieAt s die
      setDie s die { d with divert := tmod d.divert entry fun e => { e with queue := q, held := none, quiet } }
    match e.queue with
    | [] => put s [] false
    | r :: rest => match r.req with
      | .write _ _ _ => put s rest false
      | .atom _ a tag i => let f := takeFreeBytes s a.bytes; put (answerPiece f.2 tag i f.1 false) rest false
      | .bar off n _ => put s ({ r with req := .bar off n true } :: rest) true
      | .token c t b _ => put s ({ r with req := .token c t b true } :: rest) true

/-- The quarter of a team's core where a run that its records name by the quarter's place stands. -/
def runQuarter (s : State) (team : Option Nat) (rel : Nat) : Nat :=
  match team with
  | some t => (match tget s.teams t with | some tm => 4 * tm.core + (rel + tm.qb) % 4 | none => rel)
  | none => rel

/-- A team with the run that it keeps of one of its quarters changed (R289). -/
def modSavedRun (s : State) (team : Option Nat) (rel : Nat) (f : SavedQuarter → SavedQuarter) : State :=
  match team with
  | some t => modTeam s t fun tm => { tm with saved := tm.saved.map fun x => if x.rel = rel ∧ x.run.isSome then f x else x }
  | none => s

/-- A stopped run that goes on from its step (R288). -/
def retryRun (s : State) (team : Option Nat) (rel : Nat) : State :=
  let q := runQuarter s team rel
  let go : Option Run → Option Run := fun r => r.map fun u => if u.by_.team = team then { u with stopped := false } else u
  modSavedRun (setQuarter s q { quarterAt s q with run := go (quarterAt s q).run }) team rel fun x => { x with run := go x.run }

/-- A stopped run completed in error (R288), also one that its stopped team keeps. -/
def failRun (s : State) (team : Option Nat) (rel : Nat) : State :=
  let q := runQuarter s team rel
  let kept := team.bind fun t => (tget s.teams t).bind fun tm => (tm.saved.find? fun x => x.rel == rel).bind (·.run)
  match kept, (quarterAt s q).run with
  | some r, _ =>
    completeToken (modSavedRun s team rel fun x =>
        { x with run := none, accs := x.accs.mapIdx fun i a => if i = r.m then { a with inflight := false } else a })
      r.by_ (identity 2 (q / 4) (q % 4) 0x3FF 0) true
  | none, some u => if u.by_.team = team then endRun s q u true else s
  | none, none => s

/-- The loads of a unit that resumes at its replay region's entry given up: those that met poison are performed again (R400). -/
def forgetHeld (s : State) (who : Held) : State :=
  match who with
  | .crew uid lane => (match groupAt s (.crew uid lane) with | some g => forgetLoads s uid g.mask | none => s)
  | .access t => forgetAccess s t
  | _ => s

/-- An action taken on the subject of a record, which is no longer outstanding. -/
def tretDo (s : State) (ctx : Nat) (r : FRec) (act : TretAct) : State :=
  match act, r.who with
  | .retry, .cmd n => resumeCmd s n
  | .retry, .run t rel => retryRun s t rel
  | .retry, .image _ _ => s
  | .retry, .divert die e => retryDivert s die e
  | .retry, who => resumeHeld (if r.exact then s else forgetHeld s who) who (if r.exact then some r.pc else none)
  | .next, who => resumeHeld s who (some (resumePc s ctx r))
  | .error, .cmd n => failCmd s n
  | .error, .run t rel => failRun s t rel
  | .error, .divert die e => failDivert s die e
  | .error, _ => s
  | .end_, _ => (match r.grid with | some g => endGrid s g | none => s)

/-- The record of a domain with a SUBJECT and a SEQ. -/
def findRec (s : State) (dom : Nat) (subject : W64) (seq : W32) : Option FRec :=
  match tget s.domains dom with
  | some d => d.outst.find? fun r => r.subject == subject && r.seq == seq
  | none => none

/-- The domain without a record. -/
def dropRec (s : State) (dom uid : Nat) : State := modDomain s dom fun d => { d with outst := d.outst.filter fun r => r.uid != uid }

/-- `TRET` of one action: D is written first, so that an action that ends the handler's own grid takes its crew with it. -/
def tret (i : Instr) (c : Ctl) (d a b : Spec) (act : TretAct) (s : State) : State :=
  issue i c [dstV d, srcW a, srcV b] [] .aborts (fun x s =>
    match serves s x.ref with
    | none => faultEx x .sysregDenied 0 x.exec s
    | some dom => match releaseObject s x.ref .device with
      | some obj => waitEx x obj i s
      | none =>
        let finish : W32 → State → State := fun v s => retire x c (x.body.sendV x.exec d fun _ => v) s
        let s1 := releaseAt s (coreOf s x.ref) .l2
        match findRec s1 dom (x.w a x.low) (x.v b x.low) with
        | none => finish 1 s1
        | some r =>
          if tretOk r.cls act then tretDo (dropRec (finish 0 s1) dom r.uid) (ctxOf s x.ref) r act else finish 2 s1) s

def execTretRetry (c : Ctl) (d a b : Spec) (s : State) : Host.Outcome State Fault Refusal :=
  .next (tret (.tretRetry c d a b) c d a b .retry s)
def execTretNext (c : Ctl) (d a b : Spec) (s : State) : Host.Outcome State Fault Refusal :=
  .next (tret (.tretNext c d a b) c d a b .next s)
def execTretError (c : Ctl) (d a b : Spec) (s : State) : Host.Outcome State Fault Refusal :=
  .next (tret (.tretError c d a b) c d a b .error s)
def execTretEnd (c : Ctl) (d a b : Spec) (s : State) : Host.Outcome State Fault Refusal :=
  .next (tret (.tretEnd c d a b) c d a b .end_ s)

/-! ## MBOX (R390) -/

/-- The check of an `MBOX` buffer in the lowest executing lane: its failed row, or that the count is out of range. -/
def mboxFail (s : State) (x : Ex) (acc : AccKind) (va n : Nat) : Option EngFail :=
  let q : AccessReq := { ctx := ctxOf s x.ref, team := teamOf s x.ref, acc, va, n := min n 2040, align := 16, tx := false
                         farOk := fun _ => true }
  let away := decide (va < 0x80000000000000) && (match winOf va with | .global | .own _ => false | _ => true)
  match (if away then some (⟨2, .addrReserved, 0⟩ : Failed) else checkAccess s q) with
  | some f => some { cause := f.cause, addr := va, detail := if 70 ≤ f.rank ∧ f.rank ≤ 72 then xlateDetail f.level acc else 0 }
  | none => if n < 1 ∨ 2040 < n then some (.at .cmdRange 0) else none

/-- How the lowest executing lane's own accesses to the buffer go. -/
def mboxPath (s : State) (x : Ex) : Path :=
  { core := coreOf s x.ref, writer := writerOf x x.low, strong := none, ev := 0, rc := 0 }

/-- Bytes of a buffer as the lane reads them; whether any is poisoned. -/
def mboxRead (x : Ex) (p : Path) : List (Place × Nat × Nat) → State → List Byte × Bool × State
  | [], s => ([], false, s)
  | seg :: r, s =>
    let a := loadSeg s x p seg
    let t := mboxRead x p r a.2.2
    (a.1 ++ t.1, a.2.1 || t.2.1, t.2.2)

/-- Bytes of a buffer written as the lane writes them. -/
def mboxWrite (x : Ex) (p : Path) : List (Place × Nat × Nat) → List Byte → State → State
  | [], _, s => s
  | seg :: r, bs, s => mboxWrite x p r (bs.drop seg.2.2) (storeSeg s x p seg (bs.take seg.2.2))

/-- Whether a unit may use the debug mailbox with a buffer at an address: Primrose's handler crew under a debug level (R390), and with a buffer in the
context's memory only where PERMS grant that (R389). -/
def mboxAllowed (s : State) (u : UnitRef) (va : Nat) : Bool :=
  (serves s u).isSome && inPrimrose s (gridOf s u) && debugOf s (ctxOf s u) != .none
    && (winOf va != .global || debugGrants s (ctxOf s u) 2)

def execMboxSend (c : Ctl) (d a b : Spec) (s : State) : Host.Outcome State Fault Refusal :=
  .next (issue (.mboxSend c d a b) c [dstV d, srcW a, srcV b] [] .aborts (fun x s =>
    let va := (x.w a x.low).toNat
    let n := (x.v b x.low).toNat
    if !mboxAllowed s x.ref va then faultEx x .debugDenied 0 x.exec s
    else match mboxFail s x .load va n with
      | some e => failEx x e (1#64 <<< x.low) s
      | none =>
        if s.host.d2h.isSome then retireEnd x c (x.body.sendV x.exec d fun _ => 0xFFFFFFFF#32) s
        else
          let r := mboxRead x (mboxPath s x) (segments s (ctxOf s x.ref) (teamOf s x.ref) .load va n) s
          if r.2.1 then faultEx x .poison (BitVec.ofNat 64 va) (1#64 <<< x.low) s
          else
            let seq := s.host.d2hSeq + 1
            let s1 := raiseMsix { r.2.2 with host := { r.2.2.host with d2h := some r.1, d2hSeq := seq } } 63
            retireEnd x c (x.body.sendV x.exec d fun _ => seq) s1) s)

def execMboxRecv (c : Ctl) (d a b : Spec) (s : State) : Host.Outcome State Fault Refusal :=
  .next (issue (.mboxRecv c d a b) c [dstV d, srcW a, srcV b] [] .aborts (fun x s =>
    let va := (x.w a x.low).toNat
    let n := (x.v b x.low).toNat
    if !mboxAllowed s x.ref va then faultEx x .debugDenied 0 x.exec s
    else match mboxFail s x .store va n with
      | some e => failEx x e (1#64 <<< x.low) s
      | none => match s.host.h2d with
        | none => retireEnd x c (x.body.sendV x.exec d fun _ => 0) s
        | some msg =>
          let bs := msg.take n
          let segs := segments s (ctxOf s x.ref) (teamOf s x.ref) .store va bs.length
          let s1 := mboxWrite x (mboxPath s x) segs bs { s with host := { s.host with h2d := none } }
          let s2 := sendStores s1 x [(x.low, windowBytes segs va bs)]
          retireEnd x c (x.body.sendV x.exec d fun _ => BitVec.ofNat 32 msg.length) s2) s)

/-! ## ATTEST (R383) -/

/-- Bytes of a report (R384). -/
def reportLen : Nat := 17632

/-- Rows 1 to 5 of R161 for the caller data and the report buffer of `ATTEST`. -/
def attestFail (s : State) (x : Ex) (a b : Nat) : Option EngFail :=
  let rs := [(a, 64), (b, reportLen)]
  match rs.find? (fun r => decide (2 ^ 55 ≤ r.1)) with
  | some r => some (.at .addrNoncanon r.1)
  | none =>
    if reachesReserved a 64 then some (.at .addrReserved a)
    else if winOf b != .global || winOf (b + reportLen - 1) != .global then some (.at .addrReserved b)
    else if slotHit a 64 && !coplaced s (teamOf s x.ref) then some (.at .clusterWindow a)
    else (rs.find? fun r => r.1 % 64 != 0).map fun r => .at .misaligned r.1

/-- `ATTEST` checked, waiting for a place, or accepted. -/
def attestWork (i : Instr) (c : Ctl) (d a b : Spec) (cmd : CmdByte) (x : Ex) (s : State) : State :=
  let va := x.w a x.low
  let vb := x.w b x.low
  match attestFail s x va.toNat vb.toNat with
  | some e => failEx x e (1#64 <<< x.low) s
  | none =>
    if cmd.tv && (tokenAt x.body cmd.tok.toNat).assignFull then waitEx x (.tokenRoom cmd.tok.toNat) i s
    else if 16 ≤ s.sec.attest.length then waitEx x .attestPlace i s
    else
      let seq := s.sec.seq
      let o := assignToken x.body cmd.tv cmd.tok.toNat
      let n := takeUid s
      let rec_ : Cmd :=
        { kind := .attest va vb seq, by_ := issuerOf s x o.2, place := 0, sums := none, zone := [], bar := none, bytes := 0
          pos := 0, stopped := none, started := false, bad := none, probe := s.clock + 65536 }
      let s1 : State := { n.2 with
        cmds := tset n.2.cmds n.1 rec_
        sec := { n.2.sec with seq := seq + 1, attest := n.2.sec.attest ++ [n.1] } }
      retireEnd x c (o.1.sendV x.exec d fun _ => seq) s1

def execAttest (c : Ctl) (d a b : Spec) (cmd : CmdByte) (s : State) : Host.Outcome State Fault Refusal :=
  .next (issue (.attest c d a b cmd) c [dstV d, srcW a, srcW b] [] .aborts
    (attestWork (.attest c d a b cmd) c d a b cmd) s)

end Sys2Proof.Machine
end

