-- ==== Sys2Proof/Machine/TxInstr.lean ====
section
/-! DEFINITION. Group 0xB: transactions and ordered speculation (R212 to R225), and the events that time and grant them. -/

namespace Sys2Proof.Machine

open Sys2Proof

/-! ## Splitting a group -/

/-- A crew's group moves on, but for lanes that wait, each mask in a group of its own at its object. -/
def splitWaits (x : Ex) (c : Ctl) (i : Instr) (b : Body) (stuck : List (Mask × Awaited)) (s : State) : State :=
  if stuck.isEmpty then retire x c b s
  else
    let waits := stuck.map fun k =>
      ({ x.grp with
        mask := k.1, inPlay := false
        wait := some { obj := k.2, instr := some i, since := x.clock, probe := x.clock + 65536 } } : Group)
    let all := stuck.foldl (fun m k => m ||| k.1) (0 : Mask)
    let rest := { x.grp.issue x.next x.clock x.lag c with mask := x.grp.mask &&& ~~~all }
    putBody { s with cur := none } x.ref (setGroups b x.ref (waits ++ [rest]))

/-- A crew with the threads of some lanes changed. -/
def Body.modLanes (b : Body) (m : Mask) (f : Nat → Thread → Thread) : Body :=
  match b with
  | .ap _ => b
  | .crew c => .crew { c with lanes := c.lanes.mapIdx (fun l t => bif m.getLsbD l then t.map (f l) else t) }

/-- The transaction of a lane. -/
def Ex.tx (x : Ex) (l : Nat) : Tx := match x.thread l with | some t => t.tx | none => Tx.fresh

/-! ## Opening (R212, R222) -/

/-- A thread's transaction opened; the status counts from here. -/
def Tx.begin (t : Tx) (ts isSpec irrev : Bool) (d : Spec) (after : Addr) (dom : Nat) (iter : W32) (clock : Nat) : Tx :=
  { t with active := true, isSpec, ts, irrev, dReg := d, after, dom, iter, rused := 0, wused := 0, shown := 0, checkAt := clock + 2 ^ 20 }

/-- The logs of some lanes cleared: every entry empty (R210, R212). -/
def clearLogs (s : State) (c : Crew) (ls : List Nat) : State :=
  ls.foldl (fun s l => match c.lanes.getD l none with
    | none => s
    | some t =>
      let a := logArea s c t
      padWrite s a.team a.off (List.replicate (16 * (a.nr + a.nw)) 0)) s

/-- The next iteration of a grid's speculation domain (R222). -/
def specNext (s : State) (grid dom : Nat) : W32 :=
  match tget s.grids grid with | some g => g.specN.getD dom 0 | none => 0

/-- Lanes that open: those whose abort count allows a revocable attempt, and one that may take, or has been given, the serial-commit
token; the others wait for their iteration or for the token, in order of request (R212, R220, R222). -/
def openLanes (i : Instr) (c : Ctl) (ts : Bool) (sp : Option (Nat × (Nat → W32))) (d : Spec) (x : Ex) (s : State) : State :=
  match x.ref with
  | .access _ => retire x c x.body s
  | .crew uid _ =>
    let hard := x.lanes.filter fun l => decide (9 ≤ (x.tx l).k)
    let early : Nat → Bool := fun l => match sp with
      | some (dom, it) => it l != specNext s (gridOf s x.ref) dom
      | none => false
    let notYet := hard.filter early
    let asks := hard.filter fun l => !early l
    let queued := s.dir.serialAsk
    let taker := match s.dir.serial with
      | some h => asks.find? fun l => h == (uid, l)
      | none => if queued.isEmpty then asks.head? else none
    let waits := asks.filter fun l => some l != taker
    let stuck := (notYet.map fun l => (1#64 <<< l, Awaited.spec (match sp with | some (dom, _) => dom | none => 0)))
      ++ waits.map fun l => (1#64 <<< l, Awaited.serial)
    let go := x.exec &&& ~~~(maskOf (notYet ++ waits))
    let s0 := match x.body with | .crew cr => clearLogs s cr (lanesOf go) | .ap _ => s
    let s1 := acquireAt { s0 with dir := { s0.dir with
      serial := match taker with | some l => some (uid, l) | none => s.dir.serial
      serialAsk := queued ++ (waits.map fun l => (uid, l)).filter fun h => !queued.contains h } } (coreOf s x.ref) .l2
    let b := x.body.modLanes go fun l t =>
      { t with tx := t.tx.begin ts sp.isSome (some l == taker) d x.next (match sp with | some (dom, _) => dom | none => 0)
                       (match sp with | some (_, it) => it l | none => 0) x.clock }
    splitWaits x c i (b.sendV go d fun _ => 0) stuck s1

def execTxopen (c : Ctl) (ts : Bool) (d : Spec) (s : State) : Host.Outcome State Fault Refusal :=
  .next (issue (.txopen c ts d) c [dstV d] [] .aborts (openLanes (.txopen c ts d) c ts none d) s)

def execSpopen (c : Ctl) (ts : Bool) (dom : BitVec 3) (d a : Spec) (s : State) : Host.Outcome State Fault Refusal :=
  .next (issue (.spopen c ts dom d a) c [dstV d, srcV a] [] .aborts (fun x s =>
    openLanes (.spopen c ts dom d a) c ts (some (dom.toNat, x.v a)) d x s) s)

/-! ## Committing (R215, R216) -/

/-- A lane's log granules for the overlap test: words written, words read, lines read. -/
structure Grans where
  ts     : Bool
  writes : List Nat
  reads  : List Nat
  deriving DecidableEq, Repr

def gransOf (s : State) (c : Crew) (t : Thread) : Grans :=
  { ts := t.tx.ts, writes := (writeLog s c t).map (·.addr), reads := (readLog s c t).map (·.addr) }

/-- Whether two lanes overlap: words are compared when both are `.val`, lines otherwise. -/
def overlapLanes (a b : Grans) : Bool :=
  let unit := if a.ts || b.ts then 128 else 8
  let g : List Nat → List Nat := fun l => l.map (· / unit)
  let meet : List Nat → List Nat → Bool := fun p q => p.any fun n => q.contains n
  meet (g a.writes) (g (b.writes ++ b.reads)) || meet (g b.writes) (g a.reads)

/-- The winners of a commit set in its order: abort count descending, then lane ascending. -/
def winners (gs : List (Nat × Nat × Grans)) : List Nat :=
  let order := sortBy (fun a b => decide (b.2.1 < a.2.1) || (a.2.1 == b.2.1 && decide (a.1 ≤ b.1))) gs
  (order.foldl (fun (w : List (Nat × Nat × Grans)) g =>
    if w.any fun x => overlapLanes x.2.2 g.2.2 then w else w ++ [g]) []).map (·.1)

/-- Where a lane's stores go: physical address and byte; or the first translation fault (R215, R372). DESIGN CHOICE (log 53): a logged word that
lies in a bound view by then raises STREAM_DIR. -/
def storesOf (s : State) (ctx : Nat) (ws : List LogEntry) : Except (Cause × Nat × Nat) (List (Nat × Byte)) :=
  ws.foldl (fun (acc : Except (Cause × Nat × Nat) (List (Nat × Byte))) (e : LogEntry) => match acc with
    | .error f => .error f
    | .ok bs => match placeOf s ctx none (some .store) e.addr with
      | .ok (.dev pa) => .ok (bs ++ ((List.range 8).filter fun b => e.mask.getLsbD b).map fun b =>
          (pa + b, (e.data >>> (8 * b)).setWidth 8))
      | .ok _ => .error (.streamDir, 0, e.addr)
      | .error f => .error (f.1, f.2, e.addr)) (.ok [])

/-- The bytes of a commit written to one line at the L2, whose version advances once; copies on the committing core's path take them (R137,
R143, R215). -/
def commitLine (s : State) (core line : Nat) (bs : List (Nat × Byte)) : State :=
  let c := coreAt s core
  let s := setCore s core { c with l1 := bs.foldl (fun l b => refresh l b.1 [b.2]) c.l1 }
  let d := clusterAt s (core / 4)
  let s := setCluster s (core / 4) { d with cache := bs.foldl (fun l b => refresh l b.1 [b.2]) d.cache }
  l2Cells s line bs (some (core / 4))

/-- The stores of committing lanes written, line by line in ascending address. -/
def commitStores (s : State) (core : Nat) (bs : List (Nat × Byte)) : State :=
  let lines := sortBy (fun a b => decide (a ≤ b)) (bs.map fun b => b.1 / 128).eraseDups
  lines.foldl (fun s ln => commitLine s core ln (bs.filter fun b => b.1 / 128 == ln)) s

/-- A thread's transaction after a commit. -/
def Tx.commit (t : Tx) : Tx := { t with active := false, irrev := false, k := 0, shown := 0, rused := 0, wused := 0 }

/-- Lanes of an instruction that end irrevocable attempts: their lines and the token are given up (R220). -/
def endIrrev (s : State) (uid : Nat) (m : Mask) : State := (lanesOf m).foldl (fun s l => endIrrevocable s uid l) s

/-- Irrevocable attempts of some lanes end: their lines and the token are given up before any other lane of the issue commits (R220). -/
def passIrrev (x : Ex) (uid : Nat) (irr : Mask) (s : State) : Ex × State :=
  if irr = 0#64 then (x, s)
  else
    let b := (x.body.modLanes irr fun _ t => { t with tx := t.tx.commit }).setEntry irr x.next
    ({ x with body := b }, putBody (endIrrev s uid irr) x.ref b)

/-- The rest of a commit, over lanes that win: they wait for held lines, fail validation, or write and leave. -/
def commitWinners (i : Instr) (c : Ctl) (uid : Nat) (cr : Crew) (win : Mask) (x : Ex) (s : State) : State :=
  let core := cr.core
  let logs := (lanesOf win).filterMap fun l => match cr.lanes.getD l none with
    | some t => some (l, storesOf s cr.ctx (writeLog s cr t))
    | none => none
  let faults := logs.filterMap fun e => match e.2 with | .error f => some (e.1, f) | .ok _ => none
  match faults with
  | (_, f) :: _ =>
    faultUnit s x.ref x.grp.mask x.pc
      { cause := f.1, addr := BitVec.ofNat 64 f.2.2, mask := maskOf (faults.map (·.1))
        detail := if f.1 = .streamDir then 0 else xlateDetail f.2.1 .store, exact := false }
  | [] =>
    let stores := logs.map fun e => (e.1, match e.2 with | .ok b => b | .error _ => [])
    let lines := (stores.map fun e => e.2.map fun b => b.1 / 128).flatten
    match lines.find? (fun ln => heldByOther s (uid, lowLane win) ln) with
    | some ln => splitWaits x c i x.body [(win, .line ln)] s
    | none =>
      let bad := maskOf ((lanesOf win).filter fun l => !validates s uid l)
      let good := win &&& ~~~bad
      let s1 := commitStores s core ((stores.filter fun e => good.getLsbD e.1).map (·.2)).flatten
      let s3 := match bodyOf s1 x.ref with
        | some b => putBody s1 x.ref ((b.modLanes good fun _ t => { t with tx := t.tx.commit }).setEntry good x.next)
        | none => s1
      let low := match x.ref with | .crew _ l => l | .access _ => 0
      let s4 := if bad = 0#64 then s3 else abortLanes s3 uid low bad .conflict none false
      match (if bad = 0#64 then some { x with body := (bodyOf s4 x.ref).getD x.body } else x.without bad s4) with
      | some y => retire y c y.body s4
      | none => { s4 with cur := none }

/-- `TXCOMMIT`: lanes in a speculation abort; the rest is a release (R149); irrevocable attempts end; the others wait while the serial-commit
token is held; then those that lose abort with INTRA, and the winners commit (R215, R220). -/
def commitLanes (i : Instr) (c : Ctl) (x : Ex) (s : State) : State :=
  match x.ref, x.body with
  | .crew uid low, .crew cr =>
    let spec := maskOf (x.lanes.filter fun l => (x.tx l).active && (x.tx l).isSpec)
    (match instrAbort s x spec false with
    | some r => r.1
    | none =>
      let irr := irrevLanes cr x.exec
      let set := txLanes cr x.exec &&& ~~~irr
      if irr ||| set = 0#64 then retire x c x.body s
      else match releaseObject s x.ref .device with
      | some obj => splitWaits x c i x.body [(irr ||| set, obj)] s
      | none =>
      let z := passIrrev x uid irr (releaseAt s (coreOf s x.ref) .l2)
      let x := z.1
      let s := z.2
      if set = 0#64 then retire x c x.body s
      else if s.dir.serial.isSome then splitWaits x c i x.body [(set, .serial)] s
      else
        let gs := (lanesOf set).filterMap fun l => match cr.lanes.getD l none with
          | some t => some (l, t.tx.k, gransOf s cr t)
          | none => none
        let win := maskOf (winners gs)
        let lose := set &&& ~~~win
        if lose = 0#64 then commitWinners i c uid cr win x s
        else
          let s1 := abortLanes s uid low lose .intra none false
          match x.without lose s1, tget s1.crews uid with
          | some y, some cr1 => commitWinners i c uid cr1 win y s1
          | _, _ => { s1 with cur := none })
  | _, _ => retire x c x.body s

def execTxcommit (c : Ctl) (s : State) : Host.Outcome State Fault Refusal :=
  .next (issue (.txcommit c) c [] [] .runs (commitLanes (.txcommit c) c) s)

/-! ## Ordered commits (R223) -/

/-- What becomes of the lanes of an `SPCOMMIT`. -/
structure SpOut where
  s     : State
  done  : List Nat
  stale : List Nat
  order : List Nat
  stuck : List (Nat × Awaited)
  fault : Option (Nat × Cause × Nat × Nat)

/-- One lane of an `SPCOMMIT`, in the state that the lanes before it have left. -/
def spLane (uid grid : Nat) (cr : Crew) (o : SpOut) (l : Nat) : SpOut :=
  match cr.lanes.getD l none with
  | none => o
  | some t =>
    let n := specNext o.s grid t.tx.dom
    let dist := (t.tx.iter - n).toNat
    let bump : State → State := fun s => modGrid s grid fun g => { g with specN := lset g.specN t.tx.dom (n + 1) }
    if 2 ^ 31 ≤ dist then { o with stale := o.stale ++ [l] }
    else if dist ≠ 0 then { o with stuck := o.stuck ++ [(l, .spec t.tx.dom)] }
    else if t.tx.irrev then { o with s := bump (endIrrevocable o.s uid l), done := o.done ++ [l] }
    else if (match o.s.dir.serial with | some h => h != (uid, l) | none => false) then
      { o with stuck := o.stuck ++ [(l, .serial)] }
    else match storesOf o.s cr.ctx (writeLog o.s cr t) with
      | .error f => if o.fault.isSome then o else { o with fault := some (l, f) }
      | .ok bs => match bs.find? (fun b => heldByOther o.s (uid, l) (b.1 / 128)) with
        | some b => { o with stuck := o.stuck ++ [(l, .line (b.1 / 128))] }
        | none =>
          if (readLog o.s cr t).all (entryValid o.s (uid, l) cr.ctx) then
            { o with s := bump (commitStores o.s cr.core bs), done := o.done ++ [l] }
          else { o with order := o.order ++ [l] }

/-- `SPCOMMIT`: a release (R149), and the lanes one at a time in ascending order of iteration. -/
def spCommitLanes (i : Instr) (c : Ctl) (x : Ex) (s : State) : State :=
  match x.ref, x.body with
  | .crew uid low, .crew cr =>
    let plain := maskOf (x.lanes.filter fun l => (x.tx l).active && !(x.tx l).isSpec)
    (match instrAbort s x plain false with
    | some r => r.1
    | none =>
      let grid := gridOf s x.ref
      let dist : Nat → Nat := fun l => ((x.tx l).iter - specNext s grid (x.tx l).dom).toNat
      let ls := sortBy (fun a b => decide (dist a ≤ dist b)) (x.lanes.filter fun l => (x.tx l).active)
      if ls.isEmpty then retire x c x.body s
      else match releaseObject s x.ref .device with
      | some obj => splitWaits x c i x.body [(maskOf ls, obj)] s
      | none =>
      let s := releaseAt s (coreOf s x.ref) .l2
      let o := ls.foldl (spLane uid grid cr) { s, done := [], stale := [], order := [], stuck := [], fault := none }
      match o.fault, o.done with
      | some (l, f), [] =>
        faultUnit s x.ref x.grp.mask x.pc
          { cause := f.1, addr := BitVec.ofNat 64 f.2.2, mask := 1#64 <<< l
            detail := if f.1 = .streamDir then 0 else xlateDetail f.2.1 .store, exact := false }
      | _, _ =>
        let m := maskOf o.done
        let s1 := match bodyOf o.s x.ref with
          | some b => putBody o.s x.ref ((b.modLanes m fun _ t => { t with tx := t.tx.commit }).setEntry m x.next)
          | none => o.s
        let s2 := if o.stale.isEmpty then s1 else abortLanes s1 uid low (maskOf o.stale) .stale none false
        let y1 := if o.stale.isEmpty then some { x with body := (bodyOf s2 x.ref).getD x.body } else x.without (maskOf o.stale) s2
        match y1 with
        | none => { s2 with cur := none }
        | some y =>
          let low1 := match y.ref with | .crew _ l => l | .access _ => 0
          let s3 := if o.order.isEmpty then s2 else abortLanes s2 uid low1 (maskOf o.order) .order none false
          match (if o.order.isEmpty then some y else y.without (maskOf o.order) s3) with
          | none => { s3 with cur := none }
          | some z =>
            let left := match o.fault with | some (l, _) => [(l, Awaited.scoreboard)] | none => []
            splitWaits z c i z.body ((o.stuck ++ left).map fun e => (1#64 <<< e.1, e.2)) s3)
  | _, _ => retire x c x.body s

def execSpcommit (c : Ctl) (s : State) : Host.Outcome State Fault Refusal :=
  .next (issue (.spcommit c) c [] [] .runs (spCommitLanes (.spcommit c) c) s)

/-! ## TXQUIT and TXSTAT -/

def execTxquit (c : Ctl) (code : BitVec 7) (s : State) : Host.Outcome State Fault Refusal :=
  .next (issue (.txquit c code) c [] [] .runs (fun x s =>
    match x.ref, x.body with
    | .crew uid low, .crew cr =>
      let irr := irrevLanes cr x.exec
      let m := txLanes cr x.exec &&& ~~~irr
      if irr ≠ 0#64 then
        (if m = 0#64 then irrevFault s x uid irr
        else
          let s1 := abortLanes s uid low m .explicit (some code) false
          match x.without m s1 with
          | some y => irrevFault s1 y uid irr
          | none => s1)
      else if m = 0#64 then retire x c x.body s
      else
        let s1 := abortLanes s uid low m .explicit (some code) false
        (match x.without m s1 with
        | some y => retire y c y.body s1
        | none => { s1 with cur := none })
    | _, _ => retire x c x.body s) s)

def execTxstat (c : Ctl) (d : Spec) (s : State) : Host.Outcome State Fault Refusal :=
  .next (issue (.txstat c d) c [dstV d] [] .runs (fun x s =>
    retire x c (x.body.sendV x.exec d fun l => (x.tx l).status) s) s)

/-! ## Events -/

/-- TX_BACKOFF_EXPIRE (R219): a group's wait after an abort ends. -/
def execTxBackoffExpire (u : UnitRef) (s : State) : Host.Outcome State Fault Refusal :=
  .next (match waitingAt s u with
    | some w => (match w.obj with
      | .backoff n => if n ≤ s.clock then clearWait s u else s
      | _ => s)
    | none => s)

/-- TX_PERIODIC_VALIDATE (R219): a transaction of 2^20 cycles validates its read set. -/
def execTxPeriodicValidate (crew lane : Nat) (s : State) : Host.Outcome State Fault Refusal :=
  .next (match tget s.crews crew with
    | none => s
    | some c => match c.lanes.getD lane none with
      | none => s
      | some t =>
        if !t.tx.active || t.tx.irrev || c.held.isSome || decide (s.clock < t.tx.checkAt) then s
        else if validates s crew lane then
          modThread s crew lane fun t => { t with tx := { t.tx with checkAt := t.tx.checkAt + 2 ^ 20 } }
        else match c.groups.find? (fun g => g.mask.getLsbD lane) with
          | some g => abortLanes s crew (lowLane g.mask) (1#64 <<< lane) .conflict none false
          | none => s)

/-- Whether a die may collect a line's tokens: no commit holds them, and the oldest persistent request for them, if any, is its own. -/
def tokensFree (s : State) (line die : Nat) : Bool :=
  (lineAt s line).holder.isNone && (match s.dir.persist.find? (fun p => p.1 == line) with | some p => p.2 == die | none => true)

/-- COMMIT_TOKEN_GRANT (R215): a commit, a load or a store that waits for a line, or for the end of an irrevocable attempt, can go on. A die that
fails twice has made its persistent request, and asks no more until that is served (R145). -/
def execCommitTokenGrant (u : UnitRef) (s : State) : Host.Outcome State Fault Refusal :=
  .next (match waitingAt s u with
    | some w => (match w.obj with
      | .line l =>
        let die := coreOf s u / 32
        if tokensFree s l die then clearWait s u else if s.dir.persist.contains (l, die) then s else tokensFail s l die
      | .serial => (match w.instr with
        | some (.txcommit _) | some (.spcommit _) => if s.dir.serial.isNone then clearWait s u else s
        | _ => s)
      | _ => s)
    | none => s)

/-- A unit that is waiting issues its instruction now, as the effect of an event; what was selected stays selected. -/
def performAt (s : State) (u : UnitRef) (f : State → State) : State :=
  match groupAt s u, bodyOf s u with
  | some g, some b =>
    let s1 := f { putBody s u (setGroups b u [{ g with parked := s.clock }]) with cur := some u }
    { s1 with cur := s.cur }
  | _, _ => s

/-- The unit whose group waits at an object for a lane. -/
def waiterOf (s : State) (uid lane : Nat) : UnitRef :=
  match tget s.crews uid with
  | some c => (match c.groups.find? (fun g => g.mask.getLsbD lane) with
    | some g => .crew uid (lowLane g.mask)
    | none => .crew uid lane)
  | none => .crew uid lane

/-- An `TXOPEN` or `SPOPEN` issued again. -/
def reopen (i : Option Instr) (s : State) : State :=
  match i with
  | some (.txopen c ts d) => issue (.txopen c ts d) c [dstV d] [] .aborts (openLanes (.txopen c ts d) c ts none d) s
  | some (.spopen c ts dom d a) =>
    issue (.spopen c ts dom d a) c [dstV d, srcV a] [] .aborts
      (fun x s => openLanes (.spopen c ts dom d a) c ts (some (dom.toNat, x.v a)) d x s) s
  | _ => s

/-- SERIAL_COMMIT_GRANT (R220): the first that asked takes the token and starts its irrevocable attempt. -/
def execSerialCommitGrant (s : State) : Host.Outcome State Fault Refusal :=
  .next (match s.dir.serial, s.dir.serialAsk with
    | none, h :: r =>
      let u := waiterOf s h.1 h.2
      let s1 := { s with dir := { s.dir with serial := some h, serialAsk := r } }
      (match waitingAt s u with
      | some w => performAt s1 u (reopen w.instr)
      | none => { s with dir := { s.dir with serialAsk := r } })
    | _, _ => s)

/-- SPEC_ITERATION_GRANT (R222, R223): a thread that waits for its iteration finds it next. -/
def execSpecIterationGrant (u : UnitRef) (s : State) : Host.Outcome State Fault Refusal :=
  .next (match waitingAt s u, u with
    | some w, .crew uid lane => (match w.obj, tget s.crews uid with
      | .spec dom, some c =>
        (match w.instr, c.lanes.getD lane none with
        | some (.spopen _ _ _ _ a), some _ =>
          if (if a = 255#8 then 0 else ((Body.crew c).reg lane a.toNat).setWidth 32) = specNext s c.grid dom then clearWait s u
          else s
        | some (.spcommit _), some t =>
          let dist := (t.tx.iter - specNext s c.grid dom).toNat
          if dist = 0 ∨ 2 ^ 31 ≤ dist then clearWait s u else s
        | _, _ => s)
      | _, _ => s)
    | _, _ => s)

end Sys2Proof.Machine
end

