-- ==== Sys2Proof/Machine/Shape.lean ====
section
/-! DEFINITION. What the issue of each instruction looks at before its effect, as one table: the selectors judge by it whether a group is ready
(R342). -/

namespace Sys2Proof.Machine

open Sys2Proof

/-- What the issue of an encoded instruction looks at before its effect: its control fields, its operands in the order of its encoding (destination
first), the decode checks it adds, and what a transaction makes of it. -/
structure Shape where
  ctl   : Ctl
  ops   : List Opnd
  extra : List Cause
  rule  : TxRule
  deriving DecidableEq, Repr

/-- The shape of an instruction that may issue in a transaction, and of one that aborts it (R214). -/
def shapeRuns (c : Ctl) (ops : List Opnd) : Shape := { ctl := c, ops, extra := [], rule := .runs }
def shapeAborts (c : Ctl) (ops : List Opnd) : Shape := { ctl := c, ops, extra := [], rule := .aborts }

/-- A load or store of a size: its data register and its address register. -/
def dataOf (sz : Size) (c : Spec) (rd : Bool) : Opnd := { cls := sizeCls sz, code := c, rd }

/-- The address register of a `BRA`. -/
def branchOps (form : BraForm) (a : Spec) : List Opnd := match form with | .always => [] | _ => [srcV a]

/-- The control fields and operands of the register-only instructions (groups 0x0 to 0x2 and 0x5 to 0x7). -/
def regOps : Instr → Option (Ctl × List Opnd)
  | .iadd c _ d a b | .isub c _ d a b | .imulh c _ d a b | .imin c _ d a b | .imax c _ d a b | .idiv c _ d a b | .irem c _ d a b
  | .shl c _ d a b | .shr c _ d a b | .sar c _ d a b | .rot c _ d a b | .fmin c _ d a b | .fmax c _ d a b | .fdiv c _ d a b
  | .imul c d a b | .hmin2 c _ _ d a b | .hmax2 c _ _ d a b | .hset2 c _ _ d a b | .fadd c _ _ d a b | .fmul c _ _ d a b
  | .hadd2 c _ _ _ d a b | .hmul2 c _ _ _ d a b => some (c, [dstV d, srcV a, srcV b])
  | .iaddImm c _ d a _ | .isubImm c _ d a _ | .imulhImm c _ d a _ | .iminImm c _ d a _ | .imaxImm c _ d a _ | .idivImm c _ d a _
  | .iremImm c _ d a _ | .shlImm c _ d a _ | .shrImm c _ d a _ | .sarImm c _ d a _ | .rotImm c _ d a _ | .fminImm c _ d a _
  | .fmaxImm c _ d a _ | .imulImm c d a _ | .hmin2Imm c _ _ d a _ | .hmax2Imm c _ _ d a _ | .hset2Imm c _ _ d a _
  | .faddImm c _ _ d a _ | .fmulImm c _ _ d a _ | .hadd2Imm c _ _ _ d a _ | .hmul2Imm c _ _ _ d a _ | .iabs c _ d a | .ineg c _ d a
  | .popc c d a | .clz c d a | .brev c d a | .cvti c _ d a | .mov c false d a | .frnd c _ d a | .rcp c d a | .rsq c d a | .sqrt c d a
  | .exp2 c d a | .log2 c d a | .fsin c d a | .fcos c d a | .tanh c d a => some (c, [dstV d, srcV a])
  | .imad c d a b x | .ltab c d a b x _ | .fshf c _ d a b x | .bfx c _ d a b x | .bfi c d a b x | .ffma c _ _ d a b x
  | .hfma2 c _ _ _ d a b x => some (c, [dstV d, srcV a, srcV b, srcV x])
  | .movi c d _ => some (c, [dstV d])
  | .movk c d a b => some (c, [{ cls := .kd, code := d, rd := false }, srcV a, srcV b])
  | .sel c false d a b p => some (c, [dstV d, srcV a, srcV b, srcP p])
  | .imadw c _ d a b x => some (c, [dstW d, srcV a, srcV b, srcW x])
  | .lea c _ _ d a b => some (c, [dstW d, srcW a, srcV b])
  | .iadd64 c _ d a b => some (c, [dstW d, srcW a, srcW b])
  | .iadd64Imm c _ d a _ | .mov c true d a => some (c, [dstW d, srcW a])
  | .moviB64 c d _ _ => some (c, [dstW d])
  | .sel c true d a b p => some (c, [dstW d, srcW a, srcW b, srcP p])
  | .iset c _ _ d a b | .fset c _ d a b | .fclass c d a b => some (c, [dstP d, srcV a, srcV b])
  | .isetImm c _ _ d a _ | .fsetImm c _ d a _ | .fclassImm c d a _ => some (c, [dstP d, srcV a])
  | .ptab c d a b x _ => some (c, [dstP d, srcP a, srcP b, srcP x])
  | _ => none

/-- The shape of every encoded instruction that is not register-only; `s` says how wide the selected crew is and what its kernel and
team declare. -/
def otherShape (s : State) : Instr → Option Shape
  | .iaddc c d a b p => some (shapeRuns c [dstV d, srcV a, { cls := .pd, code := p, rd := true }, srcV b])
  | .iaddcImm c d a _ p => some (shapeRuns c [dstV d, srcV a, { cls := .pd, code := p, rd := true }])
  | .rdsp c d sp => some (shapeRuns c [dstX (specialWide sp) d])
  | .bra c form a off => some { shapeRuns c (branchOps form a) with extra := offsetCheck off }
  | .braHint c form a off _ => some { shapeRuns c (branchOps form a) with extra := offsetCheck off }
  | .brx c a => some (shapeRuns c [srcW a])
  | .call c d _ => some (shapeRuns c [dstW d])
  | .callHint c d _ _ => some (shapeRuns c [dstW d])
  | .callx c d a => some (shapeRuns c [dstW d, srcW a])
  | .ret c a => some (shapeRuns c [srcW a])
  | .exit c => some { shapeRuns c [] with rule := .leaves }
  | .reform c => some { shapeRuns c [] with rule := .leaves }
  | .enrol c j => some (shapeAborts c [opJ j])
  | .join c j => some (shapeAborts c [opJ j])
  | .yield c => some (shapeRuns c [])
  | .nop c => some (shapeRuns c [])
  | .replay c _ => some (shapeAborts c [])
  | .shfl c _ wide d a b x v => some (shapeAborts c [dstX wide d, srcX wide a, srcV b, srcX wide x, dstP v])
  | .vote c mode d a => some (shapeAborts c [if mode = .ballot then dstX (curWidth s == 64) d else dstP d, srcP a])
  | .redc c op d a x v => some (shapeAborts c [dstX (op == .maxidx) d, srcX (op == .maxidx) a, srcX (op == .maxidx) x, dstP v])
  | .scan c op _ d a x v => some (shapeAborts c [dstX (op == .maxidx) d, srcX (op == .maxidx) a, srcX (op == .maxidx) x, dstP v])
  | .matchLanes c wide d a => some (shapeAborts c [dstX (curWidth s == 64) d, srcX wide a])
  | .fcvt c _ _ src dst d a => some (shapeRuns c [dstX (dst == .int64) d, srcX (src == .int64) a])
  | .fcvtp c _ _ _ _ d a b x => some (shapeRuns c [dstV d, srcV a, srcV b, srcV x])
  | .ld c sz _ d a => some (shapeRuns c [dataOf sz d false, srcW a])
  | .st c sz _ a b => some (shapeRuns c [srcW a, dataOf sz b true])
  | .lds c sz _ d a => some (shapeAborts c [dataOf sz d false, srcV a])
  | .sts c sz _ a b => some (shapeAborts c [srcV a, dataOf sz b true])
  | .ldc c sz _ d a => some (shapeAborts c [dataOf sz d false, srcW a])
  | .stc c sz _ a b => some (shapeAborts c [srcW a, dataOf sz b true])
  | .fence c _ => some (shapeAborts c [])
  | .cctl c _ _ a b => some (shapeAborts c [srcW a, srcV b])
  | .icinv c _ a b => some (shapeAborts c [srcW a, srcV b])
  | .pref c _ a => some (shapeRuns c [srcW a])
  | .atom c _ wide _ _ d a b => some (shapeAborts c [dstX wide d, srcW a, srcX wide b])
  | .atomcas c wide _ _ d a b x => some (shapeAborts c [dstX wide d, srcW a, srcX wide b, srcX wide x])
  | .atoms c _ wide _ _ d a b => some (shapeAborts c [dstX wide d, srcV a, srcX wide b])
  | .red c _ wide _ a b => some (shapeAborts c [srcW a, srcX wide b])
  | .astream c q a b x _ _ _ => some { shapeAborts c [srcW a, srcV b, srcV x] with extra := queueCheck s q }
  | .opush c q a n => some
    { shapeAborts c ((List.range n.toNat).map fun i => srcW (a + BitVec.ofNat 8 i)) with
      extra := queueCheck s q ++ (if a.toNat + n.toNat ≤ 32 then [] else [.illegalReg]) }
  | .opop c wide d q => some { shapeAborts c [dstX wide d] with extra := queueCheck s q }
  | .gather c _ _ d a b x _ cmd => some (shapeAborts c ([srcW d, srcW a, srcW b] ++ opBar cmd x))
  | .scatter c _ _ d a b x _ cmd => some (shapeAborts c ([srcW d, srcW a, srcW b] ++ opBar cmd x))
  | .cpy c d a b x cmd => some (shapeAborts c ([srcW d, srcW a, srcV b] ++ opBar cmd x))
  | .cpy2g c d a b x _ _ _ _ _ cmd => some (shapeAborts c ([srcW d, srcW a, srcW b] ++ opBar cmd x))
  | .cpyt c _ d a b x _ _ _ _ _ cmd => some (shapeAborts c ([srcW d, srcW a, srcW b] ++ opBar cmd x))
  | .cpyr c d a b x _ cmd => some (shapeAborts c ([srcW d, srcW a, srcV b] ++ opBar cmd x))
  | .fred c _ d a b x _ _ _ cmd => some (shapeAborts c ([srcW d, srcW a, srcV b] ++ opBar cmd x))
  | .chain c _ _ d a b x ops cmd =>
    let names := chainNames ((List.range 8).map (Sys2Proof.chainOp ops))
    some { shapeAborts c ([srcW d, srcW a, srcV b] ++ (names.map fun j => srcW (b + BitVec.ofNat 8 j)) ++ opBar cmd x) with
           extra := if names.any fun j => decide (31 < b.toNat + j) then [.illegalReg] else [] }
  | .pdec c a x cmd => some (shapeAborts c (srcW a :: opBar cmd x))
  | .close c t => some (shapeAborts c [opT t])
  | .waitb c _ d t => some (shapeAborts c [dstV d, opT t])
  | .barinit c a b _ => some (shapeAborts c [srcV a, srcV b])
  | .bararv c _ x a b _ => some (shapeAborts c (if x then [srcV a, srcV b] else [srcV a]))
  | .barexp c a b _ => some (shapeAborts c [srcV a, srcV b])
  | .barwait c _ d a b => some (shapeAborts c [dstV d, srcV a, srcV b])
  | .bartest c _ d a b => some (shapeAborts c [dstV d, srcV a, srcV b])
  | .txopen c _ d => some (shapeAborts c [dstV d])
  | .spopen c _ _ d a => some (shapeAborts c [dstV d, srcV a])
  | .txcommit c => some (shapeRuns c [])
  | .spcommit c => some (shapeRuns c [])
  | .txquit c _ => some (shapeRuns c [])
  | .txstat c d => some (shapeRuns c [dstV d])
  | .mzero c _ m => some (shapeAborts c [opM m])
  | .mld c m a _ => some (shapeAborts c [opM m, srcW a])
  | .mst c a m _ => some (shapeAborts c [srcW a, opM m])
  | .mma c _ m a b => some (shapeAborts c [opM m, srcW a, srcW b])
  | .mloop c _ m a b _ _ _ _ _ _ _ => some (shapeAborts c [opM m, srcW a, srcW b])
  | .mconv c _ m a b x _ _ => some (shapeAborts c [opM m, srcW a, srcW b, srcV x])
  | .mmas c _ x2 m a b x => some (shapeAborts c [opM m, srcW a, srcW b, srcX x2 x])
  | .mcomp c d a b => some (shapeAborts c [dstV d, srcW a, srcW b])
  | .mqnt c _ _ fmt m b => some
    { shapeAborts c [opM m, srcW b] with extra := if m.toNat % (quantAccs fmt m).length = 0 then [] else [.illegalReg] }
  | .mstat c d m => some (shapeAborts c [dstV d, opM m])
  | .fsetm c wide f a => some (shapeAborts c [{ cls := .f, code := f, rd := false }, if wide then srcW a else srcP a])
  | .sbind c _ d a => some (shapeAborts c [dstV d, srcW a])
  | .sunbind c a => some (shapeAborts c [srcV a])
  | .ginv c _ a => some (shapeAborts c [srcW a])
  | .sstat c d a => some (shapeAborts c [dstV d, srcV a])
  | .launch c a _ => some (shapeAborts c [srcW a])
  | .spawn c pool _ a _ => some { shapeAborts c [srcBlk a] with extra := poolCheck s pool }
  | .wpop c pool d p => some { shapeAborts c [dstBlk d, dstP p] with extra := poolCheck s pool }
  | .wsteal c pool d a p => some { shapeAborts c [dstBlk d, srcV a, dstP p] with extra := poolCheck s pool }
  | .sysr c _ d => some (shapeAborts c [dstV d])
  | .sysw c _ b => some (shapeAborts c [srcV b])
  | .trap c _ => some (shapeAborts c [])
  | .bkpt c => some (shapeAborts c [])
  | .tretRetry c d a b => some (shapeAborts c [dstV d, srcW a, srcV b])
  | .tretNext c d a b => some (shapeAborts c [dstV d, srcW a, srcV b])
  | .tretError c d a b => some (shapeAborts c [dstV d, srcW a, srcV b])
  | .tretEnd c d a b => some (shapeAborts c [dstV d, srcW a, srcV b])
  | .mboxSend c d a b => some (shapeAborts c [dstV d, srcW a, srcV b])
  | .mboxRecv c d a b => some (shapeAborts c [dstV d, srcW a, srcV b])
  | .attest c d a b _ => some (shapeAborts c [dstV d, srcW a, srcW b])
  | _ => none

/-- How an encoded instruction issues; none for the device's events. -/
def issueShape (s : State) (i : Instr) : Option Shape :=
  match regOps i with
  | some (c, ops) => some (shapeRuns c ops)
  | none => otherShape s i

/-! ## Readiness (R342) -/

/-- What keeps a unit's next instruction from issuing: tokens of its WAIT field, or a register that the scoreboard tracks. -/
inductive Unready where
  | tokens (i : Instr) (m : BitVec 8)
  | scoreboard (i : Instr)
  | uniform (until_ : Nat)

/-- Why a unit whose STALL count has run cannot issue its next instruction in this cycle; none where it can, or the issue would be a fault. -/
def unreadyAt (s : State) (u : UnitRef) : Option Unready :=
  match fetchNext { s with cur := some u } u with
  | .instr i s1 =>
    (match issueShape s1 i, bodyOf s1 u with
    | some p, some b => (match groupOf b u with
      | some g =>
        if (badDecode s1 b p.ctl p.ops p.extra).isSome then none
        else if p.ctl.wait != 0#8 && !g.waitDone
            && (anyFull b.toks p.ctl.wait || anyOutstanding (closeNamed b p.ctl.wait).toks p.ctl.wait) then some (.tokens i p.ctl.wait)
        else if b.awaits g.mask (codesOf s1 b p.ctl p.ops) then some (.scoreboard i)
        else (b.uniformUntil g.mask s1.clock (codesOf s1 b p.ctl p.ops)).map .uniform
      | none => none)
    | _, _ => none)
  | _ => none

/-- A unit that cannot issue its next instruction waits for what keeps it; the batches that its WAIT field names are closed (R58). -/
def settleReady (s : State) (u : UnitRef) : State :=
  match unreadyAt s u with
  | none => s
  | some (.scoreboard i) => setWait s u .scoreboard (some i)
  | some (.uniform t) => modGroup s u fun g => { g with notBefore := t, since := t }
  | some (.tokens i m) => (match bodyOf s u with
    | some b => setWait (putBody s u (closeNamed b m)) u (.tokens m (fullOf b.toks m)) (some i)
    | none => s)

end Sys2Proof.Machine
end

