-- ==== Sys2Proof/Machine/IssueEvents.lean ====
section
/-! DEFINITION. Events of issue: selection, its ageing and its quota (R15, R33, R342 to R344), the ends of waits (R58, R180, R187, R192, R197),
variable-latency results (R60) and the writing of the arithmetic error log (R245). -/

namespace Sys2Proof.Machine

open Sys2Proof

/-! ## Play (R15, R343) -/

/-- Whether a team is on its core with no request for it in transit: its units can issue (R418). -/
def teamRuns (s : State) (t : Nat) : Bool :=
  match tget s.teams t with
  | some tm => tm.place == .resident && (transitAt s t).isNone
  | none => false

/-- Whether a team is being stopped. -/
def teamStopping (s : State) (t : Nat) : Bool :=
  match tget s.teams t with
  | some tm => (match tm.place with | .stopping _ => true | _ => false)
  | none => false

/-- Whether a core is no place for a grid's spawned threads: it has been vacated for another grid, or everything stops for S3. -/
def coreLost (s : State) (core gid : Nat) : Bool :=
  s.package == .toS3 || (match (coreAt s core).vacated with | some g => g != gid | none => false)

/-- Whether a group of a crew can issue: the crew is not held and its team runs; while it is being stopped, only a group with an
irrevocable transaction goes on (R221, R411, R412). -/
def groupRuns (s : State) (c : Crew) (m : Mask) : Bool :=
  c.held.isNone && (match c.owner with
    | .team t => teamRuns s t || (teamStopping s t && irrevLanes c m != 0)
    | .pool _ => !coreLost s c.core c.grid || irrevLanes c m != 0)

/-- The issue groups of a quarter that can issue. -/
def groupsOn (s : State) (q : Nat) : List (UnitRef × Group) :=
  (s.crews.map fun e =>
    if e.2.quarterId = q then
      (e.2.groups.filter fun g => groupRuns s e.2 g.mask).map fun g => (UnitRef.crew e.1 (lowLane g.mask), g)
    else []).flatten

/-- Whether a group does not wait at anything that takes it out of play. -/
def Group.playable (g : Group) : Bool := match g.wait with | none => true | some w => w.obj.inPlay w.instr

/-- The parked group of a quarter that has been parked longest. -/
def oldestParked (s : State) (q : Nat) : Option UnitRef :=
  let ps := (groupsOn s q).filter fun e => !e.2.inPlay && e.2.playable
  (ps.foldl (fun (b : Option (UnitRef × Group)) e => match b with
    | none => some e
    | some x => if e.2.parked < x.2.parked then some e else b) none).map (·.1)

/-- Parked groups of a quarter brought into play while fewer than 16 are, oldest first: each is ready from then on, and not before (R342). -/
def fillPlay (q : Nat) : (fuel : Nat) → State → State
  | 0, s => s
  | n + 1, s =>
    if 16 ≤ ((groupsOn s q).filter fun e => e.2.inPlay).length then s
    else match oldestParked s q with
      | none => s
      | some u => fillPlay q n (modGroup s u fun g => { g with inPlay := true, issued := 0, since := max s.clock g.notBefore })

/-! ## ISSUE_SELECT (R342, R344) -/

/-- Whether a group is ready once `settleQuarter` has looked at it: it waits at nothing, neither the scoreboard nor its WAIT field keeps it, and its STALL
count has run. -/
def Group.ready (g : Group) (clock : Nat) : Bool := g.wait.isNone && decide (g.notBefore ≤ clock)

/-- The rank of a group's priority: raised groups above all, then handler crews, then the priority of the zone. -/
def rankOf (s : State) (u : UnitRef) (g : Group) : Nat :=
  if g.raised then 17
  else match tget s.grids (gridOf s u) with
    | some gr => if gr.handles.isSome then 16 else match gr.zones.head? with | some z => min z.prio 15 | none => 0
    | none => 0

/-- The ready group of the highest rank that has been ready longest. -/
def bestReady (s : State) (gs : List (UnitRef × Group)) : Option (UnitRef × Group) :=
  (gs.filter fun e => e.2.ready s.clock).foldl (fun (b : Option (UnitRef × Group)) e => match b with
    | none => some e
    | some x =>
      let p := rankOf s e.1 e.2
      let r := rankOf s x.1 x.2
      if r < p ∨ (r = p ∧ e.2.since < x.2.since) then some e else b) none

/-- The access threads of a core that can issue. -/
def accessOn (s : State) (core : Nat) : List (UnitRef × Group) :=
  s.teams.filterMap fun e => match e.2.access with
    | some a => if e.2.core = core ∧ teamRuns s e.1 ∧ a.held = none then some (UnitRef.access e.1, a.grp) else none
    | none => none

/-- Whether another unit must issue before a group: one of its crew that waits at a `BARWAIT` whose phase has flipped (R422). -/
def behindBarwait (s : State) (u : UnitRef) : Bool :=
  match u with
  | .access _ => false
  | .crew uid _ => match tget s.crews uid with
    | none => false
    | some c => c.groups.any fun g => match g.wait with
      | some { obj := .barrier off ph, .. } => (barOf s u off).phase != ph
      | _ => false

/-- The units of a selector that may issue: a quarter's groups in play, or the access threads of a core. -/
def candidates (s : State) (q : Nat) : List (UnitRef × Group) :=
  if q < 512 then (groupsOn s q).filter fun e => e.2.inPlay && !behindBarwait s e.1 else accessOn s (q - 512)

/-- A selector's units that cannot issue their next instruction wait for what keeps them: they are not ready, and do not age (R342, R344). -/
def settleQuarter (s : State) (q : Nat) : State :=
  ((candidates s q).filter fun e => e.2.ready s.clock).foldl (fun s e => settleReady s e.1) s

/-- Whether the package runs its cores: on, or on its way to S3, where irrevocable attempts go on to their end (R391, R411). -/
def cpuOn (s : State) : Bool := s.package == .on || s.package == .toS3

/-- The unit that a selector issues next: of quarter q, or, from 512 upward, of the access processor of core q - 512. None where it has
issued in this cycle, or nothing is ready. -/
def selects (s : State) (q : Nat) : Option UnitRef :=
  if s.cur.isSome || !cpuOn s || decide (s.clock ≤ (quarterAt s q).last) then none
  else if q < 512 then (bestReady s (candidates s q)).map (·.1)
  else
    ((candidates s q).filter fun e => e.2.ready s.clock).foldl (fun (b : Option (UnitRef × Group)) e => match b with
      | none => some e
      | some x => if e.2.since < x.2.since then some e else b) none |>.map (·.1)

/-- ISSUE_SELECT: a selector's choice becomes the unit that issues in the next step. -/
def execIssueSelect (q : Nat) (s : State) : Host.Outcome State Fault Refusal :=
  .next (let s1 := settleQuarter (if q < 512 then fillPlay q 16 s else s) q
    match selects s1 q with
    | none => s1
    | some u =>
      let lag := match bodyOf s1 u with | some b => b.lag | none => 0
      let s2 := modGroup s1 u fun g => { g with issued := g.issued + 1 }
      { setQuarter s2 q { quarterAt s2 q with last := s.clock + lag } with cur := some u })

/-- READY_AGE_RAISE: groups of a quarter that have been ready for 48 cycles are raised (R344). -/
def execReadyAgeRaise (q : Nat) (s : State) : Host.Outcome State Fault Refusal :=
  .next (let s1 := settleQuarter s q
    ((groupsOn s1 q).filter fun e => e.2.inPlay && e.2.ready s.clock && decide (e.2.since + 48 ≤ s.clock)).foldl
      (fun s e => modGroup s e.1 fun g => { g with raised := true }) s1)

/-- A group in play that has used its 256 issues. -/
def spent (s : State) (q : Nat) : Option UnitRef :=
  ((groupsOn s q).find? fun e => e.2.inPlay && decide (256 ≤ e.2.issued)).map (·.1)

/-- PLAY_QUOTA_EXPIRE: a group that has issued 256 instructions since it entered play goes behind the parked groups, if any (R343). -/
def execPlayQuotaExpire (q : Nat) (s : State) : Host.Outcome State Fault Refusal :=
  .next (match spent s q with
    | none => s
    | some u =>
      if (oldestParked s q).isNone then s
      else fillPlay q 16 (modGroup s u fun g => { g with inPlay := false, issued := 0, parked := s.clock }))

/-! ## Waits that end by issuing the instruction again -/

/-- The next state of a meaning. -/
def stateOf (s : State) (o : Host.Outcome State Fault Refusal) : State := match o with | .next t => t | _ => s

/-- The meaning of an instruction that can wait for a resource, issued again. -/
def reissue (i : Instr) (s : State) : State :=
  match i with
  | .astream c q a b v n0 n1 cmd => stateOf s (execAstream c q a b v n0 n1 cmd s)
  | .opush c q a n => stateOf s (execOpush c q a n s)
  | .opop c wide d q => stateOf s (execOpop c wide d q s)
  | .gather c esz i64 d a b v count cmd => stateOf s (execGather c esz i64 d a b v count cmd s)
  | .scatter c esz i64 d a b v count cmd => stateOf s (execScatter c esz i64 d a b v count cmd s)
  | .cpy c d a b v cmd => stateOf s (execCpy c d a b v cmd s)
  | .cpy2g c d a b v pitch esz count ph pw cmd => stateOf s (execCpy2g c d a b v pitch esz count ph pw cmd s)
  | .cpyt c pack d a b v spitch role fmt pitch count cmd => stateOf s (execCpyt c pack d a b v spitch role fmt pitch count cmd s)
  | .cpyr c d a b v off cmd => stateOf s (execCpyr c d a b v off cmd s)
  | .fred c s32 d a b v group e parts cmd => stateOf s (execFred c s32 d a b v group e parts cmd s)
  | .chain c sat ty d a b v ops cmd => stateOf s (execChain c sat ty d a b v ops cmd s)
  | .pdec c a v cmd => stateOf s (execPdec c a v cmd s)
  | .launch c a cmd => stateOf s (execLaunch c a cmd s)
  | .spawn c pool data a cmd => stateOf s (execSpawn c pool data a cmd s)
  | .attest c d a b cmd => stateOf s (execAttest c d a b cmd s)
  | .close c t => stateOf s (execClose c t s)
  | .waitb c n d t => stateOf s (execWaitb c n d t s)
  | .barwait c sc d a b => stateOf s (execBarwait c sc d a b s)
  | .mloop c sat m a b fv f tv tok n inca incb => stateOf s (execMloop c sat m a b fv f tv tok n inca incb s)
  | .mconv c sat m a b v tv tok => stateOf s (execMconv c sat m a b v tv tok s)
  | _ => s

/-- A waiting unit's instruction issued again, where that gets it further: otherwise it goes on waiting as before. -/
def goesOn (s : State) (u : UnitRef) (i : Instr) : State :=
  let s1 := performAt s u (reissue i)
  match groupAt s u, groupAt s1 u with
  | some g, some h =>
    if h.mask = g.mask ∧ h.wait.map (·.obj) = g.wait.map (·.obj) ∧ h.pc = g.pc ∧ h.served = g.served ∧ h.wait.isSome then s else s1
  | _, _ => s1

/-- Whether a unit waits for something that acceptance needs. -/
def Awaited.resource : Awaited → Bool
  | .place | .queueFull _ | .tokenRoom _ | .pool _ | .deque | .launchQueue _ | .attestPlace => true
  | _ => false

/-- The waiting of a unit that is not held and whose team runs (R411). -/
def freeWait (s : State) (u : UnitRef) : Option Waiting :=
  match bodyOf s u, waitingAt s u with
  | some (.crew c), some w => (match groupAt s u with | some g => if groupRuns s c g.mask then some w else none | none => none)
  | some (.ap a), some w => (match u with | .access t => if a.held.isNone && teamRuns s t then some w else none | _ => none)
  | _, _ => none

/-- A unit that waits at what its accesses need goes on once it is there: no request on the way to the scratchpad that it reads, none of its own
on the way, or a free outstanding-request place (R135, R166, R417). -/
def accessGoesOn (s : State) (u : UnitRef) (obj : Awaited) : State :=
  match obj with
  | .partner t => if padBusy s t then s else clearWait s u
  | .sent t => if queuedFrom s (fun r => meetIn r.writers (writersOf s u)) = some t then s else clearWait s u
  | .places => if placesUsed s (coreOf s u) < corePlaces then clearWait s u else s
  | _ => s

/-- COMMAND_ACCEPT: a waiting command, launch, spawn, push or access is accepted once what it needs is free (R166, R180, R196, R349). -/
def execCommandAccept (u : UnitRef) (s : State) : Host.Outcome State Fault Refusal :=
  .next (match freeWait s u with
    | some w => (match w.obj.resource, w.instr with
      | true, some (.close _ _) | true, some (.waitb _ _ _ _) => s
      | true, some i => goesOn s u i
      | _, _ => accessGoesOn s u w.obj)
    | none => s)

/-- The groups of a crew that one flip of a barrier releases: those that wait at the `BARWAIT` of one address for one phase. -/
def Group.sameBarwait (g h : Group) : Bool :=
  g.pc == h.pc && g.wait.map (fun w => (w.obj, w.instr)) == h.wait.map (fun w => (w.obj, w.instr))

/-- A crew's groups released by one flip at one `BARWAIT`, fused into one (R16). DESIGN CHOICE (log 38): the spec does not say what a crew barrier is;
the model takes it to be a team barrier's release of groups of one crew, and fuses at no other point but `JOIN` and `REFORM`. -/
def fuseBarwait (c : Crew) (g : Group) : Crew :=
  let ws := c.groups.filter g.sameBarwait
  { c with groups :=
      { g with
        mask := ws.foldl (fun m h => m ||| h.mask) 0
        notBefore := ws.foldl (fun n h => max n h.notBefore) g.notBefore
        since := ws.foldl (fun n h => max n h.since) g.since
        inPlay := ws.any (·.inPlay) }
      :: c.groups.filter fun h => !g.sameBarwait h }

/-- The waiting groups of a unit's crew fused for the release, and the unit that they are then; an access thread is alone. -/
def fuseAt (s : State) (u : UnitRef) : State × UnitRef :=
  match u with
  | .access _ => (s, u)
  | .crew uid _ =>
    match tget s.crews uid, groupAt s u with
    | some c, some g =>
      (modCrew s uid fun c => fuseBarwait c g,
        .crew uid (lowLane ((c.groups.filter g.sameBarwait).foldl (fun m h => m ||| h.mask) 0)))
    | _, _ => (s, u)

/-- BARWAIT_RELEASE: a crew's groups that wait at one `BARWAIT` go on, fused, when their barrier's phase has flipped (R16, R192).
DESIGN CHOICE (log 38): this is what the model takes for R16's fusion at a crew barrier, which the spec does not describe. -/
def execBarwaitRelease (u : UnitRef) (s : State) : Host.Outcome State Fault Refusal :=
  .next (match freeWait s u with
    | some w => (match w.obj, w.instr with
      | .barrier off ph, some i => if (barOf s u off).phase = ph then s else let f := fuseAt s u; goesOn f.1 f.2 i
      | _, _ => s)
    | none => s)

/-- A WAIT field whose tokens have no batch outstanding any more ends with its acquire. A token that had no room for the close is closed as soon
as it has; what another group assigns after the close is in a batch that the field does not close (R58, R186). -/
def waitFieldEnd (s : State) (u : UnitRef) (m todo : BitVec 8) : State :=
  match bodyOf s u with
  | none => s
  | some b =>
    let left := fullOf b.toks todo
    let b1 := closeNamed b todo
    if left != 0#8 || anyOutstanding b1.toks m then
      if left = todo then s
      else modGroup (putBody s u b1) u fun g => { g with wait := g.wait.map fun w => { w with obj := .tokens m left } }
    else
      let s1 := modGroup (putBody s u b1) u fun g => { g with waitDone := true }
      clearWait (acquireAt s1 (coreOf s u) .l2) u

/-- TOKEN_WAIT_RELEASE: a WAIT field, a `CLOSE` or a `WAITB` ends when the awaited batches are complete (R58, R186, R187). -/
def execTokenWaitRelease (u : UnitRef) (s : State) : Host.Outcome State Fault Refusal :=
  .next (match freeWait s u with
    | some w => (match w.obj, w.instr with
      | .tokens m todo, _ => waitFieldEnd s u m todo
      | .tokenLeft _ _, some i => goesOn s u i
      | .tokenRoom _, some (.close c t) => goesOn s u (.close c t)
      | .tokenRoom _, some (.waitb c n d t) => goesOn s u (.waitb c n d t)
      | _, _ => s)
    | none => s)

/-- OPOP_FILL: a waiting `OPOP` pops once its entries are present (R197). -/
def execOpopFill (u : UnitRef) (s : State) : Host.Outcome State Fault Refusal :=
  .next (match freeWait s u with
    | some w => (match w.obj, w.instr with
      | .queueEmpty _ _, some i => goesOn s u i
      | _, _ => s)
    | none => s)

/-! ## Results and the arithmetic error log -/

/-- A unit's groups that wait for the scoreboard made ready again. -/
def wakeScoreboard (s : State) (u : UnitRef) : State :=
  let us : List UnitRef := match u with
    | .access _ => [u]
    | .crew uid _ => (match tget s.crews uid with | some c => c.groups.map fun g => UnitRef.crew uid (lowLane g.mask) | none => [])
  us.foldl (fun s v => match waitingAt s v with
    | some w => if w.obj = .scoreboard then clearWait s v else s
    | none => s) s

/-- VARIABLE_LATENCY_RESULT: the n-th piece that may be performed of what the unit has issued is performed (R138); results that have arrived are
written to their registers, and the scoreboard lets their readers go on (R60). -/
def execVariableLatencyResult (r : ResultRef) (s : State) : Host.Outcome State Fault Refusal :=
  .next (
    let s1 := performNth s r.unit r.nth
    match bodyOf s1 r.unit with
    | none => s1
    | some b => wakeScoreboard (putBody s1 r.unit b.landAll) r.unit)

/-- AELOG_RECORD_WRITE: the oldest open record of a core is written to its context's log (R245). -/
def execAelogRecordWrite (core : Nat) (s : State) : Host.Outcome State Fault Refusal :=
  .next (match (coreAt s core).aebuf with
    | [] => s
    | r :: rest => if aelogHeld s r then s else aelogWrite (setCore s core { coreAt s core with aebuf := rest }) r)

/-! ## Waits-for detection (R356 to R359) -/

/-- The unit of a waiting node as it is now: its object with the name of R357, and the nodes that can advance it; none where the node is
not waiting, or its object is undetected. -/
structure Awaiting where
  since : Nat
  code  : W64
  adv   : List Waiter

/-- An awaited object's 64 bits (R357). -/
def objCode (kind name : Nat) : W64 := BitVec.ofNat 64 (kind * 2 ^ 60 + name % 2 ^ 55)

/-- A grid's handle. -/
def handleOf (s : State) (gid : Nat) : Nat := match tget s.grids gid with | some g => g.handle | none => 0

/-- Whether threads of a team are in bins: they do not wait, and are no unit that can be named. -/
def binsHold (s : State) (owner : Owner) (gid : Nat) : Bool :=
  s.quarters.any fun e => e.2.filed.any fun b => b.key.owner == owner && b.key.grid == gid

/-- The issue groups of crews that a test accepts. -/
def groupsWhere (s : State) (p : Nat → Crew → Group → Bool) : List Waiter :=
  (s.crews.map fun e => (e.2.groups.filter (p e.1 e.2)).map fun g => Waiter.unit (.crew e.1 (lowLane g.mask))).flatten

/-- What a group awaits. -/
def Group.obj (g : Group) : Option Awaited := g.wait.map (·.obj)

/-- Commands that a test accepts. -/
def cmdsWhere (s : State) (p : Cmd → Bool) : List (Nat × Cmd) := s.cmds.filter fun e => p e.2

/-- A nonempty list of advancers. -/
def namedAdv (l : List Waiter) : Option (List Waiter) := if l.isEmpty then none else some l

/-- The operations in a unit's closed batches of some tokens: commands, runs, and the groups of its crew that wait at a `LAUNCH` or `SPAWN`; none where
one is stopped at a fault, or is one that is none of these and that no unit stands for. -/
def batchOps (s : State) (u : UnitRef) (m : BitVec 8) : Option (List Waiter) :=
  match bodyOf s u with
  | none => none
  | some b =>
    let named : Option (Nat × Nat) → Bool := fun o => match o with
      | some (t, n) => m.getLsbD t && (b.toks.getD t Token.fresh).closed.any fun x => x.1 == n
      | none => false
    let inBatch : Issuer → Bool := fun i => i.team == teamOf s u && i.crew == crewOf u && named i.tok
    let gs := match b with
      | .crew c => (c.groups.filter fun g => named g.op).map fun g => Waiter.unit (.crew ((crewOf u).getD 0) (lowLane g.mask))
      | .ap _ => []
    let left := (List.range 8).foldl (fun n t =>
      if m.getLsbD t then (b.toks.getD t Token.fresh).closed.foldl (fun n x => n + x.2) n else n) 0
    let cs := cmdsWhere s fun c => inBatch c.by_
    let rs := s.quarters.filter fun e => match e.2.run with | some r => inBatch r.by_ | none => false
    if cs.any (fun e => e.2.stopped.isSome) || rs.any (fun e => match e.2.run with | some r => r.stopped | none => false) then none
    else
      let ops := cs.map (fun e => Waiter.command e.1) ++ rs.map (fun e => Waiter.sequencer e.1) ++ gs
      if ops.length < left then none else namedAdv ops

/-- Access threads of a grid that a test accepts. -/
def accessWhere (s : State) (gid : Nat) (p : Nat → Group → Bool) : List Waiter :=
  s.teams.filterMap fun e => match e.2.access with
    | some a => if e.2.grid = gid ∧ p e.1 a.grp then some (Waiter.unit (.access e.1)) else none
    | none => none

/-- The thread that holds an iteration of a speculation domain: it speculates on it, or waits to do so at an irrevocable `SPOPEN` (R222). -/
def specHolder (s : State) (gid dom : Nat) : List Waiter :=
  let n := specNext s gid dom
  groupsWhere s fun _ c g => c.grid == gid && (lanesOf g.mask).any fun l => match c.lanes.getD l none with
    | some t => (t.tx.active && t.tx.isSpec && t.tx.dom == dom && t.tx.iter == n)
        || (match g.wait.bind (·.instr) with
          | some (.spopen _ _ d _ a) => d.toNat == dom && (if a = 255#8 then 0 else ((Body.crew c).see s.clock 0 l a.toNat).setWidth 32) == n
          | _ => false)
    | none => false

/-- Whether spawned threads of a pool have been stopped, and are no unit that can be named (R412). -/
def shadowHolds (s : State) (gid p : Nat) : Bool :=
  s.ctxs.any fun e => e.2.shadow.any fun x => match x.2.2 with
    | .inr t => t.grid == gid && t.pool == p && t.ready
    | .inl _ => false

/-- Whether a command is one accepted in the zone for whose quota or places a command of a grid waits: a zone of the grid whose quota is used up, else
the grid's own (R31, R180, R356). A handler's grid has no zone; its own commands count. -/
def inZoneOf (s : State) (gid : Nat) (c : Cmd) : Bool :=
  match tget s.grids gid with
  | none => false
  | some g =>
    if g.handles.isSome then c.by_.grid == gid
    else
      let heads := g.zones.map fun z => z.chain.headD 0
      let full := ((quotas s gid).zip heads).filter fun z => decide (z.1.1 ≤ z.1.2)
      let zs := if full.isEmpty then heads.take 1 else full.map (·.2)
      c.by_.ctx == g.ctx && zs.any c.zone.contains

/-- The object of a waiting issue group or access thread, and what advances it (R356). -/
def unitAwaits (s : State) (u : UnitRef) (w : Waiting) : Option (W64 × List Waiter) :=
  let gid := gridOf s u
  let with_ : W64 → Option (List Waiter) → Option (W64 × List Waiter) := fun c o => o.map fun l => (c, l)
  match w.obj, u with
  | .join j, .crew uid _ =>
    (match tget s.crews uid with
    | some c => with_ (objCode 0 j) (namedAdv (groupsWhere s fun n _ g =>
        n == uid && (g.mask &&& c.j.getD j 0) != 0 && g.obj != some (.join j)))
    | none => none)
  | .barrier off ph, _ =>
    (match teamOf s u with
    | none => none
    | some t =>
      if binsHold s (.team t) gid then none
      else
        let here : Group → Bool := fun g => match g.obj with | some (.barrier o p) => o == off && p == ph | _ => false
        let cs := groupsWhere s fun _ c g => c.owner == .team t && !here g
        let as := accessWhere s gid fun v g => v != t || !here g
        let ks := cmdsWhere s fun c => c.bar == some off && c.barTeam s == some t
        if ks.any fun e => e.2.stopped.isSome then none
        else with_ (objCode 1 off) (namedAdv (cs ++ as ++ ks.map fun e => Waiter.command e.1)))
  | .tokens m _, _ =>
    let left : Nat → Bool := fun i => m.getLsbD i && (match bodyOf s u with | some b => anyOutstanding b.toks (1#8 <<< i) | none => false)
    with_ (objCode 2 ((List.range 8).find? left |>.getD 0)) (batchOps s u m)
  | .tokenRoom t, _ => with_ (objCode 2 t) (batchOps s u (1#8 <<< t))
  | .tokenLeft t _, _ => with_ (objCode 2 t) (batchOps s u (1#8 <<< t))
  | .queueEmpty q _, _ =>
    (match teamOf s u with
    | some t => with_ (objCode 3 q) (match tget s.teams t with
      | some tm => if tm.access.isSome then some [Waiter.unit (.access t)] else none
      | none => none)
    | none => none)
  | .queueFull q, _ =>
    (match teamOf s u with
    | some t => if binsHold s (.team t) gid then none
      else with_ (objCode 4 q) (namedAdv (groupsWhere s fun _ c _ => c.owner == .team t))
    | none => none)
  | .pool p, _ =>
    let live := groupsWhere s fun _ c _ => c.owner == .pool p && c.grid == gid
    if binsHold s (.pool p) gid || shadowHolds s gid p then none else with_ (objCode 5 (16 * handleOf s gid + p)) (namedAdv live)
  | .line l, _ => (match (lineAt s l).holder with
    | some h => some (objCode 6 (128 * l), [Waiter.unit (waiterOf s h.1 h.2)])
    | none => none)
  | .serial, _ => (match s.dir.serial with
    | some h => some (objCode 7 0, [Waiter.unit (waiterOf s h.1 h.2)])
    | none => none)
  | .spec d, _ => with_ (objCode 8 (16 * handleOf s gid + d)) (namedAdv (specHolder s gid d))
  | .accumulator _, .crew uid _ | .sequencer, .crew uid _ =>
    (match tget s.crews uid with
    | some c => some (objCode 9 0, [Waiter.sequencer c.quarterId])
    | none => none)
  | .place, _ =>
    let ks := cmdsWhere s (inZoneOf s gid)
    with_ (objCode 11 0) (namedAdv (ks.map fun e => Waiter.command e.1))
  | _, _ => none

/-- The launches of a context that name a completion object as DONE; none where one of them has been admitted: it does not wait. -/
def launchNaming (s : State) (ctx : Nat) (va : Addr) : Option (List Waiter) :=
  if s.grids.any fun e => e.2.ctx == ctx && e.2.handles.isNone && e.2.packet.done == va then none else
  let ps := (s.queues.map fun e => match e.2.ctx with
    | some c => if c = ctx then (e.2.pending.filter fun p => p.packet.done == va).map fun p => Waiter.launch e.1 p.order else []
    | none => []).flatten
  namedAdv ps

/-- A queue whose admitted grid still has teams to place: later launches stay behind it (R341). -/
def queueBlocked (s : State) (q : Nat) : Bool :=
  s.grids.any fun e => e.2.handles.isNone && e.2.packet.queue == q && decide (e.2.next < e.2.packet.teams)

/-- The object of a launch that waits: the launch ahead of it, or, at the head of its queue, the first prerequisite that is not complete; none behind a
grid that is being placed, which does not wait (R341, R356). -/
def launchAwaits (s : State) (q order : Nat) : Option (Nat × W64 × List Waiter) :=
  match tget s.queues q with
  | none => none
  | some lq =>
    match lq.ctx, lq.pending.findIdx? (fun p => p.order == order) with
    | some ctx, some i =>
      (match lq.pending[i]? with
      | none => none
      | some p =>
        if i = 0 then
          if queueBlocked s q then none else (match openPre s ctx p.packet with
          | some a => (launchNaming s ctx a).map fun l => (p.since, objCode 12 a.toNat, l)
          | none => none)
        else
          (match lq.pending[i - 1]? with
          | some o => some (p.since, objCode 12 o.packet.done.toNat, [Waiter.launch q o.order])
          | none => none))
    | _, _ => none

/-- The object of a command that waits: an `ASTREAM` at a full queue, a `FRED` at its group (R356). -/
def cmdAwaits (s : State) (c : Cmd) : Option (W64 × List Waiter) :=
  if c.stopped.isSome then none
  else match c.kind, c.by_.team with
    | .astream q _ _ _ _ _, some t =>
      (match tget s.teams t with
      | some tm =>
        if (tm.queues.getD q { entries := [], producer := none }).entries.length < queueCap || binsHold s (.team t) c.by_.grid then none
        else (namedAdv (groupsWhere s fun _ k _ => k.owner == .team t)).map fun l => (objCode 4 q, l)
      | none => none)
    | .fred _ _ _ g _ _ _, _ =>
      if c.sums.isSome then none else
      let cs := groupsWhere s fun _ k _ => k.grid == c.by_.grid
      (namedAdv (cs ++ accessWhere s c.by_.grid fun _ _ => true)).map fun l => (objCode 10 g, l)
    | _, _ => none

/-- What a node awaits now. -/
def awaits (s : State) : Waiter → Option Awaiting
  | .unit u => (match freeWait s u with
    | some w => (unitAwaits s u w).map fun r => { since := w.since, code := r.1, adv := r.2 }
    | none => none)
  | .launch q o => (launchAwaits s q o).map fun r => { since := r.1, code := r.2.1, adv := r.2.2 }
  | .command n => (match tget s.cmds n with
    | some c => (cmdAwaits s c).map fun r => { since := 0, code := r.1, adv := r.2 }
    | none => none)
  | .sequencer _ => none

/-- Whether a unit waits at a commit. -/
def atCommit (s : State) (u : UnitRef) : Bool :=
  match waitingAt s u with
  | some w => (match w.instr with | some (.txcommit _) | some (.spcommit _) => true | _ => false)
  | none => false

/-- The identities of an issue group or access thread (R357): a group of a crew of 64 with lanes in both passes is two units. -/
def unitIds (s : State) (u : UnitRef) : List W64 :=
  match u with
  | .access _ => [unitIdentity s u]
  | .crew uid _ =>
    match tget s.crews uid, groupAt s u with
    | some c, some g =>
      let id : Nat → W64 := identity (if atCommit s u then 5 else 0) c.core c.quarter c.num
      ([g.mask.toNat % 2 ^ 32, g.mask.toNat / 2 ^ 32].filter fun m => m != 0).map id
    | _, _ => []

/-- The identities of a node (R357). -/
def waiterIds (s : State) : Waiter → List W64
  | .unit u => unitIds s u
  | .launch q _ => [identity 3 0 0 0x3FF q]
  | .command n => (match tget s.cmds n with | some c => [cmdIdentity c] | none => [])
  | .sequencer q => [identity 2 (q / 4) (q % 4) 0x3FF 0]

/-- A node's lowest identity, by which it sends its probe. -/
def waiterId (s : State) (w : Waiter) : W64 :=
  match waiterIds s w with
  | a :: r => r.foldl (fun m b => if b.toNat < m.toNat then b else m) a
  | [] => 0

/-- The closure of a set under advancers; none where a member does not wait, is undetected, or the set passes 256 (R358). -/
def closureOf (s : State) : (fuel : Nat) → (done todo : List Waiter) → Option (List Waiter)
  | _, done, [] => some done
  | 0, _, _ :: _ => none
  | n + 1, done, w :: r =>
    if done.contains w then closureOf s n done r
    else if 256 < ((w :: done).flatMap (waiterIds s)).length then none
    else match awaits s w with
      | none => none
      | some a => closureOf s n (w :: done) (r ++ (a.adv.filter fun v => !done.contains v && !r.contains v && v != w))

/-- The closed set that a node's probe finds. -/
def probeSet (s : State) (w : Waiter) : Option (List Waiter) := closureOf s 70000 [] [w]

/-- The members of a report: identities with their objects, in ascending order of identity (R359). -/
def membersOf (s : State) (c : List Waiter) : List (W64 × W64) :=
  sortBy (fun a b => decide (a.1.toNat ≤ b.1.toNat)) (c.flatMap fun w => (waiterIds s w).map fun i => (i, match awaits s w with | some a => a.code | none => 0))

/-- The grid of a node, where it has one. -/
def waiterGrid (s : State) : Waiter → Option Nat
  | .unit u => some (gridOf s u)
  | .command n => (tget s.cmds n).map fun c => c.by_.grid
  | .sequencer q => (quarterAt s q).run.map fun r => r.by_.grid
  | .launch _ _ => none

/-- The fault domain of a member's zone: of its grid, or, for a launch, of the zone that its packet names, where that can be read (R359). -/
def domainOf (s : State) : Waiter → Option (Nat × State)
  | .launch q o =>
    (match tget s.queues q with
    | none => none
    | some lq => match lq.ctx, lq.pending.find? (fun p => p.order == o) with
      | some ctx, some p => (fdomOf ctx 8 p.packet.zcb s).map fun d => domainFor (bindDomain d.2.2 ctx d.1 d.2.1) ctx d.1
      | _, _ => none)
  | w => (waiterGrid s w).bind fun g => if (tget s.grids g).isSome then some (domainOfGrid s g) else none

/-- The fault domains of the zones that have a member in a set. -/
def domainsOf (s : State) (c : List Waiter) : List Nat × State :=
  c.foldl (fun (a : List Nat × State) w => match domainOf a.2 w with
    | some d => (if a.1.contains d.1 then a.1 else a.1 ++ [d.1], d.2)
    | none => a) (([], s) : List Nat × State)

/-- Whether a set has been reported since its members began to wait. -/
def reported (s : State) (c : List Waiter) (ms : List (W64 × W64)) : Bool :=
  let since := c.foldl (fun n w => match awaits s w with | some a => max n a.since | none => n) 0
  s.told.any fun e => e.2 == ms && decide (since ≤ e.1)

/-- The report of a closed set (R359, R403). -/
def waitReport (s : State) (w : Waiter) (ms : List (W64 × W64)) (d : Nat) : State :=
  let n := takeUid s
  addRecord n.2 d
    { FRec.blank with
      cause := .waitCycle, subject := waiterId s w, team := BitVec.allOnes 64, members := ms, stamp := BitVec.ofNat 64 s.clock
      grid := waiterGrid s w, uid := n.1 }

/-- A closed set reported in every fault domain of its members, and noted as reported (R358, R359). -/
def reportCycle (s : State) (w : Waiter) (c : List Waiter) (ms : List (W64 × W64)) : State :=
  let ds := domainsOf s c
  let s1 := ds.1.foldl (fun s d => waitReport s w ms d) ds.2
  { s1 with told := (s.clock, ms) :: s1.told.filter fun e => e.2 != ms }

/-- A probe sent: the set that it closes is reported, unless a member of lower identity finds the same set or it has been reported. -/
def sendProbe (s : State) (w : Waiter) : State :=
  match probeSet s w with
  | none => s
  | some c =>
    let me := waiterId s w
    let same := c.any fun v => decide ((waiterId s v).toNat < me.toNat) && (match probeSet s v with
      | some d => d.length == c.length
      | none => false)
    let ms := membersOf s c
    if same || reported s c ms then s else reportCycle s w c ms

/-- Whether a node's next probe is due, and the state in which the one after it is set 2^20 cycles on. -/
def probeDue (s : State) : Waiter → Option State
  | .unit u => (match waitingAt s u with
    | some w => if w.probe ≤ s.clock then
        some (modGroup s u fun g => { g with wait := g.wait.map fun w => { w with probe := s.clock + 2 ^ 20 } }) else none
    | none => none)
  | .launch q o => (match tget s.queues q with
    | some lq => (match lq.pending.find? (fun p => p.order == o) with
      | some p => if p.probe ≤ s.clock then
          some (modQueue s q fun lq => { lq with
            pending := lq.pending.map fun p => if p.order = o then { p with probe := s.clock + 2 ^ 20 } else p }) else none
      | none => none)
    | none => none)
  | .command n => (match tget s.cmds n with
    | some c => if c.probe ≤ s.clock ∧ (cmdAwaits s c).isSome then
        some (modCmd s n fun c => { c with probe := s.clock + 2 ^ 20 }) else none
    | none => none)
  | .sequencer _ => none

/-- WAITS_FOR_PROBE: a unit that has waited 65,536 cycles, and then each 2^20, sends a probe (R358). -/
def execWaitsForProbe (w : Waiter) (s : State) : Host.Outcome State Fault Refusal :=
  .next (match probeDue s w with
    | some s1 => sendProbe s1 w
    | none => s)

end Sys2Proof.Machine
end

