-- ==== Sys2Proof/Machine/MemEvents.lean ====
section
/-! DEFINITION. Events of the memory system: lines and their tokens (R142 to R145), scope caches (R129 to R132), bound views (R304, R305), far
writes (R150, R377, R378), scrubs and links (R434, R435, R437, R438). -/

namespace Sys2Proof.Machine

open Sys2Proof

/-! ## Lines of the L2 (R142 to R145) -/

/-- The line that a slice holds for a die set, its home where that is the slice. -/
def Line.moveTo (l : Line) (die line slice : Nat) : Line :=
  let rest := l.slices.filter fun e => e.1 != die
  { l with slices := if slice = homeSlice die line then rest else (die, slice) :: rest }

/-- The lines of a die that stand away from home, as the forwarding entries of their home slices name them, oldest first. -/
def movedOn (s : State) (die : Nat) : List Nat :=
  (dieAt s die).moved.filter fun k => (lineAt s k).slices.any fun e => e.1 == die

/-- A line sent home: it is held by its home slice again, and its forwarding entry is free. -/
def sendHome (s : State) (die line : Nat) : State :=
  let s := roomIn s die (homeSlice die line)
  let s := setLine s line ((lineAt s line).moveTo die line (homeSlice die line))
  setDie s die { dieAt s die with moved := (dieAt s die).moved.erase line }

/-- LINE_MIGRATE: after 8 accesses from one cluster of a die whose neighbourhood does not hold it, a line moves to a slice of that
neighbourhood. Its home slice keeps the one forwarding entry for it; with 4,096 there, the line of the oldest goes home first (R142). -/
def execLineMigrate (die line : Nat) (s : State) : Host.Outcome State Fault Refusal :=
  .next (match tget s.lines line with
    | none => s
    | some l => match l.recent with
      | none => s
      | some (c, n) =>
        let near := c % 8
        if n < 8 ∨ c / 8 ≠ die ∨ sliceOf die line l / 6 = near then s
        else
          let home := homeSlice die line
          let dst := 6 * near + line % 6
          let others := (movedOn s die).filter (· != line)
          let full := others.filter fun k => homeSlice die k == home
          let s := match full with
            | k :: _ => if dst ≠ home ∧ 4096 ≤ full.length then sendHome s die k else s
            | [] => s
          let s := roomIn s die dst
          let s := setLine s line { l.moveTo die line dst with recent := none }
          let known := (movedOn s die).filter (· != line)
          setDie s die { dieAt s die with
            moved := if dst = home then known else if (dieAt s die).moved.contains line then movedOn s die else known ++ [line] })

/-- RC_DROP: a line whose read count has reached 0 is dropped without write-back; its bytes are undefined until written (R144). -/
def execRcDrop (line : Nat) (s : State) : Host.Outcome State Fault Refusal :=
  .next (match tget s.lines line with
    | none => s
    | some l =>
      if l.rc ≠ some 0 ∨ l.holder.isSome then s else dropLine s line)

/-- PERSISTENT_REQUEST: the directory serves the oldest persistent request for a line: its die collects the four tokens (R145). -/
def execPersistentRequest (line : Nat) (s : State) : Host.Outcome State Fault Refusal :=
  .next (match s.dir.persist.find? (fun p => p.1 == line) with
    | none => s
    | some p =>
      let l := lineAt s line
      if l.holder.isSome then s
      else
        let s1 := setLine (l2Room s p.2 line) line (l.ownedBy line p.2)
        { s1 with dir := { s1.dir with persist := s1.dir.persist.erase p } })

/-- TRACKING_UNIT_MERGE: two halves of a unit that have been quiet for 65,536 cycles are one again (R145). -/
def execTrackingUnitMerge (start : Nat) (s : State) : Host.Outcome State Fault Refusal :=
  .next (
    let us := s.dir.units
    match us.find? (fun u => u.1 == start) with
    | none => s
    | some u =>
      let quiet : Nat × Nat × Nat → Bool := fun v => decide (v.2.2 + 65536 ≤ s.clock)
      match us.find? (fun v => v.1 == start + u.2.1 && v.2.1 == u.2.1) with
      | none => s
      | some v =>
        if start % (2 * u.2.1) = 0 ∧ u.2.1 < 512 ∧ quiet u = true ∧ quiet v = true then
          let rest := us.filter fun w => w.1 != u.1 && w.1 != v.1
          { s with dir := { s.dir with units := if 2 * u.2.1 = 512 then rest else (start, 2 * u.2.1, max u.2.2 v.2.2) :: rest } }
        else s)

/-! ## Scope caches (R129 to R132) -/

/-- A cache without the clean bytes of a sector that holds no dirty byte. -/
def dropSector (c : List CacheByte) (sec : Nat) : List CacheByte :=
  if c.any fun b => b.dirty && b.addr / 16 == sec then c else c.filter fun b => b.addr / 16 != sec

/-- Sectors written outward from a cluster cache, unless an irrevocable attempt holds a line of them: the die then fails to collect the tokens,
and the bytes stay (R145, R217). -/
def backOut (s : State) (core id : Nat) (secs : List Nat) : State :=
  match backHeld s nobody core secs with
  | some l => tokensFail s l (id / 8)
  | none => backCluster s id secs

/-- SCOPE_CACHE_EVICTION: a scope cache fills a sector, drops a clean one, or writes a dirty one outward with the earlier stores of its
threads, on its own. -/
def execScopeCacheEviction (cluster : Bool) (id sector : Nat) (mv : CacheMove) (s : State) : Host.Outcome State Fault Refusal :=
  .next (match mv, cluster with
    | .fill, false => if sector < 0xC00000000 then fitPath (fillL1 (l2Due s (sector / 8)) id sector 0) id else s
    | .fill, true => if sector < 0xC00000000 then fitCluster (fillCluster (l2Due s (sector / 8)) id sector 0) id else s
    | .dropClean, false => setCore s id { coreAt s id with l1 := dropSector (coreAt s id).l1 sector }
    | .dropClean, true => setCluster s id { clusterAt s id with cache := dropSector (clusterAt s id).cache sector }
    | .writeOut, false => let c := (coreAt s id).l1; backL1 s id (closure c c.length [sector])
    | .writeOut, true => let c := (clusterAt s id).cache; backOut s (4 * id) id (closure c c.length [sector]))

/-! ## Bound views (R304, R305) -/

/-- Whether a queued access is one of a unit's threads. -/
def WinReq.ofUnit (w : WinReq) (s : State) (u : UnitRef) : Bool := meetIn w.writers (writersOf s u)

/-- Units that waited for their own window accesses, or for a window's, go on once those are performed. -/
def wakeWindow (s : State) : State :=
  (allUnits s).foldl (fun s u => match waitingAt s u with
    | some w => (match w.obj with
      | .windowQueue => if s.winq.any (fun q => q.ofUnit s u) then s else clearWait s u
      | .unbind slot => (match bindingOf s (ctxOf s u) slot with
        | some b => if viewBusy s (ctxOf s u) b then s else clearWait s u
        | none => clearWait s u)
      | _ => s)
    | none => s) s

/-- The bytes that a request has read, given to the pieces of its access that lie in it; `bad` says of a piece's range whether it was poisoned. -/
def WinReq.fill (w : WinReq) (bs : List Byte) (bad : Nat → Nat → Bool) (q : Piece) : Piece :=
  match q.place with
  | .view _ _ =>
    if !q.done && q.lane / 32 == w.pass && q.va / 128 == w.va / 128 then
      { q with bytes := (bs.drop (q.va - w.va)).take q.n, done := true, bad := bad q.va q.n }
    else q
  | _ => q

/-- A request that has its bytes: the access that it serves lands once all its pieces are there (R172). -/
def landRead (s : State) (w : WinReq) (bs : List Byte) (bad : Nat → Nat → Bool) : State :=
  landPend { s with pend := s.pend.map fun p =>
    if p.tag = w.tag then { p with pieces := p.pieces.map (w.fill bs bad) } else p } w.tag

/-- The party that makes a queued access. -/
def WinReq.asker (w : WinReq) (s : State) : Asker :=
  { ctx := w.ctx, grid := w.grid, core := w.core, team := teamIndex s w.team, subject := w.subject }

/-- WINDOW_READ_TRANSFORM: the oldest queued load of a bound view is performed, each granule by one transform. -/
def execWindowReadTransform (s : State) : Host.Outcome State Fault Refusal :=
  .next (match s.winq.find? (fun w => w.write.isNone) with
    | none => s
    | some w =>
      let s1 := { s with winq := s.winq.erase w }
      match viewOf s1 w.ctx w.va with
      | none => let f := takeFreeBytes s1 w.len; wakeWindow (landRead f.2 w f.1 fun _ _ => false)
      | some (_, b, off) =>
        let r := viewRead s1 (w.asker s1) b off w.len
        let bad := fun va n => (viewRead s1 (w.asker s1) b (off + (va - w.va)) n).2.1
        wakeWindow (landRead r.2.2 w r.1 bad))

/-- WINDOW_WRITE_TRANSFORM: the oldest queued store to a bound view is transformed, each granule whole. -/
def execWindowWriteTransform (s : State) : Host.Outcome State Fault Refusal :=
  .next (match s.winq.find? (fun w => w.write.isSome) with
    | none => s
    | some w =>
      let s1 := { s with winq := s.winq.erase w }
      match w.write, viewOf s1 w.ctx w.va with
      | some bs, some (_, b, _) => wakeWindow (viewWrite s1 (w.asker s1) b bs false)
      | _, _ => wakeWindow s1)

/-! ## Far writes (R150, R377, R378) -/

/-- Units whose system-scope release waited for acknowledgements go on once none is due. -/
def wakeFar (s : State) : State :=
  (allUnits s).foldl (fun s u => match waitingAt s u with
    | some w =>
      if w.obj = .farAck ∧ !(let ws := writersOf s u; s.far.any fun f => meetIn f.writers ws) then clearWait s u else s
    | none => s) s

/-- The identity of what sent a far write. -/
def FarWrite.subject (f : FarWrite) (s : State) : W64 :=
  match f.cmd, f.crew, f.team with
  | some n, _, _ => (match tget s.cmds n with | some c => cmdIdentity c | none => 0)
  | none, some uid, _ => (match tget s.crews uid with | some c => identity 0 c.core c.quarter c.num 0 | none => 0)
  | none, none, some t => unitIdentity s (.access t)
  | none, none, none => 0

/-- A far write that is dropped, and reported to its zone's fault domain. -/
def dropFar (s : State) (f : FarWrite) : State :=
  let s1 := { s with far := s.far.erase f }
  let r := dropRecord f.va.toNat f.pc (teamIndex s1 f.team) (f.subject s1)
  match f.grid, f.dom with
  | some g, _ => (takeAsync s1 g r).2
  | none, some d => let n := takeUid s1; addRecord n.2 d { r with async := true, uid := n.1 }
  | none, none => s1

/-- HOST_WRITE_DROPPED: the host refuses the oldest write on its way to it; a refused atomic faulted at its instruction (R377). -/
def execHostWriteDropped (s : State) : Host.Outcome State Fault Refusal :=
  .next (match s.far.find? (fun f => f.port.isNone && f.atom.isNone) with
    | some f => wakeFar (dropFar s f)
    | none => s)

/-- PEER_WRITE_DROPPED: a far device refuses the oldest store on its way to it; a refused atomic or command faulted as it was sent (R378). -/
def execPeerWriteDropped (s : State) : Host.Outcome State Fault Refusal :=
  .next (match s.far.find? (fun f => f.port.isSome && f.atom.isNone && f.cmd.isNone) with
    | some f => wakeFar (dropFar s f)
    | none => s)

/-- WINDOW_WRITE_ACKNOWLEDGED: the oldest far write has been performed and acknowledged. -/
def execWindowWriteAcknowledged (s : State) : Host.Outcome State Fault Refusal :=
  .next (match s.far with
    | [] => s
    | _ :: r => wakeFar { s with far := r })

/-! ## Scrubs and flits (R435, R437, R438) -/

/-- Blocks of 64 bytes behind one of the 48 controllers (R291). -/
def blocksOf : Nat := 2 ^ 28

/-- The physical address of block k of a controller. -/
def blockPa (ctl k : Nat) : Nat := ctl / 12 * 0x3000000000 + (k / 64 * 12 + ctl % 12) * 4096 + k % 64 * 64

/-- Whether the patrol scrub runs: step 22 of this start is done (R432). -/
def scrubRuns (s : State) : Bool := s.package == .on && (match s.start.entries[21]? with | some e => e.state == 2 | none => false)

/-- PATROL_SCRUB: a controller of a die in service reads, corrects and rewrites its next block. A block that cannot be corrected is poisoned, unless the L2
holds its line (R435, R436). -/
def execPatrolScrub (ctl : Nat) (corrected bad : Bool) (s : State) : Host.Outcome State Fault Refusal :=
  .next (if !scrubRuns s || decide (48 ≤ ctl) || s.start.outDies.contains (ctl / 12) then s else
    let k := (tget s.links.scrub ctl).getD 0
    let pa := blockPa ctl k
    let last := decide (blocksOf ≤ k + 1)
    let c := s.counters
    let mark := bad && (tget s.lines (pa / 128)).isNone
    { s with
      links := { s.links with scrub := tset s.links.scrub ctl (if last then 0 else k + 1) }
      poison := if mark then poisonAfter s.poison pa 64 true else s.poison
      counters := { c with
        hbmCe := if corrected && !bad then satInc c.hbmCe else c.hbmCe
        hbmUe := if mark then satInc c.hbmUe else c.hbmUe
        scrubPass := if last then satInc c.scrubPass else c.scrubPass } })

/-- A poison unit of an SRAM array (R434): 16 bytes of a team's scratchpad, an entry of its operand queues, a sector of a core's L1, of a cluster's
cache or of the L2, and a block of a core's or a cluster's instruction cache. -/
inductive SramUnit where
  | pad (team unit : Nat)
  | queue (team q entry : Nat)
  | l1 (core unit : Nat)
  | cluster (cl unit : Nat)
  | l2 (unit : Nat)
  | icache (core block : Nat)
  | clusterIcache (cl block : Nat)
  deriving DecidableEq, Repr

/-- The units of a core's arrays. -/
def coreUnits (s : State) (core : Nat) : List SramUnit :=
  ((teamsOn s core).flatMap fun e => (List.range (e.2.alloc / 16)).map (SramUnit.pad e.1))
    ++ ((teamsOn s core).flatMap fun e => (e.2.queues.mapIdx fun q x => (List.range x.entries.length).map (SramUnit.queue e.1 q)).flatten)
    ++ (((coreAt s core).l1.map fun b => b.addr / 16).eraseDups.filter fun u => (backHeld s nobody core (sectorsIn (16 * u) 16)).isNone).map
        (SramUnit.l1 core)
    ++ (coreAt s core).icache.map fun b => .icache core b.1

/-- The units of a cluster's arrays. -/
def clusterUnits (s : State) (cl : Nat) : List SramUnit :=
  (((clusterAt s cl).cache.map fun b => b.addr / 16).eraseDups.filter fun u => (backHeld s nobody (4 * cl) (sectorsIn (16 * u) 16)).isNone).map
      (SramUnit.cluster cl)
    ++ (clusterAt s cl).icache.map fun b => .clusterIcache cl b.1

/-- The sectors of a die's L2. -/
def l2Units (s : State) (die : Nat) : List SramUnit :=
  (s.lines.filter fun e => e.2.tokens.contains die).flatMap fun e => (List.range 8).map fun i => .l2 (8 * e.1 + i)

/-- The poison units of an SRAM array, by its number: 0 to 127 a core's, 128 to 159 a cluster's, 160 to 163 a die's L2 (log 45). -/
def sramUnits (s : State) (array : Nat) : List SramUnit :=
  if array < 128 then coreUnits s array else if array < 160 then clusterUnits s (array - 128) else l2Units s (array - 160)

/-- A unit of an SRAM array marked as poisoned. DESIGN CHOICE (log 45): a mark on a sector of a scope cache goes with the sector's data to the L2. -/
def poisonSram (s : State) : SramUnit → State
  | .pad t u => modTeam s t fun tm => { tm with poison := poisonAfter tm.poison (16 * u) 16 true }
  | .queue t q i => modTeam s t fun tm => { tm with queues := tm.queues.mapIdx fun n x =>
      if n = q then { x with marks := lset (x.marks ++ List.replicate (x.entries.length - x.marks.length) false) i true } else x }
  | .l1 core u =>
    let s1 := backSectors s core .l2 (sectorsIn (16 * u) 16)
    { s1 with poison := poisonAfter s1.poison (16 * u) 16 true }
  | .cluster cl u =>
    let c := (clusterAt s cl).cache
    let s1 := backCluster s cl (closure c c.length (sectorsIn (16 * u) 16))
    { s1 with poison := poisonAfter s1.poison (16 * u) 16 true }
  | .l2 u => { s with poison := poisonAfter s.poison (16 * u) 16 true }
  | .icache core b => let c := coreAt s core; setCore s core { c with icBad := b :: c.icBad.filter (· != b) }
  | .clusterIcache cl b => let c := clusterAt s cl; setCluster s cl { c with icBad := b :: c.icBad.filter (· != b) }

/-- SRAM_SCRUB: an SRAM array is scrubbed. A word that cannot be corrected poisons its unit: which, is free (log 2). -/
def execSramScrub (core : Nat) (corrected bad : Bool) (s : State) : Host.Outcome State Fault Refusal :=
  .next (
    let c := s.counters
    let us := sramUnits s core
    if !bad || us.isEmpty then { s with counters := { c with sramCe := if corrected && !bad then satInc c.sramCe else c.sramCe } }
    else
      let f := takeFree { s with counters := { c with sramUe := satInc c.sramUe } }
      match us[f.1.toNat % us.length]? with
      | some u => poisonSram f.2 u
      | none => f.2)

/-- The failed replays of the current flit of a link. -/
def replaysOf (s : State) (peer : Bool) (link : Nat) : Nat :=
  match s.links.replays.find? (fun r => r.1 == peer && r.2.1 == link) with | some r => r.2.2 | none => 0

/-- The failed replays of a link set. -/
def setReplays (s : State) (peer : Bool) (link n : Nat) : State :=
  let rest := s.links.replays.filter fun r => !(r.1 == peer && r.2.1 == link)
  { s with links := { s.links with replays := if n = 0 then rest else (peer, link, n) :: rest } }

/-- FLIT_REPLAY: a flit whose CRC fails is replayed in order and counted; a flit other than the one replayed last begins a new count. -/
def execFlitReplay (peer : Bool) (flit : FlitRef) (s : State) : Host.Outcome State Fault Refusal :=
  .next (
    let c := s.counters
    let s1 := setReplays s peer flit.link ((if flit.again then replaysOf s peer flit.link else 0) + 1)
    { s1 with counters := if peer then { c with peerReplay := satInc c.peerReplay } else { c with d2dReplay := satInc c.d2dReplay } })

end Sys2Proof.Machine
end

