-- ==== Sys2Proof/Machine/Manager.lean ====
section
/-! DEFINITION. The context manager: frames and their ownership (R368), translation tables (R370, R371, R374), contexts, queue set-up, the
aperture, control registers, pairings (R46, R333, R367, R376, R378), and what the failure of a link ends (R437). -/

namespace Sys2Proof.Machine

open Sys2Proof

/-! ## The mailbox (R376) -/

/-- Whether the device has started and its parts run: not in S3, not off, not stopped. -/
def running (s : State) : Bool := s.package == .on && s.start.ready && !s.start.refused && !s.start.stopped

/-- A reply on the context manager mailbox, with MSI-X vector 60. -/
def reply (s : State) (ok : Bool) : State :=
  raiseMsix { s with host := { s.host with replies := s.host.replies ++ [ok] } } 60

/-- A request served while the device runs: carried out with a good reply, or refused with a bad one. -/
def request (s : State) (r : Option State) : State :=
  if !running s then s
  else match r with
    | some s1 => reply s1 true
    | none => reply s false

/-! ## Frames (R368) -/

/-- Frames of device memory. -/
def frameCount : Nat := 0xC000000000 / 65536

/-- Whether a frame lies in a mapped-out die (R432). -/
def frameOut (s : State) (f : Nat) : Bool := s.start.outDies.contains (homeDie (f * 65536))

/-- Whether a frame is free to be given. -/
def frameFree (s : State) (f : Nat) : Bool := decide (f < frameCount) && (tget s.frames f).isNone && !frameOut s f

/-- Whether an address lies in a frame. -/
def inFrame (f a : Nat) : Bool := a / 65536 == f

/-- A frame overwritten with zeros, with no copy of it left in any cache. -/
def zeroFrame (s : State) (f : Nat) : State :=
  { s with
    mem := s.mem.filter fun c => !inFrame f c.1
    poison := s.poison.filter fun u => !inFrame f (16 * u)
    lines := s.lines.filter fun e => !inFrame f (128 * e.1)
    cores := s.cores.map fun e => (e.1, { e.2 with
      l1 := e.2.l1.filter fun b => !inFrame f b.addr
      icache := e.2.icache.filter fun b => !inFrame f (32 * b.1) })
    clusters := s.clusters.map fun e => (e.1, { e.2 with
      cache := e.2.cache.filter fun b => !inFrame f b.addr
      icache := e.2.icache.filter fun b => !inFrame f (32 * b.1) }) }

/-- The free frame that the context manager takes: which, is free (log 2). -/
def pickFrame (s : State) : Option (Nat × State) :=
  let v := takeFree s
  let start := v.1.toNat % frameCount
  let bound := s.frames.length + frameCount / 4 * s.start.outDies.length + 1
  ((List.range (min bound frameCount)).map fun i => (start + i) % frameCount).find? (frameFree s) |>.map fun f => (f, v.2)

/-- A frame taken for a translation table of a context. -/
def takeTable (s : State) (ctx : Nat) : Option (Nat × State) :=
  (pickFrame s).map fun e =>
    let s1 := zeroFrame e.2 e.1
    (65536 * e.1, { s1 with frames := tset s1.frames e.1 (.table ctx) })

/-- The dirty bytes of a frame written back from every scope cache, and every copy of it invalidated (R374). -/
def flushFrame (s : State) (f : Nat) : State :=
  let s1 := s.cores.foldl (fun s e =>
    let c := (coreAt s e.1).l1
    backL1 s e.1 (closure c c.length ((dirtySectors c).filter fun x => inFrame f (16 * x)))) s
  let s2 := s1.clusters.foldl (fun s e =>
    let c := (clusterAt s e.1).cache
    backCluster s e.1 (closure c c.length ((dirtySectors c).filter fun x => inFrame f (16 * x)))) s1
  { s2 with
    lines := s2.lines.filter fun e => !inFrame f (128 * e.1)
    cores := s2.cores.map fun e => (e.1, { e.2 with l1 := e.2.l1.filter fun b => !inFrame f b.addr })
    clusters := s2.clusters.map fun e => (e.1, { e.2 with cache := e.2.cache.filter fun b => !inFrame f b.addr }) }

/-- The frames of a page at a physical address. -/
def pageFrames (pa : Nat) (big : Bool) : List Nat :=
  (List.range (if big then 8192 else 1)).map fun i => pa / 65536 + i

/-- Whether a context may map a frame: its own, a SHARED one, or a free one given to it. -/
def mayMap (s : State) (ctx f : Nat) : Bool :=
  match tget s.frames f with
  | none => frameFree s f
  | some (.own c) => c == ctx
  | some .shared => true
  | some (.table _) => false

/-- A frame given to a context by a mapping: private, or SHARED where the mapping says so. One that leaves a context is zeroed first. -/
def giveFrame (ctx : Nat) (shared : Bool) (s : State) (f : Nat) : State :=
  match tget s.frames f with
  | none => let s1 := zeroFrame s f; { s1 with frames := tset s1.frames f (if shared then .shared else .own ctx) }
  | some (.own _) => if shared then let s1 := zeroFrame s f; { s1 with frames := tset s1.frames f .shared } else s
  | some _ => s

/-! ## Translation tables (R370, R371) -/

/-- An entry of a table written by the context manager. -/
def writeEntry (s : State) (pa v : Nat) : State := l2Store s pa (toBytes 8 v) none

/-- A leaf with a frame address and READ, WRITE, EXEC, SHARED and PEER in bits 0 to 4 of its flags. -/
def leafEntry (pa : Nat) (flags : BitVec 5) : Nat := pa % 2 ^ 52 / 65536 * 65536 + flags.toNat * 4 + 3

/-- The table that an entry points to, made where the entry is not valid; none where the entry is a leaf or no frame is free. -/
def tableUnder (s : State) (ctx entry : Nat) : Option (Nat × State) :=
  let e := readEntry s entry
  if e % 2 = 0 then (takeTable s ctx).map fun t => (t.1, writeEntry t.2 entry (t.1 + 1))
  else if e / 2 % 2 = 1 then none
  else some (entryPa e, s)

/-- The addresses of the entries of a virtual address at levels 1, 2 and 3. -/
def entry1 (root va : Nat) : Nat := root + 8 * (va / 2 ^ 42 % 8192)
def entry2 (table va : Nat) : Nat := table + 8 * (va / 2 ^ 29 % 8192)
def entry3 (table va : Nat) : Nat := table + 8 * (va / 2 ^ 16 % 8192)

/-- The entry that is to hold a page's leaf, its tables made on the way. -/
def leafPlace (s : State) (ctx root va : Nat) (big : Bool) : Option (Nat × State) :=
  match tableUnder s ctx (entry1 root va) with
  | none => none
  | some (t2, s1) =>
    if big then some (entry2 t2 va, s1)
    else (tableUnder s1 ctx (entry2 t2 va)).map fun t3 => (entry3 t3.1 va, t3.2)

/-- The valid leaf of a virtual address: its entry's address, the entry, and whether it is of 512 MiB. -/
def leafOf (s : State) (root va : Nat) : Option (Nat × Nat × Bool) :=
  let e1 := readEntry s (entry1 root va)
  if e1 % 4 ≠ 1 then none
  else
    let a2 := entry2 (entryPa e1) va
    let e2 := readEntry s a2
    if e2 % 4 = 3 then some (a2, e2, true)
    else if e2 % 4 ≠ 1 then none
    else
      let a3 := entry3 (entryPa e2) va
      let e3 := readEntry s a3
      if e3 % 4 = 3 then some (a3, e3, false) else none

/-- Bytes of a page. -/
def pageSize (big : Bool) : Nat := if big then 2 ^ 29 else 65536

/-- Whether a page's mapping is well-formed: aligned addresses in a translated window, within device memory for the global one. -/
def pageOk (va pa : Nat) (big : Bool) : Bool :=
  let n := pageSize big
  va % n == 0 && pa % n == 0 && (match winOf va with
    | .global => decide (pa + n ≤ 0xC000000000)
    | .host => decide (pa + n ≤ 2 ^ 52)
    | .peer _ => decide (pa + n ≤ 2 ^ 48)
    | _ => false)

/-- Whether a page of the global window may be mapped to its frames. -/
def framesOk (s : State) (ctx va pa : Nat) (big : Bool) : Bool :=
  winOf va != .global || (pageFrames pa big).all (mayMap s ctx)

/-- The frames of a new mapping given to its context. -/
def giveFrames (s : State) (ctx va pa : Nat) (big shared : Bool) : State :=
  if winOf va = .global then (pageFrames pa big).foldl (giveFrame ctx shared) s else s

/-! ## Requests on a context -/

/-- The state in which a request on a context may be carried out: for a sealed context only one that its owner has authorised in its
session, each authorisation once (R46, R333, R368). -/
def authorised (s : State) (ctx : Nat) (auth : Bool) : Option State :=
  match tget s.ctxs ctx with
  | none => none
  | some c =>
    if !c.sealed then some s
    else if auth && c.granted != 0 then some (modCtx s ctx fun c => { c with granted := c.granted - 1 })
    else none

/-- A mapping made where the page has none. A 512 MiB page takes the place of no table. -/
def newMapping (s : State) (ctx root va pa : Nat) (big : Bool) (flags : BitVec 5) : Option State :=
  match leafPlace (giveFrames s ctx va pa big flags[3]) ctx root va big with
  | none => none
  | some (at_, s1) => if readEntry s1 at_ % 2 = 1 then none else some (writeEntry s1 at_ (leafEntry pa flags))

/-- MAP: a page of a context mapped to a frame, or a 512 MiB page to its frames (R368). -/
def execMap (ctx : Nat) (va : Addr) (pa : Nat) (big : Bool) (flags : BitVec 5) (auth : Bool) (s : State) :
    Host.Outcome State Fault Refusal :=
  .next (request s (match tget s.ctxs ctx with
    | none => none
    | some c =>
      if !pageOk va.toNat pa big || !framesOk s ctx va.toNat pa big || (leafOf s c.root va.toNat).isSome then none
      else (authorised s ctx auth).bind fun s1 => newMapping s1 ctx c.root va.toNat pa big flags))

/-- Whether an access made with a page's old translation is still to be performed. -/
def pageBusy (s : State) (ctx va pa : Nat) (big : Bool) : Bool :=
  let n := pageSize big
  (s.far.any fun w => w.ctx == ctx && decide (va ≤ w.va.toNat) && decide (w.va.toNat < va + n))
    || (s.pend.any fun p => p.ctx == ctx && p.pieces.any fun q => !q.done && decide (q.va < va + n) && decide (va < q.va + q.n))
    || (winOf va == .global && s.lines.any fun e => e.2.holder.isSome && decide (pa ≤ 128 * e.1) && decide (128 * e.1 < pa + n))

/-- Whether any leaf of a context still names a frame. -/
def stillMapped (s : State) (ctx f : Nat) : Bool :=
  s.mem.any fun c => c.1 % 8 == 0 && (tget s.frames (c.1 / 65536) == some (.table ctx))
    && (let e := readEntry s c.1; e % 4 == 3 && (entryPa e / 65536 == f || (entryPa e / 65536 % 8192 == 0
      && entryPa e / 65536 == f / 8192 * 8192)))

/-- A private frame whose mapping is gone: its copies are written back and invalidated. Where no leaf names it any more, whether the
context manager keeps it for its context or frees it is free (log 2). -/
def leaveFrame (ctx : Nat) (s : State) (f : Nat) : State :=
  if tget s.frames f ≠ some (.own ctx) then s
  else
    let s1 := flushFrame s f
    if stillMapped s1 ctx f then s1
    else
      let v := Config.freeBool (2 * s1.nums.fresh + 1)
      let s2 := { s1 with nums := { s1.nums with fresh := s1.nums.fresh + 1 } }
      if v then let s3 := zeroFrame s2 f; { s3 with frames := tdel s3.frames f } else s2

/-- Whether an unmap or remap request is in order, for a leaf: the page's own address, and for a remap frames that the context may have. -/
def unmapOk (s : State) (ctx : Nat) (va : Addr) (remap : Option Nat) (big : Bool) : Bool :=
  va.toNat % pageSize big == 0 && (match remap with
    | some pa => pageOk va.toNat pa big && framesOk s ctx va.toNat pa big
    | none => true)

/-- Whether an unmap or remap request that is in order cannot complete yet (R374). -/
def unmapWaits (s : State) (ctx : Nat) (va : Addr) (remap : Option Nat) : Bool :=
  match tget s.ctxs ctx with
  | none => false
  | some c => match leafOf s c.root va.toNat with
    | none => false
    | some (_, e, big) => unmapOk s ctx va remap big && pageBusy s ctx va.toNat (entryPa e) big

/-- UNMAP: a page loses its mapping, or has it replaced, once every access with the old one has been performed (R374). Until then
the request is still to be done: it stays on the agenda (`nextOutside`). -/
def execUnmap (ctx : Nat) (va : Addr) (remap : Option Nat) (auth : Bool) (s : State) : Host.Outcome State Fault Refusal :=
  .next (match tget s.ctxs ctx with
    | none => request s none
    | some c =>
      match leafOf s c.root va.toNat with
      | none => request s none
      | some (at_, e, big) =>
        let old := entryPa e
        if !unmapOk s ctx va remap big then request s none
        else if pageBusy s ctx va.toNat old big then s
        else request s ((authorised s ctx auth).map fun s1 =>
          let flags := BitVec.ofNat 5 (e / 4)
          let s2 := match remap with
            | some pa => writeEntry (giveFrames s1 ctx va.toNat pa big flags[3]) at_ (leafEntry pa flags)
            | none => writeEntry s1 at_ 0
          if winOf va.toNat = .global then (pageFrames old big).foldl (leaveFrame ctx) s2 else s2))

/-! ## Contexts (R367, R376) -/

/-- Whether a key slot can be given to a context: slot 0 always; another one in SECURE, without FULL, while no context has it. -/
def slotOk (s : State) (key : Nat) : Bool :=
  key == 0 || (decide (key ≤ 255) && s.sec.state == .secure && !s.sec.full && !(s.sec.slots.any fun e => e.1 == key))

/-- A context as it opens (R46, R385). -/
def freshCtx (key root : Nat) (owner : Option (BitVec 384)) (session : BitVec 384) : Ctx :=
  { key, root, sealed := false, owner, session, meas := 0, regs := CtlRegs.reset, bindings := [], copies := [], spill := [], shadow := []
    debug := .none, perms := 0, challenges := [], ide := false, granted := 0 }

/-- A context opened with an empty root table. -/
def openContext (s : State) (ctx key : Nat) (owner : Option (BitVec 384)) (session : BitVec 384) : Option State :=
  if 256 ≤ ctx ∨ (tget s.ctxs ctx).isSome ∨ !slotOk s key then none
  else (takeTable s ctx).map fun t =>
    let s1 := t.2
    { s1 with
      ctxs := tset s1.ctxs ctx (freshCtx key t.1 owner session)
      sec := { s1.sec with slots := if key = 0 then s1.sec.slots else (key, ctx) :: s1.sec.slots } }

/-- CONTEXT_OPEN. -/
def execContextOpen (ctx key : Nat) (s : State) : Host.Outcome State Fault Refusal :=
  .next (request s (openContext s ctx key none 0))

/-- The grids of a context. -/
def gridsOfCtx (s : State) (ctx : Nat) : List Nat := (s.grids.filter fun e => e.2.ctx == ctx).map (·.1)

/-- A pending launch refused as its context closes. -/
def refusePending (ctx q : Nat) (s : State) (p : Pending) : State :=
  match packetDone s ctx p.packet 4 8 with
  | some s1 => s1
  | none => dropLaunch s ctx q p.packet

/-- The launches in ring slots that a doorbell has announced, oldest first, refused as their context closes; one that cannot be read is
counted as dropped. -/
def refuseSlots (ctx q : Nat) (lq : LaunchQueue) (s : State) : State :=
  (List.range (lq.tail - lq.head).toNat).foldl (fun s i =>
    match blockRead s ctx (lq.ring.toNat + 128 * ((lq.head.toNat + i) % 2 ^ lq.log2)) 128 with
    | .error _ => dropLaunch s ctx q { packetOf 0 false with done := 0xFFFFFFFFFFFFFFFF#64 }
    | .ok (bs, s1) => refusePending ctx q s1 { packet := packetOf (ofBytes bs) false, order := 0, issuer := none, since := 0, probe := 0 }) s

/-- The waiting launches of a context's queues refused, and the queues without an owner. -/
def dropQueues (s : State) (ctx : Nat) : State :=
  s.queues.foldl (fun s e =>
    if e.2.ctx ≠ some ctx then s
    else
      let s1 := refuseSlots ctx e.1 e.2 (e.2.pending.foldl (refusePending ctx e.1) s)
      modQueue s1 e.1 fun lq => { lq with ctx := none, pending := [], tail := lq.head }) s

/-- The frames that belong to a context, its tables among them. -/
def framesOf (s : State) (ctx : Nat) : List Nat :=
  (s.frames.filter fun e => e.2 == .own ctx || e.2 == .table ctx).map (·.1)

/-- A context closed: its grids end, its waiting launches are refused, its key slot is destroyed, and its frames are zeroed and freed. -/
def closeContext (s : State) (ctx : Nat) : State :=
  let s1 := (gridsOfCtx s ctx).foldl endGrid s
  let s2 := dropQueues s1 ctx
  let s3 := { s2 with sec := { s2.sec with slots := s2.sec.slots.filter fun e => e.2 != ctx } }
  let gone := framesOf s3 ctx
  let s4 := gone.foldl zeroFrame s3
  { s4 with
    frames := s4.frames.filter fun e => !gone.contains e.1
    ctxs := tdel s4.ctxs ctx
    domains := s4.domains.filter fun e => e.2.ctx != ctx
    freds := s4.freds.filter fun f => f.ctx != ctx
    winq := s4.winq.filter fun w => w.ctx != ctx
    pairs := s4.pairs.filter fun p => p.ctx != ctx }

/-- CONTEXT_CLOSE: carried out whether or not grids of the context run. -/
def execContextClose (ctx : Nat) (s : State) : Host.Outcome State Fault Refusal :=
  .next (request s (if (tget s.ctxs ctx).isSome then some (closeContext s ctx) else none))

/-! ## Queues, aperture, control registers, pairings -/

/-- QUEUE_SETUP: a queue bound to a context and its ring (R333). -/
def execQueueSetup (q ctx : Nat) (ring : Addr) (log2 : Nat) (auth : Bool) (s : State) : Host.Outcome State Fault Refusal :=
  .next (request s (
    let old := tget s.queues q
    let busy := match old with | some lq => !lq.pending.isEmpty | none => false
    if 16 ≤ q ∨ log2 < 4 ∨ 16 < log2 ∨ busy = true then none
    else
      let before := match old with
        | some lq => (match lq.ctx with
          | some c => if c = ctx then some s else authorised s c auth
          | none => some s)
        | none => some s
      (before.bind fun s1 => authorised s1 ctx auth).map fun s2 =>
        let lq : LaunchQueue := match old with
          | some l => { l with ctx := some ctx, ring, log2, head := 0, tail := 0 }
          | none => { ctx := some ctx, ring, log2, head := 0, tail := 0, pending := [], dropped := 0, lost := false, overrun := false }
        { s2 with queues := tset s2.queues q lq }))

/-- APERTURE_PLACEMENT: APBASE set. -/
def execAperturePlacement (base : Nat) (s : State) : Host.Outcome State Fault Refusal :=
  .next (request s (if base % 2 ^ 36 = 0 ∧ base < 0xC000000000 then some { s with host := { s.host with apbase := base } } else none))

/-- CONTEXT_CONTROL_WRITE: a context control register written while no grid of the context runs (R46). -/
def execContextControlWrite (ctx : Nat) (idx : BitVec 12) (v : W32) (auth : Bool) (s : State) : Host.Outcome State Fault Refusal :=
  .next (request s (
    if !(gridsOfCtx s ctx).isEmpty || decide (0x100 ≤ idx.toNat) then none
    else (authorised s ctx auth).map fun s1 => modCtx s1 ctx fun c => { c with regs := ctlWrite c.regs idx.toNat v }))

/-- PAIRING: a context paired with a partner context through a peer port, once both sides record it (R378). -/
def execPairing (ctx port partner : Nat) (farAgrees : Bool) (s : State) : Host.Outcome State Fault Refusal :=
  .next (request s (
    if (tget s.ctxs ctx).isNone || !s.links.peersUp.contains port || !farAgrees
        || s.pairs.any (fun p => p.ctx == ctx && p.port == port) then none
    else some { s with pairs := s.pairs ++ [{ ctx, port, partner, key := Config.pairingKey ctx port partner }] }))

/-! ## A link that fails for good (R437) -/

/-- Every context closed, as when the device stops. -/
def closeAll (s : State) : State := (s.ctxs.map (·.1)).foldl closeContext s

/-- A peer port's stores and atomics that have not been acknowledged dropped and reported. -/
def dropPort (s : State) (port : Nat) : State := (s.far.filter fun f => f.port == some port).foldl dropFar s

/-- LINK_RETRAIN: after 8 failed replays of one flit a link retrains. Where that fails, a die-to-die link stops the device, and a peer
port goes down: its unacknowledged writes are reported dropped, and loads raise XLATE_PERM. After that, in a step of its own, its
pairings are dissolved. -/
def execLinkRetrain (peer : Bool) (link : Nat) (ok : Bool) (s : State) : Host.Outcome State Fault Refusal :=
  .next (
    if peer && !s.links.peersUp.contains link then
      let s1 := dropPort s link
      wakeFar { s1 with pairs := s1.pairs.filter fun p => p.port != link }
    else if replaysOf s peer link < 8 then s
    else
      let s1 := setReplays s peer link 0
      if ok then s1
      else if peer then
        let s2 := { s1 with links := { s1.links with peersUp := s1.links.peersUp.filter (· != link) } }
        wakeFar (dropPort s2 link)
      else
        let s2 := closeAll s1
        { s2 with start := { s2.start with stopped := true, badLink := some link } })

end Sys2Proof.Machine
end

