-- ==== Sys2Proof/Machine/HostPort.lean ====
section
/-! DEFINITION. What the host and paired peers do to the device: doorbells and queue status (R333), the aperture (R376), the debug mailbox
(R390), link encryption keys (R376), accesses from a peer (R378, R379), and what BAR 0 reads (R333, R433, R440). -/

namespace Sys2Proof.Machine

open Sys2Proof

/-! ## Identity (R380) -/

/-- The device identity key pairs, from the secret alone. -/
def identitySeed : List Byte := toBytes 32 Config.deviceSecret.toNat

/-- DEVICE_ID: the SHA-384 of the two identity public keys. -/
def deviceId : BitVec 384 := Config.sha384 ((Config.rsaPair identitySeed).1 ++ (Config.slhPair identitySeed).1)

/-! ## Doorbells and queue status (R333) -/

/-- How far a tail index lies ahead of a queue's head, modulo 2^32. -/
def aheadOf (lq : LaunchQueue) (tail : W32) : Nat := (tail - lq.head).toNat

/-- DOORBELL: a new tail index, ignored with OVERRUN where it lies more than the ring's slots ahead of the head. -/
def execDoorbell (q : Nat) (tail : W32) (s : State) : Host.Outcome State Fault Refusal :=
  .next (match tget s.queues q with
    | none => s
    | some lq =>
      if !running s || lq.ctx.isNone then s
      else if aheadOf lq tail ≤ 2 ^ lq.log2 then modQueue s q fun l => { l with tail }
      else
        let s1 := modQueue s q fun l => { l with overrun := true }
        if lq.overrun then s1 else raiseMsix s1 61)

/-- QUEUE_STATUS_WRITE: a 1 written to LOST or OVERRUN clears it. -/
def execQueueStatusWrite (q : Nat) (v : W32) (s : State) : Host.Outcome State Fault Refusal :=
  .next (if running s then
      modQueue s q fun l => { l with lost := l.lost && !v[1], overrun := l.overrun && !v[0] }
    else s)

/-- The status register of a queue. -/
def queueStatus (s : State) (q : Nat) : W32 :=
  match tget s.queues q with
  | some l => BitVec.ofNat 32 (l.dropped * 2 ^ 16 + (if l.lost then 2 else 0) + (if l.overrun then 1 else 0))
  | none => 0

/-! ## The aperture (R376) -/

/-- Whether the host may reach a physical address through BAR 2. -/
def hostReaches (s : State) (pa : Nat) : Bool := tget s.frames (pa / 65536) == some .shared && !frameOut s (pa / 65536)

/-- One part of an aperture write, in one line: performed at the L2, or dropped and counted. -/
def apertureWrite (s : State) (part : Nat × List Byte) : State :=
  if hostReaches s part.1 then l2Write s part.1 part.2 none
  else { s with host := { s.host with denied := s.host.denied + 1 } }

/-- The parts of a range, one a line. -/
def lineParts (pa n : Nat) : List (Nat × Nat) := (splitLines pa (List.replicate n 0)).map fun p => (p.1, p.2.length)

/-- An aperture read, one line at a time: all ones where the host may not read. -/
def apertureRead : List (Nat × Nat) → State → List Byte × State
  | [], s => ([], s)
  | (pa, n) :: r, s =>
    if hostReaches s pa then
      let x := l2Load s pa n none
      let t := apertureRead r x.2
      (x.1 ++ t.1, t.2)
    else
      let t := apertureRead r { s with host := { s.host with denied := s.host.denied + 1 } }
      (List.replicate n 0xFF#8 ++ t.1, t.2)

/-- APERTURE_ACCESS: a host write or read of up to n bytes through BAR 2. -/
def execApertureAccess (off : Nat) (n : Nat) (write : Option (List Byte)) (s : State) : Host.Outcome State Fault Refusal :=
  .next (
    let pa := s.host.apbase + off
    let len := match write with | some bs => bs.length | none => n
    if !running s || decide (2 ^ 36 < off + len) then s
    else match write with
      | some bs => (splitLines pa bs).foldl apertureWrite s
      | none =>
        let r := apertureRead (lineParts pa n) s
        { r.2 with host := { r.2.host with reads := r.2.host.reads ++ [r.1] } })

/-! ## The debug mailbox (R390) -/

/-- Whether any debug level above NONE is in force. -/
def anyDebug (s : State) : Bool := s.sec.full || s.ctxs.any fun e => e.2.debug != .none

/-- DEBUG_MAILBOX_HOST_WRITE: the host deposits a message, or acknowledges the device's. -/
def execDebugMailboxHostWrite (msg : Option (List Byte)) (s : State) : Host.Outcome State Fault Refusal :=
  .next (if !running s || !anyDebug s then s
    else match msg with
      | some bs =>
        if bs.length ≤ 2040 then { s with host := { s.host with h2d := some bs, h2dSeq := s.host.h2dSeq + 1 } } else s
      | none => { s with host := { s.host with d2h := none } })

/-- A half of the mailbox as BAR 0 reads it: length, sequence number and the message's bytes; all ones while no debug level is in
force, and in S3 (R394). -/
def mailboxRead (s : State) (toHost : Bool) : List Byte :=
  if !running s || !anyDebug s then List.replicate 2048 0xFF#8
  else
    let msg := (if toHost then s.host.d2h else s.host.h2d).getD []
    let seq := if toHost then s.host.d2hSeq else s.host.h2dSeq
    toBytes 4 msg.length ++ toBytes 4 seq.toNat ++ (msg ++ List.replicate 2040 0).take 2040

/-! ## IDE keys (R376, R377) -/

/-- IDE_KEY_SET: the keys of the Link stream (0) or of a Selective stream (1 to 8) set, for a context where one is named. -/
def execIdeKeySet (stream : Nat) (ctx : Option Nat) (s : State) : Host.Outcome State Fault Refusal :=
  .next (if !running s || decide (8 < stream) then s
    else
      let s1 := { s with host := { s.host with ide := if s.host.ide.contains stream then s.host.ide else stream :: s.host.ide } }
      match ctx with
      | some c => if stream = 0 then s1 else modCtx s1 c fun x => { x with ide := true }
      | none => s1)

/-! ## Accesses from a peer (R378, R379) -/

/-- The access kind and bytes of a peer's request. -/
def PeerReq.kind : PeerReq → AccKind
  | .load _ => .load
  | .store _ => .store
  | .atomic _ _ _ | .cas _ _ _ => .atomic

/-- The bytes of a peer's request. -/
def PeerReq.size : PeerReq → Nat
  | .load n => n
  | .store bs => bs.length
  | .atomic _ wide _ | .cas wide _ _ => if wide then 8 else 4

/-- The physical address of a byte that a peer may reach: in the global window, outside bound views, by a leaf with PEER that grants the
access. -/
def peerByte (s : State) (ctx : Nat) (acc : AccKind) (va : Nat) : Option Nat :=
  match tget s.ctxs ctx with
  | none => none
  | some c =>
    if winOf va != .global || (viewOf s ctx va).isSome then none
    else match walk s c.root true va (some acc) with
      | .ok (pa, e) => if e / 64 % 2 = 1 then some pa else none
      | .error _ => none

/-- The parts of a range that a peer may reach, each in one line: none where any byte is out of reach. -/
def peerParts (s : State) (ctx : Nat) (acc : AccKind) (va : Nat) : List (Nat × Nat) → Option (List (Nat × Nat × Nat))
  | [] => some []
  | (v, n) :: r =>
    match peerByte s ctx acc v, peerParts s ctx acc va r with
    | some pa, some t => some ((pa, v - va, n) :: t)
    | _, _ => none

/-- A reply sent to a peer. -/
def sendPeer (s : State) (port : Nat) (r : Option (List Byte × Bool)) : State :=
  { s with links := { s.links with sent := s.links.sent ++ [(port, r)] } }

/-- Bytes read at the L2 for a peer, with whether any is poisoned. -/
def peerLoad : List (Nat × Nat × Nat) → State → List Byte × Bool × State
  | [], s => ([], false, s)
  | (pa, _, n) :: r, s =>
    let bad := poisonedAt s pa n
    let x := l2Load s pa n none
    let t := peerLoad r x.2
    (x.1 ++ t.1, bad || t.2.1, t.2.2)

/-- PEER_ACCESS_IN: a request of the partner of a pairing, translated in this device's context and performed at the L2, or refused. -/
def execPeerAccessIn (port : Nat) (partner : Nat) (ctx : Nat) (va : Addr) (req : PeerReq) (s : State) :
    Host.Outcome State Fault Refusal :=
  .next (
    let paired := s.pairs.any fun p => p.ctx == ctx && p.port == port && p.partner == partner
    let atomicBad := PeerReq.kind req == .atomic && va.toNat % PeerReq.size req != 0
    if !running s || !paired || atomicBad then (if running s then sendPeer s port none else s)
    else match peerParts s ctx (PeerReq.kind req) va.toNat (lineParts va.toNat (PeerReq.size req)) with
      | none => sendPeer s port none
      | some ps => match req with
        | .load _ => let r := peerLoad ps s; sendPeer r.2.2 port (some (r.1, r.2.1))
        | .store bs =>
          sendPeer (ps.foldl (fun s p => l2Write s p.1 ((bs.drop p.2.1).take p.2.2) none) s) port (some ([], false))
        | .atomic op wide v =>
          let r := peerLoad ps s
          if r.2.1 then sendPeer r.2.2 port (some (r.1, true))
          else sendPeer (ps.foldl (fun s p => l2Write s p.1 (atomBytes op wide v r.1) none) r.2.2) port (some (r.1, false))
        | .cas wide cmp swap =>
          let r := peerLoad ps s
          if r.2.1 then sendPeer r.2.2 port (some (r.1, true))
          else sendPeer (ps.foldl (fun s p => l2Write s p.1 (casBytes wide cmp swap r.1) none) r.2.2) port (some (r.1, false)))

/-! ## Accesses from outside that wait (R145, R217) -/

/-- Whether an access from outside writes a line that an irrevocable attempt holds, or a request to the context manager cannot complete yet. -/
def outsideHeld (s : State) (e : Instr) : Bool :=
  match e with
  | .apertureAccess off _ (some bs) => (splitLines (s.host.apbase + off) bs).any fun p =>
      hostReaches s p.1 && heldByOther s nobody (p.1 / 128)
  | .peerAccessIn _ _ ctx va req =>
    PeerReq.kind req != .load && (match peerParts s ctx (PeerReq.kind req) va.toNat (lineParts va.toNat (PeerReq.size req)) with
      | some ps => ps.any fun p => heldByOther s nobody (p.1 / 128)
      | none => false)
  | .unmap ctx va remap _ => unmapWaits s ctx va remap
  | _ => false

/-- Whether two events come from the same side, which keeps its accesses in order, or are requests that change one context's mappings. -/
def sameSide (e f : Instr) : Bool :=
  match e, f with
  | .apertureAccess _ _ _, .apertureAccess _ _ _ => true
  | .peerAccessIn p _ _ _ _, .peerAccessIn q _ _ _ _ => p == q
  | .unmap c _ _ _, .unmap d _ _ _ | .unmap c _ _ _, .map d _ _ _ _ _ => c == d
  | _, _ => false

/-- The next event of an agenda that can happen, with the agenda that remains: one that must wait stays, and later ones of its
side stay behind it. -/
def nextOutside (s : State) : (kept : List Instr) → List Instr → Option (Instr × List Instr)
  | _, [] => none
  | kept, e :: r =>
    if outsideHeld s e || kept.any (sameSide e) then nextOutside s (kept ++ [e]) r else some (e, kept ++ r)

/-! ## BAR 0 (R333, R433, R440) -/

/-- A start-record entry's word (R430). -/
def StartEntry.word (e : StartEntry) : W32 :=
  BitVec.ofNat 32 (e.attempts.toNat * 2 ^ 8 + e.path.toNat * 2 ^ 4 + e.state.toNat)

/-- The last step of the start record that is done; 0 for none. -/
def lastDone (s : State) : Nat :=
  (s.start.entries.mapIdx fun i e => if e.state = 2#3 then i + 1 else 0).foldl max 0

/-- SECSTATE and DEBUG codes of R384. -/
def SecState.code : SecState → Nat
  | .manufacture => 0 | .secure => 1 | .opened => 2

/-- The package power state of STATES: 0 with a die in A0 or A1, 1 with every die in C2, 2 in S3. -/
def powerCode (s : State) : Nat :=
  if s.package = .s3 then 2
  else if (List.range 4).all fun d => (dieAt s d).power == .c2 then 1 else 0

/-- A bit mask of the first n numbers that a test accepts. -/
def bitsOf (n : Nat) (p : Nat → Bool) : Nat := (List.range n).foldl (fun v i => if p i then v + 2 ^ i else v) 0

/-- The bytes of the identity and status page, BAR 0 offsets 0x0000 to 0x0FFF. -/
def identityPage (s : State) : List Byte :=
  let c := s.counters
  let head := toBytes 4 0x4128 ++ toBytes 4 Config.stepping.toNat
    ++ toBytes 4 (s.sec.state.code + (if s.sec.full then 2 else 0) * 2 ^ 8 + powerCode s * 2 ^ 16)
    ++ toBytes 4 (lastDone s + (if s.start.ready then 2 ^ 8 else 0) + (if s.start.refused then 2 ^ 9 else 0))
    ++ toBytes 48 deviceId.toNat
    ++ toBytes 16 (bitsOf 128 fun n => !inService s n)
    ++ toBytes 4 (s.start.hbmRate + bitsOf 12 (fun k => !s.start.outDies.contains (k / 3)) * 2 ^ 8)
  let counts := ([c.hbmCe, c.hbmUe, c.sramCe, c.sramUe, c.regReread, c.poisonUsed, c.d2dReplay, c.peerReplay, c.scrubPass].map
    fun w => toBytes 4 w.toNat).flatten
  let record := (s.start.entries.map fun e => toBytes 4 e.word.toNat).flatten
  let pad : List Byte → Nat → List Byte := fun l n => (l ++ List.replicate n 0).take n
  pad (pad (pad head 0x100 ++ counts) 0x800 ++ record) 0x1000

/-- Whether the host port is up: step 18 of this start is done (R433). -/
def portUp (s : State) : Bool :=
  s.package != .off && (s.start.ready || (match s.start.entries[17]? with | some e => e.state == 2#3 | none => false))

/-- The 32-bit word that BAR 0 reads at an offset below 0x2000: identity and status with the start record, a queue's status or its head index. None
while the port is not up; a device that refused to start shows the first page alone, at its management interface where the port is not up
(R433). -/
def bar0Word (s : State) (off : Nat) : Option W32 :=
  if !portUp s && !s.start.refused then none
  else if off < 0x1000 then some (BitVec.ofNat 32 (ofBytes ((identityPage s).drop off |>.take 4)))
  else if s.start.refused then none
  else if 0x1040 ≤ off ∧ off < 0x1080 then some (queueStatus s ((off - 0x1040) / 4))
  else if 0x1080 ≤ off ∧ off < 0x10C0 then some (match tget s.queues ((off - 0x1080) / 4) with | some l => l.head | none => 0)
  else some 0

end Sys2Proof.Machine
end

