-- ==== Sys2Proof/Machine/Logic.lean ====
section
/-! DEFINITION. Group 0x1, logic and bit (R96 to R101). -/

namespace Sys2Proof.Machine

open Sys2Proof

/-! ## Values -/

/-- A word from its bits. -/
def wordOf (f : Nat → Bool) : W32 := (List.range 32).foldl (fun r i => if f i then r ||| (1#32 <<< i) else r) 0#32

/-- `LTAB` (R96). -/
def ltabVal (ft : BitVec 8) (a b c : W32) : W32 := wordOf fun i => tableBit ft (a.getLsbD i) (b.getLsbD i) (c.getLsbD i)
/-- The shift amount (R97): mod 32 with `.wrap`. -/
def shiftBy (wrap : Bool) (b : W32) : Nat := if wrap then b.toNat % 32 else b.toNat
/-- `SHL`, `SHR` and `SAR` (R97). -/
def shlVal (wrap : Bool) (a b : W32) : W32 := a <<< shiftBy wrap b
def shrVal (wrap : Bool) (a b : W32) : W32 := a >>> shiftBy wrap b
def sarVal (wrap : Bool) (a b : W32) : W32 := a.sshiftRight (shiftBy wrap b)
/-- `ROT` (R97). -/
def rotVal (right : Bool) (a b : W32) : W32 := if right then a.rotateRight (b.toNat % 32) else a.rotateLeft (b.toNat % 32)
/-- `FSHF` (R98). -/
def fshfVal (right : Bool) (a b c : W32) : W32 :=
  let v : W64 := a ++ b
  let n := c.toNat % 32
  if right then lo32 (v >>> n) else hi32 (v <<< n)
/-- `POPC`, `CLZ` and `BREV` (R99). -/
def popcVal (a : W32) : W32 := BitVec.ofNat 32 ((List.range 32).filter fun i => a.getLsbD i).length
def clzVal (a : W32) : W32 := BitVec.ofNat 32 (((List.range 32).find? fun i => a.getLsbD (31 - i)).getD 32)
def brevVal (a : W32) : W32 := wordOf fun i => a.getLsbD (31 - i)
/-- `BFX` (R100). -/
def bfxVal (sg : Bool) (a b c : W32) : W32 :=
  let pos := b.toNat % 256
  let len := min (c.toNat % 256) 32
  let bit : Nat → Bool := fun i => if pos + i ≤ 31 then a.getLsbD (pos + i) else sg && a.getLsbD 31
  if len = 0 then 0 else wordOf fun i => if i < len then bit i else sg && bit (len - 1)
/-- `BFI` (R100). -/
def bfiVal (a b c : W32) : W32 :=
  let pos := c.toNat % 256
  let len := min (c.toNat / 256 % 256) 32
  wordOf fun i => if pos ≤ i ∧ i < pos + len then b.getLsbD (i - pos) else a.getLsbD i

/-! ## Meanings -/

def execLtab (c : Ctl) (d a b x : Spec) (ft : BitVec 8) (s : State) : Host.Outcome State Fault Refusal :=
  .next (aluV (.ltab c d a b x ft) c [srcV a, srcV b, srcV x] 4 d (fun e l => ltabVal ft (e.v a l) (e.v b l) (e.v x l)) s)
def execShl (c : Ctl) (wrap : Bool) (d a b : Spec) (s : State) : Host.Outcome State Fault Refusal :=
  .next (aluV (.shl c wrap d a b) c [srcV a, srcV b] 4 d (fun x l => shlVal wrap (x.v a l) (x.v b l)) s)
def execShlImm (c : Ctl) (wrap : Bool) (d a : Spec) (imm : W32) (s : State) : Host.Outcome State Fault Refusal :=
  .next (aluV (.shlImm c wrap d a imm) c [srcV a] 4 d (fun x l => shlVal wrap (x.v a l) imm) s)
def execShr (c : Ctl) (wrap : Bool) (d a b : Spec) (s : State) : Host.Outcome State Fault Refusal :=
  .next (aluV (.shr c wrap d a b) c [srcV a, srcV b] 4 d (fun x l => shrVal wrap (x.v a l) (x.v b l)) s)
def execShrImm (c : Ctl) (wrap : Bool) (d a : Spec) (imm : W32) (s : State) : Host.Outcome State Fault Refusal :=
  .next (aluV (.shrImm c wrap d a imm) c [srcV a] 4 d (fun x l => shrVal wrap (x.v a l) imm) s)
def execSar (c : Ctl) (wrap : Bool) (d a b : Spec) (s : State) : Host.Outcome State Fault Refusal :=
  .next (aluV (.sar c wrap d a b) c [srcV a, srcV b] 4 d (fun x l => sarVal wrap (x.v a l) (x.v b l)) s)
def execSarImm (c : Ctl) (wrap : Bool) (d a : Spec) (imm : W32) (s : State) : Host.Outcome State Fault Refusal :=
  .next (aluV (.sarImm c wrap d a imm) c [srcV a] 4 d (fun x l => sarVal wrap (x.v a l) imm) s)
def execRot (c : Ctl) (right : Bool) (d a b : Spec) (s : State) : Host.Outcome State Fault Refusal :=
  .next (aluV (.rot c right d a b) c [srcV a, srcV b] 4 d (fun x l => rotVal right (x.v a l) (x.v b l)) s)
def execRotImm (c : Ctl) (right : Bool) (d a : Spec) (imm : W32) (s : State) : Host.Outcome State Fault Refusal :=
  .next (aluV (.rotImm c right d a imm) c [srcV a] 4 d (fun x l => rotVal right (x.v a l) imm) s)
def execFshf (c : Ctl) (right : Bool) (d a b x : Spec) (s : State) : Host.Outcome State Fault Refusal :=
  .next (aluV (.fshf c right d a b x) c [srcV a, srcV b, srcV x] 4 d
    (fun e l => fshfVal right (e.v a l) (e.v b l) (e.v x l)) s)
def execPopc (c : Ctl) (d a : Spec) (s : State) : Host.Outcome State Fault Refusal :=
  .next (aluV (.popc c d a) c [srcV a] 4 d (fun x l => popcVal (x.v a l)) s)
def execClz (c : Ctl) (d a : Spec) (s : State) : Host.Outcome State Fault Refusal :=
  .next (aluV (.clz c d a) c [srcV a] 4 d (fun x l => clzVal (x.v a l)) s)
def execBrev (c : Ctl) (d a : Spec) (s : State) : Host.Outcome State Fault Refusal :=
  .next (aluV (.brev c d a) c [srcV a] 4 d (fun x l => brevVal (x.v a l)) s)
def execBfx (c : Ctl) (sg : Bool) (d a b x : Spec) (s : State) : Host.Outcome State Fault Refusal :=
  .next (aluV (.bfx c sg d a b x) c [srcV a, srcV b, srcV x] 4 d (fun e l => bfxVal sg (e.v a l) (e.v b l) (e.v x l)) s)
def execBfi (c : Ctl) (d a b x : Spec) (s : State) : Host.Outcome State Fault Refusal :=
  .next (aluV (.bfi c d a b x) c [srcV a, srcV b, srcV x] 4 d (fun e l => bfiVal (e.v a l) (e.v b l) (e.v x l)) s)
def execPtab (c : Ctl) (d a b x : Spec) (ft : BitVec 8) (s : State) : Host.Outcome State Fault Refusal :=
  .next (aluP (.ptab c d a b x ft) c [srcP a, srcP b, srcP x] 4 d
    (fun e l => tableBit ft (e.p a l) (e.p b l) (e.p x l)) s)

end Sys2Proof.Machine
end

