-- ==== Sys2Proof/Machine/Owner.lean ====
section
/-! DEFINITION. Hollyhock: measurement (R381), fused minima (R382), attestation (R383, R384), owner sessions (R385, R386), tokens and debug
levels (R387 to R389, R394). -/

namespace Sys2Proof.Machine

open Sys2Proof

/-! ## Measurement (R381) -/

/-- A register extended with the measurement of some bytes. -/
def extendReg (r : BitVec 384) (x : List Byte) : BitVec 384 :=
  Config.sha384 (toBytes 48 r.toNat ++ toBytes 48 (Config.sha384 x).toNat)

/-- A measurement register of Hollyhock extended. -/
def extendMr (s : State) (n : Nat) (x : List Byte) : State :=
  { s with sec := { s.sec with mr := lset s.sec.mr n (extendReg (s.sec.mr.getD n 0) x) } }

/-- MR9 extended with a change of security state (kind 0) or a debug level entered (kind 1 for a context, kind 2 for FULL). -/
def noteDebug (s : State) (kind value : Nat) : State := extendMr s 9 (Config.measured (90 + kind) value)

/-! ## Attestation keys (R380) -/

/-- What the attestation keys are derived from at a cold start: the secret and MR0. -/
def attestSeed (s : State) : List Byte := identitySeed ++ toBytes 48 (s.sec.mr.getD 0 0).toNat

/-- The alias certificate: MR0 and both attestation public keys, signed by the device identity keys. DESIGN CHOICE (log 48): its parts stand one
after another. -/
def aliasCertificate (s : State) : List Byte :=
  let body := toBytes 48 (s.sec.mr.getD 0 0).toNat ++ (Config.rsaPair (attestSeed s)).1 ++ (Config.slhPair (attestSeed s)).1
  body ++ Config.signRsa (Config.rsaPair identitySeed).2 body ++ Config.signSlh (Config.slhPair identitySeed).2 body

/-! ## Images (R382) -/

/-- Whether Hollyhock accepts an image: both signatures verify under Plovaux's keys for its kind, and its version is at least the fused minimum
of the kind. -/
def imageOk (s : State) (kind image : Nat) : Bool :=
  let bs := Config.firmware image
  let sigs := Config.imageSigs image
  Config.rsaVerifies (Config.vendorKeys kind) bs sigs.1 && Config.slhVerifies (Config.vendorKeys kind) bs sigs.2
    && decide (s.sec.minima.getD kind 0 ≤ (Config.svn image).toNat)

/-- The security version of the image of a kind that this start runs: of the second slot where its step took the alternative path. -/
def runningSvn (s : State) (kind : Nat) : BitVec 8 :=
  let step : Nat := [2, 5, 7, 13, 17, 14, 18].getD kind 0
  let second := kind != 5 && (match s.start.entries[step - 1]? with | some e => e.path == 1 | none => false)
  Config.svn (kind + if second then 16 else 0)

/-! ## FUSED_MINIMUM_RAISE (R382) -/

/-- FUSED_MINIMUM_RAISE: a request that carries both signatures and names a version no lower than the one running. -/
def execFusedMinimumRaise (kind : Nat) (version : Nat) (sigRsa sigSlh : List Byte) (s : State) : Host.Outcome State Fault Refusal :=
  .next (request s (
    let msg := Config.raiseRequest kind version
    let keys := Config.vendorKeys kind
    let ok := decide (kind < 7) && decide (version < 256) && decide ((runningSvn s kind).toNat ≤ version)
      && decide (s.sec.minima.getD kind 0 ≤ version) && Config.rsaVerifies keys msg sigRsa && Config.slhVerifies keys msg sigSlh
    if ok then some { s with sec := { s.sec with minima := lset s.sec.minima kind version } } else none))

/-! ## Owner sessions (R385, R386) -/

/-- The key slot that Hollyhock generates for a context: which of the free ones, is free (log 2). -/
def pickSlot (s : State) : Option (Nat × State) :=
  let v := takeFree s
  (((List.range 255).map fun i => 1 + (v.1.toNat + i) % 255).find? fun k => !(s.sec.slots.any fun e => e.1 == k)).map fun k => (k, v.2)

/-- The session of a message: the one of its number, or a new one that its KEY_EXCHANGE begins. -/
def sessionOf (s : State) (m : OwnerMsg) : Option OwnerSession :=
  match tget s.sec.sessions m.session with
  | some x => some x
  | none => m.hello.map fun t => { transcript := Config.sha384 t, secret := Config.sessionKeys t, count := 0, keys := none }

/-- A request of an owner session, where its message is authentic: the session, and the state in which its message is counted. DESIGN CHOICE
(log 48): the messages of a session are numbered, so that none is accepted twice. -/
def ownerAsks (s : State) (m : OwnerMsg) (kind : Nat) (ctx : Option Nat) (body : List Byte) : Option (OwnerSession × State) :=
  (sessionOf s m).bind fun x =>
    if Config.gcmOpens x.secret x.count (Config.ownerRequest kind ctx body) m.tag then
      some (x, { s with sec := { s.sec with sessions := tset s.sec.sessions m.session { x with count := x.count + 1 } } })
    else none

/-- A request about a context in the context's owner session: the state in which its message is counted. -/
def ctxOwnerAsks (s : State) (m : OwnerMsg) (kind ctx : Nat) (body : List Byte) : Option State :=
  (ownerAsks s m kind (some ctx) body).bind fun r => match tget s.ctxs ctx with
    | some c => if c.owner.isSome && c.session == r.1.transcript then some r.2 else none
    | none => none

/-- A request of the device owner: in a session that has named the device owner's keys. -/
def deviceOwnerAsks (s : State) (m : OwnerMsg) (kind : Nat) : Option State :=
  (ownerAsks s m kind none []).bind fun r => if s.sec.owner.isSome && r.1.keys == s.sec.owner then some r.2 else none

/-- The hash of an owner's two public keys. -/
def ownerKeys (k : OwnerKeys) : BitVec 384 := Config.sha384 (k.rsa ++ k.slh)

/-- The owner keys that a session has named. -/
def nameKeys (s : State) (m : OwnerMsg) (keys : BitVec 384) : State :=
  { s with sec := { s.sec with sessions := s.sec.sessions.map fun e => if e.1 = m.session then (e.1, { e.2 with keys := some keys }) else e } }

/-- OWNER_OPEN: a context opened for its owner, with a key slot of its own; the hash of the owner's keys and of the session's transcript are bound
to it. -/
def execOwnerOpen (m : OwnerMsg) (ctx : Nat) (keys : OwnerKeys) (s : State) : Host.Outcome State Fault Refusal :=
  .next (request s ((ownerAsks s m 0 (some ctx) (keys.rsa ++ keys.slh)).bind fun r =>
    let s1 := nameKeys r.2 m (ownerKeys keys)
    (pickSlot s1).bind fun k => openContext k.2 ctx k.1 (some (ownerKeys keys)) r.1.transcript))

/-- The valid entries of a table: index and entry, ascending. -/
def tableEntries (s : State) (table : Nat) : List (Nat × Nat) :=
  (s.mem.filter fun c => decide (table ≤ c.1) && decide (c.1 < table + 65536) && c.1 % 8 == 0).filterMap fun c =>
    let e := readEntry s c.1
    if e % 2 = 1 then some ((c.1 - table) / 8, e) else none

/-- Whether an entry is a leaf. -/
def isLeaf (e : Nat) : Bool := e / 2 % 2 == 1

/-- The leaves of a context's global window, in ascending virtual address: address, entry, whether of 512 MiB. -/
def leavesOf (s : State) (root : Nat) : List (Nat × Nat × Bool) :=
  (((tableEntries s root).filter fun e => !isLeaf e.2).map fun e1 =>
    ((tableEntries s (entryPa e1.2)).map fun e2 =>
      let va2 := e1.1 * 2 ^ 42 + e2.1 * 2 ^ 29
      if isLeaf e2.2 then [(va2, e2.2, true)]
      else ((tableEntries s (entryPa e2.2)).filter fun e3 => isLeaf e3.2).map fun e3 => (va2 + e3.1 * 65536, e3.2, false)).flatten).flatten
    |>.filter fun e => winOf e.1 == .global

/-- The list that a seal measures: address, permissions and the digest of the frame of each executable leaf. -/
def sealList (s : State) (root : Nat) : List Byte :=
  (((leavesOf s root).filter fun e => e.2.1 / 16 % 2 == 1).map fun e =>
    toBytes 8 e.1 ++ toBytes 8 (e.2.1 / 4 % 32)
      ++ toBytes 48 (Config.sha384 (cellsRead s.mem (entryPa e.2.1) (pageSize e.2.2))).toNat).flatten

/-- OWNER_SEAL: the owner seals its context, and CTX_MEAS is extended with its executable pages. -/
def execOwnerSeal (r : OwnerReq Nat) (s : State) : Host.Outcome State Fault Refusal :=
  .next (request s ((ctxOwnerAsks s r.msg 1 r.about []).bind fun s1 => match tget s.ctxs r.about with
    | none => none
    | some c =>
      if c.sealed then none
      else some (modCtx s1 r.about fun c => { c with sealed := true, meas := extendReg c.meas (sealList s c.root) })))

/-- OWNER_CHANGE: the owner authorises a change to its sealed context; CTX_MEAS is extended with the request. -/
def execOwnerChange (r : OwnerReq Nat) (req : List Byte) (s : State) : Host.Outcome State Fault Refusal :=
  .next (request s ((ctxOwnerAsks s r.msg 2 r.about req).bind fun s1 => match tget s.ctxs r.about with
    | none => none
    | some c =>
      if !c.sealed then none
      else some (modCtx s1 r.about fun c => { c with meas := extendReg c.meas req, granted := c.granted + 1 })))

/-- A fresh 16-byte challenge: its value is free (log 2). -/
def takeChallenge (s : State) : BitVec 128 × State :=
  let a := takeFree s
  let b := takeFree a.2
  (BitVec.ofNat 128 (a.1.toNat * 2 ^ 64 + b.1.toNat), b.2)

/-- OWNER_CHALLENGE: a single-use challenge issued to a context's owner, or to the device owner. -/
def execOwnerChallenge (r : OwnerReq (Option Nat)) (s : State) : Host.Outcome State Fault Refusal :=
  .next (request s (match r.about with
    | none => (deviceOwnerAsks s r.msg 3).map fun s1 =>
      let c := takeChallenge s1
      { c.2 with sec := { c.2.sec with ownerChal := c.1 :: c.2.sec.ownerChal } }
    | some n => (ctxOwnerAsks s r.msg 3 n []).map fun s1 =>
      let c := takeChallenge s1
      modCtx c.2 n fun x => { x with challenges := c.1 :: x.challenges }))

/-- A context's debug level ended: the monitor, which acts only under one, ends with it (R387). DESIGN CHOICE (log 48): its team ends as one that
exits does, so that the domain's own handler starts for what is outstanding. -/
def endDebug (s : State) (ctx : Nat) : State :=
  let ms := (s.grids.filter fun e => e.2.ctx == ctx && e.2.primrose).map (·.1)
  let s1 := ms.foldl (fun s g => { dropGrid s g with grids := tdel s.grids g }) s
  modCtx { s1 with domains := s1.domains.map fun e =>
      (e.1, if e.2.handler.any fun h => ms.contains h then { e.2 with handler := none } else e.2) } ctx fun c =>
    { c with debug := .none, perms := 0 }

/-- OWNER_REVOKE: the owner revokes its consent (R389). -/
def execOwnerRevoke (r : OwnerReq Nat) (s : State) : Host.Outcome State Fault Refusal :=
  .next (request s ((ctxOwnerAsks s r.msg 4 r.about []).map fun s1 => endDebug s1 r.about))

/-- OWNER_CLAIM: the device owner's keys recorded, while none are. -/
def execOwnerClaim (r : OwnerReq OwnerKeys) (s : State) : Host.Outcome State Fault Refusal :=
  .next (request s ((ownerAsks s r.msg 5 none (r.about.rsa ++ r.about.slh)).bind fun x =>
    if s.sec.owner.isSome then none
    else
      let s1 := nameKeys x.2 r.msg (ownerKeys r.about)
      some { s1 with sec := { s1.sec with owner := some (ownerKeys r.about) } }))

/-! ## Tokens (R388, R389) -/

/-- Bytes 0 to 127 of a token. -/
def SignedToken.body (t : SignedToken) : List Byte :=
  toBytes 4 t.kind.toNat ++ toBytes 4 t.perms.toNat ++ toBytes 48 t.deviceId.toNat ++ toBytes 4 t.context.toNat ++ toBytes 4 t.zeroA.toNat
    ++ toBytes 16 t.challenge.toNat ++ toBytes 48 t.zeroB.toNat

/-- The conditions on any token: both signatures, the device, an unused challenge of the signer, reserved bytes zero. -/
def tokenOk (t : SignedToken) (keys : BitVec 384) (chals : List (BitVec 128)) : Bool :=
  let body := SignedToken.body t
  Config.rsaVerifies keys body t.sigRsa && Config.slhVerifies keys body t.sigSlh && t.deviceId == deviceId
    && chals.contains t.challenge && t.zeroA == 0 && t.zeroB == 0

/-- A context put into CONTEXT with permissions. -/
def enterContext (s : State) (ctx : Nat) (perms : BitVec 3) : State :=
  noteDebug (modCtx s ctx fun c => { c with debug := .context, perms }) 1 ctx

/-- CONSENT_TOKEN: an accepted token puts its context into CONTEXT with the permissions it names. -/
def execConsentToken (t : SignedToken) (s : State) : Host.Outcome State Fault Refusal :=
  .next (request s (match tget s.ctxs t.context.toNat with
    | none => none
    | some c => match c.owner with
      | none => none
      | some keys =>
        if t.kind == 1 && t.perms.toNat / 8 == 0 && tokenOk t keys c.challenges then
          some (enterContext (modCtx s t.context.toNat fun c => { c with challenges := c.challenges.erase t.challenge })
            t.context.toNat (t.perms.setWidth 3))
        else none))

/-- FULL entered for the whole device. -/
def enterFull (s : State) : State := noteDebug { s with sec := { s.sec with full := true } } 2 0

/-- The contexts with a key slot. -/
def keyedCtxs (s : State) : List Nat := (s.ctxs.filter fun e => e.2.key != 0).map (·.1)

/-- REPAIR_TOKEN: an accepted token closes every keyed context, destroys every key slot, and then enters FULL. -/
def execRepairToken (t : SignedToken) (s : State) : Host.Outcome State Fault Refusal :=
  .next (request s (match s.sec.owner with
    | none => none
    | some keys =>
      if s.sec.state == .secure && t.kind == 2 && t.perms == 0 && t.context == 0xFFFFFFFF && tokenOk t keys s.sec.ownerChal then
        let s1 := (keyedCtxs s).foldl closeContext s
        some (enterFull { s1 with sec := { s1.sec with slots := [], ownerChal := s1.sec.ownerChal.erase t.challenge } })
      else none))

/-! ## Requests without a token (R394) -/

/-- DEBUG_LEVEL_REQUEST: CONTEXT for an open context in any security state; FULL outside SECURE. -/
def execDebugLevelRequest (level : DebugLevel) (ctx : Nat) (s : State) : Host.Outcome State Fault Refusal :=
  .next (request s (match level with
    | .none => none
    | .context => (match tget s.ctxs ctx with
      | none => none
      | some c => if c.key != 0 then none else some (enterContext s ctx 7))
    | .full => if s.sec.state = .secure then none else some (enterFull s)))

/-- SECURITY_STATE_REQUEST: the device owner asks for OPEN at the next cold start; a request asks for SECURE again (R394). -/
def execSecurityStateRequest (toOpen : Bool) (byOwner : Option OwnerMsg) (s : State) : Host.Outcome State Fault Refusal :=
  .next (request s (match toOpen, s.sec.state with
    | true, .secure => (byOwner.bind fun m => deviceOwnerAsks s m 6).map fun s1 => { s1 with sec := { s1.sec with next := some .opened } }
    | false, .opened => some { s with sec := { s.sec with next := some .secure } }
    | _, _ => none))

/-! ## ATTEST_SERVICE (R383, R384) -/

/-- The first 1,024 bytes of a report for a context, with the caller's data. -/
def reportBody (s : State) (ctx : Nat) (seq : W32) (user : List Byte) : List Byte :=
  let c := (tget s.ctxs ctx).getD (freshCtx 0 0 none 0)
  let debug := if s.sec.full then 2 else if c.debug = .context then 1 else 0
  let flags := (if c.sealed then 1 else 0) + (if c.debug = .context then 2 else 0)
  toBytes 8 0x154534154 ++ toBytes 4 reportLen ++ toBytes 4 seq.toNat ++ toBytes 8 s.clock
    ++ [BitVec.ofNat 8 s.sec.state.code, BitVec.ofNat 8 debug, BitVec.ofNat 8 ctx, BitVec.ofNat 8 c.key]
    ++ toBytes 4 flags ++ toBytes 48 deviceId.toNat ++ toBytes 48 c.meas.toNat ++ (user ++ List.replicate 64 0).take 64
    ++ toBytes 48 c.session.toNat ++ ((List.range 7).map (runningSvn s) ++ List.replicate 9 0)
    ++ ((List.range 12).map fun i => toBytes 48 (s.sec.mr.getD i 0).toNat).flatten ++ List.replicate 192 0

/-- A signature in a field of n bytes. -/
def signField (n : Nat) (bs : List Byte) : List Byte := (bs ++ List.replicate n 0).take n

/-- A whole report, signed by the attestation keys. -/
def reportBytes (s : State) (ctx : Nat) (seq : W32) (user : List Byte) : List Byte :=
  let b := reportBody s ctx seq user
  b ++ signField 384 (Config.signRsa (Config.rsaPair (attestSeed s)).2 b)
    ++ signField 16224 (Config.signSlh (Config.slhPair (attestSeed s)).2 b)

/-- A request that meets an engine fault stops, at its beginning; one that meets a held line waits. -/
def stopAttest (s : State) (n : Nat) (c : Cmd) (e : EngFail) : State := if e.held then s else stopCmd s n { c with pos := 0 } e

/-- One request served: the caller's data is read, the state taken, the report written, the operation completed. -/
def serveAttest (s : State) (n : Nat) (c : Cmd) (a b : Addr) (seq : W32) : State :=
  match engRead s c.by_ a.toNat 64 with
  | .error e => stopAttest s n c e
  | .ok (user, bad, s1) =>
    if bad then stopAttest s1 n c (.at .poison a.toNat)
    else match engWrite s1 c.by_ none b.toNat (reportBytes s1 c.by_.ctx seq user) false with
      | .error e => stopAttest s1 n c e
      | .ok s2 => completeCmd s2 n false

/-- ATTEST_SERVICE: Hollyhock serves the oldest request that is not stopped at a fault. -/
def execAttestService (s : State) : Host.Outcome State Fault Refusal :=
  .next (match s.sec.attest.findSome? (fun n => match tget s.cmds n with
      | some c => if c.stopped.isNone then some (n, c) else none
      | none => none) with
    | none => s
    | some (n, c) => match c.kind with
      | .attest a b seq => serveAttest s n c a b seq
      | _ => s)

end Sys2Proof.Machine
end

