-- ==== Sys2Proof/Machine/Preempt.lean ====
section
/-! DEFINITION. Pre-emption without draining: the choice of victim cores and what it reserves (R350, R351, R415), stopping (R411, R412), shadow
images (R413, R414), moves and forwarding (R417, R418), diversion (R419, R420, R423) and resume (R421, R422). -/

namespace Sys2Proof.Machine

open Sys2Proof

/-! ## The shadow region (R413 to R415) -/

/-- The first byte of a context's shadow region, and its capacity in units of 1,024 bytes. -/
def shadowBase (s : State) (ctx : Nat) : Nat := let r := ctlOf s ctx; (pair64 r.shadowBase r.shadowBaseH).toNat
def shadowCap (s : State) (ctx : Nat) : Nat := 64 * (ctlOf s ctx).shadowSize.toNat

/-- What a context's shadow region holds. -/
def shadowOf (s : State) (ctx : Nat) : List (Nat × Nat × (Nat ⊕ Spawned)) :=
  match tget s.ctxs ctx with | some c => c.shadow | none => []

/-- The lowest free run of some 1,024-byte units, its start a multiple of `align`. -/
def shadowFit (s : State) (ctx units align : Nat) : Option Nat :=
  let used := shadowOf s ctx
  let up : Nat → Nat := fun n => (n + align - 1) / align * align
  let starts := 0 :: used.map fun e => up (e.1 + e.2.1)
  let free : Nat → Bool := fun a => decide (a + units ≤ shadowCap s ctx)
    && used.all fun e => decide (a + units ≤ e.1) || decide (e.1 + e.2.1 ≤ a)
  (starts.filter free).foldl (fun b a => match b with | none => some a | some x => some (min x a)) none

/-- The grid of what a run of units holds. -/
def shadowGrid (s : State) (e : Nat × Nat × (Nat ⊕ Spawned)) : Option Nat :=
  match e.2.2 with
  | .inl t => (tget s.teams t).map fun tm => tm.grid
  | .inr sp => some sp.grid

/-- Whether a grid's zones have SHADOW budget for more bytes; a handler grid counts against none (R405). -/
def shadowAllows (s : State) (gid bytes : Nat) : Bool :=
  match tget s.grids gid with
  | none => false
  | some g => g.handles.isSome || g.zones.all fun z => match z.chain with
    | [] => true
    | a :: _ =>
      let gs := gridsUnder s g.ctx a
      let held := ((shadowOf s g.ctx).filter fun e => match shadowGrid s e with | some x => gs.contains x | none => false).foldl
        (fun n e => n + 1024 * e.2.1) 0
      decide (held + bytes ≤ z.shadow)

/-- The quarters of a team's core on which it holds the accumulators. -/
def heldQuarters (s : State) (t : Nat) (tm : Team) : List Nat :=
  (List.range 4).filter fun q => (quarterAt s (4 * tm.core + q)).holder == some t

/-- The live crews of a team. -/
def crewsOfTeam (s : State) (t : Nat) : List (Nat × Crew) := s.crews.filter fun e => e.2.owner == .team t

/-- SCR_OFF of a team's image as it stands. -/
def scrOffOf (s : State) (t : Nat) (tm : Team) : Nat :=
  let g := match kernelOf s tm.grid with | some k => k.alloc | none => 0
  scrOff tm.size g (crewsOfTeam s t).length tm.queues.length (heldQuarters s t tm).length (if tm.access.isSome then 1 else 0)

/-- The 1,024-byte units of a team's image. -/
def imageUnits (s : State) (t : Nat) (tm : Team) : Nat := (scrOffOf s t tm + tm.alloc + 65535) / 65536 * 64

/-- A team's image reserved: first-fit at a multiple of 64 KiB, within the SHADOW budgets. -/
def reserveImage (s : State) (t : Nat) : Option State :=
  match tget s.teams t with
  | none => none
  | some tm =>
    let n := imageUnits s t tm
    if !shadowAllows s tm.grid (1024 * n) then none
    else (shadowFit s tm.ctx n 64).map fun a => modCtx s tm.ctx fun c => { c with shadow := c.shadow ++ [(a, n, .inl t)] }

/-- A team's image freed. -/
def freeImage (s : State) (t : Nat) : State :=
  { s with ctxs := s.ctxs.map fun e => (e.1, { e.2 with shadow := e.2.shadow.filter fun x => match x.2.2 with | .inl u => u != t | .inr _ => true }) }

/-- The address and length of the image reserved for a team, by the region as it is now. -/
def imageOf (s : State) (t : Nat) : Option (Nat × Nat) :=
  match tget s.teams t with
  | none => none
  | some tm => match (shadowOf s tm.ctx).find? (fun e => match e.2.2 with | .inl u => u == t | .inr _ => false) with
    | some e => some (shadowBase s tm.ctx + 1024 * e.1, 1024 * e.2.1)
    | none => none

/-- Bytes written to the shadow region page by page, with which of them are poisoned, up to the first page that faults: its address and the
fault. -/
def shadowStore (ctx va : Nat) (bs : List Byte) (bad : List Bool) : List (Nat × Nat) → State → State × Option (Nat × Cause × Nat)
  | [], s => (s, none)
  | (a, n) :: r, s =>
    match blockAt s ctx a .ewrite with
    | .error e => (s, some (a, e))
    | .ok pa =>
      let s1 := l2Store s pa ((bs.drop (a - va)).take n) none
      shadowStore ctx va bs bad r { s1 with poison := poisonBy s1.poison pa n ((bad.drop (a - va)).take n) }

/-- Bytes read from the shadow region page by page, with which of them are poisoned (R436), or the fault of the first page that cannot be read. -/
def shadowLoad (ctx : Nat) : List (Nat × Nat) → State → Except (Nat × Cause × Nat) (List Byte × List Bool × State)
  | [], s => .ok ([], [], s)
  | (a, n) :: r, s =>
    match blockAt s ctx a .eread with
    | .error e => .error (a, e)
    | .ok pa =>
      let x := l2Load s pa n none
      match shadowLoad ctx r x.2 with
      | .error e => .error e
      | .ok y => .ok (x.1 ++ y.1, badBytes s.poison pa n ++ y.2.1, y.2.2)

/-- The first line of some bytes of the shadow region that an irrevocable attempt holds: a write waits for it (R145, R217). -/
def shadowHeld (s : State) (ctx va n : Nat) : Option Nat :=
  (pageParts va n).findSome? fun p => match blockAt s ctx p.1 .ewrite with
    | .error _ => none
    | .ok pa => (s.lines.find? fun e => e.2.holder.isSome && decide (pa / 128 ≤ e.1) && decide (128 * e.1 < pa + p.2)).map (·.1)

/-- A line asked for by a die, at most until its persistent request is made (R145). -/
def askFor (s : State) (line die : Nat) : State := if s.dir.persist.contains (line, die) then s else tokensFail s line die

/-- The line that keeps a core's whole release from being performed (R135, R217). -/
def coreHeld (s : State) (core : Nat) : Option Nat := backHeld s nobody core (pathSectors s core)

/-- That line asked for. -/
def askLine (s : State) (core : Nat) : State :=
  match coreHeld s core with
  | some l => askFor s l (core / 32)
  | none => s

/-! ## Reservations of a stop (R415) -/

/-- Cores that a grid can use as hosts: not vacated for another. -/
def hostOpen (s : State) (gid core : Nat) : Bool := isHost s gid core && !coreLost s core gid

/-- Whether the zones of a grid may hold a core in place of the one that is being vacated: their MAX (R340, R351). -/
def movesWithin (s : State) (gid from_ dest : Nat) : Bool :=
  match tget s.grids gid with
  | none => false
  | some g => g.handles.isSome || g.zones.all fun z => match z.chain with
    | [] => true
    | a :: _ => decide ((((coresWith s (gridsUnder s g.ctx a)).filter (· != from_)) ++ [dest]).eraseDups.length ≤ z.max)

/-- The host core to which a team of a core being vacated can go: one with a team of its grid first, then the fewest resident threads, then the lowest
(R340, R351). -/
def hostPick (s : State) (gid threads from_ : Nat) : Option (Nat × Nat) :=
  let holds := (s.teams.filterMap fun e => if e.2.grid = gid then e.2.coreFor else none).eraseDups
  let cands := (List.range 128).filterMap fun c =>
    if hostOpen s gid c && movesWithin s gid from_ c then (coreFits s gid c threads).map fun q => (c, q) else none
  let best : List (Nat × Nat) → Option (Nat × Nat) := fun l => l.foldl (fun b e => match b with
    | none => some e
    | some x => if residents s e.1 < residents s x.1 then some e else b) none
  match best (cands.filter fun e => holds.contains e.1) with
  | some e => some e
  | none => best cands

/-- The accumulators of the quarters that a team's sets use on a core given to it. -/
def giveAccs (s : State) (t core qb : Nat) : State :=
  match tget s.teams t with
  | none => s
  | some tm => match tget s.grids tm.grid with
    | none => s
    | some g =>
      if !usesMatrix s g.ctx g.segment then s
      else ((List.range (setsOf tm.size)).map (quarterOfSet qb g.kernel.w)).eraseDups.foldl (fun s q =>
        let n := 4 * core + q
        setQuarter s n { quarterAt s n with holder := some t, accs := List.replicate 8 Acc.fresh }) s

/-- A forwarding entry for a team made at a core. -/
def addForward (s : State) (core t : Nat) (target : Nat ⊕ (Nat × Nat)) : State :=
  let c := coreAt s core
  setCore s core { c with forward := c.forward.filter (fun f => f.team != t) ++ [{ team := t, target, queue := [], made := s.nums.uid }] }

/-- Every forwarding entry that names a team pointed to a new target. -/
def repoint (s : State) (t : Nat) (target : Nat ⊕ (Nat × Nat)) : State :=
  { s with cores := s.cores.map fun e =>
      (e.1, { e.2 with forward := e.2.forward.map fun f => if f.team = t then { f with target } else f }) }

/-- The lowest free entry of a die's diversion table. -/
def freeDivert (s : State) (die : Nat) : Option Nat := (List.range 256).find? fun i => (tget (dieAt s die).divert i).isNone

/-- A diversion entry reserved for a team on a die. -/
def reserveDivert (s : State) (die t : Nat) : Option (Nat × State) :=
  match tget s.teams t with
  | none => none
  | some tm => (freeDivert s die).map fun i =>
    let d := dieAt s die
    let grid := match tget s.grids tm.grid with | some g => g.handle | none => 0
    (i, setDie s die { d with
      divert := tset d.divert i
        { team := t, grid, ctx := tm.ctx, image := 0, core := 0, state := 0, queue := [], applied := 0, held := none, quiet := false } })

/-- A resident team set to become absent, with its image and its entries reserved; none where one of them is not to be had. -/
def chooseAbsent (s : State) (t : Nat) : Option State :=
  match tget s.teams t with
  | none => none
  | some tm =>
    if tm.place ≠ .resident ∨ 64 ≤ ((coreAt s tm.core).forward.filter fun f => f.team != t).length then none
    else match reserveImage s t with
      | none => none
      | some s1 => match reserveDivert s1 (tm.core / 32) t with
        | none => none
        | some (i, s2) =>
          some (modTeam (addForward s2 tm.core t (.inr (tm.core / 32, i))) t fun tm => { tm with place := .stopping none })

/-- A resident team of a vacated core set to move to a host core of its grid where it fits, or to become absent. -/
def chooseTeam (s : State) (t : Nat) : Option State :=
  match tget s.teams t with
  | none => none
  | some tm =>
    if tm.place ≠ .resident ∨ 64 ≤ ((coreAt s tm.core).forward.filter fun f => f.team != t).length then none
    else match hostPick s tm.grid tm.size tm.core with
      | some (n, qb) =>
        let s1 := giveAccs (addForward s tm.core t (.inl n)) t n qb
        some (modTeam s1 t fun tm => { tm with place := .stopping (some (n, qb)) })
      | none => chooseAbsent s t

/-- Resident teams set to be stopped one after another. -/
def chooseTeams : List Nat → State → Option State
  | [], s => some s
  | t :: r, s => (chooseTeam s t).bind (chooseTeams r)

/-! ## Deques and spawned threads of a vacated core (R351, R412) -/

/-- The host core of a grid whose deque has room for n records; or the lowest host core; 128 where no host core remains. -/
def dequeHost (s : State) (gid n : Nat) : Nat × Bool :=
  let hosts := (List.range 128).filter (hostOpen s gid)
  match hosts.find? (fun c => decide ((coreAt s c).deque.length + n ≤ 1024)) with
  | some c => (c, true)
  | none => (hosts.headD 128, false)

/-- The records of one grid in a core's deque moved to the far end of a host core's deque, or spilled. -/
def moveRecords (core : Nat) (s : State) (gid : Nat) : Option State :=
  let c := coreAt s core
  let mine := c.deque.filter fun r => r.grid == gid
  let s1 := setCore s core { c with deque := c.deque.filter fun r => r.grid != gid, idleFrom := s.clock }
  let h := dequeHost s1 gid mine.length
  if h.2 then some (setCore s1 h.1 { coreAt s1 h.1 with deque := (coreAt s1 h.1).deque ++ mine })
  else if spillOk s1 mine then some (toSpill s1 h.1 mine.reverse)
  else none

/-- All the records in a core's deque moved. -/
def moveDeque (core : Nat) : List Nat → State → Option State
  | [], s => some s
  | g :: r, s => (moveRecords core s g).bind (moveDeque core r)

/-- Spilled records that were to return to a vacated core are to return to another host core of their grid. -/
def rehomeSpill (s : State) (core : Nat) : State :=
  { s with ctxs := s.ctxs.map fun e =>
      (e.1, { e.2 with spill := e.2.spill.map fun r => if r.1 = core then ((dequeHost s r.2.grid 0).1, r.2) else r }) }

/-- Spawned threads on a core, as grids: one for each thread in a crew or a bin. -/
def spawnedGrids (s : State) (core : Nat) : List Nat :=
  (List.range 4).flatMap fun q => (spawnedOn s (4 * core + q)).flatMap fun e => List.replicate e.2.1 e.1

/-- The host core and quarter of a grid that can hold one more spawned thread. -/
def spawnedHost (s : State) (gid : Nat) : Option (Nat × Nat) :=
  (List.range 128).findSome? fun c => if hostOpen s gid c then (roomFor s gid c).map fun q => (c, q) else none

/-- A record of a context's shadow region taken for a spawned thread, within the SHADOW budgets: its place. -/
def takeShadow (s : State) (sp : Spawned) : Option (Nat × State) :=
  match tget s.grids sp.grid with
  | none => none
  | some g =>
    if !shadowAllows s sp.grid 1024 then none
    else (shadowFit s g.ctx 1 1).map fun a => (a, modCtx s g.ctx fun c => { c with shadow := c.shadow ++ [(a, 1, .inr sp)] })

/-- The record reserved for a spawned thread of a grid on a vacated core (R415). -/
def reservedFor (s : State) (ctx gid core : Nat) : Option Nat :=
  ((shadowOf s ctx).find? fun e => match e.2.2 with | .inr sp => !sp.ready && sp.grid == gid && sp.core == core | .inl _ => false).map (·.1)

/-- A stopped spawned thread of a core, with its age, filed on a host core, or written to a record in the shadow region (R412). DESIGN CHOICE (log 24):
where the record cannot be written, because its page does not translate or an irrevocable attempt holds its line, the thread stays where it is
until it can. -/
def parkThread (s : State) (core gid pool : Nat) (pc : Addr) (t : Thread) (age : Nat) : Option State :=
  match spawnedHost s gid with
  | some (c, q) => some (wakeCore (fileAged s (4 * c + q) { grid := gid, owner := .pool pool, pc } t (s.clock - age)) c)
  | none => match tget s.grids gid with
    | none => none
    | some g =>
      let sp : Spawned := { grid := gid, pool, pc, thread := t, age, core }
      let place : Option (Nat × State) := match reservedFor s g.ctx gid core with
        | some a => some (a, modCtx s g.ctx fun c => { c with shadow := c.shadow.map fun e => if e.1 = a then (a, 1, .inr sp) else e })
        | none => takeShadow s sp
      place.bind fun p =>
        let f := takeFreeBytes p.2 1024
        let va := shadowBase s g.ctx + 1024 * p.1
        if (shadowHeld s g.ctx va 1024).isSome then none
        else match shadowStore g.ctx va f.1 [] (pageParts va 1024) f.2 with
          | (s1, none) => some s1
          | (_, some _) => none

/-- Records reserved for those spawned threads of a core that no host core can hold beside the ones before them; `sim` is the machine with these
filed. None where one cannot be reserved (R415). -/
def reserveSpawned (core : Nat) : List Nat → (sim : State) → State → Option State
  | [], _, s => some s
  | g :: r, sim, s =>
    let none' : Thread := { tid := 0, g := [], p := 0, entry := 0, gen := 1, tx := Tx.fresh, short := [] }
    match spawnedHost sim g with
    | some (c, q) => reserveSpawned core r (fileThread sim (4 * c + q) { grid := g, owner := .pool 0, pc := 0 } none') s
    | none => (takeShadow s { grid := g, pool := 0, pc := 0, thread := none', core, ready := false }).bind fun p => reserveSpawned core r sim p.2

/-- The records reserved for a core's spawned threads given up, once none is left there. -/
def freeReserved (s : State) (core : Nat) : State :=
  if (spawnedGrids s core).any fun g => coreLost s core g then s
  else { s with ctxs := s.ctxs.map fun e => (e.1, { e.2 with shadow := e.2.shadow.filter fun x => match x.2.2 with
      | .inr sp => sp.ready || sp.core != core
      | .inl _ => true }) }

/-- Stopped spawned threads parked one after another: each with its program counter and its age. -/
def parkAll (core gid pool : Nat) : List (Addr × Thread × Nat) → State → Option State
  | [], s => some s
  | (pc, t, age) :: r, s => (parkThread s core gid pool pc t age).bind (parkAll core gid pool r)

/-! ## Steps 1 to 3 of a stop (R411) -/

/-- What keeps the loads of a unit from returning, or its release from being performed (R135, R149, R162). -/
def unitOwes (s : State) (u : UnitRef) : Option Awaited := pendAwaits s u <|> releaseObject s u .device

/-- The issuing units of a crew. -/
def crewUnits (uid : Nat) (c : Crew) : List UnitRef := c.groups.map fun g => UnitRef.crew uid (lowLane g.mask)

/-- Units' accesses performed as far as nothing keeps them; a line in the way of their releases is asked for (R145). -/
def settleUnits (s : State) (us : List UnitRef) : State :=
  us.foldl (fun s u =>
    let s := drain s u
    match unitOwes s u with
    | some (.line l) => askFor s l (coreOf s u / 32)
    | _ => s) s

/-- Whether a writer's number is that of a team's thread. -/
def ofTeam (t w : Nat) : Bool := w / 4096 == t

/-- A team's accesses performed as far as nothing keeps them, those of threads that have been filed or have exited since among them. -/
def settleTeam (s : State) (t : Nat) (us : List UnitRef) : State :=
  settleUnits (drainOf s (s.pend.filter fun p => p.team == some t)) us

/-- Whether accesses of a team's threads are still to be performed, in whatever crew they were made (R113, R135, R162). -/
def teamOwes (s : State) (t : Nat) : Bool :=
  s.pend.any (fun p => p.team == some t) || s.winq.any (fun w => w.team == some t) || (queuedFrom s fun r => r.writers.any (ofTeam t)).isSome

/-- Whether a crew can stop: it is at an instruction boundary, with no irrevocable transaction, its loads have returned and its release can be
performed. -/
def crewStops (s : State) (uid : Nat) (c : Crew) : Bool :=
  c.groups.all (fun g => irrevLanes c g.mask == 0) && (crewUnits uid c).all (fun u => (unitOwes s u).isNone)
    && !(s.pend.any fun p => p.crew == some uid) && (match s.cur with | some (.crew u _) => u != uid | _ => true)

/-- A crew stopped: its results return, its transactions abort with PREEMPT, a wait after an abort is ended (R219), a group that asked for
the serial-commit token is to ask again, and its groups leave play. -/
def stopCrew (s : State) (uid : Nat) : State :=
  let land : Crew → Crew := fun c => match (Body.crew c).landAll with | .crew d => d | .ap _ => c
  let s1 := modCrew s uid land
  let lows : List Nat := match tget s1.crews uid with | some c => c.groups.map (fun (g : Group) => lowLane g.mask) | none => []
  let s2 := lows.foldl (fun (s : State) (low : Nat) => match tget s.crews uid with
    | some c => (match c.groups.find? (fun (g : Group) => lowLane g.mask == low) with
      | some g => let m := txLanes c g.mask; if m = 0#64 then s else abortLanes s uid low m .preempt none false
      | none => s)
    | none => s) s1
  let s3 := modCrew s2 uid fun c => { c with
    groups := c.groups.map fun g => match g.wait with
      | some w => (match w.obj with
        | .serial | .scoreboard | .backoff _ => { g with wait := none, inPlay := false }
        | _ => { g with inPlay := false })
      | none => { g with inPlay := false } }
  { s3 with dir := { s3.dir with serialAsk := s3.dir.serialAsk.filter fun h => h.1 != uid } }

/-- Whether every unit of a team can stop. -/
def teamStops (s : State) (t : Nat) : Bool :=
  (crewsOfTeam s t).all (fun e => crewStops s e.1 e.2) && (unitOwes s (.access t)).isNone && !teamOwes s t && s.cur != some (.access t)

/-- The issuing units of a team. -/
def teamUnits (s : State) (t : Nat) : List UnitRef := .access t :: (crewsOfTeam s t).flatMap fun e => crewUnits e.1 e.2

/-- A team's crews and access thread stopped, and released at device scope (R149). -/
def stopUnits (s : State) (t : Nat) (tm : Team) : State :=
  let s1 := (crewsOfTeam s t).foldl (fun s e => stopCrew s e.1) s
  let s2 := modAccess s1 t fun a => match (Body.ap a).landAll with | .ap b => b | .crew _ => a
  let s3 := releaseAt s2 tm.core .l2
  flushTeam s3 tm

/-! ## Step 4: what a stopped team keeps of its quarters (R52, R411) -/

/-- What a stop keeps of an accumulator with VALID clear: INFLIGHT alone, by which its run is restored (R289). DESIGN CHOICE (log 50): its TYPE,
which the spec does not capture, is FP32 afterwards. -/
def Acc.unsaved (a : Acc) : Acc := { Acc.fresh with inflight := a.inflight }

/-- One quarter's share of a team, and the quarter without it; of threads in bins their ages (R52, R411). -/
def takeQuarter (s : State) (t : Nat) (tm : Team) (q : Nat) : SavedQuarter × State :=
  let n := 4 * tm.core + q
  let qs := quarterAt s n
  let held := qs.holder == some t
  let mine : Bin → Bool := fun b => b.key.owner == .team t
  let bins := ((qs.filed.filter mine).map fun b => b.slots.map fun e => (b.key.pc, e.1, s.clock - e.2)).flatten
  let run := qs.run.filter fun r => r.by_.team == some t
  let keep : Option Bin → Option Bin := fun b => b.filter fun b => !mine b
  ({ rel := (q + 4 - tm.qb) % 4, accs := if held then qs.accs.map (fun a => if a.valid then a else Acc.unsaved a) else [], run, bins },
   setQuarter s n { qs with
     holder := if held then none else qs.holder
     accs := if held then List.replicate 8 Acc.fresh else qs.accs
     run := if run.isSome then none else qs.run
     bins := qs.bins.map keep
     waiting := qs.waiting.filter fun b => !mine b })

/-- A team's share of the quarters of its core taken. -/
def takeQuarters (s : State) (t : Nat) (tm : Team) : List SavedQuarter × State :=
  (List.range 4).foldl (fun r q => let x := takeQuarter r.2 t tm q; (r.1 ++ [x.1], x.2))
    (([], idleNow s tm.core) : List SavedQuarter × State)

/-- One quarter's share put back on a core with another base quarter; its threads in bins are filed with their ages (R421). -/
def putQuarter (t grid core qb : Nat) (s : State) (x : SavedQuarter) : State :=
  let q := (x.rel + qb) % 4
  let n := 4 * core + q
  let qs := quarterAt s n
  let qs1 := if x.accs.isEmpty then qs else { qs with holder := some t, accs := x.accs }
  let run := x.run.map fun r => { r with by_ := { r.by_ with core, quarter := q } }
  let s1 := setQuarter s n { qs1 with run := if run.isSome then run else qs1.run }
  x.bins.foldl (fun s b => fileAged s n { grid, owner := .team t, pc := b.1 } b.2.1 (s.clock - b.2.2)) s1

/-- A team with all it keeps placed on a core: its crews on the quarters of their sets, its access thread in a free slot. -/
def settle (s : State) (t : Nat) (tm : Team) (core qb : Nat) (saved : List SavedQuarter) : State :=
  let taken := (teamsOn s core).filterMap fun e => if e.1 = t then none else e.2.access.map fun a => a.slot
  let slot := ((List.range 4).find? fun i => !taken.contains i).getD 0
  let s1 := { s with crews := s.crews.map fun e =>
    (e.1, if e.2.owner = .team t then
        { e.2 with
          core, quarter := (e.2.quarter + 4 - tm.qb + qb) % 4
          groups := e.2.groups.map fun g => { g with parked := s.clock } }
      else e.2) }
  let s2 := modTeam s1 t fun tm => { tm with
    core, qb, place := .resident, saved := [], access := tm.access.map fun a => { a with slot } }
  saved.foldl (putQuarter t tm.grid core qb) s2

/-! ## TEAM_MOVE and FORWARDED_REQUEST (R417, R418) -/

/-- TEAM_MOVE: a team that has stopped on a vacated core is restored on its new core, which it then enters with an acquire. -/
def execTeamMove (team : Nat) (s : State) : Host.Outcome State Fault Refusal :=
  .next (match tget s.teams team with
    | none => s
    | some tm => match tm.place with
      | .stopping (some (core, qb)) =>
        let s := settleTeam s team (teamUnits s team)
        if !teamStops s team then s
        else
          let q := takeQuarters (stopUnits s team tm) team tm
          let s1 := settle (wakeCore q.2 core) team tm core qb q.1
          acquireAt (repoint s1 team (.inl core)) core .l2
      | _ => s)

/-- The base addresses of a command's ranges. -/
def CmdKind.bases (k : CmdKind) : List Addr :=
  match k with
  | .astream _ a _ _ _ _ => [a]
  | .gather d a b _ _ _ | .scatter d a b _ _ _ | .cpy2g d a b _ _ _ _ _ => [d, a, b]
  | .cpy d a _ | .chain d a _ _ _ _ _ | .fred d a _ _ _ _ _ => [d, a]
  | .cpyt _ d a sc _ _ _ _ _ => [d, a] ++ sc.toList
  | .cpyr _ _ a _ => [a]
  | .pdec _ desc => let j := Job.ofNat (ofBytes desc); [j.src, j.dst, j.status].map (BitVec.ofNat 64)
  | .attest a b _ => [a, b]

/-- Whether a command names a team's scratchpad or barriers: it counts on a barrier of it, or has a range in its window or in its slot. -/
def Cmd.names (c : Cmd) (s : State) (t : Nat) : Bool :=
  (c.bar.isSome && (c.by_.team == some t || c.barTeam s == some t))
    || (match c.kind with | .cpyr _ _ _ _ => c.barTeam s == some t | _ => false)
    || c.kind.bases.any fun a => match winOf a.toNat, c.by_.team with
      | .own _, some u => u == t
      | .slot n _, some u => partnerOf s u n == some t
      | _, _ => false

/-- Whether a command accepted before a forwarding entry was made still names the scratchpad or barriers of its team (R417). -/
def Forward.needed (f : Forward) (s : State) : Bool := s.cmds.any fun e => decide (e.1 < f.made) && e.2.names s f.team

/-- The oldest request in transit at a core. -/
def oldestTransit (s : State) (core : Nat) : Option (Nat × Sent) :=
  (coreAt s core).forward.findSome? fun f => match f.queue with | r :: _ => some (f.team, r) | [] => none

/-- A core's entries that no command and no request needs any more freed; that of a team which is still being stopped there stays. -/
def freeForwards (s : State) (core : Nat) : State :=
  let c := coreAt s core
  setCore s core { c with forward := c.forward.filter fun f =>
    !f.queue.isEmpty || f.needed s || (match tget s.teams f.team with
      | some tm => tm.core == core && (match tm.place with | .stopping _ => true | _ => false)
      | none => false) }

/-- FORWARDED_REQUEST: the oldest request at a core for a team no longer there is sent on: it is performed where the team is, or waits at
its ingress, its diversion entry, or the entry of the core that it leaves now. -/
def execForwardedRequest (core : Nat) (s : State) : Host.Outcome State Fault Refusal :=
  .next (match oldestTransit s core with
    | none => freeForwards s core
    | some (t, r) =>
      let c := coreAt s core
      let s1 := setCore s core { c with forward := c.forward.map fun f => if f.team = t then { f with queue := f.queue.drop 1 } else f }
      match tget s.teams t with
      | none => s1
      | some tm => match tm.place with
        | .resident => applyReq s1 t r.req
        | .stopping _ => if tm.core = core then s else queueForward s1 tm.core t r
        | .absent die entry =>
          let d := dieAt s1 die
          setDie s1 die { d with divert := tmod d.divert entry fun e => { e with queue := e.queue ++ [r] } }
        | .returning _ _ _ _ => modTeam s1 t fun tm => { tm with ingress := tm.ingress ++ [r] })

/-! ## TEAM_STOP: a team becomes absent (R411, R414, R423) -/

/-- The identity of a team in a record of its capture or restore (R357). -/
def teamIdentity (tm : Team) : W64 := identity 6 tm.core 0 0x3FF (tm.idx % 2 ^ 32)

/-- Whether a record of a team's image is still outstanding. -/
def imageHeld (s : State) (t : Nat) : Bool :=
  s.domains.any fun e => (e.2.pending ++ e.2.outst).any fun r => match r.who with | .image u _ => u == t | _ => false

/-- The record of a fault met on a team's image by its capture or restore. -/
def imageFault (s : State) (t : Nat) (tm : Team) (restore : Bool) (f : Nat × Cause × Nat) : State :=
  (takeAsync s tm.grid { FRec.blank with
    cause := f.2.1, addr := BitVec.ofNat 64 f.1, team := BitVec.ofNat 64 tm.idx, subject := teamIdentity tm
    detail := if 70 ≤ xlateRank f.2.1 ∧ xlateRank f.2.1 ≤ 72 then xlateDetail f.2.2 (if restore then .eread else .ewrite) else 0
    held := true, absent := true, who := .image t restore }).2

/-- A team's image large enough for it as it stands: the one reserved, or another where its crews have become more. -/
def imageReady (s : State) (t : Nat) (tm : Team) : Option (Nat × State) :=
  match imageOf s t with
  | some (a, n) => if 1024 * imageUnits s t tm ≤ n then some (a, s)
                   else (reserveImage (freeImage s t) t).bind fun s1 => (imageOf s1 t).map fun e => (e.1, s1)
  | none => (reserveImage s t).bind fun s1 => (imageOf s1 t).map fun e => (e.1, s1)

/-- The diversion entry of a team on a die. -/
def divertOf (s : State) (die t : Nat) : Option Nat := ((dieAt s die).divert.find? fun e => e.2.team == t).map (·.1)

/-- TEAM_STOP: a team that is to become absent stops, and its state is captured in its image. The bytes of the state area are not
architectural (R414): they are free. -/
def execTeamStop (team : Nat) (s : State) : Host.Outcome State Fault Refusal :=
  .next (match tget s.teams team with
    | none => s
    | some tm => match tm.place, divertOf s (tm.core / 32) team with
      | .stopping none, some i =>
        let s := settleTeam s team (teamUnits s team)
        if !teamStops s team || imageHeld s team then s
        else
          let s1 := stopUnits s team tm
          let tm := (tget s1.teams team).getD tm
          match imageReady s1 team tm with
          | none => s1
          | some (base, s2) =>
            let off := scrOffOf s2 team tm
            match shadowHeld s2 tm.ctx base (off + tm.alloc) with
            | some l => askFor s2 l (tm.core / 32)
            | none =>
            let f := takeFreeBytes s2 off
            let bs := f.1 ++ cellsRead tm.scratch 0 tm.alloc
            let w := shadowStore tm.ctx base bs (List.replicate off false ++ badBytes tm.poison 0 tm.alloc) (pageParts base bs.length) f.2
            match w.2 with
            | some e => imageFault w.1 team tm false e
            | none =>
              let q := takeQuarters w.1 team tm
              let die := tm.core / 32
              let d := dieAt q.2 die
              let s3 := setDie q.2 die { d with
                divert := tmod d.divert i fun e => { e with image := BitVec.ofNat 64 base, state := 1 } }
              let s4 := modTeam s3 team fun t => { t with
                place := .absent die i, image := some (base + off), scratch := [], poison := [], saved := q.1 }
              repoint s4 team (.inr (die, i))
      | _, _ => s)

/-! ## DIVERTED_OPERATION (R419, R420, R423) -/

/-- Bytes of a team's scratchpad image written, with which of them are poisoned, or the fault met. -/
def imagePut (s : State) (tm : Team) (off : Nat) (bs : List Byte) (bad : List Bool) : Except (Nat × Cause × Nat) State :=
  let va := (tm.image.getD 0) + off
  match shadowStore tm.ctx va bs bad (pageParts va bs.length) s with
  | (s1, none) => .ok s1
  | (_, some e) => .error e

/-- Bytes of a team's scratchpad image read, with which of them are poisoned, or the fault met. -/
def imageGet (s : State) (tm : Team) (off n : Nat) : Except (Nat × Cause × Nat) (List Byte × List Bool × State) :=
  shadowLoad tm.ctx (pageParts ((tm.image.getD 0) + off) n) s

/-- The bytes of an absent team's image that a request concerns: its address and length; for a token completion the first byte of the state area, which
begins at `base` (R420). -/
def TeamReq.span (r : TeamReq) (tm : Team) (base : Nat) : Nat × Nat :=
  match r with
  | .write off bs _ => ((tm.image.getD 0) + off, bs.length)
  | .atom off a _ _ => ((tm.image.getD 0) + off, a.bytes)
  | .bar off _ _ => ((tm.image.getD 0) + off, 16)
  | .token _ _ _ _ => (base, 1)

/-- A diverted operation performed, or the fault it meets on the image, which begins at `base` (R419, R420, R423). -/
def divertApply (s : State) (t : Nat) (tm : Team) (base : Nat) : TeamReq → Except (Nat × Cause × Nat) State
  | .token crew tok batch err => match blockAt s tm.ctx base .ewrite with
    | .error e => .error (base, e)
    | .ok _ => .ok (completeTokenOf s (some t) crew tok batch err)
  | .write off bs bad => imagePut s tm off bs bad
  | .atom off a tag i => match imageGet s tm off a.bytes with
    | .error e => .error e
    | .ok (bs, bad, s1) =>
      if bad.any id then .ok (answerPiece s1 tag i bs true)
      else (imagePut s1 tm off (a.new bs) []).map fun s2 => answerPiece s2 tag i bs false
  | .bar off bytes err => match imageGet s tm off 16 with
    | .error e => .error e
    | .ok (bs, bad, s1) => imagePut s1 tm off (toBytes 16 ((Bar.ofNat (ofBytes bs)).update 0 bytes err).toNat) bad

/-- A diversion entry changed. -/
def modDivert (s : State) (die entry : Nat) (f : Divert → Divert) : State :=
  let d := dieAt s die
  setDie s die { d with divert := tmod d.divert entry f }

/-- DIVERTED_OPERATION: the oldest request that waits at a diversion entry is performed at the absent team's image, or its fault is
reported with ABSENT. -/
def execDivertedOperation (die entry : Nat) (s : State) : Host.Outcome State Fault Refusal :=
  .next (match tget (dieAt s die).divert entry with
    | none => s
    | some e => match e.queue, tget s.teams e.team with
      | r :: rest, some tm =>
        if e.state = 0#2 ∨ e.held.isSome then s
        else let span := r.req.span tm e.image.toNat
        match shadowHeld s tm.ctx span.1 span.2 with
        | some l => askFor s l die
        | none => (match divertApply s e.team tm e.image.toNat r.req with
          | .ok s1 => modDivert s1 die entry fun e => { e with queue := rest, applied := e.applied + 1, quiet := false }
          | .error f =>
            if e.quiet then s
            else
              let a := takeAsync s tm.grid { FRec.blank with
                cause := f.2.1, addr := BitVec.ofNat 64 f.1, team := BitVec.ofNat 64 tm.idx, subject := r.src
                detail := if 70 ≤ xlateRank f.2.1 ∧ xlateRank f.2.1 ≤ 72 then xlateDetail f.2.2 .ewrite else 0
                held := true, absent := true, who := .divert die entry }
              modDivert a.2 die entry fun e => { e with held := some a.1 })
      | _, _ => s)

/-! ## TEAM_RESUME (R421, R422) -/

/-- Whether a team is the one of its grid to resume next: no stopped spawned thread and no absent team of a lower index waits. -/
def resumesNext (s : State) (tm : Team) : Bool :=
  !(s.teams.any fun e => e.2.grid == tm.grid && decide (e.2.idx < tm.idx) && (match e.2.place with | .absent _ _ => true | _ => false))
    && !((shadowOf s tm.ctx).any fun e => match e.2.2 with | .inr sp => sp.ready && sp.grid == tm.grid | .inl _ => false)

/-- A record dropped from its domain. -/
def dropRecord? (s : State) (uid : Nat) : State :=
  let keep : FRec → Bool := fun r => r.uid != uid
  { s with domains := s.domains.map fun e => (e.1, { e.2 with pending := e.2.pending.filter keep, outst := e.2.outst.filter keep }) }

/-- Commands of a team that stand stopped with an outstanding ABSENT record completed in error (step 2). -/
def failAbsent (s : State) (t : Nat) : State :=
  s.cmds.foldl (fun s e =>
    let mine := e.2.by_.team == some t || e.2.barTeam s == some t
    match e.2.stopped with
    | some uid =>
      if mine && s.domains.any (fun d => (d.2.pending ++ d.2.outst).any fun r => r.uid == uid && r.absent) then
        dropRecord? (failCmd s e.1) uid
      else s
    | none => s) s

/-- The load of an absent team's image on its new core from where it was captured, once every diverted operation has been performed (steps 3 to 6). The
marks of poisoned bytes go with them (R436). -/
def loadTeam (s : State) (t : Nat) (tm : Team) (die entry core qb : Nat) : State :=
  match tget (dieAt s die).divert entry with
  | none => s
  | some e =>
    let off := (tm.image.getD 0) - e.image.toNat
    match shadowLoad tm.ctx (pageParts e.image.toNat (off + tm.alloc)) s with
    | .error f => imageFault s t tm true f
    | .ok (bs, bad, s1) =>
      if (bad.take off).any id then imageFault s t tm true (e.image.toNat, .poison, 0)
      else
        let marks := ((List.range (tm.alloc / 16)).filter fun u => ((bad.drop (off + 16 * u)).take 16).any id)
        let s2 := modTeam s1 t fun tm => { tm with scratch := cellsWrite [] 0 ((bs.drop off).take tm.alloc), poison := marks, image := none }
        let saved := tm.saved.map fun x => { x with run := x.run.map fun r => { r with absent := true } }
        let s3 := settle s2 t tm core qb saved
        let s4 := tm.ingress.foldl (fun s r => applyReq s t r.req) (modTeam s3 t fun tm => { tm with ingress := [] })
        let d := dieAt s4 die
        let s5 := freeImage (setDie s4 die { d with divert := tdel d.divert entry }) t
        acquireAt (repoint s5 t (.inl core)) core .l2

/-- TEAM_RESUME: an absent team is given a core on which it fits, and takes it once its image is loaded. -/
def execTeamResume (team : Nat) (s : State) : Host.Outcome State Fault Refusal :=
  .next (match tget s.teams team with
    | none => s
    | some tm => match tm.place with
      | .absent die entry =>
        if s.package ≠ .on ∨ !resumesNext s tm then s
        else (match pickCore s tm.grid tm.size fun _ => true with
          | none => s
          | some (core, qb) =>
            let s1 := modDivert (failAbsent s team) die entry fun e => { e with state := 2, core }
            let s2 := giveAccs s1 team core qb
            wakeCore (modTeam s2 team fun tm => { tm with place := .returning die entry core qb }) core)
      | .returning die entry core qb =>
        let idle := match tget (dieAt s die).divert entry with | some e => e.queue.isEmpty | none => true
        if !idle || imageHeld s team then s else loadTeam s team tm die entry core qb
      | _ => s)

/-! ## Spawned threads (R412) -/

/-- The threads of a crew with the program counters of their groups, in ascending lane. -/
def crewThreads (c : Crew) : List (Addr × Thread) :=
  (c.lanes.mapIdx fun l t => match t, c.groups.find? (fun g => g.mask.getLsbD l) with
    | some t, some g => some (g.pc, t)
    | _, _ => none).filterMap id

/-- A crew of spawned threads on a lost core stopped, each thread going to its place. -/
def parkCrew (s : State) (uid : Nat) (c : Crew) (pool : Nat) : State :=
  let s1 := flushLog (releaseAt (stopCrew s uid) c.core .l2) c.core fun r => r.grid == c.grid && r.team == BitVec.allOnes 64
  match tget s1.crews uid with
  | none => s
  | some d =>
    let ts := (crewThreads d).map fun e => (e.1, e.2, 0)
    (parkAll c.core c.grid pool ts (idleNow { s1 with crews := tdel s1.crews uid } c.core)).getD s

/-- A crew of spawned threads that a fault holds taken, with its threads where they are, to a host core that can hold it, held as before. DESIGN CHOICE
(log 24): where none can, it stays until it has resumed. -/
def moveHeld (s : State) (uid : Nat) (c : Crew) : State :=
  let s0 := { s with crews := tdel s.crews uid }
  let n := (c.lanes.filter Option.isSome).length
  match (List.range 128).findSome? fun k => if hostOpen s0 c.grid k then (roomForMany s0 c.grid k n).map fun q => (k, q) else none with
  | none => s
  | some (k, q) =>
    let s1 := flushLog (releaseAt (stopCrew s uid) c.core .l2) c.core fun r => r.grid == c.grid && r.team == BitVec.allOnes 64
    let num := crewNumber s1 { grid := c.grid, owner := c.owner, pc := 0 } k
    wakeCore (modCrew (idleNow s1 c.core) uid fun c => { c with core := k, quarter := q, num }) k

/-- The numbers of the spawned threads in a bin. -/
def Bin.writers (b : Bin) : List Nat := b.slots.map fun e => 2 ^ 40 + e.1.num

/-- The spawned threads of other grids in a lost core's bins parked, with their ages, once their accesses are performed, and released (R412). -/
def parkBins (s : State) (q : Nat) : State :=
  let lost : Bin → Bool := fun b => coreLost s (q / 4) b.key.grid
  (quarterAt s q).filed.foldl (fun s b => match b.key.owner with
    | .pool p =>
      if !lost b then s
      else
        let s := drainOf s (s.pend.filter fun p => p.pieces.any fun x => b.writers.contains x.path.writer)
        let owes := s.pend.any (fun p => p.pieces.any fun x => b.writers.contains x.path.writer)
          || s.winq.any (fun w => meetIn w.writers b.writers) || (queuedFrom s fun r => meetIn r.writers b.writers).isSome
        if owes then s
        else if (coreHeld s (q / 4)).isSome then askLine s (q / 4)
        else
          let s1 := flushLog (releaseAt s (q / 4) .l2) (q / 4) fun r => r.grid == b.key.grid && r.team == BitVec.allOnes 64
          let qs := quarterAt s1 q
          let s2 := setQuarter (idleNow s1 (q / 4)) q
            { qs with bins := qs.bins.map fun x => if x == some b then none else x, waiting := qs.waiting.filter fun x => x != b }
          (parkAll (q / 4) b.key.grid p (b.slots.map fun e => (b.key.pc, e.1, s.clock - e.2)) s2).getD s
    | .team _ => s) s

/-- The spawned threads of a core that has been vacated stopped, where they can stop. -/
def parkCore (s : State) (core : Nat) : State :=
  let s1 := s.crews.foldl (fun s e => match e.2.owner with
    | .pool p =>
      if e.2.core = core ∧ coreLost s core e.2.grid then
        let s := settleUnits s (crewUnits e.1 e.2)
        match tget s.crews e.1 with
        | some c => if !crewStops s e.1 c then s else if c.held.isSome then moveHeld s e.1 c else parkCrew s e.1 c p
        | none => s
      else s
    | .team _ => s) s
  freeReserved ((List.range 4).foldl (fun s q => parkBins s (4 * core + q)) s1) core

/-- SPAWNED_THREAD_RESUME: the stopped spawned thread at the lowest address of a context's shadow region that a host core can hold is
filed there. -/
def execSpawnedThreadResume (ctx : Nat) (s : State) : Host.Outcome State Fault Refusal :=
  .next (
    let recs := sortBy (fun a b => decide (a.1 ≤ b.1))
      ((shadowOf s ctx).filterMap fun e => match e.2.2 with | .inr sp => if sp.ready then some (e.1, sp) else none | .inl _ => none)
    match recs.findSome? (fun e => (spawnedHost s e.2.grid).map fun h => (e, h)) with
    | none => s
    | some ((a, sp), c, q) =>
      if s.package ≠ .on then s
      else
        let s1 := modCtx s ctx fun x => { x with shadow := x.shadow.filter fun e => e.1 != a }
        wakeCore (fileAged s1 (4 * c + q) { grid := sp.grid, owner := .pool sp.pool, pc := sp.pc } sp.thread (s.clock - sp.age)) c)

/-! ## CORE_VACATE (R350, R351) -/

/-- The grids with work on a core: a team or a spawned thread. -/
def workOn (s : State) (core : Nat) : List Nat :=
  ((s.teams.filterMap fun e => if e.2.coreFor = some core then some e.2.grid else none)
    ++ (s.crews.filterMap fun e => match e.2.owner with | .pool _ => if e.2.core = core then some e.2.grid else none | .team _ => none)
    ++ spawnedGrids s core).eraseDups

/-- The cores that a grid's zone holds, those vacated for another apart. -/
def zoneCores (s : State) (g : Grid) (zcb : Addr) : List Nat :=
  let gs := gridsUnder s g.ctx zcb
  (coresWith s gs).filter fun c => match (coreAt s c).vacated with | some h => gs.contains h | none => true

/-- The effective zone of a grid, with its number of cores. -/
def zoneHolds (s : State) (gid : Nat) : Option (Zone × Nat) :=
  match tget s.grids gid with
  | none => none
  | some g => match g.zones.head? with
    | none => none
    | some z => some (z, (zoneCores s g (z.chain.headD 0)).length)

/-- A core that may be a victim of priority p: the lowest priority and the largest surplus among its zones, or none. With `waive` the minima of the zones
do not count (R405); a surplus is given from 1,024 upward. -/
def victimKey (s : State) (waive : Bool) (p core : Nat) : Option (Nat × Nat) :=
  let gs := workOn s core
  let zs := gs.map (zoneHolds s)
  if gs.isEmpty || (coreAt s core).vacated.isSome && !(gs.all fun g => (coreAt s core).vacated == some g) then none
  else if gs.any (fun g => match tget s.grids g with | some x => x.handles.isSome | none => true) then none
  else
    let ok := zs.all fun z => match z with | some (z, n) => decide (z.prio < p) && (waive || decide (z.min < n)) | none => false
    if !ok then none
    else some (zs.foldl (fun (b : Nat × Nat) z => match z with
      | some (z, n) => if z.prio < b.1 ∨ (z.prio = b.1 ∧ b.2 < 1024 + n - z.min) then (z.prio, 1024 + n - z.min) else b
      | none => b) (16, 0))

/-- A victim core vacated for a grid: its teams set to be stopped, its records moved; none where it is to be passed over. A core that was kept for a
grid's records first releases what that grid's threads have stored there (R336). -/
def vacateCore (s : State) (gid core : Nat) : Option State :=
  let ts := sortBy (fun a b => decide (a.2.idx ≤ b.2.idx))
    (s.teams.filter fun e => e.2.core == core && (match e.2.place with | .resident | .stopping _ => true | _ => false))
  let c := coreAt s core
  let kept := s.grids.any fun e => e.1 != gid && e.2.hosts.contains core
  if kept && (coreHeld s core).isSome then none
  else
    let s0 := if kept then releaseAt s core .l2 else s
    let s1 := setCore s0 core { coreAt s0 core with vacated := some gid }
    let s2 := { s1 with grids := s1.grids.map fun e => (e.1, if e.1 = gid then e.2 else { e.2 with hosts := e.2.hosts.filter (· != core) }) }
    (reserveSpawned core (spawnedGrids s core) s2 s2).bind fun s3 =>
      (chooseTeams (ts.map (·.1)) s3).bind fun s4 =>
        (moveDeque core ((c.deque.map (·.grid)).eraseDups) s4).map fun s5 => parkCore (rehomeSpill s5 core) core

/-- The best victim by R350: lowest priority, largest surplus, fewest resident threads, highest core; passed over where it cannot be
vacated. -/
def bestVictim (s : State) (waive : Bool) (gid p : Nat) : Option State :=
  let cands := (List.range 128).filterMap fun c => (victimKey s waive p c).map fun k => (k, c)
  let before : (Nat × Nat) × Nat → (Nat × Nat) × Nat → Bool := fun a b =>
    let ra := residents s a.2
    let rb := residents s b.2
    decide (a.1.1 < b.1.1) || (a.1.1 == b.1.1 && (decide (b.1.2 < a.1.2) || (a.1.2 == b.1.2
      && (decide (ra < rb) || (ra == rb && decide (b.2 ≤ a.2))))))
  (sortBy before cands).findSome? fun e => vacateCore s gid e.2

/-- n victims vacated one at a time, or none at all. -/
def vacateMany (gid p : Nat) : (n : Nat) → State → Option State
  | 0, s => some s
  | n + 1, s => (bestVictim s false gid p).bind (vacateMany gid p n)

/-- The priority with which a grid takes cores, and how many more it needs: up to its zone's MIN, at least 1; one core for a handler team. -/
def vacateNeed (s : State) (gid : Nat) : Nat × Nat :=
  match tget s.grids gid with
  | none => (0, 0)
  | some g =>
    let given := (s.cores.filter fun e => e.2.vacated == some gid).length
    if g.handles.isSome then (16, 1 - given)
    else match g.zones.head? with
      | none => (0, 0)
      | some z =>
        let gs := gridsUnder s g.ctx (z.chain.headD 0)
        let kept := (s.cores.filter fun e => match e.2.vacated with | some h => gs.contains h | none => false).map (·.1)
        (z.prio, max 1 z.min - (zoneCores s g (z.chain.headD 0) ++ kept).eraseDups.length)

/-- CORE_VACATE: an admitted grid that cannot place its next team takes cores from zones of lower priority (R350); spawned threads that
still stand on its cores are stopped. -/
def execCoreVacate (grid : Nat) (s : State) : Host.Outcome State Fault Refusal :=
  .next (match tget s.grids grid with
    | none => s
    | some g =>
      let s1 := (s.cores.filter fun e => e.2.vacated == some grid).foldl (fun s e => parkCore s e.1) s
      let need := vacateNeed s1 grid
      if g.packet.teams ≤ g.next ∨ need.2 = 0 ∨ (teamPlaces s1 grid g).isSome ∨ s.package ≠ .on then s1
      else if g.handles.isSome then (bestVictim s1 true grid 16).getD s1
      else (vacateMany grid need.1 need.2 s1).getD s1)

/-! ## A stop of everything (R391, R411) -/

/-- Every resident team set to become absent, as for S3; none where some image cannot be reserved. -/
def stopEverything (s : State) : Option State :=
  (s.teams.filter fun e => e.2.place == .resident).foldl (fun b e => b.bind fun s => chooseAbsent s e.1) (some s)

end Sys2Proof.Machine
end

