-- ==== Sys2Proof/Machine/Sched.lean ====
section
/-! DEFINITION. The global scheduler: ring slots into queues (R333, R334), admission (R337, R339), placement (R18, R37, R340, R341), the
completion of teams and grids (R28, R29, R336), handler teams (R405) and the writing of fault records (R403, R404). -/

namespace Sys2Proof.Machine

open Sys2Proof

/-! ## LAUNCH_ENQUEUE (R333, R334, R337) -/

/-- A packet's bytes as the scheduler binds it from a ring slot, torn where its two generations differ; or none where they cannot be
read. -/
def slotRead (s : State) (ctx va : Nat) : Option (Packet × State) :=
  match blockRead s ctx va 128 with
  | .error _ => none
  | .ok (bs, s1) =>
    let v := ofBytes bs
    some (packetOf v (v % 2 ^ 64 != v / 2 ^ 960), s1)

/-- An address of a packet that cannot be read whole, where that field alone can be read. -/
def packetField (s : State) (ctx va : Nat) : Option Addr :=
  match blockRead s ctx va 8 with
  | .error _ => none
  | .ok (bs, _) => some (BitVec.ofNat 64 (ofBytes bs))

/-- The refusal of a packet that cannot be read: written to its DONE object where that field alone can be read, else the launch is dropped, and
reported where its ZCB field can be read: with the address of DONE, or, where that field cannot be read, the field's own (log 22). -/
def refuseUnread (s : State) (ctx q va : Nat) : State :=
  let p : Packet := { packetOf 0 false with
    done := (packetField s ctx (va + 48)).getD (BitVec.ofNat 64 (va + 48))
    zcb := (packetField s ctx (va + 40)).getD 1 }
  match packetField s ctx (va + 48) with
  | none => dropLaunch s ctx q p
  | some _ => match packetDone s ctx p 4 7 with
    | some s2 => s2
    | none => dropLaunch s ctx q p

/-- Whether a context owns a queue. -/
def ownsQueue (s : State) (ctx q : Nat) : Bool := match tget s.queues q with | some l => l.ctx == some ctx | none => false

/-- LAUNCH_ENQUEUE: the scheduler moves the slot at a queue's head into the hardware queue. A packet whose QUEUE is not its context's is
refused. -/
def execLaunchEnqueue (q : Nat) (s : State) : Host.Outcome State Fault Refusal :=
  .next (match tget s.queues q with
    | none => s
    | some lq => match lq.ctx with
      | none => s
      | some ctx =>
        if lq.head = lq.tail ∨ 64 ≤ lq.pending.length ∨ !running s then s
        else
          let va := lq.ring.toNat + 128 * (lq.head.toNat % 2 ^ lq.log2)
          let s1 := modQueue s q fun l => { l with head := l.head + 1 }
          match slotRead s1 ctx va with
          | none => refuseUnread s1 ctx q va
          | some (p, s2) =>
            -- a torn packet's QUEUE says nothing: it enters, and is refused for being torn (R337 row 4)
            if doneHeld s ctx p then s
            else if p.torn || ownsQueue s2 ctx p.queue then enqueue s2 ctx q { p with queue := q } none
            else (match packetDone s2 ctx p 4 5 with
              | some s3 => s3
              | none => dropLaunch s2 ctx q p))

/-! ## ADMIT and PREREQ_POLL (R337, R339) -/

/-- The head launches of the queues that can be acted on: queue, context, launch. -/
def headLaunches (s : State) : List (Nat × Nat × Pending) :=
  s.queues.filterMap fun e => match e.2.ctx, e.2.pending with
    | some c, p :: _ => if queueBlocked s e.1 || doneHeld s c p.packet then none else some (e.1, c, p)
    | _, _ => none

/-- The head of a queue taken out of it. -/
def dropHead (s : State) (q : Nat) : State := modQueue s q fun l => { l with pending := l.pending.drop 1 }

/-- A launch refused with a code in its completion object; where that cannot be written any more, the loss is reported (R337). -/
def refuseHead (s : State) (ctx q : Nat) (p : Packet) (code : Nat) : State :=
  let s1 := dropHead s q
  match packetDone s1 ctx p 4 code with
  | some s2 => s2
  | none => match fdomOf ctx 8 p.zcb s1 with
    | none => s1
    | some (a, v, s2) =>
        let d := domainFor (bindDomain s2 ctx a v) ctx a
        let n := takeUid d.2
        addRecord n.2 d.1 { dropRecord p.done.toNat 0 (BitVec.allOnes 64) (identity 3 0 0 0x3FF q) with async := true, uid := n.1 }

/-- The handle of a new grid: which of the free ones, is free (log 2). -/
def pickHandle (s : State) : Nat × State :=
  let v := takeFree s
  let used := s.grids.map fun e => e.2.handle
  let start := v.1.toNat % 2 ^ 28
  ((((List.range (used.length + 1)).map fun i => (start + i) % 2 ^ 28).find? fun h => !used.contains h).getD start, v.2)

/-- A grid as it is admitted. -/
def newGrid (ctx handle order : Nat) (p : Packet) (k : Kernel) (g : Segment) (zones : List Zone) : Grid :=
  { ctx, handle, packet := p, kernel := k, segment := g, zones, next := 0, hosts := [], pools := List.replicate k.pools.length 0
    specN := List.replicate 8 0, handles := none, primrose := false, order, subject := 0, slane := 0, stile := 0 }

/-- A launch admitted: what it names is bound, and STATE 1 is written. -/
def admitHead (s : State) (ctx q : Nat) (p : Packet) (b : Bound) : State :=
  let h := pickHandle (dropHead s q)
  let n := takeUid h.2
  let s1 : State := { n.2 with
    nums := { n.2.nums with order := n.2.nums.order + 1 }
    grids := tset n.2.grids n.1 (newGrid ctx h.1 n.2.nums.order p b.kernel b.segment b.zones) }
  let s2 := match b.zones.head? with | some z => bindDomain s1 ctx z.fdom b.fdom | none => s1
  gridDone s2 n.1 1 0

/-- A head with what its checks give. -/
structure Judged where
  q    : Nat
  ctx  : Nat
  head : Pending
  v    : Verdict
  s    : State

/-- The heads of all queues judged, each from the same state. -/
def judgeHeads (s : State) : List Judged :=
  (headLaunches s).map fun e => let v := verdict s e.2.1 e.2.2.packet; { q := e.1, ctx := e.2.1, head := e.2.2, v := v.1, s := v.2 }

/-- The effective priority of a head that can be admitted. -/
def Judged.prio (j : Judged) : Option Nat :=
  match j.v with
  | .bound b => some (match b.zones.head? with | some z => z.prio | none => 0)
  | _ => none

/-- The refusal of a head. -/
def Judged.code (j : Judged) : Option Nat := match j.v with | .refused c => some c | _ => none

/-- The admissible head of the highest priority, then the earliest entered, then of the lowest queue (R339). -/
def bestHead (js : List Judged) : Option Judged :=
  js.foldl (fun (b : Option Judged) j => match j.prio, b with
    | none, _ => b
    | some _, none => some j
    | some p, some x => match x.prio with
      | none => some j
      | some r => if r < p ∨ (r = p ∧ j.head.order < x.head.order) then some j else b) none

/-- The heads that wait for another prerequisite than before: they wait for it from now on (R358). -/
def noteHeads (s : State) : State :=
  (headLaunches s).foldl (fun s e =>
    let o := openPre s e.2.1 e.2.2.packet
    if o = e.2.2.object then s
    else modQueue s e.1 fun lq => { lq with
      pending := lq.pending.map fun p =>
        if p.order = e.2.2.order then { p with object := o, since := s.clock, probe := s.clock + 65536 } else p }) s

/-- ADMIT: the heads are considered; one that is to be refused is refused, else the best is admitted. -/
def execAdmission (s : State) : Host.Outcome State Fault Refusal :=
  .next (
    if !running s then s
    else
      let js := judgeHeads s
      match js.find? (fun j => j.code.isSome) with
      | some j => refuseHead j.s j.ctx j.q j.head.packet (j.code.getD 0)
      | none => match bestHead js with
        | none => noteHeads s
        | some j => match j.v with
          | .bound b => admitHead j.s j.ctx j.q j.head.packet b
          | _ => noteHeads s)

/-- PREREQ_POLL: the prerequisites of the waiting heads are read again; a head that one of them refuses is refused. -/
def execPrereqPoll (s : State) : Host.Outcome State Fault Refusal :=
  .next (
    if !running s then s
    else (headLaunches s).foldl (fun s e =>
      let r := preRead e.2.1 e.2.2.packet.pre s
      let v := verdict s e.2.1 e.2.2.packet
      match v.1 with
      | .refused c => refuseHead v.2 e.2.1 e.1 e.2.2.packet c
      | _ => r.2.2) s)

/-! ## TEAM_PLACE (R18, R37, R238, R340, R341) -/

/-- The generator's seed of a launched thread (R238). -/
def seedThread (srseed : W32) (tid team : Nat) : W32 :=
  let v := srseed ^^^ BitVec.ofNat 32 (0x9E3779B9 * (tid + 1)) ^^^ BitVec.ofNat 32 (0x85EBCA6B * (team % 2 ^ 32))
  if v = 0#32 then 1 else v

/-- A thread as it starts (R37). -/
def startThread (k : Kernel) (srseed : W32) (entry : Addr) (team tid : Nat) : Thread :=
  { tid, g := List.replicate k.regs 0, p := 0, entry, gen := seedThread srseed tid team, tx := Tx.fresh, short := [] }

/-- A crew as it starts: its lanes hold the threads that the team has for it (R18, R20). -/
def startCrew (s : State) (gid t : Nat) (g : Grid) (idx core qb n : Nat) : Crew :=
  let w := g.kernel.w
  let pc := g.segment.base + g.packet.entry.setWidth 64
  let live := min w (g.packet.team - n * w)
  { ctx := g.ctx, grid := gid, owner := .team t, core, quarter := quarterOfCrew qb w n, num := n, width := w
    lanes := (List.range w).map fun l =>
      if l < live then some (startThread g.kernel (ctlOf s g.ctx).srseed pc idx (n * w + l)) else none
    k := List.replicate g.kernel.kregs 0, j := List.replicate 8 0, f := List.replicate 8 0
    toks := List.replicate 8 Token.fresh, groups := [Group.fresh (maskOf (List.range live)) pc s.clock], results := [], held := none }

/-- An access thread as it starts (R33). -/
def startAccess (g : Grid) (slot clock : Nat) : Access :=
  let pc := g.segment.base + g.packet.access.setWidth 64
  { slot, a := List.replicate 32 0, toks := List.replicate 8 Token.fresh, entry := pc, grp := Group.fresh 1 pc clock, short := []
    results := [], held := none }

/-- The crews of a team made. -/
def makeCrews (gid t : Nat) (g : Grid) (idx core qb : Nat) : List Nat → State → State
  | [], s => s
  | n :: r, s =>
    let u := takeUid s
    makeCrews gid t g idx core qb r { u.2 with crews := tset u.2.crews u.1 (startCrew s gid t g idx core qb n) }

/-- A team placed on a core with a base quarter: its registers, scratchpad, queues and accumulators are its own, and it starts with an
acquire (R149). -/
def startTeam (s : State) (gid core qb : Nat) : State :=
  match tget s.grids gid with
  | none => s
  | some g =>
    let n := takeUid (wakeCore s core)
    let taken := slotsTaken n.2 core
    let slot := ((List.range 4).find? fun i => !taken.contains i).getD 0
    let tm : Team :=
      { ctx := g.ctx, grid := gid, idx := g.next, core, qb, size := g.packet.team, alloc := g.kernel.bytes g.packet.team
        place := .resident, scratch := [], poison := [], access := if g.hasAccess then some (startAccess g slot s.clock) else none
        queues := List.replicate g.kernel.queues { entries := [], producer := none }, ingress := [], image := none, saved := [] }
    let s1 : State := { n.2 with teams := tset n.2.teams n.1 tm }
    let s2 := makeCrews gid n.1 g g.next core qb (List.range (crewsOf g.packet.team g.kernel.w)) s1
    let s3 := giveAccs s2 n.1 core qb
    acquireAt (modGrid s3 gid fun g => { g with next := g.next + 1 }) core .l2

/-- Teams placed one after another on cores with base quarters. -/
def startTeams (gid : Nat) : List (Nat × Nat) → State → State
  | [], s => s
  | (c, q) :: r, s => startTeams gid r (startTeam s gid c q)

/-- TAIL and HEAD of a fault domain's queue, where its control block can be read. -/
def queueEnds (s : State) (d : Domain) : Option (W32 × W32 × State) :=
  match blockRead s d.ctx d.qctl.toNat 16 with
  | .error _ => none
  | .ok (bs, s1) => some (BitVec.ofNat 32 (ofBytes (bs.take 4)), BitVec.ofNat 32 (ofBytes ((bs.drop 8).take 4)), s1)

/-- Slots of a record: one, and for a WAIT_CYCLE report one more for every four members. -/
def FRec.slots (r : FRec) : Nat := 1 + (r.members.length + 3) / 4

/-- The oldest record of a domain that its handler has not read yet: the last whose slots lie between HEAD and TAIL. -/
def oldestUnread (s : State) (d : Domain) : Option FRec :=
  match queueEnds s d with
  | none => d.outst.head?
  | some (tail, head, _) =>
    (d.outst.reverse.foldl (fun (b : Option FRec × Nat) r => if r.slots ≤ b.2 then (some r, b.2 - r.slots) else (b.1, 0))
      (none, (tail - head).toNat)).1

/-- The core of a handler team: that of the oldest unread record's subject, then a core of the context, then any, each choice by R340 (R405). -/
def handlerPlace (s : State) (gid : Nat) (g : Grid) (dom : Nat) : Option (Nat × Nat) :=
  let fit : Nat → Option (Nat × Nat) := fun c => (coreFits s gid c g.packet.team).map fun q => (c, q)
  let oldest := match tget s.domains dom with
    | some d => (oldestUnread s d).map fun (r : FRec) => r.subject.toNat / 2 ^ 49 % 128
    | none => none
  let near := ((s.teams.filterMap fun e => if e.2.ctx = g.ctx then e.2.coreFor else none)
    ++ (s.crews.filterMap fun e => if e.2.ctx = g.ctx then some e.2.core else none)).eraseDups
  match oldest.bind fit with
  | some e => some e
  | none => match pickCore s gid g.packet.team near.contains with
    | some e => some e
    | none => pickCore s gid g.packet.team fun _ => true

/-- Whether the placement of a grid must wait: it has absent teams or stopped spawned threads (R351, R412), or an earlier grid of its queue
has spilled records and needs a core that could be had (R351). -/
def placeWaits (s : State) (gid : Nat) (g : Grid) : Bool :=
  (s.teams.any fun e => e.2.grid == gid && (match e.2.place with | .resident => false | .stopping (some _) => false | _ => true))
    || ((shadowOf s g.ctx).any fun e => match e.2.2 with | .inr sp => sp.ready && sp.grid == gid | .inl _ => false)
    || s.ctxs.any fun c => c.2.spill.any fun r => r.1 == 128 && (match tget s.grids r.2.grid with
      | some o => o.ctx == g.ctx && o.packet.queue == g.packet.queue && decide (o.order < g.order)
          && (List.range 128).any fun k => (roomFor s r.2.grid k).isSome
      | none => false)

/-- The places that a grid's next team, or next group of four, takes now. -/
def nextPlaces (s : State) (gid : Nat) (g : Grid) : Option (List (Nat × Nat)) :=
  match g.handles with
  | some d => (handlerPlace s gid g d).map fun e => [e]
  | none => teamPlaces s gid g

/-- TEAM_PLACE: the next team of an admitted grid, or the next group of four, is placed; the first writes STATE 2. -/
def execTeamPlace (grid : Nat) (s : State) : Host.Outcome State Fault Refusal :=
  .next (match tget s.grids grid with
    | none => s
    | some g =>
      if g.packet.teams ≤ g.next ∨ placeWaits s grid g ∨ s.package ≠ .on ∨ (g.next = 0 ∧ doneHeld s g.ctx g.packet) then s
      else match nextPlaces s grid g with
        | none => s
        | some ps =>
          let s1 := startTeams grid ps s
          if g.next = 0 then gridDone s1 grid 2 0 else s1)

/-! ## TEAM_COMPLETE and GRID_COMPLETE (R28, R29, R336) -/

/-- Whether a team has completed: its threads and its access thread have exited, none is in a bin, and its operations are complete. -/
def teamDone (s : State) (t : Nat) (tm : Team) : Bool :=
  (crewsOfTeam s t).isEmpty && tm.access.isNone && tm.ingress.isEmpty && (transitAt s t).isNone
    && (tm.saved.all fun x => x.bins.isEmpty && x.run.isNone)
    && !(s.quarters.any fun e => (e.2.filed.any fun b => b.key.owner == .team t)
      || (match e.2.run with | some r => r.by_.team == some t | none => false))
    && !(s.cmds.any fun e => e.2.by_.team == some t) && !(s.winq.any fun w => w.team == some t) && !(s.pend.any fun p => p.team == some t)
    && (queuedFrom s fun r => r.writers.any (ofTeam t)).isNone
    && !(s.far.any fun f => f.team == some t) && s.cur != some (.access t)
    && !(s.dies.any fun e => e.2.divert.any fun d => d.2.team == t && !d.2.queue.isEmpty)

/-- What a completed team held released. -/
def releaseTeam (s : State) (t : Nat) : State :=
  { s with
    teams := tdel s.teams t
    quarters := s.quarters.map fun e =>
      (e.1, if e.2.holder = some t then { e.2 with holder := none, accs := List.replicate 8 Acc.fresh } else e.2)
    dies := s.dies.map fun e => (e.1, { e.2 with divert := e.2.divert.filter fun d => d.2.team != t }) }

/-- TEAM_COMPLETE: its stores are released at device scope and its resources are freed. Its core is kept for the grid's records (R348). -/
def execTeamComplete (team : Nat) (s : State) : Host.Outcome State Fault Refusal :=
  .next (match tget s.teams team with
    | none => s
    | some tm =>
      if !teamDone s team tm then s
      else if (coreHeld s tm.core).isSome then askLine s tm.core
      else
        let s1 := releaseAt (flushTeam s tm) tm.core .l2
        let keep := match tget s1.grids tm.grid with | some g => g.pools.any fun n => n != 0 | none => false
        let s2 := if keep then modGrid s1 tm.grid fun g =>
            { g with hosts := if g.hosts.contains tm.core then g.hosts else tm.core :: g.hosts } else s1
        releaseTeam (freeImage (idleNow s2 tm.core) team) team)

/-- Whether a grid has completed: every team is placed and complete, and every record of its pools has run to its exit. -/
def gridOver (s : State) (gid : Nat) (g : Grid) : Bool :=
  decide (g.packet.teams ≤ g.next) && !(s.teams.any fun e => e.2.grid == gid) && g.pools.all (fun n => n == 0)
    && !(s.crews.any fun e => e.2.grid == gid) && !(s.cmds.any fun e => e.2.by_.grid == gid)
    && !(s.pend.any fun p => p.grid == gid) && !(s.winq.any fun w => w.grid == gid) && !(s.far.any fun f => f.grid == some gid)
    && !(s.quarters.any fun e => e.2.filed.any fun b => b.key.grid == gid)

/-- GRID_COMPLETE: STATE 3 is written after a release at system scope, which the cores that ran its spawned threads perform here, and what was
kept for the grid is freed (R336). -/
def execGridComplete (grid : Nat) (s : State) : Host.Outcome State Fault Refusal :=
  .next (match tget s.grids grid with
    | none => s
    | some g =>
      if !gridOver s grid g ∨ doneHeld s g.ctx g.packet then s
      else match g.hosts.find? (fun c => (coreHeld s c).isSome) with
      | some c => askLine s c
      | none =>
        let s1 := gridDone (g.hosts.foldl (fun s c => releaseAt s c .l2) s) grid 3 0
        { s1 with
          grids := tdel s1.grids grid
          cores := s1.cores.map fun e => (e.1, { e.2 with
            vacated := if e.2.vacated = some grid then none else e.2.vacated
            forward := e.2.forward.filter fun f => (tget s1.teams f.team).isSome })
          domains := s1.domains.map fun e => (e.1, if e.2.handler = some grid then { e.2 with handler := none } else e.2) })

/-! ## HANDLER_START (R405) -/

/-- Primrose's kernel and segment: every register, crews of 32. -/
def primroseKernel : Kernel :=
  { codeLen := 2 ^ 32 - 32, access := 0xFFFFFFFF, logsW := 0, logsR := 0, scratch := 65536, queues := 0, kregs := 48, regs := 192
    width := 32, pools := [] }
def primroseSegment : Segment :=
  { desc := 0, successor := 0, mapCount := 1, map := 0, retired := false, length := 2 ^ 32 - 32, base := Config.primroseBase }

/-- The packet of a handler team: one crew of the kernel's width, with the descriptor's address in ARGS. -/
def handlerPacket (d : Domain) (k : Kernel) (entry : W32) : Packet :=
  { queue := 16, coplace := false, width := 0, team := k.w, gz := 1, gy := 1, gx := 1, pre := [0, 0, 0, 0], done := 0, zcb := 0
    args := d.addr, access := 0xFFFFFFFF, entry, kernel := d.kernel, segment := d.segment, reserved := false, torn := false }

/-- The code of a domain's handler: Primrose while a debug level holds for the context, else what the descriptor names. -/
def handlerCode (s : State) (d : Domain) : Option (Kernel × Segment × W32 × State) :=
  if debugOf s d.ctx ≠ .none then some (primroseKernel, primroseSegment, 0, s)
  else match kernelRead s d.ctx d.kernel with
    | .error _ => none
    | .ok (k, s1) => match segmentRead s1 d.ctx schedUnit d.segment with
      | .error _ => none
      | .ok (g, s2) => some (k, g, d.entry, s2)

/-- HANDLER_START: where records wait and no handler team of the domain runs, one is started and placed as soon as a core has room. -/
def execHandlerStart (dom : Nat) (s : State) : Host.Outcome State Fault Refusal :=
  .next (match tget s.domains dom with
    | none => s
    | some d =>
      if d.handler.isSome ∨ s.package ≠ .on then s
      else match queueEnds s d with
        | none => s
        | some (tail, head, s1) =>
          if tail = head then s
          else match handlerCode s1 d with
            | none => s1
            | some (k, g, entry, s2) =>
              let h := pickHandle s2
              let n := takeUid h.2
              let gr : Grid := { newGrid d.ctx h.1 n.2.nums.order (handlerPacket d k entry) k g [] with
                handles := some dom, primrose := debugOf s d.ctx != .none }
              let s3 : State := { n.2 with grids := tset n.2.grids n.1 gr }
              let s4 := modDomain s3 dom fun d => { d with handler := some n.1 }
              match nextPlaces s4 n.1 gr with
              | some ps => startTeams n.1 ps s4
              | none => s4)

/-! ## FAULT_RECORD_WRITE (R359, R403, R404) -/

/-- The 64 bytes of a record's first slot. -/
def FRec.first (r : FRec) (ctx : Nat) : List Byte :=
  let low := r.cause.code * 2 ^ 48 + r.slots * 2 ^ 40 + (if r.held then 8 else 0) + (if r.exact then 4 else 0)
    + (if r.absent then 2 else 0) + (if r.async then 1 else 0)
  let head := toBytes 8 low ++ toBytes 4 r.detail.toNat ++ toBytes 4 r.seq.toNat ++ toBytes 8 r.subject.toNat ++ toBytes 8 r.team.toNat
  let tail := if r.cause = .waitCycle then
      toBytes 8 ctx ++ toBytes 8 r.subject.toNat ++ toBytes 8 r.members.length ++ toBytes 8 r.stamp.toNat
    else toBytes 8 r.info.toNat ++ toBytes 8 (if r.async then 0 else r.entry.toNat) ++ toBytes 8 r.pc.toNat ++ toBytes 8 r.addr.toNat
  head ++ tail

/-- All the bytes of a record, slot after slot. -/
def FRec.bytes (r : FRec) (ctx : Nat) : List Byte :=
  let ms := (r.members.map fun m => toBytes 8 m.1.toNat ++ toBytes 8 m.2.toNat).flatten
  r.first ctx ++ (ms ++ List.replicate (64 * r.slots) 0).take (64 * (r.slots - 1))

/-- Slots written one after another in the queue. -/
def writeSlots (d : Domain) (tail : W32) (bs : List Byte) : List Nat → State → Option State
  | [], s => some s
  | i :: r, s =>
    let at_ := d.qbase.toNat + 64 * ((tail.toNat + i) % d.qsize)
    match blockWrite s d.ctx at_ ((bs.drop (64 * i)).take 64) with
    | .error _ => none
    | .ok s1 => writeSlots d tail bs r s1

/-- Whether an irrevocable attempt holds a line that a record's slots or TAIL lie in (R217). -/
def slotsHeld (s : State) (d : Domain) (tail : W32) (n : Nat) : Bool :=
  blockHeld s d.ctx d.qctl.toNat 4
    || (List.range n).any fun i => blockHeld s d.ctx (d.qbase.toNat + 64 * ((tail.toNat + i) % d.qsize)) 64

/-- Whether loads of the unit that a record holds have not returned yet: its record is not written before, so that its handler finds their results in
the registers (R400). -/
def loadsOut (s : State) (r : FRec) : Bool :=
  match r.who with
  | .crew uid _ => !returned s (some uid) none || (match tget s.crews uid with | some c => c.results.any (·.val.isSome) | none => false)
  | .access t => !returned s none (some t)
      || (match (tget s.teams t).bind (·.access) with | some a => a.results.any (·.val.isSome) | none => false)
  | _ => false

/-- FAULT_RECORD_WRITE: the oldest record of a domain is written where its queue has room, TAIL is advanced and MSI-X vector 62 raised; a
queue that cannot be read or written keeps it waiting. -/
def execFaultRecordWrite (dom : Nat) (s : State) : Host.Outcome State Fault Refusal :=
  .next (match tget s.domains dom with
    | none => s
    | some d => match d.pending with
      | [] => s
      | r :: rest =>
        if d.qsize = 0 ∨ s.package = .s3 ∨ s.package = .off ∨ loadsOut s r then s
        else match queueEnds s d with
          | none => s
          | some (tail, head, s1) =>
            if d.qsize < (tail - head).toNat + r.slots ∨ slotsHeld s d tail r.slots then s
            else match writeSlots d tail (r.bytes d.ctx) (List.range r.slots) s1 with
              | none => s
              | some s2 => match blockWrite s2 d.ctx d.qctl.toNat (toBytes 4 (tail + BitVec.ofNat 32 r.slots).toNat) with
                | .error _ => s
                | .ok s3 =>
                  raiseMsix (modDomain s3 dom fun d => { d with pending := rest, outst := d.outst ++ [r] }) 62)

end Sys2Proof.Machine
end

