-- ==== Sys2Proof/Machine/Power.lean ====
section
/-! DEFINITION. Power states (R391 to R393) and the start: the record, its steps and what they leave (R430 to R433). -/

namespace Sys2Proof.Machine

open Sys2Proof

/-! ## Dies and cores (R391, R392) -/

/-- Every die's power state changed. -/
def mapDies (s : State) (f : DiePower → DiePower) : State :=
  (List.range 4).foldl (fun s d => let x := dieAt s d; setDie s d { x with power := f x.power }) s

/-- A measurement of the module's power taken in. -/
def Thermal.sample (t : Thermal) (milliwatts : Nat) : Thermal :=
  let xs := (milliwatts :: t.samples).take 100
  { t with samples := xs, calm := if xs.sum < 2700000 * xs.length then t.calm + 1 else 0 }

/-- Whether the average of the last 10 ms exceeds 3,000 W. -/
def Thermal.over (t : Thermal) : Bool := decide (3000000 * t.samples.length < t.samples.sum)

/-- POWER_SAMPLE: above 3,000 W on average over 10 ms, or with a die at 105 degrees, every die goes to A1; once that average has stayed below
2,700 W for 100 ms and every junction is below 95 degrees, back to A0 (R392). A die in C2 takes the change up as it wakes. DESIGN CHOICE
(log 47): a measurement is in milliwatts; until 100 samples are taken, the average is over those there are. -/
def execPowerSample (watts milliwatts : Nat) (hot below95 : Bool) (s : State) : Host.Outcome State Fault Refusal :=
  .next (
    if !cpuOn s then s
    else
      let t := s.thermal.sample (1000 * watts + milliwatts)
      if t.over || hot then
        mapDies { s with thermal := { t with capped := true } } fun p => if p = .a0 then .a1 else p
      else if decide (1000 ≤ t.calm) && below95 then
        mapDies { s with thermal := { t with capped := false } } fun p => if p = .a1 then .a0 else p
      else { s with thermal := t })

/-- Whether a core has work: a team, a spawned thread, a record in its deque, a command in flight. -/
def coreBusy (s : State) (core : Nat) : Bool :=
  !(teamsOn s core).isEmpty || !(spawnedGrids s core).isEmpty || !(coreAt s core).deque.isEmpty
    || s.crews.any (fun e => e.2.core == core && (match e.2.owner with | .pool _ => true | .team _ => false))
    || s.cmds.any fun e => e.2.by_.core == core

/-- Since when a core has been idle: no work left it, and it issued nothing, after that cycle. -/
def idleSince (s : State) (core : Nat) : Nat :=
  ([4 * core, 4 * core + 1, 4 * core + 2, 4 * core + 3, 512 + core].map fun q => (quarterAt s q).last).foldl max (coreAt s core).idleFrom

/-- CORE_GATE: a core that has been idle for 10 us (20,000 cycles) enters C1. -/
def execCoreGate (core : Nat) (s : State) : Host.Outcome State Fault Refusal :=
  .next (
    if s.package ≠ .on ∨ coreBusy s core ∨ (coreAt s core).gated ∨ s.clock < idleSince s core + 20000 then s
    else setCore s core { coreAt s core with gated := true, idleFrom := s.clock })

/-- CORE_WAKE: a gated core with work, or with a request in transit for one of its teams, wakes. -/
def execCoreWake (core : Nat) (s : State) : Host.Outcome State Fault Refusal :=
  .next (if (coreAt s core).gated && (coreBusy s core || (oldestTransit s core).isSome) then wakeCore s core else s)

/-- The cores of a die that are in service. -/
def dieCores (s : State) (die : Nat) : List Nat := ((List.range 32).map fun i => 32 * die + i).filter (inService s)

/-- DIE_RETENTION: a die all of whose cores have been in C1 for 1 ms (2,000,000 cycles) enters C2. -/
def execDieRetention (die : Nat) (s : State) : Host.Outcome State Fault Refusal :=
  .next (
    let quiet := (dieCores s die).all fun c => (coreAt s c).gated && decide ((coreAt s c).idleFrom + 2000000 ≤ s.clock)
    if s.package ≠ .on ∨ !quiet ∨ 4 ≤ die then s else setDie s die { dieAt s die with power := .c2 })

/-- DIE_WAKE: a die in C2 wakes on demand. -/
def execDieWake (die : Nat) (s : State) : Host.Outcome State Fault Refusal :=
  .next (let d := dieAt s die; if d.power = .c2 then setDie s die { d with power := awake s } else s)

/-! ## S3 (R391) -/

/-- Everything told to stop for S3: each resident team is to become absent, and the deques' records are spilled; none where something cannot
be reserved. -/
def beginS3 (s : State) : Option State :=
  (stopEverything { s with package := .toS3 }).bind fun s1 =>
    s1.cores.foldl (fun b e => b.bind fun s => moveDeque e.1 ((coreAt s e.1).deque.map (·.grid)).eraseDups s) (some s1)

/-- Whether everything has stopped: no unit on any core, no command, no write on its way. -/
def allStopped (s : State) : Bool :=
  (s.teams.all fun e => match e.2.place with | .absent _ _ => true | _ => false)
    && (s.crews.all fun e => match e.2.owner with | .team _ => true | .pool _ => false)
    && s.cmds.isEmpty && s.far.isEmpty && s.winq.isEmpty && s.cur.isNone
    && s.quarters.all fun e => e.2.filed.isEmpty && e.2.run.isNone

/-- Every scope cache written back and emptied. -/
def drainCaches (s : State) : State :=
  let s1 := s.cores.foldl (fun s e => backL1 s e.1 (dirtySectors (coreAt s e.1).l1)) s
  let s2 := s1.clusters.foldl (fun s e => backCluster s e.1 (dirtySectors (clusterAt s e.1).cache)) s1
  { s2 with
    lines := []
    cores := s2.cores.map fun e => (e.1, { e.2 with l1 := [], icache := [] })
    clusters := [] }

/-- S3_ENTRY: the scheduler stops every team; once all is stopped and complete, the package enters S3. A request that cannot stop a team is
refused. -/
def execS3Entry (s : State) : Host.Outcome State Fault Refusal :=
  .next (match s.package with
    | .on =>
      if !running s then s
      else (match beginS3 s with
        | none => reply s false
        | some s1 => (List.range 128).foldl parkCore s1)
    | .toS3 =>
      let s1 := (List.range 128).foldl parkCore ((stopEverything s).getD s)
      if allStopped s1 then reply { drainCaches s1 with package := .s3 } true else s1
    | _ => s)

/-- S3_EXIT: the package leaves S3; its stopped teams resume as after pre-emption. -/
def execS3Exit (s : State) : Host.Outcome State Fault Refusal :=
  .next (if s.package = .s3 then reply { s with package := .on } true else s)

/-! ## The start (R430 to R433) -/

/-- What outlives a start: the security state, the device owner, the fused minima, the start counter, a failed link; the rest is as at
reset. -/
def beginStart (s : State) : State :=
  let changed := s.sec.next.isSome || (s.sec.fuse && s.sec.state == .manufacture)
  let state := if s.sec.fuse then (match s.sec.next.getD s.sec.state with | .manufacture => .secure | x => x) else .manufacture
  let r := State.reset
  let s1 : State := { r with
    agenda := s.agenda, nums := s.nums
    sec := { r.sec with state, owner := s.sec.owner, minima := s.sec.minima, fuse := s.sec.fuse }
    start := { r.start with
      counter := s.start.counter + 1, tagged := (r.start.entries, s.start.counter + 1), badLink := s.start.badLink
      found := decide (s.start.tagged = (s.start.entries, s.start.counter)) } }
  if changed then noteDebug s1 0 state.code else s1

/-- POWER_LOSS: nothing is retained but what non-volatile stores and fuses hold (R391, R393). -/
def execPowerLoss (s : State) : Host.Outcome State Fault Refusal :=
  .next (
    let r := State.reset
    { r with
      agenda := s.agenda, nums := s.nums, package := .off
      sec := { r.sec with state := s.sec.state, next := s.sec.next, owner := s.sec.owner, minima := s.sec.minima, fuse := s.sec.fuse }
      start := { r.start with
        entries := s.start.entries, counter := s.start.counter, tagged := s.start.tagged, badLink := s.start.badLink } })

/-- COLD_START: power returns and a start begins. -/
def execColdStart (s : State) : Host.Outcome State Fault Refusal :=
  .next (if s.package = .off then beginStart s else s)

/-- NEW_START_REQUEST: a device that refused to start begins a new start (R433). -/
def execNewStartRequest (s : State) : Host.Outcome State Fault Refusal :=
  .next (if s.package = .on ∧ s.start.refused then reply (beginStart s) true else s)

/-- Steps with an alternative path, and skippable steps (R431). -/
def hasAlternative (n : Nat) : Bool := [2, 5, 7, 8, 9, 10, 11, 12, 13, 14, 15, 16, 17, 18, 19, 20].contains n
def skippable (n : Nat) : Bool := [19, 20, 22].contains n

/-- The step that is to be attempted, with its entry; none once step 24 is done. -/
def currentStep (s : State) : Option (Nat × StartEntry) :=
  (s.start.entries[s.start.step - 1]?).map fun e => (s.start.step, e)

/-- The bytes that the record's tag covers: the entries, then the start counter (R430). -/
def startBytes (t : List StartEntry × W64) : List Byte := (t.1.map fun e => toBytes 4 e.word.toNat).flatten ++ toBytes 8 t.2.toNat

/-- HMAC-SHA-384, which the manual names and does not define: that of RFC 2104, over blocks of 128 bytes (PRESUMED, log 4). -/
def hmac384 (key msg : List Byte) : BitVec 384 :=
  let k := (key ++ List.replicate 128 0).take 128
  let pad : Byte → List Byte := fun x => k.map (x ^^^ ·)
  Config.sha384 (pad 0x5C ++ toBytes 48 (Config.sha384 (pad 0x36 ++ msg)).toNat)

/-- The tag that the record carries (R430): of what it was last computed over. -/
def Start.tag (t : Start) : BitVec 384 := hmac384 (Config.recordKey Config.deviceSecret) (startBytes t.tagged)

/-- Units mapped out by a step on its alternative path (R432). -/
def mapOut (s : State) (n : Nat) (o : StepOutcome) : State :=
  let addDies : List Nat → State := fun ds => { s with start := { s.start with outDies := (s.start.outDies ++ ds).eraseDups } }
  let addCores : List Nat → State := fun cs => { s with start := { s.start with outCores := (s.start.outCores ++ cs).eraseDups } }
  if 8 ≤ n ∧ n ≤ 11 then
    if o.badDies.contains (n - 8) then addDies [n - 8] else addCores (o.badCores.filter fun c => c / 32 == n - 8)
  else if n = 12 then
    let ds := o.badDies ++ (match s.start.badLink with | some l => [l % 4] | none => [])
    let t := addDies (ds.filter fun d => decide (d < 4))
    { t with start := { t.start with badLink := none } }
  else if n = 14 then { s with start := { s.start with hbmRate := 8 } }
  else if n = 15 then addDies (o.badDies.filter fun d => decide (d < 4))
  else if n = 16 then
    addCores ((List.range 128).filter fun c => o.badCores.any fun b => b / 4 == c / 4)
  else s

/-- The image kinds that a step checks and measures, with their registers (R381, R382). -/
def stepImages (n : Nat) : List (Nat × Nat) :=
  match n with
  | 2 => [(0, 0)] | 5 => [(1, 1)] | 7 => [(2, 2)] | 13 => [(3, 3)] | 17 => [(4, 4)] | 14 => [(5, 5)] | 18 => [(6, 6)] | 19 => [(6, 7)]
  | _ => []

/-- What the configuration measurement of MR8 covers: mapped-out cores and dies, and the HBM rate. -/
def configBytes (s : State) : List Byte :=
  Config.measured 8 (bitsOf 128 (fun c => !inService s c) * 2 ^ 16 + bitsOf 4 (fun d => s.start.outDies.contains d) * 2 ^ 8 + s.start.hbmRate)

/-- The image of a kind that a step takes on a path: that of the second slot on the alternative one, except at HBM training, whose alternative is a
rate (R431). -/
def bootImage (n kind path : Nat) : Nat := kind + if n = 14 then 0 else 16 * path

/-- Whether Hollyhock accepts the images of a step (R382). -/
def imagesOk (s : State) (n path : Nat) : Bool := (stepImages n).all fun e => imageOk s e.1 (bootImage n e.2 path)

/-- The effects of a step that is done (R431). -/
def stepDone (s : State) (n path : Nat) : State :=
  let s1 := (stepImages n).foldl (fun s e => extendMr s e.1 (Config.firmware (bootImage n e.2 path))) s
  match n with
  | 15 => { s1 with mem := [], poison := [] }
  | 19 => { s1 with links := { s1.links with peersUp := List.range 8 } }
  | 21 => extendMr (extendMr s1 7 ((s1.start.entries.map fun e => toBytes 4 e.word.toNat).flatten)) 8 (configBytes s1)
  | 22 => { s1 with counters := State.reset.counters }
  | 23 => { s1 with queues := [] }
  | 24 => { s1 with start := { s1.start with ready := true } }
  | _ => s1

/-- The record's entries written, with its tag. -/
def setEntries (s : State) (es : List StartEntry) : State :=
  { s with start := { s.start with entries := es, tagged := (es, s.start.counter) } }

/-- An entry of the record written, and its tag recomputed. -/
def setEntry (s : State) (n : Nat) (e : StartEntry) : State := setEntries s (lset s.start.entries (n - 1) e)

/-- A record whose tag fails replaced by one with every entry zero, and MR7 extended with that fact (R430). -/
def freshRecord (s : State) : State :=
  extendMr (setEntries s (List.replicate 24 { attempts := 0, path := 0, state := 0 })) 7 (Config.measured 7 0)

/-- Whether the self-test of a step found a failing core, cluster, link or stack, which counts as a failed attempt (R432). -/
def testFails (s : State) (n : Nat) (o : StepOutcome) : Bool :=
  if 8 ≤ n ∧ n ≤ 11 then o.badDies.contains (n - 8) || o.badCores.any fun c => c / 32 == n - 8
  else if n = 12 then s.start.badLink.isSome || o.badDies.any fun d => decide (d < 4)
  else if n = 15 then o.badDies.any fun d => decide (d < 4)
  else n == 16 && o.badCores.any fun c => decide (c < 128)

/-- The next step is to be attempted. -/
def nextStep (s : State) (n : Nat) : State := { s with start := { s.start with step := n + 1 } }

/-- Attempts counted, saturating at 255. -/
def nextAttempt (e : StartEntry) : BitVec 8 := if e.attempts = 255#8 then 255 else e.attempts + 1

/-- One attempt at the current step, which passes only with images that Hollyhock accepts (R382), and on the primary path only where its self-test
finds no failing unit (R432): on the primary path twice, then on the alternative path where there is one (R431). -/
def attemptStep (s : State) (n : Nat) (e : StartEntry) (o : StepOutcome) : State :=
  let k := nextAttempt e
  let alt := decide (2 ≤ e.attempts.toNat)
  let path : BitVec 4 := if alt then 1 else 0
  let pass := o.pass && imagesOk s n path.toNat && (alt || !testFails s n o)
  if pass then
    let s0 := if n == 4 && (o.tagFails || !s.start.found) then freshRecord s else s
    let s1 := setEntry (if alt then mapOut s0 n o else s0) n { attempts := k, path, state := 1 }
    nextStep (setEntry (stepDone s1 n path.toNat) n { attempts := k, path, state := 2 }) n
  else if k.toNat < 2 ∨ (k.toNat = 2 ∧ hasAlternative n) then setEntry s n { attempts := k, path, state := 1 }
  else if skippable n then nextStep (setEntry s n { attempts := k, path, state := 4 }) n
  else
    let s1 := setEntry s n { attempts := k, path, state := 3 }
    { s1 with start := { s1.start with refused := true } }

/-- START_STEP: one attempt at the current step of the start record. -/
def execStartStep (o : StepOutcome) (s : State) : Host.Outcome State Fault Refusal :=
  .next (match currentStep s with
    | none => s
    | some (n, e) => if s.package ≠ .on ∨ s.start.refused then s else attemptStep s n e o)

/-- STEP_TIMEOUT: an attempt that exceeds its time limit has failed. -/
def execStepTimeout (s : State) : Host.Outcome State Fault Refusal :=
  .next (match currentStep s with
    | none => s
    | some (n, e) =>
      if s.package ≠ .on ∨ s.start.refused then s else attemptStep s n e { pass := false, badCores := [], badDies := [], tagFails := false })

end Sys2Proof.Machine
end

