-- ==== Sys2Proof/Machine/Dispatch.lean ====
section
/-! DEFINITION. The dispatch: one arm for every constructor of Instr. -/

namespace Sys2Proof.Machine

open Sys2Proof

def exec (i : Instr) (s : State) : Host.Outcome State Fault Refusal :=
  match i with
  | .iadd c sat d a b => Sys2Proof.Machine.execIadd c sat d a b s
  | .iaddImm c sat d a imm => Sys2Proof.Machine.execIaddImm c sat d a imm s
  | .isub c sat d a b => Sys2Proof.Machine.execIsub c sat d a b s
  | .isubImm c sat d a imm => Sys2Proof.Machine.execIsubImm c sat d a imm s
  | .iaddc c d a b p => Sys2Proof.Machine.execIaddc c d a b p s
  | .iaddcImm c d a imm p => Sys2Proof.Machine.execIaddcImm c d a imm p s
  | .imul c d a b => Sys2Proof.Machine.execImul c d a b s
  | .imulImm c d a imm => Sys2Proof.Machine.execImulImm c d a imm s
  | .imulh c sg d a b => Sys2Proof.Machine.execImulh c sg d a b s
  | .imulhImm c sg d a imm => Sys2Proof.Machine.execImulhImm c sg d a imm s
  | .imad c d a b x => Sys2Proof.Machine.execImad c d a b x s
  | .imadw c sg d a b x => Sys2Proof.Machine.execImadw c sg d a b x s
  | .idiv c sg d a b => Sys2Proof.Machine.execIdiv c sg d a b s
  | .idivImm c sg d a imm => Sys2Proof.Machine.execIdivImm c sg d a imm s
  | .irem c sg d a b => Sys2Proof.Machine.execIrem c sg d a b s
  | .iremImm c sg d a imm => Sys2Proof.Machine.execIremImm c sg d a imm s
  | .imin c sg d a b => Sys2Proof.Machine.execImin c sg d a b s
  | .iminImm c sg d a imm => Sys2Proof.Machine.execIminImm c sg d a imm s
  | .imax c sg d a b => Sys2Proof.Machine.execImax c sg d a b s
  | .imaxImm c sg d a imm => Sys2Proof.Machine.execImaxImm c sg d a imm s
  | .iabs c sat d a => Sys2Proof.Machine.execIabs c sat d a s
  | .ineg c sat d a => Sys2Proof.Machine.execIneg c sat d a s
  | .iset c cmp sg d a b => Sys2Proof.Machine.execIset c cmp sg d a b s
  | .isetImm c cmp sg d a imm => Sys2Proof.Machine.execIsetImm c cmp sg d a imm s
  | .lea c sh sx d a b => Sys2Proof.Machine.execLea c sh sx d a b s
  | .iadd64 c sat d a b => Sys2Proof.Machine.execIadd64 c sat d a b s
  | .iadd64Imm c sat d a imm => Sys2Proof.Machine.execIadd64Imm c sat d a imm s
  | .ltab c d a b x ft => Sys2Proof.Machine.execLtab c d a b x ft s
  | .shl c wrap d a b => Sys2Proof.Machine.execShl c wrap d a b s
  | .shlImm c wrap d a imm => Sys2Proof.Machine.execShlImm c wrap d a imm s
  | .shr c wrap d a b => Sys2Proof.Machine.execShr c wrap d a b s
  | .shrImm c wrap d a imm => Sys2Proof.Machine.execShrImm c wrap d a imm s
  | .sar c wrap d a b => Sys2Proof.Machine.execSar c wrap d a b s
  | .sarImm c wrap d a imm => Sys2Proof.Machine.execSarImm c wrap d a imm s
  | .rot c right d a b => Sys2Proof.Machine.execRot c right d a b s
  | .rotImm c right d a imm => Sys2Proof.Machine.execRotImm c right d a imm s
  | .fshf c right d a b x => Sys2Proof.Machine.execFshf c right d a b x s
  | .popc c d a => Sys2Proof.Machine.execPopc c d a s
  | .clz c d a => Sys2Proof.Machine.execClz c d a s
  | .brev c d a => Sys2Proof.Machine.execBrev c d a s
  | .bfx c sg d a b x => Sys2Proof.Machine.execBfx c sg d a b x s
  | .bfi c d a b x => Sys2Proof.Machine.execBfi c d a b x s
  | .ptab c d a b x ft => Sys2Proof.Machine.execPtab c d a b x ft s
  | .mov c wide d a => Sys2Proof.Machine.execMov c wide d a s
  | .movi c d imm => Sys2Proof.Machine.execMovi c d imm s
  | .moviB64 c d lo hi => Sys2Proof.Machine.execMoviB64 c d lo hi s
  | .movk c d a b => Sys2Proof.Machine.execMovk c d a b s
  | .sel c wide d a b p => Sys2Proof.Machine.execSel c wide d a b p s
  | .rdsp c d sp => Sys2Proof.Machine.execRdsp c d sp s
  | .cvti c op d a => Sys2Proof.Machine.execCvti c op d a s
  | .bra c form a off => Sys2Proof.Machine.execBra c form a off s
  | .braHint c form a off h => Sys2Proof.Machine.execBraHint c form a off h s
  | .brx c a => Sys2Proof.Machine.execBrx c a s
  | .call c d off => Sys2Proof.Machine.execCall c d off s
  | .callHint c d off h => Sys2Proof.Machine.execCallHint c d off h s
  | .callx c d a => Sys2Proof.Machine.execCallx c d a s
  | .ret c a => Sys2Proof.Machine.execRet c a s
  | .exit c => Sys2Proof.Machine.execExit c s
  | .enrol c j => Sys2Proof.Machine.execEnrol c j s
  | .join c j => Sys2Proof.Machine.execJoin c j s
  | .reform c => Sys2Proof.Machine.execReform c s
  | .yield c => Sys2Proof.Machine.execYield c s
  | .nop c => Sys2Proof.Machine.execNop c s
  | .replay c id => Sys2Proof.Machine.execReplay c id s
  | .shfl c mode wide d a b x v => Sys2Proof.Machine.execShfl c mode wide d a b x v s
  | .vote c mode d a => Sys2Proof.Machine.execVote c mode d a s
  | .redc c op d a x v => Sys2Proof.Machine.execRedc c op d a x v s
  | .scan c op excl d a x v => Sys2Proof.Machine.execScan c op excl d a x v s
  | .matchLanes c wide d a => Sys2Proof.Machine.execMatchLanes c wide d a s
  | .fadd c rnd sat d a b => Sys2Proof.Machine.execFadd c rnd sat d a b s
  | .faddImm c rnd sat d a imm => Sys2Proof.Machine.execFaddImm c rnd sat d a imm s
  | .fmul c rnd sat d a b => Sys2Proof.Machine.execFmul c rnd sat d a b s
  | .fmulImm c rnd sat d a imm => Sys2Proof.Machine.execFmulImm c rnd sat d a imm s
  | .ffma c rnd sat d a b x => Sys2Proof.Machine.execFfma c rnd sat d a b x s
  | .fmin c nan d a b => Sys2Proof.Machine.execFmin c nan d a b s
  | .fminImm c nan d a imm => Sys2Proof.Machine.execFminImm c nan d a imm s
  | .fmax c nan d a b => Sys2Proof.Machine.execFmax c nan d a b s
  | .fmaxImm c nan d a imm => Sys2Proof.Machine.execFmaxImm c nan d a imm s
  | .fset c cmp d a b => Sys2Proof.Machine.execFset c cmp d a b s
  | .fsetImm c cmp d a imm => Sys2Proof.Machine.execFsetImm c cmp d a imm s
  | .fclass c d a b => Sys2Proof.Machine.execFclass c d a b s
  | .fclassImm c d a imm => Sys2Proof.Machine.execFclassImm c d a imm s
  | .frnd c rnd d a => Sys2Proof.Machine.execFrnd c rnd d a s
  | .hadd2 c bf rnd sat d a b => Sys2Proof.Machine.execHadd2 c bf rnd sat d a b s
  | .hadd2Imm c bf rnd sat d a imm => Sys2Proof.Machine.execHadd2Imm c bf rnd sat d a imm s
  | .hmul2 c bf rnd sat d a b => Sys2Proof.Machine.execHmul2 c bf rnd sat d a b s
  | .hmul2Imm c bf rnd sat d a imm => Sys2Proof.Machine.execHmul2Imm c bf rnd sat d a imm s
  | .hfma2 c bf rnd sat d a b x => Sys2Proof.Machine.execHfma2 c bf rnd sat d a b x s
  | .hmin2 c bf nan d a b => Sys2Proof.Machine.execHmin2 c bf nan d a b s
  | .hmin2Imm c bf nan d a imm => Sys2Proof.Machine.execHmin2Imm c bf nan d a imm s
  | .hmax2 c bf nan d a b => Sys2Proof.Machine.execHmax2 c bf nan d a b s
  | .hmax2Imm c bf nan d a imm => Sys2Proof.Machine.execHmax2Imm c bf nan d a imm s
  | .hset2 c cmp bf d a b => Sys2Proof.Machine.execHset2 c cmp bf d a b s
  | .hset2Imm c cmp bf d a imm => Sys2Proof.Machine.execHset2Imm c cmp bf d a imm s
  | .rcp c d a => Sys2Proof.Machine.execRcp c d a s
  | .rsq c d a => Sys2Proof.Machine.execRsq c d a s
  | .sqrt c d a => Sys2Proof.Machine.execSqrt c d a s
  | .exp2 c d a => Sys2Proof.Machine.execExp2 c d a s
  | .log2 c d a => Sys2Proof.Machine.execLog2 c d a s
  | .fsin c d a => Sys2Proof.Machine.execFsin c d a s
  | .fcos c d a => Sys2Proof.Machine.execFcos c d a s
  | .tanh c d a => Sys2Proof.Machine.execTanh c d a s
  | .fdiv c rnd d a b => Sys2Proof.Machine.execFdiv c rnd d a b s
  | .fcvt c rnd sat src dst d a => Sys2Proof.Machine.execFcvt c rnd sat src dst d a s
  | .fcvtp c rnd sat dst slot d a b x => Sys2Proof.Machine.execFcvtp c rnd sat dst slot d a b x s
  | .ld c sz m d a => Sys2Proof.Machine.execLd c sz m d a s
  | .st c sz m a b => Sys2Proof.Machine.execSt c sz m a b s
  | .lds c sz m d a => Sys2Proof.Machine.execLds c sz m d a s
  | .sts c sz m a b => Sys2Proof.Machine.execSts c sz m a b s
  | .ldc c sz m d a => Sys2Proof.Machine.execLdc c sz m d a s
  | .stc c sz m a b => Sys2Proof.Machine.execStc c sz m a b s
  | .fence c m => Sys2Proof.Machine.execFence c m s
  | .cctl c op m a b => Sys2Proof.Machine.execCctl c op m a b s
  | .icinv c m a b => Sys2Proof.Machine.execIcinv c m a b s
  | .pref c m a => Sys2Proof.Machine.execPref c m a s
  | .atom c op wide ar m d a b => Sys2Proof.Machine.execAtom c op wide ar m d a b s
  | .atomcas c wide ar m d a b x => Sys2Proof.Machine.execAtomcas c wide ar m d a b x s
  | .atoms c op wide ar m d a b => Sys2Proof.Machine.execAtoms c op wide ar m d a b s
  | .red c op wide m a b => Sys2Proof.Machine.execRed c op wide m a b s
  | .astream c q a b x n0 n1 cmd => Sys2Proof.Machine.execAstream c q a b x n0 n1 cmd s
  | .opush c q a n => Sys2Proof.Machine.execOpush c q a n s
  | .opop c wide d q => Sys2Proof.Machine.execOpop c wide d q s
  | .gather c esz i64 d a b x count cmd => Sys2Proof.Machine.execGather c esz i64 d a b x count cmd s
  | .scatter c esz i64 d a b x count cmd => Sys2Proof.Machine.execScatter c esz i64 d a b x count cmd s
  | .cpy c d a b x cmd => Sys2Proof.Machine.execCpy c d a b x cmd s
  | .cpy2g c d a b x pitch esz count ph pw cmd => Sys2Proof.Machine.execCpy2g c d a b x pitch esz count ph pw cmd s
  | .cpyt c pack d a b x spitch role fmt pitch count cmd => Sys2Proof.Machine.execCpyt c pack d a b x spitch role fmt pitch count cmd s
  | .cpyr c d a b x off cmd => Sys2Proof.Machine.execCpyr c d a b x off cmd s
  | .close c t => Sys2Proof.Machine.execClose c t s
  | .waitb c n d t => Sys2Proof.Machine.execWaitb c n d t s
  | .barinit c a b off => Sys2Proof.Machine.execBarinit c a b off s
  | .bararv c one x a b off => Sys2Proof.Machine.execBararv c one x a b off s
  | .barexp c a b off => Sys2Proof.Machine.execBarexp c a b off s
  | .barwait c scope d a b => Sys2Proof.Machine.execBarwait c scope d a b s
  | .bartest c scope d a b => Sys2Proof.Machine.execBartest c scope d a b s
  | .fred c s32 d a b x group e parts cmd => Sys2Proof.Machine.execFred c s32 d a b x group e parts cmd s
  | .txopen c ts d => Sys2Proof.Machine.execTxopen c ts d s
  | .txcommit c => Sys2Proof.Machine.execTxcommit c s
  | .txquit c code => Sys2Proof.Machine.execTxquit c code s
  | .txstat c d => Sys2Proof.Machine.execTxstat c d s
  | .spopen c ts dom d a => Sys2Proof.Machine.execSpopen c ts dom d a s
  | .spcommit c => Sys2Proof.Machine.execSpcommit c s
  | .mzero c s32 m => Sys2Proof.Machine.execMzero c s32 m s
  | .mld c m a off => Sys2Proof.Machine.execMld c m a off s
  | .mst c a m off => Sys2Proof.Machine.execMst c a m off s
  | .mma c sat m a b => Sys2Proof.Machine.execMma c sat m a b s
  | .mloop c sat m a b fv f tv tok n inca incb => Sys2Proof.Machine.execMloop c sat m a b fv f tv tok n inca incb s
  | .mconv c sat m a b x tv tok => Sys2Proof.Machine.execMconv c sat m a b x tv tok s
  | .mmas c sat x2 m a b x => Sys2Proof.Machine.execMmas c sat x2 m a b x s
  | .mcomp c d a b => Sys2Proof.Machine.execMcomp c d a b s
  | .mqnt c rnd role fmt m b => Sys2Proof.Machine.execMqnt c rnd role fmt m b s
  | .mstat c d m => Sys2Proof.Machine.execMstat c d m s
  | .fsetm c wide f a => Sys2Proof.Machine.execFsetm c wide f a s
  | .sbind c slot d a => Sys2Proof.Machine.execSbind c slot d a s
  | .sunbind c a => Sys2Proof.Machine.execSunbind c a s
  | .ginv c scope a => Sys2Proof.Machine.execGinv c scope a s
  | .chain c sat ty d a b x ops cmd => Sys2Proof.Machine.execChain c sat ty d a b x ops cmd s
  | .sstat c d a => Sys2Proof.Machine.execSstat c d a s
  | .pdec c a x cmd => Sys2Proof.Machine.execPdec c a x cmd s
  | .launch c a cmd => Sys2Proof.Machine.execLaunch c a cmd s
  | .spawn c pool data a cmd => Sys2Proof.Machine.execSpawn c pool data a cmd s
  | .wpop c pool d p => Sys2Proof.Machine.execWpop c pool d p s
  | .wsteal c pool d a p => Sys2Proof.Machine.execWsteal c pool d a p s
  | .sysr c idx d => Sys2Proof.Machine.execSysr c idx d s
  | .sysw c idx b => Sys2Proof.Machine.execSysw c idx b s
  | .trap c code => Sys2Proof.Machine.execTrap c code s
  | .tretRetry c d a b => Sys2Proof.Machine.execTretRetry c d a b s
  | .tretNext c d a b => Sys2Proof.Machine.execTretNext c d a b s
  | .tretError c d a b => Sys2Proof.Machine.execTretError c d a b s
  | .tretEnd c d a b => Sys2Proof.Machine.execTretEnd c d a b s
  | .bkpt c => Sys2Proof.Machine.execBkpt c s
  | .mboxSend c d a b => Sys2Proof.Machine.execMboxSend c d a b s
  | .mboxRecv c d a b => Sys2Proof.Machine.execMboxRecv c d a b s
  | .attest c d a b cmd => Sys2Proof.Machine.execAttest c d a b cmd s
  | .joinRelease crew j => Sys2Proof.Machine.execJoinRelease crew j s
  | .binAgeLimit q bin => Sys2Proof.Machine.execBinAgeLimit q bin s
  | .recordFile core => Sys2Proof.Machine.execRecordFile core s
  | .issueSelect q => Sys2Proof.Machine.execIssueSelect q s
  | .readyAgeRaise q => Sys2Proof.Machine.execReadyAgeRaise q s
  | .playQuotaExpire q => Sys2Proof.Machine.execPlayQuotaExpire q s
  | .commandAccept u => Sys2Proof.Machine.execCommandAccept u s
  | .commandComplete turn => Sys2Proof.Machine.execCommandComplete turn s
  | .engineFault cmd => Sys2Proof.Machine.execEngineFault cmd s
  | .astreamPush cmd => Sys2Proof.Machine.execAstreamPush cmd s
  | .fredGroupClose ctx grid group => Sys2Proof.Machine.execFredGroupClose ctx grid group s
  | .barwaitRelease u => Sys2Proof.Machine.execBarwaitRelease u s
  | .tokenWaitRelease u => Sys2Proof.Machine.execTokenWaitRelease u s
  | .opopFill u => Sys2Proof.Machine.execOpopFill u s
  | .accumulatorRelease u => Sys2Proof.Machine.execAccumulatorRelease u s
  | .sequencerStep q => Sys2Proof.Machine.execSequencerStep q s
  | .txBackoffExpire u => Sys2Proof.Machine.execTxBackoffExpire u s
  | .txPeriodicValidate crew lane => Sys2Proof.Machine.execTxPeriodicValidate crew lane s
  | .commitTokenGrant u => Sys2Proof.Machine.execCommitTokenGrant u s
  | .serialCommitGrant => Sys2Proof.Machine.execSerialCommitGrant  s
  | .specIterationGrant u => Sys2Proof.Machine.execSpecIterationGrant u s
  | .lineMigrate die line => Sys2Proof.Machine.execLineMigrate die line s
  | .rcDrop line => Sys2Proof.Machine.execRcDrop line s
  | .persistentRequest line => Sys2Proof.Machine.execPersistentRequest line s
  | .trackingUnitMerge start => Sys2Proof.Machine.execTrackingUnitMerge start s
  | .windowReadTransform => Sys2Proof.Machine.execWindowReadTransform  s
  | .windowWriteTransform => Sys2Proof.Machine.execWindowWriteTransform  s
  | .decodeJobStart => Sys2Proof.Machine.execDecodeJobStart  s
  | .decodeJobComplete turn => Sys2Proof.Machine.execDecodeJobComplete turn s
  | .aelogRecordWrite core => Sys2Proof.Machine.execAelogRecordWrite core s
  | .waitsForProbe w => Sys2Proof.Machine.execWaitsForProbe w s
  | .doorbell q tail => Sys2Proof.Machine.execDoorbell q tail s
  | .queueStatusWrite q v => Sys2Proof.Machine.execQueueStatusWrite q v s
  | .launchEnqueue q => Sys2Proof.Machine.execLaunchEnqueue q s
  | .admission => Sys2Proof.Machine.execAdmission  s
  | .prereqPoll => Sys2Proof.Machine.execPrereqPoll  s
  | .teamPlace grid => Sys2Proof.Machine.execTeamPlace grid s
  | .teamComplete team => Sys2Proof.Machine.execTeamComplete team s
  | .gridComplete grid => Sys2Proof.Machine.execGridComplete grid s
  | .spillReturn core => Sys2Proof.Machine.execSpillReturn core s
  | .steal core => Sys2Proof.Machine.execSteal core s
  | .coreVacate grid => Sys2Proof.Machine.execCoreVacate grid s
  | .teamStop team => Sys2Proof.Machine.execTeamStop team s
  | .teamMove team => Sys2Proof.Machine.execTeamMove team s
  | .forwardedRequest core => Sys2Proof.Machine.execForwardedRequest core s
  | .divertedOperation die entry => Sys2Proof.Machine.execDivertedOperation die entry s
  | .teamResume team => Sys2Proof.Machine.execTeamResume team s
  | .spawnedThreadResume ctx => Sys2Proof.Machine.execSpawnedThreadResume ctx s
  | .handlerStart dom => Sys2Proof.Machine.execHandlerStart dom s
  | .faultRecordWrite dom => Sys2Proof.Machine.execFaultRecordWrite dom s
  | .contextOpen ctx key => Sys2Proof.Machine.execContextOpen ctx key s
  | .contextClose ctx => Sys2Proof.Machine.execContextClose ctx s
  | .map ctx va pa big flags auth => Sys2Proof.Machine.execMap ctx va pa big flags auth s
  | .unmap ctx va remap auth => Sys2Proof.Machine.execUnmap ctx va remap auth s
  | .queueSetup q ctx ring log2 auth => Sys2Proof.Machine.execQueueSetup q ctx ring log2 auth s
  | .aperturePlacement base => Sys2Proof.Machine.execAperturePlacement base s
  | .contextControlWrite ctx idx v auth => Sys2Proof.Machine.execContextControlWrite ctx idx v auth s
  | .s3Entry => Sys2Proof.Machine.execS3Entry  s
  | .newStartRequest => Sys2Proof.Machine.execNewStartRequest  s
  | .attestService => Sys2Proof.Machine.execAttestService  s
  | .apertureAccess off n write => Sys2Proof.Machine.execApertureAccess off n write s
  | .peerAccessIn port partner ctx va req => Sys2Proof.Machine.execPeerAccessIn port partner ctx va req s
  | .powerSample watts milliwatts hot below95 => Sys2Proof.Machine.execPowerSample watts milliwatts hot below95 s
  | .coreGate core => Sys2Proof.Machine.execCoreGate core s
  | .coreWake core => Sys2Proof.Machine.execCoreWake core s
  | .coldStart => Sys2Proof.Machine.execColdStart  s
  | .startStep o => Sys2Proof.Machine.execStartStep o s
  | .patrolScrub ctl corrected bad => Sys2Proof.Machine.execPatrolScrub ctl corrected bad s
  | .variableLatencyResult r => Sys2Proof.Machine.execVariableLatencyResult r s
  | .windowWriteAcknowledged => Sys2Proof.Machine.execWindowWriteAcknowledged  s
  | .pairing ctx port partner farAgrees => Sys2Proof.Machine.execPairing ctx port partner farAgrees s
  | .securityStateRequest toOpen byOwner => Sys2Proof.Machine.execSecurityStateRequest toOpen byOwner s
  | .debugLevelRequest level ctx => Sys2Proof.Machine.execDebugLevelRequest level ctx s
  | .fusedMinimumRaise kind version sigRsa sigSlh => Sys2Proof.Machine.execFusedMinimumRaise kind version sigRsa sigSlh s
  | .ownerOpen m ctx keys => Sys2Proof.Machine.execOwnerOpen m ctx keys s
  | .ownerSeal r => Sys2Proof.Machine.execOwnerSeal r s
  | .ownerChange r request => Sys2Proof.Machine.execOwnerChange r request s
  | .ownerChallenge r => Sys2Proof.Machine.execOwnerChallenge r s
  | .ownerRevoke r => Sys2Proof.Machine.execOwnerRevoke r s
  | .ownerClaim r => Sys2Proof.Machine.execOwnerClaim r s
  | .consentToken t => Sys2Proof.Machine.execConsentToken t s
  | .repairToken t => Sys2Proof.Machine.execRepairToken t s
  | .ideKeySet stream ctx => Sys2Proof.Machine.execIdeKeySet stream ctx s
  | .debugMailboxHostWrite msg => Sys2Proof.Machine.execDebugMailboxHostWrite msg s
  | .hostWriteDropped => Sys2Proof.Machine.execHostWriteDropped  s
  | .sramScrub core corrected bad => Sys2Proof.Machine.execSramScrub core corrected bad s
  | .flitReplay peer flit => Sys2Proof.Machine.execFlitReplay peer flit s
  | .linkRetrain peer link ok => Sys2Proof.Machine.execLinkRetrain peer link ok s
  | .scopeCacheEviction cluster id sector mv => Sys2Proof.Machine.execScopeCacheEviction cluster id sector mv s
  | .peerWriteDropped => Sys2Proof.Machine.execPeerWriteDropped  s
  | .powerLoss => Sys2Proof.Machine.execPowerLoss  s
  | .dieRetention die => Sys2Proof.Machine.execDieRetention die s
  | .dieWake die => Sys2Proof.Machine.execDieWake die s
  | .s3Exit => Sys2Proof.Machine.execS3Exit  s
  | .stepTimeout => Sys2Proof.Machine.execStepTimeout  s

end Sys2Proof.Machine
end

