-- ==== Sys2Proof/Machine/Agenda.lean ====
section
/-! DEFINITION. The order of the device's own steps: which event comes next when no unit is selected and nothing stands on the agenda. The manual
leaves the order of steps that are due at one time open; this is one of the orders it allows (log 8). What the outside does, and what a
choice is needed for, comes from the agenda alone. -/

namespace Sys2Proof.Machine

open Sys2Proof

/-- Whether an event changes the state now. -/
def changes (s : State) (e : Instr) : Bool :=
  match exec e s with
  | .next t => t != s
  | _ => false

/-- The event that can end a unit's wait. -/
def wakeEvent (u : UnitRef) (w : Waiting) : List Instr :=
  match w.obj with
  | .barrier _ _ => [.barwaitRelease u]
  | .tokens _ _ | .tokenLeft _ _ => [.tokenWaitRelease u]
  | .tokenRoom _ => [.tokenWaitRelease u, .commandAccept u]
  | .queueEmpty _ _ => [.opopFill u]
  | .backoff _ => [.txBackoffExpire u]
  | .line _ => [.commitTokenGrant u]
  | .serial => [.commitTokenGrant u, .serialCommitGrant]
  | .spec _ => [.specIterationGrant u]
  | .accumulator _ | .sequencer => [.accumulatorRelease u]
  | .queueFull _ | .pool _ | .deque | .launchQueue _ | .place | .attestPlace | .partner _ | .sent _ | .places => [.commandAccept u]
  | .join _ | .group _ | .farAck | .windowQueue | .scoreboard | .unbind _ => []

/-- The unit by which a late access is named: a group of its crew, or that crew alone once it has ended, or an access thread. -/
def Pend.issuerNow (p : Pend) (s : State) : Option UnitRef :=
  match p.crew, p.team with
  | some uid, _ => some (.crew uid (match (tget s.crews uid).bind (·.groups.head?) with | some g => lowLane g.mask | none => 0))
  | none, some t => some (.access t)
  | none, none => none

/-- Events inside crews: releases, results and the ends of waits. -/
def unitEvents (s : State) : List Instr :=
  let joins := (s.crews.map fun e => (List.range 8).filterMap fun j => if joinReady e.2 j then some (Instr.joinRelease e.1 j) else none).flatten
  let landed := ((s.crews.filterMap fun e => if e.2.results.any fun r => r.val.isSome then
        e.2.groups.head?.map fun g => UnitRef.crew e.1 (lowLane g.mask) else none)
      ++ (s.teams.filterMap fun e => match e.2.access with
        | some a => if a.results.any fun r => r.val.isSome then some (UnitRef.access e.1) else none
        | none => none)).eraseDups.map fun u => Instr.variableLatencyResult { unit := u, nth := 0 }
  let waits := ((allUnits s).map fun u => match waitingAt s u with | some w => wakeEvent u w | none => []).flatten
  let checks := (s.crews.map fun e => (List.range e.2.width).filterMap fun l => match e.2.lanes.getD l none with
    | some t => if t.tx.active && decide (t.tx.checkAt ≤ s.clock) then some (Instr.txPeriodicValidate e.1 l) else none
    | none => none).flatten
  joins ++ landed ++ waits ++ checks

/-- Events of engines, sequencers, decoders, windows and Hollyhock. -/
def engineEvents (s : State) : List Instr :=
  let cmds := (s.cmds.map fun e => [Instr.commandComplete { cmd := e.1, limit := 0 }, .engineFault e.1, .astreamPush e.1,
    .decodeJobComplete { cmd := e.1, limit := 0 }]).flatten
  let groups := s.freds.map fun f => Instr.fredGroupClose f.ctx f.grid f.group
  let runs := s.quarters.filterMap fun e => if e.2.run.isSome then some (Instr.sequencerStep e.1) else none
  cmds ++ [.decodeJobStart] ++ groups ++ runs ++ (if s.sec.attest.isEmpty then [] else [.attestService])
    ++ (if s.winq.isEmpty then [] else [.windowReadTransform, .windowWriteTransform])
    ++ (if s.far.isEmpty then [] else [.windowWriteAcknowledged])

/-- Events of lines, teams away, and fault domains. -/
def memoryEvents (s : State) : List Instr :=
  let moves := s.lines.filterMap fun e => match e.2.recent with
    | some (c, n) => if 8 ≤ n then some (Instr.lineMigrate (c / 8) e.1) else none
    | none => none
  let drops := s.lines.filterMap fun e => if e.2.rc = some 0 then some (Instr.rcDrop e.1) else none
  let asks := s.dir.persist.map fun p => Instr.persistentRequest p.1
  let transit := s.cores.filterMap fun e => if e.2.forward.isEmpty then none else some (Instr.forwardedRequest e.1)
  let diverted := (s.dies.map fun d => d.2.divert.filterMap fun e =>
    if e.2.queue.isEmpty then none else some (Instr.divertedOperation d.1 e.1)).flatten
  let logs := s.cores.filterMap fun e => match e.2.aebuf with
    | r :: _ => if r.opened + 4096 ≤ s.clock then some (Instr.aelogRecordWrite e.1) else none
    | [] => none
  let merges := s.dir.units.map fun u => Instr.trackingUnitMerge u.1
  let faults := s.domains.filterMap fun e => if e.2.pending.isEmpty then none else some (Instr.faultRecordWrite e.1)
  let handlers := s.domains.filterMap fun e => if e.2.handler.isSome then none else some (Instr.handlerStart e.1)
  let ports := (s.pairs.filter fun p => !s.links.peersUp.contains p.port).map fun p => Instr.linkRetrain true p.port false
  ports ++ moves ++ drops ++ asks ++ transit ++ diverted ++ logs ++ merges ++ faults ++ handlers

/-- Events of bins, deques, late accesses and issue. Cores perform what they have issued and issue in ascending order, after engines and what
comes from outside: of two writes of one cycle the higher core's comes last and survives (R141). -/
def coreEvents (s : State) : List Instr :=
  let qs := ((s.crews.map fun e => e.2.quarterId) ++ s.quarters.map (·.1)).eraseDups.filter fun q => decide (q < 512)
  let aps := ((s.teams.filterMap fun e => if e.2.access.isSome then some e.2.core else none)).eraseDups
  let bins := (s.quarters.map fun e => (List.range 16).filterMap fun b => if binDue s e.1 b || !e.2.waiting.isEmpty then some (Instr.binAgeLimit e.1 b) else none).flatten
  let records := s.cores.filterMap fun e => if e.2.deque.isEmpty then none else some (Instr.recordFile e.1)
  let hosts := (((s.grids.map fun e => e.2.hosts).flatten) ++ s.teams.map fun e => e.2.core).eraseDups
  let spilled := s.ctxs.any fun e => !e.2.spill.isEmpty
  let returns := if spilled then (List.range 128).map Instr.spillReturn else []
  let steals := if s.cores.any fun e => !e.2.deque.isEmpty then hosts.map Instr.steal else []
  let late := (s.pend.filterMap fun p => (p.issuerNow s).map fun u => (p.core, u)).eraseDups.map fun e =>
    (e.1, Instr.variableLatencyResult { unit := e.2, nth := 0 })
  let issue := qs.map (fun q => (q / 4, Instr.issueSelect q)) ++ aps.map fun c => (c, Instr.issueSelect (512 + c))
  let work := sortBy (fun a b => decide (a.1 ≤ b.1)) (late ++ issue)
  bins ++ records ++ returns ++ steals ++ qs.map Instr.playQuotaExpire ++ qs.map Instr.readyAgeRaise ++ work.map (·.2)

/-- Events of the global scheduler. -/
def gridEvents (s : State) : List Instr :=
  let rings := s.queues.filterMap fun e => if e.2.head = e.2.tail then none else some (Instr.launchEnqueue e.1)
  let waiting := s.queues.any fun e => !e.2.pending.isEmpty
  let heads := if waiting then (if s.clock % 4096 = 0 then [Instr.admission, .prereqPoll] else [Instr.admission]) else []
  let ends := s.teams.map (fun e => Instr.teamComplete e.1) ++ s.grids.map fun e => Instr.gridComplete e.1
  let moves := (s.teams.map fun e => match e.2.place with
    | .resident => []
    | .stopping none => [Instr.teamStop e.1]
    | .stopping (some _) => [Instr.teamMove e.1]
    | .absent _ _ | .returning _ _ _ _ => [Instr.teamResume e.1]).flatten
  let parked := s.ctxs.filterMap fun e => if e.2.shadow.isEmpty then none else some (Instr.spawnedThreadResume e.1)
  let places := (s.grids.filter fun e => decide (e.2.next < e.2.packet.teams)).map fun e => Instr.teamPlace e.1
  let takes := (s.grids.filter fun e => decide (e.2.next < e.2.packet.teams)).map fun e => Instr.coreVacate e.1
  (if s.package = .toS3 then [.s3Entry] else []) ++ ends ++ moves ++ parked ++ rings ++ heads ++ places ++ takes

/-- Probes that are due (R358). -/
def probeEvents (s : State) : List Instr :=
  let units := (allUnits s).filterMap fun u => match waitingAt s u with
    | some w => if w.probe ≤ s.clock then some (Instr.waitsForProbe (.unit u)) else none
    | none => none
  let launches := (s.queues.map fun e => e.2.pending.filterMap fun p =>
    if p.probe ≤ s.clock then some (Instr.waitsForProbe (.launch e.1 p.order)) else none).flatten
  let cmds := s.cmds.filterMap fun e => if e.2.probe ≤ s.clock then some (Instr.waitsForProbe (.command e.1)) else none
  units ++ launches ++ cmds

/-- Events of power: a core with work wakes; a core idle for 10 us is gated, and a die whose cores have been gated for 1 ms goes into retention
(R391). -/
def powerEvents (s : State) : List Instr :=
  let wakes := s.cores.filterMap fun e => if e.2.gated then some (Instr.coreWake e.1) else none
  let idle := if s.clock < 20000 then [] else
    ((List.range 128).filter fun c => !(coreAt s c).gated && decide (idleSince s c + 20000 ≤ s.clock)).map Instr.coreGate
  let quiet := if s.clock < 2000000 then [] else
    ((List.range 4).filter fun d => (dieAt s d).power != .c2).map Instr.dieRetention
  wakes ++ idle ++ quiet

/-- The device's next event: the first in this order that changes the state; none where the device only lets time pass. DESIGN CHOICE (log 38):
the device may fuse two groups of a crew that stand at one program counter, or not; no event does, so that they go on apart until a `JOIN`,
`REFORM` or `BARWAIT` fuses them (R16). -/
def nextEvent (s : State) : Option Instr :=
  (unitEvents s ++ memoryEvents s ++ engineEvents s ++ gridEvents s ++ coreEvents s ++ probeEvents s ++ powerEvents s).find? (changes s)

end Sys2Proof.Machine
end

