-- ==== Sys2Proof/Machine/Step.lean ====
section
/-! DEFINITION. The step: the selected unit's next instruction, or the next event, or one more cycle; and the state in which a given word is
the next instruction. -/

namespace Sys2Proof.Machine

open Sys2Proof

/-- One step. A selected unit fetches and executes an instruction; without one the first event of the agenda that does not wait for a held
line comes, else the device's own next event, else a cycle passes. -/
def step (s : State) : Host.Outcome State Fault Refusal :=
  match s.cur with
  | some u => (match fetchNext s u with
    | .idle s1 => .next s1
    | .fault s1 => .next s1
    | .instr i s1 => exec i s1)
  | none => match nextOutside s [] s.agenda with
    | some (e, r) => exec e { s with agenda := r }
    | none => match nextEvent s with
      | some e => exec e s
      | none => .next { s with clock := s.clock + 1 }

/-! ## A state that runs one given word -/

/-- A thread with every register zero. -/
def Thread.blank (tid : Nat) (entry : Addr) : Thread :=
  { tid, g := List.replicate 192 0, p := 0, entry, gen := 1, tx := Tx.fresh, short := [] }

/-- The address of the placed code: virtual and physical. -/
def placedAt : Nat := 0x20000000

/-- The placed code's segment. -/
def placedSegment : Segment :=
  { desc := 0x20010000, successor := 0, mapCount := 1, map := 0x20010040, retired := false, length := 65536, base := 0x20000000 }

/-- The segment descriptor's bytes (R82). -/
def placedDescriptor : List Byte :=
  toBytes 64 (placedAt * 2 ^ 64 + 65536 * 2 ^ 128 + 0x20010040 * 2 ^ 192 + 2 ^ 256)

/-- A kernel with every register, one queue in all 16 and one pool. -/
def placedKernel : Kernel :=
  { codeLen := 65536, access := 0, logsW := 0, logsR := 0, scratch := 65536, queues := 16, kregs := 48, regs := 192, width := 32
    pools := [65536] }

/-- The launch packet of the placed grid. -/
def placedPacket : Packet :=
  { queue := 0, coplace := false, width := 0, team := 32, gz := 1, gy := 1, gx := 1, pre := [0, 0, 0, 0], done := 0, zcb := 0
    args := 0, access := 0, entry := 0, kernel := 0, segment := 0x20010000, reserved := false, torn := false }

/-- The zone of the placed grid. -/
def placedZone : Zone :=
  { chain := [0x20010080], max := 128, min := 0, scratch := 2 ^ 32 - 1, regs := 2 ^ 32 - 1, shadow := 2 ^ 60, spill := 2 ^ 60, quota := 65535
    prio := 0, fdom := 0x20010100, key := 0 }

/-- The placed grid. -/
def placedGrid : Grid :=
  { ctx := 0, handle := 0, packet := placedPacket, kernel := placedKernel, segment := placedSegment, zones := [placedZone], next := 1
    hosts := [], pools := [0], specN := List.replicate 8 0, handles := none, primrose := false, order := 0, subject := 0, slane := 0
    stile := 0 }

/-- The placed group at the placed code. -/
def placedGroup (m : Mask) : Group :=
  { mask := m, pc := 0x20000000, wait := none, notBefore := 0, since := 0, issued := 0, inPlay := true, parked := 0, raised := false
    waitDone := false, served := 0, op := none }

/-- The placed access thread. -/
def placedAccess : Access :=
  { slot := 0, a := List.replicate 32 0, toks := List.replicate 8 Token.fresh, entry := 0x20000000, grp := placedGroup 1, short := []
    results := [], held := none }

/-- The placed team, on core 0. -/
def placedTeam (grid : Nat) : Team :=
  { ctx := 0, grid, idx := 0, core := 0, qb := 0, size := 32, alloc := 65536, place := .resident, scratch := [], poison := []
    access := some placedAccess, queues := List.replicate 16 { entries := [], producer := none }, ingress := [], image := none
    saved := [] }

/-- The placed crew, on quarter 0. -/
def placedCrew (grid team : Nat) : Crew :=
  { ctx := 0, grid, owner := .team team, core := 0, quarter := 0, num := 0, width := 32
    lanes := (List.range 32).map fun l => some (Thread.blank l 0x20000000)
    k := List.replicate 48 0, j := List.replicate 8 0, f := List.replicate 8 0, toks := List.replicate 8 Token.fresh
    groups := [placedGroup 0xFFFFFFFF], results := [], held := none }

/-- The placed context: one 512 MiB page over the placed code. -/
def placedCtx : Ctx :=
  { key := 0, root := 0x10000, sealed := false, owner := none, session := 0, meas := 0, regs := CtlRegs.reset, bindings := []
    copies := [{ core := 0, addr := 0x20010000, bytes := placedDescriptor }], spill := [], shadow := [], debug := .none
    perms := 0, challenges := [], ide := false, granted := 0 }

/-- The unit that executes a word: an access thread where only that can. -/
def placedIsAccess (bs : List Byte) : Bool :=
  match decode bs with
  | .instr _ _ .access => true
  | _ => false

/-- The state with an instruction stored at address 0x20000000 of context 0, and one team with a crew and an access thread standing there, one of
them selected: the next step fetches and runs it. -/
def State.withFetchWord (s : State) (nbits w : Nat) : State :=
  let bs := tableBytes nbits w
  let n := s.nums.uid
  let mem := cellsWrite (cellsWrite (cellsWrite s.mem 0x10000 (toBytes 8 0x20001)) 0x20008 (toBytes 8 0x2000001F)) placedAt bs
  { s with
    nums := { s.nums with uid := n + 3 }
    mem := mem
    ctxs := tset s.ctxs 0 placedCtx
    grids := tset s.grids n placedGrid
    teams := tset s.teams (n + 1) (placedTeam n)
    crews := tset s.crews (n + 2) (placedCrew n (n + 1))
    cores := tset s.cores 0 { coreAt s 0 with icache := [] }
    clusters := tset s.clusters 0 { clusterAt s 0 with icache := [] }
    cur := some (if placedIsAccess bs then .access (n + 1) else .crew (n + 2) 0) }

end Sys2Proof.Machine
end

