-- ==== Sys2Proof/Safety.lean ====
section
/-! DEFINITION. The terms in which the statements speak: when an instruction issues and runs to its own effect, the result that the
specification's formulas give each register-only instruction, written over the integers and apart from the meanings, and what it is for
a state to be well formed. -/

namespace Sys2Proof.Safety

open Sys2Proof Sys2Proof.Machine

/-! ## When an instruction issues and runs -/

/-- The issue in which an instruction runs to its own effect, for a state and an instruction whose decode checks pass (R67), whose WAIT is honoured
(R58), whose operands are there to read (R60, R61) and read without a parity error (R436), whose guard holds in some lane (R57), which waits
for no access still to be performed (R135), and which neither PERMS (R389) nor an open transaction (R214) turns away; none for any other. -/
def issueEx (s : State) (i : Instr) (c : Ctl) (ops : List Opnd) (extra : List Cause) (r : TxRule) : Option Ex :=
  match s.cur with
  | none => none
  | some u =>
    match bodyOf s u with
    | none => none
    | some b =>
      match groupOf b u with
      | none => none
      | some g =>
        let x := exOf s u b g i c
        let stallShort := (ctlOf s (ctxOf s u)).sctl.getLsbD 0 && shortMask s x c ops != 0#64
        if b.held.isNone && (badDecode s b c ops extra).isNone && (c.wait == 0#8 || g.waitDone)
            && !b.awaits g.mask (codesOf s b c ops) && (b.uniformUntil g.mask s.clock (codesOf s b c ops)).isNone
            && !stallShort && (parityAt s x c ops).isEmpty && x.exec != 0#64 && !barred s u i
            && (owed s u i (r == .runs)).isEmpty && (txGate s x r).isNone
        then some x else none

/-! ## What register-only instructions give, by the formulas of the specification -/

/-- A register-only instruction: its control fields, its operands, its latency (R60), its destination, and what each executing lane
receives. -/
structure Result (α : Type) where
  ctl : Ctl
  ops : List Opnd
  lat : Nat
  d   : Spec
  val : Ex → Nat → α

/-- An integer clamped to 32 bits, signed (`sat_s32` of R89). -/
def sat32 (z : Int) : W32 := BitVec.ofInt 32 (max (-2147483648) (min 2147483647 z))
/-- An integer clamped to 64 bits, signed (`sat_s64` of R89). -/
def sat64 (z : Int) : W64 := BitVec.ofInt 64 (max (-9223372036854775808) (min 9223372036854775807 z))
/-- A word as a signed or an unsigned integer. -/
def asInt (sg : Bool) (a : W32) : Int := if sg then a.toInt else (a.toNat : Int)

def addRule (sat : Bool) (a b : W32) : W32 := if sat then sat32 (a.toInt + b.toInt) else wrap32 (a.toNat + b.toNat : Nat)
def subRule (sat : Bool) (a b : W32) : W32 := if sat then sat32 (a.toInt - b.toInt) else wrap32 ((a.toNat : Int) - b.toNat)
def mulRule (a b : W32) : W32 := wrap32 (a.toNat * b.toNat : Nat)
def mulHighRule (sg : Bool) (a b : W32) : W32 := wrap32 (asInt sg a * asInt sg b / 4294967296)
def minRule (sg : Bool) (a b : W32) : W32 := if asInt sg a ≤ asInt sg b then a else b
def maxRule (sg : Bool) (a b : W32) : W32 := if asInt sg a ≤ asInt sg b then b else a
def absRule (sat : Bool) (a : W32) : W32 := if sat then sat32 a.toInt.natAbs else wrap32 a.toInt.natAbs
def negRule (sat : Bool) (a : W32) : W32 := if sat then sat32 (-a.toInt) else wrap32 (-a.toInt)
/-- R96, as the union of the table's minterms. -/
def tableRule (ft : BitVec 8) (a b c : W32) : W32 :=
  let pick : Bool → W32 → W32 := fun yes v => if yes then v else ~~~v
  (List.range 8).foldl (fun r n => if ft.getLsbD n then
    r ||| (pick (n % 2 == 1) a &&& pick (n / 2 % 2 == 1) b &&& pick (n / 4 == 1) c) else r) 0
/-- A shift amount (R97). -/
def amount (wrap : Bool) (b : W32) : Nat := if wrap then b.toNat % 32 else b.toNat
def shlRule (wrap : Bool) (a b : W32) : W32 :=
  if 32 ≤ amount wrap b then 0 else wrap32 (a.toNat * 2 ^ amount wrap b : Nat)
def shrRule (wrap : Bool) (a b : W32) : W32 :=
  if 32 ≤ amount wrap b then 0 else wrap32 (a.toNat / 2 ^ amount wrap b : Nat)
def sarRule (wrap : Bool) (a b : W32) : W32 :=
  if 32 ≤ amount wrap b then (if a.toInt < 0 then 0xFFFFFFFF#32 else 0) else wrap32 (a.toInt / 2 ^ amount wrap b)
def rotRule (right : Bool) (a b : W32) : W32 :=
  let n := if right then (32 - b.toNat % 32) % 32 else b.toNat % 32
  wrap32 (a.toNat * 2 ^ n + a.toNat / 2 ^ (32 - n) : Nat)
def funnelRule (right : Bool) (a b c : W32) : W32 :=
  let v := a.toNat * 4294967296 + b.toNat
  if right then wrap32 (v / 2 ^ (c.toNat % 32) : Nat) else wrap32 (v * 2 ^ (c.toNat % 32) / 4294967296 : Nat)
def onesRule (a : W32) : W32 := wrap32 (((List.range 32).map fun i => a.toNat / 2 ^ i % 2).sum : Nat)
def leadingRule (a : W32) : W32 := if a = 0 then 32 else wrap32 (31 - Nat.log2 a.toNat : Nat)
def reverseRule (a : W32) : W32 := wrap32 (((List.range 32).map fun i => a.toNat / 2 ^ i % 2 * 2 ^ (31 - i)).sum : Nat)
/-- R100: the field of the sign-extended, or zero-extended, word. -/
def extractRule (sg : Bool) (a b c : W32) : W32 :=
  let pos := b.toNat % 256
  let len := min (c.toNat % 256) 32
  if sg then (if len = 0 then 0 else wrap32 (Int.bmod (a.toInt / 2 ^ pos) (2 ^ len)))
  else wrap32 (a.toNat / 2 ^ pos % 2 ^ len : Nat)
def insertRule (a b c : W32) : W32 :=
  let pos := c.toNat % 256
  let mask : W32 := BitVec.ofNat 32 ((2 ^ min (c.toNat / 256 % 256) 32 - 1) * 2 ^ pos)
  (a &&& ~~~mask) ||| ((b <<< pos) &&& mask)
/-- R107. -/
def convertRule (op : CvtiOp) (a : W32) : W32 :=
  let clamp : Int → Int → Int → W32 := fun lo hi z => wrap32 (if z < lo then lo else if hi < z then hi else z)
  match op with
  | .s32s8 => wrap32 (Int.bmod a.toNat 256)
  | .b32b8 => wrap32 (a.toNat % 256 : Nat)
  | .s32s16 => wrap32 (Int.bmod a.toNat 65536)
  | .b32b16 => wrap32 (a.toNat % 65536 : Nat)
  | .s8s32 => clamp (-128) 127 a.toInt
  | .b8s32 => clamp 0 255 a.toInt
  | .s16s32 => clamp (-32768) 32767 a.toInt
  | .b16s32 => clamp 0 65535 a.toInt
  | .s32b32 => clamp 0 2147483647 a.toNat
  | .b32s32 => if a.toInt < 0 then 0 else a
  | .s4s32 => clamp (-8) 7 a.toInt
  | .s32s4 => wrap32 (Int.bmod a.toNat 16)

/-- A register-only instruction with three, two or one register sources, or with an immediate for B. -/
def op3 {α : Type} (c : Ctl) (lat : Nat) (d a b x : Spec) (f : W32 → W32 → W32 → α) : Result α :=
  { ctl := c, ops := [dstV d, srcV a, srcV b, srcV x], lat, d, val := fun e l => f (e.v a l) (e.v b l) (e.v x l) }
def op2 {α : Type} (c : Ctl) (lat : Nat) (d a b : Spec) (f : W32 → W32 → α) : Result α :=
  { ctl := c, ops := [dstV d, srcV a, srcV b], lat, d, val := fun e l => f (e.v a l) (e.v b l) }
def op1 {α : Type} (c : Ctl) (lat : Nat) (d a : Spec) (f : W32 → α) : Result α :=
  { ctl := c, ops := [dstV d, srcV a], lat, d, val := fun e l => f (e.v a l) }

/-- The instructions of groups 0x0 to 0x2 whose only effect is a 32-bit result of fixed latency (R90 to R107). -/
def word32 : Instr → Option (Result W32)
  | .iadd c sat d a b => some (op2 c 4 d a b (addRule sat))
  | .iaddImm c sat d a imm => some (op1 c 4 d a fun v => addRule sat v imm)
  | .isub c sat d a b => some (op2 c 4 d a b (subRule sat))
  | .isubImm c sat d a imm => some (op1 c 4 d a fun v => subRule sat v imm)
  | .imul c d a b => some (op2 c 6 d a b mulRule)
  | .imulImm c d a imm => some (op1 c 6 d a fun v => mulRule v imm)
  | .imulh c sg d a b => some (op2 c 6 d a b (mulHighRule sg))
  | .imulhImm c sg d a imm => some (op1 c 6 d a fun v => mulHighRule sg v imm)
  | .imad c d a b x => some (op3 c 6 d a b x fun u v w => wrap32 (u.toNat * v.toNat + w.toNat : Nat))
  | .imin c sg d a b => some (op2 c 4 d a b (minRule sg))
  | .iminImm c sg d a imm => some (op1 c 4 d a fun v => minRule sg v imm)
  | .imax c sg d a b => some (op2 c 4 d a b (maxRule sg))
  | .imaxImm c sg d a imm => some (op1 c 4 d a fun v => maxRule sg v imm)
  | .iabs c sat d a => some (op1 c 4 d a (absRule sat))
  | .ineg c sat d a => some (op1 c 4 d a (negRule sat))
  | .ltab c d a b x ft => some (op3 c 4 d a b x (tableRule ft))
  | .shl c wrap d a b => some (op2 c 4 d a b (shlRule wrap))
  | .shlImm c wrap d a imm => some (op1 c 4 d a fun v => shlRule wrap v imm)
  | .shr c wrap d a b => some (op2 c 4 d a b (shrRule wrap))
  | .shrImm c wrap d a imm => some (op1 c 4 d a fun v => shrRule wrap v imm)
  | .sar c wrap d a b => some (op2 c 4 d a b (sarRule wrap))
  | .sarImm c wrap d a imm => some (op1 c 4 d a fun v => sarRule wrap v imm)
  | .rot c right d a b => some (op2 c 4 d a b (rotRule right))
  | .rotImm c right d a imm => some (op1 c 4 d a fun v => rotRule right v imm)
  | .fshf c right d a b x => some (op3 c 4 d a b x (funnelRule right))
  | .popc c d a => some (op1 c 4 d a onesRule)
  | .clz c d a => some (op1 c 4 d a leadingRule)
  | .brev c d a => some (op1 c 4 d a reverseRule)
  | .bfx c sg d a b x => some (op3 c 4 d a b x (extractRule sg))
  | .bfi c d a b x => some (op3 c 4 d a b x insertRule)
  | .mov c false d a => some (op1 c 4 d a id)
  | .movi c d imm => some { ctl := c, ops := [dstV d], lat := 4, d, val := fun _ _ => imm }
  | .movk c d a b => some
    { ctl := c, ops := [{ cls := .kd, code := d, rd := false }, srcV a, srcV b], lat := 4, d,
      val := fun e _ => if e.exec.toNat.testBit (e.v b e.low).toNat then e.v a (e.v b e.low).toNat else 0 }
  | .sel c false d a b p => some
    { ctl := c, ops := [dstV d, srcV a, srcV b, srcP p], lat := 4, d, val := fun e l => bif e.p p l then e.v a l else e.v b l }
  | .cvti c op d a => some (op1 c 4 d a (convertRule op))
  | _ => none

/-- The instructions of groups 0x0 to 0x2 whose only effect is a 64-bit result of fixed latency (R90, R91, R95, R102, R103, R105). -/
def word64 : Instr → Option (Result W64)
  | .imadw c sg d a b x => some
    { ctl := c, ops := [dstW d, srcV a, srcV b, srcW x], lat := 6, d,
      val := fun e l => wrap64 (asInt sg (e.v a l) * asInt sg (e.v b l) + (e.w x l).toNat) }
  | .lea c sh sx d a b => some
    { ctl := c, ops := [dstW d, srcW a, srcV b], lat := 4, d,
      val := fun e l => wrap64 ((e.w a l).toNat + asInt sx (e.v b l) * 2 ^ sh.toNat) }
  | .iadd64 c sat d a b => some
    { ctl := c, ops := [dstW d, srcW a, srcW b], lat := 4, d, val := fun e l =>
        if sat then sat64 ((e.w a l).toInt + (e.w b l).toInt) else wrap64 ((e.w a l).toNat + (e.w b l).toNat : Nat) }
  | .iadd64Imm c sat d a imm => some
    { ctl := c, ops := [dstW d, srcW a], lat := 4, d, val := fun e l =>
        if sat then sat64 ((e.w a l).toInt + imm.toInt) else wrap64 ((e.w a l).toInt + imm.toInt) }
  | .mov c true d a => some { ctl := c, ops := [dstW d, srcW a], lat := 4, d, val := fun e l => e.w a l }
  | .moviB64 c d lo hi => some
    { ctl := c, ops := [dstW d], lat := 4, d, val := fun _ _ => BitVec.ofNat 64 (lo.toNat + hi.toNat * 4294967296) }
  | .sel c true d a b p => some
    { ctl := c, ops := [dstW d, srcW a, srcW b, srcP p], lat := 4, d, val := fun e l => bif e.p p l then e.w a l else e.w b l }
  | _ => none

/-- R94, over the integers. -/
def compareRule (cmp : ICmp) (sg : Bool) (a b : W32) : Bool :=
  match cmp with
  | .eq => decide (asInt sg a = asInt sg b)
  | .ne => decide (asInt sg a ≠ asInt sg b)
  | .lt => decide (asInt sg a < asInt sg b)
  | .le => decide (asInt sg a ≤ asInt sg b)
  | .gt => decide (asInt sg b < asInt sg a)
  | .ge => decide (asInt sg b ≤ asInt sg a)

/-- The instructions whose only effect is a predicate of fixed latency (R94, R101, R252, R253). -/
def predicate : Instr → Option (Result Bool)
  | .iset c cmp sg d a b => some
    { ctl := c, ops := [dstP d, srcV a, srcV b], lat := 4, d, val := fun e l => compareRule cmp sg (e.v a l) (e.v b l) }
  | .isetImm c cmp sg d a imm => some
    { ctl := c, ops := [dstP d, srcV a], lat := 4, d, val := fun e l => compareRule cmp sg (e.v a l) imm }
  | .ptab c d a b x ft => some
    { ctl := c, ops := [dstP d, srcP a, srcP b, srcP x], lat := 4, d, val := fun e l =>
        ft.toNat / 2 ^ ((e.p a l).toNat + 2 * (e.p b l).toNat + 4 * (e.p x l).toNat) % 2 == 1 }
  | .fset c cmp d a b => some
    { ctl := c, ops := [dstP d, srcV a, srcV b], lat := 5, d, val := fun e l => fCompare fp32 cmp (e.v a l).toNat (e.v b l).toNat }
  | .fsetImm c cmp d a imm => some
    { ctl := c, ops := [dstP d, srcV a], lat := 5, d, val := fun e l => fCompare fp32 cmp (e.v a l).toNat imm.toNat }
  | .fclass c d a b => some
    { ctl := c, ops := [dstP d, srcV a, srcV b], lat := 5, d, val := fun e l => (e.v b l).getLsbD (fClass fp32 (e.v a l).toNat) }
  | .fclassImm c d a imm => some
    { ctl := c, ops := [dstP d, srcV a], lat := 5, d, val := fun e l => imm.getLsbD (fClass fp32 (e.v a l).toNat) }
  | _ => none

/-- The floating instructions whose only effect is a 32-bit result of fixed latency without events (R251, R254, R257, R258). -/
def floatQuiet : Instr → Option (Result W32)
  | .fmin c nan d a b => some (op2 c 5 d a b (fminmaxVal false nan))
  | .fminImm c nan d a imm => some (op1 c 5 d a fun v => fminmaxVal false nan v imm)
  | .fmax c nan d a b => some (op2 c 5 d a b (fminmaxVal true nan))
  | .fmaxImm c nan d a imm => some (op1 c 5 d a fun v => fminmaxVal true nan v imm)
  | .frnd c rnd d a => some (op1 c 5 d a fun v => BitVec.ofNat 32 (fRound rnd v.toNat))
  | .hmin2 c bf nan d a b => some (op2 c 5 d a b (hMinMax2 bf false nan))
  | .hmin2Imm c bf nan d a imm => some (op1 c 5 d a fun v => hMinMax2 bf false nan v imm)
  | .hmax2 c bf nan d a b => some (op2 c 5 d a b (hMinMax2 bf true nan))
  | .hmax2Imm c bf nan d a imm => some (op1 c 5 d a fun v => hMinMax2 bf true nan v imm)
  | .hset2 c cmp bf d a b => some (op2 c 5 d a b (hSet2 bf cmp))
  | .hset2Imm c cmp bf d a imm => some (op1 c 5 d a fun v => hSet2 bf cmp v imm)
  | _ => none

/-- The floating instructions whose only effects are a 32-bit result of fixed latency and events (R250, R255, R256). -/
def floatLoud : Instr → Option (Result (W32 × List Arith))
  | .fadd c rnd sat d a b => some (op2 c 5 d a b (faddVal rnd sat))
  | .faddImm c rnd sat d a imm => some (op1 c 5 d a fun v => faddVal rnd sat v imm)
  | .fmul c rnd sat d a b => some (op2 c 5 d a b (fmulVal rnd sat))
  | .fmulImm c rnd sat d a imm => some (op1 c 5 d a fun v => fmulVal rnd sat v imm)
  | .ffma c rnd sat d a b x => some (op3 c 5 d a b x (ffmaVal rnd sat))
  | .hadd2 c bf rnd sat d a b => some (op2 c 5 d a b (hAdd2 bf rnd sat))
  | .hadd2Imm c bf rnd sat d a imm => some (op1 c 5 d a fun v => hAdd2 bf rnd sat v imm)
  | .hmul2 c bf rnd sat d a b => some (op2 c 5 d a b (hMul2 bf rnd sat))
  | .hmul2Imm c bf rnd sat d a imm => some (op1 c 5 d a fun v => hMul2 bf rnd sat v imm)
  | .hfma2 c bf rnd sat d a b x => some (op3 c 5 d a b x (hFma2 bf rnd sat))
  | _ => none

/-- R92: quotient and remainder over the integers, with the cause met. -/
def divideRule (sg : Bool) (a b : W32) : Int × Int × List Arith :=
  let x := asInt sg a
  let y := asInt sg b
  if y = 0 then (-1, x, [.divz])
  else if sg ∧ x = -2147483648 ∧ y = -1 then (-2147483648, 0, [.divovf])
  else (x.tdiv y, x - x.tdiv y * y, [])
def quotientRule (sg : Bool) (a b : W32) : W32 × List Arith :=
  (wrap32 (divideRule sg a b).1, (divideRule sg a b).2.2)
def remainderRule (sg : Bool) (a b : W32) : W32 × List Arith :=
  (wrap32 (divideRule sg a b).2.1, (divideRule sg a b).2.2)

/-- The instructions whose only effects are a 32-bit result of variable latency and events (R92, R259 to R262); the latency is not
used. -/
def lateLoud : Instr → Option (Result (W32 × List Arith))
  | .idiv c sg d a b => some (op2 c 0 d a b (quotientRule sg))
  | .idivImm c sg d a imm => some (op1 c 0 d a fun v => quotientRule sg v imm)
  | .irem c sg d a b => some (op2 c 0 d a b (remainderRule sg))
  | .iremImm c sg d a imm => some (op1 c 0 d a fun v => remainderRule sg v imm)
  | .rcp c d a => some (op1 c 0 d a (sfuVal .rcp))
  | .rsq c d a => some (op1 c 0 d a (sfuVal .rsq))
  | .sqrt c d a => some (op1 c 0 d a fun v => oneEvent (fSqrt v.toNat))
  | .exp2 c d a => some (op1 c 0 d a (sfuVal .exp2))
  | .log2 c d a => some (op1 c 0 d a (sfuVal .log2))
  | .fsin c d a => some (op1 c 0 d a (sfuVal .sin))
  | .fcos c d a => some (op1 c 0 d a (sfuVal .cos))
  | .tanh c d a => some (op1 c 0 d a (sfuVal .tanh))
  | .fdiv c rnd d a b => some (op2 c 0 d a b fun u v => oneEvent (fDiv rnd u.toNat v.toNat))
  | _ => none

/-! ## Floating values and results, by the formulas of the specification (R233 to R264)

Exact values are rationals here, so that each operation is what its rule says: the exact result, rounded once. -/

/-- The value of a floating code, or an exact result: a NaN, an infinity of a sign, or a number with the sign that a zero of it has. -/
inductive Val where
  | nan
  | inf (neg : Bool)
  | num (x : ℚ) (neg : Bool)
  deriving DecidableEq

/-- The fields of a code: sign, exponent, fraction (R233). -/
def signOf (f : FloatFmt) (c : Nat) : Bool := c / 2 ^ (f.eb + f.mb) % 2 == 1
def expOf (f : FloatFmt) (c : Nat) : Nat := c / 2 ^ f.mb % 2 ^ f.eb
def fracOf (f : FloatFmt) (c : Nat) : Nat := c % 2 ^ f.mb
/-- The NaN codes and the infinities of the table of R233. -/
def nanAt (f : FloatFmt) (c : Nat) : Bool :=
  expOf f c == 2 ^ f.eb - 1 && match f.sp with | .ieee => fracOf f c != 0 | .nanOnly => fracOf f c == 2 ^ f.mb - 1 | .finite => false
def infAt (f : FloatFmt) (c : Nat) : Bool := f.sp == .ieee && expOf f c == 2 ^ f.eb - 1 && fracOf f c == 0
/-- The number that R233's formula gives a code, zero, subnormal or normal. -/
def numOf (f : FloatFmt) (c : Nat) : ℚ :=
  let m : ℚ := if expOf f c = 0 then 2 ^ (1 - (f.bias : ℤ)) * (fracOf f c / 2 ^ f.mb)
    else 2 ^ ((expOf f c : ℤ) - f.bias) * (1 + fracOf f c / 2 ^ f.mb)
  if signOf f c then -m else m
def valOf (f : FloatFmt) (c : Nat) : Val :=
  if nanAt f c then .nan else if infAt f c then .inf (signOf f c) else .num (numOf f c) (signOf f c)
/-- A magnitude's code with a sign. -/
def codeWith (f : FloatFmt) (neg : Bool) (m : Nat) : Nat := (if neg then 2 ^ (f.eb + f.mb) else 0) + m
/-- The code of a magnitude that the format has (R233). -/
def codeOf (f : FloatFmt) (m : ℚ) : Nat :=
  if m = 0 then 0
  else
    let e := max (Int.log 2 m) (1 - (f.bias : ℤ))
    (e + f.bias - 1).toNat * 2 ^ f.mb + ⌊m / 2 ^ (e - f.mb)⌋.toNat

/-- Of two neighbours, k and k + 1 steps from zero, whether an exact magnitude goes to the upper one; `d` is what it has above the lower one, in
steps (R237). -/
def goesUp (rnd : Rnd) (neg : Bool) (draw : Nat) (k : ℤ) (d : ℚ) : Bool :=
  if d = 0 then false
  else match rnd with
    | .rne => if d = 1 / 2 then k % 2 == 1 else decide (1 / 2 < d)
    | .rz => false
    | .ru => !neg
    | .rd => neg
    | .sr => decide ((draw : ℤ) < ⌊d * 2 ^ 16⌋)
/-- The magnitude that an overflow becomes (R237). -/
def overflowRule (f : FloatFmt) (neg : Bool) (rnd : Rnd) (sat : Bool) : Nat :=
  let past := match f.sp with | .ieee => f.infCode | .nanOnly => f.nanCode | .finite => f.maxCode
  if sat || rnd == .rz || (rnd == .ru && neg) || (rnd == .rd && !neg) then f.maxCode else past
/-- `round` of R237: the code, and whether a finite value overflowed. -/
def Val.round (f : FloatFmt) (rnd : Rnd) (sat : Bool) (draw : Nat) : Val → Nat × Bool
  | .nan => (f.nanCode, false)
  | .inf neg => (codeWith f neg (if sat then f.maxCode else
      match f.sp with | .ieee => f.infCode | .nanOnly => f.nanCode | .finite => f.maxCode), false)
  | .num x neg =>
    if x = 0 then (codeWith f neg 0, false)
    else
      let q : ℚ := 2 ^ (max (Int.log 2 |x|) (1 - (f.bias : ℤ)) - f.mb)
      let k := ⌊|x| / q⌋
      let m : ℚ := (k + if goesUp rnd (decide (x < 0)) draw k (|x| / q - k) then 1 else 0) * q
      if numOf f f.maxCode < m then (codeWith f (decide (x < 0)) (overflowRule f (decide (x < 0)) rnd sat), true)
      else (codeWith f (decide (x < 0)) (codeOf f m), false)

/-- The exact results of R250 with the signs of R248; none where the operation is invalid. -/
def addVals (rnd : Rnd) : Val → Val → Option Val
  | .nan, _ | _, .nan => some .nan
  | .inf s, .inf t => if s = t then some (.inf s) else none
  | .inf s, .num _ _ | .num _ _, .inf s => some (.inf s)
  | .num x s, .num y t =>
    if x + y = 0 then some (.num 0 (if x = 0 ∧ s = t then s else rnd == .rd)) else some (.num (x + y) (decide (x + y < 0)))
def mulVals : Val → Val → Option Val
  | .nan, _ | _, .nan => some .nan
  | .inf s, .inf t => some (.inf (s ^^ t))
  | .inf s, .num x t | .num x t, .inf s => if x = 0 then none else some (.inf (s ^^ t))
  | .num x s, .num y t => some (.num (x * y) (s ^^ t))
/-- The result of an operation and its event (R248, R249). -/
def outcome (f : FloatFmt) (rnd : Rnd) : Option Val → Nat × Option Arith
  | none => (f.nanCode, some .invalid)
  | some v => ((v.round f rnd false 0).1, if (v.round f rnd false 0).2 then some .overflow else none)
def addOut (f : FloatFmt) (rnd : Rnd) (a b : Nat) : Nat × Option Arith := outcome f rnd (addVals rnd (valOf f a) (valOf f b))
def mulOut (f : FloatFmt) (rnd : Rnd) (a b : Nat) : Nat × Option Arith := outcome f rnd (mulVals (valOf f a) (valOf f b))
def fmaOut (f : FloatFmt) (rnd : Rnd) (a b c : Nat) : Nat × Option Arith :=
  if nanAt f c then (f.nanCode, none)
  else outcome f rnd ((mulVals (valOf f a) (valOf f b)).bind fun p => addVals rnd p (valOf f c))
/-- R259: the quotient. -/
def divOut (rnd : Rnd) (a b : Nat) : Nat × Option Arith :=
  match valOf fp32 a, valOf fp32 b with
  | .nan, _ | _, .nan => (0x7FC00000, none)
  | .inf _, .inf _ => (0x7FC00000, some .invalid)
  | .inf s, .num _ t => (codeWith fp32 (s ^^ t) 0x7F800000, none)
  | .num _ s, .inf t => (codeWith fp32 (s ^^ t) 0, none)
  | .num x s, .num y t =>
    if y = 0 then (if x = 0 then (0x7FC00000, some .invalid) else (codeWith fp32 (s ^^ t) 0x7F800000, some .fdivz))
    else outcome fp32 rnd (some (.num (x / y) (s ^^ t)))
/-- The clamp of `.sat` (R250): to [+0, 1.0], a NaN to +0. -/
def unitClamp (f : FloatFmt) (sat : Bool) (c : Nat) : Nat :=
  if !sat then c
  else match valOf f c with
    | .nan => 0
    | .inf neg => if neg then 0 else f.bias * 2 ^ f.mb
    | .num x _ => if x ≤ 0 then 0 else if 1 < x then f.bias * 2 ^ f.mb else c
/-- An FP32 result with its event. -/
def word (sat : Bool) (r : Nat × Option Arith) : W32 × List Arith := (BitVec.ofNat 32 (unitClamp fp32 sat r.1), r.2.toList)
/-- A subnormal, or a zero, as a zero of its sign (R240). -/
def flushed (f : FloatFmt) (c : Nat) : Nat := if expOf f c = 0 then codeWith f (signOf f c) 0 else c
/-- A packed operation: each half for itself, with flushed operands and result (R255). -/
def halves (f : FloatFmt) (sat : Bool) (op : (W32 → Nat) → Nat × Option Arith) : W32 × List Arith :=
  let lo := op fun w => flushed f (w.extractLsb' 0 16).toNat
  let hi := op fun w => flushed f (w.extractLsb' 16 16).toNat
  (BitVec.ofNat 16 (unitClamp f sat (flushed f hi.1)) ++ BitVec.ofNat 16 (unitClamp f sat (flushed f lo.1)), lo.2.toList ++ hi.2.toList)

/-- The order of R251 on codes that are not NaN: by value, -0 below +0. An infinity's fields give a number above every finite one. -/
def below (f : FloatFmt) (a b : Nat) : Bool :=
  decide (numOf f a < numOf f b) || (decide (numOf f a = numOf f b) && signOf f a && !signOf f b)
/-- R251. -/
def lesser (f : FloatFmt) (greater nan : Bool) (a b : Nat) : Nat :=
  if nanAt f a && nanAt f b || nan && (nanAt f a || nanAt f b) then f.nanCode
  else if nanAt f a then b else if nanAt f b then a
  else if (if greater then below f a b else below f b a) then b else a
/-- R252. -/
def compares (f : FloatFmt) (cmp : FCmp) (a b : Nat) : Bool :=
  let un := nanAt f a || nanAt f b
  match cmp with
  | .eq => !un && decide (numOf f a = numOf f b)
  | .ne => un || decide (numOf f a ≠ numOf f b)
  | .lt => !un && decide (numOf f a < numOf f b)
  | .le => !un && decide (numOf f a ≤ numOf f b)
  | .gt => !un && decide (numOf f b < numOf f a)
  | .ge => !un && decide (numOf f b ≤ numOf f a)
  | .un => un
  | .ord => !un
/-- R253: the classes in their order, the first that fits. -/
def classOf (f : FloatFmt) (c : Nat) : Nat :=
  if nanAt f c then 8 else if infAt f c then (if signOf f c then 0 else 7)
  else if expOf f c ≠ 0 then (if signOf f c then 1 else 6)
  else if fracOf f c ≠ 0 then (if signOf f c then 2 else 5) else (if signOf f c then 3 else 4)
/-- A number rounded to an integer by the mode (R243, R254). -/
def nearInt (rnd : Rnd) (draw : Nat) (x : ℚ) : ℤ :=
  let k := ⌊|x|⌋
  let m := k + if goesUp rnd (decide (x < 0)) draw k (|x| - k) then 1 else 0
  if x < 0 then -m else m
/-- R254. -/
def integral (rnd : Rnd) (a : Nat) : Nat :=
  match valOf fp32 a with
  | .nan => 0x7FC00000
  | .inf _ => a
  | .num x neg => if x = 0 ∨ 2 ^ 23 ≤ |x| then a else codeWith fp32 neg (codeOf fp32 |(nearInt rnd 0 x : ℚ)|)

/-- The special operands of R259 and R261, and the bounds of R260 beyond which the result is fixed: the code and the event; none where R260
bounds the result. -/
def specialCase (fn : Sfu) (a : Nat) : Option (Nat × Option Arith) :=
  match fn, valOf fp32 a with
  | _, .nan => some (0x7FC00000, none)
  | .rcp, .inf s => some (codeWith fp32 s 0, none)
  | .rcp, .num x s => if x = 0 then some (codeWith fp32 s 0x7F800000, some .fdivz) else none
  | .rsq, .inf s => some (if s then (0x7FC00000, some .invalid) else (0, none))
  | .rsq, .num x s =>
    if x = 0 then some (codeWith fp32 s 0x7F800000, some .fdivz) else if x < 0 then some (0x7FC00000, some .invalid) else none
  | .exp2, .inf s => some (if s then 0 else 0x7F800000, none)
  | .exp2, .num x _ =>
    if x = 0 then some (0x3F800000, none) else if 128 ≤ x then some (0x7F800000, some .overflow)
    else if x < -150 then some (0, none) else none
  | .log2, .inf s => some (if s then (0x7FC00000, some .invalid) else (0x7F800000, none))
  | .log2, .num x _ =>
    if x = 0 then some (0xFF800000, some .fdivz) else if x < 0 then some (0x7FC00000, some .invalid) else none
  | .sin, .inf _ | .cos, .inf _ => some (0x7FC00000, some .invalid)
  | .sin, .num x _ => if x = 0 then some (a, none) else none
  | .cos, .num x _ => if x = 0 then some (0x3F800000, none) else none
  | .tanh, .inf s => some (codeWith fp32 s 0x3F800000, none)
  | .tanh, .num x s => if x = 0 then some (a, none) else if 10 ≤ |x| then some (codeWith fp32 s 0x3F800000, none) else none

/-- The exact value of a conversion's source (R232, R234, R263). -/
def sourceOf (src : Fmt) (c : Nat) : Val :=
  if src.isInt then
    let z : ℤ := Int.bmod (c : ℤ) (2 ^ src.bits)
    .num z (decide (z < 0))
  else if src = .e8m0 then (if c % 256 = 255 then .nan else .num (2 ^ ((c % 256 : ℕ) - 127 : ℤ)) false)
  else valOf (fltOf src) (c % 2 ^ src.bits)
/-- R243: into an integer of so many bits. -/
def intoInt (rnd : Rnd) (draw bits : Nat) : Val → ℤ × Option Arith
  | .nan => (0, some .cvtSpecial)
  | .inf neg => (if neg then -2 ^ (bits - 1) else 2 ^ (bits - 1) - 1, some .cvtSpecial)
  | .num x _ =>
    let z := nearInt rnd draw x
    if z < -2 ^ (bits - 1) then (-2 ^ (bits - 1), some .overflow)
    else if 2 ^ (bits - 1) - 1 < z then (2 ^ (bits - 1) - 1, some .overflow) else (z, none)
/-- R243: into E8M0. -/
def intoScale (rnd : Rnd) : Val → Nat × Option Arith
  | .num x _ =>
    if x ≤ 0 then (255, some .cvtSpecial)
    else
      let k := (if rnd = .ru then Int.clog 2 x else Int.log 2 x) + 127
      if k < 0 then (0, some .overflow) else if 254 < k then (254, some .overflow) else (k.toNat, none)
  | _ => (255, some .cvtSpecial)
/-- R237, R240: into a floating format. -/
def intoFloat (dst : Fmt) (widening : Bool) (rnd : Rnd) (sat : Bool) (draw : Nat) (v : Val) : Nat × Option Arith :=
  let f := fltOf dst
  let r := v.round f rnd (sat && !(widening && (match v with | .inf _ => true | _ => false))) draw
  match v with
  | .num _ _ => (if !widening && (dst == .fp16 || dst == .bf16) then flushed f r.1 else r.1, if r.2 then some .overflow else none)
  | _ => (r.1, if f.sp == .ieee then none else some .cvtSpecial)
/-- R263, R264: the destination's code at its own width, and the event. -/
def converted (src dst : Fmt) (rnd : Rnd) (sat : Bool) (draw c : Nat) : Nat × Option Arith :=
  if dst.isInt then
    let r := intoInt rnd draw dst.bits (sourceOf src c)
    ((BitVec.ofInt dst.bits r.1).toNat, r.2)
  else if dst = .e8m0 then intoScale rnd (sourceOf src c)
  else intoFloat dst (src.widens dst) rnd sat draw (sourceOf src c)

/-- `lfsr_draw` of R238: the new state, and the draw. -/
def drawn (st : W32) : W32 × Nat :=
  let t := if st.toNat % 2 = 1 then (st.toNat / 2) ^^^ 0x80200003 else st.toNat / 2
  (BitVec.ofNat 32 t, t / 65536)

/-! ## Values of the matrix slice (R266 to R284) -/

/-- The floating format of a frame format's elements; none for an integer (R232, R268). -/
def elemFmt : FrameFmt → Option FloatFmt
  | .e4m3 | .mxe4m3 => some fE4M3
  | .e5m2 | .mxe5m2 => some fE5M2
  | .e3m2 | .mxe3m2 => some fE3M2
  | .e2m3 | .mxe2m3 => some fE2M3
  | .e2m1 | .mxe2m1 => some fE2M1
  | .fp16 => some fp16
  | .bf16 => some bf16
  | .accF32 => some fp32
  | .int8 | .int4 | .mxint8 | .accS32 => none
/-- The integer that an element code of a format stands for, and its value. -/
def elemInt (f : FrameFmt) (c : Nat) : ℤ := Int.bmod (c : ℤ) (2 ^ frBits f)
def elemVal (f : FrameFmt) (c : Nat) : Val :=
  match elemFmt f with
  | some g => valOf g c
  | none => .num (elemInt f c) (decide (elemInt f c < 0))

/-- A number times a power of two. -/
def Val.shift (e : ℤ) : Val → Val
  | .num x neg => .num (x * 2 ^ e) neg
  | v => v
/-- The pairs of row i that contribute: the K index and A's code (R275). -/
def pairs (a : StepA) (i : Nat) : List (Nat × Nat) := (List.range (frKt a.fmt)).filterMap fun k => (a.elem i k).map fun c => (k, c)
/-- The term of a pair (R235, R274): a block under the scale 0xFF holds NaNs; none for zero times infinity. -/
def termAt (a : StepA) (b : Machine.Frm) (i j : Nat) (p : Nat × Nat) : Option Val :=
  let sa := a.scale i (p.1 / 32)
  let sb := b.scale j (p.1 / 32)
  let v := mulVals (elemVal a.fmt p.2) (elemVal b.fmt (b.elem j p.1))
  if !frMx a.fmt then v else if sa = 255 ∨ sb = 255 then some .nan else v.map (Val.shift ((sa : ℤ) + sb - 254))
/-- The terms of element (i, j): one for each pair, and one for the block of MXINT8 (R274). -/
def termsAt (a : StepA) (b : Machine.Frm) (i j : Nat) : List (Option Val) :=
  if a.fmt ≠ .mxint8 then (pairs a i).map (termAt a b i j)
  else if pairs a i = [] then []
  else
    let z := ((pairs a i).map fun p => elemInt a.fmt p.2 * elemInt b.fmt (b.elem j p.1)).sum
    [some (if a.scale i 0 = 255 ∨ b.scale j 0 = 255 then .nan
      else (Val.num z (decide (z < 0))).shift ((a.scale i 0 : ℤ) + b.scale j 0 - 254 - 12))]
/-- S of R274: every term truncated toward zero 34 places below the leading bit of the greatest, and added exactly. -/
def truncSum (ts : List Val) : Val :=
  let xs := ts.filterMap fun t => match t with | .num x _ => some x | _ => none
  match ((xs.filter (· ≠ 0)).map fun x => Int.log 2 |x|).max? with
  | none => .num 0 (ts.all fun t => match t with | .num _ neg => neg | _ => false)
  | some e =>
    let g : ℚ := 2 ^ (e - 34)
    let z := (xs.map fun x => if x < 0 then -⌊-x / g⌋ else ⌊x / g⌋).sum
    .num (z * g) (decide (z < 0))
/-- An FP32 element after a step, and its event (R274). -/
def steppedF32 (sat : Bool) (c : W32) (ts : List (Option Val)) : W32 × Option Arith :=
  let vs := valOf fp32 c.toNat :: ts.filterMap id
  let infs := vs.filterMap fun v => match v with | .inf s => some s | _ => none
  if ts = [] then (c, none)
  else if Val.nan ∈ vs then (0x7FC00000, none)
  else if none ∈ ts ∨ (true ∈ infs ∧ false ∈ infs) then (0x7FC00000, some .invalid)
  else
    let r := match infs.head? with
      | some s => (codeWith fp32 s fp32.infCode, none)
      | none => outcome fp32 .rne (addVals .rne (valOf fp32 c.toNat) (truncSum (ts.filterMap id)))
    if infAt fp32 r.1 ∧ sat = true then (BitVec.ofNat 32 (r.1 - 1), some .accSat) else (BitVec.ofNat 32 r.1, r.2)
/-- An INT32 element after a step: wrapped, or clamped with ACC_SAT. -/
def steppedS32 (sat : Bool) (c : W32) (z : ℤ) : W32 × Option Arith :=
  let t := c.toInt + z
  if sat = true ∧ t < -2 ^ 31 then (BitVec.intMin 32, some .accSat)
  else if sat = true ∧ 2 ^ 31 ≤ t then (BitVec.intMax 32, some .accSat) else (BitVec.ofInt 32 t, none)
/-- Element (i, j) after a step from c. -/
def stepped (sat : Bool) (a : StepA) (b : Machine.Frm) (c : W32) (i j : Nat) : W32 × Option Arith :=
  if frInt a.fmt then steppedS32 sat c ((pairs a i).map fun p => elemInt a.fmt p.2 * elemInt b.fmt (b.elem j p.1)).sum
  else steppedF32 sat c (termsAt a b i j)

/-- The order of R281: a NaN is largest, infinities are above numbers, numbers go by magnitude. -/
def larger : Val → Val → Bool
  | .nan, .nan => false
  | .nan, _ => true
  | .inf _, .num _ _ => true
  | .num x _, .num y _ => decide (|y| < |x|)
  | _, _ => false
/-- An element of a dense frame's row, under its scale. -/
def rowVal (f : Machine.Frm) (i k : Nat) : Val := if frMx f.fmt && f.scale i (k / 32) == 255 then .nan else elemVal f.fmt (f.elem i k)

/-- emax of a format (R284). -/
def emaxOf : FrameFmt → ℤ
  | .mxe4m3 => 8 | .mxe5m2 => 15 | .mxe3m2 => 4 | .mxe2m3 | .mxe2m1 => 2 | _ => 0
/-- The scale of a block (R284). -/
def blockScale (f : FrameFmt) (xs : List Val) : Nat :=
  if Val.nan ∈ xs then 255
  else match (xs.filterMap fun v => match v with | .num x _ => some |x| | _ => none).max? with
    | none => 0
    | some a => if a = 0 then 0 else (max 0 (min 254 (Int.log 2 a - emaxOf f + 127))).toNat
/-- The code of an element of a block under its scale (R284). -/
def blockCode (f : FrameFmt) (rnd : Rnd) (draw scale : Nat) : Val → Nat
  | .nan => 0
  | .inf neg => (match elemFmt f with | some g => codeWith g neg g.maxCode | none => if neg then 128 else 127)
  | .num x neg =>
    let y : ℚ := x / 2 ^ ((scale : ℤ) - 127)
    match elemFmt f with
    | some g => ((Val.num y neg).round g rnd true draw).1
    | none =>
      let t := y * 64
      let z := if rnd = .sr then ⌊t⌋ + (if (draw : ℤ) < ⌊(t - ⌊t⌋) * 2 ^ 16⌋ then 1 else 0) else nearInt rnd 0 t
      (max (-128) (min 127 z) % 256).toNat
/-- A generator after n draws, and the draw that follows n others. -/
def drawnTimes (g : W32) : Nat → W32
  | 0 => g
  | n + 1 => (drawn (drawnTimes g n)).1
def drawAfter (g : W32) (n : Nat) : Nat := (drawn (drawnTimes g n)).2

/-! ## How every encoded instruction issues -/

/-- The shape of a register-only instruction. -/
def Result.shape {α : Type} (r : Result α) : Shape := { ctl := r.ctl, ops := r.ops, extra := [], rule := .runs }

/-- The shape of an instruction; none for the device's events. -/
def shape (s : State) (i : Instr) : Option Shape :=
  ((word32 i).map Result.shape).or (((word64 i).map Result.shape).or (((predicate i).map Result.shape).or
    (((floatQuiet i).map Result.shape).or (((floatLoud i).map Result.shape).or (((lateLoud i).map Result.shape).or
      (otherShape s i))))))

/-- The issue in which the selected unit runs an encoded instruction to its own effect. -/
def runsAs (s : State) (i : Instr) (x : Ex) : Prop :=
  match shape s i with
  | some p => issueEx s i p.ctl p.ops p.extra p.rule = some x
  | none => False

/-! ## Memory as statements name it -/

/-- The byte of device memory that a plain load on a core finds: its L1's copy, else its cluster cache's, else the L2's (R130). -/
def byteAt (s : State) (core a : Nat) : Byte :=
  cbRead (coreAt s core).l1 a (cbRead (clusterAt s (core / 4)).cache a (cellGet s.mem a))

/-- The scratchpad byte of a team on its core. -/
def padByte (s : State) (team a : Nat) : Option Byte :=
  match tget s.teams team with
  | some tm => some (cellGet tm.scratch a)
  | none => none

/-- Whether a scope cache holds an unwritten store to an address. -/
def dirtyAt (c : List CacheByte) (a : Nat) : Bool := c.any fun b => b.dirty && b.addr == a

/-- A load or a store, by its parts: control fields, reach, size, memory word, its data register and its address register. -/
structure Access where
  ctl   : Ctl
  reach : Reach
  sz    : Size
  m     : MemWord
  data  : Spec
  addr  : Spec
  deriving DecidableEq, Repr

def loadOf : Instr → Option Access
  | .ld c sz m d a => some ⟨c, .generic, sz, m, d, a⟩
  | .lds c sz m d a => some ⟨c, .own, sz, m, d, a⟩
  | .ldc c sz m d a => some ⟨c, .slot, sz, m, d, a⟩
  | _ => none

def storeOf : Instr → Option Access
  | .st c sz m a b => some ⟨c, .generic, sz, m, b, a⟩
  | .sts c sz m a b => some ⟨c, .own, sz, m, b, a⟩
  | .stc c sz m a b => some ⟨c, .slot, sz, m, b, a⟩
  | _ => none

/-- The effective address of a lane of an access (R160). -/
def Access.ea (q : Access) (x : Ex) (l : Nat) : Int := effAddr x q.reach q.addr q.m.off l
/-- What a lane of an access asks for. -/
def Access.req (q : Access) (s : State) (x : Ex) (acc : AccKind) (l : Nat) : LaneReq :=
  laneReq s x q.reach acc (q.ea x l) (sizeBytes q.sz) (alignOf q.m q.sz) (fun _ => true) l
/-- The checks of every executing lane (R161). -/
def Access.checks (q : Access) (s : State) (x : Ex) (acc : AccKind) : Option (Failed × AccessReq × Mask) :=
  checkLanes s (x.lanes.map fun l => (l, q.req s x acc l, q.ea x l))

/-- One lane's load from a state, by whether it is transactional, irrevocable or neither (R163, R211, R220). -/
def Access.loadOne (q : Access) (s0 : State) (x : Ex) (s : State) (l : Nat) : LaneOut × State :=
  let r := (q.req s0 x .load l).acc
  let p := pathOf s x q.m l
  match txMode x l with
  | (true, _) => txLoad s x r l
  | (false, true) =>
    loadLane s x { q.m with ord := .relaxed } { p with strong := some .l2, ev := 0, rc := 0 } r l
  | (false, false) => loadLane s x q.m p r l

/-- One lane's store from a state. -/
def Access.storeOne (q : Access) (s0 : State) (x : Ex) (s : State) (l : Nat) : LaneOut × State :=
  let r := (q.req s0 x .store l).acc
  let p := pathOf s x q.m l
  let bs := storeBytes x q.sz q.data l
  match txMode x l with
  | (true, _) => txStore s x r bs l
  | (false, true) => storeLane s x { p with strong := some .l2, ev := 0 } r bs true l
  | (false, false) => storeLane s x p r bs false l

/-- The segments of a lane's access. -/
def Access.segs (q : Access) (s : State) (x : Ex) (acc : AccKind) (l : Nat) : List (Place × Nat × Nat) :=
  let r := (q.req s x acc l).acc
  segments s r.ctx r.team acc r.va r.n
/-- The pieces that an access has if the memory system performs it after its issue (R138, R141, R160). -/
def Access.pieces (q : Access) (s : State) (x : Ex) (acc : AccKind) : List Piece :=
  (x.lanes.map fun l =>
    lanePieces s (q.req s x acc l).acc (pathOf s x q.m l) (if acc = .store then storeBytes x q.sz q.data l else []) l).flatten
/-- The lines of device memory that an access's lanes touch. -/
def Access.lines (q : Access) (s : State) (x : Ex) (acc : AccKind) : List Nat :=
  (x.lanes.map fun l => linesOf (q.segs s x acc l)).flatten

/-- The addresses of device memory that a store's lanes store to, and the bytes of a team's scratchpad that they do. -/
def Access.stored (q : Access) (s : State) (x : Ex) : List Nat :=
  (x.lanes.map fun l => ((q.segs s x .store l).map fun e => match e.1 with
    | .dev pa => (List.range e.2.2).map (pa + ·)
    | _ => []).flatten).flatten
def Access.storedPad (q : Access) (s : State) (x : Ex) (team : Nat) : List Nat :=
  (x.lanes.map fun l => ((q.segs s x .store l).map fun e => match e.1 with
    | .pad t off => if t = team then (List.range e.2.2).map (off + ·) else []
    | _ => []).flatten).flatten

/-- Room for n more lines in the scope caches of a core's path, so that no line has to leave one (R127). -/
def roomy (s : State) (core n : Nat) : Prop :=
  (linesIn (coreAt s core).l1).length + n ≤ l1Lines ∧
  (linesIn ((coreAt s core).l1 ++ (clusterAt s (core / 4)).cache)).length + n ≤ clusterLines

/-- Whether every executing lane is outside any transaction. -/
def plainLanes (x : Ex) : Bool := x.lanes.all fun l => txMode x l == (false, false)

/-- The state differs only in the entry of one unit and in what is selected. -/
def onlyUnit (s t : State) (u : UnitRef) : Prop :=
  t = { s with cur := t.cur, crews := t.crews, teams := t.teams } ∧
  (∀ uid, (∀ l, u ≠ .crew uid l) → tget t.crews uid = tget s.crews uid) ∧
  (∀ k, u ≠ .access k → tget t.teams k = tget s.teams k) ∧
  (∀ k a, padByte t k a = padByte s k a)

/-- The register codes that an instruction's destinations name. -/
def destCodes (s : State) (b : Body) (ops : List Opnd) : List Nat :=
  ((ops.filter fun o => !o.rd || o.cls == .pd).map fun o => (regsOf s b o).getD []).flatten

/-! ## Commands as statements name them (R194 to R206, R312, R317) -/

/-- A request with its token, barrier and ranges and nothing else to check. -/
def ask (x : Ex) (kind : CmdKind) (cb : CmdByte) (bar : Spec) (bytes : Nat) (ranges : List (Nat × Nat)) : CmdReq :=
  { kind, cb, bar := if cb.bv then some (x.v bar x.low).toNat else none, bytes, ranges, aligns := [], pads := [], pad := none,
    extra := none, range := false, remote := false, queue := none }

/-- The request that a command instruction makes in the lowest executing lane, and the state it is made in: `PDEC` has bound its descriptor. -/
def commandOf (s : State) (x : Ex) : Instr → Option (CmdReq × State)
  | .astream _ q a b v n0 n1 cmd =>
    let va := x.w a x.low
    some ({ ask x (.astream q.toNat va (x.v b x.low) (x.v v x.low) n0.toNat n1.toNat) { cmd with bv := false } 0 0 [] with
      cb := cmd
      spans := [{ base := va.toNat, len := 128, b := (x.v b x.low).toInt, n0 := n0.toNat, x := (x.v v x.low).toInt, n1 := n1.toNat }]
      aligns := [(va.toNat, 16), ((x.v b x.low).toNat, 16), ((x.v v x.low).toNat, 16)], queue := some q.toNat }, s)
  | .gather _ esz i64 d a b v count cmd =>
    let n := count.toNat * 2 ^ esz.toNat
    let w := if i64 then 8 else 4
    some ({ ask x (.gather (x.w d x.low) (x.w a x.low) (x.w b x.low) (2 ^ esz.toNat) count.toNat i64) cmd v n
              [((x.w d x.low).toNat, n), ((x.w a x.low).toNat, 0), ((x.w b x.low).toNat, count.toNat * w)] with
            aligns := [((x.w b x.low).toNat, w)] }, s)
  | .scatter _ esz i64 d a b v count cmd =>
    let n := count.toNat * 2 ^ esz.toNat
    let w := if i64 then 8 else 4
    some ({ ask x (.scatter (x.w d x.low) (x.w a x.low) (x.w b x.low) (2 ^ esz.toNat) count.toNat i64) cmd v n
              [((x.w d x.low).toNat, 0), ((x.w a x.low).toNat, n), ((x.w b x.low).toNat, count.toNat * w)] with
            aligns := [((x.w b x.low).toNat, w)] }, s)
  | .cpy _ d a b v cmd =>
    let n := (x.v b x.low).toNat
    some (ask x (.cpy (x.w d x.low) (x.w a x.low) n) cmd v n [((x.w d x.low).toNat, n), ((x.w a x.low).toNat, n)], s)
  | .cpy2g _ d a b v pitch esz count ph pw cmd =>
    let one := pw.toNat * ph.toNat * 2 ^ esz.toNat
    let n := count.toNat
    some ({ ask x (.cpy2g (x.w d x.low) (x.w a x.low) (x.w b x.low) pitch.toNat (2 ^ esz.toNat) pw.toNat ph.toNat n) cmd v (n * one)
              [((x.w a x.low).toNat, 0), ((x.w b x.low).toNat, 4 * n)] with
            spans := [{ base := (x.w d x.low).toNat, len := one, b := ((one + 15) / 16 * 16 : Nat), n0 := n }], aligns := [((x.w b x.low).toNat, 4)] }, s)
  | .cpyt _ pack d a b v spitch role fmt pitch count cmd =>
    let n := count.toNat
    let frames := (if pack then x.w a x.low else x.w d x.low).toNat
    let store := (if pack then x.w d x.low else x.w a x.low).toNat
    let scales := if b = 255#8 then none else some (x.w b x.low)
    some ({ ask x (.cpyt pack (x.w d x.low) (x.w a x.low) scales role fmt pitch.toNat spitch.toNat n) cmd v
              (n * cpytBytes pack role fmt)
              [(frames, n * frBytes fmt)] with
            spans := cpytSpans role fmt store (scales.map (·.toNat)) pitch.toNat spitch.toNat n, aligns := [(frames, 64)], pad := some frames }, s)
  | .cpyr _ d a b v off cmd =>
    let n := (x.v b x.low).toNat
    some ({ ask x (.cpyr (x.w d x.low) off.toNat (x.w a x.low) n) cmd v n [((x.w a x.low).toNat, n)] with
            pads := if n = 0 then [] else [(off.toNat, n)],
            remote := decide (teamCount s (gridOf s x.ref) ≤ (x.w d x.low).toNat) }, s)
  | .fred _ s32 d a b v group e parts cmd =>
    let n := (x.v b x.low).toNat
    some ({ ask x (.fred (x.w d x.low) (x.w a x.low) n group.toNat parts.toNat s32 e) cmd v (4 * n)
              [((x.w d x.low).toNat, 4 * n), ((x.w a x.low).toNat, 4 * n)] with
            range := decide (n < 1) || decide (1024 < n) }, s)
  | .chain _ sat ty d a b v ops cmd =>
    let os := (List.range 8).map (Sys2Proof.chainOp ops)
    let names := chainNames os
    let n := (x.v b x.low).toNat
    let es := gBits (chainTy ty) / 8
    let da := (x.w d x.low).toNat
    let aa := (x.w a x.low).toNat
    let ks := (List.range 9).map fun j => if names.contains (j + 1) then x.w (b + BitVec.ofNat 8 (j + 1)) x.low else 0
    some ({ ask x (.chain (x.w d x.low) (x.w a x.low) n ty sat os ks) cmd v n [(da, n), (aa, n)] with
            aligns := [(da, es), (aa, es), (n, es)],
            range := notPlain s (ctxOf s x.ref) da n || notPlain s (ctxOf s x.ref) aa n }, s)
  | .pdec _ a v cmd =>
    let va := (x.w a x.low).toNat
    let first := ask x (.pdec (x.w a x.low) []) cmd v 0 [(va, 128)]
    if 2 ^ 55 ≤ va ∨ reachesReserved va 128 = true ∨ va % 64 ≠ 0 then some ({ first with aligns := [(va, 64)] }, s)
    else match bindDesc s (ctxOf s x.ref) (coreOf s x.ref) va 128 with
      | .error e => some ({ first with extra := some (blockFail va .load e) }, s)
      | .ok (desc, s1) =>
        let j := Job.ofNat desc
        some ({ first with
                kind := .pdec (x.w a x.low) (toBytes 128 desc), bytes := j.cap + 32, ranges := (va, 128) :: jobRanges j,
                aligns := [(j.dst, 16), (j.status, 32)],
                range := jobBad desc || !(jobPlace j.dst j.cap) || !(jobPlace j.status 32) }, s1)
  | _ => none

/-! ## Events -/

/-- A waiting unit's instruction is issued again: the state in which it has run, or, where it still waits for the same object, no
change. -/
def goesFurther (s : State) (u : UnitRef) (i : Instr) (t : State) : Prop :=
  t = performAt s u (reissue i) ∨
    (t = s ∧ ∃ g h, groupAt s u = some g ∧ groupAt (performAt s u (reissue i)) u = some h ∧ h.wait.isSome = true ∧
      h.wait.map (·.obj) = g.wait.map (·.obj) ∧ h.pc = g.pc)

end Sys2Proof.Safety
end

