-- ==== Sys2Proof/Certificates/Slice0/Obligations.lean ====
section
/-! DEFINITION. What is to be proved of the model: one proposition for each entry of OBLIGATIONS.json, in its order. -/

open Sys2Proof Sys2Proof.Machine Sys2Proof.Safety

/-- Groups 0x0 to 0x2 write the 32-bit results of their formulas. For every instruction of the table word32 (IADD, ISUB, IMUL, IMULH, IMAD,
IMIN, IMAX, IABS, INEG, LTAB, the shifts and rotations, POPC, CLZ, BREV, BFX, BFI, MOV, MOVI, MOVK, SEL and CVTI, with their immediate
forms), an issue that runs ends in the next state in which each executing lane has the result of the integer formula, ready after the
latency of the form, and the group is at the next instruction. -/
def Obligations.IntegerResults : Prop :=
  ∀ (s : State) (i : Instr) (r : Result W32) (x : Ex), word32 i = some r → runsAs s i x →
    exec i s = .next (retire x r.ctl (x.fixV r.lat r.d (r.val x)) s)

/-- Groups 0x0 and 0x2 write the 64-bit results of their formulas. IMADW, LEA, IADD64 (both forms), MOV.b64, MOVI.b64 and SEL.b64: an issue
that runs ends in the next state in which each executing lane has the 64-bit result of the integer formula in its pair (or a register). -/
def Obligations.WideResults : Prop :=
  ∀ (s : State) (i : Instr) (r : Result W64) (x : Ex), word64 i = some r → runsAs s i x →
    exec i s = .next (retire x r.ctl (x.fixW r.lat r.d (r.val x)) s)

/-- ISET, PTAB, FSET and FCLASS write their predicates. For every instruction of the table predicate, an issue that runs ends in the next state
in which each executing lane has the truth value of the comparison, the function table or the class. FSET compares the values of R233, with the
outcome of R252 for a NaN, zeros of both signs being equal; FCLASS reads the bit of B at the class of A in the order of R253. -/
def Obligations.PredicateResults : Prop :=
  (∀ (s : State) (i : Instr) (r : Result Bool) (x : Ex), predicate i = some r → runsAs s i x →
    exec i s = .next (retire x r.ctl (x.fixP r.lat r.d (r.val x)) s)) ∧
  (∀ f ∈ [fp32, fp16, bf16], ∀ (cmp : FCmp) (a b : Nat), fCompare f cmp a b = compares f cmp a b) ∧
  (∀ a b : W32, fclassVal a b = b.getLsbD (classOf fp32 a.toNat)) ∧
  (∀ (s : State) (x : Ex) (c : Ctl) (d a b : Spec), runsAs s (.fclass c d a b) x →
    exec (.fclass c d a b) s = .next (retire x c (x.fixP 5 d fun l => fclassVal (x.v a l) (x.v b l)) s))

/-- FMIN, FMAX, FRND, HMIN2, HMAX2 and HSET2 write their results and nothing else. For every instruction of the table floatQuiet, in both forms,
an issue that runs ends in the next state with the result in each executing lane; no event is logged whatever the operands. FMIN and FMAX give
the lesser and the greater operand with -0 below +0, a NaN losing to a number without .nan and giving the default NaN with it; FRND gives the
integer that the mode names, with the sign of A, and leaves large values, infinities and zeros alone; the packed forms do so for each half with
subnormals as zeros of their sign, and HSET2 gives all ones where the comparison of R252 holds. -/
def Obligations.QuietFloatResults : Prop :=
  (∀ (s : State) (i : Instr) (r : Result W32) (x : Ex), floatQuiet i = some r → runsAs s i x →
    exec i s = .next (retire x r.ctl (x.fixV r.lat r.d (r.val x)) s)) ∧
  (∀ (greater nan : Bool) (a b : W32), fminmaxVal greater nan a b = BitVec.ofNat 32 (lesser fp32 greater nan a.toNat b.toNat)) ∧
  (∀ rnd : Rnd, rnd ≠ .sr → ∀ a : W32, fRound rnd a.toNat = integral rnd a.toNat) ∧
  (∀ (bf greater nan : Bool) (a b : W32), hMinMax2 bf greater nan a b =
    (halves (halfFmt bf) false fun h => (lesser (halfFmt bf) greater nan (h a) (h b), none)).1) ∧
  (∀ (bf : Bool) (cmp : FCmp) (a b : W32), hSet2 bf cmp a b =
    let ones (w : Nat) := if compares (halfFmt bf) cmp (flushed (halfFmt bf) (a.toNat / w % 65536)) (flushed (halfFmt bf) (b.toNat / w % 65536))
      then 0xFFFF else 0
    BitVec.ofNat 32 (ones 1 + 65536 * ones 65536))

/-- FADD, FMUL, FFMA, HADD2, HMUL2 and HFMA2 log their events and write their results, or trap before any result. For every instruction of the
table floatLoud: where no raised cause is selected to trap, the causes are logged and every executing lane has its result; where one is,
ARITH_TRAP is raised with the lowest selected cause in DETAIL and nothing is written or logged. The result of a lane is the exact sum, product or
both over the rationals, rounded once as R237 says, with the NaN, infinity, zero and sign rules of R248 and R250, INVALID and OVERFLOW where
these say so, and the clamp of .sat after rounding; the packed forms do so for each half, with operands and result flushed. An event has the mask
of the lanes that raise its cause, and traps only under TRAP_ARITH with the bit of its cause in ATRAP. That the raised cause of the lowest lane
is logged first is the model's choice (log 54). -/
def Obligations.FloatResultsAndEvents : Prop :=
  (∀ (s : State) (i : Instr) (r : Result (W32 × List Arith)) (x : Ex), floatLoud i = some r → runsAs s i x →
    (trapOf (ctlOf s (ctxOf s x.ref)) (eventsOf x.lanes fun l => (r.val x l).2) = none →
      exec i s = .next (retire x r.ctl (x.fixV r.lat r.d fun l => (r.val x l).1)
        (logEvents s x.ref x.pc (eventsOf x.lanes fun l => (r.val x l).2)))) ∧
    (∀ e, trapOf (ctlOf s (ctxOf s x.ref)) (eventsOf x.lanes fun l => (r.val x l).2) = some e →
      exec i s = .next (faultUnit s x.ref x.grp.mask x.pc
        { cause := .arithTrap, addr := 0, mask := e.2, detail := BitVec.ofNat 32 e.1.code, exact := false }))) ∧
  (∀ (rnd : Rnd) (sat : Bool) (a b c : W32),
    faddVal rnd sat a b = word sat (addOut fp32 rnd a.toNat b.toNat) ∧ fmulVal rnd sat a b = word sat (mulOut fp32 rnd a.toNat b.toNat) ∧
    ffmaVal rnd sat a b c = word sat (fmaOut fp32 rnd a.toNat b.toNat c.toNat)) ∧
  (∀ (bf : Bool) (rnd : Rnd) (sat : Bool) (a b c : W32),
    hAdd2 bf rnd sat a b = halves (halfFmt bf) sat (fun h => addOut (halfFmt bf) rnd (h a) (h b)) ∧
    hMul2 bf rnd sat a b = halves (halfFmt bf) sat (fun h => mulOut (halfFmt bf) rnd (h a) (h b)) ∧
    hFma2 bf rnd sat a b c = halves (halfFmt bf) sat (fun h => fmaOut (halfFmt bf) rnd (h a) (h b) (h c))) ∧
  (∀ (ls : List Nat) (f : Nat → List Arith) (c : Arith) (m : Mask), (c, m) ∈ eventsOf ls f ↔
    (∃ l ∈ ls, c ∈ f l) ∧ m = maskOf (ls.filter fun l => (f l).contains c)) ∧
  (∀ (r : CtlRegs) (evs : Events),
    let selected (e : Arith × Mask) := r.sctl.getLsbD 1 = true ∧ e ∈ evs ∧ e.2 ≠ 0 ∧ e.1 ≠ .fredClamp ∧ r.atrap.getLsbD e.1.code = true
    (trapOf r evs = none ↔ ∀ e, ¬ selected e) ∧
    (∀ e, trapOf r evs = some e → selected e ∧ ∀ d, selected d → e.1.code ≤ d.1.code))

/-- IDIV, IREM, the special functions and FDIV log their events and send their results, or trap before any result. For every instruction of the
table lateLoud (quotient and remainder by the integer formula, with -1 and the dividend at a zero divisor): where no raised cause is selected to
trap, the causes are logged and each executing lane has its result on its way; where one is, ARITH_TRAP is raised and nothing is written. FDIV is
the exact quotient rounded once, with the special operands of R259; SQRT gives the value between whose neighbours' midpoints the exact root lies,
and the default NaN with INVALID below zero; the special functions have the results and events of R261 and the fixed results of R260, EXP2 and
LOG2 are exact at integers and powers of two, and RCP, FSIN, FCOS and TANH keep the identities of R260. Which value a special function gives
within its bound is a free value (log 3). -/
def Obligations.DivisionAndSpecialFunctions : Prop :=
  (∀ (s : State) (i : Instr) (r : Result (W32 × List Arith)) (x : Ex), lateLoud i = some r → runsAs s i x →
    (trapOf (ctlOf s (ctxOf s x.ref)) (eventsOf x.lanes fun l => (r.val x l).2) = none →
      exec i s = .next (retire x r.ctl (x.body.sendV x.exec r.d fun l => (r.val x l).1)
        (logEvents s x.ref x.pc (eventsOf x.lanes fun l => (r.val x l).2)))) ∧
    (∀ e, trapOf (ctlOf s (ctxOf s x.ref)) (eventsOf x.lanes fun l => (r.val x l).2) = some e →
      exec i s = .next (faultUnit s x.ref x.grp.mask x.pc
        { cause := .arithTrap, addr := 0, mask := e.2, detail := BitVec.ofNat 32 e.1.code, exact := false }))) ∧
  (∀ (rnd : Rnd) (a b : W32), fDiv rnd a.toNat b.toNat = divOut rnd a.toNat b.toNat) ∧
  (∀ a : W32, (valOf fp32 a.toNat = .nan → fSqrt a.toNat = (0x7FC00000, none)) ∧
    (∀ neg, valOf fp32 a.toNat = .inf neg → fSqrt a.toNat = if neg then (0x7FC00000, some .invalid) else (a.toNat, none)) ∧
    (∀ q neg, valOf fp32 a.toNat = .num q neg → (q = 0 → fSqrt a.toNat = (a.toNat, none)) ∧
      (q < 0 → fSqrt a.toNat = (0x7FC00000, some .invalid)) ∧
      (0 < q → ∃ r, fSqrt a.toNat = (r, none) ∧ 0 < r ∧ r < 0x7F800000 ∧
        (numOf fp32 (r - 1) + numOf fp32 r) ^ 2 ≤ 4 * q ∧ 4 * q ≤ (numOf fp32 r + numOf fp32 (r + 1)) ^ 2))) ∧
  (∀ (fn : Sfu) (a : W32) (r : Nat × Option Arith), specialCase fn a.toNat = some r → sfu fn a.toNat = r) ∧
  (∀ (a : W32) (k : ℤ) (neg : Bool), -149 ≤ k → k ≤ 127 →
    (valOf fp32 a.toNat = .num k neg → sfu .exp2 a.toNat = (codeOf fp32 (2 ^ k), none)) ∧
    (valOf fp32 a.toNat = .num (2 ^ k) neg →
      sfu .log2 a.toNat = (codeWith fp32 (decide (k < 0)) (codeOf fp32 |(k : ℚ)|), none))) ∧
  (∀ (a : W32) (q : ℚ) (neg : Bool), valOf fp32 a.toNat = .num q neg →
    (∀ fn ∈ [Sfu.rcp, .sin, .tanh], sfuVal fn (a ^^^ 0x80000000#32) = ((sfuVal fn a).1 ^^^ 0x80000000#32, (sfuVal fn a).2)) ∧
    sfuVal .cos (a ^^^ 0x80000000#32) = sfuVal .cos a)

/-- SEL writes A where the predicate holds and B where it does not. Both widths of SEL: each executing lane receives A where its condition, with
the negate bit honoured (and read as a register in an access thread, 0xFF reading false), is true, and B elsewhere. -/
def Obligations.SelectChooses : Prop :=
  ∀ (s : State) (x : Ex) (c : Ctl) (d a b p : Spec),
    (runsAs s (.sel c false d a b p) x →
      exec (.sel c false d a b p) s = .next (retire x c (x.fixV 4 d fun l => if x.p p l then x.v a l else x.v b l) s)) ∧
    (runsAs s (.sel c true d a b p) x →
      exec (.sel c true d a b p) s = .next (retire x c (x.fixW 4 d fun l => if x.p p l then x.w a l else x.w b l) s)) ∧
    (∀ l, x.body.isAp = false → x.p p l = (x.p (p &&& 7) l ^^ p.getLsbD 3)) ∧
    (∀ l, x.body.isAp = true → p ≠ 255#8 → x.p p l = (x.v p l != 0)) ∧
    (∀ l, x.body.isAp = true → x.p 255#8 l = false) ∧
    (∀ (wide : Bool) (f : Fields), encodeFields (.sel c wide d a b p) = some f →
      f.grp = 2#4 ∧ f.op = 3#6 ∧ f.sub = (if wide then 1#4 else 0#4) ∧ f.d = d ∧ f.a = a ∧ f.b = b ∧ f.c = p)

/-- LEA adds a shifted, extended word to a 64-bit base. LEA with and without .sx, for every shift 0 to 7: D receives A plus the extended B
times two to the shift, modulo 2^64; the worked example of the rule holds. -/
def Obligations.AddressComputation : Prop :=
  (∀ (s : State) (x : Ex) (c : Ctl) (sh : BitVec 3) (sx : Bool) (d a b : Spec), runsAs s (.lea c sh sx d a b) x →
      exec (.lea c sh sx d a b) s = .next (retire x c (x.fixW 4 d fun l =>
        wrap64 ((x.w a l).toNat + (if sx then (x.v b l).toInt else ((x.v b l).toNat : Int)) * 2 ^ sh.toNat)) s)) ∧
    (∀ (c : Ctl) (sh : BitVec 3) (sx : Bool) (d a b : Spec) (f : Fields), encodeFields (.lea c sh sx d a b) = some f →
      f.grp = 0#4 ∧ f.op = 0x0E#6 ∧ f.sub.toNat = sh.toNat + 8 * sx.toNat) ∧
    leaVal 3 true 0x100000000#64 0xFFFFFFF0#32 = 0x00000000FFFFFF80#64 ∧
    leaVal 3 false 0x100000000#64 0xFFFFFFF0#32 = 0x00000008FFFFFF80#64

/-- IADDC writes the sum to D and the carry to C, which is also the carry in. Both forms of IADDC: with t the sum of A, B and the carry in as
unsigned numbers, D receives t modulo 2^32 and then the predicate C receives whether t reaches 2^32; C = pt gives a carry in of 1 in a
crew. -/
def Obligations.AddWithCarry : Prop :=
  ∀ (s : State) (x : Ex) (c : Ctl) (d a b p : Spec) (imm : W32),
    (runsAs s (.iaddc c d a b p) x →
      exec (.iaddc c d a b p) s = .next (retire x c
        ((x.fixV 4 d fun l => wrap32 ((x.v a l).toNat + (x.v b l).toNat + (x.p p l).toNat : Nat)).putP x.exec x.clock p
          (fun l => decide (4294967296 ≤ (x.v a l).toNat + (x.v b l).toNat + (x.p p l).toNat)) (x.ready 4)) s)) ∧
    (runsAs s (.iaddcImm c d a imm p) x →
      exec (.iaddcImm c d a imm p) s = .next (retire x c
        ((x.fixV 4 d fun l => wrap32 ((x.v a l).toNat + imm.toNat + (x.p p l).toNat : Nat)).putP x.exec x.clock p
          (fun l => decide (4294967296 ≤ (x.v a l).toNat + imm.toNat + (x.p p l).toNat)) (x.ready 4)) s)) ∧
    (x.body.isAp = false → ∀ l, x.p 7#8 l = true)

/-- RDSP sends the special register of each lane on its way to D. RDSP of every special register: D, a pair in a crew for %team, %clock and
%entry, receives the value of the table of R44. %lane and %quad follow from the position; %crew is the crew's number; %team is the team's linear
index, and %grid.x, %grid.y and %grid.z are its coordinates in the grid's extents; %thread is the thread's number in its team; core, cluster and
die follow from the core number; %clock is the cycle count less the cycles in which the core was gated; %entry is the thread's entry. In an
access thread %lane, %quad, %crew and %thread read all ones, and in a spawned thread %team, %thread and the coordinates do. -/
def Obligations.SpecialRegisterReads : Prop :=
  ∀ (s : State) (x : Ex) (c : Ctl) (d : Spec) (sp : Special), runsAs s (.rdsp c d sp) x →
    (specialWide sp = true → exec (.rdsp c d sp) s = .next (retire x c (x.body.sendW x.exec d (specialVal s x sp)) s)) ∧
    (specialWide sp = false → exec (.rdsp c d sp) s =
      .next (retire x c (x.body.sendV x.exec d fun l => lo32 (specialVal s x sp l)) s)) ∧
    (∀ l, specialVal s x .core l = BitVec.ofNat 64 (coreOf s x.ref) ∧
      specialVal s x .cluster l = BitVec.ofNat 64 (coreOf s x.ref / 4) ∧
      specialVal s x .die l = BitVec.ofNat 64 (coreOf s x.ref / 32) ∧
      specialVal s x .clock l = BitVec.ofNat 64 (s.clock - (coreAt s (coreOf s x.ref)).clockOff)) ∧
    (∀ l, x.body.isAp = true → ∀ p ∈ [Special.lane, .quad, .crew, .thread], lo32 (specialVal s x p l) = 0xFFFFFFFF#32) ∧
    (∀ l, x.body.isAp = false → lo32 (specialVal s x .lane l) = BitVec.ofNat 32 l ∧
      lo32 (specialVal s x .quad l) = BitVec.ofNat 32 (l % 32 / 4)) ∧
    (∀ (cr : Crew) (l : Nat), x.body = .crew cr → specialVal s x .crew l = BitVec.ofNat 64 cr.num ∧
      (∀ t, cr.lanes.getD l none = some t → specialVal s x .entry l = t.entry ∧
        ∀ k, cr.owner = .team k → specialVal s x .thread l = BitVec.ofNat 64 t.tid) ∧
      (∀ p, cr.owner = .pool p → lo32 (specialVal s x .thread l) = 0xFFFFFFFF#32)) ∧
    (∀ (a : Machine.Access) (l : Nat), x.body = .ap a → specialVal s x .entry l = a.entry) ∧
    (∀ (k l : Nat) (tm : Team), teamOf s x.ref = some k → tget s.teams k = some tm → specialVal s x .team l = BitVec.ofNat 64 tm.idx ∧
      ∀ g, tget s.grids tm.grid = some g → specialVal s x .gridX l = BitVec.ofNat 64 (tm.idx % g.packet.gx) ∧
        specialVal s x .gridY l = BitVec.ofNat 64 (tm.idx / g.packet.gx % g.packet.gy) ∧
        specialVal s x .gridZ l = BitVec.ofNat 64 (tm.idx / g.packet.gx / g.packet.gy)) ∧
    (∀ l, teamOf s x.ref = none → specialVal s x .team l = BitVec.allOnes 64 ∧
      ∀ p ∈ [Special.gridX, .gridY, .gridZ], lo32 (specialVal s x p l) = 0xFFFFFFFF#32) ∧
    (∀ (uid low : Nat) (cr : Crew), x.ref = .crew uid low → tget s.crews uid = some cr →
      teamOf s x.ref = match cr.owner with | .team k => some k | .pool _ => none) ∧
    (∀ k, x.ref = .access k → teamOf s x.ref = some k)

/-- FCVT and FCVTP log their events, send their results and step the generators under .sr. FCVT of every pair of formats and FCVTP of every
destination and slot: where no raised cause traps, causes are logged, results go on their way and, under .sr only, the generator of each
executing lane is stepped once (twice for FCVTP); where one traps, nothing is written and no generator steps. An element's result and event are
those of its exact source value: into a float rounded as R237 says, with the infinities and NaNs of R240 and a narrow 16-bit result flushed; into
an integer rounded and clamped, and into E8M0 the binary exponent, with the events of R243. FCVTP places its two elements in the slot of C and
keeps the other bits; .sr draws from the generator of R238. -/
def Obligations.ConversionResults : Prop :=
  (∀ (s : State) (x : Ex) (c : Ctl) (rnd : Rnd) (sat : Bool) (src dst : Fmt) (slot : BitVec 2) (d a b u : Spec),
    (runsAs s (.fcvt c rnd sat src dst d a) x →
      let f := fcvtVal x rnd sat src dst a
      let evs := eventsOf x.lanes fun l => (f l).2
      (trapOf (ctlOf s (ctxOf s x.ref)) evs = none → exec (.fcvt c rnd sat src dst d a) s = .next (retire x c
        ((if dst = .int64 then x.body.sendW x.exec d fun l => (f l).1 else x.body.sendV x.exec d fun l => lo32 (f l).1).stepGen
          x.exec (if rnd = .sr then 1 else 0)) (logEvents s x.ref x.pc evs))) ∧
      (∀ e, trapOf (ctlOf s (ctxOf s x.ref)) evs = some e → exec (.fcvt c rnd sat src dst d a) s =
        .next (faultUnit s x.ref x.grp.mask x.pc
          { cause := .arithTrap, addr := 0, mask := e.2, detail := BitVec.ofNat 32 e.1.code, exact := false }))) ∧
    (runsAs s (.fcvtp c rnd sat dst slot d a b u) x →
      let f := fcvtpVal x rnd sat dst slot a b u
      let evs := eventsOf x.lanes fun l => (f l).2
      (trapOf (ctlOf s (ctxOf s x.ref)) evs = none → exec (.fcvtp c rnd sat dst slot d a b u) s = .next (retire x c
        ((x.body.sendV x.exec d fun l => (f l).1).stepGen x.exec (if rnd = .sr then 2 else 0)) (logEvents s x.ref x.pc evs))) ∧
      (∀ e, trapOf (ctlOf s (ctxOf s x.ref)) evs = some e → exec (.fcvtp c rnd sat dst slot d a b u) s =
        .next (faultUnit s x.ref x.grp.mask x.pc
          { cause := .arithTrap, addr := 0, mask := e.2, detail := BitVec.ofNat 32 e.1.code, exact := false })))) ∧
  (∀ (x : Ex) (rnd : Rnd) (sat : Bool) (src dst : Fmt) (slot : BitVec 2) (a b u : Spec) (l : Nat),
    let once := drawn (x.gen l)
    let twice := drawn once.1
    let r := converted src dst rnd sat once.2 (if src = .int64 then (x.w a l).toNat else (x.v a l).toNat)
    let p := converted .fp32 dst rnd sat once.2 (x.v a l).toNat
    let q := converted .fp32 dst rnd sat twice.2 (x.v b l).toNat
    let n := dst.bits
    fcvtVal x rnd sat src dst a l = (BitVec.ofNat 64 (if dst = .int8 ∨ dst = .int4 then
        (BitVec.ofInt 32 (Int.bmod r.1 (2 ^ dst.bits))).toNat else r.1), r.2.toList) ∧
    (dst ∈ [Fmt.fp16, .bf16] ∧ slot = 0 ∨ dst ∈ [Fmt.e4m3, .e5m2, .int8] ∧ slot.toNat < 2 ∨ dst ∈ [Fmt.e2m1, .int4] →
      (fcvtpVal x rnd sat dst slot a b u l).2 = p.2.toList ++ q.2.toList ∧
      ∀ k < 32, (fcvtpVal x rnd sat dst slot a b u l).1.getLsbD k =
        if k / n = 2 * slot.toNat then p.1.testBit (k % n) else if k / n = 2 * slot.toNat + 1 then q.1.testBit (k % n)
        else (x.v u l).getLsbD k))

/-- SHFL, VOTE and MATCH exchange values among lanes; REDC and SCAN combine them, log their events and send their results, or trap. SHFL in its
four modes and both widths sends each executing lane the value of A at the position that B names, that lies that far below or above its own, or
whose number is its own exclusive-or B, where that position lies in the crew and executes, the fill otherwise, with the validity predicate; VOTE
sends whether the predicate holds in all, in any or in all or none of the executing lanes, or the mask of those where it does; MATCH sends the
mask of executing lanes with an equal value. REDC sends every executing lane the tree combination of all positions (the fill standing for
positions that do not execute) and whether all positions execute; SCAN sends each executing lane the sequential combination of its prefix,
inclusive or exclusive; a selected event traps before any result. -/
def Obligations.LaneExchangeAndReductions : Prop :=
  (∀ (s : State) (x : Ex) (c : Ctl) (sm : ShflMode) (vm : VoteMode) (wide : Bool) (d a b u v : Spec),
     (runsAs s (.shfl c sm wide d a b u v) x → exec (.shfl c sm wide d a b u v) s = .next (retire x c
       ((x.body.sendX wide x.exec d fun l => (shflVal x sm wide a b u l).1).sendP x.exec v fun l => (shflVal x sm wide a b u l).2) s)) ∧
     (∀ l, let k := (x.v b l).toNat
       let from_ : ℤ := match sm with | .idx => k | .up => (l : ℤ) - k | .down => (l : ℤ) + k | .xor => (l ^^^ k : ℕ)
       (∀ p : ℕ, from_ = p → p < x.width → shflVal x sm wide a b u l =
         if x.exec.getLsbD p then (x.vw wide a p, true) else (x.vw wide u l, false)) ∧
       (from_ < 0 ∨ (x.width : ℤ) ≤ from_ → shflVal x sm wide a b u l = (x.vw wide u l, false))) ∧
     (runsAs s (.vote c vm d a) x → exec (.vote c vm d a) s = .next (retire x c
       (if vm = .ballot then x.body.sendX (curWidth s == 64) x.exec d fun _ => maskOf (x.lanes.filter (x.p a))
        else x.body.sendP x.exec d fun _ => voteVal x vm a != 0) s)) ∧
     ((voteVal x .all a != 0) = x.lanes.all (x.p a)) ∧ ((voteVal x .any a != 0) = x.lanes.any (x.p a)) ∧
     ((voteVal x .eq a != 0) = (x.lanes.all (x.p a) || !x.lanes.any (x.p a))) ∧
     (runsAs s (.matchLanes c wide d a) x → exec (.matchLanes c wide d a) s = .next (retire x c
       (x.body.sendX (curWidth s == 64) x.exec d fun l =>
         maskOf (x.lanes.filter fun k => x.vw wide a k == x.vw wide a l)) s))) ∧
    (∀ (s : State) (x : Ex) (c : Ctl) (op : RedOp) (excl : Bool) (d a u v : Spec),
     (runsAs s (.redc c op d a u v) x →
       let r := combineTree op 6 ((List.range x.width).map (contribution x (op == .maxidx) a u))
       let evs := crossEvents x r.2
       (trapOf (ctlOf s (ctxOf s x.ref)) evs = none → exec (.redc c op d a u v) s = .next (retire x c
         ((x.body.sendX (op == .maxidx) x.exec d fun _ => r.1).sendP x.exec v fun _ => allIn x x.width)
         (logEvents s x.ref x.pc evs))) ∧
       (∀ e, trapOf (ctlOf s (ctxOf s x.ref)) evs = some e → exec (.redc c op d a u v) s =
         .next (faultUnit s x.ref x.grp.mask x.pc
           { cause := .arithTrap, addr := 0, mask := e.2, detail := BitVec.ofNat 32 e.1.code, exact := false }))) ∧
     (runsAs s (.scan c op excl d a u v) x →
       let f := scanVal x op excl (op == .maxidx) a u
       let evs := crossEvents x (x.lanes.map fun l => (f l).2).flatten
       (trapOf (ctlOf s (ctxOf s x.ref)) evs = none → exec (.scan c op excl d a u v) s = .next (retire x c
         ((x.body.sendX (op == .maxidx) x.exec d fun l => (f l).1).sendP x.exec v fun l => allIn x (if excl then l else l + 1))
         (logEvents s x.ref x.pc evs))) ∧
       (∀ e, trapOf (ctlOf s (ctxOf s x.ref)) evs = some e → exec (.scan c op excl d a u v) s =
         .next (faultUnit s x.ref x.grp.mask x.pc
           { cause := .arithTrap, addr := 0, mask := e.2, detail := BitVec.ofNat 32 e.1.code, exact := false }))))

/-- NOP, YIELD and REPLAY end, ENROL, JOIN and EXIT enrol, rejoin and leave, and REFORM files its threads: each completes. NOP and YIELD end at
the next instruction with no other effect; REPLAY sets the entry of every executing thread to its own address and moves on. ENROL puts the
executing lanes into the mask; JOIN goes on where the mask is empty and otherwise leaves the executing lanes waiting at the next instruction
while the others go on; EXIT ends an access thread, or takes the executing lanes out of the crew, and those of a spawned crew out of their pool;
REFORM waits while a result is still on its way to an executing lane, files the executing threads at the next address where a bin of the quarter
takes them, and otherwise has the crew former draw from the oldest bin and issues again no earlier than the next cycle. -/
def Obligations.ControlFlow : Prop :=
  (∀ (s : State) (x : Ex) (c : Ctl) (id : BitVec 16),
     (runsAs s (.nop c) x → exec (.nop c) s = .next (retire x c x.body s)) ∧
     (runsAs s (.yield c) x → exec (.yield c) s = .next (retire x c x.body s)) ∧
     (runsAs s (.replay c id) x → exec (.replay c id) s = .next (retire x c (x.body.setEntry x.exec x.pc) s))) ∧
    (∀ (s : State) (x : Ex) (c : Ctl) (j : Spec) (uid low team : Nat) (cr : Crew),
     (runsAs s (.enrol c j) x → x.body = .crew cr → exec (.enrol c j) s = .next (retire x c
       (.crew { cr with j := lset cr.j j.toNat (cr.j.getD j.toNat 0 ||| x.exec) }) s)) ∧
     (runsAs s (.join c j) x → x.body = .crew cr → cr.j.getD j.toNat 0 = 0 → exec (.join c j) s = .next (retire x c x.body s)) ∧
     (runsAs s (.join c j) x → x.body = .crew cr → cr.j.getD j.toNat 0 ≠ 0 →
       let g := x.grp.issue x.next x.clock x.lag c
       exec (.join c j) s = .next (putBody { s with cur := none } x.ref (setGroups x.body x.ref
         [{ g with mask := x.exec, inPlay := false,
                   wait := some { obj := .join j.toNat, instr := none, since := x.clock, probe := x.clock + 65536 } },
          { g with mask := x.grp.mask &&& ~~~x.exec }]))) ∧
     (runsAs s (.exit c) x → x.ref = .access team → exec (.exit c) s =
       .next (modTeam { s with cur := none } team fun tm => { tm with access := none })) ∧
     (runsAs s (.exit c) x → x.ref = .crew uid low → x.body = .crew cr →
       let s1 := retire x c x.body s
       ∀ now, tget s1.crews uid = some now →
         (∀ t, now.owner = .team t → exec (.exit c) s = .next (putCrew s1 uid (now.leave x.exec))) ∧
         (∀ p, now.owner = .pool p →
           exec (.exit c) s = .next (leavePool (putCrew s1 uid (now.leave x.exec)) now.grid p x.lanes.length))) ∧
     (runsAs s (.reform c) x → x.ref = .crew uid low → x.body = .crew cr →
       let late := cr.results.any fun r => x.exec.getLsbD r.lane && (match r.dst with | .g _ | .p _ => true | _ => false)
       let bin := binFor (quarterAt s cr.quarterId).bins { grid := cr.grid, owner := cr.owner, pc := x.next }
       (late = true → exec (.reform c) s = .next (waitEx x .scoreboard (.reform c) s)) ∧
       (late = false → bin.isSome = true → exec (.reform c) s = .next (reformLanes x c cr uid s)) ∧
       (late = false → bin = none → exec (.reform c) s = .next (holdBack (drawOldest s cr.quarterId) x.ref (s.clock + 1)))))

/-- BRA, BRX, CALL, CALLX and RET, hinted or not, complete: each executing lane goes to its target, and a call sends the next instruction's
address to D. BRA without and with a hint takes each lane to the branch address plus the offset where its test holds; BRX, RET, CALL without and
with a hint and CALLX take each lane to its target where every target passes both checks, and a target that fails one faults with no lane
transferred: one that is not canonical raises ADDR_NONCANON, else one that is not a multiple of 4 raises PC_ALIGN, with the target of the lowest
lane that failed and the mask of every lane that did. After the transfer of a crew every lane of the group is in a group at its own address: its
target where it executes, the next instruction where not; an access thread is at its target. -/
def Obligations.Transfers : Prop :=
  ∀ (s : State) (x : Ex) (c : Ctl) (form : BraForm) (h : Hint) (d a : Spec) (off : W32),
    let far (t : Nat → Addr) := x.lanes.filter fun l => (t l).toNat / 2 ^ 55 != 0
    let odd (t : Nat → Addr) := x.lanes.filter fun l => (t l).toNat % 4 != 0
    let there := x.pc + off.signExtend 64
    let taken := fun l => match form with | .always => true | .zero => x.v a l == 0 | .nonzero => x.v a l != 0
    let called := x.body.sendW x.exec d fun _ => x.next
    let goes (i : Instr) (b : Body) (t : Nat → Addr) : Prop := runsAs s i x →
      (far t = [] → odd t = [] → exec i s = .next (transfer x c b t s)) ∧
      (∀ l r, far t = l :: r → exec i s = .next (faultEx x .addrNoncanon (t l) (maskOf (l :: r)) s)) ∧
      (∀ l r, far t = [] → odd t = l :: r → exec i s = .next (faultEx x .pcAlign (t l) (maskOf (l :: r)) s))
    (runsAs s (.bra c form a off) x →
      exec (.bra c form a off) s = .next (transfer x c x.body (fun l => if taken l then there else x.next) s)) ∧
    (runsAs s (.braHint c form a off h) x →
      exec (.braHint c form a off h) s = .next (transfer x c x.body (fun l => if taken l then there else x.next) s)) ∧
    goes (.brx c a) x.body (x.w a) ∧ goes (.ret c a) x.body (x.w a) ∧ goes (.callx c d a) called (x.w a) ∧
    goes (.call c d off) called (fun _ => there) ∧ goes (.callHint c d off h) called (fun _ => there) ∧
    (∀ (b : Body) (t : Nat → Addr) (uid low l : Nat) (cr : Crew), x.ref = .crew uid low → b = .crew cr → l < 64 →
      x.grp.mask.getLsbD l = true → ∃ cr' g, tget (transfer x c b t s).crews uid = some cr' ∧ g ∈ cr'.groups ∧
        g.mask.getLsbD l = true ∧ g.pc = if x.exec.getLsbD l then t l else x.next) ∧
    (∀ (b : Body) (t : Nat → Addr) (ap : Machine.Access), b = .ap ap → transfer x c b t s = finishAt x c b (t 0) s)

/-- LD, LDS and LDC complete: the checks of every lane first, then each lane reads, then the registers are on their way. For every size, order,
scope and reach: a failing check raises its fault for the lanes that fail it; where the access has a byte in common with an earlier access of the
unit that is still to be performed, or an earlier one acquires, that is performed first; the load waits until its requests find places. A load
that the memory system performs after its issue is entered among the unit's accesses, with its registers on their way. Otherwise the lanes are
read in ascending order; what stops them (an abort, a held line, poison, a refusal) happens instead of the load; else an acquire is made where
the instruction asks for one, and the registers of the size are sent, sign- or zero-extended, at once or, where bytes of a bound view are among
them, under the number of the access. The model's own: which loads are performed after their issue, and in which pieces (log 36); what a held
line or a transfer to another team does to a load (log 16), and in which order what stops its lanes is looked at (log 17); that the lanes which
wait do so apart (log 49). -/
def Obligations.Loads : Prop :=
  ∀ (s : State) (i : Instr) (q : Safety.Access) (x : Ex), loadOf i = some q → runsAs s i x →
    let core := coreOf s x.ref
    let ps := q.pieces s x .load
    let r := eachPass q.m.rc.toNat x.lanes (q.loadOne s x) s
    let stop := memStop x i r.1 (fun l => (q.ea x l).toNat) s
    let acq := q.m.ord == .acquire && x.lanes.any fun l => txMode x l == (false, false)
    let s1 := if acq then acquireAt r.2 core (lvlOf q.m.scope) else r.2
    let s2 := { s1 with late := s1.late.drop 1 }
    let queued := r.1.any fun e => match e.2 with | .pieces _ => true | _ => false
    let all := (r.1.map fun e => e.2.pieceList (pathOf s x q.m e.1) (q.ea x e.1).toNat e.1).flatten
    (∀ f, q.checks s x .load = some f → exec i s = .next (failLanes x f s)) ∧
    (q.checks s x .load = none →
      (meetsPend s x.ref ps = true → exec i s = .next (drainFirst s x.ref i)) ∧
      (meetsPend s x.ref ps = false → placesFor s core (requestsOf ps).length = false → exec i s = .next (waitEx x .places i s)) ∧
      (meetsPend s x.ref ps = false → placesFor s core (requestsOf ps).length = true → defers s x q.m ps = true →
        let t := addPend { s with late := s.late.drop 1 }
          (pendFor s x false none (if acq then some (lvlOf q.m.scope) else none) q.sz (some q.data) ps)
        exec i s = .next (retire x q.ctl
          (sendLoads x q.sz q.data (some s.nums.uid) (x.lanes.map fun l => (l, .stored)) (x.now t)) t)) ∧
      (meetsPend s x.ref ps = false → placesFor s core (requestsOf ps).length = true → defers s x q.m ps = false →
        (∀ t, stop = some t → exec i s = .next t) ∧
        (stop = none → queued = false →
          exec i s = .next (retire x q.ctl (sendLoads x q.sz q.data none r.1 (x.now s2)) s2)) ∧
        (stop = none → queued = true →
          let t := addPend s2 (pendFor s2 x false none none q.sz (some q.data) all)
          exec i s = .next (retire x q.ctl (sendLoads x q.sz q.data (some s2.nums.uid) r.1 (x.now t)) t))))

/-- ST, STS and STC complete: the checks of every lane, then the release, then each lane stores. For every size, order, scope and reach: a
failing check raises its fault; earlier accesses of the unit that are still to be performed are performed first where bytes coincide or one
acquires, or where the store is performed at its issue and follows one that writes, or is a release; the store waits until its requests find
places; a release waits for what it must and writes back first. A store that the memory system performs after its issue is entered among the
accesses of the unit, with the level of its release. Otherwise the lanes store in ascending order, what stops them happens instead of the store,
and what goes to a window is sent there. The model's own: which stores are performed after their issue, and in which pieces (log 36), and what
waiting for a held line does (log 16). -/
def Obligations.Stores : Prop :=
  ∀ (s : State) (i : Instr) (q : Safety.Access) (x : Ex), storeOf i = some q → runsAs s i x →
    let core := coreOf s x.ref
    let lvl := lvlOf q.m.scope
    let ps := q.pieces s x .store
    let rel := q.m.ord == .release && x.lanes.any fun l => txMode x l == (false, false)
    let late := defers s x q.m ps
    let first := meetsPend s x.ref ps || (!late && (pendOf s x.ref).any fun p => p.pieces.any (·.writes p) || rel)
    let roomFor := placesFor s core (requestsOf ps).length
    let s0 := if rel then releaseAt s core lvl else s
    let r := eachLane x.lanes (q.storeOne s x) s0
    let stop := memStop x i r.1 (fun l => (q.ea x l).toNat) s
    let win := x.lanes.map fun l => (l, if (txMode x l).1 then [] else
      windowBytes (q.segs s x .store l) (q.ea x l).toNat (storeBytes x q.sz q.data l))
    (∀ f, q.checks s x .store = some f → exec i s = .next (failLanes x f s)) ∧
    (q.checks s x .store = none →
      (first = true → exec i s = .next (drainFirst s x.ref i)) ∧
      (first = false → roomFor = false → exec i s = .next (waitEx x .places i s)) ∧
      (∀ o, first = false → roomFor = true → rel = true → releaseObject s x.ref q.m.scope = some o → exec i s = .next (waitEx x o i s)) ∧
      (first = false → roomFor = true → (rel = true → releaseObject s x.ref q.m.scope = none) →
        (late = true →
          let t := addPend { s with late := s.late.drop 1 } (pendFor s x true (if rel then some lvl else none) none q.sz none ps)
          exec i s = .next (retire x q.ctl (x.now t) t)) ∧
        (∀ t, late = false → stop = some t → exec i s = .next t) ∧
        (late = false → stop = none →
          let t := sendStores { r.2 with late := r.2.late.drop 1 } x win
          exec i s = .next (retire x q.ctl (x.now t) t))))

/-- A plain load of device memory gives, byte by byte, the nearest copy: the L1, else the cluster cache, else the L2. For every state, address
and length, and whatever EVICT and RC ask for, the bytes that a plain load on a core gives are the bytes of byteAt; and the load changes
no byte that any core would find. -/
def Obligations.PlainLoadReadsNearestCopy : Prop :=
  ∀ (s : State) (p : Path) (pa n : Nat), p.strong = none →
    (loadDev s p pa n).1 = (List.range n).map (fun i => byteAt s p.core (pa + i)) ∧
    (∀ core a, byteAt (loadDev s p pa n).2 core a = byteAt s core a) ∧
    (loadDev s p pa n).2.mem = s.mem

/-- A load that follows a store of the same bytes on one core gives the bytes stored. For every state, address and bytes: after a plain store,
with or without EVICT = once, a plain load of the same range on the same core gives the bytes stored, and every other address reads on that core
as before. Where the store does not allocate in the L1 (EVICT = once) the cluster cache is to have room for the lines of the L1, so that no line
leaves it. -/
def Obligations.StoreThenLoadReturnsBytes : Prop :=
  ∀ (s : State) (p r : Path) (pa : Nat) (bs : List Byte), p.strong = none → r.strong = none → p.core = r.core →
    (p.once = true → roomy s p.core 0) →
    (loadDev (storeDev s p pa bs) r pa bs.length).1 = bs ∧
    (∀ a, a < pa ∨ pa + bs.length ≤ a → byteAt (storeDev s p pa bs) p.core a = byteAt s p.core a) ∧
    (storeDev s p pa bs).mem = s.mem

/-- A store at a scope performed at the L2 puts its bytes there, and no other byte but unwritten stores of its own path. For every state whose
memory is in canonical form: after a strong store at the L2 every byte stored has its new value in the L2; every other byte of the L2 is as
before unless a cache on the path held an unwritten store to it, or its line is one whose read count has run out, which is dropped. -/
def Obligations.StrongStoreReachesTheL2 : Prop :=
  ∀ (s : State) (p : Path) (pa : Nat) (bs : List Byte), p.strong = some .l2 → Memory.wf s.mem = true →
    (∀ i, i < bs.length → cellGet (storeDev s p pa bs).mem (pa + i) = bs.getD i 0) ∧
    (∀ a, a < pa ∨ pa + bs.length ≤ a → dirtyAt (coreAt s p.core).l1 a = false →
      dirtyAt (clusterAt s (p.core / 4)).cache a = false → (∀ l, tget s.lines (a / 128) = some l → l.rc ≠ some 0) →
      cellGet (storeDev s p pa bs).mem a = cellGet s.mem a)

/-- Plain stores change no byte but those they store, and plain loads none, in memory as any core sees it and in scratchpads. For a unit none of
whose earlier accesses is still to be performed, whose scratchpad is on its core, and whose scope caches have room for the lines of the access.
For ST, STS and STC without ORD, in lanes outside transactions: in the next state every scratchpad byte outside the ranges stored, and every byte
of device memory that any core finds outside the addresses stored, reads as before (under EVICT = once, other cores of the cluster may also come
to see earlier unwritten stores of the storing core); the bytes held by the L2 itself, the registers of the unit, every context, grid, quarter,
fault domain, launch queue and security register are unchanged. For LD, LDS and LDC without ORD, in lanes outside transactions and where nothing
stops a lane: in the next state every byte of device memory, at the L2 and as any core finds it, whose line has no read count and is not filled
with one by the load, every scratchpad byte of every team, and those registers are as before. -/
def Obligations.PlainAccessFrames : Prop :=
  ∀ (s t : State) (i : Instr) (q : Safety.Access) (x : Ex), runsAs s i x → q.m.ord = .plain → plainLanes x = true →
    pendOf s x.ref = [] → roomy s (coreOf s x.ref) (16 * x.lanes.length) → exec i s = .next t →
    (∀ k tm, teamOf s x.ref = some k → tget s.teams k = some tm → tm.image = none) →
    (storeOf i = some q → q.checks s x .store = none →
      t.mem = s.mem ∧
      (∀ core a, a ∉ q.stored s x →
        (core = coreOf s x.ref ∨ q.m.evict ≠ 7#3 ∨ dirtyAt (coreAt s (coreOf s x.ref)).l1 a = false) →
        byteAt t core a = byteAt s core a) ∧
      (∀ k a, a ∉ q.storedPad s x k → padByte t k a = padByte s k a) ∧
      (∀ b, bodyOf s x.ref = some b → ∃ b', bodyOf t x.ref = some b' ∧ ∀ l code, b'.reg l code = b.reg l code) ∧
      t.ctxs = s.ctxs ∧ t.grids = s.grids ∧ t.quarters = s.quarters ∧ t.domains = s.domains ∧ t.sec = s.sec ∧ t.queues = s.queues) ∧
    (loadOf i = some q → q.checks s x .load = none →
      memStop x i (eachPass q.m.rc.toNat x.lanes (q.loadOne s x) s).1 (fun l => (q.ea x l).toNat) s = none →
      (∀ a, (∀ l, tget s.lines (a / 128) = some l → l.rc = none) → (q.m.rc = 0#4 ∨ a / 128 ∉ q.lines s x .load) →
        cellGet t.mem a = cellGet s.mem a ∧ ∀ core, byteAt t core a = byteAt s core a) ∧
      (∀ k a, padByte t k a = padByte s k a) ∧
      t.ctxs = s.ctxs ∧ t.grids = s.grids ∧ t.quarters = s.quarters ∧ t.domains = s.domains ∧ t.sec = s.sec ∧ t.queues = s.queues)

/-- ATOM, ATOMCAS, ATOMS and RED complete: every lane is checked, the release made, the lanes performed in ascending order, the acquire made, the
old values sent. For each of the four instructions, with the work its operands describe: a failing check raises its fault; earlier accesses of
the unit still to be performed are performed first; the instruction waits until its lanes find places; a release part waits for what it must. An
atomic that is performed after its issue is entered among the unit's accesses, lane by lane, with its release and acquire parts and its old
values on their way. Otherwise a release part writes back first; a held line or a request on its way to the scratchpad of another team makes the
group wait; poisoned data raises POISON; a refusal by the far side raises XLATE_PERM; else every lane is performed in ascending order, an acquire
part follows, and the old values are on their way to D. The replay region ends. The model's own: that POISON is raised with no lane performed
(log 17), which atomics are performed after their issue, and that the others are performed in one step (log 36), and waiting for a held line (log
16). -/
def Obligations.AtomicPerformance : Prop :=
  ∀ (s : State) (x : Ex) (c : Ctl) (op : AtomOp) (wide ar : Bool) (m : MemWord) (d a b v : Spec) (i : Instr) (w : AtomWork),
    runsAs s i x →
    ((i = .atom c op wide ar m d a b ∧
        w = { reach := .generic, wide, m, d := some d, acq := ar || m.ord == .acquire, rel := ar || m.ord == .release,
              host := hostAtom op, op := fun l => { op := some op, wide, v := x.vw wide b l, cmp := 0 } }) ∨
      (i = .atomcas c wide ar m d a b v ∧
        w = { reach := .generic, wide, m, d := some d, acq := ar || m.ord == .acquire, rel := ar || m.ord == .release,
              host := true, op := fun l => { op := none, wide, v := x.vw wide v l, cmp := x.vw wide b l } }) ∨
      (i = .atoms c op wide ar m d a b ∧
        w = { reach := .own, wide, m, d := some d, acq := ar || m.ord == .acquire, rel := ar || m.ord == .release,
              host := false, op := fun l => { op := some op, wide, v := x.vw wide b l, cmp := 0 } }) ∨
      (i = .red c op wide m a b ∧
        w = { reach := .generic, wide, m, d := none, acq := false, rel := m.ord == .release,
              host := hostAtom op, op := fun l => { op := some op, wide, v := x.vw wide b l, cmp := 0 } })) →
    let n := if wide then 8 else 4
    let req := fun l => laneReq s x w.reach .atomic (effAddr x w.reach a m.off l) n n w.farOk l
    let core := coreOf s x.ref
    let lvl := lvlOf m.scope
    let qs := x.lanes.map fun l => (l, (req l).acc)
    let ps := qs.map fun e => ({ lane := e.1, va := e.2.va, place := atomPlace s e.2, n := e.2.n, path := atomPath s x m e.1, bytes := [],
                                 done := false, bad := false, op := some (w.op e.1) } : Piece)
    let late := defers s x m ps || ps.any (Piece.toAbsent s (teamOf s x.ref))
    let check := checkLanes s (x.lanes.map fun l => (l, req l, effAddr x w.reach a m.off l))
    let first := meetsPend s x.ref ps || (!late && !(pendOf s x.ref).isEmpty)
    let roomFor := placesFor s core (requestsOf ps).length
    let s0 := if w.rel then releaseAt s core lvl else s
    let places := qs.map fun e => (e.2, atomPlace s0 e.2)
    let far := places.filter fun e => match e.2 with | .far _ _ => true | _ => false
    let waits := qs.findSome? (atomBlocked s0 x m)
    let poisoned := places.find? fun e => atomPoison s0 core e.2 n
    let refused := !far.isEmpty && Config.freeBool (2 * s.nums.fresh + 1)
    let r := atomLanes (dropDue s0) x w qs
    let s1 := if w.acq then acquireAt r.2 core lvl else r.2
    (∀ l old, (w.op l).new old = match i with
      | .atomcas .. => casBytes wide (x.vw wide b l) (x.vw wide v l) old
      | _ => atomBytes op wide (x.vw wide b l) old) ∧
    (∀ f, check = some f → exec i s = .next (failLanes x f s)) ∧
    (check = none → first = true → exec i s = .next (drainFirst s x.ref i)) ∧
    (check = none → first = false → roomFor = false → exec i s = .next (waitEx x .places i s)) ∧
    (∀ o, check = none → first = false → roomFor = true → w.rel = true → releaseObject s x.ref m.scope = some o →
      exec i s = .next (waitEx x o i s)) ∧
    (check = none → first = false → roomFor = true → (w.rel = true → releaseObject s x.ref m.scope = none) →
      (late = true →
        let t := addPend { s with late := s.late.drop 1 } (pendFor s x false (if w.rel then some lvl else none)
          (if w.acq then some lvl else none) (if wide then .b64 else .b32) w.d ps)
        exec i s = .next (retireEnd x c (match w.d with
          | some e => sendLoads x (if wide then .b64 else .b32) e (some s.nums.uid) (x.lanes.map fun l => (l, .stored)) (x.now t)
          | none => x.now t) t)) ∧
      (∀ o, late = false → waits = some o → exec i s = .next (waitEx x o i s)) ∧
      (∀ e, late = false → waits = none → poisoned = some e →
        exec i s = .next (faultEx x .poison (BitVec.ofNat 64 e.1.va) 0 s)) ∧
      (late = false → waits = none → poisoned = none → refused = true → ∃ ls addr, exec i s =
        .next (faultUnit { s with nums := { s.nums with fresh := s.nums.fresh + 1 } } x.ref x.grp.mask x.pc
          { cause := .xlatePerm, addr, mask := maskOf ls, detail := xlateDetail 0 .atomic, exact := false }) ∧
        ∀ l, l ∈ ls ↔ l ∈ x.lanes ∧ ∃ port pa, atomPlace s0 (req l).acc = .far port pa) ∧
      (late = false → waits = none → poisoned = none → refused = false →
        exec i s = .next (retireEnd x c (sendOld x wide w.d r.1 (x.now s1)) { s1 with late := s1.late.drop 1 })))

/-- The new values of the integer atomic operations, and the update of a barrier. At 32 and at 64 bits: add, the signed and unsigned minima
and maxima, and, or, xor, exchange, and the wrapping increment and decrement give the values of the table over the integers. For every
barrier: an update that brings REMAIN and BALANCE to zero flips PHASE and reloads REMAIN; one that does not keeps PHASE; too many arrivals
and an error input set ERROR; and a barrier written to a scratchpad reads back as it was. -/
def Obligations.UpdateRules : Prop :=
  (∀ (x v : W32) (y w : W64),
     atomNew32 .add x v = wrap32 (x.toNat + v.toNat : Nat) ∧ atomNew64 .add y w = wrap64 (y.toNat + w.toNat : Nat) ∧
     (atomNew32 .mins x v).toInt = min x.toInt v.toInt ∧ (atomNew64 .mins y w).toInt = min y.toInt w.toInt ∧
     (atomNew32 .maxs x v).toInt = max x.toInt v.toInt ∧ (atomNew64 .maxs y w).toInt = max y.toInt w.toInt ∧
     (atomNew32 .minb x v).toNat = min x.toNat v.toNat ∧ (atomNew64 .minb y w).toNat = min y.toNat w.toNat ∧
     (atomNew32 .maxb x v).toNat = max x.toNat v.toNat ∧ (atomNew64 .maxb y w).toNat = max y.toNat w.toNat ∧
     atomNew32 .and x v = x &&& v ∧ atomNew32 .or x v = x ||| v ∧ atomNew32 .xor x v = x ^^^ v ∧ atomNew32 .exch x v = v ∧
     atomNew64 .and y w = y &&& w ∧ atomNew64 .or y w = y ||| w ∧ atomNew64 .xor y w = y ^^^ w ∧ atomNew64 .exch y w = w ∧
     (atomNew32 .inc x v).toNat = (if v.toNat ≤ x.toNat then 0 else x.toNat + 1) ∧
     (atomNew64 .inc y w).toNat = (if w.toNat ≤ y.toNat then 0 else y.toNat + 1) ∧
     (atomNew32 .dec x v).toNat = (if x.toNat = 0 ∨ v.toNat < x.toNat then v.toNat else x.toNat - 1) ∧
     (atomNew64 .dec y w).toNat = (if y.toNat = 0 ∨ w.toNat < y.toNat then w.toNat else y.toNat - 1)) ∧
    ((∀ (b : Bar) (arr : Nat) (n : Int), arr ≤ b.remain → -(2 ^ 47 : Int) ≤ b.balance + n → b.balance + n < 2 ^ 47 →
       (b.remain = arr → b.balance + n = 0 →
         b.update arr n false = { b with phase := !b.phase, remain := b.expected, balance := 0 }) ∧
       (¬ (b.remain = arr ∧ b.balance + n = 0) →
         b.update arr n false = { b with remain := b.remain - arr, balance := b.balance + n })) ∧
     (∀ (b : Bar) (arr : Nat) (n : Int), b.remain < arr → (b.update arr n false).error = true) ∧
     (∀ (b : Bar) (arr : Nat) (n : Int), (b.update arr n true).error = true) ∧
     (∀ b : Bar, b.expected < 2 ^ 16 → b.remain < 2 ^ 16 → -(2 ^ 47 : Int) ≤ b.balance → b.balance < 2 ^ 47 → b.reserved < 2 ^ 46 →
       Bar.ofNat b.toNat = b))

/-- FENCE, CCTL, ICINV and PREF complete: each acts on the caches of its scope, after what it must wait for. FENCE waits for what its release
part must, then writes back and invalidates below its scope, and goes on. CCTL raises ADDR_NONCANON for addresses that are not canonical, waits
for a line that it would write back and that an irrevocable attempt holds, and otherwise acts lane by lane on the bytes of its ranges that
translate to device memory; ICINV raises ADDR_NONCANON likewise and otherwise discards the fetch blocks of its ranges from the instruction caches
of its scope; PREF fills the line of each executing lane and never faults. None of them changes a register of the unit, a byte of a scratchpad, a
context, a grid or a quarter when it completes. The model's own: that CCTL waits for a line that an irrevocable attempt holds (log 16). -/
def Obligations.FencesAndCacheControl : Prop :=
  ∀ (s : State) (x : Ex) (c : Ctl) (m : MemWord) (op : CctlOp) (a b : Spec),
    let core := coreOf s x.ref
    let ctx := ctxOf s x.ref
    let ea := fun l => (effAddr x .generic a m.off l).toNat
    let ia := fun l => (x.w a l).toNat
    let far (f : Nat → Nat) := x.lanes.filter fun l => decide (2 ^ 55 ≤ f l)
    let rel := m.ord ≠ .acquire
    let f1 := if m.ord ≠ .acquire then releaseAt s core (lvlOf m.scope) else s
    let f2 := if m.ord ≠ .release then acquireAt f1 core (lvlOf m.scope) else f1
    let held := x.lanes.findSome? fun l => cctlHeld s x (lvlOf m.scope) op (devRanges s ctx (ea l) (x.v b l).toNat)
    let cc := x.lanes.foldl (fun s l =>
      cctlOn s (coreOf s x.ref) (lvlOf m.scope) op (devRanges s (ctxOf s x.ref) (ea l) (x.v b l).toNat)) s
    let ic := x.lanes.foldl (fun s l =>
      icDrop s (coreOf s x.ref) m.scope (devRanges s (ctxOf s x.ref) (ia l) (x.v b l).toNat)) s
    let pf := x.lanes.foldl (fun s l => prefLine s (coreOf s x.ref) (ctxOf s x.ref) m (ea l)) s
    (runsAs s (.fence c m) x →
      (∀ o, rel → releaseObject s x.ref m.scope = some o → exec (.fence c m) s = .next (waitEx x o (.fence c m) s)) ∧
      ((rel → releaseObject s x.ref m.scope = none) → exec (.fence c m) s = .next (retire x c x.body f2))) ∧
    (runsAs s (.cctl c op m a b) x →
      (∀ l r, far ea = l :: r → exec (.cctl c op m a b) s =
        .next (faultEx x .addrNoncanon (BitVec.ofNat 64 (ea l)) (maskOf (l :: r)) s)) ∧
      (∀ o, far ea = [] → held = some o → exec (.cctl c op m a b) s = .next (waitEx x o (.cctl c op m a b) s)) ∧
      (far ea = [] → held = none → exec (.cctl c op m a b) s = .next (retire x c x.body cc))) ∧
    (runsAs s (.icinv c m a b) x →
      (∀ l r, far ia = l :: r → exec (.icinv c m a b) s =
        .next (faultEx x .addrNoncanon (BitVec.ofNat 64 (ia l)) (maskOf (l :: r)) s)) ∧
      (far ia = [] → exec (.icinv c m a b) s = .next (retire x c x.body ic))) ∧
    (runsAs s (.pref c m a) x → exec (.pref c m a) s = .next (retire x c x.body pf)) ∧
    (∀ t ∈ [f2, cc, ic, pf], (∀ k n, padByte t k n = padByte s k n) ∧ t.crews = s.crews ∧ t.teams = s.teams ∧ t.ctxs = s.ctxs ∧
      t.grids = s.grids ∧ t.quarters = s.quarters)

/-- Register-only instructions change only the registers their destinations name, which then hold what was written. For the instructions of
word32, word64, predicate and floatQuiet, those of floatLoud and lateLoud where no lane meets an event, and IADDC, RDSP, NOP, YIELD,
REPLAY, SHFL, VOTE and MATCH: the next state differs only in the unit that issued and in what is selected; in that unit every register
that no destination names is as before in every lane, a lane register keeps its value in every lane that does not execute, and rejoin
masks, tile masks and tokens are as before. In a lane of a crew that has the register: a 32-bit result, each word of a pair and a
predicate read back as written, a k register holds the value of the lowest executing lane, and writes to gz (0xFF) or pt (7) leave the
unit as it was; gz reads 0 at either width. -/
def Obligations.RegisterFrames : Prop :=
  (∀ (s t : State) (i : Instr) (p : Shape) (x : Ex) (b : Body), shape s i = some p → runsAs s i x → bodyOf s x.ref = some b →
     ((word32 i).isSome ∨ (word64 i).isSome ∨ (predicate i).isSome ∨ (floatQuiet i).isSome ∨
       (∃ r, floatLoud i = some r ∧ ∀ l ∈ x.lanes, (r.val x l).2 = []) ∨
       (∃ r, lateLoud i = some r ∧ ∀ l ∈ x.lanes, (r.val x l).2 = []) ∨
       (∃ c d a e q, i = .iaddc c d a e q) ∨ (∃ c d a m q, i = .iaddcImm c d a m q) ∨ (∃ c d sp, i = .rdsp c d sp) ∨
       (∃ c, i = .nop c ∨ i = .yield c) ∨ (∃ c n, i = .replay c n) ∨ (∃ c m w d a e u v, i = .shfl c m w d a e u v) ∨
       (∃ c m d a, i = .vote c m d a) ∨ (∃ c w d a, i = .matchLanes c w d a)) →
     exec i s = .next t →
     onlyUnit s t x.ref ∧ ∃ b', bodyOf t x.ref = some b' ∧ b'.toks = b.toks ∧ b'.held = b.held ∧
       (∀ l code, code ∉ destCodes s b p.ops → b'.reg l code = b.reg l code) ∧
       (∀ l code, x.exec.getLsbD l = false → (code < 192 ∨ 240 ≤ code) → b.isAp = false → b'.reg l code = b.reg l code) ∧
       (∀ c c', b = .crew c → b' = .crew c' → c'.j = c.j ∧ c'.f = c.f ∧ c'.ctx = c.ctx ∧ c'.grid = c.grid ∧ c'.owner = c.owner)) ∧
    (∀ (x : Ex) (cr : Crew) (th : Thread) (l lat : Nat) (d : Spec) (f : Nat → W32) (g : Nat → W64) (h : Nat → Bool),
     x.body = .crew cr → x.exec.getLsbD l = true → cr.lanes.getD l none = some th →
     (d.toNat < th.g.length → th.g.length ≤ 192 → (x.fixV lat d f).reg l d.toNat = (f l).setWidth 64) ∧
     (d.toNat + 1 < th.g.length → th.g.length ≤ 192 → pair64 (((x.fixW lat d g).reg l d.toNat).setWidth 32)
       (((x.fixW lat d g).reg l (d.toNat + 1)).setWidth 32) = g l) ∧
     (192 ≤ d.toNat → d.toNat < 240 → d.toNat - 192 < cr.k.length → (x.fixV lat d f).reg l d.toNat = (f x.low).setWidth 64) ∧
     (d.toNat % 8 ≠ 7 → (x.fixP lat d h).reg l (240 + d.toNat % 8) = (if h l then 1 else 0)) ∧
     x.fixV lat 255#8 f = x.body ∧ x.fixW lat 255#8 g = x.body ∧ (d.toNat % 8 = 7 → x.fixP lat d h = x.body) ∧
     x.v 255#8 l = 0 ∧ x.w 255#8 l = 0)

/-- pt discards writes and reads true in every lane. In a crew, a predicate result for a specifier whose field is 7 leaves the unit unchanged,
and a source specifier with field 7 and no negate bit is true in every lane. -/
def Obligations.TruePredicate : Prop :=
  ∀ (x : Ex) (cr : Crew) (d : Spec) (lat : Nat) (h : Nat → Bool), x.body = .crew cr → d.toNat % 8 = 7 →
    x.fixP lat d h = x.body ∧ (d.getLsbD 3 = false → ∀ l, x.p d l = true)

/-- A command instruction faults, waits or completes: then one command is made, its token assigned and its region ended. ASTREAM, GATHER,
SCATTER, CPY, CPY2G, CPYT (both directions), CPYR, FRED, CHAIN and PDEC: with the request that the operands of the lowest executing lane make, a
failing check of R181 raises its fault, a full token, engine, quota or queue makes the group wait for that object, and otherwise the instruction
completes: there is one command more, under a fresh number, holding the request and its issuer, the token of the unit has one operation more, and
the issuing group is at the next instruction with its region ended. A reduction's command also joins its group, a stream's becomes the producer
of its queue, and a copy of no bytes is over at once. The model's own: that every check is made before the wait for a token, a place or a queue
(log 12), and over which ranges the checks of ASTREAM, CPY2G and CPYT run (log 19). -/
def Obligations.CommandsAreAccepted : Prop :=
  ∀ (s : State) (x : Ex) (i : Instr) (q : CmdReq) (t : State) (p : Shape), commandOf s x i = some (q, t) → shape s i = some p → runsAs s i x →
    t.cmds = s.cmds ∧
    (∀ f, cmdCheck t x q = some f → exec i s = .next (failEx x f x.exec t)) ∧
    (∀ o, cmdCheck t x q = none → cmdWaits t x q = some o → exec i s = .next (waitEx x o i t)) ∧
    (cmdCheck t x q = none → cmdWaits t x q = none →
      let tok := assignToken x.body q.cb.tv q.cb.tok.toNat
      let n := t.nums.uid
      ∃ cmd : Cmd, cmd.kind = q.kind ∧ cmd.by_ = issuerOf t x tok.2 ∧ cmd.bar = q.bar ∧ cmd.bytes = q.bytes ∧ cmd.pos = 0 ∧
        cmd.stopped = none ∧
        (let made := { t with nums := { t.nums with uid := n + 1 }, cmds := tset t.cmds n cmd }
         exec i s = .next (match q.kind with
           | .cpy _ _ 0 => finishCmd (retireEnd x p.ctl tok.1 made) n cmd 0
           | .fred _ _ _ _ _ _ _ => retireEnd x p.ctl tok.1 (fredJoin made n cmd)
           | .astream oq _ _ _ _ _ => retireEnd x p.ctl tok.1 (match cmd.by_.team with
             | some k => modTeam made k fun tm =>
               { tm with queues := lset tm.queues oq { tm.queues.getD oq { entries := [], producer := none } with producer := some n } }
             | none => made)
           | _ => retireEnd x p.ctl tok.1 made)))

/-- OPUSH and OPOP complete: OPUSH appends one 128-byte entry and OPOP takes the oldest entries, each waiting while it cannot. OPUSH waits while
its queue has a producer or 64 entries, and otherwise appends the 128 bytes of its registers as one clean entry; OPOP waits until the queue holds
the entries its crew needs, raises POISON where one of them was read poisoned, and otherwise takes them, oldest first, each lane receiving its
bytes. The model's own: that an entry read poisoned raises POISON at OPOP and stays in its queue (log 19). -/
def Obligations.OperandQueues : Prop :=
  ∀ (s : State) (x : Ex) (c : Ctl) (q : BitVec 4) (a d : Spec) (n : BitVec 5) (wide : Bool) (k : Nat) (tm : Team),
    teamOf s x.ref = some k → tget s.teams k = some tm →
    let oq := tm.queues.getD q.toNat { entries := [], producer := none }
    let m := opopCount x.width wide
    let e := if wide then 8 else 4
    let bs := (oq.entries.take m).flatten
    (runsAs s (.opush c q a n) x → oq.producer = none → oq.entries.length < 64 →
      exec (.opush c q a n) s = .next (retire x c x.body (modTeam s k fun tm =>
        { tm with queues := lset tm.queues q.toNat (oq.push (opushBytes x a n.toNat) false) }))) ∧
    (∀ (o : OpQueue) (b : List Byte) (bad : Bool), (o.push b bad).entries = o.entries ++ [b] ∧
      (o.push b bad).marks.getD o.entries.length (!bad) = bad ∧ (o.push b bad).producer = o.producer) ∧
    (runsAs s (.opush c q a n) x → (oq.producer.isSome ∨ 64 ≤ oq.entries.length) →
      exec (.opush c q a n) s = .next (waitEx x (.queueFull q.toNat) (.opush c q a n) s)) ∧
    (n.toNat ≤ 16 → (opushBytes x a n.toNat).length = 128) ∧
    (runsAs s (.opop c wide d q) x → m ≤ oq.entries.length → (oq.marks.take m).any id = false →
      exec (.opop c wide d q) s = .next (retire x c
        (x.body.sendX wide x.exec d fun l => BitVec.ofNat 64 (ofBytes ((bs.drop (l * e)).take e)))
        (modTeam s k fun tm => { tm with queues := lset tm.queues q.toNat (oq.pop m) }))) ∧
    (∀ (o : OpQueue) (n : Nat), (o.pop n).entries = o.entries.drop n ∧ (o.pop n).marks = o.marks.drop n ∧ (o.pop n).producer = o.producer) ∧
    (runsAs s (.opop c wide d q) x → m ≤ oq.entries.length → (oq.marks.take m).any id = true →
      exec (.opop c wide d q) s = .next (faultEx x .poison 0 x.exec s)) ∧
    (runsAs s (.opop c wide d q) x → oq.entries.length < m →
      exec (.opop c wide d q) s = .next (waitEx x (.queueEmpty q.toNat m) (.opop c wide d q) s))

/-- CLOSE closes the open batch of a token, leaves an empty one, and waits while 15 closed batches are outstanding. CLOSE (opcode 0x289) of a
token of the issuing unit: with a nonempty open batch beside 15 outstanding closed ones it waits for room; otherwise the token is closed,
which changes nothing when the open batch is empty and otherwise makes one closed batch of what is outstanding and opens an empty one; the
effect is made once for the issue group. -/
def Obligations.ClosingTokens : Prop :=
  ∀ (s : State) (x : Ex) (c : Ctl) (t : Spec),
    let k := tokenAt x.body t.toNat
    (runsAs s (.close c t) x → k.openAll ≠ 0 → 15 ≤ k.closed.length →
      exec (.close c t) s = .next (waitEx x (.tokenRoom t.toNat) (.close c t) s)) ∧
    (runsAs s (.close c t) x → (k.openAll = 0 ∨ k.closed.length < 15) →
      exec (.close c t) s = .next (retire x c (x.body.setToks (lset x.body.toks t.toNat k.close)) s)) ∧
    (∀ k : Token, k.openAll = 0 → k.close = k) ∧
    (∀ k : Token, k.openAll ≠ 0 → k.openLeft ≠ 0 → k.close.openAll = 0 ∧ k.close.closed = k.closed ++ [(k.openId, k.openLeft)]) ∧
    (∀ k : Token, k.openAll ≠ 0 → k.openLeft = 0 → k.close.openAll = 0 ∧ k.close.closed = k.closed) ∧
    (∀ f, encodeFields (.close c t) = some f → f.grp = 0xA#4 ∧ f.op = 9#6 ∧ f.a = t)

/-- WAITB completes: it closes the batch of its token once, waits until at most N closed ones are left, then acquires and answers the error flag.
WAITB waits for room while the token cannot be closed; with the open batch closed, by this issue or by the one that began to wait, it waits while
more than N closed batches are outstanding; otherwise it acquires at the L2, sends the token error flag to D and clears it. -/
def Obligations.WaitingForBatches : Prop :=
  ∀ (s : State) (x : Ex) (c : Ctl) (n : BitVec 4) (d t : Spec), runsAs s (.waitb c n d t) x →
    let k := tokenAt x.body t.toNat
    let y := if x.leftWait then x else { x with body := x.body.setToks (lset x.body.toks t.toNat k.close) }
    let k' := tokenAt y.body t.toNat
    let closes := x.leftWait = true ∨ k.openAll = 0 ∨ k.closed.length < 15
    (x.leftWait = false → k.openAll ≠ 0 → 15 ≤ k.closed.length →
      exec (.waitb c n d t) s = .next (waitEx x (.tokenRoom t.toNat) (.waitb c n d t) s)) ∧
    (closes → n.toNat < k'.closed.length → exec (.waitb c n d t) s =
      .next (waitEx y (.tokenLeft t.toNat n.toNat) (.waitb c n d t) (putBody s x.ref y.body))) ∧
    (closes → k'.closed.length ≤ n.toNat → exec (.waitb c n d t) s =
      .next (retire y c ((y.body.setToks (lset y.body.toks t.toNat { k' with err := false })).sendV x.exec d
        fun _ => if k'.err then 1 else 0) (acquireAt s (coreOf s x.ref) .l2)))

/-- BARINIT, BARARV, BAREXP, BARWAIT and BARTEST complete: the first three update barriers, BARWAIT goes on or waits, BARTEST answers at once.
Each of the five faults where an offset is misaligned, outside the allocation or, for BARINIT, its count is out of 1 to 65,535, in this order.
BARINIT and BARARV, releases at team scope, wait for what such a release waits for. Otherwise BARINIT makes a barrier that expects its count in
phase 0; BARARV counts its arrivals, once or for every lane, with the declared bytes, and BAREXP the declared bytes, by the update of R189. Where
every executing lane finds PHASE different from bit 0 of B, BARWAIT acquires at its scope, sends ERROR to D and ends; where none of an access
thread does, it waits at its barrier; in a crew the lanes that do not wait in one group for each barrier and phase, and the others go on with the
acquire, if any, and ERROR. BARTEST sends hit, error and phase of each lane, with the acquire where some lane hits. -/
def Obligations.BarrierInstructions : Prop :=
  (∀ (s : State) (x : Ex) (c : Ctl) (one exp : Bool) (a b : Spec) (off : W32),
     let alloc := allocOf s (teamOf s x.ref)
     let n := (x.v b x.low).toNat
     let ls := if one then [x.low] else x.lanes
     let arr := ls.map fun l => (l, barOff x a off l)
     let all := x.lanes.map fun l => (l, barOff x a off l)
     let bad := fun (_ : Nat) => decide (n < 1) || decide (65535 < n)
     let waits (i : Instr) (offs : List (Nat × Int)) (p : Nat → Bool) : Prop := ∀ o : Awaited, runsAs s i x → barCheck alloc offs p = none →
       releaseObject s x.ref .team = some o → exec i s = .next (waitEx x o i s)
     let faults (i : Instr) (offs : List (Nat × Int)) (p : Nat → Bool) : Prop := ∀ f, runsAs s i x → barCheck alloc offs p = some f →
       exec i s = .next (faultEx x f.1 (BitVec.ofInt 64 f.2.1) f.2.2 s)
     (runsAs s (.barinit c a b off) x → barCheck alloc [(x.low, barOff x a off x.low)] bad = none → releaseObject s x.ref .team = none →
       exec (.barinit c a b off) s = .next (retire x c x.body (setBar s x.ref (barOff x a off x.low).toNat
         { expected := n, remain := n, balance := 0, reserved := 0, error := false, phase := false }))) ∧
     waits (.barinit c a b off) [(x.low, barOff x a off x.low)] bad ∧ faults (.barinit c a b off) [(x.low, barOff x a off x.low)] bad ∧
     (runsAs s (.bararv c one exp a b off) x → barCheck alloc arr (fun _ => false) = none → releaseObject s x.ref .team = none →
       exec (.bararv c one exp a b off) s = .next (retire x c x.body ((arr.map (·.2)).eraseDups.foldl (fun s o =>
         let mine := (arr.filter fun e => e.2 == o).map (·.1)
         let sum := if exp then mine.foldl (fun z l => z + (x.v b l).toNat) 0 else 0
         setBar s x.ref o.toNat ((barOf s x.ref o.toNat).update mine.length (-(sum : Int)) false)) s))) ∧
     waits (.bararv c one exp a b off) arr (fun _ => false) ∧ faults (.bararv c one exp a b off) arr (fun _ => false) ∧
     (runsAs s (.barexp c a b off) x → barCheck alloc all (fun _ => false) = none →
       exec (.barexp c a b off) s = .next (retire x c x.body (all.foldl (fun s e =>
         setBar s x.ref e.2.toNat ((barOf s x.ref e.2.toNat).update 0 (-((x.v b e.1).toNat : Int)) false)) s))) ∧
     faults (.barexp c a b off) all (fun _ => false)) ∧
    (∀ (s : State) (x : Ex) (c : Ctl) (sc : Scope) (d a b : Spec),
     let bar := fun l => barOf s x.ref (x.v a l).toNat
     let hit := fun l => (bar l).phase != (x.v b l).getLsbD 0
     let check := barCheck (allocOf s (teamOf s x.ref)) (x.lanes.map fun l => (l, ((x.v a l).toNat : Int))) fun _ => false
     let out := maskOf (x.lanes.filter hit)
     let stuck := x.lanes.filter fun l => !hit l
     let answer := x.body.sendV out d fun l => if (bar l).error then 1 else 0
     (runsAs s (.barwait c sc d a b) x → check = none → x.lanes.all hit = true → x.lanes ≠ [] →
       exec (.barwait c sc d a b) s = .next (retire x c answer (acquireAt s (coreOf s x.ref) (lvlOf sc)))) ∧
     (runsAs s (.barwait c sc d a b) x → check = none → x.body.isAp = true → x.lanes.all (fun l => !hit l) = true →
       exec (.barwait c sc d a b) s = .next (waitEx x (.barrier (x.v a 0).toNat ((x.v b 0).getLsbD 0)) (.barwait c sc d a b) s)) ∧
     (runsAs s (.barwait c sc d a b) x → check = none → x.body.isAp = false → stuck ≠ [] →
       let at_ := fun l => ((x.v a l).toNat, (x.v b l).getLsbD 0)
       let waiting := (stuck.map at_).eraseDups.map fun k =>
         ({ x.grp with
            mask := maskOf (stuck.filter fun l => at_ l == k), inPlay := false
            wait := some { obj := .barrier k.1 k.2, instr := some (.barwait c sc d a b), since := x.clock, probe := x.clock + 65536 } } : Group)
       let rest := { x.grp.issue x.next x.clock x.lag c with mask := x.grp.mask &&& ~~~(maskOf stuck) }
       exec (.barwait c sc d a b) s = .next (putBody
         { (if out = 0 then s else acquireAt s (coreOf s x.ref) (lvlOf sc)) with cur := none } x.ref
         (setGroups answer x.ref (waiting ++ [rest])))) ∧
     (∀ f, check = some f →
       (runsAs s (.barwait c sc d a b) x →
         exec (.barwait c sc d a b) s = .next (faultEx x f.1 (BitVec.ofInt 64 f.2.1) f.2.2 s)) ∧
       (runsAs s (.bartest c sc d a b) x →
         exec (.bartest c sc d a b) s = .next (faultEx x f.1 (BitVec.ofInt 64 f.2.1) f.2.2 s))) ∧
     (runsAs s (.bartest c sc d a b) x → check = none → exec (.bartest c sc d a b) s = .next (retire x c
       (x.body.sendV x.exec d fun l =>
         BitVec.ofNat 32 ((if hit l then 1 else 0) + (if (bar l).error then 2 else 0) + (if (bar l).phase then 4 else 0)))
       (if x.lanes.any hit then acquireAt s (coreOf s x.ref) (lvlOf sc) else s))))

/-- TXOPEN and SPOPEN open the lanes that may, TXCOMMIT and SPCOMMIT release and commit, TXQUIT aborts with its code, TXSTAT reads the status:
each completes. Lanes below nine aborts open at once with every log entry empty and a status of 0 to D, after an acquire. Of the lanes of nine or
more, the one that holds the serial-commit token, or the lowest where it is free and nobody has asked, opens an irrevocable attempt with it; the
others ask for it in ascending order and wait in groups of their own, and those of SPOPEN whose iteration is not the next of their domain wait
for the domain first, while the rest of the issue opens. Outside any transaction TXCOMMIT, SPCOMMIT and TXQUIT only move on. A commit of an open
lane waits for what a release at device scope waits for and then releases to the L2: TXCOMMIT ends irrevocable attempts, giving up their lines
and the serial-commit token; its other lanes wait while a thread holds that token; else those that lose to another abort with INTRA and the rest
goes to the winners part. TXCOMMIT in a speculation and SPCOMMIT in a transaction that is none abort with INSTR. TXQUIT aborts the open revocable
lanes with EXPLICIT and its code and raises TX_IRREVOCABLE for those that are irrevocable; TXSTAT sends each lane its status word. The model's
own: the order of requests for the serial-commit token within one issue, and what of a commit waits where (log 16). -/
def Obligations.TransactionInstructions : Prop :=
  ∀ (s : State) (x : Ex) (c : Ctl) (ts : Bool) (dom : BitVec 3) (code : BitVec 7) (d a : Spec) (uid low : Nat) (cr : Crew),
    x.ref = .crew uid low → x.body = .crew cr →
    let irr := irrevLanes cr x.exec
    let set := txLanes cr x.exec &&& ~~~irr
    let s0 := clearLogs s cr (lanesOf x.exec)
    let opened (holder : Option (Nat × Nat)) : State :=
      acquireAt { s0 with dir := { s0.dir with serial := holder, serialAsk := s.dir.serialAsk } } (coreOf s x.ref) .l2
    let opens (i : Instr) (spec : Bool) (dm : Nat) (it : Nat → W32) (early : Nat → Bool) : Prop :=
      let hard := x.lanes.filter fun l => decide (9 ≤ (x.tx l).k)
      let asks := hard.filter fun l => !early l
      let taker := match s.dir.serial with
        | some h => asks.find? fun l => h == (uid, l)
        | none => if s.dir.serialAsk = [] then asks.head? else none
      let waits := asks.filter fun l => some l != taker
      let go := x.exec &&& ~~~(maskOf (hard.filter early ++ waits))
      let t := clearLogs s cr (lanesOf go)
      let asked := s.dir.serialAsk ++ (waits.map fun l => (uid, l)).filter fun h => !s.dir.serialAsk.contains h
      exec i s = .next (splitWaits x c i
        ((x.body.modLanes go fun l t => { t with tx := t.tx.begin ts spec (some l == taker) d x.next dm (it l) x.clock }).sendV go d fun _ => 0)
        ((hard.filter early).map (fun l => (1#64 <<< l, Awaited.spec dm)) ++ waits.map fun l => (1#64 <<< l, Awaited.serial))
        (acquireAt { t with dir := { t.dir with
          serial := match taker with | some l => some (uid, l) | none => s.dir.serial
          serialAsk := asked } } (coreOf s x.ref) .l2))
    (runsAs s (.txopen c ts d) x → opens (.txopen c ts d) false 0 (fun _ => 0) (fun _ => false)) ∧
    (runsAs s (.spopen c ts dom d a) x →
      opens (.spopen c ts dom d a) true dom.toNat (x.v a) (fun l => x.v a l != specNext s (gridOf s x.ref) dom.toNat)) ∧
    (∀ (i : Instr) (b : Body) (t : State), splitWaits x c i b [] t = retire x c b t) ∧
    (∀ (i : Instr) (b : Body) (t : State) (m : Mask) (o : Awaited),
      splitWaits x c i b [(m, o)] t = putBody { t with cur := none } x.ref (setGroups b x.ref
        [{ x.grp with mask := m, inPlay := false,
                      wait := some { obj := o, instr := some i, since := x.clock, probe := x.clock + 65536 } },
         { x.grp.issue x.next x.clock x.lag c with mask := x.grp.mask &&& ~~~m }])) ∧
    (runsAs s (.txopen c ts d) x → (∀ l ∈ x.lanes, (x.tx l).k < 9) →
      exec (.txopen c ts d) s = .next (retire x c
        ((x.body.modLanes x.exec fun _ t => { t with tx := t.tx.begin ts false false d x.next 0 0 x.clock }).sendV x.exec d fun _ => 0)
        (opened s.dir.serial))) ∧
    (runsAs s (.spopen c ts dom d a) x → (∀ l ∈ x.lanes, (x.tx l).k < 9) →
      exec (.spopen c ts dom d a) s = .next (retire x c
        ((x.body.modLanes x.exec fun l t =>
          { t with tx := t.tx.begin ts true false d x.next dom.toNat (x.v a l) x.clock }).sendV x.exec d fun _ => 0)
        (opened s.dir.serial))) ∧
    (∀ l, runsAs s (.txopen c ts d) x → x.lanes = [l] → 9 ≤ (x.tx l).k → s.dir.serial = none → s.dir.serialAsk = [] →
      exec (.txopen c ts d) s = .next (retire x c
        ((x.body.modLanes x.exec fun n t =>
          { t with tx := t.tx.begin ts false (some n == some l) d x.next 0 0 x.clock }).sendV x.exec d fun _ => 0) (opened (some (uid, l))))) ∧
    (runsAs s (.txcommit c) x → (∀ l ∈ x.lanes, (x.tx l).active = true → (x.tx l).isSpec = false) → irr ||| set = 0 →
      exec (.txcommit c) s = .next (retire x c x.body s)) ∧
    (runsAs s (.txcommit c) x → (∀ l ∈ x.lanes, (x.tx l).active = true → (x.tx l).isSpec = false) → irr ||| set ≠ 0 →
      let z := passIrrev x uid irr (releaseAt s (coreOf s x.ref) .l2)
      let win := maskOf (winners ((lanesOf set).filterMap fun l => (cr.lanes.getD l none).map fun t => (l, t.tx.k, gransOf z.2 cr t)))
      let lose := set &&& ~~~win
      (∀ o, releaseObject s x.ref .device = some o →
        exec (.txcommit c) s = .next (splitWaits x c (.txcommit c) x.body [(irr ||| set, o)] s)) ∧
      (releaseObject s x.ref .device = none → set = 0 → exec (.txcommit c) s = .next (retire z.1 c z.1.body z.2)) ∧
      (releaseObject s x.ref .device = none → set ≠ 0 → z.2.dir.serial.isSome = true →
        exec (.txcommit c) s = .next (splitWaits z.1 c (.txcommit c) z.1.body [(set, .serial)] z.2)) ∧
      (releaseObject s x.ref .device = none → set ≠ 0 → z.2.dir.serial = none → lose = 0 →
        exec (.txcommit c) s = .next (commitWinners (.txcommit c) c uid cr win z.1 z.2)) ∧
      (∀ y cr1, releaseObject s x.ref .device = none → set ≠ 0 → z.2.dir.serial = none → lose ≠ 0 →
        let s1 := abortLanes z.2 uid low lose .intra none false
        z.1.without lose s1 = some y → tget s1.crews uid = some cr1 →
        exec (.txcommit c) s = .next (commitWinners (.txcommit c) c uid cr1 win y s1))) ∧
    (irr ≠ 0 → passIrrev x uid irr s =
      (let b := (x.body.modLanes irr fun _ t => { t with tx := t.tx.commit }).setEntry irr x.next
       ({ x with body := b }, putBody (endIrrev s uid irr) x.ref b))) ∧
    (∀ r, runsAs s (.txcommit c) x → instrAbort s x (maskOf (x.lanes.filter fun l => (x.tx l).active && (x.tx l).isSpec)) false = some r →
      exec (.txcommit c) s = .next r.1) ∧
    (∀ r, runsAs s (.spcommit c) x → instrAbort s x (maskOf (x.lanes.filter fun l => (x.tx l).active && !(x.tx l).isSpec)) false = some r →
      exec (.spcommit c) s = .next r.1) ∧
    (∀ (m : Mask) (leaving : Bool), irrevLanes cr m = 0 → txLanes cr m = 0 → instrAbort s x m leaving = none) ∧
    (∀ (m : Mask) (leaving : Bool), irrevLanes cr m = 0 → txLanes cr m ≠ 0 →
      instrAbort s x m leaving = some (abortLanes s uid low (txLanes cr m) .instr none leaving, leaving)) ∧
    (runsAs s (.txquit c code) x → irr = 0 → set = 0 → exec (.txquit c code) s = .next (retire x c x.body s)) ∧
    (runsAs s (.txquit c code) x → irr = 0 → set ≠ 0 →
      let s1 := abortLanes s uid low set .explicit (some code) false
      exec (.txquit c code) s = .next (match x.without set s1 with
        | some y => retire y c y.body s1
        | none => { s1 with cur := none })) ∧
    (runsAs s (.txquit c code) x → irr ≠ 0 → set = 0 → exec (.txquit c code) s = .next (irrevFault s x uid irr)) ∧
    (∀ y, runsAs s (.txquit c code) x → irr ≠ 0 → set ≠ 0 →
      let s1 := abortLanes s uid low set .explicit (some code) false
      x.without set s1 = some y → exec (.txquit c code) s = .next (irrevFault s1 y uid irr)) ∧
    (irrevFault s x uid irr = raise { endAttempts s uid irr with cur := if s.cur = some x.ref then s.cur else none } x.ref x.pc
      { cause := .txIrrevocable, addr := 0, mask := irr, detail := 0, exact := true }) ∧
    (runsAs s (.txstat c d) x →
      exec (.txstat c d) s = .next (retire x c (x.body.sendV x.exec d fun l => (x.tx l).status) s)) ∧
    (runsAs s (.spcommit c) x → (∀ l ∈ x.lanes, (x.tx l).active = false) →
      exec (.spcommit c) s = .next (retire x c x.body s)) ∧
    (∀ o, runsAs s (.spcommit c) x → (∀ l ∈ x.lanes, (x.tx l).active = true ∧ (x.tx l).isSpec = true) → x.lanes ≠ [] →
      releaseObject s x.ref .device = some o → ∃ ls : List Nat, ls.Perm x.lanes ∧
        exec (.spcommit c) s = .next (splitWaits x c (.spcommit c) x.body [(maskOf ls, o)] s))

/-- TXCOMMIT and SPCOMMIT of valid lanes complete: release, stores written, transactions ended; an ordered commit also passes the turn on. Where
no lane loses to another, every lane can place its stores, no line of them is held by another thread and every read log still holds after the
release, TXCOMMIT writes the stores of all of them line by line, clears the transactions with the region ended, and the group is at the next
instruction; SPCOMMIT of one lane whose turn it is does the same and advances its domain by one iteration, and a lane ahead of its turn waits for
its domain. -/
def Obligations.CommitsWriteTheirLogs : Prop :=
  (∀ (s : State) (x : Ex) (c : Ctl) (uid low : Nat) (cr : Crew) (f : Nat → List (Nat × Byte)), runsAs s (.txcommit c) x →
      x.ref = .crew uid low → x.body = .crew cr → (∀ l ∈ x.lanes, (x.tx l).active = true → (x.tx l).isSpec = false) →
      irrevLanes cr x.exec = 0 → releaseObject s x.ref .device = none →
      let win := txLanes cr x.exec &&& ~~~irrevLanes cr x.exec
      let s1 := releaseAt s (coreOf s x.ref) .l2
      win ≠ 0 → s1.dir.serial = none →
      maskOf (winners ((lanesOf win).filterMap fun l => (cr.lanes.getD l none).map fun t => (l, t.tx.k, gransOf s1 cr t))) = win →
      (∀ l ∈ lanesOf win, ∃ t, cr.lanes.getD l none = some t ∧ storesOf s1 cr.ctx (writeLog s1 cr t) = .ok (f l)) →
      (∀ l ∈ lanesOf win, ∀ b ∈ f l, heldByOther s1 (uid, lowLane win) (b.1 / 128) = false) →
      (∀ l ∈ lanesOf win, validates s1 uid l = true) →
      let s2 := commitStores s1 cr.core ((lanesOf win).map f).flatten
      let s3 := match bodyOf s2 x.ref with
        | some b => putBody s2 x.ref ((b.modLanes win fun _ t => { t with tx := t.tx.commit }).setEntry win x.next)
        | none => s2
      exec (.txcommit c) s = .next (retire { x with body := (bodyOf s3 x.ref).getD x.body } c ((bodyOf s3 x.ref).getD x.body) s3)) ∧
    (∀ (s : State) (x : Ex) (c : Ctl) (uid low l : Nat) (cr : Crew) (t : Thread), runsAs s (.spcommit c) x → x.ref = .crew uid low →
      x.body = .crew cr → x.lanes = [l] → cr.lanes.getD l none = some t → t.tx.active = true → t.tx.isSpec = true →
      releaseObject s x.ref .device = none →
      let s1 := releaseAt s (coreOf s x.ref) .l2
      let grid := gridOf s x.ref
      let bump := fun s => modGrid s grid fun g => { g with specN := lset g.specN t.tx.dom (t.tx.iter + 1) }
      (∀ bs, t.tx.iter = specNext s1 grid t.tx.dom → t.tx.irrev = false → s1.dir.serial = none →
        storesOf s1 cr.ctx (writeLog s1 cr t) = .ok bs → (∀ b ∈ bs, heldByOther s1 (uid, l) (b.1 / 128) = false) →
        (readLog s1 cr t).all (entryValid s1 (uid, l) cr.ctx) = true →
        let s2 := bump (commitStores s1 cr.core bs)
        let s3 := match bodyOf s2 x.ref with
          | some b => putBody s2 x.ref ((b.modLanes (maskOf [l]) fun _ t => { t with tx := t.tx.commit }).setEntry (maskOf [l]) x.next)
          | none => s2
        exec (.spcommit c) s = .next (retire { x with body := (bodyOf s3 x.ref).getD x.body } c ((bodyOf s3 x.ref).getD x.body) s3)) ∧
      ((t.tx.iter - specNext s1 grid t.tx.dom).toNat ≠ 0 → (t.tx.iter - specNext s1 grid t.tx.dom).toNat < 2 ^ 31 →
        let s3 := match bodyOf s1 x.ref with
          | some b => putBody s1 x.ref ((b.modLanes 0 fun _ t => { t with tx := t.tx.commit }).setEntry 0 x.next)
          | none => s1
        let y := { x with body := (bodyOf s3 x.ref).getD x.body }
        exec (.spcommit c) s = .next (splitWaits y c (.spcommit c) y.body [(1#64 <<< l, .spec t.tx.dom)] s3)))

/-- Each abort cause has its count, its back-off and its place in the status word. INTRA, CONFLICT, ORDER raise the abort count by one, CAPACITY
to at least nine, EXPLICIT, INSTR and STALE clear it, PREEMPT and FAULT keep it; the back-off doubles from 64 cycles to 4,096; and the status
word shows the cause in bits 7 to 4, the code in bits 18 to 12 and in bits 11 to 8 the number of aborts, at most 15: the count after INTRA,
CONFLICT, ORDER and CAPACITY, the count with this abort included after EXPLICIT, INSTR and STALE, which clear it, and what it showed before after
PREEMPT and FAULT. -/
def Obligations.AbortFates : Prop :=
  (∀ k, TxCause.intra.count k = k + 1 ∧ TxCause.conflict.count k = k + 1 ∧ TxCause.order.count k = k + 1 ∧
      9 ≤ TxCause.capacity.count k ∧ TxCause.explicit.count k = 0 ∧ TxCause.instr.count k = 0 ∧ TxCause.stale.count k = 0 ∧
      TxCause.preempt.count k = k ∧ TxCause.fault.count k = k) ∧
    (∀ k, 1 ≤ k → k ≤ 7 → backoff k = 64 * 2 ^ (k - 1)) ∧ (∀ k, 7 ≤ k → backoff k = 4096) ∧
    (∀ (t : Tx) (c : TxCause) (code : BitVec 7), let w := (t.abort c (some code)).status
      w.getLsbD 0 = false ∧ w.toNat / 16 % 16 = c.code ∧ w.toNat / 4096 % 128 = code.toNat ∧
      w.toNat / 256 % 16 = min (match c with
        | .explicit | .instr | .stale => t.k + 1
        | .preempt | .fault => t.aborts
        | _ => c.count t.k) 15)

/-- MZERO, MLD, MST, MSTAT and FSETM complete: they act on the accumulators of the quarter and the tile masks of the crew. With the named
accumulator not owned by the sequencer: MZERO clears VALID and DIRTY and sets TYPE; MLD waits while a request is on its way to the scratchpad of
the partner that holds its frame, and otherwise loads the accumulator from an accumulator frame that passes its checks; MST writes the frame of
the accumulator and clears DIRTY, or raises POISON for a parity error that a re-read does not clear; with it owned, each of them waits for it. An
accumulator frame is 1,088 bytes, well-formed, of FMT 0x20 or 0x21 and role 2, with element (i, j) at body byte 64i + 4j, zero where VALID is
clear; loading it gives its elements, VALID, its TYPE and DIRTY clear. MSTAT never waits and sends the status word, whose bits are VALID, DIRTY,
INFLIGHT, TYPE and the index of the run's next step; FSETM sets a tile mask from a pair or from the predicate of the executing lanes. The model's
own: what a team finds that does not hold the accumulators of its quarter (log 56), and that a parity error of an accumulator is met where it is
read (log 45). -/
def Obligations.AccumulatorInstructions : Prop :=
  (∀ (s : State) (x : Ex) (c : Ctl) (m a f d : Spec) (off : W32) (s32 wide : Bool) (cr : Crew) (fr : Machine.Frm),
    let q := x.quarter
    let team := teamOf s x.ref
    let acc := accOf s team q m.toNat
    let va := frameVa x a off
    let met := accParity s q m.toNat
    let s1 := metParity s met
    let kept := accOf s1 (teamOf s1 x.ref) q m.toNat
    (acc.inflight = false →
      (runsAs s (.mzero c s32 m) x → exec (.mzero c s32 m) s = .next (retire x c x.body
        (putAcc s team q m.toNat { acc with valid := false, dirty := false, int := s32 }))) ∧
      (∀ o, runsAs s (.mld c m a off) x → framesBusy s team [va] = some o →
        exec (.mld c m a off) s = .next (waitEx x o (.mld c m a off) s)) ∧
      (runsAs s (.mld c m a off) x → framesBusy s team [va] = none → frameReads s team [(64, va, 1088)] [] = none →
        (frameBytes s team va 1088).2 = false → frameRead s team va 1088 = some fr → fr.role = .acc →
        exec (.mld c m a off) s = .next (retire x c x.body (putAcc s team q m.toNat (accLoad fr acc)))) ∧
      (runsAs s (.mst c a m off) x → met.all (·.reread) = true → frameChecks s1 (teamOf s x.ref) [(64, va, 1088)] = none →
        exec (.mst c a m off) s = .next (retire x c x.body
          (putAcc (frameWrite s1 team va x.ref (accFrame kept)) team q m.toNat { kept with dirty := false }))) ∧
      (runsAs s (.mst c a m off) x → met.any (!·.reread) = true → exec (.mst c a m off) s = .next (faultOnce x (.poison, 0) s1))) ∧
    (acc.inflight = true →
      (runsAs s (.mzero c s32 m) x → exec (.mzero c s32 m) s = .next (waitEx x (.accumulator m.toNat) (.mzero c s32 m) s)) ∧
      (runsAs s (.mld c m a off) x → exec (.mld c m a off) s = .next (waitEx x (.accumulator m.toNat) (.mld c m a off) s)) ∧
      (runsAs s (.mst c a m off) x → exec (.mst c a m off) s = .next (waitEx x (.accumulator m.toNat) (.mst c a m off) s))) ∧
    (runsAs s (.mstat c d m) x → exec (.mstat c d m) s =
      .next (retire x c (x.body.sendV x.exec d fun _ => tileStatus s team q m.toNat) s)) ∧
    (let w := tileStatus s team q m.toNat
     (∀ r, (quarterAt s q).run = some r → r.next < 4096) →
     w.getLsbD 0 = acc.valid ∧ w.getLsbD 1 = acc.dirty ∧ w.getLsbD 2 = acc.inflight ∧ w.getLsbD 3 = acc.int ∧
     w.toNat / 16 = match (quarterAt s q).run with | some r => if acc.inflight = true ∧ r.m = m.toNat then r.next else 0 | none => 0) ∧
    (runsAs s (.fsetm c wide f a) x → x.body = .crew cr → exec (.fsetm c wide f a) s = .next (retire x c
      (.crew { cr with f := lset cr.f f.toNat (if wide then x.w a x.low else maskOf (x.lanes.filter fun l => x.p a l)) }) s))) ∧
  (∀ (s : State) (k q m : Nat) (a : Acc), holdsAccs s (some k) q = true → m < (quarterAt s q).accs.length →
    accOf (putAcc s (some k) q m a) (some k) q m = a ∧
    ∀ n, n ≠ m → accOf (putAcc s (some k) q m a) (some k) q n = accOf s (some k) q n) ∧
  (∀ a b : Acc, (accFrame a).length = 1088 ∧ (∃ fr, Frm.parse (ofBytes ((accFrame a).take 64)) (ofBytes ((accFrame a).drop 64)) = some fr ∧
      fr.role = .acc ∧ fr.fmt = (if a.int then .accS32 else .accF32) ∧ fr.hdr / 2 ^ 256 = 0 ∧
      (accLoad fr b).valid = true ∧ (accLoad fr b).dirty = false ∧ (accLoad fr b).int = a.int ∧ (accLoad fr b).inflight = b.inflight ∧
      ∀ i j, i < 16 → j < 16 → (accLoad fr b).read i j = a.read i j) ∧
    (∀ i j, i < 16 → j < 16 → ofBytes (((accFrame a).drop (64 + 64 * i + 4 * j)).take 4) = (a.read i j).toNat) ∧
    (∀ i j, a.valid = false → a.read i j = 0)) ∧
  (∀ (fr : Machine.Frm) (b : Acc) (i j : Nat), i < 16 → j < 16 →
    (accLoad fr b).read i j = BitVec.ofNat 32 (fr.body / 2 ^ (8 * (64 * i + 4 * j))))

/-- MMA, MMAS, MCOMP and MQNT complete with the values of R274 to R284: one step, one or two sparse steps, one pruning and one quantisation. Each
waits while the sequencer owns an accumulator it names, and where it reads frames while a request is on its way to the scratchpad of the partner
that holds one; a parity error of an accumulator it reads that a re-read does not clear raises POISON. Where the frames pass their checks and
agree in role, class and type: MMA adds the product step to the accumulator; MMAS adds one step, or two, with the metadata of the lanes; MCOMP
writes the pruned frame and sends the metadata; MQNT writes the quantised frame. Their events are logged, or, where one of them traps, raise
ARITH_TRAP and nothing else happens. The values, by the formulas of the rules: a step sets VALID and DIRTY and the TYPE of the format, and every
element becomes what R274 gives from its terms, in FP32 or in INT32, with the events of all elements once each; every K index of a dense row
contributes, and of a row under metadata the four that the metadata name, with the value at body byte 16i + 4q + u; the four kept of eight are
ahead of the others in the order of R281, and their codes, indices and metadata words are written in their places, under the scales of the
source; a quantised frame is well-formed, with the scale and the codes that R284 gives each block, draws in body order and one step of the
generator for each element. The model's own: what a team finds that does not hold the accumulators of its quarter (log 56), and that a parity
error of an accumulator is met where it is read (log 45). -/
def Obligations.MatrixSteps : Prop :=
  (∀ (s : State) (x : Ex) (c : Ctl) (sat x2 : Bool) (m a b v d : Spec) (fa fb : Machine.Frm) (rest : List Machine.Frm) (rnd : Rnd) (role : Role)
      (fmt : FrameFmt),
    let q := x.quarter
    let team := teamOf s x.ref
    let acc := accOf s team q m.toNat
    let va := (x.w a x.low).toNat
    let vb := (x.w b x.low).toNat
    let vas2 := [va, vb, (va + 576) % 2 ^ 64, (vb + 576) % 2 ^ 64]
    let quantised := Instr.mqnt c rnd role fmt m b
    let ms := quantAccs fmt m
    let met := accParity s q m.toNat
    let s1 := metParity s met
    let old := accOf s1 (teamOf s1 x.ref) q m.toNat
    let metQ := ms.flatMap (accParity s q)
    let sq := metParity s metQ
    let ends (s1 : State) (i : Instr) (evs : Events) (k : State → State) : Prop :=
      (trapOf (ctlOf s1 (ctxOf s1 x.ref)) evs = none → exec i s = .next (k (logEvents s1 x.ref x.pc evs))) ∧
      (∀ e, trapOf (ctlOf s1 (ctxOf s1 x.ref)) evs = some e → exec i s = .next (faultUnit s1 x.ref x.grp.mask x.pc
        { cause := .arithTrap, addr := 0, mask := e.2, detail := BitVec.ofNat 32 e.1.code, exact := false }))
    let put (t : State) (r : Acc) : State := putAcc t (teamOf t x.ref) q m.toNat r
    (acc.inflight = true →
      (runsAs s (.mma c sat m a b) x → exec (.mma c sat m a b) s = .next (waitEx x (.accumulator m.toNat) (.mma c sat m a b) s)) ∧
      (runsAs s (.mmas c sat x2 m a b v) x →
        exec (.mmas c sat x2 m a b v) s = .next (waitEx x (.accumulator m.toNat) (.mmas c sat x2 m a b v) s))) ∧
    (∀ n, runsAs s quantised x → ms.find? (fun n => (accOf s team q n).inflight) = some n →
      exec quantised s = .next (waitEx x (.accumulator n) quantised s)) ∧
    (∀ o, acc.inflight = false →
      (runsAs s (.mma c sat m a b) x → framesBusy s team [va, vb] = some o →
        exec (.mma c sat m a b) s = .next (waitEx x o (.mma c sat m a b) s)) ∧
      (runsAs s (.mmas c sat x2 m a b v) x → framesBusy s team (if x2 then vas2 else [va, vb]) = some o →
        exec (.mmas c sat x2 m a b v) s = .next (waitEx x o (.mmas c sat x2 m a b v) s))) ∧
    (∀ o, runsAs s (.mcomp c d a b) x → framesBusy s team [va] = some o →
      exec (.mcomp c d a b) s = .next (waitEx x o (.mcomp c d a b) s)) ∧
    (acc.inflight = false → met.any (!·.reread) = true →
      (runsAs s (.mma c sat m a b) x → framesBusy s team [va, vb] = none →
        exec (.mma c sat m a b) s = .next (faultOnce x (.poison, 0) s1)) ∧
      (runsAs s (.mmas c sat x2 m a b v) x → framesBusy s team (if x2 then vas2 else [va, vb]) = none →
        exec (.mmas c sat x2 m a b v) s = .next (faultOnce x (.poison, 0) s1))) ∧
    (runsAs s quantised x → ms.find? (fun n => (accOf s team q n).inflight) = none → metQ.any (!·.reread) = true →
      exec quantised s = .next (faultOnce x (.poison, 0) sq)) ∧
    (acc.inflight = false → met.all (·.reread) = true →
      (runsAs s (.mma c sat m a b) x → framesBusy s team [va, vb] = none →
        framesIn s1 (teamOf s1 x.ref) [va, vb] [] = .ok (fa :: fb :: rest) → denseOk fa fb = true → typeClash old fa.fmt = false →
        let r := stepAcc sat fa.asA fb old
        ends s1 (.mma c sat m a b) (r.2.map fun e => (e, x.exec)) fun t => retireEnd x c x.body (put t r.1)) ∧
      (runsAs s (.mmas c sat false m a b v) x → framesBusy s team [va, vb] = none → notW32 s1 x = false →
        framesIn s1 (teamOf s1 x.ref) [va, vb] [] = .ok [fa, fb] → sparseOk fa fb = true → typeClash old fa.fmt = false →
        halfBad (metaWords x false v 0) = false →
        let r := stepAcc sat (sparseA fa (metaWords x false v 0)) fb old
        ends s1 (.mmas c sat false m a b v) (r.2.eraseDups.map fun e => (e, x.exec)) fun t => retireEnd x c x.body (put t r.1)) ∧
      (∀ ga gb, runsAs s (.mmas c sat true m a b v) x → framesBusy s team vas2 = none → notW32 s1 x = false →
        framesIn s1 (teamOf s1 x.ref) vas2 [] = .ok [fa, fb, ga, gb] →
        sparseOk fa fb = true → sparseOk ga gb = true → typeClash old fa.fmt = false → typeClash old ga.fmt = false →
        frInt fa.fmt = frInt ga.fmt → halfBad (metaWords x true v 0) = false → halfBad (metaWords x true v 1) = false →
        let r1 := stepAcc sat (sparseA fa (metaWords x true v 0)) fb old
        let r2 := stepAcc sat (sparseA ga (metaWords x true v 1)) gb r1.1
        ends s1 (.mmas c sat true m a b v) ((r1.2 ++ r2.2).eraseDups.map fun e => (e, x.exec)) fun t =>
          retireEnd x c x.body (put t r2.1))) ∧
    (runsAs s (.mcomp c d a b) x → framesBusy s team [va] = none → notW32 s x = false →
      framesIn s team [va] [(vb, 576)] = .ok (fa :: rest) → fa.role = .a → fa.sparse = false → frSparse fa.fmt = true →
      exec (.mcomp c d a b) s =
        .next (retire x c (x.body.sendV x.exec d (pruneFrame fa).2) (frameWrite s team vb x.ref (pruneFrame fa).1))) ∧
    (runsAs s quantised x → (∀ n ∈ ms, (accOf s team q n).inflight = false) → metQ.all (·.reread) = true →
      (∀ n ∈ ms, (accOf sq team q n).int = false) → frameChecks sq team [(64, vb, frBytes fmt)] = none →
      let src := fun r k => ((match role with
        | .a => (accOf sq team q (m.toNat + k / 16)).read r (k % 16)
        | _ => (accOf sq team q (m.toNat + k / 16)).read (k % 16) r) : W32).toNat
      let r := quantFrame fmt role rnd src (x.gen x.low)
      ends sq quantised (if r.2.1 then [(Arith.quantSpecial, x.exec)] else []) fun t =>
        retire x c (x.body.setGen x.low r.2.2) (frameWrite t team vb x.ref r.1))) ∧
  (∀ (sat : Bool) (a : StepA) (fa fb : Machine.Frm) (w : Nat → W32) (old : Acc),
    a = fa.asA ∨ (a = sparseA fa w ∧ frSparse fa.fmt = true) →
    let r := stepAcc sat a fb old
    let at_ := fun n => stepped sat a fb (old.read (n / 16) (n % 16)) (n / 16) (n % 16)
    r.1.valid = true ∧ r.1.dirty = true ∧ r.1.int = frInt fa.fmt ∧ r.1.inflight = old.inflight ∧
    (∀ i j, i < 16 → j < 16 → r.1.read i j = (stepped sat a fb (old.read i j) i j).1) ∧
    r.2 = ((List.range 256).filterMap fun n => (at_ n).2).eraseDups) ∧
  (∀ (f : Machine.Frm) (i k : Nat), f.asA.fmt = f.fmt ∧ f.asA.scale = f.scale ∧ f.asA.elem i k = some (f.elem i k) ∧
    (frBits f.fmt = 16 → f.elem i k = f.body / 2 ^ (8 * (32 * i + 2 * k)) % 2 ^ 16) ∧
    (frBits f.fmt = 8 → f.elem i k = f.body / 2 ^ (8 * (32 * i + k)) % 2 ^ 8) ∧
    (frBits f.fmt = 4 → f.elem i k = f.body / 2 ^ (8 * (32 * i + k / 2)) / 2 ^ (4 * (k % 2)) % 2 ^ 4) ∧
    (frBits f.fmt = 6 → f.elem i k = f.body / 2 ^ (8 * (48 * i + 3 * (k / 4))) / 2 ^ (6 * (k % 4)) % 2 ^ 6)) ∧
  (∀ (f : Machine.Frm) (w : Nat → W32) (i q u k : Nat), q < 4 → u < 4 →
    let m := metaAt w i q
    m = (w (2 * i + q / 2)).toNat / 2 ^ (16 * (q % 2)) % 2 ^ 16 ∧
    (metaBad m = false ↔ m < 2 ^ 12 ∧ m % 8 < m / 8 % 8 ∧ m / 8 % 8 < m / 64 % 8 ∧ m / 64 % 8 < m / 512 % 8) ∧
    (metaBad m = false → (sparseA f w).elem i (8 * q + m / 8 ^ u % 8) = some (f.body / 2 ^ (8 * (16 * i + 4 * q + u)) % 2 ^ 8)) ∧
    (k / 8 = q → (∀ n, n < 4 → m / 8 ^ n % 8 ≠ k % 8) → (sparseA f w).elem i k = none)) ∧
  (∀ (h bd : Nat) (f : Machine.Frm), h < 2 ^ 512 → Frm.parse h bd = some f → f.role = .a → f.sparse = false → frSparse f.fmt = true →
    let out := pruneFrame f
    ∃ (kept : Nat → Nat → List Nat) (g : Machine.Frm), out.1.length = 576 ∧
      Frm.parse (ofBytes (out.1.take 64)) (ofBytes (out.1.drop 64)) = some g ∧ g.fmt = f.fmt ∧ g.role = .a ∧ g.sparse = true ∧
      g.hdr / 2 ^ 256 = f.hdr / 2 ^ 256 ∧ g.body / 2 ^ 2048 = 0 ∧
      ∀ i q, i < 16 → q < 4 →
        let ks := kept i q
        let val := fun u => rowVal f i (8 * q + u)
        ks.length = 4 ∧ ks.Pairwise (· < ·) ∧ (∀ u ∈ ks, u < 8) ∧
        (∀ u v, u ∈ ks → v < 8 → v ∉ ks → larger (val v) (val u) = false ∧ (larger (val u) (val v) = true ∨ u < v)) ∧
        (∀ n, n < 4 → g.body / 2 ^ (8 * (16 * i + 4 * q + n)) % 2 ^ 8 = f.elem i (8 * q + ks.getD n 0)) ∧
        (out.2 (2 * i + q / 2)).toNat / 2 ^ (16 * (q % 2)) % 2 ^ 16 =
          ks.getD 0 0 + 8 * ks.getD 1 0 + 64 * ks.getD 2 0 + 512 * ks.getD 3 0) ∧
  (∀ (f : FrameFmt) (role : Role) (rnd : Rnd) (src : Nat → Nat → Nat) (gen : W32), frMx f = true → role ≠ .acc → (∀ r k, src r k < 2 ^ 32) →
    let out := quantFrame f role rnd src gen
    let kt := frKt f
    let xs := fun r b => (List.range 32).map fun u => valOf fp32 (src r (32 * b + u))
    let draw := fun n => if rnd = .sr then drawAfter gen n else 0
    out.1.length = frBytes f ∧ out.2.2 = (if rnd = .sr then drawnTimes gen (16 * kt) else gen) ∧
    (out.2.1 = true ↔ ∃ r b, r < 16 ∧ b < kt / 32 ∧ (Val.nan ∈ xs r b ∨ ∃ neg, Val.inf neg ∈ xs r b)) ∧
    ∃ g, Frm.parse (ofBytes (out.1.take 64)) (ofBytes (out.1.drop 64)) = some g ∧ g.fmt = f ∧ g.role = role ∧ g.sparse = false ∧
      (∀ r b, r < 16 → b < kt / 32 → g.scale r b = blockScale f (xs r b)) ∧
      ∀ r k, r < 16 → k < kt → g.elem r k =
        if Val.nan ∈ xs r (k / 32) then 0 else blockCode f rnd (draw (r * kt + k)) (blockScale f (xs r (k / 32))) (valOf fp32 (src r k)))

/-- MLOOP and MCONV complete by starting a run, and wait for what they await. Each waits for its accumulator, the sequencer, room in its token
and what the release at cluster scope before the run awaits, and while a request is on its way to the scratchpad of the partner that holds a
frame of its ends. MLOOP, where nothing is awaited, the frames of its ends pass their checks and its first step that is not skipped is sound,
starts a run of its steps under its mask; MCONV, where its descriptor is in the scratchpad and within its limits and its ranges pass, starts a
run of the steps of the convolution. A frame's address steps by 64 times the increment, and row j of step (ky, kx, cb) of a convolution reads the
pixel of R283, or none where that is padding. The model's own: what a team finds that does not hold the accumulators of its quarter (log 56). -/
def Obligations.RunsStart : Prop :=
  (∀ (s : State) (x : Ex) (c : Ctl) (sat fv tv : Bool) (m a b v : Spec) (f tok : BitVec 3) (n : BitVec 12) (inca incb : BitVec 16)
      (fb : Machine.Frm) (rest : List Machine.Frm) (d : ConvDesc),
    let team := teamOf s x.ref
    let acc := accOf s team x.quarter m.toNat
    let ba := x.w a x.low
    let bb := x.w b x.low
    let mask := if fv then (match x.body with | .crew cr => some (cr.f.getD f.toNat 0) | .ap _ => none) else none
    let i := Instr.mloop c sat m a b fv f tv tok n inca incb
    let j := Instr.mconv c sat m a b v tv tok
    let ends := [0, n.toNat - 1].flatMap fun k => [runVa ba inca k, runVa bb incb k]
    (∀ o, runWaits s x m.toNat tv tok.toNat = some o →
      (runsAs s i x → exec i s = .next (waitEx x o i s)) ∧ (runsAs s j x → exec j s = .next (waitEx x o j s))) ∧
    (runWaits s x m.toNat tv tok.toNat = none → acc.inflight = false ∧ (quarterAt s x.quarter).run = none ∧
      (tv = true → (tokenAt x.body tok.toNat).assignFull = false) ∧ releaseObject s x.ref .cluster = none) ∧
    (runWaits s x m.toNat tv tok.toNat = none →
      (∀ o, runsAs s i x → framesBusy s team ends = some o → exec i s = .next (waitEx x o i s)) ∧
      (∀ o, runsAs s j x → framesBusy s team [ba.toNat, bb.toNat] = some o → exec j s = .next (waitEx x o j s)) ∧
      (runsAs s i x → framesBusy s team ends = none →
        frameChecks s team (ends.map fun va => (64, va, frameSize s team va 576)) = none →
        (∀ k, (List.range n.toNat).find? (fun k => !runSkips mask k) = some k → ∃ fa fb r,
          framesIn s team [runVa ba inca k, runVa bb incb k] [] = .ok (fa :: fb :: r) ∧ denseOk fa fb = true ∧
          typeClash acc fa.fmt = false) →
        exec i s = .next (startRun x c tv tok.toNat (slotHit ba.toNat 1 || slotHit bb.toNat 1)
          (fun by_ => { by_, m := m.toNat, sat, a := ba, b := bb, inca, incb, n := n.toNat, mask, conv := none, next := 0,
                        stopped := false }) s)) ∧
      (runsAs s j x → framesBusy s team [ba.toNat, bb.toNat] = none →
        let off := (x.v v x.low).toNat
        let dva := ownWindow + off
        let size := frameSize s team bb.toNat 576
        off % 64 = 0 → off + 64 ≤ allocOf s team → (frameBytes s team dva 64).2 = false →
        convOf (ofBytes (frameBytes s team dva 64).1) = some d →
        frameChecks s team ([(64, ba.toNat, d.cb * d.h * d.w * d.vb), (64, bb.toNat, d.steps * size)]
          ++ (if frMx d.fmt then [(1, d.scales.toNat, d.cb * d.h * d.w * (frKt d.fmt / 32))] else [])) = none →
        framesIn s team [bb.toNat] [] = .ok (fb :: rest) → fb.role = .b → frCls fb.fmt = frCls d.fmt →
        typeClash acc d.fmt = false →
        exec j s = .next (startRun x c tv tok.toNat (slotHit ba.toNat 1 || slotHit bb.toNat 1 || slotHit d.scales.toNat 1)
          (fun by_ => { by_, m := m.toNat, sat, a := ba, b := bb, inca := 0, incb := BitVec.ofNat 16 (size / 64), n := d.steps,
                        mask := none, conv := some d, next := 0, stopped := false }) s)))) ∧
  (∀ (base : Addr) (inc : BitVec 16) (k : Nat), (runVa base inc k : ℤ) = (base.toNat + 64 * k * inc.toInt) % 2 ^ 64) ∧
  (∀ (d : ConvDesc) (ky kx cb j : Nat), cb < d.cb → kx < d.kw →
    let ix : ℤ := (d.x0 + j : ℕ) * d.sx + kx - d.padX
    let iy : ℤ := (d.y0 * d.sy + ky : ℕ) - d.padY
    let inside := 0 ≤ ix ∧ ix < d.w ∧ 0 ≤ iy ∧ iy < d.h
    let p := d.pixel ((ky * d.kw + kx) * d.cb + cb) j
    (inside → (p.map fun n => (n : ℤ)) = some ((cb * d.h + iy) * d.w + ix)) ∧ (¬inside → p = none)) ∧
  (∀ (v : Nat) (d : ConvDesc), v < 2 ^ 512 → convOf v = some d →
    v % 2 ^ 16 = d.w ∧ v / 2 ^ 16 % 2 ^ 16 = d.h ∧ v / 2 ^ 32 % 2 ^ 8 = d.cb ∧ v / 2 ^ 40 % 16 = d.kh ∧ v / 2 ^ 44 % 16 = d.kw ∧
    v / 2 ^ 48 % 16 = d.sx ∧ v / 2 ^ 52 % 16 = d.sy ∧ v / 2 ^ 56 % 64 = d.fmt.code ∧ v / 2 ^ 62 % 4 = 0 ∧ v / 2 ^ 64 % 2 ^ 16 = d.x0 ∧
    v / 2 ^ 80 % 2 ^ 16 = d.y0 ∧ v / 2 ^ 96 % 2 ^ 8 = d.padX ∧ v / 2 ^ 104 % 2 ^ 8 = d.padY ∧ v / 2 ^ 112 % 2 ^ 16 = 0 ∧
    v / 2 ^ 128 % 2 ^ 64 = d.scales.toNat ∧ v / 2 ^ 192 = 0 ∧ 1 ≤ d.w ∧ 1 ≤ d.h ∧ 1 ≤ d.cb ∧ 1 ≤ d.kh ∧ 1 ≤ d.kw ∧ 1 ≤ d.sx ∧ 1 ≤ d.sy ∧
    d.kh * d.kw * d.cb ≤ 4095 ∧ (frMx d.fmt = true ↔ d.scales ≠ 0) ∧ frBits d.fmt ≤ 16 ∧ frBits d.fmt ≠ 6)

/-- SBIND, SUNBIND, SSTAT and GINV complete: an entry is installed, removed or read, and bound copies are dropped. SBIND and SUNBIND wait for
what a release at device scope awaits and then release to the L2: SBIND, where its descriptor, graph and tables read and check, drops the backing
range from the caches, installs the entry in its slot and sends the slot number, and otherwise raises the first failure; SUNBIND removes the
entry of its slot, waits while its view has accesses queued, and does nothing more for an empty slot. SSTAT sends the status of the slot of each
lane; GINV drops the copies of its descriptor, or of every descriptor, that its scope covers. -/
def Obligations.StreamInstructions : Prop :=
  ∀ (s : State) (x : Ex) (c : Ctl) (slot : BitVec 7) (sc : Scope) (d a : Spec) (n : Nat) (bd : Binding) (rs : List (Nat × Nat)),
    let ctx := ctxOf s x.ref
    let s1 := releaseAt s (coreOf s x.ref) .l2
    let k := (x.v a x.low).toNat
    (∀ o, releaseObject s x.ref .device = some o →
      (runsAs s (.sbind c slot d a) x → exec (.sbind c slot d a) s = .next (waitEx x o (.sbind c slot d a) s)) ∧
      (runsAs s (.sunbind c a) x → exec (.sunbind c a) s = .next (waitEx x o (.sunbind c a) s))) ∧
    (releaseObject s x.ref .device = none →
      (∀ r, runsAs s (.sbind c slot d a) x → bindRead s1 x (x.w a x.low).toNat = .ok r →
        bindCheck x (x.w a x.low).toNat slot.toNat r = .ok (n, bd, rs) →
        exec (.sbind c slot d a) s = .next (retireEnd x c (x.body.sendV x.exec d fun _ => BitVec.ofNat 32 n)
          (modCtx (dropClean (l2Drop r.s rs) ctx rs) ctx fun k => { k with bindings := tset k.bindings n bd }))) ∧
      (∀ r e, runsAs s (.sbind c slot d a) x → bindRead s1 x (x.w a x.low).toNat = .ok r →
        bindCheck x (x.w a x.low).toNat slot.toNat r = .error e → exec (.sbind c slot d a) s = .next (failEx x e x.exec s)) ∧
      (∀ e, runsAs s (.sbind c slot d a) x → bindRead s1 x (x.w a x.low).toNat = .error e →
        exec (.sbind c slot d a) s = .next (failEx x e x.exec s)) ∧
      (runsAs s (.sunbind c a) x → bindingOf s ctx k = none → exec (.sunbind c a) s = .next (retireEnd x c x.body s1)) ∧
      (runsAs s (.sunbind c a) x → bindingOf s ctx k = some bd → viewBusy s ctx bd = false →
        exec (.sunbind c a) s = .next (retireEnd x c x.body (modCtx s1 ctx fun m => { m with bindings := tdel m.bindings k }))) ∧
      (runsAs s (.sunbind c a) x → bindingOf s ctx k = some bd → viewBusy s ctx bd = true →
        exec (.sunbind c a) s = .next (waitEx x (.unbind k) (.sunbind c a) s1))) ∧
    (runsAs s (.sstat c d a) x → exec (.sstat c d a) s =
      .next (retire x c (x.body.sendV x.exec d fun l => slotStatus s ctx (x.v a l).toNat) s)) ∧
    (runsAs s (.ginv c sc a) x → exec (.ginv c sc a) s = .next (retire x c x.body (modCtx s ctx fun k =>
      { k with copies := k.copies.filter fun b => !(copyScope (coreOf s x.ref) sc b.core && (a == 255#8 || b.addr == x.w a x.low)) })))

/-- LAUNCH, SPAWN, WPOP and WSTEAL complete: packets are entered, records pushed and taken. LAUNCH checks and reads the packets of its lanes, or
takes up those it already holds; a failed check, an unreadable packet or a DONE address out of place raises the fault. SPAWN refuses an entry out
of place. Then each waits for room in its token and for what a release at device scope awaits, releases to the L2 and serves its lanes in
ascending order: it ends, with its token operation complete and its region ended, when every lane is served, and otherwise waits with the lanes
served so far marked. WPOP takes records from the owner end of its own deque, WSTEAL from the far end of the deque that A names or of others in
their order, and both send the words and whether each lane got a record; one lane takes one record and its pool counts one less. The model's own:
that the release at device scope is made at each try of the instruction, also where it then waits, and that WPOP and WSTEAL do not reach spilled
records (log 23). -/
def Obligations.WorkCreation : Prop :=
  ∀ (s s1 : State) (x : Ex) (c : Ctl) (pool : BitVec 4) (data : Bool) (a d p : Spec) (cmd : CmdByte) (ps : List (Nat × Packet)),
    let ctx := ctxOf s x.ref
    let core := coreOf s x.ref
    let gid := gridOf s x.ref
    let i := Instr.launch c a cmd
    let j := Instr.spawn c pool data a cmd
    let o := ownOp x cmd
    let rs := (x.lanes.filter fun l => !x.grp.served.getLsbD l).map fun l => (l, spawnRec x pool.toNat data a gid l)
    let checks := firstFail (x.lanes.map fun l => (l, packetCheck s ctx (x.w a l).toNat))
    let read := x.grp.packets = [] ∧ checks = none ∧ packetsRead x ctx core a x.lanes s = .ok (ps, s1)
    (∀ f, runsAs s i x → x.grp.packets = [] → checks = some f → exec i s = .next (failEx x f.1 f.2 s)) ∧
    (∀ f, runsAs s i x → x.grp.packets = [] → checks = none → packetsRead x ctx core a x.lanes s = .error f →
      exec i s = .next (failEx x f.1 (1#64 <<< f.2) s)) ∧
    (∀ e r, runsAs s i x → read → ps.filter (fun e => !doneOk e.2) = e :: r →
      exec i s = .next (faultEx x .launchInvalid e.2.done (maskOf ((e :: r).map (·.1))) s1)) ∧
    (runsAs s i x → ((read ∧ ∀ e ∈ ps, doneOk e.2 = true) ∨ (x.grp.packets ≠ [] ∧ ps = x.grp.packets ∧ s1 = s)) →
      (opFull x cmd = true → exec i s = .next (waitEx x (.tokenRoom cmd.tok.toNat) i s1)) ∧
      (∀ q, opFull x cmd = false → releaseObject s1 x.ref .device = some q → exec i s = .next (waitEx x q i s1)) ∧
      (opFull x cmd = false → releaseObject s1 x.ref .device = none →
        let r := launchLanes (ctxOf s1 x.ref) (issuerOf s1 x o.2) ps (releaseAt s1 (coreOf s1 x.ref) .l2) x.grp.served
        let y := { x with grp := { x.grp with packets := ps.filter fun e => !r.2.1.getLsbD e.1 } }
        (r.2.2 = none → exec i s = .next (retireEnd y c (match o.2 with
            | some (t, n) => o.1.setToks (completeIn o.1.toks t n false)
            | none => o.1) r.1)) ∧
        (∀ q, r.2.2 = some q → exec i s = .next (waitEx y (.launchQueue q) i
          (putBody r.1 x.ref (setGroups o.1 x.ref [{ y.grp with served := r.2.1, op := o.2 }])))))) ∧
    (∀ f, runsAs s j x → data = false → spawnBad s gid rs = some f → exec j s = .next (faultEx x f.1 f.2.1 f.2.2 s)) ∧
    (runsAs s j x → (data = true ∨ spawnBad s gid rs = none) →
      (opFull x cmd = true → exec j s = .next (waitEx x (.tokenRoom cmd.tok.toNat) j s)) ∧
      (∀ q, opFull x cmd = false → releaseObject s x.ref .device = some q → exec j s = .next (waitEx x q j s)) ∧
      (opFull x cmd = false → releaseObject s x.ref .device = none →
        let r := spawnLanes core gid pool.toNat rs (releaseAt s core .l2) x.grp.served
        let b := o.1.stepGen (r.2.1 &&& ~~~x.grp.served) 1
        (r.2.2 = none → exec j s = .next (retireEnd x c (match o.2 with
          | some (t, n) => b.setToks (completeIn b.toks t n false)
          | none => b) r.1)) ∧
        (∀ q, r.2.2 = some q → exec j s = .next (waitEx x q j
          (putBody r.1 x.ref (setGroups b x.ref [{ x.grp with served := r.2.1, op := o.2 }])))))) ∧
    (runsAs s (.wpop c pool d p) x → exec (.wpop c pool d p) s = .next (takeWork c pool.toNat d p
      (fun s _ => popOwner s (coreOf s x.ref) (gridOf s x.ref) pool.toNat) x s)) ∧
    (runsAs s (.wsteal c pool d a p) x → exec (.wsteal c pool d a p) s = .next (takeWork c pool.toNat d p
      (fun s l => if a = 255#8 ∨ 127 < (x.v a l).toNat then popSearch (gridOf s x.ref) pool.toNat (searchOrder (coreOf s x.ref)) s
        else popFar s (x.v a l).toNat (gridOf s x.ref) pool.toNat) x s)) ∧
    (∀ (r : Rec) (l : Nat), x.lanes = [l] → popOwner s core gid pool.toNat = some (r, s1) →
      takeLanes gid pool.toNat (fun s _ => popOwner s core gid pool.toNat) x.lanes s = ([(l, r)], leavePool s1 gid pool.toNat 1))

/-- SYSR and SYSW complete on the registers their unit may name, fault otherwise, and a write followed by a read answers what the register holds.
SYSR sends the register to every executing lane; SYSW writes the value of the lowest lane into it, moving on; a register that is denied raises
its fault in both. A unit that serves no fault domain is denied every SYSW, and SYSR from index 0x200 on; the mirrors from 0x100 to 0x1FF are
never written, and 0x110 to 0x118 read the error counters. A context control register reads as it was written, SCTL in bits 1 to 0, ATRAP in bits
8 to 1 and BIN_AGE in bits 11 to 0 only, an index that is no register reads 0, and writing one leaves the others. SUBJ_L, SUBJ_H, SLANE and STILE
read as written; with no subject every other index reads 0 and writes do nothing. With one, the registers, predicates, entry and generator of
lane SLANE, the crew-uniform registers, rejoin and tile masks, the registers of an access thread, the elements of a valid accumulator STILE and
RESUME read as written, the predicates in bits 6 to 0 only; SUBJ_STATE says what the subject is; and writes of it, of the transaction status, the
tokens, the tile status and of no register do nothing. -/
def Obligations.SystemRegisters : Prop :=
  (∀ (s : State) (x : Ex) (c : Ctl) (idx : BitVec 12) (d b : Spec),
    (runsAs s (.sysr c idx d) x → sysDenied s x.ref idx.toNat false = none → exec (.sysr c idx d) s =
      .next (retire x c (x.body.sendV x.exec d fun _ => sysRead s x.ref idx.toNat) s)) ∧
    (runsAs s (.sysw c idx b) x → sysDenied s x.ref idx.toNat true = none → exec (.sysw c idx b) s =
      .next (sysWrite (retire x c x.body s) x.ref idx.toNat (x.v b x.low))) ∧
    (∀ cause, runsAs s (.sysr c idx d) x → sysDenied s x.ref idx.toNat false = some cause →
      exec (.sysr c idx d) s = .next (faultEx x cause 0 x.exec s)) ∧
    (∀ cause, runsAs s (.sysw c idx b) x → sysDenied s x.ref idx.toNat true = some cause →
      exec (.sysw c idx b) s = .next (faultEx x cause 0 x.exec s)) ∧
    (serves s x.ref = none → 0x200 ≤ idx.toNat → sysDenied s x.ref idx.toNat false = some .sysregDenied) ∧
    (serves s x.ref = none → sysDenied s x.ref idx.toNat true = some .sysregDenied) ∧
    (0x100 ≤ idx.toNat → idx.toNat < 0x200 → sysDenied s x.ref idx.toNat true = some .sysregDenied ∧
      sysDenied s x.ref idx.toNat false = none) ∧
    (sysRead s x.ref 0x110 = s.counters.hbmCe ∧ sysRead s x.ref 0x111 = s.counters.hbmUe ∧ sysRead s x.ref 0x112 = s.counters.sramCe ∧
      sysRead s x.ref 0x113 = s.counters.sramUe ∧ sysRead s x.ref 0x114 = s.counters.regReread ∧
      sysRead s x.ref 0x115 = s.counters.poisonUsed ∧ sysRead s x.ref 0x116 = s.counters.d2dReplay ∧
      sysRead s x.ref 0x117 = s.counters.peerReplay ∧ sysRead s x.ref 0x118 = s.counters.scrubPass)) ∧
  (∀ (r : CtlRegs) (n : Nat) (v : W32), ctlRead (ctlWrite r n v) n =
    if n = 0 then v &&& 3 else if n = 1 then v &&& 0x1FE else if n = 2 then v &&& 0xFFF else
    if n ∈ [3, 0x10, 0x11, 0x12, 0x13, 0x14, 0x15, 0x16, 0x17, 0x18, 0x19] then v else 0) ∧
  (∀ (r : CtlRegs) (n k : Nat) (v : W32), n ≠ k → ctlRead (ctlWrite r n v) k = ctlRead r k) ∧
  (∀ (s : State) (u : UnitRef) (g : Machine.Grid) (idx : Nat) (v : W32), tget s.grids (gridOf s u) = some g →
    (idx = 0x200 ∨ idx = 0x201 → sysRead (sysWrite s u idx v) u idx = v) ∧
    (0x202 ≤ idx → idx < 0x800 → subjectOf s g.ctx g.subject = none → sysRead s u idx = 0 ∧ sysWrite s u idx v = s) ∧
    ∀ sub, subjectOf s g.ctx g.subject = some sub →
      (idx = 0x202 ∨ idx = 0x204 → sysRead (sysWrite s u idx v) u idx = v) ∧
      (idx = 0x203 ∨ (0x205 ≤ idx ∧ idx < 0x800) →
        sysRead s u idx = savedRead s g.ctx sub g.slane.toNat (g.stile.toNat % 8) idx ∧
        sysWrite s u idx v = savedWrite s g.ctx sub g.slane.toNat (g.stile.toNat % 8) idx v)) ∧
  (∀ (s : State) (ctx : Nat) (sub : Subject) (lane tile idx : Nat) (v : W32),
    let t := savedWrite s ctx sub lane tile idx v
    let after := savedRead t ctx sub lane tile idx
    (∀ uid low c th, sub.unit = .crew uid low → tget s.crews uid = some c → c.lanes[lane]? = some (some th) →
      (0x280 ≤ idx → idx < 0x340 → idx < 0x280 + th.g.length → after = v) ∧ (idx = 0x370 → after = v &&& 0x7F) ∧
      (idx = 0x373 ∨ idx = 0x374 ∨ idx = 0x376 → after = v)) ∧
    (∀ uid low c, sub.unit = .crew uid low → tget s.crews uid = some c →
      (0x340 ≤ idx → idx < 0x370 → idx < 0x340 + c.k.length → after = v) ∧
      (0x378 ≤ idx → idx < 0x388 → idx < 0x378 + 2 * c.j.length → after = v) ∧
      (0x388 ≤ idx → idx < 0x398 → idx < 0x388 + 2 * c.f.length → after = v)) ∧
    (∀ k a, sub.unit = .access k → bodyOf s (.access k) = some (.ap a) →
      (idx = 0x373 ∨ idx = 0x374 → after = v) ∧ (0x3C0 ≤ idx → idx < 0x400 → idx < 0x3C0 + 2 * a.a.length → after = v)) ∧
    (∀ a, (subjAccs s sub.unit).1[tile]? = some a → a.valid = true → a.elems.length = 256 → (bodyOf s sub.unit).isSome →
      0x400 ≤ idx → idx < 0x500 → after = v) ∧
    (∀ r dm, sub.record = some r → tget s.domains r.1 = some dm → r.2 ∈ dm.outst → idx = 0x371 ∨ idx = 0x372 →
      ∃ dm' r', tget t.domains r.1 = some dm' ∧ r' ∈ dm'.outst ∧ r'.uid = r.2.uid ∧
        resumePc t ctx r' = withWord (resumePc s ctx r.2) (idx == 0x372) v) ∧
    (∀ b, bodyOf s sub.unit = some b → let w := savedRead s ctx sub lane tile 0x203
      w.getLsbD 0 = true ∧ w.getLsbD 1 = sub.record.isSome ∧ w.getLsbD 2 = sub.stopped ∧ w.getLsbD 3 = b.isAp ∧ w.toNat < 16) ∧
    (idx < 0x280 ∨ idx = 0x375 ∨ idx = 0x377 ∨ (0x398 ≤ idx ∧ idx < 0x3C0) ∨ 0x500 ≤ idx → t = s))

/-- Every thread reads ARGS through SYSR 0x100 and 0x101. For every unit of a grid: SYSR of 0x100 sends the low word of the ARGS of the launch
of the grid and SYSR of 0x101 the high word, and neither is ever denied. -/
def Obligations.LaunchArguments : Prop :=
  ∀ (s : State) (x : Ex) (c : Ctl) (d : Spec) (g : Machine.Grid), tget s.grids (gridOf s x.ref) = some g →
    (runsAs s (.sysr c 0x100 d) x → exec (.sysr c 0x100 d) s =
      .next (retire x c (x.body.sendV x.exec d fun _ => lo32 g.packet.args) s)) ∧
    (runsAs s (.sysr c 0x101 d) x → exec (.sysr c 0x101 d) s =
      .next (retire x c (x.body.sendV x.exec d fun _ => hi32 g.packet.args) s))

/-- TRAP and BKPT take their exceptions; taking an exception holds the unit, adds one record, and changes no register or memory. TRAP ends the
region of its lanes and takes the exception with cause TRAP and its code in DETAIL, RESUME at the next instruction; BKPT takes it with
cause BKPT where a debug level is in force and otherwise moves on; the unit is then held with its registers as they were, and where its
domain is there, a record of the cause, the code, its own program counter and RESUME at the next instruction is pending in it. For every
unit of the state, cause and program counter: afterwards the unit is held by the number of its record, all its registers and its groups
are as before, its domain has exactly one more pending record, with the cause, address, program counter, region entry and detail of the
fault, marked as holding the unit, and the next number of the domain; memory, the caches, contexts and grids are unchanged. -/
def Obligations.TrapsAndTakingAnException : Prop :=
  (∀ (s : State) (x : Ex) (c : Ctl) (code : BitVec 16),
     (runsAs s (.trap c code) x → exec (.trap c code) s =
       .next (trapUnit x (x.body.setEntry x.exec x.next) .trap (code.setWidth 32) s)) ∧
     (runsAs s (.bkpt c) x → debugOf s (ctxOf s x.ref) = .none → exec (.bkpt c) s = .next (retire x c x.body s)) ∧
     (runsAs s (.bkpt c) x → debugOf s (ctxOf s x.ref) ≠ .none → exec (.bkpt c) s = .next (trapUnit x x.body .bkpt 0 s)) ∧
     (∀ (b : Body) (cause : Cause) (v : W32), bodyOf s x.ref = some x.body → (b = x.body ∨ b = x.body.setEntry x.exec x.next) →
       let t := trapUnit x b cause v s
       let e := domainOfGrid s (gridOf s x.ref)
       (∃ n, bodyOf t x.ref = some (b.setHeld (some n))) ∧
       ((tget e.2.domains e.1).isSome = true → ∃ dm r, tget t.domains e.1 = some dm ∧ r ∈ dm.pending ∧ r.cause = cause ∧
         r.detail = v ∧ r.pc = x.pc ∧ r.resume = some x.next))) ∧
    (∀ (s : State) (u : UnitRef) (b : Body) (pc : Addr) (f : FaultInfo), bodyOf s u = some b →
     (∀ uid low, u = .crew uid low → ∃ c, b = .crew c) →
     let t := takeFault s u pc f
     let dom := (domainOfGrid s (gridOf s u)).1
     let before := (domainOfGrid s (gridOf s u)).2
     (∃ n, bodyOf t u = some (b.setHeld (some n))) ∧
     t.mem = s.mem ∧ t.cores = s.cores ∧ t.clusters = s.clusters ∧ t.ctxs = s.ctxs ∧ t.grids = s.grids ∧ t.quarters = s.quarters ∧
     (∀ d, tget before.domains dom = some d → ∃ r d', tget t.domains dom = some d' ∧ d'.pending = d.pending ++ [r] ∧
       d'.seq = d.seq + 1 ∧ d'.outst = d.outst ∧ r.cause = f.cause ∧ r.addr = f.addr ∧ r.pc = pc ∧ r.entry = entryOf b u ∧
       r.detail = f.detail ∧ r.held = true ∧ r.seq = BitVec.ofNat 32 d.seq))

/-- TRET.retry, TRET.next, TRET.error and TRET.end complete, with the answer 0, 1 or 2. A unit that serves no fault domain gets SYSREG_DENIED;
what a release at device scope awaits is awaited first; a record that is not there answers 1 and an action that the class of the record does not
allow answers 2, with no other effect but the release; otherwise D receives 0, the record is dropped and the action is taken: a retried unit
resumes each lane at its own region entry, the loads of its lanes that met poison forgotten, or all at the instruction where the record is exact,
NEXT resumes it at RESUME, ERROR completes a command or a run in error, END ends the grid. END is allowed for every class, retry for all but a
report, next for an exact record and error for an asynchronous one only. That a load which met poison after its issue is performed again by a
retry is the model's reading (log 36). -/
def Obligations.ReturningFromAnException : Prop :=
  (∀ (s : State) (x : Ex) (c : Ctl) (d a b : Spec) (i : Instr) (act : TretAct),
    ((i = .tretRetry c d a b ∧ act = .retry) ∨ (i = .tretNext c d a b ∧ act = .next) ∨
      (i = .tretError c d a b ∧ act = .error) ∨ (i = .tretEnd c d a b ∧ act = .end_)) → runsAs s i x →
    let s1 := releaseAt s (coreOf s x.ref) .l2
    let answer := fun v => retire x c (x.body.sendV x.exec d fun _ => v) s1
    (serves s x.ref = none → exec i s = .next (faultEx x .sysregDenied 0 x.exec s)) ∧
    (∀ dom, serves s x.ref = some dom →
      (∀ o, releaseObject s x.ref .device = some o → exec i s = .next (waitEx x o i s)) ∧
      (releaseObject s x.ref .device = none →
        (findRec s1 dom (x.w a x.low) (x.v b x.low) = none → exec i s = .next (answer 1)) ∧
        (∀ r, findRec s1 dom (x.w a x.low) (x.v b x.low) = some r →
          (tretOk r.cls act = false → exec i s = .next (answer 2)) ∧
          (tretOk r.cls act = true → exec i s = .next (tretDo (dropRec (answer 0) dom r.uid) (ctxOf s x.ref) r act)))))) ∧
    (∀ k, tretOk k .end_ = true ∧ (tretOk k .retry = false ↔ k = .report) ∧ (tretOk k .next = true ↔ k = .exactly) ∧
      (tretOk k .error = true ↔ k = .async)) ∧
    (∀ (s : State) (ctx : Nat) (r : FRec) (u : UnitRef),
      ((∃ uid lane, u = .crew uid lane ∧ r.who = .crew uid lane) ∨ (∃ t, u = .access t ∧ r.who = .access t)) →
      let s1 := if r.exact then s else forgetHeld s r.who
      tretDo s ctx r .retry = acquireAt (resumeUnit s1 r.who (if r.exact then some r.pc else none)) (coreOf s1 u) .l2 ∧
      tretDo s ctx r .next = acquireAt (resumeUnit s r.who (some (resumePc s ctx r))) (coreOf s u) .l2) ∧
    (∀ (s : State) (ctx : Nat) (r : FRec),
      (∀ n, r.who = .cmd n → tretDo s ctx r .retry = resumeCmd s n ∧ tretDo s ctx r .error = failCmd s n) ∧
      (∀ t q, r.who = .run t q → tretDo s ctx r .retry = retryRun s t q ∧ tretDo s ctx r .error = failRun s t q) ∧
      (∀ g, r.grid = some g → tretDo s ctx r .end_ = endGrid s g))

/-- MBOX.SEND, MBOX.RECV and ATTEST complete: one message for the debug monitor, one report requested. Outside the handler crew of the monitor
under a debug level that grants the buffer, MBOX raises DEBUG_DENIED; a buffer or a count that fails its checks raises the fault. SEND answers
all ones while a message waits, raises POISON where a byte it reads is poisoned, and otherwise hands over the bytes with the next sequence number
and interrupts the host; RECV answers 0 when there is none and otherwise writes what fits of the message and answers its whole length; ATTEST
raises the fault of operands that fail their checks, waits for room in its token and for one of 16 places, and otherwise makes one attestation
command with the next sequence number, sent to D. -/
def Obligations.MailboxAndAttestation : Prop :=
  ∀ (s : State) (x : Ex) (c : Ctl) (d a b : Spec) (cmd : CmdByte),
    let va := (x.w a x.low).toNat
    let n := (x.v b x.low).toNat
    let i := Instr.mboxSend c d a b
    let j := Instr.mboxRecv c d a b
    let k := Instr.attest c d a b cmd
    (mboxAllowed s x.ref va = false →
      (runsAs s i x → exec i s = .next (faultEx x .debugDenied 0 x.exec s)) ∧
      (runsAs s j x → exec j s = .next (faultEx x .debugDenied 0 x.exec s))) ∧
    (∀ e, mboxAllowed s x.ref va = true →
      (runsAs s i x → mboxFail s x .load va n = some e → exec i s = .next (failEx x e (1#64 <<< x.low) s)) ∧
      (runsAs s j x → mboxFail s x .store va n = some e → exec j s = .next (failEx x e (1#64 <<< x.low) s))) ∧
    (mboxAllowed s x.ref va = true → runsAs s i x → mboxFail s x .load va n = none →
      (s.host.d2h.isSome = true → exec i s = .next (retireEnd x c (x.body.sendV x.exec d fun _ => 0xFFFFFFFF#32) s)) ∧
      (s.host.d2h = none →
        let r := mboxRead x (mboxPath s x) (segments s (ctxOf s x.ref) (teamOf s x.ref) .load va n) s
        (r.2.1 = true → exec i s = .next (faultEx x .poison (BitVec.ofNat 64 va) (1#64 <<< x.low) s)) ∧
        (r.2.1 = false → exec i s = .next (retireEnd x c (x.body.sendV x.exec d fun _ => s.host.d2hSeq + 1)
          (raiseMsix { r.2.2 with host := { r.2.2.host with d2h := some r.1, d2hSeq := s.host.d2hSeq + 1 } } 63))))) ∧
    (mboxAllowed s x.ref va = true → runsAs s j x → mboxFail s x .store va n = none →
      (s.host.h2d = none → exec j s = .next (retireEnd x c (x.body.sendV x.exec d fun _ => 0) s)) ∧
      (∀ msg, s.host.h2d = some msg →
        let bs := msg.take n
        let segs := segments s (ctxOf s x.ref) (teamOf s x.ref) .store va bs.length
        exec j s = .next (retireEnd x c (x.body.sendV x.exec d fun _ => BitVec.ofNat 32 msg.length)
          (sendStores (mboxWrite x (mboxPath s x) segs bs { s with host := { s.host with h2d := none } }) x
            [(x.low, windowBytes segs va bs)])))) ∧
    (∀ e, runsAs s k x → attestFail s x va (x.w b x.low).toNat = some e → exec k s = .next (failEx x e (1#64 <<< x.low) s)) ∧
    (runsAs s k x → attestFail s x va (x.w b x.low).toNat = none →
      let full := cmd.tv && (tokenAt x.body cmd.tok.toNat).assignFull
      (full = true → exec k s = .next (waitEx x (.tokenRoom cmd.tok.toNat) k s)) ∧
      (full = false → 16 ≤ s.sec.attest.length → exec k s = .next (waitEx x .attestPlace k s)) ∧
      (full = false → s.sec.attest.length < 16 →
        ∃ r : Cmd, r.kind = .attest (x.w a x.low) (x.w b x.low) s.sec.seq ∧ exec k s = .next (retireEnd x c
          ((assignToken x.body cmd.tv cmd.tok.toNat).1.sendV x.exec d fun _ => s.sec.seq)
          { s with nums := { s.nums with uid := s.nums.uid + 1 }, cmds := tset s.cmds s.nums.uid r,
                   sec := { s.sec with seq := s.sec.seq + 1, attest := s.sec.attest ++ [s.nums.uid] } })))

/-- Where an issue is turned away, for every encoded instruction: decode fault, WAIT, scoreboard, STALL, parity, guard, PERMS, earlier accesses,
transaction. For every encoded instruction at a selected group that is not held, with its shape (control fields, operands, further checks,
transaction rule), in this order: a decode fault is taken; a WAIT field with batches outstanding closes the named tokens that can be closed and
waits; operands still to arrive make the group wait; a crew-uniform register still on its way keeps it back until that cycle; an operand read too
early raises STALL_SHORT where SCTL bit 0 asks for it; a parity error that a re-read does not clear raises POISON; a guard false in every lane
only moves on; an access that PERMS keep from the debug monitor raises DEBUG_DENIED; an instruction that must find earlier accesses of its unit
performed, all of them or those up to the last that gives registers their values, has these performed first; open transactions that bar the
instruction leave it without its effect. Without a selected unit nothing changes. The model's own: the order in which an issue is turned away
(log 12), and in single clauses what logs 10, 11 and 45 choose. -/
def Obligations.IssueTurnsAway : Prop :=
  ∀ (s : State) (i : Instr) (p : Shape), shape s i = some p →
    (s.cur = none → exec i s = .next s) ∧
    (∀ (u : UnitRef) (b : Body) (g : Group), s.cur = some u → bodyOf s u = some b → groupOf b u = some g → b.held = none →
      let codes := codesOf s b p.ctl p.ops
      let x := exOf s u b g i p.ctl
      let short := shortMask s x p.ctl p.ops
      let isShort := (ctlOf s (ctxOf s u)).sctl.getLsbD 0 && short != 0#64
      let ps := parityAt s x p.ctl p.ops
      let bad := ps.filter fun e => !e.reread
      let s1 := metParity s ps
      (∀ cause, badDecode s b p.ctl p.ops p.extra = some cause →
        exec i s = .next (faultUnit s u g.mask g.pc (FaultInfo.at cause g.pc g.mask))) ∧
      (badDecode s b p.ctl p.ops p.extra = none → p.ctl.wait ≠ 0#8 → g.waitDone = false →
        (anyFull b.toks p.ctl.wait || anyOutstanding (closeNamed b p.ctl.wait).toks p.ctl.wait) = true →
        exec i s = .next (setWait (putBody s u (closeNamed b p.ctl.wait)) u (.tokens p.ctl.wait (fullOf b.toks p.ctl.wait)) (some i))) ∧
      (badDecode s b p.ctl p.ops p.extra = none → (p.ctl.wait = 0#8 ∨ g.waitDone = true) →
        (b.awaits g.mask codes = true → exec i s = .next (setWait s u .scoreboard (some i))) ∧
        (∀ t, b.awaits g.mask codes = false → b.uniformUntil g.mask s.clock codes = some t → exec i s = .next (holdBack s u t)) ∧
        (b.awaits g.mask codes = false → b.uniformUntil g.mask s.clock codes = none →
          (isShort = true → exec i s = .next (faultUnit s u g.mask g.pc (FaultInfo.at .stallShort g.pc short))) ∧
          (isShort = false → bad ≠ [] →
            exec i s = .next (faultUnit s1 u g.mask g.pc (FaultInfo.at .poison g.pc (maskOf (bad.map (·.lane)))))) ∧
          (isShort = false → bad = [] → x.exec = 0#64 → exec i s = .next (retire x p.ctl b s1)) ∧
          (isShort = false → bad = [] → x.exec ≠ 0#64 → barred s1 u i = true →
            exec i s = .next (faultUnit s1 u g.mask g.pc (FaultInfo.at .debugDenied g.pc x.exec))) ∧
          (isShort = false → bad = [] → x.exec ≠ 0#64 → barred s1 u i = false →
            let w := waitsForPend i (p.rule == .runs)
            (owed s1 u i (p.rule == .runs) = match w with
              | .none => []
              | .loads => ((pendOf s1 u).reverse.dropWhile (·.store)).reverse
              | .all => pendOf s1 u) ∧
            (owed s1 u i (p.rule == .runs) ≠ [] → exec i s = .next (drainFirst s1 u i w)) ∧
            (∀ t, owed s1 u i (p.rule == .runs) = [] → txGate s1 x p.rule = some (t, false) → exec i s = .next t)))))

/-- A step of a selected unit runs the instruction that its fetch decodes; pad words are skipped and bad words fault. When the block at the
program counter of the selected group, which is not held, is fetched and its bytes decode to an instruction that the unit can execute,
step is exec of that instruction in the state after the fetch, with the program counter at the address read; bytes that decode to no
instruction, or to one of the other unit, take the fault of R67 there; a failed fetch takes its own; a pad word moves the fetch one word
on. -/
def Obligations.StepRunsTheDecodedInstruction : Prop :=
  ∀ (s : State) (u : UnitRef) (b : Body) (g : Group), s.cur = some u → bodyOf s u = some b → groupOf b u = some g → b.held = none →
    (∀ y bs s1 i n us, fetchBlock s u g.pc.toNat = .ok (y, bs, s1) → decode bs = .instr i n us → unitFault (isAccess u) us = none →
      step s = exec i (setPc s1 u y)) ∧
    (∀ y bs s1 cause, fetchBlock s u g.pc.toNat = .ok (y, bs, s1) →
      ((∃ e, decode bs = .bad e ∧ cause = decodeFault (isAccess u) e) ∨
        (∃ i n us, decode bs = .instr i n us ∧ unitFault (isAccess u) us = some cause)) →
      step s = .next (faultUnit s u g.mask (BitVec.ofNat 64 y)
        { cause, addr := BitVec.ofNat 64 y, mask := g.mask, detail := 0, exact := false })) ∧
    (∀ f, fetchBlock s u g.pc.toNat = .error f → ∃ detail, step s = .next (faultUnit s u g.mask (BitVec.ofNat 64 g.pc.toNat)
        { cause := f.cause, addr := BitVec.ofNat 64 f.addr, mask := g.mask, detail, exact := false })) ∧
    (∀ n x t y bs t1, fetchBlock t u x = .ok (y, bs, t1) → decode bs = .padWord →
      fetchFrom u (n + 2) x t = fetchFrom u (n + 1) (y + 4) t1)

/-- Every step of every state answers a next state: an event of the agenda comes first, else the next event of the device, else a cycle. For
every state and every instruction or event, exec answers a next state, and so does step. Without a selected unit the step is the first event of
the agenda that need not wait for a line which an irrevocable attempt holds, nor for an earlier one of its own side that must, and the agenda
keeps the others; with none, it is the first of the events of the device that changes the state; with none of those, the clock moves on by one.
That a line held by an irrevocable attempt keeps an event of the outside waiting is the choice of log 16. The model's own: that the agenda comes
first, then the first event of the device that changes the state, then one cycle (log 8, with logs 9 and 34). -/
def Obligations.EveryStepAnswers : Prop :=
  (∀ (i : Instr) (s : State), ∃ t, exec i s = .next t) ∧
    (∀ s : State, ∃ t, step s = .next t) ∧
    (∀ (s : State) (e : Instr) (pre post : List Instr), s.cur = none → s.agenda = pre ++ e :: post →
      nextOutside s [] pre = none → outsideHeld s e = false → (∀ d ∈ pre, sameSide e d = false) →
      step s = exec e { s with agenda := pre ++ post }) ∧
    (∀ (s : State) (e : Instr) (r : List Instr), s.cur = none → nextOutside s [] s.agenda = some (e, r) →
      outsideHeld s e = false ∧ e ∈ s.agenda ∧ r.length + 1 = s.agenda.length ∧ step s = exec e { s with agenda := r }) ∧
    (∀ (s : State) (e : Instr), s.cur = none → nextOutside s [] s.agenda = none → nextEvent s = some e → step s = exec e s) ∧
    (∀ s : State, s.cur = none → nextOutside s [] s.agenda = none → nextEvent s = none → step s = .next { s with clock := s.clock + 1 })

/-- Decoding the bytes of an encoded instruction gives it back, for every well-formed instruction and operand. For every well-formed
instruction that has an encoding, with every operand at every value: the bytes of its words, least significant first, followed by any
bytes, decode to that instruction, with its length in bytes and the units that its operation names. -/
def Obligations.DecodeOfEncode : Prop :=
  ∀ (i : Instr) (f : Fields) (rest : List Byte), i.wf = true → encodeFields i = some f →
    ∃ us, unitsOf f.grp.toNat f.op.toNat = some us ∧
      decode (((encode i).map fun w => toBytes 4 w.toNat).flatten ++ rest) = .instr i i.bytes us

/-- Words written out from the encoding tables decode to the instructions they stand for. Words put together from the bit positions of R56 and
of each instruction: IADD.sat of registers, a guarded MOVI that waits for two tokens, LD with its memory word, BRA backwards, CPY with its
command byte, SYSR of index 0xF03, a 64-bit atomic minimum with acquire and release, MMA.sat; a pad word; and four that are no
instruction: a bad pad word, an unassigned operation, a reserved SUB, and an instruction that is cut off. -/
def Obligations.WordsDecode : Prop :=
  decodeWords [0x100001d0#32, 0x00020103#32] =
      .instr (.iadd { wait := 0, neg := false, pred := 7, stall := 4 } true 3 1 2) 8 .both ∧
    decodeWords [0x02060681#32, 0x00000005#32, 0x12345678#32] =
      .instr (.movi { wait := 0x81, neg := true, pred := 2, stall := 0 } 5 0x12345678) 12 .both ∧
    decodeWords [0x280001c5#32, 0x00000a14#32, 0xffff0336#32] =
      .instr (.ld { wait := 0, neg := false, pred := 7, stall := 1 } .b16
        { off := BitVec.ofInt 20 (-16), rc := 3, evict := 1, scope := .device, ord := .acquire } 20 10) 12 .both ∧
    decodeWords [0x030001c5#32, 0#32, 0xffffffc0#32] =
      .instr (.bra { wait := 0, neg := false, pred := 7, stall := 1 } .always 0 (BitVec.ofInt 32 (-64))) 12 .both ∧
    decodeWords [0x0a1401c5#32, 0x04030201#32, 0x000000c5#32] =
      .instr (.cpy { wait := 0, neg := false, pred := 7, stall := 1 } 1 2 3 4 { bv := true, tv := true, tok := 5 }) 12 .access ∧
    decodeWords [0xff0001fc#32, 0x00000309#32] =
      .instr (.sysr { wait := 0, neg := false, pred := 7, stall := 15 } 0xF03 9) 8 .both ∧
    decodeWords [0x990001c1#32, 0x03020100#32, 0x00000001#32] =
      .instr (.atom { wait := 0, neg := false, pred := 7, stall := 0 } .minb true true
        { off := 0, rc := 0, evict := 0, scope := .thread, ord := .relaxed } 0 1 2) 12 .both ∧
    decodeWords [0x1c0c01c0#32, 0x00080602#32] =
      .instr (.mma { wait := 0, neg := false, pred := 7, stall := 0 } true 2 6 8) 8 .crew ∧
    decodeWords [3#32] = .padWord ∧ decodeWords [7#32] = .bad .pad ∧
    decodeWords [0x00fc01c0#32, 0#32] = .bad .op ∧ decodeWords [0x132801c0#32, 0#32] = .bad (.field .both) ∧
    decodeWords [0x02060681#32, 0x00000005#32] = .bad .pad

/-- After reset: a start has begun with no step done, nothing runs, memory lists nothing, and a context opens with the registers of the table.
The start record has 24 entries all zero; no unit is selected; there are no contexts, grids, teams, crews, commands or launches; no byte
of memory is listed, so that memory has its canonical form; the measurement registers and counters are zero; and the control registers of
a context that opens are zero but for BIN_AGE, which is 0x100. What an unlisted byte reads as, the clock, the numbers that the model hands
out and the shipping security state are the choices of the model (logs 1, 2 and 7). -/
def Obligations.AfterReset : Prop :=
  State.reset.start.entries.length = 24 ∧ (∀ e ∈ State.reset.start.entries, e = { attempts := 0, path := 0, state := 0 }) ∧
    State.reset.start.ready = false ∧ State.reset.cur = none ∧ State.reset.ctxs = [] ∧ State.reset.grids = [] ∧
    State.reset.teams = [] ∧ State.reset.crews = [] ∧ State.reset.cmds = [] ∧ State.reset.queues = [] ∧ State.reset.mem = [] ∧
    State.reset.sec.mr = List.replicate 12 0 ∧ State.reset.counters.hbmCe = 0 ∧
    State.reset.counters.scrubPass = 0 ∧
    Memory.wf State.reset.mem = true ∧ (∀ a, cellGet State.reset.mem a = 0) ∧
    ctlRead CtlRegs.reset 2 = 0x100 ∧ (∀ idx : Nat, idx ≠ 2 → ctlRead CtlRegs.reset idx = 0)

/-- ISSUE_SELECT takes the oldest ready group of the highest rank; joins, bins, quotas, results and ends of waits go as their rules say: each
completes. A quarter selects a ready group in play that no other outranks, none that has been ready longer at the same rank, and none behind a
group of its crew whose barrier has flipped; ISSUE_SELECT makes it the unit that issues, after parked groups have filled the play and the groups
that the scoreboard, a crew-uniform register or a WAIT field keeps back have been set waiting, and takes for an access processor the access
thread it selects. A group ready for 48 cycles is raised; one with 256 issues goes behind the parked ones. JOIN_RELEASE frees a full join;
BIN_AGE_LIMIT draws a bin that is aged or full, or the oldest while threads wait for one, files the threads that wait for a bin, and without a
bin only files them. A unit waiting for a resource, queue entries or a token count issues its instruction again; one whose access waits for a
partner's requests, its own or places is ready once they are done; the groups of a crew that wait alike at one barrier are fused once it has
flipped and issue again. A WAIT field whose batches are complete ends with its acquire, and one that had to wait for a close closes as soon as it
can. One more access of a unit is performed and arrived results are written; the oldest open error record is written to its log unless that is in
a held line. The fusion at a barrier is the choice of log 38. -/
def Obligations.GroupsIssueAndGoOn : Prop :=
  ∀ (s : State) (q : Nat) (u : UnitRef),
    (q < 512 → selects s q = some u → s.cur = none ∧ (s.package = .on ∨ s.package = .toS3) ∧ (quarterAt s q).last < s.clock ∧
      ∃ g, (u, g) ∈ groupsOn s q ∧ g.inPlay = true ∧ behindBarwait s u = false ∧ g.ready s.clock = true ∧
        ∀ e ∈ groupsOn s q, e.2.inPlay = true → behindBarwait s e.1 = false → e.2.ready s.clock = true →
          rankOf s e.1 e.2 < rankOf s u g ∨ (rankOf s e.1 e.2 = rankOf s u g ∧ g.since ≤ e.2.since)) ∧
    (∀ b, let s1 := settleQuarter (if q < 512 then fillPlay q 16 s else s) q
      selects s1 q = some u → bodyOf s1 u = some b →
      let s2 := modGroup s1 u fun g => { g with issued := g.issued + 1 }
      exec (.issueSelect q) s = .next { setQuarter s2 q { quarterAt s2 q with last := s.clock + b.lag } with cur := some u }) ∧
    (let s1 := settleQuarter (if q < 512 then fillPlay q 16 s else s) q
     selects s1 q = none → exec (.issueSelect q) s = .next s1) ∧
    (let s1 := settleQuarter s q
     exec (.readyAgeRaise q) s = .next (((groupsOn s1 q).filter fun e => e.2.inPlay && e.2.ready s.clock &&
      decide (e.2.since + 48 ≤ s.clock)).foldl (fun s e => modGroup s e.1 fun g => { g with raised := true }) s1)) ∧
    (settleQuarter s q = ((candidates s q).filter fun e => e.2.ready s.clock).foldl (fun s e => settleReady s e.1) s) ∧
    (∀ i s1 p b g, fetchNext { s with cur := some u } u = .instr i s1 → issueShape s1 i = some p → bodyOf s1 u = some b →
      groupOf b u = some g → badDecode s1 b p.ctl p.ops p.extra = none → (p.ctl.wait = 0 ∨ g.waitDone = true) →
      (b.awaits g.mask (codesOf s1 b p.ctl p.ops) = true → settleReady s u = setWait s u .scoreboard (some i)) ∧
      (∀ n, b.awaits g.mask (codesOf s1 b p.ctl p.ops) = false → b.uniformUntil g.mask s1.clock (codesOf s1 b p.ctl p.ops) = some n →
        settleReady s u = modGroup s u fun g => { g with notBefore := n, since := n }) ∧
      (b.awaits g.mask (codesOf s1 b p.ctl p.ops) = false → b.uniformUntil g.mask s1.clock (codesOf s1 b p.ctl p.ops) = none →
        settleReady s u = s)) ∧
    (spent s q = some u → (oldestParked s q).isSome = true → exec (.playQuotaExpire q) s =
      .next (fillPlay q 16 (modGroup s u fun g => { g with inPlay := false, issued := 0, parked := s.clock }))) ∧
    (∀ crew j c, tget s.crews crew = some c → c.held = none → joinReady c j = true →
      exec (.joinRelease crew j) s = .next { s with crews := tset s.crews crew (joinFree c j s.clock) }) ∧
    (∀ bi b, (quarterAt s q).bins.getD bi none = some b →
      (binAged s q bi = true ∨ widthOf s b.key.grid ≤ b.slots.length ∨
        (oldestBin (quarterAt s q).bins = bi ∧ (quarterAt s q).waiting ≠ [])) →
      exec (.binAgeLimit q bi) s = .next (fileWaiting (drawBin s q bi (widthOf s b.key.grid)) q)) ∧
    (∀ bi, (quarterAt s q).bins.getD bi none = none → exec (.binAgeLimit q bi) s = .next (fileWaiting s q)) ∧
    (∀ w i, freeWait s u = some w → w.instr = some i →
      (w.obj.resource = true → (∀ c t, i ≠ .close c t) → (∀ c n d t, i ≠ .waitb c n d t) →
        ∃ t, exec (.commandAccept u) s = .next t ∧ goesFurther s u i t) ∧
      (∀ off ph, w.obj = .barrier off ph → (barOf s u off).phase ≠ ph →
        ∃ t, exec (.barwaitRelease u) s = .next t ∧ goesFurther (fuseAt s u).1 (fuseAt s u).2 i t) ∧
      (∀ n m, w.obj = .queueEmpty n m → ∃ t, exec (.opopFill u) s = .next t ∧ goesFurther s u i t) ∧
      (∀ tok n, w.obj = .tokenLeft tok n → ∃ t, exec (.tokenWaitRelease u) s = .next t ∧ goesFurther s u i t) ∧
      (∀ tok, w.obj = .tokenRoom tok → ((∃ c t, i = .close c t) ∨ ∃ c n d t, i = .waitb c n d t) →
        ∃ t, exec (.tokenWaitRelease u) s = .next t ∧ goesFurther s u i t)) ∧
    (∀ w, freeWait s u = some w →
      (∀ t, w.obj = .partner t → padBusy s t = false → exec (.commandAccept u) s = .next (clearWait s u)) ∧
      (∀ t, w.obj = .sent t → queuedFrom s (fun r => meetIn r.writers (writersOf s u)) ≠ some t → exec (.commandAccept u) s = .next (clearWait s u)) ∧
      (w.obj = .places → placesUsed s (coreOf s u) < corePlaces → exec (.commandAccept u) s = .next (clearWait s u)) ∧
      (∀ m todo b, w.obj = .tokens m todo → bodyOf s u = some b →
        (fullOf b.toks todo = 0 → anyOutstanding (closeNamed b todo).toks m = false →
          exec (.tokenWaitRelease u) s = .next (clearWait (acquireAt
            (modGroup (putBody s u (closeNamed b todo)) u fun g => { g with waitDone := true }) (coreOf s u) .l2) u)) ∧
        (fullOf b.toks todo ≠ todo → (fullOf b.toks todo ≠ 0 ∨ anyOutstanding (closeNamed b todo).toks m = true) →
          exec (.tokenWaitRelease u) s = .next (modGroup (putBody s u (closeNamed b todo)) u fun g =>
            { g with wait := g.wait.map fun w => { w with obj := .tokens m (fullOf b.toks todo) } })))) ∧
    (∀ (c : Crew) (g : Group), ∃ f, (fuseBarwait c g).groups = f :: (c.groups.filter fun h => !g.sameBarwait h) ∧ f.pc = g.pc ∧
      f.wait = g.wait ∧ f.mask = (c.groups.filter g.sameBarwait).foldl (fun m h => m ||| h.mask) 0) ∧
    (∀ n b, bodyOf (performNth s u n) u = some b →
      exec (.variableLatencyResult ⟨u, n⟩) s = .next (wakeScoreboard (putBody (performNth s u n) u b.landAll) u)) ∧
    (∀ core r rest, (coreAt s core).aebuf = r :: rest → aelogHeld s r = false →
      exec (.aelogRecordWrite core) s = .next (aelogWrite (setCore s core { coreAt s core with aebuf := rest }) r))

/-- WAITS_FOR_PROBE completes: a probe that is due reports the closed set of nodes that wait for each other, once. A node whose probe is due
sends it and is to send the next 2^20 cycles later. Where the nodes that could advance it all wait and none is out of detection, the set is
reported as WAIT_CYCLE in every fault domain of its members, with the members and what they await in ascending order of identity, unless it has
been reported since the last of them began to wait or a member of lower identity finds as large a set; otherwise nothing else happens. The report
names the node whose probe found the set as its subject. -/
def Obligations.WaitCyclesAreReported : Prop :=
  ∀ (s s1 : State) (w : Waiter), probeDue s w = some s1 →
    (probeSet s1 w = none → exec (.waitsForProbe w) s = .next s1) ∧
    (∀ c, probeSet s1 w = some c →
      (reported s1 c (membersOf s1 c) = true → exec (.waitsForProbe w) s = .next s1) ∧
      (∀ v d, v ∈ c → (waiterId s1 v).toNat < (waiterId s1 w).toNat → probeSet s1 v = some d → d.length = c.length →
        exec (.waitsForProbe w) s = .next s1) ∧
      (reported s1 c (membersOf s1 c) = false → (∀ v ∈ c, (waiterId s1 w).toNat ≤ (waiterId s1 v).toNat) →
        let s2 := (domainsOf s1 c).1.foldl (fun s d => waitReport s w (membersOf s1 c) d) (domainsOf s1 c).2
        exec (.waitsForProbe w) s =
          .next { s2 with told := (s1.clock, membersOf s1 c) :: s2.told.filter fun e => e.2 != membersOf s1 c })) ∧
    (∀ c, (membersOf s1 c).Pairwise fun a b => a.1.toNat ≤ b.1.toNat) ∧
    (∀ u x, w = .unit u → waitingAt s u = some x → (∀ g, groupAt s u = some g → g.mask ≠ 0#64) →
      x.probe ≤ s.clock ∧ waitingAt s1 u = some { x with probe := s.clock + 2 ^ 20 }) ∧
    (∀ n c, w = .command n → tget s.cmds n = some c → c.probe ≤ s.clock ∧
      (tget s1.cmds n).map (·.probe) = some (s.clock + 2 ^ 20)) ∧
    (∀ ms d, (tget s.domains d).isSome = true → ∃ r e e', tget s.domains d = some e ∧ tget (waitReport s w ms d).domains d = some e' ∧
      e'.pending = e.pending ++ [r] ∧ r.cause = .waitCycle ∧ r.subject = waiterId s w ∧ r.members = ms)

/-- COMMAND_COMPLETE, ASTREAM_PUSH, ENGINE_FAULT, FRED_GROUP_CLOSE, SEQUENCER_STEP, DECODE_JOB_START, DECODE_JOB_COMPLETE and ACCUMULATOR_RELEASE
complete. A command not stopped, not one of the special kinds and with its entries pushed, does its work, all of it or a given number of pieces,
or one piece ahead of its turn that meets no fault; a decode job does its work too; each is over once all is done and no write of it is on its
way. A stream command with a place in its queue pushes its next entry with whether it was read poisoned; a command whose next piece faults, other
than at a held line, is stopped at that piece behind a record. A reduction group with all its parts sums them and gives the results to each. A
sequencer, its team in place, skips a masked step; it does nothing while a request is on its way to a frame it reads; otherwise it adds the
products of its tiles and moves on, or stops behind a record, as at a parity error of its accumulator that a re-read does not clear. Fewer than
16 decode jobs running, the next queued one starts. A unit waiting for an accumulator or a sequencer goes on once it is free. The model's own: in
which pieces and in which order a command does its work (log 36), that it does not pass a held line (log 16), what HELD says in a sequencer's
record and what of a piece is not partly written (log 19), and that a parity error of an accumulator is met where it is read (log 45). -/
def Obligations.CommandsAndSequencersRun : Prop :=
  ∀ (s : State) (cmd q limit : Nat) (c : Cmd),
    let work := runCmd s cmd c limit
    let done := { work.s with cmds := tset work.s.cmds cmd (c.reached work) }
    (work.fail = none → (work.total ≤ work.pos → writesWait done cmd c = false → finishCmd s cmd c limit = completeCmd done cmd false) ∧
      ((work.pos < work.total ∨ writesWait done cmd c = true) → finishCmd s cmd c limit = done)) ∧
    (∀ e, work.fail = some e → finishCmd s cmd c limit = if e.held then done else s) ∧
    (tget s.cmds cmd = some c → c.stopped = none →
      (c.plain = true → c.pushed = true → exec (.commandComplete ⟨cmd, limit, 0⟩) s = .next (finishCmd s cmd c limit)) ∧
      (∀ n piece once, c.plain = true → c.pushed = true → n ≠ 0 → cmdPieces s cmd c = some (piece, once) →
        let p := (List.range n).foldl (fun p _ => c.pieceEnd s p) c.pos
        let r := piece s p none
        ((c.total ≤ p ∨ c.ahead.any (fun a => a.1 == p) = true ∨ r.fail.isSome = true) →
          exec (.commandComplete ⟨cmd, limit, n⟩) s = .next s) ∧
        (p < c.total → c.ahead.any (fun a => a.1 == p) = false → r.fail = none →
          exec (.commandComplete ⟨cmd, limit, n⟩) s = .next { (if once then countReads s r.s 1 0 else r.s) with
            cmds := tset r.s.cmds cmd { c with ahead := c.ahead ++ [(p, r.pos)] } })) ∧
      (∀ n, c.runningJob = true → exec (.decodeJobComplete ⟨cmd, limit, n⟩) s = .next (finishCmd s cmd c limit)) ∧
      (∀ e, streamEntry s c = some (.error e) → exec (.engineFault cmd) s = .next (stopCmd s cmd c e)) ∧
      (∀ e, streamEntry s c = none → (runCmd s cmd c 0).fail = some e → e.held = false →
        let r := runCmd s cmd c 0
        exec (.engineFault cmd) s = .next (stopCmd r.s cmd (c.reached r) e)) ∧
      (∀ n a b x n0 n1 t tm bs bad s1, c.kind = .astream n a b x n0 n1 → c.by_.team = some t → tget s.teams t = some tm →
        let oq := tm.queues.getD n { entries := [], producer := none }
        tm.place = .resident → oq.entries.length < queueCap → streamEntry s c = some (.ok (bs, bad, s1)) →
        let s2 := modTeam s1 t fun tm => { tm with queues := (lset tm.queues n
            { oq.push bs bad with producer := if n0 * n1 ≤ c.pos + 1 then none else some cmd }) }
        exec (.astreamPush cmd) s = .next
          { s2 with cmds := tset s2.cmds cmd { c with pos := c.pos + 1, probe := s.clock + 65536 } })) ∧
    (∀ (f : FredGroup) ps s1, fullGroup s f.ctx f.grid f.group = some (f, ps, s1) →
      f ∈ s.freds ∧ f.parts ≤ f.cmds.length ∧ fredParts s f.cmds = some (ps, s1) ∧
      exec (.fredGroupClose f.ctx f.grid f.group) s = .next (ps.foldl (fredGive f (fredResults f (ps.map fun p => p.2.2)))
        { s1 with freds := s1.freds.filter fun x => !(x == f) })) ∧
    (∀ r, (quarterAt s q).run = some r → r.stopped = false → runHere s r = true →
      (runSkips r.mask r.next = true → exec (.sequencerStep q) s = .next (advanceRun s q r)) ∧
      (runSkips r.mask r.next = false → runBusy s r = true → exec (.sequencerStep q) s = .next s) ∧
      (runSkips r.mask r.next = false → runBusy s r = false →
        let met := accParity s q r.m
        let s1 := metParity s met
        let stops (e : Cause × Nat) : Prop := ∃ t n detail, exec (.sequencerStep q) s =
            .next (setQuarter t q { quarterAt t q with run := some { r with stopped := true } }) ∧
          (n, t) = takeAsync s1 r.by_.grid { FRec.blank with
            cause := e.1, addr := BitVec.ofNat 64 e.2, pc := r.by_.pc, info := BitVec.ofNat 64 r.next, detail
            team := teamIndex s1 r.by_.team, subject := identity 2 (q / 4) (q % 4) 0x3FF 0, held := true, absent := r.absent
            who := .run r.by_.team (relQuarter s1 r.by_.team q) }
        (met.any (!·.reread) = true → stops (.poison, 0)) ∧
        (met.any (!·.reread) = false → (∀ e, runStep s1 q r = .error e → stops e) ∧
          ∀ acc es, runStep s1 q r = .ok (acc, es) → exec (.sequencerStep q) s =
            .next (advanceRun (noteRun (putAcc s1 r.by_.team q r.m acc) q r es) q r)))) ∧
    (∀ (r : Run) (fa fb : Machine.Frm) rest, r.conv = none →
      framesIn s r.by_.team [runVa r.a r.inca r.next, runVa r.b r.incb r.next] [] = .ok (fa :: fb :: rest) → denseOk fa fb = true →
      typeClash (accOf s r.by_.team q r.m) fa.fmt = false → runStep s q r = .ok (stepAcc r.sat fa.asA fb (accOf s r.by_.team q r.m))) ∧
    (∀ n, (s.cmds.filter fun e => e.2.runningJob).length < 16 → nextJob s = some (n, c) →
      exec .decodeJobStart s = .next { s with cmds := tset s.cmds n { c with started := true } }) ∧
    (∀ uid lane w k, waitingAt s (.crew uid lane) = some w → tget s.crews uid = some k →
      (∀ m, w.obj = .accumulator m → (accOf s (teamOf s (.crew uid lane)) k.quarterId m).inflight = false →
        exec (.accumulatorRelease (.crew uid lane)) s = .next (clearWait s (.crew uid lane))) ∧
      (w.obj = .sequencer → (quarterAt s k.quarterId).run = none →
        exec (.accumulatorRelease (.crew uid lane)) s = .next (clearWait s (.crew uid lane))))

/-- TX_BACKOFF_EXPIRE, TX_PERIODIC_VALIDATE, COMMIT_TOKEN_GRANT, SERIAL_COMMIT_GRANT and SPEC_ITERATION_GRANT complete. A back-off ends at its
cycle. Each 2^20 cycles an open transaction that is not irrevocable checks its read log: one that still holds goes on until its next check, one
that does not aborts with CONFLICT. A unit that waits for a line goes on when its die can have the four tokens of the line; else the line has
failed to collect them once more, unless the die has made its persistent request already; a commit that waits for the serial-commit token goes on
when none holds it, and a thread that asked for the token first gets it and opens irrevocably. A speculative thread goes on when its iteration is
the next of its domain. -/
def Obligations.TransactionsGoOn : Prop :=
  ∀ s : State, (∀ (u : UnitRef) (w : Waiting), waitingAt s u = some w →
    (∀ n, w.obj = .backoff n → n ≤ s.clock → exec (.txBackoffExpire u) s = .next (clearWait s u)) ∧
    (∀ l, w.obj = .line l → let die := coreOf s u / 32
      (tokensFree s l die = true → exec (.commitTokenGrant u) s = .next (clearWait s u)) ∧
      (tokensFree s l die = false → s.dir.persist.contains (l, die) = true → exec (.commitTokenGrant u) s = .next s) ∧
      (tokensFree s l die = false → s.dir.persist.contains (l, die) = false →
        exec (.commitTokenGrant u) s = .next (tokensFail s l die))) ∧
    (∀ c, w.obj = .serial → (w.instr = some (.txcommit c) ∨ w.instr = some (.spcommit c)) → s.dir.serial = none →
      exec (.commitTokenGrant u) s = .next (clearWait s u)) ∧
    (∀ h r, s.dir.serial = none → s.dir.serialAsk = h :: r → waiterOf s h.1 h.2 = u →
      exec .serialCommitGrant s =
        .next (performAt { s with dir := { s.dir with serial := some h, serialAsk := r } } u (reopen w.instr))) ∧
    (∀ uid lane c dom t, u = .crew uid lane → tget s.crews uid = some c → w.obj = .spec dom → c.lanes.getD lane none = some t →
      (∀ k ts dm d a, w.instr = some (.spopen k ts dm d a) →
        (if a = 255#8 then 0 else ((Body.crew c).reg lane a.toNat).setWidth 32) = specNext s c.grid dom →
        exec (.specIterationGrant u) s = .next (clearWait s u)) ∧
      (∀ k, w.instr = some (.spcommit k) →
        ((t.tx.iter - specNext s c.grid dom).toNat = 0 ∨ 2 ^ 31 ≤ (t.tx.iter - specNext s c.grid dom).toNat) →
        exec (.specIterationGrant u) s = .next (clearWait s u)))) ∧
    (∀ crew lane c t, tget s.crews crew = some c → c.held = none → c.lanes.getD lane none = some t → t.tx.active = true →
      t.tx.irrev = false → t.tx.checkAt ≤ s.clock →
      (validates s crew lane = true → exec (.txPeriodicValidate crew lane) s =
        .next (modThread s crew lane fun t => { t with tx := { t.tx with checkAt := t.tx.checkAt + 2 ^ 20 } })) ∧
      (∀ g, validates s crew lane = false → c.groups.find? (fun g => g.mask.getLsbD lane) = some g →
        exec (.txPeriodicValidate crew lane) s =
          .next (abortLanes s crew (lowLane g.mask) (1#64 <<< lane) .conflict none false)))

/-- The events of the memory system complete, each with its effect. The events are LINE_MIGRATE, RC_DROP, PERSISTENT_REQUEST,
TRACKING_UNIT_MERGE, SCOPE_CACHE_EVICTION, WINDOW_READ_TRANSFORM, WINDOW_WRITE_TRANSFORM, WINDOW_WRITE_ACKNOWLEDGED, HOST_WRITE_DROPPED,
PEER_WRITE_DROPPED, PATROL_SCRUB, SRAM_SCRUB, FLIT_REPLAY and LINK_RETRAIN. After 8 accesses from one cluster a line moves to slice 6c + line mod
6 of its neighbourhood, with no value or version changed; its home slice keeps a forwarding entry for it where that is another, and with 4,096
there the line of the oldest goes home. A line whose read count is used up is dropped with its bytes free (log 2); a persistent request gives its
die, which makes room, the four tokens; two quiet halves of a tracking unit merge. A scope cache fills a sector, drops a clean one or writes a
dirty one outward with what must precede it, which a line that an irrevocable attempt holds keeps in a cluster cache (log 16); after a fill it
makes room. The oldest queued window load or store is performed whole. The oldest far write is acknowledged, or a refused store dropped and
reported. A patrol scrub counts what it finds and marks and counts what it cannot correct where the L2 does not hold the line (log 31: which copy
is lost); a scrub of an SRAM array, which array having which number being log 45, counts, and poisons one unit of it, which one being free (log
2). A failed flit is counted, a new one from 1; after 8, a link that retrains goes on; a peer port that does not goes down with its
unacknowledged writes, and in a later step its pairings are dissolved; a link between dies that does not stops the device. A migration is one
step, and which line leaves a full L2 is log 15. -/
def Obligations.TheMemorySystemMoves : Prop :=
  ∀ s : State,
    (∀ die line l c n, tget s.lines line = some l → l.recent = some (c, n) → 8 ≤ n → c / 8 = die → sliceOf die line l / 6 ≠ c % 8 →
      ∃ t, exec (.lineMigrate die line) s = .next t ∧ t.mem = s.mem ∧
        sliceOf die line (lineAt t line) = 6 * (c % 8) + line % 6 ∧ (lineAt t line).recent = none ∧ (lineAt t line).version = l.version ∧
        (line ∈ (dieAt t die).moved ↔ 6 * (c % 8) + line % 6 ≠ homeSlice die line) ∧
        (∀ k r, ((movedOn s die).filter (· != line)).filter (fun k => homeSlice die k == homeSlice die line) = k :: r → 4095 ≤ r.length →
          6 * (c % 8) + line % 6 ≠ homeSlice die line → sliceOf die k (lineAt t k) = homeSlice die k)) ∧
    (∀ line l, tget s.lines line = some l → l.rc = some 0 → l.holder = none → ∃ (bs : List Byte) (t : State), bs.length = 128 ∧ t.mem = s.mem ∧
      t.lines = s.lines ∧ exec (.rcDrop line) s =
        .next { t with lines := tdel s.lines line, mem := cellsWrite s.mem (128 * line) bs }) ∧
    (∀ line p, s.dir.persist.find? (fun p => p.1 == line) = some p → (lineAt s line).holder = none →
      exec (.persistentRequest line) s =
        .next { setLine (l2Room s p.2 line) line { lineAt s line with
            tokens := [p.2, p.2, p.2, p.2], failed := (lineAt s line).failed.filter (· != p.2)
            rc := if p.2 = homeDie (128 * line) then (lineAt s line).rc else none } with
          dir := { s.dir with persist := s.dir.persist.erase p } }) ∧
    (∀ a n t t', s.dir.units.find? (fun u => u.1 == a) = some (a, n, t) →
      s.dir.units.find? (fun v => v.1 == a + n && v.2.1 == n) = some (a + n, n, t') → a % (2 * n) = 0 → n < 512 →
      t + 65536 ≤ s.clock → t' + 65536 ≤ s.clock → exec (.trackingUnitMerge a) s = .next { s with dir := { s.dir with
        units := let rest := s.dir.units.filter fun w => w.1 != a && w.1 != a + n
          if 2 * n = 512 then rest else (a, 2 * n, max t t') :: rest } }) ∧
    (∀ id sec, sec < 0xC00000000 → exec (.scopeCacheEviction false id sec .fill) s =
        .next (fitPath (fillL1 (l2Due s (sec / 8)) id sec 0) id) ∧
      exec (.scopeCacheEviction true id sec .fill) s = .next (fitCluster (fillCluster (l2Due s (sec / 8)) id sec 0) id)) ∧
    (∀ id sec, exec (.scopeCacheEviction false id sec .dropClean) s =
        .next (setCore s id { coreAt s id with l1 := dropSector (coreAt s id).l1 sec }) ∧
      exec (.scopeCacheEviction true id sec .dropClean) s =
        .next (setCluster s id { clusterAt s id with cache := dropSector (clusterAt s id).cache sec }) ∧
      exec (.scopeCacheEviction false id sec .writeOut) s =
        .next (backL1 s id (closure (coreAt s id).l1 (coreAt s id).l1.length [sec])) ∧
      (let secs := closure (clusterAt s id).cache (clusterAt s id).cache.length [sec]
       (backHeld s nobody (4 * id) secs = none → exec (.scopeCacheEviction true id sec .writeOut) s = .next (backCluster s id secs)) ∧
       (∀ l, backHeld s nobody (4 * id) secs = some l →
         exec (.scopeCacheEviction true id sec .writeOut) s = .next (tokensFail s l (id / 8))))) ∧
    (∀ w, s.winq.find? (fun w => w.write.isNone) = some w →
      let s1 := { s with winq := s.winq.erase w }
      (∀ e b off, viewOf s1 w.ctx w.va = some (e, b, off) →
        let r := viewRead s1 (w.asker s1) b off w.len
        exec .windowReadTransform s = .next (wakeWindow (landRead r.2.2 w r.1
          fun va n => (viewRead s1 (w.asker s1) b (off + (va - w.va)) n).2.1))) ∧
      (viewOf s1 w.ctx w.va = none →
        let f := takeFreeBytes s1 w.len
        exec .windowReadTransform s = .next (wakeWindow (landRead f.2 w f.1 fun _ _ => false)))) ∧
    (∀ w bs, s.winq.find? (fun w => w.write.isSome) = some w → w.write = some bs →
      let s1 := { s with winq := s.winq.erase w }
      (∀ e b off, viewOf s1 w.ctx w.va = some (e, b, off) →
        exec .windowWriteTransform s = .next (wakeWindow (viewWrite s1 (w.asker s1) b bs false))) ∧
      (viewOf s1 w.ctx w.va = none → exec .windowWriteTransform s = .next (wakeWindow s1))) ∧
    (∀ f r, s.far = f :: r → exec .windowWriteAcknowledged s = .next (wakeFar { s with far := r })) ∧
    (∀ f, s.far.find? (fun f => f.port.isNone && f.atom.isNone) = some f → exec .hostWriteDropped s = .next (wakeFar (dropFar s f))) ∧
    (∀ f, s.far.find? (fun f => f.port.isSome && f.atom.isNone && f.cmd.isNone) = some f →
      exec .peerWriteDropped s = .next (wakeFar (dropFar s f))) ∧
    (∀ ctl ce ue, scrubRuns s = true → ctl < 48 → s.start.outDies.contains (ctl / 12) = false →
      let pa := blockPa ctl ((tget s.links.scrub ctl).getD 0)
      let mark := ue && (tget s.lines (pa / 128)).isNone
      ∃ t, exec (.patrolScrub ctl ce ue) s = .next t ∧ t.mem = s.mem ∧
        t.counters.hbmUe = (if mark then satInc s.counters.hbmUe else s.counters.hbmUe) ∧
        t.counters.hbmCe = (if ce && !ue then satInc s.counters.hbmCe else s.counters.hbmCe) ∧
        t.poison = if mark then poisonAfter s.poison pa 64 true else s.poison) ∧
    (∀ core ce ue, ∃ t, t.mem = s.mem ∧ t.teams = s.teams ∧ t.poison = s.poison ∧ t.lines = s.lines ∧ t.cores = s.cores ∧
      t.counters.sramUe = (if ue && !(sramUnits s core).isEmpty then satInc s.counters.sramUe else s.counters.sramUe) ∧
      t.counters.sramCe = (if ce && !ue then satInc s.counters.sramCe else s.counters.sramCe) ∧
      (ue = false → exec (.sramScrub core ce ue) s = .next t) ∧
      (ue = true → sramUnits s core = [] → exec (.sramScrub core ce ue) s = .next t) ∧
      (ue = true → sramUnits s core ≠ [] → ∃ u ∈ sramUnits s core, exec (.sramScrub core ce ue) s = .next (poisonSram t u))) ∧
    (∀ peer flit, ∃ t, exec (.flitReplay peer flit) s = .next t ∧
      replaysOf t peer flit.link = (if flit.again then replaysOf s peer flit.link else 0) + 1 ∧
      t.counters.peerReplay = (if peer then satInc s.counters.peerReplay else s.counters.peerReplay) ∧
      t.counters.d2dReplay = (if peer then s.counters.d2dReplay else satInc s.counters.d2dReplay)) ∧
    (∀ peer link, (peer = true → link ∈ s.links.peersUp) → replaysOf s peer link < 8 →
      ∀ ok, exec (.linkRetrain peer link ok) s = .next s) ∧
    (∀ peer link, (peer = true → link ∈ s.links.peersUp) → 8 ≤ replaysOf s peer link →
      exec (.linkRetrain peer link true) s = .next (setReplays s peer link 0)) ∧
    (∀ link, link ∈ s.links.peersUp → 8 ≤ replaysOf s true link → ∃ t, exec (.linkRetrain true link false) s = .next t ∧
      link ∉ t.links.peersUp ∧ t.pairs = s.pairs ∧ ∀ f ∈ t.far, f.port ≠ some link) ∧
    (∀ link ok, link ∉ s.links.peersUp → ∃ t, exec (.linkRetrain true link ok) s = .next t ∧
      t.pairs = s.pairs.filter fun p => p.port != link) ∧
    (∀ link, 8 ≤ replaysOf s false link → ∃ t, exec (.linkRetrain false link false) s = .next t ∧
      t.start.stopped = true ∧ t.start.badLink = some link)

/-- The events of the scheduler complete, each with its effect. The events are LAUNCH_ENQUEUE, ADMISSION, PREREQ_POLL, TEAM_PLACE, TEAM_COMPLETE,
GRID_COMPLETE, RECORD_FILE, SPILL_RETURN, STEAL, HANDLER_START and FAULT_RECORD_WRITE. While the device runs, the slot at the head of a ring
moves into its queue with its packet bound, a packet whose QUEUE is a queue that the context does not own is refused with CODE 5, and one that
cannot be read is refused too; that one naming another queue of its own context is taken into the ring it stands in, and how a torn or an
unreadable packet's own DONE is used, are log 22; a head that a check refuses is refused, else the best admissible head becomes a grid, else the
heads note what they wait for; polls refuse in the same way. A grid with teams left takes its next places, and the first writes STATE 2; a team
that is done is released at device scope and freed; a grid that is over has its cores released, writes STATE 3 and is freed. Records at their
owner become threads, or have the oldest bin drawn where no bin takes them; spilled ones return to the far end of their core's deque, and a core
without work takes half of another's records, rounded up and at most 32, from the far end, as far as its deque has or can be given room. A domain
with unread records and no handler starts one; its oldest pending record is written where the queue has room and the loads of the unit it holds
have returned, TAIL moves and vector 62 is raised. A write into a line that an irrevocable attempt holds waits (log 16). -/
def Obligations.TheSchedulerRuns : Prop :=
  ∀ s : State,
    (∀ q lq ctx, tget s.queues q = some lq → lq.ctx = some ctx → lq.head ≠ lq.tail → lq.pending.length < 64 → running s = true →
      let s1 := modQueue s q fun l => { l with head := l.head + 1 }
      let va := lq.ring.toNat + 128 * (lq.head.toNat % 2 ^ lq.log2)
      (slotRead s1 ctx va = none → exec (.launchEnqueue q) s = .next (refuseUnread s1 ctx q va)) ∧
      (∀ p s2, slotRead s1 ctx va = some (p, s2) → doneHeld s ctx p = false →
        (p.torn = true ∨ ownsQueue s2 ctx p.queue = true → exec (.launchEnqueue q) s = .next (enqueue s2 ctx q { p with queue := q } none)) ∧
        (∀ s3, p.torn = false → ownsQueue s2 ctx p.queue = false → packetDone s2 ctx p 4 5 = some s3 →
          exec (.launchEnqueue q) s = .next s3) ∧
        (p.torn = false → ownsQueue s2 ctx p.queue = false → packetDone s2 ctx p 4 5 = none →
          exec (.launchEnqueue q) s = .next (dropLaunch s2 ctx q p)))) ∧
    (running s = true →
      (∀ j, (judgeHeads s).find? (fun j => j.code.isSome) = some j →
        exec .admission s = .next (refuseHead j.s j.ctx j.q j.head.packet (j.code.getD 0))) ∧
      (∀ j b, (judgeHeads s).find? (fun j => j.code.isSome) = none → bestHead (judgeHeads s) = some j → j.v = .bound b →
        exec .admission s = .next (admitHead j.s j.ctx j.q j.head.packet b)) ∧
      ((judgeHeads s).find? (fun j => j.code.isSome) = none → bestHead (judgeHeads s) = none →
        exec .admission s = .next (noteHeads s)) ∧
      exec .prereqPoll s = .next ((headLaunches s).foldl (fun s e =>
        match (verdict s e.2.1 e.2.2.packet).1 with
        | .refused c => refuseHead (verdict s e.2.1 e.2.2.packet).2 e.2.1 e.1 e.2.2.packet c
        | _ => (preRead e.2.1 e.2.2.packet.pre s).2.2) s)) ∧
    (∀ gid g ps, tget s.grids gid = some g → g.next < g.packet.teams → placeWaits s gid g = false → s.package = .on →
      (g.next = 0 → doneHeld s g.ctx g.packet = false) → nextPlaces s gid g = some ps → exec (.teamPlace gid) s =
        .next (if g.next = 0 then gridDone (startTeams gid ps s) gid 2 0 else startTeams gid ps s)) ∧
    (∀ t tm, tget s.teams t = some tm → teamDone s t tm = true →
      (coreHeld s tm.core = none → ∃ s', exec (.teamComplete t) s = .next s' ∧ tget s'.teams t = none ∧
        s'.mem = (releaseAt (s.cores.foldl (fun s e => flushLog s e.1 fun r => r.grid == tm.grid && r.team == BitVec.ofNat 64 tm.idx) s)
          tm.core .l2).mem) ∧
      (coreHeld s tm.core ≠ none → exec (.teamComplete t) s = .next (askLine s tm.core))) ∧
    (∀ gid g, tget s.grids gid = some g → gridOver s gid g = true → doneHeld s g.ctx g.packet = false →
      ((∀ c ∈ g.hosts, coreHeld s c = none) → ∃ s', exec (.gridComplete gid) s = .next s' ∧
        tget s'.grids gid = none ∧ s'.mem = (gridDone (g.hosts.foldl (fun s c => releaseAt s c .l2) s) gid 3 0).mem) ∧
      (∀ c, g.hosts.find? (fun c => (coreHeld s c).isSome) = some c → exec (.gridComplete gid) s = .next (askLine s c))) ∧
    (∀ core r q rest k, nextRecord s core = some (r, q, rest) → kernelOf s r.grid = some k →
      let key : BinKey := { grid := r.grid, owner := .pool r.pool, pc := r.entry }
      (binFor (quarterAt s (4 * core + q)).bins key ≠ none → exec (.recordFile core) s =
        .next (let n := takeUid (setCore s core { coreAt s core with deque := rest })
          fileThread n.2 (4 * core + q) key { spawnedThread k r with num := n.1 })) ∧
      (binFor (quarterAt s (4 * core + q)).bins key = none → exec (.recordFile core) s = .next (drawOldest s (4 * core + q)))) ∧
    (∀ core ctx rs, spillBack (claimSpill s core) core = some (ctx, rs) → ∃ t back, exec (.spillReturn core) s = .next t ∧
      back = (rs.foldl (fun (a : List Rec × State) r => let b := unspill a.2 ctx r; (b.1 :: a.1, b.2)) (([], claimSpill s core) : List Rec × State)) ∧
      (coreAt t core).deque = (coreAt back.2 core).deque ++ back.1) ∧
    (∀ core v gs, stealFrom s core = some (v, gs) → v ≠ core →
      let mine := (coreAt s v).deque.reverse.filter fun r => gs.contains r.grid && !r.data
      let took := mine.take (min 32 ((mine.length + 1) / 2))
      ((coreAt s core).deque.length + took.length ≤ 1024 → ∃ t, exec (.steal core) s = .next t ∧
        (coreAt t core).deque = took.reverse ++ (coreAt s core).deque ∧ ∀ r ∈ (coreAt t v).deque, r ∈ (coreAt s v).deque) ∧
      ((pushAll core took (wakeCore s core)).1 = 0 → exec (.steal core) s = .next s)) ∧
    (∀ dom d, tget s.domains dom = some d → d.handler = none → s.package = .on →
      ∀ tail head s1 k g entry s2, queueEnds s d = some (tail, head, s1) → tail ≠ head → handlerCode s1 d = some (k, g, entry, s2) →
        ∃ gid gr t, exec (.handlerStart dom) s = .next t ∧ gr.handles = some dom ∧ gr.ctx = d.ctx ∧ gr.packet = handlerPacket d k entry ∧
          (∃ s4, tget s4.grids gid = some gr ∧ (nextPlaces s4 gid gr = none → t = s4) ∧
            (∀ ps, nextPlaces s4 gid gr = some ps → t = startTeams gid ps s4))) ∧
    (∀ dom d r rest tail head s1 s2 s3, tget s.domains dom = some d → d.pending = r :: rest → d.qsize ≠ 0 → s.package = .on →
      loadsOut s r = false → queueEnds s d = some (tail, head, s1) → (tail - head).toNat + r.slots ≤ d.qsize → slotsHeld s d tail r.slots = false →
      writeSlots d tail (r.bytes d.ctx) (List.range r.slots) s1 = some s2 →
      blockWrite s2 d.ctx d.qctl.toNat (toBytes 4 (tail + BitVec.ofNat 32 r.slots).toNat) = .ok s3 →
      exec (.faultRecordWrite dom) s =
        .next (raiseMsix (modDomain s3 dom fun d => { d with pending := rest, outst := d.outst ++ [r] }) 62))

/-- CORE_VACATE, TEAM_STOP, TEAM_MOVE, TEAM_RESUME, FORWARDED_REQUEST, DIVERTED_OPERATION and SPAWNED_THREAD_RESUME complete. A grid that cannot
place its next team takes the victims that its zone needs, or none; a handler's grid takes one core, whatever the minima (R405). A team told to
move or to become absent first has its accesses performed as far as they can be; once every unit of it can stop, it stops: it is restored on its
new core with an acquire, or, where its image can be written, is absent behind its diversion entry. A request in transit is performed where its
team is, or waits at its ingress or its diversion entry; a diverted operation is performed at the image, or its fault is reported once with
ABSENT. An absent team first in its turn is given a core, and is loaded there once its diverted operations are done. A stopped spawned thread is
filed, with the age it had, on a host core that can hold it. A write to an image asks for a line that an irrevocable attempt holds (log 16). The
bytes of the state area are free (log 2); when an image is reserved, where requests in transit wait and the order of resumption are log 24. -/
def Obligations.TeamsStopAndResume : Prop :=
  ∀ (s : State) (t : Nat) (tm : Team), tget s.teams t = some tm →
    let still := settleTeam s t (teamUnits s t)
    (∀ core qb, tm.place = .stopping (some (core, qb)) →
      (teamStops still t = true →
        let q := takeQuarters (stopUnits still t tm) t tm
        exec (.teamMove t) s =
          .next (acquireAt (repoint (settle (wakeCore q.2 core) t tm core qb q.1) t (.inl core)) core .l2)) ∧
      (teamStops still t = false → exec (.teamMove t) s = .next still)) ∧
    (∀ i, tm.place = .stopping none → divertOf s (tm.core / 32) t = some i →
      ((teamStops still t = false ∨ imageHeld still t = true) → exec (.teamStop t) s = .next still) ∧
      (teamStops still t = true → imageHeld still t = false →
        let s1 := stopUnits still t tm
        ∀ tm1, tget s1.teams t = some tm1 →
        (imageReady s1 t tm1 = none → exec (.teamStop t) s = .next s1) ∧
        (∀ base s2, imageReady s1 t tm1 = some (base, s2) →
          let off := scrOffOf s2 t tm1
          (∀ l, shadowHeld s2 tm1.ctx base (off + tm1.alloc) = some l → exec (.teamStop t) s = .next (askFor s2 l (tm1.core / 32))) ∧
          (shadowHeld s2 tm1.ctx base (off + tm1.alloc) = none →
            let f := takeFreeBytes s2 off
            let bs := f.1 ++ cellsRead tm1.scratch 0 tm1.alloc
            let w := shadowStore tm1.ctx base bs (List.replicate off false ++ badBytes tm1.poison 0 tm1.alloc) (pageParts base bs.length) f.2
            (∀ e, w.2 = some e → exec (.teamStop t) s = .next (imageFault w.1 t tm1 false e)) ∧
            (w.2 = none →
              let q := takeQuarters w.1 t tm1
              let die := tm1.core / 32
              let s3 := setDie q.2 die { dieAt q.2 die with
                divert := tmod (dieAt q.2 die).divert i fun e => { e with image := BitVec.ofNat 64 base, state := 1 } }
              let s4 := modTeam s3 t fun x => { x with
                place := .absent die i, image := some (base + off), scratch := [], poison := [], saved := q.1 }
              exec (.teamStop t) s = .next (repoint s4 t (.inr (die, i)))))))) ∧
    (∀ die entry core qb, tm.place = .absent die entry → s.package = .on → resumesNext s tm = true →
      pickCore s tm.grid tm.size (fun _ => true) = some (core, qb) → exec (.teamResume t) s =
        .next (wakeCore (modTeam (giveAccs (modDivert (failAbsent s t) die entry fun e => { e with state := 2, core }) t core qb) t
          fun tm => { tm with place := .returning die entry core qb }) core)) ∧
    (∀ die entry core qb e, tm.place = .returning die entry core qb → tget (dieAt s die).divert entry = some e → e.queue = [] →
      imageHeld s t = false → exec (.teamResume t) s = .next (loadTeam s t tm die entry core qb)) ∧
    (∀ core r, oldestTransit s core = some (t, r) →
      let s1 := setCore s core { coreAt s core with forward := (coreAt s core).forward.map fun f =>
        if f.team = t then { f with queue := f.queue.drop 1 } else f }
      (tm.place = .resident → exec (.forwardedRequest core) s = .next (applyReq s1 t r.req)) ∧
      (∀ dst, tm.place = .stopping dst → tm.core ≠ core → exec (.forwardedRequest core) s = .next (queueForward s1 tm.core t r)) ∧
      (∀ die entry, tm.place = .absent die entry → exec (.forwardedRequest core) s = .next (setDie s1 die { dieAt s1 die with
        divert := tmod (dieAt s1 die).divert entry fun e => { e with queue := e.queue ++ [r] } })) ∧
      (∀ die entry n qb, tm.place = .returning die entry n qb → exec (.forwardedRequest core) s =
        .next (modTeam s1 t fun tm => { tm with ingress := tm.ingress ++ [r] }))) ∧
    (∀ die entry e r rest, tget (dieAt s die).divert entry = some e → e.team = t → e.queue = r :: rest → e.state ≠ 0#2 →
      e.held = none →
      let span := r.req.span tm e.image.toNat
      (∀ l, shadowHeld s tm.ctx span.1 span.2 = some l → exec (.divertedOperation die entry) s = .next (askFor s l die)) ∧
      (shadowHeld s tm.ctx span.1 span.2 = none →
        (∀ s1, divertApply s t tm e.image.toNat r.req = .ok s1 → exec (.divertedOperation die entry) s =
          .next (modDivert s1 die entry fun e => { e with queue := rest, applied := e.applied + 1, quiet := false })) ∧
        (∀ f, divertApply s t tm e.image.toNat r.req = .error f → e.quiet = false → ∃ n s1 rec, exec (.divertedOperation die entry) s =
          .next (modDivert s1 die entry fun e => { e with held := some n }) ∧ (n, s1) = takeAsync s tm.grid rec ∧
          rec.cause = f.2.1 ∧ rec.addr = BitVec.ofNat 64 f.1 ∧ rec.absent = true ∧ rec.held = true ∧ rec.subject = r.src))) ∧
    (∀ ctx a sp c q, (sortBy (fun a b => decide (a.1 ≤ b.1)) ((shadowOf s ctx).filterMap fun e => match e.2.2 with
          | .inr sp => if sp.ready then some (e.1, sp) else none
          | .inl _ => none)).findSome? (fun e => (spawnedHost s e.2.grid).map fun h => (e, h)) = some ((a, sp), c, q) →
      s.package = .on → exec (.spawnedThreadResume ctx) s = .next (wakeCore (fileAged
        (modCtx s ctx fun x => { x with shadow := x.shadow.filter fun e => e.1 != a }) (4 * c + q)
        { grid := sp.grid, owner := .pool sp.pool, pc := sp.pc } sp.thread (s.clock - sp.age)) c)) ∧
    (∀ gid g, tget s.grids gid = some g → s.package = .on → g.next < g.packet.teams →
      let s1 := (s.cores.filter fun e => e.2.vacated == some gid).foldl (fun s e => parkCore s e.1) s
      s1.package = .on → (vacateNeed s1 gid).2 ≠ 0 → teamPlaces s1 gid g = none →
      (g.handles = none → exec (.coreVacate gid) s = .next ((vacateMany gid (vacateNeed s1 gid).1 (vacateNeed s1 gid).2 s1).getD s1)) ∧
      (g.handles ≠ none → exec (.coreVacate gid) s = .next ((bestVictim s1 true gid 16).getD s1)))

/-- The requests of the host and of peers complete, each with its effect. The events are CONTEXT_OPEN, CONTEXT_CLOSE, MAP, UNMAP, QUEUE_SETUP,
APERTURE_PLACEMENT, CONTEXT_CONTROL_WRITE, PAIRING, DOORBELL, QUEUE_STATUS_WRITE, APERTURE_ACCESS, PEER_ACCESS_IN, DEBUG_MAILBOX_HOST_WRITE,
IDE_KEY_SET and ATTEST_SERVICE. While the device runs: a free context number and key slot open a context with an empty table; MAP makes a leaf
where the page has none and its frames may be given; UNMAP waits for accesses in flight (log 27), and then removes or replaces the leaf;
CONTEXT_CLOSE closes the context; QUEUE_SETUP, APERTURE_PLACEMENT, CONTEXT_CONTROL_WRITE and PAIRING do as they say, or are refused with a bad
reply; a queue of another context changes hands where both contexts authorise it, and its HEAD and TAIL are set to 0 (log 22). A doorbell within
the ring sets the tail, one beyond it sets OVERRUN and interrupts the first time; a status write clears. Aperture accesses go line by line. A
peer of a pairing reads, writes and updates what its leaves with PEER grant, and a request of another peer, misaligned or out of reach in any
byte is refused. A mailbox message, an IDE key and an attestation request take effect. That a page already mapped is refused by MAP, and that
requests are served only while the device runs, is log 27; that a message of the host takes the place of a pending one, and that aperture
accesses are denied line by line, is log 29. -/
def Obligations.RequestsOnContextsAndTheHostPort : Prop :=
  ∀ s : State, running s = true →
    (∀ ctx key t, ctx < 256 → tget s.ctxs ctx = none → slotOk s key = true → takeTable s ctx = some t →
      exec (.contextOpen ctx key) s = .next (reply { t.2 with
        ctxs := tset t.2.ctxs ctx (freshCtx key t.1 none 0)
        sec := { t.2.sec with slots := if key = 0 then t.2.sec.slots else (key, ctx) :: t.2.sec.slots } } true)) ∧
    (∀ ctx key, (256 ≤ ctx ∨ (tget s.ctxs ctx).isSome = true ∨ slotOk s key = false) →
      exec (.contextOpen ctx key) s = .next (reply s false)) ∧
    (∀ ctx, ((tget s.ctxs ctx).isSome = true → exec (.contextClose ctx) s = .next (reply (closeContext s ctx) true)) ∧
      (tget s.ctxs ctx = none → exec (.contextClose ctx) s = .next (reply s false))) ∧
    (∀ ctx c va pa big flags auth s1 at_ s2, tget s.ctxs ctx = some c → pageOk va.toNat pa big = true →
      framesOk s ctx va.toNat pa big = true → leafOf s c.root va.toNat = none → authorised s ctx auth = some s1 →
      leafPlace (giveFrames s1 ctx va.toNat pa big flags[3]) ctx c.root va.toNat big = some (at_, s2) → readEntry s2 at_ % 2 ≠ 1 →
      exec (.map ctx va pa big flags auth) s = .next (reply (writeEntry s2 at_ (leafEntry pa flags)) true)) ∧
    (∀ ctx c va pa big flags auth, tget s.ctxs ctx = some c →
      (pageOk va.toNat pa big = false ∨ framesOk s ctx va.toNat pa big = false ∨ (leafOf s c.root va.toNat).isSome = true) →
      exec (.map ctx va pa big flags auth) s = .next (reply s false)) ∧
    (∀ ctx c va remap auth at_ e big, tget s.ctxs ctx = some c → leafOf s c.root va.toNat = some (at_, e, big) →
      va.toNat % pageSize big = 0 → (∀ pa, remap = some pa → pageOk va.toNat pa big = true ∧ framesOk s ctx va.toNat pa big = true) →
      (pageBusy s ctx va.toNat (entryPa e) big = true → exec (.unmap ctx va remap auth) s = .next s) ∧
      (∀ s1, pageBusy s ctx va.toNat (entryPa e) big = false → authorised s ctx auth = some s1 →
        let s2 := match remap with
          | some pa => writeEntry (giveFrames s1 ctx va.toNat pa big (BitVec.ofNat 5 (e / 4))[3]) at_ (leafEntry pa (BitVec.ofNat 5 (e / 4)))
          | none => writeEntry s1 at_ 0
        exec (.unmap ctx va remap auth) s = .next (reply (if winOf va.toNat = .global then
          (pageFrames (entryPa e) big).foldl (leaveFrame ctx) s2 else s2) true))) ∧
    (∀ ctx c va remap auth, tget s.ctxs ctx = some c → leafOf s c.root va.toNat = none →
      exec (.unmap ctx va remap auth) s = .next (reply s false)) ∧
    (∀ q ctx ring log2 auth s1, q < 16 → 4 ≤ log2 → log2 ≤ 16 → tget s.queues q = none → authorised s ctx auth = some s1 →
      exec (.queueSetup q ctx ring log2 auth) s = .next (reply { s1 with queues := (tset s1.queues q
          { ctx := some ctx, ring, log2, head := 0, tail := 0, pending := [], dropped := 0, lost := false, overrun := false }) } true)) ∧
    (∀ q ctx ring log2 auth s1 lq, q < 16 → 4 ≤ log2 → log2 ≤ 16 → tget s.queues q = some lq → lq.pending = [] →
      (lq.ctx = none ∨ lq.ctx = some ctx) → authorised s ctx auth = some s1 → exec (.queueSetup q ctx ring log2 auth) s =
        .next (reply { s1 with queues := tset s1.queues q { lq with ctx := some ctx, ring, log2, head := 0, tail := 0 } } true)) ∧
    (∀ q ctx ring log2 auth lq c, q < 16 → 4 ≤ log2 → log2 ≤ 16 → tget s.queues q = some lq → lq.pending = [] → lq.ctx = some c → c ≠ ctx →
      (∀ s1 s2, authorised s c auth = some s1 → authorised s1 ctx auth = some s2 → exec (.queueSetup q ctx ring log2 auth) s =
        .next (reply { s2 with queues := tset s2.queues q { lq with ctx := some ctx, ring, log2, head := 0, tail := 0 } } true)) ∧
      (authorised s c auth = none → exec (.queueSetup q ctx ring log2 auth) s = .next (reply s false)) ∧
      (∀ s1, authorised s c auth = some s1 → authorised s1 ctx auth = none →
        exec (.queueSetup q ctx ring log2 auth) s = .next (reply s false))) ∧
    (∀ q ctx ring log2 auth, (∀ lq, tget s.queues q = some lq → lq.ctx = none ∨ lq.ctx = some ctx) → authorised s ctx auth = none →
      exec (.queueSetup q ctx ring log2 auth) s = .next (reply s false)) ∧
    (∀ q ctx ring log2 auth, (16 ≤ q ∨ log2 < 4 ∨ 16 < log2 ∨ (∃ lq, tget s.queues q = some lq ∧ lq.pending ≠ [])) →
      exec (.queueSetup q ctx ring log2 auth) s = .next (reply s false)) ∧
    (∀ base, (base % 2 ^ 36 = 0 ∧ base < 0xC000000000 →
        exec (.aperturePlacement base) s = .next (reply { s with host := { s.host with apbase := base } } true)) ∧
      (¬ (base % 2 ^ 36 = 0 ∧ base < 0xC000000000) → exec (.aperturePlacement base) s = .next (reply s false))) ∧
    (∀ ctx idx v auth s1, gridsOfCtx s ctx = [] → idx.toNat < 0x100 → authorised s ctx auth = some s1 →
      exec (.contextControlWrite ctx idx v auth) s =
        .next (reply (modCtx s1 ctx fun c => { c with regs := ctlWrite c.regs idx.toNat v }) true)) ∧
    (∀ ctx idx v auth, (gridsOfCtx s ctx ≠ [] ∨ 0x100 ≤ idx.toNat ∨ authorised s ctx auth = none) →
      exec (.contextControlWrite ctx idx v auth) s = .next (reply s false)) ∧
    (∀ ctx port partner agrees,
      let ok := (tget s.ctxs ctx).isSome = true ∧ s.links.peersUp.contains port = true ∧ agrees = true ∧
        (s.pairs.any fun p => p.ctx == ctx && p.port == port) = false
      (ok → exec (.pairing ctx port partner agrees) s =
        .next (reply { s with pairs := s.pairs ++ [{ ctx, port, partner, key := Config.pairingKey ctx port partner }] } true)) ∧
      (¬ ok → exec (.pairing ctx port partner agrees) s = .next (reply s false))) ∧
    (∀ q lq tail, tget s.queues q = some lq → lq.ctx.isSome = true →
      (aheadOf lq tail ≤ 2 ^ lq.log2 → exec (.doorbell q tail) s = .next (modQueue s q fun l => { l with tail })) ∧
      (2 ^ lq.log2 < aheadOf lq tail → lq.overrun = false →
        exec (.doorbell q tail) s = .next (raiseMsix (modQueue s q fun l => { l with overrun := true }) 61)) ∧
      (2 ^ lq.log2 < aheadOf lq tail → lq.overrun = true →
        exec (.doorbell q tail) s = .next (modQueue s q fun l => { l with overrun := true }))) ∧
    (∀ q v, exec (.queueStatusWrite q v) s =
      .next (modQueue s q fun l => { l with lost := l.lost && !v[1], overrun := l.overrun && !v[0] })) ∧
    (∀ off n bs, off + bs.length ≤ 2 ^ 36 → exec (.apertureAccess off n (some bs)) s =
      .next ((splitLines (s.host.apbase + off) bs).foldl apertureWrite s)) ∧
    (∀ off n, off + n ≤ 2 ^ 36 → ∃ t, exec (.apertureAccess off n none) s = .next t ∧
      t.host.reads = (apertureRead (lineParts (s.host.apbase + off) n) s).2.host.reads
        ++ [(apertureRead (lineParts (s.host.apbase + off) n) s).1]) ∧
    (∀ port partner ctx va req, let paired := s.pairs.any fun p => p.ctx == ctx && p.port == port && p.partner == partner
      let kind := PeerReq.kind req
      let parts := peerParts s ctx kind va.toNat (lineParts va.toNat (PeerReq.size req))
      let refused := exec (.peerAccessIn port partner ctx va req) s = .next (sendPeer s port none)
      (paired = false → refused) ∧ (kind = .atomic → va.toNat % PeerReq.size req ≠ 0 → refused) ∧ (parts = none → refused) ∧
      (∀ ps, paired = true → (kind = .atomic → va.toNat % PeerReq.size req = 0) → parts = some ps →
        let old := peerLoad ps s
        let write := fun (bs : List Byte) => ps.foldl (fun s p => l2Write s p.1 ((bs.drop p.2.1).take p.2.2) none)
        let update := fun (bs : List Byte) => ps.foldl (fun s p => l2Write s p.1 bs none) old.2.2
        exec (.peerAccessIn port partner ctx va req) s = .next (match req with
          | .load _ => sendPeer old.2.2 port (some (old.1, old.2.1))
          | .store bs => sendPeer (write bs s) port (some ([], false))
          | .atomic op wide v => if old.2.1 then sendPeer old.2.2 port (some (old.1, true))
              else sendPeer (update (atomBytes op wide v old.1)) port (some (old.1, false))
          | .cas wide cmp swap => if old.2.1 then sendPeer old.2.2 port (some (old.1, true))
              else sendPeer (update (casBytes wide cmp swap old.1)) port (some (old.1, false))))) ∧
    (∀ bs, anyDebug s = true → bs.length ≤ 2040 → exec (.debugMailboxHostWrite (some bs)) s =
      .next { s with host := { s.host with h2d := some bs, h2dSeq := s.host.h2dSeq + 1 } }) ∧
    (anyDebug s = true → exec (.debugMailboxHostWrite none) s = .next { s with host := { s.host with d2h := none } }) ∧
    (∀ stream ctx, stream ≤ 8 →
      let s1 := { s with host := { s.host with ide := if s.host.ide.contains stream then s.host.ide else stream :: s.host.ide } }
      exec (.ideKeySet stream ctx) s = .next (match ctx with
        | some c => if stream = 0 then s1 else modCtx s1 c fun x => { x with ide := true }
        | none => s1)) ∧
    (∀ n rest c a b seq, s.sec.attest = n :: rest → tget s.cmds n = some c → c.stopped = none → c.kind = .attest a b seq →
      exec .attestService s = .next (serveAttest s n c a b seq))

/-- The requests of owners and on security complete, each with its effect. The events are OWNER_OPEN, OWNER_SEAL, OWNER_CHANGE, OWNER_CHALLENGE,
OWNER_REVOKE, OWNER_CLAIM, CONSENT_TOKEN, REPAIR_TOKEN, DEBUG_LEVEL_REQUEST, SECURITY_STATE_REQUEST and FUSED_MINIMUM_RAISE. While the device
runs, a message of an owner counts where it opens under the keys of its session; that of another is refused. OWNER_OPEN opens a context with a
key slot, bound to the hash of the owner's keys and to the session; in that session OWNER_SEAL seals it and measures its executable pages,
OWNER_CHANGE on a sealed context extends the measurement and grants one change, OWNER_CHALLENGE issues a challenge, OWNER_REVOKE ends the debug
level with its monitor; OWNER_CLAIM records the device owner once, who asks for challenges of its own and for OPEN at the next start. An accepted
consent token uses up its challenge and enters CONTEXT with its permissions, and a repair token closes every keyed context, empties the slots and
enters FULL; one that fails a condition is refused. CONTEXT without a token is for contexts without a key, FULL for a device out of SECURE. A
minimum is raised with both signatures to no less than what runs, and not otherwise. Challenges and slots are free values (log 2), the messages'
numbering and what becomes of the monitor are the model's choices (log 48), as are the layout of the sealed list (log 28) and that one
OWNER_CHANGE grants one change (log 27). -/
def Obligations.OwnersTokensAndSecurity : Prop :=
  ∀ s : State, running s = true →
    (∀ (x : OwnerSession) (m : OwnerMsg) kind ctx body, sessionOf s m = some x →
      (Config.gcmOpens x.secret x.count (Config.ownerRequest kind ctx body) m.tag = true → ownerAsks s m kind ctx body =
        some (x, { s with sec := { s.sec with sessions := tset s.sec.sessions m.session { x with count := x.count + 1 } } })) ∧
      (Config.gcmOpens x.secret x.count (Config.ownerRequest kind ctx body) m.tag = false → ownerAsks s m kind ctx body = none)) ∧
    (∀ m kind ctx body s1, ctxOwnerAsks s m kind ctx body = some s1 → ∃ c x, tget s.ctxs ctx = some c ∧ c.owner.isSome = true ∧
      ownerAsks s m kind (some ctx) body = some (x, s1) ∧ c.session = x.transcript) ∧
    (∀ m ctx keys, (∀ x k s1 s2, ownerAsks s m 0 (some ctx) (keys.rsa ++ keys.slh) = some (x, s1) →
        pickSlot (nameKeys s1 m (ownerKeys keys)) = some k →
        openContext k.2 ctx k.1 (some (ownerKeys keys)) x.transcript = some s2 →
        exec (.ownerOpen m ctx keys) s = .next (reply s2 true)) ∧
      (ownerAsks s m 0 (some ctx) (keys.rsa ++ keys.slh) = none → exec (.ownerOpen m ctx keys) s = .next (reply s false))) ∧
    (∀ m ctx c, tget s.ctxs ctx = some c →
      (∀ s1, ctxOwnerAsks s m 1 ctx [] = some s1 → c.sealed = false → exec (.ownerSeal ⟨m, ctx⟩) s = .next (reply (modCtx s1 ctx fun x =>
        { x with sealed := true, meas := extendReg x.meas (sealList s x.root) }) true)) ∧
      ((ctxOwnerAsks s m 1 ctx [] = none ∨ c.sealed = true) → exec (.ownerSeal ⟨m, ctx⟩) s = .next (reply s false)) ∧
      (∀ req s1, ctxOwnerAsks s m 2 ctx req = some s1 → c.sealed = true → exec (.ownerChange ⟨m, ctx⟩ req) s = .next (reply (modCtx s1 ctx
        fun x => { x with meas := extendReg x.meas req, granted := x.granted + 1 }) true)) ∧
      (∀ req, (ctxOwnerAsks s m 2 ctx req = none ∨ c.sealed = false) → exec (.ownerChange ⟨m, ctx⟩ req) s = .next (reply s false)) ∧
      (∀ s1, ctxOwnerAsks s m 3 ctx [] = some s1 → exec (.ownerChallenge ⟨m, some ctx⟩) s = .next (reply (modCtx (takeChallenge s1).2 ctx
        fun x => { x with challenges := (takeChallenge s1).1 :: x.challenges }) true)) ∧
      (∀ s1, ctxOwnerAsks s m 4 ctx [] = some s1 → exec (.ownerRevoke ⟨m, ctx⟩) s = .next (reply (endDebug s1 ctx) true)) ∧
      (ctxOwnerAsks s m 4 ctx [] = none → exec (.ownerRevoke ⟨m, ctx⟩) s = .next (reply s false)) ∧
      (c.key = 0 → exec (.debugLevelRequest .context ctx) s = .next (reply (enterContext s ctx 7) true)) ∧
      (c.key ≠ 0 → exec (.debugLevelRequest .context ctx) s = .next (reply s false))) ∧
    (∀ ctx c, tget (endDebug s ctx).ctxs ctx = some c → c.debug = .none ∧ c.perms = 0) ∧
    (∀ m s1, deviceOwnerAsks s m 3 = some s1 → ∃ ch t, exec (.ownerChallenge ⟨m, none⟩) s = .next (reply t true) ∧
      t.sec.ownerChal = ch :: s1.sec.ownerChal) ∧
    (∀ m keys, (∀ x s1, ownerAsks s m 5 none (keys.rsa ++ keys.slh) = some (x, s1) → s.sec.owner = none →
        ∃ t, exec (.ownerClaim ⟨m, keys⟩) s = .next (reply t true) ∧ t.sec.owner = some (ownerKeys keys)) ∧
      ((ownerAsks s m 5 none (keys.rsa ++ keys.slh) = none ∨ s.sec.owner.isSome = true) →
        exec (.ownerClaim ⟨m, keys⟩) s = .next (reply s false))) ∧
    (∀ (t : SignedToken) c keys, tget s.ctxs t.context.toNat = some c → c.owner = some keys → exec (.consentToken t) s = .next
      (if t.kind = 1 ∧ t.perms.toNat < 8 ∧ tokenOk t keys c.challenges = true then
        reply (enterContext (modCtx s t.context.toNat fun c => { c with challenges := c.challenges.erase t.challenge })
          t.context.toNat (t.perms.setWidth 3)) true
      else reply s false)) ∧
    (∀ (t : SignedToken) keys, s.sec.owner = some keys → let s1 := (keyedCtxs s).foldl closeContext s
      exec (.repairToken t) s = .next (if s.sec.state = .secure ∧ t.kind = 2 ∧ t.perms = 0 ∧ t.context = 0xFFFFFFFF ∧
          tokenOk t keys s.sec.ownerChal = true then
        reply (enterFull { s1 with sec := { s1.sec with slots := [], ownerChal := s1.sec.ownerChal.erase t.challenge } }) true
      else reply s false)) ∧
    (∀ ctx, (s.sec.state = .secure → exec (.debugLevelRequest .full ctx) s = .next (reply s false)) ∧
      (s.sec.state ≠ .secure → exec (.debugLevelRequest .full ctx) s = .next (reply (enterFull s) true))) ∧
    (∀ m s1, s.sec.state = .secure → deviceOwnerAsks s m 6 = some s1 → exec (.securityStateRequest true (some m)) s =
      .next (reply { s1 with sec := { s1.sec with next := some .opened } } true)) ∧
    (∀ m, s.sec.state = .secure → deviceOwnerAsks s m 6 = none → exec (.securityStateRequest true (some m)) s = .next (reply s false)) ∧
    (s.sec.state = .secure → exec (.securityStateRequest true none) s = .next (reply s false)) ∧
    (s.sec.state = .opened → ∀ o, exec (.securityStateRequest false o) s =
      .next (reply { s with sec := { s.sec with next := some .secure } } true)) ∧
    (∀ kind version rsa slh, exec (.fusedMinimumRaise kind version rsa slh) s = .next
      (if kind < 7 ∧ version < 256 ∧ (runningSvn s kind).toNat ≤ version ∧ s.sec.minima.getD kind 0 ≤ version ∧
          Config.rsaVerifies (Config.vendorKeys kind) (Config.raiseRequest kind version) rsa = true ∧
          Config.slhVerifies (Config.vendorKeys kind) (Config.raiseRequest kind version) slh = true then
        reply { s with sec := { s.sec with minima := lset s.sec.minima kind version } } true
      else reply s false)) ∧
    (∀ ctx c, tget (enterContext s ctx 7).ctxs ctx = some c → c.debug = .context ∧ c.perms = 7)

/-- The events of power and start complete, each with its effect. The events are POWER_SAMPLE, CORE_GATE, CORE_WAKE, DIE_RETENTION, DIE_WAKE,
S3_ENTRY, S3_EXIT, POWER_LOSS, COLD_START, NEW_START_REQUEST, START_STEP and STEP_TIMEOUT. Above 3,000 W on average over 10 ms, or with a hot
die, every die that runs goes to A1 and one that wakes wakes to A1; once the average has stayed below 2,700 W for 1,000 samples and every
junction is cool, back to A0. A core idle for 20,000 cycles is gated, and wakes with work or a request in transit; a die with every core gated
for 2,000,000 cycles enters C2 and wakes on demand; S3 is entered once everything has stopped, and left. A loss of power keeps the owner, the
minima, the security state and the start record; power that returns begins a start with the counter one higher; so does a request of a device
that refused to start. An attempt at a step that passes with accepted images is done, on the alternative path after two attempts, and before that
only where the self-test finds no failing unit, a link that failed before among them; one that fails is tried again while an attempt is left,
then skipped where it may be, else the device refuses. An attempt out of time has failed. What the average is over before 100 samples are there
is the choice of log 47; what a loss of power keeps and from when idleness counts are log 31, and the counts of cycles stand for times at 2.0 GHz
(log 9). -/
def Obligations.PowerAndStart : Prop :=
  ∀ s : State,
    (s.package = .on ∨ s.package = .toS3 →
      ∀ watts mw hot cool, let t := s.thermal.sample (1000 * watts + mw)
        ((3000000 * t.samples.length < t.samples.sum ∨ hot = true) → exec (.powerSample watts mw hot cool) s =
          .next (mapDies { s with thermal := { t with capped := true } } fun p => if p = .a0 then .a1 else p)) ∧
        (t.samples.sum ≤ 3000000 * t.samples.length → hot = false → 1000 ≤ t.calm → cool = true → exec (.powerSample watts mw hot cool) s =
          .next (mapDies { s with thermal := { t with capped := false } } fun p => if p = .a1 then .a0 else p)) ∧
        (t.samples.sum ≤ 3000000 * t.samples.length → hot = false → (t.calm < 1000 ∨ cool = false) →
          exec (.powerSample watts mw hot cool) s = .next { s with thermal := t }) ∧
        t.samples = ((1000 * watts + mw) :: s.thermal.samples).take 100 ∧
        t.calm = (if t.samples.sum < 2700000 * t.samples.length then s.thermal.calm + 1 else 0)) ∧
    (s.package = .on →
      (∀ core, coreBusy s core = false → (coreAt s core).gated = false → idleSince s core + 20000 ≤ s.clock →
        exec (.coreGate core) s = .next (setCore s core { coreAt s core with gated := true, idleFrom := s.clock })) ∧
      (∀ die, die < 4 → (∀ c ∈ dieCores s die, (coreAt s c).gated = true ∧ (coreAt s c).idleFrom + 2000000 ≤ s.clock) →
        exec (.dieRetention die) s = .next (setDie s die { dieAt s die with power := .c2 })) ∧
      (running s = true → beginS3 s = none → exec .s3Entry s = .next (reply s false)) ∧
      (∀ s1, running s = true → beginS3 s = some s1 → exec .s3Entry s = .next ((List.range 128).foldl parkCore s1)) ∧
      (s.start.refused = true → exec .newStartRequest s = .next (reply (beginStart s) true)) ∧
      (∀ n e o, currentStep s = some (n, e) → s.start.refused = false →
        let path : BitVec 4 := if 2 ≤ e.attempts.toNat then 1 else 0
        (o.pass = true → imagesOk s n path.toNat = true → (2 ≤ e.attempts.toNat ∨ testFails s n o = false) →
          ∃ t, exec (.startStep o) s = .next t ∧ t.start.entries[n - 1]? = some { attempts := nextAttempt e, path, state := 2 } ∧
            t.start.step = n + 1) ∧
        ((o.pass = false ∨ imagesOk s n path.toNat = false ∨ (e.attempts.toNat < 2 ∧ testFails s n o = true)) →
          let k := nextAttempt e
          let more := k.toNat < 2 ∨ (k.toNat = 2 ∧ hasAlternative n = true)
          let entryAt (st : BitVec 3) := setEntry s n { attempts := k, path, state := st }
          (∀ st, (entryAt st).start.tagged = ((entryAt st).start.entries, s.start.counter)) ∧
          (more → exec (.startStep o) s = .next (entryAt 1)) ∧
          (¬ more → skippable n = true →
            exec (.startStep o) s = .next { entryAt 4 with start := { (entryAt 4).start with step := n + 1 } }) ∧
          (¬ more → skippable n = false →
            exec (.startStep o) s = .next { entryAt 3 with start := { (entryAt 3).start with refused := true } }))) ∧
      (∀ n o, (8 ≤ n → n ≤ 11 → (testFails s n o = true ↔ n - 8 ∈ o.badDies ∨ ∃ c ∈ o.badCores, c / 32 = n - 8)) ∧
        (testFails s 12 o = true ↔ s.start.badLink.isSome = true ∨ ∃ d ∈ o.badDies, d < 4) ∧
        (testFails s 15 o = true ↔ ∃ d ∈ o.badDies, d < 4) ∧ (testFails s 16 o = true ↔ ∃ c ∈ o.badCores, c < 128) ∧
        ((n < 8 ∨ n = 13 ∨ n = 14 ∨ 16 < n) → testFails s n o = false)) ∧
      exec .stepTimeout s = exec (.startStep { pass := false, badCores := [], badDies := [], tagFails := false }) s) ∧
    (∀ core, (coreAt s core).gated = true → (coreBusy s core = true ∨ (oldestTransit s core).isSome = true) →
      exec (.coreWake core) s = .next (wakeCore s core)) ∧
    (∀ die, (dieAt s die).power = .c2 → exec (.dieWake die) s =
      .next (setDie s die { dieAt s die with power := if s.thermal.capped then .a1 else .a0 })) ∧
    (let s1 := (List.range 128).foldl parkCore ((stopEverything s).getD s)
     s.package = .toS3 → (allStopped s1 = true → exec .s3Entry s = .next (reply { drainCaches s1 with package := .s3 } true)) ∧
      (allStopped s1 = false → exec .s3Entry s = .next s1)) ∧
    (s.package = .s3 → exec .s3Exit s = .next (reply { s with package := .on } true)) ∧
    (∃ t, exec .powerLoss s = .next t ∧ t.package = .off ∧ t.mem = [] ∧ t.ctxs = [] ∧ t.crews = [] ∧ t.sec.owner = s.sec.owner ∧
      t.sec.minima = s.sec.minima ∧ t.sec.state = s.sec.state ∧ t.start.counter = s.start.counter ∧ t.start.entries = s.start.entries ∧
      t.start.tagged = s.start.tagged) ∧
    (s.package = .off → exec .coldStart s = .next (beginStart s)) ∧
    ((beginStart s).start.counter = s.start.counter + 1 ∧ (beginStart s).start.ready = false ∧ (beginStart s).start.step = 1 ∧
      (beginStart s).start.found = decide (s.start.tagged = (s.start.entries, s.start.counter)) ∧
      (beginStart s).sec.owner = s.sec.owner ∧ (beginStart s).sec.minima = s.sec.minima ∧
      (s.sec.fuse = true → s.sec.state ≠ .manufacture → s.sec.next ≠ some .manufacture →
        (beginStart s).sec.state = s.sec.next.getD s.sec.state) ∧
      (beginStart s).mem = [] ∧ (beginStart s).package = .on)

/-- Device memory keeps its canonical form: every step from a state whose memory has it ends in a state whose memory has it. For every state
whose device memory is a list of cells with strictly rising addresses and no cell equal to what an unlisted byte reads as: whatever a step
runs (an instruction, an event of the agenda, an event of the device, a cycle), the memory after it has that form. So equal
memories are equal data. That the form holds at reset is a clause of AfterReset. What an unlisted byte reads as is the choice of the model
(log 1). -/
def Obligations.MemoryStaysCanonical : Prop :=
  ∀ s t : State, Memory.wf s.mem = true → step s = .next t → Memory.wf t.mem = true
end

