-- ==== Sys2Proof/Laws/Issue.lean ====
section
/-! SUPPORT. Issue: every encoded instruction issues in one shape, and an issue that `issueEx` names runs to the instruction's own effect. -/

namespace Sys2Proof.Laws

open Sys2Proof Sys2Proof.Machine Sys2Proof.Safety

/-- An issue that passes every check ends in the instruction's own effect, in the state it started from. -/
theorem issue_runs {s : State} {i : Instr} {c : Ctl} {ops : List Opnd} {extra : List Cause} {r : TxRule} {x : Ex}
    (h : issueEx s i c ops extra r = some x) (k : Ex → State → State) : issue i c ops extra r k s = k x s := by
  unfold issueEx at h
  unfold issue
  split at h
  · cases h
  rename_i u hu
  split at h
  · cases h
  rename_i b hb
  split at h
  · cases h
  rename_i g hg
  try rw [hu]
  try simp only [hb, hg]
  dsimp only at h
  split at h
  · rename_i hc
    simp only [Bool.and_eq_true, Bool.or_eq_true, Bool.not_eq_true', Option.isNone_iff_eq_none, bne_iff_ne, beq_iff_eq] at hc
    obtain ⟨⟨⟨⟨⟨⟨⟨⟨⟨⟨hheld, hbad⟩, hwait⟩, haw⟩, huni⟩, hst⟩, hpar⟩, hex⟩, hbar⟩, hpend⟩, htx⟩ := hc
    have hw : waitField s u b g i c = .inl s := by
      unfold waitField
      rw [if_pos]
      rcases hwait with h | h
      · exact .inl h
      · exact .inr h
    rw [if_neg (by simp [hheld])]
    simp only [hbad, hw, hb, hg, Option.getD_some]
    unfold issueRest
    rw [if_neg (by simp [haw])]
    have hst' : ¬ (((ctlOf s (ctxOf s u)).sctl.getLsbD 0 && shortMask s (exOf s u b g i c) c ops != 0#64) = true) := by
      simp only [hst]; decide
    have hnil : parityAt s (exOf s u b g i c) c ops = [] := List.isEmpty_iff.mp hpar
    simp only [huni, if_neg hst', hnil, List.filter_nil, List.isEmpty_nil, ↓reduceIte, metParity, issueOn]
    have hx : (exOf s u b g i c).ref = u := rfl
    simp only [if_neg hex, hx, hbar, hpend, htx]
    cases h
    rfl
  · cases h

/-- Every encoded instruction is one issue, in its shape. -/
theorem exec_issue {s : State} {i : Instr} {p : Shape} (h : shape s i = some p) :
    ∃ k, exec i s = .next (issue i p.ctl p.ops p.extra p.rule k s) := by
  cases i
  case mov c wide d a =>
    cases wide <;> exact ⟨_, by have := (Option.some.inj h : _ = p); subst this; rfl⟩
  case sel c wide d a b p =>
    cases wide <;> exact ⟨_, by have := (Option.some.inj h); subst this; rfl⟩
  all_goals first
    | (have e := (Option.some.inj h); subst e; exact ⟨_, rfl⟩)
    | (have e : (none : Option Shape) = some p := h; cases e)

/-- An instruction that runs ends in its own effect: what its meaning does after the checks of its issue. -/
theorem exec_runs {s : State} {i : Instr} {p : Shape} {x : Ex} {k : Ex → State → State} (h : runsAs s i x) (hs : shape s i = some p)
    (he : exec i s = .next (issue i p.ctl p.ops p.extra p.rule k s)) : exec i s = .next (k x s) := by
  unfold runsAs at h
  rw [hs] at h
  rw [he, issue_runs h]

/-- The selectors judge an instruction by the shape in which it issues (R342). -/
theorem shape_eq_issueShape (s : State) (i : Instr) : shape s i = issueShape s i := by
  cases i
  case mov c wide d a => cases wide <;> rfl
  case sel c wide d a b p => cases wide <;> rfl
  all_goals rfl

end Sys2Proof.Laws
end

