-- ==== Sys2Proof/Laws/Tables.lean ====
section
/-! SUPPORT. Tables (get after set, delete and change), and lists with one element changed. -/

namespace Sys2Proof.Laws

open Sys2Proof Sys2Proof.Machine

variable {α : Type}

@[simp] theorem tget_tset_self (t : Tab α) (k : Nat) (v : α) : tget (tset t k v) k = some v := by
  induction t with
  | nil => simp [tset, tget]
  | cons e r ih =>
    obtain ⟨j, w⟩ := e
    simp only [tset]
    split
    · simp [tget]
    · split
      · simp [tget]
      · simp [tget, *]

theorem tget_tset_ne (t : Tab α) {k j : Nat} (v : α) (h : j ≠ k) : tget (tset t k v) j = tget t j := by
  induction t with
  | nil => simp [tset, tget, Ne.symm h]
  | cons e r ih =>
    obtain ⟨i, w⟩ := e
    simp only [tset]
    split
    · subst_vars; simp [tget, Ne.symm h]
    · split
      · simp [tget, Ne.symm h]
      · simp [tget, ih]

theorem tget_tset (t : Tab α) (k j : Nat) (v : α) : tget (tset t k v) j = if j = k then some v else tget t j := by
  split
  · subst_vars; simp
  · exact tget_tset_ne t v ‹_›

@[simp] theorem tget_tdel_self (t : Tab α) (k : Nat) : tget (tdel t k) k = none := by
  induction t with
  | nil => rfl
  | cons e r ih =>
    obtain ⟨j, w⟩ := e
    simp only [tdel]
    split
    · exact ih
    · simp [tget, *]

theorem tget_tdel_ne (t : Tab α) {k j : Nat} (h : j ≠ k) : tget (tdel t k) j = tget t j := by
  induction t with
  | nil => rfl
  | cons e r ih =>
    obtain ⟨i, w⟩ := e
    simp only [tdel]
    split
    · subst_vars; simp [tget, Ne.symm h, ih]
    · simp [tget, ih]

@[simp] theorem tget_tmod_self (t : Tab α) (k : Nat) (f : α → α) : tget (tmod t k f) k = (tget t k).map f := by
  unfold tmod
  split <;> simp [*]

theorem tget_tmod_ne (t : Tab α) {k j : Nat} (f : α → α) (h : j ≠ k) : tget (tmod t k f) j = tget t j := by
  unfold tmod
  split
  · exact tget_tset_ne t _ h
  · rfl

theorem tget_tmod (t : Tab α) (k j : Nat) (f : α → α) : tget (tmod t k f) j = if j = k then (tget t j).map f else tget t j := by
  split
  · subst_vars; simp
  · exact tget_tmod_ne t f ‹_›

@[simp] theorem lset_length (l : List α) (n : Nat) (v : α) : (lset l n v).length = l.length := by
  induction l generalizing n with
  | nil => rfl
  | cons x r ih => cases n <;> simp [lset, ih]

theorem lset_get? (l : List α) (n m : Nat) (v : α) : (lset l n v)[m]? = if m = n ∧ n < l.length then some v else l[m]? := by
  induction l generalizing n m with
  | nil => simp [lset]
  | cons x r ih =>
    cases n with
    | zero => cases m <;> simp [lset]
    | succ n => cases m <;> simp [lset, ih]

/-! ## What stands at a place of the state after an update -/

@[simp] theorem coreAt_setCore_self (s : State) (n : Nat) (c : Core) : coreAt (setCore s n c) n = c := by simp [coreAt, setCore]
theorem coreAt_setCore_ne (s : State) {n m : Nat} (c : Core) (h : m ≠ n) : coreAt (setCore s n c) m = coreAt s m := by
  simp [coreAt, setCore, tget_tset_ne _ _ h]
@[simp] theorem clusterAt_setCluster_self (s : State) (n : Nat) (c : Cluster) : clusterAt (setCluster s n c) n = c := by
  simp [clusterAt, setCluster]
theorem clusterAt_setCluster_ne (s : State) {n m : Nat} (c : Cluster) (h : m ≠ n) :
    clusterAt (setCluster s n c) m = clusterAt s m := by
  simp [clusterAt, setCluster, tget_tset_ne _ _ h]
@[simp] theorem quarterAt_setQuarter_self (s : State) (n : Nat) (q : Quarter) : quarterAt (setQuarter s n q) n = q := by
  simp [quarterAt, setQuarter]
theorem quarterAt_setQuarter_ne (s : State) {n m : Nat} (q : Quarter) (h : m ≠ n) :
    quarterAt (setQuarter s n q) m = quarterAt s m := by
  simp [quarterAt, setQuarter, tget_tset_ne _ _ h]
@[simp] theorem dieAt_setDie_self (s : State) (n : Nat) (d : Die) : dieAt (setDie s n d) n = d := by simp [dieAt, setDie]
theorem dieAt_setDie_ne (s : State) {n m : Nat} (d : Die) (h : m ≠ n) : dieAt (setDie s n d) m = dieAt s m := by
  simp [dieAt, setDie, tget_tset_ne _ _ h]
@[simp] theorem lineAt_setLine_self (s : State) (n : Nat) (l : Line) : lineAt (setLine s n l) n = l := by simp [lineAt, setLine]
theorem lineAt_setLine_ne (s : State) {n m : Nat} (l : Line) (h : m ≠ n) : lineAt (setLine s n l) m = lineAt s m := by
  simp [lineAt, setLine, tget_tset_ne _ _ h]

/-- A unit's registers and groups read back after they are put. -/
theorem bodyOf_putBody_self {s : State} {u : UnitRef} {a b : Body} (h : bodyOf s u = some a) (hb : a.isAp = b.isAp) :
    bodyOf (putBody s u b) u = some b := by
  cases u with
  | crew uid l =>
    cases b with
    | crew c => simp [bodyOf, putBody]
    | ap x =>
      simp only [bodyOf] at h
      split at h
      · cases h; simp [Body.isAp] at hb
      · cases h
  | access t =>
    simp only [bodyOf] at h
    split at h
    · split at h
      · cases h
        cases b with
        | crew c => simp [Body.isAp] at hb
        | ap x => simp [bodyOf, putBody, *]
      · cases h
    · cases h

end Sys2Proof.Laws
end

