-- ==== Sys2Proof/Laws/State.lean ====
section
/-! SUPPORT. The fields of a state after each update, one lemma for a field and an update, so that no proof unfolds a record update. -/

namespace Sys2Proof.Laws

open Sys2Proof Sys2Proof.Machine

/-! ## modCrew -/

@[simp] theorem modCrew_clock (s : State) (u : Nat) (f : Crew → Crew) : (modCrew s u f).clock = s.clock := rfl
@[simp] theorem modCrew_cur (s : State) (u : Nat) (f : Crew → Crew) : (modCrew s u f).cur = s.cur := rfl
@[simp] theorem modCrew_agenda (s : State) (u : Nat) (f : Crew → Crew) : (modCrew s u f).agenda = s.agenda := rfl
@[simp] theorem modCrew_nums (s : State) (u : Nat) (f : Crew → Crew) : (modCrew s u f).nums = s.nums := rfl
@[simp] theorem modCrew_mem (s : State) (u : Nat) (f : Crew → Crew) : (modCrew s u f).mem = s.mem := rfl
@[simp] theorem modCrew_poison (s : State) (u : Nat) (f : Crew → Crew) : (modCrew s u f).poison = s.poison := rfl
@[simp] theorem modCrew_lines (s : State) (u : Nat) (f : Crew → Crew) : (modCrew s u f).lines = s.lines := rfl
@[simp] theorem modCrew_topVer (s : State) (u : Nat) (f : Crew → Crew) : (modCrew s u f).topVer = s.topVer := rfl
@[simp] theorem modCrew_frames (s : State) (u : Nat) (f : Crew → Crew) : (modCrew s u f).frames = s.frames := rfl
@[simp] theorem modCrew_ctxs (s : State) (u : Nat) (f : Crew → Crew) : (modCrew s u f).ctxs = s.ctxs := rfl
@[simp] theorem modCrew_grids (s : State) (u : Nat) (f : Crew → Crew) : (modCrew s u f).grids = s.grids := rfl
@[simp] theorem modCrew_teams (s : State) (u : Nat) (f : Crew → Crew) : (modCrew s u f).teams = s.teams := rfl
@[simp] theorem modCrew_crews (s : State) (u : Nat) (f : Crew → Crew) : (modCrew s u f).crews = tmod s.crews u f := rfl
@[simp] theorem modCrew_quarters (s : State) (u : Nat) (f : Crew → Crew) : (modCrew s u f).quarters = s.quarters := rfl
@[simp] theorem modCrew_cores (s : State) (u : Nat) (f : Crew → Crew) : (modCrew s u f).cores = s.cores := rfl
@[simp] theorem modCrew_clusters (s : State) (u : Nat) (f : Crew → Crew) : (modCrew s u f).clusters = s.clusters := rfl
@[simp] theorem modCrew_dies (s : State) (u : Nat) (f : Crew → Crew) : (modCrew s u f).dies = s.dies := rfl
@[simp] theorem modCrew_cmds (s : State) (u : Nat) (f : Crew → Crew) : (modCrew s u f).cmds = s.cmds := rfl
@[simp] theorem modCrew_freds (s : State) (u : Nat) (f : Crew → Crew) : (modCrew s u f).freds = s.freds := rfl
@[simp] theorem modCrew_winq (s : State) (u : Nat) (f : Crew → Crew) : (modCrew s u f).winq = s.winq := rfl
@[simp] theorem modCrew_far (s : State) (u : Nat) (f : Crew → Crew) : (modCrew s u f).far = s.far := rfl
@[simp] theorem modCrew_queues (s : State) (u : Nat) (f : Crew → Crew) : (modCrew s u f).queues = s.queues := rfl
@[simp] theorem modCrew_domains (s : State) (u : Nat) (f : Crew → Crew) : (modCrew s u f).domains = s.domains := rfl
@[simp] theorem modCrew_host (s : State) (u : Nat) (f : Crew → Crew) : (modCrew s u f).host = s.host := rfl
@[simp] theorem modCrew_pairs (s : State) (u : Nat) (f : Crew → Crew) : (modCrew s u f).pairs = s.pairs := rfl
@[simp] theorem modCrew_sec (s : State) (u : Nat) (f : Crew → Crew) : (modCrew s u f).sec = s.sec := rfl
@[simp] theorem modCrew_start (s : State) (u : Nat) (f : Crew → Crew) : (modCrew s u f).start = s.start := rfl
@[simp] theorem modCrew_package (s : State) (u : Nat) (f : Crew → Crew) : (modCrew s u f).package = s.package := rfl
@[simp] theorem modCrew_counters (s : State) (u : Nat) (f : Crew → Crew) : (modCrew s u f).counters = s.counters := rfl
@[simp] theorem modCrew_links (s : State) (u : Nat) (f : Crew → Crew) : (modCrew s u f).links = s.links := rfl
@[simp] theorem modCrew_dir (s : State) (u : Nat) (f : Crew → Crew) : (modCrew s u f).dir = s.dir := rfl
@[simp] theorem modCrew_pend (s : State) (u : Nat) (f : Crew → Crew) : (modCrew s u f).pend = s.pend := rfl
@[simp] theorem modCrew_late (s : State) (u : Nat) (f : Crew → Crew) : (modCrew s u f).late = s.late := rfl
@[simp] theorem modCrew_parity (s : State) (u : Nat) (f : Crew → Crew) : (modCrew s u f).parity = s.parity := rfl
@[simp] theorem modCrew_told (s : State) (u : Nat) (f : Crew → Crew) : (modCrew s u f).told = s.told := rfl
@[simp] theorem modCrew_thermal (s : State) (u : Nat) (f : Crew → Crew) : (modCrew s u f).thermal = s.thermal := rfl

/-! ## modTeam -/

@[simp] theorem modTeam_clock (s : State) (t : Nat) (f : Team → Team) : (modTeam s t f).clock = s.clock := rfl
@[simp] theorem modTeam_cur (s : State) (t : Nat) (f : Team → Team) : (modTeam s t f).cur = s.cur := rfl
@[simp] theorem modTeam_agenda (s : State) (t : Nat) (f : Team → Team) : (modTeam s t f).agenda = s.agenda := rfl
@[simp] theorem modTeam_nums (s : State) (t : Nat) (f : Team → Team) : (modTeam s t f).nums = s.nums := rfl
@[simp] theorem modTeam_mem (s : State) (t : Nat) (f : Team → Team) : (modTeam s t f).mem = s.mem := rfl
@[simp] theorem modTeam_poison (s : State) (t : Nat) (f : Team → Team) : (modTeam s t f).poison = s.poison := rfl
@[simp] theorem modTeam_lines (s : State) (t : Nat) (f : Team → Team) : (modTeam s t f).lines = s.lines := rfl
@[simp] theorem modTeam_topVer (s : State) (t : Nat) (f : Team → Team) : (modTeam s t f).topVer = s.topVer := rfl
@[simp] theorem modTeam_frames (s : State) (t : Nat) (f : Team → Team) : (modTeam s t f).frames = s.frames := rfl
@[simp] theorem modTeam_ctxs (s : State) (t : Nat) (f : Team → Team) : (modTeam s t f).ctxs = s.ctxs := rfl
@[simp] theorem modTeam_grids (s : State) (t : Nat) (f : Team → Team) : (modTeam s t f).grids = s.grids := rfl
@[simp] theorem modTeam_teams (s : State) (t : Nat) (f : Team → Team) : (modTeam s t f).teams = tmod s.teams t f := rfl
@[simp] theorem modTeam_crews (s : State) (t : Nat) (f : Team → Team) : (modTeam s t f).crews = s.crews := rfl
@[simp] theorem modTeam_quarters (s : State) (t : Nat) (f : Team → Team) : (modTeam s t f).quarters = s.quarters := rfl
@[simp] theorem modTeam_cores (s : State) (t : Nat) (f : Team → Team) : (modTeam s t f).cores = s.cores := rfl
@[simp] theorem modTeam_clusters (s : State) (t : Nat) (f : Team → Team) : (modTeam s t f).clusters = s.clusters := rfl
@[simp] theorem modTeam_dies (s : State) (t : Nat) (f : Team → Team) : (modTeam s t f).dies = s.dies := rfl
@[simp] theorem modTeam_cmds (s : State) (t : Nat) (f : Team → Team) : (modTeam s t f).cmds = s.cmds := rfl
@[simp] theorem modTeam_freds (s : State) (t : Nat) (f : Team → Team) : (modTeam s t f).freds = s.freds := rfl
@[simp] theorem modTeam_winq (s : State) (t : Nat) (f : Team → Team) : (modTeam s t f).winq = s.winq := rfl
@[simp] theorem modTeam_far (s : State) (t : Nat) (f : Team → Team) : (modTeam s t f).far = s.far := rfl
@[simp] theorem modTeam_queues (s : State) (t : Nat) (f : Team → Team) : (modTeam s t f).queues = s.queues := rfl
@[simp] theorem modTeam_domains (s : State) (t : Nat) (f : Team → Team) : (modTeam s t f).domains = s.domains := rfl
@[simp] theorem modTeam_host (s : State) (t : Nat) (f : Team → Team) : (modTeam s t f).host = s.host := rfl
@[simp] theorem modTeam_pairs (s : State) (t : Nat) (f : Team → Team) : (modTeam s t f).pairs = s.pairs := rfl
@[simp] theorem modTeam_sec (s : State) (t : Nat) (f : Team → Team) : (modTeam s t f).sec = s.sec := rfl
@[simp] theorem modTeam_start (s : State) (t : Nat) (f : Team → Team) : (modTeam s t f).start = s.start := rfl
@[simp] theorem modTeam_package (s : State) (t : Nat) (f : Team → Team) : (modTeam s t f).package = s.package := rfl
@[simp] theorem modTeam_counters (s : State) (t : Nat) (f : Team → Team) : (modTeam s t f).counters = s.counters := rfl
@[simp] theorem modTeam_links (s : State) (t : Nat) (f : Team → Team) : (modTeam s t f).links = s.links := rfl
@[simp] theorem modTeam_dir (s : State) (t : Nat) (f : Team → Team) : (modTeam s t f).dir = s.dir := rfl
@[simp] theorem modTeam_pend (s : State) (t : Nat) (f : Team → Team) : (modTeam s t f).pend = s.pend := rfl
@[simp] theorem modTeam_late (s : State) (t : Nat) (f : Team → Team) : (modTeam s t f).late = s.late := rfl
@[simp] theorem modTeam_parity (s : State) (t : Nat) (f : Team → Team) : (modTeam s t f).parity = s.parity := rfl
@[simp] theorem modTeam_told (s : State) (t : Nat) (f : Team → Team) : (modTeam s t f).told = s.told := rfl
@[simp] theorem modTeam_thermal (s : State) (t : Nat) (f : Team → Team) : (modTeam s t f).thermal = s.thermal := rfl

/-! ## modGrid -/

@[simp] theorem modGrid_clock (s : State) (g : Nat) (f : Machine.Grid → Machine.Grid) : (modGrid s g f).clock = s.clock := rfl
@[simp] theorem modGrid_cur (s : State) (g : Nat) (f : Machine.Grid → Machine.Grid) : (modGrid s g f).cur = s.cur := rfl
@[simp] theorem modGrid_agenda (s : State) (g : Nat) (f : Machine.Grid → Machine.Grid) : (modGrid s g f).agenda = s.agenda := rfl
@[simp] theorem modGrid_nums (s : State) (g : Nat) (f : Machine.Grid → Machine.Grid) : (modGrid s g f).nums = s.nums := rfl
@[simp] theorem modGrid_mem (s : State) (g : Nat) (f : Machine.Grid → Machine.Grid) : (modGrid s g f).mem = s.mem := rfl
@[simp] theorem modGrid_poison (s : State) (g : Nat) (f : Machine.Grid → Machine.Grid) : (modGrid s g f).poison = s.poison := rfl
@[simp] theorem modGrid_lines (s : State) (g : Nat) (f : Machine.Grid → Machine.Grid) : (modGrid s g f).lines = s.lines := rfl
@[simp] theorem modGrid_topVer (s : State) (g : Nat) (f : Machine.Grid → Machine.Grid) : (modGrid s g f).topVer = s.topVer := rfl
@[simp] theorem modGrid_frames (s : State) (g : Nat) (f : Machine.Grid → Machine.Grid) : (modGrid s g f).frames = s.frames := rfl
@[simp] theorem modGrid_ctxs (s : State) (g : Nat) (f : Machine.Grid → Machine.Grid) : (modGrid s g f).ctxs = s.ctxs := rfl
@[simp] theorem modGrid_grids (s : State) (g : Nat) (f : Machine.Grid → Machine.Grid) : (modGrid s g f).grids = tmod s.grids g f := rfl
@[simp] theorem modGrid_teams (s : State) (g : Nat) (f : Machine.Grid → Machine.Grid) : (modGrid s g f).teams = s.teams := rfl
@[simp] theorem modGrid_crews (s : State) (g : Nat) (f : Machine.Grid → Machine.Grid) : (modGrid s g f).crews = s.crews := rfl
@[simp] theorem modGrid_quarters (s : State) (g : Nat) (f : Machine.Grid → Machine.Grid) : (modGrid s g f).quarters = s.quarters := rfl
@[simp] theorem modGrid_cores (s : State) (g : Nat) (f : Machine.Grid → Machine.Grid) : (modGrid s g f).cores = s.cores := rfl
@[simp] theorem modGrid_clusters (s : State) (g : Nat) (f : Machine.Grid → Machine.Grid) : (modGrid s g f).clusters = s.clusters := rfl
@[simp] theorem modGrid_dies (s : State) (g : Nat) (f : Machine.Grid → Machine.Grid) : (modGrid s g f).dies = s.dies := rfl
@[simp] theorem modGrid_cmds (s : State) (g : Nat) (f : Machine.Grid → Machine.Grid) : (modGrid s g f).cmds = s.cmds := rfl
@[simp] theorem modGrid_freds (s : State) (g : Nat) (f : Machine.Grid → Machine.Grid) : (modGrid s g f).freds = s.freds := rfl
@[simp] theorem modGrid_winq (s : State) (g : Nat) (f : Machine.Grid → Machine.Grid) : (modGrid s g f).winq = s.winq := rfl
@[simp] theorem modGrid_far (s : State) (g : Nat) (f : Machine.Grid → Machine.Grid) : (modGrid s g f).far = s.far := rfl
@[simp] theorem modGrid_queues (s : State) (g : Nat) (f : Machine.Grid → Machine.Grid) : (modGrid s g f).queues = s.queues := rfl
@[simp] theorem modGrid_domains (s : State) (g : Nat) (f : Machine.Grid → Machine.Grid) : (modGrid s g f).domains = s.domains := rfl
@[simp] theorem modGrid_host (s : State) (g : Nat) (f : Machine.Grid → Machine.Grid) : (modGrid s g f).host = s.host := rfl
@[simp] theorem modGrid_pairs (s : State) (g : Nat) (f : Machine.Grid → Machine.Grid) : (modGrid s g f).pairs = s.pairs := rfl
@[simp] theorem modGrid_sec (s : State) (g : Nat) (f : Machine.Grid → Machine.Grid) : (modGrid s g f).sec = s.sec := rfl
@[simp] theorem modGrid_start (s : State) (g : Nat) (f : Machine.Grid → Machine.Grid) : (modGrid s g f).start = s.start := rfl
@[simp] theorem modGrid_package (s : State) (g : Nat) (f : Machine.Grid → Machine.Grid) : (modGrid s g f).package = s.package := rfl
@[simp] theorem modGrid_counters (s : State) (g : Nat) (f : Machine.Grid → Machine.Grid) : (modGrid s g f).counters = s.counters := rfl
@[simp] theorem modGrid_links (s : State) (g : Nat) (f : Machine.Grid → Machine.Grid) : (modGrid s g f).links = s.links := rfl
@[simp] theorem modGrid_dir (s : State) (g : Nat) (f : Machine.Grid → Machine.Grid) : (modGrid s g f).dir = s.dir := rfl
@[simp] theorem modGrid_pend (s : State) (g : Nat) (f : Machine.Grid → Machine.Grid) : (modGrid s g f).pend = s.pend := rfl
@[simp] theorem modGrid_late (s : State) (g : Nat) (f : Machine.Grid → Machine.Grid) : (modGrid s g f).late = s.late := rfl
@[simp] theorem modGrid_parity (s : State) (g : Nat) (f : Machine.Grid → Machine.Grid) : (modGrid s g f).parity = s.parity := rfl
@[simp] theorem modGrid_told (s : State) (g : Nat) (f : Machine.Grid → Machine.Grid) : (modGrid s g f).told = s.told := rfl
@[simp] theorem modGrid_thermal (s : State) (g : Nat) (f : Machine.Grid → Machine.Grid) : (modGrid s g f).thermal = s.thermal := rfl

/-! ## modCtx -/

@[simp] theorem modCtx_clock (s : State) (c : Nat) (f : Ctx → Ctx) : (modCtx s c f).clock = s.clock := rfl
@[simp] theorem modCtx_cur (s : State) (c : Nat) (f : Ctx → Ctx) : (modCtx s c f).cur = s.cur := rfl
@[simp] theorem modCtx_agenda (s : State) (c : Nat) (f : Ctx → Ctx) : (modCtx s c f).agenda = s.agenda := rfl
@[simp] theorem modCtx_nums (s : State) (c : Nat) (f : Ctx → Ctx) : (modCtx s c f).nums = s.nums := rfl
@[simp] theorem modCtx_mem (s : State) (c : Nat) (f : Ctx → Ctx) : (modCtx s c f).mem = s.mem := rfl
@[simp] theorem modCtx_poison (s : State) (c : Nat) (f : Ctx → Ctx) : (modCtx s c f).poison = s.poison := rfl
@[simp] theorem modCtx_lines (s : State) (c : Nat) (f : Ctx → Ctx) : (modCtx s c f).lines = s.lines := rfl
@[simp] theorem modCtx_topVer (s : State) (c : Nat) (f : Ctx → Ctx) : (modCtx s c f).topVer = s.topVer := rfl
@[simp] theorem modCtx_frames (s : State) (c : Nat) (f : Ctx → Ctx) : (modCtx s c f).frames = s.frames := rfl
@[simp] theorem modCtx_ctxs (s : State) (c : Nat) (f : Ctx → Ctx) : (modCtx s c f).ctxs = tmod s.ctxs c f := rfl
@[simp] theorem modCtx_grids (s : State) (c : Nat) (f : Ctx → Ctx) : (modCtx s c f).grids = s.grids := rfl
@[simp] theorem modCtx_teams (s : State) (c : Nat) (f : Ctx → Ctx) : (modCtx s c f).teams = s.teams := rfl
@[simp] theorem modCtx_crews (s : State) (c : Nat) (f : Ctx → Ctx) : (modCtx s c f).crews = s.crews := rfl
@[simp] theorem modCtx_quarters (s : State) (c : Nat) (f : Ctx → Ctx) : (modCtx s c f).quarters = s.quarters := rfl
@[simp] theorem modCtx_cores (s : State) (c : Nat) (f : Ctx → Ctx) : (modCtx s c f).cores = s.cores := rfl
@[simp] theorem modCtx_clusters (s : State) (c : Nat) (f : Ctx → Ctx) : (modCtx s c f).clusters = s.clusters := rfl
@[simp] theorem modCtx_dies (s : State) (c : Nat) (f : Ctx → Ctx) : (modCtx s c f).dies = s.dies := rfl
@[simp] theorem modCtx_cmds (s : State) (c : Nat) (f : Ctx → Ctx) : (modCtx s c f).cmds = s.cmds := rfl
@[simp] theorem modCtx_freds (s : State) (c : Nat) (f : Ctx → Ctx) : (modCtx s c f).freds = s.freds := rfl
@[simp] theorem modCtx_winq (s : State) (c : Nat) (f : Ctx → Ctx) : (modCtx s c f).winq = s.winq := rfl
@[simp] theorem modCtx_far (s : State) (c : Nat) (f : Ctx → Ctx) : (modCtx s c f).far = s.far := rfl
@[simp] theorem modCtx_queues (s : State) (c : Nat) (f : Ctx → Ctx) : (modCtx s c f).queues = s.queues := rfl
@[simp] theorem modCtx_domains (s : State) (c : Nat) (f : Ctx → Ctx) : (modCtx s c f).domains = s.domains := rfl
@[simp] theorem modCtx_host (s : State) (c : Nat) (f : Ctx → Ctx) : (modCtx s c f).host = s.host := rfl
@[simp] theorem modCtx_pairs (s : State) (c : Nat) (f : Ctx → Ctx) : (modCtx s c f).pairs = s.pairs := rfl
@[simp] theorem modCtx_sec (s : State) (c : Nat) (f : Ctx → Ctx) : (modCtx s c f).sec = s.sec := rfl
@[simp] theorem modCtx_start (s : State) (c : Nat) (f : Ctx → Ctx) : (modCtx s c f).start = s.start := rfl
@[simp] theorem modCtx_package (s : State) (c : Nat) (f : Ctx → Ctx) : (modCtx s c f).package = s.package := rfl
@[simp] theorem modCtx_counters (s : State) (c : Nat) (f : Ctx → Ctx) : (modCtx s c f).counters = s.counters := rfl
@[simp] theorem modCtx_links (s : State) (c : Nat) (f : Ctx → Ctx) : (modCtx s c f).links = s.links := rfl
@[simp] theorem modCtx_dir (s : State) (c : Nat) (f : Ctx → Ctx) : (modCtx s c f).dir = s.dir := rfl
@[simp] theorem modCtx_pend (s : State) (c : Nat) (f : Ctx → Ctx) : (modCtx s c f).pend = s.pend := rfl
@[simp] theorem modCtx_late (s : State) (c : Nat) (f : Ctx → Ctx) : (modCtx s c f).late = s.late := rfl
@[simp] theorem modCtx_parity (s : State) (c : Nat) (f : Ctx → Ctx) : (modCtx s c f).parity = s.parity := rfl
@[simp] theorem modCtx_told (s : State) (c : Nat) (f : Ctx → Ctx) : (modCtx s c f).told = s.told := rfl
@[simp] theorem modCtx_thermal (s : State) (c : Nat) (f : Ctx → Ctx) : (modCtx s c f).thermal = s.thermal := rfl

/-! ## modDomain -/

@[simp] theorem modDomain_clock (s : State) (d : Nat) (f : Domain → Domain) : (modDomain s d f).clock = s.clock := rfl
@[simp] theorem modDomain_cur (s : State) (d : Nat) (f : Domain → Domain) : (modDomain s d f).cur = s.cur := rfl
@[simp] theorem modDomain_agenda (s : State) (d : Nat) (f : Domain → Domain) : (modDomain s d f).agenda = s.agenda := rfl
@[simp] theorem modDomain_nums (s : State) (d : Nat) (f : Domain → Domain) : (modDomain s d f).nums = s.nums := rfl
@[simp] theorem modDomain_mem (s : State) (d : Nat) (f : Domain → Domain) : (modDomain s d f).mem = s.mem := rfl
@[simp] theorem modDomain_poison (s : State) (d : Nat) (f : Domain → Domain) : (modDomain s d f).poison = s.poison := rfl
@[simp] theorem modDomain_lines (s : State) (d : Nat) (f : Domain → Domain) : (modDomain s d f).lines = s.lines := rfl
@[simp] theorem modDomain_topVer (s : State) (d : Nat) (f : Domain → Domain) : (modDomain s d f).topVer = s.topVer := rfl
@[simp] theorem modDomain_frames (s : State) (d : Nat) (f : Domain → Domain) : (modDomain s d f).frames = s.frames := rfl
@[simp] theorem modDomain_ctxs (s : State) (d : Nat) (f : Domain → Domain) : (modDomain s d f).ctxs = s.ctxs := rfl
@[simp] theorem modDomain_grids (s : State) (d : Nat) (f : Domain → Domain) : (modDomain s d f).grids = s.grids := rfl
@[simp] theorem modDomain_teams (s : State) (d : Nat) (f : Domain → Domain) : (modDomain s d f).teams = s.teams := rfl
@[simp] theorem modDomain_crews (s : State) (d : Nat) (f : Domain → Domain) : (modDomain s d f).crews = s.crews := rfl
@[simp] theorem modDomain_quarters (s : State) (d : Nat) (f : Domain → Domain) : (modDomain s d f).quarters = s.quarters := rfl
@[simp] theorem modDomain_cores (s : State) (d : Nat) (f : Domain → Domain) : (modDomain s d f).cores = s.cores := rfl
@[simp] theorem modDomain_clusters (s : State) (d : Nat) (f : Domain → Domain) : (modDomain s d f).clusters = s.clusters := rfl
@[simp] theorem modDomain_dies (s : State) (d : Nat) (f : Domain → Domain) : (modDomain s d f).dies = s.dies := rfl
@[simp] theorem modDomain_cmds (s : State) (d : Nat) (f : Domain → Domain) : (modDomain s d f).cmds = s.cmds := rfl
@[simp] theorem modDomain_freds (s : State) (d : Nat) (f : Domain → Domain) : (modDomain s d f).freds = s.freds := rfl
@[simp] theorem modDomain_winq (s : State) (d : Nat) (f : Domain → Domain) : (modDomain s d f).winq = s.winq := rfl
@[simp] theorem modDomain_far (s : State) (d : Nat) (f : Domain → Domain) : (modDomain s d f).far = s.far := rfl
@[simp] theorem modDomain_queues (s : State) (d : Nat) (f : Domain → Domain) : (modDomain s d f).queues = s.queues := rfl
@[simp] theorem modDomain_domains (s : State) (d : Nat) (f : Domain → Domain) : (modDomain s d f).domains = tmod s.domains d f := rfl
@[simp] theorem modDomain_host (s : State) (d : Nat) (f : Domain → Domain) : (modDomain s d f).host = s.host := rfl
@[simp] theorem modDomain_pairs (s : State) (d : Nat) (f : Domain → Domain) : (modDomain s d f).pairs = s.pairs := rfl
@[simp] theorem modDomain_sec (s : State) (d : Nat) (f : Domain → Domain) : (modDomain s d f).sec = s.sec := rfl
@[simp] theorem modDomain_start (s : State) (d : Nat) (f : Domain → Domain) : (modDomain s d f).start = s.start := rfl
@[simp] theorem modDomain_package (s : State) (d : Nat) (f : Domain → Domain) : (modDomain s d f).package = s.package := rfl
@[simp] theorem modDomain_counters (s : State) (d : Nat) (f : Domain → Domain) : (modDomain s d f).counters = s.counters := rfl
@[simp] theorem modDomain_links (s : State) (d : Nat) (f : Domain → Domain) : (modDomain s d f).links = s.links := rfl
@[simp] theorem modDomain_dir (s : State) (d : Nat) (f : Domain → Domain) : (modDomain s d f).dir = s.dir := rfl
@[simp] theorem modDomain_pend (s : State) (d : Nat) (f : Domain → Domain) : (modDomain s d f).pend = s.pend := rfl
@[simp] theorem modDomain_late (s : State) (d : Nat) (f : Domain → Domain) : (modDomain s d f).late = s.late := rfl
@[simp] theorem modDomain_parity (s : State) (d : Nat) (f : Domain → Domain) : (modDomain s d f).parity = s.parity := rfl
@[simp] theorem modDomain_told (s : State) (d : Nat) (f : Domain → Domain) : (modDomain s d f).told = s.told := rfl
@[simp] theorem modDomain_thermal (s : State) (d : Nat) (f : Domain → Domain) : (modDomain s d f).thermal = s.thermal := rfl

/-! ## modCmd -/

@[simp] theorem modCmd_clock (s : State) (c : Nat) (f : Cmd → Cmd) : (modCmd s c f).clock = s.clock := rfl
@[simp] theorem modCmd_cur (s : State) (c : Nat) (f : Cmd → Cmd) : (modCmd s c f).cur = s.cur := rfl
@[simp] theorem modCmd_agenda (s : State) (c : Nat) (f : Cmd → Cmd) : (modCmd s c f).agenda = s.agenda := rfl
@[simp] theorem modCmd_nums (s : State) (c : Nat) (f : Cmd → Cmd) : (modCmd s c f).nums = s.nums := rfl
@[simp] theorem modCmd_mem (s : State) (c : Nat) (f : Cmd → Cmd) : (modCmd s c f).mem = s.mem := rfl
@[simp] theorem modCmd_poison (s : State) (c : Nat) (f : Cmd → Cmd) : (modCmd s c f).poison = s.poison := rfl
@[simp] theorem modCmd_lines (s : State) (c : Nat) (f : Cmd → Cmd) : (modCmd s c f).lines = s.lines := rfl
@[simp] theorem modCmd_topVer (s : State) (c : Nat) (f : Cmd → Cmd) : (modCmd s c f).topVer = s.topVer := rfl
@[simp] theorem modCmd_frames (s : State) (c : Nat) (f : Cmd → Cmd) : (modCmd s c f).frames = s.frames := rfl
@[simp] theorem modCmd_ctxs (s : State) (c : Nat) (f : Cmd → Cmd) : (modCmd s c f).ctxs = s.ctxs := rfl
@[simp] theorem modCmd_grids (s : State) (c : Nat) (f : Cmd → Cmd) : (modCmd s c f).grids = s.grids := rfl
@[simp] theorem modCmd_teams (s : State) (c : Nat) (f : Cmd → Cmd) : (modCmd s c f).teams = s.teams := rfl
@[simp] theorem modCmd_crews (s : State) (c : Nat) (f : Cmd → Cmd) : (modCmd s c f).crews = s.crews := rfl
@[simp] theorem modCmd_quarters (s : State) (c : Nat) (f : Cmd → Cmd) : (modCmd s c f).quarters = s.quarters := rfl
@[simp] theorem modCmd_cores (s : State) (c : Nat) (f : Cmd → Cmd) : (modCmd s c f).cores = s.cores := rfl
@[simp] theorem modCmd_clusters (s : State) (c : Nat) (f : Cmd → Cmd) : (modCmd s c f).clusters = s.clusters := rfl
@[simp] theorem modCmd_dies (s : State) (c : Nat) (f : Cmd → Cmd) : (modCmd s c f).dies = s.dies := rfl
@[simp] theorem modCmd_cmds (s : State) (c : Nat) (f : Cmd → Cmd) : (modCmd s c f).cmds = tmod s.cmds c f := rfl
@[simp] theorem modCmd_freds (s : State) (c : Nat) (f : Cmd → Cmd) : (modCmd s c f).freds = s.freds := rfl
@[simp] theorem modCmd_winq (s : State) (c : Nat) (f : Cmd → Cmd) : (modCmd s c f).winq = s.winq := rfl
@[simp] theorem modCmd_far (s : State) (c : Nat) (f : Cmd → Cmd) : (modCmd s c f).far = s.far := rfl
@[simp] theorem modCmd_queues (s : State) (c : Nat) (f : Cmd → Cmd) : (modCmd s c f).queues = s.queues := rfl
@[simp] theorem modCmd_domains (s : State) (c : Nat) (f : Cmd → Cmd) : (modCmd s c f).domains = s.domains := rfl
@[simp] theorem modCmd_host (s : State) (c : Nat) (f : Cmd → Cmd) : (modCmd s c f).host = s.host := rfl
@[simp] theorem modCmd_pairs (s : State) (c : Nat) (f : Cmd → Cmd) : (modCmd s c f).pairs = s.pairs := rfl
@[simp] theorem modCmd_sec (s : State) (c : Nat) (f : Cmd → Cmd) : (modCmd s c f).sec = s.sec := rfl
@[simp] theorem modCmd_start (s : State) (c : Nat) (f : Cmd → Cmd) : (modCmd s c f).start = s.start := rfl
@[simp] theorem modCmd_package (s : State) (c : Nat) (f : Cmd → Cmd) : (modCmd s c f).package = s.package := rfl
@[simp] theorem modCmd_counters (s : State) (c : Nat) (f : Cmd → Cmd) : (modCmd s c f).counters = s.counters := rfl
@[simp] theorem modCmd_links (s : State) (c : Nat) (f : Cmd → Cmd) : (modCmd s c f).links = s.links := rfl
@[simp] theorem modCmd_dir (s : State) (c : Nat) (f : Cmd → Cmd) : (modCmd s c f).dir = s.dir := rfl
@[simp] theorem modCmd_pend (s : State) (c : Nat) (f : Cmd → Cmd) : (modCmd s c f).pend = s.pend := rfl
@[simp] theorem modCmd_late (s : State) (c : Nat) (f : Cmd → Cmd) : (modCmd s c f).late = s.late := rfl
@[simp] theorem modCmd_parity (s : State) (c : Nat) (f : Cmd → Cmd) : (modCmd s c f).parity = s.parity := rfl
@[simp] theorem modCmd_told (s : State) (c : Nat) (f : Cmd → Cmd) : (modCmd s c f).told = s.told := rfl
@[simp] theorem modCmd_thermal (s : State) (c : Nat) (f : Cmd → Cmd) : (modCmd s c f).thermal = s.thermal := rfl

/-! ## modQueue -/

@[simp] theorem modQueue_clock (s : State) (q : Nat) (f : LaunchQueue → LaunchQueue) : (modQueue s q f).clock = s.clock := rfl
@[simp] theorem modQueue_cur (s : State) (q : Nat) (f : LaunchQueue → LaunchQueue) : (modQueue s q f).cur = s.cur := rfl
@[simp] theorem modQueue_agenda (s : State) (q : Nat) (f : LaunchQueue → LaunchQueue) : (modQueue s q f).agenda = s.agenda := rfl
@[simp] theorem modQueue_nums (s : State) (q : Nat) (f : LaunchQueue → LaunchQueue) : (modQueue s q f).nums = s.nums := rfl
@[simp] theorem modQueue_mem (s : State) (q : Nat) (f : LaunchQueue → LaunchQueue) : (modQueue s q f).mem = s.mem := rfl
@[simp] theorem modQueue_poison (s : State) (q : Nat) (f : LaunchQueue → LaunchQueue) : (modQueue s q f).poison = s.poison := rfl
@[simp] theorem modQueue_lines (s : State) (q : Nat) (f : LaunchQueue → LaunchQueue) : (modQueue s q f).lines = s.lines := rfl
@[simp] theorem modQueue_topVer (s : State) (q : Nat) (f : LaunchQueue → LaunchQueue) : (modQueue s q f).topVer = s.topVer := rfl
@[simp] theorem modQueue_frames (s : State) (q : Nat) (f : LaunchQueue → LaunchQueue) : (modQueue s q f).frames = s.frames := rfl
@[simp] theorem modQueue_ctxs (s : State) (q : Nat) (f : LaunchQueue → LaunchQueue) : (modQueue s q f).ctxs = s.ctxs := rfl
@[simp] theorem modQueue_grids (s : State) (q : Nat) (f : LaunchQueue → LaunchQueue) : (modQueue s q f).grids = s.grids := rfl
@[simp] theorem modQueue_teams (s : State) (q : Nat) (f : LaunchQueue → LaunchQueue) : (modQueue s q f).teams = s.teams := rfl
@[simp] theorem modQueue_crews (s : State) (q : Nat) (f : LaunchQueue → LaunchQueue) : (modQueue s q f).crews = s.crews := rfl
@[simp] theorem modQueue_quarters (s : State) (q : Nat) (f : LaunchQueue → LaunchQueue) : (modQueue s q f).quarters = s.quarters := rfl
@[simp] theorem modQueue_cores (s : State) (q : Nat) (f : LaunchQueue → LaunchQueue) : (modQueue s q f).cores = s.cores := rfl
@[simp] theorem modQueue_clusters (s : State) (q : Nat) (f : LaunchQueue → LaunchQueue) : (modQueue s q f).clusters = s.clusters := rfl
@[simp] theorem modQueue_dies (s : State) (q : Nat) (f : LaunchQueue → LaunchQueue) : (modQueue s q f).dies = s.dies := rfl
@[simp] theorem modQueue_cmds (s : State) (q : Nat) (f : LaunchQueue → LaunchQueue) : (modQueue s q f).cmds = s.cmds := rfl
@[simp] theorem modQueue_freds (s : State) (q : Nat) (f : LaunchQueue → LaunchQueue) : (modQueue s q f).freds = s.freds := rfl
@[simp] theorem modQueue_winq (s : State) (q : Nat) (f : LaunchQueue → LaunchQueue) : (modQueue s q f).winq = s.winq := rfl
@[simp] theorem modQueue_far (s : State) (q : Nat) (f : LaunchQueue → LaunchQueue) : (modQueue s q f).far = s.far := rfl
@[simp] theorem modQueue_queues (s : State) (q : Nat) (f : LaunchQueue → LaunchQueue) : (modQueue s q f).queues = tmod s.queues q f := rfl
@[simp] theorem modQueue_domains (s : State) (q : Nat) (f : LaunchQueue → LaunchQueue) : (modQueue s q f).domains = s.domains := rfl
@[simp] theorem modQueue_host (s : State) (q : Nat) (f : LaunchQueue → LaunchQueue) : (modQueue s q f).host = s.host := rfl
@[simp] theorem modQueue_pairs (s : State) (q : Nat) (f : LaunchQueue → LaunchQueue) : (modQueue s q f).pairs = s.pairs := rfl
@[simp] theorem modQueue_sec (s : State) (q : Nat) (f : LaunchQueue → LaunchQueue) : (modQueue s q f).sec = s.sec := rfl
@[simp] theorem modQueue_start (s : State) (q : Nat) (f : LaunchQueue → LaunchQueue) : (modQueue s q f).start = s.start := rfl
@[simp] theorem modQueue_package (s : State) (q : Nat) (f : LaunchQueue → LaunchQueue) : (modQueue s q f).package = s.package := rfl
@[simp] theorem modQueue_counters (s : State) (q : Nat) (f : LaunchQueue → LaunchQueue) : (modQueue s q f).counters = s.counters := rfl
@[simp] theorem modQueue_links (s : State) (q : Nat) (f : LaunchQueue → LaunchQueue) : (modQueue s q f).links = s.links := rfl
@[simp] theorem modQueue_dir (s : State) (q : Nat) (f : LaunchQueue → LaunchQueue) : (modQueue s q f).dir = s.dir := rfl
@[simp] theorem modQueue_pend (s : State) (q : Nat) (f : LaunchQueue → LaunchQueue) : (modQueue s q f).pend = s.pend := rfl
@[simp] theorem modQueue_late (s : State) (q : Nat) (f : LaunchQueue → LaunchQueue) : (modQueue s q f).late = s.late := rfl
@[simp] theorem modQueue_parity (s : State) (q : Nat) (f : LaunchQueue → LaunchQueue) : (modQueue s q f).parity = s.parity := rfl
@[simp] theorem modQueue_told (s : State) (q : Nat) (f : LaunchQueue → LaunchQueue) : (modQueue s q f).told = s.told := rfl
@[simp] theorem modQueue_thermal (s : State) (q : Nat) (f : LaunchQueue → LaunchQueue) : (modQueue s q f).thermal = s.thermal := rfl

/-! ## setCore -/

@[simp] theorem setCore_clock (s : State) (n : Nat) (c : Core) : (setCore s n c).clock = s.clock := rfl
@[simp] theorem setCore_cur (s : State) (n : Nat) (c : Core) : (setCore s n c).cur = s.cur := rfl
@[simp] theorem setCore_agenda (s : State) (n : Nat) (c : Core) : (setCore s n c).agenda = s.agenda := rfl
@[simp] theorem setCore_nums (s : State) (n : Nat) (c : Core) : (setCore s n c).nums = s.nums := rfl
@[simp] theorem setCore_mem (s : State) (n : Nat) (c : Core) : (setCore s n c).mem = s.mem := rfl
@[simp] theorem setCore_poison (s : State) (n : Nat) (c : Core) : (setCore s n c).poison = s.poison := rfl
@[simp] theorem setCore_lines (s : State) (n : Nat) (c : Core) : (setCore s n c).lines = s.lines := rfl
@[simp] theorem setCore_topVer (s : State) (n : Nat) (c : Core) : (setCore s n c).topVer = s.topVer := rfl
@[simp] theorem setCore_frames (s : State) (n : Nat) (c : Core) : (setCore s n c).frames = s.frames := rfl
@[simp] theorem setCore_ctxs (s : State) (n : Nat) (c : Core) : (setCore s n c).ctxs = s.ctxs := rfl
@[simp] theorem setCore_grids (s : State) (n : Nat) (c : Core) : (setCore s n c).grids = s.grids := rfl
@[simp] theorem setCore_teams (s : State) (n : Nat) (c : Core) : (setCore s n c).teams = s.teams := rfl
@[simp] theorem setCore_crews (s : State) (n : Nat) (c : Core) : (setCore s n c).crews = s.crews := rfl
@[simp] theorem setCore_quarters (s : State) (n : Nat) (c : Core) : (setCore s n c).quarters = s.quarters := rfl
@[simp] theorem setCore_cores (s : State) (n : Nat) (c : Core) : (setCore s n c).cores = tset s.cores n c := rfl
@[simp] theorem setCore_clusters (s : State) (n : Nat) (c : Core) : (setCore s n c).clusters = s.clusters := rfl
@[simp] theorem setCore_dies (s : State) (n : Nat) (c : Core) : (setCore s n c).dies = s.dies := rfl
@[simp] theorem setCore_cmds (s : State) (n : Nat) (c : Core) : (setCore s n c).cmds = s.cmds := rfl
@[simp] theorem setCore_freds (s : State) (n : Nat) (c : Core) : (setCore s n c).freds = s.freds := rfl
@[simp] theorem setCore_winq (s : State) (n : Nat) (c : Core) : (setCore s n c).winq = s.winq := rfl
@[simp] theorem setCore_far (s : State) (n : Nat) (c : Core) : (setCore s n c).far = s.far := rfl
@[simp] theorem setCore_queues (s : State) (n : Nat) (c : Core) : (setCore s n c).queues = s.queues := rfl
@[simp] theorem setCore_domains (s : State) (n : Nat) (c : Core) : (setCore s n c).domains = s.domains := rfl
@[simp] theorem setCore_host (s : State) (n : Nat) (c : Core) : (setCore s n c).host = s.host := rfl
@[simp] theorem setCore_pairs (s : State) (n : Nat) (c : Core) : (setCore s n c).pairs = s.pairs := rfl
@[simp] theorem setCore_sec (s : State) (n : Nat) (c : Core) : (setCore s n c).sec = s.sec := rfl
@[simp] theorem setCore_start (s : State) (n : Nat) (c : Core) : (setCore s n c).start = s.start := rfl
@[simp] theorem setCore_package (s : State) (n : Nat) (c : Core) : (setCore s n c).package = s.package := rfl
@[simp] theorem setCore_counters (s : State) (n : Nat) (c : Core) : (setCore s n c).counters = s.counters := rfl
@[simp] theorem setCore_links (s : State) (n : Nat) (c : Core) : (setCore s n c).links = s.links := rfl
@[simp] theorem setCore_dir (s : State) (n : Nat) (c : Core) : (setCore s n c).dir = s.dir := rfl
@[simp] theorem setCore_pend (s : State) (n : Nat) (c : Core) : (setCore s n c).pend = s.pend := rfl
@[simp] theorem setCore_late (s : State) (n : Nat) (c : Core) : (setCore s n c).late = s.late := rfl
@[simp] theorem setCore_parity (s : State) (n : Nat) (c : Core) : (setCore s n c).parity = s.parity := rfl
@[simp] theorem setCore_told (s : State) (n : Nat) (c : Core) : (setCore s n c).told = s.told := rfl
@[simp] theorem setCore_thermal (s : State) (n : Nat) (c : Core) : (setCore s n c).thermal = s.thermal := rfl

/-! ## setCluster -/

@[simp] theorem setCluster_clock (s : State) (n : Nat) (c : Cluster) : (setCluster s n c).clock = s.clock := rfl
@[simp] theorem setCluster_cur (s : State) (n : Nat) (c : Cluster) : (setCluster s n c).cur = s.cur := rfl
@[simp] theorem setCluster_agenda (s : State) (n : Nat) (c : Cluster) : (setCluster s n c).agenda = s.agenda := rfl
@[simp] theorem setCluster_nums (s : State) (n : Nat) (c : Cluster) : (setCluster s n c).nums = s.nums := rfl
@[simp] theorem setCluster_mem (s : State) (n : Nat) (c : Cluster) : (setCluster s n c).mem = s.mem := rfl
@[simp] theorem setCluster_poison (s : State) (n : Nat) (c : Cluster) : (setCluster s n c).poison = s.poison := rfl
@[simp] theorem setCluster_lines (s : State) (n : Nat) (c : Cluster) : (setCluster s n c).lines = s.lines := rfl
@[simp] theorem setCluster_topVer (s : State) (n : Nat) (c : Cluster) : (setCluster s n c).topVer = s.topVer := rfl
@[simp] theorem setCluster_frames (s : State) (n : Nat) (c : Cluster) : (setCluster s n c).frames = s.frames := rfl
@[simp] theorem setCluster_ctxs (s : State) (n : Nat) (c : Cluster) : (setCluster s n c).ctxs = s.ctxs := rfl
@[simp] theorem setCluster_grids (s : State) (n : Nat) (c : Cluster) : (setCluster s n c).grids = s.grids := rfl
@[simp] theorem setCluster_teams (s : State) (n : Nat) (c : Cluster) : (setCluster s n c).teams = s.teams := rfl
@[simp] theorem setCluster_crews (s : State) (n : Nat) (c : Cluster) : (setCluster s n c).crews = s.crews := rfl
@[simp] theorem setCluster_quarters (s : State) (n : Nat) (c : Cluster) : (setCluster s n c).quarters = s.quarters := rfl
@[simp] theorem setCluster_cores (s : State) (n : Nat) (c : Cluster) : (setCluster s n c).cores = s.cores := rfl
@[simp] theorem setCluster_clusters (s : State) (n : Nat) (c : Cluster) : (setCluster s n c).clusters = tset s.clusters n c := rfl
@[simp] theorem setCluster_dies (s : State) (n : Nat) (c : Cluster) : (setCluster s n c).dies = s.dies := rfl
@[simp] theorem setCluster_cmds (s : State) (n : Nat) (c : Cluster) : (setCluster s n c).cmds = s.cmds := rfl
@[simp] theorem setCluster_freds (s : State) (n : Nat) (c : Cluster) : (setCluster s n c).freds = s.freds := rfl
@[simp] theorem setCluster_winq (s : State) (n : Nat) (c : Cluster) : (setCluster s n c).winq = s.winq := rfl
@[simp] theorem setCluster_far (s : State) (n : Nat) (c : Cluster) : (setCluster s n c).far = s.far := rfl
@[simp] theorem setCluster_queues (s : State) (n : Nat) (c : Cluster) : (setCluster s n c).queues = s.queues := rfl
@[simp] theorem setCluster_domains (s : State) (n : Nat) (c : Cluster) : (setCluster s n c).domains = s.domains := rfl
@[simp] theorem setCluster_host (s : State) (n : Nat) (c : Cluster) : (setCluster s n c).host = s.host := rfl
@[simp] theorem setCluster_pairs (s : State) (n : Nat) (c : Cluster) : (setCluster s n c).pairs = s.pairs := rfl
@[simp] theorem setCluster_sec (s : State) (n : Nat) (c : Cluster) : (setCluster s n c).sec = s.sec := rfl
@[simp] theorem setCluster_start (s : State) (n : Nat) (c : Cluster) : (setCluster s n c).start = s.start := rfl
@[simp] theorem setCluster_package (s : State) (n : Nat) (c : Cluster) : (setCluster s n c).package = s.package := rfl
@[simp] theorem setCluster_counters (s : State) (n : Nat) (c : Cluster) : (setCluster s n c).counters = s.counters := rfl
@[simp] theorem setCluster_links (s : State) (n : Nat) (c : Cluster) : (setCluster s n c).links = s.links := rfl
@[simp] theorem setCluster_dir (s : State) (n : Nat) (c : Cluster) : (setCluster s n c).dir = s.dir := rfl
@[simp] theorem setCluster_pend (s : State) (n : Nat) (c : Cluster) : (setCluster s n c).pend = s.pend := rfl
@[simp] theorem setCluster_late (s : State) (n : Nat) (c : Cluster) : (setCluster s n c).late = s.late := rfl
@[simp] theorem setCluster_parity (s : State) (n : Nat) (c : Cluster) : (setCluster s n c).parity = s.parity := rfl
@[simp] theorem setCluster_told (s : State) (n : Nat) (c : Cluster) : (setCluster s n c).told = s.told := rfl
@[simp] theorem setCluster_thermal (s : State) (n : Nat) (c : Cluster) : (setCluster s n c).thermal = s.thermal := rfl

/-! ## setDie -/

@[simp] theorem setDie_clock (s : State) (n : Nat) (d : Die) : (setDie s n d).clock = s.clock := rfl
@[simp] theorem setDie_cur (s : State) (n : Nat) (d : Die) : (setDie s n d).cur = s.cur := rfl
@[simp] theorem setDie_agenda (s : State) (n : Nat) (d : Die) : (setDie s n d).agenda = s.agenda := rfl
@[simp] theorem setDie_nums (s : State) (n : Nat) (d : Die) : (setDie s n d).nums = s.nums := rfl
@[simp] theorem setDie_mem (s : State) (n : Nat) (d : Die) : (setDie s n d).mem = s.mem := rfl
@[simp] theorem setDie_poison (s : State) (n : Nat) (d : Die) : (setDie s n d).poison = s.poison := rfl
@[simp] theorem setDie_lines (s : State) (n : Nat) (d : Die) : (setDie s n d).lines = s.lines := rfl
@[simp] theorem setDie_topVer (s : State) (n : Nat) (d : Die) : (setDie s n d).topVer = s.topVer := rfl
@[simp] theorem setDie_frames (s : State) (n : Nat) (d : Die) : (setDie s n d).frames = s.frames := rfl
@[simp] theorem setDie_ctxs (s : State) (n : Nat) (d : Die) : (setDie s n d).ctxs = s.ctxs := rfl
@[simp] theorem setDie_grids (s : State) (n : Nat) (d : Die) : (setDie s n d).grids = s.grids := rfl
@[simp] theorem setDie_teams (s : State) (n : Nat) (d : Die) : (setDie s n d).teams = s.teams := rfl
@[simp] theorem setDie_crews (s : State) (n : Nat) (d : Die) : (setDie s n d).crews = s.crews := rfl
@[simp] theorem setDie_quarters (s : State) (n : Nat) (d : Die) : (setDie s n d).quarters = s.quarters := rfl
@[simp] theorem setDie_cores (s : State) (n : Nat) (d : Die) : (setDie s n d).cores = s.cores := rfl
@[simp] theorem setDie_clusters (s : State) (n : Nat) (d : Die) : (setDie s n d).clusters = s.clusters := rfl
@[simp] theorem setDie_dies (s : State) (n : Nat) (d : Die) : (setDie s n d).dies = tset s.dies n d := rfl
@[simp] theorem setDie_cmds (s : State) (n : Nat) (d : Die) : (setDie s n d).cmds = s.cmds := rfl
@[simp] theorem setDie_freds (s : State) (n : Nat) (d : Die) : (setDie s n d).freds = s.freds := rfl
@[simp] theorem setDie_winq (s : State) (n : Nat) (d : Die) : (setDie s n d).winq = s.winq := rfl
@[simp] theorem setDie_far (s : State) (n : Nat) (d : Die) : (setDie s n d).far = s.far := rfl
@[simp] theorem setDie_queues (s : State) (n : Nat) (d : Die) : (setDie s n d).queues = s.queues := rfl
@[simp] theorem setDie_domains (s : State) (n : Nat) (d : Die) : (setDie s n d).domains = s.domains := rfl
@[simp] theorem setDie_host (s : State) (n : Nat) (d : Die) : (setDie s n d).host = s.host := rfl
@[simp] theorem setDie_pairs (s : State) (n : Nat) (d : Die) : (setDie s n d).pairs = s.pairs := rfl
@[simp] theorem setDie_sec (s : State) (n : Nat) (d : Die) : (setDie s n d).sec = s.sec := rfl
@[simp] theorem setDie_start (s : State) (n : Nat) (d : Die) : (setDie s n d).start = s.start := rfl
@[simp] theorem setDie_package (s : State) (n : Nat) (d : Die) : (setDie s n d).package = s.package := rfl
@[simp] theorem setDie_counters (s : State) (n : Nat) (d : Die) : (setDie s n d).counters = s.counters := rfl
@[simp] theorem setDie_links (s : State) (n : Nat) (d : Die) : (setDie s n d).links = s.links := rfl
@[simp] theorem setDie_dir (s : State) (n : Nat) (d : Die) : (setDie s n d).dir = s.dir := rfl
@[simp] theorem setDie_pend (s : State) (n : Nat) (d : Die) : (setDie s n d).pend = s.pend := rfl
@[simp] theorem setDie_late (s : State) (n : Nat) (d : Die) : (setDie s n d).late = s.late := rfl
@[simp] theorem setDie_parity (s : State) (n : Nat) (d : Die) : (setDie s n d).parity = s.parity := rfl
@[simp] theorem setDie_told (s : State) (n : Nat) (d : Die) : (setDie s n d).told = s.told := rfl
@[simp] theorem setDie_thermal (s : State) (n : Nat) (d : Die) : (setDie s n d).thermal = s.thermal := rfl

/-! ## setQuarter -/

@[simp] theorem setQuarter_clock (s : State) (n : Nat) (q : Quarter) : (setQuarter s n q).clock = s.clock := rfl
@[simp] theorem setQuarter_cur (s : State) (n : Nat) (q : Quarter) : (setQuarter s n q).cur = s.cur := rfl
@[simp] theorem setQuarter_agenda (s : State) (n : Nat) (q : Quarter) : (setQuarter s n q).agenda = s.agenda := rfl
@[simp] theorem setQuarter_nums (s : State) (n : Nat) (q : Quarter) : (setQuarter s n q).nums = s.nums := rfl
@[simp] theorem setQuarter_mem (s : State) (n : Nat) (q : Quarter) : (setQuarter s n q).mem = s.mem := rfl
@[simp] theorem setQuarter_poison (s : State) (n : Nat) (q : Quarter) : (setQuarter s n q).poison = s.poison := rfl
@[simp] theorem setQuarter_lines (s : State) (n : Nat) (q : Quarter) : (setQuarter s n q).lines = s.lines := rfl
@[simp] theorem setQuarter_topVer (s : State) (n : Nat) (q : Quarter) : (setQuarter s n q).topVer = s.topVer := rfl
@[simp] theorem setQuarter_frames (s : State) (n : Nat) (q : Quarter) : (setQuarter s n q).frames = s.frames := rfl
@[simp] theorem setQuarter_ctxs (s : State) (n : Nat) (q : Quarter) : (setQuarter s n q).ctxs = s.ctxs := rfl
@[simp] theorem setQuarter_grids (s : State) (n : Nat) (q : Quarter) : (setQuarter s n q).grids = s.grids := rfl
@[simp] theorem setQuarter_teams (s : State) (n : Nat) (q : Quarter) : (setQuarter s n q).teams = s.teams := rfl
@[simp] theorem setQuarter_crews (s : State) (n : Nat) (q : Quarter) : (setQuarter s n q).crews = s.crews := rfl
@[simp] theorem setQuarter_quarters (s : State) (n : Nat) (q : Quarter) : (setQuarter s n q).quarters = tset s.quarters n q := rfl
@[simp] theorem setQuarter_cores (s : State) (n : Nat) (q : Quarter) : (setQuarter s n q).cores = s.cores := rfl
@[simp] theorem setQuarter_clusters (s : State) (n : Nat) (q : Quarter) : (setQuarter s n q).clusters = s.clusters := rfl
@[simp] theorem setQuarter_dies (s : State) (n : Nat) (q : Quarter) : (setQuarter s n q).dies = s.dies := rfl
@[simp] theorem setQuarter_cmds (s : State) (n : Nat) (q : Quarter) : (setQuarter s n q).cmds = s.cmds := rfl
@[simp] theorem setQuarter_freds (s : State) (n : Nat) (q : Quarter) : (setQuarter s n q).freds = s.freds := rfl
@[simp] theorem setQuarter_winq (s : State) (n : Nat) (q : Quarter) : (setQuarter s n q).winq = s.winq := rfl
@[simp] theorem setQuarter_far (s : State) (n : Nat) (q : Quarter) : (setQuarter s n q).far = s.far := rfl
@[simp] theorem setQuarter_queues (s : State) (n : Nat) (q : Quarter) : (setQuarter s n q).queues = s.queues := rfl
@[simp] theorem setQuarter_domains (s : State) (n : Nat) (q : Quarter) : (setQuarter s n q).domains = s.domains := rfl
@[simp] theorem setQuarter_host (s : State) (n : Nat) (q : Quarter) : (setQuarter s n q).host = s.host := rfl
@[simp] theorem setQuarter_pairs (s : State) (n : Nat) (q : Quarter) : (setQuarter s n q).pairs = s.pairs := rfl
@[simp] theorem setQuarter_sec (s : State) (n : Nat) (q : Quarter) : (setQuarter s n q).sec = s.sec := rfl
@[simp] theorem setQuarter_start (s : State) (n : Nat) (q : Quarter) : (setQuarter s n q).start = s.start := rfl
@[simp] theorem setQuarter_package (s : State) (n : Nat) (q : Quarter) : (setQuarter s n q).package = s.package := rfl
@[simp] theorem setQuarter_counters (s : State) (n : Nat) (q : Quarter) : (setQuarter s n q).counters = s.counters := rfl
@[simp] theorem setQuarter_links (s : State) (n : Nat) (q : Quarter) : (setQuarter s n q).links = s.links := rfl
@[simp] theorem setQuarter_dir (s : State) (n : Nat) (q : Quarter) : (setQuarter s n q).dir = s.dir := rfl
@[simp] theorem setQuarter_pend (s : State) (n : Nat) (q : Quarter) : (setQuarter s n q).pend = s.pend := rfl
@[simp] theorem setQuarter_late (s : State) (n : Nat) (q : Quarter) : (setQuarter s n q).late = s.late := rfl
@[simp] theorem setQuarter_parity (s : State) (n : Nat) (q : Quarter) : (setQuarter s n q).parity = s.parity := rfl
@[simp] theorem setQuarter_told (s : State) (n : Nat) (q : Quarter) : (setQuarter s n q).told = s.told := rfl
@[simp] theorem setQuarter_thermal (s : State) (n : Nat) (q : Quarter) : (setQuarter s n q).thermal = s.thermal := rfl

/-! ## setLine -/

@[simp] theorem setLine_clock (s : State) (n : Nat) (l : Line) : (setLine s n l).clock = s.clock := rfl
@[simp] theorem setLine_cur (s : State) (n : Nat) (l : Line) : (setLine s n l).cur = s.cur := rfl
@[simp] theorem setLine_agenda (s : State) (n : Nat) (l : Line) : (setLine s n l).agenda = s.agenda := rfl
@[simp] theorem setLine_nums (s : State) (n : Nat) (l : Line) : (setLine s n l).nums = s.nums := rfl
@[simp] theorem setLine_mem (s : State) (n : Nat) (l : Line) : (setLine s n l).mem = s.mem := rfl
@[simp] theorem setLine_poison (s : State) (n : Nat) (l : Line) : (setLine s n l).poison = s.poison := rfl
@[simp] theorem setLine_lines (s : State) (n : Nat) (l : Line) : (setLine s n l).lines = tset s.lines n l := rfl
@[simp] theorem setLine_topVer (s : State) (n : Nat) (l : Line) : (setLine s n l).topVer = s.topVer := rfl
@[simp] theorem setLine_frames (s : State) (n : Nat) (l : Line) : (setLine s n l).frames = s.frames := rfl
@[simp] theorem setLine_ctxs (s : State) (n : Nat) (l : Line) : (setLine s n l).ctxs = s.ctxs := rfl
@[simp] theorem setLine_grids (s : State) (n : Nat) (l : Line) : (setLine s n l).grids = s.grids := rfl
@[simp] theorem setLine_teams (s : State) (n : Nat) (l : Line) : (setLine s n l).teams = s.teams := rfl
@[simp] theorem setLine_crews (s : State) (n : Nat) (l : Line) : (setLine s n l).crews = s.crews := rfl
@[simp] theorem setLine_quarters (s : State) (n : Nat) (l : Line) : (setLine s n l).quarters = s.quarters := rfl
@[simp] theorem setLine_cores (s : State) (n : Nat) (l : Line) : (setLine s n l).cores = s.cores := rfl
@[simp] theorem setLine_clusters (s : State) (n : Nat) (l : Line) : (setLine s n l).clusters = s.clusters := rfl
@[simp] theorem setLine_dies (s : State) (n : Nat) (l : Line) : (setLine s n l).dies = s.dies := rfl
@[simp] theorem setLine_cmds (s : State) (n : Nat) (l : Line) : (setLine s n l).cmds = s.cmds := rfl
@[simp] theorem setLine_freds (s : State) (n : Nat) (l : Line) : (setLine s n l).freds = s.freds := rfl
@[simp] theorem setLine_winq (s : State) (n : Nat) (l : Line) : (setLine s n l).winq = s.winq := rfl
@[simp] theorem setLine_far (s : State) (n : Nat) (l : Line) : (setLine s n l).far = s.far := rfl
@[simp] theorem setLine_queues (s : State) (n : Nat) (l : Line) : (setLine s n l).queues = s.queues := rfl
@[simp] theorem setLine_domains (s : State) (n : Nat) (l : Line) : (setLine s n l).domains = s.domains := rfl
@[simp] theorem setLine_host (s : State) (n : Nat) (l : Line) : (setLine s n l).host = s.host := rfl
@[simp] theorem setLine_pairs (s : State) (n : Nat) (l : Line) : (setLine s n l).pairs = s.pairs := rfl
@[simp] theorem setLine_sec (s : State) (n : Nat) (l : Line) : (setLine s n l).sec = s.sec := rfl
@[simp] theorem setLine_start (s : State) (n : Nat) (l : Line) : (setLine s n l).start = s.start := rfl
@[simp] theorem setLine_package (s : State) (n : Nat) (l : Line) : (setLine s n l).package = s.package := rfl
@[simp] theorem setLine_counters (s : State) (n : Nat) (l : Line) : (setLine s n l).counters = s.counters := rfl
@[simp] theorem setLine_links (s : State) (n : Nat) (l : Line) : (setLine s n l).links = s.links := rfl
@[simp] theorem setLine_dir (s : State) (n : Nat) (l : Line) : (setLine s n l).dir = s.dir := rfl
@[simp] theorem setLine_pend (s : State) (n : Nat) (l : Line) : (setLine s n l).pend = s.pend := rfl
@[simp] theorem setLine_late (s : State) (n : Nat) (l : Line) : (setLine s n l).late = s.late := rfl
@[simp] theorem setLine_parity (s : State) (n : Nat) (l : Line) : (setLine s n l).parity = s.parity := rfl
@[simp] theorem setLine_told (s : State) (n : Nat) (l : Line) : (setLine s n l).told = s.told := rfl
@[simp] theorem setLine_thermal (s : State) (n : Nat) (l : Line) : (setLine s n l).thermal = s.thermal := rfl

/-! ## raiseMsix -/

@[simp] theorem raiseMsix_clock (s : State) (v : Nat) : (raiseMsix s v).clock = s.clock := rfl
@[simp] theorem raiseMsix_cur (s : State) (v : Nat) : (raiseMsix s v).cur = s.cur := rfl
@[simp] theorem raiseMsix_agenda (s : State) (v : Nat) : (raiseMsix s v).agenda = s.agenda := rfl
@[simp] theorem raiseMsix_nums (s : State) (v : Nat) : (raiseMsix s v).nums = s.nums := rfl
@[simp] theorem raiseMsix_mem (s : State) (v : Nat) : (raiseMsix s v).mem = s.mem := rfl
@[simp] theorem raiseMsix_poison (s : State) (v : Nat) : (raiseMsix s v).poison = s.poison := rfl
@[simp] theorem raiseMsix_lines (s : State) (v : Nat) : (raiseMsix s v).lines = s.lines := rfl
@[simp] theorem raiseMsix_topVer (s : State) (v : Nat) : (raiseMsix s v).topVer = s.topVer := rfl
@[simp] theorem raiseMsix_frames (s : State) (v : Nat) : (raiseMsix s v).frames = s.frames := rfl
@[simp] theorem raiseMsix_ctxs (s : State) (v : Nat) : (raiseMsix s v).ctxs = s.ctxs := rfl
@[simp] theorem raiseMsix_grids (s : State) (v : Nat) : (raiseMsix s v).grids = s.grids := rfl
@[simp] theorem raiseMsix_teams (s : State) (v : Nat) : (raiseMsix s v).teams = s.teams := rfl
@[simp] theorem raiseMsix_crews (s : State) (v : Nat) : (raiseMsix s v).crews = s.crews := rfl
@[simp] theorem raiseMsix_quarters (s : State) (v : Nat) : (raiseMsix s v).quarters = s.quarters := rfl
@[simp] theorem raiseMsix_cores (s : State) (v : Nat) : (raiseMsix s v).cores = s.cores := rfl
@[simp] theorem raiseMsix_clusters (s : State) (v : Nat) : (raiseMsix s v).clusters = s.clusters := rfl
@[simp] theorem raiseMsix_dies (s : State) (v : Nat) : (raiseMsix s v).dies = s.dies := rfl
@[simp] theorem raiseMsix_cmds (s : State) (v : Nat) : (raiseMsix s v).cmds = s.cmds := rfl
@[simp] theorem raiseMsix_freds (s : State) (v : Nat) : (raiseMsix s v).freds = s.freds := rfl
@[simp] theorem raiseMsix_winq (s : State) (v : Nat) : (raiseMsix s v).winq = s.winq := rfl
@[simp] theorem raiseMsix_far (s : State) (v : Nat) : (raiseMsix s v).far = s.far := rfl
@[simp] theorem raiseMsix_queues (s : State) (v : Nat) : (raiseMsix s v).queues = s.queues := rfl
@[simp] theorem raiseMsix_domains (s : State) (v : Nat) : (raiseMsix s v).domains = s.domains := rfl
@[simp] theorem raiseMsix_host (s : State) (v : Nat) : (raiseMsix s v).host = { s.host with msix := s.host.msix ++ [v] } := rfl
@[simp] theorem raiseMsix_pairs (s : State) (v : Nat) : (raiseMsix s v).pairs = s.pairs := rfl
@[simp] theorem raiseMsix_sec (s : State) (v : Nat) : (raiseMsix s v).sec = s.sec := rfl
@[simp] theorem raiseMsix_start (s : State) (v : Nat) : (raiseMsix s v).start = s.start := rfl
@[simp] theorem raiseMsix_package (s : State) (v : Nat) : (raiseMsix s v).package = s.package := rfl
@[simp] theorem raiseMsix_counters (s : State) (v : Nat) : (raiseMsix s v).counters = s.counters := rfl
@[simp] theorem raiseMsix_links (s : State) (v : Nat) : (raiseMsix s v).links = s.links := rfl
@[simp] theorem raiseMsix_dir (s : State) (v : Nat) : (raiseMsix s v).dir = s.dir := rfl
@[simp] theorem raiseMsix_pend (s : State) (v : Nat) : (raiseMsix s v).pend = s.pend := rfl
@[simp] theorem raiseMsix_late (s : State) (v : Nat) : (raiseMsix s v).late = s.late := rfl
@[simp] theorem raiseMsix_parity (s : State) (v : Nat) : (raiseMsix s v).parity = s.parity := rfl
@[simp] theorem raiseMsix_told (s : State) (v : Nat) : (raiseMsix s v).told = s.told := rfl
@[simp] theorem raiseMsix_thermal (s : State) (v : Nat) : (raiseMsix s v).thermal = s.thermal := rfl

/-! ## takeUid -/

@[simp] theorem takeUid_clock (s : State)  : (takeUid s).2.clock = s.clock := rfl
@[simp] theorem takeUid_cur (s : State)  : (takeUid s).2.cur = s.cur := rfl
@[simp] theorem takeUid_agenda (s : State)  : (takeUid s).2.agenda = s.agenda := rfl
@[simp] theorem takeUid_mem (s : State)  : (takeUid s).2.mem = s.mem := rfl
@[simp] theorem takeUid_poison (s : State)  : (takeUid s).2.poison = s.poison := rfl
@[simp] theorem takeUid_lines (s : State)  : (takeUid s).2.lines = s.lines := rfl
@[simp] theorem takeUid_topVer (s : State)  : (takeUid s).2.topVer = s.topVer := rfl
@[simp] theorem takeUid_frames (s : State)  : (takeUid s).2.frames = s.frames := rfl
@[simp] theorem takeUid_ctxs (s : State)  : (takeUid s).2.ctxs = s.ctxs := rfl
@[simp] theorem takeUid_grids (s : State)  : (takeUid s).2.grids = s.grids := rfl
@[simp] theorem takeUid_teams (s : State)  : (takeUid s).2.teams = s.teams := rfl
@[simp] theorem takeUid_crews (s : State)  : (takeUid s).2.crews = s.crews := rfl
@[simp] theorem takeUid_quarters (s : State)  : (takeUid s).2.quarters = s.quarters := rfl
@[simp] theorem takeUid_cores (s : State)  : (takeUid s).2.cores = s.cores := rfl
@[simp] theorem takeUid_clusters (s : State)  : (takeUid s).2.clusters = s.clusters := rfl
@[simp] theorem takeUid_dies (s : State)  : (takeUid s).2.dies = s.dies := rfl
@[simp] theorem takeUid_cmds (s : State)  : (takeUid s).2.cmds = s.cmds := rfl
@[simp] theorem takeUid_freds (s : State)  : (takeUid s).2.freds = s.freds := rfl
@[simp] theorem takeUid_winq (s : State)  : (takeUid s).2.winq = s.winq := rfl
@[simp] theorem takeUid_far (s : State)  : (takeUid s).2.far = s.far := rfl
@[simp] theorem takeUid_queues (s : State)  : (takeUid s).2.queues = s.queues := rfl
@[simp] theorem takeUid_domains (s : State)  : (takeUid s).2.domains = s.domains := rfl
@[simp] theorem takeUid_host (s : State)  : (takeUid s).2.host = s.host := rfl
@[simp] theorem takeUid_pairs (s : State)  : (takeUid s).2.pairs = s.pairs := rfl
@[simp] theorem takeUid_sec (s : State)  : (takeUid s).2.sec = s.sec := rfl
@[simp] theorem takeUid_start (s : State)  : (takeUid s).2.start = s.start := rfl
@[simp] theorem takeUid_package (s : State)  : (takeUid s).2.package = s.package := rfl
@[simp] theorem takeUid_counters (s : State)  : (takeUid s).2.counters = s.counters := rfl
@[simp] theorem takeUid_links (s : State)  : (takeUid s).2.links = s.links := rfl
@[simp] theorem takeUid_dir (s : State)  : (takeUid s).2.dir = s.dir := rfl
@[simp] theorem takeUid_pend (s : State)  : (takeUid s).2.pend = s.pend := rfl
@[simp] theorem takeUid_late (s : State)  : (takeUid s).2.late = s.late := rfl
@[simp] theorem takeUid_parity (s : State)  : (takeUid s).2.parity = s.parity := rfl
@[simp] theorem takeUid_told (s : State)  : (takeUid s).2.told = s.told := rfl
@[simp] theorem takeUid_thermal (s : State)  : (takeUid s).2.thermal = s.thermal := rfl

/-! ## takeFree -/

@[simp] theorem takeFree_clock (s : State)  : (takeFree s).2.clock = s.clock := rfl
@[simp] theorem takeFree_cur (s : State)  : (takeFree s).2.cur = s.cur := rfl
@[simp] theorem takeFree_agenda (s : State)  : (takeFree s).2.agenda = s.agenda := rfl
@[simp] theorem takeFree_mem (s : State)  : (takeFree s).2.mem = s.mem := rfl
@[simp] theorem takeFree_poison (s : State)  : (takeFree s).2.poison = s.poison := rfl
@[simp] theorem takeFree_lines (s : State)  : (takeFree s).2.lines = s.lines := rfl
@[simp] theorem takeFree_topVer (s : State)  : (takeFree s).2.topVer = s.topVer := rfl
@[simp] theorem takeFree_frames (s : State)  : (takeFree s).2.frames = s.frames := rfl
@[simp] theorem takeFree_ctxs (s : State)  : (takeFree s).2.ctxs = s.ctxs := rfl
@[simp] theorem takeFree_grids (s : State)  : (takeFree s).2.grids = s.grids := rfl
@[simp] theorem takeFree_teams (s : State)  : (takeFree s).2.teams = s.teams := rfl
@[simp] theorem takeFree_crews (s : State)  : (takeFree s).2.crews = s.crews := rfl
@[simp] theorem takeFree_quarters (s : State)  : (takeFree s).2.quarters = s.quarters := rfl
@[simp] theorem takeFree_cores (s : State)  : (takeFree s).2.cores = s.cores := rfl
@[simp] theorem takeFree_clusters (s : State)  : (takeFree s).2.clusters = s.clusters := rfl
@[simp] theorem takeFree_dies (s : State)  : (takeFree s).2.dies = s.dies := rfl
@[simp] theorem takeFree_cmds (s : State)  : (takeFree s).2.cmds = s.cmds := rfl
@[simp] theorem takeFree_freds (s : State)  : (takeFree s).2.freds = s.freds := rfl
@[simp] theorem takeFree_winq (s : State)  : (takeFree s).2.winq = s.winq := rfl
@[simp] theorem takeFree_far (s : State)  : (takeFree s).2.far = s.far := rfl
@[simp] theorem takeFree_queues (s : State)  : (takeFree s).2.queues = s.queues := rfl
@[simp] theorem takeFree_domains (s : State)  : (takeFree s).2.domains = s.domains := rfl
@[simp] theorem takeFree_host (s : State)  : (takeFree s).2.host = s.host := rfl
@[simp] theorem takeFree_pairs (s : State)  : (takeFree s).2.pairs = s.pairs := rfl
@[simp] theorem takeFree_sec (s : State)  : (takeFree s).2.sec = s.sec := rfl
@[simp] theorem takeFree_start (s : State)  : (takeFree s).2.start = s.start := rfl
@[simp] theorem takeFree_package (s : State)  : (takeFree s).2.package = s.package := rfl
@[simp] theorem takeFree_counters (s : State)  : (takeFree s).2.counters = s.counters := rfl
@[simp] theorem takeFree_links (s : State)  : (takeFree s).2.links = s.links := rfl
@[simp] theorem takeFree_dir (s : State)  : (takeFree s).2.dir = s.dir := rfl
@[simp] theorem takeFree_pend (s : State)  : (takeFree s).2.pend = s.pend := rfl
@[simp] theorem takeFree_late (s : State)  : (takeFree s).2.late = s.late := rfl
@[simp] theorem takeFree_parity (s : State)  : (takeFree s).2.parity = s.parity := rfl
@[simp] theorem takeFree_told (s : State)  : (takeFree s).2.told = s.told := rfl
@[simp] theorem takeFree_thermal (s : State)  : (takeFree s).2.thermal = s.thermal := rfl

/-! ## takeFreeBytes -/

@[simp] theorem takeFreeBytes_clock (s : State) (n : Nat) : (takeFreeBytes s n).2.clock = s.clock := rfl
@[simp] theorem takeFreeBytes_cur (s : State) (n : Nat) : (takeFreeBytes s n).2.cur = s.cur := rfl
@[simp] theorem takeFreeBytes_agenda (s : State) (n : Nat) : (takeFreeBytes s n).2.agenda = s.agenda := rfl
@[simp] theorem takeFreeBytes_mem (s : State) (n : Nat) : (takeFreeBytes s n).2.mem = s.mem := rfl
@[simp] theorem takeFreeBytes_poison (s : State) (n : Nat) : (takeFreeBytes s n).2.poison = s.poison := rfl
@[simp] theorem takeFreeBytes_lines (s : State) (n : Nat) : (takeFreeBytes s n).2.lines = s.lines := rfl
@[simp] theorem takeFreeBytes_topVer (s : State) (n : Nat) : (takeFreeBytes s n).2.topVer = s.topVer := rfl
@[simp] theorem takeFreeBytes_frames (s : State) (n : Nat) : (takeFreeBytes s n).2.frames = s.frames := rfl
@[simp] theorem takeFreeBytes_ctxs (s : State) (n : Nat) : (takeFreeBytes s n).2.ctxs = s.ctxs := rfl
@[simp] theorem takeFreeBytes_grids (s : State) (n : Nat) : (takeFreeBytes s n).2.grids = s.grids := rfl
@[simp] theorem takeFreeBytes_teams (s : State) (n : Nat) : (takeFreeBytes s n).2.teams = s.teams := rfl
@[simp] theorem takeFreeBytes_crews (s : State) (n : Nat) : (takeFreeBytes s n).2.crews = s.crews := rfl
@[simp] theorem takeFreeBytes_quarters (s : State) (n : Nat) : (takeFreeBytes s n).2.quarters = s.quarters := rfl
@[simp] theorem takeFreeBytes_cores (s : State) (n : Nat) : (takeFreeBytes s n).2.cores = s.cores := rfl
@[simp] theorem takeFreeBytes_clusters (s : State) (n : Nat) : (takeFreeBytes s n).2.clusters = s.clusters := rfl
@[simp] theorem takeFreeBytes_dies (s : State) (n : Nat) : (takeFreeBytes s n).2.dies = s.dies := rfl
@[simp] theorem takeFreeBytes_cmds (s : State) (n : Nat) : (takeFreeBytes s n).2.cmds = s.cmds := rfl
@[simp] theorem takeFreeBytes_freds (s : State) (n : Nat) : (takeFreeBytes s n).2.freds = s.freds := rfl
@[simp] theorem takeFreeBytes_winq (s : State) (n : Nat) : (takeFreeBytes s n).2.winq = s.winq := rfl
@[simp] theorem takeFreeBytes_far (s : State) (n : Nat) : (takeFreeBytes s n).2.far = s.far := rfl
@[simp] theorem takeFreeBytes_queues (s : State) (n : Nat) : (takeFreeBytes s n).2.queues = s.queues := rfl
@[simp] theorem takeFreeBytes_domains (s : State) (n : Nat) : (takeFreeBytes s n).2.domains = s.domains := rfl
@[simp] theorem takeFreeBytes_host (s : State) (n : Nat) : (takeFreeBytes s n).2.host = s.host := rfl
@[simp] theorem takeFreeBytes_pairs (s : State) (n : Nat) : (takeFreeBytes s n).2.pairs = s.pairs := rfl
@[simp] theorem takeFreeBytes_sec (s : State) (n : Nat) : (takeFreeBytes s n).2.sec = s.sec := rfl
@[simp] theorem takeFreeBytes_start (s : State) (n : Nat) : (takeFreeBytes s n).2.start = s.start := rfl
@[simp] theorem takeFreeBytes_package (s : State) (n : Nat) : (takeFreeBytes s n).2.package = s.package := rfl
@[simp] theorem takeFreeBytes_counters (s : State) (n : Nat) : (takeFreeBytes s n).2.counters = s.counters := rfl
@[simp] theorem takeFreeBytes_links (s : State) (n : Nat) : (takeFreeBytes s n).2.links = s.links := rfl
@[simp] theorem takeFreeBytes_dir (s : State) (n : Nat) : (takeFreeBytes s n).2.dir = s.dir := rfl
@[simp] theorem takeFreeBytes_pend (s : State) (n : Nat) : (takeFreeBytes s n).2.pend = s.pend := rfl
@[simp] theorem takeFreeBytes_late (s : State) (n : Nat) : (takeFreeBytes s n).2.late = s.late := rfl
@[simp] theorem takeFreeBytes_parity (s : State) (n : Nat) : (takeFreeBytes s n).2.parity = s.parity := rfl
@[simp] theorem takeFreeBytes_told (s : State) (n : Nat) : (takeFreeBytes s n).2.told = s.told := rfl
@[simp] theorem takeFreeBytes_thermal (s : State) (n : Nat) : (takeFreeBytes s n).2.thermal = s.thermal := rfl

/-! ## putBody -/

@[simp] theorem putBody_clock (s : State) (u : UnitRef) (b : Body) : (putBody s u b).clock = s.clock := by
  cases u <;> cases b <;> rfl
@[simp] theorem putBody_cur (s : State) (u : UnitRef) (b : Body) : (putBody s u b).cur = s.cur := by
  cases u <;> cases b <;> rfl
@[simp] theorem putBody_agenda (s : State) (u : UnitRef) (b : Body) : (putBody s u b).agenda = s.agenda := by
  cases u <;> cases b <;> rfl
@[simp] theorem putBody_nums (s : State) (u : UnitRef) (b : Body) : (putBody s u b).nums = s.nums := by
  cases u <;> cases b <;> rfl
@[simp] theorem putBody_mem (s : State) (u : UnitRef) (b : Body) : (putBody s u b).mem = s.mem := by
  cases u <;> cases b <;> rfl
@[simp] theorem putBody_poison (s : State) (u : UnitRef) (b : Body) : (putBody s u b).poison = s.poison := by
  cases u <;> cases b <;> rfl
@[simp] theorem putBody_lines (s : State) (u : UnitRef) (b : Body) : (putBody s u b).lines = s.lines := by
  cases u <;> cases b <;> rfl
@[simp] theorem putBody_topVer (s : State) (u : UnitRef) (b : Body) : (putBody s u b).topVer = s.topVer := by
  cases u <;> cases b <;> rfl
@[simp] theorem putBody_frames (s : State) (u : UnitRef) (b : Body) : (putBody s u b).frames = s.frames := by
  cases u <;> cases b <;> rfl
@[simp] theorem putBody_ctxs (s : State) (u : UnitRef) (b : Body) : (putBody s u b).ctxs = s.ctxs := by
  cases u <;> cases b <;> rfl
@[simp] theorem putBody_grids (s : State) (u : UnitRef) (b : Body) : (putBody s u b).grids = s.grids := by
  cases u <;> cases b <;> rfl
@[simp] theorem putBody_quarters (s : State) (u : UnitRef) (b : Body) : (putBody s u b).quarters = s.quarters := by
  cases u <;> cases b <;> rfl
@[simp] theorem putBody_cores (s : State) (u : UnitRef) (b : Body) : (putBody s u b).cores = s.cores := by
  cases u <;> cases b <;> rfl
@[simp] theorem putBody_clusters (s : State) (u : UnitRef) (b : Body) : (putBody s u b).clusters = s.clusters := by
  cases u <;> cases b <;> rfl
@[simp] theorem putBody_dies (s : State) (u : UnitRef) (b : Body) : (putBody s u b).dies = s.dies := by
  cases u <;> cases b <;> rfl
@[simp] theorem putBody_cmds (s : State) (u : UnitRef) (b : Body) : (putBody s u b).cmds = s.cmds := by
  cases u <;> cases b <;> rfl
@[simp] theorem putBody_freds (s : State) (u : UnitRef) (b : Body) : (putBody s u b).freds = s.freds := by
  cases u <;> cases b <;> rfl
@[simp] theorem putBody_winq (s : State) (u : UnitRef) (b : Body) : (putBody s u b).winq = s.winq := by
  cases u <;> cases b <;> rfl
@[simp] theorem putBody_far (s : State) (u : UnitRef) (b : Body) : (putBody s u b).far = s.far := by
  cases u <;> cases b <;> rfl
@[simp] theorem putBody_queues (s : State) (u : UnitRef) (b : Body) : (putBody s u b).queues = s.queues := by
  cases u <;> cases b <;> rfl
@[simp] theorem putBody_domains (s : State) (u : UnitRef) (b : Body) : (putBody s u b).domains = s.domains := by
  cases u <;> cases b <;> rfl
@[simp] theorem putBody_host (s : State) (u : UnitRef) (b : Body) : (putBody s u b).host = s.host := by
  cases u <;> cases b <;> rfl
@[simp] theorem putBody_pairs (s : State) (u : UnitRef) (b : Body) : (putBody s u b).pairs = s.pairs := by
  cases u <;> cases b <;> rfl
@[simp] theorem putBody_sec (s : State) (u : UnitRef) (b : Body) : (putBody s u b).sec = s.sec := by
  cases u <;> cases b <;> rfl
@[simp] theorem putBody_start (s : State) (u : UnitRef) (b : Body) : (putBody s u b).start = s.start := by
  cases u <;> cases b <;> rfl
@[simp] theorem putBody_package (s : State) (u : UnitRef) (b : Body) : (putBody s u b).package = s.package := by
  cases u <;> cases b <;> rfl
@[simp] theorem putBody_counters (s : State) (u : UnitRef) (b : Body) : (putBody s u b).counters = s.counters := by
  cases u <;> cases b <;> rfl
@[simp] theorem putBody_links (s : State) (u : UnitRef) (b : Body) : (putBody s u b).links = s.links := by
  cases u <;> cases b <;> rfl
@[simp] theorem putBody_dir (s : State) (u : UnitRef) (b : Body) : (putBody s u b).dir = s.dir := by
  cases u <;> cases b <;> rfl
@[simp] theorem putBody_pend (s : State) (u : UnitRef) (b : Body) : (putBody s u b).pend = s.pend := by
  cases u <;> cases b <;> rfl
@[simp] theorem putBody_late (s : State) (u : UnitRef) (b : Body) : (putBody s u b).late = s.late := by
  cases u <;> cases b <;> rfl
@[simp] theorem putBody_parity (s : State) (u : UnitRef) (b : Body) : (putBody s u b).parity = s.parity := by
  cases u <;> cases b <;> rfl
@[simp] theorem putBody_told (s : State) (u : UnitRef) (b : Body) : (putBody s u b).told = s.told := by
  cases u <;> cases b <;> rfl
@[simp] theorem putBody_thermal (s : State) (u : UnitRef) (b : Body) : (putBody s u b).thermal = s.thermal := by
  cases u <;> cases b <;> rfl

end Sys2Proof.Laws
end

