-- ==== Sys2Proof/Laws/Memory.lean ====
section
/-! SUPPORT. Memory: read after write, the canonical form that every memory operation keeps, little-endian bytes, and what the L2 operations
change. -/

namespace Sys2Proof.Laws

open Sys2Proof Sys2Proof.Machine

/-! ## One byte -/

theorem cellsFrom_le {m : List Host.Cell} {a b : Nat} (h : cellsFrom b m = true) (hab : a ≤ b) : cellsFrom a m = true := by
  cases m with
  | nil => rfl
  | cons e r =>
    obtain ⟨x, v⟩ := e
    simp only [cellsFrom, Bool.and_eq_true, decide_eq_true_eq] at h ⊢
    exact ⟨⟨by omega, h.1.2⟩, h.2⟩

theorem cellGet_below {m : List Host.Cell} {a lo : Nat} (h : cellsFrom lo m = true) (ha : a < lo) : cellGet m a = 0 := by
  induction m generalizing lo with
  | nil => rfl
  | cons e r ih =>
    obtain ⟨x, v⟩ := e
    simp only [cellsFrom, Bool.and_eq_true, decide_eq_true_eq] at h
    rw [cellGet, if_neg (by omega)]
    exact ih h.2 (by omega)

theorem cellGet_cellSet_self {m : List Host.Cell} {lo : Nat} (h : cellsFrom lo m = true) (a : Nat) (v : Byte) :
    cellGet (cellSet m a v) a = v := by
  induction m generalizing lo with
  | nil =>
    simp only [cellSet]
    split
    · subst_vars; rfl
    · simp [cellGet]
  | cons e r ih =>
    obtain ⟨x, w⟩ := e
    simp only [cellsFrom, Bool.and_eq_true, decide_eq_true_eq] at h
    simp only [cellSet]
    split
    · subst_vars
      split
      · subst_vars; exact cellGet_below h.2 (by omega)
      · simp [cellGet]
    · split
      · split
        · subst_vars
          rw [cellGet, if_neg (by omega)]
          exact cellGet_below h.2 (by omega)
        · simp [cellGet]
      · rw [cellGet, if_neg (by assumption)]
        exact ih h.2

theorem cellGet_cellSet_ne (m : List Host.Cell) {a b : Nat} (v : Byte) (h : b ≠ a) : cellGet (cellSet m a v) b = cellGet m b := by
  induction m with
  | nil =>
    simp only [cellSet]
    split
    · rfl
    · simp [cellGet, Ne.symm h]
  | cons e r ih =>
    obtain ⟨x, w⟩ := e
    simp only [cellSet]
    split
    · subst_vars
      split <;> simp [cellGet, Ne.symm h]
    · split
      · split <;> simp [cellGet, Ne.symm h]
      · simp [cellGet, ih]

/-! ## The canonical form is kept -/

theorem cellSet_wf {m : List Host.Cell} {lo : Nat} (h : cellsFrom lo m = true) {a : Nat} (ha : lo ≤ a) (v : Byte) :
    cellsFrom lo (cellSet m a v) = true := by
  induction m generalizing lo with
  | nil =>
    simp only [cellSet]
    split
    · rfl
    · simp only [cellsFrom, Bool.and_eq_true, decide_eq_true_eq, bne_iff_ne]
      exact ⟨⟨ha, by assumption⟩, trivial⟩
  | cons e r ih =>
    obtain ⟨x, w⟩ := e
    simp only [cellsFrom, Bool.and_eq_true, decide_eq_true_eq, bne_iff_ne] at h
    simp only [cellSet]
    split
    · subst_vars
      split
      · exact cellsFrom_le h.2 (by omega)
      · simp only [cellsFrom, Bool.and_eq_true, decide_eq_true_eq, bne_iff_ne]
        exact ⟨⟨ha, by assumption⟩, h.2⟩
    · split
      · split
        · simp only [cellsFrom, Bool.and_eq_true, decide_eq_true_eq, bne_iff_ne]
          exact h
        · simp only [cellsFrom, Bool.and_eq_true, decide_eq_true_eq, bne_iff_ne]
          exact ⟨⟨ha, by assumption⟩, ⟨by omega, h.1.2⟩, h.2⟩
      · simp only [cellsFrom, Bool.and_eq_true, decide_eq_true_eq, bne_iff_ne]
        exact ⟨h.1, ih h.2 (by omega)⟩

theorem cellsWrite_wf {m : List Host.Cell} (h : Memory.wf m = true) (a : Nat) (bs : List Byte) :
    Memory.wf (cellsWrite m a bs) = true := by
  induction bs generalizing m a with
  | nil => exact h
  | cons b bs ih => exact ih (cellSet_wf h (Nat.zero_le a) b) (a + 1)

theorem filter_from {m : List Host.Cell} {lo : Nat} (h : cellsFrom lo m = true) (p : Host.Cell → Bool) :
    cellsFrom lo (m.filter p) = true := by
  induction m generalizing lo with
  | nil => rfl
  | cons e r ih =>
    obtain ⟨x, w⟩ := e
    simp only [cellsFrom, Bool.and_eq_true, decide_eq_true_eq] at h
    rw [List.filter_cons]
    split
    · simp only [cellsFrom, Bool.and_eq_true, decide_eq_true_eq]
      exact ⟨h.1, ih h.2⟩
    · exact cellsFrom_le (ih h.2) (by omega)

/-- Cells taken out leave the canonical form. -/
theorem filter_wf {m : List Host.Cell} (h : Memory.wf m = true) (p : Host.Cell → Bool) : Memory.wf (m.filter p) = true :=
  filter_from h p

theorem reset_mem_wf : Memory.wf State.reset.mem = true := rfl

/-! ## A range of bytes -/

theorem cellGet_cellsWrite_out (m : List Host.Cell) (a : Nat) (bs : List Byte) {b : Nat} (h : b < a ∨ a + bs.length ≤ b) :
    cellGet (cellsWrite m a bs) b = cellGet m b := by
  induction bs generalizing m a with
  | nil => rfl
  | cons x r ih =>
    simp only [List.length_cons] at h
    rw [cellsWrite, ih _ _ (by omega), cellGet_cellSet_ne _ _ (by omega)]

theorem cellGet_cellsWrite_in {m : List Host.Cell} (hm : Memory.wf m = true) (a : Nat) (bs : List Byte) {i : Nat}
    (h : i < bs.length) : cellGet (cellsWrite m a bs) (a + i) = bs.getD i 0 := by
  induction bs generalizing m a i with
  | nil => simp at h
  | cons x r ih =>
    have hw : Memory.wf (cellSet m a x) = true := cellSet_wf hm (Nat.zero_le a) x
    cases i with
    | zero =>
      rw [cellsWrite, cellGet_cellsWrite_out _ _ _ (by omega)]
      simpa using cellGet_cellSet_self (lo := 0) hm a x
    | succ i =>
      have := ih hw (a + 1) (i := i) (by simpa using h)
      rw [cellsWrite, show a + (i + 1) = a + 1 + i by omega, this]
      simp

@[simp] theorem cellsRead_length (m : List Host.Cell) (a n : Nat) : (cellsRead m a n).length = n := by simp [cellsRead]

/-! ## Little-endian bytes (R7) -/

@[simp] theorem toBytes_length (n v : Nat) : (toBytes n v).length = n := by
  induction n generalizing v with
  | zero => rfl
  | succ n ih => simp [toBytes, ih]

theorem ofBytes_toBytes (n v : Nat) : ofBytes (toBytes n v) = v % 256 ^ n := by
  induction n generalizing v with
  | zero => simp [toBytes, ofBytes, Nat.mod_one]
  | succ n ih =>
    have h : v % 256 ^ (n + 1) = v % 256 + 256 * (v / 256 % 256 ^ n) := by
      rw [pow_succ (256 : ℕ) n, mul_comm (256 ^ n) 256, Nat.mod_mul]
    rw [h, ← ih]
    simp only [toBytes, ofBytes, BitVec.toNat_ofNat]

/-! ## The L2 -/

@[simp] theorem roomIn_mem (s : State) (d sl : Nat) : (roomIn s d sl).mem = s.mem := by
  unfold roomIn
  dsimp only
  split
  · rfl
  · split
    · rfl
    · split <;> rfl

@[simp] theorem l2Room_mem (s : State) (d n : Nat) : (l2Room s d n).mem = s.mem := by
  unfold l2Room
  split <;> simp

@[simp] theorem l2Touch_mem (s : State) (pa : Nat) (c : Option Nat) (rc : Nat) : (l2Touch s pa c rc).mem = s.mem := by
  unfold l2Touch
  dsimp only
  cases tget s.lines (pa / 128)
  · exact (l2Room_mem _ _ _).trans (l2Room_mem _ _ _)
  · dsimp only
    split
    · rfl
    · exact l2Room_mem _ _ _

/-- A line whose read count has not run out stays where it is (R144). -/
theorem l2Due_of {s : State} {n : Nat} (h : ∀ l, tget s.lines n = some l → l.rc ≠ some 0) : l2Due s n = s := by
  unfold l2Due
  split
  · rename_i l hl
    rw [if_neg (fun hc => h l hl hc.1)]
  · rfl

theorem dropLine_wf {s : State} (h : Memory.wf s.mem = true) (n : Nat) : Memory.wf (dropLine s n).mem = true := by
  unfold dropLine
  have e := takeFreeBytes_mem s 128
  generalize takeFreeBytes s 128 = f at e ⊢
  dsimp only
  rw [e]
  exact cellsWrite_wf h _ _

theorem l2Due_wf {s : State} (h : Memory.wf s.mem = true) (n : Nat) : Memory.wf (l2Due s n).mem = true := by
  unfold l2Due
  split
  · split
    · exact dropLine_wf h n
    · exact h
  · exact h

/-- A write at the L2 writes its bytes and no others, after the drop of a line whose read count has run out (R143, R144). -/
@[simp] theorem l2Write_mem (s : State) (pa : Nat) (bs : List Byte) (c : Option Nat) :
    (l2Write s pa bs c).mem = cellsWrite (l2Due s (pa / 128)).mem pa bs := by
  unfold l2Write l2Mark
  dsimp only
  split <;> simp only [setLine] <;> split <;> simp

theorem l2Store_wf {s : State} (h : Memory.wf s.mem = true) (pa : Nat) (bs : List Byte) (c : Option Nat) :
    Memory.wf (l2Store s pa bs c).mem = true := by
  unfold l2Store
  generalize splitLines pa bs = l
  induction l generalizing s with
  | nil => exact h
  | cons e r ih => exact ih (by simpa using cellsWrite_wf (l2Due_wf h _) e.1 e.2)

theorem l2Touch_foldl_mem (ls : List Nat) (s : State) (c : Option Nat) :
    (ls.foldl (fun s l => l2Touch s (128 * l) c 0) s).mem = s.mem := by
  induction ls generalizing s with
  | nil => rfl
  | cons e r ih => rw [List.foldl_cons, ih, l2Touch_mem]

/-- A read at the L2 reads memory and changes none of it but the lines whose read count has run out (R144). -/
@[simp] theorem l2Load_mem (s : State) (pa n : Nat) (c : Option Nat) :
    (l2Load s pa n c).2.mem = ((((List.range n).map fun i => (pa + i) / 128).eraseDups).foldl l2Due s).mem :=
  l2Touch_foldl_mem _ _ c

end Sys2Proof.Laws
end

