-- ==== Sys2Proof/Laws/PerInstr.lean ====
section
/-! SUPPORT. The encoding of each instruction, one lemma for each constructor: the fields that the encoder gives a well-formed
instruction decode to it (R53, R56, R63, R66, R67). -/

namespace Sys2Proof.Laws

set_option linter.unusedSimpArgs false
set_option linter.unusedTactic false
set_option linter.unreachableTactic false

open Sys2Proof

/-- The fields that encode a well-formed instruction decode to it. -/
def Encoding.Statement (i : Instr) : Prop := i.wf = true → ∀ f, encodeFields i = some f → decodeFields f = some i

namespace Encoding

/-- An instruction whose encoded fields have its shape meets the statement. -/
theorem of_shape {i : Instr} (g : Fields) (he : encodeFields i = some g) (h : i.wf = true → g.shape = some i) : Statement i := by
  intro hw f hf
  obtain rfl : g = f := Option.some.inj (he.symm.trans hf)
  simp only [decodeFields, h hw, hw, if_true]

/-- An event has no encoding. -/
theorem of_event {i : Instr} (he : encodeFields i = none) : Statement i := by
  intro _ f hf
  rw [he] at hf
  cases hf

/-! ## Bit fields -/

theorem above {m n : Nat} (x : BitVec m) (y : BitVec n) (s k : Nat) (h : n ≤ s) :
    (x ++ y).extractLsb' s k = x.extractLsb' (s - n) k := by
  rw [BitVec.extractLsb'_append_eq_ite, dif_neg (by omega)]

theorem below {m n : Nat} (x : BitVec m) (y : BitVec n) (s k : Nat) (h : s + k ≤ n) :
    (x ++ y).extractLsb' s k = y.extractLsb' s k := BitVec.extractLsb'_append_eq_of_add_le h

theorem lowByte_hi (v : BitVec 8) : (lowByte v).extractLsb' 8 24 = 0#24 :=
  (above (0#24) v 8 24 (by decide)).trans BitVec.extractLsb'_eq_self
theorem lowByte_lo (v : BitVec 8) : (lowByte v).extractLsb' 0 8 = v :=
  (below (0#24) v 0 8 (by decide)).trans BitVec.extractLsb'_eq_self
theorem half16_0 (v : BitVec 16) : (0#16 ++ v : BitVec 32).extractLsb' 16 16 = 0#16 :=
  (above _ _ _ _ (by decide)).trans (BitVec.extractLsb'_eq_self)
theorem half16_1 (v : BitVec 16) : (0#16 ++ v : BitVec 32).extractLsb' 0 16 = v :=
  (below _ _ _ _ (by decide)).trans BitVec.extractLsb'_eq_self
theorem two16_0 (u : BitVec 16) (v : BitVec 16) : (u ++ v : BitVec 32).extractLsb' 16 16 = u :=
  (above _ _ _ _ (by decide)).trans (BitVec.extractLsb'_eq_self)
theorem two16_1 (u : BitVec 16) (v : BitVec 16) : (u ++ v : BitVec 32).extractLsb' 0 16 = v :=
  (below _ _ _ _ (by decide)).trans BitVec.extractLsb'_eq_self
theorem low5_0 (v : BitVec 5) : (0#27 ++ v : BitVec 32).extractLsb' 5 27 = 0#27 :=
  (above _ _ _ _ (by decide)).trans (BitVec.extractLsb'_eq_self)
theorem low5_1 (v : BitVec 5) : (0#27 ++ v : BitVec 32).extractLsb' 0 5 = v :=
  (below _ _ _ _ (by decide)).trans BitVec.extractLsb'_eq_self
theorem low7_0 (v : BitVec 7) : (0#25 ++ v : BitVec 32).extractLsb' 7 25 = 0#25 :=
  (above _ _ _ _ (by decide)).trans (BitVec.extractLsb'_eq_self)
theorem low7_1 (v : BitVec 7) : (0#25 ++ v : BitVec 32).extractLsb' 0 7 = v :=
  (below _ _ _ _ (by decide)).trans BitVec.extractLsb'_eq_self
theorem scanWord_0 (e : BitVec 1) (v : BitVec 8) : (0#23 ++ e ++ v : BitVec 32).extractLsb' 9 23 = 0#23 :=
  (above _ _ _ _ (by decide)).trans ((above _ _ _ _ (by decide)).trans (BitVec.extractLsb'_eq_self))
theorem scanWord_1 (e : BitVec 1) (v : BitVec 8) : (0#23 ++ e ++ v : BitVec 32).extractLsb' 8 1 = e :=
  (above _ _ _ _ (by decide)).trans ((below _ _ _ _ (by decide)).trans BitVec.extractLsb'_eq_self)
theorem scanWord_2 (e : BitVec 1) (v : BitVec 8) : (0#23 ++ e ++ v : BitVec 32).extractLsb' 0 8 = v :=
  (below _ _ _ _ (by decide)).trans BitVec.extractLsb'_eq_self
theorem cvtWord_0 (u : BitVec 4) (v : BitVec 4) : (0#24 ++ u ++ v : BitVec 32).extractLsb' 8 24 = 0#24 :=
  (above _ _ _ _ (by decide)).trans ((above _ _ _ _ (by decide)).trans (BitVec.extractLsb'_eq_self))
theorem cvtWord_1 (u : BitVec 4) (v : BitVec 4) : (0#24 ++ u ++ v : BitVec 32).extractLsb' 4 4 = u :=
  (above _ _ _ _ (by decide)).trans ((below _ _ _ _ (by decide)).trans BitVec.extractLsb'_eq_self)
theorem cvtWord_2 (u : BitVec 4) (v : BitVec 4) : (0#24 ++ u ++ v : BitVec 32).extractLsb' 0 4 = v :=
  (below _ _ _ _ (by decide)).trans BitVec.extractLsb'_eq_self
theorem cvtpWord_0 (t : BitVec 2) (u : BitVec 4) : (0#22 ++ t ++ u ++ 0#4 : BitVec 32).extractLsb' 10 22 = 0#22 :=
  (above _ _ _ _ (by decide)).trans ((above _ _ _ _ (by decide)).trans ((above _ _ _ _ (by decide)).trans (BitVec.extractLsb'_eq_self)))
theorem cvtpWord_1 (t : BitVec 2) (u : BitVec 4) : (0#22 ++ t ++ u ++ 0#4 : BitVec 32).extractLsb' 8 2 = t :=
  (above _ _ _ _ (by decide)).trans ((above _ _ _ _ (by decide)).trans ((below _ _ _ _ (by decide)).trans BitVec.extractLsb'_eq_self))
theorem cvtpWord_2 (t : BitVec 2) (u : BitVec 4) : (0#22 ++ t ++ u ++ 0#4 : BitVec 32).extractLsb' 4 4 = u :=
  (above _ _ _ _ (by decide)).trans ((below _ _ _ _ (by decide)).trans BitVec.extractLsb'_eq_self)
theorem cvtpWord_3 (t : BitVec 2) (u : BitVec 4) : (0#22 ++ t ++ u ++ 0#4 : BitVec 32).extractLsb' 0 4 = 0#4 :=
  (below _ _ _ _ (by decide)).trans BitVec.extractLsb'_eq_self
theorem gatherWord_0 (n : BitVec 16) (m : BitVec 8) : (0#8 ++ n ++ m : BitVec 32).extractLsb' 24 8 = 0#8 :=
  (above _ _ _ _ (by decide)).trans ((above _ _ _ _ (by decide)).trans (BitVec.extractLsb'_eq_self))
theorem gatherWord_1 (n : BitVec 16) (m : BitVec 8) : (0#8 ++ n ++ m : BitVec 32).extractLsb' 8 16 = n :=
  (above _ _ _ _ (by decide)).trans ((below _ _ _ _ (by decide)).trans BitVec.extractLsb'_eq_self)
theorem gatherWord_2 (n : BitVec 16) (m : BitVec 8) : (0#8 ++ n ++ m : BitVec 32).extractLsb' 0 8 = m :=
  (below _ _ _ _ (by decide)).trans BitVec.extractLsb'_eq_self
theorem cpy2gWord2_0 (p : BitVec 20) (e : BitVec 2) (m : BitVec 8) : (p ++ 0#2 ++ e ++ m : BitVec 32).extractLsb' 12 20 = p :=
  (above _ _ _ _ (by decide)).trans ((above _ _ _ _ (by decide)).trans ((above _ _ _ _ (by decide)).trans (BitVec.extractLsb'_eq_self)))
theorem cpy2gWord2_1 (p : BitVec 20) (e : BitVec 2) (m : BitVec 8) : (p ++ 0#2 ++ e ++ m : BitVec 32).extractLsb' 10 2 = 0#2 :=
  (above _ _ _ _ (by decide)).trans ((above _ _ _ _ (by decide)).trans ((below _ _ _ _ (by decide)).trans BitVec.extractLsb'_eq_self))
theorem cpy2gWord2_2 (p : BitVec 20) (e : BitVec 2) (m : BitVec 8) : (p ++ 0#2 ++ e ++ m : BitVec 32).extractLsb' 8 2 = e :=
  (above _ _ _ _ (by decide)).trans ((below _ _ _ _ (by decide)).trans BitVec.extractLsb'_eq_self)
theorem cpy2gWord2_3 (p : BitVec 20) (e : BitVec 2) (m : BitVec 8) : (p ++ 0#2 ++ e ++ m : BitVec 32).extractLsb' 0 8 = m :=
  (below _ _ _ _ (by decide)).trans BitVec.extractLsb'_eq_self
theorem cpy2gWord3_0 (n : BitVec 12) (h : BitVec 8) (w : BitVec 8) : (0#4 ++ n ++ h ++ w : BitVec 32).extractLsb' 28 4 = 0#4 :=
  (above _ _ _ _ (by decide)).trans ((above _ _ _ _ (by decide)).trans ((above _ _ _ _ (by decide)).trans (BitVec.extractLsb'_eq_self)))
theorem cpy2gWord3_1 (n : BitVec 12) (h : BitVec 8) (w : BitVec 8) : (0#4 ++ n ++ h ++ w : BitVec 32).extractLsb' 16 12 = n :=
  (above _ _ _ _ (by decide)).trans ((above _ _ _ _ (by decide)).trans ((below _ _ _ _ (by decide)).trans BitVec.extractLsb'_eq_self))
theorem cpy2gWord3_2 (n : BitVec 12) (h : BitVec 8) (w : BitVec 8) : (0#4 ++ n ++ h ++ w : BitVec 32).extractLsb' 8 8 = h :=
  (above _ _ _ _ (by decide)).trans ((below _ _ _ _ (by decide)).trans BitVec.extractLsb'_eq_self)
theorem cpy2gWord3_3 (n : BitVec 12) (h : BitVec 8) (w : BitVec 8) : (0#4 ++ n ++ h ++ w : BitVec 32).extractLsb' 0 8 = w :=
  (below _ _ _ _ (by decide)).trans BitVec.extractLsb'_eq_self
theorem cpytWord2_0 (p : BitVec 16) (r : BitVec 2) (t : BitVec 6) (m : BitVec 8) : (p ++ r ++ t ++ m : BitVec 32).extractLsb' 16 16 = p :=
  (above _ _ _ _ (by decide)).trans ((above _ _ _ _ (by decide)).trans ((above _ _ _ _ (by decide)).trans (BitVec.extractLsb'_eq_self)))
theorem cpytWord2_1 (p : BitVec 16) (r : BitVec 2) (t : BitVec 6) (m : BitVec 8) : (p ++ r ++ t ++ m : BitVec 32).extractLsb' 14 2 = r :=
  (above _ _ _ _ (by decide)).trans ((above _ _ _ _ (by decide)).trans ((below _ _ _ _ (by decide)).trans BitVec.extractLsb'_eq_self))
theorem cpytWord2_2 (p : BitVec 16) (r : BitVec 2) (t : BitVec 6) (m : BitVec 8) : (p ++ r ++ t ++ m : BitVec 32).extractLsb' 8 6 = t :=
  (above _ _ _ _ (by decide)).trans ((below _ _ _ _ (by decide)).trans BitVec.extractLsb'_eq_self)
theorem cpytWord2_3 (p : BitVec 16) (r : BitVec 2) (t : BitVec 6) (m : BitVec 8) : (p ++ r ++ t ++ m : BitVec 32).extractLsb' 0 8 = m :=
  (below _ _ _ _ (by decide)).trans BitVec.extractLsb'_eq_self
theorem cpytWord3_0 (p : BitVec 20) (n : BitVec 12) : (p ++ n : BitVec 32).extractLsb' 12 20 = p :=
  (above _ _ _ _ (by decide)).trans (BitVec.extractLsb'_eq_self)
theorem cpytWord3_1 (p : BitVec 20) (n : BitVec 12) : (p ++ n : BitVec 32).extractLsb' 0 12 = n :=
  (below _ _ _ _ (by decide)).trans BitVec.extractLsb'_eq_self
theorem fredWord3_0 (e : BitVec 8) (n : BitVec 16) : (0#8 ++ e ++ n : BitVec 32).extractLsb' 24 8 = 0#8 :=
  (above _ _ _ _ (by decide)).trans ((above _ _ _ _ (by decide)).trans (BitVec.extractLsb'_eq_self))
theorem fredWord3_1 (e : BitVec 8) (n : BitVec 16) : (0#8 ++ e ++ n : BitVec 32).extractLsb' 16 8 = e :=
  (above _ _ _ _ (by decide)).trans ((below _ _ _ _ (by decide)).trans BitVec.extractLsb'_eq_self)
theorem fredWord3_2 (e : BitVec 8) (n : BitVec 16) : (0#8 ++ e ++ n : BitVec 32).extractLsb' 0 16 = n :=
  (below _ _ _ _ (by decide)).trans BitVec.extractLsb'_eq_self
theorem loopWord2_0 (v : BitVec 1) (f : BitVec 3) (u : BitVec 1) (t : BitVec 3) (n : BitVec 12) : (0#12 ++ v ++ f ++ u ++ t ++ n : BitVec 32).extractLsb' 20 12 = 0#12 :=
  (above _ _ _ _ (by decide)).trans ((above _ _ _ _ (by decide)).trans ((above _ _ _ _ (by decide)).trans ((above _ _ _ _ (by decide)).trans ((above _ _ _ _ (by decide)).trans (BitVec.extractLsb'_eq_self)))))
theorem loopWord2_1 (v : BitVec 1) (f : BitVec 3) (u : BitVec 1) (t : BitVec 3) (n : BitVec 12) : (0#12 ++ v ++ f ++ u ++ t ++ n : BitVec 32).extractLsb' 19 1 = v :=
  (above _ _ _ _ (by decide)).trans ((above _ _ _ _ (by decide)).trans ((above _ _ _ _ (by decide)).trans ((above _ _ _ _ (by decide)).trans ((below _ _ _ _ (by decide)).trans BitVec.extractLsb'_eq_self))))
theorem loopWord2_2 (v : BitVec 1) (f : BitVec 3) (u : BitVec 1) (t : BitVec 3) (n : BitVec 12) : (0#12 ++ v ++ f ++ u ++ t ++ n : BitVec 32).extractLsb' 16 3 = f :=
  (above _ _ _ _ (by decide)).trans ((above _ _ _ _ (by decide)).trans ((above _ _ _ _ (by decide)).trans ((below _ _ _ _ (by decide)).trans BitVec.extractLsb'_eq_self)))
theorem loopWord2_3 (v : BitVec 1) (f : BitVec 3) (u : BitVec 1) (t : BitVec 3) (n : BitVec 12) : (0#12 ++ v ++ f ++ u ++ t ++ n : BitVec 32).extractLsb' 15 1 = u :=
  (above _ _ _ _ (by decide)).trans ((above _ _ _ _ (by decide)).trans ((below _ _ _ _ (by decide)).trans BitVec.extractLsb'_eq_self))
theorem loopWord2_4 (v : BitVec 1) (f : BitVec 3) (u : BitVec 1) (t : BitVec 3) (n : BitVec 12) : (0#12 ++ v ++ f ++ u ++ t ++ n : BitVec 32).extractLsb' 12 3 = t :=
  (above _ _ _ _ (by decide)).trans ((below _ _ _ _ (by decide)).trans BitVec.extractLsb'_eq_self)
theorem loopWord2_5 (v : BitVec 1) (f : BitVec 3) (u : BitVec 1) (t : BitVec 3) (n : BitVec 12) : (0#12 ++ v ++ f ++ u ++ t ++ n : BitVec 32).extractLsb' 0 12 = n :=
  (below _ _ _ _ (by decide)).trans BitVec.extractLsb'_eq_self
theorem convWord2_0 (v : BitVec 1) (t : BitVec 3) : (0#16 ++ v ++ t ++ 0#12 : BitVec 32).extractLsb' 16 16 = 0#16 :=
  (above _ _ _ _ (by decide)).trans ((above _ _ _ _ (by decide)).trans ((above _ _ _ _ (by decide)).trans (BitVec.extractLsb'_eq_self)))
theorem convWord2_1 (v : BitVec 1) (t : BitVec 3) : (0#16 ++ v ++ t ++ 0#12 : BitVec 32).extractLsb' 15 1 = v :=
  (above _ _ _ _ (by decide)).trans ((above _ _ _ _ (by decide)).trans ((below _ _ _ _ (by decide)).trans BitVec.extractLsb'_eq_self))
theorem convWord2_2 (v : BitVec 1) (t : BitVec 3) : (0#16 ++ v ++ t ++ 0#12 : BitVec 32).extractLsb' 12 3 = t :=
  (above _ _ _ _ (by decide)).trans ((below _ _ _ _ (by decide)).trans BitVec.extractLsb'_eq_self)
theorem convWord2_3 (v : BitVec 1) (t : BitVec 3) : (0#16 ++ v ++ t ++ 0#12 : BitVec 32).extractLsb' 0 12 = 0#12 :=
  (below _ _ _ _ (by decide)).trans BitVec.extractLsb'_eq_self
theorem chainWord2_0 (o : BitVec 24) (m : BitVec 8) : (o ++ m : BitVec 32).extractLsb' 8 24 = o :=
  (above _ _ _ _ (by decide)).trans (BitVec.extractLsb'_eq_self)
theorem chainWord2_1 (o : BitVec 24) (m : BitVec 8) : (o ++ m : BitVec 32).extractLsb' 0 8 = m :=
  (below _ _ _ _ (by decide)).trans BitVec.extractLsb'_eq_self
theorem nib_0 (q : BitVec 4) : (0#4 ++ q : BitVec 8).extractLsb' 4 4 = 0#4 :=
  (above _ _ _ _ (by decide)).trans (BitVec.extractLsb'_eq_self)
theorem nib_1 (q : BitVec 4) : (0#4 ++ q : BitVec 8).extractLsb' 0 4 = q :=
  (below _ _ _ _ (by decide)).trans BitVec.extractLsb'_eq_self
theorem subHi1_0 (s : BitVec 1) (v : BitVec 3) : (s ++ v : BitVec 4).extractLsb' 3 1 = s :=
  (above _ _ _ _ (by decide)).trans (BitVec.extractLsb'_eq_self)
theorem subHi1_1 (s : BitVec 1) (v : BitVec 3) : (s ++ v : BitVec 4).extractLsb' 0 3 = v :=
  (below _ _ _ _ (by decide)).trans BitVec.extractLsb'_eq_self
theorem subLo1_0 (v : BitVec 3) (s : BitVec 1) : (v ++ s : BitVec 4).extractLsb' 1 3 = v :=
  (above _ _ _ _ (by decide)).trans (BitVec.extractLsb'_eq_self)
theorem subLo1_1 (v : BitVec 3) (s : BitVec 1) : (v ++ s : BitVec 4).extractLsb' 0 1 = s :=
  (below _ _ _ _ (by decide)).trans BitVec.extractLsb'_eq_self
theorem lowTwo_0 (u : BitVec 1) (v : BitVec 1) : (0#2 ++ u ++ v : BitVec 4).extractLsb' 2 2 = 0#2 :=
  (above _ _ _ _ (by decide)).trans ((above _ _ _ _ (by decide)).trans (BitVec.extractLsb'_eq_self))
theorem lowTwo_1 (u : BitVec 1) (v : BitVec 1) : (0#2 ++ u ++ v : BitVec 4).extractLsb' 1 1 = u :=
  (above _ _ _ _ (by decide)).trans ((below _ _ _ _ (by decide)).trans BitVec.extractLsb'_eq_self)
theorem lowTwo_2 (u : BitVec 1) (v : BitVec 1) : (0#2 ++ u ++ v : BitVec 4).extractLsb' 0 1 = v :=
  (below _ _ _ _ (by decide)).trans BitVec.extractLsb'_eq_self
theorem atomSub_0 (u : BitVec 1) (v : BitVec 1) : (u ++ 0#2 ++ v : BitVec 4).extractLsb' 3 1 = u :=
  (above _ _ _ _ (by decide)).trans ((above _ _ _ _ (by decide)).trans (BitVec.extractLsb'_eq_self))
theorem atomSub_1 (u : BitVec 1) (v : BitVec 1) : (u ++ 0#2 ++ v : BitVec 4).extractLsb' 1 2 = 0#2 :=
  (above _ _ _ _ (by decide)).trans ((below _ _ _ _ (by decide)).trans BitVec.extractLsb'_eq_self)
theorem atomSub_2 (u : BitVec 1) (v : BitVec 1) : (u ++ 0#2 ++ v : BitVec 4).extractLsb' 0 1 = v :=
  (below _ _ _ _ (by decide)).trans BitVec.extractLsb'_eq_self
theorem rndSub_0 (s : BitVec 1) (r : BitVec 2) : (0#1 ++ s ++ r : BitVec 4).extractLsb' 3 1 = 0#1 :=
  (above _ _ _ _ (by decide)).trans ((above _ _ _ _ (by decide)).trans (BitVec.extractLsb'_eq_self))
theorem rndSub_1 (s : BitVec 1) (r : BitVec 2) : (0#1 ++ s ++ r : BitVec 4).extractLsb' 2 1 = s :=
  (above _ _ _ _ (by decide)).trans ((below _ _ _ _ (by decide)).trans BitVec.extractLsb'_eq_self)
theorem rndSub_2 (s : BitVec 1) (r : BitVec 2) : (0#1 ++ s ++ r : BitVec 4).extractLsb' 0 2 = r :=
  (below _ _ _ _ (by decide)).trans BitVec.extractLsb'_eq_self
theorem halfSub_0 (s : BitVec 1) (r : BitVec 2) (b : BitVec 1) : (s ++ r ++ b : BitVec 4).extractLsb' 3 1 = s :=
  (above _ _ _ _ (by decide)).trans ((above _ _ _ _ (by decide)).trans (BitVec.extractLsb'_eq_self))
theorem halfSub_1 (s : BitVec 1) (r : BitVec 2) (b : BitVec 1) : (s ++ r ++ b : BitVec 4).extractLsb' 1 2 = r :=
  (above _ _ _ _ (by decide)).trans ((below _ _ _ _ (by decide)).trans BitVec.extractLsb'_eq_self)
theorem halfSub_2 (s : BitVec 1) (r : BitVec 2) (b : BitVec 1) : (s ++ r ++ b : BitVec 4).extractLsb' 0 1 = b :=
  (below _ _ _ _ (by decide)).trans BitVec.extractLsb'_eq_self
theorem cmdBits_0 (v : BitVec 1) (u : BitVec 1) (t : BitVec 3) : (v ++ u ++ 0#3 ++ t : BitVec 8).extractLsb' 7 1 = v :=
  (above _ _ _ _ (by decide)).trans ((above _ _ _ _ (by decide)).trans ((above _ _ _ _ (by decide)).trans (BitVec.extractLsb'_eq_self)))
theorem cmdBits_1 (v : BitVec 1) (u : BitVec 1) (t : BitVec 3) : (v ++ u ++ 0#3 ++ t : BitVec 8).extractLsb' 6 1 = u :=
  (above _ _ _ _ (by decide)).trans ((above _ _ _ _ (by decide)).trans ((below _ _ _ _ (by decide)).trans BitVec.extractLsb'_eq_self))
theorem cmdBits_2 (v : BitVec 1) (u : BitVec 1) (t : BitVec 3) : (v ++ u ++ 0#3 ++ t : BitVec 8).extractLsb' 3 3 = 0#3 :=
  (above _ _ _ _ (by decide)).trans ((below _ _ _ _ (by decide)).trans BitVec.extractLsb'_eq_self)
theorem cmdBits_3 (v : BitVec 1) (u : BitVec 1) (t : BitVec 3) : (v ++ u ++ 0#3 ++ t : BitVec 8).extractLsb' 0 3 = t :=
  (below _ _ _ _ (by decide)).trans BitVec.extractLsb'_eq_self
theorem memBits_0 (o : BitVec 20) (r : BitVec 4) (e : BitVec 3) (s : BitVec 3) (d : BitVec 2) : (o ++ r ++ e ++ s ++ d : BitVec 32).extractLsb' 12 20 = o :=
  (above _ _ _ _ (by decide)).trans ((above _ _ _ _ (by decide)).trans ((above _ _ _ _ (by decide)).trans ((above _ _ _ _ (by decide)).trans (BitVec.extractLsb'_eq_self))))
theorem memBits_1 (o : BitVec 20) (r : BitVec 4) (e : BitVec 3) (s : BitVec 3) (d : BitVec 2) : (o ++ r ++ e ++ s ++ d : BitVec 32).extractLsb' 8 4 = r :=
  (above _ _ _ _ (by decide)).trans ((above _ _ _ _ (by decide)).trans ((above _ _ _ _ (by decide)).trans ((below _ _ _ _ (by decide)).trans BitVec.extractLsb'_eq_self)))
theorem memBits_2 (o : BitVec 20) (r : BitVec 4) (e : BitVec 3) (s : BitVec 3) (d : BitVec 2) : (o ++ r ++ e ++ s ++ d : BitVec 32).extractLsb' 5 3 = e :=
  (above _ _ _ _ (by decide)).trans ((above _ _ _ _ (by decide)).trans ((below _ _ _ _ (by decide)).trans BitVec.extractLsb'_eq_self))
theorem memBits_3 (o : BitVec 20) (r : BitVec 4) (e : BitVec 3) (s : BitVec 3) (d : BitVec 2) : (o ++ r ++ e ++ s ++ d : BitVec 32).extractLsb' 2 3 = s :=
  (above _ _ _ _ (by decide)).trans ((below _ _ _ _ (by decide)).trans BitVec.extractLsb'_eq_self)
theorem memBits_4 (o : BitVec 20) (r : BitVec 4) (e : BitVec 3) (s : BitVec 3) (d : BitVec 2) : (o ++ r ++ e ++ s ++ d : BitVec 32).extractLsb' 0 2 = d :=
  (below _ _ _ _ (by decide)).trans BitVec.extractLsb'_eq_self
theorem chain_ops (o : BitVec 56) : (o.extractLsb' 24 32 ++ o.extractLsb' 0 24 : BitVec 56) = o := by
  ext i hi
  rw [BitVec.getElem_append]
  split_ifs <;> (rw [BitVec.getElem_extractLsb']; show BitVec.getLsbD _ _ = BitVec.getLsbD _ i; congr 1; omega)

theorem sys_index (o : BitVec 12) : (o.extractLsb' 8 4 ++ o.extractLsb' 0 8 : BitVec 12) = o := by
  ext i hi
  rw [BitVec.getElem_append]
  split_ifs <;> (rw [BitVec.getElem_extractLsb']; show BitVec.getLsbD _ _ = BitVec.getLsbD _ i; congr 1; omega)

theorem one_bit1 (b : Bool) : isOne (bit1 b) = b := by cases b <;> rfl

theorem cmd_bits (m : CmdByte) : CmdByte.ofBits m.bits = some m := by
  cases m with | mk bv tv tok =>
  simp only [CmdByte.ofBits, CmdByte.bits, cmdBits_0, cmdBits_1, cmdBits_2, cmdBits_3, one_bit1]
  rfl

theorem mem_bits (m : MemWord) : MemWord.ofBits m.bits = some m := by
  cases m with | mk off rc evict scope ord =>
  simp only [MemWord.ofBits, MemWord.bits, memBits_0, memBits_1, memBits_2, memBits_3, memBits_4]
  cases scope <;> cases ord <;> rfl

/-! ## Groups -/

theorem of_group0 {i : Instr} (g : Fields) (he : encodeFields i = some g) (hg : g.grp = 0#4)
    (h : i.wf = true → g.group0 = some i) : Statement i :=
  of_shape g he fun hw => (show g.shape = g.group0 by unfold Fields.shape; rw [hg]; rfl).trans (h hw)
theorem of_group1 {i : Instr} (g : Fields) (he : encodeFields i = some g) (hg : g.grp = 1#4)
    (h : i.wf = true → g.group1 = some i) : Statement i :=
  of_shape g he fun hw => (show g.shape = g.group1 by unfold Fields.shape; rw [hg]; rfl).trans (h hw)
theorem of_group2 {i : Instr} (g : Fields) (he : encodeFields i = some g) (hg : g.grp = 2#4)
    (h : i.wf = true → g.group2 = some i) : Statement i :=
  of_shape g he fun hw => (show g.shape = g.group2 by unfold Fields.shape; rw [hg]; rfl).trans (h hw)
theorem of_group3 {i : Instr} (g : Fields) (he : encodeFields i = some g) (hg : g.grp = 3#4)
    (h : i.wf = true → g.group3 = some i) : Statement i :=
  of_shape g he fun hw => (show g.shape = g.group3 by unfold Fields.shape; rw [hg]; rfl).trans (h hw)
theorem of_group4 {i : Instr} (g : Fields) (he : encodeFields i = some g) (hg : g.grp = 4#4)
    (h : i.wf = true → g.group4 = some i) : Statement i :=
  of_shape g he fun hw => (show g.shape = g.group4 by unfold Fields.shape; rw [hg]; rfl).trans (h hw)
theorem of_group5 {i : Instr} (g : Fields) (he : encodeFields i = some g) (hg : g.grp = 5#4)
    (h : i.wf = true → g.group5 = some i) : Statement i :=
  of_shape g he fun hw => (show g.shape = g.group5 by unfold Fields.shape; rw [hg]; rfl).trans (h hw)
theorem of_group6 {i : Instr} (g : Fields) (he : encodeFields i = some g) (hg : g.grp = 6#4)
    (h : i.wf = true → g.group6 = some i) : Statement i :=
  of_shape g he fun hw => (show g.shape = g.group6 by unfold Fields.shape; rw [hg]; rfl).trans (h hw)
theorem of_group7 {i : Instr} (g : Fields) (he : encodeFields i = some g) (hg : g.grp = 7#4)
    (h : i.wf = true → g.group7 = some i) : Statement i :=
  of_shape g he fun hw => (show g.shape = g.group7 by unfold Fields.shape; rw [hg]; rfl).trans (h hw)
theorem of_group8 {i : Instr} (g : Fields) (he : encodeFields i = some g) (hg : g.grp = 8#4)
    (h : i.wf = true → g.group8 = some i) : Statement i :=
  of_shape g he fun hw => (show g.shape = g.group8 by unfold Fields.shape; rw [hg]; rfl).trans (h hw)
theorem of_group9 {i : Instr} (g : Fields) (he : encodeFields i = some g) (hg : g.grp = 9#4)
    (h : i.wf = true → g.group9 = some i) : Statement i :=
  of_shape g he fun hw => (show g.shape = g.group9 by unfold Fields.shape; rw [hg]; rfl).trans (h hw)
theorem of_groupA {i : Instr} (g : Fields) (he : encodeFields i = some g) (hg : g.grp = 10#4)
    (h : i.wf = true → g.groupA = some i) : Statement i :=
  of_shape g he fun hw => (show g.shape = g.groupA by unfold Fields.shape; rw [hg]; rfl).trans (h hw)
theorem of_groupB {i : Instr} (g : Fields) (he : encodeFields i = some g) (hg : g.grp = 11#4)
    (h : i.wf = true → g.groupB = some i) : Statement i :=
  of_shape g he fun hw => (show g.shape = g.groupB by unfold Fields.shape; rw [hg]; rfl).trans (h hw)
theorem of_groupC {i : Instr} (g : Fields) (he : encodeFields i = some g) (hg : g.grp = 12#4)
    (h : i.wf = true → g.groupC = some i) : Statement i :=
  of_shape g he fun hw => (show g.shape = g.groupC by unfold Fields.shape; rw [hg]; rfl).trans (h hw)
theorem of_groupD {i : Instr} (g : Fields) (he : encodeFields i = some g) (hg : g.grp = 13#4)
    (h : i.wf = true → g.groupD = some i) : Statement i :=
  of_shape g he fun hw => (show g.shape = g.groupD by unfold Fields.shape; rw [hg]; rfl).trans (h hw)
theorem of_groupE {i : Instr} (g : Fields) (he : encodeFields i = some g) (hg : g.grp = 14#4)
    (h : i.wf = true → g.groupE = some i) : Statement i :=
  of_shape g he fun hw => (show g.shape = g.groupE by unfold Fields.shape; rw [hg]; rfl).trans (h hw)
theorem of_groupF {i : Instr} (g : Fields) (he : encodeFields i = some g) (hg : g.grp = 15#4)
    (h : i.wf = true → g.groupF = some i) : Statement i :=
  of_shape g he fun hw => (show g.shape = g.groupF by unfold Fields.shape; rw [hg]; rfl).trans (h hw)

/-! ## Instructions -/

theorem iadd (c : Ctl) (sat : Bool) (d : Spec) (a : Spec) (b : Spec) : Statement (.iadd c sat d a b) := by
  refine of_shape _ rfl fun hw => ?_
  obtain ⟨w0, n0, p0, s0⟩ := c
  cases n0 <;> cases sat <;> first | rfl | exact (Bool.false_ne_true hw).elim
theorem iaddImm (c : Ctl) (sat : Bool) (d : Spec) (a : Spec) (imm : W32) : Statement (.iaddImm c sat d a imm) := by
  refine of_shape _ rfl fun hw => ?_
  obtain ⟨w0, n0, p0, s0⟩ := c
  cases n0 <;> cases sat <;> first | rfl | exact (Bool.false_ne_true hw).elim
theorem isub (c : Ctl) (sat : Bool) (d : Spec) (a : Spec) (b : Spec) : Statement (.isub c sat d a b) := by
  refine of_shape _ rfl fun hw => ?_
  obtain ⟨w0, n0, p0, s0⟩ := c
  cases n0 <;> cases sat <;> first | rfl | exact (Bool.false_ne_true hw).elim
theorem isubImm (c : Ctl) (sat : Bool) (d : Spec) (a : Spec) (imm : W32) : Statement (.isubImm c sat d a imm) := by
  refine of_shape _ rfl fun hw => ?_
  obtain ⟨w0, n0, p0, s0⟩ := c
  cases n0 <;> cases sat <;> first | rfl | exact (Bool.false_ne_true hw).elim
theorem iaddc (c : Ctl) (d : Spec) (a : Spec) (b : Spec) (p : Spec) : Statement (.iaddc c d a b p) := by
  refine of_shape _ rfl fun hw => ?_
  obtain ⟨w0, n0, p0, s0⟩ := c
  cases n0 <;> first | rfl | exact (Bool.false_ne_true hw).elim
theorem iaddcImm (c : Ctl) (d : Spec) (a : Spec) (imm : W32) (p : Spec) : Statement (.iaddcImm c d a imm p) := by
  refine of_shape _ rfl fun hw => ?_
  obtain ⟨w0, n0, p0, s0⟩ := c
  cases n0 <;> first | rfl | exact (Bool.false_ne_true hw).elim
theorem imul (c : Ctl) (d : Spec) (a : Spec) (b : Spec) : Statement (.imul c d a b) := by
  refine of_shape _ rfl fun hw => ?_
  obtain ⟨w0, n0, p0, s0⟩ := c
  cases n0 <;> first | rfl | exact (Bool.false_ne_true hw).elim
theorem imulImm (c : Ctl) (d : Spec) (a : Spec) (imm : W32) : Statement (.imulImm c d a imm) := by
  refine of_shape _ rfl fun hw => ?_
  obtain ⟨w0, n0, p0, s0⟩ := c
  cases n0 <;> first | rfl | exact (Bool.false_ne_true hw).elim
theorem imulh (c : Ctl) (sg : Bool) (d : Spec) (a : Spec) (b : Spec) : Statement (.imulh c sg d a b) := by
  refine of_shape _ rfl fun hw => ?_
  obtain ⟨w0, n0, p0, s0⟩ := c
  cases n0 <;> cases sg <;> first | rfl | exact (Bool.false_ne_true hw).elim
theorem imulhImm (c : Ctl) (sg : Bool) (d : Spec) (a : Spec) (imm : W32) : Statement (.imulhImm c sg d a imm) := by
  refine of_shape _ rfl fun hw => ?_
  obtain ⟨w0, n0, p0, s0⟩ := c
  cases n0 <;> cases sg <;> first | rfl | exact (Bool.false_ne_true hw).elim
theorem imad (c : Ctl) (d : Spec) (a : Spec) (b : Spec) (x : Spec) : Statement (.imad c d a b x) := by
  refine of_shape _ rfl fun hw => ?_
  obtain ⟨w0, n0, p0, s0⟩ := c
  cases n0 <;> first | rfl | exact (Bool.false_ne_true hw).elim
theorem imadw (c : Ctl) (sg : Bool) (d : Spec) (a : Spec) (b : Spec) (x : Spec) : Statement (.imadw c sg d a b x) := by
  refine of_shape _ rfl fun hw => ?_
  obtain ⟨w0, n0, p0, s0⟩ := c
  cases n0 <;> cases sg <;> first | rfl | exact (Bool.false_ne_true hw).elim
theorem idiv (c : Ctl) (sg : Bool) (d : Spec) (a : Spec) (b : Spec) : Statement (.idiv c sg d a b) := by
  refine of_shape _ rfl fun hw => ?_
  obtain ⟨w0, n0, p0, s0⟩ := c
  cases n0 <;> cases sg <;> first | rfl | exact (Bool.false_ne_true hw).elim
theorem idivImm (c : Ctl) (sg : Bool) (d : Spec) (a : Spec) (imm : W32) : Statement (.idivImm c sg d a imm) := by
  refine of_shape _ rfl fun hw => ?_
  obtain ⟨w0, n0, p0, s0⟩ := c
  cases n0 <;> cases sg <;> first | rfl | exact (Bool.false_ne_true hw).elim
theorem irem (c : Ctl) (sg : Bool) (d : Spec) (a : Spec) (b : Spec) : Statement (.irem c sg d a b) := by
  refine of_shape _ rfl fun hw => ?_
  obtain ⟨w0, n0, p0, s0⟩ := c
  cases n0 <;> cases sg <;> first | rfl | exact (Bool.false_ne_true hw).elim
theorem iremImm (c : Ctl) (sg : Bool) (d : Spec) (a : Spec) (imm : W32) : Statement (.iremImm c sg d a imm) := by
  refine of_shape _ rfl fun hw => ?_
  obtain ⟨w0, n0, p0, s0⟩ := c
  cases n0 <;> cases sg <;> first | rfl | exact (Bool.false_ne_true hw).elim
theorem imin (c : Ctl) (sg : Bool) (d : Spec) (a : Spec) (b : Spec) : Statement (.imin c sg d a b) := by
  refine of_shape _ rfl fun hw => ?_
  obtain ⟨w0, n0, p0, s0⟩ := c
  cases n0 <;> cases sg <;> first | rfl | exact (Bool.false_ne_true hw).elim
theorem iminImm (c : Ctl) (sg : Bool) (d : Spec) (a : Spec) (imm : W32) : Statement (.iminImm c sg d a imm) := by
  refine of_shape _ rfl fun hw => ?_
  obtain ⟨w0, n0, p0, s0⟩ := c
  cases n0 <;> cases sg <;> first | rfl | exact (Bool.false_ne_true hw).elim
theorem imax (c : Ctl) (sg : Bool) (d : Spec) (a : Spec) (b : Spec) : Statement (.imax c sg d a b) := by
  refine of_shape _ rfl fun hw => ?_
  obtain ⟨w0, n0, p0, s0⟩ := c
  cases n0 <;> cases sg <;> first | rfl | exact (Bool.false_ne_true hw).elim
theorem imaxImm (c : Ctl) (sg : Bool) (d : Spec) (a : Spec) (imm : W32) : Statement (.imaxImm c sg d a imm) := by
  refine of_shape _ rfl fun hw => ?_
  obtain ⟨w0, n0, p0, s0⟩ := c
  cases n0 <;> cases sg <;> first | rfl | exact (Bool.false_ne_true hw).elim
theorem iabs (c : Ctl) (sat : Bool) (d : Spec) (a : Spec) : Statement (.iabs c sat d a) := by
  refine of_shape _ rfl fun hw => ?_
  obtain ⟨w0, n0, p0, s0⟩ := c
  cases n0 <;> cases sat <;> first | rfl | exact (Bool.false_ne_true hw).elim
theorem ineg (c : Ctl) (sat : Bool) (d : Spec) (a : Spec) : Statement (.ineg c sat d a) := by
  refine of_shape _ rfl fun hw => ?_
  obtain ⟨w0, n0, p0, s0⟩ := c
  cases n0 <;> cases sat <;> first | rfl | exact (Bool.false_ne_true hw).elim
theorem iset (c : Ctl) (cmp : ICmp) (sg : Bool) (d : Spec) (a : Spec) (b : Spec) : Statement (.iset c cmp sg d a b) := by
  refine of_group0 _ rfl rfl fun hw => ?_
  obtain ⟨w0, n0, p0, s0⟩ := c
  cases n0 <;>
    simp only [Fields.group0, Fields.base, BitVec.toNat_ofNat, Nat.reducePow, Nat.reduceMod, Fields.three, Fields.sub31, sub31, Fields.regImm, subHi1_0, subHi1_1, one_bit1] <;> cases cmp <;> cases sg <;> first | rfl | exact (Bool.false_ne_true hw).elim
theorem isetImm (c : Ctl) (cmp : ICmp) (sg : Bool) (d : Spec) (a : Spec) (imm : W32) : Statement (.isetImm c cmp sg d a imm) := by
  refine of_group0 _ rfl rfl fun hw => ?_
  obtain ⟨w0, n0, p0, s0⟩ := c
  cases n0 <;>
    simp only [Fields.group0, Fields.base, BitVec.toNat_ofNat, Nat.reducePow, Nat.reduceMod, Fields.three, Fields.sub31, sub31, Fields.regImm, subHi1_0, subHi1_1, one_bit1] <;> cases cmp <;> cases sg <;> first | rfl | exact (Bool.false_ne_true hw).elim
theorem lea (c : Ctl) (sh : BitVec 3) (sx : Bool) (d : Spec) (a : Spec) (b : Spec) : Statement (.lea c sh sx d a b) := by
  refine of_group0 _ rfl rfl fun hw => ?_
  obtain ⟨w0, n0, p0, s0⟩ := c
  cases n0 <;>
    simp only [Fields.group0, Fields.base, BitVec.toNat_ofNat, Nat.reducePow, Nat.reduceMod, Fields.three, Fields.sub31, sub31, Fields.regImm, subHi1_0, subHi1_1, one_bit1] <;> cases sx <;> first | rfl | exact (Bool.false_ne_true hw).elim
theorem iadd64 (c : Ctl) (sat : Bool) (d : Spec) (a : Spec) (b : Spec) : Statement (.iadd64 c sat d a b) := by
  refine of_shape _ rfl fun hw => ?_
  obtain ⟨w0, n0, p0, s0⟩ := c
  cases n0 <;> cases sat <;> first | rfl | exact (Bool.false_ne_true hw).elim
theorem iadd64Imm (c : Ctl) (sat : Bool) (d : Spec) (a : Spec) (imm : W32) : Statement (.iadd64Imm c sat d a imm) := by
  refine of_shape _ rfl fun hw => ?_
  obtain ⟨w0, n0, p0, s0⟩ := c
  cases n0 <;> cases sat <;> first | rfl | exact (Bool.false_ne_true hw).elim
theorem ltab (c : Ctl) (d : Spec) (a : Spec) (b : Spec) (x : Spec) (ft : BitVec 8) : Statement (.ltab c d a b x ft) := by
  refine of_group1 _ rfl rfl fun hw => ?_
  obtain ⟨w0, n0, p0, s0⟩ := c
  cases n0 <;>
    simp only [Fields.group1, Fields.base, BitVec.toNat_ofNat, Nat.reducePow, Nat.reduceMod, Fields.sub0, lowByte_hi, lowByte_lo, one_bit1] <;> first | rfl | exact (Bool.false_ne_true hw).elim
theorem shl (c : Ctl) (wrap : Bool) (d : Spec) (a : Spec) (b : Spec) : Statement (.shl c wrap d a b) := by
  refine of_shape _ rfl fun hw => ?_
  obtain ⟨w0, n0, p0, s0⟩ := c
  cases n0 <;> cases wrap <;> first | rfl | exact (Bool.false_ne_true hw).elim
theorem shlImm (c : Ctl) (wrap : Bool) (d : Spec) (a : Spec) (imm : W32) : Statement (.shlImm c wrap d a imm) := by
  refine of_shape _ rfl fun hw => ?_
  obtain ⟨w0, n0, p0, s0⟩ := c
  cases n0 <;> cases wrap <;> first | rfl | exact (Bool.false_ne_true hw).elim
theorem shr (c : Ctl) (wrap : Bool) (d : Spec) (a : Spec) (b : Spec) : Statement (.shr c wrap d a b) := by
  refine of_shape _ rfl fun hw => ?_
  obtain ⟨w0, n0, p0, s0⟩ := c
  cases n0 <;> cases wrap <;> first | rfl | exact (Bool.false_ne_true hw).elim
theorem shrImm (c : Ctl) (wrap : Bool) (d : Spec) (a : Spec) (imm : W32) : Statement (.shrImm c wrap d a imm) := by
  refine of_shape _ rfl fun hw => ?_
  obtain ⟨w0, n0, p0, s0⟩ := c
  cases n0 <;> cases wrap <;> first | rfl | exact (Bool.false_ne_true hw).elim
theorem sar (c : Ctl) (wrap : Bool) (d : Spec) (a : Spec) (b : Spec) : Statement (.sar c wrap d a b) := by
  refine of_shape _ rfl fun hw => ?_
  obtain ⟨w0, n0, p0, s0⟩ := c
  cases n0 <;> cases wrap <;> first | rfl | exact (Bool.false_ne_true hw).elim
theorem sarImm (c : Ctl) (wrap : Bool) (d : Spec) (a : Spec) (imm : W32) : Statement (.sarImm c wrap d a imm) := by
  refine of_shape _ rfl fun hw => ?_
  obtain ⟨w0, n0, p0, s0⟩ := c
  cases n0 <;> cases wrap <;> first | rfl | exact (Bool.false_ne_true hw).elim
theorem rot (c : Ctl) (right : Bool) (d : Spec) (a : Spec) (b : Spec) : Statement (.rot c right d a b) := by
  refine of_shape _ rfl fun hw => ?_
  obtain ⟨w0, n0, p0, s0⟩ := c
  cases n0 <;> cases right <;> first | rfl | exact (Bool.false_ne_true hw).elim
theorem rotImm (c : Ctl) (right : Bool) (d : Spec) (a : Spec) (imm : W32) : Statement (.rotImm c right d a imm) := by
  refine of_shape _ rfl fun hw => ?_
  obtain ⟨w0, n0, p0, s0⟩ := c
  cases n0 <;> cases right <;> first | rfl | exact (Bool.false_ne_true hw).elim
theorem fshf (c : Ctl) (right : Bool) (d : Spec) (a : Spec) (b : Spec) (x : Spec) : Statement (.fshf c right d a b x) := by
  refine of_shape _ rfl fun hw => ?_
  obtain ⟨w0, n0, p0, s0⟩ := c
  cases n0 <;> cases right <;> first | rfl | exact (Bool.false_ne_true hw).elim
theorem popc (c : Ctl) (d : Spec) (a : Spec) : Statement (.popc c d a) := by
  refine of_shape _ rfl fun hw => ?_
  obtain ⟨w0, n0, p0, s0⟩ := c
  cases n0 <;> first | rfl | exact (Bool.false_ne_true hw).elim
theorem clz (c : Ctl) (d : Spec) (a : Spec) : Statement (.clz c d a) := by
  refine of_shape _ rfl fun hw => ?_
  obtain ⟨w0, n0, p0, s0⟩ := c
  cases n0 <;> first | rfl | exact (Bool.false_ne_true hw).elim
theorem brev (c : Ctl) (d : Spec) (a : Spec) : Statement (.brev c d a) := by
  refine of_shape _ rfl fun hw => ?_
  obtain ⟨w0, n0, p0, s0⟩ := c
  cases n0 <;> first | rfl | exact (Bool.false_ne_true hw).elim
theorem bfx (c : Ctl) (sg : Bool) (d : Spec) (a : Spec) (b : Spec) (x : Spec) : Statement (.bfx c sg d a b x) := by
  refine of_shape _ rfl fun hw => ?_
  obtain ⟨w0, n0, p0, s0⟩ := c
  cases n0 <;> cases sg <;> first | rfl | exact (Bool.false_ne_true hw).elim
theorem bfi (c : Ctl) (d : Spec) (a : Spec) (b : Spec) (x : Spec) : Statement (.bfi c d a b x) := by
  refine of_shape _ rfl fun hw => ?_
  obtain ⟨w0, n0, p0, s0⟩ := c
  cases n0 <;> first | rfl | exact (Bool.false_ne_true hw).elim
theorem ptab (c : Ctl) (d : Spec) (a : Spec) (b : Spec) (x : Spec) (ft : BitVec 8) : Statement (.ptab c d a b x ft) := by
  refine of_group1 _ rfl rfl fun hw => ?_
  obtain ⟨w0, n0, p0, s0⟩ := c
  cases n0 <;>
    simp only [Fields.group1, Fields.base, BitVec.toNat_ofNat, Nat.reducePow, Nat.reduceMod, Fields.sub0, lowByte_hi, lowByte_lo, one_bit1] <;> first | rfl | exact (Bool.false_ne_true hw).elim
theorem mov (c : Ctl) (wide : Bool) (d : Spec) (a : Spec) : Statement (.mov c wide d a) := by
  refine of_shape _ rfl fun hw => ?_
  obtain ⟨w0, n0, p0, s0⟩ := c
  cases n0 <;> cases wide <;> first | rfl | exact (Bool.false_ne_true hw).elim
theorem movi (c : Ctl) (d : Spec) (imm : W32) : Statement (.movi c d imm) := by
  refine of_shape _ rfl fun hw => ?_
  obtain ⟨w0, n0, p0, s0⟩ := c
  cases n0 <;> first | rfl | exact (Bool.false_ne_true hw).elim
theorem moviB64 (c : Ctl) (d : Spec) (lo : W32) (hi : W32) : Statement (.moviB64 c d lo hi) := by
  refine of_shape _ rfl fun hw => ?_
  obtain ⟨w0, n0, p0, s0⟩ := c
  cases n0 <;> first | rfl | exact (Bool.false_ne_true hw).elim
theorem movk (c : Ctl) (d : Spec) (a : Spec) (b : Spec) : Statement (.movk c d a b) := by
  refine of_shape _ rfl fun hw => ?_
  obtain ⟨w0, n0, p0, s0⟩ := c
  cases n0 <;> first | rfl | exact (Bool.false_ne_true hw).elim
theorem sel (c : Ctl) (wide : Bool) (d : Spec) (a : Spec) (b : Spec) (p : Spec) : Statement (.sel c wide d a b p) := by
  refine of_shape _ rfl fun hw => ?_
  obtain ⟨w0, n0, p0, s0⟩ := c
  cases n0 <;> cases wide <;> first | rfl | exact (Bool.false_ne_true hw).elim
theorem rdsp (c : Ctl) (d : Spec) (sp : Special) : Statement (.rdsp c d sp) := by
  refine of_shape _ rfl fun hw => ?_
  obtain ⟨w0, n0, p0, s0⟩ := c
  cases n0 <;> cases sp <;> first | rfl | exact (Bool.false_ne_true hw).elim
theorem cvti (c : Ctl) (op : CvtiOp) (d : Spec) (a : Spec) : Statement (.cvti c op d a) := by
  refine of_shape _ rfl fun hw => ?_
  obtain ⟨w0, n0, p0, s0⟩ := c
  cases n0 <;> cases op <;> first | rfl | exact (Bool.false_ne_true hw).elim
theorem bra (c : Ctl) (form : BraForm) (a : Spec) (off : W32) : Statement (.bra c form a off) := by
  refine of_shape _ rfl fun hw => ?_
  obtain ⟨w0, n0, p0, s0⟩ := c
  cases n0 <;> cases form <;> first | rfl | exact (Bool.false_ne_true hw).elim
theorem braHint (c : Ctl) (form : BraForm) (a : Spec) (off : W32) (h : Hint) : Statement (.braHint c form a off h) := by
  refine of_shape _ rfl fun hw => ?_
  obtain ⟨w0, n0, p0, s0⟩ := c
  cases n0 <;> cases form <;> cases h <;> first | rfl | exact (Bool.false_ne_true hw).elim
theorem brx (c : Ctl) (a : Spec) : Statement (.brx c a) := by
  refine of_shape _ rfl fun hw => ?_
  obtain ⟨w0, n0, p0, s0⟩ := c
  cases n0 <;> first | rfl | exact (Bool.false_ne_true hw).elim
theorem call (c : Ctl) (d : Spec) (off : W32) : Statement (.call c d off) := by
  refine of_shape _ rfl fun hw => ?_
  obtain ⟨w0, n0, p0, s0⟩ := c
  cases n0 <;> first | rfl | exact (Bool.false_ne_true hw).elim
theorem callHint (c : Ctl) (d : Spec) (off : W32) (h : Hint) : Statement (.callHint c d off h) := by
  refine of_shape _ rfl fun hw => ?_
  obtain ⟨w0, n0, p0, s0⟩ := c
  cases n0 <;> cases h <;> first | rfl | exact (Bool.false_ne_true hw).elim
theorem callx (c : Ctl) (d : Spec) (a : Spec) : Statement (.callx c d a) := by
  refine of_shape _ rfl fun hw => ?_
  obtain ⟨w0, n0, p0, s0⟩ := c
  cases n0 <;> first | rfl | exact (Bool.false_ne_true hw).elim
theorem ret (c : Ctl) (a : Spec) : Statement (.ret c a) := by
  refine of_shape _ rfl fun hw => ?_
  obtain ⟨w0, n0, p0, s0⟩ := c
  cases n0 <;> first | rfl | exact (Bool.false_ne_true hw).elim
theorem exit (c : Ctl) : Statement (.exit c) := by
  refine of_shape _ rfl fun hw => ?_
  obtain ⟨w0, n0, p0, s0⟩ := c
  cases n0 <;> first | rfl | exact (Bool.false_ne_true hw).elim
theorem enrol (c : Ctl) (j : Spec) : Statement (.enrol c j) := by
  refine of_shape _ rfl fun hw => ?_
  obtain ⟨w0, n0, p0, s0⟩ := c
  cases n0 <;> first | rfl | exact (Bool.false_ne_true hw).elim
theorem join (c : Ctl) (j : Spec) : Statement (.join c j) := by
  refine of_shape _ rfl fun hw => ?_
  obtain ⟨w0, n0, p0, s0⟩ := c
  cases n0 <;> first | rfl | exact (Bool.false_ne_true hw).elim
theorem reform (c : Ctl) : Statement (.reform c) := by
  refine of_shape _ rfl fun hw => ?_
  obtain ⟨w0, n0, p0, s0⟩ := c
  cases n0 <;> first | rfl | exact (Bool.false_ne_true hw).elim
theorem yield (c : Ctl) : Statement (.yield c) := by
  refine of_shape _ rfl fun hw => ?_
  obtain ⟨w0, n0, p0, s0⟩ := c
  cases n0 <;> first | rfl | exact (Bool.false_ne_true hw).elim
theorem nop (c : Ctl) : Statement (.nop c) := by
  refine of_shape _ rfl fun hw => ?_
  obtain ⟨w0, n0, p0, s0⟩ := c
  cases n0 <;> first | rfl | exact (Bool.false_ne_true hw).elim
theorem replay (c : Ctl) (id : BitVec 16) : Statement (.replay c id) := by
  refine of_group3 _ rfl rfl fun hw => ?_
  obtain ⟨w0, n0, p0, s0⟩ := c
  cases n0 <;>
    simp only [Fields.group3, Fields.base, BitVec.toNat_ofNat, Nat.reducePow, Nat.reduceMod, Fields.sub0, half16_0, half16_1, one_bit1] <;> first | rfl | exact (Bool.false_ne_true hw).elim
theorem shfl (c : Ctl) (mode : ShflMode) (wide : Bool) (d : Spec) (a : Spec) (b : Spec) (x : Spec) (v : Spec) : Statement (.shfl c mode wide d a b x v) := by
  refine of_group4 _ rfl rfl fun hw => ?_
  obtain ⟨w0, n0, p0, s0⟩ := c
  cases n0 <;>
    simp only [Fields.group4, Fields.base, BitVec.toNat_ofNat, Nat.reducePow, Nat.reduceMod, Fields.sub0, lowByte_hi, lowByte_lo, one_bit1] <;> cases mode <;> cases wide <;> first | rfl | exact (Bool.false_ne_true hw).elim
theorem vote (c : Ctl) (mode : VoteMode) (d : Spec) (a : Spec) : Statement (.vote c mode d a) := by
  refine of_shape _ rfl fun hw => ?_
  obtain ⟨w0, n0, p0, s0⟩ := c
  cases n0 <;> cases mode <;> first | rfl | exact (Bool.false_ne_true hw).elim
theorem redc (c : Ctl) (op : RedOp) (d : Spec) (a : Spec) (x : Spec) (v : Spec) : Statement (.redc c op d a x v) := by
  refine of_group4 _ rfl rfl fun hw => ?_
  obtain ⟨w0, n0, p0, s0⟩ := c
  cases n0 <;>
    simp only [Fields.group4, Fields.base, BitVec.toNat_ofNat, Nat.reducePow, Nat.reduceMod, Fields.sub0, lowByte_hi, lowByte_lo, one_bit1] <;> cases op <;> first | rfl | exact (Bool.false_ne_true hw).elim
theorem scan (c : Ctl) (op : RedOp) (excl : Bool) (d : Spec) (a : Spec) (x : Spec) (v : Spec) : Statement (.scan c op excl d a x v) := by
  refine of_group4 _ rfl rfl fun hw => ?_
  obtain ⟨w0, n0, p0, s0⟩ := c
  cases n0 <;>
    simp only [Fields.group4, Fields.base, BitVec.toNat_ofNat, Nat.reducePow, Nat.reduceMod, Fields.sub0, scanWord_0, scanWord_1, scanWord_2, one_bit1] <;> cases op <;> cases excl <;> first | rfl | exact (Bool.false_ne_true hw).elim
theorem matchLanes (c : Ctl) (wide : Bool) (d : Spec) (a : Spec) : Statement (.matchLanes c wide d a) := by
  refine of_shape _ rfl fun hw => ?_
  obtain ⟨w0, n0, p0, s0⟩ := c
  cases n0 <;> cases wide <;> first | rfl | exact (Bool.false_ne_true hw).elim
theorem fadd (c : Ctl) (rnd : Rnd) (sat : Bool) (d : Spec) (a : Spec) (b : Spec) : Statement (.fadd c rnd sat d a b) := by
  refine of_group5 _ rfl rfl fun hw => ?_
  obtain ⟨w0, n0, p0, s0⟩ := c
  cases n0 <;>
    simp only [Fields.group5, Fields.base, BitVec.toNat_ofNat, Nat.reducePow, Nat.reduceMod, Fields.subRnd, Fields.regImm, subRound, Fields.four, Fields.two, rndSub_0, rndSub_1, rndSub_2, one_bit1] <;> cases rnd <;> cases sat <;> first | rfl | exact (Bool.false_ne_true hw).elim
theorem faddImm (c : Ctl) (rnd : Rnd) (sat : Bool) (d : Spec) (a : Spec) (imm : W32) : Statement (.faddImm c rnd sat d a imm) := by
  refine of_group5 _ rfl rfl fun hw => ?_
  obtain ⟨w0, n0, p0, s0⟩ := c
  cases n0 <;>
    simp only [Fields.group5, Fields.base, BitVec.toNat_ofNat, Nat.reducePow, Nat.reduceMod, Fields.subRnd, Fields.regImm, subRound, Fields.four, Fields.two, rndSub_0, rndSub_1, rndSub_2, one_bit1] <;> cases rnd <;> cases sat <;> first | rfl | exact (Bool.false_ne_true hw).elim
theorem fmul (c : Ctl) (rnd : Rnd) (sat : Bool) (d : Spec) (a : Spec) (b : Spec) : Statement (.fmul c rnd sat d a b) := by
  refine of_group5 _ rfl rfl fun hw => ?_
  obtain ⟨w0, n0, p0, s0⟩ := c
  cases n0 <;>
    simp only [Fields.group5, Fields.base, BitVec.toNat_ofNat, Nat.reducePow, Nat.reduceMod, Fields.subRnd, Fields.regImm, subRound, Fields.four, Fields.two, rndSub_0, rndSub_1, rndSub_2, one_bit1] <;> cases rnd <;> cases sat <;> first | rfl | exact (Bool.false_ne_true hw).elim
theorem fmulImm (c : Ctl) (rnd : Rnd) (sat : Bool) (d : Spec) (a : Spec) (imm : W32) : Statement (.fmulImm c rnd sat d a imm) := by
  refine of_group5 _ rfl rfl fun hw => ?_
  obtain ⟨w0, n0, p0, s0⟩ := c
  cases n0 <;>
    simp only [Fields.group5, Fields.base, BitVec.toNat_ofNat, Nat.reducePow, Nat.reduceMod, Fields.subRnd, Fields.regImm, subRound, Fields.four, Fields.two, rndSub_0, rndSub_1, rndSub_2, one_bit1] <;> cases rnd <;> cases sat <;> first | rfl | exact (Bool.false_ne_true hw).elim
theorem ffma (c : Ctl) (rnd : Rnd) (sat : Bool) (d : Spec) (a : Spec) (b : Spec) (x : Spec) : Statement (.ffma c rnd sat d a b x) := by
  refine of_group5 _ rfl rfl fun hw => ?_
  obtain ⟨w0, n0, p0, s0⟩ := c
  cases n0 <;>
    simp only [Fields.group5, Fields.base, BitVec.toNat_ofNat, Nat.reducePow, Nat.reduceMod, Fields.subRnd, Fields.regImm, subRound, Fields.four, Fields.two, rndSub_0, rndSub_1, rndSub_2, one_bit1] <;> cases rnd <;> cases sat <;> first | rfl | exact (Bool.false_ne_true hw).elim
theorem fmin (c : Ctl) (nan : Bool) (d : Spec) (a : Spec) (b : Spec) : Statement (.fmin c nan d a b) := by
  refine of_shape _ rfl fun hw => ?_
  obtain ⟨w0, n0, p0, s0⟩ := c
  cases n0 <;> cases nan <;> first | rfl | exact (Bool.false_ne_true hw).elim
theorem fminImm (c : Ctl) (nan : Bool) (d : Spec) (a : Spec) (imm : W32) : Statement (.fminImm c nan d a imm) := by
  refine of_shape _ rfl fun hw => ?_
  obtain ⟨w0, n0, p0, s0⟩ := c
  cases n0 <;> cases nan <;> first | rfl | exact (Bool.false_ne_true hw).elim
theorem fmax (c : Ctl) (nan : Bool) (d : Spec) (a : Spec) (b : Spec) : Statement (.fmax c nan d a b) := by
  refine of_shape _ rfl fun hw => ?_
  obtain ⟨w0, n0, p0, s0⟩ := c
  cases n0 <;> cases nan <;> first | rfl | exact (Bool.false_ne_true hw).elim
theorem fmaxImm (c : Ctl) (nan : Bool) (d : Spec) (a : Spec) (imm : W32) : Statement (.fmaxImm c nan d a imm) := by
  refine of_shape _ rfl fun hw => ?_
  obtain ⟨w0, n0, p0, s0⟩ := c
  cases n0 <;> cases nan <;> first | rfl | exact (Bool.false_ne_true hw).elim
theorem fset (c : Ctl) (cmp : FCmp) (d : Spec) (a : Spec) (b : Spec) : Statement (.fset c cmp d a b) := by
  refine of_shape _ rfl fun hw => ?_
  obtain ⟨w0, n0, p0, s0⟩ := c
  cases n0 <;> cases cmp <;> first | rfl | exact (Bool.false_ne_true hw).elim
theorem fsetImm (c : Ctl) (cmp : FCmp) (d : Spec) (a : Spec) (imm : W32) : Statement (.fsetImm c cmp d a imm) := by
  refine of_shape _ rfl fun hw => ?_
  obtain ⟨w0, n0, p0, s0⟩ := c
  cases n0 <;> cases cmp <;> first | rfl | exact (Bool.false_ne_true hw).elim
theorem fclass (c : Ctl) (d : Spec) (a : Spec) (b : Spec) : Statement (.fclass c d a b) := by
  refine of_shape _ rfl fun hw => ?_
  obtain ⟨w0, n0, p0, s0⟩ := c
  cases n0 <;> first | rfl | exact (Bool.false_ne_true hw).elim
theorem fclassImm (c : Ctl) (d : Spec) (a : Spec) (imm : W32) : Statement (.fclassImm c d a imm) := by
  refine of_shape _ rfl fun hw => ?_
  obtain ⟨w0, n0, p0, s0⟩ := c
  cases n0 <;> first | rfl | exact (Bool.false_ne_true hw).elim
theorem frnd (c : Ctl) (rnd : Rnd) (d : Spec) (a : Spec) : Statement (.frnd c rnd d a) := by
  refine of_group5 _ rfl rfl fun hw => ?_
  obtain ⟨w0, n0, p0, s0⟩ := c
  cases n0 <;>
    simp only [Fields.group5, Fields.base, BitVec.toNat_ofNat, Nat.reducePow, Nat.reduceMod, Fields.subRnd, Fields.regImm, subRound, Fields.four, Fields.two, rndSub_0, rndSub_1, rndSub_2, one_bit1] <;> cases rnd <;> first | rfl | exact (Bool.false_ne_true hw).elim
theorem hadd2 (c : Ctl) (bf : Bool) (rnd : Rnd) (sat : Bool) (d : Spec) (a : Spec) (b : Spec) : Statement (.hadd2 c bf rnd sat d a b) := by
  refine of_group6 _ rfl rfl fun hw => ?_
  obtain ⟨w0, n0, p0, s0⟩ := c
  cases n0 <;>
    simp only [Fields.group6, Fields.base, BitVec.toNat_ofNat, Nat.reducePow, Nat.reduceMod, Fields.subHalf, subHalf, Fields.four, Fields.regImm, Fields.sub31, sub31, halfSub_0, halfSub_1, halfSub_2, one_bit1] <;> cases bf <;> cases rnd <;> cases sat <;> first | rfl | exact (Bool.false_ne_true hw).elim
theorem hadd2Imm (c : Ctl) (bf : Bool) (rnd : Rnd) (sat : Bool) (d : Spec) (a : Spec) (imm : W32) : Statement (.hadd2Imm c bf rnd sat d a imm) := by
  refine of_group6 _ rfl rfl fun hw => ?_
  obtain ⟨w0, n0, p0, s0⟩ := c
  cases n0 <;>
    simp only [Fields.group6, Fields.base, BitVec.toNat_ofNat, Nat.reducePow, Nat.reduceMod, Fields.subHalf, subHalf, Fields.four, Fields.regImm, Fields.sub31, sub31, halfSub_0, halfSub_1, halfSub_2, one_bit1] <;> cases bf <;> cases rnd <;> cases sat <;> first | rfl | exact (Bool.false_ne_true hw).elim
theorem hmul2 (c : Ctl) (bf : Bool) (rnd : Rnd) (sat : Bool) (d : Spec) (a : Spec) (b : Spec) : Statement (.hmul2 c bf rnd sat d a b) := by
  refine of_group6 _ rfl rfl fun hw => ?_
  obtain ⟨w0, n0, p0, s0⟩ := c
  cases n0 <;>
    simp only [Fields.group6, Fields.base, BitVec.toNat_ofNat, Nat.reducePow, Nat.reduceMod, Fields.subHalf, subHalf, Fields.four, Fields.regImm, Fields.sub31, sub31, halfSub_0, halfSub_1, halfSub_2, one_bit1] <;> cases bf <;> cases rnd <;> cases sat <;> first | rfl | exact (Bool.false_ne_true hw).elim
theorem hmul2Imm (c : Ctl) (bf : Bool) (rnd : Rnd) (sat : Bool) (d : Spec) (a : Spec) (imm : W32) : Statement (.hmul2Imm c bf rnd sat d a imm) := by
  refine of_group6 _ rfl rfl fun hw => ?_
  obtain ⟨w0, n0, p0, s0⟩ := c
  cases n0 <;>
    simp only [Fields.group6, Fields.base, BitVec.toNat_ofNat, Nat.reducePow, Nat.reduceMod, Fields.subHalf, subHalf, Fields.four, Fields.regImm, Fields.sub31, sub31, halfSub_0, halfSub_1, halfSub_2, one_bit1] <;> cases bf <;> cases rnd <;> cases sat <;> first | rfl | exact (Bool.false_ne_true hw).elim
theorem hfma2 (c : Ctl) (bf : Bool) (rnd : Rnd) (sat : Bool) (d : Spec) (a : Spec) (b : Spec) (x : Spec) : Statement (.hfma2 c bf rnd sat d a b x) := by
  refine of_group6 _ rfl rfl fun hw => ?_
  obtain ⟨w0, n0, p0, s0⟩ := c
  cases n0 <;>
    simp only [Fields.group6, Fields.base, BitVec.toNat_ofNat, Nat.reducePow, Nat.reduceMod, Fields.subHalf, subHalf, Fields.four, Fields.regImm, Fields.sub31, sub31, halfSub_0, halfSub_1, halfSub_2, one_bit1] <;> cases bf <;> cases rnd <;> cases sat <;> first | rfl | exact (Bool.false_ne_true hw).elim
theorem hmin2 (c : Ctl) (bf : Bool) (nan : Bool) (d : Spec) (a : Spec) (b : Spec) : Statement (.hmin2 c bf nan d a b) := by
  refine of_group6 _ rfl rfl fun hw => ?_
  obtain ⟨w0, n0, p0, s0⟩ := c
  cases n0 <;>
    simp only [Fields.group6, Fields.base, BitVec.toNat_ofNat, Nat.reducePow, Nat.reduceMod, Fields.subHalf, subHalf, Fields.four, Fields.regImm, Fields.sub31, sub31, lowTwo_0, lowTwo_1, lowTwo_2, one_bit1] <;> cases bf <;> cases nan <;> first | rfl | exact (Bool.false_ne_true hw).elim
theorem hmin2Imm (c : Ctl) (bf : Bool) (nan : Bool) (d : Spec) (a : Spec) (imm : W32) : Statement (.hmin2Imm c bf nan d a imm) := by
  refine of_group6 _ rfl rfl fun hw => ?_
  obtain ⟨w0, n0, p0, s0⟩ := c
  cases n0 <;>
    simp only [Fields.group6, Fields.base, BitVec.toNat_ofNat, Nat.reducePow, Nat.reduceMod, Fields.subHalf, subHalf, Fields.four, Fields.regImm, Fields.sub31, sub31, lowTwo_0, lowTwo_1, lowTwo_2, one_bit1] <;> cases bf <;> cases nan <;> first | rfl | exact (Bool.false_ne_true hw).elim
theorem hmax2 (c : Ctl) (bf : Bool) (nan : Bool) (d : Spec) (a : Spec) (b : Spec) : Statement (.hmax2 c bf nan d a b) := by
  refine of_group6 _ rfl rfl fun hw => ?_
  obtain ⟨w0, n0, p0, s0⟩ := c
  cases n0 <;>
    simp only [Fields.group6, Fields.base, BitVec.toNat_ofNat, Nat.reducePow, Nat.reduceMod, Fields.subHalf, subHalf, Fields.four, Fields.regImm, Fields.sub31, sub31, lowTwo_0, lowTwo_1, lowTwo_2, one_bit1] <;> cases bf <;> cases nan <;> first | rfl | exact (Bool.false_ne_true hw).elim
theorem hmax2Imm (c : Ctl) (bf : Bool) (nan : Bool) (d : Spec) (a : Spec) (imm : W32) : Statement (.hmax2Imm c bf nan d a imm) := by
  refine of_group6 _ rfl rfl fun hw => ?_
  obtain ⟨w0, n0, p0, s0⟩ := c
  cases n0 <;>
    simp only [Fields.group6, Fields.base, BitVec.toNat_ofNat, Nat.reducePow, Nat.reduceMod, Fields.subHalf, subHalf, Fields.four, Fields.regImm, Fields.sub31, sub31, lowTwo_0, lowTwo_1, lowTwo_2, one_bit1] <;> cases bf <;> cases nan <;> first | rfl | exact (Bool.false_ne_true hw).elim
theorem hset2 (c : Ctl) (cmp : FCmp) (bf : Bool) (d : Spec) (a : Spec) (b : Spec) : Statement (.hset2 c cmp bf d a b) := by
  refine of_group6 _ rfl rfl fun hw => ?_
  obtain ⟨w0, n0, p0, s0⟩ := c
  cases n0 <;>
    simp only [Fields.group6, Fields.base, BitVec.toNat_ofNat, Nat.reducePow, Nat.reduceMod, Fields.subHalf, subHalf, Fields.four, Fields.regImm, Fields.sub31, sub31, subHi1_0, subHi1_1, one_bit1] <;> cases cmp <;> cases bf <;> first | rfl | exact (Bool.false_ne_true hw).elim
theorem hset2Imm (c : Ctl) (cmp : FCmp) (bf : Bool) (d : Spec) (a : Spec) (imm : W32) : Statement (.hset2Imm c cmp bf d a imm) := by
  refine of_group6 _ rfl rfl fun hw => ?_
  obtain ⟨w0, n0, p0, s0⟩ := c
  cases n0 <;>
    simp only [Fields.group6, Fields.base, BitVec.toNat_ofNat, Nat.reducePow, Nat.reduceMod, Fields.subHalf, subHalf, Fields.four, Fields.regImm, Fields.sub31, sub31, subHi1_0, subHi1_1, one_bit1] <;> cases cmp <;> cases bf <;> first | rfl | exact (Bool.false_ne_true hw).elim
theorem rcp (c : Ctl) (d : Spec) (a : Spec) : Statement (.rcp c d a) := by
  refine of_shape _ rfl fun hw => ?_
  obtain ⟨w0, n0, p0, s0⟩ := c
  cases n0 <;> first | rfl | exact (Bool.false_ne_true hw).elim
theorem rsq (c : Ctl) (d : Spec) (a : Spec) : Statement (.rsq c d a) := by
  refine of_shape _ rfl fun hw => ?_
  obtain ⟨w0, n0, p0, s0⟩ := c
  cases n0 <;> first | rfl | exact (Bool.false_ne_true hw).elim
theorem sqrt (c : Ctl) (d : Spec) (a : Spec) : Statement (.sqrt c d a) := by
  refine of_shape _ rfl fun hw => ?_
  obtain ⟨w0, n0, p0, s0⟩ := c
  cases n0 <;> first | rfl | exact (Bool.false_ne_true hw).elim
theorem exp2 (c : Ctl) (d : Spec) (a : Spec) : Statement (.exp2 c d a) := by
  refine of_shape _ rfl fun hw => ?_
  obtain ⟨w0, n0, p0, s0⟩ := c
  cases n0 <;> first | rfl | exact (Bool.false_ne_true hw).elim
theorem log2 (c : Ctl) (d : Spec) (a : Spec) : Statement (.log2 c d a) := by
  refine of_shape _ rfl fun hw => ?_
  obtain ⟨w0, n0, p0, s0⟩ := c
  cases n0 <;> first | rfl | exact (Bool.false_ne_true hw).elim
theorem fsin (c : Ctl) (d : Spec) (a : Spec) : Statement (.fsin c d a) := by
  refine of_shape _ rfl fun hw => ?_
  obtain ⟨w0, n0, p0, s0⟩ := c
  cases n0 <;> first | rfl | exact (Bool.false_ne_true hw).elim
theorem fcos (c : Ctl) (d : Spec) (a : Spec) : Statement (.fcos c d a) := by
  refine of_shape _ rfl fun hw => ?_
  obtain ⟨w0, n0, p0, s0⟩ := c
  cases n0 <;> first | rfl | exact (Bool.false_ne_true hw).elim
theorem tanh (c : Ctl) (d : Spec) (a : Spec) : Statement (.tanh c d a) := by
  refine of_shape _ rfl fun hw => ?_
  obtain ⟨w0, n0, p0, s0⟩ := c
  cases n0 <;> first | rfl | exact (Bool.false_ne_true hw).elim
theorem fdiv (c : Ctl) (rnd : Rnd) (d : Spec) (a : Spec) (b : Spec) : Statement (.fdiv c rnd d a b) := by
  refine of_group7 _ rfl rfl fun hw => ?_
  obtain ⟨w0, n0, p0, s0⟩ := c
  cases n0 <;>
    simp only [Fields.group7, Fields.base, BitVec.toNat_ofNat, Nat.reducePow, Nat.reduceMod, Fields.subRnd, subRound, Fields.three, Fields.sub31, sub31, rndSub_0, rndSub_1, rndSub_2, one_bit1] <;> cases rnd <;> first | rfl | exact (Bool.false_ne_true hw).elim
theorem fcvt (c : Ctl) (rnd : Rnd) (sat : Bool) (src : Fmt) (dst : Fmt) (d : Spec) (a : Spec) : Statement (.fcvt c rnd sat src dst d a) := by
  refine of_group7 _ rfl rfl fun hw => ?_
  obtain ⟨w0, n0, p0, s0⟩ := c
  cases n0 <;>
    simp only [Fields.group7, Fields.base, BitVec.toNat_ofNat, Nat.reducePow, Nat.reduceMod, Fields.subRnd, subRound, Fields.three, Fields.sub31, sub31, cvtWord_0, cvtWord_1, cvtWord_2, subHi1_0, subHi1_1, one_bit1] <;> cases rnd <;> cases sat <;> cases src <;> cases dst <;> first | rfl | exact (Bool.false_ne_true hw).elim
theorem fcvtp (c : Ctl) (rnd : Rnd) (sat : Bool) (dst : Fmt) (slot : BitVec 2) (d : Spec) (a : Spec) (b : Spec) (x : Spec) : Statement (.fcvtp c rnd sat dst slot d a b x) := by
  refine of_group7 _ rfl rfl fun hw => ?_
  obtain ⟨w0, n0, p0, s0⟩ := c
  cases n0 <;>
    simp only [Fields.group7, Fields.base, BitVec.toNat_ofNat, Nat.reducePow, Nat.reduceMod, Fields.subRnd, subRound, Fields.three, Fields.sub31, sub31, cvtpWord_0, cvtpWord_1, cvtpWord_2, cvtpWord_3, subHi1_0, subHi1_1, one_bit1] <;> cases rnd <;> cases sat <;> cases dst <;> first | rfl | exact (Bool.false_ne_true hw).elim
theorem ld (c : Ctl) (sz : Size) (m : MemWord) (d : Spec) (a : Spec) : Statement (.ld c sz m d a) := by
  refine of_group8 _ rfl rfl fun hw => ?_
  obtain ⟨w0, n0, p0, s0⟩ := c
  cases n0 <;>
    simp only [Fields.group8, Fields.base, BitVec.toNat_ofNat, Nat.reducePow, Nat.reduceMod, Fields.mem, Fields.sub0, mem_bits, one_bit1] <;> cases sz <;> first | rfl | exact (Bool.false_ne_true hw).elim
theorem st (c : Ctl) (sz : Size) (m : MemWord) (a : Spec) (b : Spec) : Statement (.st c sz m a b) := by
  refine of_group8 _ rfl rfl fun hw => ?_
  obtain ⟨w0, n0, p0, s0⟩ := c
  cases n0 <;>
    simp only [Fields.group8, Fields.base, BitVec.toNat_ofNat, Nat.reducePow, Nat.reduceMod, Fields.mem, Fields.sub0, mem_bits, one_bit1] <;> cases sz <;> first | rfl | exact (Bool.false_ne_true hw).elim
theorem lds (c : Ctl) (sz : Size) (m : MemWord) (d : Spec) (a : Spec) : Statement (.lds c sz m d a) := by
  refine of_group8 _ rfl rfl fun hw => ?_
  obtain ⟨w0, n0, p0, s0⟩ := c
  cases n0 <;>
    simp only [Fields.group8, Fields.base, BitVec.toNat_ofNat, Nat.reducePow, Nat.reduceMod, Fields.mem, Fields.sub0, mem_bits, one_bit1] <;> cases sz <;> first | rfl | exact (Bool.false_ne_true hw).elim
theorem sts (c : Ctl) (sz : Size) (m : MemWord) (a : Spec) (b : Spec) : Statement (.sts c sz m a b) := by
  refine of_group8 _ rfl rfl fun hw => ?_
  obtain ⟨w0, n0, p0, s0⟩ := c
  cases n0 <;>
    simp only [Fields.group8, Fields.base, BitVec.toNat_ofNat, Nat.reducePow, Nat.reduceMod, Fields.mem, Fields.sub0, mem_bits, one_bit1] <;> cases sz <;> first | rfl | exact (Bool.false_ne_true hw).elim
theorem ldc (c : Ctl) (sz : Size) (m : MemWord) (d : Spec) (a : Spec) : Statement (.ldc c sz m d a) := by
  refine of_group8 _ rfl rfl fun hw => ?_
  obtain ⟨w0, n0, p0, s0⟩ := c
  cases n0 <;>
    simp only [Fields.group8, Fields.base, BitVec.toNat_ofNat, Nat.reducePow, Nat.reduceMod, Fields.mem, Fields.sub0, mem_bits, one_bit1] <;> cases sz <;> first | rfl | exact (Bool.false_ne_true hw).elim
theorem stc (c : Ctl) (sz : Size) (m : MemWord) (a : Spec) (b : Spec) : Statement (.stc c sz m a b) := by
  refine of_group8 _ rfl rfl fun hw => ?_
  obtain ⟨w0, n0, p0, s0⟩ := c
  cases n0 <;>
    simp only [Fields.group8, Fields.base, BitVec.toNat_ofNat, Nat.reducePow, Nat.reduceMod, Fields.mem, Fields.sub0, mem_bits, one_bit1] <;> cases sz <;> first | rfl | exact (Bool.false_ne_true hw).elim
theorem fence (c : Ctl) (m : MemWord) : Statement (.fence c m) := by
  refine of_group8 _ rfl rfl fun hw => ?_
  obtain ⟨w0, n0, p0, s0⟩ := c
  cases n0 <;>
    simp only [Fields.group8, Fields.base, BitVec.toNat_ofNat, Nat.reducePow, Nat.reduceMod, Fields.mem, Fields.sub0, mem_bits, one_bit1] <;> first | rfl | exact (Bool.false_ne_true hw).elim
theorem cctl (c : Ctl) (op : CctlOp) (m : MemWord) (a : Spec) (b : Spec) : Statement (.cctl c op m a b) := by
  refine of_group8 _ rfl rfl fun hw => ?_
  obtain ⟨w0, n0, p0, s0⟩ := c
  cases n0 <;>
    simp only [Fields.group8, Fields.base, BitVec.toNat_ofNat, Nat.reducePow, Nat.reduceMod, Fields.mem, Fields.sub0, mem_bits, one_bit1] <;> cases op <;> first | rfl | exact (Bool.false_ne_true hw).elim
theorem icinv (c : Ctl) (m : MemWord) (a : Spec) (b : Spec) : Statement (.icinv c m a b) := by
  refine of_group8 _ rfl rfl fun hw => ?_
  obtain ⟨w0, n0, p0, s0⟩ := c
  cases n0 <;>
    simp only [Fields.group8, Fields.base, BitVec.toNat_ofNat, Nat.reducePow, Nat.reduceMod, Fields.mem, Fields.sub0, mem_bits, one_bit1] <;> first | rfl | exact (Bool.false_ne_true hw).elim
theorem pref (c : Ctl) (m : MemWord) (a : Spec) : Statement (.pref c m a) := by
  refine of_group8 _ rfl rfl fun hw => ?_
  obtain ⟨w0, n0, p0, s0⟩ := c
  cases n0 <;>
    simp only [Fields.group8, Fields.base, BitVec.toNat_ofNat, Nat.reducePow, Nat.reduceMod, Fields.mem, Fields.sub0, mem_bits, one_bit1] <;> first | rfl | exact (Bool.false_ne_true hw).elim
theorem atom (c : Ctl) (op : AtomOp) (wide : Bool) (ar : Bool) (m : MemWord) (d : Spec) (a : Spec) (b : Spec) : Statement (.atom c op wide ar m d a b) := by
  refine of_group9 _ rfl rfl fun hw => ?_
  obtain ⟨w0, n0, p0, s0⟩ := c
  cases n0 <;>
    simp only [Fields.group9, Fields.base, BitVec.toNat_ofNat, Nat.reducePow, Nat.reduceMod, Fields.mem, subAtom, atomSub_0, atomSub_1, atomSub_2, mem_bits, one_bit1] <;> cases op <;> cases wide <;> cases ar <;> first | rfl | exact (Bool.false_ne_true hw).elim
theorem atomcas (c : Ctl) (wide : Bool) (ar : Bool) (m : MemWord) (d : Spec) (a : Spec) (b : Spec) (x : Spec) : Statement (.atomcas c wide ar m d a b x) := by
  refine of_group9 _ rfl rfl fun hw => ?_
  obtain ⟨w0, n0, p0, s0⟩ := c
  cases n0 <;>
    simp only [Fields.group9, Fields.base, BitVec.toNat_ofNat, Nat.reducePow, Nat.reduceMod, Fields.mem, subAtom, atomSub_0, atomSub_1, atomSub_2, mem_bits, one_bit1] <;> cases wide <;> cases ar <;> first | rfl | exact (Bool.false_ne_true hw).elim
theorem atoms (c : Ctl) (op : AtomOp) (wide : Bool) (ar : Bool) (m : MemWord) (d : Spec) (a : Spec) (b : Spec) : Statement (.atoms c op wide ar m d a b) := by
  refine of_group9 _ rfl rfl fun hw => ?_
  obtain ⟨w0, n0, p0, s0⟩ := c
  cases n0 <;>
    simp only [Fields.group9, Fields.base, BitVec.toNat_ofNat, Nat.reducePow, Nat.reduceMod, Fields.mem, subAtom, atomSub_0, atomSub_1, atomSub_2, mem_bits, one_bit1] <;> cases op <;> cases wide <;> cases ar <;> first | rfl | exact (Bool.false_ne_true hw).elim
theorem red (c : Ctl) (op : AtomOp) (wide : Bool) (m : MemWord) (a : Spec) (b : Spec) : Statement (.red c op wide m a b) := by
  refine of_group9 _ rfl rfl fun hw => ?_
  obtain ⟨w0, n0, p0, s0⟩ := c
  cases n0 <;>
    simp only [Fields.group9, Fields.base, BitVec.toNat_ofNat, Nat.reducePow, Nat.reduceMod, Fields.mem, subAtom, atomSub_0, atomSub_1, atomSub_2, mem_bits, one_bit1] <;> cases op <;> cases wide <;> first | rfl | exact (Bool.false_ne_true hw).elim
theorem astream (c : Ctl) (q : BitVec 4) (a : Spec) (b : Spec) (x : Spec) (n0 : BitVec 16) (n1 : BitVec 16) (cmd : CmdByte) : Statement (.astream c q a b x n0 n1 cmd) := by
  refine of_groupA _ rfl rfl fun hw => ?_
  obtain ⟨w0, n0, p0, s0⟩ := c
  cases n0 <;>
    simp only [Fields.groupA, Fields.base, BitVec.toNat_ofNat, Nat.reducePow, Nat.reduceMod, Fields.sub0, Fields.sub1, Fields.sub31, Fields.cmd, Fields.cmdOnly, Fields.queue, Fields.two, lowByte_hi, lowByte_lo, two16_0, two16_1, nib_0, nib_1, cmd_bits, one_bit1] <;> first | rfl | exact (Bool.false_ne_true hw).elim
theorem opush (c : Ctl) (q : BitVec 4) (a : Spec) (n : BitVec 5) : Statement (.opush c q a n) := by
  refine of_groupA _ rfl rfl fun hw => ?_
  obtain ⟨w0, n0, p0, s0⟩ := c
  cases n0 <;>
    simp only [Fields.groupA, Fields.base, BitVec.toNat_ofNat, Nat.reducePow, Nat.reduceMod, Fields.sub0, Fields.sub1, Fields.sub31, Fields.cmd, Fields.cmdOnly, Fields.queue, Fields.two, low5_0, low5_1, nib_0, nib_1, one_bit1] <;> first | rfl | exact (Bool.false_ne_true hw).elim
theorem opop (c : Ctl) (wide : Bool) (d : Spec) (q : BitVec 4) : Statement (.opop c wide d q) := by
  refine of_groupA _ rfl rfl fun hw => ?_
  obtain ⟨w0, n0, p0, s0⟩ := c
  cases n0 <;>
    simp only [Fields.groupA, Fields.base, BitVec.toNat_ofNat, Nat.reducePow, Nat.reduceMod, Fields.sub0, Fields.sub1, Fields.sub31, Fields.cmd, Fields.cmdOnly, Fields.queue, Fields.two, nib_0, nib_1, one_bit1] <;> cases wide <;> first | rfl | exact (Bool.false_ne_true hw).elim
theorem gather (c : Ctl) (esz : BitVec 3) (i64 : Bool) (d : Spec) (a : Spec) (b : Spec) (x : Spec) (count : BitVec 16) (cmd : CmdByte) : Statement (.gather c esz i64 d a b x count cmd) := by
  refine of_groupA _ rfl rfl fun hw => ?_
  obtain ⟨w0, n0, p0, s0⟩ := c
  cases n0 <;>
    simp only [Fields.groupA, Fields.base, BitVec.toNat_ofNat, Nat.reducePow, Nat.reduceMod, Fields.sub0, Fields.sub1, Fields.sub31, Fields.cmd, Fields.cmdOnly, Fields.queue, Fields.two, gatherWord_0, gatherWord_1, gatherWord_2, subHi1_0, subHi1_1, cmd_bits, one_bit1] <;> cases i64 <;> first | rfl | exact (Bool.false_ne_true hw).elim
theorem scatter (c : Ctl) (esz : BitVec 3) (i64 : Bool) (d : Spec) (a : Spec) (b : Spec) (x : Spec) (count : BitVec 16) (cmd : CmdByte) : Statement (.scatter c esz i64 d a b x count cmd) := by
  refine of_groupA _ rfl rfl fun hw => ?_
  obtain ⟨w0, n0, p0, s0⟩ := c
  cases n0 <;>
    simp only [Fields.groupA, Fields.base, BitVec.toNat_ofNat, Nat.reducePow, Nat.reduceMod, Fields.sub0, Fields.sub1, Fields.sub31, Fields.cmd, Fields.cmdOnly, Fields.queue, Fields.two, gatherWord_0, gatherWord_1, gatherWord_2, subHi1_0, subHi1_1, cmd_bits, one_bit1] <;> cases i64 <;> first | rfl | exact (Bool.false_ne_true hw).elim
theorem cpy (c : Ctl) (d : Spec) (a : Spec) (b : Spec) (x : Spec) (cmd : CmdByte) : Statement (.cpy c d a b x cmd) := by
  refine of_groupA _ rfl rfl fun hw => ?_
  obtain ⟨w0, n0, p0, s0⟩ := c
  cases n0 <;>
    simp only [Fields.groupA, Fields.base, BitVec.toNat_ofNat, Nat.reducePow, Nat.reduceMod, Fields.sub0, Fields.sub1, Fields.sub31, Fields.cmd, Fields.cmdOnly, Fields.queue, Fields.two, lowByte_hi, lowByte_lo, cmd_bits, one_bit1] <;> first | rfl | exact (Bool.false_ne_true hw).elim
theorem cpy2g (c : Ctl) (d : Spec) (a : Spec) (b : Spec) (x : Spec) (pitch : BitVec 20) (esz : BitVec 2) (count : BitVec 12) (ph : BitVec 8) (pw : BitVec 8) (cmd : CmdByte) : Statement (.cpy2g c d a b x pitch esz count ph pw cmd) := by
  refine of_groupA _ rfl rfl fun hw => ?_
  obtain ⟨w0, n0, p0, s0⟩ := c
  cases n0 <;>
    simp only [Fields.groupA, Fields.base, BitVec.toNat_ofNat, Nat.reducePow, Nat.reduceMod, Fields.sub0, Fields.sub1, Fields.sub31, Fields.cmd, Fields.cmdOnly, Fields.queue, Fields.two, cpy2gWord2_0, cpy2gWord2_1, cpy2gWord2_2, cpy2gWord2_3, cpy2gWord3_0, cpy2gWord3_1, cpy2gWord3_2, cpy2gWord3_3, cmd_bits, one_bit1] <;> first | rfl | exact (Bool.false_ne_true hw).elim
theorem cpyt (c : Ctl) (pack : Bool) (d : Spec) (a : Spec) (b : Spec) (x : Spec) (spitch : BitVec 16) (role : Role) (fmt : FrameFmt) (pitch : BitVec 20) (count : BitVec 12) (cmd : CmdByte) : Statement (.cpyt c pack d a b x spitch role fmt pitch count cmd) := by
  refine of_groupA _ rfl rfl fun hw => ?_
  obtain ⟨w0, n0, p0, s0⟩ := c
  cases n0 <;>
    simp only [Fields.groupA, Fields.base, BitVec.toNat_ofNat, Nat.reducePow, Nat.reduceMod, Fields.sub0, Fields.sub1, Fields.sub31, Fields.cmd, Fields.cmdOnly, Fields.queue, Fields.two, cpytWord2_0, cpytWord2_1, cpytWord2_2, cpytWord2_3, cpytWord3_0, cpytWord3_1, cmd_bits, one_bit1] <;> cases pack <;> cases role <;> cases fmt <;> first | rfl | exact (Bool.false_ne_true hw).elim
theorem cpyr (c : Ctl) (d : Spec) (a : Spec) (b : Spec) (x : Spec) (off : W32) (cmd : CmdByte) : Statement (.cpyr c d a b x off cmd) := by
  refine of_groupA _ rfl rfl fun hw => ?_
  obtain ⟨w0, n0, p0, s0⟩ := c
  cases n0 <;>
    simp only [Fields.groupA, Fields.base, BitVec.toNat_ofNat, Nat.reducePow, Nat.reduceMod, Fields.sub0, Fields.sub1, Fields.sub31, Fields.cmd, Fields.cmdOnly, Fields.queue, Fields.two, lowByte_hi, lowByte_lo, cmd_bits, one_bit1] <;> first | rfl | exact (Bool.false_ne_true hw).elim
theorem close (c : Ctl) (t : Spec) : Statement (.close c t) := by
  refine of_shape _ rfl fun hw => ?_
  obtain ⟨w0, n0, p0, s0⟩ := c
  cases n0 <;> first | rfl | exact (Bool.false_ne_true hw).elim
theorem waitb (c : Ctl) (n : BitVec 4) (d : Spec) (t : Spec) : Statement (.waitb c n d t) := by
  refine of_shape _ rfl fun hw => ?_
  obtain ⟨w0, n0, p0, s0⟩ := c
  cases n0 <;> first | rfl | exact (Bool.false_ne_true hw).elim
theorem barinit (c : Ctl) (a : Spec) (b : Spec) (off : W32) : Statement (.barinit c a b off) := by
  refine of_shape _ rfl fun hw => ?_
  obtain ⟨w0, n0, p0, s0⟩ := c
  cases n0 <;> first | rfl | exact (Bool.false_ne_true hw).elim
theorem bararv (c : Ctl) (one : Bool) (x : Bool) (a : Spec) (b : Spec) (off : W32) : Statement (.bararv c one x a b off) := by
  refine of_groupA _ rfl rfl fun hw => ?_
  obtain ⟨w0, n0, p0, s0⟩ := c
  cases n0 <;>
    simp only [Fields.groupA, Fields.base, BitVec.toNat_ofNat, Nat.reducePow, Nat.reduceMod, Fields.sub0, Fields.sub1, Fields.sub31, Fields.cmd, Fields.cmdOnly, Fields.queue, Fields.two, lowTwo_0, lowTwo_1, lowTwo_2, one_bit1] <;> cases one <;> cases x <;> first | rfl | exact (Bool.false_ne_true hw).elim
theorem barexp (c : Ctl) (a : Spec) (b : Spec) (off : W32) : Statement (.barexp c a b off) := by
  refine of_shape _ rfl fun hw => ?_
  obtain ⟨w0, n0, p0, s0⟩ := c
  cases n0 <;> first | rfl | exact (Bool.false_ne_true hw).elim
theorem barwait (c : Ctl) (scope : Scope) (d : Spec) (a : Spec) (b : Spec) : Statement (.barwait c scope d a b) := by
  refine of_shape _ rfl fun hw => ?_
  obtain ⟨w0, n0, p0, s0⟩ := c
  cases n0 <;> cases scope <;> first | rfl | exact (Bool.false_ne_true hw).elim
theorem bartest (c : Ctl) (scope : Scope) (d : Spec) (a : Spec) (b : Spec) : Statement (.bartest c scope d a b) := by
  refine of_shape _ rfl fun hw => ?_
  obtain ⟨w0, n0, p0, s0⟩ := c
  cases n0 <;> cases scope <;> first | rfl | exact (Bool.false_ne_true hw).elim
theorem fred (c : Ctl) (s32 : Bool) (d : Spec) (a : Spec) (b : Spec) (x : Spec) (group : BitVec 16) (e : BitVec 8) (parts : BitVec 16) (cmd : CmdByte) : Statement (.fred c s32 d a b x group e parts cmd) := by
  refine of_groupA _ rfl rfl fun hw => ?_
  obtain ⟨w0, n0, p0, s0⟩ := c
  cases n0 <;>
    simp only [Fields.groupA, Fields.base, BitVec.toNat_ofNat, Nat.reducePow, Nat.reduceMod, Fields.sub0, Fields.sub1, Fields.sub31, Fields.cmd, Fields.cmdOnly, Fields.queue, Fields.two, gatherWord_0, gatherWord_1, gatherWord_2, fredWord3_0, fredWord3_1, fredWord3_2, cmd_bits, one_bit1] <;> cases s32 <;> first | rfl | exact (Bool.false_ne_true hw).elim
theorem txopen (c : Ctl) (ts : Bool) (d : Spec) : Statement (.txopen c ts d) := by
  refine of_shape _ rfl fun hw => ?_
  obtain ⟨w0, n0, p0, s0⟩ := c
  cases n0 <;> cases ts <;> first | rfl | exact (Bool.false_ne_true hw).elim
theorem txcommit (c : Ctl) : Statement (.txcommit c) := by
  refine of_shape _ rfl fun hw => ?_
  obtain ⟨w0, n0, p0, s0⟩ := c
  cases n0 <;> first | rfl | exact (Bool.false_ne_true hw).elim
theorem txquit (c : Ctl) (code : BitVec 7) : Statement (.txquit c code) := by
  refine of_groupB _ rfl rfl fun hw => ?_
  obtain ⟨w0, n0, p0, s0⟩ := c
  cases n0 <;>
    simp only [Fields.groupB, Fields.base, BitVec.toNat_ofNat, Nat.reducePow, Nat.reduceMod, Fields.sub0, Fields.two, low7_0, low7_1, one_bit1] <;> first | rfl | exact (Bool.false_ne_true hw).elim
theorem txstat (c : Ctl) (d : Spec) : Statement (.txstat c d) := by
  refine of_shape _ rfl fun hw => ?_
  obtain ⟨w0, n0, p0, s0⟩ := c
  cases n0 <;> first | rfl | exact (Bool.false_ne_true hw).elim
theorem spopen (c : Ctl) (ts : Bool) (dom : BitVec 3) (d : Spec) (a : Spec) : Statement (.spopen c ts dom d a) := by
  refine of_groupB _ rfl rfl fun hw => ?_
  obtain ⟨w0, n0, p0, s0⟩ := c
  cases n0 <;>
    simp only [Fields.groupB, Fields.base, BitVec.toNat_ofNat, Nat.reducePow, Nat.reduceMod, Fields.sub0, Fields.two, subLo1_0, subLo1_1, one_bit1] <;> cases ts <;> first | rfl | exact (Bool.false_ne_true hw).elim
theorem spcommit (c : Ctl) : Statement (.spcommit c) := by
  refine of_shape _ rfl fun hw => ?_
  obtain ⟨w0, n0, p0, s0⟩ := c
  cases n0 <;> first | rfl | exact (Bool.false_ne_true hw).elim
theorem mzero (c : Ctl) (s32 : Bool) (m : Spec) : Statement (.mzero c s32 m) := by
  refine of_shape _ rfl fun hw => ?_
  obtain ⟨w0, n0, p0, s0⟩ := c
  cases n0 <;> cases s32 <;> first | rfl | exact (Bool.false_ne_true hw).elim
theorem mld (c : Ctl) (m : Spec) (a : Spec) (off : W32) : Statement (.mld c m a off) := by
  refine of_shape _ rfl fun hw => ?_
  obtain ⟨w0, n0, p0, s0⟩ := c
  cases n0 <;> first | rfl | exact (Bool.false_ne_true hw).elim
theorem mst (c : Ctl) (a : Spec) (m : Spec) (off : W32) : Statement (.mst c a m off) := by
  refine of_shape _ rfl fun hw => ?_
  obtain ⟨w0, n0, p0, s0⟩ := c
  cases n0 <;> first | rfl | exact (Bool.false_ne_true hw).elim
theorem mma (c : Ctl) (sat : Bool) (m : Spec) (a : Spec) (b : Spec) : Statement (.mma c sat m a b) := by
  refine of_shape _ rfl fun hw => ?_
  obtain ⟨w0, n0, p0, s0⟩ := c
  cases n0 <;> cases sat <;> first | rfl | exact (Bool.false_ne_true hw).elim
theorem mloop (c : Ctl) (sat : Bool) (m : Spec) (a : Spec) (b : Spec) (fv : Bool) (f : BitVec 3) (tv : Bool) (tok : BitVec 3) (n : BitVec 12) (inca : BitVec 16) (incb : BitVec 16) : Statement (.mloop c sat m a b fv f tv tok n inca incb) := by
  refine of_groupC _ rfl rfl fun hw => ?_
  obtain ⟨w0, n0, p0, s0⟩ := c
  cases n0 <;>
    simp only [Fields.groupC, Fields.base, BitVec.toNat_ofNat, Nat.reducePow, Nat.reduceMod, Fields.sub0, Fields.sub1, two16_0, two16_1, loopWord2_0, loopWord2_1, loopWord2_2, loopWord2_3, loopWord2_4, loopWord2_5, one_bit1] <;> cases sat <;> cases fv <;> cases tv <;> first | rfl | exact (Bool.false_ne_true hw).elim
theorem mconv (c : Ctl) (sat : Bool) (m : Spec) (a : Spec) (b : Spec) (x : Spec) (tv : Bool) (tok : BitVec 3) : Statement (.mconv c sat m a b x tv tok) := by
  refine of_groupC _ rfl rfl fun hw => ?_
  obtain ⟨w0, n0, p0, s0⟩ := c
  cases n0 <;>
    simp only [Fields.groupC, Fields.base, BitVec.toNat_ofNat, Nat.reducePow, Nat.reduceMod, Fields.sub0, Fields.sub1, convWord2_0, convWord2_1, convWord2_2, convWord2_3, one_bit1] <;> cases sat <;> cases tv <;> first | rfl | exact (Bool.false_ne_true hw).elim
theorem mmas (c : Ctl) (sat : Bool) (x2 : Bool) (m : Spec) (a : Spec) (b : Spec) (x : Spec) : Statement (.mmas c sat x2 m a b x) := by
  refine of_groupC _ rfl rfl fun hw => ?_
  obtain ⟨w0, n0, p0, s0⟩ := c
  cases n0 <;>
    simp only [Fields.groupC, Fields.base, BitVec.toNat_ofNat, Nat.reducePow, Nat.reduceMod, Fields.sub0, Fields.sub1, lowTwo_0, lowTwo_1, lowTwo_2, one_bit1] <;> cases sat <;> cases x2 <;> first | rfl | exact (Bool.false_ne_true hw).elim
theorem mcomp (c : Ctl) (d : Spec) (a : Spec) (b : Spec) : Statement (.mcomp c d a b) := by
  refine of_shape _ rfl fun hw => ?_
  obtain ⟨w0, n0, p0, s0⟩ := c
  cases n0 <;> first | rfl | exact (Bool.false_ne_true hw).elim
theorem mqnt (c : Ctl) (rnd : Rnd) (role : Role) (fmt : FrameFmt) (m : Spec) (b : Spec) : Statement (.mqnt c rnd role fmt m b) := by
  refine of_groupC _ rfl rfl fun hw => ?_
  obtain ⟨w0, n0, p0, s0⟩ := c
  cases n0 <;>
    simp only [Fields.groupC, Fields.base, BitVec.toNat_ofNat, Nat.reducePow, Nat.reduceMod, Fields.sub0, Fields.sub1, one_bit1] <;> cases rnd <;> cases role <;> cases fmt <;> first | rfl | exact (Bool.false_ne_true hw).elim
theorem mstat (c : Ctl) (d : Spec) (m : Spec) : Statement (.mstat c d m) := by
  refine of_shape _ rfl fun hw => ?_
  obtain ⟨w0, n0, p0, s0⟩ := c
  cases n0 <;> first | rfl | exact (Bool.false_ne_true hw).elim
theorem fsetm (c : Ctl) (wide : Bool) (f : Spec) (a : Spec) : Statement (.fsetm c wide f a) := by
  refine of_shape _ rfl fun hw => ?_
  obtain ⟨w0, n0, p0, s0⟩ := c
  cases n0 <;> cases wide <;> first | rfl | exact (Bool.false_ne_true hw).elim
theorem sbind (c : Ctl) (slot : BitVec 7) (d : Spec) (a : Spec) : Statement (.sbind c slot d a) := by
  refine of_groupD _ rfl rfl fun hw => ?_
  obtain ⟨w0, n0, p0, s0⟩ := c
  cases n0 <;>
    simp only [Fields.groupD, Fields.base, BitVec.toNat_ofNat, Nat.reducePow, Nat.reduceMod, Fields.sub0, Fields.sub31, Fields.cmd, Fields.cmdOnly, sub31, low7_0, low7_1, one_bit1] <;> first | rfl | exact (Bool.false_ne_true hw).elim
theorem sunbind (c : Ctl) (a : Spec) : Statement (.sunbind c a) := by
  refine of_shape _ rfl fun hw => ?_
  obtain ⟨w0, n0, p0, s0⟩ := c
  cases n0 <;> first | rfl | exact (Bool.false_ne_true hw).elim
theorem ginv (c : Ctl) (scope : Scope) (a : Spec) : Statement (.ginv c scope a) := by
  refine of_shape _ rfl fun hw => ?_
  obtain ⟨w0, n0, p0, s0⟩ := c
  cases n0 <;> cases scope <;> first | rfl | exact (Bool.false_ne_true hw).elim
theorem chain (c : Ctl) (sat : Bool) (ty : ChainTy) (d : Spec) (a : Spec) (b : Spec) (x : Spec) (ops : BitVec 56) (cmd : CmdByte) : Statement (.chain c sat ty d a b x ops cmd) := by
  refine of_groupD _ rfl rfl fun hw => ?_
  obtain ⟨w0, n0, p0, s0⟩ := c
  cases n0 <;>
    simp only [Fields.groupD, Fields.base, BitVec.toNat_ofNat, Nat.reducePow, Nat.reduceMod, Fields.sub0, Fields.sub31, Fields.cmd, Fields.cmdOnly, sub31, chainWord2_0, chainWord2_1, chain_ops, subHi1_0, subHi1_1, cmd_bits, one_bit1] <;> cases sat <;> cases ty <;> first | rfl | exact (Bool.false_ne_true hw).elim
theorem sstat (c : Ctl) (d : Spec) (a : Spec) : Statement (.sstat c d a) := by
  refine of_shape _ rfl fun hw => ?_
  obtain ⟨w0, n0, p0, s0⟩ := c
  cases n0 <;> first | rfl | exact (Bool.false_ne_true hw).elim
theorem pdec (c : Ctl) (a : Spec) (x : Spec) (cmd : CmdByte) : Statement (.pdec c a x cmd) := by
  refine of_groupD _ rfl rfl fun hw => ?_
  obtain ⟨w0, n0, p0, s0⟩ := c
  cases n0 <;>
    simp only [Fields.groupD, Fields.base, BitVec.toNat_ofNat, Nat.reducePow, Nat.reduceMod, Fields.sub0, Fields.sub31, Fields.cmd, Fields.cmdOnly, sub31, lowByte_hi, lowByte_lo, cmd_bits, one_bit1] <;> first | rfl | exact (Bool.false_ne_true hw).elim
theorem launch (c : Ctl) (a : Spec) (cmd : CmdByte) : Statement (.launch c a cmd) := by
  refine of_groupE _ rfl rfl fun hw => ?_
  obtain ⟨w0, n0, p0, s0⟩ := c
  cases n0 <;>
    simp only [Fields.groupE, Fields.base, BitVec.toNat_ofNat, Nat.reducePow, Nat.reduceMod, Fields.sub0, Fields.cmd, cmd_bits, one_bit1] <;> first | rfl | exact (Bool.false_ne_true hw).elim
theorem spawn (c : Ctl) (pool : BitVec 4) (data : Bool) (a : Spec) (cmd : CmdByte) : Statement (.spawn c pool data a cmd) := by
  refine of_groupE _ rfl rfl fun hw => ?_
  obtain ⟨w0, n0, p0, s0⟩ := c
  cases n0 <;>
    simp only [Fields.groupE, Fields.base, BitVec.toNat_ofNat, Nat.reducePow, Nat.reduceMod, Fields.sub0, Fields.cmd, cmd_bits, one_bit1] <;> cases data <;> first | rfl | exact (Bool.false_ne_true hw).elim
theorem wpop (c : Ctl) (pool : BitVec 4) (d : Spec) (p : Spec) : Statement (.wpop c pool d p) := by
  refine of_shape _ rfl fun hw => ?_
  obtain ⟨w0, n0, p0, s0⟩ := c
  cases n0 <;> first | rfl | exact (Bool.false_ne_true hw).elim
theorem wsteal (c : Ctl) (pool : BitVec 4) (d : Spec) (a : Spec) (p : Spec) : Statement (.wsteal c pool d a p) := by
  refine of_shape _ rfl fun hw => ?_
  obtain ⟨w0, n0, p0, s0⟩ := c
  cases n0 <;> first | rfl | exact (Bool.false_ne_true hw).elim
theorem sysr (c : Ctl) (idx : BitVec 12) (d : Spec) : Statement (.sysr c idx d) := by
  refine of_groupF _ rfl rfl fun hw => ?_
  obtain ⟨w0, n0, p0, s0⟩ := c
  cases n0 <;>
    simp only [Fields.groupF, Fields.base, BitVec.toNat_ofNat, Nat.reducePow, Nat.reduceMod, Fields.sub0, Fields.cmd, Fields.cmdOnly, sys_index, one_bit1] <;> first | rfl | exact (Bool.false_ne_true hw).elim
theorem sysw (c : Ctl) (idx : BitVec 12) (b : Spec) : Statement (.sysw c idx b) := by
  refine of_groupF _ rfl rfl fun hw => ?_
  obtain ⟨w0, n0, p0, s0⟩ := c
  cases n0 <;>
    simp only [Fields.groupF, Fields.base, BitVec.toNat_ofNat, Nat.reducePow, Nat.reduceMod, Fields.sub0, Fields.cmd, Fields.cmdOnly, sys_index, one_bit1] <;> first | rfl | exact (Bool.false_ne_true hw).elim
theorem trap (c : Ctl) (code : BitVec 16) : Statement (.trap c code) := by
  refine of_groupF _ rfl rfl fun hw => ?_
  obtain ⟨w0, n0, p0, s0⟩ := c
  cases n0 <;>
    simp only [Fields.groupF, Fields.base, BitVec.toNat_ofNat, Nat.reducePow, Nat.reduceMod, Fields.sub0, Fields.cmd, Fields.cmdOnly, half16_0, half16_1, one_bit1] <;> first | rfl | exact (Bool.false_ne_true hw).elim
theorem tretRetry (c : Ctl) (d : Spec) (a : Spec) (b : Spec) : Statement (.tretRetry c d a b) := by
  refine of_shape _ rfl fun hw => ?_
  obtain ⟨w0, n0, p0, s0⟩ := c
  cases n0 <;> first | rfl | exact (Bool.false_ne_true hw).elim
theorem tretNext (c : Ctl) (d : Spec) (a : Spec) (b : Spec) : Statement (.tretNext c d a b) := by
  refine of_shape _ rfl fun hw => ?_
  obtain ⟨w0, n0, p0, s0⟩ := c
  cases n0 <;> first | rfl | exact (Bool.false_ne_true hw).elim
theorem tretError (c : Ctl) (d : Spec) (a : Spec) (b : Spec) : Statement (.tretError c d a b) := by
  refine of_shape _ rfl fun hw => ?_
  obtain ⟨w0, n0, p0, s0⟩ := c
  cases n0 <;> first | rfl | exact (Bool.false_ne_true hw).elim
theorem tretEnd (c : Ctl) (d : Spec) (a : Spec) (b : Spec) : Statement (.tretEnd c d a b) := by
  refine of_shape _ rfl fun hw => ?_
  obtain ⟨w0, n0, p0, s0⟩ := c
  cases n0 <;> first | rfl | exact (Bool.false_ne_true hw).elim
theorem bkpt (c : Ctl) : Statement (.bkpt c) := by
  refine of_shape _ rfl fun hw => ?_
  obtain ⟨w0, n0, p0, s0⟩ := c
  cases n0 <;> first | rfl | exact (Bool.false_ne_true hw).elim
theorem mboxSend (c : Ctl) (d : Spec) (a : Spec) (b : Spec) : Statement (.mboxSend c d a b) := by
  refine of_shape _ rfl fun hw => ?_
  obtain ⟨w0, n0, p0, s0⟩ := c
  cases n0 <;> first | rfl | exact (Bool.false_ne_true hw).elim
theorem mboxRecv (c : Ctl) (d : Spec) (a : Spec) (b : Spec) : Statement (.mboxRecv c d a b) := by
  refine of_shape _ rfl fun hw => ?_
  obtain ⟨w0, n0, p0, s0⟩ := c
  cases n0 <;> first | rfl | exact (Bool.false_ne_true hw).elim
theorem attest (c : Ctl) (d : Spec) (a : Spec) (b : Spec) (cmd : CmdByte) : Statement (.attest c d a b cmd) := by
  refine of_groupF _ rfl rfl fun hw => ?_
  obtain ⟨w0, n0, p0, s0⟩ := c
  cases n0 <;>
    simp only [Fields.groupF, Fields.base, BitVec.toNat_ofNat, Nat.reducePow, Nat.reduceMod, Fields.sub0, Fields.cmd, Fields.cmdOnly, lowByte_hi, lowByte_lo, cmd_bits, one_bit1] <;> first | rfl | exact (Bool.false_ne_true hw).elim
theorem joinRelease (crew : Nat) (j : Nat) : Statement (.joinRelease crew j) := of_event rfl
theorem binAgeLimit (q : Nat) (bin : Nat) : Statement (.binAgeLimit q bin) := of_event rfl
theorem recordFile (core : Nat) : Statement (.recordFile core) := of_event rfl
theorem issueSelect (q : Nat) : Statement (.issueSelect q) := of_event rfl
theorem readyAgeRaise (q : Nat) : Statement (.readyAgeRaise q) := of_event rfl
theorem playQuotaExpire (q : Nat) : Statement (.playQuotaExpire q) := of_event rfl
theorem commandAccept (u : UnitRef) : Statement (.commandAccept u) := of_event rfl
theorem commandComplete (turn : CmdTurn) : Statement (.commandComplete turn) := of_event rfl
theorem engineFault (cmd : Nat) : Statement (.engineFault cmd) := of_event rfl
theorem astreamPush (cmd : Nat) : Statement (.astreamPush cmd) := of_event rfl
theorem fredGroupClose (ctx : Nat) (grid : Nat) (group : Nat) : Statement (.fredGroupClose ctx grid group) := of_event rfl
theorem barwaitRelease (u : UnitRef) : Statement (.barwaitRelease u) := of_event rfl
theorem tokenWaitRelease (u : UnitRef) : Statement (.tokenWaitRelease u) := of_event rfl
theorem opopFill (u : UnitRef) : Statement (.opopFill u) := of_event rfl
theorem accumulatorRelease (u : UnitRef) : Statement (.accumulatorRelease u) := of_event rfl
theorem sequencerStep (q : Nat) : Statement (.sequencerStep q) := of_event rfl
theorem txBackoffExpire (u : UnitRef) : Statement (.txBackoffExpire u) := of_event rfl
theorem txPeriodicValidate (crew : Nat) (lane : Nat) : Statement (.txPeriodicValidate crew lane) := of_event rfl
theorem commitTokenGrant (u : UnitRef) : Statement (.commitTokenGrant u) := of_event rfl
theorem serialCommitGrant : Statement (.serialCommitGrant) := of_event rfl
theorem specIterationGrant (u : UnitRef) : Statement (.specIterationGrant u) := of_event rfl
theorem lineMigrate (die : Nat) (line : Nat) : Statement (.lineMigrate die line) := of_event rfl
theorem rcDrop (line : Nat) : Statement (.rcDrop line) := of_event rfl
theorem persistentRequest (line : Nat) : Statement (.persistentRequest line) := of_event rfl
theorem trackingUnitMerge (start : Nat) : Statement (.trackingUnitMerge start) := of_event rfl
theorem windowReadTransform : Statement (.windowReadTransform) := of_event rfl
theorem windowWriteTransform : Statement (.windowWriteTransform) := of_event rfl
theorem decodeJobStart : Statement (.decodeJobStart) := of_event rfl
theorem decodeJobComplete (turn : CmdTurn) : Statement (.decodeJobComplete turn) := of_event rfl
theorem aelogRecordWrite (core : Nat) : Statement (.aelogRecordWrite core) := of_event rfl
theorem waitsForProbe (w : Waiter) : Statement (.waitsForProbe w) := of_event rfl
theorem doorbell (q : Nat) (tail : W32) : Statement (.doorbell q tail) := of_event rfl
theorem queueStatusWrite (q : Nat) (v : W32) : Statement (.queueStatusWrite q v) := of_event rfl
theorem launchEnqueue (q : Nat) : Statement (.launchEnqueue q) := of_event rfl
theorem admission : Statement (.admission) := of_event rfl
theorem prereqPoll : Statement (.prereqPoll) := of_event rfl
theorem teamPlace (grid : Nat) : Statement (.teamPlace grid) := of_event rfl
theorem teamComplete (team : Nat) : Statement (.teamComplete team) := of_event rfl
theorem gridComplete (grid : Nat) : Statement (.gridComplete grid) := of_event rfl
theorem spillReturn (core : Nat) : Statement (.spillReturn core) := of_event rfl
theorem steal (core : Nat) : Statement (.steal core) := of_event rfl
theorem coreVacate (grid : Nat) : Statement (.coreVacate grid) := of_event rfl
theorem teamStop (team : Nat) : Statement (.teamStop team) := of_event rfl
theorem teamMove (team : Nat) : Statement (.teamMove team) := of_event rfl
theorem forwardedRequest (core : Nat) : Statement (.forwardedRequest core) := of_event rfl
theorem divertedOperation (die : Nat) (entry : Nat) : Statement (.divertedOperation die entry) := of_event rfl
theorem teamResume (team : Nat) : Statement (.teamResume team) := of_event rfl
theorem spawnedThreadResume (ctx : Nat) : Statement (.spawnedThreadResume ctx) := of_event rfl
theorem handlerStart (dom : Nat) : Statement (.handlerStart dom) := of_event rfl
theorem faultRecordWrite (dom : Nat) : Statement (.faultRecordWrite dom) := of_event rfl
theorem contextOpen (ctx : Nat) (key : Nat) : Statement (.contextOpen ctx key) := of_event rfl
theorem contextClose (ctx : Nat) : Statement (.contextClose ctx) := of_event rfl
theorem map (ctx : Nat) (va : Addr) (pa : Nat) (big : Bool) (flags : BitVec 5) (auth : Bool) : Statement (.map ctx va pa big flags auth) := of_event rfl
theorem unmap (ctx : Nat) (va : Addr) (remap : Option Nat) (auth : Bool) : Statement (.unmap ctx va remap auth) := of_event rfl
theorem queueSetup (q : Nat) (ctx : Nat) (ring : Addr) (log2 : Nat) (auth : Bool) : Statement (.queueSetup q ctx ring log2 auth) := of_event rfl
theorem aperturePlacement (base : Nat) : Statement (.aperturePlacement base) := of_event rfl
theorem contextControlWrite (ctx : Nat) (idx : BitVec 12) (v : W32) (auth : Bool) : Statement (.contextControlWrite ctx idx v auth) := of_event rfl
theorem s3Entry : Statement (.s3Entry) := of_event rfl
theorem newStartRequest : Statement (.newStartRequest) := of_event rfl
theorem attestService : Statement (.attestService) := of_event rfl
theorem apertureAccess (off : Nat) (n : Nat) (write : Option (List Byte)) : Statement (.apertureAccess off n write) := of_event rfl
theorem peerAccessIn (port : Nat) (partner : Nat) (ctx : Nat) (va : Addr) (req : PeerReq) : Statement (.peerAccessIn port partner ctx va req) := of_event rfl
theorem powerSample (watts milliwatts : Nat) (hot below95 : Bool) : Statement (.powerSample watts milliwatts hot below95) := of_event rfl
theorem coreGate (core : Nat) : Statement (.coreGate core) := of_event rfl
theorem coreWake (core : Nat) : Statement (.coreWake core) := of_event rfl
theorem coldStart : Statement (.coldStart) := of_event rfl
theorem startStep (o : StepOutcome) : Statement (.startStep o) := of_event rfl
theorem patrolScrub (ctl : Nat) (corrected : Bool) (bad : Bool) : Statement (.patrolScrub ctl corrected bad) := of_event rfl
theorem variableLatencyResult (r : ResultRef) : Statement (.variableLatencyResult r) := of_event rfl
theorem windowWriteAcknowledged : Statement (.windowWriteAcknowledged) := of_event rfl
theorem pairing (ctx : Nat) (port : Nat) (partner : Nat) (farAgrees : Bool) : Statement (.pairing ctx port partner farAgrees) := of_event rfl
theorem securityStateRequest (toOpen : Bool) (byOwner : Option OwnerMsg) : Statement (.securityStateRequest toOpen byOwner) := of_event rfl
theorem debugLevelRequest (level : DebugLevel) (ctx : Nat) : Statement (.debugLevelRequest level ctx) := of_event rfl
theorem fusedMinimumRaise (kind : Nat) (version : Nat) (sigRsa : List Byte) (sigSlh : List Byte) : Statement (.fusedMinimumRaise kind version sigRsa sigSlh) := of_event rfl
theorem ownerOpen (m : OwnerMsg) (ctx : Nat) (keys : OwnerKeys) : Statement (.ownerOpen m ctx keys) := of_event rfl
theorem ownerSeal (r : OwnerReq Nat) : Statement (.ownerSeal r) := of_event rfl
theorem ownerChange (r : OwnerReq Nat) (request : List Byte) : Statement (.ownerChange r request) := of_event rfl
theorem ownerChallenge (r : OwnerReq (Option Nat)) : Statement (.ownerChallenge r) := of_event rfl
theorem ownerRevoke (r : OwnerReq Nat) : Statement (.ownerRevoke r) := of_event rfl
theorem ownerClaim (r : OwnerReq OwnerKeys) : Statement (.ownerClaim r) := of_event rfl
theorem consentToken (t : SignedToken) : Statement (.consentToken t) := of_event rfl
theorem repairToken (t : SignedToken) : Statement (.repairToken t) := of_event rfl
theorem ideKeySet (stream : Nat) (ctx : Option Nat) : Statement (.ideKeySet stream ctx) := of_event rfl
theorem debugMailboxHostWrite (msg : Option (List Byte)) : Statement (.debugMailboxHostWrite msg) := of_event rfl
theorem hostWriteDropped : Statement (.hostWriteDropped) := of_event rfl
theorem sramScrub (core : Nat) (corrected : Bool) (bad : Bool) : Statement (.sramScrub core corrected bad) := of_event rfl
theorem flitReplay (peer : Bool) (flit : FlitRef) : Statement (.flitReplay peer flit) := of_event rfl
theorem linkRetrain (peer : Bool) (link : Nat) (ok : Bool) : Statement (.linkRetrain peer link ok) := of_event rfl
theorem scopeCacheEviction (cluster : Bool) (id : Nat) (sector : Nat) (mv : CacheMove) : Statement (.scopeCacheEviction cluster id sector mv) := of_event rfl
theorem peerWriteDropped : Statement (.peerWriteDropped) := of_event rfl
theorem powerLoss : Statement (.powerLoss) := of_event rfl
theorem dieRetention (die : Nat) : Statement (.dieRetention die) := of_event rfl
theorem dieWake (die : Nat) : Statement (.dieWake die) := of_event rfl
theorem s3Exit : Statement (.s3Exit) := of_event rfl
theorem stepTimeout : Statement (.stepTimeout) := of_event rfl

end Encoding

end Sys2Proof.Laws
end

