-- ==== Sys2Proof/Laws/Words.lean ====
section
/-! SUPPORT. Instruction words: the bytes of a word read back as the word, and the fields of an instruction's words read back as the fields. -/

namespace Sys2Proof.Laws

open Sys2Proof Sys2Proof.Machine

/-- The low part of a concatenation. -/
theorem extract_low {m n : Nat} (x : BitVec m) (y : BitVec n) : (x ++ y).extractLsb' 0 n = y := by
  apply BitVec.eq_of_getLsbD_eq
  intro i hi
  simp [BitVec.getLsbD_append, hi]

/-- A field of the high part of a concatenation. -/
theorem extract_high {m n : Nat} (x : BitVec m) (y : BitVec n) {k j : Nat} (h : n ≤ k) :
    (x ++ y).extractLsb' k j = x.extractLsb' (k - n) j := by
  apply BitVec.eq_of_getLsbD_eq
  intro i hi
  simp only [BitVec.getLsbD_extractLsb', BitVec.getLsbD_append]
  rw [if_neg (by omega), show k + i - n = k - n + i by omega]

/-- A whole word. -/
theorem extract_all {n : Nat} (x : BitVec n) : x.extractLsb' 0 n = x := by simp

/-- Little-endian bytes of a word, then anything, read as the word, then the rest (R7, R53). -/
theorem wordsOf_toBytes (w : W32) (rest : List Byte) : wordsOf (toBytes 4 w.toNat ++ rest) = w :: wordsOf rest := by
  have h : (BitVec.ofNat 8 (w.toNat / 256 / 256 / 256) ++ BitVec.ofNat 8 (w.toNat / 256 / 256) ++
      BitVec.ofNat 8 (w.toNat / 256) ++ BitVec.ofNat 8 w.toNat : W32) = w := by
    apply BitVec.eq_of_toNat_eq
    have := w.isLt
    simp only [BitVec.toNat_append, BitVec.toNat_ofNat, Nat.shiftLeft_eq]
    rw [← Nat.shiftLeft_eq, ← Nat.shiftLeft_add_eq_or_of_lt (by omega), ← Nat.shiftLeft_eq, ← Nat.shiftLeft_add_eq_or_of_lt (by omega),
      ← Nat.shiftLeft_eq, ← Nat.shiftLeft_add_eq_or_of_lt (by omega)]
    simp only [Nat.shiftLeft_eq]
    omega
  simp only [toBytes, List.cons_append, List.nil_append, wordsOf, List.cons.injEq, and_true]
  exact h

/-- The words of an encoding's bytes are the words of the encoding, then those of the rest. -/
theorem wordsOf_bytes (ws : List W32) (rest : List Byte) :
    wordsOf ((ws.map fun w => toBytes 4 w.toNat).flatten ++ rest) = ws ++ wordsOf rest := by
  induction ws with
  | nil => rfl
  | cons w ws ih => simp only [List.map_cons, List.flatten_cons, List.append_assoc, wordsOf_toBytes, ih, List.cons_append]

/-- Words 2 and 3 are zero where LEN gives none (R53). -/
def Fits (f : Fields) : Prop := f.len ≠ 3#2 ∧ (f.len = 0#2 → f.w2 = 0#32) ∧ (f.len ≠ 2#2 → f.w3 = 0#32)

/-- The fields of word 0 (R56). -/
theorem word0_fields (f : Fields) : f.word0.extractLsb' 0 2 = f.len ∧ f.word0.extractLsb' 2 4 = f.stall ∧
    f.word0.extractLsb' 6 3 = f.pred ∧ f.word0.extractLsb' 9 1 = f.neg ∧ f.word0.extractLsb' 10 8 = f.wait ∧
    f.word0.extractLsb' 18 6 = f.op ∧ f.word0.extractLsb' 24 4 = f.grp ∧ f.word0.extractLsb' 28 4 = f.sub := by
  unfold Fields.word0
  refine ⟨?_, ?_, ?_, ?_, ?_, ?_, ?_, ?_⟩
  · rw [extract_low]
  · rw [extract_high _ _ (by decide), extract_low]
  · rw [extract_high _ _ (by decide), extract_high _ _ (by decide), extract_low]
  · rw [extract_high _ _ (by decide), extract_high _ _ (by decide), extract_high _ _ (by decide), extract_low]
  · iterate 4 rw [extract_high _ _ (by decide)]
    rw [extract_low]
  · iterate 5 rw [extract_high _ _ (by decide)]
    rw [extract_low]
  · iterate 6 rw [extract_high _ _ (by decide)]
    rw [extract_low]
  · iterate 7 rw [extract_high _ _ (by decide)]
    exact extract_all _

/-- The fields of word 1 (R56). -/
theorem word1_fields (f : Fields) : f.word1.extractLsb' 0 8 = f.d ∧ f.word1.extractLsb' 8 8 = f.a ∧
    f.word1.extractLsb' 16 8 = f.b ∧ f.word1.extractLsb' 24 8 = f.c := by
  unfold Fields.word1
  refine ⟨?_, ?_, ?_, ?_⟩
  · rw [extract_low]
  · rw [extract_high _ _ (by decide), extract_low]
  · iterate 2 rw [extract_high _ _ (by decide)]
    rw [extract_low]
  · iterate 3 rw [extract_high _ _ (by decide)]
    exact extract_all _

/-- The fields of the two words of an instruction, with words 2 and 3, are the fields (R56). -/
theorem ofWords_words (f : Fields) (h : Fits f) (x y : W32) (hx : f.len ≠ 0#2 → x = f.w2) (hy : f.len = 2#2 → y = f.w3) :
    Fields.ofWords f.word0 f.word1 x y = f := by
  obtain ⟨h0, h1, h2, h3, h4, h5, h6, h7⟩ := word0_fields f
  obtain ⟨k0, k1, k2, k3⟩ := word1_fields f
  have e2 : (if f.len = 0 then 0 else x) = f.w2 := by
    by_cases e : f.len = 0
    · rw [if_pos e]; exact (h.2.1 e).symm
    · rw [if_neg e]; exact hx e
  have e3 : (if f.len = 2 then y else 0) = f.w3 := by
    by_cases e : f.len = 2
    · rw [if_pos e]; exact hy e
    · rw [if_neg e]; exact (h.2.2 e).symm
  simp only [Fields.ofWords, h0, h1, h2, h3, h4, h5, h6, h7, k0, k1, k2, k3, e2, e3]

/-- The low two bits of word 0 are LEN (R56). -/
theorem word0_len (f : Fields) : f.word0.extractLsb' 0 2 = f.len := by
  exact (word0_fields f).1

/-- The words of an instruction, then anything, decode as its fields do (R53, R55). -/
theorem decodeWords_words (f : Fields) (h : Fits f) (rest : List W32) :
    decodeWords ([f.word0, f.word1, f.w2, f.w3].take (2 + f.len.toNat) ++ rest) = decodeOp f := by
  have hl : f.len = 0#2 ∨ f.len = 1#2 ∨ f.len = 2#2 := by
    have h3 := h.1
    generalize f.len = l at h3 ⊢
    revert h3; revert l; decide
  have go : ∀ x y, (f.len ≠ 0#2 → x = f.w2) → (f.len = 2#2 → y = f.w3) → ∀ r : List W32, r.length ≥ f.len.toNat →
      r.getD 0 0 = x → r.getD 1 0 = y → decodeWords (f.word0 :: f.word1 :: r) = decodeOp f := by
    intro x y hx hy r hr h0 h1
    have hn : ¬ (f.word0.extractLsb' 0 2 = 3) := by rw [word0_len]; exact h.1
    have hs : ¬ ((f.word1 :: r).length < 1 + (f.word0.extractLsb' 0 2).toNat) := by
      rw [word0_len]; simp only [List.length_cons]; omega
    rw [decodeWords, if_neg hn, if_neg hs]
    simp only [List.getD_cons_zero, List.getD_cons_succ, h0, h1]
    rw [ofWords_words f h x y hx hy]
  rcases hl with hl | hl | hl
  · simp only [hl]
    exact go _ _ (fun k => absurd hl k) (fun k => by rw [hl] at k; cases k) rest (by rw [hl]; simp) rfl rfl
  · simp only [hl]
    exact go _ _ (fun _ => rfl) (fun k => by rw [hl] at k; cases k) (f.w2 :: rest) (by rw [hl]; simp) rfl rfl
  · simp only [hl]
    exact go _ _ (fun _ => rfl) (fun _ => rfl) (f.w2 :: f.w3 :: rest) (by rw [hl]; simp) rfl rfl

end Sys2Proof.Laws
end

