-- ==== Sys2Proof/Tests/Slice0.lean ====
section
/-! SUPPORT. Tests: ill-formed instructions, words written out from the specification's encodings, the issue of every encoded instruction, the
specification's worked values, and states that meet the hypotheses of the statements. -/

namespace Sys2Proof.Tests

-- One theorem after another: many at once need more stacks than a check has memory for.
set_option Elab.async false

open Sys2Proof Sys2Proof.Machine Sys2Proof.Safety

/-- No WAIT, the guard pt, no STALL. -/
def K : Ctl := { wait := 0, neg := false, pred := 7, stall := 0 }
/-- A memory word. -/
def mw (off rc evict : Nat) (scope : Scope) (ord : Ordr) : MemWord :=
  { off := BitVec.ofNat 20 off, rc := BitVec.ofNat 4 rc, evict := BitVec.ofNat 3 evict, scope, ord }
/-- Words with the instruction they stand for. -/
abbrev Sample := List W32 × Instr

/-! ## Words of every encoded instruction, from R56, R63, R64, R66 and the tables of R193, R224, R277, R307, R349, R383, R390, R406, R407 and R409

Guard pt, no WAIT, STALL 0, unless an entry says otherwise. -/

def samples0 : List Sample :=
  [([0x100001c0#32, 0x00080604#32], .iadd K true 4 6 8),
   ([0x100001c1#32, 0x00000604#32, 0xfffffff9#32], .iaddImm K true 4 6 0xFFFFFFF9#32),
   ([0x000401c0#32, 0x00080604#32], .isub K false 4 6 8),
   ([0x000401c1#32, 0x00000604#32, 0xfffffff9#32], .isubImm K false 4 6 0xFFFFFFF9#32),
   ([0x000801c0#32, 0x01080604#32], .iaddc K 4 6 8 1),
   ([0x000801c1#32, 0x01000604#32, 0xfffffff9#32], .iaddcImm K 4 6 0xFFFFFFF9#32 1),
   ([0x000c01c0#32, 0x00080604#32], .imul K 4 6 8),
   ([0x000c01c1#32, 0x00000604#32, 0xfffffff9#32], .imulImm K 4 6 0xFFFFFFF9#32),
   ([0x101001c0#32, 0x00080604#32], .imulh K true 4 6 8),
   ([0x101001c1#32, 0x00000604#32, 0xfffffff9#32], .imulhImm K true 4 6 0xFFFFFFF9#32),
   ([0x001401c0#32, 0x0a080604#32], .imad K 4 6 8 10),
   ([0x101801c0#32, 0x0a080604#32], .imadw K true 4 6 8 10),
   ([0x101c01c0#32, 0x00080604#32], .idiv K true 4 6 8),
   ([0x101c01c1#32, 0x00000604#32, 0xfffffff9#32], .idivImm K true 4 6 0xFFFFFFF9#32),
   ([0x002001c0#32, 0x00080604#32], .irem K false 4 6 8),
   ([0x002001c1#32, 0x00000604#32, 0xfffffff9#32], .iremImm K false 4 6 0xFFFFFFF9#32),
   ([0x102401c0#32, 0x00080604#32], .imin K true 4 6 8),
   ([0x102401c1#32, 0x00000604#32, 0xfffffff9#32], .iminImm K true 4 6 0xFFFFFFF9#32),
   ([0x002801c0#32, 0x00080604#32], .imax K false 4 6 8),
   ([0x002801c1#32, 0x00000604#32, 0xfffffff9#32], .imaxImm K false 4 6 0xFFFFFFF9#32),
   ([0x102c01c0#32, 0x00000604#32], .iabs K true 4 6),
   ([0x003001c0#32, 0x00000604#32], .ineg K false 4 6),
   ([0xc03401c0#32, 0x00080602#32], .iset K .gt true 2 6 8),
   ([0x303401c1#32, 0x00000602#32, 0xfffffff9#32], .isetImm K .le false 2 6 0xFFFFFFF9#32),
   ([0xd03801c0#32, 0x00080604#32], .lea K 5 true 4 6 8),
   ([0x103c01c0#32, 0x00080604#32], .iadd64 K true 4 6 8),
   ([0x103c01c1#32, 0x00000604#32, 0xfffffff9#32], .iadd64Imm K true 4 6 0xFFFFFFF9#32)]

def samples1 : List Sample :=
  [([0x010001c1#32, 0x0a080604#32, 0x00000096#32], .ltab K 4 6 8 10 0x96),
   ([0x110401c0#32, 0x00080604#32], .shl K true 4 6 8),
   ([0x110401c1#32, 0x00000604#32, 0xfffffff9#32], .shlImm K true 4 6 0xFFFFFFF9#32),
   ([0x010801c0#32, 0x00080604#32], .shr K false 4 6 8),
   ([0x010801c1#32, 0x00000604#32, 0xfffffff9#32], .shrImm K false 4 6 0xFFFFFFF9#32),
   ([0x110c01c0#32, 0x00080604#32], .sar K true 4 6 8),
   ([0x110c01c1#32, 0x00000604#32, 0xfffffff9#32], .sarImm K true 4 6 0xFFFFFFF9#32),
   ([0x111001c0#32, 0x00080604#32], .rot K true 4 6 8),
   ([0x111001c1#32, 0x00000604#32, 0xfffffff9#32], .rotImm K true 4 6 0xFFFFFFF9#32),
   ([0x111401c0#32, 0x0a080604#32], .fshf K true 4 6 8 10),
   ([0x011801c0#32, 0x00000604#32], .popc K 4 6),
   ([0x011c01c0#32, 0x00000604#32], .clz K 4 6),
   ([0x012001c0#32, 0x00000604#32], .brev K 4 6),
   ([0x112401c0#32, 0x0a080604#32], .bfx K true 4 6 8 10),
   ([0x012801c0#32, 0x0a080604#32], .bfi K 4 6 8 10),
   ([0x012c01c1#32, 0x0c030201#32, 0x000000e8#32], .ptab K 1 2 3 12 0xE8)]

def samples2 : List Sample :=
  [([0x020001c0#32, 0x00000604#32], .mov K false 4 6),
   ([0x120001c0#32, 0x00000604#32], .mov K true 4 6),
   ([0x020401c1#32, 0x00000004#32, 0x12345678#32], .movi K 4 0x12345678#32),
   ([0x120401c2#32, 0x00000004#32, 0x12345678#32, 0x9abcdef0#32], .moviB64 K 4 0x12345678#32 0x9ABCDEF0#32),
   ([0x020801c0#32, 0x000806c2#32], .movk K 0xC2 6 8),
   ([0x020c01c0#32, 0x0a080604#32], .sel K false 4 6 8 10),
   ([0x120c01c0#32, 0x03080604#32], .sel K true 4 6 8 3),
   ([0x021001c0#32, 0x00000504#32], .rdsp K 4 .core),
   ([0xb21401c0#32, 0x00000604#32], .cvti K .s32s4 4 6)]

def samples3 : List Sample :=
  [([0x230001c1#32, 0x00000600#32, 0xffffffc0#32], .bra K .nonzero 6 0xFFFFFFC0#32),
   ([0x030001c2#32, 0x00000000#32, 0x00000040#32, 0x00000002#32], .braHint K .always 0 0x40#32 .both),
   ([0x030401c0#32, 0x00000600#32], .brx K 6),
   ([0x030801c1#32, 0x00000004#32, 0x00000040#32], .call K 4 0x40#32),
   ([0x030801c2#32, 0x00000004#32, 0x00000040#32, 0x00000001#32], .callHint K 4 0x40#32 .uni),
   ([0x030c01c0#32, 0x00000604#32], .callx K 4 6),
   ([0x031001c0#32, 0x00000600#32], .ret K 6),
   ([0x031401c0#32, 0x00000000#32], .exit K),
   ([0x031801c0#32, 0x00000300#32], .enrol K 3),
   ([0x031c01c0#32, 0x00000300#32], .join K 3),
   ([0x032001c0#32, 0x00000000#32], .reform K),
   ([0x032401c0#32, 0x00000000#32], .yield K),
   ([0x032801c0#32, 0x00000000#32], .nop K),
   ([0x032c01c1#32, 0x00000000#32, 0x00001234#32], .replay K 0x1234)]

def samples4 : List Sample :=
  [([0x740001c1#32, 0x0a080604#32, 0x00000002#32], .shfl K .xor true 4 6 8 10 2),
   ([0x340401c0#32, 0x00000204#32], .vote K .ballot 4 2),
   ([0x340801c1#32, 0x0a000604#32, 0x00000002#32], .redc K .maxs 4 6 10 2),
   ([0xb40c01c1#32, 0x0a000604#32, 0x00000102#32], .scan K .maxidx true 4 6 10 2),
   ([0x141001c0#32, 0x00000604#32], .matchLanes K true 4 6)]

def samples5 : List Sample :=
  [([0x550001c0#32, 0x00080604#32], .fadd K .rz true 4 6 8),
   ([0x550001c1#32, 0x00000604#32, 0xfffffff9#32], .faddImm K .rz true 4 6 0xFFFFFFF9#32),
   ([0x250401c0#32, 0x00080604#32], .fmul K .ru false 4 6 8),
   ([0x250401c1#32, 0x00000604#32, 0xfffffff9#32], .fmulImm K .ru false 4 6 0xFFFFFFF9#32),
   ([0x350801c0#32, 0x0a080604#32], .ffma K .rd false 4 6 8 10),
   ([0x150c01c0#32, 0x00080604#32], .fmin K true 4 6 8),
   ([0x150c01c1#32, 0x00000604#32, 0xfffffff9#32], .fminImm K true 4 6 0xFFFFFFF9#32),
   ([0x051001c0#32, 0x00080604#32], .fmax K false 4 6 8),
   ([0x051001c1#32, 0x00000604#32, 0xfffffff9#32], .fmaxImm K false 4 6 0xFFFFFFF9#32),
   ([0x651401c0#32, 0x00080602#32], .fset K .un 2 6 8),
   ([0x751401c1#32, 0x00000602#32, 0xfffffff9#32], .fsetImm K .ord 2 6 0xFFFFFFF9#32),
   ([0x051801c0#32, 0x00080602#32], .fclass K 2 6 8),
   ([0x051801c1#32, 0x00000602#32, 0xfffffff9#32], .fclassImm K 2 6 0xFFFFFFF9#32),
   ([0x151c01c0#32, 0x00000604#32], .frnd K .rz 4 6)]

def samples6 : List Sample :=
  [([0xd60001c0#32, 0x00080604#32], .hadd2 K true .ru true 4 6 8),
   ([0xd60001c1#32, 0x00000604#32, 0xfffffff9#32], .hadd2Imm K true .ru true 4 6 0xFFFFFFF9#32),
   ([0x260401c0#32, 0x00080604#32], .hmul2 K false .rz false 4 6 8),
   ([0x260401c1#32, 0x00000604#32, 0xfffffff9#32], .hmul2Imm K false .rz false 4 6 0xFFFFFFF9#32),
   ([0x160801c0#32, 0x0a080604#32], .hfma2 K true .rne false 4 6 8 10),
   ([0x260c01c0#32, 0x00080604#32], .hmin2 K false true 4 6 8),
   ([0x260c01c1#32, 0x00000604#32, 0xfffffff9#32], .hmin2Imm K false true 4 6 0xFFFFFFF9#32),
   ([0x161001c0#32, 0x00080604#32], .hmax2 K true false 4 6 8),
   ([0x161001c1#32, 0x00000604#32, 0xfffffff9#32], .hmax2Imm K true false 4 6 0xFFFFFFF9#32),
   ([0xd61401c0#32, 0x00080604#32], .hset2 K .ge true 4 6 8),
   ([0xd61401c1#32, 0x00000604#32, 0xfffffff9#32], .hset2Imm K .ge true 4 6 0xFFFFFFF9#32)]

def samples7 : List Sample :=
  [([0x070001c0#32, 0x00000604#32], .rcp K 4 6),
   ([0x070401c0#32, 0x00000604#32], .rsq K 4 6),
   ([0x070801c0#32, 0x00000604#32], .sqrt K 4 6),
   ([0x070c01c0#32, 0x00000604#32], .exp2 K 4 6),
   ([0x071001c0#32, 0x00000604#32], .log2 K 4 6),
   ([0x071401c0#32, 0x00000604#32], .fsin K 4 6),
   ([0x071801c0#32, 0x00000604#32], .fcos K 4 6),
   ([0x071c01c0#32, 0x00000604#32], .tanh K 4 6),
   ([0x372001c0#32, 0x00080604#32], .fdiv K .rd 4 6 8),
   ([0xc72401c1#32, 0x00000604#32, 0x00000030#32], .fcvt K .sr true .fp32 .e4m3 4 6),
   ([0x172801c1#32, 0x0a080604#32, 0x00000370#32], .fcvtp K .rz false .e2m1 3 4 6 8 10)]

def samples8 : List Sample :=
  [([0x580001c1#32, 0x00000604#32, 0xffff8336#32], .ld K .b64 (mw 1048568 3 1 .device .acquire) 4 6),
   ([0x480401c1#32, 0x00080600#32, 0x000100e0#32], .st K .b32 (mw 16 0 7 .thread .plain) 6 8),
   ([0x380801c1#32, 0x00000604#32, 0x00002009#32], .lds K .s16 (mw 2 0 0 .team .relaxed) 4 6),
   ([0x680c01c1#32, 0x00080600#32, 0x00000007#32], .sts K .b128 (mw 0 0 0 .crew .release) 6 8),
   ([0x081001c1#32, 0x00000604#32, 0x0000000e#32], .ldc K .b8 (mw 0 0 0 .cluster .acquire) 4 6),
   ([0x281401c1#32, 0x00080600#32, 0x00000000#32], .stc K .b16 (mw 0 0 0 .thread .plain) 6 8),
   ([0x081801c1#32, 0x00000000#32, 0x0000001b#32], .fence K (mw 0 0 0 .system .release)),
   ([0x281c01c1#32, 0x00080600#32, 0x0004000d#32], .cctl K .wbinv (mw 64 0 0 .cluster .relaxed) 6 8),
   ([0x082001c1#32, 0x00080600#32, 0x00000011#32], .icinv K (mw 0 0 0 .die .relaxed) 6 8),
   ([0x082401c1#32, 0x00000600#32, 0x00080f41#32], .pref K (mw 128 15 2 .thread .relaxed) 6)]

def samples9 : List Sample :=
  [([0x990001c1#32, 0x0c080604#32, 0x00008015#32], .atom K .maxidx true true (mw 8 0 0 .device .relaxed) 4 6 8),
   ([0x090401c1#32, 0x0a080604#32, 0x00000013#32], .atomcas K false false (mw 0 0 0 .die .release) 4 6 8 10),
   ([0x090801c1#32, 0x01080604#32, 0x00000000#32], .atoms K .fadd false false (mw 0 0 0 .thread .plain) 4 6 8),
   ([0x190c01c1#32, 0x0b080600#32, 0x0000001b#32], .red K .dec true (mw 0 0 0 .system .release) 6 8)]

def samplesA : List Sample :=
  [([0x0a0001c2#32, 0x0a080603#32, 0x00020004#32, 0x00000041#32], .astream K 3 6 8 10 4 2 { bv := false, tv := true, tok := 1 }),
   ([0x0a0401c1#32, 0x00000403#32, 0x00000010#32], .opush K 3 4 16),
   ([0x1a0801c0#32, 0x00000304#32], .opop K true 4 3),
   ([0xaa0c01c1#32, 0x0a080604#32, 0x0003e880#32], .gather K 2 true 4 6 8 10 1000 { bv := true, tv := false, tok := 0 }),
   ([0x4a1001c1#32, 0x00080604#32, 0x00ffff47#32], .scatter K 4 false 4 6 8 0 65535 { bv := false, tv := true, tok := 7 }),
   ([0x0a1401c1#32, 0x09080604#32, 0x000000c2#32], .cpy K 4 6 8 9 { bv := true, tv := true, tok := 2 }),
   ([0x0a1801c2#32, 0x00080604#32, 0x12345200#32, 0x03210709#32], .cpy2g K 4 6 8 0 0x12345 2 0x321 7 9 { bv := false, tv := false, tok := 0 }),
   ([0x1a1c01c2#32, 0x00ff0604#32, 0x12344643#32, 0x54321abc#32], .cpyt K true 4 6 0xFF 0 0x1234 .b .int8 0x54321 0xABC { bv := false, tv := true, tok := 3 }),
   ([0x0a1c01c2#32, 0x00080604#32, 0x80001500#32, 0x00001001#32], .cpyt K false 4 6 8 0 0x8000 .a .mxe2m1 1 1 { bv := false, tv := false, tok := 0 }),
   ([0x0a2001c2#32, 0x00080604#32, 0x00000045#32, 0xffffffc0#32], .cpyr K 4 6 8 0 0xFFFFFFC0#32 { bv := false, tv := true, tok := 5 }),
   ([0x0a2401c0#32, 0x00000500#32], .close K 5),
   ([0xfa2801c0#32, 0x00000504#32], .waitb K 15 4 5),
   ([0x0a2c01c1#32, 0x00080600#32, 0xfffffff0#32], .barinit K 6 8 0xFFFFFFF0#32),
   ([0x3a3001c1#32, 0x00080600#32, 0x00000010#32], .bararv K true true 6 8 16#32),
   ([0x2a3001c1#32, 0x00000600#32, 0x00000000#32], .bararv K true false 6 0 0#32),
   ([0x0a3401c1#32, 0x00080600#32, 0x00000020#32], .barexp K 6 8 32#32),
   ([0x5a3801c0#32, 0x00080604#32], .barwait K .device 4 6 8),
   ([0x2a3c01c0#32, 0x00080604#32], .bartest K .team 4 6 8),
   ([0x1a4001c2#32, 0x00080604#32, 0x00123441#32, 0x00000003#32], .fred K true 4 6 8 0 0x1234 0 3 { bv := false, tv := true, tok := 1 }),
   ([0x0a4001c2#32, 0x00080604#32, 0x00ffff00#32, 0x00f00001#32], .fred K false 4 6 8 0 0xFFFF 0xF0 1 { bv := false, tv := false, tok := 0 })]

def samplesB : List Sample :=
  [([0x1b0001c0#32, 0x00000009#32], .txopen K true 9),
   ([0x0b0401c0#32, 0x00000000#32], .txcommit K),
   ([0x0b0801c1#32, 0x00000000#32, 0x00000005#32], .txquit K 5),
   ([0x0b0c01c0#32, 0x00000004#32], .txstat K 4),
   ([0x6b1001c0#32, 0x00000c09#32], .spopen K false 3 9 12),
   ([0x0b1401c0#32, 0x00000000#32], .spcommit K)]

def samplesC : List Sample :=
  [([0x1c0001c0#32, 0x00000002#32], .mzero K true 2),
   ([0x0c0401c1#32, 0x00000602#32, 0x00000040#32], .mld K 2 6 64#32),
   ([0x0c0801c1#32, 0x00020600#32, 0xffffffc0#32], .mst K 6 2 0xFFFFFFC0#32),
   ([0x1c0c01c0#32, 0x00080602#32], .mma K true 2 6 8),
   ([0x0c1001c2#32, 0x000c0a02#32, 0x00009010#32, 0x00090009#32], .mloop K false 2 10 12 false 0 true 1 16 9 9),
   ([0x1c1001c2#32, 0x000c0a02#32, 0x000d0040#32, 0x0000ffff#32], .mloop K true 2 10 12 true 5 false 0 64 0xFFFF 0),
   ([0x1c1401c2#32, 0x0e0c0a02#32, 0x0000b000#32, 0x00000000#32], .mconv K true 2 10 12 14 true 3),
   ([0x2c1801c0#32, 0x0a080602#32], .mmas K false true 2 6 8 10),
   ([0x0c1c01c1#32, 0x00080604#32, 0x00000000#32], .mcomp K 4 6 8),
   ([0x0c2001c1#32, 0x00080200#32, 0x00000456#32], .mqnt K .sr .b .mxint8 2 8),
   ([0x0c2401c0#32, 0x00000204#32], .mstat K 4 2),
   ([0x1c2801c0#32, 0x00000605#32], .fsetm K true 5 6)]

def samplesD : List Sample :=
  [([0x0d0001c1#32, 0x00000604#32, 0x0000007f#32], .sbind K 0x7F 4 6),
   ([0x0d0401c0#32, 0x00000600#32], .sunbind K 6),
   ([0x5d0801c0#32, 0x00000600#32], .ginv K .device 6),
   ([0xdd0c01c2#32, 0x00080604#32, 0x00009142#32, 0x00000000#32], .chain K true .s16 4 6 8 0 0x91 { bv := false, tv := true, tok := 2 }),
   ([0x0d1001c0#32, 0x00000604#32], .sstat K 4 6),
   ([0x0d1401c1#32, 0x08000600#32, 0x00000080#32], .pdec K 6 8 { bv := true, tv := false, tok := 0 })]

def samplesE : List Sample :=
  [([0x0e0001c0#32, 0x40001400#32], .launch K 20 { bv := false, tv := true, tok := 0 }),
   ([0x0e0401c0#32, 0x42001000#32], .spawn K 0 false 16 { bv := false, tv := true, tok := 2 }),
   ([0x0e0801c0#32, 0x00020010#32], .wpop K 0 16 2),
   ([0x0e0c01c0#32, 0x00020610#32], .wsteal K 0 16 6 2)]

def samplesF : List Sample :=
  [([0x2f0001c0#32, 0x00000105#32], .sysr K 0x201 5),
   ([0x0f0401c0#32, 0x00061000#32], .sysw K 0x010 6),
   ([0x0f0801c1#32, 0x00000000#32, 0x0000beef#32], .trap K 0xBEEF),
   ([0x0f0c01c0#32, 0x00080602#32], .tretRetry K 2 6 8),
   ([0x1f0c01c0#32, 0x00080602#32], .tretNext K 2 6 8),
   ([0x2f0c01c0#32, 0x00080602#32], .tretError K 2 6 8),
   ([0x3f0c01c0#32, 0x00080602#32], .tretEnd K 2 6 8),
   ([0x0f1001c0#32, 0x00000000#32], .bkpt K),
   ([0x0f1401c0#32, 0x00080604#32], .mboxSend K 4 6 8),
   ([0x1f1401c0#32, 0x00080604#32], .mboxRecv K 4 6 8),
   ([0x0f1801c1#32, 0x00080604#32, 0x00000041#32], .attest K 4 6 8 { bv := false, tv := true, tok := 1 })]

/-- The words decode to the instruction, and are its encoding. -/
def Sample.decodes (e : Sample) : Bool :=
  (match decodeWords e.1 with
   | .instr i n _ => i == e.2 && n == 4 * e.1.length
   | _ => false) && encode e.2 == e.1 && e.2.wf

/-- The number that the host gives for the words. -/
def Sample.number (e : Sample) : Nat := e.1.foldr (fun w n => w.toNat + 4294967296 * n) 0
/-- The placed state that runs the words next. -/
def Sample.placed (e : Sample) : State := State.reset.withFetchWord (32 * e.1.length) e.number

/-- The issue in which a state runs an instruction. -/
def runEx (s : State) (i : Instr) : Option Ex :=
  match shape s i with
  | some p => issueEx s i p.ctl p.ops p.extra p.rule
  | none => none

theorem test_decode_group_0 : samples0.all Sample.decodes = true := by decide +kernel
theorem test_decode_group_1 : samples1.all Sample.decodes = true := by decide +kernel
theorem test_decode_group_2 : samples2.all Sample.decodes = true := by decide +kernel
theorem test_decode_group_3 : samples3.all Sample.decodes = true := by decide +kernel
theorem test_decode_group_4 : samples4.all Sample.decodes = true := by decide +kernel
theorem test_decode_group_5 : samples5.all Sample.decodes = true := by decide +kernel
theorem test_decode_group_6 : samples6.all Sample.decodes = true := by decide +kernel
theorem test_decode_group_7 : samples7.all Sample.decodes = true := by decide +kernel
theorem test_decode_group_8 : samples8.all Sample.decodes = true := by decide +kernel
theorem test_decode_group_9 : samples9.all Sample.decodes = true := by decide +kernel
theorem test_decode_group_A : samplesA.all Sample.decodes = true := by decide +kernel
theorem test_decode_group_B : samplesB.all Sample.decodes = true := by decide +kernel
theorem test_decode_group_C : samplesC.all Sample.decodes = true := by decide +kernel
theorem test_decode_group_D : samplesD.all Sample.decodes = true := by decide +kernel
theorem test_decode_group_E : samplesE.all Sample.decodes = true := by decide +kernel
theorem test_decode_group_F : samplesF.all Sample.decodes = true := by decide +kernel

theorem test_issue_group_0 : (samples0.all fun e => (runEx e.placed e.2).isSome) = true := by decide +kernel
theorem test_issue_group_1 : (samples1.all fun e => (runEx e.placed e.2).isSome) = true := by decide +kernel
theorem test_issue_group_2 : (samples2.all fun e => (runEx e.placed e.2).isSome) = true := by decide +kernel
theorem test_issue_group_3 : (samples3.all fun e => (runEx e.placed e.2).isSome) = true := by decide +kernel
theorem test_issue_group_4 : (samples4.all fun e => (runEx e.placed e.2).isSome) = true := by decide +kernel
theorem test_issue_group_5 : (samples5.all fun e => (runEx e.placed e.2).isSome) = true := by decide +kernel
theorem test_issue_group_6 : (samples6.all fun e => (runEx e.placed e.2).isSome) = true := by decide +kernel
theorem test_issue_group_7 : (samples7.all fun e => (runEx e.placed e.2).isSome) = true := by decide +kernel
theorem test_issue_group_8 : (samples8.all fun e => (runEx e.placed e.2).isSome) = true := by decide +kernel
theorem test_issue_group_9 : (samples9.all fun e => (runEx e.placed e.2).isSome) = true := by decide +kernel
theorem test_issue_group_A : (samplesA.all fun e => (runEx e.placed e.2).isSome) = true := by decide +kernel
theorem test_issue_group_B : (samplesB.all fun e => (runEx e.placed e.2).isSome) = true := by decide +kernel
theorem test_issue_group_C : (samplesC.all fun e => (runEx e.placed e.2).isSome) = true := by decide +kernel
theorem test_issue_group_D : (samplesD.all fun e => (runEx e.placed e.2).isSome) = true := by decide +kernel
theorem test_issue_group_E : (samplesE.all fun e => (runEx e.placed e.2).isSome) = true := by decide +kernel
theorem test_issue_group_F : (samplesF.all fun e => (runEx e.placed e.2).isSome) = true := by decide +kernel

/-! ## States that meet the hypotheses of the statements: instructions -/

/-- The placed state that runs an encoded instruction next. -/
def st (i : Instr) : State := Sample.placed (encode i, i)
/-- Every crew, team, access thread, grid or context of a state changed. -/
def onCrew (f : Crew → Crew) (s : State) : State := { s with crews := s.crews.map fun e => (e.1, f e.2) }
def onTeam (f : Team → Team) (s : State) : State := { s with teams := s.teams.map fun e => (e.1, f e.2) }
def onAp (f : Machine.Access → Machine.Access) (s : State) : State := onTeam (fun t => { t with access := t.access.map f }) s
def onGrid (f : Machine.Grid → Machine.Grid) (s : State) : State := { s with grids := s.grids.map fun e => (e.1, f e.2) }
def onCtx (f : Ctx → Ctx) (s : State) : State := { s with ctxs := s.ctxs.map fun e => (e.1, f e.2) }
/-- Every thread of every crew changed, by its lane. -/
def onLanes (f : Nat → Thread → Thread) (s : State) : State :=
  onCrew (fun c => { c with lanes := c.lanes.mapIdx fun l t => t.map (f l) }) s
/-- Registers `g` set to the same values in every lane. -/
def gs (l : List (Nat × Nat)) (s : State) : State :=
  onLanes (fun _ t => { t with g := l.foldl (fun g e => lset g e.1 (BitVec.ofNat 32 e.2)) t.g }) s
/-- A pair of `g` registers set in every lane. -/
def pair (r v : Nat) (s : State) : State := gs [(r, v % 4294967296), (r + 1, v / 4294967296)] s
/-- Registers of the access thread set. -/
def as_ (l : List (Nat × Nat)) (s : State) : State :=
  onAp (fun a => { a with a := l.foldl (fun g e => lset g e.1 (BitVec.ofNat 64 e.2)) a.a }) s
/-- The access thread selected instead. -/
def asAp (s : State) : State := { s with cur := some (.access 2) }
/-- Every arithmetic cause selected to trap. -/
def trapping (s : State) : State := onCtx (fun c => { c with regs := ctlWrite (ctlWrite c.regs 0 2) 1 0xFFFFFFFF#32 }) s
/-- An instruction runs, in a state made from its placed state, in an issue of which something holds. -/
def holds (i : Instr) (f : State → State) (p : State → Ex → Bool) : Bool :=
  match runEx (f (st i)) i with
  | some x => p (f (st i)) x
  | none => false
/-- How many samples of a table run. -/
def ran {α : Type} (f : Instr → Option α) (l : List Sample) : Nat :=
  (l.filter fun e => (f e.2).isSome && (runEx e.placed e.2).isSome).length
/-- The first byte of the crew's own scratchpad, and a mapped byte of device memory. -/
def own : Nat := 0x7FFF0000000000
def dev : Nat := 0x20020000

theorem test_meets_IntegerResults : ran word32 (samples0 ++ samples1 ++ samples2) = 35 := by decide +kernel
theorem test_meets_WideResults : ran word64 (samples0 ++ samples2) = 7 := by decide +kernel
theorem test_meets_PredicateResults : ran predicate (samples0 ++ samples1 ++ samples5) = 7 := by decide +kernel
theorem test_meets_QuietFloatResults : ran floatQuiet (samples5 ++ samples6) = 11 := by decide +kernel
theorem test_meets_FloatResultsAndEvents : ran floatLoud (samples5 ++ samples6) = 10 ∧
    ((samples5 ++ samples6).all fun e => match floatLoud e.2, runEx e.placed e.2 with
      | some r, some x => (trapOf (ctlOf e.placed 0) (eventsOf x.lanes fun l => (r.val x l).2)).isNone
      | _, _ => true) = true ∧
    holds (.fadd K .rne false 4 6 8) (trapping ∘ gs [(6, 0x7F800000), (8, 0xFF800000)]) (fun s x =>
      match floatLoud (.fadd K .rne false 4 6 8) with
      | some r => trapOf (ctlOf s 0) (eventsOf x.lanes fun l => (r.val x l).2) == some (.invalid, 0xFFFFFFFF#64)
      | none => false) = true := by decide +kernel
theorem test_meets_DivisionAndSpecialFunctions : ran lateLoud (samples0 ++ samples7) = 13 ∧
    holds (.idiv K true 4 6 8) (trapping ∘ gs [(6, 7), (8, 2)]) (fun s x => match lateLoud (.idiv K true 4 6 8) with
      | some r => (trapOf (ctlOf s 0) (eventsOf x.lanes fun l => (r.val x l).2)).isNone
      | none => false) = true ∧
    holds (.idiv K true 4 6 8) trapping (fun s x => match lateLoud (.idiv K true 4 6 8) with
      | some r => trapOf (ctlOf s 0) (eventsOf x.lanes fun l => (r.val x l).2) == some (.divz, 0xFFFFFFFF#64)
      | none => false) = true := by decide +kernel
theorem test_meets_SelectChooses : holds (.sel K false 4 6 8 10) id (fun _ x => !x.body.isAp) = true ∧
    holds (.sel K true 4 6 8 3) id (fun _ x => !x.body.isAp) = true ∧
    holds (.sel K true 4 6 8 3) asAp (fun _ x => x.body.isAp) = true := by decide +kernel
theorem test_meets_AddressComputation : holds (.lea K 5 true 4 6 8) id (fun _ _ => true) = true ∧
    holds (.lea K 0 false 4 6 8) asAp (fun _ _ => true) = true := by decide +kernel
theorem test_meets_AddWithCarry : holds (.iaddc K 4 6 8 7) id (fun _ x => x.p 7#8 31) = true ∧
    holds (.iaddcImm K 4 6 1 2) asAp (fun _ x => x.body.isAp) = true := by decide +kernel
theorem test_meets_float_values :
    valOf fp32 0x7FC00001 = .nan ∧ valOf fp32 0xFF800000 = .inf true ∧ valOf fp32 0x80000000 = .num 0 true ∧ valOf fp32 0xBF800000 = .num (-1) true ∧
    valOf fp32 0x40400000 = .num 3 false ∧ valOf fp32 0x3E800000 = .num ((2 : ℚ) ^ (-2 : ℤ)) false ∧ (specialCase .rcp 0x80000000).isSome = true ∧
    (specialCase .sin 0x7F800000).isSome = true ∧ fp16 ∈ [fp32, fp16, bf16] := by decide +kernel
theorem test_meets_SpecialRegisterReads_places :
    holds (.rdsp K 4 .team) id (fun s x => teamOf s x.ref == some 2 && (tget s.teams 2).isSome && (tget s.grids 1).isSome &&
      match x.body with | .crew c => c.owner == .team 2 && (c.lanes.getD 31 none).isSome | .ap _ => false) = true ∧
    holds (.rdsp K 4 .thread) (onCrew fun c => { c with owner := .pool 3 }) (fun s x => (teamOf s x.ref).isNone &&
      match x.body with | .crew c => c.owner == .pool 3 | .ap _ => false) = true := by decide +kernel
theorem test_meets_SpecialRegisterReads : holds (.rdsp K 4 .clock) id (fun _ _ => true) = true ∧
    holds (.rdsp K 4 .lane) id (fun _ x => !x.body.isAp) = true ∧ holds (.rdsp K 4 .lane) asAp (fun _ x => x.body.isAp) = true := by
  decide +kernel
theorem test_meets_ConversionResults :
    holds (.fcvt K .sr true .fp32 .e4m3 4 6) id (fun s x =>
      (trapOf (ctlOf s 0) (eventsOf x.lanes fun l => (fcvtVal x .sr true .fp32 .e4m3 6 l).2)).isNone) = true ∧
    holds (.fcvt K .rne false .fp32 .int32 4 6) (trapping ∘ gs [(6, 0x7FC00000)]) (fun s x =>
      (trapOf (ctlOf s 0) (eventsOf x.lanes fun l => (fcvtVal x .rne false .fp32 .int32 6 l).2)).isSome) = true ∧
    holds (.fcvtp K .rz false .e2m1 3 4 6 8 10) id (fun s x =>
      (trapOf (ctlOf s 0) (eventsOf x.lanes fun l => (fcvtpVal x .rz false .e2m1 3 6 8 10 l).2)).isNone) = true ∧
    holds (.fcvtp K .rz false .int8 1 4 6 8 10) (trapping ∘ gs [(6, 0x7FC00000)]) (fun s x =>
      (trapOf (ctlOf s 0) (eventsOf x.lanes fun l => (fcvtpVal x .rz false .int8 1 6 8 10 l).2)).isSome) = true := by decide +kernel

/-! ### Cross-lane and control -/

theorem test_meets_LaneExchange :
    holds (.shfl K .idx true 4 6 8 10 2) (gs [(8, 31)]) (fun _ x => shflSource .idx x.width 0 (x.v 8 0).toNat == some 31) = true ∧
    holds (.shfl K .idx false 4 6 8 10 2) (gs [(8, 32)]) (fun _ x => shflSource .idx x.width 0 (x.v 8 0).toNat == none) = true ∧
    holds (.shfl K .up false 4 6 8 10 2) (gs [(8, 1)]) (fun _ x => shflSource .up x.width 0 (x.v 8 0).toNat == none) = true ∧
    ([VoteMode.all, .any, .eq, .ballot].all fun m => holds (.vote K m 4 2) id fun _ _ => true) = true ∧
    holds (.matchLanes K true 4 6) id (fun _ _ => true) = true := by decide +kernel
theorem test_meets_Reductions :
    holds (.redc K .add 4 6 10 2) id (fun s x => (trapOf (ctlOf s 0)
      (crossEvents x (combineTree .add 6 ((List.range x.width).map (contribution x false 6 10))).2)).isNone) = true ∧
    holds (.redc K .fadd 4 6 10 2) (trapping ∘ gs [(6, 0x7F7FFFFF)]) (fun s x => (trapOf (ctlOf s 0)
      (crossEvents x (combineTree .fadd 6 ((List.range x.width).map (contribution x false 6 10))).2)).isSome) = true ∧
    holds (.scan K .maxidx true 4 6 10 2) id (fun s x => (trapOf (ctlOf s 0)
      (crossEvents x (x.lanes.map fun l => (scanVal x .maxidx true true 6 10 l).2).flatten)).isNone) = true ∧
    holds (.scan K .fadd false 4 6 10 2) (trapping ∘ gs [(6, 0x7F7FFFFF)]) (fun s x => (trapOf (ctlOf s 0)
      (crossEvents x (x.lanes.map fun l => (scanVal x .fadd false false 6 10 l).2).flatten)).isSome) = true := by decide +kernel
/-- Whether the body of an issue is a crew of which something holds. -/
def ofCrew (x : Ex) (p : Crew → Bool) : Bool := match x.body with | .crew c => p c | .ap _ => false
/-- Lane 0 alone executes, because a guard is true there alone; `p1` is written. -/
def K1 : Ctl := { K with pred := 1 }
def lane0 (s : State) : State := onLanes (fun l t => if l = 0 then { t with p := 2 } else t) s
theorem test_meets_ControlFlow :
    ([Instr.nop K, .yield K, .replay K 9].all fun i => holds i id fun _ _ => true) = true ∧
    holds (.enrol K 7) id (fun _ x => ofCrew x fun _ => true) = true ∧
    holds (.join K 3) id (fun _ x => ofCrew x fun c => c.j.getD 3 0 == 0) = true ∧
    holds (.join K 3) (onCrew fun c => { c with j := lset c.j 3 0xFFFFFFFF#64 }) (fun _ x => ofCrew x fun c => c.j.getD 3 0 != 0) = true ∧
    holds (.exit K) asAp (fun _ x => x.ref == .access 2) = true ∧
    holds (.exit K1) lane0 (fun s x => x.ref == .crew 3 0 && ofCrew x (fun _ => true) &&
      (match tget (retire x K1 x.body s).crews 3 with | some c => c.owner == .team 2 | none => false)) = true ∧
    holds (.reform K) id (fun _ x => ofCrew x fun c => c.results.isEmpty) = true ∧
    holds (.reform K) (onCrew fun c => { c with results := [{ lane := 31, dst := .g 191, val := some 1, tag := 0 }] }) (fun _ x =>
      ofCrew x fun c => c.results.any fun r => x.exec.getLsbD r.lane && (match r.dst with | .g _ | .p _ => true | _ => false)) = true := by
  decide +kernel
/-- The targets of an instruction that are not canonical, and those that are not aligned. -/
def farT (x : Ex) (t : Nat → Addr) : List Nat := x.lanes.filter fun l => (t l).toNat / 2 ^ 55 != 0
def oddT (x : Ex) (t : Nat → Addr) : List Nat := x.lanes.filter fun l => (t l).toNat % 4 != 0
theorem test_meets_Transfers :
    ([BraForm.always, .zero, .nonzero].all fun f => holds (.bra K f (if f = .always then 0 else 6) 8) id (fun _ _ => true) &&
      holds (.braHint K f (if f = .always then 0 else 6) 8 .uni) id fun _ _ => true) = true ∧
    ([Instr.brx K 6, .ret K 6, .callx K 4 6].all fun i =>
      holds i (pair 6 0x7FFFFFFFFFFFFC) (fun _ x => farT x (x.w 6) == [] && oddT x (x.w 6) == []) &&
      holds i (pair 6 0x80000000000000) (fun _ x => farT x (x.w 6) != []) &&
      holds i (pair 6 0x20000002) (fun _ x => farT x (x.w 6) == [] && oddT x (x.w 6) != [])) = true ∧
    holds (.call K 4 0x40) id (fun _ x => (x.pc + 0x40).toNat / 2 ^ 55 == 0 && (x.pc + 0x40).toNat % 4 == 0) = true ∧
    holds (.callHint K 4 0x40 .both) id (fun _ x => (x.pc + 0x40).toNat / 2 ^ 55 == 0 && (x.pc + 0x40).toNat % 4 == 0) = true := by
  decide +kernel

/-! ### Memory -/

/-- What a load meets: 1 a failing check, 2 an earlier access that it must follow, 3 no places, 4 it is performed after its issue, 5 a stop,
6 it completes, 8 bytes of a bound view. -/
def loadMeets (i : Instr) (f : State → State) : Nat :=
  match loadOf i, runEx (f (st i)) i with
  | some q, some x =>
    let s := f (st i)
    let core := coreOf s x.ref
    let ps := q.pieces s x .load
    let r := eachPass q.m.rc.toNat x.lanes (q.loadOne s x) s
    if (q.checks s x .load).isSome then 1
    else if meetsPend s x.ref ps then 2
    else if !placesFor s core (requestsOf ps).length then 3
    else if defers s x q.m ps then 4
    else if (memStop x i r.1 (fun l => (q.ea x l).toNat) s).isSome then 5
    else if !(r.1.any fun e => match e.2 with | .pieces _ => true | _ => false) then 6
    else 8
  | _, _ => 0
/-- What a store meets: 1 a failing check, 2 an earlier access, 3 a release that waits, 4 no places, 5 it is performed after its issue, 6 a stop,
8 it completes. -/
def storeMeets (i : Instr) (f : State → State) : Nat :=
  match storeOf i, runEx (f (st i)) i with
  | some q, some x =>
    let s := f (st i)
    let core := coreOf s x.ref
    let ps := q.pieces s x .store
    let rel := q.m.ord == .release && x.lanes.any fun l => txMode x l == (false, false)
    let late := defers s x q.m ps
    let s0 := if rel then releaseAt s core (lvlOf q.m.scope) else s
    let r := eachLane x.lanes (q.storeOne s x) s0
    if (q.checks s x .store).isSome then 1
    else if meetsPend s x.ref ps || (!late && (pendOf s x.ref).any fun p => p.pieces.any (·.writes p) || rel) then 2
    else if !placesFor s core (requestsOf ps).length then 4
    else if rel && (releaseObject s x.ref q.m.scope).isSome then 3
    else if late then 5
    else if (memStop x i r.1 (fun l => (q.ea x l).toNat) s).isSome then 6
    else 8
  | _, _ => 0
def pl : MemWord := mw 0 0 0 .thread .plain
def rlx (sc : Scope) : MemWord := mw 0 0 0 sc .relaxed
def acq (sc : Scope) : MemWord := mw 0 0 0 sc .acquire
def rel (sc : Scope) : MemWord := mw 0 0 0 sc .release
/-- A request of the placed crew's that is still at a controller. -/
def req1 : WinReq := { ctx := 0, grid := 1, core := 0, crew := some 3, team := some 2, pc := 0, va := 0x2100FFFF, len := 1, write := none, tag := 1, pass := 0 }
def queued (s : State) : State := { s with winq := [{ req1 with va := 0, len := 0, write := some [], writers := (List.range 32).map fun l => 2 * 4096 + 2 * l }] }
/-- Every place of the placed core is taken, by another grid. -/
def noPlace (s : State) : State := { s with winq := List.replicate 2048 { req1 with grid := 9, crew := none, team := some 9 } }
/-- The memory system performs the next access after its issue. -/
def lateOn (s : State) : State := { s with late := [true] }
/-- An earlier store of the placed crew's lane 0 to the first byte of `dev` that is still to be performed. -/
def owed (s : State) : State :=
  { s with pend := [{ tag := 1, ctx := 0, grid := 1, core := 0, crew := some 3, team := some 2, pc := 0, store := true, rel := none, size := 1, parts := [], signed := false
                      pieces := [{ lane := 0, va := dev, place := .dev dev, n := 1, path := { core := 0, writer := 0, strong := none, ev := 0, rc := 0 }
                                   bytes := [1], done := false, bad := false }] }] }
/-- A line held by another crew's commit. -/
def heldBy9 (s : State) : State := setLine s (dev / 128) { Line.fresh with holder := some (9, 0) }
/-- Only lane 0 executes, with a pair or some registers set. -/
def at6 (a : Nat) (s : State) : State := lane0 (pair 6 a s)
def at6s (l : List (Nat × Nat)) (s : State) : State := lane0 (gs l s)
def viewB : Binding := { write := false, vbase := 0x21000000, vlen := 65536, backing := 0x20030000, ratio := 0, nodes := [], consts := [], luts := []
                         arrays := [(0, 1)] }
def boundTo (s : State) : State := onCtx (fun c => { c with bindings := [(63, viewB)] }) s
theorem test_meets_Loads :
    loadMeets (.ld K1 .b32 pl 4 6) (at6 dev) = 6 ∧ loadMeets (.ld K1 .b64 (acq .device) 4 6) (at6 dev) = 6 ∧
    loadMeets (.lds K1 .b8 pl 4 6) (at6s [(6, 65535)]) = 6 ∧ loadMeets (.ldc K1 .s16 (acq .cluster) 4 6) lane0 = 1 ∧
    loadMeets (.ld K1 .b64 (rlx .device) 4 6) (at6 (dev + 4)) = 1 ∧ loadMeets (.lds K1 .b8 pl 4 6) (at6s [(6, 65536)]) = 1 ∧
    loadMeets (.ld K1 .b32 pl 4 6) (fun s => { at6 dev s with poison := [dev / 16] }) = 5 := by decide +kernel
theorem test_meets_Loads_late :
    loadMeets (.ld K1 .b32 pl 4 6) (owed ∘ at6 dev) = 2 ∧ loadMeets (.ld K1 .b32 pl 4 6) (lateOn ∘ at6 (dev + 1)) = 4 ∧
    loadMeets (.ld K1 .b32 pl 4 6) (lateOn ∘ at6 dev) = 4 ∧ loadMeets (.ld K1 .b32 pl 4 6) (noPlace ∘ lateOn ∘ at6 dev) = 3 ∧
    loadMeets (.ld K1 .b32 pl 4 6) (boundTo ∘ at6 0x2100FFFC) = 8 ∧ loadMeets (.ld K1 .b32 pl 4 6) (noPlace ∘ boundTo ∘ at6 0x2100FFFC) = 3 ∧
    loadMeets (.ld K1 .b64 (acq .device) 4 6) (lateOn ∘ at6 dev) = 4 := by
  decide +kernel
/-- The page of the placed code in the window over host memory too. -/
def hostWin (s : State) : State := { s with mem := cellsWrite s.mem 0x18000 (toBytes 8 0x20001) }
theorem test_meets_Stores :
    storeMeets (.st K1 .b32 pl 6 8) (at6 dev) = 8 ∧ storeMeets (.st K1 .b64 (rel .device) 6 8) (at6 dev) = 8 ∧
    storeMeets (.sts K1 .b8 pl 6 8) (at6s [(6, 65535)]) = 8 ∧ storeMeets (.sts K1 .b8 pl 6 8) (at6s [(6, 65536)]) = 1 ∧
    storeMeets (.stc K1 .b16 pl 6 8) lane0 = 1 ∧ storeMeets (.st K1 .b64 (rel .device) 6 8) (queued ∘ at6 dev) = 3 ∧
    storeMeets (.st K1 .b32 (rlx .device) 6 8) (heldBy9 ∘ at6 dev) = 6 := by decide +kernel
theorem test_meets_Stores_late :
    storeMeets (.st K1 .b32 pl 6 8) (owed ∘ at6 dev) = 2 ∧ storeMeets (.st K1 .b32 (rlx .device) 6 8) (lateOn ∘ at6 dev) = 5 ∧
    storeMeets (.st K1 .b32 (rel .device) 6 8) (noPlace ∘ lateOn ∘ at6 dev) = 4 ∧
    storeMeets (.st K1 .b32 pl 6 8) (noPlace ∘ onCtx (fun c => { c with bindings := [(63, { viewB with write := true })] }) ∘ at6 0x2100FFFC) = 4 ∧
    storeMeets (.st K1 .b64 (rel .device) 6 8) (lateOn ∘ at6 dev) = 5 ∧ storeMeets (.st K1 .b64 (rel .device) 6 8) (owed ∘ at6 (dev + 8)) = 2 := by
  decide +kernel

theorem test_meets_Loads_slot :
    loadMeets (.ldc K1 .s16 (acq .cluster) 4 6) (lane0 ∘ pair 6 0x7FFF0100000000 ∘ onGrid fun g => { g with packet := { g.packet with coplace := true } }) = 6 ∧
    storeMeets (.stc K1 .b16 pl 6 8) (lane0 ∘ pair 6 0x7FFF010000FFFE ∘ onGrid fun g => { g with packet := { g.packet with coplace := true } }) = 8 := by
  decide +kernel
/-- A path of a core with an EVICT class. -/
def via (core : Nat) (lvl : Option Lvl) (ev rc : Nat) : Path := { core, writer := 1, strong := lvl, ev, rc }
theorem test_meets_PlainLoadReadsNearestCopy : (via 127 none 7 15).strong = none ∧ (via 127 none 7 15).once = true := by decide
theorem test_meets_StoreThenLoadReturnsBytes : (via 0 none 7 0).strong = none ∧ (via 0 none 0 15).strong = none ∧
    (via 0 none 7 0).core = (via 0 none 0 15).core := by decide
theorem test_meets_StrongStoreReachesTheL2 : ∃ (s : State) (p : Path), p.strong = some .l2 ∧ Memory.wf s.mem = true ∧ s.mem ≠ [] ∧
    dirtyAt (coreAt s p.core).l1 5 = false ∧ dirtyAt (clusterAt s (p.core / 4)).cache 5 = false :=
  ⟨{ State.reset with mem := [(7, 1)] }, via 127 (some .l2) 0 0, by decide⟩
/-- Whether lines fit into the scope caches of a core's path. -/
def fits (s : State) (core n : Nat) : Bool :=
  decide ((linesIn (coreAt s core).l1).length + n ≤ l1Lines) &&
    decide ((linesIn ((coreAt s core).l1 ++ (clusterAt s (core / 4)).cache)).length + n ≤ clusterLines)
theorem test_meets_PlainAccessFrames :
    holds (.st K1 .b32 pl 6 8) (lane0 ∘ pair 6 dev) (fun s x => match storeOf (.st K1 .b32 pl 6 8) with
      | some q => plainLanes x && (q.checks s x .store).isNone && q.stored s x == [dev, dev + 1, dev + 2, dev + 3] &&
        s.teams.all (fun e => e.2.image.isNone) && pendOf s x.ref == [] && fits s (coreOf s x.ref) (16 * x.lanes.length)
      | none => false) = true ∧
    holds (.sts K1 .b16 pl 6 8) (lane0 ∘ gs [(6, 65534)]) (fun s x => match storeOf (.sts K1 .b16 pl 6 8) with
      | some q => plainLanes x && (q.checks s x .store).isNone && q.storedPad s x 2 == [65534, 65535]
      | none => false) = true ∧
    holds (.ld K1 .b32 pl 4 6) (lane0 ∘ pair 6 dev) (fun s x => match loadOf (.ld K1 .b32 pl 4 6) with
      | some q => plainLanes x && (q.checks s x .load).isNone && pendOf s x.ref == [] &&
        (memStop x (.ld K1 .b32 pl 4 6) (eachPass 0 x.lanes (q.loadOne s x) s).1 (fun l => (q.ea x l).toNat) s).isNone
      | none => false) = true := by decide +kernel

/-- What an atomic meets: 1 a failing check, 2 poison, 3 a release that waits, 4 another wait, 5 it completes, 6 it goes to a window, 7 an earlier
access, 8 no places, 9 it is performed after its issue. -/
def work (reach : Reach) (wide : Bool) (m : MemWord) (d : Option Spec) (acq rel host : Bool) : AtomWork :=
  { reach, wide, m, d, acq, rel, host, op := fun _ => { op := none, wide, v := 0, cmp := 0 } }
def atomOf : Instr → Option (Spec × AtomWork)
  | .atom _ op wide ar m d a _ => some (a, work .generic wide m (some d) (ar || m.ord == .acquire) (ar || m.ord == .release) (hostAtom op))
  | .atomcas _ wide ar m d a _ _ => some (a, work .generic wide m (some d) (ar || m.ord == .acquire) (ar || m.ord == .release) true)
  | .atoms _ _ wide ar m d a _ => some (a, work .own wide m (some d) (ar || m.ord == .acquire) (ar || m.ord == .release) false)
  | .red _ op wide m a _ => some (a, work .generic wide m none false (m.ord == .release) (hostAtom op))
  | _ => none
def atomMeets (i : Instr) (f : State → State) : Nat :=
  match atomOf i, runEx (f (st i)) i with
  | some (a, w), some x =>
    let s := f (st i)
    let n := if w.wide then 8 else 4
    let req := fun l => laneReq s x w.reach .atomic (effAddr x w.reach a w.m.off l) n n w.farOk l
    let s0 := if w.rel then releaseAt s (coreOf s x.ref) (lvlOf w.m.scope) else s
    let qs := x.lanes.map fun l => (l, (req l).acc)
    let ps := qs.map fun e => ({ lane := e.1, va := e.2.va, place := atomPlace s e.2, n := e.2.n, path := atomPath s x w.m e.1, bytes := [],
                                 done := false, bad := false, op := some (w.op e.1) } : Piece)
    let late := defers s x w.m ps || ps.any (Piece.toAbsent s (teamOf s x.ref))
    let places := qs.map fun e => (e.2, atomPlace s0 e.2)
    if (checkLanes s (x.lanes.map fun l => (l, req l, effAddr x w.reach a w.m.off l))).isSome then 1
    else if meetsPend s x.ref ps || (!late && !(pendOf s x.ref).isEmpty) then 7
    else if !placesFor s (coreOf s x.ref) (requestsOf ps).length then 8
    else if w.rel && (releaseObject s x.ref w.m.scope).isSome then 3
    else if late then 9
    else if (qs.findSome? (atomBlocked s0 x w.m)).isSome then 4
    else if (places.find? fun e => atomPoison s0 (coreOf s x.ref) e.2 n).isSome then 2
    else if (places.filter fun e => match e.2 with | .far _ _ => true | _ => false).isEmpty then 5 else 6
  | _, _ => 0
theorem test_meets_AtomicPerformance :
    atomMeets (.atom K1 .maxidx true true (rlx .device) 4 6 8) (lane0 ∘ pair 6 dev) = 5 ∧
    atomMeets (.atomcas K1 false false (rel .die) 4 6 8 10) (lane0 ∘ pair 6 dev) = 5 ∧
    atomMeets (.atoms K1 .fadd false false pl 4 6 8) (lane0 ∘ gs [(6, 65532)]) = 5 ∧
    atomMeets (.red K1 .dec true (rel .device) 6 8) (lane0 ∘ pair 6 dev) = 5 ∧
    atomMeets (.atoms K1 .fadd false false pl 4 6 8) (lane0 ∘ gs [(6, 65536)]) = 1 ∧
    atomMeets (.atom K1 .add true false (rlx .device) 4 6 8) (lane0 ∘ pair 6 (dev + 4)) = 1 ∧
    atomMeets (.red K1 .dec true (rel .device) 6 8) (lane0 ∘ queued ∘ pair 6 dev) = 3 ∧
    atomMeets (.red K1 .dec true (rel .device) 6 8) (lane0 ∘ heldBy9 ∘ pair 6 dev) = 4 ∧
    atomMeets (.atom K1 .add true false (rlx .device) 4 6 8) (fun s => { (lane0 (pair 6 dev s)) with poison := [dev / 16] }) = 2 ∧
    atomMeets (.red K1 .add true (rlx .system) 6 8) (lane0 ∘ hostWin ∘ pair 6 0x40000020000000) = 6 ∧
    atomMeets (.red K1 .add true (rlx .device) 6 8) (owed ∘ lane0 ∘ pair 6 dev) = 7 ∧
    atomMeets (.atom K1 .add false true (rlx .device) 4 6 8) (noPlace ∘ lane0 ∘ pair 6 dev) = 8 ∧
    atomMeets (.atom K1 .add false true (rlx .device) 4 6 8) (lateOn ∘ lane0 ∘ pair 6 dev) = 9 := by
  decide +kernel
theorem test_meets_UpdateRules :
    (∃ b : Bar, 1 ≤ b.remain ∧ b.remain = 1 ∧ b.balance + 4 = 0 ∧ b.expected < 2 ^ 16 ∧ b.reserved < 2 ^ 46) ∧
    (∃ b : Bar, 1 ≤ b.remain ∧ ¬ (b.remain = 1 ∧ b.balance + 0 = 0) ∧ -(2 ^ 47 : Int) ≤ b.balance + 0 ∧ b.balance + 0 < 2 ^ 47) ∧
    (∃ b : Bar, b.remain < 1 ∧ b.balance = -(2 ^ 47 : Int)) :=
  ⟨⟨{ expected := 65535, remain := 1, balance := -4, reserved := 2 ^ 46 - 1, error := false, phase := true }, by decide⟩,
   ⟨{ expected := 1, remain := 1, balance := 2 ^ 47 - 1, reserved := 0, error := false, phase := false }, by decide⟩,
   ⟨{ expected := 1, remain := 0, balance := -2 ^ 47, reserved := 0, error := false, phase := false }, by decide⟩⟩
/-- A byte at `dev` that a store left dirty in the L1. -/
def dirtied (s : State) : State := storeDev s (via 0 none 0 0) dev [9]
theorem test_meets_FencesAndCacheControl :
    holds (.fence K (rel .system)) id (fun s x => (releaseObject s x.ref .system).isNone) = true ∧
    holds (.fence K (acq .team)) queued (fun _ _ => true) = true ∧
    holds (.fence K (mw 0 0 0 .device .plain)) queued (fun s x => (releaseObject s x.ref .device).isSome) = true ∧
    holds (.cctl K1 .wbinv (rlx .cluster) 6 8) (lane0 ∘ pair 6 dev ∘ gs [(8, 128)]) (fun _ x => x.lanes.all fun l =>
      decide ((effAddr x .generic 6 0 l).toNat < 2 ^ 55)) = true ∧
    holds (.cctl K1 .wb (rlx .device) 6 8) (dirtied ∘ heldBy9 ∘ lane0 ∘ pair 6 dev ∘ gs [(8, 4)]) (fun s x => x.lanes.any fun l =>
      (cctlHeld s x (lvlOf .device) .wb (devRanges s (ctxOf s x.ref) (effAddr x .generic 6 0 l).toNat (x.v 8 l).toNat)).isSome) = true ∧
    holds (.cctl K .wb (rlx .cluster) 6 8) (pair 6 0x80000000000000) (fun _ x => x.lanes.any fun l =>
      decide (2 ^ 55 ≤ (effAddr x .generic 6 0 l).toNat)) = true ∧
    holds (.icinv K1 (rlx .die) 6 8) (lane0 ∘ pair 6 dev ∘ gs [(8, 1)]) (fun _ x => x.lanes.all fun l => decide ((x.w 6 l).toNat < 2 ^ 55)) = true ∧
    holds (.pref K (rlx .thread) 6) id (fun _ _ => true) = true := by decide +kernel
theorem test_meets_RegisterFrames :
    holds (.iadd K1 false 4 6 8) lane0 (fun s x => (bodyOf s x.ref).isSome && x.exec == 1#64 && ofCrew x fun c => match c.lanes.getD 0 none with
      | some t => t.g.length == 192 && decide (191 < t.g.length) && c.k.length == 48
      | none => false) = true ∧
    (match floatLoud (.fadd K .rne false 4 6 8), runEx (st (.fadd K .rne false 4 6 8)) (.fadd K .rne false 4 6 8) with
     | some r, some x => x.lanes.all fun l => (r.val x l).2 == []
     | _, _ => false) = true ∧
    (match lateLoud (.idiv K true 4 6 8), runEx (gs [(8, 1)] (st (.idiv K true 4 6 8))) (.idiv K true 4 6 8) with
     | some r, some x => x.lanes.all fun l => (r.val x l).2 == []
     | _, _ => false) = true := by decide +kernel
theorem test_meets_TruePredicate : (7#8).toNat % 8 = 7 ∧ (15#8).toNat % 8 = 7 ∧ (7#8).getLsbD 3 = false ∧
    holds (.iset K .eq false 7 6 8) id (fun _ x => ofCrew x fun _ => true) = true := by decide +kernel

/-! ### Commands, queues, tokens, barriers -/

/-- What a command meets: a failing check, a wait, or acceptance. -/
def cmdMeets (i : Instr) (f : State → State) : Nat :=
  match runEx (f (st i)) i with
  | some x => match commandOf (f (st i)) x i with
    | some (q, t) => if (cmdCheck t x q).isSome then 1 else if (cmdWaits t x q).isSome then 2 else 3
    | none => 0
  | none => 0
def noBar : CmdByte := { bv := false, tv := true, tok := 7 }
def cpy64 : Instr := .cpy K 4 6 8 0 noBar
/-- A token with a full open batch behind 15 closed ones. -/
def full : Token := { openId := 15, openAll := 4095, openLeft := 1, closed := (List.range 15).map fun n => (n, 1), err := false }
theorem test_meets_CommandsAreAccepted :
    ((samplesA ++ samplesD).filter fun e => match runEx e.placed e.2 with
      | some x => (commandOf e.placed x e.2).isSome
      | none => false).length = 12 ∧
    cmdMeets cpy64 (as_ [(4, dev), (6, dev), (8, 64)]) = 3 ∧ cmdMeets cpy64 (as_ [(4, 2 ^ 55), (8, 1)]) = 1 ∧
    cmdMeets cpy64 (as_ [(4, dev), (6, dev), (8, 64)] ∘ onAp fun a => { a with toks := lset a.toks 7 full }) = 2 ∧
    cmdMeets (.gather K 2 false 4 6 8 0 65535 noBar) (as_ [(4, dev), (6, dev), (8, dev)]) = 3 ∧
    cmdMeets (.scatter K 4 true 4 6 8 0 1 noBar) (as_ [(4, dev), (6, dev), (8, dev)]) = 3 ∧
    cmdMeets (.cpy2g K 4 6 8 0 1 2 1 1 1 noBar) (as_ [(4, dev), (6, dev), (8, dev)]) = 3 ∧
    cmdMeets (.cpyt K false 4 6 0xFF 0 0 .a .int8 1 1 noBar) (as_ [(4, own), (6, dev)]) = 3 ∧
    cmdMeets (.cpyr K 4 6 8 0 65532 noBar) (as_ [(4, 0), (6, dev), (8, 4)]) = 3 ∧
    cmdMeets (.fred K true 4 6 8 0 1 0 1 noBar) (asAp ∘ as_ [(4, dev), (6, dev), (8, 1024)]) = 3 ∧
    cmdMeets (.fred K true 4 6 8 0 1 0 1 noBar) (asAp ∘ as_ [(4, dev), (6, dev), (8, 1025)]) = 1 ∧
    cmdMeets (.astream K 15 6 8 10 1 255 noBar) (as_ [(6, dev)]) = 3 ∧
    cmdMeets (.chain K false .f32 4 6 8 0 0 noBar) (as_ [(4, dev), (6, dev), (8, 4)]) = 3 ∧
    cmdMeets (.pdec K 6 0 noBar) (as_ [(6, dev + 32)]) = 1 := by decide +kernel
/-- The queue of an issue's team, as the statements name it. -/
def queueMeets (i : Instr) (f : State → State) (p : OpQueue → Nat → Bool) : Bool :=
  holds i f fun s x => match (teamOf s x.ref).bind (tget s.teams) with
    | some tm => p (tm.queues.getD 15 { entries := [], producer := none }) (opopCount x.width true)
    | none => false
def stuffed (n : Nat) (s : State) : State :=
  onTeam (fun t => { t with queues := lset t.queues 15 { entries := List.replicate n (List.replicate 128 0), producer := none } }) s
theorem test_meets_OperandQueues :
    queueMeets (.opush K 15 4 16) (stuffed 63) (fun q _ => q.producer.isNone && decide (q.entries.length < 64)) = true ∧
    queueMeets (.opush K 15 4 1) (stuffed 64) (fun q _ => decide (64 ≤ q.entries.length)) = true ∧
    queueMeets (.opop K true 4 15) (stuffed 2) (fun q m => m == 2 && decide (m ≤ q.entries.length)) = true ∧
    queueMeets (.opop K true 4 15) (stuffed 1) (fun q m => decide (q.entries.length < m)) = true ∧
    queueMeets (.opop K true 4 15) (onTeam (fun t => { t with queues := t.queues.map fun q => { q with marks := [false, true] } }) ∘ stuffed 2)
      (fun q m => (q.marks.take m).any id && decide (m ≤ q.entries.length)) = true := by decide +kernel
def withTok (t : Token) (s : State) : State := onCrew (fun c => { c with toks := lset c.toks 7 t }) s
def tok7 (x : Ex) : Token := tokenAt x.body 7
theorem test_meets_ClosingTokens :
    holds (.close K 7) (withTok full) (fun _ x => (tok7 x).openAll != 0 && decide (15 ≤ (tok7 x).closed.length)) = true ∧
    holds (.close K 7) (withTok { full with closed := full.closed.take 14 }) (fun _ x => decide ((tok7 x).closed.length < 15)) = true ∧
    holds (.close K 7) (withTok { full with openAll := 0 }) (fun _ x => (tok7 x).openAll == 0) = true ∧
    full.openAll ≠ 0 ∧ full.openLeft ≠ 0 ∧ ({ full with openLeft := 0 } : Token).openAll ≠ 0 := by decide +kernel
theorem test_meets_WaitingForBatches :
    holds (.waitb K 15 4 7) (withTok full) (fun _ x => !x.leftWait && (tok7 x).openAll != 0 && decide (15 ≤ (tok7 x).closed.length)) = true ∧
    holds (.waitb K 14 4 7) (withTok { full with closed := full.closed.take 14 }) (fun _ x =>
      !x.leftWait && decide ((tok7 x).closed.length < 15) && decide (14 < (tok7 x).close.closed.length)) = true ∧
    holds (.waitb K 0 4 7) id (fun _ x => !x.leftWait && (tok7 x).openAll == 0 && decide ((tok7 x).close.closed.length ≤ 0)) = true ∧
    holds (.waitb K 14 4 7) (withTok full ∘ onCrew fun c => { c with groups := c.groups.map fun g =>
        { g with wait := some { obj := .tokenLeft 7 14, instr := none, since := 0, probe := 0 } } })
      (fun _ x => x.leftWait && decide (14 < (tok7 x).closed.length)) = true := by
  decide +kernel
/-- The outcome of the checks of an instruction that names barriers by offset. -/
def barMeets (i : Instr) (f : State → State) (a : Spec) (off : W32) (bad : Nat → Bool) : Option (Option Cause) :=
  match runEx (f (st i)) i with
  | some x =>
    let s := f (st i)
    some ((barCheck (allocOf s (teamOf s x.ref)) (x.lanes.map fun l => (l, barOff x a off l)) bad).map (·.1))
  | none => none
theorem test_meets_BarrierInstructions :
    barMeets (.barinit K1 6 8 16) (lane0 ∘ gs [(6, 65504), (8, 65535)]) 6 16 (fun _ => false) = some none ∧
    barMeets (.barinit K1 6 8 0) (lane0 ∘ gs [(6, 8)]) 6 0 (fun _ => false) = some (some .misaligned) ∧
    barMeets (.bararv K1 true true 6 8 0) (lane0 ∘ gs [(6, 65520)]) 6 0 (fun _ => false) = some none ∧
    barMeets (.bararv K1 false false 6 0 0) (lane0 ∘ gs [(6, 65536)]) 6 0 (fun _ => false) = some (some .scratchBounds) ∧
    barMeets (.barexp K 6 8 0xFFFFFFF0#32) (gs [(6, 16)]) 6 0xFFFFFFF0#32 (fun _ => false) = some none ∧
    barMeets (.barinit K 6 8 0) id 6 0 (fun _ => true) = some (some .cmdRange) ∧
    holds (.barinit K 6 8 0) id (fun s x => (releaseObject s x.ref .team).isNone) = true ∧
    holds (.bararv K true false 6 0 0) queued (fun s x => (releaseObject s x.ref .team).isSome) = true ∧
    holds (.barwait K .team 4 6 8) (onLanes fun l t => { t with g := lset t.g 8 (if l = 31 then 0 else 1) }) (fun s x =>
      !x.body.isAp && (x.lanes.filter fun l => (barOf s x.ref (x.v 6 l).toNat).phase == (x.v 8 l).getLsbD 0) == [31]) = true ∧
    holds (.barwait K .device 4 6 8) (gs [(8, 1)]) (fun s x => x.lanes.all fun l =>
      (barOf s x.ref (x.v 6 l).toNat).phase != (x.v 8 l).getLsbD 0) = true ∧
    holds (.barwait K .team 4 6 8) asAp (fun s x => x.body.isAp && x.lanes.all fun l =>
      !((barOf s x.ref (x.v 6 l).toNat).phase != (x.v 8 l).getLsbD 0)) = true ∧
    barMeets (.bartest K .team 4 6 8) (gs [(6, 4)]) 6 0 (fun _ => false) = some (some .misaligned) ∧
    barMeets (.bartest K .team 4 6 8) id 6 0 (fun _ => false) = some none ∧
    barMeets (.barwait K .team 4 6 8) (gs [(6, 1)]) 6 0 (fun _ => false) = some (some .misaligned) := by decide +kernel

/-! ### Transactions -/

/-- Lane 0 alone executes, with an open transaction changed by `f`. -/
def open0 (f : Tx → Tx) (s : State) : State :=
  onLanes (fun l t => if l = 0 then { t with tx := f { t.tx with active := true, checkAt := 2 ^ 20 } } else t) (lane0 s)
/-- The transactional lanes of an issue, revocable and irrevocable. -/
def txSets (x : Ex) : Mask × Mask :=
  match x.body with
  | .crew cr => (txLanes cr x.exec &&& ~~~irrevLanes cr x.exec, irrevLanes cr x.exec)
  | .ap _ => (0, 0)
theorem test_meets_TransactionInstructions :
    holds (.txopen K true 9) id (fun _ x => x.lanes.all fun l => decide ((x.tx l).k < 9)) = true ∧
    holds (.txopen K false 9) (onLanes fun _ t => { t with tx := { t.tx with k := 8 } }) (fun _ x => x.lanes.all fun l => decide ((x.tx l).k < 9)) = true ∧
    holds (.spopen K false 3 9 12) id (fun _ x => x.lanes.all fun l => decide ((x.tx l).k < 9)) = true ∧
    holds (.txcommit K) id (fun _ x => x.lanes.all fun l => !(x.tx l).active) = true ∧
    holds (.txcommit K1) (open0 id) (fun s x => txSets x == (1#64, 0#64) && s.dir.serial.isNone &&
      (match x.body with
       | .crew cr => maskOf (winners ((lanesOf 1#64).filterMap fun l => (cr.lanes.getD l none).map fun t => (l, t.tx.k, gransOf s cr t))) == 1#64
       | .ap _ => false)) = true ∧
    holds (.txcommit K1) (open0 fun t => { t with irrev := true }) (fun _ x => txSets x == (0#64, 1#64)) = true ∧
    holds (.txcommit K1) (fun s => let t := open0 id s; { t with dir := { t.dir with serial := some (9, 0) } })
      (fun s x => txSets x == (1#64, 0#64) && s.dir.serial.isSome) = true ∧
    holds (.txquit K 127) id (fun _ x => txSets x == (0#64, 0#64)) = true ∧
    holds (.txquit K1 0) (open0 id) (fun _ x => txSets x == (1#64, 0#64)) = true ∧
    holds (.txstat K 4) id (fun _ _ => true) = true ∧
    holds (.spcommit K) id (fun _ x => x.lanes.all fun l => !(x.tx l).active) = true := by decide +kernel
/-- Lanes 0 and 1 both committing, with the same k, so that one loses where their granules meet. -/
def twoOpen (s : State) : State :=
  onLanes (fun l t => if l < 2 then { t with p := 2, tx := { t.tx with active := true, checkAt := 2 ^ 20, wused := 1 } } else t)
    (onGrid (fun g => { g with kernel := { g.kernel with logsR := 1, logsW := 1, scratch := 1024 } }) s)
theorem test_meets_TransactionInstructions_ends :
    holds (.txopen K1 false 9) (open0 fun t => { t with active := false, k := 9 }) (fun s x => x.lanes == [0] && decide (9 ≤ (x.tx 0).k) &&
      s.dir.serial.isNone && s.dir.serialAsk == []) = true ∧
    ([Instr.txcommit K1, .spcommit K1].all fun i => holds i (queued ∘ open0 fun t => { t with isSpec := i == .spcommit K1 })
      (fun s x => (txSets x).1 != 0 && (releaseObject s x.ref .device).isSome)) = true ∧
    holds (.txcommit K1) (twoOpen) (fun s x => txSets x == (3#64, 0#64) && (releaseObject s x.ref .device).isNone && s.dir.serial.isNone &&
      ofCrew x fun cr =>
        let lose := 3#64 &&& ~~~maskOf (winners ((lanesOf 3#64).filterMap fun l => (cr.lanes.getD l none).map fun t =>
          (l, t.tx.k, gransOf (releaseAt s 0 .l2) cr t)))
        let s1 := abortLanes (releaseAt s 0 .l2) 3 0 lose .intra none false
        lose == 2#64 && (x.without lose s1).isSome && (tget s1.crews 3).isSome) = true ∧
    holds (.txcommit K1) (open0 fun t => { t with isSpec := true }) (fun s x => (instrAbort s x
      (maskOf (x.lanes.filter fun l => (x.tx l).active && (x.tx l).isSpec)) false).isSome) = true ∧
    holds (.spcommit K1) (open0 id) (fun s x => (instrAbort s x
      (maskOf (x.lanes.filter fun l => (x.tx l).active && !(x.tx l).isSpec)) false).isSome) = true ∧
    holds (.txquit K1 0) (open0 fun t => { t with irrev := true }) (fun _ x => (txSets x).2 == 1#64) = true := by decide +kernel
/-- Lanes 0 and 1 execute; lane 1 is at nine, or is irrevocable. -/
def mixed (f : Nat → Tx → Tx) (s : State) : State :=
  onLanes (fun l t => if l < 2 then { t with p := 2, tx := f l { t.tx with checkAt := 2 ^ 20 } } else t)
    (onGrid (fun g => { g with kernel := { g.kernel with logsR := 1, logsW := 1, scratch := 1024 } }) s)
theorem test_meets_TransactionInstructions_lanes :
    ([Instr.txopen K1 false 9, .spopen K1 false 3 9 12].all fun i => holds i (mixed fun l tx => { tx with k := if l = 1 then 9 else 8 })
      (fun s x => x.lanes == [0, 1] && x.lanes.filter (fun l => decide (9 ≤ (x.tx l).k)) == [1] && s.dir.serial.isNone)) = true ∧
    holds (.txopen K1 false 9) (fun s => { mixed (fun _ tx => { tx with k := 9 }) s with dir := { s.dir with serial := some (9, 0) } })
      (fun s x => x.lanes == [0, 1] && s.dir.serial == some (9, 0)) = true ∧
    holds (.spopen K1 false 3 9 12) (gs [(12, 1)] ∘ mixed fun _ tx => { tx with k := 9 }) (fun s x => x.v 12 0 != specNext s (gridOf s x.ref) 3) = true ∧
    holds (.txquit K1 0) (mixed fun l tx => { tx with active := true, irrev := l == 1 }) (fun s x => txSets x == (1#64, 2#64) &&
      ofCrew x (fun cr => irrevLanes cr x.exec == 2 && txLanes cr x.exec == 3) && (x.without 1 (abortLanes s 3 0 1 .explicit (some 0) false)).isSome) = true ∧
    holds (.txquit K1 0) (open0 id) (fun _ x => ofCrew x fun cr => irrevLanes cr x.exec == 0 && txLanes cr x.exec != 0) = true ∧
    holds (.txquit K1 0) lane0 (fun _ x => ofCrew x fun cr => irrevLanes cr x.exec == 0 && txLanes cr x.exec == 0) = true ∧
    holds (.txcommit K1) (mixed fun l tx => { tx with active := true, irrev := l == 1 }) (fun s x => txSets x == (1#64, 2#64) &&
      (releaseObject s x.ref .device).isNone) = true := by decide +kernel
/-- The crew of an issue with lane 0's thread. -/
def thread0 (x : Ex) (p : Crew → Thread → Bool) : Bool :=
  match x.body with
  | .crew cr => (match cr.lanes.getD 0 none with | some t => p cr t | none => false)
  | .ap _ => false
def start0 (s : State) : SpOut := { s, done := [], stale := [], order := [], stuck := [], fault := none }
theorem test_meets_CommitsWriteTheirLogs :
    holds (.txcommit K1) (open0 id) (fun s x => thread0 x fun cr t => (match storesOf s cr.ctx (writeLog s cr t) with | .ok bs => bs == [] | _ => false) &&
      validates s 3 0) = true ∧
    holds (.spcommit K1) (open0 fun t => { t with isSpec := true, dom := 7 }) (fun s x => x.lanes == [0] && (x.tx 0).active && (x.tx 0).isSpec &&
      thread0 x fun cr t => t.tx.iter == specNext s 1 7 && (readLog s cr t).all (entryValid s (3, 0) cr.ctx) &&
        (let o := spLane 3 1 cr (start0 s) 0; o.done == [0] && o.stale == [] && o.order == [] && o.stuck == [] && o.fault.isNone)) = true ∧
    holds (.spcommit K1) (open0 fun t => { t with isSpec := true, dom := 7, iter := 0x7FFFFFFF }) (fun s x => thread0 x fun _ t =>
      (t.tx.iter - specNext s 1 7).toNat != 0 && decide ((t.tx.iter - specNext s 1 7).toNat < 2 ^ 31)) = true := by decide +kernel
theorem test_abort_fates : backoff 1 = 64 ∧ backoff 7 = 4096 ∧ backoff 100 = 4096 ∧
    TxCause.capacity.count 3 = 9 ∧ TxCause.capacity.count 9 = 10 := by decide

/-! ### The matrix engine -/

/-- Bytes of the team's scratchpad. -/
def padWith (off : Nat) (bs : List Byte) (s : State) : State := onTeam (fun t => { t with scratch := cellsWrite t.scratch off bs }) s
/-- An INT8 frame's header: role A of 16 rows and 32 columns, dense or 4-of-8; role B; an INT32 accumulator frame. -/
def hdrA : Nat := 6 + 16 * 2 ^ 16 + 32 * 2 ^ 24
def hdrS : Nat := hdrA + 2 ^ 10
def hdrB : Nat := 6 + 2 ^ 8 + 32 * 2 ^ 16 + 16 * 2 ^ 24
def hdrM : Nat := 0x21 + 2 * 2 ^ 8 + 16 * 2 ^ 16 + 16 * 2 ^ 24
/-- Frames in the scratchpad at multiples of 576, the first two at the registers' addresses. -/
def frames (a b : Nat) (s : State) : State :=
  pair 8 (own + 1152) (pair 6 own (padWith 1728 (toBytes 4 b) (padWith 1152 (toBytes 4 b) (padWith 576 (toBytes 4 a) (padWith 0 (toBytes 4 a) s)))))
def inflight2 (s : State) : State := setQuarter s 0 { quarterAt s 0 with holder := some 2, accs := lset (quarterAt s 0).accs 2 { Acc.fresh with inflight := true } }
/-- A second team of the placed grid, stopping on the same cluster, and the first byte of its scratchpad in its slot's window. -/
def partnered (s : State) : State :=
  onGrid (fun g => { g with packet := { g.packet with coplace := true } })
    { s with teams := s.teams ++ (s.teams.map fun e => (9, { e.2 with idx := 1, place := .stopping none })) }
def slot1 : Nat := 0x7FFF0100100000
/-- Whether an instruction waits for the requests on their way to the partner that holds a frame at the address in its pair. -/
def waitsForPartner (i : Instr) (vas : Ex → List Nat) : Bool :=
  holds i (partnered ∘ pair 6 slot1) fun s x => !(accOf s (teamOf s x.ref) x.quarter 2).inflight && framesBusy s (teamOf s x.ref) (vas x) == some (.partner 9)
theorem test_meets_frames_of_a_partner :
    waitsForPartner (.mld K 2 6 64) (fun x => [frameVa x 6 64]) = true ∧ waitsForPartner (.mcomp K 4 6 8) (fun x => [(x.w 6 x.low).toNat]) = true ∧
    waitsForPartner (.mma K true 2 6 8) (fun x => [(x.w 6 x.low).toNat, (x.w 8 x.low).toNat]) = true ∧
    waitsForPartner (.mmas K true false 2 6 8 10) (fun x => [(x.w 6 x.low).toNat, (x.w 8 x.low).toNat]) = true ∧
    waitsForPartner (.mloop K false 2 6 8 false 0 false 0 2 9 9) (fun x => [0, 1].flatMap fun k => [runVa (x.w 6 x.low) 9 k, runVa (x.w 8 x.low) 9 k]) = true ∧
    waitsForPartner (.mconv K false 2 6 8 10 false 0) (fun x => [(x.w 6 x.low).toNat, (x.w 8 x.low).toNat]) = true := by decide +kernel
theorem test_meets_AccumulatorInstructions :
    ([Instr.mzero K true 2, .mst K 6 2 64, .mstat K 4 2, .fsetm K true 7 6, .fsetm K false 7 2].all fun i => holds i (pair 6 own) fun s x =>
      !(accOf s (teamOf s x.ref) x.quarter 2).inflight && (frameChecks s (teamOf s x.ref) [(64, frameVa x 6 64, 1088)]).isNone) = true ∧
    holds (.mld K 2 6 0) (padWith 0 (toBytes 4 hdrM) ∘ pair 6 own) (fun s x => !(accOf s (teamOf s x.ref) x.quarter 2).inflight &&
      (framesBusy s (some 2) [frameVa x 6 0]).isNone && (frameReads s (some 2) [(64, frameVa x 6 0, 1088)] []).isNone && !(frameBytes s (some 2) own 1088).2 &&
      (match frameRead s (some 2) own 1088 with | some fr => fr.role == .acc | none => false)) = true ∧
    ([Instr.mzero K true 2, .mld K 2 6 0, .mst K 6 2 0].all fun i => holds i inflight2 fun s x => (accOf s (teamOf s x.ref) x.quarter 2).inflight) = true := by
  decide +kernel
/-- Whether checked frames at addresses are of the roles that a step needs. -/
def stepMeets (i : Instr) (f : State → State) (vas : List Nat) (p : List Machine.Frm → Bool) : Bool :=
  holds i f fun s x => !(accOf s (teamOf s x.ref) x.quarter 2).inflight && !notW32 s x &&
    match framesIn s (teamOf s x.ref) vas [] with
    | .ok fs => p fs && fs.all fun fr => !typeClash (accOf s (teamOf s x.ref) x.quarter 2) fr.fmt
    | .error _ => false
def metas (x : Ex) (x2 : Bool) : Bool := !halfBad (metaWords x x2 10 0) && (!x2 || !halfBad (metaWords x x2 10 1))
theorem test_meets_MatrixSteps :
    stepMeets (.mma K true 2 6 8) (frames hdrA hdrB) [own, own + 1152] (fun fs => match fs with | a :: b :: _ => denseOk a b | _ => false) = true ∧
    stepMeets (.mmas K false false 2 6 8 10) (frames hdrS hdrB ∘ gs [(10, 0x6880688)]) [own, own + 1152]
      (fun fs => match fs with | [a, b] => sparseOk a b | _ => false) = true ∧
    stepMeets (.mmas K false true 2 6 8 10) (frames hdrS hdrB ∘ gs [(10, 0x6880688), (11, 0x6880688)]) [own, own + 1152, own + 576, own + 1728]
      (fun fs => match fs with | [a, b, c, d] => sparseOk a b && sparseOk c d && frInt a.fmt == frInt c.fmt | _ => false) = true ∧
    holds (.mmas K false true 2 6 8 10) (gs [(10, 0x6880688), (11, 0x6880688)]) (fun _ x => metas x true) = true ∧
    holds (.mmas K false false 2 6 8 10) (gs [(10, 0x6880688)]) (fun _ x => metas x false) = true ∧
    ([Instr.mma K true 2 6 8, .mmas K false true 2 6 8 10].all fun i => holds i inflight2 fun s x => (accOf s (teamOf s x.ref) x.quarter 2).inflight) = true ∧
    holds (.mqnt K .sr .b .mxint8 2 8) inflight2 (fun s x => ((quantAccs .mxint8 2).find? fun n => (accOf s (teamOf s x.ref) x.quarter n).inflight) == some 2) = true ∧
    holds (.mcomp K 4 6 8) (frames hdrA hdrB) (fun s x => !notW32 s x && (framesBusy s (some 2) [own]).isNone &&
      match framesIn s (some 2) [own] [(own + 1152, 576)] with
      | .ok (a :: _) => a.role == .a && !a.sparse && frSparse a.fmt
      | _ => false) = true ∧
    stepMeets (.mcomp K 4 6 8) (frames hdrA hdrB) [own]
      (fun fs => match fs with | a :: _ => a.role == .a && !a.sparse && frSparse a.fmt | _ => false) = true ∧
    holds (.mqnt K .sr .b .mxint8 2 8) (frames hdrA hdrB) (fun s x => (quantAccs .mxint8 2).all (fun n => !(accOf s (teamOf s x.ref) x.quarter n).inflight &&
      !(accOf s (teamOf s x.ref) x.quarter n).int) && (frameChecks s (some 2) [(64, own + 1152, frBytes .mxint8)]).isNone) = true := by decide +kernel
/-- Accumulator 2 of the placed quarter, which the placed team holds, meets a parity error. -/
def struckAcc (reread : Bool) (s : State) : State :=
  { setQuarter s 0 { quarterAt s 0 with holder := some 2 } with parity := [{ unit := .crew 3 0, lane := 0, reread, acc := some (0, 2) }] }
def metOn (s : State) (x : Ex) (p : Parity → Bool) : Bool := (accParity s x.quarter 2).any p
theorem test_meets_accumulator_parity :
    ([Instr.mst K 6 2 64, .mma K true 2 6 8, .mmas K false true 2 6 8 10, .mqnt K .sr .b .mxint8 2 8].all fun i =>
      holds i (struckAcc false ∘ frames hdrA hdrB) (fun s x => metOn s x (!·.reread) && !(accOf s (teamOf s x.ref) x.quarter 2).inflight) &&
      holds i (struckAcc true ∘ frames hdrA hdrB) (fun s x => metOn s x (·.reread) && !metOn s x (!·.reread))) = true ∧
    holdsAccs (struckAcc true (st (.nop K))) (some 2) 0 = true ∧ (quarterAt (struckAcc true (st (.nop K))) 0).accs.length = 8 := by decide +kernel
def parsed (h : Nat) (p : Machine.Frm → Bool) : Bool := match Frm.parse h 0 with | some f => p f | none => false
theorem test_meets_matrix_values :
    parsed hdrA (fun f => f.role == .a && !f.sparse && frSparse f.fmt && frBits f.fmt == 8) = true ∧ hdrA < 2 ^ 512 ∧
    (frMx .mxint8 = true ∧ Role.b ≠ .acc) ∧ (frBits .mxe2m1 = 4 ∧ frBits .fp16 = 16 ∧ (frBits .mxe2m3 = 6)) ∧
    (let w : Nat → W32 := fun _ => 0x06880688
     metaAt w 15 3 = 0x688 ∧ metaBad 0x688 = false ∧ (∀ n, n < 4 → 0x688 / 8 ^ n % 8 ≠ 31 % 8) ∧ metaBad 0xFFF = true) := by decide +kernel
/-- A convolution descriptor of one step (R283): W = H = CB = KH = KW = 1, INT8. -/
def conv1 : Nat := 1 + 2 ^ 16 + 2 ^ 32 + 2 ^ 40 + 2 ^ 44 + 2 ^ 48 + 2 ^ 52 + 6 * 2 ^ 56
theorem test_meets_RunsStart :
    holds (.mloop K false 2 6 8 false 0 true 7 2 9 9) inflight2 (fun s x => (runWaits s x 2 true 7).isSome) = true ∧
    holds (.mconv K false 2 6 8 10 true 7) inflight2 (fun s x => (runWaits s x 2 true 7).isSome) = true ∧
    holds (.mloop K false 2 6 8 true 7 false 0 2 9 9) (onCrew (fun c => { c with f := lset c.f 7 2 }) ∘ frames hdrA hdrB) (fun s x =>
      (runWaits s x 2 false 0).isNone && (frameChecks s (some 2) (([0, 1].flatMap fun k => [runVa (x.w 6 0) 9 k, runVa (x.w 8 0) 9 k]).map
        fun va => (64, va, frameSize s (some 2) va 576))).isNone && (match x.body with
          | .crew cr => ((List.range 2).find? fun k => !runSkips (some (cr.f.getD 7 0)) k) == some 1
          | .ap _ => false) &&
      (match framesIn s (some 2) [runVa (x.w 6 0) 9 1, runVa (x.w 8 0) 9 1] [] with | .ok (a :: b :: _) => denseOk a b | _ => false)) = true ∧
    holds (.mconv K false 2 6 8 10 false 0) (gs [(10, 4096)] ∘ padWith 4096 (toBytes 8 conv1) ∘ frames hdrA hdrB) (fun s x =>
      (runWaits s x 2 false 0).isNone && !(frameBytes s (some 2) (own + 4096) 64).2 &&
      (match convOf (ofBytes (frameBytes s (some 2) (own + 4096) 64).1) with
       | some d => d.steps == 1 && (frameChecks s (some 2) [(64, own, d.cb * d.h * d.w * d.vb), (64, own + 1152, d.steps * 576)]).isNone && !frMx d.fmt &&
         (match framesIn s (some 2) [own + 1152] [] with | .ok (b :: _) => b.role == .b && frCls b.fmt == frCls d.fmt | _ => false)
       | none => false)) = true := by decide +kernel

theorem test_meets_convolution_values : ∃ d, convOf conv1 = some d ∧ conv1 < 2 ^ 512 ∧ 0 < d.cb ∧ 0 < d.kw ∧ d.pixel 0 0 = some 0 ∧ d.pixel 0 1 = none := by
  refine ⟨(convOf conv1).get (by decide +kernel), ?_⟩
  decide +kernel

/-! ### Streams and work -/

/-- A stream entry at `dev` over a graph of one node at `dev + 64` (R295, R296, R302). -/
def streamAt (s : State) : State :=
  let e := 0x21000000 * 2 ^ 128 + 65536 * 2 ^ 192 + 0x20030000 * 2 ^ 256 + (dev + 64) * 2 ^ 320
  let g := 2 ^ 64 + (7 + 8 * 2 ^ 8 + 255 * 2 ^ 32 + 255 * 2 ^ 40 + 2 ^ 48) * 2 ^ 512
  { s with mem := cellsWrite (cellsWrite s.mem (dev + 64) (toBytes 88 g)) dev (toBytes 64 e) }
def readsIt (s : State) : State := { s with winq := [{ req1 with core := 1, crew := none, team := some 9 }] }
theorem test_meets_StreamInstructions :
    ([Instr.sbind K 63 4 6, .sunbind K 6].all fun i => holds i queued fun s x => (releaseObject s x.ref .device).isSome) = true ∧
    holds (.sbind K 63 4 6) (streamAt ∘ pair 6 dev) (fun s x => (releaseObject s x.ref .device).isNone &&
      (match bindRead (releaseAt s (coreOf s x.ref) .l2) x (x.w 6 x.low).toNat with
       | .ok r => (match bindCheck x (x.w 6 x.low).toNat 63 r with | .ok (n, b, _) => n == 63 && b.vlen == 65536 | .error _ => false)
       | .error _ => false)) = true ∧
    holds (.sbind K 0 4 6) (pair 6 (dev + 1)) (fun s x => (releaseObject s x.ref .device).isNone &&
      (match bindRead (releaseAt s (coreOf s x.ref) .l2) x (x.w 6 x.low).toNat with | .ok _ => false | .error _ => true)) = true ∧
    holds (.sunbind K 6) (gs [(6, 64)]) (fun s x => (bindingOf s 0 (x.v 6 x.low).toNat).isNone) = true ∧
    holds (.sunbind K 6) (boundTo ∘ gs [(6, 63)]) (fun s x => match bindingOf s 0 (x.v 6 x.low).toNat with | some b => !viewBusy s 0 b | none => false) = true ∧
    holds (.sunbind K 6) (readsIt ∘ boundTo ∘ gs [(6, 63)]) (fun s x => (releaseObject s x.ref .device).isNone &&
      match bindingOf s 0 (x.v 6 x.low).toNat with | some b => viewBusy s 0 b | none => false) = true ∧
    holds (.sstat K 4 6) boundTo (fun _ _ => true) = true ∧ holds (.ginv K .device 0xFF) id (fun _ _ => true) = true := by decide +kernel
/-- What `LAUNCH` of lane 0 meets: the state after its packet is read, and whether its queue is full. -/
def launchMeets (f : State → State) (p : State → Option Nat → Bool) : Bool :=
  holds (.launch K1 20 noBar) (lane0 ∘ pair 20 dev ∘ f) fun s x => match packetsRead x 0 (coreOf s x.ref) 20 [0] s with
    | .ok (ps, s1) => (firstFail [(0, packetCheck s 0 dev)]).isNone && ps.all (fun e => doneOk e.2) && !opFull x noBar && (releaseObject s1 x.ref .device).isNone &&
        p s1 (launchLanes 0 (issuerOf s1 x (ownOp x noBar).2) ps (releaseAt s1 0 .l2) x.grp.served).2.2
    | .error _ => false
def fullQueue (s : State) : State :=
  let p : Pending := { packet := placedPacket, order := 0, issuer := none, since := 0, probe := 0 }
  { s with queues := [(0, { ctx := some 0, ring := 0, log2 := 4, head := 0, tail := 0, pending := List.replicate 64 p, dropped := 0, lost := false, overrun := false })] }
/-- `LAUNCH` of lane 0 with a packet at an address. -/
def launchAt (va : Nat) (f : State → State) (p : State → Ex → Bool) : Bool := holds (.launch K1 20 noBar) (f ∘ lane0 ∘ pair 20 va) p
theorem test_meets_WorkCreation_refusals :
    launchAt (dev + 32) id (fun s x => (firstFail (x.lanes.map fun l => (l, packetCheck s 0 (x.w 20 l).toNat))).isSome) = true ∧
    launchAt dev (fun s => { s with poison := [dev / 16] }) (fun s x => (firstFail (x.lanes.map fun l => (l, packetCheck s 0 (x.w 20 l).toNat))).isNone &&
      match packetsRead x 0 0 20 [0] s with | .error _ => true | .ok _ => false) = true ∧
    launchAt dev (fun s => { s with mem := cellsWrite s.mem (dev + 48) [8] }) (fun s x => match packetsRead x 0 0 20 [0] s with
      | .ok (ps, _) => (ps.filter fun e => !doneOk e.2).length == 1
      | .error _ => false) = true ∧
    launchAt dev (onCrew fun c => { c with groups := c.groups.map fun g => { g with packets := [(0, placedPacket)] } }) (fun _ x => x.grp.packets != []) = true ∧
    launchAt dev (withTok full) (fun _ x => opFull x noBar) = true ∧ launchAt dev queued (fun s x => (releaseObject s x.ref .device).isSome) = true ∧
    holds (.spawn K1 0 true 16 noBar) (withTok full ∘ lane0) (fun _ x => opFull x noBar) = true ∧
    holds (.spawn K1 0 true 16 noBar) (queued ∘ lane0) (fun s x => !opFull x noBar && (releaseObject s x.ref .device).isSome) = true := by decide +kernel
/-- What `SPAWN` of lane 0 meets. -/
def spawnMeets (f : State → State) (data : Bool) : Option (Option Cause × Bool) :=
  match runEx (f (st (.spawn K1 0 data 16 noBar))) (.spawn K1 0 data 16 noBar) with
  | some x =>
    let s := f (st (.spawn K1 0 data 16 noBar))
    let rs := [(0, spawnRec x 0 data 16 1 0)]
    some ((spawnBad s 1 rs).map (·.1), (spawnLanes 0 1 0 rs (releaseAt s 0 .l2) x.grp.served).2.2.isSome)
  | none => none
def aRec : Rec := { entry := 0, grid := 1, pool := 0, data := true, args := List.replicate 12 0, gen := 1 }
theorem test_meets_WorkCreation :
    launchMeets id (fun _ q => q.isNone) = true ∧ launchMeets fullQueue (fun _ q => q == some 0) = true ∧
    spawnMeets (lane0 ∘ pair 16 0x20000000) false = some (none, false) ∧ spawnMeets (lane0 ∘ pair 16 0x20000002) false = some (some .pcAlign, false) ∧
    spawnMeets (lane0 ∘ pair 16 0x20010000) false = some (some .spawnTarget, false) ∧ spawnMeets lane0 true = some (some .spawnTarget, false) ∧
    spawnMeets (lane0 ∘ onGrid fun g => { g with pools := [65536] }) true = some (some .spawnTarget, true) ∧
    holds (.wpop K1 0 16 2) (lane0 ∘ fun s => setCore s 0 { coreAt s 0 with deque := [aRec] }) (fun s x => x.lanes == [0] && (popOwner s 0 1 0).isSome) = true ∧
    holds (.wsteal K 0 16 255 2) id (fun _ _ => true) = true ∧ holds (.wsteal K1 0 16 6 2) (lane0 ∘ gs [(6, 127)]) (fun _ _ => true) = true := by
  decide +kernel

/-! ### System -/

/-- The placed grid serves fault domain 5, whose outstanding records are given. -/
def handler (rs : List FRec) (s : State) : State :=
  { onGrid (fun g => { g with handles := some 5 }) s with domains := [(5, { Domain.fresh 0 0x20010100 with outst := rs, seq := 1 })] }
def monitor (s : State) : State := onCtx (fun c => { c with debug := .context, perms := 7 }) (onGrid (fun g => { g with primrose := true }) (handler [] s))
theorem test_meets_SystemRegisters :
    holds (.sysr K 0x1FF 4) id (fun s x => (sysDenied s x.ref 0x1FF false).isNone) = true ∧
    holds (.sysr K 0x200 4) id (fun s x => (serves s x.ref).isNone && sysDenied s x.ref 0x200 false == some .sysregDenied) = true ∧
    holds (.sysw K 0x0FF 4) (handler []) (fun s x => (sysDenied s x.ref 0x0FF true).isNone) = true ∧
    holds (.sysw K 0x000 4) id (fun s x => sysDenied s x.ref 0 true == some .sysregDenied) = true ∧
    holds (.sysw K 0x100 4) (handler []) (fun s x => sysDenied s x.ref 0x100 true == some .sysregDenied) = true ∧
    holds (.sysr K 0xF00 4) (handler []) (fun s x => sysDenied s x.ref 0xF00 false == some .sysregDenied) = true := by decide +kernel
/-- The placed crew's lane 0 is held under a record of its domain; another grid serves that domain. -/
def heldSubject : State :=
  let r := { FRec.blank with held := true, who := .crew 3 0, subject := 77, seq := 3, uid := 9, grid := some 1 }
  let s := handler [r] (st (.nop K))
  onGrid (fun g => { g with subject := 77 }) s
def subjectIs (p : Subject → Bool) (s : State) : Bool := match subjectOf s 0 77 with | some sub => p sub | none => false
theorem test_meets_SystemRegisters_saved :
    subjectIs (fun sub => sub.unit == .crew 3 0 && sub.record.isSome && (bodyOf heldSubject sub.unit).isSome) heldSubject = true ∧
    (match tget heldSubject.crews 3 with
     | some c => (match c.lanes[0]? with | some (some th) => decide (0x33F < 0x280 + th.g.length) | _ => false) &&
         decide (0x36F < 0x340 + c.k.length) && decide (0x387 < 0x378 + 2 * c.j.length) && decide (0x397 < 0x388 + 2 * c.f.length)
     | none => false) = true ∧
    (match bodyOf heldSubject (.access 2) with | some (.ap a) => decide (0x3FF < 0x3C0 + 2 * a.a.length) | _ => false) = true ∧
    (let s := setQuarter heldSubject 0 { quarterAt heldSubject 0 with
        holder := some 2, accs := lset (quarterAt heldSubject 0).accs 7 { Acc.fresh with valid := true, elems := List.replicate 256 0 } }
     ((subjAccs s (.crew 3 0)).1[7]?).map (fun a => a.valid && a.elems.length == 256) = some true) ∧
    (match tget heldSubject.domains 5 with | some d => d.outst.any fun r => r.uid == 9 | none => false) = true ∧
    subjectOf heldSubject 0 78 = none := by decide +kernel
theorem test_meets_LaunchArguments : holds (.sysr K 0x100 4) id (fun s x => (tget s.grids (gridOf s x.ref)).isSome) = true ∧
    holds (.sysr K 0x101 4) asAp (fun s x => (tget s.grids (gridOf s x.ref)).isSome) = true := by decide +kernel
theorem test_meets_TrapsAndTakingAnException :
    holds (.trap K 0xFFFF) (handler []) (fun s x => bodyOf s x.ref == some x.body &&
      (let e := domainOfGrid s (gridOf s x.ref); (tget e.2.domains e.1).isSome)) = true ∧
    holds (.bkpt K) id (fun s _ => debugOf s 0 == .none) = true ∧
    holds (.bkpt K) (onCtx fun c => { c with debug := .context }) (fun s _ => debugOf s 0 != .none) = true ∧
    holds (.trap K 0) asAp (fun s x => bodyOf s x.ref == some x.body && x.body.isAp) = true := by decide +kernel
/-- A record of lane 31 of the placed crew, precise to its region or to its instruction. -/
def aFault (exact : Bool) : FRec := { FRec.blank with cause := .trap, held := true, exact, who := .crew 3 31, subject := 77, seq := 3, uid := 9 }
theorem test_meets_ReturningFromAnException :
    ([Instr.tretRetry K 2 6 8, .tretNext K 2 6 8, .tretError K 2 6 8, .tretEnd K 2 6 8].all fun i =>
      holds i id (fun s x => (serves s x.ref).isNone) &&
      holds i (queued ∘ handler []) (fun s x => serves s x.ref == some 5 && (releaseObject s x.ref .device).isSome) &&
      holds i (handler []) (fun s x => serves s x.ref == some 5 && (releaseObject s x.ref .device).isNone && (findRec s 5 0 0).isNone) &&
      holds i (pair 6 77 ∘ gs [(8, 3)] ∘ handler [aFault true]) (fun s x => findRec s 5 (x.w 6 x.low) (x.v 8 x.low) == some (aFault true))) = true ∧
    tretOk (aFault false).cls .retry = true ∧ tretOk (aFault true).cls .next = true ∧ tretOk (aFault false).cls .next = false ∧
    tretOk (aFault true).cls .error = false ∧ tretOk { aFault true with who := .cmd 4 : FRec }.cls .error = true ∧
    tretOk (aFault true).cls .end_ = true ∧ (aFault false).who = .crew 3 31 ∧ (aFault false).exact = false := by decide +kernel
theorem test_meets_MailboxAndAttestation :
    holds (.mboxSend K 4 6 8) id (fun s x => !mboxAllowed s x.ref 0) = true ∧
    holds (.mboxRecv K 4 6 8) (onCtx (fun c => { c with perms := 3 }) ∘ monitor ∘ pair 6 dev) (fun s x => !mboxAllowed s x.ref dev) = true ∧
    holds (.mboxSend K 4 6 8) (monitor ∘ pair 6 (own + 1)) (fun s x => mboxAllowed s x.ref (own + 1) && (mboxFail s x .load (own + 1) 0).isSome) = true ∧
    holds (.mboxRecv K 4 6 8) (monitor ∘ pair 6 own) (fun s x => mboxAllowed s x.ref own && (mboxFail s x .store own 0).isSome) = true ∧
    holds (.attest K 4 6 8 noBar) (pair 6 own ∘ pair 8 (dev + 32)) (fun s x => (attestFail s x own (dev + 32)).isSome) = true ∧
    holds (.attest K 4 6 8 noBar) (withTok full) (fun _ x => (tokenAt x.body 7).assignFull) = true ∧
    (let s : State := { State.reset with sec := { State.reset.sec with attest := List.range 16 } }
     16 ≤ s.sec.attest.length) ∧
    holds (.mboxSend K1 4 6 8) (fun s => { monitor (pair 6 dev (gs [(8, 1)] (lane0 s))) with poison := [dev / 16] }) (fun s x =>
      mboxAllowed s x.ref dev && (mboxFail s x .load dev 1).isNone && (mboxRead x (mboxPath s x) (segments s 0 (teamOf s x.ref) .load dev 1) s).2.1) = true ∧
    holds (.mboxSend K1 4 6 8) (lane0 ∘ monitor ∘ pair 6 (own + 16) ∘ gs [(8, 1)]) (fun s x => mboxAllowed s x.ref (own + 16) &&
      (mboxFail s x .load (own + 16) 1).isNone && s.host.d2h.isNone &&
      !(mboxRead x (mboxPath s x) (segments s 0 (teamOf s x.ref) .load (own + 16) 1) s).2.1) = true ∧
    holds (.mboxSend K1 4 6 8) (fun s => { monitor (pair 6 own (gs [(8, 1)] (lane0 s))) with host := { s.host with d2h := some [1] } })
      (fun s x => mboxAllowed s x.ref own && (mboxFail s x .load own 1).isNone && s.host.d2h.isSome) = true ∧
    holds (.mboxRecv K1 4 6 8) (lane0 ∘ monitor ∘ pair 6 own ∘ gs [(8, 2)]) (fun s x => (mboxFail s x .store own 2).isNone && s.host.h2d.isNone) = true ∧
    holds (.mboxRecv K1 4 6 8) (fun s => { monitor (pair 6 own (gs [(8, 2)] (lane0 s))) with host := { s.host with h2d := some [1, 2, 3] } })
      (fun s x => (mboxFail s x .store own 2).isNone && s.host.h2d.isSome) = true ∧
    holds (.attest K 4 6 8 noBar) (pair 6 own ∘ pair 8 dev) (fun s x => (attestFail s x own dev).isNone && !(tokenAt x.body 7).assignFull &&
      decide (s.sec.attest.length < 16)) = true := by decide +kernel

/-! ### Turned away, and steps -/

/-- Where an issue ends before its own effect: 1 decode fault, 2 WAIT, 3 scoreboard, 4 a register on its way, 5 STALL, 6 parity, 7 guard, 8 PERMS,
9 earlier accesses, 10 transaction; 11 it runs. -/
def turned (i : Instr) (f : State → State) : Nat :=
  let s := f (st i)
  match shape s i, s.cur with
  | some p, some u => (match bodyOf s u with
    | some b => (match groupOf b u with
      | some g =>
        let x := exOf s u b g i p.ctl
        let ps := parityAt s x p.ctl p.ops
        let s1 := metParity s ps
        if (badDecode s b p.ctl p.ops p.extra).isSome then 1
        else if p.ctl.wait != 0#8 && !g.waitDone && (anyFull b.toks p.ctl.wait || anyOutstanding (closeNamed b p.ctl.wait).toks p.ctl.wait) then 2
        else if b.awaits g.mask (codesOf s b p.ctl p.ops) then 3
        else if (b.uniformUntil g.mask s.clock (codesOf s b p.ctl p.ops)).isSome then 4
        else if (ctlOf s (ctxOf s u)).sctl.getLsbD 0 && shortMask s x p.ctl p.ops != 0#64 then 5
        else if (ps.filter fun e => !e.reread) != [] then 6
        else if x.exec == 0#64 then 7
        else if barred s1 u i then 8
        else if Machine.owed s1 u i (p.rule == .runs) != [] then 9
        else if (txGate s1 x p.rule).isSome then 10
        else 11
      | none => 0)
    | none => 0)
  | _, _ => 0
def Kw : Ctl := { K with wait := 0x80 }
/-- A register of lane 31 is to be ready at cycle 1 only. -/
def early (r : Nat) (s : State) : State :=
  onCtx (fun c => { c with regs := ctlWrite c.regs 0 1 })
    (onLanes (fun l t => if l = 31 then { t with short := [{ reg := BitVec.ofNat 8 r, old := 0, ready := 1 }] } else t) s)
/-- A register of lane 31 of the placed group meets a parity error. -/
def struck (s : State) : State := { s with parity := [{ unit := .crew 3 0, lane := 31, reread := false }] }
theorem test_meets_IssueTurnsAway :
    turned (.iadd K false 0xF0 6 8) id = 1 ∧ turned (.iadd K false 191 6 0xFE) id = 1 ∧ turned (.mov K true 5 6) id = 1 ∧
    turned (.nop Kw) (withTok { full with closed := [] }) = 2 ∧ turned (.nop Kw) (withTok full) = 2 ∧
    turned (.iadd K false 4 6 8) (onCrew fun c => { c with results := [{ lane := 31, dst := .g 6, val := none, tag := 1 }] }) = 3 ∧
    turned (.iadd K false 4 0xC0 8) (onCrew (fun c => { c with groups := c.groups.map fun g => { g with mask := 1 } }) ∘ early 0xC0) = 4 ∧
    turned (.iadd K false 4 6 8) (early 6) = 5 ∧ turned (.iadd K false 4 6 8) struck = 6 ∧ turned (.nop K1) id = 7 ∧
    turned (.ld K .b32 pl 4 6) (onCtx (fun c => { c with debug := .context, perms := 3 }) ∘ monitor) = 8 ∧
    turned (.nop K) (onCtx (fun c => { c with debug := .none }) ∘ monitor) = 8 ∧ turned (.fence K (rel .device)) owed = 9 ∧ turned (.iadd K false 4 6 8) owed = 11 ∧
    turned (.exit K) owed = 11 ∧ turned (.trap K 0) owed = 11 ∧ turned (.sstat K 4 6) owed = 11 ∧ turned (.txquit K 0) owed = 9 ∧
    turned (.fence K1 (rel .device)) (open0 id) = 10 ∧ turned (.nop Kw) id = 11 ∧
    ((st (.nop K)).cur = some (.crew 3 0) ∧ ({ st (.nop K) with cur := none } : State).cur = none) := by decide +kernel
/-- What a fetch at the placed code meets: 1 an instruction of the unit, 2 words that it cannot run, 3 a pad word, 4 a failed fetch. -/
def fetchMeets (ws : List W32) (f : State → State) : Nat :=
  let s := f (Sample.placed (ws, .nop K))
  match s.cur with
  | none => 0
  | some u => match fetchBlock s u 0x20000000 with
    | .error _ => 4
    | .ok (_, bs, _) => match decode bs with
      | .padWord => 3
      | .bad _ => 2
      | .instr _ _ us => if (unitFault (isAccess u) us).isSome then 2 else 1
theorem test_meets_StepRunsTheDecodedInstruction :
    fetchMeets [0x032801c0#32, 0#32] id = 1 ∧ fetchMeets [0x0a1401c1#32, 0x09080604#32, 0xc2#32] id = 1 ∧ fetchMeets [0x00fc01c0#32, 0#32] id = 2 ∧
    fetchMeets [0x0a1401c1#32, 0x09080604#32, 0xc2#32] (fun s => { s with cur := some (.crew 3 0) }) = 2 ∧ fetchMeets [3#32] id = 3 ∧
    fetchMeets [3#32] (fun s => { s with mem := [] }) = 4 := by decide +kernel
/-- The program counter of the selected group after a step. -/
def pcAfter (s : State) : Option Addr :=
  match step s with
  | .next t => (groupAt t (.crew 3 0)).map (·.pc)
  | _ => none
theorem test_step_runs_the_placed_words :
    pcAfter (Sample.placed ([0x032801c0#32, 0#32], .nop K)) = some 0x20000008 ∧
    pcAfter (Sample.placed ([0x030001c1#32, 0#32, 0xffffffc0#32], .nop K)) = some 0x1FFFFFC0 ∧
    pcAfter (Sample.placed ([0x02040dc1#32, 4#32, 0x12345678#32], .nop K)) = some 0x2000000C := by decide +kernel
/-- A write of the host into a line that an irrevocable attempt holds. -/
def hostHeld : State := { setLine State.reset 7 { Line.fresh with holder := some (9, 0) } with frames := [(0, .shared)], agenda := [.apertureAccess 896 1 (some [5]), .decodeJobStart] }
theorem test_meets_EveryStepAnswers : State.reset.cur = none ∧ State.reset.agenda = [] ∧ nextEvent State.reset = none ∧
    (hostHeld.cur = none ∧ nextOutside hostHeld [] [.apertureAccess 896 1 (some [5])] = none ∧ outsideHeld hostHeld .decodeJobStart = false ∧
      sameSide .decodeJobStart (.apertureAccess 896 1 (some [5])) = false) ∧
    nextOutside hostHeld [] hostHeld.agenda = some (.decodeJobStart, [.apertureAccess 896 1 (some [5])]) ∧
    nextEvent { State.reset with start := { Start.reset with refused := true }, far := [
      { port := none, addr := 0, cells := [], atom := none, core := 0, ctx := 0, grid := none, crew := none, team := none, cmd := none, va := 0, pc := 0 }] } =
      some .windowWriteAcknowledged := by decide +kernel
theorem test_meets_DecodeOfEncode : (Instr.mloop K true 2 6 8 true 7 true 7 64 0xFFFF 0x8000).wf = true ∧
    (encodeFields (.mloop K true 2 6 8 true 7 true 7 64 0xFFFF 0x8000)).isSome = true ∧ (encodeFields (.nop K)).isSome = true := by decide
theorem test_meets_MemoryStaysCanonical : Memory.wf State.reset.mem = true ∧ (match step State.reset with | .next _ => true | _ => false) = true ∧
    Memory.wf (st (.nop K)).mem = true ∧ (st (.nop K)).mem ≠ [] ∧ (pcAfter (st (.nop K))).isSome = true := by decide +kernel
theorem test_memory_form : Memory.wf [(3, 1), (2, 1)] = false ∧ Memory.wf [(2, 1), (2, 2)] = false ∧ Memory.wf [(2, 0)] = false ∧
    Memory.wf (cellsWrite [(2, 1), (3, 5)] 1 [7, 0, 0, 9]) = true ∧ cellsWrite [(2, 1), (3, 5)] 1 [7, 0, 0, 9] = [(1, 7), (4, 9)] := by decide

/-! ## States that meet the hypotheses of the statements: events -/

/-- Nothing is selected and some cycles have passed. -/
def idle (s : State) : State := { s with cur := none, clock := 2 ^ 21 }
def u0 : UnitRef := .crew 3 0
/-- The placed crew's group waits for an object at an instruction. -/
def waits (obj : Awaited) (i : Option Instr) (s : State) : State :=
  idle (onCrew (fun c => { c with groups := c.groups.map fun g => { g with wait := some { obj, instr := i, since := 0, probe := 65536 } } }) s)
def p0 : State := idle (st (.nop K))
def twoGroups : State := onCrew (fun c => { c with groups := [{ placedGroup 0xFFFF with issued := 256 }, { placedGroup 0xFFFF0000 with inPlay := false }] }) p0
def joined : State :=
  onCrew (fun c => { c with j := lset c.j 7 0xFFFFFFFF#64, groups := [{ placedGroup 0xFFFFFFFF with inPlay := false, wait := some { obj := .join 7, instr := none, since := 0, probe := 65536 } }] }) p0
theorem test_meets_GroupsIssueAndGoOn :
    selects p0 0 = some u0 ∧
    (let s1 := settleQuarter (fillPlay 0 16 p0) 0
     selects s1 0 = some u0 ∧ (bodyOf s1 u0).isSome = true ∧ selects (settleQuarter (fillPlay 511 16 p0) 511) 511 = none) ∧
    spent twoGroups 0 = some u0 ∧ (oldestParked twoGroups 0).isSome = true ∧
    (match tget joined.crews 3 with | some c => c.held.isNone && joinReady c 7 | none => false) = true ∧
    (let t := Thread.blank 0 0x20000000
     let s := setQuarter p0 511 { quarterAt p0 511 with bins := List.replicate 15 none ++ [some { key := { grid := 1, owner := .team 2, pc := 0 }, slots := [(t, 0)] }] }
     binAged s 511 15 = true ∧ ((quarterAt s 511).bins.getD 15 none).isSome = true) ∧
    ([Awaited.tokenRoom 7, .pool 0, .deque, .launchQueue 15, .place, .attestPlace, .queueFull 15].all fun o =>
      o.resource && (match freeWait (waits o (some (.cpy K 4 6 8 0 noBar)) p0) u0 with | some w => w.instr.isSome | none => false)) = true ∧
    (let s := waits (.barrier 16 true) (some (.barwait K .team 4 6 8)) p0
     (freeWait s u0).isSome = true ∧ (barOf s u0 16).phase ≠ true) ∧
    (freeWait (waits (.queueEmpty 15 2) (some (.opop K true 4 15)) p0) u0).isSome = true ∧
    (freeWait (waits (.tokenLeft 7 14) (some (.waitb K 14 4 7)) p0) u0).isSome = true ∧
    (let s := waits (.tokens 0x80 0x80) (some (.nop Kw)) p0
     (match freeWait s u0, bodyOf s u0 with
      | some _, some b => fullOf b.toks 0x80 == 0 && !anyOutstanding (closeNamed b 0x80).toks 0x80
      | _, _ => false) = true) ∧
    (let s := waits (.tokens 0x80 0x80) (some (.nop Kw)) (withTok { full with closed := [] } p0)
     (match freeWait s u0, bodyOf s u0 with
      | some _, some b => fullOf b.toks 0x80 != 0x80 && anyOutstanding (closeNamed b 0x80).toks 0x80
      | _, _ => false) = true) ∧
    (let s := waits (.partner 9) (some (.mld K 2 6 0)) p0
     (freeWait s u0).isSome = true ∧ padBusy s 9 = false) ∧
    (let s := waits (.sent 9) (some (.fence K (rel .device))) p0
     (freeWait s u0).isSome = true ∧ queuedFrom s (fun r => meetIn r.writers (writersOf s u0)) = none) ∧
    (let s := waits .places (some (.ld K .b32 pl 4 6)) p0
     (freeWait s u0).isSome = true ∧ placesUsed s (coreOf s u0) < corePlaces) ∧
    (freeWait (waits (.tokenRoom 7) (some (.close K 7)) p0) u0).isSome = true ∧ (bodyOf (performNth (owed p0) u0 0) u0).isSome = true ∧
    aelogHeld p0 (aeOf p0 u0 0 .divz 1) = false ∧ ((quarterAt p0 0).bins.getD 15 none).isNone = true ∧
    (coreAt (setCore p0 127 { coreAt p0 127 with aebuf := [aeOf p0 u0 0 .divz 1] }) 127).aebuf.length = 1 := by decide +kernel
/-- What keeps the placed group's next instruction from issuing: 1 its operands, 2 a register on its way, 3 nothing. -/
def readyMeets (ws : List W32) (f : State → State) : Nat :=
  let s := f (idle (Sample.placed (ws, .nop K)))
  match fetchNext { s with cur := some u0 } u0 with
  | .instr i s1 => (match issueShape s1 i, bodyOf s1 u0 with
    | some p, some b => (match groupOf b u0 with
      | some g =>
        let codes := codesOf s1 b p.ctl p.ops
        if (badDecode s1 b p.ctl p.ops p.extra).isSome || p.ctl.wait != 0 then 0
        else if b.awaits g.mask codes then 1 else if (b.uniformUntil g.mask s1.clock codes).isSome then 2 else 3
      | none => 0)
    | _, _ => 0)
  | _ => 0
theorem test_meets_GroupsIssueAndGoOn_ready :
    readyMeets [0x100001c0#32, 0x00080604#32] (onCrew fun c => { c with results := [{ lane := 31, dst := .g 6, val := none, tag := 1 }] }) = 1 ∧
    readyMeets [0x000001c0#32, 0x0008c004#32] (onCrew (fun c => { c with groups := c.groups.map fun g => { g with mask := 1 } }) ∘
      onLanes fun l t => if l = 31 then { t with short := [{ reg := 0xC0, old := 0, ready := 2 ^ 21 + 1 }] } else t) = 2 ∧
    readyMeets [0x100001c0#32, 0x00080604#32] id = 3 := by decide +kernel
def joinWait (j : Nat) : Waiting := { obj := .join j, instr := none, since := 0, probe := 65536 }
/-- The two halves of the placed crew wait for each other at two join registers. -/
def halves : List Group := [{ placedGroup 0xFFFF with inPlay := false, wait := some (joinWait 7) }, { placedGroup 0xFFFF0000 with inPlay := false, wait := some (joinWait 6) }]
def stuckAt (c : Nat) : State := { onCrew (fun k => { k with j := lset (lset k.j 7 0xFFFFFFFF#64) 6 0xFFFFFFFF#64, groups := halves }) p0 with clock := c }
def both : List Waiter := [.unit (.crew 3 16), .unit u0]
def memberIds : List (W64 × W64) := membersOf (stuckAt 65536) both
/-- What the probe of the first half finds: a closed set, and whether it is reported already. -/
def probeFinds (s : State) : Option (Option (List Waiter × Bool)) :=
  (probeDue s (.unit u0)).map fun s1 => (probeSet s1 (.unit u0)).map fun c => (c, reported s1 c (membersOf s1 c))
def reportedState : State :=
  { stuckAt 65536 with told := [(1, memberIds)], domains := [(5, Domain.fresh 0 0)] }
def oneHalf : State := onCrew (fun k => { k with groups := (halves.take 1) ++ [placedGroup 0xFFFF0000] }) (stuckAt 65536)
theorem test_meets_WaitCyclesAreReported :
    (probeDue (stuckAt 65535) (.unit u0)).isNone = true ∧ probeFinds (stuckAt 65536) = some (some (both, false)) ∧
    probeFinds reportedState = some (some (both, true)) ∧ probeFinds oneHalf = some none ∧
    (waiterId (stuckAt 65536) (.unit u0)).toNat ≤ (waiterId (stuckAt 65536) (.unit (.crew 3 16))).toNat ∧
    (waitingAt (stuckAt 65536) u0).map (·.probe) = some 65536 ∧ (groupAt (stuckAt 65536) u0).map (·.mask != 0) = some true ∧ (tget reportedState.domains 5).isSome = true := by decide +kernel

/-! ### Commands and sequencers -/

def by0 : Issuer := { ctx := 0, grid := 1, team := some 2, crew := some 3, crewNum := 0, core := 0, quarter := 0, lanes := 1, pc := 0, tok := none }
/-- A state with one command, number 20. -/
def cmdOf (k : CmdKind) : Cmd := { kind := k, by_ := by0, place := 0, sums := none, zone := [], bar := none, bytes := 0, pos := 0, stopped := none
                                   started := false, bad := none, probe := 0 }
def withCmd (c : Cmd) (s : State) : State := { s with cmds := [(20, c)] }
def aStream (a : Nat) : Cmd := cmdOf (.astream 15 (BitVec.ofNat 64 a) 16 16 1 2)
def aFred : Cmd := cmdOf (.fred (BitVec.ofNat 64 dev) (BitVec.ofNat 64 (own + 512)) 2 9 1 true 0)
def aGroup : FredGroup := { ctx := 0, grid := 1, group := 9, parts := 1, n := 2, s32 := true, e := 0, cmds := [20] }
def aJob (on : Bool) : Cmd := { cmdOf (.pdec 0 (List.replicate 128 0)) with started := on }
/-- A run of two steps on quarter 0. -/
def aRun : Run := { by_ := by0, m := 2, sat := false, a := BitVec.ofNat 64 own, b := BitVec.ofNat 64 (own + 1152), inca := 9, incb := 9, n := 2
                    mask := some 2, conv := none, next := 0, stopped := false }
def withRun (r : Run) (s : State) : State := setQuarter s 0 { quarterAt s 0 with run := some r }
def isError {α β : Type} : Except α β → Bool
  | .error _ => true
  | .ok _ => false
def queueRoom (s : State) (n : Nat) : Bool :=
  match tget s.teams 2 with
  | some t => t.place == .resident && decide ((t.queues.getD n { entries := [], producer := none }).entries.length < queueCap)
  | none => false
theorem test_meets_CommandsAndSequencersRun :
    (cmdOf (.cpy 0 0 64)).plain = true ∧ (cmdOf (.cpy 0 0 64)).pushed = true ∧ (aJob true).runningJob = true ∧
    (match streamEntry p0 (aStream dev) with | some (.ok _) => true | _ => false) = true ∧
    (match streamEntry p0 (aStream 0x40000000) with | some (.error _) => true | _ => false) = true ∧
    (let c := cmdOf (.cpy (BitVec.ofNat 64 dev) 0x40000000#64 16)
     (streamEntry p0 c).isNone = true ∧ (runCmd (withCmd c p0) 20 c 0).fail.isSome = true ∧
       ((runCmd (withCmd c p0) 20 c 0).fail.map (·.held)) = some false) ∧
    queueRoom p0 15 = true ∧
    (let s := { withCmd aFred p0 with freds := [aGroup] }
     s.freds.find? (fun x => x.ctx == 0 && x.grid == 1 && x.group == 9) = some aGroup ∧ aGroup.parts ≤ aGroup.cmds.length ∧
       (fredParts s aGroup.cmds).isSome = true) ∧
    (let s := withRun aRun (frames hdrA hdrB p0)
     runHere s aRun = true ∧ runSkips aRun.mask 0 = true ∧ runSkips aRun.mask 1 = false ∧
       isError (runStep s 0 { aRun with next := 1 }) = false ∧ isError (runStep (withRun aRun p0) 0 { aRun with next := 1 }) = true) ∧
    (let r := { aRun with next := 1, a := BitVec.ofNat 64 slot1 }
     let s := withRun r (partnered p0)
     runHere s r = true ∧ runBusy s r = true) ∧
    (let c := cmdOf (.cpy (BitVec.ofNat 64 dev) (BitVec.ofNat 64 own) 16)
     let r := runCmd (withCmd c (heldBy9 p0)) 20 c 0
     r.fail.map (·.held) = some true) ∧
    (let c := cmdOf (.cpy (BitVec.ofNat 64 slot1) (BitVec.ofNat 64 own) 16)
     let away := setCore (partnered p0) 0 { coreAt p0 0 with forward := [{ team := 9, target := .inl 5, queue := [] }] }
     let r := runCmd (withCmd c away) 20 c 0
     (r.fail.isNone && decide (r.total ≤ r.pos) && writesWait r.s 20 c) = true) ∧
    (nextJob (withCmd (aJob false) p0)).isSome = true ∧
    (match waitingAt (waits (.accumulator 2) (some (.mzero K true 2)) p0) u0, tget p0.crews 3 with
     | some w, some k => w.obj == .accumulator 2 && !(accOf p0 (some 2) k.quarterId 2).inflight
     | _, _ => false) = true ∧
    (match waitingAt (waits .sequencer (some (.mconv K false 2 6 8 10 false 0)) p0) u0, tget p0.crews 3 with
     | some w, some k => w.obj == .sequencer && (quarterAt p0 k.quarterId).run.isNone
     | _, _ => false) = true := by decide +kernel

/-- A plain copy with n pieces passed over: whether the next piece can be done ahead of the others. -/
def aheadMeets (s : State) (c : Cmd) (n : Nat) : Option Bool :=
  (cmdPieces s 20 c).map fun e =>
    let p := (List.range n).foldl (fun p _ => c.pieceEnd s p) c.pos
    decide (p < c.total) && !(c.ahead.any fun a => a.1 == p) && (e.1 s p none).fail.isNone
theorem test_meets_CommandsAndSequencersRun_ahead :
    (let c := cmdOf (.cpy (BitVec.ofNat 64 dev) (BitVec.ofNat 64 own) 512)
     c.plain = true ∧ c.pushed = true ∧ aheadMeets (withCmd c p0) c 1 = some true ∧ aheadMeets (withCmd c p0) c 9 = some false) ∧
    (let s := { withCmd aFred p0 with freds := [aGroup] }
     (fullGroup s 0 1 9).map (·.1) = some aGroup) ∧
    (let s := struckAcc false (withRun { aRun with next := 1 } (frames hdrA hdrB p0))
     (accParity s 0 2).any (!·.reread) = true ∧ runBusy s { aRun with next := 1 } = false) ∧
    (let s := withRun aRun (frames hdrA hdrB p0)
     match framesIn s (some 2) [runVa aRun.a 9 1, runVa aRun.b 9 1] [] with
     | .ok (a :: b :: _) => denseOk a b && !typeClash (accOf s (some 2) 0 2) a.fmt
     | _ => false) = true := by decide +kernel

/-! ### Transactions -/

def lineBusy
 (s : State) : State := setLine s 7 { Line.fresh with holder := some (9, 0) }
theorem test_meets_TransactionsGoOn :
    ((waitingAt (waits (.backoff (2 ^ 21)) none p0) u0).map (·.obj) = some (.backoff (2 ^ 21)) ∧ 2 ^ 21 ≤ p0.clock) ∧
    ((waitingAt (waits (.line 7) (some (.txcommit K)) p0) u0).map (·.obj) = some (.line 7) ∧ tokensFree p0 7 0 = true ∧ tokensFree (lineBusy p0) 7 0 = false) ∧
    ((waitingAt (waits .serial (some (.txcommit K)) p0) u0).map (·.obj) = some .serial ∧ p0.dir.serial = none) ∧
    (let s := { waits .serial (some (.txopen K false 9)) p0 with dir := { p0.dir with serialAsk := [(3, 0)] } }
     s.dir.serial = none ∧ waiterOf s 3 0 = u0) ∧
    ((waitingAt (waits (.spec 7) (some (.spopen K false 7 9 255)) p0) u0).map (·.obj) = some (.spec 7) ∧ specNext p0 1 7 = 0) ∧
    ((waitingAt (waits (.spec 7) (some (.spcommit K)) p0) u0).map (·.obj) = some (.spec 7)) ∧
    (let s := open0 (fun t => { t with checkAt := 2 ^ 21 }) p0
     (match tget s.crews 3 with
      | some c => c.held.isNone && (match c.lanes.getD 0 none with | some t => t.tx.active && !t.tx.irrev && decide (t.tx.checkAt ≤ s.clock) | none => false) &&
          (c.groups.find? (fun g => g.mask.getLsbD 0)).isSome
      | none => false) = true ∧ validates s 3 0 = true) ∧
    (let s := onGrid (fun g => { g with kernel := { g.kernel with logsR := 1, logsW := 1, scratch := 1024 } }) (padWith 1024 (List.replicate 16 255)
       (open0 (fun t => { t with checkAt := 0, rused := 1 }) p0))
     validates s 3 0 = false) := by decide +kernel

/-! ### The memory system, the scheduler, teams that move -/

def aWrite (s : State) : State := { readsIt s with winq := (readsIt s).winq.map fun w => { w with write := some [(0, 7)] } }
def farOf (port : Option Nat) : FarWrite :=
  { port, addr := 0, cells := [(0, 1)], atom := none, core := 0, ctx := 0, grid := some 1, crew := some 3, team := some 2, cmd := none, va := 0, pc := 0 }
/-- A pairing of context 0 through peer port 7, which is up. -/
def pairedUp (s : State) : State := { s with pairs := [{ ctx := 0, port := 7, partner := 9, key := 0 }], links := { s.links with peersUp := [7] } }
/-- Step 22 of the start is done. -/
def scrubbed (s : State) : State := { s with start := { s.start with entries := lset s.start.entries 21 { attempts := 1, path := 0, state := 2 } } }
theorem test_meets_TheMemorySystemMoves :
    (let l := { Line.fresh with recent := some (31, 8), slices := [(3, 0)] }
     l.recent = some (31, 8) ∧ 31 / 8 = 3 ∧ sliceOf 3 7 l / 6 ≠ 31 % 8 ∧ tget (setLine p0 7 l).lines 7 = some l) ∧
    backHeld p0 nobody 0 [dev / 16] = none ∧ (backHeld (heldBy9 (dirtied p0)) nobody 0 [dev / 16]).isSome = true ∧
    viewOf (readsIt p0) 0 0x2100FFFF = none ∧ sramUnits p0 127 = [] ∧ sramUnits p0 0 ≠ [] ∧
    (({ p0 with far := [farOf none] } : State).far.find? fun f => f.port.isNone && f.atom.isNone) = some (farOf none) ∧
    (({ p0 with far := [farOf (some 7)] } : State).far.find? fun f => f.port.isSome && f.atom.isNone && f.cmd.isNone) = some (farOf (some 7)) ∧
    (let l := { Line.fresh with rc := some 0 }
     tget (setLine p0 7 l).lines 7 = some l ∧ l.holder = none) ∧
    (let s := { p0 with dir := { p0.dir with persist := [(7, 3)] } }
     s.dir.persist.find? (fun p => p.1 == 7) = some (7, 3) ∧ (lineAt s 7).holder = none) ∧
    (let s := { p0 with dir := { p0.dir with units := [(512, 256, 2), (768, 256, 1)] } }
     s.dir.units.find? (fun u => u.1 == 512) = some (512, 256, 2) ∧
       s.dir.units.find? (fun v => v.1 == 512 + 256 && v.2.1 == 256) = some (512 + 256, 256, 1) ∧ 512 % (2 * 256) = 0 ∧ 2 + 65536 ≤ s.clock) ∧
    ((readsIt (boundTo p0)).winq.any (fun w => w.write.isNone) && (viewOf { readsIt (boundTo p0) with winq := [] } 0 0x2100FFFF).isSome) = true ∧
    ((aWrite (boundTo p0)).winq.any (fun w => w.write.isSome) && (viewOf { aWrite (boundTo p0) with winq := [] } 0 0x2100FFFF).isSome) = true ∧
    scrubRuns (scrubbed p0) = true ∧ (scrubbed p0).start.outDies.contains 3 = false ∧
    (7 ∈ (setReplays (pairedUp p0) true 7 8).links.peersUp ∧ 8 ∉ (pairedUp p0).links.peersUp ∧ replaysOf p0 true 7 < 8) ∧
    8 ≤ replaysOf (setReplays (pairedUp p0) true 7 8) true 7 ∧ 8 ≤ replaysOf (setReplays p0 false 3 8) false 3 := by decide +kernel

/-- Die 3 with forwarding entries for one line, n + 1 times over. -/
def crossed (b n : Nat) : State :=
  setDie { State.reset with lines := [(b, { Line.fresh with slices := [(3, 0)] })] } 3 { dieAt State.reset 3 with moved := List.replicate (n + 1) b }
theorem test_crossed (a b n : Nat) (ne : a ≠ b) (same : homeSlice 3 b = homeSlice 3 a) :
    ((movedOn (crossed b n) 3).filter (· != a)).filter (fun j => homeSlice 3 j == homeSlice 3 a) = b :: List.replicate n b := by
  have e : (dieAt (crossed b n) 3).moved = List.replicate (n + 1) b := rfl
  have l : (lineAt (crossed b n) b).slices = [(3, 0)] := by simp [lineAt, crossed, setDie, tget]
  simp [movedOn, e, l, ne.symm, same, List.replicate_succ]
/-- A die that keeps 4,096 of them at the home slice of another line: whatever the slices are, two lines of 49 share one. -/
theorem test_meets_TheMemorySystemMoves_forwarding : ∃ (s : State) (line k : Nat) (r : List Nat),
    ((movedOn s 3).filter (· != line)).filter (fun j => homeSlice 3 j == homeSlice 3 line) = k :: r ∧ 4095 ≤ r.length := by
  have home : ∀ n, homeSlice 3 n < 48 := fun n => Nat.mod_lt _ (by decide)
  obtain ⟨a, _, b, _, ne, same⟩ := Finset.exists_ne_map_eq_of_card_lt_of_maps_to (s := Finset.range 49) (t := Finset.range 48)
    (f := homeSlice 3) (by decide) (fun n _ => by simpa using home n)
  exact ⟨crossed b 4095, a, b, List.replicate 4095 b, test_crossed a b 4095 ne same.symm, by rw [List.length_replicate]⟩

/-- Page tables and descriptors in memory, from R30, R79, R82, R334, R362 and R402: a kernel record at 0x20020000, a segment descriptor at
0x20020040, a ZCB at 0x20020080, a fault-domain descriptor at 0x20020100, and a packet in slot 15 of a ring at 0x20030000. -/
def cells : List Host.Cell :=
  [(0x10000, 1), (0x10002, 2), (0x20008, 31), (0x2000b, 32), (0x20020000, 32), (0x20020001, 8), (0x2002000c, 255), (0x2002000d, 255), (0x2002000e, 255),
   (0x2002000f, 255), (0x20020010, 32), (0x2002004b, 32), (0x20020052, 1), (0x20020059, 3), (0x2002005a, 2), (0x2002005b, 32), (0x20020060, 1), (0x20020091, 1),
   (0x20020092, 2), (0x20020093, 32), (0x20020099, 128), (0x2002009c, 255), (0x2002009d, 3), (0x200200a0, 255), (0x200200a1, 255), (0x200200a2, 255), (0x200200a3, 255),
   (0x200200a4, 255), (0x200200a5, 255), (0x200200a6, 255), (0x200200a7, 255), (0x20020108, 64), (0x2002010a, 2), (0x2002010b, 32), (0x20020112, 2), (0x20020113, 32)] ++
  [(0x20020119, 4), (0x2002011a, 2), (0x2002011b, 32), (0x20020121, 2), (0x20020122, 2), (0x20020123, 32), (0x2002012c, 16), (0x20030788, 64), (0x2003078a, 2),
   (0x2003078b, 32), (0x20030792, 2), (0x20030793, 32), (0x2003079c, 255), (0x2003079d, 255), (0x2003079e, 255), (0x2003079f, 255), (0x200307a8, 128), (0x200307aa, 2),
   (0x200307ab, 32), (0x200307b0, 128), (0x200307b1, 2), (0x200307b2, 2), (0x200307b3, 32), (0x200307d8, 1), (0x200307da, 1), (0x200307dc, 1), (0x200307de, 32)]
def pktNum (queue : Nat) : Nat :=
  0x20020040 * 2 ^ 64 + 0x20020000 * 2 ^ 128 + (2 ^ 32 - 1) * 2 ^ 224 + 0x20020080 * 2 ^ 320 + 0x20020280 * 2 ^ 384
    + (1 + 2 ^ 16 + 2 ^ 32 + 32 * 2 ^ 48 + queue * 2 ^ 68) * 2 ^ 704
def aQueue (l : List Pending) : LaunchQueue :=
  { ctx := some 0, ring := 0x20030000, log2 := 4, head := 0xFFFFFFFF, tail := 0, pending := l, dropped := 0, lost := false, overrun := false }
/-- The device runs; the packet's queue is `q`, with launches in it. -/
def up (q : Nat) (l : List Pending) : State :=
  { p0 with mem := cells, queues := [(q, aQueue l)], start := { p0.start with ready := true } }
def pend (torn : Bool) : Pending := { packet := packetOf (pktNum 0) torn, order := 0, issuer := none, since := 0, probe := 0 }
/-- The head slot moves into the queue: whether the packet is read, and whether its queue is the context's. -/
def ringMeets (q : Nat) : Option (Bool × Bool) :=
  let s := up q []
  if running s then (slotRead (modQueue s q fun l => { l with head := l.head + 1 }) 0 0x20030780).map fun r =>
    (ownsQueue r.2 0 r.1.queue, (packetDone r.2 0 r.1 4 5).isSome && !r.1.torn)
  else none
/-- What the judgement of the one head gives: its refusal, or that it is bound. -/
def judged (torn : Bool) : Option Nat × Bool :=
  let s := up 15 [pend torn]
  (((judgeHeads s).find? fun j => j.code.isSome).bind (·.code), match bestHead (judgeHeads s) with
    | some j => (match j.v with | .bound _ => true | _ => false)
    | none => false)
def unplaced (s : State) : State := onGrid (fun g => { g with next := 0, segment := { g.segment with length := 32 } }) s
def onDeque (c : Nat) (l : List Rec) (s : State) : State := setCore s c { coreAt s c with deque := l }
def aTask : Rec := { aRec with data := false, entry := 0x20000000 }
def hosted (s : State) : State := onGrid (fun g => { g with hosts := [127], pools := [3] }) s
/-- A domain with records to write and a queue of 16 slots. -/
def aDomain : Domain :=
  { Domain.fresh 0 0x20020100 with
    qsize := 16, qctl := 0x20020200, qbase := 0x20020400, kernel := 0x20020000, segment := 0x20020040, pending := [FRec.blank] }
def inDomain (tail : Nat) : State := { up 15 [] with domains := [(5, aDomain)], mem := cellsWrite (up 15 []).mem 0x20020200 (toBytes 4 tail) }
theorem test_meets_TheSchedulerRuns_launches :
    ringMeets 0 = some (true, true) ∧ ringMeets 15 = some (false, true) ∧
    (slotRead { up 0 [] with poison := [0x20030780 / 16] } 0 0x20030780).isNone = true ∧
    doneHeld (up 0 []) 0 (packetOf (pktNum 0) false) = false ∧ packetDone (up 0 []) 0 placedPacket 4 5 = none ∧
    bestHead (judgeHeads (up 0 [])) = none ∧ judged true = (some 4, false) ∧ judged false = (none, true) := by
  decide +kernel
theorem test_meets_TheSchedulerRuns_teams :
    (match tget (unplaced p0).grids 1 with
     | some g => decide (g.next < g.packet.teams) && !placeWaits (unplaced p0) 1 g && (nextPlaces (unplaced p0) 1 g).isSome
     | none => false) = true ∧
    (let s := onTeam (fun t => { t with access := none }) { p0 with crews := [] }
     (match tget s.teams 2 with | some tm => teamDone s 2 tm && (coreHeld s tm.core).isNone | none => false) = true) ∧
    (coreHeld (heldBy9 (dirtied p0)) 0).isSome = true ∧
    (let s := heldBy9 (dirtied (onGrid (fun g => { g with hosts := [0] }) p0))
     ((tget s.grids 1).map fun g => g.hosts.find? fun c => (coreHeld s c).isSome) = some (some 0)) ∧
    binFor (List.replicate 16 (some { key := { grid := 1, owner := .pool 0, pc := 4 }, slots := [] })) { grid := 1, owner := .pool 0, pc := 8 } = none ∧
    binFor [none] { grid := 1, owner := .pool 0, pc := 8 } = some 0 ∧ slotsHeld (inDomain 15) aDomain 15 FRec.blank.slots = false ∧
    (let s : State := { p0 with crews := [], teams := [] }
     (match tget s.grids 1 with | some g => gridOver s 1 g | none => false) = true) ∧
    (let s := onDeque 127 [aRec, aTask] (hosted p0)
     (match nextRecord s 127 with | some (r, _, _) => (kernelOf s r.grid).isSome | none => false) = true) ∧
    (let s := onCtx (fun c => { c with spill := [(128, aTask), (5, aTask)] }) p0
     (spillBack (claimSpill s 127) 127).isSome = true ∧ (spillBack (claimSpill s 5) 5).isSome = true) ∧
    (match stealFrom (onDeque 0 [aTask] (hosted p0)) 127 with | some (v, _) => v != 127 | none => false) = true ∧
    (let s := onDeque 127 (List.replicate 1023 aRec) (onDeque 0 [aTask] (hosted p0))
     (coreAt s 127).deque.length + 1 ≤ 1024) ∧
    (let s := onDeque 127 (List.replicate 1024 aRec) (onDeque 0 [aTask] (hosted p0))
     (pushAll 127 [aTask] (wakeCore s 127)).1 = 0) ∧ loadsOut p0 FRec.blank = false ∧
    (match queueEnds (inDomain 0xFFFFFFFF) aDomain with | some (t, h, s1) => t != h && (handlerCode s1 aDomain).isSome | none => false) = true ∧
    (match queueEnds (inDomain 15) aDomain with
     | some (t, h, s1) => decide ((t - h).toNat + FRec.blank.slots ≤ aDomain.qsize) && (match writeSlots aDomain t (FRec.blank.bytes 0) [0] s1 with
        | some s2 => !isError (blockWrite s2 0 aDomain.qctl.toNat [])
        | none => false)
     | none => false) = true := by decide +kernel

/-! ### Teams that stop and resume -/

/-- The placed grid needs one page of shadow region, which is at 0x21000000 where `mapped`. -/
def slim (mapped : Bool) (s : State) : State :=
  onCtx (fun c => { c with regs := { c.regs with shadowBase := if mapped then 0x21000000 else 0x41000000, shadowSize := 2 } })
    (onTeam (fun t => { t with alloc := 256, queues := [] }) (onGrid (fun g => { g with kernel := { g.kernel with regs := 8 } }) s))
def shadowed (s : State) : State := onCtx (fun c => { c with shadow := [(0, 64, .inl 2)] }) s
def at_ (p : TeamAt) (s : State) : State := onTeam (fun t => { t with place := p }) s
def aDivert (q : List Sent) : Divert := { team := 2, grid := 0, ctx := 0, image := 0x21000000, core := 0, state := 1, queue := q, applied := 0, held := none, quiet := false }
def diverted (q : List Sent) (s : State) : State := setDie s 0 { dieAt s 0 with divert := [(255, aDivert q)] }
/-- What TEAM_STOP meets: whether the image is written, or a fault. -/
def stopMeets (mapped : Bool) : Option Bool :=
  let s := at_ (.stopping none) (diverted [] (slim mapped p0))
  let still := settleTeam s 2 (teamUnits s 2)
  match tget s.teams 2 with
  | none => none
  | some tm =>
    if divertOf s (tm.core / 32) 2 == some 255 && teamStops still 2 && !imageHeld still 2 then
      let s1 := stopUnits still 2 tm
      (tget s1.teams 2).bind fun tm1 => match imageReady s1 2 tm1 with
       | some (base, s2) =>
         let off := scrOffOf s2 2 tm1
         let f := takeFreeBytes s2 off
         let bs := f.1 ++ cellsRead tm1.scratch 0 tm1.alloc
         if (shadowHeld s2 tm1.ctx base (off + tm1.alloc)).isSome then none
         else some (shadowStore tm1.ctx base bs (List.replicate off false ++ badBytes tm1.poison 0 tm1.alloc) (pageParts base bs.length) f.2).2.isNone
       | none => none
    else none
def asSent (r : TeamReq) : Sent := { src := 7, writers := [3], req := r }
def inTransit (r : TeamReq) (s : State) : State :=
  setCore s 0 { coreAt s 0 with forward := [{ team := 2, target := .inl 5, queue := [asSent r] }] }
def transitAtZero (s : State) : Bool := match oldestTransit s 0 with | some (2, r) => r == asSent (.bar 16 8 false) | _ => false
/-- What the operation at diversion entry 255 meets: whether it is performed. -/
def divertMeets (mapped : Bool) (r : TeamReq) : Option Bool :=
  let s := onTeam (fun t => { t with image := some (if mapped then 0x21000000 else 0x41000000) }) (diverted [asSent r] p0)
  (tget s.teams 2).bind fun tm =>
    let span := r.span tm 0x21000000
    if (shadowHeld s tm.ctx span.1 span.2).isSome then none
    else some (match divertApply s 2 tm 0x21000000 r with | .ok _ => true | .error _ => false)
def aSpawned : Spawned := { grid := 1, pool := 0, pc := 0x20000000, thread := Thread.blank 0 0x20000000 }
/-- The placed grid has a team left and its zone a minimum of 2; no core is in service. -/
def crowded : State :=
  let s := onGrid (fun g => { g with next := 0, zones := [{ placedZone with min := 2 }], segment := { g.segment with length := 32 } }) p0
  { s with start := { s.start with outCores := List.range 128 } }
theorem test_meets_TeamsStopAndResume_stop :
    (let s := at_ (.stopping (some (127, 3))) p0
     teamStops (settleTeam s 2 (teamUnits s 2)) 2 = true) ∧
    (let s := at_ (.stopping (some (127, 3))) (queued p0)
     teamStops (settleTeam s 2 (teamUnits s 2)) 2 = false) ∧
    imageHeld { p0 with domains := [(5, { Domain.fresh 0 0 with pending := [{ FRec.blank with who := .image 2 false }] })] } 2 = true ∧
    stopMeets true = some true ∧ stopMeets false = some false := by decide +kernel
theorem test_meets_TeamsStopAndResume_resume :
    (let s := at_ (.absent 0 255) (onGrid (fun g => { g with segment := { g.segment with length := 32 } }) (slim true p0))
     (match tget s.teams 2 with | some tm => s.package == .on && resumesNext s tm && (pickCore s tm.grid tm.size fun _ => true).isSome | none => false) = true) ∧
    (let s := at_ (.returning 0 255 127 3) (diverted [] p0)
     (match tget (dieAt s 0).divert 255 with | some e => e.queue.isEmpty && !imageHeld s 2 | none => false) = true) ∧
    transitAtZero (inTransit (.bar 16 8 false) p0) = true ∧ transitAtZero (at_ (.absent 0 255) (inTransit (.bar 16 8 false) p0)) = true ∧
    transitAtZero (at_ (.returning 0 255 127 3) (inTransit (.bar 16 8 false) p0)) = true ∧
    transitAtZero (at_ (.stopping none) (onTeam (fun t => { t with core := 1 }) (inTransit (.bar 16 8 false) p0))) = true ∧
    divertMeets true (.write 255 [1] []) = some true ∧ divertMeets false (.write 255 [1] []) = some false ∧
    divertMeets false (.write 0 [] []) = some true ∧
    (let s := setLine (diverted [asSent (.token none 0 0 false)] p0) (0x21000000 / 128) { Line.fresh with holder := some (9, 0) }
     (tget s.teams 2).map (fun tm => shadowHeld s tm.ctx 0x21000000 1) = some (some (0x21000000 / 128))) ∧
    (spawnedHost (hosted p0) 1).isSome = true ∧
    (match tget crowded.grids 1 with | some g => decide (g.next < g.packet.teams) && g.handles.isNone && crowded.package == .on | none => false) = true ∧
    ((crowded.cores.filter fun e => e.2.vacated == some 1) = [] ∧ (vacateNeed crowded 1).2 ≠ 0 ∧
      ((tget crowded.grids 1).map fun g => (teamPlaces crowded 1 g).isNone) = some true) ∧
    (let s := onGrid (fun g => { g with handles := some 5 }) crowded
     (vacateNeed s 1).2 ≠ 0 ∧ ((tget s.grids 1).map fun g => g.handles.isSome && (teamPlaces s 1 g).isNone) = some true) := by decide +kernel

/-! ### The context manager and the host port -/

/-- The device runs and a page of context 0 lies under a table at 0x30000; its frames are shared. -/
def run1 : State :=
  let s := up 15 []
  { s with mem := cellsWrite (cellsWrite s.mem 0x20010 (toBytes 8 0x30001)) 0x2000C [0x5F], queues := [], frames := [(8193, .shared)] }
def farHere (s : State) : State := { s with far := [{ farOf none with va := 0x3FFFFFFF }] }
/-- The page at 0x20000000 may be reached by a peer. -/
def peerPage (s : State) : State := { s with mem := cellsWrite s.mem 0x20008 [0x5F] }
def mapMeets (va pa : Nat) : Option Bool :=
  match tget run1.ctxs 0 with
  | none => none
  | some c =>
    if pageOk va pa false && framesOk run1 0 va pa false then
      if (leafOf run1 c.root va).isSome then some false
      else (authorised run1 0 false).bind fun s1 => (leafPlace (giveFrames s1 0 va pa false false) 0 c.root va false).map fun r => readEntry r.2 r.1 % 2 != 1
    else none
theorem test_meets_RequestsOnContextsAndTheHostPort_manager :
    running run1 = true ∧ tget run1.ctxs 255 = none ∧ slotOk run1 255 = true ∧ slotOk run1 256 = false ∧
    mapMeets 0x40000000 0x30010000 = some true ∧ mapMeets 0x20000000 0x30010000 = some false ∧ mapMeets 0x40000001 0x30010000 = none ∧
    (match leafOf run1 0x10000 0x20000000 with
     | some (_, e, big) => big && !pageBusy run1 0 0x20000000 (entryPa e) big && pageBusy (farHere run1) 0 0x20000000 (entryPa e) big &&
         (authorised run1 0 false).isSome
     | none => false) = true ∧
    tget run1.queues 15 = none ∧
    (let s := { run1 with queues := [(15, aQueue [])], ctxs := run1.ctxs ++ run1.ctxs.map fun e => (7, e.2) }
     (authorised s 0 false).bind (fun s1 => authorised s1 7 false) = some s ∧ authorised s 8 false = none ∧
       ((tget s.queues 15).map fun l => l.pending == [] && l.ctx == some 0) = some true) ∧
    (let s := onCtx (fun c => { c with sealed := true }) run1
     authorised s 0 false = none ∧ authorised s 0 true = none) ∧ (0xB000000000 % 2 ^ 36 = 0 ∧ 0xB000000000 < 0xC000000000) ∧
    (let s := { run1 with grids := [] }
     running s = true ∧ gridsOfCtx s 0 = [] ∧ (authorised s 0 false).isSome = true) ∧ gridsOfCtx run1 0 ≠ [] ∧
    (let s := { pairedUp run1 with pairs := [] }
     running s = true ∧ s.links.peersUp.contains 7 = true ∧ (s.pairs.any fun p => p.ctx == 0 && p.port == 7) = false) ∧
    (aheadOf (aQueue []) 15 ≤ 2 ^ 4 ∧ 2 ^ 4 < aheadOf (aQueue []) 16 ∧ (tget (up 15 []).queues 15).isSome = true) := by decide +kernel
theorem test_meets_RequestsOnContextsAndTheHostPort_port :
    (2 ^ 36 - 4 + [(1 : Byte), 2, 3, 4].length ≤ 2 ^ 36) ∧
    ((pairedUp run1).pairs.any fun p => p.ctx == 0 && p.port == 7 && p.partner == 8) = false ∧
    ((pairedUp run1).pairs.any fun p => p.ctx == 0 && p.port == 7 && p.partner == 9) = true ∧
    (match peerParts (peerPage (pairedUp run1)) 0 .load 0x20020000 (lineParts 0x20020000 4) with
     | some ps => !(peerLoad ps (peerPage (pairedUp run1))).2.1
     | none => false) = true ∧
    (peerParts (peerPage (pairedUp run1)) 0 .store 0x200200FF (lineParts 0x200200FF 2)).isSome = true ∧
    (peerParts (peerPage (pairedUp run1)) 0 .atomic 0x20020000 (lineParts 0x20020000 8)).isSome = true ∧
    peerParts (pairedUp run1) 0 .load 0x20020000 (lineParts 0x20020000 4) = none ∧
    (let s := onCtx (fun c => { c with debug := .context }) run1
     running s = true ∧ anyDebug s = true) ∧ run1.host.ide.contains 8 = false ∧
    (let s := withCmd (cmdOf (.attest (BitVec.ofNat 64 own) (BitVec.ofNat 64 dev) 1)) { run1 with sec := { run1.sec with attest := [20] } }
     running s = true ∧ (tget s.cmds 20).isSome = true) := by decide +kernel
theorem test_frames_are_free (s : State) (h : s.frames = []) (o : s.start.outDies = []) (ctx : Nat) : (takeTable s ctx).isSome = true := by
  have hf : ∀ f, f < frameCount → frameFree s f = true := by
    intro f hf
    simp [frameFree, frameOut, h, o, tget, hf]
  have hp : ((takeFree s).1.toNat % frameCount + 0) % frameCount < frameCount := Nat.mod_lt _ (by decide)
  have e : frameFree s (((takeFree s).1.toNat % frameCount + 0) % frameCount) = true := hf _ hp
  simp [takeTable, pickFrame, h, o, List.range_succ, frameCount] at e ⊢
  exact e

/-! ### Owners, power, start -/

theorem test_meets_OwnersTokensAndSecurity :
    (pickSlot run1).isSome = true ∧
    (let s := onCtx (fun c => { c with owner := some 1, sealed := true, key := 1 }) run1
     running s = true ∧ (match tget s.ctxs 0 with | some c => c.owner.isSome && c.sealed && c.key != 0 | none => false) = true) ∧
    (match tget run1.ctxs 0 with | some c => c.key == 0 && !c.sealed | none => false) = true ∧ run1.sec.owner = none ∧
    sessionOf { run1 with sec := { run1.sec with sessions := [(3, { transcript := 0, secret := 0, count := 2, keys := none })] } }
      { session := 3, hello := none, tag := [] } = some { transcript := 0, secret := 0, count := 2, keys := none } ∧
    sessionOf run1 { session := 3, hello := none, tag := [] } = none ∧ (sessionOf run1 { session := 3, hello := some [1], tag := [] }).isSome = true ∧
    (let s := { onCtx (fun c => { c with owner := some 1 }) run1 with sec := { run1.sec with owner := some 1 } }
     (tget s.ctxs 0).map (·.owner) = some (some 1) ∧ (tget s.ctxs 0).map (·.sealed) = some false ∧ s.sec.owner = some 1) ∧
    run1.sec.state = .secure ∧ running { run1 with sec := { run1.sec with state := .opened, owner := some 1 } } = true := by decide +kernel
theorem test_owner_opens (s : State) (h : s.frames = []) (o : s.start.outDies = []) (c : s.ctxs = []) (sl : s.sec.slots = []) (f : s.sec.full = false)
    (sec : s.sec.state = .secure) : ∃ k s1, pickSlot s = some k ∧ openContext k.2 0 k.1 (some 1) 0 = some s1 := by
  have hk : ∃ n, pickSlot s = some (1 + n % 255, (takeFree s).2) := by
    refine ⟨(takeFree s).1.toNat + 0, ?_⟩
    unfold pickSlot
    rw [sl]
    rfl
  obtain ⟨n, hk⟩ := hk
  have hn : n % 255 < 255 := Nat.mod_lt _ (by decide)
  have hs : slotOk (takeFree s).2 (1 + n % 255) = true := by
    simp [slotOk, takeFree, sec, f, sl]; omega
  have ht : (takeTable (takeFree s).2 0).isSome = true := test_frames_are_free _ (by simpa [takeFree] using h) (by simpa [takeFree] using o) 0
  obtain ⟨t, ht⟩ := Option.isSome_iff_exists.mp ht
  have hc : tget s.ctxs 0 = none := by rw [c]; rfl
  have ho : (openContext (takeFree s).2 0 (1 + n % 255) (some 1) 0).isSome = true := by simp [openContext, hs, ht, hc]
  obtain ⟨s1, ho⟩ := Option.isSome_iff_exists.mp ho
  exact ⟨_, s1, hk, ho⟩
def gatedDie : State := { p0 with cores := (List.range 32).map fun i => (96 + i, { coreAt p0 0 with gated := true, idleFrom := 0 }) }
theorem test_meets_PowerAndStart :
    (coreBusy p0 127 = false ∧ (coreAt p0 127).gated = false ∧ idleSince p0 127 + 20000 ≤ p0.clock ∧ p0.package = .on) ∧
    (let hot := ({ p0 with thermal := { samples := List.replicate 99 3000001, calm := 999, capped := true } } : State).thermal
     3000000 * (hot.sample 3000001).samples.length < (hot.sample 3000001).samples.sum ∧ (hot.sample 3000000).samples.length = 100) ∧
    (let cold := ({ p0 with thermal := { samples := List.replicate 100 2699999, calm := 999, capped := true } } : State).thermal
     (cold.sample 2699999).samples.sum ≤ 3000000 * (cold.sample 2699999).samples.length ∧ 1000 ≤ (cold.sample 2699999).calm ∧
       (cold.sample 2700101).calm < 1000) ∧
    imagesOk State.reset 1 0 = true ∧ nextAttempt { attempts := 0, path := 0, state := 1 } = 1 ∧
    (let s := setCore p0 5 { coreAt p0 5 with gated := true, forward := [{ team := 2, target := .inl 5, queue := [asSent (.bar 16 8 false)] }] }
     (coreAt s 5).gated = true ∧ (oldestTransit s 5).isSome = true) ∧
    (∀ c ∈ dieCores gatedDie 3, (coreAt gatedDie c).gated = true ∧ (coreAt gatedDie c).idleFrom + 2000000 ≤ gatedDie.clock) ∧
    (dieCores gatedDie 3).length = 32 ∧ (beginS3 run1).isNone = true ∧ (beginS3 (slim true run1)).isSome = true ∧
    ({ State.reset with start := { Start.reset with refused := true } } : State).start.refused = true ∧
    (currentStep State.reset).map (·.1) = some 1 ∧
    (let s := { State.reset with start := { Start.reset with step := 12, badLink := some 3, entries := Start.reset.entries.set 11 { attempts := 1, path := 0, state := 1 } } }
     (currentStep s).map (fun x => (x.1, x.2.attempts)) = some (12, 1) ∧
       testFails s 12 { pass := true, badCores := [], badDies := [], tagFails := false } = true) ∧
    testFails State.reset 16 { pass := true, badCores := [127], badDies := [], tagFails := false } = true ∧
    testFails State.reset 11 { pass := true, badCores := [95], badDies := [2], tagFails := false } = false ∧
    ({ run1 with package := .toS3 } : State).package = .toS3 ∧
    (let s := { State.reset with start := { Start.reset with step := 19, entries := (Start.reset.entries.map fun e => { e with state := 2 }).set 18 { attempts := 255, path := 1, state := 1 } } }
     (currentStep s).map (fun x => (x.1, nextAttempt x.2)) = some (19, 255)) ∧
    (let s := setCore p0 0 { coreAt p0 0 with gated := true }
     (coreAt s 0).gated = true ∧ coreBusy s 0 = true) ∧
    (dieAt (setDie p0 3 { dieAt p0 3 with power := .c2 }) 3).power = .c2 := by decide +kernel
theorem test_nothing_to_park (s : State) (h : s.crews = []) (q : s.quarters = []) (x : s.ctxs = []) (l : List Nat) : l.foldl parkCore s = s := by
  have b : ∀ n, parkBins s n = s := by
    intro n
    unfold parkBins quarterAt
    rw [q]
    rfl
  have p : ∀ c, parkCore s c = s := by
    intro c
    have e : List.range 4 = [0, 1, 2, 3] := rfl
    have f : freeReserved s c = s := by unfold freeReserved; rw [x]; split <;> first | rfl | rw [List.map_nil, ← x]
    simp [parkCore, h, b, e, f]
  induction l with
  | nil => rfl
  | cons c r ih => rw [List.foldl_cons, p c, ih]
theorem test_meets_PowerAndStart_s3 : let s := { State.reset with package := Package.toS3 }
    allStopped ((List.range 128).foldl parkCore ((stopEverything s).getD s)) = true := by
  intro s
  have e : (stopEverything s).getD s = s := rfl
  rw [e, test_nothing_to_park s rfl rfl rfl]
  rfl

/-! ## Ill-formed instructions, reserved words, the specification's worked encodings and values -/

def cb0 : CmdByte := { bv := false, tv := false, tok := 0 }
/-- A token without TV; a barrier where none may be named. -/
def cbT : CmdByte := { bv := false, tv := false, tok := 1 }
def cbB : CmdByte := { bv := true, tv := true, tok := 0 }
theorem test_illformed_arithmetic_and_control :
    ([.bra K .always 6 0, .braHint K .always 6 0 .uni, .replay K1 7, .fadd K .sr false 4 6 8, .fmul K .sr false 4 6 8, .ffma K .sr false 4 6 8 10,
      .faddImm K .sr false 4 6 0, .fmulImm K .sr false 4 6 0, .frnd K .sr 4 6, .fdiv K .sr 4 6 8, .hadd2 K true .sr false 4 6 8,
      .hmul2 K false .sr false 4 6 8, .hfma2 K true .sr false 4 6 8 10, .hadd2Imm K true .sr false 4 6 0, .hmul2Imm K true .sr false 4 6 0,
      .fcvt K .rne false .fp32 .fp32 4 6, .fcvt K .rne false .int8 .e8m0 4 6, .fcvt K .rz false .int8 .int32 4 6, .fcvt K .sr false .e4m3 .fp32 4 6,
      .fcvt K .sr false .fp32 .int8 4 6, .fcvtp K .rne false .fp16 1 4 6 8 10, .fcvtp K .rne false .e4m3 2 4 6 8 10, .fcvtp K .sr false .int8 0 4 6 8 10,
      .fcvtp K .sr false .int4 0 4 6 8 10, .fcvtp K .rne false .fp32 0 4 6 8 10] : List Instr).all (fun i => !i.wf) = true := by decide
theorem test_illformed_memory :
    ([.ld K .b32 (mw 0 0 0 .device .plain) 4 6, .ld K .b32 (rel .device) 4 6, .lds K .b32 (mw 0 1 0 .thread .plain) 4 6, .lds K .b32 (acq .cluster) 4 6,
      .ldc K .b32 (acq .die) 4 6, .st K .s8 pl 6 8, .st K .b32 (acq .device) 6 8, .st K .b32 (mw 0 1 0 .thread .plain) 6 8, .sts K .b32 (rel .cluster) 6 8,
      .sts K .s16 pl 6 8, .stc K .s16 pl 6 8, .stc K .b32 (rel .die) 6 8, .fence K (rlx .device), .fence K (mw 4 0 0 .device .acquire), .cctl K .wb (acq .device) 6 8,
      .icinv K (rel .device) 6 8, .icinv K (mw 4 0 0 .device .relaxed) 6 8, .pref K pl 6, .atom K .add false true (acq .device) 4 6 8,
      .atom K .fadd true false (rlx .device) 4 6 8, .atoms K .maxidx false false (rlx .team) 4 6 8, .atomcas K false false (mw 0 1 0 .device .relaxed) 4 6 8 10,
      .red K .add false (acq .device) 6 8, .red K .fadd true (rlx .device) 6 8] : List Instr).all (fun i => !i.wf) = true := by decide
theorem test_illformed_commands :
    ([.astream K 0 6 8 10 0 1 cb0, .astream K 0 6 8 10 1 0 cb0, .astream K 0 6 8 10 1 1 cbB, .opush K 0 6 0, .opush K 0 6 17, .gather K 2 true 4 6 8 0 0 cb0,
      .scatter K 2 true 4 6 8 0 0 cb0, .gather K 2 true 4 6 8 10 1 cb0, .cpy K 4 6 8 10 cb0, .cpy K 4 6 8 0 cbT, .cpyr K 4 6 8 10 0 cb0,
      .cpy2g K 4 6 8 0 0 1 1 1 1 cb0, .cpy2g K 4 6 8 0 1 3 1 1 1 cb0, .cpy2g K 4 6 8 0 1 1 0 1 1 cb0, .cpy2g K 4 6 8 0 1 1 1 0 1 cb0,
      .cpy2g K 4 6 8 0 1 1 1 1 0 cb0, .cpyt K false 4 6 0xFF 0 0 .acc .int8 1 1 cb0, .cpyt K false 4 6 0xFF 0 0 .a .accF32 1 1 cb0,
      .cpyt K false 4 6 0xFF 0 0 .a .mxe4m3 1 1 cb0, .cpyt K false 4 6 8 0 0 .a .int8 1 1 cb0, .cpyt K false 4 6 0xFF 0 0 .a .int8 0 1 cb0,
      .cpyt K false 4 6 0xFF 0 0 .a .int8 1 0 cb0, .bararv K true false 6 8 0, .barwait K .crew 4 6 8, .bartest K .system 4 6 8,
      .fred K false 4 6 8 0 0 0 0 cb0, .fred K true 4 6 8 0 0 1 1 cb0, .fred K false 4 6 8 0 0 0 1 cbT] : List Instr).all (fun i => !i.wf) = true := by decide
theorem test_illformed_matrix_streams_and_work :
    ([.mloop K false 2 6 8 false 0 false 0 0 9 9, .mloop K false 2 6 8 true 0 false 0 65 9 9, .mloop K false 2 6 8 false 0 false 1 1 9 9,
      .mloop K false 2 6 8 false 1 false 0 1 9 9, .mconv K false 2 6 8 10 false 1, .mqnt K .rne .acc .mxe4m3 2 8, .mqnt K .rne .a .int8 2 8,
      .sbind K 64 4 6, .ginv K .crew 6, .chain K false .f32 4 6 8 0 16 cb0, .chain K false .f32 4 6 8 0 11 cb0, .chain K false .f32 4 6 8 0 (13 + 7 * 16) cb0,
      .chain K false .s32 4 6 8 0 15 cb0, .chain K false .f32 4 6 8 0 128 cb0, .chain K false .f32 4 6 8 10 0 cb0, .pdec K 6 8 cb0, .launch K 20 cbB,
      .spawn K 0 false 16 cbB, .attest K 4 6 8 cbB] : List Instr).all (fun i => !i.wf) = true := by decide
/-- Row 1 of R67, then row 2, then row 5: the memory word's ORD, SCOPE and reserved values, SUB, LEN, an unused specifier. -/
theorem test_reserved_words_are_refused :
    decodeWords [7#32] = .bad .pad ∧ decodeWords [0x030001c1#32, 0#32] = .bad .pad ∧ decodeWords [0x00fc01c0#32, 0#32] = .bad .op ∧
    ([[0x480001C1#32, 0x140A#32, 0x4001F#32], [0x480001C1#32, 0x140A#32, 0x4001B#32], [0x780001C1#32, 0x140A#32, 0x40016#32],
      [0x480001C0#32, 0x140A#32], [0x480001C1#32, 0x0100140A#32, 0x40016#32], [0x200001C0#32, 0x00060504#32], [0x000001C0#32, 0x01060504#32]].all fun ws =>
        match decodeWords ws with | .bad (.field _) => true | _ => false) = true := by decide +kernel
/-- The encodings worked in R68, R97, R108, R119, R171, R174, R194 and R224. -/
theorem test_worked_encodings :
    ([([0x00002490#32, 0x00060504#32], .iadd { wait := 9, neg := false, pred := 2, stall := 4 } false 4 5 6),
      ([0x480001C1#32, 0x0000140A#32, 0x00040016#32], .ld K .b32 (mw 0x40 0 0 .device .acquire) 10 20),
      ([0x03000241#32, 0#32, 0xFFFFFFC0#32], .bra { wait := 0, neg := true, pred := 1, stall := 0 } .always 0 0xFFFFFFC0),
      ([0x340001C1#32, 0xFF0A0908#32, 3#32], .shfl K .xor false 8 9 10 0xFF 3),
      ([0x090001C1#32, 0x00060408#32, 0x00010015#32], .atom K .add false false (mw 0x10 0 0 .device .relaxed) 8 4 6),
      ([0x0A1401C1#32, 0x09080604#32, 0x000000C2#32], .cpy K 4 6 8 9 { bv := true, tv := true, tok := 2 }),
      ([0x1B0001C0#32, 9#32], .txopen K true 9), ([0x0B0801C1#32, 0#32, 5#32], .txquit K 5), ([0x6B1001C0#32, 0xC09#32], .spopen K false 3 9 12)] : List Sample).all
      Sample.decodes = true := by decide +kernel
/-- A register of a lane once an instruction has run and its result has returned. -/
def regAfter (i : Instr) (f : State → State) (l r : Nat) : Option W32 :=
  match exec i (f (st i)) with
  | .next t => (match bodyOf t (.crew 3 0) with
    | some b => (match b.landAll with | .crew c => (c.lanes.getD l none).map fun x => x.g.getD r 0 | .ap _ => none)
    | none => none)
  | _ => none
/-- A register of some lanes set, lane by lane. -/
def lanesOf_ (r : Nat) (vs : List Nat) (s : State) : State :=
  onLanes (fun l t => { t with g := lset t.g r (BitVec.ofNat 32 (vs.getD l 0)), p := if l < vs.length then 2 else 0 }) s
/-- The values worked in R91, R92, R96, R100, R107 and R243. -/
theorem test_worked_integers :
    regAfter (.imulh K true 4 6 8) (gs [(6, 0xFFFFFFFE), (8, 3)]) 31 4 = some 0xFFFFFFFF ∧
    regAfter (.imulh K false 4 6 8) (gs [(6, 0xFFFFFFFE), (8, 3)]) 0 4 = some 2 ∧
    (List.range 4).map (regAfter (.idiv K1 true 3 1 2) (lanesOf_ 1 [7, 0x80000000, 0xFFFFFFF9, 9] ∘ lanesOf_ 2 [0, 0xFFFFFFFF, 2, 0xFFFFFFFC]) · 3) =
      [some 0xFFFFFFFF, some 0x80000000, some 0xFFFFFFFD, some 0xFFFFFFFE] ∧
    (List.range 4).map (regAfter (.irem K1 true 3 1 2) (lanesOf_ 1 [7, 0x80000000, 0xFFFFFFF9, 9] ∘ lanesOf_ 2 [0, 0xFFFFFFFF, 2, 0xFFFFFFFC]) · 3) =
      [some 7, some 0, some 0xFFFFFFFF, some 1] ∧
    regAfter (.lea K 3 true 4 6 9) (pair 6 0x100000000 ∘ gs [(9, 0xFFFFFFF0)]) 0 4 = some 0xFFFFFF80 ∧
    regAfter (.lea K 3 false 4 6 9) (pair 6 0x100000000 ∘ gs [(9, 0xFFFFFFF0)]) 0 5 = some 8 ∧
    regAfter (.bfx K true 4 6 8 10) (gs [(6, 0xF00), (8, 8), (10, 4)]) 0 4 = some 0xFFFFFFFF ∧
    regAfter (.bfx K false 4 6 8 10) (gs [(6, 0xF00), (8, 8), (10, 4)]) 0 4 = some 0xF ∧
    regAfter (.bfi K 4 6 8 10) (gs [(6, 0xFFFFFFFF), (8, 3), (10, 0x31E)]) 0 4 = some 0xFFFFFFFF ∧
    regAfter (.cvti K .s4s32 4 6) (gs [(6, 0xFFFFFF38)]) 0 4 = some 0xFFFFFFF8 ∧
    regAfter (.cvti K .s32s4 4 6) (gs [(6, 0xAC)]) 0 4 = some 0xFFFFFFFC := by decide +kernel
/-- The values worked in R119, R121, R124 and R239. -/
theorem test_worked_lanes :
    (List.range 6).map (regAfter (.shfl K1 .xor false 8 9 10 0xFF 3) (lanesOf_ 9 [100, 101, 102, 103, 104, 105] ∘ gs [(10, 1)]) · 8) =
      [101, 100, 103, 102, 105, 104].map some ∧
    (List.range 6).map (regAfter (.shfl K1 .xor false 8 9 10 0xFF 3) (lanesOf_ 9 [100, 101, 102, 103, 104, 105] ∘ gs [(10, 2)]) · 8) =
      [102, 103, 100, 101, 0, 0].map some ∧
    (List.range 8).map (regAfter (.matchLanes K1 false 4 6) (lanesOf_ 6 [5, 9, 5, 5, 9, 1, 5, 9]) · 4) =
      [0x4D, 0x92, 0x4D, 0x4D, 0x92, 0x20, 0x4D, 0x92].map some := by decide +kernel

end Sys2Proof.Tests
end

section
/-! SUPPORT. What it is that a step keeps the canonical form of memory (R7, R48, R127): of a state, and of the state in each shape of
result that the model's functions have. -/

namespace Sys2Proof.Laws

open Sys2Proof Sys2Proof.Machine

variable {s : State}

/-- The memory of a state has the canonical form. -/
abbrev MemWf (s : State) : Prop := Memory.wf s.mem = true

/-- A next state has the canonical form of memory. -/
structure NextWf (o : Host.Outcome State Fault Refusal) : Prop where
  wf : ∀ t, o = .next t → MemWf t

/-- The state that `g` takes from a result, where there is one, has the canonical form of memory. -/
structure OkWf {ε α : Type} (g : α → State) (o : Except ε α) : Prop where
  wf : ∀ a, o = .ok a → MemWf (g a)
/-- The same of an option. -/
structure SomeWf {α : Type} (g : α → State) (o : Option α) : Prop where
  wf : ∀ a, o = some a → MemWf (g a)

/-- The state in which a unit goes on, or waits, has the canonical form of memory. -/
def SumWf (o : State ⊕ State) : Prop := MemWf (o.elim id id)

theorem nextWf_next (s : State) : NextWf (.next s) ↔ MemWf s :=
  ⟨fun h => h.wf s rfl, fun h => ⟨fun t e => by cases e; exact h⟩⟩
theorem okWf_ok {ε α : Type} (g : α → State) (a : α) : OkWf g (.ok a : Except ε α) ↔ MemWf (g a) :=
  ⟨fun h => h.wf a rfl, fun h => ⟨fun t e => by cases e; exact h⟩⟩
theorem okWf_error {ε α : Type} (g : α → State) (e : ε) : OkWf g (.error e : Except ε α) := ⟨nofun⟩
theorem someWf_some {α : Type} (g : α → State) (a : α) : SomeWf g (some a) ↔ MemWf (g a) :=
  ⟨fun h => h.wf a rfl, fun h => ⟨fun t e => by cases e; exact h⟩⟩
theorem someWf_none {α : Type} (g : α → State) : SomeWf g (none : Option α) := ⟨nofun⟩
theorem sumWf_inl (s : State) : SumWf (.inl s) ↔ MemWf s := Iff.rfl
theorem sumWf_inr (s : State) : SumWf (.inr s) ↔ MemWf s := Iff.rfl

theorem okWf_map {ε α β : Type} {g : β → State} {k : α → β} {o : Except ε α} (ho : OkWf (fun a => g (k a)) o) : OkWf g (o.map k) := by
  cases o with
  | error e => exact okWf_error g e
  | ok a => exact (okWf_ok g _).mpr ((okWf_ok _ a).mp ho)

theorem someWf_map {α β : Type} {g : α → State} {g' : β → State} {k : α → β} {o : Option α} (ho : SomeWf g o)
    (hk : ∀ a, MemWf (g a) → MemWf (g' (k a))) : SomeWf g' (o.map k) := by
  cases o with
  | none => exact someWf_none g'
  | some a => exact (someWf_some g' _).mpr (hk a ((someWf_some g a).mp ho))

theorem someWf_bind {α β : Type} {g : α → State} {g' : β → State} {k : α → Option β} {o : Option α} (ho : SomeWf g o)
    (hk : ∀ a, MemWf (g a) → SomeWf g' (k a)) : SomeWf g' (o.bind k) := by
  cases o with
  | none => exact someWf_none g'
  | some a => exact hk a ((someWf_some g a).mp ho)

theorem someWf_map_id {k : State → State} {o : Option State} (ho : SomeWf id o) (hk : ∀ s, MemWf s → MemWf (k s)) : SomeWf id (o.map k) :=
  someWf_map ho hk
theorem someWf_bind_id {k : State → Option State} {o : Option State} (ho : SomeWf id o) (hk : ∀ s, MemWf s → SomeWf id (k s)) :
    SomeWf id (o.bind k) :=
  someWf_bind ho hk

theorem someWf_of {α : Type} {g : α → State} (o : Option α) (hg : ∀ a, MemWf (g a)) : SomeWf g o := ⟨fun a _ => hg a⟩

theorem someWf_getD {o : Option State} (ho : SomeWf id o) {s : State} (h : MemWf s) : MemWf (o.getD s) := by
  cases o with
  | none => exact h
  | some t => exact ho.wf t rfl

theorem someWf_findSome {α β : Type} {g : β → State} {k : α → Option β} (hk : ∀ a, SomeWf g (k a)) (l : List α) :
    SomeWf g (l.findSome? k) := by
  refine ⟨fun b e => ?_⟩
  obtain ⟨a, -, ha⟩ := List.exists_of_findSome?_eq_some e
  exact (hk a).wf b ha

/-! ## Folds -/

theorem foldl_keeps {α β : Type} (g : β → State) {f : β → α → β} (hf : ∀ r a, MemWf (g r) → MemWf (g (f r a))) {r : β} (h : MemWf (g r))
    (l : List α) : MemWf (g (l.foldl f r)) := by
  induction l generalizing r with
  | nil => exact h
  | cons a l ih => exact ih (hf r a h)
theorem foldl_wf {α : Type} {f : State → α → State} (hf : ∀ s a, MemWf s → MemWf (f s a)) {s : State} (h : MemWf s) (l : List α) :
    MemWf (l.foldl f s) :=
  foldl_keeps id hf h l
theorem foldl_snd_wf {α β : Type} {f : β × State → α → β × State} (hf : ∀ r a, MemWf r.2 → MemWf (f r a).2) {r : β × State}
    (h : MemWf r.2) (l : List α) : MemWf (l.foldl f r).2 :=
  foldl_keeps Prod.snd hf h l
theorem foldl_snd_snd_wf {α β γ : Type} {f : β × γ × State → α → β × γ × State} (hf : ∀ r a, MemWf r.2.2 → MemWf (f r a).2.2)
    {r : β × γ × State} (h : MemWf r.2.2) (l : List α) : MemWf (l.foldl f r).2.2 :=
  foldl_keeps (fun r : β × γ × State => r.2.2) hf h l
theorem foldl_cellSet_wf {m : List Host.Cell} (h : Memory.wf m = true) (bs : List (Nat × Byte)) :
    Memory.wf (bs.foldl (fun m b => cellSet m b.1 b.2) m) = true := by
  induction bs generalizing m with
  | nil => exact h
  | cons b bs ih => exact ih (cellSet_wf h (Nat.zero_le _) _)
theorem foldl_bind_wf {α : Type} {f : State → α → Option State} (hf : ∀ s a, MemWf s → SomeWf id (f s a)) (l : List α)
    {o : Option State} (h : SomeWf id o) : SomeWf id (l.foldl (fun b a => b.bind fun s => f s a) o) := by
  induction l generalizing o with
  | nil => exact h
  | cons a l ih => exact ih (someWf_bind_id h fun s hs => hf s a hs)

end Sys2Proof.Laws
end

section
/-! SUPPORT. The operations that later parts share: tables, memory, blocks, transactions, pending accesses. Each function
that returns a state keeps the canonical form of memory: most write no cell, the others write by `cellsWrite` or `cellSet`, or drop cells. -/

namespace Sys2Proof.Laws

open Sys2Proof Sys2Proof.Machine

variable {s : State}

/-! ### The named operations of the state -/

theorem modAccess_wf (h : MemWf s) (t : Nat) (f : Access → Access) : MemWf (modAccess s t f) := h
theorem wakeCore_wf (h : MemWf s) (core : Nat) : MemWf (wakeCore s core) := by
  unfold wakeCore
  grind [setCore_mem, setDie_mem]
theorem idleNow_wf (h : MemWf s) (core : Nat) : MemWf (idleNow s core) := h
theorem completeTokenOf_wf (h : MemWf s) (team : Option Nat) (crew : Option Nat) (tok batch : Nat) (err : Bool) :
    MemWf (completeTokenOf s team crew tok batch err) := by
  unfold completeTokenOf
  grind [modCrew_mem, modAccess_wf]
theorem answerPiece_wf (h : MemWf s) (tag i : Nat) (old : List Byte) (bad : Bool) : MemWf (answerPiece s tag i old bad) := h
theorem applyReq_wf (h : MemWf s) (t : Nat) (r : TeamReq) : MemWf (applyReq s t r) := by
  unfold applyReq
  grind [modTeam_mem, completeTokenOf_wf, answerPiece_wf]
theorem queueForward_wf (h : MemWf s) (core t : Nat) (r : Sent) : MemWf (queueForward s core t r) := h
theorem deliver_wf (h : MemWf s) (t : Nat) (r : Sent) : MemWf (deliver s t r) := by
  unfold deliver
  grind [modTeam_mem, setDie_mem, wakeCore_wf, applyReq_wf, queueForward_wf]
theorem completeToken_wf (h : MemWf s) (by_ : Issuer) (src : W64) (err : Bool) : MemWf (completeToken s by_ src err) := by
  unfold completeToken
  grind [completeTokenOf_wf, deliver_wf]
theorem giveCycle_wf (h : MemWf s) (u : UnitRef) : MemWf (giveCycle s u) := h
theorem setWait_wf (h : MemWf s) (u : UnitRef) (obj : Awaited) (i : Option Instr) : MemWf (setWait s u obj i) := by
  unfold setWait
  grind [putBody_mem, giveCycle_wf]
theorem modGroup_wf (h : MemWf s) (u : UnitRef) (f : Group → Group) : MemWf (modGroup s u f) := by
  unfold modGroup
  grind [putBody_mem]
theorem holdBack_wf (h : MemWf s) (u : UnitRef) (cycle : Nat) : MemWf (holdBack s u cycle) := by
  unfold holdBack
  grind [putBody_mem, giveCycle_wf]
theorem clearWait_wf (h : MemWf s) (u : UnitRef) : MemWf (clearWait s u) := by
  unfold clearWait
  grind [putBody_mem]
theorem domainFor_wf (h : MemWf s) (ctx : Nat) (addr : Addr) : MemWf (domainFor s ctx addr).2 := by
  unfold domainFor
  grind [takeUid_mem]
theorem domainOfGrid_wf (h : MemWf s) (grid : Nat) : MemWf (domainOfGrid s grid).2 := by
  unfold domainOfGrid
  grind [domainFor_wf]
theorem addRecord_wf (h : MemWf s) (dom : Nat) (r : FRec) : MemWf (addRecord s dom r) := h
theorem countPoison_wf (h : MemWf s) (c : Cause) : MemWf (countPoison s c) := by
  unfold countPoison
  grind
theorem takeFault_wf (h : MemWf s) (u : UnitRef) (pc : Addr) (f : FaultInfo) : MemWf (takeFault s u pc f) := by
  unfold takeFault
  grind [takeUid_mem, putBody_mem, domainOfGrid_wf, addRecord_wf, countPoison_wf]
theorem takeAsync_wf (h : MemWf s) (grid : Nat) (r : FRec) : MemWf (takeAsync s grid r).2 := by
  unfold takeAsync
  grind [takeUid_mem, domainOfGrid_wf, addRecord_wf, countPoison_wf]
theorem resumeUnit_wf (h : MemWf s) (who : Held) (dest : Option Addr) : MemWf (resumeUnit s who dest) := by
  unfold resumeUnit
  grind [modCrew_mem, modAccess_wf]

/-! ### Memory, the caches and the L2 -/

theorem dropDue_wf (h : MemWf s) : MemWf (dropDue s) := by
  unfold dropDue
  grind [foldl_wf, l2Due_wf]
theorem tokensFail_wf (h : MemWf s) (line die : Nat) : MemWf (tokensFail s line die) := h
theorem l2Mark_wf (h : MemWf s) (line : Nat) (cluster : Option Nat) (whole : Nat → Bool) : MemWf (l2Mark s line cluster whole) := by
  unfold l2Mark
  grind [setLine_mem, l2Room_mem, l2Touch_mem, l2Due_wf]
theorem l2Write_wf (h : MemWf s) (pa : Nat) (bs : List Byte) (c : Option Nat) : MemWf (l2Write s pa bs c) :=
  cellsWrite_wf (l2Mark_wf h ..) pa bs
theorem l2Cells_wf (h : MemWf s) (line : Nat) (bs : List (Nat × Byte)) (cluster : Option Nat) : MemWf (l2Cells s line bs cluster) :=
  foldl_cellSet_wf (l2Mark_wf h _ _ _) bs
theorem l2Load_wf (h : MemWf s) (pa n : Nat) (c : Option Nat) : MemWf (l2Load s pa n c).2 := by
  unfold l2Load
  grind [foldl_wf, l2Due_wf, l2Touch_mem]
theorem countReads_wf (r : State) (h : MemWf s) (by_ left : Nat) : MemWf (countReads r s by_ left) := h
theorem fillCluster_wf (h : MemWf s) (cl sec rc : Nat) : MemWf (fillCluster s cl sec rc) := by
  unfold fillCluster
  grind [setCluster_mem, l2Touch_mem]
theorem fillL1_wf (h : MemWf s) (core sec rc : Nat) : MemWf (fillL1 s core sec rc) := by
  unfold fillL1
  grind [setCore_mem, fillCluster_wf]
theorem backCluster_wf (h : MemWf s) (cl : Nat) (secs : List Nat) : MemWf (backCluster s cl secs) := by
  unfold backCluster
  grind [foldl_wf, setCluster_mem, l2Cells_wf]
theorem evictCluster_wf (h : MemWf s) (cl line : Nat) : MemWf (evictCluster s cl line) := by
  unfold evictCluster
  grind [setCluster_mem, backCluster_wf]
theorem fitCluster_wf (h : MemWf s) (cl : Nat) : MemWf (fitCluster s cl) := by
  unfold fitCluster
  grind [foldl_wf, evictCluster_wf]
theorem backL1_wf (h : MemWf s) (core : Nat) (secs : List Nat) : MemWf (backL1 s core secs) := by
  unfold backL1
  grind [setCore_mem, setCluster_mem, fitCluster_wf]
theorem releaseAt_wf (h : MemWf s) (core : Nat) (lvl : Lvl) : MemWf (releaseAt s core lvl) := by
  unfold releaseAt
  grind [backCluster_wf, backL1_wf]
theorem acquireAt_wf (h : MemWf s) (core : Nat) (lvl : Lvl) : MemWf (acquireAt s core lvl) := by
  unfold acquireAt
  grind [setCore_mem, setCluster_mem]
theorem backSectors_wf (h : MemWf s) (core : Nat) (lvl : Lvl) (secs : List Nat) : MemWf (backSectors s core lvl secs) := by
  unfold backSectors
  grind [backCluster_wf, backL1_wf]
theorem backWriter_wf (h : MemWf s) (core : Nat) (lvl : Lvl) (writer : Nat) : MemWf (backWriter s core lvl writer) := by
  unfold backWriter
  grind [backCluster_wf, backL1_wf]
theorem loadDev_wf (h : MemWf s) (p : Path) (pa n : Nat) : MemWf (loadDev s p pa n).2 := by
  unfold loadDev
  grind [foldl_wf, setCore_mem, setCluster_mem, l2Touch_mem, fillCluster_wf, fillL1_wf, backSectors_wf]
theorem storeDev_wf (h : MemWf s) (p : Path) (pa : Nat) (bs : List Byte) : MemWf (storeDev s p pa bs) := by
  unfold storeDev
  grind [setCore_mem, setCluster_mem, l2Store_wf, backSectors_wf, backWriter_wf]
theorem evictL1_wf (h : MemWf s) (core line : Nat) : MemWf (evictL1 s core line) := by
  unfold evictL1
  grind [setCore_mem, backL1_wf]
theorem fitPath_wf (h : MemWf s) (core : Nat) : MemWf (fitPath s core) := by
  unfold fitPath
  grind [foldl_wf, fitCluster_wf, evictL1_wf]
theorem noteUse_wf (h : MemWf s) (p : Path) (pa n : Nat) : MemWf (noteUse s p pa n) := by
  unfold noteUse
  grind [foldl_wf, setCore_mem, setCluster_mem, setLine_mem, fitPath_wf]
theorem loadAt_wf (h : MemWf s) (p : Path) (pa n : Nat) : MemWf (loadAt s p pa n).2 := by
  unfold loadAt
  grind [loadDev_wf, noteUse_wf]
theorem storeAt_wf (h : MemWf s) (p : Path) (pa : Nat) (bs : List Byte) : MemWf (storeAt s p pa bs) := by
  unfold storeAt
  grind [storeDev_wf, noteUse_wf]
theorem atomicDev_wf (h : MemWf s) (p : Path) (pa n : Nat) (f : List Byte → List Byte) : MemWf (atomicDev s p pa n f).2 := by
  unfold atomicDev
  grind [loadDev_wf, storeAt_wf]
theorem padRead_wf (h : MemWf s) (t off n : Nat) : MemWf (padRead s t off n).2 := by
  unfold padRead
  grind [foldl_snd_wf, l2Load_wf]
theorem padWrite_wf (h : MemWf s) (t off : Nat) (bs : List Byte) : MemWf (padWrite s t off bs) := by
  unfold padWrite
  grind [foldl_wf, modTeam_mem, l2Store_wf]

/-! ### The device's own blocks and the end of a grid -/

theorem pageRead_wf (h : MemWf s) (ctx va n : Nat) : OkWf Prod.snd (pageRead s ctx va n) := by
  unfold pageRead
  grind [okWf_ok, okWf_error, l2Load_wf]
theorem blockRead_wf (h : MemWf s) (ctx va n : Nat) : OkWf Prod.snd (blockRead s ctx va n) := by
  unfold blockRead
  grind [okWf_ok, pageRead_wf]
theorem blockWrite_wf (h : MemWf s) (ctx va : Nat) (bs : List Byte) : OkWf id (blockWrite s ctx va bs) := by
  unfold blockWrite
  grind [okWf_ok, okWf_error, l2Store_wf]
theorem descTries_wf (ctx va n tries : Nat) (h : MemWf s) : OkWf Prod.snd (descTries ctx va n tries s) := by
  induction tries generalizing s with
  | zero => exact okWf_error _ _
  | succ k ih =>
    unfold descTries
    grind [okWf_ok, okWf_error, blockRead_wf]
theorem descRead_wf (h : MemWf s) (ctx va n : Nat) : OkWf Prod.snd (descRead s ctx va n) := by
  unfold descRead
  grind [descTries_wf]
theorem gridDone_wf (h : MemWf s) (g : Nat) (state code : Nat) : MemWf (gridDone s g state code) := by
  unfold gridDone
  grind [okWf_ok, takeAsync_wf, blockWrite_wf]
theorem aelogPut_wf (h : MemWf s) (r : AeRec) (va : Nat) (bs : List Byte) : OkWf id (aelogPut s r va bs) := by
  unfold aelogPut
  grind [okWf_ok, okWf_error, blockWrite_wf]
theorem aelogWrite_wf (h : MemWf s) (r : AeRec) : MemWf (aelogWrite s r) := by
  unfold aelogWrite
  grind [okWf_ok, modCtx_mem, takeAsync_wf, aelogPut_wf]
theorem flushLog_wf (h : MemWf s) (core : Nat) (p : AeRec → Bool) : MemWf (flushLog s core p) := by
  unfold flushLog
  grind [foldl_wf, setCore_mem, aelogWrite_wf]
theorem flushTeam_wf (h : MemWf s) (tm : Team) : MemWf (flushTeam s tm) := by
  unfold flushTeam
  grind [foldl_wf, flushLog_wf]
theorem flushGrid_wf (h : MemWf s) (g : Nat) : MemWf (flushGrid s g) := by
  unfold flushGrid
  grind [foldl_wf, flushLog_wf]
theorem dropGrid_wf (h : MemWf s) (g : Nat) : MemWf (dropGrid s g) := by
  unfold dropGrid
  grind [foldl_wf, idleNow_wf]
theorem keepFar_wf (h : MemWf s) (g : Nat) : MemWf (keepFar s g) := by
  unfold keepFar
  grind [domainOfGrid_wf]
theorem endGrid_wf (h : MemWf s) (g : Nat) : MemWf (endGrid s g) := by
  unfold endGrid
  grind [gridDone_wf, flushGrid_wf, dropGrid_wf, keepFar_wf]
theorem raise_wf (h : MemWf s) (u : UnitRef) (pc : Addr) (f : FaultInfo) : MemWf (raise s u pc f) := by
  unfold raise
  grind [foldl_wf, takeUid_mem, addRecord_wf, takeFault_wf, endGrid_wf]

/-! ### Transactions: logs, validation, aborts -/

theorem logPut_wf (h : MemWf s) (a : LogArea) (i : Nat) (e : LogEntry) : MemWf (logPut s a i e) := by
  unfold logPut
  grind [padWrite_wf]
theorem abortLanes_wf (h : MemWf s) (uid low : Nat) (m : Mask) (x : TxCause) (code : Option (BitVec 7)) (leaving : Bool) :
    MemWf (abortLanes s uid low m x code leaving) := by
  unfold abortLanes
  grind
theorem endIrrevocable_wf (h : MemWf s) (uid lane : Nat) : MemWf (endIrrevocable s uid lane) := h
theorem faultUnit_wf (h : MemWf s) (u : UnitRef) (gm : Mask) (pc : Addr) (f : FaultInfo) : MemWf (faultUnit s u gm pc f) := by
  unfold faultUnit
  grind [modCrew_mem, raise_wf, abortLanes_wf]

/-! ### Arithmetic events -/

theorem aeNote_wf (h : MemWf s) (core : Nat) (r : AeRec) : MemWf (aeNote s core r) := by
  unfold aeNote
  grind [setCore_mem, aelogWrite_wf]
theorem logEvents_wf (h : MemWf s) (u : UnitRef) (pc : Addr) (evs : Events) : MemWf (logEvents s u pc evs) := by
  unfold logEvents
  grind [foldl_wf, aeNote_wf]

/-! ### Stream graphs -/

theorem noteGraph_wf (h : MemWf s) (q : Asker) (va : Nat) (es : List Arith) : MemWf (noteGraph s q va es) := by
  unfold noteGraph
  grind [foldl_wf, aeNote_wf]
theorem granuleRead_wf (h : MemWf s) (q : Asker) (b : Binding) (g : Nat) : MemWf (granuleRead s q b g).2.2 := by
  unfold granuleRead
  grind [takeFreeBytes_mem, countPoison_wf, noteGraph_wf]
theorem granuleWrite_wf (h : MemWf s) (q : Asker) (b : Binding) (g : Nat) (bytes : List (Nat × Byte)) (poisoned : Bool) :
    MemWf (granuleWrite s q b g bytes poisoned) := by
  unfold granuleWrite
  split
  · exact h
  · exact cellsWrite_wf (noteGraph_wf (by split <;> grind [countPoison_wf]) q _ _) _ _
theorem viewRead_wf (h : MemWf s) (q : Asker) (b : Binding) (off n : Nat) : MemWf (viewRead s q b off n).2.2 :=
  foldl_keeps (fun r : List (Nat × List Byte) × Bool × State => r.2.2) (fun _ _ hr => granuleRead_wf hr q b _) h _
theorem viewWrite_wf (h : MemWf s) (q : Asker) (b : Binding) (bytes : List (Nat × Byte)) (poisoned : Bool) :
    MemWf (viewWrite s q b bytes poisoned) := by
  unfold viewWrite
  grind [foldl_wf, granuleWrite_wf]

/-! ### Loads, stores and atomics performed afterwards -/

theorem Piece_perform_wf (h : MemWf s) (p : Pend) (q : Piece) : MemWf (Piece.perform s p q).2 := by
  unfold Piece.perform
  grind [takeFreeBytes_mem, deliver_wf, countReads_wf, loadAt_wf, storeAt_wf, atomicDev_wf, padRead_wf, padWrite_wf]
theorem dropPend_wf (h : MemWf s) (tag : Nat) : MemWf (dropPend s tag) := h
theorem modResults_wf (h : MemWf s) (p : Pend) (f : List Result → List Result) : MemWf (modResults s p f) := by
  unfold modResults
  grind [modCrew_mem, modAccess_wf]
theorem poisonPend_wf (h : MemWf s) (p : Pend) (bad : Mask) : MemWf (poisonPend s p bad) := by
  unfold poisonPend
  grind [modCrew_mem, modAccess_wf, faultUnit_wf, dropPend_wf, modResults_wf]
theorem landPend_wf (h : MemWf s) (tag : Nat) : MemWf (landPend s tag) := by
  unfold landPend
  grind [acquireAt_wf, dropPend_wf, modResults_wf, poisonPend_wf]
theorem setPiece_wf (h : MemWf s) (tag i : Nat) (q : Piece) : MemWf (setPiece s tag i q) := h
theorem performPiece_wf (h : MemWf s) (tag i : Nat) : MemWf (performPiece s tag i) := by
  unfold performPiece
  split
  · exact h
  · split
    · exact landPend_wf h tag
    · grind [releaseAt_wf, deliver_wf, dropDue_wf, Piece_perform_wf, landPend_wf, setPiece_wf]
theorem forgetLoads_wf (h : MemWf s) (uid : Nat) (m : Mask) : MemWf (forgetLoads s uid m) := h
theorem forgetAccess_wf (h : MemWf s) (t : Nat) : MemWf (forgetAccess s t) := h
theorem performOf_wf (h : MemWf s) (ps : List Pend) (n : Nat) : MemWf (performOf s ps n) := by
  unfold performOf
  grind [performPiece_wf]
theorem performNth_wf (h : MemWf s) (u : UnitRef) (n : Nat) : MemWf (performNth s u n) := by
  unfold performNth
  grind [performOf_wf]
theorem drainOf_wf (h : MemWf s) (ps : List Pend) : MemWf (drainOf s ps) := by
  unfold drainOf
  grind [foldl_wf, performPiece_wf]
theorem drain_wf (h : MemWf s) (u : UnitRef) : MemWf (drain s u) := by
  unfold drain
  grind [drainOf_wf]
theorem drainFirst_wf (h : MemWf s) (u : UnitRef) (i : Instr) (k : PendWait) : MemWf (drainFirst s u i k) := by
  unfold drainFirst
  grind [setWait_wf, drainOf_wf]

end Sys2Proof.Laws
end

section
/-! SUPPORT. Issue, memory instructions and the engines. Each function
that returns a state keeps the canonical form of memory: most write no cell, the others write by `cellsWrite` or `cellSet`, or drop cells. -/

namespace Sys2Proof.Laws

open Sys2Proof Sys2Proof.Machine

variable {s : State}

/-! ### The issue of an instruction -/

theorem finishAt_wf (h : MemWf s) (x : Ex) (c : Ctl) (b : Body) (pc : Addr) : MemWf (finishAt x c b pc s) := by
  unfold finishAt
  grind [putBody_mem]
theorem retire_wf (h : MemWf s) (x : Ex) (c : Ctl) (b : Body) : MemWf (retire x c b s) := by
  unfold retire
  grind [finishAt_wf]
theorem retireEnd_wf (h : MemWf s) (x : Ex) (c : Ctl) (b : Body) : MemWf (retireEnd x c b s) := by
  unfold retireEnd
  grind [retire_wf]
theorem faultEx_wf (h : MemWf s) (x : Ex) (cause : Cause) (addr : W64) (m : Mask) : MemWf (faultEx x cause addr m s) := by
  unfold faultEx
  grind [faultUnit_wf]
theorem waitEx_wf (h : MemWf s) (x : Ex) (obj : Awaited) (i : Instr) : MemWf (waitEx x obj i s) := by
  unfold waitEx
  grind [setWait_wf]
theorem withEvents_wf {k : State → State} (hk : ∀ s, MemWf s → MemWf (k s)) (h : MemWf s) (x : Ex) (evs : Events) :
    MemWf (withEvents x evs s k) := by
  unfold withEvents
  grind [faultUnit_wf, logEvents_wf]
theorem waitField_wf (h : MemWf s) (u : UnitRef) (b : Body) (g : Group) (i : Instr) (c : Ctl) : SumWf (waitField s u b g i c) := by
  unfold waitField
  grind [sumWf_inl, sumWf_inr, setWait_wf, acquireAt_wf, putBody_mem]
theorem endAttempts_wf (h : MemWf s) (uid : Nat) (m : Mask) : MemWf (endAttempts s uid m) := by
  unfold endAttempts
  grind [foldl_wf, modCrew_mem, endIrrevocable_wf]
theorem irrevFault_wf (h : MemWf s) (x : Ex) (uid : Nat) (irr : Mask) : MemWf (irrevFault s x uid irr) := by
  unfold irrevFault
  grind [raise_wf, endAttempts_wf]
theorem instrAbort_wf (h : MemWf s) (x : Ex) (m : Mask) (leaving : Bool) : SomeWf Prod.fst (instrAbort s x m leaving) := by
  unfold instrAbort
  grind [someWf_some, someWf_none, modCrew_mem, abortLanes_wf, irrevFault_wf]
theorem txGate_wf (h : MemWf s) (x : Ex) (r : TxRule) : SomeWf Prod.fst (txGate s x r) := by
  unfold txGate
  grind [someWf_none, instrAbort_wf]
theorem metParity_wf (h : MemWf s) (ps : List Parity) : MemWf (metParity s ps) := by
  unfold metParity
  grind
theorem issueOn_wf {k : Ex → State → State} (hk : ∀ x s, MemWf s → MemWf (k x s)) (h : MemWf s) (i : Instr) (c : Ctl) (r : TxRule)
    (x : Ex) : MemWf (issueOn i c r k x s) := by
  unfold issueOn
  grind [retire_wf, faultUnit_wf, drainFirst_wf, txGate_wf, someWf_some]
theorem issueRest_wf {k : Ex → State → State} (hk : ∀ x s, MemWf s → MemWf (k x s)) (h : MemWf s) (i : Instr) (c : Ctl)
    (ops : List Opnd) (r : TxRule) (u : UnitRef) (b : Body) (g : Group) : MemWf (issueRest i c ops r k u b g s) := by
  unfold issueRest
  grind [setWait_wf, holdBack_wf, faultUnit_wf, issueOn_wf, metParity_wf]
theorem issue_wf {k : Ex → State → State} (hk : ∀ x s, MemWf s → MemWf (k x s)) (h : MemWf s) (i : Instr) (c : Ctl) (ops : List Opnd)
    (extra : List Cause) (r : TxRule) : MemWf (issue i c ops extra r k s) := by
  unfold issue
  split
  · exact h
  · split
    · exact h
    · split
      · exact h
      · grind [faultUnit_wf, waitField_wf, sumWf_inl, sumWf_inr, issueRest_wf]

/-! ### Loads, stores, fences and cache operations -/

theorem failLanes_wf (h : MemWf s) (x : Ex) (f : Failed × AccessReq × Mask) : MemWf (failLanes x f s) := by
  unfold failLanes
  grind [faultUnit_wf]
theorem modThread_wf (h : MemWf s) (uid l : Nat) (f : Thread → Thread) : MemWf (modThread s uid l f) := h
theorem loadSeg_wf (h : MemWf s) (x : Ex) (p : Path) (seg : Place × Nat × Nat) : MemWf (loadSeg s x p seg).2.2 := by
  unfold loadSeg
  grind [takeFreeBytes_mem, loadAt_wf, padRead_wf, viewRead_wf]
theorem readPieces_wf (h : MemWf s) (x : Ex) (m : MemWord) (p : Path) (l : Nat) (seg : Place × Nat × Nat) :
    MemWf (readPieces s x m p l seg).2 := by
  unfold readPieces
  grind [loadSeg_wf]
theorem loadLane_wf (h : MemWf s) (x : Ex) (m : MemWord) (p : Path) (acc : AccessReq) (l : Nat) : MemWf (loadLane s x m p acc l).2 := by
  unfold loadLane
  grind [foldl_snd_wf, readPieces_wf]
theorem txLoad_wf (h : MemWf s) (x : Ex) (acc : AccessReq) (l : Nat) : MemWf (txLoad s x acc l).2 := by
  unfold txLoad
  grind [foldl_wf, loadAt_wf, logPut_wf, modThread_wf]
theorem txStore_wf (h : MemWf s) (x : Ex) (acc : AccessReq) (bs : List Byte) (l : Nat) : MemWf (txStore s x acc bs l).2 := by
  unfold txStore
  grind [foldl_wf, logPut_wf, modThread_wf]
theorem storeSeg_wf (h : MemWf s) (x : Ex) (p : Path) (seg : Place × Nat × Nat) (bs : List Byte) : MemWf (storeSeg s x p seg bs) := by
  unfold storeSeg
  grind [deliver_wf, storeAt_wf, padWrite_wf]
theorem sendStores_wf (h : MemWf s) (x : Ex) (stores : List (Nat × List (Place × Nat × Byte))) : MemWf (sendStores s x stores) := by
  unfold sendStores
  grind [foldl_wf]
theorem storeLane_wf (h : MemWf s) (x : Ex) (p : Path) (acc : AccessReq) (bs : List Byte) (irrev : Bool) (l : Nat) :
    MemWf (storeLane s x p acc bs irrev l).2 := by
  unfold storeLane
  grind [foldl_wf, setLine_mem, storeSeg_wf]
theorem eachLane_wf {f : State → Nat → LaneOut × State} (hf : ∀ s l, MemWf s → MemWf (f s l).2) (h : MemWf s) (ls : List Nat) :
    MemWf (eachLane ls f s).2 := by
  unfold eachLane
  exact foldl_snd_wf (fun r l hr => by exact hf r.2 l hr) h ls
theorem eachPass_wf {f : State → Nat → LaneOut × State} (hf : ∀ s l, MemWf s → MemWf (f s l).2) (h : MemWf s) (rc : Nat)
    (ls : List Nat) : MemWf (eachPass rc ls f s).2 := by
  unfold eachPass
  exact countReads_wf _ (eachLane_wf hf (dropDue_wf (countReads_wf _ (eachLane_wf hf (dropDue_wf h) _) _ _)) _) _ _
theorem parkLanes_wf (h : MemWf s) (x : Ex) (m : Mask) (obj : Awaited) (i : Instr) : MemWf (parkLanes x m obj i s) := by
  unfold parkLanes
  grind [putBody_mem, waitEx_wf]
theorem memStop_memFault_wf (h : MemWf s) (x : Ex) (i : Instr) (outs : List (Nat × LaneOut)) (low : Mask → W64) :
    SomeWf id (memStop.memFault x i s outs low) := by
  simp only [memStop.memFault]
  repeat' split
  all_goals grind [someWf_some, someWf_none, parkLanes_wf, faultEx_wf, faultUnit_wf]
theorem memStop_wf (h : MemWf s) (x : Ex) (i : Instr) (outs : List (Nat × LaneOut)) (addr : Nat → Nat) :
    SomeWf id (memStop x i outs addr s) := by
  unfold memStop
  grind [someWf_some, abortLanes_wf, memStop_memFault_wf]
theorem addPend_wf (h : MemWf s) (p : Pend) : MemWf (addPend s p) := h
theorem loadWork_wf (h : MemWf s) (i : Instr) (c : Ctl) (sz : Size) (m : MemWord) (d : Spec) (q : Nat → AccessReq) (x : Ex) :
    MemWf (loadWork i c sz m d q x s) := by
  unfold loadWork
  extract_lets ps acq s1 one r
  have hone : ∀ t l, MemWf t → MemWf (one t l).2 := fun t l ht => by grind [txLoad_wf, loadLane_wf]
  have hr : MemWf r.2 := eachPass_wf hone h _ _
  repeat' split
  all_goals grind [drainFirst_wf, waitEx_wf, retire_wf, addPend_wf, memStop_wf, someWf_some, acquireAt_wf]
theorem loadInstr_wf (h : MemWf s) (i : Instr) (c : Ctl) (reach : Reach) (sz : Size) (m : MemWord) (d a : Spec) (tx : TxRule) :
    MemWf (loadInstr i c reach sz m d a tx s) := by
  unfold loadInstr
  grind [issue_wf, failLanes_wf, loadWork_wf]
theorem storeWork_wf (h : MemWf s) (i : Instr) (c : Ctl) (sz : Size) (m : MemWord) (b : Spec) (q : Nat → AccessReq) (x : Ex) :
    MemWf (storeWork i c sz m b q x s) := by
  unfold storeWork
  extract_lets plain rel bytes ps late lvl s1 s0 one r out
  have hone : ∀ t l, MemWf t → MemWf (one t l).2 := fun t l ht => by grind [txStore_wf, storeLane_wf]
  have hr : MemWf r.2 := eachLane_wf hone (by grind [releaseAt_wf]) _
  repeat' split
  all_goals grind [drainFirst_wf, waitEx_wf, retire_wf, addPend_wf, memStop_wf, someWf_some, sendStores_wf]
theorem storeInstr_wf (h : MemWf s) (i : Instr) (c : Ctl) (reach : Reach) (sz : Size) (m : MemWord) (a b : Spec) (tx : TxRule) :
    MemWf (storeInstr i c reach sz m a b tx s) := by
  unfold storeInstr
  grind [issue_wf, failLanes_wf, storeWork_wf]
theorem execFence_wf (h : MemWf s) (c : Ctl) (m : MemWord) : NextWf (execFence c m s) := by
  unfold execFence
  grind [nextWf_next, releaseAt_wf, acquireAt_wf, retire_wf, waitEx_wf, issue_wf]
theorem cctlOn_wf (h : MemWf s) (core : Nat) (lvl : Lvl) (op : CctlOp) (rs : List (Nat × Nat)) : MemWf (cctlOn s core lvl op rs) := by
  unfold cctlOn
  grind [setCore_mem, setCluster_mem, backSectors_wf]
theorem noncanonLanes_wf (h : MemWf s) (x : Ex) (ea : Nat → Nat) : SomeWf id (noncanonLanes x ea s) := by
  unfold noncanonLanes
  grind [someWf_some, someWf_none, faultEx_wf]
theorem execCctl_wf (h : MemWf s) (c : Ctl) (op : CctlOp) (m : MemWord) (a b : Spec) : NextWf (execCctl c op m a b s) := by
  simp only [execCctl, nextWf_next]
  refine issue_wf (fun x s h => ?_) h _ _ _ _ _
  split
  · grind [noncanonLanes_wf, someWf_some]
  · exact waitEx_wf h ..
  · exact retire_wf (foldl_wf (fun s l hs => cctlOn_wf hs ..) h _) ..
theorem icDrop_wf (h : MemWf s) (core : Nat) (sc : Scope) (rs : List (Nat × Nat)) : MemWf (icDrop s core sc rs) := h
theorem execIcinv_wf (h : MemWf s) (c : Ctl) (m : MemWord) (a b : Spec) : NextWf (execIcinv c m a b s) := by
  simp only [execIcinv, nextWf_next]
  refine issue_wf (fun x s h => ?_) h _ _ _ _ _
  split
  · grind [noncanonLanes_wf, someWf_some]
  · exact retire_wf (foldl_wf (fun s l hs => icDrop_wf hs ..) h _) ..
theorem prefLine_wf (h : MemWf s) (core ctx : Nat) (m : MemWord) (ea : Nat) : MemWf (prefLine s core ctx m ea) := by
  unfold prefLine
  grind [foldl_wf, l2Touch_mem, l2Due_wf, countReads_wf, fillCluster_wf, fillL1_wf, noteUse_wf]
theorem execPref_wf (h : MemWf s) (c : Ctl) (m : MemWord) (a : Spec) : NextWf (execPref c m a s) := by
  unfold execPref
  grind [nextWf_next, foldl_wf, retire_wf, issue_wf, prefLine_wf]

/-! ### What an engine does -/

theorem engReadSeg_wf (h : MemWf s) (by_ : Issuer) (seg : Place × Nat × Nat) : MemWf (engReadSeg s by_ seg).2.2 := by
  unfold engReadSeg
  grind [takeFreeBytes_mem, l2Load_wf, padRead_wf, viewRead_wf]
theorem engReadSegs_wf (h : MemWf s) (by_ : Issuer) (segs : List (Place × Nat × Nat)) : MemWf (engReadSegs s by_ segs).2.2 := by
  unfold engReadSegs
  exact foldl_snd_snd_wf (fun _ _ hr => by exact engReadSeg_wf hr by_ _) h segs
theorem engWriteSeg_wf (h : MemWf s) (by_ : Issuer) (cmd : Option Nat) (seg : Place × Nat × Nat) (bs : List Byte) (bad : List Bool) :
    MemWf (engWriteSeg s by_ cmd seg bs bad) := by
  unfold engWriteSeg
  grind [deliver_wf, l2Store_wf, viewWrite_wf]
theorem engWriteSegs_wf (h : MemWf s) (by_ : Issuer) (cmd : Option Nat) (va : Nat) (segs : List (Place × Nat × Nat)) (bs : List Byte)
    (bad : List Bool) : MemWf (engWriteSegs s by_ cmd va segs bs bad) := by
  unfold engWriteSegs
  grind [foldl_wf, engWriteSeg_wf]
theorem engTake_wf (h : MemWf s) (by_ : Issuer) (va n : Nat) : OkWf (fun r => r.2.2) (engTake s by_ va n) := by
  unfold engTake
  grind [okWf_ok, okWf_error, engReadSegs_wf]
theorem engPut_wf (h : MemWf s) (by_ : Issuer) (cmd : Option Nat) (va : Nat) (bs : List Byte) (bad : List Bool) :
    OkWf id (engPut s by_ cmd va bs bad) := by
  unfold engPut
  grind [okWf_ok, okWf_error, engWriteSegs_wf]
theorem engRead_wf (h : MemWf s) (by_ : Issuer) (va n : Nat) : OkWf (fun r => r.2.2) (engRead s by_ va n) := by
  unfold engRead
  exact okWf_map (engTake_wf h by_ va n)
theorem engWrite_wf (h : MemWf s) (by_ : Issuer) (cmd : Option Nat) (va : Nat) (bs : List Byte) (bad : Bool) :
    OkWf id (engWrite s by_ cmd va bs bad) := by
  unfold engWrite
  grind [engPut_wf]
/-- Every piece keeps the form. -/
def PieceWf (p : PieceFn) : Prop := ∀ s pos ix, MemWf s → MemWf (p s pos ix).s
theorem skipAhead_wf {p : PieceFn} (hp : PieceWf p) (ahead : List (Nat × Nat)) : PieceWf (skipAhead ahead p) := by
  intro s pos ix h
  unfold skipAhead
  grind [PieceWf]
theorem runPieces_wf {piece : PieceFn} (hp : PieceWf piece) (h : MemWf s) (total fuel pos : Nat) (ix : Option (Nat × Bool)) :
    MemWf (runPieces total piece fuel s pos ix).s := by
  induction fuel generalizing s pos ix with
  | zero => exact h
  | succ n ih =>
    unfold runPieces
    grind [PieceWf]
theorem copyPiece_wf (h : MemWf s) (by_ : Issuer) (cmd : Option Nat) (src dst n : Nat) (toPad : Option Nat) (pos : Nat) :
    MemWf (copyPiece by_ cmd src dst n toPad s pos).s := by
  unfold copyPiece
  grind [engReadSegs_wf, engWriteSegs_wf]
theorem copyElem_wf (h : MemWf s) (by_ : Issuer) (cmd : Option Nat) (src dst n : Nat) (bad : Bool) :
    OkWf id (copyElem s by_ cmd src dst n bad) := by
  unfold copyElem
  grind [okWf_ok, okWf_error, engReadSegs_wf, engWriteSegs_wf]
theorem elemPiece_wf {r : Except EngFail State} (h : MemWf s) (hr : OkWf id r) (pos : Nat) : MemWf (elemPiece s pos r).s := by
  unfold elemPiece
  grind [okWf_ok]
theorem barUpdateAt_wf (h : MemWf s) (team : Option Nat) (src : W64) (off bytes : Nat) (err : Bool) :
    MemWf (barUpdateAt s team src off bytes err) := by
  unfold barUpdateAt
  grind [deliver_wf]
theorem freeProducer_wf (h : MemWf s) (n : Nat) (c : Cmd) : MemWf (freeProducer s n c) := by
  unfold freeProducer
  grind [modTeam_mem]
theorem completeCmd_wf (h : MemWf s) (n : Nat) (err : Bool) : MemWf (completeCmd s n err) := by
  unfold completeCmd
  grind [idleNow_wf, completeToken_wf, barUpdateAt_wf, freeProducer_wf]
theorem stopCmd_wf (h : MemWf s) (n : Nat) (c : Cmd) (e : EngFail) : MemWf (stopCmd s n c e) := by
  unfold stopCmd
  grind [takeAsync_wf]

/-! ### The commands' work -/

theorem readIndex_wf (h : MemWf s) (by_ : Issuer) (va n : Nat) (index : Option (Nat × Bool)) :
    OkWf Prod.snd (readIndex by_ va n index s) := by
  unfold readIndex
  grind [okWf_ok, okWf_error, engRead_wf]
theorem gatherPiece_wf (h : MemWf s) (by_ : Issuer) (cmd : Option Nat) (scatter : Bool) (d a b : Addr) (esz : Nat) (i64 : Bool)
    (j : Nat) (index : Option (Nat × Bool)) : MemWf (gatherPiece by_ cmd scatter d a b esz i64 s j index).s := by
  unfold gatherPiece
  grind [okWf_ok, copyElem_wf, readIndex_wf]
theorem patchPiece_wf (h : MemWf s) (by_ : Issuer) (cmd : Option Nat) (d a b : Addr) (pitch esz pw ph : Nat) (pos : Nat)
    (index : Option (Nat × Bool)) : MemWf (patchPiece by_ cmd d a b pitch esz pw ph s pos index).s := by
  unfold patchPiece
  grind [okWf_ok, engReadSegs_wf, engWriteSegs_wf, readIndex_wf]
theorem takeEach_wf (h : MemWf s) (by_ : Issuer) (l : List (Nat × Nat)) : MemWf (takeEach by_ l s).2.2 := by
  induction l generalizing s with
  | nil => exact h
  | cons e r ih =>
    unfold takeEach
    grind [okWf_ok, engRead_wf]
theorem tileProg_wf (h : MemWf s) (f : FrameFmt) (role : Role) (i p k good : Nat) (e : Option EngFail) :
    MemWf (tileProg f role i p k good e s).s := h
theorem packPiece_wf (h : MemWf s) (by_ : Issuer) (cmd : Option Nat) (f : FrameFmt) (role : Role) (store frame : Nat)
    (scales : Option Addr) (pitch spitch : Nat) (pos : Nat) :
    MemWf (packPiece by_ cmd f role store frame scales pitch spitch s pos).s := by
  unfold packPiece
  grind [okWf_ok, engPut_wf, engRead_wf, takeEach_wf, tileProg_wf]
theorem putParts_wf (h : MemWf s) (by_ : Issuer) (cmd : Option Nat) (ws : List (Nat × List Byte × List Bool)) :
    MemWf (putParts by_ cmd ws s) := by
  unfold putParts
  grind [okWf_ok, foldl_wf, engPut_wf]
theorem expandPiece_wf (h : MemWf s) (by_ : Issuer) (cmd : Option Nat) (f : FrameFmt) (role : Role) (store frame : Nat)
    (scales : Option Addr) (pitch spitch : Nat) (pos : Nat) :
    MemWf (expandPiece by_ cmd f role store frame scales pitch spitch s pos).s := by
  unfold expandPiece
  grind [foldl_snd_snd_wf, engReadSegs_wf, takeEach_wf, tileProg_wf, putParts_wf]
theorem tilePiece_wf (h : MemWf s) (by_ : Issuer) (cmd : Option Nat) (pack : Bool) (d a : Addr) (scales : Option Addr) (role : Role)
    (f : FrameFmt) (pitch spitch : Nat) (pos : Nat) : MemWf (tilePiece by_ cmd pack d a scales role f pitch spitch s pos).s := by
  unfold tilePiece
  grind [packPiece_wf, expandPiece_wf]
theorem noteCmd_wf (h : MemWf s) (c : Cmd) (crew : Nat) (exact : Bool) (lanes : Mask) (es : List Arith) :
    MemWf (noteCmd s c crew exact lanes es) := by
  unfold noteCmd
  grind [foldl_wf, aeNote_wf]
theorem chainPiece_wf (h : MemWf s) (c : Cmd) (cmd : Option Nat) (d a : Addr) (ty : ChainTy) (sat : Bool) (ops : List (Nat × Nat))
    (ks : List W64) (i : Nat) : MemWf (chainPiece c cmd d a ty sat ops ks s i).s := by
  unfold chainPiece
  grind [okWf_ok, engRead_wf, engWrite_wf, noteCmd_wf]
theorem fredRead_wf (h : MemWf s) (by_ : Issuer) (a : Addr) (n : Nat) : OkWf Prod.snd (fredRead by_ a n s) := by
  induction n generalizing s a with
  | zero => exact (okWf_ok _ _).mpr h
  | succ n ih =>
    unfold fredRead
    grind [okWf_ok, okWf_error, engRead_wf]
theorem fredJoin_wf (h : MemWf s) (n : Nat) (c : Cmd) : MemWf (fredJoin s n c) := by
  unfold fredJoin
  grind
theorem fredPiece_wf (h : MemWf s) (c : Cmd) (cmd : Option Nat) (d : Addr) (i : Nat) : MemWf (fredPiece c cmd d s i).s := by
  unfold fredPiece
  grind [okWf_ok, engWrite_wf]
theorem jobPiece_wf (h : MemWf s) (by_ : Issuer) (cmd : Option Nat) (j : Job) (free : Nat) (bad : Bool) (input : List Byte) (i : Nat) :
    MemWf (jobPiece by_ cmd j free bad input s i).s := by
  unfold jobPiece
  grind [engWrite_wf, elemPiece_wf]
theorem runJob_wf (h : MemWf s) (n : Nat) (c : Cmd) (desc : List Byte) (limit : Nat) : MemWf (runJob s n c desc limit).s := by
  have hp : ∀ j free bad input, PieceWf fun s i _ => jobPiece c.by_ (some n) j free bad input s i :=
    fun _ _ _ _ _ _ _ ht => jobPiece_wf ht ..
  simp only [runJob]
  split
  · exact runPieces_wf (hp _ _ _ _) h _ _ _ _
  · split
    · exact h
    · refine runPieces_wf (hp _ _ _ _) ?_ _ _ _ _
      grind [engRead_wf, okWf_ok, takeFree_mem]
/-- Every piece of a command's work keeps the form. -/
theorem cmdPieces_wf {n : Nat} {c : Cmd} {r : PieceFn × Bool} (e : cmdPieces s n c = some r) : PieceWf r.1 := by
  intro t pos ix h
  simp only [cmdPieces] at e
  split at e
  case h_6 =>
    obtain ⟨_, _, rfl⟩ := Option.map_eq_some_iff.mp e
    exact copyPiece_wf h ..
  case h_7 =>
    split at e
    · cases e
      exact fredPiece_wf h ..
    · cases e
  all_goals cases e
  · exact gatherPiece_wf h ..
  · exact gatherPiece_wf h ..
  · exact copyPiece_wf h ..
  · exact patchPiece_wf h ..
  · exact tilePiece_wf h ..
  · exact chainPiece_wf h ..
theorem runCmd_wf (h : MemWf s) (n : Nat) (c : Cmd) (limit : Nat) : MemWf (runCmd s n c limit).s := by
  simp only [runCmd]
  split
  · rename_i piece once e
    have := runPieces_wf (skipAhead_wf (cmdPieces_wf e) c.ahead) h c.total (if limit = 0 then c.total + 1 else limit) c.pos c.index
    grind [countReads_wf]
  · grind [runJob_wf]
theorem workAhead_wf (h : MemWf s) (n : Nat) (c : Cmd) (ahead : Nat) : MemWf (workAhead s n c ahead) := by
  unfold workAhead
  split
  · exact h
  · rename_i piece once e
    have := cmdPieces_wf e _ ((List.range ahead).foldl (fun p _ => c.pieceEnd s p) c.pos) none h
    grind [countReads_wf]
theorem finishCmd_wf (h : MemWf s) (n : Nat) (c : Cmd) (limit : Nat) : MemWf (finishCmd s n c limit) := by
  unfold finishCmd
  grind [completeCmd_wf, runCmd_wf]
theorem execCommandComplete_wf (h : MemWf s) (turn : CmdTurn) : NextWf (execCommandComplete turn s) := by
  unfold execCommandComplete
  grind [nextWf_next, workAhead_wf, finishCmd_wf]
theorem streamEntry_wf (h : MemWf s) {c : Cmd} {r : List Byte × Bool × State} (e : streamEntry s c = some (.ok r)) : MemWf r.2.2 := by
  unfold streamEntry at e
  grind [engRead_wf, okWf_ok]
theorem execEngineFault_wf (h : MemWf s) (cmd : Nat) : NextWf (execEngineFault cmd s) := by
  unfold execEngineFault
  grind [nextWf_next, stopCmd_wf, runCmd_wf, streamEntry_wf]
theorem execAstreamPush_wf (h : MemWf s) (cmd : Nat) : NextWf (execAstreamPush cmd s) := by
  simp only [execAstreamPush, nextWf_next]
  repeat' split
  any_goals exact h
  all_goals exact streamEntry_wf h ‹_›
theorem fredParts_wf (h : MemWf s) (l : List Nat) : SomeWf Prod.snd (fredParts s l) := by
  induction l generalizing s with
  | nil => exact (someWf_some _ _).mpr h
  | cons n r ih =>
    unfold fredParts
    repeat' split
    all_goals grind [someWf_some, someWf_none, fredRead_wf, okWf_ok, countReads_wf]
theorem fredGive_wf (h : MemWf s) (f : FredGroup) (rs : List (W32 × Bool × Bool)) (p : Nat × Cmd × List (W32 × Bool)) :
    MemWf (fredGive f rs s p) := by
  unfold fredGive
  grind [noteCmd_wf, finishCmd_wf]
theorem fullGroup_wf (h : MemWf s) (ctx grid group : Nat) : SomeWf (fun r => r.2.2) (fullGroup s ctx grid group) := by
  refine someWf_findSome (fun f => ?_) _
  split
  · exact someWf_map (fredParts_wf h f.cmds) fun _ hr => hr
  · exact someWf_none _
theorem execFredGroupClose_wf (h : MemWf s) (ctx grid group : Nat) : NextWf (execFredGroupClose ctx grid group s) := by
  rw [execFredGroupClose, nextWf_next]
  split
  · exact h
  · rename_i e
    have h1 := (fullGroup_wf h ctx grid group).wf _ e
    refine foldl_wf (f := fredGive _ _) (fun s p hs => fredGive_wf hs _ _ p) ?_ _
    exact h1
theorem execDecodeJobStart_wf (h : MemWf s) : NextWf (execDecodeJobStart s) := by
  unfold execDecodeJobStart
  grind [nextWf_next]
theorem execDecodeJobComplete_wf (h : MemWf s) (turn : CmdTurn) : NextWf (execDecodeJobComplete turn s) := by
  unfold execDecodeJobComplete
  grind [nextWf_next, finishCmd_wf]
theorem failCmd_wf (h : MemWf s) (n : Nat) : MemWf (failCmd s n) := by
  unfold failCmd
  grind [okWf_ok, engWrite_wf, completeCmd_wf]
theorem resumeCmd_wf (h : MemWf s) (n : Nat) : MemWf (resumeCmd s n) := by
  unfold resumeCmd
  grind

end Sys2Proof.Laws
end

section
/-! SUPPORT. The instruction groups. Each function
that returns a state keeps the canonical form of memory: most write no cell, the others write by `cellsWrite` or `cellSet`, or drop cells. -/

namespace Sys2Proof.Laws

open Sys2Proof Sys2Proof.Machine

variable {s : State}

/-! ### Integer instructions -/

theorem aluV_wf (h : MemWf s) (i : Instr) (c : Ctl) (ops : List Opnd) (lat : Nat) (d : Spec) (f : Ex → Nat → W32) :
    MemWf (aluV i c ops lat d f s) := by
  unfold aluV
  grind [retire_wf, issue_wf]
theorem aluW_wf (h : MemWf s) (i : Instr) (c : Ctl) (ops : List Opnd) (lat : Nat) (d : Spec) (f : Ex → Nat → W64) :
    MemWf (aluW i c ops lat d f s) := by
  unfold aluW
  grind [retire_wf, issue_wf]
theorem aluP_wf (h : MemWf s) (i : Instr) (c : Ctl) (ops : List Opnd) (lat : Nat) (d : Spec) (f : Ex → Nat → Bool) :
    MemWf (aluP i c ops lat d f s) := by
  unfold aluP
  grind [retire_wf, issue_wf]
theorem iaddc_wf (h : MemWf s) (i : Instr) (c : Ctl) (ops : List Opnd) (d a p : Spec) (b : Ex → Nat → W32) :
    MemWf (iaddc i c ops d a p b s) := by
  unfold iaddc
  grind [retire_wf, issue_wf]
theorem idivide_wf (h : MemWf s) (i : Instr) (c : Ctl) (ops : List Opnd) (d : Spec) (f : Ex → Nat → W32 × List Arith) :
    MemWf (idivide i c ops d f s) := by
  unfold idivide
  grind [retire_wf, withEvents_wf, issue_wf]
theorem execIdiv_wf (h : MemWf s) (c : Ctl) (sg : Bool) (d a b : Spec) : NextWf (execIdiv c sg d a b s) := by
  unfold execIdiv
  grind [nextWf_next, idivide_wf]
theorem execIdivImm_wf (h : MemWf s) (c : Ctl) (sg : Bool) (d a : Spec) (imm : W32) : NextWf (execIdivImm c sg d a imm s) := by
  unfold execIdivImm
  grind [nextWf_next, idivide_wf]
theorem execIrem_wf (h : MemWf s) (c : Ctl) (sg : Bool) (d a b : Spec) : NextWf (execIrem c sg d a b s) := by
  unfold execIrem
  grind [nextWf_next, idivide_wf]
theorem execIremImm_wf (h : MemWf s) (c : Ctl) (sg : Bool) (d a : Spec) (imm : W32) : NextWf (execIremImm c sg d a imm s) := by
  unfold execIremImm
  grind [nextWf_next, idivide_wf]

/-! ### Cross-lane instructions -/

theorem execShfl_wf (h : MemWf s) (c : Ctl) (mode : ShflMode) (wide : Bool) (d a b x v : Spec) :
    NextWf (execShfl c mode wide d a b x v s) := by
  unfold execShfl
  grind [nextWf_next, retire_wf, issue_wf]
theorem execVote_wf (h : MemWf s) (c : Ctl) (mode : VoteMode) (d a : Spec) : NextWf (execVote c mode d a s) := by
  unfold execVote
  grind [nextWf_next, retire_wf, issue_wf]
theorem execRedc_wf (h : MemWf s) (c : Ctl) (op : RedOp) (d a x v : Spec) : NextWf (execRedc c op d a x v s) := by
  unfold execRedc
  grind [nextWf_next, retire_wf, withEvents_wf, issue_wf]
theorem execScan_wf (h : MemWf s) (c : Ctl) (op : RedOp) (excl : Bool) (d a x v : Spec) : NextWf (execScan c op excl d a x v s) := by
  unfold execScan
  grind [nextWf_next, retire_wf, withEvents_wf, issue_wf]
theorem execMatchLanes_wf (h : MemWf s) (c : Ctl) (wide : Bool) (d a : Spec) : NextWf (execMatchLanes c wide d a s) := by
  unfold execMatchLanes
  grind [nextWf_next, retire_wf, issue_wf]

/-! ### Commands, operand queues, tokens and barriers -/

theorem failEx_wf (h : MemWf s) (x : Ex) (e : EngFail) (m : Mask) : MemWf (failEx x e m s) := by
  unfold failEx
  grind [faultUnit_wf]
theorem acceptCmd_wf (h : MemWf s) (i : Instr) (c : Ctl) (q : CmdReq) (x : Ex) : MemWf (acceptCmd i c q x s) := by
  unfold acceptCmd
  grind [modTeam_mem, takeUid_mem, retireEnd_wf, waitEx_wf, fredJoin_wf, finishCmd_wf, failEx_wf]
theorem execAstream_wf (h : MemWf s) (c : Ctl) (q : BitVec 4) (a b v : Spec) (n0 n1 : BitVec 16) (cmd : CmdByte) :
    NextWf (execAstream c q a b v n0 n1 cmd s) := by
  unfold execAstream
  grind [nextWf_next, issue_wf, acceptCmd_wf]
theorem execOpush_wf (h : MemWf s) (c : Ctl) (q : BitVec 4) (a : Spec) (n : BitVec 5) : NextWf (execOpush c q a n s) := by
  unfold execOpush
  grind [nextWf_next, modTeam_mem, retire_wf, waitEx_wf, issue_wf]
theorem execOpop_wf (h : MemWf s) (c : Ctl) (wide : Bool) (d : Spec) (q : BitVec 4) : NextWf (execOpop c wide d q s) := by
  unfold execOpop
  grind [nextWf_next, modTeam_mem, retire_wf, faultEx_wf, waitEx_wf, issue_wf]
theorem execGather_wf (h : MemWf s) (c : Ctl) (esz : BitVec 3) (i64 : Bool) (d a b v : Spec) (count : BitVec 16) (cmd : CmdByte) :
    NextWf (execGather c esz i64 d a b v count cmd s) := by
  unfold execGather
  grind [nextWf_next, issue_wf, acceptCmd_wf]
theorem execScatter_wf (h : MemWf s) (c : Ctl) (esz : BitVec 3) (i64 : Bool) (d a b v : Spec) (count : BitVec 16) (cmd : CmdByte) :
    NextWf (execScatter c esz i64 d a b v count cmd s) := by
  unfold execScatter
  grind [nextWf_next, issue_wf, acceptCmd_wf]
theorem execCpy_wf (h : MemWf s) (c : Ctl) (d a b v : Spec) (cmd : CmdByte) : NextWf (execCpy c d a b v cmd s) := by
  unfold execCpy
  grind [nextWf_next, issue_wf, acceptCmd_wf]
theorem execCpy2g_wf (h : MemWf s) (c : Ctl) (d a b v : Spec) (pitch : BitVec 20) (esz : BitVec 2) (count : BitVec 12)
    (ph pw : BitVec 8) (cmd : CmdByte) : NextWf (execCpy2g c d a b v pitch esz count ph pw cmd s) := by
  unfold execCpy2g
  grind [nextWf_next, issue_wf, acceptCmd_wf]
theorem execCpyt_wf (h : MemWf s) (c : Ctl) (pack : Bool) (d a b v : Spec) (spitch : BitVec 16) (role : Role) (fmt : FrameFmt)
    (pitch : BitVec 20) (count : BitVec 12) (cmd : CmdByte) : NextWf (execCpyt c pack d a b v spitch role fmt pitch count cmd s) := by
  unfold execCpyt
  grind [nextWf_next, issue_wf, acceptCmd_wf]
theorem execCpyr_wf (h : MemWf s) (c : Ctl) (d a b v : Spec) (off : W32) (cmd : CmdByte) : NextWf (execCpyr c d a b v off cmd s) := by
  unfold execCpyr
  grind [nextWf_next, issue_wf, acceptCmd_wf]
theorem execFred_wf (h : MemWf s) (c : Ctl) (s32 : Bool) (d a b v : Spec) (group : BitVec 16) (e : BitVec 8) (parts : BitVec 16)
    (cmd : CmdByte) : NextWf (execFred c s32 d a b v group e parts cmd s) := by
  unfold execFred
  grind [nextWf_next, issue_wf, acceptCmd_wf]
theorem execChain_wf (h : MemWf s) (c : Ctl) (sat : Bool) (ty : ChainTy) (d a b v : Spec) (ops : BitVec 56) (cmd : CmdByte) :
    NextWf (execChain c sat ty d a b v ops cmd s) := by
  unfold execChain
  grind [nextWf_next, issue_wf, acceptCmd_wf]
theorem bindDesc_wf (h : MemWf s) (ctx core va n : Nat) : OkWf Prod.snd (bindDesc s ctx core va n) := by
  unfold bindDesc
  grind [okWf_ok, modCtx_mem, descRead_wf]
theorem execPdec_wf (h : MemWf s) (c : Ctl) (a v : Spec) (cmd : CmdByte) : NextWf (execPdec c a v cmd s) := by
  unfold execPdec
  grind [nextWf_next, okWf_ok, issue_wf, acceptCmd_wf, bindDesc_wf]
theorem execClose_wf (h : MemWf s) (c : Ctl) (t : Spec) : NextWf (execClose c t s) := by
  unfold execClose
  grind [nextWf_next, retire_wf, waitEx_wf, issue_wf]
theorem waitbEnd_wf (h : MemWf s) (i : Instr) (c : Ctl) (n : Nat) (d t : Spec) (x : Ex) : MemWf (waitbEnd i c n d t x s) := by
  unfold waitbEnd
  grind [putBody_mem, acquireAt_wf, retire_wf, waitEx_wf]
theorem execWaitb_wf (h : MemWf s) (c : Ctl) (n : BitVec 4) (d t : Spec) : NextWf (execWaitb c n d t s) := by
  unfold execWaitb
  grind [nextWf_next, waitEx_wf, issue_wf, waitbEnd_wf]
theorem setBar_wf (h : MemWf s) (u : UnitRef) (off : Nat) (b : Bar) : MemWf (setBar s u off b) := by
  unfold setBar
  grind [padWrite_wf]
theorem execBarinit_wf (h : MemWf s) (c : Ctl) (a b : Spec) (off : W32) : NextWf (execBarinit c a b off s) := by
  unfold execBarinit
  grind [nextWf_next, retire_wf, faultEx_wf, waitEx_wf, issue_wf, setBar_wf]
theorem execBararv_wf (h : MemWf s) (c : Ctl) (one exp : Bool) (a b : Spec) (off : W32) : NextWf (execBararv c one exp a b off s) := by
  unfold execBararv
  grind [nextWf_next, foldl_wf, retire_wf, faultEx_wf, waitEx_wf, issue_wf, setBar_wf]
theorem execBarexp_wf (h : MemWf s) (c : Ctl) (a b : Spec) (off : W32) : NextWf (execBarexp c a b off s) := by
  unfold execBarexp
  grind [nextWf_next, foldl_wf, retire_wf, faultEx_wf, issue_wf, setBar_wf]
theorem barwaitLanes_wf (h : MemWf s) (i : Instr) (c : Ctl) (sc : Scope) (d a b : Spec) (x : Ex) :
    MemWf (barwaitLanes i c sc d a b x s) := by
  unfold barwaitLanes
  grind [putBody_mem, acquireAt_wf, retire_wf, waitEx_wf]
theorem execBarwait_wf (h : MemWf s) (c : Ctl) (sc : Scope) (d a b : Spec) : NextWf (execBarwait c sc d a b s) := by
  unfold execBarwait
  grind [nextWf_next, faultEx_wf, issue_wf, barwaitLanes_wf]
theorem execBartest_wf (h : MemWf s) (c : Ctl) (sc : Scope) (d a b : Spec) : NextWf (execBartest c sc d a b s) := by
  unfold execBartest
  grind [nextWf_next, acquireAt_wf, retire_wf, faultEx_wf, issue_wf]

/-! ### Atomics -/

theorem atomLane_wf (h : MemWf s) (p : Path) (place : Place) (n : Nat) (f : List Byte → List Byte) :
    MemWf (atomLane s p place n f).2 := by
  unfold atomLane
  grind [takeFreeBytes_mem, atomicDev_wf, padRead_wf, padWrite_wf]
theorem sendAtom_wf (h : MemWf s) (x : Ex) (w : AtomWork) (l : Nat) (q : AccessReq) (port : Option Nat) (addr : Nat) :
    MemWf (sendAtom s x w l q port addr) := h
theorem atomLanes_wf (h : MemWf s) (x : Ex) (w : AtomWork) (qs : List (Nat × AccessReq)) : MemWf (atomLanes s x w qs).2 := by
  unfold atomLanes
  grind [foldl_snd_wf, atomLane_wf, sendAtom_wf]
theorem atomLater_wf (h : MemWf s) (c : Ctl) (w : AtomWork) (ps : List Piece) (x : Ex) : MemWf (atomLater c w ps x s) := by
  unfold atomLater
  grind [retireEnd_wf, addPend_wf]
theorem atomNow_wf (h : MemWf s) (i : Instr) (c : Ctl) (w : AtomWork) (n : Nat) (qs : List (Nat × AccessReq)) (x : Ex) :
    MemWf (atomNow i c w n qs x s) := by
  unfold atomNow
  grind [dropDue_wf, releaseAt_wf, acquireAt_wf, faultUnit_wf, retireEnd_wf, faultEx_wf, waitEx_wf, atomLanes_wf]
theorem atomWork_wf (h : MemWf s) (i : Instr) (c : Ctl) (w : AtomWork) (a : Spec) (x : Ex) : MemWf (atomWork i c w a x s) := by
  unfold atomWork
  grind [drainFirst_wf, waitEx_wf, failLanes_wf, atomLater_wf, atomNow_wf]
theorem execAtom_wf (h : MemWf s) (c : Ctl) (op : AtomOp) (wide ar : Bool) (m : MemWord) (d a b : Spec) :
    NextWf (execAtom c op wide ar m d a b s) := by
  unfold execAtom
  grind [nextWf_next, issue_wf, atomWork_wf]
theorem execAtomcas_wf (h : MemWf s) (c : Ctl) (wide ar : Bool) (m : MemWord) (d a b v : Spec) :
    NextWf (execAtomcas c wide ar m d a b v s) := by
  unfold execAtomcas
  grind [nextWf_next, issue_wf, atomWork_wf]
theorem execAtoms_wf (h : MemWf s) (c : Ctl) (op : AtomOp) (wide ar : Bool) (m : MemWord) (d a b : Spec) :
    NextWf (execAtoms c op wide ar m d a b s) := by
  unfold execAtoms
  grind [nextWf_next, issue_wf, atomWork_wf]
theorem execRed_wf (h : MemWf s) (c : Ctl) (op : AtomOp) (wide : Bool) (m : MemWord) (a b : Spec) :
    NextWf (execRed c op wide m a b s) := by
  unfold execRed
  grind [nextWf_next, issue_wf, atomWork_wf]

/-! ### What a launch names -/

theorem segmentRead_wf (h : MemWf s) (ctx core : Nat) (va : Addr) : OkWf Prod.snd (segmentRead s ctx core va) := by
  unfold segmentRead
  grind [okWf_ok, okWf_error, bindDesc_wf]
theorem kernelRead_wf (h : MemWf s) (ctx : Nat) (va : Addr) : OkWf Prod.snd (kernelRead s ctx va) := by
  unfold kernelRead
  grind [okWf_ok, okWf_error, blockRead_wf]
theorem zcbChain_wf (h : MemWf s) (ctx : Nat) (fuel : Nat) (va : Addr) (seen : List (Addr × Nat)) :
    OkWf Prod.snd (zcbChain ctx fuel va seen s) := by
  fun_induction zcbChain ctx fuel va seen s
  all_goals grind [okWf_ok, okWf_error, bindDesc_wf]
theorem fdomRead_wf (h : MemWf s) (ctx : Nat) (va : Addr) : OkWf Prod.snd (fdomRead s ctx va) := by
  unfold fdomRead
  grind [okWf_ok, okWf_error, bindDesc_wf]
theorem zonesRead_wf (h : MemWf s) (ctx : Nat) (zcb : Addr) : OkWf (fun r => r.2.2) (zonesRead s ctx zcb) := by
  unfold zonesRead
  grind [okWf_ok, okWf_error, zcbChain_wf, fdomRead_wf]
theorem fdomOf_wf (h : MemWf s) (ctx : Nat) (fuel : Nat) (va : Addr) : SomeWf (fun r => r.2.2) (fdomOf ctx fuel va s) := by
  fun_induction fdomOf ctx fuel va s
  all_goals grind [someWf_some, someWf_none, okWf_ok, bindDesc_wf, fdomRead_wf]
theorem bindDomain_wf (h : MemWf s) (ctx : Nat) (addr : Addr) (v : Nat) : MemWf (bindDomain s ctx addr v) := by
  unfold bindDomain
  grind [modDomain_mem, domainFor_wf]
theorem preState_wf (h : MemWf s) (ctx : Nat) (va : Addr) : OkWf Prod.snd (preState s ctx va) := by
  unfold preState
  grind [okWf_ok, okWf_error, blockRead_wf]
theorem preRead_wf (h : MemWf s) (ctx : Nat) (objs : List Addr) : MemWf (preRead ctx objs s).2.2 := by
  fun_induction preRead ctx objs s
  all_goals grind [okWf_ok, preState_wf]
theorem verdict_wf (h : MemWf s) (ctx : Nat) (p : Packet) : MemWf (verdict s ctx p).2 := by
  simp only [verdict]
  repeat' split
  all_goals grind [okWf_ok, segmentRead_wf, kernelRead_wf, zonesRead_wf, preRead_wf]

/-! ### REFORM bins -/

theorem freeWords_wf (h : MemWf s) (n : Nat) : MemWf (freeWords s n).2 := h
theorem formCrew_wf (h : MemWf s) (q : Nat) (key : BinKey) (ts : List Thread) : MemWf (formCrew s q key ts) := by
  unfold formCrew
  grind [takeUid_mem, acquireAt_wf, freeWords_wf]
theorem drawBin_wf (h : MemWf s) (q bi n : Nat) : MemWf (drawBin s q bi n) := by
  unfold drawBin
  grind [setQuarter_mem, formCrew_wf]
theorem putInBin_wf (h : MemWf s) (q bi : Nat) (key : BinKey) (t : Thread) (entered : Nat) : MemWf (putInBin s q bi key t entered) := by
  unfold putInBin
  grind [setQuarter_mem, drawBin_wf]
theorem drawOldest_wf (h : MemWf s) (q : Nat) : MemWf (drawOldest s q) := by
  unfold drawOldest
  grind [drawBin_wf]
theorem fileAged_wf (h : MemWf s) (q : Nat) (key : BinKey) (t : Thread) (entered : Nat) : MemWf (fileAged s q key t entered) := by
  unfold fileAged
  grind [setQuarter_mem, putInBin_wf]
theorem fileWaiting_wf (h : MemWf s) (q : Nat) : MemWf (fileWaiting s q) := by
  unfold fileWaiting
  grind [foldl_wf, setQuarter_mem, fileAged_wf]
theorem fileThread_wf (h : MemWf s) (q : Nat) (key : BinKey) (t : Thread) : MemWf (fileThread s q key t) := by
  unfold fileThread
  grind [fileAged_wf]
theorem execBinAgeLimit_wf (h : MemWf s) (q bi : Nat) : NextWf (execBinAgeLimit q bi s) := by
  unfold execBinAgeLimit
  grind [nextWf_next, drawBin_wf, fileWaiting_wf]

/-! ### Control -/

theorem transfer_wf (h : MemWf s) (x : Ex) (c : Ctl) (b : Body) (target : Nat → Addr) : MemWf (transfer x c b target s) := by
  unfold transfer
  grind [putBody_mem, finishAt_wf]
theorem transferTo_wf (h : MemWf s) (x : Ex) (c : Ctl) (b : Body) (target : Nat → Addr) : MemWf (transferTo x c b target s) := by
  unfold transferTo
  grind [faultEx_wf, transfer_wf]
theorem branch_wf (h : MemWf s) (i : Instr) (c : Ctl) (form : BraForm) (a : Spec) (off : W32) : MemWf (branch i c form a off s) := by
  unfold branch
  grind [issue_wf, transfer_wf]
theorem execBrx_wf (h : MemWf s) (c : Ctl) (a : Spec) : NextWf (execBrx c a s) := by
  unfold execBrx
  grind [nextWf_next, issue_wf, transferTo_wf]
theorem callTo_wf (h : MemWf s) (i : Instr) (c : Ctl) (d : Spec) (off : W32) : MemWf (callTo i c d off s) := by
  unfold callTo
  grind [issue_wf, transferTo_wf]
theorem execCallx_wf (h : MemWf s) (c : Ctl) (d a : Spec) : NextWf (execCallx c d a s) := by
  unfold execCallx
  grind [nextWf_next, issue_wf, transferTo_wf]
theorem execRet_wf (h : MemWf s) (c : Ctl) (a : Spec) : NextWf (execRet c a s) := by
  unfold execRet
  grind [nextWf_next, issue_wf, transferTo_wf]
theorem putCrew_wf (h : MemWf s) (uid : Nat) (c : Crew) : MemWf (putCrew s uid c) := by
  unfold putCrew
  grind
theorem leavePool_wf (h : MemWf s) (g p n : Nat) : MemWf (leavePool s g p n) := h
theorem exitLanes_wf (h : MemWf s) (x : Ex) (c : Ctl) : MemWf (exitLanes x c s) := by
  unfold exitLanes
  grind [modTeam_mem, forgetLoads_wf, forgetAccess_wf, retire_wf, putCrew_wf, leavePool_wf]
theorem execExit_wf (h : MemWf s) (c : Ctl) : NextWf (execExit c s) := by
  unfold execExit
  grind [nextWf_next, issue_wf, exitLanes_wf]
theorem execEnrol_wf (h : MemWf s) (c : Ctl) (j : Spec) : NextWf (execEnrol c j s) := by
  unfold execEnrol
  grind [nextWf_next, retire_wf, issue_wf]
theorem execJoin_wf (h : MemWf s) (c : Ctl) (j : Spec) : NextWf (execJoin c j s) := by
  unfold execJoin
  grind [nextWf_next, putBody_mem, retire_wf, issue_wf]
theorem execJoinRelease_wf (h : MemWf s) (crew j : Nat) : NextWf (execJoinRelease crew j s) := by
  unfold execJoinRelease
  grind [nextWf_next]
theorem reformLanes_wf (h : MemWf s) (x : Ex) (c : Ctl) (cr : Crew) (uid : Nat) : MemWf (reformLanes x c cr uid s) := by
  unfold reformLanes
  grind [foldl_wf, retire_wf, fileThread_wf, putCrew_wf]
theorem reformOrRetry_wf (h : MemWf s) (x : Ex) (c : Ctl) (cr : Crew) (uid : Nat) : MemWf (reformOrRetry x c cr uid s) := by
  unfold reformOrRetry
  grind [holdBack_wf, drawOldest_wf, reformLanes_wf]
theorem execReform_wf (h : MemWf s) (c : Ctl) : NextWf (execReform c s) := by
  unfold execReform
  grind [nextWf_next, retire_wf, waitEx_wf, issue_wf, reformOrRetry_wf]
theorem execYield_wf (h : MemWf s) (c : Ctl) : NextWf (execYield c s) := by
  unfold execYield
  grind [nextWf_next, retire_wf, issue_wf]
theorem execNop_wf (h : MemWf s) (c : Ctl) : NextWf (execNop c s) := by
  unfold execNop
  grind [nextWf_next, retire_wf, issue_wf]
theorem execReplay_wf (h : MemWf s) (c : Ctl) (id : BitVec 16) : NextWf (execReplay c id s) := by
  unfold execReplay
  grind [nextWf_next, retire_wf, issue_wf]

/-! ### Floating point -/

theorem floatV_wf (h : MemWf s) (i : Instr) (c : Ctl) (ops : List Opnd) (d : Spec) (f : Ex → Nat → W32 × List Arith) :
    MemWf (floatV i c ops d f s) := by
  unfold floatV
  grind [retire_wf, withEvents_wf, issue_wf]

/-! ### Stream entries -/

theorem unitRead_wf (h : MemWf s) (x : Ex) (va n align : Nat) : OkWf Prod.snd (unitRead s x va n align) := by
  unfold unitRead
  grind [okWf_ok, okWf_error, engRead_wf]
theorem l2Drop_wf (h : MemWf s) (rs : List (Nat × Nat)) : MemWf (l2Drop s rs) := h
theorem dropClean_wf (h : MemWf s) (ctx : Nat) (rs : List (Nat × Nat)) : MemWf (dropClean s ctx rs) := by
  unfold dropClean
  grind [foldl_wf, cctlOn_wf]
theorem lutsRead_wf (h : MemWf s) (x : Ex) (base : Nat) (luts : List Nat) : OkWf Prod.snd (lutsRead x base luts s) := by
  fun_induction lutsRead x base luts s
  all_goals grind [okWf_ok, okWf_error, unitRead_wf]
theorem bindRead_wf (h : MemWf s) (x : Ex) (va : Nat) : OkWf BindRead.s (bindRead s x va) := by
  simp only [bindRead]
  generalize (2 : Nat) ^ 512 = k
  repeat' split
  all_goals grind [okWf_ok, okWf_error, bindDesc_wf, blockRead_wf, unitRead_wf, lutsRead_wf]
theorem execSbind_wf (h : MemWf s) (c : Ctl) (slot : BitVec 7) (d a : Spec) : NextWf (execSbind c slot d a s) := by
  unfold execSbind
  grind [nextWf_next, okWf_ok, modCtx_mem, releaseAt_wf, retireEnd_wf, waitEx_wf, issue_wf, failEx_wf, l2Drop_wf, dropClean_wf, bindRead_wf]
theorem execSunbind_wf (h : MemWf s) (c : Ctl) (a : Spec) : NextWf (execSunbind c a s) := by
  unfold execSunbind
  grind [nextWf_next, modCtx_mem, releaseAt_wf, retireEnd_wf, waitEx_wf, issue_wf]
theorem execSstat_wf (h : MemWf s) (c : Ctl) (d a : Spec) : NextWf (execSstat c d a s) := by
  unfold execSstat
  grind [nextWf_next, retire_wf, issue_wf]
theorem execGinv_wf (h : MemWf s) (c : Ctl) (sc : Scope) (a : Spec) : NextWf (execGinv c sc a s) := by
  unfold execGinv
  grind [nextWf_next, modCtx_mem, retire_wf, issue_wf]

/-! ### Fetching -/

theorem fetchSeg_wf (h : MemWf s) (ctx core : Nat) (at_ : Nat) (va : Addr) : OkWf Prod.snd (fetchSeg s ctx core at_ va) := by
  unfold fetchSeg
  grind [okWf_ok, okWf_error, bindDesc_wf]
theorem segHolding_wf (h : MemWf s) (ctx core x : Nat) (fuel : Nat) (seen : List Addr) (va : Addr) :
    OkWf Prod.snd (segHolding ctx core x fuel seen va s) := by
  fun_induction segHolding ctx core x fuel seen va s
  all_goals grind [okWf_ok, okWf_error, fetchSeg_wf]
theorem redirect_wf (h : MemWf s) (ctx core orig : Nat) (fuel : Nat) (seg : Segment) (va : Nat) :
    OkWf Prod.snd (redirect ctx core orig fuel seg va s) := by
  fun_induction redirect ctx core orig fuel seg va s
  all_goals grind [okWf_ok, okWf_error, fetchSeg_wf]
theorem resolveFetch_wf (h : MemWf s) (u : UnitRef) (x : Nat) : OkWf Prod.snd (resolveFetch s u x) := by
  unfold resolveFetch
  grind [okWf_ok, okWf_error, segHolding_wf, redirect_wf]
theorem icRead_wf (h : MemWf s) (core b : Nat) : SomeWf Prod.snd (icRead s core b) := by
  unfold icRead
  grind [someWf_some, someWf_none, setCore_mem, setCluster_mem, l2Load_wf]
theorem fetchBlock_wf (h : MemWf s) (u : UnitRef) (x : Nat) : OkWf (fun r => r.2.2) (fetchBlock s u x) := by
  simp only [fetchBlock]
  repeat' split
  all_goals grind [okWf_ok, okWf_error, resolveFetch_wf, someWf_some, icRead_wf]
/-- The state after a fetch, where there is one, has the canonical form of memory. -/
def FetchedWf : Fetched → Prop
  | .instr _ _ s => MemWf s
  | .bad _ _ => True
theorem fetchFrom_wf (h : MemWf s) (u : UnitRef) (fuel x : Nat) : FetchedWf (fetchFrom u fuel x s) := by
  fun_induction fetchFrom u fuel x s
  all_goals grind [FetchedWf, okWf_ok, fetchBlock_wf]
theorem setPc_wf (h : MemWf s) (u : UnitRef) (pc : Nat) : MemWf (setPc s u pc) := by
  unfold setPc
  grind [modGroup_wf]

/-! ### Moves -/

theorem execMov_wf (h : MemWf s) (c : Ctl) (wide : Bool) (d a : Spec) : NextWf (execMov c wide d a s) := by
  unfold execMov
  grind [nextWf_next, aluV_wf, aluW_wf]
theorem execMovk_wf (h : MemWf s) (c : Ctl) (d a b : Spec) : NextWf (execMovk c d a b s) := by
  unfold execMovk
  grind [nextWf_next, retire_wf, issue_wf]
theorem execSel_wf (h : MemWf s) (c : Ctl) (wide : Bool) (d a b p : Spec) : NextWf (execSel c wide d a b p s) := by
  unfold execSel
  grind [nextWf_next, aluV_wf, aluW_wf]
theorem execRdsp_wf (h : MemWf s) (c : Ctl) (d : Spec) (sp : Special) : NextWf (execRdsp c d sp s) := by
  unfold execRdsp
  grind [nextWf_next, retire_wf, issue_wf]

/-! ### Results of variable latency -/

theorem floatLate_wf (h : MemWf s) (i : Instr) (c : Ctl) (ops : List Opnd) (d : Spec) (f : Ex → Nat → W32 × List Arith) :
    MemWf (floatLate i c ops d f s) := by
  unfold floatLate
  grind [retire_wf, withEvents_wf, issue_wf]
theorem execFcvt_wf (h : MemWf s) (c : Ctl) (rnd : Rnd) (sat : Bool) (src dst : Fmt) (d a : Spec) :
    NextWf (execFcvt c rnd sat src dst d a s) := by
  unfold execFcvt
  grind [nextWf_next, retire_wf, withEvents_wf, issue_wf]
theorem execFcvtp_wf (h : MemWf s) (c : Ctl) (rnd : Rnd) (sat : Bool) (dst : Fmt) (slot : BitVec 2) (d a b x : Spec) :
    NextWf (execFcvtp c rnd sat dst slot d a b x s) := by
  unfold execFcvtp
  grind [nextWf_next, retire_wf, withEvents_wf, issue_wf]

/-! ### The matrix slice -/

theorem frameWrite_wf (h : MemWf s) (team : Option Nat) (va : Nat) (u : UnitRef) (bs : List Byte) :
    MemWf (frameWrite s team va u bs) := by
  unfold frameWrite
  grind [foldl_wf, deliver_wf, padWrite_wf]
theorem setAcc_wf (h : MemWf s) (q m : Nat) (a : Acc) : MemWf (setAcc s q m a) := h
theorem putAcc_wf (h : MemWf s) (team : Option Nat) (q m : Nat) (a : Acc) : MemWf (putAcc s team q m a) := by
  unfold putAcc
  grind [setAcc_wf]
theorem onAccs_wf (h : MemWf s) {k : State} (hk : MemWf k) (i : Instr) (ms : List Nat) (x : Ex) : MemWf (onAccs i ms x s k) := by
  unfold onAccs
  grind [waitEx_wf]
theorem faultOnce_wf (h : MemWf s) (x : Ex) (e : Cause × Nat) : MemWf (faultOnce x e s) := by
  unfold faultOnce
  grind [faultUnit_wf]
theorem onFrames_wf (h : MemWf s) {k : State} (hk : MemWf k) (i : Instr) (vas : List Nat) (x : Ex) : MemWf (onFrames i vas x s k) := by
  unfold onFrames
  grind [waitEx_wf]
theorem readAccs_wf {k : State → State} (hk : ∀ s, MemWf s → MemWf (k s)) (h : MemWf s) (ms : List Nat) (x : Ex) :
    MemWf (readAccs ms x s k) := by
  unfold readAccs
  grind [faultOnce_wf, metParity_wf]
theorem execMzero_wf (h : MemWf s) (c : Ctl) (s32 : Bool) (m : Spec) : NextWf (execMzero c s32 m s) := by
  simp only [execMzero, nextWf_next]
  refine issue_wf (fun x s h => ?_) h _ _ _ _ _
  exact onAccs_wf h (retire_wf (putAcc_wf h ..) ..) ..
theorem execMld_wf (h : MemWf s) (c : Ctl) (m a : Spec) (off : W32) : NextWf (execMld c m a off s) := by
  simp only [execMld, nextWf_next]
  refine issue_wf (fun x s h => ?_) h _ _ _ _ _
  refine onAccs_wf h (onFrames_wf h ?_ _ _ _) _ _ _
  repeat' split
  all_goals grind [faultOnce_wf, retire_wf, putAcc_wf]
theorem execMst_wf (h : MemWf s) (c : Ctl) (a m : Spec) (off : W32) : NextWf (execMst c a m off s) := by
  simp only [execMst, nextWf_next]
  refine issue_wf (fun x s h => ?_) h _ _ _ _ _
  refine onAccs_wf h (readAccs_wf (fun s h => ?_) h _ _) _ _ _
  split
  · exact faultOnce_wf h ..
  · exact retire_wf (putAcc_wf (frameWrite_wf h ..) ..) ..
theorem execMma_wf (h : MemWf s) (c : Ctl) (sat : Bool) (m a b : Spec) : NextWf (execMma c sat m a b s) := by
  simp only [execMma, nextWf_next]
  refine issue_wf (fun x s h => ?_) h _ _ _ _ _
  refine onAccs_wf h (onFrames_wf h (readAccs_wf (fun s h => ?_) h _ _) _ _ _) _ _ _
  repeat' split
  all_goals grind [faultOnce_wf, withEvents_wf, retireEnd_wf, putAcc_wf]
theorem execMmas_wf (h : MemWf s) (c : Ctl) (sat x2 : Bool) (m a b v : Spec) : NextWf (execMmas c sat x2 m a b v s) := by
  simp only [execMmas, nextWf_next]
  refine issue_wf (fun x s h => ?_) h _ _ _ _ _
  refine onAccs_wf h (onFrames_wf h (readAccs_wf (fun s h => ?_) h _ _) _ _ _) _ _ _
  repeat' split
  any_goals exact faultOnce_wf h ..
  all_goals exact withEvents_wf (fun s h => retireEnd_wf (putAcc_wf h ..) ..) h ..
theorem execMcomp_wf (h : MemWf s) (c : Ctl) (d a b : Spec) : NextWf (execMcomp c d a b s) := by
  simp only [execMcomp, nextWf_next]
  refine issue_wf (fun x s h => ?_) h _ _ _ _ _
  refine onFrames_wf h ?_ _ _ _
  repeat' split
  all_goals grind [faultOnce_wf, retire_wf, frameWrite_wf]
theorem execMqnt_wf (h : MemWf s) (c : Ctl) (rnd : Rnd) (role : Role) (fmt : FrameFmt) (m b : Spec) :
    NextWf (execMqnt c rnd role fmt m b s) := by
  simp only [execMqnt, nextWf_next]
  refine issue_wf (fun x s h => ?_) h _ _ _ _ _
  refine onAccs_wf h (readAccs_wf (fun s h => ?_) h _ _) _ _ _
  repeat' split
  any_goals exact faultOnce_wf h ..
  all_goals exact withEvents_wf (fun s h => retire_wf (frameWrite_wf h ..) ..) h ..
theorem execMstat_wf (h : MemWf s) (c : Ctl) (d m : Spec) : NextWf (execMstat c d m s) := by
  unfold execMstat
  grind [nextWf_next, retire_wf, issue_wf]
theorem execFsetm_wf (h : MemWf s) (c : Ctl) (wide : Bool) (f a : Spec) : NextWf (execFsetm c wide f a s) := by
  unfold execFsetm
  grind [nextWf_next, retire_wf, issue_wf]
theorem startRun_wf (h : MemWf s) (x : Ex) (c : Ctl) (tv : Bool) (tok : Nat) (partner : Bool) (mk : Issuer → Run) :
    MemWf (startRun x c tv tok partner mk s) := by
  unfold startRun
  grind [setQuarter_mem, releaseAt_wf, retireEnd_wf, putAcc_wf]
theorem execMloop_wf (h : MemWf s) (c : Ctl) (sat : Bool) (m a b : Spec) (fv : Bool) (f : BitVec 3) (tv : Bool) (tok : BitVec 3)
    (n : BitVec 12) (inca incb : BitVec 16) : NextWf (execMloop c sat m a b fv f tv tok n inca incb s) := by
  simp only [execMloop, nextWf_next]
  refine issue_wf (fun x s h => ?_) h _ _ _ _ _
  split
  · exact waitEx_wf h ..
  · refine onFrames_wf h ?_ _ _ _
    split
    · exact faultOnce_wf h ..
    · split
      · exact faultOnce_wf h ..
      · exact startRun_wf h ..
theorem execMconv_wf (h : MemWf s) (c : Ctl) (sat : Bool) (m a b v : Spec) (tv : Bool) (tok : BitVec 3) :
    NextWf (execMconv c sat m a b v tv tok s) := by
  simp only [execMconv, nextWf_next]
  refine issue_wf (fun x s h => ?_) h _ _ _ _ _
  split
  · exact waitEx_wf h ..
  · refine onFrames_wf h ?_ _ _ _
    repeat' split
    all_goals grind [faultOnce_wf, startRun_wf]
theorem noteRun_wf (h : MemWf s) (q : Nat) (r : Run) (es : List Arith) : MemWf (noteRun s q r es) := by
  unfold noteRun
  grind [foldl_wf, aeNote_wf]
theorem endRun_wf (h : MemWf s) (q : Nat) (r : Run) (err : Bool) : MemWf (endRun s q r err) := by
  unfold endRun
  grind [setQuarter_mem, completeToken_wf, putAcc_wf]
theorem advanceRun_wf (h : MemWf s) (q : Nat) (r : Run) : MemWf (advanceRun s q r) := by
  unfold advanceRun
  grind [setQuarter_mem, endRun_wf]
theorem execSequencerStep_wf (h : MemWf s) (q : Nat) : NextWf (execSequencerStep q s) := by
  unfold execSequencerStep
  grind [nextWf_next, setQuarter_mem, takeAsync_wf, metParity_wf, putAcc_wf, noteRun_wf, advanceRun_wf]
theorem execAccumulatorRelease_wf (h : MemWf s) (u : UnitRef) : NextWf (execAccumulatorRelease u s) := by
  unfold execAccumulatorRelease
  grind [nextWf_next, clearWait_wf]

/-! ### Launches from the device, pools and deques -/

theorem dropLaunch_wf (h : MemWf s) (ctx q : Nat) (p : Packet) : MemWf (dropLaunch s ctx q p) := by
  simp only [dropLaunch]
  repeat' split
  all_goals grind [modQueue_mem, raiseMsix_mem, takeUid_mem, domainFor_wf, addRecord_wf, someWf_some, fdomOf_wf, bindDomain_wf]
theorem packetDone_wf (h : MemWf s) (ctx : Nat) (p : Packet) (state code : Nat) : SomeWf id (packetDone s ctx p state code) := by
  unfold packetDone
  grind [okWf_ok, someWf_some, someWf_none, blockWrite_wf]
theorem enqueue_wf (h : MemWf s) (ctx q : Nat) (p : Packet) (issuer : Option Issuer) : MemWf (enqueue s ctx q p issuer) := by
  unfold enqueue
  grind [dropLaunch_wf, packetDone_wf, someWf_some, modQueue_mem]
theorem packetsRead_wf (h : MemWf s) (x : Ex) (ctx core : Nat) (a : Spec) (lanes : List Nat) :
    OkWf Prod.snd (packetsRead x ctx core a lanes s) := by
  fun_induction packetsRead x ctx core a lanes s
  all_goals grind [okWf_ok, okWf_error, bindDesc_wf]
theorem launchLanes_wf (h : MemWf s) (ctx : Nat) (by_ : Issuer) (lanes : List (Nat × Packet)) (done : Mask) :
    MemWf (launchLanes ctx by_ lanes s done).1 := by
  fun_induction launchLanes ctx by_ lanes s done
  all_goals grind [packetDone_wf, someWf_getD, enqueue_wf]
theorem serveEnd_wf (h : MemWf s) (x : Ex) (c : Ctl) (i : Instr) (b : Body) (op : Option (Nat × Nat)) (done : Mask)
    (stuck : Option Awaited) : MemWf (serveEnd x c i b op done stuck s) := by
  unfold serveEnd
  grind [putBody_mem, retireEnd_wf, waitEx_wf]
theorem launchEnter_wf (h : MemWf s) (i : Instr) (c : Ctl) (cmd : CmdByte) (x : Ex) (ps : List (Nat × Packet)) :
    MemWf (launchEnter i c cmd x ps s) := by
  unfold launchEnter
  grind [releaseAt_wf, waitEx_wf, launchLanes_wf, serveEnd_wf]
theorem launchWork_wf (h : MemWf s) (i : Instr) (c : Ctl) (a : Spec) (cmd : CmdByte) (x : Ex) : MemWf (launchWork i c a cmd x s) := by
  unfold launchWork
  grind [okWf_ok, faultEx_wf, failEx_wf, packetsRead_wf, launchEnter_wf]
theorem execLaunch_wf (h : MemWf s) (c : Ctl) (a : Spec) (cmd : CmdByte) : NextWf (execLaunch c a cmd s) := by
  unfold execLaunch
  grind [nextWf_next, issue_wf, launchWork_wf]
theorem spillBytes_wf (h : MemWf s) (ctx n : Nat) (r : Rec) : MemWf (spillBytes s ctx n r) := by
  unfold spillBytes
  grind [okWf_ok, takeFreeBytes_mem, blockWrite_wf]
theorem unspill_wf (h : MemWf s) (ctx : Nat) (r : Rec) : MemWf (unspill s ctx r).2 := by
  unfold unspill
  grind [okWf_ok, blockRead_wf, freeWords_wf]
theorem toSpill_wf (h : MemWf s) (core : Nat) (rs : List Rec) : MemWf (toSpill s core rs) := by
  unfold toSpill
  grind [foldl_wf, modCtx_mem, spillBytes_wf]
theorem pushRec_wf (h : MemWf s) (core : Nat) (r : Rec) : SomeWf id (pushRec s core r) := by
  unfold pushRec
  grind [someWf_some, someWf_none, setCore_mem, toSpill_wf]
theorem spawnLanes_wf (h : MemWf s) (core gid pool : Nat) (lanes : List (Nat × Rec)) (done : Mask) :
    MemWf (spawnLanes core gid pool lanes s done).1 := by
  fun_induction spawnLanes core gid pool lanes s done
  all_goals grind [someWf_some, pushRec_wf, modGrid_mem]
theorem spawnWork_wf (h : MemWf s) (i : Instr) (c : Ctl) (pool : Nat) (data : Bool) (a : Spec) (cmd : CmdByte) (x : Ex) :
    MemWf (spawnWork i c pool data a cmd x s) := by
  unfold spawnWork
  grind [releaseAt_wf, faultEx_wf, waitEx_wf, serveEnd_wf, spawnLanes_wf]
theorem execSpawn_wf (h : MemWf s) (c : Ctl) (pool : BitVec 4) (data : Bool) (a : Spec) (cmd : CmdByte) :
    NextWf (execSpawn c pool data a cmd s) := by
  unfold execSpawn
  grind [nextWf_next, issue_wf, spawnWork_wf]
theorem popOwner_wf (h : MemWf s) (core gid pool : Nat) : SomeWf Prod.snd (popOwner s core gid pool) := by
  unfold popOwner
  exact someWf_map (g := fun _ => s) (someWf_of _ fun _ => h) fun _ _ => h
theorem popFar_wf (h : MemWf s) (core gid pool : Nat) : SomeWf Prod.snd (popFar s core gid pool) := by
  unfold popFar
  exact someWf_map (g := fun _ => s) (someWf_of _ fun _ => h) fun _ _ => h
theorem popSearch_wf (h : MemWf s) (gid pool : Nat) (cores : List Nat) : SomeWf Prod.snd (popSearch gid pool cores s) := by
  fun_induction popSearch gid pool cores s
  all_goals grind [someWf_none, popFar_wf]
theorem takeLanes_wf {f : State → Nat → Option (Rec × State)} (hf : ∀ s l, MemWf s → SomeWf Prod.snd (f s l)) (h : MemWf s)
    (gid pool : Nat) (ls : List Nat) : MemWf (takeLanes gid pool f ls s).2 := by
  fun_induction takeLanes gid pool f ls s
  all_goals grind [someWf_some, leavePool_wf]
theorem takeWork_wf {f : State → Nat → Option (Rec × State)} (hf : ∀ s l, MemWf s → SomeWf Prod.snd (f s l)) (h : MemWf s) (c : Ctl)
    (pool : Nat) (d p : Spec) (x : Ex) : MemWf (takeWork c pool d p f x s) := by
  unfold takeWork
  grind [retire_wf, acquireAt_wf, takeLanes_wf]
theorem execWpop_wf (h : MemWf s) (c : Ctl) (pool : BitVec 4) (d p : Spec) : NextWf (execWpop c pool d p s) := by
  rw [execWpop, nextWf_next]
  exact issue_wf (fun x s h => takeWork_wf (fun s l h => popOwner_wf h ..) h ..) h ..
theorem execWsteal_wf (h : MemWf s) (c : Ctl) (pool : BitVec 4) (d a p : Spec) : NextWf (execWsteal c pool d a p s) := by
  rw [execWsteal, nextWf_next]
  exact issue_wf (fun x s h => takeWork_wf (fun s l h => by grind [popSearch_wf, popFar_wf]) h ..) h ..
theorem execRecordFile_wf (h : MemWf s) (core : Nat) : NextWf (execRecordFile core s) := by
  unfold execRecordFile
  grind [nextWf_next, takeUid_mem, setCore_mem, drawOldest_wf, fileThread_wf]
theorem pushAll_wf (h : MemWf s) (core : Nat) (rs : List Rec) : MemWf (pushAll core rs s).2 := by
  fun_induction pushAll core rs s
  all_goals grind [someWf_some, pushRec_wf]
theorem execSteal_wf (h : MemWf s) (core : Nat) : NextWf (execSteal core s) := by
  unfold execSteal
  grind [nextWf_next, setCore_mem, wakeCore_wf, pushAll_wf]
theorem claimSpill_wf (h : MemWf s) (core : Nat) : MemWf (claimSpill s core) := by
  unfold claimSpill
  grind [foldl_wf, foldl_snd_wf, foldl_snd_snd_wf, modGrid_mem]
theorem execSpillReturn_wf {s0 : State} (h : MemWf s0) (core : Nat) : NextWf (execSpillReturn core s0) := by
  unfold execSpillReturn
  grind [nextWf_next, foldl_snd_wf, modCtx_mem, setCore_mem, unspill_wf, claimSpill_wf]

/-! ### System registers, traps and handlers -/

theorem modSubAcc_wf (h : MemWf s) (u : UnitRef) (m : Nat) (f : Acc → Acc) : MemWf (modSubAcc s u m f) := by
  unfold modSubAcc
  grind [modTeam_mem, setAcc_wf]
theorem modLane_wf (h : MemWf s) (u : UnitRef) (lane : Nat) (f : Thread → Thread) : MemWf (modLane s u lane f) := by
  unfold modLane
  grind [modCrew_mem]
theorem modSubCrew_wf (h : MemWf s) (u : UnitRef) (f : Crew → Crew) : MemWf (modSubCrew s u f) := by
  unfold modSubCrew
  grind [modCrew_mem]
theorem modRecord_wf (h : MemWf s) (dom uid : Nat) (f : FRec → FRec) : MemWf (modRecord s dom uid f) := h
theorem savedWrite_wf (h : MemWf s) (ctx : Nat) (sub : Subject) (slane stile idx : Nat) (v : W32) :
    MemWf (savedWrite s ctx sub slane stile idx v) := by
  simp only [savedWrite]
  repeat' split
  all_goals grind [modAccess_wf, modSubAcc_wf, modLane_wf, modSubCrew_wf, modRecord_wf]
theorem execSysr_wf (h : MemWf s) (c : Ctl) (idx : BitVec 12) (d : Spec) : NextWf (execSysr c idx d s) := by
  unfold execSysr
  grind [nextWf_next, retire_wf, faultEx_wf, issue_wf]
theorem sysWrite_wf (h : MemWf s) (u : UnitRef) (idx : Nat) (v : W32) : MemWf (sysWrite s u idx v) := by
  unfold sysWrite
  grind [modGrid_mem, modCtx_mem, savedWrite_wf]
theorem execSysw_wf (h : MemWf s) (c : Ctl) (idx : BitVec 12) (b : Spec) : NextWf (execSysw c idx b s) := by
  unfold execSysw
  grind [nextWf_next, retire_wf, faultEx_wf, issue_wf, sysWrite_wf]
theorem trapUnit_wf (h : MemWf s) (x : Ex) (b : Body) (cause : Cause) (detail : W32) : MemWf (trapUnit x b cause detail s) := by
  unfold trapUnit
  grind [putBody_mem, domainOfGrid_wf, raise_wf, modRecord_wf]
theorem execTrap_wf (h : MemWf s) (c : Ctl) (code : BitVec 16) : NextWf (execTrap c code s) := by
  unfold execTrap
  grind [nextWf_next, issue_wf, trapUnit_wf]
theorem execBkpt_wf (h : MemWf s) (c : Ctl) : NextWf (execBkpt c s) := by
  unfold execBkpt
  grind [nextWf_next, retire_wf, issue_wf, trapUnit_wf]
theorem resumeHeld_wf (h : MemWf s) (who : Held) (dest : Option Addr) : MemWf (resumeHeld s who dest) := by
  unfold resumeHeld
  grind [resumeUnit_wf, acquireAt_wf]
theorem retryDivert_wf (h : MemWf s) (die entry : Nat) : MemWf (retryDivert s die entry) := h
theorem failDivert_wf (h : MemWf s) (die entry : Nat) : MemWf (failDivert s die entry) := by
  unfold failDivert
  grind [takeFreeBytes_mem, setDie_mem, answerPiece_wf]
theorem modSavedRun_wf (h : MemWf s) (team : Option Nat) (rel : Nat) (f : SavedQuarter → SavedQuarter) :
    MemWf (modSavedRun s team rel f) := by
  unfold modSavedRun
  grind [modTeam_mem]
theorem retryRun_wf (h : MemWf s) (team : Option Nat) (rel : Nat) : MemWf (retryRun s team rel) := by
  unfold retryRun
  grind [setQuarter_mem, modSavedRun_wf]
theorem failRun_wf (h : MemWf s) (team : Option Nat) (rel : Nat) : MemWf (failRun s team rel) := by
  unfold failRun
  grind [completeToken_wf, endRun_wf, modSavedRun_wf]
theorem forgetHeld_wf (h : MemWf s) (who : Held) : MemWf (forgetHeld s who) := by
  unfold forgetHeld
  grind [forgetLoads_wf, forgetAccess_wf]
theorem tretDo_wf (h : MemWf s) (ctx : Nat) (r : FRec) (act : TretAct) : MemWf (tretDo s ctx r act) := by
  unfold tretDo
  grind [endGrid_wf, failCmd_wf, resumeCmd_wf, resumeHeld_wf, retryDivert_wf, failDivert_wf, retryRun_wf, failRun_wf, forgetHeld_wf]
theorem dropRec_wf (h : MemWf s) (dom uid : Nat) : MemWf (dropRec s dom uid) := h
theorem tret_wf (h : MemWf s) (i : Instr) (c : Ctl) (d a b : Spec) (act : TretAct) : MemWf (tret i c d a b act s) := by
  unfold tret
  grind [releaseAt_wf, retire_wf, faultEx_wf, waitEx_wf, issue_wf, tretDo_wf, dropRec_wf]
theorem mboxRead_wf (h : MemWf s) (x : Ex) (p : Path) (parts : List (Place × Nat × Nat)) : MemWf (mboxRead x p parts s).2.2 := by
  fun_induction mboxRead x p parts s
  all_goals grind [loadSeg_wf]
theorem mboxWrite_wf (h : MemWf s) (x : Ex) (p : Path) (parts : List (Place × Nat × Nat)) (bytes : List Byte) :
    MemWf (mboxWrite x p parts bytes s) := by
  fun_induction mboxWrite x p parts bytes s
  all_goals grind [storeSeg_wf]
theorem execMboxSend_wf (h : MemWf s) (c : Ctl) (d a b : Spec) : NextWf (execMboxSend c d a b s) := by
  unfold execMboxSend
  grind [nextWf_next, retireEnd_wf, faultEx_wf, issue_wf, failEx_wf, raiseMsix_mem, mboxRead_wf]
theorem execMboxRecv_wf (h : MemWf s) (c : Ctl) (d a b : Spec) : NextWf (execMboxRecv c d a b s) := by
  unfold execMboxRecv
  grind [nextWf_next, retireEnd_wf, faultEx_wf, issue_wf, sendStores_wf, failEx_wf, mboxWrite_wf]
theorem attestWork_wf (h : MemWf s) (i : Instr) (c : Ctl) (d a b : Spec) (cmd : CmdByte) (x : Ex) :
    MemWf (attestWork i c d a b cmd x s) := by
  unfold attestWork
  grind [takeUid_mem, retireEnd_wf, waitEx_wf, failEx_wf]
theorem execAttest_wf (h : MemWf s) (c : Ctl) (d a b : Spec) (cmd : CmdByte) : NextWf (execAttest c d a b cmd s) := by
  unfold execAttest
  grind [nextWf_next, issue_wf, attestWork_wf]

/-! ### Transactions and ordered speculation -/

theorem splitWaits_wf (h : MemWf s) (x : Ex) (c : Ctl) (i : Instr) (b : Body) (stuck : List (Mask × Awaited)) :
    MemWf (splitWaits x c i b stuck s) := by
  unfold splitWaits
  grind [putBody_mem, retire_wf]
theorem clearLogs_wf (h : MemWf s) (c : Crew) (ls : List Nat) : MemWf (clearLogs s c ls) := by
  unfold clearLogs
  grind [foldl_wf, padWrite_wf]
theorem openLanes_wf (h : MemWf s) (i : Instr) (c : Ctl) (ts : Bool) (sp : Option (Nat × (Nat → W32))) (d : Spec) (x : Ex) :
    MemWf (openLanes i c ts sp d x s) := by
  unfold openLanes
  grind [acquireAt_wf, retire_wf, splitWaits_wf, clearLogs_wf]
theorem execTxopen_wf (h : MemWf s) (c : Ctl) (ts : Bool) (d : Spec) : NextWf (execTxopen c ts d s) := by
  unfold execTxopen
  grind [nextWf_next, issue_wf, openLanes_wf]
theorem execSpopen_wf (h : MemWf s) (c : Ctl) (ts : Bool) (dom : BitVec 3) (d a : Spec) : NextWf (execSpopen c ts dom d a s) := by
  unfold execSpopen
  grind [nextWf_next, issue_wf, openLanes_wf]
theorem commitLine_wf (h : MemWf s) (core line : Nat) (bs : List (Nat × Byte)) : MemWf (commitLine s core line bs) := by
  unfold commitLine
  grind [setCore_mem, setCluster_mem, l2Cells_wf]
theorem commitStores_wf (h : MemWf s) (core : Nat) (bs : List (Nat × Byte)) : MemWf (commitStores s core bs) := by
  unfold commitStores
  grind [foldl_wf, commitLine_wf]
theorem endIrrev_wf (h : MemWf s) (uid : Nat) (m : Mask) : MemWf (endIrrev s uid m) := by
  unfold endIrrev
  grind [foldl_wf, endIrrevocable_wf]
theorem passIrrev_wf (h : MemWf s) (x : Ex) (uid : Nat) (irr : Mask) : MemWf (passIrrev x uid irr s).2 := by
  unfold passIrrev
  split
  · exact h
  · grind [endIrrev_wf, putBody_mem]
theorem commitWinners_wf (h : MemWf s) (i : Instr) (c : Ctl) (uid : Nat) (cr : Crew) (win : Mask) (x : Ex) :
    MemWf (commitWinners i c uid cr win x s) := by
  unfold commitWinners
  extract_lets core logs faults stores lines bad good s1 s3 low s4
  have h1 : MemWf s1 := commitStores_wf h ..
  have h3 : MemWf s3 := by grind [putBody_mem]
  have h4 : MemWf s4 := by grind [abortLanes_wf]
  repeat' split
  all_goals grind [faultUnit_wf, splitWaits_wf, retire_wf]
theorem commitLanes_wf (h : MemWf s) (i : Instr) (c : Ctl) (x : Ex) : MemWf (commitLanes i c x s) := by
  unfold commitLanes
  split
  · extract_lets spec irr set z y s1
    have hi := instrAbort_wf h x spec false
    have h1 : MemWf s1 := passIrrev_wf (releaseAt_wf h ..) ..
    repeat' split
    all_goals grind [someWf_some, retire_wf, splitWaits_wf, commitWinners_wf, abortLanes_wf]
  · exact retire_wf h ..
theorem execTxcommit_wf (h : MemWf s) (c : Ctl) : NextWf (execTxcommit c s) := by
  unfold execTxcommit
  grind [nextWf_next, issue_wf, commitLanes_wf]
theorem spLane_wf {o : SpOut} (h : MemWf o.s) (uid grid : Nat) (cr : Crew) (l : Nat) : MemWf (spLane uid grid cr o l).s := by
  simp only [spLane]
  repeat' split
  all_goals grind [endIrrevocable_wf, commitStores_wf, modGrid_mem]
theorem spCommitLanes_wf (h : MemWf s) (i : Instr) (c : Ctl) (x : Ex) : MemWf (spCommitLanes i c x s) := by
  unfold spCommitLanes
  split
  · rename_i uid low cr _ _
    extract_lets plain grid dist ls s1 o m s2 s3 y1
    have hi := instrAbort_wf h x plain false
    have h1 : MemWf s1 := releaseAt_wf h ..
    have ho : MemWf o.s := foldl_keeps SpOut.s (fun r l hr => spLane_wf hr uid grid cr l) h1 ls
    have h2 : MemWf s2 := by grind [putBody_mem]
    have h3 : MemWf s3 := by grind [abortLanes_wf]
    repeat' split
    all_goals grind [someWf_some, retire_wf, splitWaits_wf, faultUnit_wf, abortLanes_wf]
  · exact retire_wf h ..
theorem execSpcommit_wf (h : MemWf s) (c : Ctl) : NextWf (execSpcommit c s) := by
  unfold execSpcommit
  grind [nextWf_next, issue_wf, spCommitLanes_wf]
theorem execTxquit_wf (h : MemWf s) (c : Ctl) (code : BitVec 7) : NextWf (execTxquit c code s) := by
  unfold execTxquit
  grind [nextWf_next, abortLanes_wf, retire_wf, irrevFault_wf, issue_wf]
theorem execTxstat_wf (h : MemWf s) (c : Ctl) (d : Spec) : NextWf (execTxstat c d s) := by
  unfold execTxstat
  grind [nextWf_next, retire_wf, issue_wf]
theorem execTxBackoffExpire_wf (h : MemWf s) (u : UnitRef) : NextWf (execTxBackoffExpire u s) := by
  unfold execTxBackoffExpire
  grind [nextWf_next, clearWait_wf]
theorem execTxPeriodicValidate_wf (h : MemWf s) (crew lane : Nat) : NextWf (execTxPeriodicValidate crew lane s) := by
  unfold execTxPeriodicValidate
  grind [nextWf_next, abortLanes_wf, modThread_wf]
theorem execCommitTokenGrant_wf (h : MemWf s) (u : UnitRef) : NextWf (execCommitTokenGrant u s) := by
  unfold execCommitTokenGrant
  grind [nextWf_next, clearWait_wf, tokensFail_wf]
theorem performAt_wf {f : State → State} (hf : ∀ s, MemWf s → MemWf (f s)) (h : MemWf s) (u : UnitRef) : MemWf (performAt s u f) := by
  unfold performAt
  grind [putBody_mem]
theorem reopen_wf (h : MemWf s) (i : Option Instr) : MemWf (reopen i s) := by
  unfold reopen
  grind [issue_wf, openLanes_wf]
theorem execSerialCommitGrant_wf (h : MemWf s) : NextWf (execSerialCommitGrant s) := by
  simp only [execSerialCommitGrant, nextWf_next]
  repeat' split
  any_goals exact h
  refine performAt_wf (fun s h => reopen_wf h _) ?_ _
  exact h
theorem execSpecIterationGrant_wf (h : MemWf s) (u : UnitRef) : NextWf (execSpecIterationGrant u s) := by
  unfold execSpecIterationGrant
  grind [nextWf_next, clearWait_wf]

end Sys2Proof.Laws
end

section
/-! SUPPORT. The events of issue, of memory, of the host and of the security processor. Each function
that returns a state keeps the canonical form of memory: most write no cell, the others write by `cellsWrite` or `cellSet`, or drop cells. -/

namespace Sys2Proof.Laws

open Sys2Proof Sys2Proof.Machine

variable {s : State}

/-! ### Readiness -/

theorem settleReady_wf (h : MemWf s) (u : UnitRef) : MemWf (settleReady s u) := by
  unfold settleReady
  grind [putBody_mem, setWait_wf, modGroup_wf]

/-! ### Events of issue -/

theorem fillPlay_wf (h : MemWf s) (q : Nat) (fuel : Nat) : MemWf (fillPlay q fuel s) := by
  fun_induction fillPlay q fuel s
  all_goals grind [modGroup_wf]
theorem settleQuarter_wf (h : MemWf s) (q : Nat) : MemWf (settleQuarter s q) := by
  unfold settleQuarter
  grind [foldl_wf, settleReady_wf]
theorem execIssueSelect_wf (h : MemWf s) (q : Nat) : NextWf (execIssueSelect q s) := by
  unfold execIssueSelect
  grind [nextWf_next, setQuarter_mem, modGroup_wf, fillPlay_wf, settleQuarter_wf]
theorem execReadyAgeRaise_wf (h : MemWf s) (q : Nat) : NextWf (execReadyAgeRaise q s) := by
  rw [execReadyAgeRaise, nextWf_next]
  exact foldl_wf (fun s e hs => modGroup_wf hs ..) (settleQuarter_wf h q) _
theorem execPlayQuotaExpire_wf (h : MemWf s) (q : Nat) : NextWf (execPlayQuotaExpire q s) := by
  unfold execPlayQuotaExpire
  grind [nextWf_next, modGroup_wf, fillPlay_wf]
theorem stateOf_wf (h : MemWf s) {o : Host.Outcome State Fault Refusal} (ho : NextWf o) : MemWf (stateOf s o) := by
  unfold stateOf
  split
  · exact ho.wf _ rfl
  · exact h
theorem reissue_wf (h : MemWf s) (i : Instr) : MemWf (reissue i s) := by
  unfold reissue
  grind [execAstream_wf, execOpush_wf, execOpop_wf, execGather_wf, execScatter_wf, execCpy_wf, execCpy2g_wf, execCpyt_wf, execCpyr_wf,
      execFred_wf, execChain_wf, execPdec_wf, execClose_wf, execWaitb_wf, execBarwait_wf, execMloop_wf, execMconv_wf, execLaunch_wf,
      execSpawn_wf, execAttest_wf, stateOf_wf]
theorem goesOn_wf (h : MemWf s) (u : UnitRef) (i : Instr) : MemWf (goesOn s u i) := by
  unfold goesOn
  grind [performAt_wf, reissue_wf]
theorem accessGoesOn_wf (h : MemWf s) (u : UnitRef) (obj : Awaited) : MemWf (accessGoesOn s u obj) := by
  unfold accessGoesOn
  grind [clearWait_wf]
theorem execCommandAccept_wf (h : MemWf s) (u : UnitRef) : NextWf (execCommandAccept u s) := by
  unfold execCommandAccept
  grind [nextWf_next, goesOn_wf, accessGoesOn_wf]
theorem fuseAt_wf (h : MemWf s) (u : UnitRef) : MemWf (fuseAt s u).1 := by
  unfold fuseAt
  grind [modCrew_mem]
theorem execBarwaitRelease_wf (h : MemWf s) (u : UnitRef) : NextWf (execBarwaitRelease u s) := by
  unfold execBarwaitRelease
  grind [nextWf_next, goesOn_wf, fuseAt_wf]
theorem waitFieldEnd_wf (h : MemWf s) (u : UnitRef) (m todo : BitVec 8) : MemWf (waitFieldEnd s u m todo) := by
  unfold waitFieldEnd
  grind [putBody_mem, modGroup_wf, clearWait_wf, acquireAt_wf]
theorem execTokenWaitRelease_wf (h : MemWf s) (u : UnitRef) : NextWf (execTokenWaitRelease u s) := by
  unfold execTokenWaitRelease
  grind [nextWf_next, goesOn_wf, waitFieldEnd_wf]
theorem execOpopFill_wf (h : MemWf s) (u : UnitRef) : NextWf (execOpopFill u s) := by
  unfold execOpopFill
  grind [nextWf_next, goesOn_wf]
theorem wakeScoreboard_wf (h : MemWf s) (u : UnitRef) : MemWf (wakeScoreboard s u) := by
  unfold wakeScoreboard
  grind [foldl_wf, clearWait_wf]
theorem execVariableLatencyResult_wf (h : MemWf s) (r : ResultRef) : NextWf (execVariableLatencyResult r s) := by
  unfold execVariableLatencyResult
  grind [nextWf_next, putBody_mem, performNth_wf, wakeScoreboard_wf]
theorem execAelogRecordWrite_wf (h : MemWf s) (core : Nat) : NextWf (execAelogRecordWrite core s) := by
  unfold execAelogRecordWrite
  grind [nextWf_next, setCore_mem, aelogWrite_wf]
theorem domainOf_wf (h : MemWf s) (w : Waiter) : SomeWf Prod.snd (domainOf s w) := by
  unfold domainOf
  split
  · repeat' split
    any_goals exact someWf_none _
    exact someWf_map (fdomOf_wf h ..) fun a ha => domainFor_wf (bindDomain_wf ha ..) ..
  · refine someWf_bind (g := fun _ => s) (someWf_of _ fun _ => h) fun g _ => ?_
    grind [someWf_some, someWf_none, domainOfGrid_wf]
theorem domainsOf_wf (h : MemWf s) (c : List Waiter) : MemWf (domainsOf s c).2 := by
  unfold domainsOf
  refine foldl_snd_wf (fun r w hr => ?_) h c
  split
  · rename_i e
    exact (domainOf_wf hr w).wf _ e
  · exact hr
theorem waitReport_wf (h : MemWf s) (w : Waiter) (ms : List (W64 × W64)) (d : Nat) : MemWf (waitReport s w ms d) := h
theorem reportCycle_wf (h : MemWf s) (w : Waiter) (c : List Waiter) (ms : List (W64 × W64)) : MemWf (reportCycle s w c ms) := by
  unfold reportCycle
  grind [foldl_wf, domainsOf_wf, waitReport_wf]
theorem sendProbe_wf (h : MemWf s) (w : Waiter) : MemWf (sendProbe s w) := by
  unfold sendProbe
  grind [reportCycle_wf]
theorem probeDue_wf (h : MemWf s) (w : Waiter) : SomeWf id (probeDue s w) := by
  unfold probeDue
  grind [someWf_some, someWf_none, modCmd_mem, modQueue_mem, modGroup_wf]
theorem execWaitsForProbe_wf (h : MemWf s) (w : Waiter) : NextWf (execWaitsForProbe w s) := by
  unfold execWaitsForProbe
  grind [nextWf_next, someWf_some, sendProbe_wf, probeDue_wf]

/-! ### Events of the memory system -/

theorem sendHome_wf (h : MemWf s) (die line : Nat) : MemWf (sendHome s die line) := by
  unfold sendHome
  grind [setDie_mem, setLine_mem, roomIn_mem]
theorem execLineMigrate_wf (h : MemWf s) (die line : Nat) : NextWf (execLineMigrate die line s) := by
  unfold execLineMigrate
  grind [nextWf_next, setDie_mem, setLine_mem, roomIn_mem, sendHome_wf]
theorem execRcDrop_wf (h : MemWf s) (line : Nat) : NextWf (execRcDrop line s) := by
  unfold execRcDrop
  grind [nextWf_next, dropLine_wf]
theorem execPersistentRequest_wf (h : MemWf s) (line : Nat) : NextWf (execPersistentRequest line s) := by
  unfold execPersistentRequest
  grind [nextWf_next, setLine_mem, l2Room_mem]
theorem execTrackingUnitMerge_wf (h : MemWf s) (start : Nat) : NextWf (execTrackingUnitMerge start s) := by
  unfold execTrackingUnitMerge
  grind [nextWf_next]
theorem backOut_wf (h : MemWf s) (core id : Nat) (secs : List Nat) : MemWf (backOut s core id secs) := by
  unfold backOut
  grind [tokensFail_wf, backCluster_wf]
theorem execScopeCacheEviction_wf (h : MemWf s) (cluster : Bool) (id sector : Nat) (mv : CacheMove) :
    NextWf (execScopeCacheEviction cluster id sector mv s) := by
  unfold execScopeCacheEviction
  grind [nextWf_next, setCore_mem, setCluster_mem, l2Due_wf, fillCluster_wf, fillL1_wf, fitCluster_wf, backL1_wf, fitPath_wf, backOut_wf]
theorem wakeWindow_wf (h : MemWf s) : MemWf (wakeWindow s) := by
  unfold wakeWindow
  grind [foldl_wf, clearWait_wf]
theorem landRead_wf (h : MemWf s) (w : WinReq) (bs : List Byte) (bad : Nat → Nat → Bool) : MemWf (landRead s w bs bad) := by
  unfold landRead
  grind [landPend_wf]
theorem execWindowReadTransform_wf (h : MemWf s) : NextWf (execWindowReadTransform s) := by
  unfold execWindowReadTransform
  grind [nextWf_next, takeFreeBytes_mem, viewRead_wf, wakeWindow_wf, landRead_wf]
theorem execWindowWriteTransform_wf (h : MemWf s) : NextWf (execWindowWriteTransform s) := by
  unfold execWindowWriteTransform
  grind [nextWf_next, viewWrite_wf, wakeWindow_wf]
theorem wakeFar_wf (h : MemWf s) : MemWf (wakeFar s) := by
  unfold wakeFar
  grind [foldl_wf, clearWait_wf]
theorem dropFar_wf (h : MemWf s) (f : FarWrite) : MemWf (dropFar s f) := by
  unfold dropFar
  grind [takeUid_mem, addRecord_wf, takeAsync_wf]
theorem execHostWriteDropped_wf (h : MemWf s) : NextWf (execHostWriteDropped s) := by
  unfold execHostWriteDropped
  grind [nextWf_next, wakeFar_wf, dropFar_wf]
theorem execPeerWriteDropped_wf (h : MemWf s) : NextWf (execPeerWriteDropped s) := by
  unfold execPeerWriteDropped
  grind [nextWf_next, wakeFar_wf, dropFar_wf]
theorem execWindowWriteAcknowledged_wf (h : MemWf s) : NextWf (execWindowWriteAcknowledged s) := by
  unfold execWindowWriteAcknowledged
  grind [nextWf_next, wakeFar_wf]
theorem execPatrolScrub_wf (h : MemWf s) (ctl : Nat) (corrected bad : Bool) : NextWf (execPatrolScrub ctl corrected bad s) := by
  unfold execPatrolScrub
  grind [nextWf_next]
theorem poisonSram_wf (h : MemWf s) (unit : SramUnit) : MemWf (poisonSram s unit) := by
  unfold poisonSram
  grind [modTeam_mem, setCore_mem, setCluster_mem, backCluster_wf, backSectors_wf]
theorem execSramScrub_wf (h : MemWf s) (core : Nat) (corrected bad : Bool) : NextWf (execSramScrub core corrected bad s) := by
  unfold execSramScrub
  grind [nextWf_next, takeFree_mem, poisonSram_wf]
theorem setReplays_wf (h : MemWf s) (peer : Bool) (link n : Nat) : MemWf (setReplays s peer link n) := h
theorem execFlitReplay_wf (h : MemWf s) (peer : Bool) (flit : FlitRef) : NextWf (execFlitReplay peer flit s) := by
  unfold execFlitReplay
  grind [nextWf_next, setReplays_wf]

/-! ### The context manager -/

theorem reply_wf (h : MemWf s) (ok : Bool) : MemWf (reply s ok) := h
theorem request_wf {r : Option State} (hr : SomeWf id r) (h : MemWf s) : MemWf (request s r) := by
  unfold request
  grind [someWf_some, reply_wf]
theorem zeroFrame_wf (h : MemWf s) (f : Nat) : MemWf (zeroFrame s f) := filter_wf h _
theorem pickFrame_wf (h : MemWf s) : SomeWf Prod.snd (pickFrame s) := by
  unfold pickFrame
  exact someWf_map (g := fun _ => s) (someWf_of _ fun _ => h) fun _ _ => h
theorem takeTable_wf (h : MemWf s) (ctx : Nat) : SomeWf Prod.snd (takeTable s ctx) :=
  someWf_map (pickFrame_wf h) fun _ he => zeroFrame_wf he _
theorem flushFrame_wf (h : MemWf s) (f : Nat) : MemWf (flushFrame s f) := by
  unfold flushFrame
  grind [foldl_wf, backCluster_wf, backL1_wf]
theorem giveFrame_wf (h : MemWf s) (ctx : Nat) (shared : Bool) (f : Nat) : MemWf (giveFrame ctx shared s f) := by
  unfold giveFrame
  grind [zeroFrame_wf]
theorem writeEntry_wf (h : MemWf s) (pa v : Nat) : MemWf (writeEntry s pa v) := by
  unfold writeEntry
  grind [l2Store_wf]
theorem tableUnder_wf (h : MemWf s) (ctx entry : Nat) : SomeWf Prod.snd (tableUnder s ctx entry) := by
  simp only [tableUnder]
  repeat' split
  · exact someWf_map (takeTable_wf h ctx) fun _ ht => writeEntry_wf ht ..
  · exact someWf_none _
  · exact (someWf_some _ _).mpr h
theorem leafPlace_wf (h : MemWf s) (ctx root va : Nat) (big : Bool) : SomeWf Prod.snd (leafPlace s ctx root va big) := by
  unfold leafPlace
  split
  · exact someWf_none _
  · rename_i e
    have h1 := (tableUnder_wf h ..).wf _ e
    split
    · exact (someWf_some _ _).mpr h1
    · exact someWf_map (tableUnder_wf h1 ..) fun _ h3 => h3
theorem giveFrames_wf (h : MemWf s) (ctx va pa : Nat) (big shared : Bool) : MemWf (giveFrames s ctx va pa big shared) := by
  unfold giveFrames
  grind [foldl_wf, giveFrame_wf]
theorem authorised_wf (h : MemWf s) (ctx : Nat) (auth : Bool) : SomeWf id (authorised s ctx auth) := by
  unfold authorised
  grind [someWf_some, someWf_none, modCtx_mem]
theorem newMapping_wf (h : MemWf s) (ctx root va pa : Nat) (big : Bool) (flags : BitVec 5) :
    SomeWf id (newMapping s ctx root va pa big flags) := by
  unfold newMapping
  grind [someWf_some, someWf_none, writeEntry_wf, leafPlace_wf, giveFrames_wf]
theorem execMap_wf (h : MemWf s) (ctx : Nat) (va : Addr) (pa : Nat) (big : Bool) (flags : BitVec 5) (auth : Bool) :
    NextWf (execMap ctx va pa big flags auth s) := by
  rw [execMap, nextWf_next]
  refine request_wf ?_ h
  repeat' split
  any_goals exact someWf_none _
  exact someWf_bind (authorised_wf h ..) fun _ h1 => newMapping_wf h1 ..
theorem leaveFrame_wf (h : MemWf s) (ctx : Nat) (f : Nat) : MemWf (leaveFrame ctx s f) := by
  unfold leaveFrame
  grind [zeroFrame_wf, flushFrame_wf]
theorem execUnmap_wf (h : MemWf s) (ctx : Nat) (va : Addr) (remap : Option Nat) (auth : Bool) :
    NextWf (execUnmap ctx va remap auth s) := by
  have hn : MemWf (request s none) := request_wf (someWf_none _) h
  rw [execUnmap, nextWf_next]
  split
  · exact hn
  · split
    · exact hn
    · simp only
      split
      · exact hn
      · split
        · exact h
        · exact request_wf (someWf_map_id (authorised_wf h ..) fun s1 h1 => by
            grind [foldl_wf, writeEntry_wf, giveFrames_wf, leaveFrame_wf]) h
theorem openContext_wf (h : MemWf s) (ctx key : Nat) (owner : Option (BitVec 384)) (session : BitVec 384) :
    SomeWf id (openContext s ctx key owner session) := by
  unfold openContext
  split
  · exact someWf_none _
  · exact someWf_map (takeTable_wf h ctx) fun _ ht => ht
theorem refusePending_wf (h : MemWf s) (ctx q : Nat) (p : Pending) : MemWf (refusePending ctx q s p) := by
  unfold refusePending
  grind [someWf_some, dropLaunch_wf, packetDone_wf]
theorem refuseSlots_wf (h : MemWf s) (ctx q : Nat) (lq : LaunchQueue) : MemWf (refuseSlots ctx q lq s) := by
  unfold refuseSlots
  grind [okWf_ok, foldl_wf, blockRead_wf, dropLaunch_wf, refusePending_wf]
theorem dropQueues_wf (h : MemWf s) (ctx : Nat) : MemWf (dropQueues s ctx) := by
  unfold dropQueues
  grind [foldl_wf, modQueue_mem, refusePending_wf, refuseSlots_wf]
theorem closeContext_wf (h : MemWf s) (ctx : Nat) : MemWf (closeContext s ctx) := by
  unfold closeContext
  grind [foldl_wf, endGrid_wf, zeroFrame_wf, dropQueues_wf]
theorem execContextClose_wf (h : MemWf s) (ctx : Nat) : NextWf (execContextClose ctx s) := by
  rw [execContextClose, nextWf_next]
  refine request_wf ?_ h
  grind [someWf_some, someWf_none, closeContext_wf]
theorem execQueueSetup_wf (h : MemWf s) (q ctx : Nat) (ring : Addr) (log2 : Nat) (auth : Bool) :
    NextWf (execQueueSetup q ctx ring log2 auth s) := by
  rw [execQueueSetup, nextWf_next]
  refine request_wf ?_ h
  grind [someWf_none, someWf_map_id, someWf_bind_id, authorised_wf]
theorem execAperturePlacement_wf (h : MemWf s) (base : Nat) : NextWf (execAperturePlacement base s) := by
  rw [execAperturePlacement, nextWf_next]
  refine request_wf ?_ h
  grind [someWf_some, someWf_none]
theorem execContextControlWrite_wf (h : MemWf s) (ctx : Nat) (idx : BitVec 12) (v : W32) (auth : Bool) :
    NextWf (execContextControlWrite ctx idx v auth s) := by
  rw [execContextControlWrite, nextWf_next]
  refine request_wf ?_ h
  grind [someWf_none, someWf_map_id, modCtx_mem, authorised_wf]
theorem execPairing_wf (h : MemWf s) (ctx port partner : Nat) (farAgrees : Bool) : NextWf (execPairing ctx port partner farAgrees s) := by
  rw [execPairing, nextWf_next]
  refine request_wf ?_ h
  grind [someWf_some, someWf_none]
theorem closeAll_wf (h : MemWf s) : MemWf (closeAll s) := by
  unfold closeAll
  grind [foldl_wf, closeContext_wf]
theorem dropPort_wf (h : MemWf s) (port : Nat) : MemWf (dropPort s port) := by
  unfold dropPort
  grind [foldl_wf, dropFar_wf]
theorem execLinkRetrain_wf (h : MemWf s) (peer : Bool) (link : Nat) (ok : Bool) : NextWf (execLinkRetrain peer link ok s) := by
  unfold execLinkRetrain
  grind [nextWf_next, wakeFar_wf, setReplays_wf, closeAll_wf, dropPort_wf]

/-! ### The host and paired peers -/

theorem execDoorbell_wf (h : MemWf s) (q : Nat) (tail : W32) : NextWf (execDoorbell q tail s) := by
  unfold execDoorbell
  grind [nextWf_next, modQueue_mem, raiseMsix_mem]
theorem execQueueStatusWrite_wf (h : MemWf s) (q : Nat) (v : W32) : NextWf (execQueueStatusWrite q v s) := by
  unfold execQueueStatusWrite
  grind [nextWf_next, modQueue_mem]
theorem apertureWrite_wf (h : MemWf s) (part : Nat × List Byte) : MemWf (apertureWrite s part) := by
  unfold apertureWrite
  split
  · exact l2Write_wf h ..
  · exact h
theorem apertureRead_wf (h : MemWf s) (parts : List (Nat × Nat)) : MemWf (apertureRead parts s).2 := by
  fun_induction apertureRead parts s
  all_goals grind [l2Load_wf]
theorem execApertureAccess_wf (h : MemWf s) (off : Nat) (n : Nat) (write : Option (List Byte)) :
    NextWf (execApertureAccess off n write s) := by
  unfold execApertureAccess
  grind [nextWf_next, foldl_wf, apertureWrite_wf, apertureRead_wf]
theorem execDebugMailboxHostWrite_wf (h : MemWf s) (msg : Option (List Byte)) : NextWf (execDebugMailboxHostWrite msg s) := by
  unfold execDebugMailboxHostWrite
  grind [nextWf_next]
theorem execIdeKeySet_wf (h : MemWf s) (stream : Nat) (ctx : Option Nat) : NextWf (execIdeKeySet stream ctx s) := by
  unfold execIdeKeySet
  grind [nextWf_next, modCtx_mem]
theorem sendPeer_wf (h : MemWf s) (port : Nat) (r : Option (List Byte × Bool)) : MemWf (sendPeer s port r) := h
theorem peerLoad_wf (h : MemWf s) (parts : List (Nat × Nat × Nat)) : MemWf (peerLoad parts s).2.2 := by
  fun_induction peerLoad parts s
  all_goals grind [l2Load_wf]
theorem execPeerAccessIn_wf (h : MemWf s) (port : Nat) (partner : Nat) (ctx : Nat) (va : Addr) (req : PeerReq) :
    NextWf (execPeerAccessIn port partner ctx va req s) := by
  unfold execPeerAccessIn
  grind [nextWf_next, foldl_wf, l2Write_wf, sendPeer_wf, peerLoad_wf]

/-! ### Hollyhock -/

theorem extendMr_wf (h : MemWf s) (n : Nat) (x : List Byte) : MemWf (extendMr s n x) := h
theorem noteDebug_wf (h : MemWf s) (kind value : Nat) : MemWf (noteDebug s kind value) := h
theorem execFusedMinimumRaise_wf (h : MemWf s) (kind : Nat) (version : Nat) (sigRsa sigSlh : List Byte) :
    NextWf (execFusedMinimumRaise kind version sigRsa sigSlh s) := by
  rw [execFusedMinimumRaise, nextWf_next]
  refine request_wf ?_ h
  grind [someWf_some, someWf_none]
theorem pickSlot_wf (h : MemWf s) : SomeWf Prod.snd (pickSlot s) := by
  unfold pickSlot
  exact someWf_map (g := fun _ => s) (someWf_of _ fun _ => h) fun _ _ => h
theorem ownerAsks_wf (h : MemWf s) (m : OwnerMsg) (kind : Nat) (ctx : Option Nat) (body : List Byte) :
    SomeWf Prod.snd (ownerAsks s m kind ctx body) :=
  someWf_bind (g := fun _ => s) (someWf_of _ fun _ => h) fun _ _ => by grind [someWf_some, someWf_none]
theorem ctxOwnerAsks_wf (h : MemWf s) (m : OwnerMsg) (kind ctx : Nat) (body : List Byte) : SomeWf id (ctxOwnerAsks s m kind ctx body) :=
  someWf_bind (ownerAsks_wf h ..) fun _ hr => by grind [someWf_some, someWf_none]
theorem deviceOwnerAsks_wf (h : MemWf s) (m : OwnerMsg) (kind : Nat) : SomeWf id (deviceOwnerAsks s m kind) :=
  someWf_bind (ownerAsks_wf h ..) fun _ hr => by grind [someWf_some, someWf_none]
theorem nameKeys_wf (h : MemWf s) (m : OwnerMsg) (keys : BitVec 384) : MemWf (nameKeys s m keys) := h
theorem execOwnerOpen_wf (h : MemWf s) (m : OwnerMsg) (ctx : Nat) (keys : OwnerKeys) : NextWf (execOwnerOpen m ctx keys s) := by
  rw [execOwnerOpen, nextWf_next]
  exact request_wf (someWf_bind (ownerAsks_wf h ..) fun r hr =>
    someWf_bind (pickSlot_wf (nameKeys_wf hr ..)) fun k hk => openContext_wf hk ..) h
theorem execOwnerSeal_wf (h : MemWf s) (r : OwnerReq Nat) : NextWf (execOwnerSeal r s) := by
  rw [execOwnerSeal, nextWf_next]
  refine request_wf ?_ h
  grind [someWf_some, someWf_none, someWf_bind_id, modCtx_mem, ctxOwnerAsks_wf]
theorem execOwnerChange_wf (h : MemWf s) (r : OwnerReq Nat) (req : List Byte) : NextWf (execOwnerChange r req s) := by
  rw [execOwnerChange, nextWf_next]
  refine request_wf ?_ h
  grind [someWf_some, someWf_none, someWf_bind_id, modCtx_mem, ctxOwnerAsks_wf]
theorem takeChallenge_wf (h : MemWf s) : MemWf (takeChallenge s).2 := h
theorem execOwnerChallenge_wf (h : MemWf s) (r : OwnerReq (Option Nat)) : NextWf (execOwnerChallenge r s) := by
  rw [execOwnerChallenge, nextWf_next]
  refine request_wf ?_ h
  grind [someWf_map_id, modCtx_mem, ctxOwnerAsks_wf, deviceOwnerAsks_wf, takeChallenge_wf]
theorem endDebug_wf (h : MemWf s) (ctx : Nat) : MemWf (endDebug s ctx) := by
  unfold endDebug
  grind [foldl_wf, modCtx_mem, dropGrid_wf]
theorem execOwnerClaim_wf (h : MemWf s) (r : OwnerReq OwnerKeys) : NextWf (execOwnerClaim r s) := by
  rw [execOwnerClaim, nextWf_next]
  exact request_wf (someWf_bind (ownerAsks_wf h ..) fun x hx => by grind [someWf_some, someWf_none, nameKeys_wf]) h
theorem enterContext_wf (h : MemWf s) (ctx : Nat) (perms : BitVec 3) : MemWf (enterContext s ctx perms) := h
theorem execConsentToken_wf (h : MemWf s) (t : SignedToken) : NextWf (execConsentToken t s) := by
  rw [execConsentToken, nextWf_next]
  refine request_wf ?_ h
  grind [someWf_some, someWf_none, modCtx_mem, enterContext_wf]
theorem enterFull_wf (h : MemWf s) : MemWf (enterFull s) := h
theorem execRepairToken_wf (h : MemWf s) (t : SignedToken) : NextWf (execRepairToken t s) := by
  rw [execRepairToken, nextWf_next]
  refine request_wf ?_ h
  grind [someWf_some, someWf_none, foldl_wf, closeContext_wf, enterFull_wf]
theorem execDebugLevelRequest_wf (h : MemWf s) (level : DebugLevel) (ctx : Nat) : NextWf (execDebugLevelRequest level ctx s) := by
  simp only [execDebugLevelRequest, nextWf_next]
  refine request_wf ?_ h
  repeat' split
  all_goals grind [someWf_some, someWf_none, enterContext_wf, enterFull_wf]
theorem execSecurityStateRequest_wf (h : MemWf s) (toOpen : Bool) (byOwner : Option OwnerMsg) :
    NextWf (execSecurityStateRequest toOpen byOwner s) := by
  unfold execSecurityStateRequest
  rw [nextWf_next]
  split
  · exact request_wf (someWf_map_id (someWf_bind (g := fun _ => s) (someWf_of _ fun _ => h) fun m _ => deviceOwnerAsks_wf h m 6)
      fun _ h1 => h1) h
  · exact request_wf ((someWf_some _ _).mpr h) h
  · exact request_wf (someWf_none _) h
theorem stopAttest_wf (h : MemWf s) (n : Nat) (c : Cmd) (e : EngFail) : MemWf (stopAttest s n c e) := by
  unfold stopAttest
  grind [stopCmd_wf]
theorem serveAttest_wf (h : MemWf s) (n : Nat) (c : Cmd) (a b : Addr) (seq : W32) : MemWf (serveAttest s n c a b seq) := by
  unfold serveAttest
  grind [okWf_ok, engRead_wf, engWrite_wf, completeCmd_wf, stopAttest_wf]
theorem execAttestService_wf (h : MemWf s) : NextWf (execAttestService s) := by
  unfold execAttestService
  grind [nextWf_next, serveAttest_wf]

end Sys2Proof.Laws
end

section
/-! SUPPORT. Pre-emption, the scheduler and power. Each function
that returns a state keeps the canonical form of memory: most write no cell, the others write by `cellsWrite` or `cellSet`, or drop cells. -/

namespace Sys2Proof.Laws

open Sys2Proof Sys2Proof.Machine

variable {s : State}

/-! ### Pre-emption -/

theorem reserveImage_wf (h : MemWf s) (t : Nat) : SomeWf id (reserveImage s t) := by
  unfold reserveImage
  repeat' split
  · exact someWf_none _
  · simp only
    split
    · exact someWf_none _
    · exact someWf_map (g := fun _ => s) (someWf_of _ fun _ => h) fun _ _ => h
theorem freeImage_wf (h : MemWf s) (t : Nat) : MemWf (freeImage s t) := h
theorem shadowStore_wf (ctx va : Nat) (bs : List Byte) (bad : List Bool) {s : State} (h : MemWf s) (parts : List (Nat × Nat)) :
    MemWf (shadowStore ctx va bs bad parts s).1 := by
  induction parts generalizing s with
  | nil => exact h
  | cons part parts ih =>
    simp only [shadowStore]
    split
    · exact h
    · exact ih (l2Store_wf h ..)
theorem shadowLoad_wf (ctx : Nat) {s : State} (h : MemWf s) (parts : List (Nat × Nat)) :
    OkWf (fun r => r.2.2) (shadowLoad ctx parts s) := by
  induction parts generalizing s with
  | nil => exact (okWf_ok _ _).mpr h
  | cons part parts ih =>
    simp only [shadowLoad]
    split
    · exact okWf_error _ _
    · split
      · exact okWf_error _ _
      · rename_i y e
        exact (okWf_ok _ _).mpr ((ih (l2Load_wf h ..)).wf y e)
theorem askFor_wf (h : MemWf s) (line die : Nat) : MemWf (askFor s line die) := by
  unfold askFor
  grind [tokensFail_wf]
theorem askLine_wf (h : MemWf s) (core : Nat) : MemWf (askLine s core) := by
  unfold askLine
  grind [askFor_wf]
theorem giveAccs_wf (h : MemWf s) (t core qb : Nat) : MemWf (giveAccs s t core qb) := by
  unfold giveAccs
  grind [foldl_wf, setQuarter_mem]
theorem addForward_wf (h : MemWf s) (core t : Nat) (target : Nat ⊕ (Nat × Nat)) : MemWf (addForward s core t target) := h
theorem repoint_wf (h : MemWf s) (t : Nat) (target : Nat ⊕ (Nat × Nat)) : MemWf (repoint s t target) := h
theorem reserveDivert_wf (h : MemWf s) (die t : Nat) : SomeWf Prod.snd (reserveDivert s die t) := by
  unfold reserveDivert
  split
  · exact someWf_none _
  · exact someWf_map (g := fun _ => s) (someWf_of _ fun _ => h) fun _ _ => h
theorem chooseAbsent_wf (h : MemWf s) (t : Nat) : SomeWf id (chooseAbsent s t) := by
  unfold chooseAbsent
  grind [someWf_some, someWf_none, modTeam_mem, reserveImage_wf, addForward_wf, reserveDivert_wf]
theorem chooseTeam_wf (h : MemWf s) (t : Nat) : SomeWf id (chooseTeam s t) := by
  unfold chooseTeam
  grind [someWf_some, someWf_none, modTeam_mem, giveAccs_wf, addForward_wf, chooseAbsent_wf]
theorem chooseTeams_wf {s : State} (h : MemWf s) (l : List Nat) : SomeWf id (chooseTeams l s) := by
  induction l generalizing s with
  | nil => exact (someWf_some _ _).mpr h
  | cons x l ih => exact someWf_bind_id (chooseTeam_wf h x) fun _ h1 => ih h1
theorem moveRecords_wf (h : MemWf s) (core : Nat) (gid : Nat) : SomeWf id (moveRecords core s gid) := by
  unfold moveRecords
  grind [someWf_some, someWf_none, setCore_mem, toSpill_wf]
theorem moveDeque_wf (core : Nat) {s : State} (h : MemWf s) (l : List Nat) : SomeWf id (moveDeque core l s) := by
  induction l generalizing s with
  | nil => exact (someWf_some _ _).mpr h
  | cons x l ih => exact someWf_bind_id (moveRecords_wf h ..) fun _ h1 => ih h1
theorem rehomeSpill_wf (h : MemWf s) (core : Nat) : MemWf (rehomeSpill s core) := h
theorem takeShadow_wf (h : MemWf s) (sp : Spawned) : SomeWf Prod.snd (takeShadow s sp) := by
  unfold takeShadow
  split
  · exact someWf_none _
  · split
    · exact someWf_none _
    · exact someWf_map (g := fun _ => s) (someWf_of _ fun _ => h) fun _ _ => h
theorem parkThread_wf (h : MemWf s) (core gid pool : Nat) (pc : Addr) (t : Thread) (age : Nat) :
    SomeWf id (parkThread s core gid pool pc t age) := by
  unfold parkThread
  split
  · exact (someWf_some _ _).mpr (wakeCore_wf (fileAged_wf h ..) _)
  · split
    · exact someWf_none _
    · refine someWf_bind (g := Prod.snd) ?_ fun p hp => ?_
      · split
        · exact (someWf_some _ _).mpr h
        · exact takeShadow_wf h _
      · simp only
        split
        · exact someWf_none _
        · split
          · rename_i s1 e
            have h0 : MemWf (takeFreeBytes p.2 1024).2 := by rw [MemWf, takeFreeBytes_mem]; exact hp
            have h1 : MemWf (s1, (none : Option (Nat × Cause × Nat))).1 := e ▸ shadowStore_wf _ _ _ _ h0 _
            exact (someWf_some _ _).mpr h1
          · exact someWf_none _
theorem reserveSpawned_wf (core : Nat) (gids : List Nat) (sim : State) {s : State} (h : MemWf s) :
    SomeWf id (reserveSpawned core gids sim s) := by
  induction gids generalizing sim s with
  | nil => exact (someWf_some _ _).mpr h
  | cons g gids ih =>
    simp only [reserveSpawned]
    split
    · exact ih _ h
    · exact someWf_bind (takeShadow_wf h _) fun _ h1 => ih _ h1
theorem freeReserved_wf (h : MemWf s) (core : Nat) : MemWf (freeReserved s core) := by
  unfold freeReserved
  grind
theorem parkAll_wf (core gid pool : Nat) {s : State} (h : MemWf s) (l : List (Addr × Thread × Nat)) :
    SomeWf id (parkAll core gid pool l s) := by
  induction l generalizing s with
  | nil => exact (someWf_some _ _).mpr h
  | cons x l ih => exact someWf_bind_id (parkThread_wf h ..) fun _ h1 => ih h1
theorem settleUnits_wf (h : MemWf s) (us : List UnitRef) : MemWf (settleUnits s us) := by
  unfold settleUnits
  grind [foldl_wf, drain_wf, askFor_wf]
theorem settleTeam_wf (h : MemWf s) (t : Nat) (us : List UnitRef) : MemWf (settleTeam s t us) := by
  unfold settleTeam
  grind [drainOf_wf, settleUnits_wf]
theorem stopCrew_wf (h : MemWf s) (uid : Nat) : MemWf (stopCrew s uid) := by
  unfold stopCrew
  grind [foldl_wf, modCrew_mem, abortLanes_wf]
theorem stopUnits_wf (h : MemWf s) (t : Nat) (tm : Team) : MemWf (stopUnits s t tm) := by
  unfold stopUnits
  grind [foldl_wf, modAccess_wf, releaseAt_wf, flushTeam_wf, stopCrew_wf]
theorem takeQuarter_wf (h : MemWf s) (t : Nat) (tm : Team) (q : Nat) : MemWf (takeQuarter s t tm q).2 := h
theorem takeQuarters_wf (h : MemWf s) (t : Nat) (tm : Team) : MemWf (takeQuarters s t tm).2 := by
  unfold takeQuarters
  grind [foldl_snd_wf, idleNow_wf, takeQuarter_wf]
theorem putQuarter_wf (h : MemWf s) (t grid core qb : Nat) (x : SavedQuarter) : MemWf (putQuarter t grid core qb s x) := by
  unfold putQuarter
  grind [foldl_wf, setQuarter_mem, fileAged_wf]
theorem settle_wf (h : MemWf s) (t : Nat) (tm : Team) (core qb : Nat) (saved : List SavedQuarter) :
    MemWf (settle s t tm core qb saved) := by
  unfold settle
  grind [foldl_wf, modTeam_mem, putQuarter_wf]
theorem execTeamMove_wf (h : MemWf s) (team : Nat) : NextWf (execTeamMove team s) := by
  simp only [execTeamMove]
  grind [nextWf_next, wakeCore_wf, acquireAt_wf, repoint_wf, settleTeam_wf, stopUnits_wf, takeQuarters_wf, settle_wf]
theorem freeForwards_wf (h : MemWf s) (core : Nat) : MemWf (freeForwards s core) := h
theorem execForwardedRequest_wf (h : MemWf s) (core : Nat) : NextWf (execForwardedRequest core s) := by
  unfold execForwardedRequest
  grind [nextWf_next, modTeam_mem, setCore_mem, setDie_mem, applyReq_wf, queueForward_wf, freeForwards_wf]
theorem imageFault_wf (h : MemWf s) (t : Nat) (tm : Team) (restore : Bool) (f : Nat × Cause × Nat) :
    MemWf (imageFault s t tm restore f) := by
  unfold imageFault
  grind [takeAsync_wf]
theorem imageReady_wf (h : MemWf s) (t : Nat) (tm : Team) : SomeWf Prod.snd (imageReady s t tm) := by
  have place (s1 : State) (h1 : MemWf s1) : SomeWf Prod.snd ((imageOf s1 t).map fun e => (e.1, s1)) :=
    someWf_map (g := fun _ => s1) (someWf_of _ fun _ => h1) fun _ _ => h1
  unfold imageReady
  split
  · split
    · exact (someWf_some _ _).mpr h
    · exact someWf_bind (reserveImage_wf (freeImage_wf h t) t) place
  · exact someWf_bind (reserveImage_wf h t) place
theorem execTeamStop_wf (h : MemWf s) (team : Nat) : NextWf (execTeamStop team s) := by
  rw [execTeamStop, nextWf_next]
  split <;> grind [someWf_some, modTeam_mem, takeFreeBytes_mem, setDie_mem, shadowStore_wf, askFor_wf, repoint_wf, settleTeam_wf,
      stopUnits_wf, takeQuarters_wf, imageFault_wf, imageReady_wf]
theorem imagePut_wf (h : MemWf s) (tm : Team) (off : Nat) (bs : List Byte) (bad : List Bool) : OkWf id (imagePut s tm off bs bad) := by
  unfold imagePut
  grind [okWf_ok, okWf_error, shadowStore_wf]
theorem imageGet_wf (h : MemWf s) (tm : Team) (off n : Nat) : OkWf (fun r => r.2.2) (imageGet s tm off n) := by
  unfold imageGet
  grind [shadowLoad_wf]
theorem divertApply_wf (h : MemWf s) (t : Nat) (tm : Team) (base : Nat) (r : TeamReq) : OkWf id (divertApply s t tm base r) := by
  have image {off n : Nat} {bs : List Byte} {bad : List Bool} {s1 : State}
      (e : imageGet s tm off n = .ok (bs, bad, s1)) : MemWf s1 :=
    (imageGet_wf h ..).wf _ e
  cases r with
  | token crew tok batch err => grind [divertApply, okWf_ok, okWf_error, completeTokenOf_wf]
  | write off bs bad => exact imagePut_wf h ..
  | atom off a tag i =>
    simp only [divertApply]
    split
    · exact okWf_error _ _
    · rename_i e
      split
      · exact (okWf_ok _ _).mpr (answerPiece_wf (image e) ..)
      · exact okWf_map ⟨fun s2 h2 => answerPiece_wf ((imagePut_wf (image e) ..).wf s2 h2) ..⟩
  | bar off bytes err =>
    simp only [divertApply]
    split
    · exact okWf_error _ _
    · rename_i e
      exact imagePut_wf (image e) ..
theorem modDivert_wf (h : MemWf s) (die entry : Nat) (f : Divert → Divert) : MemWf (modDivert s die entry f) := h
theorem execDivertedOperation_wf (h : MemWf s) (die entry : Nat) : NextWf (execDivertedOperation die entry s) := by
  unfold execDivertedOperation
  grind [nextWf_next, okWf_ok, takeAsync_wf, askFor_wf, divertApply_wf, modDivert_wf]
theorem dropRecord_wf (h : MemWf s) (uid : Nat) : MemWf (dropRecord? s uid) := h
theorem failAbsent_wf (h : MemWf s) (t : Nat) : MemWf (failAbsent s t) := by
  unfold failAbsent
  grind [foldl_wf, failCmd_wf, dropRecord_wf]
theorem loadTeam_wf (h : MemWf s) (t : Nat) (tm : Team) (die entry core qb : Nat) : MemWf (loadTeam s t tm die entry core qb) := by
  unfold loadTeam
  grind [okWf_ok, foldl_wf, modTeam_mem, setDie_mem, applyReq_wf, acquireAt_wf, freeImage_wf, shadowLoad_wf, repoint_wf, settle_wf,
      imageFault_wf]
theorem execTeamResume_wf (h : MemWf s) (team : Nat) : NextWf (execTeamResume team s) := by
  unfold execTeamResume
  grind [nextWf_next, modTeam_mem, wakeCore_wf, giveAccs_wf, modDivert_wf, failAbsent_wf, loadTeam_wf]
theorem parkCrew_wf (h : MemWf s) (uid : Nat) (c : Crew) (pool : Nat) : MemWf (parkCrew s uid c pool) := by
  unfold parkCrew
  have h1 := flushLog_wf (releaseAt_wf (stopCrew_wf h uid) c.core .l2) c.core fun r => r.grid == c.grid && r.team == BitVec.allOnes 64
  generalize flushLog _ _ _ = s1 at h1 ⊢
  dsimp only
  split
  · exact h
  · exact someWf_getD (parkAll_wf _ _ _ (idleNow_wf (s := { s1 with crews := tdel s1.crews uid }) h1 _) _) h
theorem moveHeld_wf (h : MemWf s) (uid : Nat) (c : Crew) : MemWf (moveHeld s uid c) := by
  unfold moveHeld
  grind [modCrew_mem, wakeCore_wf, idleNow_wf, releaseAt_wf, flushLog_wf, stopCrew_wf]
theorem parkBins_wf (h : MemWf s) (q : Nat) : MemWf (parkBins s q) := by
  unfold parkBins
  refine foldl_wf (fun s b hs => ?_) h _
  split
  · split
    · exact hs
    · have h0 : MemWf (drainOf s (s.pend.filter fun p => p.pieces.any fun x => b.writers.contains x.path.writer)) := drainOf_wf hs _
      generalize drainOf s _ = s0 at h0 ⊢
      simp only
      split
      · exact h0
      · split
        · exact askLine_wf h0 _
        · refine someWf_getD (parkAll_wf _ _ _ ?_ _) h0
          rw [MemWf, setQuarter_mem]
          exact idleNow_wf (flushLog_wf (releaseAt_wf h0 ..) ..) _
  · exact hs
theorem parkCore_wf (h : MemWf s) (core : Nat) : MemWf (parkCore s core) := by
  simp only [parkCore]
  grind [foldl_wf, freeReserved_wf, settleUnits_wf, parkCrew_wf, moveHeld_wf, parkBins_wf]
theorem execSpawnedThreadResume_wf (h : MemWf s) (ctx : Nat) : NextWf (execSpawnedThreadResume ctx s) := by
  unfold execSpawnedThreadResume
  grind [nextWf_next, modCtx_mem, wakeCore_wf, fileAged_wf]
theorem vacateCore_wf (h : MemWf s) (gid core : Nat) : SomeWf id (vacateCore s gid core) := by
  unfold vacateCore
  extract_lets ts c kept s0 s1 s2
  have h0 : MemWf s0 := by grind [releaseAt_wf]
  have h2 : MemWf s2 := h0
  split
  · exact someWf_none _
  · refine someWf_bind_id (reserveSpawned_wf _ _ _ h2) fun s3 h3 => ?_
    refine someWf_bind_id (chooseTeams_wf h3 _) fun s4 h4 => ?_
    exact someWf_map_id (moveDeque_wf _ h4 _) fun s5 h5 => parkCore_wf (rehomeSpill_wf h5 _) _
theorem bestVictim_wf (h : MemWf s) (waive : Bool) (gid p : Nat) : SomeWf id (bestVictim s waive gid p) :=
  someWf_findSome (fun _ => vacateCore_wf h ..) _
theorem vacateMany_wf {s : State} (h : MemWf s) (gid p n : Nat) : SomeWf id (vacateMany gid p n s) := by
  induction n generalizing s with
  | zero => exact (someWf_some _ _).mpr h
  | succ n ih => exact someWf_bind_id (bestVictim_wf h ..) fun _ h1 => ih h1
theorem execCoreVacate_wf (h : MemWf s) (grid : Nat) : NextWf (execCoreVacate grid s) := by
  rw [execCoreVacate, nextWf_next]
  split
  · exact h
  · extract_lets s1 need
    have h1 : MemWf s1 := foldl_wf (fun s e hs => parkCore_wf hs _) h _
    split
    · exact h1
    · split
      · exact someWf_getD (bestVictim_wf h1 ..) h1
      · exact someWf_getD (vacateMany_wf h1 ..) h1
theorem stopEverything_wf (h : MemWf s) : SomeWf id (stopEverything s) :=
  foldl_bind_wf (fun _ _ h1 => chooseAbsent_wf h1 _) _ ((someWf_some _ _).mpr h)

/-! ### The global scheduler -/

theorem slotRead_wf (h : MemWf s) (ctx va : Nat) : SomeWf Prod.snd (slotRead s ctx va) := by
  unfold slotRead
  grind [okWf_ok, someWf_some, someWf_none, blockRead_wf]
theorem refuseUnread_wf (h : MemWf s) (ctx q va : Nat) : MemWf (refuseUnread s ctx q va) := by
  unfold refuseUnread
  grind [someWf_some, dropLaunch_wf, packetDone_wf]
theorem execLaunchEnqueue_wf (h : MemWf s) (q : Nat) : NextWf (execLaunchEnqueue q s) := by
  rw [execLaunchEnqueue, nextWf_next]
  split <;> grind [someWf_some, modQueue_mem, dropLaunch_wf, packetDone_wf, enqueue_wf, slotRead_wf, refuseUnread_wf]
theorem dropHead_wf (h : MemWf s) (q : Nat) : MemWf (dropHead s q) := h
theorem refuseHead_wf (h : MemWf s) (ctx q : Nat) (p : Packet) (code : Nat) : MemWf (refuseHead s ctx q p code) := by
  unfold refuseHead
  grind [someWf_some, takeUid_mem, domainFor_wf, addRecord_wf, fdomOf_wf, bindDomain_wf, packetDone_wf, dropHead_wf]
theorem pickHandle_wf (h : MemWf s) : MemWf (pickHandle s).2 := h
theorem admitHead_wf (h : MemWf s) (ctx q : Nat) (p : Packet) (b : Bound) : MemWf (admitHead s ctx q p b) := by
  unfold admitHead
  grind [takeUid_mem, gridDone_wf, bindDomain_wf, dropHead_wf, pickHandle_wf]
theorem noteHeads_wf (h : MemWf s) : MemWf (noteHeads s) := by
  unfold noteHeads
  grind [foldl_wf, modQueue_mem]
theorem judgeHeads_wf (h : MemWf s) : ∀ j ∈ judgeHeads s, MemWf j.s := by
  intro j hj
  obtain ⟨e, -, rfl⟩ := List.mem_map.mp hj
  exact verdict_wf h ..
theorem eq_or_mem_of_foldl_choice {α : Type} {f : Option α → α → Option α} (hf : ∀ b a, f b a = b ∨ f b a = some a) {l : List α}
    {b : Option α} {a : α} (h : l.foldl f b = some a) : b = some a ∨ a ∈ l := by
  induction l generalizing b with
  | nil => exact .inl h
  | cons c l ih =>
    rcases ih h with e | hm
    · rcases hf b c with ec | ec
      · exact .inl (ec ▸ e)
      · exact .inr (by grind)
    · exact .inr (List.mem_cons_of_mem _ hm)
theorem bestHead_mem {js : List Judged} {j : Judged} (h : bestHead js = some j) : j ∈ js := by
  unfold bestHead at h
  refine (eq_or_mem_of_foldl_choice (fun b a => ?_) h).resolve_left nofun
  repeat' split
  all_goals simp
theorem execAdmission_wf (h : MemWf s) : NextWf (execAdmission s) := by
  rw [execAdmission, nextWf_next]
  split
  · exact h
  · simp only
    split
    · rename_i j e
      exact refuseHead_wf (judgeHeads_wf h j (List.mem_of_find?_eq_some e)) ..
    · split
      · exact noteHeads_wf h
      · rename_i j e
        split
        · exact admitHead_wf (judgeHeads_wf h j (bestHead_mem e)) ..
        · exact noteHeads_wf h
theorem execPrereqPoll_wf (h : MemWf s) : NextWf (execPrereqPoll s) := by
  unfold execPrereqPoll
  grind [nextWf_next, foldl_wf, preRead_wf, verdict_wf, refuseHead_wf]
theorem makeCrews_wf (gid t : Nat) (g : Grid) (idx core qb : Nat) (l : List Nat) {s : State} (h : MemWf s) :
    MemWf (makeCrews gid t g idx core qb l s) := by
  induction l generalizing s with
  | nil => exact h
  | cons n l ih => exact ih h
theorem startTeam_wf (h : MemWf s) (gid core qb : Nat) : MemWf (startTeam s gid core qb) := by
  unfold startTeam
  split
  · exact h
  · refine acquireAt_wf ?_ ..
    rw [MemWf, modGrid_mem]
    refine giveAccs_wf (makeCrews_wf _ _ _ _ _ _ _ ?_) ..
    exact wakeCore_wf h core
theorem startTeams_wf (gid : Nat) (l : List (Nat × Nat)) {s : State} (h : MemWf s) : MemWf (startTeams gid l s) := by
  induction l generalizing s with
  | nil => exact h
  | cons e l ih => exact ih (startTeam_wf h ..)
theorem queueEnds_wf (h : MemWf s) (d : Domain) : SomeWf (fun r => r.2.2) (queueEnds s d) := by
  unfold queueEnds
  grind [okWf_ok, someWf_some, someWf_none, blockRead_wf]
theorem execTeamPlace_wf (h : MemWf s) (grid : Nat) : NextWf (execTeamPlace grid s) := by
  unfold execTeamPlace
  grind [nextWf_next, gridDone_wf, startTeams_wf]
theorem releaseTeam_wf (h : MemWf s) (t : Nat) : MemWf (releaseTeam s t) := h
theorem execTeamComplete_wf (h : MemWf s) (team : Nat) : NextWf (execTeamComplete team s) := by
  unfold execTeamComplete
  grind [nextWf_next, modGrid_mem, idleNow_wf, releaseAt_wf, flushTeam_wf, freeImage_wf, askLine_wf, releaseTeam_wf]
theorem execGridComplete_wf (h : MemWf s) (grid : Nat) : NextWf (execGridComplete grid s) := by
  unfold execGridComplete
  grind [nextWf_next, foldl_wf, releaseAt_wf, gridDone_wf, askLine_wf]
theorem handlerCode_wf (h : MemWf s) (d : Domain) : SomeWf (fun r => r.2.2.2) (handlerCode s d) := by
  unfold handlerCode
  grind [okWf_ok, someWf_some, someWf_none, segmentRead_wf, kernelRead_wf]
theorem execHandlerStart_wf (h : MemWf s) (dom : Nat) : NextWf (execHandlerStart dom s) := by
  rw [execHandlerStart, nextWf_next]
  split <;> grind [someWf_some, modDomain_mem, takeUid_mem, pickHandle_wf, startTeams_wf, queueEnds_wf, handlerCode_wf]
theorem writeSlots_wf (d : Domain) (tail : W32) (bs : List Byte) (l : List Nat) {s : State} (h : MemWf s) :
    SomeWf id (writeSlots d tail bs l s) := by
  induction l generalizing s with
  | nil => exact (someWf_some _ _).mpr h
  | cons i l ih =>
    simp only [writeSlots]
    split
    · exact someWf_none _
    · rename_i s1 e
      exact ih ((blockWrite_wf h ..).wf s1 e)
theorem execFaultRecordWrite_wf (h : MemWf s) (dom : Nat) : NextWf (execFaultRecordWrite dom s) := by
  simp only [execFaultRecordWrite]
  repeat' split
  all_goals grind [nextWf_next, okWf_ok, someWf_some, modDomain_mem, blockWrite_wf, raiseMsix_mem, queueEnds_wf, writeSlots_wf]

/-! ### Power states and the start -/

theorem mapDies_wf (h : MemWf s) (f : DiePower → DiePower) : MemWf (mapDies s f) := h
theorem execPowerSample_wf (h : MemWf s) (watts milliwatts : Nat) (hot below95 : Bool) :
    NextWf (execPowerSample watts milliwatts hot below95 s) := by
  simp only [execPowerSample]
  repeat' split
  all_goals grind [nextWf_next, mapDies_wf]
theorem execCoreGate_wf (h : MemWf s) (core : Nat) : NextWf (execCoreGate core s) := by
  unfold execCoreGate
  grind [nextWf_next, setCore_mem]
theorem execCoreWake_wf (h : MemWf s) (core : Nat) : NextWf (execCoreWake core s) := by
  unfold execCoreWake
  grind [nextWf_next, wakeCore_wf]
theorem execDieRetention_wf (h : MemWf s) (die : Nat) : NextWf (execDieRetention die s) := by
  unfold execDieRetention
  grind [nextWf_next, setDie_mem]
theorem execDieWake_wf (h : MemWf s) (die : Nat) : NextWf (execDieWake die s) := by
  unfold execDieWake
  grind [nextWf_next, setDie_mem]
theorem beginS3_wf (h : MemWf s) : SomeWf id (beginS3 s) :=
  someWf_bind_id (stopEverything_wf (s := { s with package := .toS3 }) h) fun _ h1 =>
    foldl_bind_wf (fun _ _ h2 => moveDeque_wf _ h2 _) _ ((someWf_some _ _).mpr h1)
theorem drainCaches_wf (h : MemWf s) : MemWf (drainCaches s) := by
  unfold drainCaches
  grind [foldl_wf, backCluster_wf, backL1_wf]
theorem entered_wf (h : MemWf s) : MemWf (if allStopped s then reply { drainCaches s with package := .s3 } true else s) := by
  split
  · exact reply_wf (s := { drainCaches s with package := .s3 }) (drainCaches_wf h) true
  · exact h
theorem execS3Entry_wf (h : MemWf s) : NextWf (execS3Entry s) := by
  have parked (cores : List Nat) {s : State} (h : MemWf s) : MemWf (cores.foldl parkCore s) :=
    foldl_wf (fun s e hs => parkCore_wf hs e) h _
  unfold execS3Entry
  rw [nextWf_next]
  generalize List.range 128 = cores
  cases s.package with
  | on =>
    have h1 := beginS3_wf h
    generalize beginS3 s = begun at h1 ⊢
    cases running s with
    | false => exact h
    | true => cases begun with
      | none => exact reply_wf h false
      | some s1 => exact parked cores (h1.wf s1 rfl)
  | toS3 => exact entered_wf (parked cores (someWf_getD (stopEverything_wf h) h))
  | s3 => exact h
  | off => exact h
theorem execS3Exit_wf (h : MemWf s) : NextWf (execS3Exit s) := by
  unfold execS3Exit
  grind [nextWf_next, reply_wf]
theorem reset_memWf : MemWf State.reset := rfl
theorem beginStart_wf (s : State) : MemWf (beginStart s) := by
  unfold beginStart
  dsimp only
  split
  · refine noteDebug_wf ?_ ..
    exact reset_memWf
  · exact reset_memWf
theorem execPowerLoss_wf (s : State) : NextWf (execPowerLoss s) := (nextWf_next _).mpr reset_memWf
theorem execColdStart_wf (h : MemWf s) : NextWf (execColdStart s) := by
  unfold execColdStart
  grind [nextWf_next, beginStart_wf]
theorem execNewStartRequest_wf (h : MemWf s) : NextWf (execNewStartRequest s) := by
  unfold execNewStartRequest
  grind [nextWf_next, reply_wf, beginStart_wf]
theorem mapOut_wf (h : MemWf s) (n : Nat) (o : StepOutcome) : MemWf (mapOut s n o) := by
  unfold mapOut
  grind
theorem stepDone_wf (h : MemWf s) (n path : Nat) : MemWf (stepDone s n path) := by
  unfold stepDone
  extract_lets s1
  have h1 : MemWf s1 := foldl_wf (fun s e hs => extendMr_wf hs ..) h _
  split
  · exact rfl
  · exact h1
  · exact extendMr_wf (extendMr_wf h1 ..) ..
  · exact h1
  · exact h1
  · exact h1
  · exact h1
theorem setEntries_wf (h : MemWf s) (es : List StartEntry) : MemWf (setEntries s es) := h
theorem setEntry_wf (h : MemWf s) (n : Nat) (e : StartEntry) : MemWf (setEntry s n e) := h
theorem freshRecord_wf (h : MemWf s) : MemWf (freshRecord s) := h
theorem nextStep_wf (h : MemWf s) (n : Nat) : MemWf (nextStep s n) := h
theorem attemptStep_wf (h : MemWf s) (n : Nat) (e : StartEntry) (o : StepOutcome) : MemWf (attemptStep s n e o) := by
  unfold attemptStep
  grind [mapOut_wf, stepDone_wf, setEntry_wf, freshRecord_wf, nextStep_wf]
theorem execStartStep_wf (h : MemWf s) (o : StepOutcome) : NextWf (execStartStep o s) := by
  unfold execStartStep
  grind [nextWf_next, attemptStep_wf]
theorem execStepTimeout_wf (h : MemWf s) : NextWf (execStepTimeout s) := by
  unfold execStepTimeout
  grind [nextWf_next, attemptStep_wf]

end Sys2Proof.Laws
end

section
/-! SUPPORT and the obligation: the dispatch, the fetch and the step keep the canonical form of memory. -/

namespace Sys2Proof.Laws

open Sys2Proof Sys2Proof.Machine

variable {s : State}

/-- Every instruction and every event keeps the canonical form, arm by arm of the dispatch. -/
theorem exec_wf (h : MemWf s) (i : Instr) : NextWf (exec i s) := by
  cases i with
  | iadd | iaddImm | isub | isubImm | imul | imulImm | imulh | imulhImm | imad | imin | iminImm | imax | imaxImm | iabs |
    ineg | ltab | shl | shlImm | shr | shrImm | sar | sarImm | rot | rotImm | fshf | popc | clz | brev | bfx | bfi | movi |
    cvti | fmin | fminImm | fmax | fmaxImm | frnd | hmin2 | hmin2Imm | hmax2 | hmax2Imm | hset2 | hset2Imm =>
    exact (nextWf_next _).mpr (aluV_wf h ..)
  | iaddc | iaddcImm =>
    exact (nextWf_next _).mpr (iaddc_wf h ..)
  | imadw | lea | iadd64 | iadd64Imm | moviB64 =>
    exact (nextWf_next _).mpr (aluW_wf h ..)
  | iset | isetImm | ptab | fset | fsetImm | fclass | fclassImm =>
    exact (nextWf_next _).mpr (aluP_wf h ..)
  | bra | braHint =>
    exact (nextWf_next _).mpr (branch_wf h ..)
  | call | callHint =>
    exact (nextWf_next _).mpr (callTo_wf h ..)
  | fadd | faddImm | fmul | fmulImm | ffma | hadd2 | hadd2Imm | hmul2 | hmul2Imm | hfma2 =>
    exact (nextWf_next _).mpr (floatV_wf h ..)
  | rcp | rsq | sqrt | exp2 | log2 | fsin | fcos | tanh | fdiv =>
    exact (nextWf_next _).mpr (floatLate_wf h ..)
  | ld | lds | ldc =>
    exact (nextWf_next _).mpr (loadInstr_wf h ..)
  | st | sts | stc =>
    exact (nextWf_next _).mpr (storeInstr_wf h ..)
  | tretRetry | tretNext | tretError | tretEnd =>
    exact (nextWf_next _).mpr (tret_wf h ..)
  | contextOpen =>
    exact (nextWf_next _).mpr (request_wf (openContext_wf h ..) h)
  | ownerRevoke =>
    exact (nextWf_next _).mpr (request_wf (someWf_map_id (ctxOwnerAsks_wf h ..) fun _ h1 => endDebug_wf h1 _) h)
  | idiv => exact execIdiv_wf h ..
  | idivImm => exact execIdivImm_wf h ..
  | irem => exact execIrem_wf h ..
  | iremImm => exact execIremImm_wf h ..
  | mov => exact execMov_wf h ..
  | movk => exact execMovk_wf h ..
  | sel => exact execSel_wf h ..
  | rdsp => exact execRdsp_wf h ..
  | brx => exact execBrx_wf h ..
  | callx => exact execCallx_wf h ..
  | ret => exact execRet_wf h ..
  | exit => exact execExit_wf h ..
  | enrol => exact execEnrol_wf h ..
  | join => exact execJoin_wf h ..
  | reform => exact execReform_wf h ..
  | yield => exact execYield_wf h ..
  | nop => exact execNop_wf h ..
  | replay => exact execReplay_wf h ..
  | shfl => exact execShfl_wf h ..
  | vote => exact execVote_wf h ..
  | redc => exact execRedc_wf h ..
  | scan => exact execScan_wf h ..
  | matchLanes => exact execMatchLanes_wf h ..
  | fcvt => exact execFcvt_wf h ..
  | fcvtp => exact execFcvtp_wf h ..
  | fence => exact execFence_wf h ..
  | cctl => exact execCctl_wf h ..
  | icinv => exact execIcinv_wf h ..
  | pref => exact execPref_wf h ..
  | atom => exact execAtom_wf h ..
  | atomcas => exact execAtomcas_wf h ..
  | atoms => exact execAtoms_wf h ..
  | red => exact execRed_wf h ..
  | astream => exact execAstream_wf h ..
  | opush => exact execOpush_wf h ..
  | opop => exact execOpop_wf h ..
  | gather => exact execGather_wf h ..
  | scatter => exact execScatter_wf h ..
  | cpy => exact execCpy_wf h ..
  | cpy2g => exact execCpy2g_wf h ..
  | cpyt => exact execCpyt_wf h ..
  | cpyr => exact execCpyr_wf h ..
  | close => exact execClose_wf h ..
  | waitb => exact execWaitb_wf h ..
  | barinit => exact execBarinit_wf h ..
  | bararv => exact execBararv_wf h ..
  | barexp => exact execBarexp_wf h ..
  | barwait => exact execBarwait_wf h ..
  | bartest => exact execBartest_wf h ..
  | fred => exact execFred_wf h ..
  | txopen => exact execTxopen_wf h ..
  | txcommit => exact execTxcommit_wf h ..
  | txquit => exact execTxquit_wf h ..
  | txstat => exact execTxstat_wf h ..
  | spopen => exact execSpopen_wf h ..
  | spcommit => exact execSpcommit_wf h ..
  | mzero => exact execMzero_wf h ..
  | mld => exact execMld_wf h ..
  | mst => exact execMst_wf h ..
  | mma => exact execMma_wf h ..
  | mloop => exact execMloop_wf h ..
  | mconv => exact execMconv_wf h ..
  | mmas => exact execMmas_wf h ..
  | mcomp => exact execMcomp_wf h ..
  | mqnt => exact execMqnt_wf h ..
  | mstat => exact execMstat_wf h ..
  | fsetm => exact execFsetm_wf h ..
  | sbind => exact execSbind_wf h ..
  | sunbind => exact execSunbind_wf h ..
  | ginv => exact execGinv_wf h ..
  | chain => exact execChain_wf h ..
  | sstat => exact execSstat_wf h ..
  | pdec => exact execPdec_wf h ..
  | launch => exact execLaunch_wf h ..
  | spawn => exact execSpawn_wf h ..
  | wpop => exact execWpop_wf h ..
  | wsteal => exact execWsteal_wf h ..
  | sysr => exact execSysr_wf h ..
  | sysw => exact execSysw_wf h ..
  | trap => exact execTrap_wf h ..
  | bkpt => exact execBkpt_wf h ..
  | mboxSend => exact execMboxSend_wf h ..
  | mboxRecv => exact execMboxRecv_wf h ..
  | attest => exact execAttest_wf h ..
  | joinRelease => exact execJoinRelease_wf h ..
  | binAgeLimit => exact execBinAgeLimit_wf h ..
  | recordFile => exact execRecordFile_wf h ..
  | issueSelect => exact execIssueSelect_wf h ..
  | readyAgeRaise => exact execReadyAgeRaise_wf h ..
  | playQuotaExpire => exact execPlayQuotaExpire_wf h ..
  | commandAccept => exact execCommandAccept_wf h ..
  | commandComplete => exact execCommandComplete_wf h ..
  | engineFault => exact execEngineFault_wf h ..
  | astreamPush => exact execAstreamPush_wf h ..
  | fredGroupClose => exact execFredGroupClose_wf h ..
  | barwaitRelease => exact execBarwaitRelease_wf h ..
  | tokenWaitRelease => exact execTokenWaitRelease_wf h ..
  | opopFill => exact execOpopFill_wf h ..
  | accumulatorRelease => exact execAccumulatorRelease_wf h ..
  | sequencerStep => exact execSequencerStep_wf h ..
  | txBackoffExpire => exact execTxBackoffExpire_wf h ..
  | txPeriodicValidate => exact execTxPeriodicValidate_wf h ..
  | commitTokenGrant => exact execCommitTokenGrant_wf h ..
  | serialCommitGrant => exact execSerialCommitGrant_wf h ..
  | specIterationGrant => exact execSpecIterationGrant_wf h ..
  | lineMigrate => exact execLineMigrate_wf h ..
  | rcDrop => exact execRcDrop_wf h ..
  | persistentRequest => exact execPersistentRequest_wf h ..
  | trackingUnitMerge => exact execTrackingUnitMerge_wf h ..
  | windowReadTransform => exact execWindowReadTransform_wf h ..
  | windowWriteTransform => exact execWindowWriteTransform_wf h ..
  | decodeJobStart => exact execDecodeJobStart_wf h ..
  | decodeJobComplete => exact execDecodeJobComplete_wf h ..
  | aelogRecordWrite => exact execAelogRecordWrite_wf h ..
  | waitsForProbe => exact execWaitsForProbe_wf h ..
  | doorbell => exact execDoorbell_wf h ..
  | queueStatusWrite => exact execQueueStatusWrite_wf h ..
  | launchEnqueue => exact execLaunchEnqueue_wf h ..
  | admission => exact execAdmission_wf h ..
  | prereqPoll => exact execPrereqPoll_wf h ..
  | teamPlace => exact execTeamPlace_wf h ..
  | teamComplete => exact execTeamComplete_wf h ..
  | gridComplete => exact execGridComplete_wf h ..
  | spillReturn => exact execSpillReturn_wf h ..
  | steal => exact execSteal_wf h ..
  | coreVacate => exact execCoreVacate_wf h ..
  | teamStop => exact execTeamStop_wf h ..
  | teamMove => exact execTeamMove_wf h ..
  | forwardedRequest => exact execForwardedRequest_wf h ..
  | divertedOperation => exact execDivertedOperation_wf h ..
  | teamResume => exact execTeamResume_wf h ..
  | spawnedThreadResume => exact execSpawnedThreadResume_wf h ..
  | handlerStart => exact execHandlerStart_wf h ..
  | faultRecordWrite => exact execFaultRecordWrite_wf h ..
  | contextClose => exact execContextClose_wf h ..
  | map => exact execMap_wf h ..
  | unmap ctx va remap auth => exact execUnmap_wf h ctx va remap auth
  | queueSetup => exact execQueueSetup_wf h ..
  | aperturePlacement => exact execAperturePlacement_wf h ..
  | contextControlWrite => exact execContextControlWrite_wf h ..
  | s3Entry => exact execS3Entry_wf h ..
  | newStartRequest => exact execNewStartRequest_wf h ..
  | attestService => exact execAttestService_wf h ..
  | apertureAccess => exact execApertureAccess_wf h ..
  | peerAccessIn => exact execPeerAccessIn_wf h ..
  | powerSample => exact execPowerSample_wf h ..
  | coreGate => exact execCoreGate_wf h ..
  | coreWake => exact execCoreWake_wf h ..
  | coldStart => exact execColdStart_wf h ..
  | startStep => exact execStartStep_wf h ..
  | patrolScrub => exact execPatrolScrub_wf h ..
  | variableLatencyResult => exact execVariableLatencyResult_wf h ..
  | windowWriteAcknowledged => exact execWindowWriteAcknowledged_wf h ..
  | pairing => exact execPairing_wf h ..
  | securityStateRequest => exact execSecurityStateRequest_wf h ..
  | debugLevelRequest => exact execDebugLevelRequest_wf h ..
  | fusedMinimumRaise => exact execFusedMinimumRaise_wf h ..
  | ownerOpen => exact execOwnerOpen_wf h ..
  | ownerSeal => exact execOwnerSeal_wf h ..
  | ownerChange => exact execOwnerChange_wf h ..
  | ownerChallenge => exact execOwnerChallenge_wf h ..
  | ownerClaim => exact execOwnerClaim_wf h ..
  | consentToken => exact execConsentToken_wf h ..
  | repairToken => exact execRepairToken_wf h ..
  | ideKeySet => exact execIdeKeySet_wf h ..
  | debugMailboxHostWrite => exact execDebugMailboxHostWrite_wf h ..
  | hostWriteDropped => exact execHostWriteDropped_wf h ..
  | sramScrub => exact execSramScrub_wf h ..
  | flitReplay => exact execFlitReplay_wf h ..
  | linkRetrain => exact execLinkRetrain_wf h ..
  | scopeCacheEviction => exact execScopeCacheEviction_wf h ..
  | peerWriteDropped => exact execPeerWriteDropped_wf h ..
  | powerLoss => exact execPowerLoss_wf ..
  | dieRetention => exact execDieRetention_wf h ..
  | dieWake => exact execDieWake_wf h ..
  | s3Exit => exact execS3Exit_wf h ..
  | stepTimeout => exact execStepTimeout_wf h ..

/-- The state in what the selected unit does next has the canonical form of memory. -/
def FetchNextWf : Next → Prop
  | .idle s | .instr _ s | .fault s => MemWf s

theorem fetchNext_wf (h : MemWf s) (u : UnitRef) : FetchNextWf (fetchNext s u) := by
  unfold fetchNext
  split
  · exact h
  · split
    · exact h
    · rename_i g _
      split
      · exact h
      · have hf := fetchFrom_wf h u 4096 g.pc.toNat
        split
        · rename_i e
          rw [e] at hf
          exact setPc_wf hf ..
        · exact faultUnit_wf h ..

theorem step_wf (h : MemWf s) : NextWf (step s) := by
  unfold step
  split
  · rename_i u _
    have hf := fetchNext_wf h u
    split
    · rename_i e
      rw [e] at hf
      exact (nextWf_next _).mpr hf
    · rename_i e
      rw [e] at hf
      exact (nextWf_next _).mpr hf
    · rename_i e
      rw [e] at hf
      exact exec_wf hf _
  · split
    · rename_i r _
      exact exec_wf (s := { s with agenda := r }) h _
    · split
      · exact exec_wf h _
      · exact (nextWf_next _).mpr h

/-- Settles O60: the form is kept by each function that an instruction, an event or the fetch is made of, so by the step. -/
theorem memoryStaysCanonical : Obligations.MemoryStaysCanonical := by
  unfold Obligations.MemoryStaysCanonical
  intro s t hs e
  exact (step_wf hs).wf t e

end Sys2Proof.Laws
end

section
/-! SUPPORT and the obligation: system registers read as they were written (R45 to R47, R335, R407, R408). -/

namespace Sys2Proof.Laws

open Sys2Proof Sys2Proof.Machine Sys2Proof.Safety

/-! ### Words, list elements and context control registers -/

@[simp] theorem lo32_pair64 (lo hi : W32) : lo32 (pair64 lo hi) = lo := by
  unfold lo32 pair64
  exact BitVec.setWidth_append_eq_right
@[simp] theorem hi32_pair64 (lo hi : W32) : hi32 (pair64 lo hi) = hi := by
  unfold hi32 pair64
  exact BitVec.setWidth_ushiftRight_eq_extractLsb.trans BitVec.extractLsb'_append_eq_left
@[simp] theorem halfWord_withWord (x : W64) (hi : Bool) (v : W32) : halfWord (withWord x hi v) hi = v := by
  cases hi <;> simp [halfWord, withWord]

/-- Seven bits of a word are the word under a mask. -/
theorem setWidth_setWidth_seven (v : W32) : (v.setWidth 7).setWidth 32 = v &&& 0x7F := by
  have e : v.toNat &&& (0x7F : W32).toNat = v.toNat % 2 ^ 7 := Nat.and_two_pow_sub_one_eq_mod v.toNat 7
  apply BitVec.eq_of_toNat_eq
  rw [BitVec.toNat_and, e, BitVec.toNat_setWidth, BitVec.toNat_setWidth]
  omega

theorem lset_getD_self {α : Type} {l : List α} {n : Nat} (h : n < l.length) (v d : α) : (lset l n v).getD n d = v := by
  rw [List.getD_eq_getElem?_getD, lset_get?, if_pos ⟨rfl, h⟩, Option.getD_some]

theorem ctlRead_ctlWrite_self (r : CtlRegs) (n : Nat) (v : W32) : ctlRead (ctlWrite r n v) n =
    if n = 0 then v &&& 3 else if n = 1 then v &&& 0x1FE else if n = 2 then v &&& 0xFFF else
    if n ∈ [3, 0x10, 0x11, 0x12, 0x13, 0x14, 0x15, 0x16, 0x17, 0x18, 0x19] then v else 0 := by
  unfold ctlWrite
  split
  case h_15 => simp_all [ctlRead]
  all_goals rfl
theorem ctlRead_ctlWrite_ne (r : CtlRegs) {n k : Nat} (v : W32) (h : n ≠ k) : ctlRead (ctlWrite r n v) k = ctlRead r k := by
  unfold ctlWrite
  split
  case h_15 => rfl
  all_goals
    unfold ctlRead
    split <;> simp_all

/-! ## The window of saved state (R408) -/

section Window
variable {s : State} {ctx lane tile idx : Nat} {sub : Subject} {b : Body}

/-! ### What each class of the window reads

In the names: `g` the registers of a lane, `k` the crew-uniform registers, `p` the predicates, `gen` the generator, `j` the rejoin masks, `f` the
tile masks, `a` the registers of an access thread, `acc` the elements of an accumulator. -/

theorem savedRead_state (hb : bodyOf s sub.unit = some b) : savedRead s ctx sub lane tile 0x203 =
    BitVec.ofNat 32 (1 + (if sub.record.isSome then 2 else 0) + (if sub.stopped then 4 else 0) + (if b.isAp then 8 else 0)) := by
  simp only [savedRead, hb, if_pos]
theorem savedRead_g (hb : bodyOf s sub.unit = some b) (h : 0x280 ≤ idx ∧ idx < 0x340) :
    savedRead s ctx sub lane tile idx = b.ofLane lane fun t => t.g.getD (idx - 0x280) 0 := by
  simp (disch := omega) only [savedRead, hb, if_pos, if_neg]
theorem savedRead_k (hb : bodyOf s sub.unit = some b) (h : 0x340 ≤ idx ∧ idx < 0x370) :
    savedRead s ctx sub lane tile idx = b.ofCrew fun c => c.k.getD (idx - 0x340) 0 := by
  simp (disch := omega) only [savedRead, hb, if_pos, if_neg]
theorem savedRead_p (hb : bodyOf s sub.unit = some b) (h : idx = 0x370) :
    savedRead s ctx sub lane tile idx = b.ofLane lane fun t => t.p.setWidth 32 := by
  simp (disch := omega) only [savedRead, hb, if_pos, if_neg]
theorem savedRead_accessEntry {a : Machine.Access} (hb : bodyOf s sub.unit = some (.ap a)) (h : idx = 0x373 ∨ idx = 0x374) :
    savedRead s ctx sub lane tile idx = halfWord a.entry (idx == 0x374) := by
  simp (disch := omega) only [savedRead, hb, if_pos, if_neg]
theorem savedRead_entry {c : Crew} (hb : bodyOf s sub.unit = some (.crew c)) (h : idx = 0x373 ∨ idx = 0x374) :
    savedRead s ctx sub lane tile idx = (Body.crew c).ofLane lane fun t => halfWord t.entry (idx == 0x374) := by
  simp (disch := omega) only [savedRead, hb, if_pos, if_neg]
theorem savedRead_gen (hb : bodyOf s sub.unit = some b) (h : idx = 0x376) :
    savedRead s ctx sub lane tile idx = b.ofLane lane fun t => t.gen := by
  simp (disch := omega) only [savedRead, hb, if_pos, if_neg]
theorem savedRead_j (hb : bodyOf s sub.unit = some b) (h : 0x378 ≤ idx ∧ idx < 0x388) : savedRead s ctx sub lane tile idx =
    b.ofCrew fun c => halfWord (c.j.getD ((idx - 0x378) / 2) 0) ((idx - 0x378) % 2 == 1) := by
  simp (disch := omega) only [savedRead, hb, if_pos, if_neg]
theorem savedRead_f (hb : bodyOf s sub.unit = some b) (h : 0x388 ≤ idx ∧ idx < 0x398) : savedRead s ctx sub lane tile idx =
    b.ofCrew fun c => halfWord (c.f.getD ((idx - 0x388) / 2) 0) ((idx - 0x388) % 2 == 1) := by
  simp (disch := omega) only [savedRead, hb, if_pos, if_neg]
theorem savedRead_a {a : Machine.Access} (hb : bodyOf s sub.unit = some (.ap a)) (h : 0x3C0 ≤ idx ∧ idx < 0x400) :
    savedRead s ctx sub lane tile idx = halfWord (a.a.getD ((idx - 0x3C0) / 2) 0) ((idx - 0x3C0) % 2 == 1) := by
  simp (disch := omega) only [savedRead, hb, if_pos, if_neg]
theorem savedRead_acc {a : Machine.Acc} (hb : bodyOf s sub.unit = some b) (ha : (subjAccs s sub.unit).1[tile]? = some a)
    (h : 0x400 ≤ idx ∧ idx < 0x500) : savedRead s ctx sub lane tile idx = a.read ((idx - 0x400) / 16) ((idx - 0x400) % 16) := by
  simp (disch := omega) only [savedRead, hb, ha, if_pos, if_neg]

/-! ### What a change of the subject leaves in it -/

theorem bodyOf_modSubCrew {u : UnitRef} {uid low : Nat} {c : Crew} (hu : u = .crew uid low) (hc : tget s.crews uid = some c)
    (f : Crew → Crew) : bodyOf (modSubCrew s u f) u = some (.crew (f c)) := by
  subst hu
  simp [bodyOf, modSubCrew, modCrew, hc]
theorem bodyOf_modLane {u : UnitRef} {uid low : Nat} {c : Crew} {th : Thread} (hu : u = .crew uid low) (hc : tget s.crews uid = some c)
    (hl : c.lanes[lane]? = some (some th)) (f : Thread → Thread) :
    bodyOf (modLane s u lane f) u = some (.crew { c with lanes := lset c.lanes lane (some (f th)) }) := by
  subst hu
  simp [bodyOf, modLane, modCrew, hc, hl]
theorem bodyOf_modAccess {k : Nat} {a : Machine.Access} (hb : bodyOf s (.access k) = some (.ap a)) (f : Machine.Access → Machine.Access) :
    bodyOf (modAccess s k f) (.access k) = some (.ap (f a)) := by
  simp only [bodyOf] at hb
  split at hb
  · rename_i tm htm
    split at hb
    · rename_i ac hac
      simp_all [bodyOf, modAccess, modTeam]
    · cases hb
  · cases hb
theorem ofLane_lset {c : Crew} {th : Thread} (hl : c.lanes[lane]? = some (some th)) (t : Thread) (g : Thread → W32) :
    (Body.crew { c with lanes := lset c.lanes lane (some t) }).ofLane lane g = g t := by
  have hlt : lane < c.lanes.length := (List.getElem?_eq_some_iff.mp hl).1
  simp only [Body.ofLane, subjThread, lset_getD_self hlt]

/-! ### Accumulators -/

theorem bodyOf_modTeam (s : State) (t : Nat) {f : Team → Team} (hf : ∀ tm, (f tm).access = tm.access) (u : UnitRef) :
    bodyOf (modTeam s t f) u = bodyOf s u := by
  cases u with
  | crew uid low => rfl
  | access k =>
    simp only [bodyOf, modTeam, tget_tmod]
    by_cases hk : k = t
    · cases tget s.teams k with
      | none => simp
      | some tm => simp [hk, hf]
    · rw [if_neg hk]
theorem bodyOf_modSubAcc (s : State) (u : UnitRef) (m : Nat) (f : Acc → Acc) (v : UnitRef) :
    bodyOf (modSubAcc s u m f) v = bodyOf s v := by
  unfold modSubAcc
  split
  · rw [bodyOf_modTeam]
    exact fun _ => rfl
  · split
    · rfl
    · split
      · cases v <;> rfl
      · rfl

theorem savedQuarter_eq_some_iff {u : UnitRef} {i : Nat} {x : SavedQuarter} : savedQuarter s u = some (i, x) ↔
    teamStopped s u = true ∧ ∃ t c tm, teamOf s u = some t ∧ bodyOf s u = some (.crew c) ∧ tget s.teams t = some tm ∧
      tm.saved.findIdx? (fun x => x.rel == (c.quarter + 4 - tm.qb) % 4) = some i ∧ tm.saved[i]? = some x := by
  unfold savedQuarter
  split
  · rename_i t c ht hb
    cases teamStopped s u with
    | false => simp
    | true => cases h : tget s.teams t <;> simp [ht, hb, h, Option.bind_eq_some_iff]
  · rename_i h
    simp only [reduceCtorEq, false_iff]
    rintro ⟨-, t, c, tm, ht, hb, -⟩
    exact h t c ht hb
theorem teamStopped_modTeam (s : State) (t : Nat) {f : Team → Team} (hf : ∀ tm, (f tm).place = tm.place) (u : UnitRef) :
    teamStopped (modTeam s t f) u = teamStopped s u := by
  have ht : teamOf (modTeam s t f) u = teamOf s u := by cases u <;> rfl
  unfold teamStopped
  rw [ht]
  split
  · rename_i k _
    simp only [modTeam, tget_tmod]
    by_cases hk : k = t
    · cases tget s.teams k with
      | none => simp
      | some tm => simp [hk, hf]
    · rw [if_neg hk]
  · rfl

/-- A kept quarter with one of its accumulators changed. -/
def modKeptAcc (x : SavedQuarter) (m : Nat) (f : Acc → Acc) : SavedQuarter :=
  { x with accs := x.accs.mapIdx fun n a => if n = m then f a else a }

/-- The place of a kept quarter rests on the relative quarters alone, which a change of an accumulator leaves. -/
theorem findIdx?_rel (l : List SavedQuarter) (k : Nat) :
    l.findIdx? (fun x => x.rel == k) = (l.map SavedQuarter.rel).findIdx? (· == k) := by
  rw [List.findIdx?_map]
  rfl
theorem map_rel_mapIdx {g : Nat → SavedQuarter → SavedQuarter} (hg : ∀ i x, (g i x).rel = x.rel) (l : List SavedQuarter) :
    (l.mapIdx g).map SavedQuarter.rel = l.map SavedQuarter.rel := by
  refine List.ext_getElem? fun i => ?_
  cases h : l[i]? <;> simp [h, hg]

/-- A team with one accumulator of one of its kept quarters changed. -/
def modKept (tm : Team) (i m : Nat) (f : Machine.Acc → Machine.Acc) : Team :=
  { tm with saved := tm.saved.mapIdx fun j x => if j = i then modKeptAcc x m f else x }

theorem savedQuarter_modSubAcc {u : UnitRef} {i m : Nat} {x : SavedQuarter} (h : savedQuarter s u = some (i, x)) (f : Acc → Acc) :
    savedQuarter (modSubAcc s u m f) u = some (i, modKeptAcc x m f) := by
  obtain ⟨hst, t, c, tm, ht, hb, htm, hi, hx⟩ := savedQuarter_eq_some_iff.mp h
  have e : modSubAcc s u m f = modTeam s t fun tm => modKept tm i m f := by
    simp only [modSubAcc, h, ht]
    rfl
  refine savedQuarter_eq_some_iff.mpr ⟨?_, t, c, modKept tm i m f, ?_, ?_, ?_, ?_, ?_⟩
  · rw [e, teamStopped_modTeam, hst]
    exact fun _ => rfl
  · rw [← ht, e]
    cases u <;> rfl
  · rw [bodyOf_modSubAcc, hb]
  · simp [e, modTeam, htm]
  · rw [← hi, findIdx?_rel, findIdx?_rel, modKept, map_rel_mapIdx]
    intro j x
    split <;> rfl
  · simp [modKept, hx]
theorem subjAccs_of_quarter {u : UnitRef} {q : Nat} (hs : savedQuarter s u = none) (hq : (bodyOf s u).bind Body.quarter? = some q)
    (hh : (!teamStopped s u && holdsAccs s (teamOf s u) q) = true) : subjAccs s u = ((quarterAt s q).accs, (quarterAt s q).run) := by
  simp only [subjAccs, hs, hq, if_pos hh]
/-- Where an accumulator of a subject is: kept by its stopped team, or in its quarter. -/
theorem subjAccs_get?_eq_some {u : UnitRef} {m : Nat} {a : Machine.Acc} (ha : (subjAccs s u).1[m]? = some a) :
    (∃ i x, savedQuarter s u = some (i, x) ∧ x.accs[m]? = some a) ∨
    savedQuarter s u = none ∧ ∃ q, (bodyOf s u).bind Body.quarter? = some q ∧
      (!teamStopped s u && holdsAccs s (teamOf s u) q) = true ∧ (quarterAt s q).accs[m]? = some a := by
  cases hs : savedQuarter s u with
  | some e =>
    simp only [subjAccs, hs] at ha
    exact .inl ⟨_, _, rfl, ha⟩
  | none =>
    unfold subjAccs at ha
    simp only [hs] at ha
    cases hq : (bodyOf s u).bind Body.quarter? with
    | none => simp [hq] at ha
    | some q =>
      simp only [hq] at ha
      split at ha
      · exact .inr ⟨rfl, q, rfl, ‹_›, ha⟩
      · simp at ha
theorem subjAccs_modSubAcc {u : UnitRef} {m : Nat} {a : Machine.Acc} (ha : (subjAccs s u).1[m]? = some a) (f : Acc → Acc) :
    (subjAccs (modSubAcc s u m f) u).1[m]? = some (f a) := by
  rcases subjAccs_get?_eq_some ha with ⟨i, x, hs, hx⟩ | ⟨hs, q, hq, hh, hx⟩
  · simp [subjAccs, savedQuarter_modSubAcc hs f, modKeptAcc, hx]
  · have hne : (subjAccs s u).1.isEmpty = false := by
      cases h : (subjAccs s u).1 with
      | nil => simp [h] at ha
      | cons => rfl
    have e : modSubAcc s u m f = setAcc s q m (f (accAt s q m)) := by
      simp [modSubAcc, hs, hne, hq]
    have ht : teamOf (setAcc s q m (f (accAt s q m))) u = teamOf s u := by cases u <;> rfl
    have hb : bodyOf (setAcc s q m (f (accAt s q m))) u = bodyOf s u := by cases u <;> rfl
    have hst : teamStopped (setAcc s q m (f (accAt s q m))) u = teamStopped s u := by simp only [teamStopped, ht]; rfl
    rw [e, subjAccs_of_quarter (q := q)]
    · have hlt := (List.getElem?_eq_some_iff.mp hx).1
      rw [setAcc, quarterAt_setQuarter_self, lset_get?, if_pos ⟨rfl, hlt⟩, accAt, List.getD_eq_getElem?_getD, hx, Option.getD_some]
    · rw [← hs, savedQuarter, savedQuarter, ht, hb, hst]
      rfl
    · rw [hb, hq]
    · rw [hst, ht, ← hh]
      simp [holdsAccs, setAcc]

/-! ### A register of the window reads as written -/

section Lane
variable {uid low : Nat} {c : Crew} {th : Thread} {v : W32}

theorem savedRead_savedWrite_g (hu : sub.unit = .crew uid low) (hc : tget s.crews uid = some c) (hl : c.lanes[lane]? = some (some th))
    (h : 0x280 ≤ idx ∧ idx < 0x340) (hlen : idx < 0x280 + th.g.length) :
    savedRead (savedWrite s ctx sub lane tile idx v) ctx sub lane tile idx = v := by
  have e : savedWrite s ctx sub lane tile idx v = modLane s sub.unit lane fun t => { t with g := lset t.g (idx - 0x280) v } := by
    simp (disch := omega) only [savedWrite, if_pos]
  rw [e, savedRead_g (bodyOf_modLane hu hc hl _) h, ofLane_lset hl, lset_getD_self (by omega)]
theorem savedRead_savedWrite_p (hu : sub.unit = .crew uid low) (hc : tget s.crews uid = some c) (hl : c.lanes[lane]? = some (some th))
    (h : idx = 0x370) : savedRead (savedWrite s ctx sub lane tile idx v) ctx sub lane tile idx = v &&& 0x7F := by
  have e : savedWrite s ctx sub lane tile idx v = modLane s sub.unit lane fun t => { t with p := v.setWidth 7 } := by
    simp (disch := omega) only [savedWrite, if_pos, if_neg]
  rw [e, savedRead_p (bodyOf_modLane hu hc hl _) h, ofLane_lset hl]
  exact setWidth_setWidth_seven v
theorem savedRead_savedWrite_entry (hu : sub.unit = .crew uid low) (hc : tget s.crews uid = some c) (hl : c.lanes[lane]? = some (some th))
    (h : idx = 0x373 ∨ idx = 0x374) : savedRead (savedWrite s ctx sub lane tile idx v) ctx sub lane tile idx = v := by
  have e : savedWrite s ctx sub lane tile idx v =
      modLane s sub.unit lane fun t => { t with entry := withWord t.entry (idx == 0x374) v } := by
    simp (disch := omega) only [savedWrite, hu, if_pos, if_neg]
  rw [e, savedRead_entry (bodyOf_modLane hu hc hl _) h, ofLane_lset hl, halfWord_withWord]
theorem savedRead_savedWrite_gen (hu : sub.unit = .crew uid low) (hc : tget s.crews uid = some c) (hl : c.lanes[lane]? = some (some th))
    (h : idx = 0x376) : savedRead (savedWrite s ctx sub lane tile idx v) ctx sub lane tile idx = v := by
  have e : savedWrite s ctx sub lane tile idx v = modLane s sub.unit lane fun t => { t with gen := v } := by
    simp (disch := omega) only [savedWrite, if_pos, if_neg]
  rw [e, savedRead_gen (bodyOf_modLane hu hc hl _) h, ofLane_lset hl]
theorem savedRead_savedWrite_k (hu : sub.unit = .crew uid low) (hc : tget s.crews uid = some c)
    (h : 0x340 ≤ idx ∧ idx < 0x370) (hlen : idx < 0x340 + c.k.length) :
    savedRead (savedWrite s ctx sub lane tile idx v) ctx sub lane tile idx = v := by
  have e : savedWrite s ctx sub lane tile idx v = modSubCrew s sub.unit fun c => { c with k := lset c.k (idx - 0x340) v } := by
    simp (disch := omega) only [savedWrite, if_pos, if_neg]
  rw [e, savedRead_k (bodyOf_modSubCrew hu hc _) h, Body.ofCrew, lset_getD_self (by omega)]
theorem savedRead_savedWrite_j (hu : sub.unit = .crew uid low) (hc : tget s.crews uid = some c)
    (h : 0x378 ≤ idx ∧ idx < 0x388) (hlen : idx < 0x378 + 2 * c.j.length) :
    savedRead (savedWrite s ctx sub lane tile idx v) ctx sub lane tile idx = v := by
  have e : savedWrite s ctx sub lane tile idx v = modSubCrew s sub.unit fun c => { c with
      j := lset c.j ((idx - 0x378) / 2) (withWord (c.j.getD ((idx - 0x378) / 2) 0) ((idx - 0x378) % 2 == 1) v) } := by
    simp (disch := omega) only [savedWrite, if_pos, if_neg]
  rw [e, savedRead_j (bodyOf_modSubCrew hu hc _) h, Body.ofCrew, lset_getD_self (by omega), halfWord_withWord]
theorem savedRead_savedWrite_f (hu : sub.unit = .crew uid low) (hc : tget s.crews uid = some c)
    (h : 0x388 ≤ idx ∧ idx < 0x398) (hlen : idx < 0x388 + 2 * c.f.length) :
    savedRead (savedWrite s ctx sub lane tile idx v) ctx sub lane tile idx = v := by
  have e : savedWrite s ctx sub lane tile idx v = modSubCrew s sub.unit fun c => { c with
      f := lset c.f ((idx - 0x388) / 2) (withWord (c.f.getD ((idx - 0x388) / 2) 0) ((idx - 0x388) % 2 == 1) v) } := by
    simp (disch := omega) only [savedWrite, if_pos, if_neg]
  rw [e, savedRead_f (bodyOf_modSubCrew hu hc _) h, Body.ofCrew, lset_getD_self (by omega), halfWord_withWord]
end Lane

theorem savedRead_savedWrite_accessEntry {k : Nat} {a : Machine.Access} {v : W32} (hu : sub.unit = .access k)
    (hb : bodyOf s (.access k) = some (.ap a)) (h : idx = 0x373 ∨ idx = 0x374) :
    savedRead (savedWrite s ctx sub lane tile idx v) ctx sub lane tile idx = v := by
  have e : savedWrite s ctx sub lane tile idx v = modAccess s k fun a => { a with entry := withWord a.entry (idx == 0x374) v } := by
    simp (disch := omega) only [savedWrite, hu, if_pos, if_neg]
  rw [e, savedRead_accessEntry (hu ▸ bodyOf_modAccess hb _) h, halfWord_withWord]
theorem savedRead_savedWrite_a {k : Nat} {a : Machine.Access} {v : W32} (hu : sub.unit = .access k)
    (hb : bodyOf s (.access k) = some (.ap a)) (h : 0x3C0 ≤ idx ∧ idx < 0x400) (hlen : idx < 0x3C0 + 2 * a.a.length) :
    savedRead (savedWrite s ctx sub lane tile idx v) ctx sub lane tile idx = v := by
  have e : savedWrite s ctx sub lane tile idx v = modAccess s k fun a => { a with
      a := lset a.a ((idx - 0x3C0) / 2) (withWord (a.a.getD ((idx - 0x3C0) / 2) 0) ((idx - 0x3C0) % 2 == 1) v) } := by
    simp (disch := omega) only [savedWrite, hu, if_pos, if_neg]
  rw [e, savedRead_a (hu ▸ bodyOf_modAccess hb _) h, lset_getD_self (by omega), halfWord_withWord]
theorem savedRead_savedWrite_acc {a : Machine.Acc} {v : W32} (ha : (subjAccs s sub.unit).1[tile]? = some a) (hv : a.valid = true)
    (hlen : a.elems.length = 256) (hb : (bodyOf s sub.unit).isSome) (h : 0x400 ≤ idx ∧ idx < 0x500) :
    savedRead (savedWrite s ctx sub lane tile idx v) ctx sub lane tile idx = v := by
  obtain ⟨b, hb⟩ := Option.isSome_iff_exists.mp hb
  have e : savedWrite s ctx sub lane tile idx v = modSubAcc s sub.unit tile fun a => { a with elems := lset a.elems (idx - 0x400) v } := by
    simp (disch := omega) only [savedWrite, if_pos, if_neg]
  have hat : 16 * ((idx - 0x400) / 16) + (idx - 0x400) % 16 = idx - 0x400 := Nat.div_add_mod ..
  rw [e, savedRead_acc ((bodyOf_modSubAcc ..).trans hb) (subjAccs_modSubAcc ha _) h, Acc.read, if_pos hv, hat, lset_getD_self (by omega)]
theorem savedWrite_resume {r : Nat × FRec} {dm : Domain} {v : W32} (hr : sub.record = some r) (hd : tget s.domains r.1 = some dm)
    (hm : r.2 ∈ dm.outst) (h : idx = 0x371 ∨ idx = 0x372) :
    ∃ dm' r', tget (savedWrite s ctx sub lane tile idx v).domains r.1 = some dm' ∧ r' ∈ dm'.outst ∧ r'.uid = r.2.uid ∧
      resumePc (savedWrite s ctx sub lane tile idx v) ctx r' = withWord (resumePc s ctx r.2) (idx == 0x372) v := by
  have e : savedWrite s ctx sub lane tile idx v =
      modRecord s r.1 r.2.uid fun x => { x with resume := some (withWord (resumePc s ctx x) (idx == 0x372) v) } := by
    simp (disch := omega) only [savedWrite, hr, if_pos, if_neg]
  rw [e]
  refine ⟨_, _, by rw [modRecord, modDomain, tget_tmod_self, hd]; rfl, List.mem_map_of_mem hm, ?_⟩
  simp [resumePc]
theorem savedRead_state_bits (hb : bodyOf s sub.unit = some b) :
    (savedRead s ctx sub lane tile 0x203).getLsbD 0 = true ∧ (savedRead s ctx sub lane tile 0x203).getLsbD 1 = sub.record.isSome ∧
    (savedRead s ctx sub lane tile 0x203).getLsbD 2 = sub.stopped ∧ (savedRead s ctx sub lane tile 0x203).getLsbD 3 = b.isAp ∧
    (savedRead s ctx sub lane tile 0x203).toNat < 16 := by
  rw [savedRead_state hb]
  cases sub.record.isSome <;> cases sub.stopped <;> cases b.isAp <;> decide
theorem savedWrite_readOnly {v : W32}
    (h : idx < 0x280 ∨ idx = 0x375 ∨ idx = 0x377 ∨ (0x398 ≤ idx ∧ idx < 0x3C0) ∨ 0x500 ≤ idx) :
    savedWrite s ctx sub lane tile idx v = s := by
  simp (disch := omega) only [savedWrite, if_neg]
end Window

/-! ## SYSR and SYSW -/

theorem subjectOf_modGrid (s : State) (gid : Nat) (f : Grid → Grid) (ctx : Nat) (id : W64) :
    subjectOf (modGrid s gid f) ctx id = subjectOf s ctx id := by
  rfl
theorem gridOf_modGrid (s : State) (gid : Nat) (f : Grid → Grid) (u : UnitRef) : gridOf (modGrid s gid f) u = gridOf s u := by
  cases u <;> rfl

/-! ### The two instructions -/

section System
variable {s : State} {x : Ex} {c : Ctl} {idx : BitVec 12} {d b : Spec} {cause : Cause}

theorem exec_sysr_of_runs (h : runsAs s (.sysr c idx d) x) (hd : sysDenied s x.ref idx.toNat false = none) :
    exec (.sysr c idx d) s = .next (retire x c (x.body.sendV x.exec d fun _ => sysRead s x.ref idx.toNat) s) := by
  rw [exec_runs h rfl rfl, hd]
theorem exec_sysw_of_runs (h : runsAs s (.sysw c idx b) x) (hd : sysDenied s x.ref idx.toNat true = none) :
    exec (.sysw c idx b) s = .next (sysWrite (retire x c x.body s) x.ref idx.toNat (x.v b x.low)) := by
  rw [exec_runs h rfl rfl, hd]
theorem exec_sysr_of_denied (h : runsAs s (.sysr c idx d) x) (hd : sysDenied s x.ref idx.toNat false = some cause) :
    exec (.sysr c idx d) s = .next (faultEx x cause 0 x.exec s) := by
  rw [exec_runs h rfl rfl, hd]
theorem exec_sysw_of_denied (h : runsAs s (.sysw c idx b) x) (hd : sysDenied s x.ref idx.toNat true = some cause) :
    exec (.sysw c idx b) s = .next (faultEx x cause 0 x.exec s) := by
  rw [exec_runs h rfl rfl, hd]
end System

/-! ### What is denied -/

section Denied
variable {s : State} {u : UnitRef} {idx : Nat}

theorem sysDenied_read_of_serves_none (hs : serves s u = none) (h : 0x200 ≤ idx) : sysDenied s u idx false = some .sysregDenied := by
  have h1 : ¬ idx < 0x200 := by omega
  simp [sysDenied, hs, h1]
theorem sysDenied_write_of_serves_none (hs : serves s u = none) : sysDenied s u idx true = some .sysregDenied := by
  simp [sysDenied, hs]
theorem sysDenied_write_mirror (h : 0x100 ≤ idx) (h' : idx < 0x200) : sysDenied s u idx true = some .sysregDenied := by
  have h1 : ¬ idx < 0x100 := by omega
  have h2 : ¬ 0x200 ≤ idx := by omega
  simp [sysDenied, h1, h2]
theorem sysDenied_read_mirror (h' : idx < 0x200) : sysDenied s u idx false = none := by
  have h2 : ¬ 0x200 ≤ idx := by omega
  simp [sysDenied, h', h2]
end Denied

/-! ### The subject's registers and the window of a grid -/

section Subject
variable {s : State} {u : UnitRef} {g : Machine.Grid} {idx : Nat} {v : W32} {sub : Subject}

theorem sysRead_subjectL (hg : tget s.grids (gridOf s u) = some g) : sysRead s u 0x200 = lo32 g.subject := by
  simp [sysRead, hg]
theorem sysRead_subjectH (hg : tget s.grids (gridOf s u) = some g) : sysRead s u 0x201 = hi32 g.subject := by
  simp [sysRead, hg]
theorem sysRead_noSubject (hg : tget s.grids (gridOf s u) = some g) (h : 0x202 ≤ idx ∧ idx < 0x800)
    (hs : subjectOf s g.ctx g.subject = none) : sysRead s u idx = 0 := by
  rw [sysRead, if_neg (by omega), if_neg (by omega), if_pos h.2, hg]
  dsimp only
  split
  · omega
  · omega
  · rw [hs]
theorem sysRead_window (hg : tget s.grids (gridOf s u) = some g) (h : 0x202 ≤ idx ∧ idx < 0x800)
    (hs : subjectOf s g.ctx g.subject = some sub) : sysRead s u idx = if idx = 0x202 then g.slane else if idx = 0x204 then g.stile
      else savedRead s g.ctx sub g.slane.toNat (g.stile.toNat % 8) idx := by
  rw [sysRead, if_neg (by omega), if_neg (by omega), if_pos h.2, hg]
  dsimp only
  split
  · omega
  · omega
  · rw [hs]
theorem sysWrite_noSubject (hg : tget s.grids (gridOf s u) = some g) (h : 0x202 ≤ idx) (hs : subjectOf s g.ctx g.subject = none) :
    sysWrite s u idx v = s := by
  simp only [sysWrite]
  rw [if_neg (by omega), hg]
  dsimp only
  split
  · omega
  · omega
  · rw [hs]
theorem sysWrite_window (hg : tget s.grids (gridOf s u) = some g) (h : 0x202 ≤ idx) (hs : subjectOf s g.ctx g.subject = some sub) :
    sysWrite s u idx v = if idx = 0x202 then modGrid s (gridOf s u) fun g => { g with slane := v }
      else if idx = 0x204 then modGrid s (gridOf s u) fun g => { g with stile := v }
      else savedWrite s g.ctx sub g.slane.toNat (g.stile.toNat % 8) idx v := by
  simp only [sysWrite]
  rw [if_neg (by omega), hg]
  dsimp only
  split
  · omega
  · omega
  · rw [hs]
/-- The grid of a unit after a register of the grid is written. -/
theorem tget_grids_modGrid (hg : tget s.grids (gridOf s u) = some g) (f : Machine.Grid → Machine.Grid) :
    tget (modGrid s (gridOf s u) f).grids (gridOf (modGrid s (gridOf s u) f) u) = some (f g) := by
  rw [gridOf_modGrid, modGrid, tget_tmod_self, hg]
  rfl
theorem sysRead_sysWrite_subject (hg : tget s.grids (gridOf s u) = some g) (h : idx = 0x200 ∨ idx = 0x201) :
    sysRead (sysWrite s u idx v) u idx = v := by
  rcases h with rfl | rfl
  · have e : sysWrite s u 0x200 v = modGrid s (gridOf s u) fun g => { g with subject := withWord g.subject false v } := by
      simp [sysWrite, hg]
    rw [e, sysRead_subjectL (tget_grids_modGrid hg _)]
    exact halfWord_withWord _ false v
  · have e : sysWrite s u 0x201 v = modGrid s (gridOf s u) fun g => { g with subject := withWord g.subject true v } := by
      simp [sysWrite, hg]
    rw [e, sysRead_subjectH (tget_grids_modGrid hg _)]
    exact halfWord_withWord _ true v
theorem sysRead_sysWrite_slane_stile (hg : tget s.grids (gridOf s u) = some g) (hs : subjectOf s g.ctx g.subject = some sub)
    (h : idx = 0x202 ∨ idx = 0x204) : sysRead (sysWrite s u idx v) u idx = v := by
  rcases h with rfl | rfl
  · rw [sysWrite_window hg (by omega) hs, if_pos rfl,
      sysRead_window (tget_grids_modGrid hg _) (by omega) ((subjectOf_modGrid ..).trans hs), if_pos rfl]
  · rw [sysWrite_window hg (by omega) hs, if_neg (by omega), if_pos rfl,
      sysRead_window (tget_grids_modGrid hg _) (by omega) ((subjectOf_modGrid ..).trans hs), if_neg (by omega), if_pos rfl]
end Subject

/-- Settles O39: each clause is a rule above about the registers it names. -/
theorem systemRegisters : Obligations.SystemRegisters := by
  unfold Obligations.SystemRegisters
  refine ⟨fun s x c idx d b => ⟨?_, ?_, ?_, ?_, ?_, ?_, ?_, ?_⟩, ctlRead_ctlWrite_self, fun r n k v h => ctlRead_ctlWrite_ne r v h,
    fun s u g idx v hg => ⟨sysRead_sysWrite_subject hg, ?_, fun sub hs => ⟨sysRead_sysWrite_slane_stile hg hs, fun h => ?_⟩⟩,
    fun s ctx sub lane tile idx v => ⟨?_, ?_, ?_, ?_, ?_, ?_, savedWrite_readOnly⟩⟩
  · exact exec_sysr_of_runs
  · exact exec_sysw_of_runs
  · exact fun _ => exec_sysr_of_denied
  · exact fun _ => exec_sysw_of_denied
  · exact sysDenied_read_of_serves_none
  · exact sysDenied_write_of_serves_none
  · exact fun h h' => ⟨sysDenied_write_mirror h h', sysDenied_read_mirror h'⟩
  · exact ⟨rfl, rfl, rfl, rfl, rfl, rfl, rfl, rfl, rfl⟩
  · exact fun h h' hs => ⟨sysRead_noSubject hg ⟨h, h'⟩ hs, sysWrite_noSubject hg h hs⟩
  · rw [sysRead_window hg (by omega) hs, sysWrite_window hg (by omega) hs]
    simp (disch := omega) only [if_neg, and_self]
  · exact fun uid low c th hu hc hl => ⟨
      fun h h' hlen => savedRead_savedWrite_g hu hc hl ⟨h, h'⟩ hlen, savedRead_savedWrite_p hu hc hl,
      fun h => by
      rcases h with h | h | h
      · exact savedRead_savedWrite_entry hu hc hl (.inl h)
      · exact savedRead_savedWrite_entry hu hc hl (.inr h)
      · exact savedRead_savedWrite_gen hu hc hl h⟩
  · exact fun uid low c hu hc => ⟨fun h h' => savedRead_savedWrite_k hu hc ⟨h, h'⟩,
      fun h h' => savedRead_savedWrite_j hu hc ⟨h, h'⟩, fun h h' => savedRead_savedWrite_f hu hc ⟨h, h'⟩⟩
  · exact fun k a hu hb => ⟨savedRead_savedWrite_accessEntry hu hb, fun h h' => savedRead_savedWrite_a hu hb ⟨h, h'⟩⟩
  · exact fun a ha hv hlen hb h h' => savedRead_savedWrite_acc ha hv hlen hb ⟨h, h'⟩
  · exact fun r dm hr hd hm h => savedWrite_resume hr hd hm h
  · exact fun b hb => savedRead_state_bits hb

end Sys2Proof.Laws
end

section
/-! SUPPORT and the obligation: control instructions (R22, R23, R111 to R115), which fails at R111. -/

namespace Sys2Proof.Laws

open Sys2Proof Sys2Proof.Machine Sys2Proof.Safety

/-- An access thread that ends gives up the loads that it has under way: their register results are discarded (R111). -/
theorem exec_exit_access {s : State} {x : Ex} {c : Ctl} {team : Nat} (h : runsAs s (.exit c) x) (hx : x.ref = .access team) :
    exec (.exit c) s =
      .next (modTeam (forgetAccess { s with cur := none } team) team fun tm => { tm with access := none }) := by
  rw [exec_runs h rfl rfl, exitLanes, hx]

/-- A load of 4 bytes that an access thread has issued and that has not been performed. -/
def openLoad (team : Nat) : Pend :=
  { tag := 1, ctx := 0, grid := 0, core := 0, crew := none, team := some team, pc := 0x20000000, store := false, rel := none, size := 4
    parts := [(4, 0, 4)], signed := false
    pieces := [{ lane := 0, va := 0x20000100, place := .dev 0x20000100, n := 4, path := { core := 0, writer := 0, strong := none, ev := 0, rc := 0 }
                 bytes := [], done := false, bad := false }] }

/-- An unguarded instruction with STALL 1. -/
def plainCtl : Ctl := { wait := 0, neg := false, pred := 7, stall := 1 }

/-- An access thread is selected with a load still under way. -/
def endsWithOpenLoad : State := { State.reset with teams := [(0, placedTeam 0)], cur := some (.access 0), pend := [openLoad 0] }

/-- The issue in which that access thread ends. -/
def exitIssue : Ex := exOf endsWithOpenLoad (.access 0) (.ap placedAccess) (placedGroup 1) (.exit plainCtl) plainCtl

theorem runsAs_exitIssue : runsAs endsWithOpenLoad (.exit plainCtl) exitIssue := by
  show issueEx endsWithOpenLoad (.exit plainCtl) plainCtl [] [] .leaves = some exitIssue
  rfl

/-- Refutes O13: where an access thread ends with a load under way, the load is given up with its results (R111), and the statement's next state
keeps it. -/
theorem not_controlFlow : ¬ Obligations.ControlFlow := by
  unfold Obligations.ControlFlow
  intro h
  obtain ⟨-, hc⟩ := h
  obtain ⟨-, -, -, hexit, -⟩ := hc endsWithOpenLoad exitIssue plainCtl 0 0 0 0 (placedCrew 0 0)
  have hkeeps := hexit runsAs_exitIssue rfl
  rw [exec_exit_access runsAs_exitIssue rfl] at hkeeps
  injection hkeeps with hstate
  have hpend : ([] : List Pend) = [openLoad 0] := congrArg State.pend hstate
  exact List.cons_ne_nil _ _ hpend.symm

end Sys2Proof.Laws
end

section
/-! SUPPORT and the obligation: the operand queues (R196, R197). -/

namespace Sys2Proof.Laws

open Sys2Proof Sys2Proof.Machine Sys2Proof.Safety

theorem push_marks_last (o : OpQueue) (b : List Byte) (bad d : Bool) : (o.push b bad).marks.getD o.entries.length d = bad := by
  simp [OpQueue.push, List.getD_eq_getElem?_getD]

theorem opushBytes_length (x : Ex) (a : Spec) {n : Nat} (h : n ≤ 16) : (opushBytes x a n).length = 128 := by
  have words : ((List.range n).map fun i => toBytes 8 (x.w (a + BitVec.ofNat 8 i) x.low).toNat).flatten.length = 8 * n := by
    simp [List.length_flatten, Function.comp_def, Nat.mul_comm]
  unfold opushBytes
  rw [List.length_append, List.length_replicate, words]
  omega

/-- The operand queue of a number among a team's. -/
def queueOf (tm : Team) (q : BitVec 4) : OpQueue := tm.queues.getD q.toNat { entries := [], producer := none }

/-- A team's operand queue replaced. -/
def putQueue (s : State) (k : Nat) (q : BitVec 4) (o : OpQueue) : State :=
  modTeam s k fun tm => { tm with queues := lset tm.queues q.toNat o }

section OperandQueues
variable {s : State} {x : Ex} {c : Ctl} {q : BitVec 4} {a d : Spec} {n : BitVec 5} {wide : Bool} {k : Nat} {tm : Team}

/-- `OPUSH` looks at its queue: with a producer or 64 entries it makes it wait, else its bytes are one more entry (R196). -/
theorem exec_opush_of_team (h : runsAs s (.opush c q a n) x) (hk : teamOf s x.ref = some k) (ht : tget s.teams k = some tm) :
    exec (.opush c q a n) s = .next (
      if (queueOf tm q).producer.isSome || decide (64 ≤ (queueOf tm q).entries.length) then
        waitEx x (.queueFull q.toNat) (.opush c q a n) s
      else retire x c x.body (putQueue s k q ((queueOf tm q).push (opushBytes x a n.toNat) false))) := by
  rw [exec_runs h rfl rfl, hk]
  simp only [ht]
  rfl

/-- `OPOP` looks at its queue: too few entries make it wait, a poisoned one is a fault, else its entries are taken (R197). -/
theorem exec_opop_of_team (h : runsAs s (.opop c wide d q) x) (hk : teamOf s x.ref = some k) (ht : tget s.teams k = some tm) :
    exec (.opop c wide d q) s = .next (
      if (queueOf tm q).entries.length < opopCount x.width wide then
        waitEx x (.queueEmpty q.toNat (opopCount x.width wide)) (.opop c wide d q) s
      else if ((queueOf tm q).marks.take (opopCount x.width wide)).any id then faultEx x .poison 0 x.exec s
      else
        let bs := ((queueOf tm q).entries.take (opopCount x.width wide)).flatten
        let e := if wide then 8 else 4
        retire x c (x.body.sendX wide x.exec d fun l => BitVec.ofNat 64 (ofBytes ((bs.drop (l * e)).take e)))
          (putQueue s k q ((queueOf tm q).pop (opopCount x.width wide)))) := by
  rw [exec_runs h rfl rfl, hk]
  simp only [ht]
  rfl

end OperandQueues

/-- Settles O27: each clause on an instruction is one branch of what it does at its queue. -/
theorem operandQueues : Obligations.OperandQueues := by
  unfold Obligations.OperandQueues
  intro s x c q a d n wide k tm hk ht
  refine ⟨fun h hfree hroom => ?_, fun o b bad => ⟨rfl, push_marks_last o b bad _, rfl⟩, fun h hfull => ?_, opushBytes_length x a,
    fun h hm hclean => ?_, fun o n => ⟨rfl, rfl, rfl⟩, fun h hm hbad => ?_, fun h hm => ?_⟩
  · have hgo : ¬((queueOf tm q).producer.isSome || decide (64 ≤ (queueOf tm q).entries.length)) = true := by
      rw [queueOf, hfree]
      simpa using hroom
    exact (exec_opush_of_team h hk ht).trans (congrArg _ (if_neg hgo))
  · have hwait : ((queueOf tm q).producer.isSome || decide (64 ≤ (queueOf tm q).entries.length)) = true := by
      simpa [queueOf] using hfull
    exact (exec_opush_of_team h hk ht).trans (congrArg _ (if_pos hwait))
  · exact (exec_opop_of_team h hk ht).trans
      (congrArg _ ((if_neg (Nat.not_lt.mpr hm)).trans (if_neg (Bool.eq_false_iff.mp hclean))))
  · exact (exec_opop_of_team h hk ht).trans (congrArg _ ((if_neg (Nat.not_lt.mpr hm)).trans (if_pos hbad)))
  · exact (exec_opop_of_team h hk ht).trans (congrArg _ (if_pos hm))

end Sys2Proof.Laws
end

section
/-! SUPPORT and the obligation: selection and the ends of waits (R15, R24, R58, R60, R112, R187, R192, R197, R245, R342 to R344). -/

namespace Sys2Proof.Laws

open Sys2Proof Sys2Proof.Machine Sys2Proof.Safety

section Events
variable {s s1 : State} {q : Nat} {u : UnitRef} {i : Instr} {w : Waiting} {b : Body} {g : Group} {p : Shape}

/-! ### Selection -/

/-- A fold that keeps the better of what it has and what comes answers an element that every element yields to. -/
theorem foldl_best {α : Type} {pick : Option α → α → Option α} {R : α → α → Prop} (refl : ∀ x, R x x)
    (trans : ∀ x y z, R x y → R y z → R x z)
    (hpick : ∀ o a, ∃ e, pick o a = some e ∧ (e = a ∨ o = some e) ∧ R a e ∧ ∀ x, o = some x → R x e) (l : List α) {o : Option α}
    {e : α} (h : l.foldl pick o = some e) : (e ∈ l ∨ o = some e) ∧ (∀ a ∈ l, R a e) ∧ ∀ x, o = some x → R x e := by
  induction l generalizing o with
  | nil => exact ⟨.inr h, nofun, fun x hx => Option.some.inj (hx.symm.trans h) ▸ refl x⟩
  | cons a l ih =>
    obtain ⟨d, hd, hfrom, ha, ho⟩ := hpick o a
    rw [List.foldl_cons, hd] at h
    obtain ⟨hin, hall, hbest⟩ := ih h
    have hde := hbest d rfl
    refine ⟨?_, List.forall_mem_cons.mpr ⟨trans _ _ _ ha hde, hall⟩, fun x hx => trans _ _ _ (ho x hx) hde⟩
    rcases hin with hin | hin
    · exact .inl (List.mem_cons_of_mem a hin)
    · obtain rfl := Option.some.inj hin
      rcases hfrom with rfl | hfrom
      · exact .inl List.mem_cons_self
      · exact .inr hfrom

/-- A group yields to another that outranks it, or that has its rank and has been ready at least as long (R344). -/
def YieldsTo (s : State) (e f : UnitRef × Group) : Prop :=
  rankOf s e.1 e.2 < rankOf s f.1 f.2 ∨ (rankOf s e.1 e.2 = rankOf s f.1 f.2 ∧ f.2.since ≤ e.2.since)

theorem yieldsTo_refl (x : UnitRef × Group) : YieldsTo s x x := .inr ⟨rfl, le_rfl⟩
theorem yieldsTo_trans (x y z : UnitRef × Group) (hxy : YieldsTo s x y) (hyz : YieldsTo s y z) : YieldsTo s x z := by
  unfold YieldsTo at *
  omega

/-- The better of what `bestReady` has and what comes. -/
def keepBetter (s : State) (o : Option (UnitRef × Group)) (a : UnitRef × Group) : Option (UnitRef × Group) :=
  match o with
  | none => some a
  | some x =>
    if rankOf s x.1 x.2 < rankOf s a.1 a.2 ∨ (rankOf s x.1 x.2 = rankOf s a.1 a.2 ∧ a.2.since < x.2.since) then some a else some x

theorem bestReady_eq_foldl (s : State) (gs : List (UnitRef × Group)) :
    bestReady s gs = (gs.filter fun e => e.2.ready s.clock).foldl (keepBetter s) none := by
  unfold bestReady
  congr 1
  funext o a
  cases o <;> rfl

theorem keepBetter_spec (s : State) (o : Option (UnitRef × Group)) (a : UnitRef × Group) : ∃ e, keepBetter s o a = some e ∧
    (e = a ∨ o = some e) ∧ YieldsTo s a e ∧ ∀ x, o = some x → YieldsTo s x e := by
  cases o with
  | none => exact ⟨a, rfl, .inl rfl, yieldsTo_refl a, by simp⟩
  | some x =>
    simp only [keepBetter]
    split
    · rename_i hb
      refine ⟨a, rfl, .inl rfl, yieldsTo_refl a, fun y hy => ?_⟩
      cases hy
      unfold YieldsTo
      omega
    · refine ⟨x, rfl, .inr rfl, ?_, fun y hy => ?_⟩
      · unfold YieldsTo
        omega
      · cases hy
        exact yieldsTo_refl x

theorem bestReady_spec {gs : List (UnitRef × Group)} {e : UnitRef × Group} (h : bestReady s gs = some e) :
    (e ∈ gs ∧ e.2.ready s.clock = true) ∧ ∀ f ∈ gs, f.2.ready s.clock = true → YieldsTo s f e := by
  rw [bestReady_eq_foldl] at h
  obtain ⟨hin, hall, -⟩ := foldl_best yieldsTo_refl yieldsTo_trans (keepBetter_spec s) _ h
  simp only [List.mem_filter, reduceCtorEq, or_false] at hin hall
  exact ⟨hin, fun f hf hr => hall f ⟨hf, hr⟩⟩

theorem mem_candidates (hq : q < 512) (e : UnitRef × Group) :
    e ∈ candidates s q ↔ e ∈ groupsOn s q ∧ e.2.inPlay = true ∧ behindBarwait s e.1 = false := by
  simp [candidates, hq]

theorem selects_quarter (hq : q < 512) (h : selects s q = some u) : s.cur = none ∧ (s.package = .on ∨ s.package = .toS3) ∧
    (quarterAt s q).last < s.clock ∧ ∃ g, bestReady s (candidates s q) = some (u, g) := by
  unfold selects at h
  split at h
  · cases h
  · rename_i hfree
    rw [Option.map_eq_some_iff] at h
    obtain ⟨⟨v, g⟩, hbest, rfl⟩ := h
    simp only [cpuOn, Bool.or_eq_true, Bool.not_eq_true', decide_eq_true_eq, not_or, Bool.not_eq_false, beq_iff_eq, not_le,
      Bool.not_eq_true, Option.isSome_eq_false_iff, Option.isNone_iff_eq_none] at hfree
    obtain ⟨⟨hcur, hon⟩, hlast⟩ := hfree
    exact ⟨hcur, hon, hlast, g, hbest⟩

/-- What a quarter selects (R342, R344, R422). -/
theorem selects_best (hq : q < 512) (h : selects s q = some u) : ∃ g, (u, g) ∈ groupsOn s q ∧ g.inPlay = true ∧
    behindBarwait s u = false ∧ g.ready s.clock = true ∧ ∀ e ∈ groupsOn s q, e.2.inPlay = true → behindBarwait s e.1 = false →
      e.2.ready s.clock = true → YieldsTo s e (u, g) := by
  obtain ⟨-, -, -, g, hbest⟩ := selects_quarter hq h
  obtain ⟨⟨hin, hready⟩, hall⟩ := bestReady_spec hbest
  obtain ⟨hon, hplay, hfront⟩ := (mem_candidates hq _).mp hin
  exact ⟨g, hon, hplay, hfront, hready, fun e he hp hb => hall e ((mem_candidates hq e).mpr ⟨he, hp, hb⟩)⟩

theorem exec_issueSelect_some (h : selects (settleQuarter (if q < 512 then fillPlay q 16 s else s) q) q = some u)
    (hb : bodyOf (settleQuarter (if q < 512 then fillPlay q 16 s else s) q) u = some b) : exec (.issueSelect q) s =
      .next (let s1 := settleQuarter (if q < 512 then fillPlay q 16 s else s) q
        let s2 := modGroup s1 u fun g => { g with issued := g.issued + 1 }
        { setQuarter s2 q { quarterAt s2 q with last := s.clock + b.lag } with cur := some u }) := by
  show execIssueSelect q s = _
  simp only [execIssueSelect, h, hb]
theorem exec_issueSelect_none (h : selects (settleQuarter (if q < 512 then fillPlay q 16 s else s) q) q = none) :
    exec (.issueSelect q) s = .next (settleQuarter (if q < 512 then fillPlay q 16 s else s) q) := by
  show execIssueSelect q s = _
  simp only [execIssueSelect, h]

/-- What keeps a unit whose decode checks pass and whose WAIT field is honoured from issuing: the scoreboard, then a crew-uniform register. -/
theorem unreadyAt_of_waitDone (hf : fetchNext { s with cur := some u } u = .instr i s1) (hp : issueShape s1 i = some p)
    (hb : bodyOf s1 u = some b) (hg : groupOf b u = some g) (hd : badDecode s1 b p.ctl p.ops p.extra = none)
    (hw : p.ctl.wait = 0 ∨ g.waitDone = true) : unreadyAt s u =
      if b.awaits g.mask (codesOf s1 b p.ctl p.ops) then some (.scoreboard i)
      else (b.uniformUntil g.mask s1.clock (codesOf s1 b p.ctl p.ops)).map .uniform := by
  have hwait : (p.ctl.wait != 0#8 && !g.waitDone) = false := by
    rcases hw with hw | hw <;> simp [hw]
  simp only [unreadyAt, hf, hp, hb, hg, hd, hwait, Option.isSome_none, Bool.false_and, Bool.false_eq_true, if_false]

/-! ### Waits that end by issuing the instruction again -/

theorem goesOn_goesFurther (s : State) (u : UnitRef) (i : Instr) : goesFurther s u i (goesOn s u i) := by
  unfold goesOn goesFurther
  dsimp only
  split
  · rename_i g h hg hh
    split
    · rename_i hsame
      obtain ⟨-, hobj, hpc, -, hwaits⟩ := hsame
      exact .inr ⟨rfl, g, h, hg, hh, hwaits, hobj, hpc⟩
    · exact .inl rfl
  · exact .inl rfl

/-- `CLOSE` and `WAITB` are excepted: their wait for room is TOKEN_WAIT_RELEASE's to end. -/
theorem exec_commandAccept_of_resource (hw : freeWait s u = some w) (hi : w.instr = some i) (hr : w.obj.resource = true)
    (hc : ∀ c t, i ≠ .close c t) (hb : ∀ c n d t, i ≠ .waitb c n d t) : exec (.commandAccept u) s = .next (goesOn s u i) := by
  show execCommandAccept u s = _
  simp only [execCommandAccept, hw, hr, hi]
theorem exec_commandAccept_of_access (hw : freeWait s u = some w) (hr : w.obj.resource = false) :
    exec (.commandAccept u) s = .next (accessGoesOn s u w.obj) := by
  show execCommandAccept u s = _
  simp only [execCommandAccept, hw, hr]

theorem exec_barwaitRelease_of_flipped {off : Nat} {ph : Bool} (hw : freeWait s u = some w) (hi : w.instr = some i)
    (ho : w.obj = .barrier off ph) (hf : (barOf s u off).phase ≠ ph) :
    exec (.barwaitRelease u) s = .next (goesOn (fuseAt s u).1 (fuseAt s u).2 i) := by
  show execBarwaitRelease u s = _
  simp only [execBarwaitRelease, hw, ho, hi, if_neg hf]
theorem exec_opopFill_of_queue {n m : Nat} (hw : freeWait s u = some w) (hi : w.instr = some i) (ho : w.obj = .queueEmpty n m) :
    exec (.opopFill u) s = .next (goesOn s u i) := by
  show execOpopFill u s = _
  simp only [execOpopFill, hw, ho, hi]
theorem exec_tokenWaitRelease_of_left {tok n : Nat} (hw : freeWait s u = some w) (hi : w.instr = some i) (ho : w.obj = .tokenLeft tok n) :
    exec (.tokenWaitRelease u) s = .next (goesOn s u i) := by
  show execTokenWaitRelease u s = _
  simp only [execTokenWaitRelease, hw, ho, hi]
theorem exec_tokenWaitRelease_of_room {tok : Nat} (hw : freeWait s u = some w) (hi : w.instr = some i) (ho : w.obj = .tokenRoom tok)
    (hc : (∃ c t, i = .close c t) ∨ ∃ c n d t, i = .waitb c n d t) : exec (.tokenWaitRelease u) s = .next (goesOn s u i) := by
  show execTokenWaitRelease u s = _
  rcases hc with ⟨c, t, rfl⟩ | ⟨c, n, d, t, rfl⟩
  all_goals simp only [execTokenWaitRelease, hw, ho, hi]
theorem exec_tokenWaitRelease_of_field {m todo : BitVec 8} (hw : freeWait s u = some w) (ho : w.obj = .tokens m todo) :
    exec (.tokenWaitRelease u) s = .next (waitFieldEnd s u m todo) := by
  show execTokenWaitRelease u s = _
  simp only [execTokenWaitRelease, hw, ho]

/-! ### The WAIT field -/

theorem waitFieldEnd_of_complete {m todo : BitVec 8} (hb : bodyOf s u = some b) (hfull : fullOf b.toks todo = 0)
    (hout : anyOutstanding (closeNamed b todo).toks m = false) : waitFieldEnd s u m todo =
      clearWait (acquireAt (modGroup (putBody s u (closeNamed b todo)) u fun g => { g with waitDone := true }) (coreOf s u) .l2) u := by
  simp [waitFieldEnd, hb, hfull, hout]
theorem waitFieldEnd_of_closes {m todo : BitVec 8} (hb : bodyOf s u = some b) (hsome : fullOf b.toks todo ≠ todo)
    (hkeeps : fullOf b.toks todo ≠ 0 ∨ anyOutstanding (closeNamed b todo).toks m = true) : waitFieldEnd s u m todo =
      modGroup (putBody s u (closeNamed b todo)) u fun g =>
        { g with wait := g.wait.map fun w => { w with obj := .tokens m (fullOf b.toks todo) } } := by
  simp only [waitFieldEnd, hb]
  rw [if_pos (by simpa using hkeeps), if_neg hsome]

/-! ### Quotas, joins, bins and accesses -/

theorem exec_playQuotaExpire (h : spent s q = some u) (hp : (oldestParked s q).isSome = true) : exec (.playQuotaExpire q) s =
    .next (fillPlay q 16 (modGroup s u fun g => { g with inPlay := false, issued := 0, parked := s.clock })) := by
  have hsome : ¬(oldestParked s q).isNone = true := by simp [Option.isSome_iff_ne_none.mp hp]
  show execPlayQuotaExpire q s = _
  simp only [execPlayQuotaExpire, h, if_neg hsome]

theorem exec_joinRelease {crew j : Nat} {c : Crew} (hc : tget s.crews crew = some c) (hh : c.held = none) (hj : joinReady c j = true) :
    exec (.joinRelease crew j) s = .next { s with crews := tset s.crews crew (joinFree c j s.clock) } := by
  show execJoinRelease crew j s = _
  simp [execJoinRelease, hc, hh, hj]

theorem binDue_iff {bi : Nat} {b : Bin} (hb : (quarterAt s q).bins.getD bi none = some b) : binDue s q bi = true ↔
    (binAged s q bi = true ∨ widthOf s b.key.grid ≤ b.slots.length ∨
      (oldestBin (quarterAt s q).bins = bi ∧ (quarterAt s q).waiting ≠ [])) := by
  unfold binDue
  rw [hb]
  simp
theorem exec_binAgeLimit_due {bi : Nat} {b : Bin} (hb : (quarterAt s q).bins.getD bi none = some b) (hd : binDue s q bi = true) :
    exec (.binAgeLimit q bi) s = .next (fileWaiting (drawBin s q bi (widthOf s b.key.grid)) q) := by
  show execBinAgeLimit q bi s = _
  simp only [execBinAgeLimit, hb, if_pos hd]
theorem exec_binAgeLimit_free {bi : Nat} (hb : (quarterAt s q).bins.getD bi none = none) :
    exec (.binAgeLimit q bi) s = .next (fileWaiting s q) := by
  show execBinAgeLimit q bi s = _
  simp only [execBinAgeLimit, hb]

/-- A unit whose access waits is ready once what it waits for is there (R135, R166, R417). -/
theorem accessGoesOn_partner {t : Nat} (h : padBusy s t = false) : accessGoesOn s u (.partner t) = clearWait s u :=
  if_neg (Bool.eq_false_iff.mp h)
theorem accessGoesOn_sent {t : Nat} (h : queuedFrom s (fun r => meetIn r.writers (writersOf s u)) ≠ some t) :
    accessGoesOn s u (.sent t) = clearWait s u :=
  if_neg h
theorem accessGoesOn_places (h : placesUsed s (coreOf s u) < corePlaces) : accessGoesOn s u .places = clearWait s u := if_pos h

theorem exec_variableLatencyResult {n : Nat} (hb : bodyOf (performNth s u n) u = some b) :
    exec (.variableLatencyResult ⟨u, n⟩) s = .next (wakeScoreboard (putBody (performNth s u n) u b.landAll) u) := by
  show execVariableLatencyResult ⟨u, n⟩ s = _
  simp only [execVariableLatencyResult, hb]

theorem exec_aelogRecordWrite {core : Nat} {r : AeRec} {rest : List AeRec} (hr : (coreAt s core).aebuf = r :: rest)
    (hh : aelogHeld s r = false) :
    exec (.aelogRecordWrite core) s = .next (aelogWrite (setCore s core { coreAt s core with aebuf := rest }) r) := by
  show execAelogRecordWrite core s = _
  simp [execAelogRecordWrite, hr, hh]

end Events

/-- Settles O50: what is selected is the best of a fold, and every other clause is the event's own branch. -/
theorem groupsIssueAndGoOn : Obligations.GroupsIssueAndGoOn := by
  unfold Obligations.GroupsIssueAndGoOn
  intro s q u
  refine ⟨fun hq h => ?_, fun b => exec_issueSelect_some, exec_issueSelect_none, rfl, rfl, fun i s1 p b g hf hp hb hg hd hw => ?_,
    exec_playQuotaExpire, fun crew j c => exec_joinRelease, fun bi b hb hdue => exec_binAgeLimit_due hb ((binDue_iff hb).mpr hdue),
    fun bi => exec_binAgeLimit_free, fun w i hw hi => ⟨?_, ?_, ?_, ?_, ?_⟩, fun w hw => ⟨?_, ?_, ?_, ?_⟩,
    fun c g => ⟨_, rfl, rfl, rfl, rfl⟩, fun n b => exec_variableLatencyResult, fun core r rest => exec_aelogRecordWrite⟩
  · obtain ⟨hcur, hon, hlast, -⟩ := selects_quarter hq h
    exact ⟨hcur, hon, hlast, selects_best hq h⟩
  · have hwhy := unreadyAt_of_waitDone hf hp hb hg hd hw
    refine ⟨fun haw => ?_, fun n haw hn => ?_, fun haw hn => ?_⟩
    · simp only [settleReady, hwhy, haw, if_true]
    · simp only [settleReady, hwhy, haw, hn, Bool.false_eq_true, if_false, Option.map_some]
    · simp only [settleReady, hwhy, haw, hn, Bool.false_eq_true, if_false, Option.map_none]
  · exact fun hr hc hb => ⟨_, exec_commandAccept_of_resource hw hi hr hc hb, goesOn_goesFurther ..⟩
  · exact fun off ph ho hf => ⟨_, exec_barwaitRelease_of_flipped hw hi ho hf, goesOn_goesFurther ..⟩
  · exact fun n m ho => ⟨_, exec_opopFill_of_queue hw hi ho, goesOn_goesFurther ..⟩
  · exact fun tok n ho => ⟨_, exec_tokenWaitRelease_of_left hw hi ho, goesOn_goesFurther ..⟩
  · exact fun tok ho hc => ⟨_, exec_tokenWaitRelease_of_room hw hi ho hc, goesOn_goesFurther ..⟩
  · intro t ho hbusy
    rw [exec_commandAccept_of_access hw (by rw [ho]; rfl), ho, accessGoesOn_partner hbusy]
  · intro t ho hsent
    rw [exec_commandAccept_of_access hw (by rw [ho]; rfl), ho, accessGoesOn_sent hsent]
  · intro ho hroom
    rw [exec_commandAccept_of_access hw (by rw [ho]; rfl), ho, accessGoesOn_places hroom]
  · intro m todo b ho hb
    rw [exec_tokenWaitRelease_of_field hw ho]
    exact ⟨fun hfull hout => congrArg _ (waitFieldEnd_of_complete hb hfull hout),
      fun hsome hkeeps => congrArg _ (waitFieldEnd_of_closes hb hsome hkeeps)⟩

end Sys2Proof.Laws
end

section
/-! SUPPORT and the obligation: the scheduler's events (R28, R29, R333, R336, R337, R339, R340, R347, R348, R351, R403, R405). -/

namespace Sys2Proof.Laws

open Sys2Proof Sys2Proof.Machine Sys2Proof.Safety

/-! ### LAUNCH_ENQUEUE (R333, R337) -/

section Enqueue
variable {s s2 s3 : State} {q ctx : Nat} {lq : LaunchQueue} {p : Packet}

/-- The state in which the slot at a queue's head has been taken. -/
def headTaken (s : State) (q : Nat) : State := modQueue s q fun l => { l with head := l.head + 1 }
/-- The address of that slot. -/
def headSlot (lq : LaunchQueue) : Nat := lq.ring.toNat + 128 * (lq.head.toNat % 2 ^ lq.log2)

/-- A slot stands at the head of a queue that a context owns and that has room for it, and the device runs. -/
structure SlotDue (s : State) (q : Nat) (lq : LaunchQueue) (ctx : Nat) : Prop where
  queue : tget s.queues q = some lq
  owner : lq.ctx = some ctx
  slot : lq.head ≠ lq.tail
  room : lq.pending.length < 64
  runs : running s = true

theorem slotDue_not_idle (h : SlotDue s q lq ctx) : ¬(lq.head = lq.tail ∨ 64 ≤ lq.pending.length ∨ (!running s) = true) := by
  simp [h.slot, h.room, h.runs]

theorem exec_launchEnqueue_unread (h : SlotDue s q lq ctx) (hr : slotRead (headTaken s q) ctx (headSlot lq) = none) :
    exec (.launchEnqueue q) s = .next (refuseUnread (headTaken s q) ctx q (headSlot lq)) := by
  unfold headTaken headSlot at hr
  show execLaunchEnqueue q s = _
  simp only [execLaunchEnqueue, h.queue, h.owner, if_neg (slotDue_not_idle h), hr]
  rfl

section Read
variable (h : SlotDue s q lq ctx) (hr : slotRead (headTaken s q) ctx (headSlot lq) = some (p, s2)) (hd : doneHeld s ctx p = false)
include h hr hd

theorem exec_launchEnqueue_enters (ho : p.torn = true ∨ ownsQueue s2 ctx p.queue = true) :
    exec (.launchEnqueue q) s = .next (enqueue s2 ctx q { p with queue := q } none) := by
  unfold headTaken headSlot at hr
  show execLaunchEnqueue q s = _
  simp only [execLaunchEnqueue, h.queue, h.owner, if_neg (slotDue_not_idle h), hr, hd, Bool.false_eq_true, if_false,
    if_pos (Bool.or_eq_true_iff.mpr ho)]

variable (ht : p.torn = false) (ho : ownsQueue s2 ctx p.queue = false)
include ht ho

theorem exec_launchEnqueue_refuses (hp : packetDone s2 ctx p 4 5 = some s3) : exec (.launchEnqueue q) s = .next s3 := by
  unfold headTaken headSlot at hr
  show execLaunchEnqueue q s = _
  simp only [execLaunchEnqueue, h.queue, h.owner, if_neg (slotDue_not_idle h), hr, hd, ht, ho, hp, Bool.or_self, Bool.false_eq_true,
    if_false]
theorem exec_launchEnqueue_drops (hp : packetDone s2 ctx p 4 5 = none) :
    exec (.launchEnqueue q) s = .next (dropLaunch s2 ctx q p) := by
  unfold headTaken headSlot at hr
  show execLaunchEnqueue q s = _
  simp only [execLaunchEnqueue, h.queue, h.owner, if_neg (slotDue_not_idle h), hr, hd, ht, ho, hp, Bool.or_self, Bool.false_eq_true,
    if_false]
end Read

end Enqueue

/-! ### ADMISSION (R337, R339) -/

section Admission
variable {s : State} {j : Judged}

theorem exec_admission_refuses (hrun : running s = true) (hj : (judgeHeads s).find? (fun j => j.code.isSome) = some j) :
    exec .admission s = .next (refuseHead j.s j.ctx j.q j.head.packet (j.code.getD 0)) := by
  show execAdmission s = _
  simp only [execAdmission, hrun, Bool.not_true, Bool.false_eq_true, if_false, hj]
theorem exec_admission_admits {b : Bound} (hrun : running s = true) (hnone : (judgeHeads s).find? (fun j => j.code.isSome) = none)
    (hj : bestHead (judgeHeads s) = some j) (hv : j.v = .bound b) :
    exec .admission s = .next (admitHead j.s j.ctx j.q j.head.packet b) := by
  show execAdmission s = _
  simp only [execAdmission, hrun, Bool.not_true, Bool.false_eq_true, if_false, hnone, hj, hv]
theorem exec_admission_notes (hrun : running s = true) (hnone : (judgeHeads s).find? (fun j => j.code.isSome) = none)
    (hj : bestHead (judgeHeads s) = none) : exec .admission s = .next (noteHeads s) := by
  show execAdmission s = _
  simp only [execAdmission, hrun, Bool.not_true, Bool.false_eq_true, if_false, hnone, hj]

end Admission

/-! ### Teams and grids (R18, R28, R29, R336) -/

section Teams
variable {s : State} {gid t : Nat} {g : Grid} {tm : Team} {ps : List (Nat × Nat)}

theorem exec_teamPlace (hg : tget s.grids gid = some g) (hleft : g.next < g.packet.teams) (hgo : placeWaits s gid g = false)
    (hon : s.package = .on) (hdone : g.next = 0 → doneHeld s g.ctx g.packet = false) (hps : nextPlaces s gid g = some ps) :
    exec (.teamPlace gid) s = .next (if g.next = 0 then gridDone (startTeams gid ps s) gid 2 0 else startTeams gid ps s) := by
  have hdue : ¬(g.packet.teams ≤ g.next ∨ placeWaits s gid g = true ∨ s.package ≠ .on ∨
      (g.next = 0 ∧ doneHeld s g.ctx g.packet = true)) := by
    rintro (h | h | h | ⟨h, h'⟩)
    · omega
    · simp [hgo] at h
    · exact h hon
    · simp [hdone h] at h'
  show execTeamPlace gid s = _
  simp only [execTeamPlace, hg, if_neg hdue, hps]

@[simp] theorem idleNow_mem (s : State) (core : Nat) : (idleNow s core).mem = s.mem := rfl
@[simp] theorem freeImage_mem (s : State) (t : Nat) : (freeImage s t).mem = s.mem := rfl
@[simp] theorem releaseTeam_mem (s : State) (t : Nat) : (releaseTeam s t).mem = s.mem := rfl
@[simp] theorem tget_teams_releaseTeam (s : State) (t : Nat) : tget (releaseTeam s t).teams t = none := tget_tdel_self ..

theorem exec_teamComplete_free (ht : tget s.teams t = some tm) (hd : teamDone s t tm = true) (hh : coreHeld s tm.core = none) :
    ∃ s', exec (.teamComplete t) s = .next s' ∧ tget s'.teams t = none ∧ s'.mem = (releaseAt (flushTeam s tm) tm.core .l2).mem := by
  show ∃ s', execTeamComplete t s = .next s' ∧ _
  simp only [execTeamComplete, ht, hd, hh, Bool.not_true, Bool.false_eq_true, if_false, Option.isSome_none]
  refine ⟨_, rfl, tget_teams_releaseTeam _ t, ?_⟩
  rw [releaseTeam_mem, freeImage_mem, idleNow_mem, apply_ite State.mem, modGrid_mem, ite_self]
theorem exec_teamComplete_held (ht : tget s.teams t = some tm) (hd : teamDone s t tm = true) (hh : coreHeld s tm.core ≠ none) :
    exec (.teamComplete t) s = .next (askLine s tm.core) := by
  show execTeamComplete t s = _
  simp [execTeamComplete, ht, hd, Option.isSome_iff_ne_none, hh]

theorem exec_gridComplete_free (hg : tget s.grids gid = some g) (ho : gridOver s gid g = true)
    (hd : doneHeld s g.ctx g.packet = false) (hh : ∀ c ∈ g.hosts, coreHeld s c = none) :
    ∃ s', exec (.gridComplete gid) s = .next s' ∧ tget s'.grids gid = none ∧
      s'.mem = (gridDone (g.hosts.foldl (fun s c => releaseAt s c .l2) s) gid 3 0).mem := by
  have hfind : g.hosts.find? (fun c => (coreHeld s c).isSome) = none := by
    simpa using hh
  show ∃ s', execGridComplete gid s = .next s' ∧ _
  simp only [execGridComplete, hg, ho, hd, hfind, Bool.not_true, Bool.false_eq_true, or_self, if_false]
  exact ⟨_, rfl, tget_tdel_self .., rfl⟩
theorem exec_gridComplete_held {c : Nat} (hg : tget s.grids gid = some g) (ho : gridOver s gid g = true)
    (hd : doneHeld s g.ctx g.packet = false) (hf : g.hosts.find? (fun c => (coreHeld s c).isSome) = some c) :
    exec (.gridComplete gid) s = .next (askLine s c) := by
  show execGridComplete gid s = _
  simp only [execGridComplete, hg, ho, hd, hf, Bool.not_true, Bool.false_eq_true, or_self, if_false]

end Teams

/-! ### Records, spilled records and theft (R25, R347, R348, R351) -/

section Records
variable {s : State} {core q : Nat} {r : Rec} {rest : List Rec} {k : Kernel}

/-- The key of the bin in which a record's thread is filed. -/
def recKey (r : Rec) : BinKey := { grid := r.grid, owner := .pool r.pool, pc := r.entry }

theorem exec_recordFile (hr : nextRecord s core = some (r, q, rest)) (hk : kernelOf s r.grid = some k) : exec (.recordFile core) s = .next (
    if (binFor (quarterAt s (4 * core + q)).bins (recKey r)).isNone then drawOldest s (4 * core + q)
    else let n := takeUid (setCore s core { coreAt s core with deque := rest })
      fileThread n.2 (4 * core + q) (recKey r) { spawnedThread k r with num := n.1 }) := by
  show execRecordFile core s = _
  simp only [execRecordFile, hr, hk]
  rfl

/-- The spilled records as they come back to their core, the nearest first, and the state in which they have been read. -/
def spillsRead (ctx : Nat) (rs : List Rec) (s : State) : List Rec × State :=
  rs.foldl (fun (a : List Rec × State) r => let b := unspill a.2 ctx r; (b.1 :: a.1, b.2)) ([], s)

theorem exec_spillReturn {ctx : Nat} {rs : List Rec} (h : spillBack (claimSpill s core) core = some (ctx, rs)) :
    ∃ t, exec (.spillReturn core) s = .next t ∧ (coreAt t core).deque =
      (coreAt (spillsRead ctx rs (claimSpill s core)).2 core).deque ++ (spillsRead ctx rs (claimSpill s core)).1 := by
  show ∃ t, execSpillReturn core s = .next t ∧ _
  simp only [execSpillReturn, h]
  refine ⟨_, rfl, ?_⟩
  rw [coreAt_setCore_self]
  rfl

theorem coreAt_setDie (s : State) (n core : Nat) (d : Die) : coreAt (setDie s n d) core = coreAt s core := rfl

theorem setCore_deque {c : Core} (h : c.deque = (coreAt s core).deque) (n : Nat) :
    (coreAt (setCore s core c) n).deque = (coreAt s n).deque := by
  by_cases hn : n = core
  · rw [hn, coreAt_setCore_self, h]
  · rw [coreAt_setCore_ne _ _ hn]

/-- Waking a core leaves every deque as it is (R391). -/
theorem wakeCore_deque (s : State) (core n : Nat) : (coreAt (wakeCore s core) n).deque = (coreAt s n).deque := by
  simp only [wakeCore, apply_ite fun t => (coreAt t n).deque, coreAt_setDie, setCore_deque, ite_self]

/-- Records pushed where there is room for all of them stand at the owner end, the last pushed first. -/
theorem pushAll_room (rs : List Rec) (s : State) (h : (coreAt s core).deque.length + rs.length ≤ 1024) :
    (pushAll core rs s).1 = rs.length ∧ (coreAt (pushAll core rs s).2 core).deque = rs.reverse ++ (coreAt s core).deque := by
  induction rs generalizing s with
  | nil => exact ⟨rfl, rfl⟩
  | cons r rs ih =>
    rw [List.length_cons] at h
    have hlt : (coreAt s core).deque.length < 1024 := by omega
    have hpush : pushRec s core r = some (setCore s core { coreAt s core with deque := r :: (coreAt s core).deque }) := by
      simp only [pushRec, if_pos hlt]
    obtain ⟨hn, hd⟩ := ih (setCore s core { coreAt s core with deque := r :: (coreAt s core).deque }) (by
      rw [coreAt_setCore_self, List.length_cons]
      omega)
    simp only [pushAll, hpush]
    rw [coreAt_setCore_self] at hd
    exact ⟨by rw [hn, List.length_cons], by rw [hd]; simp⟩

theorem dropFirst_subset (p : Rec → Bool) (n : Nat) (rs : List Rec) : ∀ r ∈ dropFirst p n rs, r ∈ rs := by
  induction rs generalizing n with
  | nil => simp [dropFirst]
  | cons a rs ih =>
    intro r hr
    cases n with
    | zero => exact hr
    | succ n =>
      rw [dropFirst] at hr
      split at hr
      · exact List.mem_cons_of_mem a (ih n r hr)
      · rcases List.mem_cons.mp hr with rfl | hr
        · exact List.mem_cons_self
        · exact List.mem_cons_of_mem a (ih (n + 1) r hr)

theorem theft_ne_nil {v : Nat} {gs : List Nat} (h : stealFrom s core = some (v, gs)) : theft s v gs ≠ [] := by
  unfold stealFrom at h
  dsimp only at h
  split at h
  · cases h
  · obtain ⟨w, hw, he⟩ := Option.map_eq_some_iff.mp h
    cases he
    simpa using List.find?_some hw

theorem exec_steal_room {v : Nat} {gs : List Nat} (h : stealFrom s core = some (v, gs)) (hv : v ≠ core)
    (hroom : (coreAt s core).deque.length + (theft s v gs).length ≤ 1024) : ∃ t, exec (.steal core) s = .next t ∧
      (coreAt t core).deque = (theft s v gs).reverse ++ (coreAt s core).deque ∧ ∀ r ∈ (coreAt t v).deque, r ∈ (coreAt s v).deque := by
  obtain ⟨hn, hd⟩ := pushAll_room (theft s v gs) (wakeCore s core) (by rwa [wakeCore_deque])
  have hsome : ¬(pushAll core (theft s v gs) (wakeCore s core)).1 = 0 := by
    rw [hn, List.length_eq_zero_iff]
    exact theft_ne_nil h
  show ∃ t, execSteal core s = .next t ∧ _
  simp only [execSteal, h, if_neg hsome]
  refine ⟨_, rfl, ?_, ?_⟩
  · rw [coreAt_setCore_ne _ _ hv.symm, hd, wakeCore_deque]
  · rw [coreAt_setCore_self]
    exact fun r hr => List.mem_reverse.mp (dropFirst_subset _ _ _ r (List.mem_reverse.mp hr))
theorem exec_steal_full {v : Nat} {gs : List Nat} (h : stealFrom s core = some (v, gs))
    (hnone : (pushAll core (theft s v gs) (wakeCore s core)).1 = 0) : exec (.steal core) s = .next s := by
  show execSteal core s = _
  simp only [execSteal, h, if_pos hnone]

end Records

/-! ### Handlers and fault records (R403, R405) -/

section Faults
variable {s s1 s2 s3 : State} {dom : Nat} {d : Domain} {tail head : W32}

/-- The number of the grid that HANDLER_START makes; `s2` is the state in which the handler's code has been read. -/
def handlerUid (s2 : State) : Nat := (takeUid (pickHandle s2).2).1
/-- The grid; `s` is the state of the event (R405). -/
def handlerGrid (s : State) (dom : Nat) (d : Domain) (k : Kernel) (g : Segment) (entry : W32) (s2 : State) : Grid :=
  { newGrid d.ctx (pickHandle s2).1 (takeUid (pickHandle s2).2).2.nums.order (handlerPacket d k entry) k g [] with
    handles := some dom, primrose := debugOf s d.ctx != .none }
/-- The state with the grid, before a place is looked for. -/
def handlerAdded (s : State) (dom : Nat) (d : Domain) (k : Kernel) (g : Segment) (entry : W32) (s2 : State) : State :=
  let n := takeUid (pickHandle s2).2
  modDomain { n.2 with grids := tset n.2.grids n.1 (handlerGrid s dom d k g entry s2) } dom fun d => { d with handler := some n.1 }

theorem tget_grids_handlerAdded (s : State) (dom : Nat) (d : Domain) (k : Kernel) (g : Segment) (entry : W32) (s2 : State) :
    tget (handlerAdded s dom d k g entry s2).grids (handlerUid s2) = some (handlerGrid s dom d k g entry s2) := tget_tset_self ..

theorem exec_handlerStart {k : Kernel} {g : Segment} {entry : W32} (hd : tget s.domains dom = some d) (hh : d.handler = none)
    (hon : s.package = .on) (he : queueEnds s d = some (tail, head, s1)) (hne : tail ≠ head)
    (hc : handlerCode s1 d = some (k, g, entry, s2)) :
    let gid := handlerUid s2
    let s4 := handlerAdded s dom d k g entry s2
    ∃ t, exec (.handlerStart dom) s = .next t ∧
      (nextPlaces s4 gid (handlerGrid s dom d k g entry s2) = none → t = s4) ∧
      (∀ ps, nextPlaces s4 gid (handlerGrid s dom d k g entry s2) = some ps → t = startTeams gid ps s4) := by
  have hready : ¬(d.handler.isSome = true ∨ s.package ≠ .on) := by
    simp [hh, hon]
  intro gid s4
  show ∃ t, execHandlerStart dom s = .next t ∧ _
  simp only [execHandlerStart, hd, if_neg hready, he, if_neg hne, hc]
  refine ⟨_, rfl, fun hn => ?_, fun ps hps => ?_⟩
  · split
    · rename_i hs
      cases hs.symm.trans hn
    · rfl
  · split
    · rename_i hs
      cases hs.symm.trans hps
      rfl
    · rename_i hs
      cases hs.symm.trans hps

theorem exec_faultRecordWrite {r : FRec} {rest : List FRec} (hd : tget s.domains dom = some d) (hp : d.pending = r :: rest)
    (hq : d.qsize ≠ 0) (hon : s.package = .on) (hl : loadsOut s r = false) (he : queueEnds s d = some (tail, head, s1))
    (hroom : (tail - head).toNat + r.slots ≤ d.qsize) (hh : slotsHeld s d tail r.slots = false)
    (hw : writeSlots d tail (r.bytes d.ctx) (List.range r.slots) s1 = some s2)
    (ht : blockWrite s2 d.ctx d.qctl.toNat (toBytes 4 (tail + BitVec.ofNat 32 r.slots).toNat) = .ok s3) :
    exec (.faultRecordWrite dom) s =
      .next (raiseMsix (modDomain s3 dom fun d => { d with pending := rest, outst := d.outst ++ [r] }) 62) := by
  have hready : ¬(d.qsize = 0 ∨ s.package = .s3 ∨ s.package = .off ∨ loadsOut s r = true) := by
    simp [hq, hon, hl]
  have hfits : ¬(d.qsize < (tail - head).toNat + r.slots ∨ slotsHeld s d tail r.slots = true) :=
    not_or.mpr ⟨Nat.not_lt.mpr hroom, Bool.eq_false_iff.mp hh⟩
  show execFaultRecordWrite dom s = _
  simp only [execFaultRecordWrite, hd, hp, if_neg hready, he, if_neg hfits, hw, ht]

end Faults

/-- Settles O55: each clause is one branch of its event. -/
theorem theSchedulerRuns : Obligations.TheSchedulerRuns := by
  unfold Obligations.TheSchedulerRuns
  intro s
  refine ⟨fun q lq ctx hq hc hslot hroom hrun => ?_,
    fun hrun => ⟨fun j => exec_admission_refuses hrun, fun j b => exec_admission_admits hrun, exec_admission_notes hrun,
      congrArg Host.Outcome.next (if_neg (by simp [hrun]))⟩,
    fun gid g ps hg hleft hgo hon hdone => exec_teamPlace hg hleft hgo hon hdone,
    fun t tm ht hd => ⟨exec_teamComplete_free ht hd, exec_teamComplete_held ht hd⟩,
    fun gid g hg ho hd => ⟨exec_gridComplete_free hg ho hd, fun c => exec_gridComplete_held hg ho hd⟩,
    fun core r q rest k hr hk => ⟨fun hbin => ?_, fun hbin => ?_⟩, fun core ctx rs h => ?_,
    fun core v gs h hv => ⟨exec_steal_room h hv, exec_steal_full h⟩,
    fun dom d hd hh hon tail head s1 k g entry s2 he hne hc => ?_,
    fun dom d r rest tail head s1 s2 s3 hd hp hq hon hl he hroom hh hw ht => exec_faultRecordWrite hd hp hq hon hl he hroom hh hw ht⟩
  · have h : SlotDue s q lq ctx := ⟨hq, hc, hslot, hroom, hrun⟩
    exact ⟨exec_launchEnqueue_unread h, fun p s2 hr hd => ⟨exec_launchEnqueue_enters h hr hd,
      fun s3 ht ho => exec_launchEnqueue_refuses h hr hd ht ho, exec_launchEnqueue_drops h hr hd⟩⟩
  · exact (exec_recordFile hr hk).trans (congrArg _ (if_neg (by simpa [recKey] using hbin)))
  · exact (exec_recordFile hr hk).trans (congrArg _ (if_pos (by simpa [recKey] using hbin)))
  · obtain ⟨t, ht, hdeque⟩ := exec_spillReturn h
    exact ⟨t, _, ht, rfl, hdeque⟩
  · obtain ⟨t, ht, hwaits, hplaced⟩ := exec_handlerStart hd hh hon he hne hc
    exact ⟨handlerUid s2, handlerGrid s dom d k g entry s2, t, ht, rfl, rfl, rfl, handlerAdded s dom d k g entry s2,
      tget_grids_handlerAdded .., hwaits, hplaced⟩

end Sys2Proof.Laws
end

section
/-! SUPPORT and the obligations: the true predicate, the state at reset and special registers (R29, R40, R44, R46 to R48, R348, R391, R430). -/

namespace Sys2Proof.Laws

open Sys2Proof Sys2Proof.Machine Sys2Proof.Safety

/-! ## The true predicate -/

/-- A predicate result for `pt` leaves a crew as it was (R40). -/
theorem putP_pt {b : Body} {d : Spec} (hb : b.isAp = false) (hd : d.toNat % 8 = 7) (m : Mask) (clock : Nat) (f : Nat → Bool)
    (ready : Option Nat) : b.putP m clock d f ready = b := by
  simp [Body.putP, hb, hd]

/-- `pt` without a negate bit reads true in every lane of a crew (R40). -/
theorem p_pt {x : Ex} {d : Spec} (hb : x.body.isAp = false) (hd : d.toNat % 8 = 7) (hn : d.getLsbD 3 = false) (l : Nat) :
    x.p d l = true := by
  simp only [Ex.p, hb, hd, hn, Bool.false_eq_true, ↓reduceIte, Bool.xor_false]

/-- Settles O25: a crew is no access thread, so `pt` is the predicate that discards and reads true. -/
theorem truePredicate : Obligations.TruePredicate := by
  unfold Obligations.TruePredicate
  intro x cr d lat h hx hd
  have hb : x.body.isAp = false := by rw [hx]; rfl
  exact ⟨putP_pt hb hd .., p_pt hb hd⟩

/-! ## After reset -/

/-- Of the control registers of a context that opens only BIN_AGE is not 0 (R46, R47). -/
theorem ctlRead_reset {idx : Nat} (h : idx ≠ 2) : ctlRead CtlRegs.reset idx = 0 := by
  unfold ctlRead
  split
  case h_3 => exact absurd rfl h
  all_goals rfl

/-- Settles O49: each clause reads a field of the state at reset. -/
theorem afterReset : Obligations.AfterReset := by
  unfold Obligations.AfterReset
  exact ⟨rfl, fun e he => List.eq_of_mem_replicate he, rfl, rfl, rfl, rfl, rfl, rfl, rfl, rfl, rfl, rfl, rfl, rfl, reset_mem_wf,
    fun _ => rfl, rfl, fun _ => ctlRead_reset⟩

/-! ## Special registers -/

section Special
variable {s : State} {x : Ex} {c : Ctl} {d : Spec} {sp : Special}

theorem exec_rdsp (h : runsAs s (.rdsp c d sp) x) : exec (.rdsp c d sp) s = .next (retire x c
    (if specialWide sp then x.body.sendW x.exec d (specialVal s x sp) else x.body.sendV x.exec d fun l => lo32 (specialVal s x sp l)) s) :=
  exec_runs h rfl rfl

theorem lo32_ofNat (n : Nat) : lo32 (BitVec.ofNat 64 n) = BitVec.ofNat 32 n := by
  simp [lo32]

theorem specialVal_lane (hb : x.body.isAp = false) (l : Nat) : lo32 (specialVal s x .lane l) = BitVec.ofNat 32 l := by
  simp only [specialVal, hb, Bool.false_eq_true, ↓reduceIte, lo32_ofNat]
theorem specialVal_quad (hb : x.body.isAp = false) (l : Nat) : lo32 (specialVal s x .quad l) = BitVec.ofNat 32 (l % 32 / 4) := by
  simp only [specialVal, hb, Bool.false_eq_true, ↓reduceIte, lo32_ofNat]
/-- What an access thread has no place in a crew for reads all ones (R44). -/
theorem specialVal_access {a : Machine.Access} (hb : x.body = .ap a) (h : sp ∈ [Special.lane, .quad, .crew, .thread]) (l : Nat) :
    lo32 (specialVal s x sp l) = 0xFFFFFFFF#32 := by
  simp only [List.mem_cons, List.not_mem_nil, or_false] at h
  rcases h with rfl | rfl | rfl | rfl <;> simp only [specialVal, hb] <;> rfl
theorem specialVal_accessEntry {a : Machine.Access} (hb : x.body = .ap a) (l : Nat) : specialVal s x .entry l = a.entry := by
  simp only [specialVal, hb]

section Crew
variable {cr : Crew} {th : Thread} {l : Nat}

theorem specialVal_crew (hb : x.body = .crew cr) (l : Nat) : specialVal s x .crew l = BitVec.ofNat 64 cr.num := by
  simp only [specialVal, hb]
theorem specialVal_entry (hb : x.body = .crew cr) (ht : cr.lanes.getD l none = some th) : specialVal s x .entry l = th.entry := by
  simp only [specialVal, hb, ht]
theorem specialVal_thread {k : Nat} (hb : x.body = .crew cr) (ht : cr.lanes.getD l none = some th) (ho : cr.owner = .team k) :
    specialVal s x .thread l = BitVec.ofNat 64 th.tid := by
  simp only [specialVal, hb, ht, ho]
theorem specialVal_spawnedThread {p : Nat} (hb : x.body = .crew cr) (ho : cr.owner = .pool p) (l : Nat) :
    lo32 (specialVal s x .thread l) = 0xFFFFFFFF#32 := by
  simp only [specialVal, hb, ho]
  rfl
end Crew

section Team
variable {k : Nat} {tm : Team} {g : Machine.Grid}

theorem specialVal_team (hk : teamOf s x.ref = some k) (ht : tget s.teams k = some tm) (l : Nat) :
    specialVal s x .team l = BitVec.ofNat 64 tm.idx := by
  simp only [specialVal, hk, teamIndex, ht]
theorem teamPlaceOf_of_team (hk : teamOf s x.ref = some k) (ht : tget s.teams k = some tm) (hg : tget s.grids tm.grid = some g) :
    teamPlaceOf s x.ref = some (tm.idx, g.packet.gx, g.packet.gy) := by
  simp only [teamPlaceOf, hk, ht, hg]
theorem specialVal_noTeam (hn : teamOf s x.ref = none) (l : Nat) : specialVal s x .team l = BitVec.allOnes 64 := by
  simp only [specialVal, hn, teamIndex]
theorem specialVal_noPlace (hn : teamOf s x.ref = none) (h : sp ∈ [Special.gridX, .gridY, .gridZ]) (l : Nat) :
    lo32 (specialVal s x sp l) = 0xFFFFFFFF#32 := by
  have hp : teamPlaceOf s x.ref = none := by simp only [teamPlaceOf, hn]
  simp only [List.mem_cons, List.not_mem_nil, or_false] at h
  rcases h with rfl | rfl | rfl <;> simp only [specialVal, hp] <;> rfl
end Team

end Special

/-- Settles O10: each clause is the value of one special register above. -/
theorem specialRegisterReads : Obligations.SpecialRegisterReads := by
  unfold Obligations.SpecialRegisterReads
  intro s x c d sp h
  refine ⟨fun hw => ?_, fun hw => ?_, fun l => ⟨rfl, rfl, rfl, rfl⟩, fun l ha p hp => ?_,
    fun l ha => ⟨specialVal_lane ha l, specialVal_quad ha l⟩,
    fun cr l hc => ⟨specialVal_crew hc l, fun t ht => ⟨specialVal_entry hc ht, fun k => specialVal_thread hc ht⟩,
      fun p hp => specialVal_spawnedThread hc hp l⟩,
    fun a l ha => specialVal_accessEntry ha l,
    fun k l tm hk ht => ⟨specialVal_team hk ht l, fun g hg => ?_⟩,
    fun l hn => ⟨specialVal_noTeam hn l, fun p hp => specialVal_noPlace hn hp l⟩, fun uid low cr hu hc => ?_, fun k hk => ?_⟩
  · rw [exec_rdsp h, if_pos hw]
  · rw [exec_rdsp h, if_neg (Bool.eq_false_iff.mp hw)]
  · cases hb : x.body with
    | crew cr => simp [hb, Body.isAp] at ha
    | ap a => exact specialVal_access hb hp l
  · simp only [specialVal, teamPlaceOf_of_team hk ht hg, and_self]
  · simp only [teamOf, hu, hc] <;> rfl
  · simp only [teamOf, hk]

end Sys2Proof.Laws
end

section
/-! SUPPORT and the obligation: requests on contexts and the host port (R46, R333, R367, R368, R370, R374, R376 to R378, R383, R384, R390). -/

namespace Sys2Proof.Laws

open Sys2Proof Sys2Proof.Machine Sys2Proof.Safety

section Requests
variable {s s1 s2 : State}

/-! ### Requests: carried out with a good reply, or refused with a bad one -/

theorem request_some (h : running s = true) (s1 : State) : request s (some s1) = reply s1 true := by simp [request, h]
theorem request_none (h : running s = true) : request s none = reply s false := by simp [request, h]
theorem request_ite {p : Prop} [Decidable p] (h : running s = true) (s1 : State) :
    request s (if p then some s1 else none) = if p then reply s1 true else reply s false := by
  split
  · exact request_some h s1
  · exact request_none h

theorem request_map {α : Type} (h : running s = true) (o : Option α) (f : α → State) :
    request s (o.map f) = o.elim (reply s false) fun a => reply (f a) true := by
  cases o with
  | none => exact request_none h
  | some a => exact request_some h (f a)

variable {ctx key : Nat}

/-! ### Contexts -/

theorem exec_contextOpen {t : Nat × State} (hr : running s = true) (hc : ctx < 256) (hn : tget s.ctxs ctx = none) (hk : slotOk s key = true)
    (ht : takeTable s ctx = some t) : exec (.contextOpen ctx key) s = .next (reply { t.2 with
      ctxs := tset t.2.ctxs ctx (freshCtx key t.1 none 0)
      sec := { t.2.sec with slots := if key = 0 then t.2.sec.slots else (key, ctx) :: t.2.sec.slots } } true) := by
  have hgo : ¬(256 ≤ ctx ∨ (tget s.ctxs ctx).isSome ∨ !slotOk s key) := by simp [hn, hk, hc]
  show execContextOpen ctx key s = _
  rw [execContextOpen, openContext, if_neg hgo, ht, Option.map_some, request_some hr]
theorem exec_contextOpen_refused (hr : running s = true) (h : 256 ≤ ctx ∨ (tget s.ctxs ctx).isSome = true ∨ slotOk s key = false) :
    exec (.contextOpen ctx key) s = .next (reply s false) := by
  have hno : 256 ≤ ctx ∨ (tget s.ctxs ctx).isSome ∨ !slotOk s key := by simpa using h
  show execContextOpen ctx key s = _
  rw [execContextOpen, openContext, if_pos hno, request_none hr]

theorem exec_contextClose (hr : running s = true) (ctx : Nat) : exec (.contextClose ctx) s =
    .next (if (tget s.ctxs ctx).isSome then reply (closeContext s ctx) true else reply s false) :=
  congrArg _ (request_ite hr _)

/-! ### Mappings -/

section Mapping
variable {c : Ctx} {va : Addr} {pa : Nat} {big auth : Bool} {flags : BitVec 5} {at_ e : Nat} {remap : Option Nat}

theorem exec_map (hr : running s = true) (hc : tget s.ctxs ctx = some c) (hp : pageOk va.toNat pa big = true)
    (hf : framesOk s ctx va.toNat pa big = true) (hl : leafOf s c.root va.toNat = none) (ha : authorised s ctx auth = some s1)
    (hplace : leafPlace (giveFrames s1 ctx va.toNat pa big flags[3]) ctx c.root va.toNat big = some (at_, s2))
    (hfree : readEntry s2 at_ % 2 ≠ 1) :
    exec (.map ctx va pa big flags auth) s = .next (reply (writeEntry s2 at_ (leafEntry pa flags)) true) := by
  have hgo : ¬((!pageOk va.toNat pa big || !framesOk s ctx va.toNat pa big || (leafOf s c.root va.toNat).isSome) = true) := by
    simp [hp, hf, hl]
  show execMap ctx va pa big flags auth s = _
  simp only [execMap, hc, if_neg hgo, ha, Option.bind_some, newMapping, hplace, if_neg hfree, request_some hr]
theorem exec_map_refused (hr : running s = true) (hc : tget s.ctxs ctx = some c)
    (h : pageOk va.toNat pa big = false ∨ framesOk s ctx va.toNat pa big = false ∨ (leafOf s c.root va.toNat).isSome = true) :
    exec (.map ctx va pa big flags auth) s = .next (reply s false) := by
  have hno : (!pageOk va.toNat pa big || !framesOk s ctx va.toNat pa big || (leafOf s c.root va.toNat).isSome) = true := by
    simpa [or_assoc] using h
  show execMap ctx va pa big flags auth s = _
  simp only [execMap, hc, if_pos hno, request_none hr]

theorem unmapOk_of (ha : va.toNat % pageSize big = 0)
    (h : ∀ pa, remap = some pa → pageOk va.toNat pa big = true ∧ framesOk s ctx va.toNat pa big = true) :
    unmapOk s ctx va remap big = true := by
  cases remap with
  | none => simp [unmapOk, ha]
  | some pa => simp [unmapOk, ha, h pa rfl]
theorem exec_unmap_noLeaf (hr : running s = true) (hc : tget s.ctxs ctx = some c) (hl : leafOf s c.root va.toNat = none) :
    exec (.unmap ctx va remap auth) s = .next (reply s false) := by
  show execUnmap ctx va remap auth s = _
  simp only [execUnmap, hc, hl, request_none hr]
theorem exec_unmap_waits (hc : tget s.ctxs ctx = some c) (hl : leafOf s c.root va.toNat = some (at_, e, big))
    (hok : unmapOk s ctx va remap big = true) (hb : pageBusy s ctx va.toNat (entryPa e) big = true) :
    exec (.unmap ctx va remap auth) s = .next s := by
  show execUnmap ctx va remap auth s = _
  simp only [execUnmap, hc, hl, hok, hb, Bool.not_true, Bool.false_eq_true, ↓reduceIte]
/-- What UNMAP makes of a leaf's entry: a leaf of the frames given in place of the old ones, or nothing. -/
def replaceLeaf (s : State) (ctx va : Nat) (remap : Option Nat) (big : Bool) (at_ e : Nat) : State :=
  match remap with
  | some pa => writeEntry (giveFrames s ctx va pa big (BitVec.ofNat 5 (e / 4))[3]) at_ (leafEntry pa (BitVec.ofNat 5 (e / 4)))
  | none => writeEntry s at_ 0
theorem exec_unmap (hr : running s = true) (hc : tget s.ctxs ctx = some c) (hl : leafOf s c.root va.toNat = some (at_, e, big))
    (hok : unmapOk s ctx va remap big = true) (hb : pageBusy s ctx va.toNat (entryPa e) big = false)
    (ha : authorised s ctx auth = some s1) : exec (.unmap ctx va remap auth) s =
      .next (reply (if winOf va.toNat = .global then
          (pageFrames (entryPa e) big).foldl (leaveFrame ctx) (replaceLeaf s1 ctx va.toNat remap big at_ e)
        else replaceLeaf s1 ctx va.toNat remap big at_ e) true) := by
  show execUnmap ctx va remap auth s = _
  simp only [execUnmap, hc, hl, hok, hb, ha, Bool.not_true, Bool.false_eq_true, ↓reduceIte, Option.map_some, request_some hr]
  rfl

end Mapping

/-! ### Launch queues -/

section Queues
variable {q log2 c : Nat} {ring : Addr} {auth : Bool} {lq : LaunchQueue}

/-- What QUEUE_SETUP makes of a queue, of none before it or of the one that was there. -/
def boundQueue (old : Option LaunchQueue) (ctx : Nat) (ring : Addr) (log2 : Nat) : LaunchQueue :=
  match old with
  | some l => { l with ctx := some ctx, ring, log2, head := 0, tail := 0 }
  | none => { ctx := some ctx, ring, log2, head := 0, tail := 0, pending := [], dropped := 0, lost := false, overrun := false }

/-- A state with that queue bound. -/
def bindQueue (q : Nat) (old : Option LaunchQueue) (ctx : Nat) (ring : Addr) (log2 : Nat) (s : State) : State :=
  { s with queues := tset s.queues q (boundQueue old ctx ring log2) }

/-- The state in which both owners have agreed to a queue's change of hands, the one before it first: that one is not asked where it is the new
one, or there is none (R333). -/
def ownersAgree (s : State) (old : Option LaunchQueue) (ctx : Nat) (auth : Bool) : Option State :=
  (match old with
    | some lq => (match lq.ctx with
      | some c => if c = ctx then some s else authorised s c auth
      | none => some s)
    | none => some s).bind fun s1 => authorised s1 ctx auth
theorem ownersAgree_own {old : Option LaunchQueue} (h : ∀ lq, old = some lq → lq.ctx = none ∨ lq.ctx = some ctx) :
    ownersAgree s old ctx auth = authorised s ctx auth := by
  cases old with
  | none => rfl
  | some lq => rcases h lq rfl with e | e <;> simp [ownersAgree, e]
theorem ownersAgree_other (hx : lq.ctx = some c) (hne : c ≠ ctx) :
    ownersAgree s (some lq) ctx auth = (authorised s c auth).bind fun s1 => authorised s1 ctx auth := by
  simp [ownersAgree, hx, hne]

/-- QUEUE_SETUP in order is carried out where the owners agree. -/
theorem exec_queueSetup (hr : running s = true) (hq : q < 16) (hlo : 4 ≤ log2) (hhi : log2 ≤ 16)
    (hidle : ∀ lq, tget s.queues q = some lq → lq.pending = []) : exec (.queueSetup q ctx ring log2 auth) s =
      .next ((ownersAgree s (tget s.queues q) ctx auth).elim (reply s false) fun s2 =>
        reply (bindQueue q (tget s.queues q) ctx ring log2 s2) true) := by
  have hgo : ¬(16 ≤ q ∨ log2 < 4 ∨ 16 < log2 ∨ (match tget s.queues q with | some lq => !lq.pending.isEmpty | none => false) = true) := by
    cases h : tget s.queues q with
    | none => simp; omega
    | some lq => simp [hidle lq h]; omega
  refine congrArg Host.Outcome.next ((congrArg (request s) (if_neg hgo)).trans ?_)
  exact request_map hr (ownersAgree s (tget s.queues q) ctx auth) (bindQueue q (tget s.queues q) ctx ring log2)
theorem exec_queueSetup_refused (hr : running s = true)
    (h : 16 ≤ q ∨ log2 < 4 ∨ 16 < log2 ∨ ∃ lq, tget s.queues q = some lq ∧ lq.pending ≠ []) :
    exec (.queueSetup q ctx ring log2 auth) s = .next (reply s false) := by
  have hno : 16 ≤ q ∨ log2 < 4 ∨ 16 < log2 ∨ (match tget s.queues q with | some lq => !lq.pending.isEmpty | none => false) = true := by
    rcases h with h | h | h | ⟨lq, ht, hp⟩
    · exact .inl h
    · exact .inr (.inl h)
    · exact .inr (.inr (.inl h))
    · exact .inr (.inr (.inr (by simp [ht, hp])))
  show execQueueSetup q ctx ring log2 auth s = _
  exact congrArg _ ((congrArg _ (if_pos hno)).trans (request_none hr))

end Queues

/-! ### The aperture, control registers and pairings -/

theorem exec_aperturePlacement (hr : running s = true) (base : Nat) : exec (.aperturePlacement base) s =
    .next (if base % 2 ^ 36 = 0 ∧ base < 0xC000000000 then reply { s with host := { s.host with apbase := base } } true else reply s false) :=
  congrArg _ (request_ite hr _)

theorem exec_contextControlWrite {idx : BitVec 12} {auth : Bool} (hr : running s = true) (hg : gridsOfCtx s ctx = [])
    (hi : idx.toNat < 0x100) (v : W32) (ha : authorised s ctx auth = some s1) : exec (.contextControlWrite ctx idx v auth) s =
      .next (reply (modCtx s1 ctx fun c => { c with regs := ctlWrite c.regs idx.toNat v }) true) := by
  have hgo : ¬((!(gridsOfCtx s ctx).isEmpty || decide (0x100 ≤ idx.toNat)) = true) := by simp [hg, hi]
  show execContextControlWrite ctx idx v auth s = _
  simp only [execContextControlWrite, if_neg hgo, ha, Option.map_some, request_some hr]
theorem exec_contextControlWrite_refused {idx : BitVec 12} {auth : Bool} (hr : running s = true) (v : W32)
    (h : gridsOfCtx s ctx ≠ [] ∨ 0x100 ≤ idx.toNat ∨ authorised s ctx auth = none) :
    exec (.contextControlWrite ctx idx v auth) s = .next (reply s false) := by
  show execContextControlWrite ctx idx v auth s = _
  rw [execContextControlWrite]
  split
  · rw [request_none hr]
  · rename_i hgo
    have ha : authorised s ctx auth = none := by
      simp at hgo
      exact (h.resolve_left (not_not.mpr hgo.1)).resolve_left (by omega)
    rw [ha, Option.map_none, request_none hr]

theorem exec_pairing (hr : running s = true) (ctx port partner : Nat) (agrees : Bool) : exec (.pairing ctx port partner agrees) s =
    .next (if (tget s.ctxs ctx).isNone || !s.links.peersUp.contains port || !agrees || s.pairs.any (fun p => p.ctx == ctx && p.port == port)
      then reply s false
      else reply { s with pairs := s.pairs ++ [{ ctx, port, partner, key := Config.pairingKey ctx port partner }] } true) := by
  show execPairing ctx port partner agrees s = _
  rw [execPairing]
  split
  · rw [request_none hr]
  · rw [request_some hr]

/-! ### Doorbells and queue status -/

section Doorbell
variable {q : Nat} {lq : LaunchQueue} {tail : W32}

theorem exec_doorbell (hr : running s = true) (hq : tget s.queues q = some lq) (hc : lq.ctx.isSome = true) :
    exec (.doorbell q tail) s = .next (if aheadOf lq tail ≤ 2 ^ lq.log2 then modQueue s q fun l => { l with tail }
      else if lq.overrun then modQueue s q fun l => { l with overrun := true }
      else raiseMsix (modQueue s q fun l => { l with overrun := true }) 61) := by
  have hgo : ¬((!running s || lq.ctx.isNone) = true) := by simp [hr, Option.isSome_iff_ne_none.mp hc]
  show execDoorbell q tail s = _
  simp only [execDoorbell, hq, if_neg hgo]
theorem exec_queueStatusWrite (hr : running s = true) (q : Nat) (v : W32) : exec (.queueStatusWrite q v) s =
    .next (modQueue s q fun l => { l with lost := l.lost && !v[1], overrun := l.overrun && !v[0] }) :=
  congrArg _ (if_pos hr)
end Doorbell

/-! ### The aperture's accesses -/

theorem exec_apertureAccess_write {off : Nat} {bs : List Byte} (hr : running s = true) (h : off + bs.length ≤ 2 ^ 36) (n : Nat) :
    exec (.apertureAccess off n (some bs)) s = .next ((splitLines (s.host.apbase + off) bs).foldl apertureWrite s) := by
  have hgo : ¬((!running s || decide (2 ^ 36 < off + bs.length)) = true) := by simp [hr]; omega
  exact congrArg _ (if_neg hgo)
theorem exec_apertureAccess_read {off n : Nat} (hr : running s = true) (h : off + n ≤ 2 ^ 36) : exec (.apertureAccess off n none) s =
    let r := apertureRead (lineParts (s.host.apbase + off) n) s
    .next { r.2 with host := { r.2.host with reads := r.2.host.reads ++ [r.1] } } := by
  have hgo : ¬((!running s || decide (2 ^ 36 < off + n)) = true) := by simp [hr]; omega
  exact congrArg _ (if_neg hgo)

/-! ### Peers -/

section Peer
variable {port partner : Nat} {va : Addr} {req : PeerReq}

/-- The part of a request of a peer that its pairing and its alignment admit, each byte within its reach. -/
def peerServed (s : State) (port : Nat) (req : PeerReq) (ps : List (Nat × Nat × Nat)) : State :=
  let old := peerLoad ps s
  let update := fun (bs : List Byte) => ps.foldl (fun s p => l2Write s p.1 bs none) old.2.2
  match req with
  | .load _ => sendPeer old.2.2 port (some (old.1, old.2.1))
  | .store bs => sendPeer (ps.foldl (fun s p => l2Write s p.1 ((bs.drop p.2.1).take p.2.2) none) s) port (some ([], false))
  | .atomic op wide v =>
    if old.2.1 then sendPeer old.2.2 port (some (old.1, true)) else sendPeer (update (atomBytes op wide v old.1)) port (some (old.1, false))
  | .cas wide cmp swap =>
    if old.2.1 then sendPeer old.2.2 port (some (old.1, true)) else sendPeer (update (casBytes wide cmp swap old.1)) port (some (old.1, false))

/-- A request of a peer is refused unless it comes through a pairing, aligned where it is an atomic, and reaches every byte (R378). -/
theorem exec_peerAccessIn (hr : running s = true) : exec (.peerAccessIn port partner ctx va req) s =
    .next (if (s.pairs.any fun p => p.ctx == ctx && p.port == port && p.partner == partner) = false
        ∨ PeerReq.kind req = .atomic ∧ va.toNat % PeerReq.size req ≠ 0 then sendPeer s port none
      else match peerParts s ctx (PeerReq.kind req) va.toNat (lineParts va.toNat (PeerReq.size req)) with
        | none => sendPeer s port none
        | some ps => peerServed s port req ps) := by
  show execPeerAccessIn port partner ctx va req s = _
  have e : (!running s || !(s.pairs.any fun p => p.ctx == ctx && p.port == port && p.partner == partner)
        || PeerReq.kind req == .atomic && va.toNat % PeerReq.size req != 0) = true ↔
      (s.pairs.any fun p => p.ctx == ctx && p.port == port && p.partner == partner) = false
        ∨ PeerReq.kind req = .atomic ∧ va.toNat % PeerReq.size req ≠ 0 := by
    simp [hr]
  rw [execPeerAccessIn]
  simp only [e, if_pos hr]
  split
  · rfl
  · cases peerParts s ctx (PeerReq.kind req) va.toNat (lineParts va.toNat (PeerReq.size req)) with
    | none => rfl
    | some ps => cases req <;> rfl

end Peer

/-! ### The debug mailbox, link keys and attestation -/

theorem exec_debugMailboxHostWrite_message {bs : List Byte} (hr : running s = true) (hd : anyDebug s = true) (h : bs.length ≤ 2040) :
    exec (.debugMailboxHostWrite (some bs)) s =
      .next { s with host := { s.host with h2d := some bs, h2dSeq := s.host.h2dSeq + 1 } } := by
  have hgo : ¬((!running s || !anyDebug s) = true) := by simp [hr, hd]
  exact congrArg _ ((if_neg hgo).trans (if_pos h))
theorem exec_debugMailboxHostWrite_taken (hr : running s = true) (hd : anyDebug s = true) :
    exec (.debugMailboxHostWrite none) s = .next { s with host := { s.host with d2h := none } } := by
  have hgo : ¬((!running s || !anyDebug s) = true) := by simp [hr, hd]
  exact congrArg _ (if_neg hgo)
theorem exec_ideKeySet {stream : Nat} (hr : running s = true) (h : stream ≤ 8) (c : Option Nat) : exec (.ideKeySet stream c) s =
    let s1 := { s with host := { s.host with ide := if s.host.ide.contains stream then s.host.ide else stream :: s.host.ide } }
    .next (match c with
      | some c => if stream = 0 then s1 else modCtx s1 c fun x => { x with ide := true }
      | none => s1) := by
  have hgo : ¬((!running s || decide (8 < stream)) = true) := by simp [hr, h]
  exact congrArg _ (if_neg hgo)
theorem exec_attestService {n : Nat} {rest : List Nat} {c : Cmd} {a b : Addr} {seq : W32} (hs : s.sec.attest = n :: rest)
    (hc : tget s.cmds n = some c) (hgo : c.stopped = none) (hk : c.kind = .attest a b seq) :
    exec .attestService s = .next (serveAttest s n c a b seq) := by
  show execAttestService s = _
  simp only [execAttestService, hs, List.findSome?_cons, hc, hgo, Option.isNone_none, ↓reduceIte, hk]

end Requests

/-- Settles O57: each clause is one outcome of its event. -/
theorem requestsOnContextsAndTheHostPort : Obligations.RequestsOnContextsAndTheHostPort := by
  unfold Obligations.RequestsOnContextsAndTheHostPort
  intro s hr
  refine ⟨fun ctx key t => exec_contextOpen hr, fun ctx key => exec_contextOpen_refused hr, fun ctx => ⟨fun h => ?_, fun h => ?_⟩,
    fun ctx c va pa big flags auth s1 at_ s2 => exec_map hr, fun ctx c va pa big flags auth => exec_map_refused hr,
    fun ctx c va remap auth at_ e big hc hl ha hp => ⟨exec_unmap_waits hc hl (unmapOk_of ha hp),
      fun s1 hb => exec_unmap hr hc hl (unmapOk_of ha hp) hb⟩,
    fun ctx c va remap auth => exec_unmap_noLeaf hr,
    fun q ctx ring log2 auth s1 hq hlo hhi ht ha => ?_, fun q ctx ring log2 auth s1 lq hq hlo hhi ht hp hx ha => ?_,
    fun q ctx ring log2 auth lq c hq hlo hhi ht hp hx hne => ?_, fun q ctx ring log2 auth hx ha => ?_,
    fun q ctx ring log2 auth => exec_queueSetup_refused hr,
    fun base => ⟨fun h => ?_, fun h => ?_⟩, fun ctx idx v auth s1 hg hi => exec_contextControlWrite hr hg hi v,
    fun ctx idx v auth => exec_contextControlWrite_refused hr v, fun ctx port partner agrees => ⟨fun h => ?_, fun h => ?_⟩,
    fun q lq tail hq hc => ⟨fun h => ?_, fun h ho => ?_, fun h ho => ?_⟩, exec_queueStatusWrite hr,
    fun off n bs h => exec_apertureAccess_write hr h n, fun off n h => ⟨_, exec_apertureAccess_read hr h, rfl⟩,
    fun port partner ctx va req => ⟨fun h => ?_, fun hk h => ?_, fun h => ?_, fun ps hp ha h => ?_⟩,
    fun bs => exec_debugMailboxHostWrite_message hr, exec_debugMailboxHostWrite_taken hr, fun stream ctx h => exec_ideKeySet hr h ctx,
    fun n rest c a b seq => exec_attestService⟩
  · rw [exec_contextClose hr, if_pos h]
  · rw [exec_contextClose hr, if_neg (by simp [h])]
  · rw [exec_queueSetup hr hq hlo hhi (by simp [ht]), ownersAgree_own (by simp [ht]), ha, ht]
    rfl
  · rw [exec_queueSetup hr hq hlo hhi (by simp [ht, hp]), ownersAgree_own (by simpa [ht] using hx), ha, ht]
    rfl
  · rw [exec_queueSetup hr hq hlo hhi (by simp [ht, hp]), ht, ownersAgree_other hx hne]
    refine ⟨fun s1 s2 h1 h2 => ?_, fun h1 => ?_, fun s1 h1 h2 => ?_⟩
    · rw [h1, Option.bind_some, h2]
      rfl
    · rw [h1, Option.bind_none, Option.elim_none]
    · rw [h1, Option.bind_some, h2, Option.elim_none]
  · by_cases hin : 16 ≤ q ∨ log2 < 4 ∨ 16 < log2 ∨ ∃ lq, tget s.queues q = some lq ∧ lq.pending ≠ []
    · exact exec_queueSetup_refused hr hin
    · simp only [not_or, not_le, not_lt, not_exists, not_and, not_not] at hin
      obtain ⟨hq, hlo, hhi, hp⟩ := hin
      rw [exec_queueSetup hr hq hlo hhi hp, ownersAgree_own hx, ha, Option.elim_none]
  · rw [exec_aperturePlacement hr, if_pos h]
  · rw [exec_aperturePlacement hr, if_neg h]
  · obtain ⟨hc, hup, hag, hnew⟩ := h
    rw [exec_pairing hr, if_neg]
    simpa [hc, hag, Option.isSome_iff_ne_none.mp hc] using ⟨by simpa using hup, by simpa using hnew⟩
  · rw [exec_pairing hr, if_pos]
    contrapose! h
    simpa [Option.isSome_iff_ne_none, and_assoc] using h
  · rw [exec_doorbell hr hq hc, if_pos h]
  · rw [exec_doorbell hr hq hc, if_neg (by omega), if_neg (by simp [ho])]
  · rw [exec_doorbell hr hq hc, if_neg (by omega), if_pos ho]
  · rw [exec_peerAccessIn hr, if_pos (.inl h)]
  · rw [exec_peerAccessIn hr, if_pos (.inr ⟨hk, h⟩)]
  · rw [exec_peerAccessIn hr]
    split
    · rfl
    · rw [h]
  · rw [exec_peerAccessIn hr, if_neg (by simpa [hp] using ha), h]
    cases req <;> rfl

end Sys2Proof.Laws
end

section
/-! SUPPORT and the obligation: accumulators, their frames and tile masks (R51, R266, R267, R273, R277 to R279, R285, R286). -/

namespace Sys2Proof.Laws

open Sys2Proof Sys2Proof.Machine Sys2Proof.Safety

/-! ## Numbers as bytes and as vectors -/

theorem take_toBytes {k n : Nat} (h : k ≤ n) (v : Nat) : (toBytes n v).take k = toBytes k v := by
  induction k generalizing n v with
  | zero => rfl
  | succ k ih =>
    obtain ⟨n, rfl⟩ : ∃ m, n = m + 1 := ⟨n - 1, by omega⟩
    rw [toBytes, List.take_succ_cons, ih (Nat.le_of_succ_le_succ h), toBytes]
theorem drop_toBytes (k n v : Nat) : (toBytes n v).drop k = toBytes (n - k) (v / 256 ^ k) := by
  induction k generalizing n v with
  | zero => simp
  | succ k ih =>
    cases n with
    | zero => simp [toBytes]
    | succ n => rw [toBytes, List.drop_succ_cons, ih, Nat.div_div_eq_div_mul, Nat.succ_sub_succ, Nat.pow_succ']
/-- Some bytes of a little-endian number (R7). -/
theorem ofBytes_part_toBytes {k m n : Nat} (h : k + m ≤ n) (v : Nat) :
    ofBytes (((toBytes n v).drop k).take m) = v / 256 ^ k % 256 ^ m := by
  rw [drop_toBytes, take_toBytes (by omega), ofBytes_toBytes]

theorem vecOf_lt (b : Nat) (l : List Nat) : vecOf b l < 2 ^ (b * l.length) := by
  induction l with
  | nil => simp [vecOf]
  | cons e l ih =>
    have he : e % 2 ^ b < 2 ^ b := Nat.mod_lt _ (Nat.two_pow_pos b)
    calc e % 2 ^ b + 2 ^ b * vecOf b l < 2 ^ b + 2 ^ b * vecOf b l := Nat.add_lt_add_right he _
      _ = 2 ^ b * (vecOf b l + 1) := by ring
      _ ≤ 2 ^ b * 2 ^ (b * l.length) := Nat.mul_le_mul_left _ ih
      _ = 2 ^ (b * (e :: l).length) := by rw [← Nat.pow_add, List.length_cons, Nat.mul_succ, Nat.add_comm]
/-- An element of a vector reads back, cut to the element's width. -/
theorem elemAt_vecOf (b : Nat) (l : List Nat) (n : Nat) : elemAt b (vecOf b l) n = l.getD n 0 % 2 ^ b := by
  induction l generalizing n with
  | nil => simp [vecOf, elemAt]
  | cons e l ih =>
    have hp : 0 < 2 ^ b := Nat.two_pow_pos b
    cases n with
    | zero => simp [vecOf, elemAt]
    | succ n =>
      have hdiv : (e % 2 ^ b + 2 ^ b * vecOf b l) / 2 ^ b = vecOf b l := by
        rw [Nat.add_mul_div_left _ _ hp, Nat.div_eq_of_lt (Nat.mod_lt _ hp), Nat.zero_add]
      have hpow : 2 ^ (b * (n + 1)) = 2 ^ b * 2 ^ (b * n) := by rw [Nat.mul_succ, Nat.pow_add, Nat.mul_comm]
      rw [List.getD_cons_succ, ← ih, vecOf, elemAt, elemAt, hpow, ← Nat.div_div_eq_div_mul, hdiv]

/-! ## Accumulator frames -/

/-- The header of an accumulator frame (R270, R279). -/
def accHeader (int : Bool) : Nat := frHeader (if int then .accS32 else .accF32) .acc false 0
/-- The body of an accumulator frame (R279). -/
def accBody (a : Acc) : Nat := vecOf 32 ((List.range 256).map fun i => (a.read (i / 16) (i % 16)).toNat)
theorem accHeader_eq (int : Bool) : accHeader int = if int then 0x10100221 else 0x10100220 := by
  cases int <;> rfl
theorem accHeader_noScales (int : Bool) : accHeader int / 2 ^ 256 = 0 := by
  rw [accHeader_eq]
  cases int <;> simp
/-- The frame of that header with some body. -/
def accFrm (int : Bool) (body : Nat) : Machine.Frm :=
  { fmt := if int then .accS32 else .accF32, role := .acc, sparse := false, hdr := accHeader int, body }

variable {a b : Acc}

theorem accFrame_eq (a : Acc) : accFrame a = toBytes 64 (accHeader a.int) ++ toBytes 1024 (accBody a) := rfl
theorem accFrame_length (a : Acc) : (accFrame a).length = 1088 := by
  rw [accFrame_eq, List.length_append, toBytes_length, toBytes_length]
theorem take_accFrame (a : Acc) : (accFrame a).take 64 = toBytes 64 (accHeader a.int) :=
  List.take_left' (toBytes_length ..)
theorem drop_accFrame (a : Acc) : (accFrame a).drop 64 = toBytes 1024 (accBody a) :=
  List.drop_left' (toBytes_length ..)
theorem accHeader_lt (int : Bool) : accHeader int < 256 ^ 64 := by cases int <;> decide
theorem pow_256 (n : Nat) : 256 ^ n = 2 ^ (8 * n) := (Nat.pow_mul 2 8 n).symm
theorem accBody_lt (a : Acc) : accBody a < 256 ^ 1024 := by
  have h := vecOf_lt 32 ((List.range 256).map fun i => (a.read (i / 16) (i % 16)).toNat)
  rwa [List.length_map, List.length_range, show 32 * 256 = 8 * 1024 from rfl, ← pow_256] at h
/-- An element of an accumulator frame's body is that of the accumulator. -/
theorem elemAt_accBody {i j : Nat} (hi : i < 16) (hj : j < 16) (a : Acc) : elemAt 32 (accBody a) (16 * i + j) = (a.read i j).toNat := by
  have hlt : 16 * i + j < 256 := by omega
  have hdiv : (16 * i + j) / 16 = i := by omega
  have hmod : (16 * i + j) % 16 = j := by omega
  rw [accBody, elemAt_vecOf, List.getD_eq_getElem?_getD, List.getElem?_map, List.getElem?_range hlt, Option.map_some, Option.getD_some,
    hdiv, hmod, Nat.mod_eq_of_lt (BitVec.isLt _)]
theorem parse_accHeader (int : Bool) (body : Nat) : Machine.Frm.parse (accHeader int) body = some (accFrm int body) := by
  have ff : FrameFmt.ofCode 32 = some .accF32 := rfl
  have fs : FrameFmt.ofCode 33 = some .accS32 := rfl
  cases int
  all_goals
    rw [accFrm, accHeader_eq, Machine.Frm.parse]
    simp only [Bool.false_eq_true, ↓reduceIte, Nat.reduceMod, Nat.reduceDiv, Nat.reducePow, ff, fs]
    rfl
theorem parse_accFrame (a : Acc) :
    Machine.Frm.parse (ofBytes ((accFrame a).take 64)) (ofBytes ((accFrame a).drop 64)) = some (accFrm a.int (accBody a)) := by
  rw [take_accFrame, drop_accFrame, ofBytes_toBytes, ofBytes_toBytes, Nat.mod_eq_of_lt (accHeader_lt _), Nat.mod_eq_of_lt (accBody_lt _),
    parse_accHeader]
/-- Element (i, j) of an accumulator frame is at body byte 64i + 4j (R279). -/
theorem ofBytes_accFrame {i j : Nat} (hi : i < 16) (hj : j < 16) (a : Acc) :
    ofBytes (((accFrame a).drop (64 + 64 * i + 4 * j)).take 4) = (a.read i j).toNat := by
  have hpow : 256 ^ (64 * i + 4 * j) = 2 ^ (32 * (16 * i + j)) := by
    rw [show (256 : Nat) = 2 ^ 8 from rfl, ← Nat.pow_mul]
    congr 1
    omega
  rw [Nat.add_assoc, ← List.drop_drop, drop_accFrame, ofBytes_part_toBytes (by omega), ← elemAt_accBody hi hj, elemAt, hpow, show (256 : Nat) ^ 4 = 2 ^ 32 from rfl]

/-- An accumulator that is loaded reads the body's elements (R279). -/
theorem accLoad_read {i j : Nat} (hi : i < 16) (hj : j < 16) (f : Machine.Frm) (b : Acc) :
    (accLoad f b).read i j = BitVec.ofNat 32 (elemAt 32 f.body (16 * i + j)) := by
  have hlt : 16 * i + j < 256 := by omega
  simp [accLoad, Acc.read, hlt]
theorem accLoad_read_byte {i j : Nat} (hi : i < 16) (hj : j < 16) (f : Machine.Frm) (b : Acc) :
    (accLoad f b).read i j = BitVec.ofNat 32 (f.body / 2 ^ (8 * (64 * i + 4 * j))) := by
  have hexp : 32 * (16 * i + j) = 8 * (64 * i + 4 * j) := by omega
  rw [accLoad_read hi hj, elemAt, hexp]
  exact BitVec.eq_of_toNat_eq (by simp)
/-- An accumulator's frame, loaded, gives its elements back. -/
theorem accLoad_accFrm_read {i j : Nat} (hi : i < 16) (hj : j < 16) (a b : Acc) :
    (accLoad (accFrm a.int (accBody a)) b).read i j = a.read i j := by
  rw [accLoad_read hi hj, accFrm, elemAt_accBody hi hj, BitVec.ofNat_toNat, BitVec.setWidth_eq]

/-! ## The accumulators of a quarter -/

section Quarter
variable {s : State} {k q m : Nat}

theorem holdsAccs_putAcc (s : State) (team other : Option Nat) (q m : Nat) (a : Acc) :
    holdsAccs (putAcc s team q m a) other q = holdsAccs s other q := by
  unfold putAcc
  split
  · simp [holdsAccs, setAcc]
  · rfl
theorem accOf_putAcc_self (h : holdsAccs s (some k) q = true) (hm : m < (quarterAt s q).accs.length) (a : Acc) :
    accOf (putAcc s (some k) q m a) (some k) q m = a := by
  rw [accOf, holdsAccs_putAcc, if_pos h, putAcc, if_pos h, accAt, setAcc, quarterAt_setQuarter_self]
  exact lset_getD_self hm a _
theorem accOf_putAcc_ne {n : Nat} (h : holdsAccs s (some k) q = true) (hn : n ≠ m) (a : Acc) :
    accOf (putAcc s (some k) q m a) (some k) q n = accOf s (some k) q n := by
  rw [accOf, accOf, holdsAccs_putAcc, if_pos h, if_pos h, putAcc, if_pos h, accAt, accAt, setAcc, quarterAt_setQuarter_self]
  simp only [List.getD_eq_getElem?_getD, lset_get?, hn, false_and, ↓reduceIte]
end Quarter

/-! ## Instructions on accumulators -/

section Instructions
variable {s : State} {x : Ex} {c : Ctl} {m a f d : Spec} {off : W32} {s32 wide : Bool}

/-! ### The shared steps: the wait for an accumulator, for frames, and the reading of accumulators -/

section Shared
variable {i : Instr} {k : State} {n : Nat}

theorem onAccs_free (h : (accOf s (teamOf s x.ref) x.quarter n).inflight = false) : onAccs i [n] x s k = k := by
  simp [onAccs, h]
theorem onAccs_owned (h : (accOf s (teamOf s x.ref) x.quarter n).inflight = true) :
    onAccs i [n] x s k = waitEx x (.accumulator n) i s := by
  simp [onAccs, h]
theorem onFrames_free {vas : List Nat} (h : framesBusy s (teamOf s x.ref) vas = none) : onFrames i vas x s k = k := by
  simp only [onFrames, h]
theorem onFrames_busy {vas : List Nat} {o : Awaited} (h : framesBusy s (teamOf s x.ref) vas = some o) :
    onFrames i vas x s k = waitEx x o i s := by
  simp only [onFrames, h]
theorem readAccs_reread {k : State → State} (h : (accParity s x.quarter n).all (·.reread) = true) :
    readAccs [n] x s k = k (metParity s (accParity s x.quarter n)) := by
  have hno : (accParity s x.quarter n).any (fun p => !p.reread) = false := by simpa using h
  simp only [readAccs, List.flatMap_singleton, hno, Bool.false_eq_true, ↓reduceIte]
theorem readAccs_poison {k : State → State} (h : (accParity s x.quarter n).any (fun p => !p.reread) = true) :
    readAccs [n] x s k = faultOnce x (.poison, 0) (metParity s (accParity s x.quarter n)) := by
  simp only [readAccs, List.flatMap_singleton, h, ↓reduceIte]
end Shared

theorem exec_mzero (h : runsAs s (.mzero c s32 m) x) : exec (.mzero c s32 m) s =
    .next (onAccs (.mzero c s32 m) [m.toNat] x s (retire x c x.body (putAcc s (teamOf s x.ref) x.quarter m.toNat
      { accOf s (teamOf s x.ref) x.quarter m.toNat with valid := false, dirty := false, int := s32 }))) :=
  exec_runs h rfl rfl

/-- MLD once nothing keeps it waiting: its range is checked, then read, then judged (R278, R279). -/
def loadAcc (x : Ex) (c : Ctl) (m : Spec) (va : Nat) (s : State) : State :=
  match frameReads s (teamOf s x.ref) [(64, va, 1088)] [] with
  | some e => faultOnce x e s
  | none =>
    if (frameBytes s (teamOf s x.ref) va 1088).2 then faultOnce x (.poison, va) s
    else match frameRead s (teamOf s x.ref) va 1088 with
      | some f =>
        if f.role = .acc then
          retire x c x.body (putAcc s (teamOf s x.ref) x.quarter m.toNat (accLoad f (accOf s (teamOf s x.ref) x.quarter m.toNat)))
        else faultOnce x (.frameFormat, va) s
      | none => faultOnce x (.frameFormat, va) s
theorem exec_mld (h : runsAs s (.mld c m a off) x) : exec (.mld c m a off) s = .next (onAccs (.mld c m a off) [m.toNat] x s
    (onFrames (.mld c m a off) [frameVa x a off] x s (loadAcc x c m (frameVa x a off) s))) :=
  exec_runs h rfl rfl
theorem loadAcc_loads {va : Nat} {fr : Machine.Frm} (hc : frameReads s (teamOf s x.ref) [(64, va, 1088)] [] = none)
    (hb : (frameBytes s (teamOf s x.ref) va 1088).2 = false) (hr : frameRead s (teamOf s x.ref) va 1088 = some fr) (hacc : fr.role = .acc) :
    loadAcc x c m va s =
      retire x c x.body (putAcc s (teamOf s x.ref) x.quarter m.toNat (accLoad fr (accOf s (teamOf s x.ref) x.quarter m.toNat))) := by
  simp only [loadAcc, hc, hb, hr, hacc, Bool.false_eq_true, ↓reduceIte]

/-- MST once its accumulator is read: its range is checked, then written (R279). -/
def storeAcc (x : Ex) (c : Ctl) (m : Spec) (va : Nat) (team : Option Nat) (s : State) : State :=
  match frameChecks s team [(64, va, 1088)] with
  | some e => faultOnce x e s
  | none =>
    let acc := accOf s (teamOf s x.ref) x.quarter m.toNat
    retire x c x.body (putAcc (frameWrite s team va x.ref (accFrame acc)) team x.quarter m.toNat { acc with dirty := false })
theorem exec_mst (h : runsAs s (.mst c a m off) x) : exec (.mst c a m off) s = .next (onAccs (.mst c a m off) [m.toNat] x s
    (readAccs [m.toNat] x s (storeAcc x c m (frameVa x a off) (teamOf s x.ref)))) :=
  exec_runs h rfl rfl

theorem exec_mstat (h : runsAs s (.mstat c d m) x) : exec (.mstat c d m) s =
    .next (retire x c (x.body.sendV x.exec d fun _ => tileStatus s (teamOf s x.ref) x.quarter m.toNat) s) :=
  exec_runs h rfl rfl
theorem exec_fsetm {cr : Crew} (h : runsAs s (.fsetm c wide f a) x) (hb : x.body = .crew cr) : exec (.fsetm c wide f a) s =
    .next (retire x c (.crew { cr with
      f := lset cr.f f.toNat (if wide then x.w a x.low else maskOf (x.lanes.filter fun l => x.p a l)) }) s) := by
  rw [exec_runs h rfl rfl]
  simp only [hb]

end Instructions

/-! ### The status word -/

/-- The bits of a status word: four flags, and the next step above them. -/
theorem statusWord_bits (v d i t : Bool) {n : Nat} (h : n < 4096) :
    let w := BitVec.ofNat 32 (n * 16 + (if t then 8 else 0) + (if i then 4 else 0) + (if d then 2 else 0) + (if v then 1 else 0))
    w.getLsbD 0 = v ∧ w.getLsbD 1 = d ∧ w.getLsbD 2 = i ∧ w.getLsbD 3 = t ∧ w.toNat / 16 = n := by
  have bit : ∀ k < 4, ∀ r < 16, (n * 16 + r).testBit k = r.testBit k := by
    intro k hk r hr
    rw [show n * 16 + r = 2 ^ 4 * n + r by omega, Nat.testBit_two_pow_mul_add _ hr, if_pos hk]
  have hflags : ∃ r < 16, (if t then 8 else 0) + (if i then 4 else 0) + (if d then 2 else 0) + (if v then 1 else 0) = r ∧
      r.testBit 0 = v ∧ r.testBit 1 = d ∧ r.testBit 2 = i ∧ r.testBit 3 = t := by
    cases v <;> cases d <;> cases i <;> cases t <;> decide
  obtain ⟨r, hr, he, h0, h1, h2, h3⟩ := hflags
  have hsum : n * 16 + (if t then 8 else 0) + (if i then 4 else 0) + (if d then 2 else 0) + (if v then 1 else 0) = n * 16 + r := by omega
  simp only [hsum, BitVec.getLsbD_ofNat, bit 0 (by omega) r hr, bit 1 (by omega) r hr, bit 2 (by omega) r hr, bit 3 (by omega) r hr,
    h0, h1, h2, h3, BitVec.toNat_ofNat, Nat.reduceLT, decide_true, Bool.true_and, true_and]
  omega

/-- The step that a run's status shows of an accumulator (R285). -/
def shownStep (acc : Acc) (run : Option Run) (m : Nat) : Nat :=
  match run with
  | some r => if acc.inflight = true ∧ r.m = m then r.next else 0
  | none => 0
theorem accStatus_bits (acc : Acc) (run : Option Run) (m : Nat) (h : ∀ r, run = some r → r.next < 4096) :
    (accStatus acc run m).getLsbD 0 = acc.valid ∧ (accStatus acc run m).getLsbD 1 = acc.dirty ∧
      (accStatus acc run m).getLsbD 2 = acc.inflight ∧ (accStatus acc run m).getLsbD 3 = acc.int ∧
      (accStatus acc run m).toNat / 16 = shownStep acc run m := by
  have hlt : shownStep acc run m < 4096 := by
    cases run with
    | none => exact Nat.zero_lt_succ _
    | some r =>
      have := h r rfl
      unfold shownStep
      dsimp only
      split <;> omega
  have e : accStatus acc run m = BitVec.ofNat 32 (shownStep acc run m * 16 + (if acc.int then 8 else 0) + (if acc.inflight then 4 else 0)
      + (if acc.dirty then 2 else 0) + (if acc.valid then 1 else 0)) := by
    cases run with
    | none => rfl
    | some r => simp only [accStatus, shownStep, Bool.and_eq_true, beq_iff_eq]
  rw [e]
  exact statusWord_bits acc.valid acc.dirty acc.inflight acc.int hlt

/-- Settles O34: each clause on an instruction is one branch of its meaning; a frame is its header and its body of 256 words. -/
theorem accumulatorInstructions : Obligations.AccumulatorInstructions := by
  unfold Obligations.AccumulatorInstructions
  refine ⟨fun s x c m a f d off s32 wide cr fr => ⟨fun hfree => ⟨fun h => ?_, fun o h hb => ?_, fun h hb hc hp hr hacc => ?_,
      fun h hm hc => ?_, fun h hm => ?_⟩, fun hown => ⟨fun h => ?_, fun h => ?_, fun h => ?_⟩, exec_mstat, accStatus_bits _ _ _,
      exec_fsetm⟩,
    fun s k q m a hk hm => ⟨accOf_putAcc_self hk hm a, fun n hn => accOf_putAcc_ne hk hn a⟩,
    fun a b => ⟨accFrame_length a, ⟨_, parse_accFrame a, rfl, rfl, ?_, rfl, rfl, ?_, rfl, fun i j hi hj => accLoad_accFrm_read hi hj a b⟩,
      fun i j hi hj => ofBytes_accFrame hi hj a, fun i j hv => ?_⟩,
    fun fr b i j hi hj => accLoad_read_byte hi hj fr b⟩
  · rw [exec_mzero h, onAccs_free hfree]
  · rw [exec_mld h, onAccs_free hfree, onFrames_busy hb]
  · rw [exec_mld h, onAccs_free hfree, onFrames_free hb, loadAcc_loads hc hp hr hacc]
  · rw [exec_mst h, onAccs_free hfree, readAccs_reread hm, storeAcc, hc]
  · rw [exec_mst h, onAccs_free hfree, readAccs_poison hm]
  · rw [exec_mzero h, onAccs_owned hown]
  · rw [exec_mld h, onAccs_owned hown]
  · rw [exec_mst h, onAccs_owned hown]
  · exact accHeader_noScales a.int
  · cases a.int <;> rfl
  · simp [Acc.read, hv]

end Sys2Proof.Laws
end

section
/-! SUPPORT and the obligation: runs and the pixels of a convolution (R51, R267, R273, R278, R282, R283). -/

namespace Sys2Proof.Laws

open Sys2Proof Sys2Proof.Machine Sys2Proof.Safety

section Runs
variable {s : State} {x : Ex} {c : Ctl} {sat fv tv : Bool} {m a b v : Spec} {f tok : BitVec 3} {n : BitVec 12} {inca incb : BitVec 16}

/-! ### What a run awaits -/

theorem runWaits_eq_none {k t : Nat} (h : runWaits s x k tv t = none) :
    (accOf s (teamOf s x.ref) x.quarter k).inflight = false ∧ (quarterAt s x.quarter).run = none ∧
      (tv = true → (tokenAt x.body t).assignFull = false) ∧ releaseObject s x.ref .cluster = none := by
  unfold runWaits at h
  split at h
  · cases h
  rename_i hacc
  split at h
  · cases h
  rename_i hrun
  split at h
  · cases h
  rename_i htok
  refine ⟨Bool.eq_false_iff.mpr hacc, by simpa using hrun, fun ht => by simpa [ht] using htok, ?_⟩
  split at h
  · cases h
  · assumption

/-! ### MLOOP -/

/-- The mask of a run of MLOOP: a tile mask of the crew, where it has one (R282). -/
def runMask (x : Ex) (fv : Bool) (f : BitVec 3) : Option Mask :=
  if fv then (match x.body with | .crew cr => some (cr.f.getD f.toNat 0) | .ap _ => none) else none
/-- The frames of the ends of a run: those of its first and of its last step. -/
def runEnds (x : Ex) (a b : Spec) (n : BitVec 12) (inca incb : BitVec 16) : List Nat :=
  [0, n.toNat - 1].flatMap fun k => [runVa (x.w a x.low) inca k, runVa (x.w b x.low) incb k]
/-- What is wrong with a run's first step that is not skipped, if anything (R278, R282). -/
def firstStepFault (x : Ex) (m a b : Spec) (n : BitVec 12) (inca incb : BitVec 16) (mask : Option Mask) (s : State) : Option (Cause × Nat) :=
  match (List.range n.toNat).find? fun k => !runSkips mask k with
  | none => none
  | some k => match framesIn s (teamOf s x.ref) [runVa (x.w a x.low) inca k, runVa (x.w b x.low) incb k] [] with
    | .error e => some e
    | .ok (fa :: fb :: _) =>
      if !denseOk fa fb then some (.frameFormat, misfit false fa fb (runVa (x.w a x.low) inca k) (runVa (x.w b x.low) incb k))
      else if typeClash (accOf s (teamOf s x.ref) x.quarter m.toNat) fa.fmt then some (.mmaType, 0) else none
    | .ok _ => none
/-- MLOOP once nothing keeps it waiting. -/
def startLoop (x : Ex) (c : Ctl) (sat : Bool) (m a b : Spec) (mask : Option Mask) (tv : Bool) (tok : BitVec 3) (n : BitVec 12)
    (inca incb : BitVec 16) (s : State) : State :=
  match frameChecks s (teamOf s x.ref) ((runEnds x a b n inca incb).map fun va => (64, va, frameSize s (teamOf s x.ref) va 576)) with
  | some e => faultOnce x e s
  | none => match firstStepFault x m a b n inca incb mask s with
    | some e => faultOnce x e s
    | none => startRun x c tv tok.toNat (slotHit (x.w a x.low).toNat 1 || slotHit (x.w b x.low).toNat 1)
      (fun by_ => { by_, m := m.toNat, sat, a := x.w a x.low, b := x.w b x.low, inca, incb, n := n.toNat, mask, conv := none, next := 0,
                    stopped := false }) s
theorem exec_mloop_waits {o : Awaited} (h : runsAs s (.mloop c sat m a b fv f tv tok n inca incb) x)
    (hw : runWaits s x m.toNat tv tok.toNat = some o) : exec (.mloop c sat m a b fv f tv tok n inca incb) s =
      .next (waitEx x o (.mloop c sat m a b fv f tv tok n inca incb) s) := by
  rw [exec_runs h rfl rfl]
  simp only [hw]
theorem exec_mloop (h : runsAs s (.mloop c sat m a b fv f tv tok n inca incb) x) (hw : runWaits s x m.toNat tv tok.toNat = none) :
    exec (.mloop c sat m a b fv f tv tok n inca incb) s =
      .next (onFrames (.mloop c sat m a b fv f tv tok n inca incb) (runEnds x a b n inca incb) x s
        (startLoop x c sat m a b (runMask x fv f) tv tok n inca incb s)) := by
  rw [exec_runs h rfl rfl]
  simp only [hw]
  rfl

theorem firstStepFault_eq_none {mask : Option Mask} (h : ∀ k, (List.range n.toNat).find? (fun k => !runSkips mask k) = some k →
      ∃ fa fb r, framesIn s (teamOf s x.ref) [runVa (x.w a x.low) inca k, runVa (x.w b x.low) incb k] [] = .ok (fa :: fb :: r) ∧
        denseOk fa fb = true ∧ typeClash (accOf s (teamOf s x.ref) x.quarter m.toNat) fa.fmt = false) :
    firstStepFault x m a b n inca incb mask s = none := by
  unfold firstStepFault
  split
  · rfl
  · rename_i k hk
    obtain ⟨fa, fb, r, hin, hd, ht⟩ := h k hk
    simp only [hin, hd, ht, Bool.not_true, Bool.false_eq_true, ↓reduceIte]

/-! ### MCONV -/

/-- The ranges that a convolution reads: its pixel vectors, the frames of B, and its scales where its format has them (R283). -/
def convRanges (d : ConvDesc) (ba bb : Addr) (size : Nat) : List (Nat × Nat × Nat) :=
  [(64, ba.toNat, d.cb * d.h * d.w * d.vb), (64, bb.toNat, d.steps * size)]
    ++ (if frMx d.fmt then [(1, d.scales.toNat, d.cb * d.h * d.w * (frKt d.fmt / 32))] else [])
/-- MCONV once its descriptor is read. -/
def startConv (x : Ex) (c : Ctl) (sat : Bool) (m a b : Spec) (tv : Bool) (tok : BitVec 3) (d : ConvDesc) (s : State) : State :=
  match frameChecks s (teamOf s x.ref) (convRanges d (x.w a x.low) (x.w b x.low) (frameSize s (teamOf s x.ref) (x.w b x.low).toNat 576)) with
  | some e => faultOnce x e s
  | none => match framesIn s (teamOf s x.ref) [(x.w b x.low).toNat] [] with
    | .error e => faultOnce x e s
    | .ok (fb :: _) =>
      if fb.role != .b || frCls fb.fmt != frCls d.fmt then faultOnce x (.frameFormat, (x.w b x.low).toNat) s
      else if typeClash (accOf s (teamOf s x.ref) x.quarter m.toNat) d.fmt then faultOnce x (.mmaType, 0) s
      else startRun x c tv tok.toNat (slotHit (x.w a x.low).toNat 1 || slotHit (x.w b x.low).toNat 1 || slotHit d.scales.toNat 1)
        (fun by_ => { by_, m := m.toNat, sat, a := x.w a x.low, b := x.w b x.low, inca := 0,
                      incb := BitVec.ofNat 16 (frameSize s (teamOf s x.ref) (x.w b x.low).toNat 576 / 64), n := d.steps, mask := none,
                      conv := some d, next := 0, stopped := false }) s
    | .ok [] => s
/-- MCONV once nothing keeps it waiting: its descriptor is read from the scratchpad (R283). -/
def readConv (x : Ex) (c : Ctl) (sat : Bool) (m a b v : Spec) (tv : Bool) (tok : BitVec 3) (s : State) : State :=
  let off := (x.v v x.low).toNat
  let dva := ownWindow + off
  if off % 64 ≠ 0 then faultOnce x (.misaligned, dva) s
  else if allocOf s (teamOf s x.ref) < off + 64 then faultOnce x (.scratchBounds, dva) s
  else if (frameBytes s (teamOf s x.ref) dva 64).2 then faultOnce x (.poison, dva) s
  else match convOf (ofBytes (frameBytes s (teamOf s x.ref) dva 64).1) with
    | none => faultOnce x (.convDesc, dva) s
    | some d => startConv x c sat m a b tv tok d s
theorem exec_mconv_waits {o : Awaited} (h : runsAs s (.mconv c sat m a b v tv tok) x)
    (hw : runWaits s x m.toNat tv tok.toNat = some o) :
    exec (.mconv c sat m a b v tv tok) s = .next (waitEx x o (.mconv c sat m a b v tv tok) s) := by
  rw [exec_runs h rfl rfl]
  simp only [hw]
theorem exec_mconv (h : runsAs s (.mconv c sat m a b v tv tok) x) (hw : runWaits s x m.toNat tv tok.toNat = none) :
    exec (.mconv c sat m a b v tv tok) s = .next (onFrames (.mconv c sat m a b v tv tok) [(x.w a x.low).toNat, (x.w b x.low).toNat] x s
      (readConv x c sat m a b v tv tok s)) := by
  rw [exec_runs h rfl rfl]
  simp only [hw]
  rfl
theorem readConv_starts {d : ConvDesc} (ha : (x.v v x.low).toNat % 64 = 0) (hin : (x.v v x.low).toNat + 64 ≤ allocOf s (teamOf s x.ref))
    (hp : (frameBytes s (teamOf s x.ref) (ownWindow + (x.v v x.low).toNat) 64).2 = false)
    (hd : convOf (ofBytes (frameBytes s (teamOf s x.ref) (ownWindow + (x.v v x.low).toNat) 64).1) = some d) :
    readConv x c sat m a b v tv tok s = startConv x c sat m a b tv tok d s := by
  have hlt : ¬ allocOf s (teamOf s x.ref) < (x.v v x.low).toNat + 64 := Nat.not_lt.mpr hin
  simp only [readConv, ha, ne_eq, not_true_eq_false, ↓reduceIte, hlt, hp, Bool.false_eq_true, hd]
theorem startConv_starts {d : ConvDesc} {fb : Machine.Frm} {rest : List Machine.Frm}
    (hc : frameChecks s (teamOf s x.ref) (convRanges d (x.w a x.low) (x.w b x.low)
      (frameSize s (teamOf s x.ref) (x.w b x.low).toNat 576)) = none)
    (hin : framesIn s (teamOf s x.ref) [(x.w b x.low).toNat] [] = .ok (fb :: rest)) (hb : fb.role = .b)
    (hcls : frCls fb.fmt = frCls d.fmt) (ht : typeClash (accOf s (teamOf s x.ref) x.quarter m.toNat) d.fmt = false) :
    startConv x c sat m a b tv tok d s =
      startRun x c tv tok.toNat (slotHit (x.w a x.low).toNat 1 || slotHit (x.w b x.low).toNat 1 || slotHit d.scales.toNat 1)
        (fun by_ => { by_, m := m.toNat, sat, a := x.w a x.low, b := x.w b x.low, inca := 0,
                      incb := BitVec.ofNat 16 (frameSize s (teamOf s x.ref) (x.w b x.low).toNat 576 / 64), n := d.steps, mask := none,
                      conv := some d, next := 0, stopped := false }) s := by
  simp only [startConv, hc, hin, hb, hcls, ht, bne_self_eq_false, Bool.or_self, Bool.false_eq_true, ↓reduceIte]

end Runs

/-! ### Addresses and pixels -/

theorem runVa_eq (base : Addr) (inc : BitVec 16) (k : Nat) : (runVa base inc k : ℤ) = (base.toNat + 64 * k * inc.toInt) % 2 ^ 64 := by
  simp only [runVa, BitVec.toNat_add, BitVec.toNat_ofInt, Int.natCast_emod, Int.natCast_add]
  have hpos : (0 : ℤ) ≤ 64 * (k : ℤ) * inc.toInt % (2 ^ 64 : ℕ) := Int.emod_nonneg _ (by norm_num)
  rw [Int.toNat_of_nonneg hpos]
  norm_num

/-- Step and channel block are the digits of a step's number (R283). -/
theorem pixel_eq {d : ConvDesc} {ky kx cb : Nat} (hcb : cb < d.cb) (hkx : kx < d.kw) (j : Nat) :
    d.pixel ((ky * d.kw + kx) * d.cb + cb) j =
      let ix : ℤ := ((d.x0 + j) * d.sx + kx : ℕ) - (d.padX : ℤ)
      let iy : ℤ := (d.y0 * d.sy + ky : ℕ) - (d.padY : ℤ)
      if 0 ≤ ix ∧ ix < d.w ∧ 0 ≤ iy ∧ iy < d.h then some ((cb * d.h + iy.toNat) * d.w + ix.toNat) else none := by
  have hmod : ((ky * d.kw + kx) * d.cb + cb) % d.cb = cb := by
    rw [Nat.add_comm, Nat.add_mul_mod_self_right, Nat.mod_eq_of_lt hcb]
  have hdiv : ((ky * d.kw + kx) * d.cb + cb) / d.cb = ky * d.kw + kx := by
    rw [Nat.add_comm, Nat.add_mul_div_right _ _ (by omega), Nat.div_eq_of_lt hcb, Nat.zero_add]
  have hmod' : (ky * d.kw + kx) % d.kw = kx := by
    rw [Nat.add_comm, Nat.add_mul_mod_self_right, Nat.mod_eq_of_lt hkx]
  have hdiv' : (ky * d.kw + kx) / d.kw = ky := by
    rw [Nat.add_comm, Nat.add_mul_div_right _ _ (by omega), Nat.div_eq_of_lt hkx, Nat.zero_add]
  simp only [ConvDesc.pixel, hmod, hdiv, hmod', hdiv']

theorem pixelIndex_cast {ix iy : ℤ} (hx : 0 ≤ ix) (hy : 0 ≤ iy) (cb h w : Nat) :
    (((cb * h + iy.toNat) * w + ix.toNat : ℕ) : ℤ) = (cb * h + iy) * w + ix := by
  push_cast
  rw [Int.toNat_of_nonneg hx, Int.toNat_of_nonneg hy]

/-! ### Convolution descriptors -/

theorem FrameFmt.code_of_ofCode {n : Nat} {f : FrameFmt} (h : FrameFmt.ofCode n = some f) : n = f.code := by
  unfold FrameFmt.ofCode at h
  split at h <;> cases h <;> rfl
theorem frBits_le_of_not_acc {f : FrameFmt} (h : frCls f ≠ .acc) : frBits f ≤ 16 := by
  revert h
  cases f <;> decide

theorem div_two_pow_lt {v m n : Nat} (h : v < 2 ^ (m + n)) : v / 2 ^ m < 2 ^ n :=
  Nat.div_lt_of_lt_mul (h.trans_eq (Nat.pow_add ..))

/-- A descriptor within its limits: its fields, and what the limits are (R283). -/
theorem convOf_eq_some {v : Nat} {d : ConvDesc} (h : convOf v = some d) : ∃ fmt, FrameFmt.ofCode (v / 2 ^ 56 % 64) = some fmt ∧
    d = { scales := BitVec.ofNat 64 (v / 2 ^ 128), padY := v / 2 ^ 104 % 256, padX := v / 2 ^ 96 % 256, y0 := v / 2 ^ 80 % 2 ^ 16
          x0 := v / 2 ^ 64 % 2 ^ 16, fmt, sy := v / 2 ^ 52 % 16, sx := v / 2 ^ 48 % 16, kw := v / 2 ^ 44 % 16, kh := v / 2 ^ 40 % 16
          cb := v / 2 ^ 32 % 256, h := v / 2 ^ 16 % 2 ^ 16, w := v % 2 ^ 16 } ∧
    v / 2 ^ 192 % 2 ^ 320 = 0 ∧ v / 2 ^ 112 % 2 ^ 16 = 0 ∧ v / 2 ^ 62 % 4 = 0 ∧ frCls d.fmt ≠ .acc ∧ frBits d.fmt ≠ 6 ∧ d.sy ≠ 0 ∧ d.sx ≠ 0 ∧
    d.kw ≠ 0 ∧ d.kh ≠ 0 ∧ d.cb ≠ 0 ∧ d.h ≠ 0 ∧ d.w ≠ 0 ∧ d.kw * d.kh * d.cb ≤ 4095 ∧ (frMx d.fmt = true ↔ d.scales ≠ 0) := by
  unfold convOf at h
  split at h
  · cases h
  rename_i fmt hf
  dsimp only at h
  split at h
  · cases h
  rename_i hok
  cases h
  refine ⟨fmt, hf, rfl, ?_⟩
  simp only [Bool.or_eq_true, bne_iff_ne, ne_eq, beq_iff_eq, decide_eq_true_eq, not_or, not_not, not_lt] at hok
  obtain ⟨⟨⟨⟨⟨⟨⟨⟨⟨⟨⟨⟨⟨h192, h112⟩, h62⟩, hacc⟩, h6⟩, hsy⟩, hsx⟩, hkw⟩, hkh⟩, hcb⟩, hh⟩, hw⟩, hlim⟩, hmx⟩ := hok
  refine ⟨h192, h112, h62, hacc, h6, hsy, hsx, hkw, hkh, hcb, hh, hw, hlim, ?_⟩
  dsimp only
  rw [hmx, bne_iff_ne]

/-- Settles O36: each clause on an instruction is one branch of its meaning; the rest is the arithmetic of addresses, steps and descriptors. -/
theorem runsStart : Obligations.RunsStart := by
  unfold Obligations.RunsStart
  refine ⟨fun s x c sat fv tv m a b v f tok n inca incb fb rest d =>
      ⟨fun o hw => ⟨fun h => exec_mloop_waits h hw, fun h => exec_mconv_waits h hw⟩, runWaits_eq_none, fun hw =>
        ⟨fun o h hb => ?_, fun o h hb => ?_, fun h hb hc hfirst => ?_, fun h hb hal hin hp hd hc hfb hrole hcls ht => ?_⟩⟩,
    runVa_eq, fun d ky kx cb j hcb hkx => ?_, fun v d hv hd => ?_⟩
  · rw [exec_mloop h hw]
    exact congrArg _ (onFrames_busy hb)
  · rw [exec_mconv h hw]
    exact congrArg _ (onFrames_busy hb)
  · rw [exec_mloop h hw]
    refine congrArg _ ((onFrames_free hb).trans ?_)
    have hstep : firstStepFault x m a b n inca incb (runMask x fv f) s = none := firstStepFault_eq_none hfirst
    have hends : frameChecks s (teamOf s x.ref)
        ((runEnds x a b n inca incb).map fun va => (64, va, frameSize s (teamOf s x.ref) va 576)) = none := hc
    simp only [startLoop, hends, hstep]
    rfl
  · rw [exec_mconv h hw]
    refine congrArg _ ((onFrames_free hb).trans ?_)
    rw [readConv_starts hal hin hp hd, startConv_starts hc hfb hrole hcls ht]
  · dsimp only
    rw [pixel_eq hcb hkx]
    have hx : (((d.x0 + j) * d.sx + kx : ℕ) : ℤ) = ((d.x0 + j : ℕ) : ℤ) * d.sx + kx := by push_cast; ring
    simp only [hx]
    refine ⟨fun hin => ?_, fun hout => if_neg hout⟩
    rw [if_pos hin]
    obtain ⟨hx0, -, hy0, -⟩ := hin
    exact congrArg some (pixelIndex_cast hx0 hy0 cb d.h d.w)
  · obtain ⟨fmt, hf, rfl, h192, h112, h62, hacc, h6, hsy, hsx, hkw, hkh, hcb, hh, hw, hlim, hmx⟩ := convOf_eq_some hd
    have htop : v / 2 ^ 192 < 2 ^ 320 := div_two_pow_lt (m := 192) (n := 320) hv
    refine ⟨rfl, rfl, rfl, rfl, rfl, rfl, rfl, FrameFmt.code_of_ofCode hf, h62, rfl, rfl, rfl, rfl, h112, (BitVec.toNat_ofNat ..).symm,
      (Nat.mod_eq_of_lt htop).symm.trans h192, ?_⟩
    simp only [Nat.one_le_iff_ne_zero]
    exact ⟨hw, hh, hcb, hkh, hkw, hsx, hsy, by rwa [Nat.mul_comm (_ % 16) (_ % 16)], hmx, frBits_le_of_not_acc hacc, h6⟩

end Sys2Proof.Laws
end

section
/-! SUPPORT and the obligation: what a register-only instruction leaves as it was, and what its destinations then hold (R37 to R40, R62, R86,
R88). -/

namespace Sys2Proof.Laws

open Sys2Proof Sys2Proof.Machine Sys2Proof.Safety

/-! ## A write and the registers around it -/

theorem getLsbD_setPred (p : BitVec 7) (v : Bool) {i j : Nat} (hi : i < 7) (hj : j < 7) :
    (setPred p i v).getLsbD j = if j = i then v else p.getLsbD j := by
  have h1 : (1#7 <<< i).getLsbD j = decide (j = i) := by
    rw [BitVec.getLsbD_shiftLeft, BitVec.getLsbD_one]
    by_cases h : j = i
    · simp [h, hi]
    · have : ¬ j < i → ¬ j - i = 0 := by omega
      by_cases hji : j < i <;> simp [h, hji, this]
  have e : (setPred p i v).getLsbD j = bif v then p.getLsbD j || decide (j = i) else p.getLsbD j && !decide (j = i) := by
    cases v
    · simp only [setPred, Bool.false_eq_true, if_false, BitVec.getLsbD_and, BitVec.getLsbD_not, h1, hj, decide_true, Bool.true_and, cond]
    · simp only [setPred, if_true, BitVec.getLsbD_or, h1, cond]
  rw [e]
  by_cases h : j = i <;> cases v <;> simp [h]

theorem predBit_setPred_ne (p : BitVec 7) (v : Bool) {i j : Nat} (h : j ≠ i) : predBit (setPred p i v) j = predBit p j := by
  have e : (setPred p i v).getLsbD j = p.getLsbD j := by
    by_cases hj : j < 7
    · by_cases hi : i < 7
      · rw [getLsbD_setPred p v hi hj, if_neg h]
      · have hz : (1#7 <<< i) = 0#7 := BitVec.shiftLeft_eq_zero (by omega)
        have hp : setPred p i v = p := by
          cases v
          · simp only [setPred, hz]
            exact BitVec.and_allOnes
          · simp only [setPred, hz]
            exact BitVec.or_zero
        rw [hp]
    · rw [BitVec.getLsbD_of_ge _ _ (by omega), BitVec.getLsbD_of_ge _ _ (by omega)]
  rw [predBit, predBit, e]

theorem lset_getD_ne {α : Type} (l : List α) {n m : Nat} (v d : α) (h : m ≠ n) : (lset l n v).getD m d = l.getD m d := by
  rw [List.getD_eq_getElem?_getD, List.getD_eq_getElem?_getD, lset_get?, if_neg (fun e => h e.1)]

/-- What stands in a lane after the threads of a mask's lanes are changed. -/
theorem getD_mapMask {α : Type} (ls : List (Option α)) (m : Mask) (g : Nat → α → α) (l : Nat) :
    (ls.mapIdx fun l t => bif m.getLsbD l then t.map (g l) else t).getD l none =
      bif m.getLsbD l then (ls.getD l none).map (g l) else ls.getD l none := by
  rw [List.getD_eq_getElem?_getD, List.getD_eq_getElem?_getD, List.getElem?_mapIdx]
  cases ls[l]? <;> cases m.getLsbD l <;> rfl

/-- The value that a lane has of a register of its own, by its code. -/
def laneReg (t : Option Thread) (code : Nat) : W64 :=
  t.elim 0 fun t => if code < 192 then (t.g.getD code 0).setWidth 64 else predBit t.p (code - 240)

/-- A register that a change of a lane's thread leaves reads as before, whatever lanes are changed. -/
theorem laneReg_mapMask {ls : List (Option Thread)} (m : Mask) {g : Nat → Thread → Thread} {l code : Nat}
    (h : ∀ t, laneReg (some (g l t)) code = laneReg (some t) code) :
    laneReg ((ls.mapIdx fun l t => bif m.getLsbD l then t.map (g l) else t).getD l none) code = laneReg (ls.getD l none) code := by
  rw [getD_mapMask]
  cases m.getLsbD l
  · rfl
  · cases ls.getD l none with
    | none => rfl
    | some t => exact h t

theorem reg_crew (c : Crew) (l code : Nat) : (Body.crew c).reg l code =
    if 192 ≤ code ∧ code < 240 then (c.k.getD (code - 192) 0).setWidth 64 else laneReg (c.lanes.getD l none) code := by
  by_cases h : code < 192
  · rw [if_neg (fun e => absurd e.1 (by omega))]
    simp only [Body.reg, h, if_true]
    cases c.lanes.getD l none <;> simp [laneReg, h]
  · simp only [Body.reg, h, if_false, Nat.le_of_not_lt h, true_and]
    cases c.lanes.getD l none <;> simp [laneReg, h]

theorem laneReg_put_ne (t : Thread) (clock : Nat) {code n : Nat} (v : W64) (r : Option Nat) (h : n ≠ code)
    (hc : code < 192 ∨ 240 ≤ code) (hn : n < 192 ∨ 240 ≤ n) : laneReg (some (t.put clock code v r)) n = laneReg (some t) n := by
  rcases hc with hc | hc <;> rcases hn with hn | hn
  · simp [laneReg, Thread.put, hc, hn, lset_getD_ne _ _ _ h, -List.getD_eq_getElem?_getD]
  · simp [laneReg, Thread.put, hc, show ¬ n < 192 by omega]
  · simp [laneReg, Thread.put, show ¬ code < 192 by omega, hn]
  · simp only [laneReg, Thread.put, show ¬ code < 192 by omega, show ¬ n < 192 by omega, if_false, Option.elim]
    exact predBit_setPred_ne _ _ (by omega)

/-! ## What a meaning leaves of its unit -/

/-- What of a crew no register-only instruction changes beside its registers. -/
def Crew.setting (c : Crew) : List Mask × List W64 × Nat × Nat × Owner := (c.j, c.f, c.ctx, c.grid, c.owner)

/-- A unit differs from another only in registers of some codes, in the lanes of a mask but for crew-uniform ones, and in results on their
way, entries and groups. -/
structure Keeps (b b' : Body) (m : Mask) (codes : List Nat) : Prop where
  ap : b'.isAp = b.isAp
  toks : b'.toks = b.toks
  held : b'.held = b.held
  setting : b'.crew?.map Crew.setting = b.crew?.map Crew.setting
  others : ∀ l code, code ∉ codes → b'.reg l code = b.reg l code
  idle : ∀ l code, m.getLsbD l = false → (code < 192 ∨ 240 ≤ code) → b.isAp = false → b'.reg l code = b.reg l code

namespace Keeps
variable {a b d : Body} {m : Mask} {codes : List Nat}

theorem same : Keeps b b m codes := ⟨rfl, rfl, rfl, rfl, fun _ _ _ => rfl, fun _ _ _ _ _ => rfl⟩

theorem trans (h : Keeps a b m codes) (k : Keeps b d m codes) : Keeps a d m codes where
  ap := k.ap.trans h.ap
  toks := k.toks.trans h.toks
  held := k.held.trans h.held
  setting := k.setting.trans h.setting
  others l code hc := (k.others l code hc).trans (h.others l code hc)
  idle l code hm hc ha := (k.idle l code hm hc (h.ap.trans ha)).trans (h.idle l code hm hc ha)

end Keeps

section Keeps
variable {b : Body} {m : Mask} {codes : List Nat} {clock : Nat} {ready : Option Nat} {own : Mask} {c : Spec}

/-- A change that no register shows. -/
theorem keeps_of_reg_eq {b' : Body} (ha : b'.isAp = b.isAp) (ht : b'.toks = b.toks) (hh : b'.held = b.held)
    (hs : b'.crew?.map Crew.setting = b.crew?.map Crew.setting) (hr : ∀ l code, b'.reg l code = b.reg l code) : Keeps b b' m codes :=
  ⟨ha, ht, hh, hs, fun l code _ => hr l code, fun l code _ _ _ => hr l code⟩

theorem setResults_keeps (r : List Machine.Result) : Keeps b (b.setResults r) m codes := by
  cases b <;> exact keeps_of_reg_eq rfl rfl rfl rfl fun _ _ => rfl

theorem setGroups_keeps (u : UnitRef) (gs : List Group) : Keeps b (setGroups b u gs) m codes := by
  cases b with
  | crew c => cases u <;> exact keeps_of_reg_eq rfl rfl rfl rfl fun _ _ => rfl
  | ap a => cases gs <;> exact keeps_of_reg_eq rfl rfl rfl rfl fun _ _ => rfl

theorem setEntry_keeps (a : Addr) : Keeps b (b.setEntry m a) m codes := by
  cases b with
  | ap t =>
    simp only [Body.setEntry]
    split <;> exact keeps_of_reg_eq rfl rfl rfl rfl fun _ _ => rfl
  | crew c =>
    refine keeps_of_reg_eq rfl rfl rfl rfl fun l code => ?_
    simp only [Body.setEntry, reg_crew]
    rw [laneReg_mapMask]
    exact fun _ => rfl

theorem put_keeps {code : Nat} (h : code ∈ codes) (f : Nat → W64) : Keeps b (b.put m clock code f ready own) m codes := by
  cases b with
  | ap a =>
    by_cases hm : m = 0
    · simp only [Body.put, hm, if_true]
      exact .same
    · simp only [Body.put, hm, if_false]
      exact ⟨rfl, rfl, rfl, rfl, fun l n hn => lset_getD_ne _ _ _ (fun e => hn (e ▸ h)), fun _ _ _ _ ha => by cases ha⟩
  | crew c =>
    by_cases hk : 192 ≤ code ∧ code < 240
    · by_cases hm : m = 0#64
      · simp only [Body.put, hk, hm, and_self, if_true]
        exact .same
      · simp only [Body.put, hk, hm, and_self, if_true, if_false]
        refine ⟨rfl, rfl, rfl, rfl, fun l n hn => ?_, fun l n _ hn _ => ?_⟩
        · rw [reg_crew, reg_crew]
          split_ifs with hn'
          · rw [lset_getD_ne _ _ _ (by have : n ≠ code := fun e => hn (e ▸ h); omega)]
          · rw [laneReg_mapMask]
            exact fun _ => rfl
        · rw [reg_crew, reg_crew, if_neg (by omega), if_neg (by omega), laneReg_mapMask]
          exact fun _ => rfl
    · simp only [Body.put, hk, if_false]
      refine ⟨rfl, rfl, rfl, rfl, fun l n hn => ?_, fun l n hm hn _ => ?_⟩
      · rw [reg_crew, reg_crew]
        split_ifs with hn'
        · rfl
        · exact laneReg_mapMask m fun t => laneReg_put_ne t clock _ ready (fun e => hn (e ▸ h)) (by omega) (by omega)
      · rw [reg_crew, reg_crew, if_neg (by omega), if_neg (by omega), getD_mapMask, hm, cond]

theorem send_keeps (code tag : Nat) (f : Nat → Option W64) : Keeps b (b.send m code tag f) m codes := setResults_keeps _

theorem sendV_keeps (f : Nat → W32) : Keeps b (b.sendV m c f) m codes := by
  unfold Body.sendV
  split
  · exact .same
  · exact send_keeps ..

theorem sendW_keeps (f : Nat → W64) : Keeps b (b.sendW m c f) m codes := by
  unfold Body.sendW
  split_ifs
  · exact .same
  · exact send_keeps ..
  · exact (send_keeps ..).trans (send_keeps ..)

theorem sendX_keeps (wide : Bool) (f : Nat → W64) : Keeps b (b.sendX wide m c f) m codes := by
  cases wide
  · exact sendV_keeps _
  · exact sendW_keeps _

theorem sendP_keeps (f : Nat → Bool) : Keeps b (b.sendP m c f) m codes := by
  unfold Body.sendP
  split_ifs
  · exact .same
  · exact send_keeps ..
  · exact .same
  · exact send_keeps ..

/-! ## The codes that a destination names -/

variable {s : State} {rd : Bool} {l : List Nat}

theorem mem_of_crewRange {r : RegFile} {k n : Nat} (h : crewRange r k n = some l) {i : Nat} (hi : i < n) : k + i ∈ l := by
  unfold crewRange at h
  split_ifs at h <;> exact Option.some.inj h ▸ List.mem_map_of_mem (List.mem_range.mpr hi)

theorem mem_regsOf_word {cls : Cls} (hc : cls = .v ∨ cls = .kd) (hn : c ≠ 255#8) (h : regsOf s b ⟨cls, c, rd⟩ = some l) : c.toNat ∈ l := by
  have hn' : c.toNat ≠ 255 := fun e => hn (BitVec.eq_of_toNat_eq e)
  cases b with
  | crew cr =>
    have h' : crewRange (regFileOf s cr.grid) c.toNat 1 = some l := by
      rcases hc with rfl | rfl <;> simp only [regsOf, crewRegs, hn', if_false] at h
      · exact h
      · split_ifs at h
        exact h
    exact mem_of_crewRange h' (i := 0) (by omega)
  | ap a =>
    rcases hc with rfl | rfl <;> simp only [regsOf, apRegs, hn', if_false] at h
    · split_ifs at h
      exact Option.some.inj h ▸ List.mem_singleton_self _
    · cases h

theorem mem_regsOf_pair (hn : c ≠ 255#8) (h : regsOf s b ⟨.w, c, rd⟩ = some l) : c.toNat ∈ l ∧ (b.isAp = false → c.toNat + 1 ∈ l) := by
  have hn' : c.toNat ≠ 255 := fun e => hn (BitVec.eq_of_toNat_eq e)
  cases b with
  | crew cr =>
    simp only [regsOf, crewRegs, hn', if_false] at h
    split_ifs at h
    exact ⟨mem_of_crewRange h (i := 0) (by decide), fun _ => mem_of_crewRange h (by decide)⟩
  | ap a =>
    simp only [regsOf, apRegs, hn', if_false] at h
    split_ifs at h
    exact ⟨Option.some.inj h ▸ List.mem_singleton_self _, fun e => by cases e⟩

theorem mem_regsOf_predicate (h : regsOf s b ⟨.pd, c, rd⟩ = some l) :
    (b.isAp = true → c ≠ 255#8 → c.toNat ∈ l) ∧ (b.isAp = false → c.toNat % 8 ≠ 7 → 240 + c.toNat % 8 ∈ l) := by
  cases b with
  | crew cr =>
    refine ⟨fun e => (by cases e), fun _ hn => ?_⟩
    simp only [regsOf, crewRegs, hn, if_false] at h
    exact Option.some.inj h ▸ List.mem_singleton_self _
  | ap a =>
    refine ⟨fun _ hn => ?_, fun e => by cases e⟩
    have hn' : c.toNat ≠ 255 := fun e => hn (BitVec.eq_of_toNat_eq e)
    simp only [regsOf, apRegs, hn', if_false] at h
    split_ifs at h
    exact Option.some.inj h ▸ List.mem_singleton_self _

theorem putV_keeps {cls : Cls} (hc : cls = .v ∨ cls = .kd) (h : regsOf s b ⟨cls, c, rd⟩ = some l) (hl : l ⊆ codes) (f : Nat → W32) :
    Keeps b (b.putV m clock c f ready own) m codes := by
  unfold Body.putV
  split
  · exact .same
  · next hn => exact put_keeps (hl (mem_regsOf_word hc hn h)) _

theorem putW_keeps (h : regsOf s b ⟨.w, c, rd⟩ = some l) (hl : l ⊆ codes) (f : Nat → W64) :
    Keeps b (b.putW m clock c f ready own) m codes := by
  unfold Body.putW
  split_ifs with hn ha
  · exact .same
  · exact put_keeps (hl (mem_regsOf_pair hn h).1) _
  · obtain ⟨h0, h1⟩ := mem_regsOf_pair hn h
    exact (put_keeps (hl h0) _).trans (put_keeps (hl (h1 (by simpa using ha))) _)

theorem putP_keeps (h : regsOf s b ⟨.pd, c, rd⟩ = some l) (hl : l ⊆ codes) (f : Nat → Bool) :
    Keeps b (b.putP m clock c f ready) m codes := by
  obtain ⟨hap, hcrew⟩ := mem_regsOf_predicate h
  unfold Body.putP
  split_ifs with ha hn hn
  · exact .same
  · exact put_keeps (hl (hap ha hn)) _
  · exact .same
  · exact put_keeps (hl (hcrew (by simpa using ha) hn)) _

/-- Operands name the same registers in a unit whose registers alone have changed. -/
theorem regsOf_congr {b' : Body} (h : Keeps b b' m codes) (o : Opnd) : regsOf s b' o = regsOf s b o := by
  have hs := h.setting
  cases b <;> cases b'
  · have hg := congrArg (Option.map fun e => e.2.2.2.1) hs
    simp only [Body.crew?, Option.map, Crew.setting, Option.some.injEq] at hg
    simp only [regsOf, hg]
  · cases hs
  · cases hs
  · rfl

end Keeps

/-! ## The state after a register-only instruction -/

section Ends
variable {s : State} {x : Ex} {i : Instr} {p : Shape} {b : Body}

theorem issueEx_of_runsAs (h : runsAs s i x) (hs : shape s i = some p) : issueEx s i p.ctl p.ops p.extra p.rule = some x := by
  unfold runsAs at h
  rwa [hs] at h

/-- The decode checks of an issue pass only where every operand names registers (R62). -/
theorem regsOf_of_badDecode {c : Ctl} {ops : List Opnd} {extra : List Cause} (h : badDecode s b c ops extra = none) :
    ∀ o ∈ ops, ∃ l, regsOf s b o = some l := by
  intro o ho
  unfold badDecode at h
  split_ifs at h with _ hr
  rw [Bool.or_eq_true, not_or, Bool.or_eq_true, not_or] at hr
  obtain ⟨⟨_, hr⟩, _⟩ := hr
  cases hl : regsOf s b o with
  | some l => exact ⟨l, rfl⟩
  | none => exact absurd (List.any_eq_true.mpr ⟨o, ho, by rw [hl]; rfl⟩) hr

/-- The issue of an instruction that runs: its unit is in the state, and each of its operands names registers. -/
theorem runsAs_body (h : runsAs s i x) (hs : shape s i = some p) : bodyOf s x.ref = some x.body ∧
    ∀ o ∈ p.ops, ∃ l, regsOf s x.body o = some l := by
  have hx := issueEx_of_runsAs h hs
  unfold issueEx at hx
  split at hx
  · cases hx
  · split at hx
    · cases hx
    · next b hb =>
      split at hx
      · cases hx
      · dsimp only at hx
        split at hx
        · next hc =>
          simp only [Bool.and_eq_true, Option.isNone_iff_eq_none] at hc
          cases hx
          exact ⟨hb, regsOf_of_badDecode (by tauto)⟩
        · cases hx

/-- A write to a destination stays among the codes of the instruction's destinations. -/
theorem regs_subset_destCodes {ops : List Opnd} {o : Opnd} {l : List Nat} (ho : o ∈ ops) (hd : o.rd = false ∨ o.cls = .pd)
    (h : regsOf s b o = some l) : l ⊆ destCodes s b ops := by
  intro n hn
  refine List.mem_flatten.mpr ⟨l, List.mem_map.mpr ⟨o, List.mem_filter.mpr ⟨ho, ?_⟩, by rw [h]; rfl⟩, hn⟩
  rcases hd with hd | hd <;> simp [hd]

theorem onlyUnit_putBody (u : UnitRef) : onlyUnit s (putBody { s with cur := none } u b) u := by
  cases u with
  | crew uid low =>
    cases b with
    | crew c => exact ⟨rfl, fun j hj => tget_tset_ne _ _ (fun e => hj low (e ▸ rfl)), fun _ _ => rfl, fun _ _ => rfl⟩
    | ap a => exact ⟨rfl, fun _ _ => rfl, fun _ _ => rfl, fun _ _ => rfl⟩
  | access t =>
    cases b with
    | crew c => exact ⟨rfl, fun _ _ => rfl, fun _ _ => rfl, fun _ _ => rfl⟩
    | ap a =>
      refine ⟨rfl, fun _ _ => rfl, fun k hk => tget_tmod_ne _ _ (fun e => hk (e ▸ rfl)), fun k n => ?_⟩
      simp only [padByte, putBody, tget_tmod]
      by_cases hk : k = t
      · rw [if_pos hk]
        cases tget s.teams k <;> rfl
      · rw [if_neg hk]

/-- A step changes of the state the issuing unit alone, and of that unit the registers that the operands name as destinations. -/
def Framed (s t : State) (x : Ex) (ops : List Opnd) : Prop :=
  onlyUnit s t x.ref ∧ ∃ b', bodyOf t x.ref = some b' ∧ Keeps x.body b' x.exec (destCodes s x.body ops)

theorem retire_framed {b' : Body} {ops : List Opnd} (c : Ctl) (hb : bodyOf s x.ref = some x.body)
    (h : Keeps x.body b' x.exec (destCodes s x.body ops)) : Framed s (retire x c b' s) x ops := by
  have hk := h.trans (setGroups_keeps x.ref [x.grp.issue x.next x.clock x.lag c])
  refine ⟨onlyUnit_putBody _, _, bodyOf_putBody_self (a := x.body) ?_ hk.ap.symm, hk⟩
  rw [← hb]
  cases x.ref <;> rfl

end Ends

/-! ## How each register-only instruction ends -/

section Meanings
variable {i : Instr}

theorem exec_word32 {r : Safety.Result W32} (h : word32 i = some r) (s : State) : shape s i = some r.shape ∧
    ∃ (cls : Cls) (f : Ex → Nat → W32), (cls = .v ∨ cls = .kd) ∧ (⟨cls, r.d, false⟩ : Opnd) ∈ r.ops ∧
      exec i s = .next (issue i r.ctl r.ops [] .runs (fun x s => retire x r.ctl (x.fixV r.lat r.d (f x)) s) s) := by
  unfold word32 at h
  split at h <;> cases h
  case h_33 => exact ⟨rfl, .kd, _, .inr rfl, List.mem_cons_self, rfl⟩
  all_goals exact ⟨rfl, .v, _, .inl rfl, List.mem_cons_self, rfl⟩

theorem exec_word64 {r : Safety.Result W64} (h : word64 i = some r) (s : State) : shape s i = some r.shape ∧
    ∃ f : Ex → Nat → W64, dstW r.d ∈ r.ops ∧
      exec i s = .next (issue i r.ctl r.ops [] .runs (fun x s => retire x r.ctl (x.fixW r.lat r.d (f x)) s) s) := by
  unfold word64 at h
  split at h <;> cases h
  all_goals exact ⟨rfl, _, List.mem_cons_self, rfl⟩

theorem exec_predicate {r : Safety.Result Bool} (h : predicate i = some r) (s : State) : shape s i = some r.shape ∧
    ∃ f : Ex → Nat → Bool, dstP r.d ∈ r.ops ∧
      exec i s = .next (issue i r.ctl r.ops [] .runs (fun x s => retire x r.ctl (x.fixP r.lat r.d (f x)) s) s) := by
  unfold predicate at h
  split at h <;> cases h
  all_goals exact ⟨rfl, _, List.mem_cons_self, rfl⟩

theorem exec_floatQuiet {r : Safety.Result W32} (h : floatQuiet i = some r) (s : State) : shape s i = some r.shape ∧
    ∃ f : Ex → Nat → W32, dstV r.d ∈ r.ops ∧
      exec i s = .next (issue i r.ctl r.ops [] .runs (fun x s => retire x r.ctl (x.fixV r.lat r.d (f x)) s) s) := by
  unfold floatQuiet at h
  split at h <;> cases h
  all_goals exact ⟨rfl, _, List.mem_cons_self, rfl⟩

theorem exec_floatLoud {r : Safety.Result (W32 × List Arith)} (h : floatLoud i = some r) (s : State) : shape s i = some r.shape ∧
    dstV r.d ∈ r.ops ∧
      exec i s = .next (issue i r.ctl r.ops [] .runs (fun x s =>
        withEvents x (eventsOf x.lanes fun l => (r.val x l).2) s fun s => retire x r.ctl (x.fixV 5 r.d fun l => (r.val x l).1) s) s) := by
  unfold floatLoud at h
  split at h <;> cases h
  all_goals exact ⟨rfl, List.mem_cons_self, rfl⟩

/-- The causes that a division meets are those of R92 over the integers. -/
theorem divide_causes (sg : Bool) (a b : W32) : (divide sg a b).2.2 = (divideRule sg a b).2.2 := by
  have hb : asInt sg b = 0 ↔ b = 0#32 := by
    cases sg
    · simp [asInt, BitVec.toNat_eq]
    · exact ⟨fun h => BitVec.toInt_inj.mp h, fun h => h ▸ rfl⟩
  have ho : sg = true → (asInt sg a = -2147483648 ∧ asInt sg b = -1 ↔ a = 0x80000000#32 ∧ b = 0xFFFFFFFF#32) := by
    rintro rfl
    exact and_congr ⟨fun h => BitVec.toInt_inj.mp h, fun h => h ▸ rfl⟩ ⟨fun h => BitVec.toInt_inj.mp h, fun h => h ▸ rfl⟩
  simp only [divide, divideRule, hb]
  split
  · rfl
  · cases sg with
    | false => rfl
    | true =>
      simp only [true_and, ho rfl, if_true]
      split <;> rfl

theorem exec_lateLoud {r : Safety.Result (W32 × List Arith)} (h : lateLoud i = some r) (s : State) : shape s i = some r.shape ∧
    ∃ f : Ex → Nat → W32 × List Arith, dstV r.d ∈ r.ops ∧
      exec i s = .next (issue i r.ctl r.ops [] .runs (fun x s =>
        withEvents x (eventsOf x.lanes fun l => (f x l).2) s fun s => retire x r.ctl (x.body.sendV x.exec r.d fun l => (f x l).1) s) s) ∧
      ∀ x l, (f x l).2 = (r.val x l).2 := by
  unfold lateLoud at h
  split at h <;> cases h
  case h_1 | h_2 | h_3 | h_4 => exact ⟨rfl, _, List.mem_cons_self, rfl, fun _ _ => divide_causes ..⟩
  all_goals exact ⟨rfl, _, List.mem_cons_self, rfl, fun _ _ => rfl⟩

/-- Where no executing lane meets an event, an instruction with events takes its effect and logs none (R244). -/
theorem withEvents_none {s : State} {x : Ex} {f : Nat → List Arith} (h : ∀ l ∈ x.lanes, f l = []) (k : State → State) :
    withEvents x (eventsOf x.lanes f) s k = k s := by
  have hn : eventsOf x.lanes f = [] := by
    have : (x.lanes.map f).flatten = [] := List.flatten_eq_nil_iff.mpr fun l hl => by
      obtain ⟨n, hn, rfl⟩ := List.mem_map.mp hl
      exact h n hn
    simp only [eventsOf, this]
    rfl
  rw [hn]
  simp [withEvents, trapOf, logEvents]

end Meanings

section Frames
variable {s t : State} {x : Ex} {i : Instr} {p : Shape}

/-- An instruction that retires with registers changed only where its destinations name them. -/
theorem framed_of_exec {k : Ex → State → State} (h : runsAs s i x) (hs : shape s i = some p)
    (he : exec i s = .next (issue i p.ctl p.ops p.extra p.rule k s)) (ht : exec i s = .next t) {c : Ctl} {b' : Body}
    (hk : k x s = retire x c b' s)
    (hb : (∀ o ∈ p.ops, ∃ l, regsOf s x.body o = some l) → Keeps x.body b' x.exec (destCodes s x.body p.ops)) : Framed s t x p.ops := by
  obtain ⟨hu, hr⟩ := runsAs_body h hs
  have e : t = k x s := by
    rw [exec_runs h hs he] at ht
    exact (Host.Outcome.next.inj ht).symm
  rw [e, hk]
  exact retire_framed c hu (hb hr)

theorem fixV_keeps {cls : Cls} {d : Spec} {ops : List Opnd} (hc : cls = .v ∨ cls = .kd) (ho : (⟨cls, d, false⟩ : Opnd) ∈ ops)
    (hr : ∀ o ∈ ops, ∃ l, regsOf s x.body o = some l) (lat : Nat) (f : Nat → W32) :
    Keeps x.body (x.fixV lat d f) x.exec (destCodes s x.body ops) := by
  obtain ⟨l, hl⟩ := hr _ ho
  exact putV_keeps hc hl (regs_subset_destCodes ho (.inl rfl) hl) f

theorem fixW_keeps {d : Spec} {ops : List Opnd} (ho : dstW d ∈ ops) (hr : ∀ o ∈ ops, ∃ l, regsOf s x.body o = some l) (lat : Nat)
    (f : Nat → W64) : Keeps x.body (x.fixW lat d f) x.exec (destCodes s x.body ops) := by
  obtain ⟨l, hl⟩ := hr _ ho
  exact putW_keeps hl (regs_subset_destCodes ho (.inl rfl) hl) f

theorem fixP_keeps {d : Spec} {ops : List Opnd} (ho : dstP d ∈ ops) (hr : ∀ o ∈ ops, ∃ l, regsOf s x.body o = some l) (lat : Nat)
    (f : Nat → Bool) : Keeps x.body (x.fixP lat d f) x.exec (destCodes s x.body ops) := by
  obtain ⟨l, hl⟩ := hr _ ho
  exact putP_keeps hl (regs_subset_destCodes ho (.inl rfl) hl) f

/-- The register-only instructions of fixed latency without events (R90 to R107, R251 to R254, R257, R258). -/
theorem framed_quiet (h : runsAs s i x) (hs : shape s i = some p) (ht : exec i s = .next t)
    (hq : (word32 i).isSome ∨ (word64 i).isSome ∨ (predicate i).isSome ∨ (floatQuiet i).isSome) : Framed s t x p.ops := by
  simp only [Option.isSome_iff_exists] at hq
  obtain ⟨r, hr⟩ | ⟨r, hr⟩ | ⟨r, hr⟩ | ⟨r, hr⟩ := hq
  · obtain ⟨hs', cls, f, hc, ho, he⟩ := exec_word32 hr s
    cases hs.symm.trans hs'
    exact framed_of_exec h hs he ht rfl fun hx => fixV_keeps hc ho hx ..
  · obtain ⟨hs', f, ho, he⟩ := exec_word64 hr s
    cases hs.symm.trans hs'
    exact framed_of_exec h hs he ht rfl fun hx => fixW_keeps ho hx ..
  · obtain ⟨hs', f, ho, he⟩ := exec_predicate hr s
    cases hs.symm.trans hs'
    exact framed_of_exec h hs he ht rfl fun hx => fixP_keeps ho hx ..
  · obtain ⟨hs', f, ho, he⟩ := exec_floatQuiet hr s
    cases hs.symm.trans hs'
    exact framed_of_exec h hs he ht rfl fun hx => fixV_keeps (.inl rfl) ho hx ..

theorem framed_floatLoud {r : Safety.Result (W32 × List Arith)} (h : runsAs s i x) (hs : shape s i = some p) (ht : exec i s = .next t)
    (hr : floatLoud i = some r) (hn : ∀ l ∈ x.lanes, (r.val x l).2 = []) : Framed s t x p.ops := by
  obtain ⟨hs', ho, he⟩ := exec_floatLoud hr s
  cases hs.symm.trans hs'
  exact framed_of_exec h hs he ht (withEvents_none hn _) fun hx => fixV_keeps (.inl rfl) ho hx ..

theorem framed_lateLoud {r : Safety.Result (W32 × List Arith)} (h : runsAs s i x) (hs : shape s i = some p) (ht : exec i s = .next t)
    (hr : lateLoud i = some r) (hn : ∀ l ∈ x.lanes, (r.val x l).2 = []) : Framed s t x p.ops := by
  obtain ⟨hs', f, ho, he, hf⟩ := exec_lateLoud hr s
  cases hs.symm.trans hs'
  exact framed_of_exec h hs he ht (withEvents_none (fun l hl => (hf x l).trans (hn l hl)) _) fun _ => sendV_keeps _

/-- The carry of IADDC goes to the predicate that it was read from, after the sum (R90). -/
theorem carry_keeps {d q : Spec} {ops : List Opnd} (ho : dstV d ∈ ops) (hq : (⟨.pd, q, true⟩ : Opnd) ∈ ops)
    (hr : ∀ o ∈ ops, ∃ l, regsOf s x.body o = some l) (f : Nat → W32) (g : Nat → Bool) :
    Keeps x.body ((x.fixV 4 d f).putP x.exec x.clock q g (x.ready 4)) x.exec (destCodes s x.body ops) := by
  obtain ⟨l, hl⟩ := hr _ hq
  have hv := fixV_keeps (.inl rfl) ho hr 4 f
  exact hv.trans (putP_keeps ((regsOf_congr hv _).trans hl) (regs_subset_destCodes hq (.inr rfl) hl) g)

theorem framed_iaddc {c : Ctl} {d a e q : Spec} (h : runsAs s (.iaddc c d a e q) x) (hs : shape s (.iaddc c d a e q) = some p)
    (ht : exec (.iaddc c d a e q) s = .next t) : Framed s t x p.ops := by
  cases hs
  exact framed_of_exec h rfl rfl ht rfl fun hx => carry_keeps (.head _) (.tail _ (.tail _ (.head _))) hx ..

theorem framed_iaddcImm {c : Ctl} {d a q : Spec} {m : W32} (h : runsAs s (.iaddcImm c d a m q) x)
    (hs : shape s (.iaddcImm c d a m q) = some p) (ht : exec (.iaddcImm c d a m q) s = .next t) : Framed s t x p.ops := by
  cases hs
  exact framed_of_exec h rfl rfl ht rfl fun hx => carry_keeps (.head _) (.tail _ (.tail _ (.head _))) hx ..

theorem framed_rdsp {c : Ctl} {d : Spec} {sp : Special} (h : runsAs s (.rdsp c d sp) x) (hs : shape s (.rdsp c d sp) = some p)
    (ht : exec (.rdsp c d sp) s = .next t) : Framed s t x p.ops := by
  cases hs
  refine framed_of_exec h rfl rfl ht rfl fun _ => ?_
  split
  · exact sendW_keeps _
  · exact sendV_keeps _

/-- NOP, YIELD and REPLAY name no register. -/
theorem framed_bare {c : Ctl} (h : runsAs s i x) (hs : shape s i = some p) (ht : exec i s = .next t)
    (hi : (i = .nop c ∨ i = .yield c) ∨ ∃ n, i = .replay c n) : Framed s t x p.ops := by
  obtain (rfl | rfl) | ⟨n, rfl⟩ := hi <;> cases hs
  · exact framed_of_exec h rfl rfl ht rfl fun _ => .same
  · exact framed_of_exec h rfl rfl ht rfl fun _ => .same
  · exact framed_of_exec h rfl rfl ht rfl fun _ => setEntry_keeps _

/-- SHFL, VOTE and MATCH send what they give on its way. -/
theorem framed_shfl {c : Ctl} {m : ShflMode} {w : Bool} {d a e u v : Spec} (h : runsAs s (.shfl c m w d a e u v) x)
    (hs : shape s (.shfl c m w d a e u v) = some p) (ht : exec (.shfl c m w d a e u v) s = .next t) : Framed s t x p.ops := by
  cases hs
  exact framed_of_exec h rfl rfl ht rfl fun _ => (sendX_keeps w _).trans (sendP_keeps _)

theorem framed_vote {c : Ctl} {m : VoteMode} {d a : Spec} (h : runsAs s (.vote c m d a) x)
    (hs : shape s (.vote c m d a) = some p) (ht : exec (.vote c m d a) s = .next t) : Framed s t x p.ops := by
  cases hs
  refine framed_of_exec h rfl rfl ht rfl fun _ => ?_
  split
  · exact sendX_keeps _ _
  · exact sendP_keeps _

theorem framed_matchLanes {c : Ctl} {w : Bool} {d a : Spec} (h : runsAs s (.matchLanes c w d a) x)
    (hs : shape s (.matchLanes c w d a) = some p) (ht : exec (.matchLanes c w d a) s = .next t) : Framed s t x p.ops := by
  cases hs
  exact framed_of_exec h rfl rfl ht rfl fun _ => sendX_keeps _ _

end Frames

/-! ## What a destination holds after its write -/

section ReadBack
variable {cr : Crew} {th : Thread} {l : Nat} {m : Mask} {own : Mask} {clock code : Nat} {ready : Option Nat}

theorem reg_lane (hl : cr.lanes.getD l none = some th) (hc : code < 192) : (Body.crew cr).reg l code = (th.g.getD code 0).setWidth 64 := by
  rw [reg_crew, if_neg (by omega), hl, laneReg, Option.elim, if_pos hc]

/-- The thread of an executing lane after a register of its own is written. -/
theorem put_lane (hm : m.getLsbD l = true) (hl : cr.lanes.getD l none = some th) (hc : code < 192 ∨ 240 ≤ code) (f : Nat → W64) :
    ∃ cr', (Body.crew cr).put m clock code f ready own = .crew cr' ∧
      cr'.lanes.getD l none = some (th.put clock code (f l) ready) := by
  refine ⟨_, by rw [Body.put, if_neg (by omega)], ?_⟩
  rw [getD_mapMask, hm, hl]
  rfl

theorem reg_put_general (hm : m.getLsbD l = true) (hl : cr.lanes.getD l none = some th) (hc : code < 192) (hg : code < th.g.length)
    (f : Nat → W64) : ((Body.crew cr).put m clock code f ready own).reg l code = ((f l).setWidth 32).setWidth 64 := by
  obtain ⟨cr', e, hl'⟩ := put_lane (ready := ready) (own := own) (clock := clock) hm hl (.inl hc) f
  rw [e, reg_lane hl' hc, Thread.put, if_pos hc, lset_getD_self hg]

/-- The two words of a pair are two writes, the second of which leaves the first. -/
theorem reg_put_pair (hm : m.getLsbD l = true) (hl : cr.lanes.getD l none = some th) (hc : code + 1 < 192) (hg : code + 1 < th.g.length)
    (f g : Nat → W64) :
    (((Body.crew cr).put m clock code f ready own).put m clock (code + 1) g ready own).reg l code = ((f l).setWidth 32).setWidth 64 ∧
    (((Body.crew cr).put m clock code f ready own).put m clock (code + 1) g ready own).reg l (code + 1) =
      ((g l).setWidth 32).setWidth 64 := by
  constructor
  · rw [(put_keeps (codes := [code + 1]) (List.mem_singleton_self _) g).others l code (by simp)]
    exact reg_put_general hm hl (by omega) (by omega) f
  · obtain ⟨cr', e, hl'⟩ := put_lane (ready := ready) (own := own) (clock := clock) hm hl (.inl (show code < 192 by omega)) f
    rw [e]
    refine reg_put_general hm hl' hc ?_ g
    rw [Thread.put, if_pos (by omega), lset_length]
    exact hg

theorem reg_put_uniform (hm : m ≠ 0#64) (hlo : 192 ≤ code) (hhi : code < 240) (hk : code - 192 < cr.k.length) (f : Nat → W64) :
    ((Body.crew cr).put m clock code f ready own).reg l code = ((f (lowLane m)).setWidth 32).setWidth 64 := by
  rw [Body.put, if_pos ⟨hlo, hhi⟩, if_neg hm, reg_crew, if_pos ⟨hlo, hhi⟩, lset_getD_self hk]

theorem reg_put_predicate (hm : m.getLsbD l = true) (hl : cr.lanes.getD l none = some th) {n : Nat} (hn : n < 7) (f : Nat → W64) :
    ((Body.crew cr).put m clock (240 + n) f ready own).reg l (240 + n) = if f l != 0 then 1 else 0 := by
  obtain ⟨cr', e, hl'⟩ := put_lane (code := 240 + n) (ready := ready) (own := own) (clock := clock) hm hl (.inr (by omega)) f
  rw [e, reg_crew, if_neg (by omega), hl', laneReg, Option.elim, if_neg (by omega), Thread.put, if_neg (by omega)]
  simp only [predBit, Nat.add_sub_cancel_left, getLsbD_setPred _ _ hn hn, if_true]

theorem setWidth_word (v : W32) : (v.setWidth 64).setWidth 32 = v := by
  simp

theorem pair64_words (v : W64) : pair64 (lo32 v) (hi32 v) = v := by
  refine BitVec.eq_of_getLsbD_eq fun i hi => ?_
  rw [pair64, BitVec.getLsbD_append]
  split
  · next h => simp [lo32, h]
  · next h => simp [hi32, show i - 32 < 32 by omega, show 32 + (i - 32) = i by omega]

end ReadBack

/-- Settles O24: `Framed` says the first part, by the end of each instruction; the second reads each write back. -/
theorem registerFrames : Obligations.RegisterFrames := by
  unfold Obligations.RegisterFrames
  refine ⟨fun s t i p x b hs h hb hi ht => ?_, fun x cr th l lat d f g q hx hm hl => ?_⟩
  · have hf : Framed s t x p.ops := by
      rcases hi with h1 | h1 | h1 | h1 | ⟨r, hr, hn⟩ | ⟨r, hr, hn⟩ | ⟨c, d, a, e, q, rfl⟩ | ⟨c, d, a, m, q, rfl⟩ | ⟨c, d, sp, rfl⟩ |
        ⟨c, h1⟩ | ⟨c, n, h1⟩ | ⟨c, m, w, d, a, e, u, v, rfl⟩ | ⟨c, m, d, a, rfl⟩ | ⟨c, w, d, a, rfl⟩
      · exact framed_quiet h hs ht (.inl h1)
      · exact framed_quiet h hs ht (.inr (.inl h1))
      · exact framed_quiet h hs ht (.inr (.inr (.inl h1)))
      · exact framed_quiet h hs ht (.inr (.inr (.inr h1)))
      · exact framed_floatLoud h hs ht hr hn
      · exact framed_lateLoud h hs ht hr hn
      · exact framed_iaddc h hs ht
      · exact framed_iaddcImm h hs ht
      · exact framed_rdsp h hs ht
      · exact framed_bare h hs ht (.inl h1)
      · exact framed_bare h hs ht (.inr ⟨n, h1⟩)
      · exact framed_shfl h hs ht
      · exact framed_vote h hs ht
      · exact framed_matchLanes h hs ht
    obtain ⟨ho, b', hb', hk⟩ := hf
    have e : x.body = b := Option.some.inj ((runsAs_body h hs).1.symm.trans hb)
    rw [e] at hk
    refine ⟨ho, b', hb', hk.toks, hk.held, hk.others, hk.idle, ?_⟩
    rintro c c' rfl rfl
    have hst := Option.some.inj hk.setting
    simp only [Crew.setting, Prod.mk.injEq] at hst
    exact hst
  · have hap : x.body.isAp = false := by rw [hx]; rfl
    have hne : x.exec ≠ 0#64 := fun e => by rw [e, BitVec.getLsbD_zero] at hm; cases hm
    have hd : ∀ {n}, d.toNat < n → n < 255 → d ≠ 255#8 := fun h1 h2 e => by rw [e] at h1; exact absurd h1 (Nat.not_lt.mpr (Nat.le_of_lt h2))
    refine ⟨fun hg hle => ?_, fun hg hle => ?_, fun hlo hhi hk => ?_, fun hp => ?_, by simp only [Ex.fixV, Body.putV, if_true],
      by simp only [Ex.fixW, Body.putW, if_true], fun hp => putP_pt hap hp .., if_pos rfl, if_pos rfl⟩
    · rw [Ex.fixV, Body.putV, if_neg (hd (n := 192) (by omega) (by decide)), hx, reg_put_general hm hl (by omega) hg, setWidth_word]
    · rw [Ex.fixW, Body.putW, if_neg (hd (n := 192) (by omega) (by decide)), if_neg (by rw [hap]; decide), hx]
      obtain ⟨h0, h1⟩ := reg_put_pair (ready := x.ready lat) (own := x.grp.mask) (clock := x.clock) hm hl (code := d.toNat) (by omega) hg
        (fun l => (lo32 (g l)).setWidth 64) (fun l => (hi32 (g l)).setWidth 64)
      rw [h0, h1]
      simp only [setWidth_word, pair64_words]
    · rw [Ex.fixV, Body.putV, if_neg (hd hhi (by decide)), hx, reg_put_uniform hne hlo hhi hk, setWidth_word]
      rfl
    · rw [Ex.fixP, Body.putP, if_neg (by rw [hap]; decide), if_neg hp, hx, reg_put_predicate hm hl (by omega)]
      cases q l <;> rfl

end Sys2Proof.Laws
end

section
/-! SUPPORT and the obligation: plain stores and loads beside what they reach (R127, R163 to R165), which fails where the teams of a state stand
out of order. -/

namespace Sys2Proof.Laws

open Sys2Proof Sys2Proof.Machine Sys2Proof.Safety

/-- A thread whose registers 6 and 7 hold an address and whose register 8 holds 7. -/
def storingThread (lane lo hi : Nat) : Thread :=
  { Thread.blank lane 0x20000000 with g := [0, 0, 0, 0, 0, 0, BitVec.ofNat 32 lo, BitVec.ofNat 32 hi, 7] }

/-- Lane 0 has the first byte of its team's own window in its address registers, lane 1 the second byte of cluster slot 0. -/
def storingCrew : Crew :=
  { placedCrew 0 3 with lanes := [some (storingThread 0 0 0x7FFF00), some (storingThread 1 1 0x7FFF01)], groups := [placedGroup 3] }

/-- Two teams of the first index of a co-placed grid, the higher key first: a store to team 3 brings it before team 5, so that slot 0 then
leads to team 3. -/
def teamsOutOfOrder : State :=
  { State.reset with
    grids := [(0, { placedGrid with packet := { placedPacket with coplace := true } })]
    teams := [(5, placedTeam 0), (3, placedTeam 0)], crews := [(1, storingCrew)], cur := some (.crew 1 0) }

/-- A plain access with no offset. -/
def plainWord : MemWord := { off := 0, rc := 0, evict := 0, scope := .thread, ord := .plain }
/-- A plain store of one byte. -/
def byteStore : Instr := .st plainCtl .b8 plainWord 6 8
/-- That store by its parts. -/
def byteAccess : Safety.Access := ⟨plainCtl, .generic, .b8, plainWord, 8, 6⟩

/-- The issue in which the two lanes store. -/
def byteIssue : Ex := exOf teamsOutOfOrder (.crew 1 0) (.crew storingCrew) (placedGroup 3) byteStore plainCtl

theorem runsAs_byteIssue : runsAs teamsOutOfOrder byteStore byteIssue := by
  show issueEx teamsOutOfOrder byteStore plainCtl [srcW 6, dataOf .b8 8 true] [] .runs = some byteIssue
  rfl

theorem byteAccess_checks : byteAccess.checks teamsOutOfOrder byteIssue .store = none := by
  rfl

/-- In the state that the store meets, lane 1 stores to team 5. -/
theorem byteAccess_storedPad : byteAccess.storedPad teamsOutOfOrder byteIssue 3 = [0] := by
  rfl

/-- The store leaves 7 in team 3 where lane 1 was to store to team 5. -/
theorem exec_byteStore : ∃ t, exec byteStore teamsOutOfOrder = .next t ∧ padByte t 3 1 = some 7 :=
  ⟨storeInstr byteStore plainCtl .generic .b8 plainWord 6 8 .runs teamsOutOfOrder, rfl, by decide +kernel⟩

/-- Refutes O20: lane 0 stores to its own team, which moves that team to the front of a table that was out of order, and the store of lane 1 to
its cluster slot then finds that team instead of the other with the same index. -/
theorem not_plainAccessFrames : ¬ Obligations.PlainAccessFrames := by
  unfold Obligations.PlainAccessFrames
  intro h
  obtain ⟨t, ht, hpad⟩ := exec_byteStore
  have himage : ∀ k tm, teamOf teamsOutOfOrder byteIssue.ref = some k → tget teamsOutOfOrder.teams k = some tm → tm.image = none := by
    intro k tm hk htm
    cases hk
    cases htm
    rfl
  obtain ⟨hstore, -⟩ := h teamsOutOfOrder t byteStore byteAccess byteIssue runsAs_byteIssue rfl rfl rfl
    ⟨by decide +kernel, by decide +kernel⟩ ht himage
  obtain ⟨-, -, hframe, -⟩ := hstore rfl byteAccess_checks
  have hkept := hframe 3 1 (by rw [byteAccess_storedPad]; decide)
  rw [hpad] at hkept
  exact absurd hkept (by decide)

end Sys2Proof.Laws
end

section
/-! SUPPORT and the obligations: the round trip of the encoding (R53, R55, R56, R63, R64, R66, R67), and words written out from its tables. -/

namespace Sys2Proof.Laws

open Sys2Proof Sys2Proof.Machine

/-! ### Fields -/

/-- The fields that encode a well-formed instruction decode to it: the encoder's lemma for its constructor. -/
theorem decodeFields_of_encodeFields (i : Instr) : Encoding.Statement i := by
  cases i with
  | iadd => apply Encoding.iadd | iaddImm => apply Encoding.iaddImm | isub => apply Encoding.isub | isubImm => apply Encoding.isubImm
  | iaddc => apply Encoding.iaddc | iaddcImm => apply Encoding.iaddcImm | imul => apply Encoding.imul | imulImm => apply Encoding.imulImm
  | imulh => apply Encoding.imulh | imulhImm => apply Encoding.imulhImm | imad => apply Encoding.imad | imadw => apply Encoding.imadw
  | idiv => apply Encoding.idiv | idivImm => apply Encoding.idivImm | irem => apply Encoding.irem | iremImm => apply Encoding.iremImm
  | imin => apply Encoding.imin | iminImm => apply Encoding.iminImm | imax => apply Encoding.imax | imaxImm => apply Encoding.imaxImm
  | iabs => apply Encoding.iabs | ineg => apply Encoding.ineg | iset => apply Encoding.iset | isetImm => apply Encoding.isetImm
  | lea => apply Encoding.lea | iadd64 => apply Encoding.iadd64 | iadd64Imm => apply Encoding.iadd64Imm | ltab => apply Encoding.ltab
  | shl => apply Encoding.shl | shlImm => apply Encoding.shlImm | shr => apply Encoding.shr | shrImm => apply Encoding.shrImm
  | sar => apply Encoding.sar | sarImm => apply Encoding.sarImm | rot => apply Encoding.rot | rotImm => apply Encoding.rotImm
  | fshf => apply Encoding.fshf | popc => apply Encoding.popc | clz => apply Encoding.clz | brev => apply Encoding.brev | bfx => apply Encoding.bfx
  | bfi => apply Encoding.bfi | ptab => apply Encoding.ptab | mov => apply Encoding.mov | movi => apply Encoding.movi
  | moviB64 => apply Encoding.moviB64 | movk => apply Encoding.movk | sel => apply Encoding.sel | rdsp => apply Encoding.rdsp
  | cvti => apply Encoding.cvti | bra => apply Encoding.bra | braHint => apply Encoding.braHint | brx => apply Encoding.brx
  | call => apply Encoding.call | callHint => apply Encoding.callHint | callx => apply Encoding.callx | ret => apply Encoding.ret
  | exit => apply Encoding.exit | enrol => apply Encoding.enrol | join => apply Encoding.join | reform => apply Encoding.reform
  | yield => apply Encoding.yield | nop => apply Encoding.nop | replay => apply Encoding.replay | shfl => apply Encoding.shfl
  | vote => apply Encoding.vote | redc => apply Encoding.redc | scan => apply Encoding.scan | matchLanes => apply Encoding.matchLanes
  | fadd => apply Encoding.fadd | faddImm => apply Encoding.faddImm | fmul => apply Encoding.fmul | fmulImm => apply Encoding.fmulImm
  | ffma => apply Encoding.ffma | fmin => apply Encoding.fmin | fminImm => apply Encoding.fminImm | fmax => apply Encoding.fmax
  | fmaxImm => apply Encoding.fmaxImm | fset => apply Encoding.fset | fsetImm => apply Encoding.fsetImm | fclass => apply Encoding.fclass
  | fclassImm => apply Encoding.fclassImm | frnd => apply Encoding.frnd | hadd2 => apply Encoding.hadd2 | hadd2Imm => apply Encoding.hadd2Imm
  | hmul2 => apply Encoding.hmul2 | hmul2Imm => apply Encoding.hmul2Imm | hfma2 => apply Encoding.hfma2 | hmin2 => apply Encoding.hmin2
  | hmin2Imm => apply Encoding.hmin2Imm | hmax2 => apply Encoding.hmax2 | hmax2Imm => apply Encoding.hmax2Imm | hset2 => apply Encoding.hset2
  | hset2Imm => apply Encoding.hset2Imm | rcp => apply Encoding.rcp | rsq => apply Encoding.rsq | sqrt => apply Encoding.sqrt
  | exp2 => apply Encoding.exp2 | log2 => apply Encoding.log2 | fsin => apply Encoding.fsin | fcos => apply Encoding.fcos
  | tanh => apply Encoding.tanh | fdiv => apply Encoding.fdiv | fcvt => apply Encoding.fcvt | fcvtp => apply Encoding.fcvtp
  | ld => apply Encoding.ld | st => apply Encoding.st | lds => apply Encoding.lds | sts => apply Encoding.sts | ldc => apply Encoding.ldc
  | stc => apply Encoding.stc | fence => apply Encoding.fence | cctl => apply Encoding.cctl | icinv => apply Encoding.icinv
  | pref => apply Encoding.pref | atom => apply Encoding.atom | atomcas => apply Encoding.atomcas | atoms => apply Encoding.atoms
  | red => apply Encoding.red | astream => apply Encoding.astream | opush => apply Encoding.opush | opop => apply Encoding.opop
  | gather => apply Encoding.gather | scatter => apply Encoding.scatter | cpy => apply Encoding.cpy | cpy2g => apply Encoding.cpy2g
  | cpyt => apply Encoding.cpyt | cpyr => apply Encoding.cpyr | close => apply Encoding.close | waitb => apply Encoding.waitb
  | barinit => apply Encoding.barinit | bararv => apply Encoding.bararv | barexp => apply Encoding.barexp | barwait => apply Encoding.barwait
  | bartest => apply Encoding.bartest | fred => apply Encoding.fred | txopen => apply Encoding.txopen | txcommit => apply Encoding.txcommit
  | txquit => apply Encoding.txquit | txstat => apply Encoding.txstat | spopen => apply Encoding.spopen | spcommit => apply Encoding.spcommit
  | mzero => apply Encoding.mzero | mld => apply Encoding.mld | mst => apply Encoding.mst | mma => apply Encoding.mma
  | mloop => apply Encoding.mloop | mconv => apply Encoding.mconv | mmas => apply Encoding.mmas | mcomp => apply Encoding.mcomp
  | mqnt => apply Encoding.mqnt | mstat => apply Encoding.mstat | fsetm => apply Encoding.fsetm | sbind => apply Encoding.sbind
  | sunbind => apply Encoding.sunbind | ginv => apply Encoding.ginv | chain => apply Encoding.chain | sstat => apply Encoding.sstat
  | pdec => apply Encoding.pdec | launch => apply Encoding.launch | spawn => apply Encoding.spawn | wpop => apply Encoding.wpop
  | wsteal => apply Encoding.wsteal | sysr => apply Encoding.sysr | sysw => apply Encoding.sysw | trap => apply Encoding.trap
  | tretRetry => apply Encoding.tretRetry | tretNext => apply Encoding.tretNext | tretError => apply Encoding.tretError
  | tretEnd => apply Encoding.tretEnd | bkpt => apply Encoding.bkpt | mboxSend => apply Encoding.mboxSend | mboxRecv => apply Encoding.mboxRecv
  | attest => apply Encoding.attest
  | _ => exact Encoding.of_event rfl

/-- Whether fields keep to their length and name an assigned operation (R53, R66). -/
def Encoding.sound (f : Fields) : Bool :=
  f.len != 3#2 && (f.len != 0#2 || f.w2 == 0#32) && (f.len == 2#2 || f.w3 == 0#32) && (unitsOf f.grp.toNat f.op.toNat).isSome

/-- The fields that the encoder gives an instruction are sound, whatever its operands. -/
theorem encodeFields_sound (i : Instr) : (encodeFields i).all Encoding.sound = true := by
  cases i <;> rfl

theorem encodeFields_fits {i : Instr} {f : Fields} (h : encodeFields i = some f) :
    Fits f ∧ ∃ us, unitsOf f.grp.toNat f.op.toNat = some us := by
  have hs := encodeFields_sound i
  simp only [h, Option.all_some, Encoding.sound, Bool.and_eq_true, Bool.or_eq_true, bne_iff_ne, beq_iff_eq] at hs
  obtain ⟨⟨⟨hlen, hw2⟩, hw3⟩, hus⟩ := hs
  exact ⟨⟨hlen, hw2.resolve_left ∘ not_not_intro, hw3.resolve_left⟩, Option.isSome_iff_exists.mp hus⟩

/-! ### Words and bytes -/

/-- The length in bytes is 8 and four more for each word that LEN adds (R53). -/
theorem bytes_of_encodeFields {i : Instr} {f : Fields} (h : encodeFields i = some f) : i.bytes = 8 + 4 * f.len.toNat := by
  obtain ⟨⟨hlen, -, -⟩, -⟩ := encodeFields_fits h
  have h3 : f.len.toNat < 3 := by bv_omega
  simp only [Instr.bytes, encode, h, List.length_take, List.length_cons, List.length_nil]
  omega

/-- The bytes of an instruction, then anything, decode as its fields do. -/
theorem decode_encode {i : Instr} {f : Fields} (h : encodeFields i = some f) (rest : List Byte) :
    decode (((encode i).map fun w => toBytes 4 w.toNat).flatten ++ rest) = decodeOp f := by
  simp only [decode, wordsOf_bytes, encode, h, decodeWords_words f (encodeFields_fits h).1]

/-- Settles O47: bytes read back as words, words as fields, and fields as the instruction. -/
theorem decodeOfEncode : Obligations.DecodeOfEncode := by
  unfold Obligations.DecodeOfEncode
  intro i f rest hwf h
  obtain ⟨us, hus⟩ := (encodeFields_fits h).2
  refine ⟨us, hus, ?_⟩
  rw [decode_encode h, bytes_of_encodeFields h]
  simp only [decodeOp, hus, decodeFields_of_encodeFields i hwf f h]

/-- Settles O48: the decoder evaluated on each of the words. -/
theorem wordsDecode : Obligations.WordsDecode := by
  unfold Obligations.WordsDecode
  decide +kernel

end Sys2Proof.Laws
end

section
/-! SUPPORT and the obligations: where an issue is turned away (R57, R58, R60, R61, R67, R135, R136, R214, R387, R389, R436), and a step of a
selected unit with its fetch (R55, R67, R396). -/

namespace Sys2Proof.Laws

open Sys2Proof Sys2Proof.Machine Sys2Proof.Safety

section Issue

variable {s : State} {u : UnitRef} {b : Body} {g : Group} {i : Instr} {c : Ctl} {ops : List Opnd} {extra : List Cause} {r : TxRule}
  {k : Ex → State → State}

/-! ### The WAIT field -/

theorem waitField_ready (h : c.wait = 0#8 ∨ g.waitDone = true) : waitField s u b g i c = .inl s := if_pos h

theorem waitField_waits (hw : c.wait ≠ 0#8) (hd : g.waitDone = false)
    (ho : (anyFull b.toks c.wait || anyOutstanding (closeNamed b c.wait).toks c.wait) = true) :
    waitField s u b g i c = .inr (setWait (putBody s u (closeNamed b c.wait)) u (.tokens c.wait (fullOf b.toks c.wait)) (some i)) := by
  unfold waitField
  rw [if_neg (by simp [hw, hd])]
  exact if_pos ho

/-! ### The selected group -/

theorem issue_unselected (h : s.cur = none) : issue i c ops extra r k s = s := by
  simp only [issue, h]

section Selected

variable (hu : s.cur = some u) (hb : bodyOf s u = some b) (hg : groupOf b u = some g) (hh : b.held = none)
include hu hb hg hh

theorem issue_badDecode {cause : Cause} (h : badDecode s b c ops extra = some cause) :
    issue i c ops extra r k s = faultUnit s u g.mask g.pc (FaultInfo.at cause g.pc g.mask) := by
  simp [issue, hu, hb, hg, hh, h]

theorem issue_waits {t : State} (h : badDecode s b c ops extra = none) (hw : waitField s u b g i c = .inr t) :
    issue i c ops extra r k s = t := by
  simp [issue, hu, hb, hg, hh, h, hw]

theorem issue_rest (h : badDecode s b c ops extra = none) (hw : c.wait = 0#8 ∨ g.waitDone = true) :
    issue i c ops extra r k s = issueRest i c ops r k u b g s := by
  simp [issue, hu, hb, hg, hh, h, waitField_ready hw]

end Selected

/-! ### The registers of the issue -/

theorem issueRest_scoreboard (h : b.awaits g.mask (codesOf s b c ops) = true) :
    issueRest i c ops r k u b g s = setWait s u .scoreboard (some i) := if_pos h

theorem issueRest_uniform {t : Nat} (h : b.awaits g.mask (codesOf s b c ops) = false)
    (ht : b.uniformUntil g.mask s.clock (codesOf s b c ops) = some t) : issueRest i c ops r k u b g s = holdBack s u t := by
  simp [issueRest, h, ht]

section Arrived

variable (ha : b.awaits g.mask (codesOf s b c ops) = false) (hk : b.uniformUntil g.mask s.clock (codesOf s b c ops) = none)
include ha hk

theorem issueRest_short
    (h : ((ctlOf s (ctxOf s u)).sctl.getLsbD 0 && shortMask s (exOf s u b g i c) c ops != 0#64) = true) :
    issueRest i c ops r k u b g s =
      faultUnit s u g.mask g.pc (FaultInfo.at .stallShort g.pc (shortMask s (exOf s u b g i c) c ops)) := by
  simp only [issueRest, ha, hk, h, Bool.false_eq_true, if_false, if_true]

variable (hs : ((ctlOf s (ctxOf s u)).sctl.getLsbD 0 && shortMask s (exOf s u b g i c) c ops != 0#64) = false)
include hs

theorem issueRest_poison (h : (parityAt s (exOf s u b g i c) c ops).filter (fun e => !e.reread) ≠ []) :
    issueRest i c ops r k u b g s = faultUnit (metParity s (parityAt s (exOf s u b g i c) c ops)) u g.mask g.pc (FaultInfo.at .poison g.pc
      (maskOf (((parityAt s (exOf s u b g i c) c ops).filter fun e => !e.reread).map (·.lane)))) := by
  simp only [issueRest, ha, hk, hs, Bool.false_eq_true, if_false, List.isEmpty_iff, h]

theorem issueRest_reads (h : (parityAt s (exOf s u b g i c) c ops).filter (fun e => !e.reread) = []) :
    issueRest i c ops r k u b g s =
      issueOn i c r k (exOf s u b g i c) (metParity s (parityAt s (exOf s u b g i c) c ops)) := by
  simp only [issueRest, ha, hk, hs, Bool.false_eq_true, if_false, List.isEmpty_iff, h, if_true]

end Arrived

/-! ### The guard, the debug monitor, earlier accesses and transactions -/

variable {x : Ex}

theorem issueOn_guardFalse (h : x.exec = 0#64) : issueOn i c r k x s = retire x c x.body s := if_pos h

theorem issueOn_barred (hx : x.exec ≠ 0#64) (h : barred s x.ref i = true) :
    issueOn i c r k x s = faultUnit s x.ref x.grp.mask x.grp.pc (FaultInfo.at .debugDenied x.grp.pc x.exec) := by
  simp [issueOn, hx, h]

theorem issueOn_owed (hx : x.exec ≠ 0#64) (hn : barred s x.ref i = false) (h : owed s x.ref i (r == .runs) ≠ []) :
    issueOn i c r k x s = drainFirst s x.ref i (waitsForPend i (r == .runs)) := by
  simp [issueOn, hx, hn, h]

theorem issueOn_txGate {t : State} (hx : x.exec ≠ 0#64) (hn : barred s x.ref i = false) (ho : owed s x.ref i (r == .runs) = [])
    (h : txGate s x r = some (t, false)) : issueOn i c r k x s = t := by
  simp [issueOn, hx, hn, ho, h]

end Issue

/-- Settles O44: the branches of an issue in their order, each by the rule of its check. -/
theorem issueTurnsAway : Obligations.IssueTurnsAway := by
  unfold Obligations.IssueTurnsAway
  intro s i p hp
  obtain ⟨k, he⟩ := exec_issue hp
  rw [he]
  refine ⟨fun hu => by rw [issue_unselected hu], fun u b g hu hb hg hh => ?_⟩
  dsimp only
  refine ⟨fun cause h => ?_, fun h hw hd ho => ?_, fun h hw => ?_⟩
  · rw [issue_badDecode hu hb hg hh h]
  · rw [issue_waits hu hb hg hh h (waitField_waits hw hd ho)]
  rw [issue_rest hu hb hg hh h hw]
  refine ⟨fun ha => ?_, fun t ha ht => ?_, fun ha hk => ⟨fun hs => ?_, fun hs hbad => ?_, fun hs hbad hx => ?_, fun hs hbad hx hd => ?_,
    fun hs hbad hx hd => ⟨?_, fun ho => ?_, fun t ho ht => ?_⟩⟩⟩
  · rw [issueRest_scoreboard ha]
  · rw [issueRest_uniform ha ht]
  · rw [issueRest_short ha hk hs]
  · rw [issueRest_poison ha hk hs hbad]
  · rw [issueRest_reads ha hk hs hbad, issueOn_guardFalse hx]
    rfl
  · rw [issueRest_reads ha hk hs hbad, issueOn_barred hx hd]
    rfl
  · unfold owed
    cases waitsForPend i (p.rule == .runs) <;> rfl
  · rw [issueRest_reads ha hk hs hbad, issueOn_owed hx hd ho]
    rfl
  · rw [issueRest_reads ha hk hs hbad, issueOn_txGate hx hd ho ht]

/-! ### One block fetched -/

section Block

variable {u : UnitRef} {x y : Nat} {bs : List Byte} {s s1 : State}

theorem fetchFrom_error {f : FetchFault} (n : Nat) (h : fetchBlock s u x = .error f) : fetchFrom u (n + 1) x s = .bad f x := by
  simp only [fetchFrom, h]

variable (h : fetchBlock s u x = .ok (y, bs, s1))
include h

/-- With a word to spare, a pad word moves the fetch one word on (R55). -/
theorem fetchFrom_padWord (n : Nat) (hd : decode bs = .padWord) : fetchFrom u (n + 2) x s = fetchFrom u (n + 1) (y + 4) s1 := by
  rw [fetchFrom]
  simp [h, hd]

theorem fetchFrom_bad {e : DecodeError} (n : Nat) (hd : decode bs = .bad e) :
    fetchFrom u (n + 1) x s = .bad { cause := decodeFault (isAccess u) e, addr := y, level := 0 } y := by
  simp only [fetchFrom, h, hd]

theorem fetchFrom_instr {i : Instr} {k : Nat} {us : Units} (n : Nat) (hd : decode bs = .instr i k us)
    (hf : unitFault (isAccess u) us = none) : fetchFrom u (n + 1) x s = .instr i y s1 := by
  simp only [fetchFrom, h, hd, hf]

theorem fetchFrom_otherUnit {i : Instr} {k : Nat} {us : Units} {cause : Cause} (n : Nat) (hd : decode bs = .instr i k us)
    (hf : unitFault (isAccess u) us = some cause) : fetchFrom u (n + 1) x s = .bad { cause, addr := y, level := 0 } y := by
  simp only [fetchFrom, h, hd, hf]

end Block

/-- The faults of decoding are none of translation (R67). -/
theorem xlateRank_decodeFault (ap : Bool) (e : DecodeError) : xlateRank (decodeFault ap e) = 74 := by
  match e with
  | .pad | .op => rfl
  | .field .crew | .field .access | .field .both => cases ap <;> rfl

theorem xlateRank_unitFault {ap : Bool} {us : Units} {cause : Cause} (h : unitFault ap us = some cause) : xlateRank cause = 74 := by
  cases us <;> cases ap <;> cases h <;> rfl

/-! ### The step of a selected group -/

section Selected

variable {s : State} {u : UnitRef} {b : Body} {g : Group} (hu : s.cur = some u) (hb : bodyOf s u = some b) (hg : groupOf b u = some g)
  (hh : b.held = none)
include hu hb hg hh

theorem step_instr {i : Instr} {y : Nat} {s1 : State} (h : fetchFrom u 4096 g.pc.toNat s = .instr i y s1) :
    step s = exec i (setPc s1 u y) := by
  simp [step, fetchNext, hu, hb, hg, hh, h]

/-- A fault of the fetch is taken where the fetch has come to; translation faults name their level and the access. -/
theorem step_fetchFault {f : FetchFault} {y : Nat} (h : fetchFrom u 4096 g.pc.toNat s = .bad f y) :
    step s = .next (faultUnit s u g.mask (BitVec.ofNat 64 y)
      { cause := f.cause, addr := BitVec.ofNat 64 f.addr, mask := g.mask
        detail := if 70 ≤ xlateRank f.cause ∧ xlateRank f.cause ≤ 72 then xlateDetail f.level .fetch else 0, exact := false }) := by
  simp [step, fetchNext, hu, hb, hg, hh, h]

theorem step_decodeFault {cause : Cause} {y : Nat} (hc : xlateRank cause = 74)
    (h : fetchFrom u 4096 g.pc.toNat s = .bad { cause, addr := y, level := 0 } y) :
    step s = .next (faultUnit s u g.mask (BitVec.ofNat 64 y)
      { cause, addr := BitVec.ofNat 64 y, mask := g.mask, detail := 0, exact := false }) := by
  rw [step_fetchFault hu hb hg hh h, if_neg (by rw [hc]; decide)]

end Selected

/-- Settles O45: the four ways a block can decode, each by the rule of the fetch and the step that it leads to. -/
theorem stepRunsTheDecodedInstruction : Obligations.StepRunsTheDecodedInstruction := by
  unfold Obligations.StepRunsTheDecodedInstruction
  intro s u b g hu hb hg hh
  refine ⟨fun y bs s1 i n us hf hd hn => ?_, fun y bs s1 cause hf hc => ?_, fun f hf => ?_, fun n x t y bs t1 hf hd => ?_⟩
  · exact step_instr hu hb hg hh (fetchFrom_instr hf 4095 hd hn)
  · obtain ⟨e, hd, rfl⟩ | ⟨i, n, us, hd, hn⟩ := hc
    · exact step_decodeFault hu hb hg hh (xlateRank_decodeFault _ e) (fetchFrom_bad hf 4095 hd)
    · exact step_decodeFault hu hb hg hh (xlateRank_unitFault hn) (fetchFrom_otherUnit hf 4095 hd hn)
  · exact ⟨_, step_fetchFault hu hb hg hh (fetchFrom_error 4095 hf)⟩
  · exact fetchFrom_padWord hf n hd

end Sys2Proof.Laws
end

section
/-! SUPPORT and the obligations: results of the integer, logic and move instructions over the integers (R40, R87, R90 to R107). -/

namespace Sys2Proof.Laws

open Sys2Proof Sys2Proof.Machine Sys2Proof.Safety

/-! ### Words as integers modulo 2^32 (R89) -/

theorem wrap32_natCast (n : Nat) : wrap32 (n : Int) = BitVec.ofNat 32 n := BitVec.ofInt_natCast ..
theorem wrap32_toInt (a : W32) : wrap32 a.toInt = a := BitVec.ofInt_toInt
theorem wrap32_toNat (a : W32) : wrap32 a.toNat = a := by simp [wrap32_natCast]
theorem wrap32_asInt (sg : Bool) (a : W32) : wrap32 (asInt sg a) = a := by
  cases sg
  · exact wrap32_toNat a
  · exact wrap32_toInt a
theorem wrap32_add (y z : Int) : wrap32 (y + z) = wrap32 y + wrap32 z := BitVec.ofInt_add ..
theorem wrap32_mul (y z : Int) : wrap32 (y * z) = wrap32 y * wrap32 z := BitVec.ofInt_mul ..
theorem wrap32_neg (z : Int) : wrap32 (-z) = -wrap32 z := BitVec.ofInt_neg
theorem wrap32_sub (y z : Int) : wrap32 (y - z) = wrap32 y - wrap32 z := by
  rw [Int.sub_eq_add_neg, wrap32_add, wrap32_neg, BitVec.sub_eq_add_neg]

theorem asInt_inj {sg : Bool} {a b : W32} : asInt sg a = asInt sg b ↔ a = b :=
  ⟨fun h => by rw [← wrap32_asInt sg a, h, wrap32_asInt], fun h => h ▸ rfl⟩

/-! ### Values of group 0x0 (R90 to R94) -/

theorem iaddVal_eq (sat : Bool) (a b : W32) : iaddVal sat a b = addRule sat a b := by
  cases sat
  · simp [iaddVal, addRule, wrap32_add, wrap32_toNat]
  · rfl

theorem isubVal_eq (sat : Bool) (a b : W32) : isubVal sat a b = subRule sat a b := by
  cases sat
  · simp [isubVal, subRule, wrap32_sub, wrap32_toNat]
  · rfl

theorem mul_eq_mulRule (a b : W32) : a * b = mulRule a b := by
  simp [mulRule, wrap32_mul, wrap32_toNat]

theorem mulAdd_eq (a b c : W32) : a * b + c = wrap32 (a.toNat * b.toNat + c.toNat : Nat) := by
  simp [wrap32_add, wrap32_mul, wrap32_toNat]

theorem product_eq (sg : Bool) (a b : W32) : product sg a b = asInt sg a * asInt sg b := by
  cases sg <;> rfl

theorem imulhVal_eq (sg : Bool) (a b : W32) : imulhVal sg a b = mulHighRule sg a b := by
  rw [imulhVal, mulHighRule, product_eq, Int.fdiv_eq_ediv_of_nonneg _ (by decide)]
  rfl

theorem icmpHolds_eq (cmp : ICmp) (sg : Bool) (a b : W32) : icmpHolds cmp sg a b = compareRule cmp sg a b := by
  have hlt : (if sg then a.slt b else a.ult b) = decide (asInt sg a < asInt sg b) := by
    cases sg
    · simp [asInt, BitVec.ult_eq_decide]
    · exact BitVec.slt_eq_decide
  have heq : (a == b) = decide (asInt sg a = asInt sg b) := by
    rw [decide_eq_decide.mpr asInt_inj]
    rfl
  cases cmp <;> simp only [icmpHolds, compareRule, hlt, heq, bne] <;> grind

theorem iminVal_eq (sg : Bool) (a b : W32) : iminVal sg a b = minRule sg a b := by
  simp only [iminVal, minRule, icmpHolds_eq, compareRule]
  grind

theorem imaxVal_eq (sg : Bool) (a b : W32) : imaxVal sg a b = maxRule sg a b := by
  have := @asInt_inj sg a b
  simp only [imaxVal, maxRule, icmpHolds_eq, compareRule]
  grind

theorem sat32_of_mem {z : Int} (hl : -2147483648 ≤ z) (hh : z ≤ 2147483647) : sat32 z = wrap32 z := by
  rw [sat32, min_eq_right hh, max_eq_right hl]
  rfl

theorem inegVal_eq (sat : Bool) (a : W32) : inegVal sat a = negRule sat a := by
  have hneg : wrap32 (-a.toInt) = -a := by rw [wrap32_neg, wrap32_toInt]
  cases sat
  · simp [inegVal, negRule, hneg]
  · simp only [inegVal, negRule, true_and, if_true]
    split
    · next h =>
      subst h
      rfl
    · next h =>
      have := mt BitVec.toInt_inj.mp h
      have hr : (0x80000000#32).toInt = -2147483648 := rfl
      rw [sat32_of_mem (by have := a.toInt_lt; omega) (by have := a.le_toInt; omega), hneg]

theorem iabsVal_eq (sat : Bool) (a : W32) : iabsVal sat a = absRule sat a := by
  unfold iabsVal
  split
  · next h =>
    rw [inegVal_eq, absRule, negRule, Int.ofNat_natAbs_of_nonpos (Int.le_of_lt h)]
  · next h =>
    have hw : wrap32 a.toInt.natAbs = a := by rw [Int.natAbs_of_nonneg (Int.not_lt.mp h), wrap32_toInt]
    have := a.toInt_lt
    cases sat
    · exact hw.symm
    · exact (by rw [absRule, if_pos rfl, sat32_of_mem (by omega) (by omega), hw])

/-! ### Words by their bits, and the values of groups 0x1 and 0x2 (R96 to R107) -/

theorem getLsbD_wordOf (f : Nat → Bool) (i : Nat) : (wordOf f).getLsbD i = (decide (i < 32) && f i) := by
  have h : ∀ n ≤ 32, ((List.range n).foldl (fun r i => if f i then r ||| (1#32 <<< i) else r) 0#32).getLsbD i =
      (decide (i < n) && f i) := by
    intro n
    induction n with
    | zero => simp
    | succ n ih =>
      intro hn
      rw [List.range_succ, List.foldl_append]
      simp only [List.foldl_cons, List.foldl_nil]
      have := ih (by omega)
      split
      · simp [this]
        grind
      · grind
  exact h 32 le_rfl

theorem getLsbD_wrap32 (n i : Nat) : (wrap32 (n : Int)).getLsbD i = (decide (i < 32) && n.testBit i) := by
  rw [wrap32_natCast, BitVec.getLsbD_ofNat]

theorem ltabVal_eq (ft : BitVec 8) (a b c : W32) : ltabVal ft a b c = tableRule ft a b c := by
  apply BitVec.eq_of_getLsbD_eq
  intro i hi
  have orIf (p : Bool) (u v : W32) : (if p then u ||| v else u).getLsbD i = (u.getLsbD i || p && v.getLsbD i) := by
    cases p <;> simp
  rw [ltabVal, getLsbD_wordOf, tableBit]
  simp only [tableRule, List.range_succ, List.range_zero, List.nil_append, List.cons_append, List.foldl_cons, List.foldl_nil, orIf]
  cases ha : a.getLsbD i <;> cases hb : b.getLsbD i <;> cases hc : c.getLsbD i <;>
    simp [-BitVec.getLsbD_eq_getElem, ha, hb, hc, hi]

theorem shlVal_eq (wrap : Bool) (a b : W32) : shlVal wrap a b = shlRule wrap a b := by
  show a <<< amount wrap b = _
  unfold shlRule
  split
  · exact BitVec.shiftLeft_eq_zero ‹_›
  · rw [wrap32_natCast]
    apply BitVec.eq_of_toNat_eq
    simp [Nat.shiftLeft_eq]

theorem shrVal_eq (wrap : Bool) (a b : W32) : shrVal wrap a b = shrRule wrap a b := by
  show a >>> amount wrap b = _
  unfold shrRule
  split
  · exact BitVec.ushiftRight_eq_zero ‹_›
  · rw [wrap32_natCast]
    apply BitVec.eq_of_toNat_eq
    rw [BitVec.toNat_ushiftRight, Nat.shiftRight_eq_div_pow, BitVec.toNat_ofNat, Nat.mod_eq_of_lt]
    exact (Nat.div_le_self ..).trans_lt a.isLt

theorem sshiftRight_of_ge (a : W32) {n : Nat} (h : 32 ≤ n) : a.sshiftRight n = if a.msb then BitVec.allOnes 32 else 0 := by
  apply BitVec.eq_of_getLsbD_eq
  intro i hi
  rw [BitVec.getLsbD_sshiftRight, if_neg (by omega)]
  cases a.msb
  · simp
  · rw [if_pos rfl, BitVec.getLsbD_allOnes]
    simp [hi]

theorem sarVal_eq (wrap : Bool) (a b : W32) : sarVal wrap a b = sarRule wrap a b := by
  show a.sshiftRight (amount wrap b) = _
  unfold sarRule
  split
  · next h =>
    simp only [sshiftRight_of_ge a h, BitVec.msb_eq_toInt, decide_eq_true_eq]
    rfl
  · rw [BitVec.sshiftRight, Int.shiftRight_eq_div_pow]
    rfl

theorem rotateLeft_eq_wrap32 (a : W32) {n : Nat} (h : n < 32) :
    a.rotateLeft n = wrap32 (a.toNat * 2 ^ n + a.toNat / 2 ^ (32 - n) : Nat) := by
  apply BitVec.eq_of_getLsbD_eq
  intro i hi
  have hq : a.toNat / 2 ^ (32 - n) < 2 ^ n := by
    rw [Nat.div_lt_iff_lt_mul (by positivity), ← pow_add, Nat.add_sub_of_le h.le]
    exact a.isLt
  rw [getLsbD_wrap32, Nat.mul_comm, Nat.testBit_two_pow_mul_add _ hq, BitVec.getLsbD_rotateLeft_of_le h, Nat.testBit_div_two_pow]
  simp only [hi, BitVec.testBit_toNat]
  grind

theorem rotateRight_eq_rotateLeft (a : W32) {n : Nat} (h : n < 32) : a.rotateRight n = a.rotateLeft ((32 - n) % 32) := by
  rw [BitVec.rotateRight_def, BitVec.rotateLeft_def, Nat.mod_mod, Nat.mod_eq_of_lt h]
  obtain rfl | hn := Nat.eq_zero_or_pos n
  · simp [BitVec.ushiftRight_eq_zero]
  · rw [Nat.mod_eq_of_lt (by omega : 32 - n < 32), Nat.sub_sub_self h.le, BitVec.or_comm]

theorem rotVal_eq (right : Bool) (a b : W32) : rotVal right a b = rotRule right a b := by
  have hb := Nat.mod_lt b.toNat (by decide : 32 > 0)
  cases right
  · exact rotateLeft_eq_wrap32 a hb
  · exact (rotateRight_eq_rotateLeft a hb).trans (rotateLeft_eq_wrap32 a (Nat.mod_lt _ (by decide)))

theorem fshfVal_eq (right : Bool) (a b c : W32) : fshfVal right a b c = funnelRule right a b c := by
  have hv : (a ++ b : W64).toNat = a.toNat * 4294967296 + b.toNat := by
    rw [BitVec.toNat_append, Nat.shiftLeft_eq, Nat.mul_comm, ← Nat.two_pow_add_eq_or_of_lt b.isLt, Nat.mul_comm]
  apply BitVec.eq_of_toNat_eq
  simp only [fshfVal, funnelRule, wrap32_natCast]
  cases right
  · simp only [hi32, BitVec.toNat_ofNat, BitVec.toNat_setWidth, BitVec.toNat_ushiftRight, BitVec.toNat_shiftLeft, hv,
      Nat.shiftRight_eq_div_pow, Nat.shiftLeft_eq, Bool.false_eq_true, if_false]
    omega
  · simp [lo32, hv, Nat.shiftRight_eq_div_pow]

theorem length_filter_eq_sum {α : Type} (p : α → Bool) (l : List α) : (l.filter p).length = (l.map fun i => (p i).toNat).sum := by
  induction l with
  | nil => rfl
  | cons x r ih => cases h : p x <;> simp [h, ih, Nat.add_comm]

theorem popcVal_eq (a : W32) : popcVal a = onesRule a := by
  rw [popcVal, onesRule, wrap32_natCast, length_filter_eq_sum]
  simp only [← Nat.toNat_testBit, BitVec.testBit_toNat]

theorem clzVal_eq (a : W32) : clzVal a = leadingRule a := by
  unfold clzVal leadingRule
  split
  · next h =>
    subst h
    rfl
  · next h =>
    have h0 : a.toNat ≠ 0 := fun e => h (BitVec.eq_of_toNat_eq e)
    have hl : Nat.log2 a.toNat < 32 := (Nat.log2_lt h0).mpr a.isLt
    have : (List.range 32).find? (fun i => a.getLsbD (31 - i)) = some (31 - Nat.log2 a.toNat) := by
      rw [List.find?_range_eq_some]
      refine ⟨?_, by simp; omega, fun j hj => ?_⟩
      · rw [← BitVec.testBit_toNat, Nat.sub_sub_self (by omega)]
        exact Nat.testBit_log2 h0
      · rw [← BitVec.testBit_toNat, Nat.testBit_lt_two_pow ((Nat.log2_lt h0).mp (by omega))]
        rfl
    rw [this, Option.getD_some, wrap32_natCast]

theorem sum_bits_lt (f : Nat → Bool) (n : Nat) : ((List.range n).map fun i => (f i).toNat * 2 ^ i).sum < 2 ^ n := by
  induction n with
  | zero => simp
  | succ n ih =>
    have : (f n).toNat * 2 ^ n ≤ 2 ^ n := Nat.mul_le_of_le_div _ _ _ (by simpa using Bool.toNat_le _)
    rw [List.range_succ, List.map_append, List.sum_append, pow_succ]
    simp only [List.map_cons, List.map_nil, List.sum_cons, List.sum_nil]
    omega

theorem testBit_sum_bits (f : Nat → Bool) (n i : Nat) :
    ((List.range n).map fun i => (f i).toNat * 2 ^ i).sum.testBit i = (decide (i < n) && f i) := by
  induction n with
  | zero => simp
  | succ n ih =>
    rw [List.range_succ, List.map_append, List.sum_append]
    simp only [List.map_cons, List.map_nil, List.sum_cons, List.sum_nil, Nat.add_zero]
    rw [Nat.add_comm, Nat.mul_comm, Nat.testBit_two_pow_mul_add _ (sum_bits_lt f n), ih, Nat.testBit_bool_toNat]
    grind

theorem brevVal_eq (a : W32) : brevVal a = reverseRule a := by
  have hr : ((List.range 32).map fun i => a.toNat / 2 ^ i % 2 * 2 ^ (31 - i)).sum =
      ((List.range 32).map fun i => (a.getLsbD (31 - i)).toNat * 2 ^ i).sum := by
    rw [← List.sum_reverse, ← List.map_reverse, show (List.range 32).reverse = (List.range 32).map (31 - ·) from rfl, List.map_map]
    congr 1
    refine List.map_congr_left fun i hi => ?_
    have := List.mem_range.mp hi
    rw [Function.comp_apply, ← Nat.toNat_testBit, BitVec.testBit_toNat, Nat.sub_sub_self (by omega)]
  apply BitVec.eq_of_getLsbD_eq
  intro i hi
  rw [brevVal, getLsbD_wordOf, reverseRule, hr, getLsbD_wrap32, testBit_sum_bits, Bool.and_self_left]

/-- A field of a sign-extended word, sign-extended itself. -/
theorem wrap32_bmod_div (a : W32) (pos len : Nat) :
    wrap32 (Int.bmod (a.toInt / 2 ^ pos) (2 ^ len)) = ((a.sshiftRight pos).signExtend len).signExtend 32 := by
  have hq : (a.sshiftRight pos).toInt = a.toInt / 2 ^ pos := by
    rw [BitVec.toInt_sshiftRight, Int.shiftRight_eq_div_pow]
    rfl
  rw [wrap32, BitVec.signExtend, BitVec.signExtend, BitVec.toInt_ofInt, hq]

theorem getLsbD_sshiftRight_word (a : W32) (pos : Nat) {j : Nat} (hj : j < 32) :
    (a.sshiftRight pos).getLsbD j = if pos + j ≤ 31 then a.getLsbD (pos + j) else a.getLsbD 31 := by
  rw [BitVec.getLsbD_sshiftRight, BitVec.msb_eq_getLsbD_last]
  grind

theorem bfxVal_eq (sg : Bool) (a b c : W32) : bfxVal sg a b c = extractRule sg a b c := by
  unfold bfxVal extractRule
  generalize b.toNat % 256 = pos
  have hlen : min (c.toNat % 256) 32 ≤ 32 := Nat.min_le_right ..
  generalize min (c.toNat % 256) 32 = len at hlen
  dsimp only
  by_cases h0 : len = 0
  · subst h0
    cases sg <;> simp [Nat.mod_one, wrap32]
  rw [if_neg h0, if_neg h0]
  apply BitVec.eq_of_getLsbD_eq
  intro i hi
  rw [getLsbD_wordOf]
  cases sg
  · simp only [Bool.false_eq_true, if_false, getLsbD_wrap32, Nat.testBit_mod_two_pow, Nat.testBit_div_two_pow, BitVec.testBit_toNat]
    grind
  · rw [if_pos rfl, wrap32_bmod_div, BitVec.getLsbD_signExtend, BitVec.msb_eq_getLsbD_last, BitVec.getLsbD_signExtend,
      BitVec.getLsbD_signExtend]
    grind [getLsbD_sshiftRight_word]

theorem bfiVal_eq (a b c : W32) : bfiVal a b c = insertRule a b c := by
  apply BitVec.eq_of_getLsbD_eq
  intro i hi
  unfold bfiVal insertRule
  rw [getLsbD_wordOf]
  generalize c.toNat % 256 = pos
  generalize min (c.toNat / 256 % 256) 32 = len
  simp only [BitVec.getLsbD_or, BitVec.getLsbD_and, BitVec.getLsbD_not, BitVec.getLsbD_shiftLeft, BitVec.getLsbD_ofNat,
    Nat.testBit_mul_two_pow, Nat.testBit_two_pow_sub_one, hi]
  grind

theorem clampTo_eq (lo hi z : Int) (h : lo ≤ hi) : clampTo lo hi z = if z < lo then lo else if hi < z then hi else z := by
  grind [clampTo]

theorem cvtiVal_eq (op : CvtiOp) (a : W32) : cvtiVal op a = convertRule op a := by
  cases op with
  | s32s8 | s32s16 | s32s4 => exact congrArg wrap32 (BitVec.toInt_setWidth ..)
  | b32b8 | b32b16 =>
    apply BitVec.eq_of_toNat_eq
    simp only [cvtiVal, convertRule, wrap32_natCast, BitVec.toNat_setWidth, BitVec.toNat_ofNat]
  | s8s32 | b8s32 | s16s32 | b16s32 | s4s32 => exact congrArg wrap32 (clampTo_eq _ _ _ (by decide))
  | s32b32 =>
    refine (wrap32_natCast _).symm.trans (congrArg wrap32 ?_)
    omega
  | b32s32 =>
    show wrap32 (max a.toInt 0) = if a.toInt < 0 then 0 else a
    split
    · next h => exact congrArg wrap32 (max_eq_right h.le)
    · next h => rw [max_eq_left (by omega), wrap32_toInt]

theorem movkVal_eq (x : Ex) (a b : Spec) :
    movkVal x a b = if x.exec.toNat.testBit (x.v b x.low).toNat then x.v a (x.v b x.low).toNat else 0 := by
  have : ((x.v b x.low).toNat < 64 ∧ x.exec.getLsbD (x.v b x.low).toNat = true) ↔ x.exec.toNat.testBit (x.v b x.low).toNat = true := by
    rw [BitVec.testBit_toNat]
    exact ⟨And.right, fun h => ⟨BitVec.lt_of_getLsbD h, h⟩⟩
  simp only [movkVal, this]

/-! ### 64-bit values -/

theorem wrap64_natCast (n : Nat) : wrap64 (n : Int) = BitVec.ofNat 64 n := BitVec.ofInt_natCast ..
theorem wrap64_toNat (a : W64) : wrap64 a.toNat = a := by simp [wrap64_natCast]
theorem wrap64_toInt (a : W64) : wrap64 a.toInt = a := BitVec.ofInt_toInt
theorem wrap64_add (y z : Int) : wrap64 (y + z) = wrap64 y + wrap64 z := BitVec.ofInt_add ..
theorem wrap64_mul (y z : Int) : wrap64 (y * z) = wrap64 y * wrap64 z := BitVec.ofInt_mul ..

theorem imadwVal_eq (sg : Bool) (a b : W32) (c : W64) :
    imadwVal sg a b c = wrap64 (asInt sg a * asInt sg b + c.toNat) := by
  rw [imadwVal, product_eq]

theorem leaVal_eq (sh : BitVec 3) (sx : Bool) (a : W64) (b : W32) :
    leaVal sh sx a b = wrap64 (a.toNat + asInt sx b * 2 ^ sh.toNat) := by
  have hext : (if sx then b.signExtend 64 else b.setWidth 64) = wrap64 (asInt sx b) := by
    cases sx
    · exact (wrap64_natCast _).symm ▸ BitVec.eq_of_toNat_eq (by simp)
    · rfl
  have hpow : wrap64 (2 ^ sh.toNat) = BitVec.twoPow 64 sh.toNat := by
    have h := wrap64_natCast (2 ^ sh.toNat)
    push_cast at h
    rw [h]
    exact BitVec.eq_of_toNat_eq (by simp)
  rw [leaVal, hext, wrap64_add, wrap64_mul, wrap64_toNat, hpow, BitVec.mul_twoPow_eq_shiftLeft]

theorem iadd64Val_signed (sat : Bool) (a b : W64) :
    iadd64Val sat a b = if sat then sat64 (a.toInt + b.toInt) else wrap64 (a.toInt + b.toInt) := by
  cases sat
  · rw [if_neg Bool.false_ne_true, wrap64_add, wrap64_toInt, wrap64_toInt]
    rfl
  · rfl

theorem iadd64Val_signExtend (sat : Bool) (a : W64) (imm : W32) : iadd64Val sat a (imm.signExtend 64) =
    if sat then sat64 (a.toInt + imm.toInt) else wrap64 (a.toInt + imm.toInt) := by
  rw [iadd64Val_signed, BitVec.toInt_signExtend_of_le (by decide)]

theorem iadd64Val_eq (sat : Bool) (a b : W64) :
    iadd64Val sat a b = if sat then sat64 (a.toInt + b.toInt) else wrap64 (a.toNat + b.toNat : Nat) := by
  cases sat
  · rw [if_neg Bool.false_ne_true, Nat.cast_add, wrap64_add, wrap64_toNat, wrap64_toNat]
    rfl
  · rfl

theorem pair64_eq (lo hi : W32) : pair64 lo hi = BitVec.ofNat 64 (lo.toNat + hi.toNat * 4294967296) := by
  apply BitVec.eq_of_toNat_eq
  rw [pair64, BitVec.toNat_append, Nat.shiftLeft_eq, Nat.mul_comm, ← Nat.two_pow_add_eq_or_of_lt lo.isLt, BitVec.toNat_ofNat]
  omega

/-! ### Predicates -/

theorem tableBit_eq (ft : BitVec 8) (a b c : Bool) :
    tableBit ft a b c = (ft.toNat / 2 ^ (a.toNat + 2 * b.toNat + 4 * c.toNat) % 2 == 1) := by
  rw [tableBit, ← BitVec.testBit_toNat, Nat.testBit_eq_decide_div_mod_eq]
  rfl

/-! ### Results -/

section Values
variable {s : State} {x : Ex} {i : Instr}

/-- An instruction that runs puts the values of its formula, where its meaning has them. -/
theorem exec_result {α : Type} {r : Safety.Result α} {k : Ex → State → State} {f : Nat → α} (put : (Nat → α) → Body) (h : runsAs s i x)
    (hs : shape s i = some r.shape) (he : exec i s = .next (issue i r.ctl r.ops [] .runs k s))
    (hk : k x s = retire x r.ctl (put f) s) (hf : ∀ l, f l = r.val x l) : exec i s = .next (retire x r.ctl (put (r.val x)) s) := by
  rw [exec_runs h hs he, hk, funext hf]

/-- Each instruction of `word32` puts the value of its formula (R90 to R107) into every executing lane. -/
theorem exec_word32_val {r : Safety.Result W32} (h : word32 i = some r) (hx : runsAs s i x) :
    exec i s = .next (retire x r.ctl (x.fixV r.lat r.d (r.val x)) s) := by
  have run {k : Ex → State → State} {f : Nat → W32} := exec_result (r := r) (k := k) (f := f) (x.fixV r.lat r.d) hx
  cases i
  case iadd | iaddImm => cases h; exact run rfl rfl rfl fun _ => iaddVal_eq ..
  case isub | isubImm => cases h; exact run rfl rfl rfl fun _ => isubVal_eq ..
  case imul | imulImm => cases h; exact run rfl rfl rfl fun _ => mul_eq_mulRule ..
  case imulh | imulhImm => cases h; exact run rfl rfl rfl fun _ => imulhVal_eq ..
  case imad => cases h; exact run rfl rfl rfl fun _ => mulAdd_eq ..
  case imin | iminImm => cases h; exact run rfl rfl rfl fun _ => iminVal_eq ..
  case imax | imaxImm => cases h; exact run rfl rfl rfl fun _ => imaxVal_eq ..
  case iabs => cases h; exact run rfl rfl rfl fun _ => iabsVal_eq ..
  case ineg => cases h; exact run rfl rfl rfl fun _ => inegVal_eq ..
  case ltab => cases h; exact run rfl rfl rfl fun _ => ltabVal_eq ..
  case shl | shlImm => cases h; exact run rfl rfl rfl fun _ => shlVal_eq ..
  case shr | shrImm => cases h; exact run rfl rfl rfl fun _ => shrVal_eq ..
  case sar | sarImm => cases h; exact run rfl rfl rfl fun _ => sarVal_eq ..
  case rot | rotImm => cases h; exact run rfl rfl rfl fun _ => rotVal_eq ..
  case fshf => cases h; exact run rfl rfl rfl fun _ => fshfVal_eq ..
  case popc => cases h; exact run rfl rfl rfl fun _ => popcVal_eq ..
  case clz => cases h; exact run rfl rfl rfl fun _ => clzVal_eq ..
  case brev => cases h; exact run rfl rfl rfl fun _ => brevVal_eq ..
  case bfx => cases h; exact run rfl rfl rfl fun _ => bfxVal_eq ..
  case bfi => cases h; exact run rfl rfl rfl fun _ => bfiVal_eq ..
  case mov c wide d a => cases wide <;> cases h; exact run rfl rfl rfl fun _ => rfl
  case movi => cases h; exact run rfl rfl rfl fun _ => rfl
  case movk => cases h; exact run rfl rfl rfl fun _ => movkVal_eq ..
  case sel c wide d a b p => cases wide <;> cases h; exact run rfl rfl rfl fun _ => (Bool.cond_eq_ite ..).symm
  case cvti => cases h; exact run rfl rfl rfl fun _ => cvtiVal_eq ..
  all_goals cases h

/-- Each instruction of `word64` does so with its 64-bit value (R90, R91, R95, R102, R103, R105). -/
theorem exec_word64_val {r : Safety.Result W64} (h : word64 i = some r) (hx : runsAs s i x) :
    exec i s = .next (retire x r.ctl (x.fixW r.lat r.d (r.val x)) s) := by
  have run {k : Ex → State → State} {f : Nat → W64} := exec_result (r := r) (k := k) (f := f) (x.fixW r.lat r.d) hx
  cases i
  case imadw => cases h; exact run rfl rfl rfl fun _ => imadwVal_eq ..
  case lea => cases h; exact run rfl rfl rfl fun _ => leaVal_eq ..
  case iadd64 => cases h; exact run rfl rfl rfl fun _ => iadd64Val_eq ..
  case iadd64Imm => cases h; exact run rfl rfl rfl fun _ => iadd64Val_signExtend ..
  case mov c wide d a => cases wide <;> cases h; exact run rfl rfl rfl fun _ => rfl
  case moviB64 => cases h; exact run rfl rfl rfl fun _ => pair64_eq ..
  case sel c wide d a b p => cases wide <;> cases h; exact run rfl rfl rfl fun _ => (Bool.cond_eq_ite ..).symm
  all_goals cases h

/-- Each instruction of `predicate` does so with its truth value (R94, R101, R252, R253). -/
theorem exec_predicate_val {r : Safety.Result Bool} (h : predicate i = some r) (hx : runsAs s i x) :
    exec i s = .next (retire x r.ctl (x.fixP r.lat r.d (r.val x)) s) := by
  have run {k : Ex → State → State} {f : Nat → Bool} := exec_result (r := r) (k := k) (f := f) (x.fixP r.lat r.d) hx
  cases i
  case iset | isetImm => cases h; exact run rfl rfl rfl fun _ => icmpHolds_eq ..
  case ptab => cases h; exact run rfl rfl rfl fun _ => tableBit_eq ..
  case fset | fsetImm | fclass | fclassImm => cases h; exact run rfl rfl rfl fun _ => rfl
  all_goals cases h

end Values

/-! ### Predicates as sources (R40, R87) -/

section Predicates
variable {x : Ex}

theorem p_of_crew (h : x.body.isAp = false) (c : Spec) (l : Nat) : x.p c l = (x.p (c &&& 7) l ^^ c.getLsbD 3) := by
  have hi : (c &&& 7).toNat % 8 = c.toNat % 8 := by
    rw [BitVec.toNat_and]
    show (c.toNat &&& 2 ^ 3 - 1) % 8 = _
    rw [Nat.and_two_pow_sub_one_eq_mod, Nat.mod_mod]
  have hn : (c &&& 7).getLsbD 3 = false := by simp
  simp only [Ex.p, h, Bool.false_eq_true, if_false, hi, hn, Bool.xor_false]

theorem p_of_access {c : Spec} (h : x.body.isAp = true) (hc : c ≠ 255#8) (l : Nat) : x.p c l = (x.v c l != 0) := by
  simp [Ex.p, Ex.v, h, hc]

theorem p_none_of_access (h : x.body.isAp = true) (l : Nat) : x.p 255#8 l = false := by
  simp [Ex.p, h]

/-- `pt` reads true (R40). -/
theorem p_pt_of_crew (h : x.body.isAp = false) (l : Nat) : x.p 7#8 l = true := by
  simp [Ex.p, h]

end Predicates

/-! ### The obligations -/

/-- Settles O1: each instruction's value is that of its formula. -/
theorem integerResults : Obligations.IntegerResults := by
  unfold Obligations.IntegerResults
  exact fun _ _ _ _ h hx => exec_word32_val h hx

/-- Settles O2: likewise for the 64-bit values. -/
theorem wideResults : Obligations.WideResults := by
  unfold Obligations.WideResults
  exact fun _ _ _ _ h hx => exec_word64_val h hx

/-- Settles O7: SEL is its own formula, and a predicate source reads by its unit. -/
theorem selectChooses : Obligations.SelectChooses := by
  unfold Obligations.SelectChooses
  intro s x c d a b p
  refine ⟨fun h => exec_runs h rfl rfl, fun h => exec_runs h rfl rfl, fun l h => p_of_crew h p l, fun l h hp => p_of_access h hp l,
    fun l h => p_none_of_access h l, fun wide f hf => ?_⟩
  cases hf
  cases wide <;> exact ⟨rfl, rfl, rfl, rfl, rfl, rfl, rfl⟩

theorem toNat_bit1_append (sx : Bool) (sh : BitVec 3) : (bit1 sx ++ sh).toNat = sh.toNat + 8 * sx.toNat := by
  rw [BitVec.toNat_append, Nat.shiftLeft_eq, Nat.mul_comm, ← Nat.two_pow_add_eq_or_of_lt sh.isLt, Nat.add_comm]
  cases sx <;> rfl

/-- Settles O8: LEA is among the 64-bit results; the rest is its encoding and the worked values. -/
theorem addressComputation : Obligations.AddressComputation := by
  unfold Obligations.AddressComputation
  refine ⟨fun s x c sh sx d a b h => exec_word64_val rfl h, fun c sh sx d a b f hf => ?_, by decide, by decide⟩
  cases hf
  exact ⟨rfl, rfl, toNat_bit1_append sx sh⟩

/-- Settles O9: the sum wrapped is its low word, and `pt` reads true. -/
theorem addWithCarry : Obligations.AddWithCarry := by
  unfold Obligations.AddWithCarry
  intro s x c d a b p imm
  simp only [wrap32_natCast]
  exact ⟨fun h => exec_runs h rfl rfl, fun h => exec_runs h rfl rfl, p_pt_of_crew⟩

end Sys2Proof.Laws
end

section
/-! SUPPORT: an instruction with arithmetic events traps or takes its effect (R244). -/

namespace Sys2Proof.Laws

open Sys2Proof Sys2Proof.Machine

section Events
variable {s : State} {x : Ex} {evs : Events}

theorem withEvents_of_trap {e : Arith × Mask} (h : trapOf (ctlOf s (ctxOf s x.ref)) evs = some e) (k : State → State) :
    withEvents x evs s k = faultUnit s x.ref x.grp.mask x.pc
      { cause := .arithTrap, addr := 0, mask := e.2, detail := BitVec.ofNat 32 e.1.code, exact := false } := by
  simp only [withEvents, h]

theorem withEvents_of_no_trap (h : trapOf (ctlOf s (ctxOf s x.ref)) evs = none) (k : State → State) :
    withEvents x evs s k = k (logEvents s x.ref x.pc evs) := by
  simp only [withEvents, h]

end Events

end Sys2Proof.Laws
end

section
/-! SUPPORT and the obligation: exchange, votes and reductions among lanes (R116 to R124, R244). -/

namespace Sys2Proof.Laws

open Sys2Proof Sys2Proof.Machine Sys2Proof.Safety

/-! ### SHFL and VOTE -/

section Exchange
variable {x : Ex} {sm : ShflMode} {wide : Bool} {a b u : Spec} {l : Nat}

theorem shflVal_of_source {p : Nat} (h : shflSource sm x.width l (x.v b l).toNat = some p) :
    shflVal x sm wide a b u l = if x.exec.getLsbD p then (x.vw wide a p, true) else (x.vw wide u l, false) := by
  simp only [shflVal, h]

theorem shflVal_of_none (h : shflSource sm x.width l (x.v b l).toNat = none) : shflVal x sm wide a b u l = (x.vw wide u l, false) := by
  simp only [shflVal, h]

/-- The position that B names in each mode (R119). -/
def shflFrom (sm : ShflMode) (l k : Nat) : Int :=
  match sm with | .idx => k | .up => (l : Int) - k | .down => (l : Int) + k | .xor => (l ^^^ k : Nat)

theorem shflSource_eq_some {w k p : Nat} (h : shflFrom sm l k = p) (hw : p < w) : shflSource sm w l k = some p := by
  have hs : shflSource sm w l k = if 0 ≤ shflFrom sm l k ∧ shflFrom sm l k < w then some (shflFrom sm l k).toNat else none := rfl
  rw [hs, h, if_pos (by omega), Int.toNat_natCast]

theorem shflSource_eq_none {w k : Nat} (h : shflFrom sm l k < 0 ∨ (w : Int) ≤ shflFrom sm l k) : shflSource sm w l k = none :=
  if_neg (by show ¬ (0 ≤ shflFrom sm l k ∧ shflFrom sm l k < w); omega)

theorem ite_one_ne_zero (b : Bool) : ((if b then (1 : W64) else 0) != 0) = b := by cases b <;> rfl

theorem voteVal_all : (voteVal x .all a != 0) = x.lanes.all (x.p a) := by
  simp only [voteVal, ite_one_ne_zero, List.all_map, Function.id_comp]

theorem voteVal_any : (voteVal x .any a != 0) = x.lanes.any (x.p a) := by
  simp only [voteVal, ite_one_ne_zero, List.any_map, Function.id_comp]

theorem voteVal_eq : (voteVal x .eq a != 0) = (x.lanes.all (x.p a) || !x.lanes.any (x.p a)) := by
  simp only [voteVal, ite_one_ne_zero, List.all_map, Function.id_comp, List.not_any_eq_all_not]
  rfl

end Exchange

/-- Settles O12: SHFL and VOTE by their values above, REDC and SCAN by whether an event traps. -/
theorem laneExchangeAndReductions : Obligations.LaneExchangeAndReductions := by
  unfold Obligations.LaneExchangeAndReductions
  refine ⟨fun s x c sm vm wide d a b u v => ⟨fun h => exec_runs h rfl rfl, fun l => ⟨fun p hp hw => ?_, fun hout => ?_⟩, fun h => ?_,
    voteVal_all, voteVal_any, voteVal_eq, fun h => exec_runs h rfl rfl⟩,
    fun s x c op excl d a u v => ⟨fun h => ⟨fun hn => ?_, fun e he => ?_⟩, fun h => ⟨fun hn => ?_, fun e he => ?_⟩⟩⟩
  · exact shflVal_of_source (shflSource_eq_some hp hw)
  · exact shflVal_of_none (shflSource_eq_none hout)
  · rw [exec_runs h rfl rfl]
    cases vm <;> rfl
  · exact (exec_runs h rfl rfl).trans (congrArg _ (withEvents_of_no_trap hn _))
  · exact (exec_runs h rfl rfl).trans (congrArg _ (withEvents_of_trap he _))
  · exact (exec_runs h rfl rfl).trans (congrArg _ (withEvents_of_no_trap hn _))
  · exact (exec_runs h rfl rfl).trans (congrArg _ (withEvents_of_trap he _))

end Sys2Proof.Laws
end

section
/-! SUPPORT and the obligation: control transfers (R15, R53, R108 to R110). -/

namespace Sys2Proof.Laws

open Sys2Proof Sys2Proof.Machine Sys2Proof.Safety

/-! ### Masks and lists of lanes -/

theorem getLsbD_maskOf (ls : List Nat) {l : Nat} (h : l < 64) : (maskOf ls).getLsbD l = decide (l ∈ ls) := by
  have (m : Mask) : (ls.foldl (fun m i => m ||| (1#64 <<< i)) m).getLsbD l = (m.getLsbD l || decide (l ∈ ls)) := by
    induction ls generalizing m with
    | nil => simp
    | cons n r ih =>
      have : (1#64 <<< n).getLsbD l = decide (l = n) := by
        rw [BitVec.getLsbD_shiftLeft, BitVec.getLsbD_one]
        grind
      rw [List.foldl_cons, ih, BitVec.getLsbD_or, this]
      grind
  simpa [maskOf] using this 0

theorem mem_lanesOf {m : Mask} {l : Nat} : l ∈ lanesOf m ↔ m.getLsbD l = true :=
  ⟨fun h => (List.mem_filter.mp h).2, fun h => List.mem_filter.mpr ⟨List.mem_range.mpr (BitVec.lt_of_getLsbD h), h⟩⟩

/-! ### Transfers -/

section Transfer
variable {s : State} {x : Ex} {c : Ctl} {b : Body} {t : Nat → Addr}

theorem transferTo_of_far {l : Nat} {r : List Nat} (h : (x.lanes.filter fun l => (t l).toNat / 2 ^ 55 != 0) = l :: r) :
    transferTo x c b t s = faultEx x .addrNoncanon (t l) (maskOf (l :: r)) s := by
  simp only [transferTo, h]
  rfl

theorem transferTo_of_odd {l : Nat} {r : List Nat} (hf : (x.lanes.filter fun l => (t l).toNat / 2 ^ 55 != 0) = [])
    (h : (x.lanes.filter fun l => (t l).toNat % 4 != 0) = l :: r) :
    transferTo x c b t s = faultEx x .pcAlign (t l) (maskOf (l :: r)) s := by
  simp only [transferTo, hf, h]
  rfl

theorem transferTo_of_good (hf : (x.lanes.filter fun l => (t l).toNat / 2 ^ 55 != 0) = [])
    (h : (x.lanes.filter fun l => (t l).toNat % 4 != 0) = []) : transferTo x c b t s = transfer x c b t s := by
  simp only [transferTo, hf, h]
  rfl

/-- Where a lane of the group goes. -/
def destOf (x : Ex) (t : Nat → Addr) (l : Nat) : Addr := if x.exec.getLsbD l then t l else x.next

/-- The groups into which a crew's group falls: one for each address (R15). -/
def groupsTo (x : Ex) (c : Ctl) (t : Nat → Addr) : List Group :=
  ((lanesOf x.grp.mask).map (destOf x t)).eraseDups.map fun a =>
    { x.grp.issue a x.clock x.lag c with mask := maskOf ((lanesOf x.grp.mask).filter fun l => destOf x t l == a) }

/-- All but the first wait for a place. -/
def parkRest (clock : Nat) : List Group → List Group
  | g :: r => g :: r.map fun g => { g with inPlay := false, parked := clock }
  | [] => []

theorem transfer_crew {cr : Crew} (hb : b = .crew cr) : transfer x c b t s =
    putBody { s with cur := none } x.ref (setGroups b x.ref (parkRest x.clock (groupsTo x c t))) := by
  subst hb
  rfl

theorem mem_parkRest {clock : Nat} {gs : List Group} {g : Group} (h : g ∈ gs) :
    ∃ g' ∈ parkRest clock gs, g'.mask = g.mask ∧ g'.pc = g.pc := by
  cases gs with
  | nil => cases h
  | cons f r =>
    obtain rfl | h := List.mem_cons.mp h
    · exact ⟨_, List.mem_cons_self, rfl, rfl⟩
    · exact ⟨_, List.mem_cons_of_mem _ (List.mem_map_of_mem h), rfl, rfl⟩

theorem mem_groupsTo {l : Nat} (hm : x.grp.mask.getLsbD l = true) :
    ∃ g ∈ groupsTo x c t, g.mask.getLsbD l = true ∧ g.pc = destOf x t l := by
  have hl := mem_lanesOf.mpr hm
  refine ⟨_, List.mem_map_of_mem (List.mem_eraseDups.mpr (List.mem_map_of_mem hl)), ?_, rfl⟩
  rw [getLsbD_maskOf _ (BitVec.lt_of_getLsbD hm)]
  simp [hl]

theorem mem_setGroups {cr : Crew} {gs : List Group} {g : Group} {uid low : Nat} (hg : g ∈ gs) (h0 : g.mask ≠ 0) :
    ∃ cr', setGroups (.crew cr) (.crew uid low) gs = .crew cr' ∧ g ∈ cr'.groups :=
  ⟨_, rfl, List.mem_append_left _ (List.mem_filter.mpr ⟨hg, by simpa using h0⟩)⟩

/-- After a transfer every lane of the group is in a group at its own address (R15). -/
theorem transfer_places {cr : Crew} {uid low l : Nat} (hr : x.ref = .crew uid low) (hb : b = .crew cr)
    (hm : x.grp.mask.getLsbD l = true) : ∃ cr' g, tget (transfer x c b t s).crews uid = some cr' ∧ g ∈ cr'.groups ∧
      g.mask.getLsbD l = true ∧ g.pc = destOf x t l := by
  obtain ⟨g, hg, hgm, hgp⟩ := mem_groupsTo (c := c) (t := t) hm
  obtain ⟨g', hg', hm', hp'⟩ := mem_parkRest (clock := x.clock) hg
  rw [← hm'] at hgm
  have h0 : g'.mask ≠ 0 := fun h => by simp [h] at hgm
  obtain ⟨cr', he, hin⟩ := mem_setGroups (cr := cr) (uid := uid) (low := low) hg' h0
  refine ⟨cr', g', ?_, hin, hgm, hp'.trans hgp⟩
  rw [transfer_crew hb, hr, hb, he]
  exact tget_tset_self ..

end Transfer

/-- Settles O14: a branch is its transfer, the others pass the two checks first, and a transfer leaves a group at each address. -/
theorem transfers : Obligations.Transfers := by
  unfold Obligations.Transfers
  intro s x c form h d a off far odd there taken called goes
  have checked {i : Instr} {b : Body} {t : Nat → Addr} (hi : runsAs s i x → exec i s = .next (transferTo x c b t s)) : goes i b t :=
    fun h => ⟨fun hf ho => (hi h).trans (congrArg _ (transferTo_of_good hf ho)),
      fun l r hf => (hi h).trans (congrArg _ (transferTo_of_far hf)),
      fun l r hf ho => (hi h).trans (congrArg _ (transferTo_of_odd hf ho))⟩
  refine ⟨fun h => exec_runs h rfl rfl, fun h => exec_runs h rfl rfl, checked fun h => exec_runs h rfl rfl,
    checked fun h => exec_runs h rfl rfl, checked fun h => exec_runs h rfl rfl, checked fun h => exec_runs h rfl rfl,
    checked fun h => exec_runs h rfl rfl, fun b t uid low l cr hr hb _ hm => transfer_places hr hb hm, ?_⟩
  rintro _ t ap rfl
  rfl

end Sys2Proof.Laws
end

section
/-! SUPPORT and the obligation: the numbers that floating codes stand for, and their comparison (R233, R252, R253). -/

namespace Sys2Proof.Laws

open Sys2Proof Sys2Proof.Machine Sys2Proof.Safety

/-! ### The fields of a code (R233) -/

section Codes
variable (f : FloatFmt) (c : Nat)

theorem expOf_le : expOf f c ≤ 2 ^ f.eb - 1 := Nat.le_sub_one_of_lt (Nat.mod_lt _ (Nat.two_pow_pos _))

theorem fracOf_lt : fracOf f c < 2 ^ f.mb := Nat.mod_lt _ (Nat.two_pow_pos _)

theorem mag_div : f.mag c / 2 ^ f.mb = expOf f c := by
  rw [FloatFmt.mag, FloatFmt.signBit, pow_add, Nat.mod_mul_left_div_self, expOf]

theorem mag_mod : f.mag c % 2 ^ f.mb = fracOf f c := Nat.mod_mod_of_dvd _ (pow_dvd_pow 2 (Nat.le_add_left ..))

theorem mag_eq : f.mag c = expOf f c * 2 ^ f.mb + fracOf f c := by rw [← mag_div, ← mag_mod, Nat.div_add_mod']

theorem isNeg_eq : f.isNeg c = signOf f c := rfl

/-- A magnitude beside the code of infinity: at it, above it (the NaNs), or below. -/
theorem mag_cmp_infCode : (expOf f c = 2 ^ f.eb - 1 ∧ f.mag c = f.infCode + fracOf f c) ∨
    (expOf f c ≠ 2 ^ f.eb - 1 ∧ f.mag c < f.infCode) := by
  have hr := fracOf_lt f c
  by_cases h : expOf f c = 2 ^ f.eb - 1
  · exact .inl ⟨h, by rw [mag_eq, h]; rfl⟩
  · have : (expOf f c + 1) * 2 ^ f.mb ≤ f.infCode := Nat.mul_le_mul_right _ (lt_of_le_of_ne (expOf_le f c) h)
    refine .inr ⟨h, ?_⟩
    rw [mag_eq]
    rw [Nat.add_one_mul] at this
    omega

theorem isNan_eq : f.isNan c = nanAt f c := by
  have hr := fracOf_lt f c
  have hs : f.signBit = f.infCode + 2 ^ f.mb := by
    have := Nat.two_pow_pos f.eb
    rw [FloatFmt.signBit, FloatFmt.infCode, pow_add, ← Nat.add_one_mul]
    congr 1
    omega
  unfold FloatFmt.isNan nanAt
  obtain ⟨he, hm⟩ | ⟨he, hm⟩ := mag_cmp_infCode f c
  · cases f.sp <;> simp only [hm] <;> grind
  · cases f.sp <;> grind

theorem infAt_iff : infAt f c = true ↔ f.sp = .ieee ∧ f.mag c = f.infCode := by
  obtain ⟨he, hm⟩ | ⟨he, hm⟩ := mag_cmp_infCode f c
  · simp [infAt, he, hm]
  · simp [infAt, he, hm.ne]

theorem fClass_eq : fClass f c = classOf f c := by
  have hz : f.mag c < 2 ^ f.mb ↔ expOf f c = 0 := by
    rw [← mag_div, Nat.div_eq_zero_iff_lt (Nat.two_pow_pos _)]
  have h0 : f.mag c = 0 ↔ expOf f c = 0 ∧ fracOf f c = 0 := by
    rw [mag_eq]
    simp
  unfold fClass classOf
  simp only [isNan_eq, isNeg_eq, ← infAt_iff, hz, h0]
  grind

end Codes

/-! ### The value of a magnitude -/

/-- The number of a magnitude: a code without its sign (R233). -/
def magVal (f : FloatFmt) (m : Nat) : ℚ :=
  if m / 2 ^ f.mb = 0 then 2 ^ (1 - (f.bias : ℤ)) * ((m % 2 ^ f.mb : ℕ) / 2 ^ f.mb)
  else 2 ^ ((m / 2 ^ f.mb : ℕ) - (f.bias : ℤ)) * (1 + (m % 2 ^ f.mb : ℕ) / 2 ^ f.mb)

theorem numOf_eq (f : FloatFmt) (c : Nat) : numOf f c = if signOf f c then -magVal f (f.mag c) else magVal f (f.mag c) := by
  rw [numOf, magVal, mag_div, mag_mod]

section Magnitudes
variable {f : FloatFmt}

theorem magVal_steps {x k : Nat} (hx : 1 ≤ x) (hk : x = 1 ∨ 2 ^ f.mb ≤ k) (hle : k ≤ 2 ^ (f.mb + 1)) :
    magVal f ((x - 1) * 2 ^ f.mb + k) = k * 2 ^ ((x : ℤ) - f.bias - f.mb) := by
  have hM := Nat.two_pow_pos f.mb
  have hM' : (2 : ℚ) ^ f.mb ≠ 0 := by positivity
  rw [pow_succ] at hle
  obtain ⟨y, rfl⟩ := Nat.exists_eq_add_of_le' hx
  rw [zpow_sub₀ two_ne_zero, zpow_natCast, Nat.add_sub_cancel, magVal]
  obtain hlt | ⟨j, rfl⟩ : k < 2 ^ f.mb ∨ ∃ j, k = 2 ^ f.mb + j := by
    rcases lt_or_ge k (2 ^ f.mb) with h | h
    · exact .inl h
    · exact .inr (Nat.exists_eq_add_of_le h)
  · obtain rfl : y = 0 := by omega
    simp [Nat.div_eq_of_lt hlt, Nat.mod_eq_of_lt hlt]
    ring
  · have hcode : y * 2 ^ f.mb + (2 ^ f.mb + j) = j + (y + 1) * 2 ^ f.mb := by ring
    rw [hcode, Nat.add_mul_div_right _ _ hM, Nat.add_mul_mod_self_right]
    obtain hlt | rfl : j < 2 ^ f.mb ∨ j = 2 ^ f.mb := by omega
    · rw [Nat.div_eq_of_lt hlt, Nat.mod_eq_of_lt hlt, Nat.zero_add, if_neg (Nat.succ_ne_zero y)]
      push_cast
      field_simp
    · rw [Nat.div_self hM, Nat.mod_self, if_neg (by omega), show ((1 + (y + 1) : ℕ) : ℤ) - f.bias = ((y + 1 : ℕ) : ℤ) - f.bias + 1 by omega,
        zpow_add_one₀ two_ne_zero]
      push_cast
      field_simp
      ring

theorem exists_steps (f : FloatFmt) (m : Nat) :
    ∃ x k, 1 ≤ x ∧ (x = 1 ∨ 2 ^ f.mb ≤ k) ∧ k < 2 ^ (f.mb + 1) ∧ m = (x - 1) * 2 ^ f.mb + k := by
  have hM := Nat.two_pow_pos f.mb
  have hd := Nat.div_add_mod' m (2 ^ f.mb)
  have hr := Nat.mod_lt m hM
  rw [pow_succ]
  rcases Nat.eq_zero_or_pos (m / 2 ^ f.mb) with h | h
  · exact ⟨1, m, le_rfl, .inl rfl, by rw [h] at hd; omega, by simp⟩
  · refine ⟨m / 2 ^ f.mb, 2 ^ f.mb + m % 2 ^ f.mb, h, .inr (by omega), by omega, ?_⟩
    rw [Nat.sub_mul]
    have := Nat.le_mul_of_pos_left (2 ^ f.mb) h
    omega

theorem magVal_lt_succ (f : FloatFmt) (m : Nat) : magVal f m < magVal f (m + 1) := by
  obtain ⟨x, k, hx, hk, hlt, rfl⟩ := exists_steps f m
  rw [magVal_steps hx hk hlt.le, Nat.add_assoc, magVal_steps hx (by omega) hlt]
  have : (0 : ℚ) < 2 ^ ((x : ℤ) - f.bias - f.mb) := by positivity
  push_cast
  linarith

theorem magVal_strictMono (f : FloatFmt) : StrictMono (magVal f) := strictMono_nat_of_lt_succ (magVal_lt_succ f)

@[simp] theorem magVal_zero (f : FloatFmt) : magVal f 0 = 0 := by simp [magVal]

theorem magVal_nonneg (f : FloatFmt) (m : Nat) : 0 ≤ magVal f m :=
  magVal_zero f ▸ (magVal_strictMono f).monotone (Nat.zero_le m)

/-- The exponent of a positive number. -/
theorem log_eq_iff {x : ℚ} (hx : 0 < x) {n : ℤ} : Int.log 2 x = n ↔ 2 ^ n ≤ x ∧ x < 2 ^ (n + 1) := by
  have h1 := Int.zpow_le_iff_le_log (b := 2) one_lt_two hx (x := n)
  have h2 := Int.lt_zpow_iff_log_lt (b := 2) one_lt_two hx (x := n + 1)
  push_cast at h1 h2
  rw [h1, h2]
  omega

/-- The exponent at which a magnitude of so many steps stands: that of its leading bit, or the least. -/
theorem log_steps {x k : Nat} (hx : 1 ≤ x) (hk : x = 1 ∨ 2 ^ f.mb ≤ k) (h0 : 0 < k) (hlt : k < 2 ^ (f.mb + 1)) :
    max (Int.log 2 ((k : ℚ) * 2 ^ ((x : ℤ) - f.bias - f.mb))) (1 - (f.bias : ℤ)) = x - f.bias := by
  have hstep (j : ℕ) : ((2 : ℕ) : ℚ) ^ ((x : ℤ) - f.bias - f.mb + j) = 2 ^ j * 2 ^ ((x : ℤ) - f.bias - f.mb) := by
    rw [zpow_add₀ (by norm_num), zpow_natCast, mul_comm]
    norm_num
  have hpos : (0 : ℚ) < k * 2 ^ ((x : ℤ) - f.bias - f.mb) := by positivity
  have hup : (k : ℚ) * 2 ^ ((x : ℤ) - f.bias - f.mb) < (2 : ℕ) ^ ((x : ℤ) - f.bias - f.mb + (f.mb + 1 : ℕ)) := by
    rw [hstep]
    gcongr
    exact_mod_cast hlt
  have hl := (Int.lt_zpow_iff_log_lt (b := 2) one_lt_two hpos).mp hup
  obtain rfl | hk := hk
  · push_cast at hl ⊢
    rw [max_eq_right (by omega)]
  · have hlow : ((2 : ℕ) : ℚ) ^ ((x : ℤ) - f.bias - f.mb + f.mb) ≤ k * 2 ^ ((x : ℤ) - f.bias - f.mb) := by
      rw [hstep]
      gcongr
      exact_mod_cast hk
    have hg := (Int.zpow_le_iff_le_log (b := 2) one_lt_two hpos).mp hlow
    rw [max_eq_left (by omega)]
    omega

theorem magVal_pos {m : Nat} (h : 0 < m) : 0 < magVal f m := magVal_zero f ▸ magVal_strictMono f h

/-- A positive magnitude's number is a whole number of steps of its exponent, and the magnitude counts them. -/
theorem magVal_div_step {m : Nat} (h0 : 0 < m) : ∃ k : ℕ,
    magVal f m / 2 ^ (max (Int.log 2 (magVal f m)) (1 - (f.bias : ℤ)) - f.mb) = k ∧
    (max (Int.log 2 (magVal f m)) (1 - (f.bias : ℤ)) + f.bias - 1).toNat * 2 ^ f.mb + k = m := by
  obtain ⟨x, k, hx, hk, hlt, rfl⟩ := exists_steps f m
  have hk0 : 0 < k := by
    rcases hk with rfl | hk
    · omega
    · exact (Nat.two_pow_pos _).trans_le hk
  refine ⟨k, ?_, ?_⟩ <;> rw [magVal_steps hx hk hlt.le, log_steps hx hk hk0 hlt]
  · rw [mul_div_assoc, div_self (by positivity), mul_one]
  · congr 2
    omega

/-- The code of a magnitude's number is the magnitude. -/
theorem codeOf_magVal (f : FloatFmt) (m : Nat) : codeOf f (magVal f m) = m := by
  obtain rfl | h0 := Nat.eq_zero_or_pos m
  · simp [codeOf]
  · obtain ⟨k, hk, hm⟩ := magVal_div_step (f := f) h0
    rw [codeOf, if_neg (magVal_pos h0).ne']
    simp only [hk, Int.floor_natCast, Int.toNat_natCast, hm]

end Magnitudes

/-! ### Exact values -/

/-- The rational that a finite value of the model stands for. -/
def finVal (neg : Bool) (n : Nat) (e : ℤ) : ℚ := if neg then -(n * 2 ^ e) else n * 2 ^ e

/-- A value of the model as a value of the statements. -/
def toVal : Machine.Num → Val
  | .nan => .nan
  | .inf neg => .inf neg
  | .fin neg n e => .num (finVal neg n e) neg

/-- The value of a code is the one that R233's formula gives. -/
theorem valOf_eq (f : FloatFmt) (c : Nat) : valOf f c = toVal (f.value c) := by
  unfold valOf FloatFmt.value
  simp only [← infAt_iff, isNan_eq, isNeg_eq, mag_div, mag_mod]
  split
  · rfl
  · split
    · rfl
    · by_cases he : expOf f c = 0
      · have hv : (2 : ℚ) ^ (1 - (f.bias : ℤ)) * (fracOf f c / 2 ^ f.mb) = fracOf f c * 2 ^ (1 - (f.bias : ℤ) - f.mb) := by
          rw [zpow_sub₀ two_ne_zero _ (f.mb : ℤ), zpow_natCast]
          ring
        simp only [numOf, he, toVal, finVal, if_true, hv]
      · have hv : (2 : ℚ) ^ ((expOf f c : ℤ) - f.bias) * (1 + fracOf f c / 2 ^ f.mb) =
            ((2 ^ f.mb + fracOf f c : ℕ) : ℚ) * 2 ^ ((expOf f c : ℤ) - f.bias - f.mb) := by
          rw [zpow_sub₀ two_ne_zero _ (f.mb : ℤ), zpow_natCast]
          push_cast
          field_simp
        simp only [numOf, he, toVal, finVal, if_false, hv]

section Compare
variable {s t : Bool} {n m : Nat} {e d lo : ℤ}

theorem scaled_eq (h : lo ≤ e) : (scaled s n e lo : ℚ) * 2 ^ lo = finVal s n e := by
  have : (2 : ℚ) ^ (e - lo).natAbs * 2 ^ lo = 2 ^ e := by
    rw [← zpow_natCast, Int.natAbs_of_nonneg (by omega), ← zpow_add₀ two_ne_zero]
    congr 1
    omega
  unfold scaled finVal
  cases s <;> simp [mul_assoc, this]

/-- A comparison of two numbers: how an integer's sign tells it. -/
def Tells (z : ℤ) (x y : ℚ) : Prop := (z = 0 ↔ x = y) ∧ (z < 0 ↔ x < y)

theorem cmp_fin_tells : Tells ((Machine.Num.fin s n e).cmp (.fin t m d)) (finVal s n e) (finVal t m d) := by
  have hp (lo : ℤ) : (0 : ℚ) < 2 ^ lo := by positivity
  have key (lo : ℤ) (he : lo ≤ e) (hd : lo ≤ d) : Tells (scaled s n e lo - scaled t m d lo) (finVal s n e) (finVal t m d) := by
    rw [← scaled_eq he, ← scaled_eq hd, Tells, mul_left_inj' (hp lo).ne', mul_lt_mul_iff_left₀ (hp lo), Int.cast_inj, Int.cast_lt]
    omega
  show Tells (scaled s n e (if e < d then e else d) - scaled t m d (if e < d then e else d)) _ _
  split_ifs with h
  · exact key e le_rfl h.le
  · exact key d (by omega) le_rfl

/-- A number that is neither NaN nor infinite is nearer zero than the place of infinity. -/
theorem mag_lt_infCode {f : FloatFmt} {c : Nat} (h : f.sp = .ieee) (hn : nanAt f c = false) (hi : infAt f c = false) :
    f.mag c < f.infCode := by
  obtain ⟨he, hm⟩ | ⟨_, hm⟩ := mag_cmp_infCode f c
  · simp only [nanAt, infAt, h, he, beq_self_eq_true, Bool.true_and] at hn hi
    grind
  · exact hm

/-- A code that is not a NaN is infinite, at the greatest magnitude, or a number below it. -/
theorem value_cases {f : FloatFmt} (h : f.sp = .ieee) {c : Nat} (hn : nanAt f c = false) :
    (f.value c = .inf (signOf f c) ∧ numOf f c = if signOf f c then -magVal f f.infCode else magVal f f.infCode) ∨
    ∃ n e, f.value c = .fin (signOf f c) n e ∧ numOf f c = finVal (signOf f c) n e ∧ |numOf f c| < magVal f f.infCode := by
  have hv := valOf_eq f c
  rw [valOf, hn, if_neg Bool.false_ne_true] at hv
  cases hi : infAt f c
  · have hlt : |numOf f c| < magVal f f.infCode := by
      have hm := magVal_strictMono f (mag_lt_infCode h hn hi)
      rw [numOf_eq]
      split <;> simpa [abs_of_nonneg (magVal_nonneg f _)] using hm
    rw [hi, if_neg Bool.false_ne_true] at hv
    cases hx : f.value c with
    | nan | inf => rw [hx] at hv; cases hv
    | fin s n e =>
      rw [hx, toVal, Val.num.injEq] at hv
      obtain ⟨hv, hs⟩ := hv
      exact .inr ⟨n, e, by rw [hs], by rw [hv, hs], hlt⟩
  · rw [hi, if_pos rfl] at hv
    cases hx : f.value c with
    | nan | fin => rw [hx] at hv; cases hv
    | inf s =>
      rw [hx, toVal, Val.inf.injEq] at hv
      exact .inl ⟨by rw [hv], by rw [numOf_eq, ((infAt_iff f c).mp hi).2]⟩

/-- A comparison of two codes that are not NaN tells how their numbers by R233's formula lie, infinities among them. -/
theorem cmp_tells {f : FloatFmt} (h : f.sp = .ieee) (h0 : 0 < f.eb) {a b : Nat} (ha : nanAt f a = false) (hb : nanAt f b = false) :
    Tells ((f.value a).cmp (f.value b)) (numOf f a) (numOf f b) := by
  have hI : 0 < magVal f f.infCode := by
    have : 0 < f.infCode := Nat.mul_pos (Nat.sub_pos_of_lt (Nat.one_lt_two_pow h0.ne')) (Nat.two_pow_pos _)
    exact magVal_pos this
  obtain ⟨hva, hna⟩ | ⟨n, e, hva, hna, hla⟩ := value_cases h ha <;> obtain ⟨hvb, hnb⟩ | ⟨m, d, hvb, hnb, hlb⟩ := value_cases h hb
  · rw [hva, hvb, hna, hnb]
    cases signOf f a <;> cases signOf f b <;> simp [Machine.Num.cmp, Tells] <;> grind
  · rw [abs_lt] at hlb
    rw [hva, hvb, hna]
    cases signOf f a <;> simp [Machine.Num.cmp, Tells] <;> grind
  · rw [abs_lt] at hla
    rw [hva, hvb, hnb]
    cases signOf f b <;> simp [Machine.Num.cmp, Tells] <;> grind
  · rw [hva, hvb, hna, hnb]
    exact cmp_fin_tells

theorem fCompare_eq {f : FloatFmt} (h : f.sp = .ieee) (he : 0 < f.eb) (cmp : FCmp) (a b : Nat) : fCompare f cmp a b = compares f cmp a b := by
  unfold fCompare compares
  simp only [isNan_eq]
  by_cases hab : (nanAt f a || nanAt f b) = true
  · cases cmp <;> simp [hab]
  · have hn := hab
    rw [Bool.or_eq_true, not_or, Bool.not_eq_true, Bool.not_eq_true] at hn
    obtain ⟨h0, hlt⟩ := cmp_tells h he hn.1 hn.2
    cases cmp <;> simp only [hab] <;> grind

end Compare

/-- Settles O3: the comparisons by how the numbers of two codes lie, the class by the fields of a code. -/
theorem predicateResults : Obligations.PredicateResults := by
  unfold Obligations.PredicateResults
  refine ⟨fun s i r x h hx => exec_predicate_val h hx, fun f hf => ?_, fun a b => ?_, fun s x c d a b h => exec_runs h rfl rfl⟩
  · simp only [List.mem_cons, List.not_mem_nil, or_false] at hf
    obtain rfl | rfl | rfl := hf
    · exact fCompare_eq rfl (by decide)
    · exact fCompare_eq rfl (by decide)
    · exact fCompare_eq rfl (by decide)
  · rw [← fClass_eq]
    rfl

end Sys2Proof.Laws
end

section
/-! SUPPORT: rounding a number once, and the codes that it yields (R237). -/

namespace Sys2Proof.Laws

open Sys2Proof Sys2Proof.Machine Sys2Proof.Safety

/-! ### Rounding (R237) -/

/-- The exponent of the last place of n * 2^e in a format. -/
def stepExp (f : FloatFmt) (n : Nat) (e : ℤ) : ℤ :=
  (if (Nat.log2 n : ℤ) + e < 1 - f.bias then 1 - (f.bias : ℤ) else Nat.log2 n + e) - f.mb

/-- n * 2^e in steps of 2^q, rounded to a whole number of them. -/
def keptSteps (rnd : Rnd) (draw : Nat) (neg : Bool) (n : Nat) (e : ℤ) (sticky : Bool) (q : ℤ) : Nat :=
  if q - e ≤ 0 then n * 2 ^ (q - e).natAbs
  else n / 2 ^ (q - e).natAbs +
    (if roundsUp rnd neg (n / 2 ^ (q - e).natAbs % 2 == 1) (n % 2 ^ (q - e).natAbs) (q - e).natAbs sticky draw then 1 else 0)

/-- The magnitude of so many steps of 2^q. -/
def codeAt (f : FloatFmt) (q : ℤ) (k : Nat) : Nat := ((q + f.mb + f.bias).toNat - 1) * 2 ^ f.mb + k

theorem roundFin_steps (f : FloatFmt) (rnd : Rnd) (sat : Bool) (draw : Nat) (neg : Bool) (n : Nat) (e : ℤ) (sticky : Bool) :
    roundFin f rnd sat draw neg n e sticky =
      let c := codeAt f (stepExp f n e) (keptSteps rnd draw neg n e sticky (stepExp f n e))
      if f.maxCode < c then (f.signed neg (overflowMag f neg rnd sat), true) else (f.signed neg c, false) := rfl

section Steps
variable {f : FloatFmt} {q : ℤ} {k : Nat}

theorem magVal_codeAt (hq : 1 - (f.bias : ℤ) ≤ q + f.mb) (hk : q + f.mb = 1 - f.bias ∨ 2 ^ f.mb ≤ k) (hle : k ≤ 2 ^ (f.mb + 1)) :
    magVal f (codeAt f q k) = k * 2 ^ q := by
  obtain ⟨x, hx⟩ : ∃ x : ℕ, q + f.mb + f.bias = x := ⟨_, (Int.toNat_of_nonneg (by omega)).symm⟩
  rw [codeAt, hx, Int.toNat_natCast, magVal_steps (by omega) (by omega) hle]
  congr 2
  omega

/-- The parts of a quotient with something below its last place. -/
theorem floor_add_div (n p : Nat) {t : ℚ} (h0 : 0 ≤ t) (h1 : t < 1) : ⌊((n : ℚ) + t) / (p : ℚ)⌋ = (n / p : ℕ) := by
  obtain rfl | hp := Nat.eq_zero_or_pos p
  · simp
  have hp' : (0 : ℚ) < p := by exact_mod_cast hp
  have hn : (n : ℚ) = (n / p : ℕ) * p + (n % p : ℕ) := by exact_mod_cast (Nat.div_add_mod' n p).symm
  have hr : ((n % p : ℕ) : ℚ) + 1 ≤ p := by exact_mod_cast Nat.mod_lt n hp
  rw [Int.floor_eq_iff]
  constructor
  · rw [le_div_iff₀ hp', hn, Int.cast_natCast]
    linarith [Nat.cast_nonneg (α := ℚ) (n % p)]
  · rw [div_lt_iff₀ hp', hn, Int.cast_natCast]
    linarith

/-- What a number has below the last place of an integer: nothing, or, where `sticky`, something; then a draw is not compared to less than
sixteen places. -/
def Below (sticky : Bool) (rnd : Rnd) (sh : Nat) (t : ℚ) : Prop :=
  if sticky then 0 < t ∧ t < 1 ∧ (rnd = .sr → 16 ≤ sh) else t = 0

theorem Below.range {sticky : Bool} {rnd : Rnd} {sh : Nat} {t : ℚ} (h : Below sticky rnd sh t) : 0 ≤ t ∧ t < 1 := by
  cases sticky
  · rw [show t = 0 from h]
    norm_num
  · exact ⟨h.1.le, h.2.1⟩

/-- A remainder of 2^sh, with something below it, beside the half. -/
theorem half_cases {sticky : Bool} {rnd : Rnd} {rem sh : Nat} {t : ℚ} (ht : Below sticky rnd sh t) (hsh : 1 ≤ sh) :
    ((rem : ℚ) + t = 2 ^ sh / 2 ↔ 2 * rem = 2 ^ sh ∧ sticky = false) ∧
    ((2 : ℚ) ^ sh / 2 < rem + t ↔ 2 ^ sh < 2 * rem ∨ 2 * rem = 2 ^ sh ∧ sticky = true) := by
  obtain ⟨h, hh⟩ : ∃ h : ℕ, 2 ^ sh = 2 * h := ⟨2 ^ (sh - 1), by rw [← pow_succ', Nat.sub_add_cancel hsh]⟩
  have hq : (2 : ℚ) ^ sh / 2 = h := by
    have : (2 : ℚ) ^ sh = 2 * h := by exact_mod_cast hh
    rw [this]
    ring
  rw [hq, hh]
  cases sticky
  · obtain rfl : t = 0 := ht
    rw [add_zero, Nat.cast_inj, Nat.cast_lt]
    simp only [and_true, Bool.false_eq_true, and_false, or_false]
    omega
  · obtain ⟨h0, h1, -⟩ := ht
    rcases lt_or_ge rem h with hlt | hge
    · have : (rem : ℚ) + 1 ≤ h := by exact_mod_cast hlt
      exact ⟨iff_of_false (by linarith) (by simp), iff_of_false (by linarith) (by omega)⟩
    · have : (h : ℚ) ≤ rem := by exact_mod_cast hge
      refine ⟨iff_of_false (by linarith) (by simp), iff_of_true (by linarith) ?_⟩
      simp only [and_true]
      omega

/-- The sixteen places of a remainder that a draw is compared to (R237, R238). -/
theorem floor_draw {sticky : Bool} {rem sh : Nat} {t : ℚ} (ht : Below sticky .sr sh t) :
    ⌊((rem : ℚ) + t) / 2 ^ sh * 2 ^ 16⌋ = (rem * 65536 / 2 ^ sh : ℕ) := by
  cases sticky
  · obtain rfl : t = 0 := ht
    rw [← floor_add_div (rem * 65536) (2 ^ sh) le_rfl zero_lt_one]
    congr 1
    push_cast
    ring
  · obtain ⟨h0, h1, h16⟩ := ht
    obtain ⟨r, rfl⟩ := Nat.exists_eq_add_of_le' (h16 rfl)
    have hd : rem * 65536 / 2 ^ (r + 16) = rem / 2 ^ r := by
      rw [pow_add]
      exact Nat.mul_div_mul_right rem _ (by norm_num)
    rw [hd, ← floor_add_div rem (2 ^ r) h0.le h1]
    congr 1
    push_cast
    rw [pow_add]
    field_simp

/-- The model's rounding up is that of R237. -/
theorem roundsUp_eq {rnd : Rnd} {neg sticky : Bool} {lo rem sh draw : Nat} {t : ℚ} (ht : Below sticky rnd sh t) (hsh : 1 ≤ sh) :
    roundsUp rnd neg (lo % 2 == 1) rem sh sticky draw = goesUp rnd neg draw lo ((rem + t) / 2 ^ sh) := by
  have hp : (0 : ℚ) < 2 ^ sh := by positivity
  have hz : rem = 0 ∧ (!sticky) = true ↔ ((rem : ℚ) + t) / 2 ^ sh = 0 := by
    rw [div_eq_zero_iff, or_iff_left hp.ne']
    cases sticky
    · obtain rfl : t = 0 := ht
      simp
    · have := ht.1
      exact iff_of_false (by simp) (by positivity)
  unfold roundsUp goesUp
  simp only [hz]
  split
  · rfl
  · cases rnd with
    | rz | ru | rd => rfl
    | rne =>
      obtain ⟨heq, hlt⟩ := half_cases (rem := rem) ht hsh
      have he : ((rem : ℚ) + t) / 2 ^ sh = 1 / 2 ↔ (rem : ℚ) + t = 2 ^ sh / 2 := by
        rw [div_eq_iff hp.ne', one_div_mul_eq_div]
      have hl : 1 / 2 < ((rem : ℚ) + t) / 2 ^ sh ↔ (2 : ℚ) ^ sh / 2 < rem + t := by
        rw [lt_div_iff₀ hp, one_div_mul_eq_div]
      have ho : ((lo : ℤ) % 2 == 1) = (lo % 2 == 1) := by grind
      simp only [he, hl, heq, hlt, ho]
      cases sticky
      · simp
      · by_cases hh : 2 * rem = 2 ^ sh <;> simp [hh]
    | sr =>
      rw [floor_draw ht]
      exact decide_eq_decide.mpr Nat.cast_lt.symm

/-- n * 2^e in whole steps of 2^q, rounded down. -/
def lowSteps (n : Nat) (e q : ℤ) : Nat := if q - e ≤ 0 then n * 2 ^ (q - e).natAbs else n / 2 ^ (q - e).natAbs

section Kept
variable {rnd : Rnd} {draw n : Nat} {neg sticky : Bool} {e : ℤ} {t : ℚ}

theorem div_step_of_le (h : q ≤ e) : ((n : ℚ) + 0) * 2 ^ e / 2 ^ q = (n * 2 ^ (q - e).natAbs : ℕ) := by
  rw [add_zero, mul_div_assoc, ← zpow_sub₀ two_ne_zero, show e - q = ((q - e).natAbs : ℤ) by omega, zpow_natCast]
  push_cast
  rfl

theorem div_step_of_lt (h : e < q) : ((n : ℚ) + t) * 2 ^ e / 2 ^ q = (n + t) / 2 ^ (q - e).natAbs := by
  rw [mul_div_assoc, ← zpow_sub₀ two_ne_zero, show e - q = -((q - e).natAbs : ℤ) by omega, zpow_neg, zpow_natCast, div_eq_mul_inv]

theorem floor_eq_lowSteps (ht : Below sticky rnd (q - e).natAbs t) (hs : sticky = true → e < q) :
    ⌊((n : ℚ) + t) * 2 ^ e / 2 ^ q⌋ = lowSteps n e q := by
  unfold lowSteps
  rcases le_or_gt q e with h | h
  · cases sticky
    · rw [show t = 0 from ht, div_step_of_le h, if_pos (by omega), Int.floor_natCast]
    · exact absurd (hs rfl) (not_lt.mpr h)
  · rw [div_step_of_lt h, if_neg (by omega), ← floor_add_div n _ ht.range.1 ht.range.2]
    push_cast
    rfl

theorem keptSteps_eq (ht : Below sticky rnd (q - e).natAbs t) (hs : sticky = true → e < q) :
    keptSteps rnd draw neg n e sticky q =
      lowSteps n e q + if goesUp rnd neg draw (lowSteps n e q) (((n : ℚ) + t) * 2 ^ e / 2 ^ q - lowSteps n e q) then 1 else 0 := by
  unfold keptSteps lowSteps
  rcases le_or_gt q e with h | h
  · cases sticky
    · rw [show t = 0 from ht, div_step_of_le h]
      simp only [if_pos (show q - e ≤ 0 by omega), sub_self]
      simp [goesUp]
    · exact absurd (hs rfl) (not_lt.mpr h)
  · have hd : ((n : ℚ) + t) / 2 ^ (q - e).natAbs - (n / 2 ^ (q - e).natAbs : ℕ) = ((n % 2 ^ (q - e).natAbs : ℕ) + t) / 2 ^ (q - e).natAbs := by
      have hn : (n : ℚ) = (n / 2 ^ (q - e).natAbs : ℕ) * 2 ^ (q - e).natAbs + (n % 2 ^ (q - e).natAbs : ℕ) := by
        exact_mod_cast (Nat.div_add_mod' n _).symm
      rw [sub_eq_iff_eq_add, div_add' _ _ _ (by positivity)]
      congr 1
      linarith
    simp only [if_neg (show ¬ q - e ≤ 0 by omega), div_step_of_lt h, hd, roundsUp_eq ht (show 1 ≤ (q - e).natAbs by omega)]

end Kept

theorem codeWith_eq (f : FloatFmt) (neg : Bool) (m : Nat) : f.signed neg m = codeWith f neg m := by
  cases neg
  · exact (Nat.zero_add m).symm
  · rfl

theorem overflowMag_eq (f : FloatFmt) (neg : Bool) (rnd : Rnd) (sat : Bool) : overflowMag f neg rnd sat = overflowRule f neg rnd sat := by
  unfold overflowMag overflowRule FloatFmt.nanCode
  cases f.sp <;> cases sat <;> cases rnd <;> cases neg <;> rfl

theorem maxCode_lt (f : FloatFmt) : f.maxCode < f.signBit := by
  have hp : 0 < f.signBit := Nat.two_pow_pos _
  have hi : f.infCode < f.signBit := by
    rw [FloatFmt.infCode, FloatFmt.signBit, pow_add]
    exact Nat.mul_lt_mul_of_pos_right (Nat.sub_lt (Nat.two_pow_pos _) one_pos) (Nat.two_pow_pos _)
  unfold FloatFmt.maxCode
  cases f.sp <;> dsimp only <;> omega

theorem numOf_of_lt {m : Nat} (h : m < f.signBit) : numOf f m = magVal f m := by
  have hs : signOf f m = false := by
    rw [signOf, show 2 ^ (f.eb + f.mb) = f.signBit from rfl, Nat.div_eq_of_lt h]
    rfl
  rw [numOf_eq, hs, FloatFmt.mag, Nat.mod_eq_of_lt h]
  rfl

end Steps

section Round
variable {f : FloatFmt} {rnd : Rnd} {sat sticky neg : Bool} {draw n : Nat} {e : ℤ} {t : ℚ}

/-- The exponent of a number is that of its leading bit, whatever it has below its last place. -/
theorem log_add (hn : 0 < n) (h0 : 0 ≤ t) (h1 : t < 1) : Int.log 2 (((n : ℚ) + t) * 2 ^ e) = Nat.log2 n + e := by
  have hp : (0 : ℚ) < 2 ^ e := by positivity
  have hl : (2 : ℚ) ^ Nat.log2 n ≤ n := by exact_mod_cast Nat.log2_self_le hn.ne'
  have hu : (n : ℚ) + 1 ≤ 2 ^ (Nat.log2 n + 1) := by exact_mod_cast Nat.lt_log2_self
  rw [log_eq_iff (by positivity), add_right_comm, zpow_add₀ two_ne_zero, zpow_add₀ two_ne_zero, ← Nat.cast_succ, zpow_natCast, zpow_natCast]
  constructor
  · gcongr
    linarith
  · gcongr
    exact lt_of_lt_of_le (by linarith) hu

theorem stepExp_eq (hn : 0 < n) (h0 : 0 ≤ t) (h1 : t < 1) :
    stepExp f n e = max (Int.log 2 (((n : ℚ) + t) * 2 ^ e)) (1 - (f.bias : ℤ)) - f.mb := by
  rw [log_add hn h0 h1, stepExp]
  grind

/-- The whole steps of a number: of the least exponent, or as many as its leading bit makes. -/
theorem lowSteps_range (hn : 0 < n) (ht : Below sticky rnd (stepExp f n e - e).natAbs t) (hs : sticky = true → e < stepExp f n e) :
    1 - (f.bias : ℤ) ≤ stepExp f n e + f.mb ∧ (stepExp f n e + f.mb = 1 - f.bias ∨ 2 ^ f.mb ≤ lowSteps n e (stepExp f n e)) ∧
      lowSteps n e (stepExp f n e) < 2 ^ (f.mb + 1) := by
  obtain ⟨h0, h1⟩ := ht.range
  have hfl := floor_eq_lowSteps (n := n) ht hs
  have hq := stepExp_eq (f := f) (e := e) hn h0 h1
  have hlog := (log_eq_iff (x := ((n : ℚ) + t) * 2 ^ e) (by positivity)).mp rfl
  generalize stepExp f n e = q at *
  generalize hx : ((n : ℚ) + t) * 2 ^ e = x at *
  have hp : (0 : ℚ) < 2 ^ q := by positivity
  refine ⟨by omega, ?_, ?_⟩
  · rcases le_or_gt (Int.log 2 x) (1 - f.bias) with h | h
    · exact .inl (by omega)
    · have hle : ((2 ^ f.mb : ℕ) : ℤ) ≤ ⌊x / 2 ^ q⌋ := by
        rw [Int.le_floor, le_div_iff₀ hp]
        push_cast
        rw [← zpow_natCast, ← zpow_add₀ two_ne_zero, show (f.mb : ℤ) + q = Int.log 2 x by omega]
        exact hlog.1
      rw [hfl] at hle
      exact .inr (by exact_mod_cast hle)
  · have hlt : ⌊x / 2 ^ q⌋ < ((2 ^ (f.mb + 1) : ℕ) : ℤ) := by
      rw [Int.floor_lt, div_lt_iff₀ hp]
      push_cast
      rw [← zpow_natCast, ← zpow_add₀ two_ne_zero]
      exact hlog.2.trans_le (zpow_le_zpow_right₀ one_le_two (by push_cast; omega))
    rw [hfl] at hlt
    exact_mod_cast hlt

/-- The model rounds as R237 says: a number whose integer part and remainder it is given. -/
theorem roundFin_eq (hn : 0 < n) (ht : Below sticky rnd (stepExp f n e - e).natAbs t) (hs : sticky = true → e < stepExp f n e) (z : Bool) :
    roundFin f rnd sat draw neg n e sticky =
      (Val.num (if neg then -((n + t) * 2 ^ e) else (n + t) * 2 ^ e) z).round f rnd sat draw := by
  obtain ⟨h0, h1⟩ := ht.range
  have hq := stepExp_eq (f := f) (e := e) hn h0 h1
  have hx : 0 < ((n : ℚ) + t) * 2 ^ e := by positivity
  have hfl := floor_eq_lowSteps (n := n) ht hs
  have hk := keptSteps_eq (n := n) (draw := draw) (neg := neg) ht hs
  obtain ⟨hmin, hlow, hhigh⟩ := lowSteps_range hn ht hs
  generalize ((n : ℚ) + t) * 2 ^ e = x at *
  have hv : magVal f (codeAt f (stepExp f n e) (keptSteps rnd draw neg n e sticky (stepExp f n e))) =
      keptSteps rnd draw neg n e sticky (stepExp f n e) * 2 ^ stepExp f n e :=
    magVal_codeAt hmin (hlow.imp_right fun h => h.trans (by rw [hk]; omega)) (by rw [hk]; split <;> omega)
  have hne : ¬ (if neg then -x else x) = 0 := by split <;> simp [hx.ne']
  have habs : |if neg then -x else x| = x := by split <;> simp [abs_of_pos hx]
  have hneg : decide ((if neg then -x else x) < 0) = neg := by cases neg <;> simp [hx, hx.le]
  rw [roundFin_steps, Val.round, if_neg hne]
  have hm : (((lowSteps n e (stepExp f n e) : ℕ) : ℤ) : ℚ) + (if goesUp rnd neg draw (lowSteps n e (stepExp f n e))
      (x / 2 ^ stepExp f n e - lowSteps n e (stepExp f n e)) then 1 else 0) = keptSteps rnd draw neg n e sticky (stepExp f n e) := by
    rw [hk]
    push_cast
    rfl
  simp only [habs, hneg, ← hq, hfl, Int.cast_natCast] at hm ⊢
  rw [hm, ← hv, numOf_of_lt (maxCode_lt f), codeOf_magVal, overflowMag_eq]
  simp only [(magVal_strictMono f).lt_iff_lt, codeWith_eq]

end Round

section Codes
variable {f : FloatFmt}

theorem fin_of_num {c : Nat} {x : ℚ} {neg : Bool} (h : valOf f c = .num x neg) :
    ∃ n e, f.value c = .fin neg n e ∧ finVal neg n e = x := by
  rw [valOf_eq] at h
  cases hv : f.value c with
  | nan | inf => rw [hv] at h; cases h
  | fin s n e =>
    rw [hv] at h
    obtain ⟨hx, rfl⟩ := Val.num.inj h
    exact ⟨n, e, rfl, hx⟩

theorem numOf_of_fin {c n : Nat} {e : ℤ} {s : Bool} (h : f.value c = .fin s n e) : numOf f c = finVal s n e := by
  have hv := valOf_eq f c
  rw [h, valOf, toVal] at hv
  split_ifs at hv
  exact (Val.num.inj hv).1

theorem abs_numOf (c : Nat) : |numOf f c| = magVal f (f.mag c) := by
  rw [numOf_eq]
  split <;> simp [abs_of_nonneg (magVal_nonneg f _)]

/-- A number that the format has is rounded to itself. -/
theorem round_magVal {c : Nat} (h0 : 0 < c) (hc : c ≤ f.maxCode) (rnd : Rnd) (sat neg z : Bool) (draw : Nat) :
    (Val.num (if neg then -magVal f c else magVal f c) z).round f rnd sat draw = (codeWith f neg c, false) := by
  have hpos : 0 < magVal f c := magVal_pos h0
  have hne : ¬ (if neg then -magVal f c else magVal f c) = 0 := by split <;> simp [hpos.ne']
  have habs : |if neg then -magVal f c else magVal f c| = magVal f c := by split <;> simp [abs_of_pos hpos]
  have hneg : decide ((if neg then -magVal f c else magVal f c) < 0) = neg := by cases neg <;> simp [hpos, hpos.le]
  have hle : ¬ magVal f f.maxCode < magVal f c := not_lt.mpr ((magVal_strictMono f).monotone hc)
  have hq : ⌊magVal f c / 2 ^ (max (Int.log 2 (magVal f c)) (1 - (f.bias : ℤ)) - f.mb)⌋ =
      magVal f c / 2 ^ (max (Int.log 2 (magVal f c)) (1 - (f.bias : ℤ)) - f.mb) := by
    obtain ⟨k, hk, -⟩ := magVal_div_step (f := f) h0
    rw [hk, Int.floor_natCast, Int.cast_natCast]
  have hstep : (2 : ℚ) ^ (max (Int.log 2 (magVal f c)) (1 - (f.bias : ℤ)) - f.mb) ≠ 0 := by positivity
  rw [Val.round, if_neg hne]
  simp only [habs, hneg, hq, sub_self]
  simp [goesUp, hstep, numOf_of_lt (maxCode_lt f), hle, codeOf_magVal]

theorem roundFin_magVal {c n : Nat} {e : ℤ} (hn : 0 < n) (hc : c ≤ f.maxCode) (h : (n : ℚ) * 2 ^ e = magVal f c) (rnd : Rnd)
    (sat neg : Bool) (draw : Nat) : roundFin f rnd sat draw neg n e false = (codeWith f neg c, false) := by
  have h0 : 0 < c := by
    rcases Nat.eq_zero_or_pos c with rfl | h0
    · rw [magVal_zero] at h
      have : (0 : ℚ) < n * 2 ^ e := by positivity
      linarith
    · exact h0
  have ht : Below false rnd (stepExp f n e - e).natAbs 0 := rfl
  rw [roundFin_eq hn ht (by simp) false, add_zero, h, round_magVal h0 hc]

end Codes

end Sys2Proof.Laws
end

section
/-! SUPPORT: quotients and roots of FP32 numbers (R259). -/

namespace Sys2Proof.Laws

open Sys2Proof Sys2Proof.Machine Sys2Proof.Safety

section Values
variable {s t : Bool} {n m : Nat} {e d : ℤ}

@[simp] theorem finVal_eq_zero : finVal s n e = 0 ↔ n = 0 := by
  have : (2 : ℚ) ^ e ≠ 0 := by positivity
  unfold finVal
  split <;> simp [this]

theorem finVal_neg_iff (hn : n ≠ 0) : finVal s n e < 0 ↔ s = true := by
  have : (0 : ℚ) < n * 2 ^ e := by positivity
  cases s <;> simp [finVal, this, this.le]

theorem finVal_div : finVal s n e / finVal t m d = if s ^^ t then -((n : ℚ) / m * 2 ^ (e - d)) else (n : ℚ) / m * 2 ^ (e - d) := by
  rw [zpow_sub₀ two_ne_zero]
  cases s <;> cases t <;> simp [finVal, neg_div, div_neg, mul_div_mul_comm]

@[simp] theorem fp32_bias : fp32.bias = 127 := rfl

@[simp] theorem fp32_mb : fp32.mb = 23 := rfl

theorem signBit_fp32 : fp32.signBit = 0x80000000 := rfl

/-- The numbers of FP32: below 2^24 in steps of 2^-149 to 2^104 (R233). -/
theorem value_fp32_range {a : Nat} (h : fp32.value a = .fin s n e) : n < 2 ^ 24 ∧ -149 ≤ e ∧ e ≤ 104 := by
  have hf : fracOf fp32 a < 2 ^ 23 := fracOf_lt fp32 a
  have he : expOf fp32 a ≤ 255 := expOf_le fp32 a
  unfold FloatFmt.value at h
  simp only [← infAt_iff, isNan_eq, isNeg_eq, mag_div, mag_mod] at h
  split_ifs at h with hn hi h0
  · obtain ⟨-, rfl, rfl⟩ := Num.fin.inj h
    exact ⟨hf.trans (by norm_num), by decide, by decide⟩
  · obtain ⟨-, rfl, rfl⟩ := Num.fin.inj h
    have hlt : expOf fp32 a * 2 ^ 23 + fracOf fp32 a < 255 * 2 ^ 23 :=
      mag_eq fp32 a ▸ mag_lt_infCode rfl (Bool.not_eq_true _ ▸ hn) (Bool.not_eq_true _ ▸ hi)
    simp only [fp32_bias, fp32_mb]
    omega

end Values

theorem log_sub_le_stepExp (f : FloatFmt) (n : Nat) (e : ℤ) : (Nat.log2 n : ℤ) + e - f.mb ≤ stepExp f n e := by
  unfold stepExp
  split <;> omega

section Division
variable {rnd : Rnd} {n m : Nat} {e : ℤ}

/-- A quotient as the model divides: an integer of at least 41 bits, with what lies below its last place. -/
theorem quotient_parts (hn : 0 < n) (hm : 0 < m) (hlt : m < 2 ^ 24) :
    0 < n * 2 ^ 64 / m ∧ 16 ≤ stepExp fp32 (n * 2 ^ 64 / m) (e - 64) - (e - 64) ∧
    (((n * 2 ^ 64 / m : ℕ) : ℚ) + ((n * 2 ^ 64 % m : ℕ) : ℚ) / m) * 2 ^ (e - 64) = n / m * 2 ^ e ∧
    ∀ sh, 16 ≤ sh → Below (n * 2 ^ 64 % m != 0) rnd sh (((n * 2 ^ 64 % m : ℕ) : ℚ) / m) := by
  have hm' : (0 : ℚ) < m := by exact_mod_cast hm
  have hbig : 2 ^ 40 ≤ n * 2 ^ 64 / m := by
    rw [Nat.le_div_iff_mul_le hm]
    calc 2 ^ 40 * m ≤ 2 ^ 40 * 2 ^ 24 := Nat.mul_le_mul_left _ hlt.le
      _ ≤ n * 2 ^ 64 := Nat.le_mul_of_pos_left _ hn
  have h0 : n * 2 ^ 64 / m ≠ 0 := (lt_of_lt_of_le (by norm_num) hbig).ne'
  have hlog : 40 ≤ Nat.log2 (n * 2 ^ 64 / m) := (Nat.le_log2 h0).mpr hbig
  refine ⟨Nat.pos_of_ne_zero h0, ?_, ?_, fun sh hsh => ?_⟩
  · have := log_sub_le_stepExp fp32 (n * 2 ^ 64 / m) (e - 64)
    rw [fp32_mb] at this
    omega
  · have : (n : ℚ) * 2 ^ 64 = (n * 2 ^ 64 / m : ℕ) * m + (n * 2 ^ 64 % m : ℕ) := by exact_mod_cast (Nat.div_add_mod' (n * 2 ^ 64) m).symm
    have hq : ((n * 2 ^ 64 / m : ℕ) : ℚ) + ((n * 2 ^ 64 % m : ℕ) : ℚ) / m = n * 2 ^ 64 / m := by
      rw [add_div' _ _ _ hm'.ne', this]
    rw [hq, zpow_sub₀ two_ne_zero]
    field_simp
  · by_cases hr : n * 2 ^ 64 % m = 0
    · rw [hr]
      exact (by simp [Below])
    · have hlt : ((n * 2 ^ 64 % m : ℕ) : ℚ) < m := by exact_mod_cast Nat.mod_lt _ hm
      have hpos : (0 : ℚ) < (n * 2 ^ 64 % m : ℕ) := by exact_mod_cast Nat.pos_of_ne_zero hr
      simp only [Below, bne_iff_ne, ne_eq, hr, not_false_eq_true, if_true]
      exact ⟨by positivity, (div_lt_one hm').mpr hlt, fun _ => hsh⟩

end Division

/-- FDIV is the exact quotient rounded once (R259). -/
theorem fDiv_eq (rnd : Rnd) (a b : Nat) : fDiv rnd a b = divOut rnd a b := by
  have hx (s t : Bool) : (s != t) = (s ^^ t) := rfl
  unfold fDiv divOut
  rw [valOf_eq, valOf_eq]
  cases hva : fp32.value a with
  | nan => rfl
  | inf s => cases hvb : fp32.value b <;> simp [toVal, codeWith_eq] <;> rfl
  | fin s n e =>
    cases hvb : fp32.value b with
    | nan => rfl
    | inf t => simp [toVal, codeWith_eq]
    | fin t m d =>
      simp only [toVal, finVal_eq_zero, hx, codeWith_eq]
      by_cases hm : m = 0
      · by_cases hn : n = 0 <;> simp only [hm, hn, if_true, if_false] <;> rfl
      rw [if_neg hm, if_neg hm]
      by_cases hn : n = 0
      · simp [hn, outcome, Val.round]
      · rw [if_neg hn]
        obtain ⟨hlt, -, -⟩ := value_fp32_range hvb
        obtain ⟨hq, h16, hv, hb⟩ := quotient_parts (rnd := rnd) (e := e - d) (Nat.pos_of_ne_zero hn) (Nat.pos_of_ne_zero hm) hlt
        rw [roundFin_eq hq (hb _ (by omega)) (fun _ => by omega) (s ^^ t), hv, ← finVal_div]
        rfl

/-! ### Integer square roots -/

/-- The root's bits from the top: after each, the root so far and what it may still grow by enclose the number. -/
theorem isqrt_steps (k n j : Nat) (hn : n < (2 ^ k) ^ 2) (hj : j ≤ k) :
    let r := (List.range j).foldl (fun r i => let t := r + 2 ^ (k - 1 - i); if t * t ≤ n then t else r) 0
    r ^ 2 ≤ n ∧ n < (r + 2 ^ (k - j)) ^ 2 := by
  induction j with
  | zero => simpa using hn
  | succ j ih =>
    obtain ⟨hl, hh⟩ := ih (by omega)
    have hp : 2 ^ (k - j) = 2 ^ (k - 1 - j) + 2 ^ (k - 1 - j) := by
      rw [← Nat.two_mul, ← pow_succ']
      congr 1
      omega
    rw [List.range_succ, List.foldl_append, List.foldl_cons, List.foldl_nil, show k - (j + 1) = k - 1 - j by omega]
    rw [hp, ← Nat.add_assoc] at hh
    dsimp only at hl hh ⊢
    split_ifs with ht
    · exact ⟨by rwa [pow_two], hh⟩
    · exact ⟨hl, by rw [pow_two]; omega⟩

theorem isqrt_spec {k n : Nat} (hn : n < (2 ^ k) ^ 2) : isqrt k n ^ 2 ≤ n ∧ n < (isqrt k n + 1) ^ 2 := by
  have := isqrt_steps k n k hn le_rfl
  rwa [Nat.sub_self, pow_zero] at this

/-! ### Rounding to nearest -/

theorem two_pow_le_of_roundsUp {neg odd sticky : Bool} {rem sh draw : Nat} (h : roundsUp .rne neg odd rem sh sticky draw = true) :
    2 ^ sh ≤ 2 * rem := by
  unfold roundsUp at h
  grind

theorem le_two_pow_of_not_roundsUp {neg odd sticky : Bool} {rem sh draw : Nat} (hsh : 1 ≤ sh)
    (h : roundsUp .rne neg odd rem sh sticky draw = false) : 2 * (rem + sticky.toNat) ≤ 2 ^ sh := by
  obtain ⟨p, hp⟩ : ∃ p, 2 ^ sh = 2 * p := ⟨2 ^ (sh - 1), by rw [← pow_succ', Nat.sub_add_cancel hsh]⟩
  have : 0 < 2 ^ sh := Nat.two_pow_pos _
  unfold roundsUp at h
  rw [hp] at h this ⊢
  cases sticky <;> simp at h ⊢ <;> grind

/-- A value rounded to nearest: the midpoints beside the result enclose it. -/
theorem near_of_rne {f : FloatFmt} {n : Nat} {e : ℤ} {sticky : Bool} (hn : 0 < n) (he : e < stepExp f n e) :
    let c := codeAt f (stepExp f n e) (keptSteps .rne 0 false n e sticky (stepExp f n e))
    magVal f (c - 1) + magVal f c ≤ 2 * (n * 2 ^ e) ∧ 2 * ((n + sticky.toNat : ℕ) * 2 ^ e) ≤ magVal f c + magVal f (c + 1) := by
  intro c
  have ht : Below sticky .rne (stepExp f n e - e).natAbs (if sticky then 1 / 2 else 0) := by
    cases sticky
    · rfl
    · exact ⟨by norm_num, by norm_num, by simp⟩
  obtain ⟨hmin, hlow, hhigh⟩ := lowSteps_range hn ht fun _ => he
  have hlo : lowSteps n e (stepExp f n e) = n / 2 ^ (stepExp f n e - e).natAbs := if_neg (by omega)
  rw [hlo] at hlow hhigh
  have hsh : 1 ≤ (stepExp f n e - e).natAbs := by omega
  have hstep : (2 : ℚ) ^ stepExp f n e = 2 ^ (stepExp f n e - e).natAbs * 2 ^ e := by
    rw [← zpow_natCast, ← zpow_add₀ two_ne_zero]
    congr 1
    omega
  have hd := Nat.div_add_mod' n (2 ^ (stepExp f n e - e).natAbs)
  have hr := Nat.mod_lt n (Nat.two_pow_pos (stepExp f n e - e).natAbs)
  have hv (k : ℕ) (h : n / 2 ^ (stepExp f n e - e).natAbs ≤ k) (h' : k ≤ 2 ^ (f.mb + 1)) :
      magVal f (codeAt f (stepExp f n e) k) = ((k * 2 ^ (stepExp f n e - e).natAbs : ℕ) : ℚ) * 2 ^ e := by
    rw [magVal_codeAt hmin (hlow.imp_right fun l => l.trans h) h', hstep]
    push_cast
    ring
  have hlo_val := hv _ le_rfl hhigh.le
  have hup_val := hv _ (Nat.le_succ _) hhigh
  have hpe : (0 : ℚ) < 2 ^ e := by positivity
  have scale {a b : ℕ} (h : a ≤ b) : (a : ℚ) * 2 ^ e ≤ b * 2 ^ e := by
    have : (a : ℚ) ≤ b := by exact_mod_cast h
    gcongr
  have hk : c = codeAt f (stepExp f n e) _ := congrArg (codeAt f (stepExp f n e)) (if_neg (by omega))
  rw [hk]
  generalize hu : roundsUp .rne false _ _ _ sticky 0 = up
  generalize stepExp f n e = q at *
  generalize (q - e).natAbs = sh at *
  generalize n / 2 ^ sh = lo at *
  generalize n % 2 ^ sh = rem at *
  have hc : codeAt f q (lo + 1) = codeAt f q lo + 1 := rfl
  have hmul : (lo + 1) * 2 ^ sh = lo * 2 ^ sh + 2 ^ sh := Nat.succ_mul ..
  cases up
  · have hle := le_two_pow_of_not_roundsUp hsh hu
    have hbelow := (magVal_strictMono f).monotone (Nat.sub_le (codeAt f q lo) 1)
    have h1 := scale (show lo * 2 ^ sh ≤ n by omega)
    have h2 := scale (show 2 * (n + sticky.toNat) ≤ lo * 2 ^ sh + (lo + 1) * 2 ^ sh by omega)
    simp only [Bool.false_eq_true, if_false, Nat.add_zero, ← hc]
    push_cast at h1 h2 hlo_val hup_val ⊢
    constructor <;> linarith
  · have hle := two_pow_le_of_roundsUp hu
    have habove := magVal_lt_succ f (codeAt f q (lo + 1))
    have h1 := scale (show lo * 2 ^ sh + (lo + 1) * 2 ^ sh ≤ 2 * n by omega)
    have h2 := scale (show n + sticky.toNat ≤ (lo + 1) * 2 ^ sh by have := sticky.toNat_le; omega)
    simp only [if_true]
    rw [show codeAt f q (lo + 1) - 1 = codeAt f q lo from rfl]
    push_cast at h1 h2 hlo_val hup_val ⊢
    constructor <;> linarith

/-! ### SQRT (R259) -/

@[simp] theorem signed_false (f : FloatFmt) (m : Nat) : f.signed false m = m := rfl

theorem maxCode_fp32 : fp32.maxCode = 0x7F7FFFFF := rfl

theorem magVal_pow {f : FloatFmt} {x : Nat} (hx : 1 ≤ x) : magVal f (x * 2 ^ f.mb) = (2 : ℚ) ^ ((x : ℤ) - f.bias) := by
  have h := magVal_steps (f := f) (x := x) (k := 2 ^ f.mb) hx (.inr le_rfl) (Nat.pow_le_pow_right two_pos (Nat.le_succ _))
  rw [← Nat.succ_mul, Nat.succ_eq_add_one, Nat.sub_add_cancel hx] at h
  rw [h, zpow_sub₀ two_ne_zero _ (f.mb : ℤ), zpow_natCast]
  push_cast
  field_simp

theorem magVal_one (f : FloatFmt) : magVal f 1 = (2 : ℚ) ^ (1 - (f.bias : ℤ) - f.mb) := by
  simpa using magVal_steps (f := f) (x := 1) (k := 1) le_rfl (.inl rfl) (Nat.one_le_two_pow)

/-- A code of FP32 beside whose number, on either side, numbers far from the format's ends lie is neither zero nor infinity. -/
theorem finite_of_near {c : Nat} {y z : ℚ} (hz : 2 ^ (-75 : ℤ) ≤ z) (hy : y ≤ 2 ^ (65 : ℤ))
    (h1 : magVal fp32 (c - 1) + magVal fp32 c ≤ 2 * y) (h2 : 2 * z ≤ magVal fp32 c + magVal fp32 (c + 1)) : 0 < c ∧ c < 0x7F800000 := by
  have hc0 : 0 < c := by
    rcases Nat.eq_zero_or_pos c with rfl | h
    · have hone : magVal fp32 (0 + 1) = (2 : ℚ) ^ (-149 : ℤ) := magVal_one fp32
      have hfar : (2 : ℚ) ^ (-149 : ℤ) < 2 * 2 ^ (-75 : ℤ) := by norm_num
      rw [magVal_zero, hone] at h2
      linarith
    · exact h
  have hb : magVal fp32 (192 * 2 ^ fp32.mb) = 2 ^ ((192 : ℕ) - (fp32.bias : ℤ)) := magVal_pow (by norm_num)
  have hlt := magVal_strictMono fp32 (Nat.sub_lt hc0 one_pos)
  have hle : magVal fp32 (c - 1) ≤ magVal fp32 (192 * 2 ^ fp32.mb) := by
    rw [hb, fp32_bias, show ((192 : ℕ) : ℤ) - (127 : ℕ) = 65 by norm_num]
    linarith
  have := (magVal_strictMono fp32).le_iff_le.mp hle
  rw [fp32_mb] at this
  exact ⟨hc0, by omega⟩

/-- The root of a number m * 2^2E, rounded from its integer part. -/
theorem root_near {m : Nat} {E : ℤ} (hm : 2 ^ 64 ≤ m) (hM : m < 2 ^ 89) (hE : -107 ≤ E) (hE' : E ≤ 20) :
    ∃ c, (roundFin fp32 .rne false 0 false (isqrt 48 m) E (isqrt 48 m * isqrt 48 m != m)).1 = c ∧ 0 < c ∧ c < 0x7F800000 ∧
      (magVal fp32 (c - 1) + magVal fp32 c) ^ 2 ≤ 4 * (m * (2 ^ E) ^ 2) ∧
      4 * (m * (2 ^ E) ^ 2) ≤ (magVal fp32 c + magVal fp32 (c + 1)) ^ 2 := by
  obtain ⟨hr, hr'⟩ := isqrt_spec (k := 48) (n := m) (hM.trans (by norm_num))
  generalize isqrt 48 m = r at *
  have hlow : 2 ^ 32 ≤ r := by
    by_contra hc
    have : (r + 1) ^ 2 ≤ (2 ^ 32) ^ 2 := Nat.pow_le_pow_left (by omega) 2
    omega
  have hhigh : r ≤ 2 ^ 45 := by
    by_contra hc
    have : (2 ^ 45) ^ 2 ≤ r ^ 2 := Nat.pow_le_pow_left (by omega) 2
    omega
  have hlog : 32 ≤ Nat.log2 r := (Nat.le_log2 (by omega)).mpr hlow
  have hq := log_sub_le_stepExp fp32 r E
  rw [fp32_mb] at hq
  have hst : m ≤ (r + (r * r != m).toNat) ^ 2 := by
    cases hb : r * r != m
    · rw [bne_eq_false_iff_eq] at hb
      rw [Bool.toNat_false, Nat.add_zero, pow_two, hb]
    · exact hr'.le
  obtain ⟨h1, h2⟩ := near_of_rne (f := fp32) (n := r) (e := E) (sticky := r * r != m) (by omega) (by omega)
  have hround := roundFin_steps fp32 .rne false 0 false r E (r * r != m)
  generalize codeAt fp32 (stepExp fp32 r E) (keptSteps .rne 0 false r E (r * r != m) (stepExp fp32 r E)) = c at *
  have hpos : (0 : ℚ) < 2 ^ E := by positivity
  have hlow' : (2 : ℚ) ^ (32 : ℤ) ≤ r := by exact_mod_cast hlow
  have hhigh' : (r : ℚ) ≤ 2 ^ (45 : ℤ) := by exact_mod_cast hhigh
  have hsmall : (2 : ℚ) ^ (-75 : ℤ) ≤ (r + (r * r != m).toNat : ℕ) * 2 ^ E := by
    calc (2 : ℚ) ^ (-75 : ℤ) = 2 ^ (32 : ℤ) * 2 ^ (-107 : ℤ) := by norm_num
      _ ≤ r * 2 ^ E := mul_le_mul hlow' (zpow_le_zpow_right₀ one_le_two hE) (by positivity) (by positivity)
      _ ≤ (r + (r * r != m).toNat : ℕ) * 2 ^ E := by
        gcongr
        exact Nat.le_add_right ..
  have hbig : (r : ℚ) * 2 ^ E ≤ 2 ^ (65 : ℤ) := by
    calc (r : ℚ) * 2 ^ E ≤ 2 ^ (45 : ℤ) * 2 ^ (20 : ℤ) :=
          mul_le_mul hhigh' (zpow_le_zpow_right₀ one_le_two hE') (by positivity) (by positivity)
      _ = 2 ^ (65 : ℤ) := by norm_num
  obtain ⟨hc0, hcmax⟩ := finite_of_near hsmall hbig h1 h2
  refine ⟨c, ?_, hc0, hcmax, ?_, ?_⟩
  · rw [hround]
    have hle : ¬ fp32.maxCode < c := by rw [maxCode_fp32]; omega
    simp only [if_neg hle, signed_false]
  · have hsq : ((r ^ 2 : ℕ) : ℚ) ≤ m := by exact_mod_cast hr
    have hn := magVal_nonneg fp32
    have hle := pow_le_pow_left₀ (add_nonneg (hn (c - 1)) (hn c)) h1 2
    have := mul_le_mul_of_nonneg_right hsq (sq_nonneg ((2 : ℚ) ^ E))
    push_cast at this
    linarith [mul_pow 2 ((r : ℚ) * 2 ^ E) 2, mul_pow (r : ℚ) (2 ^ E) 2]
  · have hsq : (m : ℚ) ≤ ((r + (r * r != m).toNat) ^ 2 : ℕ) := by exact_mod_cast hst
    have hle := pow_le_pow_left₀ (by positivity) h2 2
    have := mul_le_mul_of_nonneg_right hsq (sq_nonneg ((2 : ℚ) ^ E))
    push_cast at this hle
    linarith [mul_pow 2 (((r : ℚ) + (r * r != m).toNat) * 2 ^ E) 2, mul_pow ((r : ℚ) + (r * r != m).toNat) (2 ^ E) 2]

/-- The root of a positive number of FP32. -/
theorem fSqrt_fin {a n : Nat} {e : ℤ} (h : fp32.value a = .fin false n e) (hn : 0 < n) :
    ∃ r, fSqrt a = (r, none) ∧ 0 < r ∧ r < 0x7F800000 ∧
      (magVal fp32 (r - 1) + magVal fp32 r) ^ 2 ≤ 4 * (n * 2 ^ e) ∧ 4 * (n * 2 ^ e) ≤ (magVal fp32 r + magVal fp32 (r + 1)) ^ 2 := by
  obtain ⟨hlt, hl, hh⟩ := value_fp32_range h
  have hs (sh : ℕ) (hsh : sh = if e % 2 = 0 then 64 else 65) : fSqrt a = ((roundFin fp32 .rne false 0 false (isqrt 48 (n * 2 ^ sh))
      ((e - sh) / 2) (isqrt 48 (n * 2 ^ sh) * isqrt 48 (n * 2 ^ sh) != n * 2 ^ sh)).1, none) := by
    subst hsh
    simp only [fSqrt, h, hn.ne', if_false, Bool.false_eq_true]
  obtain ⟨sh, hsh⟩ : ∃ sh, sh = if e % 2 = 0 then 64 else 65 := ⟨_, rfl⟩
  have hpar : (e - sh) % 2 = 0 ∧ (64 ≤ sh ∧ sh ≤ 65) := by split at hsh <;> omega
  obtain ⟨hpar, h64, h65⟩ := hpar
  have hm : 2 ^ 64 ≤ n * 2 ^ sh := (Nat.pow_le_pow_right two_pos h64).trans (Nat.le_mul_of_pos_left _ hn)
  have hM : n * 2 ^ sh < 2 ^ 89 :=
    calc n * 2 ^ sh ≤ n * 2 ^ 65 := Nat.mul_le_mul_left _ (Nat.pow_le_pow_right two_pos h65)
      _ < 2 ^ 24 * 2 ^ 65 := by omega
  obtain ⟨c, hc, hc0, hcmax, h1, h2⟩ := root_near hm hM (E := (e - sh) / 2) (by omega) (by omega)
  have hv : (((n * 2 ^ sh : ℕ) : ℚ) * (2 ^ ((e - sh) / 2)) ^ 2) = n * 2 ^ e := by
    push_cast
    rw [← zpow_natCast (2 ^ ((e - sh) / 2) : ℚ), ← zpow_mul, mul_assoc, ← zpow_natCast, ← zpow_add₀ two_ne_zero]
    congr 2
    push_cast
    omega
  rw [hv] at h1 h2
  exact ⟨c, (hs sh hsh).trans (by rw [hc]), hc0, hcmax, h1, h2⟩

theorem value_of_nan {f : FloatFmt} {c : Nat} (h : valOf f c = .nan) : f.value c = .nan := by
  rw [valOf_eq] at h
  cases hv : f.value c with
  | nan => rfl
  | inf | fin => rw [hv] at h; cases h

theorem value_of_inf {f : FloatFmt} {c : Nat} {neg : Bool} (h : valOf f c = .inf neg) : f.value c = .inf neg := by
  rw [valOf_eq] at h
  cases hv : f.value c with
  | nan | fin => rw [hv] at h; cases h
  | inf s => rw [hv] at h; rw [Val.inf.inj h]

theorem fSqrt_nan {a : Nat} (h : fp32.value a = .nan) : fSqrt a = (0x7FC00000, none) := by
  simp only [fSqrt, h]
  rfl

theorem fSqrt_inf {a : Nat} {s : Bool} (h : fp32.value a = .inf s) :
    fSqrt a = if s then (0x7FC00000, some .invalid) else (a, none) := by
  simp only [fSqrt, h]
  rfl

theorem fSqrt_zero {a : Nat} {s : Bool} {e : ℤ} (h : fp32.value a = .fin s 0 e) : fSqrt a = (a, none) := by
  simp only [fSqrt, h, if_true]

theorem fSqrt_neg {a n : Nat} {e : ℤ} (h : fp32.value a = .fin true n e) (hn : n ≠ 0) : fSqrt a = (0x7FC00000, some .invalid) := by
  simp only [fSqrt, h, if_neg hn, if_true]
  rfl

/-- SQRT of a number (R259). -/
theorem fSqrt_num {a : Nat} {q : ℚ} {neg : Bool} (h : valOf fp32 a = .num q neg) : (q = 0 → fSqrt a = (a, none)) ∧
    (q < 0 → fSqrt a = (0x7FC00000, some .invalid)) ∧
    (0 < q → ∃ r, fSqrt a = (r, none) ∧ 0 < r ∧ r < 0x7F800000 ∧
      (numOf fp32 (r - 1) + numOf fp32 r) ^ 2 ≤ 4 * q ∧ 4 * q ≤ (numOf fp32 r + numOf fp32 (r + 1)) ^ 2) := by
  obtain ⟨n, e, hv, rfl⟩ := fin_of_num h
  refine ⟨fun h0 => ?_, fun hlt => ?_, fun hgt => ?_⟩
  · obtain rfl := finVal_eq_zero.mp h0
    exact fSqrt_zero hv
  · have hn : n ≠ 0 := fun h0 => hlt.ne (finVal_eq_zero.mpr h0)
    obtain rfl := (finVal_neg_iff hn).mp hlt
    exact fSqrt_neg hv hn
  · have hn : n ≠ 0 := fun h0 => hgt.ne' (finVal_eq_zero.mpr h0)
    obtain rfl : neg = false := Bool.not_eq_true _ ▸ fun hs => hgt.not_gt ((finVal_neg_iff hn).mpr hs)
    obtain ⟨r, hr, h0, hlt, hlow, hhigh⟩ := fSqrt_fin hv (Nat.pos_of_ne_zero hn)
    have hm {m : Nat} (hm : m ≤ r + 1) : numOf fp32 m = magVal fp32 m := numOf_of_lt (by rw [signBit_fp32]; omega)
    refine ⟨r, hr, h0, hlt, ?_⟩
    rw [hm (by omega), hm (by omega), hm le_rfl]
    exact ⟨hlow, hhigh⟩

end Sys2Proof.Laws
end

section
/-! SUPPORT: the special functions of FP32 numbers (R260, R261). -/

namespace Sys2Proof.Laws

open Sys2Proof Sys2Proof.Machine Sys2Proof.Safety

/-! ### Magnitudes of powers of two and of small integers -/

theorem exists_mag_pow {k : ℤ} (hl : -149 ≤ k) (hh : k ≤ 127) : ∃ c ≤ fp32.maxCode, magVal fp32 c = 2 ^ k := by
  rw [maxCode_fp32]
  rcases le_or_gt (-126) k with h | h
  · refine ⟨(k + 127).toNat * 2 ^ fp32.mb, ?_, ?_⟩
    · rw [fp32_mb]
      omega
    · rw [magVal_pow (by omega), fp32_bias, Int.toNat_of_nonneg (by omega)]
      congr 1
      omega
  · have hk : 2 ^ (k + 149).toNat ≤ 2 ^ 22 := Nat.pow_le_pow_right two_pos (by omega)
    refine ⟨(1 - 1) * 2 ^ fp32.mb + 2 ^ (k + 149).toNat, by omega, ?_⟩
    rw [magVal_steps le_rfl (.inl rfl) (by rw [fp32_mb]; omega)]
    push_cast
    rw [← zpow_natCast, ← zpow_add₀ two_ne_zero, fp32_bias, fp32_mb]
    congr 1
    push_cast
    omega

theorem exists_mag_nat {n : Nat} (h0 : 0 < n) (hh : n < 2 ^ 24) : ∃ c ≤ fp32.maxCode, magVal fp32 c = n := by
  have hl : Nat.log2 n < 24 := (Nat.log2_lt h0.ne').mpr hh
  have hlow : 2 ^ Nat.log2 n ≤ n := Nat.log2_self_le h0.ne'
  have hhigh : n < 2 ^ (Nat.log2 n + 1) := Nat.lt_log2_self
  generalize Nat.log2 n = l at *
  have hk1 : 2 ^ 23 ≤ n * 2 ^ (23 - l) := by
    calc 2 ^ 23 = 2 ^ l * 2 ^ (23 - l) := by rw [← pow_add]; congr 1; omega
      _ ≤ _ := Nat.mul_le_mul_right _ hlow
  have hk2 : n * 2 ^ (23 - l) ≤ 2 ^ 24 := by
    calc n * 2 ^ (23 - l) ≤ 2 ^ (l + 1) * 2 ^ (23 - l) := Nat.mul_le_mul_right _ hhigh.le
      _ = 2 ^ 24 := by rw [← pow_add]; congr 1; omega
  refine ⟨((l + 127) - 1) * 2 ^ fp32.mb + n * 2 ^ (23 - l), ?_, ?_⟩
  · rw [maxCode_fp32, fp32_mb]
    omega
  · rw [magVal_steps (by omega) (.inr (by rw [fp32_mb]; exact hk1)) (by rw [fp32_mb]; exact hk2), fp32_bias, fp32_mb]
    push_cast
    rw [mul_assoc, ← zpow_natCast, ← zpow_add₀ two_ne_zero, show ((23 - l : ℕ) : ℤ) + ((l : ℤ) + 127 - 127 - 23) = 0 by omega, zpow_zero,
      mul_one]

/-! ### The special functions of a number -/

section Sfu
variable {a n : Nat} {e : ℤ} {s : Bool}

/-- A special function's choice among the values its bound allows (log 3), by a code: the operand, or its magnitude. -/
def pickBy (fn : Sfu) (a : Nat) : Nat := Config.sfuPick fn.code (BitVec.ofNat 32 a)

theorem sfu_rcp_fin (h : fp32.value a = .fin s n e) :
    sfu .rcp a = if n = 0 then (fp32.signed s fp32.infCode, some .fdivz) else sfuRcp s n e (pickBy .rcp (fp32.mag a)) := by
  simp only [sfu, h, pickBy]

theorem sfu_rsq_fin (h : fp32.value a = .fin s n e) :
    sfu .rsq a = if n = 0 then (fp32.signed s fp32.infCode, some .fdivz)
      else if s then (fp32.nanCode, some .invalid) else (sfuRsq n e (pickBy .rsq a), none) := by
  simp only [sfu, h, pickBy]

theorem sfu_exp2_fin (h : fp32.value a = .fin s n e) :
    sfu .exp2 a = if n = 0 then (0x3F800000, none) else sfuExp2 s n e (pickBy .exp2 a) := by
  simp only [sfu, h, pickBy]

theorem sfu_log2_fin (h : fp32.value a = .fin s n e) :
    sfu .log2 a = if n = 0 then (fp32.signed true fp32.infCode, some .fdivz)
      else if s then (fp32.nanCode, some .invalid) else (sfuLog2 n e (pickBy .log2 a), none) := by
  simp only [sfu, h, pickBy]

theorem sfu_sin_fin (h : fp32.value a = .fin s n e) :
    sfu .sin a = if n = 0 then (a, none)
      else (if fp32.isNeg a then (pick2 (trigFix false n e) (pickBy .sin (fp32.mag a)) + 0x80000000) % 2 ^ 32
        else pick2 (trigFix false n e) (pickBy .sin (fp32.mag a)), none) := by
  simp only [sfu, h, pickBy]

theorem sfu_cos_fin (h : fp32.value a = .fin s n e) :
    sfu .cos a = if n = 0 then (0x3F800000, none)
      else if fp32.mag a = 0x40490FDB then (0xBF800000 - pickBy .cos (fp32.mag a) % 2, none)
      else (pick2 (trigFix true n e) (pickBy .cos (fp32.mag a)), none) := by
  simp only [sfu, h, pickBy]

theorem sfu_tanh_fin (h : fp32.value a = .fin s n e) :
    sfu .tanh a = if n = 0 then (a, none)
      else if fp32.mag a ≥ 0x41200000 then (fp32.signed s 0x3F800000, none)
      else (if fp32.isNeg a then (pick2 (tanhFix n e) (pickBy .tanh (fp32.mag a)) + 0x80000000) % 2 ^ 32
        else pick2 (tanhFix n e) (pickBy .tanh (fp32.mag a)), none) := by
  simp only [sfu, h, pickBy]

end Sfu

/-! ### EXP2 and LOG2 where they are exact -/

/-- The fixed-point number of EXP2's operand is exact. -/
theorem fixOf_eq {s : Bool} {n : Nat} {e : ℤ} (he : -149 ≤ e) : (fixOf 256 s n e : ℚ) = finVal s n e * 2 ^ 256 := by
  have hs : fixOf 256 s n e = scaled s n e (-256) := by
    have h0 : 0 ≤ e + (256 : ℕ) := by omega
    simp only [fixOf, scaled, if_pos h0, sub_neg_eq_add]
    rfl
  rw [hs, ← scaled_eq (show (-256 : ℤ) ≤ e by omega), mul_assoc, ← zpow_natCast, ← zpow_add₀ two_ne_zero]
  simp

/-- EXP2 of an integer (R260). -/
theorem sfu_exp2_int {a : Nat} {k : ℤ} {neg : Bool} (hl : -149 ≤ k) (hh : k ≤ 127) (h : valOf fp32 a = .num k neg) :
    sfu .exp2 a = (codeOf fp32 (2 ^ k), none) := by
  obtain ⟨n, e, hval, hx⟩ := fin_of_num h
  obtain ⟨c, hc, hv⟩ := exists_mag_pow hl hh
  obtain ⟨-, he, -⟩ := value_fp32_range hval
  rw [sfu_exp2_fin hval]
  by_cases hn : n = 0
  · subst hn
    have hk : k = 0 := by
      rw [finVal_eq_zero.mpr rfl] at hx
      exact_mod_cast hx.symm
    have hone : magVal fp32 (127 * 2 ^ fp32.mb) = 2 ^ (0 : ℤ) := magVal_pow (by norm_num)
    rw [if_pos rfl, hk, ← hone, codeOf_magVal]
    rfl
  · have hfix : fixOf 256 neg n e = k * 2 ^ 256 := by
      have := fixOf_eq (s := neg) (n := n) he
      rw [hx] at this
      exact_mod_cast this
    have hround := roundFin_magVal one_pos hc (by rw [hv, Nat.cast_one, one_mul]) .rne false false 0
    rw [if_neg hn, ← hv, codeOf_magVal, sfuExp2]
    simp only [hfix, Int.mul_ediv_cancel k (show (2 : ℤ) ^ 256 ≠ 0 by positivity), Int.mul_emod_left]
    rw [if_neg (by omega), if_neg (by omega), if_pos ⟨trivial, hl⟩, hround, ← codeWith_eq, signed_false]

/-- A power of two among the integers times powers of two. -/
theorem pow_of_mul_pow {n : Nat} {e k : ℤ} (h : (n : ℚ) * 2 ^ e = 2 ^ k) : n = 2 ^ Nat.log2 n ∧ (Nat.log2 n : ℤ) + e = k := by
  have hn : (n : ℚ) = 2 ^ (k - e) := by
    rw [zpow_sub₀ two_ne_zero, ← h]
    field_simp
  have hge : 0 ≤ k - e := by
    by_contra hlt
    have hlt1 : (2 : ℚ) ^ (k - e) < 1 := zpow_lt_one_of_neg₀ one_lt_two (by omega)
    have hpos : (0 : ℚ) < 2 ^ (k - e) := by positivity
    rw [← hn] at hlt1 hpos
    have : n < 1 := by exact_mod_cast hlt1
    have : 0 < n := by exact_mod_cast hpos
    omega
  obtain ⟨j, hj⟩ := Int.eq_ofNat_of_zero_le hge
  have hn' : n = 2 ^ j := by
    rw [hj, zpow_natCast] at hn
    exact_mod_cast hn
  rw [hn', Nat.log2_two_pow]
  exact ⟨rfl, by omega⟩

theorem sfu_log2_pow {a : Nat} {k : ℤ} {neg : Bool} (hl : -149 ≤ k) (hh : k ≤ 127) (h : valOf fp32 a = .num (2 ^ k) neg) :
    sfu .log2 a = (codeWith fp32 (decide (k < 0)) (codeOf fp32 |(k : ℚ)|), none) := by
  obtain ⟨n, e, hval, hx⟩ := fin_of_num h
  have hpos : (0 : ℚ) < 2 ^ k := by positivity
  have hn : n ≠ 0 := by
    rintro rfl
    rw [finVal_eq_zero.mpr rfl] at hx
    linarith
  have hneg : neg = false := by
    rw [← hx] at hpos
    have := (finVal_neg_iff (s := neg) (e := e) hn).not
    cases neg
    · rfl
    · simp at this
      linarith
  subst hneg
  obtain ⟨hpow, hlog⟩ := pow_of_mul_pow (show (n : ℚ) * 2 ^ e = 2 ^ k from hx)
  rw [sfu_log2_fin hval, if_neg hn, if_neg Bool.false_ne_true, sfuLog2]
  simp only [if_pos hpow, hlog]
  have habs : |(k : ℚ)| = k.natAbs := by rw [Nat.cast_natAbs, Int.cast_abs]
  rw [habs, ofIntExp, roundNum]
  rcases Nat.eq_zero_or_pos k.natAbs with h0 | h0
  · rw [if_pos h0, h0, Nat.cast_zero, codeWith_eq, show codeOf fp32 0 = 0 from if_pos rfl]
  · obtain ⟨c, hc, hv⟩ := exists_mag_nat h0 (by omega)
    rw [if_neg h0.ne', roundFin_magVal h0 hc (by rw [hv, zpow_zero, mul_one]), ← hv, codeOf_magVal]

/-! ### Special operands (R259 to R261) -/

section Special
variable {a n : Nat} {e : ℤ} {s : Bool}

theorem specialCase_nan (h : fp32.value a = .nan) (fn : Sfu) : specialCase fn a = some (sfu fn a) := by
  have hv : valOf fp32 a = .nan := by rw [valOf_eq, h, toVal]
  cases fn <;> simp only [specialCase, hv, sfu, h] <;> rfl

theorem specialCase_inf (h : fp32.value a = .inf s) (fn : Sfu) : specialCase fn a = some (sfu fn a) := by
  have hv : valOf fp32 a = .inf s := by rw [valOf_eq, h, toVal]
  cases fn <;> simp only [specialCase, hv, sfu, h, codeWith_eq] <;> cases s <;> rfl

/-- EXP2 beyond the bounds of R260. -/
theorem sfuExp2_beyond (he : -149 ≤ e) (pick : Nat) : (128 ≤ finVal s n e → sfuExp2 s n e pick = (0x7F800000, some .overflow)) ∧
    (finVal s n e < -150 → sfuExp2 s n e pick = (0, none)) := by
  have hx := fixOf_eq (s := s) (n := n) he
  have hp : (0 : ℚ) < 2 ^ 256 := by positivity
  unfold sfuExp2
  dsimp only
  constructor
  · intro h
    have hle : (128 : ℤ) * 2 ^ 256 ≤ fixOf 256 s n e := by
      have := mul_le_mul_of_nonneg_right h hp.le
      rw [← hx] at this
      exact_mod_cast this
    rw [if_pos ((Int.le_ediv_iff_mul_le (by positivity)).mpr hle)]
    rfl
  · intro h
    have hlt : fixOf 256 s n e < (-150 : ℤ) * 2 ^ 256 := by
      have := mul_lt_mul_of_pos_right h hp
      rw [← hx] at this
      exact_mod_cast this
    have hk : ¬ (128 : ℤ) ≤ fixOf 256 s n e / 2 ^ 256 := by
      rw [Int.le_ediv_iff_mul_le (by positivity)]
      omega
    rw [if_neg hk, if_pos hlt]

/-- The bound of TANH. -/
theorem ten_le_iff (h : fp32.value a = .fin s n e) : 10 ≤ |finVal s n e| ↔ fp32.mag a ≥ 0x41200000 := by
  have h10 : magVal fp32 0x41200000 = 10 := by
    have := magVal_steps (f := fp32) (x := 130) (k := 2 ^ 23 + 2 ^ 21) (by norm_num) (.inr (by norm_num)) (by norm_num)
    norm_num at this
    exact this
  rw [← numOf_of_fin h, abs_numOf, ← h10, (magVal_strictMono fp32).le_iff_le]

theorem sfu_of_specialCase_fin (h : fp32.value a = .fin s n e) {fn : Sfu} {r : Nat × Option Arith} (hr : specialCase fn a = some r) :
    sfu fn a = r := by
  have hv : valOf fp32 a = .num (finVal s n e) s := by rw [valOf_eq, h, toVal]
  have hneg (hn : n ≠ 0) := finVal_neg_iff (s := s) (e := e) hn
  obtain ⟨-, he, -⟩ := value_fp32_range h
  cases fn with
  | rcp =>
    simp only [specialCase, hv, finVal_eq_zero] at hr
    split_ifs at hr with hn
    rw [sfu_rcp_fin h, if_pos hn, codeWith_eq, ← Option.some.inj hr]
    rfl
  | rsq =>
    simp only [specialCase, hv, finVal_eq_zero] at hr
    split_ifs at hr with hn hlt
    · rw [sfu_rsq_fin h, if_pos hn, codeWith_eq, ← Option.some.inj hr]
      rfl
    · rw [sfu_rsq_fin h, if_neg hn, if_pos ((hneg hn).mp hlt), ← Option.some.inj hr]
      rfl
  | exp2 =>
    simp only [specialCase, hv, finVal_eq_zero] at hr
    split_ifs at hr with hn hge hlt
    · rw [sfu_exp2_fin h, if_pos hn, ← Option.some.inj hr]
    · rw [sfu_exp2_fin h, if_neg hn, (sfuExp2_beyond he _).1 hge, ← Option.some.inj hr]
    · rw [sfu_exp2_fin h, if_neg hn, (sfuExp2_beyond he _).2 hlt, ← Option.some.inj hr]
  | log2 =>
    simp only [specialCase, hv, finVal_eq_zero] at hr
    split_ifs at hr with hn hlt
    · rw [sfu_log2_fin h, if_pos hn, ← Option.some.inj hr]
      rfl
    · rw [sfu_log2_fin h, if_neg hn, if_pos ((hneg hn).mp hlt), ← Option.some.inj hr]
      rfl
  | sin =>
    simp only [specialCase, hv, finVal_eq_zero] at hr
    split_ifs at hr with hn
    rw [sfu_sin_fin h, if_pos hn, ← Option.some.inj hr]
  | cos =>
    simp only [specialCase, hv, finVal_eq_zero] at hr
    split_ifs at hr with hn
    rw [sfu_cos_fin h, if_pos hn, ← Option.some.inj hr]
  | tanh =>
    simp only [specialCase, hv, finVal_eq_zero, ten_le_iff h] at hr
    split_ifs at hr with hn hge
    · rw [sfu_tanh_fin h, if_pos hn, ← Option.some.inj hr]
    · rw [sfu_tanh_fin h, if_neg hn, if_pos hge, codeWith_eq, ← Option.some.inj hr]

theorem sfu_of_specialCase {fn : Sfu} {r : Nat × Option Arith} (hr : specialCase fn a = some r) : sfu fn a = r := by
  cases h : fp32.value a with
  | nan => exact Option.some.inj ((specialCase_nan h fn).symm.trans hr)
  | inf s => exact Option.some.inj ((specialCase_inf h fn).symm.trans hr)
  | fin s n e => exact sfu_of_specialCase_fin h hr

end Special

end Sys2Proof.Laws
end

section
/-! SUPPORT and the obligation: integer division, and the operations of variable latency on FP32 numbers (R92, R259 to R262). -/

namespace Sys2Proof.Laws

open Sys2Proof Sys2Proof.Machine Sys2Proof.Safety

/-! ### Division of integers (R92) -/

/-- The model's quotient, remainder and cause are those of the integer formula. -/
theorem divide_eq (sg : Bool) (a b : W32) :
    divide sg a b = (wrap32 (divideRule sg a b).1, wrap32 (divideRule sg a b).2.1, (divideRule sg a b).2.2) := by
  have hb : asInt sg b = 0 ↔ b = 0#32 := by
    rw [← asInt_inj (sg := sg) (a := b)]
    cases sg <;> rfl
  have ho : sg = true → (asInt sg a = -2147483648 ∧ asInt sg b = -1 ↔ a = 0x80000000#32 ∧ b = 0xFFFFFFFF#32) := by
    rintro rfl
    rw [← asInt_inj (sg := true), ← asInt_inj (sg := true) (a := b)]
    rfl
  simp only [divide, divideRule, hb]
  split
  · rw [wrap32_asInt]
    rfl
  · cases sg with
    | false =>
      have hq : wrap32 ((asInt false a).tdiv (asInt false b)) = a / b := by
        rw [asInt, asInt, if_neg Bool.false_ne_true, if_neg Bool.false_ne_true, ← Int.ofNat_tdiv, ← BitVec.toNat_udiv, wrap32_toNat]
      have hr : asInt false a - (asInt false a).tdiv (asInt false b) * asInt false b = (a % b : W32).toNat := by
        rw [asInt, asInt, if_neg Bool.false_ne_true, if_neg Bool.false_ne_true, mul_comm, ← Int.tmod_def, ← Int.ofNat_tmod,
          BitVec.toNat_umod]
      simp only [false_and, Bool.false_eq_true, if_false, hq, hr, wrap32_toNat]
    | true =>
      simp only [true_and, ho rfl, if_true]
      split <;> rfl

section Late
variable {s : State} {x : Ex} {i : Instr}

/-- The instructions of variable latency with the values of their formulas. -/
theorem exec_lateLoud_val {r : Safety.Result (W32 × List Arith)} (h : lateLoud i = some r) (hx : runsAs s i x) :
    exec i s = .next (withEvents x (eventsOf x.lanes fun l => (r.val x l).2) s fun s =>
      retire x r.ctl (x.body.sendV x.exec r.d fun l => (r.val x l).1) s) := by
  have hq (sg : Bool) (a b : W32) : ((divide sg a b).1, (divide sg a b).2.2) = quotientRule sg a b := by
    rw [divide_eq]
    rfl
  have hr (sg : Bool) (a b : W32) : ((divide sg a b).2.1, (divide sg a b).2.2) = remainderRule sg a b := by
    rw [divide_eq]
    rfl
  unfold lateLoud at h
  split at h <;> cases h
  case h_1 | h_2 => simp only [op2, op1, ← hq]; exact exec_runs hx rfl rfl
  case h_3 | h_4 => simp only [op2, op1, ← hr]; exact exec_runs hx rfl rfl
  all_goals exact exec_runs hx rfl rfl

end Late

/-! ### The sign of a word -/

theorem xor_sign (a : W32) : a ^^^ 0x80000000#32 = a + 0x80000000#32 := by
  apply BitVec.eq_of_getLsbD_eq
  intro i hi
  rw [BitVec.getLsbD_xor, ← BitVec.testBit_toNat (a + _), BitVec.toNat_add, Nat.testBit_mod_two_pow, ← BitVec.testBit_toNat,
    ← BitVec.testBit_toNat, show (0x80000000#32).toNat = 2 ^ 31 from rfl, Nat.testBit_two_pow, Nat.add_comm]
  obtain h | rfl : i < 31 ∨ i = 31 := by omega
  · rw [Nat.testBit_two_pow_add_gt h, decide_eq_true hi, decide_eq_false h.ne', Bool.xor_false, Bool.true_and]
  · rw [Nat.testBit_two_pow_add_eq, decide_eq_true rfl, decide_eq_true hi, Bool.xor_true, Bool.true_and]

theorem ofNat_add_sign (m : Nat) : BitVec.ofNat 32 (m + 0x80000000) = BitVec.ofNat 32 m ^^^ 0x80000000#32 := by
  rw [xor_sign, BitVec.ofNat_add]

theorem xor_sign_xor_sign (a : W32) : a ^^^ 0x80000000#32 ^^^ 0x80000000#32 = a := by
  rw [BitVec.xor_assoc, BitVec.xor_self, BitVec.xor_zero]

theorem mag_xor_sign (a : W32) : fp32.mag (a ^^^ 0x80000000#32).toNat = fp32.mag a.toNat := by
  rw [xor_sign, FloatFmt.mag, FloatFmt.mag, signBit_fp32, BitVec.toNat_add]
  simp only [BitVec.toNat_ofNat]
  omega

theorem isNeg_xor_sign (a : W32) : fp32.isNeg (a ^^^ 0x80000000#32).toNat = !fp32.isNeg a.toNat := by
  have := a.isLt
  rw [xor_sign, FloatFmt.isNeg, FloatFmt.isNeg, signBit_fp32, BitVec.toNat_add]
  simp only [BitVec.toNat_ofNat, ← decide_not, decide_eq_decide]
  omega

/-- A word's number with its sign turned. -/
theorem value_xor_sign {a : W32} {s : Bool} {n : Nat} {e : ℤ} (h : fp32.value a.toNat = .fin s n e) :
    fp32.value (a ^^^ 0x80000000#32).toNat = .fin (!s) n e := by
  unfold FloatFmt.value FloatFmt.isNan at h ⊢
  simp only [mag_xor_sign, isNeg_xor_sign] at h ⊢
  split_ifs at h ⊢ <;> cases h <;> rfl

theorem ofNat_signed_not (s : Bool) (m : Nat) :
    BitVec.ofNat 32 (fp32.signed (!s) m) = BitVec.ofNat 32 (fp32.signed s m) ^^^ 0x80000000#32 := by
  have hs : fp32.signed true m = m + 0x80000000 := Nat.add_comm ..
  cases s
  · rw [Bool.not_false, signed_false, hs, ofNat_add_sign]
  · rw [Bool.not_true, signed_false, hs, ofNat_add_sign, xor_sign_xor_sign]

/-- A magnitude under a sign, as FSIN and TANH apply it. -/
theorem ofNat_turned_not (s : Bool) (m : Nat) :
    BitVec.ofNat 32 (if !s then (m + 0x80000000) % 2 ^ 32 else m) =
      BitVec.ofNat 32 (if s then (m + 0x80000000) % 2 ^ 32 else m) ^^^ 0x80000000#32 := by
  have ht : BitVec.ofNat 32 ((m + 0x80000000) % 2 ^ 32) = BitVec.ofNat 32 m ^^^ 0x80000000#32 := by
    rw [← ofNat_add_sign]
    exact BitVec.eq_of_toNat_eq (by rw [BitVec.toNat_ofNat, BitVec.toNat_ofNat, Nat.mod_mod])
  cases s
  · simp only [Bool.not_false, if_true, Bool.false_eq_true, if_false, ht]
  · simp only [Bool.not_true, if_true, Bool.false_eq_true, if_false, ht, xor_sign_xor_sign]

/-! ### The identities of R260 -/

/-- Truncation does not see the sign. -/
theorem roundFin_rz_not (f : FloatFmt) (draw : Nat) (s : Bool) (n : Nat) (e : ℤ) (sticky : Bool) :
    (roundFin f .rz false draw (!s) n e sticky).2 = (roundFin f .rz false draw s n e sticky).2 := by
  have hu (neg odd : Bool) (rem sh : Nat) : roundsUp .rz neg odd rem sh sticky draw = false := ite_self _
  have hk : keptSteps .rz draw (!s) n e sticky (stepExp f n e) = keptSteps .rz draw s n e sticky (stepExp f n e) := by
    simp only [keptSteps, hu]
  rw [roundFin_steps, roundFin_steps, hk]
  dsimp only
  split <;> rfl

theorem sfuRcp_not (s : Bool) (n : Nat) (e : ℤ) (pick : Nat) :
    oneEvent (sfuRcp (!s) n e pick) = ((oneEvent (sfuRcp s n e pick)).1 ^^^ 0x80000000#32, (oneEvent (sfuRcp s n e pick)).2) := by
  simp only [sfuRcp, roundFin_rz_not]
  split <;> simp only [oneEvent, pickNearest, ofNat_signed_not]

section Identities
variable {a : W32} {n : Nat} {e : ℤ} {s : Bool}

theorem sfuVal_rcp_xor_sign (h : fp32.value a.toNat = .fin s n e) :
    sfuVal .rcp (a ^^^ 0x80000000#32) = ((sfuVal .rcp a).1 ^^^ 0x80000000#32, (sfuVal .rcp a).2) := by
  rw [sfuVal, sfuVal, sfu_rcp_fin h, sfu_rcp_fin (value_xor_sign h), mag_xor_sign]
  split
  · simp only [oneEvent, ofNat_signed_not]
  · exact sfuRcp_not ..

/-- A zero returned as it stands. -/
theorem oneEvent_self (a : W32) : oneEvent (a.toNat, none) = (a, []) := by
  rw [oneEvent, BitVec.ofNat_toNat, BitVec.setWidth_eq]
  rfl

theorem sfuVal_sin_xor_sign (h : fp32.value a.toNat = .fin s n e) :
    sfuVal .sin (a ^^^ 0x80000000#32) = ((sfuVal .sin a).1 ^^^ 0x80000000#32, (sfuVal .sin a).2) := by
  rw [sfuVal, sfuVal, sfu_sin_fin h, sfu_sin_fin (value_xor_sign h), mag_xor_sign, isNeg_xor_sign]
  split
  · rw [oneEvent_self, oneEvent_self]
  · rw [oneEvent, ofNat_turned_not]
    rfl

theorem sfuVal_tanh_xor_sign (h : fp32.value a.toNat = .fin s n e) :
    sfuVal .tanh (a ^^^ 0x80000000#32) = ((sfuVal .tanh a).1 ^^^ 0x80000000#32, (sfuVal .tanh a).2) := by
  rw [sfuVal, sfuVal, sfu_tanh_fin h, sfu_tanh_fin (value_xor_sign h), mag_xor_sign, isNeg_xor_sign]
  split
  · rw [oneEvent_self, oneEvent_self]
  · split
    · simp only [oneEvent, ofNat_signed_not]
    · rw [oneEvent, ofNat_turned_not]
      rfl

theorem sfuVal_cos_xor_sign (h : fp32.value a.toNat = .fin s n e) : sfuVal .cos (a ^^^ 0x80000000#32) = sfuVal .cos a := by
  rw [sfuVal, sfuVal, sfu_cos_fin h, sfu_cos_fin (value_xor_sign h), mag_xor_sign]

end Identities

/-- Settles O6: by the formulas of the integers and, for the floating results, by the exact values over the rationals. -/
theorem divisionAndSpecialFunctions : Obligations.DivisionAndSpecialFunctions := by
  unfold Obligations.DivisionAndSpecialFunctions
  refine ⟨fun s i r x h hx => ⟨fun hn => ?_, fun e he => ?_⟩, fun rnd a b => fDiv_eq rnd _ _,
    fun a => ⟨fun h => fSqrt_nan (value_of_nan h), fun _ h => fSqrt_inf (value_of_inf h), fun _ _ => fSqrt_num⟩,
    fun _ _ _ => sfu_of_specialCase, fun _ _ _ hl hh => ⟨sfu_exp2_int hl hh, sfu_log2_pow hl hh⟩, fun _ _ _ h => ?_⟩
  · rw [exec_lateLoud_val h hx, withEvents_of_no_trap hn]
  · rw [exec_lateLoud_val h hx, withEvents_of_trap he]
  · obtain ⟨n, e, hv, -⟩ := fin_of_num h
    refine ⟨fun fn hf => ?_, sfuVal_cos_xor_sign hv⟩
    simp only [List.mem_cons, List.not_mem_nil, or_false] at hf
    obtain rfl | rfl | rfl := hf
    · exact sfuVal_rcp_xor_sign hv
    · exact sfuVal_sin_xor_sign hv
    · exact sfuVal_tanh_xor_sign hv

end Sys2Proof.Laws
end

section
/-! SUPPORT and the obligation: loads (R160, R161, R163 to R166, R211, R220). -/

namespace Sys2Proof.Laws

open Sys2Proof Sys2Proof.Machine Sys2Proof.Safety

section Loads
variable {s : State} {i : Instr} {q : Safety.Access} {x : Ex}

/-- The lanes of a load read, each with its outcome (R163, R166). -/
def loadReads (q : Safety.Access) (x : Ex) (s : State) : List (Nat × LaneOut) × State :=
  eachPass q.m.rc.toNat x.lanes (q.loadOne s x) s

/-- Whether a load has an acquire part: outside any transaction alone (R211, R220). -/
def loadAcquires (q : Safety.Access) (x : Ex) : Bool := q.m.ord == .acquire && x.lanes.any fun l => txMode x l == (false, false)

/-- Whether some lane has bytes that are read later. -/
def loadQueued (q : Safety.Access) (x : Ex) (s : State) : Bool :=
  (loadReads q x s).1.any fun e => match e.2 with | .pieces _ => true | _ => false

/-- What keeps a load whose lanes have read from being performed (R211, R218, R377, R436). -/
def loadStop (i : Instr) (q : Safety.Access) (x : Ex) (s : State) : Option State :=
  memStop x i (loadReads q x s).1 (fun l => (q.ea x l).toNat) s

/-- The state after a load's lanes have read and its acquire is made. -/
def loadAcquired (q : Safety.Access) (x : Ex) (s : State) : State :=
  let t := if loadAcquires q x then acquireAt (loadReads q x s).2 (coreOf s x.ref) (lvlOf q.m.scope) else (loadReads q x s).2
  { t with late := t.late.drop 1 }

/-- The end of a load whose bytes are all read. -/
def loadDone (q : Safety.Access) (x : Ex) (s : State) : State :=
  let t := loadAcquired q x s
  retire x q.ctl (sendLoads x q.sz q.data none (loadReads q x s).1 (x.now t)) t

/-- The end of a load of which bytes of a bound view are still to come (R150, R304). -/
def loadAwaitsView (q : Safety.Access) (x : Ex) (s : State) : State :=
  let t := loadAcquired q x s
  let all := ((loadReads q x s).1.map fun e => e.2.pieceList (pathOf s x q.m e.1) (q.ea x e.1).toNat e.1).flatten
  let u := addPend t (pendFor t x false none none q.sz (some q.data) all)
  retire x q.ctl (sendLoads x q.sz q.data (some t.nums.uid) (loadReads q x s).1 (x.now u)) u

/-- A load performed at its issue, unless something stops its lanes. -/
def loadNow (i : Instr) (q : Safety.Access) (x : Ex) (s : State) : State :=
  (loadStop i q x s).getD (if loadQueued q x s then loadAwaitsView q x s else loadDone q x s)

/-- A load left to the memory system (log 36). -/
def loadLater (q : Safety.Access) (x : Ex) (s : State) : State :=
  let acq := if loadAcquires q x then some (lvlOf q.m.scope) else none
  let t := addPend { s with late := s.late.drop 1 } (pendFor s x false none acq q.sz (some q.data) (q.pieces s x .load))
  retire x q.ctl (sendLoads x q.sz q.data (some s.nums.uid) (x.lanes.map fun l => (l, .stored)) (x.now t)) t

/-- What a load does once its lanes have passed their checks. -/
def loadOn (i : Instr) (q : Safety.Access) (x : Ex) (s : State) : State :=
  loadWork i q.ctl q.sz q.m q.data (fun l => (q.req s x .load l).acc) x s

theorem loadOn_eq : loadOn i q x s =
    let ps := q.pieces s x .load
    if meetsPend s x.ref ps then drainFirst s x.ref i
    else if !placesFor s (coreOf s x.ref) (requestsOf ps).length then waitEx x .places i s
    else if defers s x q.m ps then loadLater q x s
    else loadNow i q x s := by
  have stopped {o : Option State} {a : State} : (match o with | some t => t | none => a) = o.getD a := by cases o <;> rfl
  exact if_congr Iff.rfl rfl (if_congr Iff.rfl rfl (if_congr Iff.rfl rfl stopped))

theorem loadOn_of_meets (hm : meetsPend s x.ref (q.pieces s x .load) = true) : loadOn i q x s = drainFirst s x.ref i := by
  rw [loadOn_eq, if_pos hm]

section Apart
variable (hm : meetsPend s x.ref (q.pieces s x .load) = false)
include hm

theorem loadOn_of_no_places (hp : placesFor s (coreOf s x.ref) (requestsOf (q.pieces s x .load)).length = false) :
    loadOn i q x s = waitEx x .places i s := by
  simp only [loadOn_eq, hm, hp, Bool.not_false, Bool.false_eq_true, if_true, if_false]

section Placed
variable (hp : placesFor s (coreOf s x.ref) (requestsOf (q.pieces s x .load)).length = true)
include hp

theorem loadOn_of_defers (hd : defers s x q.m (q.pieces s x .load) = true) : loadOn i q x s = loadLater q x s := by
  simp only [loadOn_eq, hm, hp, hd, Bool.not_true, Bool.false_eq_true, if_true, if_false]

theorem loadOn_of_not_defers (hd : defers s x q.m (q.pieces s x .load) = false) : loadOn i q x s = loadNow i q x s := by
  simp only [loadOn_eq, hm, hp, hd, Bool.not_true, Bool.false_eq_true, if_false]

end Placed

end Apart

theorem loadNow_of_stop {t : State} (h : loadStop i q x s = some t) : loadNow i q x s = t := by
  rw [loadNow, h, Option.getD_some]

theorem loadNow_of_read (h : loadStop i q x s = none) (hn : loadQueued q x s = false) : loadNow i q x s = loadDone q x s := by
  simp only [loadNow, h, hn, Option.getD_none, Bool.false_eq_true, if_false]

theorem loadNow_of_queued (h : loadStop i q x s = none) (hn : loadQueued q x s = true) : loadNow i q x s = loadAwaitsView q x s := by
  simp only [loadNow, h, hn, Option.getD_none, if_true]

/-- A load issues into the checks of its lanes, then its work (R161). -/
theorem exec_load_eq (hq : loadOf i = some q) (h : runsAs s i x) :
    exec i s = .next ((q.checks s x .load).elim (loadOn i q x s) fun f => failLanes x f s) := by
  have failed {o : Option (Failed × AccessReq × Mask)} {a : State} {f : Failed × AccessReq × Mask → State} :
      (Host.Outcome.next (match o with | some f' => f f' | none => a) : Host.Outcome State Fault Refusal) = .next (o.elim a f) := by
    cases o <;> rfl
  cases i
  case ld => cases hq; exact (exec_runs h rfl rfl).trans failed
  case lds => cases hq; exact (exec_runs h rfl rfl).trans failed
  case ldc => cases hq; exact (exec_runs h rfl rfl).trans failed
  all_goals cases hq

theorem exec_load_of_fail {f : Failed × AccessReq × Mask} (hq : loadOf i = some q) (h : runsAs s i x)
    (hc : q.checks s x .load = some f) : exec i s = .next (failLanes x f s) := by
  rw [exec_load_eq hq h, hc, Option.elim_some]

theorem exec_load_of_pass (hq : loadOf i = some q) (h : runsAs s i x) (hc : q.checks s x .load = none) :
    exec i s = .next (loadOn i q x s) := by
  rw [exec_load_eq hq h, hc, Option.elim_none]

end Loads

/-- Settles O15: a load is its checks and then `loadOn`, whose branches are taken in their order. -/
theorem loads : Obligations.Loads := by
  unfold Obligations.Loads
  intro s i q x hq hx core ps r stop acq s1 s2 queued all
  refine ⟨fun f hf => exec_load_of_fail hq hx hf, fun hc => ?_⟩
  rw [exec_load_of_pass hq hx hc]
  refine ⟨fun hm => congrArg _ (loadOn_of_meets hm), fun hm hp => congrArg _ (loadOn_of_no_places hm hp),
    fun hm hp hd => congrArg _ (loadOn_of_defers hm hp hd), fun hm hp hd => ?_⟩
  rw [loadOn_of_not_defers hm hp hd]
  exact ⟨fun t h => congrArg _ (loadNow_of_stop h), fun h hn => congrArg _ (loadNow_of_read h hn),
    fun h hy => congrArg _ (loadNow_of_queued h hy)⟩

end Sys2Proof.Laws
end

section
/-! SUPPORT and the obligation: new values of integer atomic operations, and the update and the bytes of a barrier (R170, R188, R189). -/

namespace Sys2Proof.Laws

open Sys2Proof Sys2Proof.Machine

/-! ### Choices and wrapping steps at any width (R170) -/

section Words
variable {n : Nat} (a b : BitVec n)

theorem toInt_ite_slt_eq_min : (if b.slt a then b else a).toInt = min a.toInt b.toInt := by
  simp only [apply_ite BitVec.toInt, BitVec.slt_iff_toInt_lt, min_comm a.toInt, min_def_lt]

theorem toInt_ite_slt_eq_max : (if a.slt b then b else a).toInt = max a.toInt b.toInt := by
  simp only [apply_ite BitVec.toInt, BitVec.slt_iff_toInt_lt, max_def_lt]

theorem toNat_ite_ult_eq_min : (if b.ult a then b else a).toNat = min a.toNat b.toNat := by
  simp only [apply_ite BitVec.toNat, BitVec.ult_iff_toNat_lt, min_comm a.toNat, min_def_lt]

theorem toNat_ite_ult_eq_max : (if a.ult b then b else a).toNat = max a.toNat b.toNat := by
  simp only [apply_ite BitVec.toNat, BitVec.ult_iff_toNat_lt, max_def_lt]

variable {a} in
/-- A word that is not zero has a lowest bit. -/
theorem toNat_one_of_ne_zero (h : a.toNat ≠ 0) : (1#n).toNat = 1 :=
  BitVec.toNat_one (Nat.pos_of_ne_zero fun h0 => by subst h0; have := a.isLt; omega)

/-- Below the bound the increment does not pass the word's end. -/
theorem toNat_wrapInc : (if a.ult b then a + 1#n else 0#n).toNat = if b.toNat ≤ a.toNat then 0 else a.toNat + 1 := by
  simp only [BitVec.ult_iff_toNat_lt]
  split
  · next h =>
    have h1 : (1#n).toNat = 1 := toNat_one_of_ne_zero (a := b) (by omega)
    have := b.isLt
    rw [if_neg (by omega), BitVec.toNat_add_of_lt (by omega), h1]
  · next h => rw [if_pos (by omega), BitVec.toNat_zero]

/-- Above zero the decrement does not pass the word's start. -/
theorem toNat_wrapDec : (if a = 0#n ∨ b.ult a then b else a - 1#n).toNat =
    if a.toNat = 0 ∨ b.toNat < a.toNat then b.toNat else a.toNat - 1 := by
  simp only [BitVec.ult_iff_toNat_lt, ← BitVec.toNat_inj, BitVec.toNat_zero]
  split
  · rfl
  · next h =>
    have h1 : (1#n).toNat = 1 := toNat_one_of_ne_zero (a := a) (by omega)
    rw [BitVec.toNat_sub_of_le (by rw [BitVec.le_def]; omega), h1]

end Words

/-! ### Barriers -/

section Barriers
variable {b : Bar} {arr : Nat} {n : Int} {err : Bool}

theorem bar_update_of_fits (ha : arr ≤ b.remain) (hl : -(2 ^ 47 : Int) ≤ b.balance + n) (hh : b.balance + n < 2 ^ 47) :
    b.update arr n false =
      if b.remain - arr = 0 ∧ b.balance + n = 0 then { b with phase := !b.phase, remain := b.expected, balance := b.balance + n }
      else { b with remain := b.remain - arr, balance := b.balance + n } := by
  have hr : decide (b.remain < arr) = false := decide_eq_false (Nat.not_lt.mpr ha)
  have ho : (decide (b.balance + n < -(2 ^ 47 : Int)) || decide ((2 ^ 47 : Int) - 1 < b.balance + n)) = false := by
    rw [decide_eq_false (by omega), decide_eq_false (by omega), Bool.false_or]
  simp only [Bar.update, hr, ho, Bool.or_false, Bool.false_eq_true, if_false]

theorem bar_update_error : (b.update arr n err).error = (b.error || err || decide (b.remain < arr) ||
    (decide (b.balance + n < -(2 ^ 47 : Int)) || decide ((2 ^ 47 : Int) - 1 < b.balance + n))) := by
  cases err <;> simp only [Bar.update, apply_ite Bar.error, ite_self, Bool.false_eq_true, if_true, if_false, Bool.or_false, Bool.or_true]

theorem bar_toNat_eq : b.toNat = b.expected * 2 ^ 112 + b.remain * 2 ^ 96 + (BitVec.ofInt 48 b.balance).toNat * 2 ^ 48 +
    b.reserved * 4 + 2 * b.error.toNat + b.phase.toNat := by
  rw [Bar.toNat]
  cases b.error <;> cases b.phase <;> rfl

theorem toNat_beq_one (c : Bool) : (c.toNat == 1) = c := by cases c <;> rfl

/-- The fields of a barrier lie side by side in its number (R188). -/
theorem bar_ofNat_toNat (he : b.expected < 2 ^ 16) (hr : b.remain < 2 ^ 16) (hl : -(2 ^ 47 : Int) ≤ b.balance)
    (hh : b.balance < 2 ^ 47) (hv : b.reserved < 2 ^ 46) : Bar.ofNat b.toNat = b := by
  have hN := bar_toNat_eq (b := b)
  have hw := (BitVec.ofInt 48 b.balance).isLt
  have herr := b.error.toNat_le
  have hph := b.phase.toNat_le
  have hE : b.toNat / 2 ^ 112 % 2 ^ 16 = b.expected := by omega
  have hR : b.toNat / 2 ^ 96 % 2 ^ 16 = b.remain := by omega
  have hB : BitVec.ofNat 48 (b.toNat / 2 ^ 48) = BitVec.ofInt 48 b.balance :=
    BitVec.eq_of_toNat_eq (by rw [BitVec.toNat_ofNat]; omega)
  have hV : b.toNat / 4 % 2 ^ 46 = b.reserved := by omega
  have hX : b.toNat / 2 % 2 = b.error.toNat := by omega
  have hP : b.toNat % 2 = b.phase.toNat := by omega
  rw [Bar.ofNat, hE, hR, hB, hV, hX, hP, toNat_beq_one, toNat_beq_one, BitVec.toInt_ofInt_eq_self (by decide) hl hh]

end Barriers

/-- Settles O22: the operations are choices and steps of words at either width; a barrier's update is one choice over its sums. -/
theorem updateRules : Obligations.UpdateRules := by
  unfold Obligations.UpdateRules
  refine ⟨fun x v y w => ⟨?_, ?_, toInt_ite_slt_eq_min x v, toInt_ite_slt_eq_min y w, toInt_ite_slt_eq_max x v, toInt_ite_slt_eq_max y w,
      toNat_ite_ult_eq_min x v, toNat_ite_ult_eq_min y w, toNat_ite_ult_eq_max x v, toNat_ite_ult_eq_max y w, rfl, rfl, rfl, rfl, rfl, rfl, rfl, rfl,
      toNat_wrapInc x v, toNat_wrapInc y w, toNat_wrapDec x v, toNat_wrapDec y w⟩,
    fun b arr n ha hl hh => ⟨fun hr hb => ?_, fun hne => ?_⟩, fun b arr n h => ?_, fun b arr n => ?_,
    fun b => bar_ofNat_toNat⟩
  · rw [Int.natCast_add, wrap32_add, wrap32_toNat, wrap32_toNat]
    rfl
  · rw [Int.natCast_add, wrap64_add, wrap64_toNat, wrap64_toNat]
    rfl
  · rw [bar_update_of_fits ha hl hh, if_pos ⟨by omega, hb⟩, hb]
  · rw [bar_update_of_fits ha hl hh, if_neg (by omega)]
  · rw [bar_update_error, decide_eq_true h, Bool.or_true, Bool.true_or]
  · rw [bar_update_error, Bool.or_true, Bool.true_or, Bool.true_or]

end Sys2Proof.Laws
end

section
/-! SUPPORT and the obligation: the acceptance of commands (R180 to R182, R185, R199 to R205, R312, R317). -/

namespace Sys2Proof.Laws

-- One theorem after another, as in the tests: the check's memory holds few more stacks.
set_option Elab.async false

open Sys2Proof Sys2Proof.Machine Sys2Proof.Safety

/-! ### A read at the L2, and so of a block or a descriptor, leaves the commands as they are -/

theorem foldl_cmds {α : Type} {f : State → α → State} (hf : ∀ s a, (f s a).cmds = s.cmds) (l : List α) (s : State) :
    (l.foldl f s).cmds = s.cmds :=
  List.foldlRecOn l f (motive := fun t => t.cmds = s.cmds) rfl fun t ht a _ => (hf t a).trans ht

section Reads
variable (s : State)

theorem roomIn_cmds (d sl : Nat) : (roomIn s d sl).cmds = s.cmds := by
  unfold roomIn
  dsimp only
  repeat' split
  all_goals rfl

theorem l2Room_cmds (d n : Nat) : (l2Room s d n).cmds = s.cmds := by
  unfold l2Room
  split
  · rfl
  · exact roomIn_cmds s d _

theorem l2Touch_cmds (pa : Nat) (c : Option Nat) (rc : Nat) : (l2Touch s pa c rc).cmds = s.cmds := by
  unfold l2Touch
  dsimp only
  split
  · exact (l2Room_cmds ..).trans (l2Room_cmds ..)
  · split
    · rfl
    · exact l2Room_cmds ..

theorem l2Due_cmds (n : Nat) : (l2Due s n).cmds = s.cmds := by
  unfold l2Due
  repeat' split
  all_goals rfl

theorem l2Load_cmds (pa n : Nat) (c : Option Nat) : (l2Load s pa n c).2.cmds = s.cmds :=
  (foldl_cmds (fun s l => l2Touch_cmds s (128 * l) c 0) _ _).trans (foldl_cmds l2Due_cmds _ _)

end Reads

section Blocks
variable {s : State} {ctx va n : Nat}

theorem pageRead_cmds {r : List Byte × State} (h : pageRead s ctx va n = .ok r) : r.2.cmds = s.cmds := by
  unfold pageRead at h
  split at h
  · cases h
  · split at h
    · cases h
    · cases h
      exact l2Load_cmds ..

theorem blockRead_cmds {r : List Byte × State} (h : blockRead s ctx va n = .ok r) : r.2.cmds = s.cmds := by
  unfold blockRead at h
  dsimp only at h
  split at h
  · cases h
  · next hfirst =>
    split at h
    · cases h
      exact pageRead_cmds hfirst
    · split at h
      · cases h
      · next hsecond =>
        cases h
        exact (pageRead_cmds hsecond).trans (pageRead_cmds hfirst)

theorem descTries_cmds {tries : Nat} {r : Nat × State} (h : descTries ctx va n tries s = .ok r) : r.2.cmds = s.cmds := by
  induction tries generalizing s with
  | zero => cases h
  | succ k ih =>
    unfold descTries at h
    split at h
    · cases h
    · next hread =>
      dsimp only at h
      split at h
      · cases h
        exact blockRead_cmds hread
      · exact (ih h).trans (blockRead_cmds hread)

theorem bindDesc_cmds {core : Nat} {r : Nat × State} (h : bindDesc s ctx core va n = .ok r) : r.2.cmds = s.cmds := by
  unfold bindDesc descRead at h
  dsimp only at h
  split at h
  · split at h
    · cases h
      rfl
    · split at h
      · next hread =>
        cases h
        exact (modCtx_cmds ..).trans (descTries_cmds hread)
      · cases h
  · split at h
    · next hread =>
      cases h
      exact (modCtx_cmds ..).trans (descTries_cmds hread)
    · cases h

end Blocks

/-! ### A command instruction makes its request, then it is accepted or not -/

section Commands
variable {s t : State} {x : Ex} {i : Instr} {q : CmdReq} {p : Shape} {c : Ctl}

/-- `PDEC` binds its descriptor first, and makes its request in the state that leaves (R317). -/
theorem exec_pdec {a v : Spec} {cmd : CmdByte} (h : commandOf s x (.pdec c a v cmd) = some (q, t)) (hx : runsAs s (.pdec c a v cmd) x) :
    t.cmds = s.cmds ∧ exec (.pdec c a v cmd) s = .next (acceptCmd (.pdec c a v cmd) c q x t) := by
  rw [exec_runs hx rfl rfl]
  unfold commandOf at h
  dsimp only at h ⊢
  split at h
  · next hfar =>
    cases h
    rw [if_pos hfar]
    exact ⟨rfl, rfl⟩
  · next hnear =>
    rw [if_neg hnear]
    cases hbind : bindDesc s (ctxOf s x.ref) (coreOf s x.ref) (x.w a x.low).toNat 128 with
    | error e =>
      rw [hbind] at h
      cases h
      exact ⟨rfl, rfl⟩
    | ok r =>
      rw [hbind] at h
      cases h
      exact ⟨bindDesc_cmds hbind, rfl⟩

/-- The other command instructions make it in the state in which they issue. -/
theorem exec_command (h : commandOf s x i = some (q, t)) (hs : shape s i = some p) (hx : runsAs s i x) :
    t.cmds = s.cmds ∧ exec i s = .next (acceptCmd i p.ctl q x t) := by
  have event {P : Prop} (h : none = some (q, t)) : P := nomatch h
  cases i
  case pdec => cases hs; exact exec_pdec h hx
  case astream | gather | scatter | cpy | cpy2g | cpyt | cpyr | fred | chain =>
    cases hs
    cases h
    exact ⟨rfl, (exec_runs hx rfl rfl).trans rfl⟩
  all_goals exact event h

/-- The command that an accepted request makes (R180, R182, R199). -/
def cmdMade (q : CmdReq) (x : Ex) (s : State) : Cmd :=
  let by_ := issuerOf s x (assignToken x.body q.cb.tv q.cb.tok.toNat).2
  { kind := q.kind, by_, place := acceptCmd.lowestFree (placesOf s by_.core), sums := none
    zone := match zoneOf s by_.grid with | some z => z.chain | none => []
    bar := q.bar, bytes := q.bytes, pos := 0, stopped := none, started := false, bad := none, probe := s.clock + 65536 }

/-- The state with that command under a fresh number. -/
def cmdAdded (q : CmdReq) (x : Ex) (s : State) : State :=
  { s with nums := { s.nums with uid := s.nums.uid + 1 }, cmds := tset s.cmds s.nums.uid (cmdMade q x s) }

theorem acceptCmd_of_check {f : EngFail} (h : cmdCheck s x q = some f) : acceptCmd i c q x s = failEx x f x.exec s := by
  simp only [acceptCmd, h]

theorem acceptCmd_of_wait {o : Awaited} (hc : cmdCheck s x q = none) (h : cmdWaits s x q = some o) :
    acceptCmd i c q x s = waitEx x o i s := by
  simp only [acceptCmd, hc, h]

/-- What acceptance does beside the command itself, by its kind: a reduction's command joins its group (R205), a stream's produces into its queue
(R195), and a copy of no bytes is over (R199). -/
theorem acceptCmd_of_free (hc : cmdCheck s x q = none) (hw : cmdWaits s x q = none) :
    let body := (assignToken x.body q.cb.tv q.cb.tok.toNat).1
    let n := s.nums.uid
    acceptCmd i c q x s = match q.kind with
      | .cpy _ _ 0 => finishCmd (retireEnd x c body (cmdAdded q x s)) n (cmdMade q x s) 0
      | .fred _ _ _ _ _ _ _ => retireEnd x c body (fredJoin (cmdAdded q x s) n (cmdMade q x s))
      | .astream oq _ _ _ _ _ => retireEnd x c body (match (cmdMade q x s).by_.team with
        | some k => modTeam (cmdAdded q x s) k fun tm =>
          { tm with queues := lset tm.queues oq { tm.queues.getD oq { entries := [], producer := none } with producer := some n } }
        | none => cmdAdded q x s)
      | _ => retireEnd x c body (cmdAdded q x s) := by
  intro body n
  obtain ⟨kind, cb, bar, bytes, ranges, spans, aligns, pads, pad, extra, range, remote, queue⟩ := q
  simp only [acceptCmd, hc, hw]
  cases kind
  case cpy d a len => cases len <;> rfl
  all_goals rfl

end Commands

/-- Settles O26: a command instruction is the acceptance of its request, whose three outcomes are taken in their order. -/
theorem commandsAreAccepted : Obligations.CommandsAreAccepted := by
  unfold Obligations.CommandsAreAccepted
  intro s x i q t p hq hs hx
  obtain ⟨hcmds, hexec⟩ := exec_command hq hs hx
  rw [hexec]
  refine ⟨hcmds, fun f hf => congrArg _ (acceptCmd_of_check hf), fun o hc hw => congrArg _ (acceptCmd_of_wait hc hw),
    fun hc hw => ⟨cmdMade q x t, rfl, rfl, rfl, rfl, rfl, rfl, congrArg _ (acceptCmd_of_free hc hw)⟩⟩

end Sys2Proof.Laws
end

section
/-! SUPPORT and the obligation: `CLOSE` (R186). -/

namespace Sys2Proof.Laws

-- One theorem after another, as in the tests: the check's memory holds few more stacks.
set_option Elab.async false

open Sys2Proof Sys2Proof.Machine Sys2Proof.Safety

theorem token_full_iff (k : Token) : k.full = true ↔ k.openAll ≠ 0 ∧ 15 ≤ k.closed.length := by
  simp [Token.full]

theorem token_close_of_empty {k : Token} (h : k.openAll = 0) : k.close = k := if_pos h

/-- A nonempty open batch closed leaves an empty one; it is a closed batch while something of it is outstanding. -/
theorem token_close_of_nonempty {k : Token} (h : k.openAll ≠ 0) : k.close = { k with
    openId := k.openId + 1, openAll := 0, openLeft := 0
    closed := if k.openLeft = 0 then k.closed else k.closed ++ [(k.openId, k.openLeft)] } :=
  if_neg h

/-- `CLOSE` looks at its token: a full one makes it wait, another is closed. -/
theorem exec_close {s : State} {x : Ex} {c : Ctl} {t : Spec} (h : runsAs s (.close c t) x) : exec (.close c t) s = .next (
    if (tokenAt x.body t.toNat).full then waitEx x (.tokenRoom t.toNat) (.close c t) s
    else retire x c (x.body.setToks (lset x.body.toks t.toNat (tokenAt x.body t.toNat).close)) s) :=
  exec_runs h rfl rfl

/-- Settles O28: `CLOSE` waits for a full token and closes any other; what closing does is read off the token's two cases. -/
theorem closingTokens : Obligations.ClosingTokens := by
  unfold Obligations.ClosingTokens
  intro s x c t k
  refine ⟨fun h ho hn => ?_, fun h hroom => ?_, fun k => token_close_of_empty, fun k ho hl => ?_, fun k ho hl => ?_, fun f hf => ?_⟩
  · rw [exec_close h, if_pos ((token_full_iff k).mpr ⟨ho, hn⟩)]
  · have hnot : ¬k.full = true := by
      rw [token_full_iff]
      omega
    rw [exec_close h, if_neg hnot]
  · rw [token_close_of_nonempty ho, if_neg hl]
    exact ⟨rfl, rfl⟩
  · rw [token_close_of_nonempty ho, if_pos hl]
    exact ⟨rfl, rfl⟩
  · cases hf
    exact ⟨rfl, rfl, rfl⟩

end Sys2Proof.Laws
end

section
/-! SUPPORT and the obligation: the work of commands and sequencers (R183, R184, R198, R201, R202, R205, R267, R282, R288, R312, R313). -/

namespace Sys2Proof.Laws

-- One theorem after another, as in the tests: the check's memory holds few more stacks.
set_option Elab.async false

open Sys2Proof Sys2Proof.Machine Sys2Proof.Safety

/-! ### A command's work -/

section Work
variable {s : State} {cmd limit n : Nat} {c : Cmd} {e : EngFail}

/-- The state in which a command has got as far as its work goes. -/
def workDone (s : State) (cmd : Nat) (c : Cmd) (limit : Nat) : State :=
  let work := runCmd s cmd c limit
  { work.s with cmds := tset work.s.cmds cmd (c.reached work) }

theorem finishCmd_of_fail (h : (runCmd s cmd c limit).fail = some e) :
    finishCmd s cmd c limit = if e.held then workDone s cmd c limit else s := by
  simp only [finishCmd, h]
  rfl

theorem finishCmd_of_left (h : (runCmd s cmd c limit).fail = none) (hl : (runCmd s cmd c limit).pos < (runCmd s cmd c limit).total ∨
    writesWait (workDone s cmd c limit) cmd c = true) : finishCmd s cmd c limit = workDone s cmd c limit := by
  simp only [finishCmd, h]
  exact if_pos hl

theorem finishCmd_of_over (h : (runCmd s cmd c limit).fail = none) (hp : (runCmd s cmd c limit).total ≤ (runCmd s cmd c limit).pos)
    (hw : writesWait (workDone s cmd c limit) cmd c = false) :
    finishCmd s cmd c limit = completeCmd (workDone s cmd c limit) cmd false := by
  simp only [finishCmd, h]
  exact if_neg (not_or.mpr ⟨Nat.not_lt.mpr hp, Bool.eq_false_iff.mp hw⟩)

/-- The position of the piece that stands so many pieces after a command's own (R146). -/
def posAhead (s : State) (c : Cmd) (n : Nat) : Nat := (List.range n).foldl (fun p _ => c.pieceEnd s p) c.pos

section Ahead
variable {piece : PieceFn} {once : Bool} (hp : cmdPieces s cmd c = some (piece, once))
include hp

theorem workAhead_of_not (h : c.total ≤ posAhead s c n ∨ c.ahead.any (fun a => a.1 == posAhead s c n) = true ∨
    (piece s (posAhead s c n) none).fail.isSome = true) : workAhead s cmd c n = s := by
  simp only [workAhead, hp]
  split
  · rfl
  · next hdue => exact if_pos ((or_assoc.mpr h).resolve_left hdue)

theorem workAhead_of_due (ht : posAhead s c n < c.total) (ha : c.ahead.any (fun a => a.1 == posAhead s c n) = false)
    (hf : (piece s (posAhead s c n) none).fail = none) : workAhead s cmd c n =
      let r := piece s (posAhead s c n) none
      { (if once then countReads s r.s 1 0 else r.s) with
        cmds := tset r.s.cmds cmd { c with ahead := c.ahead ++ [(posAhead s c n, r.pos)] } } := by
  have hdue : ¬(c.total ≤ posAhead s c n ∨ c.ahead.any (fun a => a.1 == posAhead s c n) = true) :=
    not_or.mpr ⟨Nat.not_le.mpr ht, Bool.eq_false_iff.mp ha⟩
  have hmeets : ¬(piece s (posAhead s c n) none).fail.isSome = true := by simp [hf]
  simp only [workAhead, hp]
  exact (if_neg hdue).trans (if_neg hmeets)

end Ahead

/-! ### The events of a command that is not stopped -/

section Running
variable (hc : tget s.cmds cmd = some c) (hs : c.stopped = none)
include hc hs

theorem exec_commandComplete (hp : c.plain = true) (hd : c.pushed = true) : exec (.commandComplete ⟨cmd, limit, n⟩) s =
    .next (if n = 0 then finishCmd s cmd c limit else workAhead s cmd c n) := by
  have hready : ¬(c.stopped.isSome || !c.plain || !c.pushed) = true := by simp [hs, hp, hd]
  show execCommandComplete ⟨cmd, limit, n⟩ s = _
  simp only [execCommandComplete, hc, if_neg hready]

theorem exec_decodeJobComplete (hr : c.runningJob = true) :
    exec (.decodeJobComplete ⟨cmd, limit, n⟩) s = .next (finishCmd s cmd c limit) := by
  have hready : (c.runningJob && c.stopped.isNone) = true := by simp [hs, hr]
  show execDecodeJobComplete ⟨cmd, limit, n⟩ s = _
  simp only [execDecodeJobComplete, hc, if_pos hready]

theorem exec_engineFault_of_entry (he : streamEntry s c = some (.error e)) : exec (.engineFault cmd) s = .next (stopCmd s cmd c e) := by
  show execEngineFault cmd s = _
  simp [execEngineFault, hc, hs, he]

theorem exec_engineFault_of_piece (he : streamEntry s c = none) (hf : (runCmd s cmd c 0).fail = some e) (hh : e.held = false) :
    exec (.engineFault cmd) s = .next (stopCmd (runCmd s cmd c 0).s cmd (c.reached (runCmd s cmd c 0)) e) := by
  show execEngineFault cmd s = _
  simp [execEngineFault, hc, hs, he, hf, hh]

/-- A stream's next entry is pushed with its mark, and with the last one the stream gives up its queue (R195, R198). -/
theorem exec_astreamPush {q : Nat} {a : Addr} {b x : W32} {n0 n1 t : Nat} {tm : Team} {bs : List Byte} {bad : Bool} {s1 : State}
    (hk : c.kind = .astream q a b x n0 n1) (ht : c.by_.team = some t) (htm : tget s.teams t = some tm) (hr : tm.place = .resident)
    (hl : (tm.queues.getD q { entries := [], producer := none }).entries.length < queueCap)
    (he : streamEntry s c = some (.ok (bs, bad, s1))) : exec (.astreamPush cmd) s = .next
      (let oq := tm.queues.getD q { entries := [], producer := none }
       let s2 := modTeam s1 t fun tm => { tm with queues := (lset tm.queues q
           { oq.push bs bad with producer := if n0 * n1 ≤ c.pos + 1 then none else some cmd }) }
       { s2 with cmds := tset s2.cmds cmd { c with pos := c.pos + 1, probe := s.clock + 65536 } }) := by
  show execAstreamPush cmd s = _
  simp only [execAstreamPush, hc, hk, ht, htm, hs, if_pos (And.intro hr hl), he, decide_eq_true_eq]

end Running

end Work

/-! ### Reduction groups -/

section Groups
variable {s s1 : State} {f : FredGroup} {ps : List (Nat × Cmd × List (W32 × Bool))} {ctx grid group : Nat}

/-- The group that closes is one of the context, grid and number asked for, with all its parts, which could be read (R205). -/
theorem fullGroup_spec (h : fullGroup s ctx grid group = some (f, ps, s1)) :
    f ∈ s.freds ∧ f.parts ≤ f.cmds.length ∧ fredParts s f.cmds = some (ps, s1) := by
  obtain ⟨g, hg, hgive⟩ := List.exists_of_findSome?_eq_some h
  split at hgive
  · next hthis =>
    obtain ⟨r, hr, heq⟩ := Option.map_eq_some_iff.mp hgive
    cases heq
    simp only [Bool.and_eq_true, decide_eq_true_eq] at hthis
    exact ⟨hg, hthis.2, hr⟩
  · cases hgive

theorem exec_fredGroupClose (h : fullGroup s ctx grid group = some (f, ps, s1)) : exec (.fredGroupClose ctx grid group) s =
    .next (ps.foldl (fredGive f (fredResults f (ps.map fun p => p.2.2))) { s1 with freds := s1.freds.filter fun x => !(x == f) }) := by
  show execFredGroupClose ctx grid group s = _
  simp only [execFredGroupClose, h]

end Groups

/-! ### Sequencers -/

section Sequencers
variable {s : State} {q : Nat} {r : Run}

/-- The record of a run that stops at its next step (R288). -/
def runRecord (s : State) (q : Nat) (r : Run) (e : Cause × Nat) : FRec :=
  { FRec.blank with
    cause := e.1, addr := BitVec.ofNat 64 e.2, pc := r.by_.pc, info := BitVec.ofNat 64 r.next
    team := teamIndex s r.by_.team, subject := identity 2 (q / 4) (q % 4) 0x3FF 0, held := true, absent := r.absent
    detail := match frameXlate s r.by_.team e.2 .eread with | some f => if f.1 = e.1 then f.2 else 0 | none => 0
    who := .run r.by_.team (relQuarter s r.by_.team q) }

/-- A run stopped behind that record. -/
def runStopped (s : State) (q : Nat) (r : Run) (e : Cause × Nat) : State :=
  let t := (takeAsync s r.by_.grid (runRecord s q r e)).2
  setQuarter t q { quarterAt t q with run := some { r with stopped := true } }

section Step
variable (hr : (quarterAt s q).run = some r) (hs : r.stopped = false) (hh : runHere s r = true)
include hr hs hh

theorem exec_sequencerStep : exec (.sequencerStep q) s = .next (
    if runSkips r.mask r.next then advanceRun s q r
    else if runBusy s r then s
    else
      let met := accParity s q r.m
      let s1 := metParity s met
      match (if met.any fun p => !p.reread then .error (.poison, 0) else runStep s1 q r) with
      | .ok (acc, es) => advanceRun (noteRun (putAcc s1 r.by_.team q r.m acc) q r es) q r
      | .error e => runStopped s1 q r e) := by
  have hruns : ¬(r.stopped || !runHere s r) = true := by simp [hs, hh]
  show execSequencerStep q s = _
  simp only [execSequencerStep, hr, if_neg hruns]
  rfl

theorem exec_sequencerStep_of_skip (hk : runSkips r.mask r.next = true) : exec (.sequencerStep q) s = .next (advanceRun s q r) := by
  rw [exec_sequencerStep hr hs hh, if_pos hk]

section Kept
variable (hk : runSkips r.mask r.next = false)
include hk

theorem exec_sequencerStep_of_busy (hb : runBusy s r = true) : exec (.sequencerStep q) s = .next s := by
  rw [exec_sequencerStep hr hs hh, if_neg (Bool.eq_false_iff.mp hk), if_pos hb]

section Ready
variable (hb : runBusy s r = false)
include hb

theorem exec_sequencerStep_of_parity (hp : (accParity s q r.m).any (!·.reread) = true) :
    exec (.sequencerStep q) s = .next (runStopped (metParity s (accParity s q r.m)) q r (.poison, 0)) := by
  simp only [exec_sequencerStep hr hs hh, hk, hb, hp, Bool.false_eq_true, if_true, if_false]

variable (hp : (accParity s q r.m).any (!·.reread) = false)
include hp

theorem exec_sequencerStep_of_error {e : Cause × Nat} (he : runStep (metParity s (accParity s q r.m)) q r = .error e) :
    exec (.sequencerStep q) s = .next (runStopped (metParity s (accParity s q r.m)) q r e) := by
  simp only [exec_sequencerStep hr hs hh, hk, hb, hp, he, Bool.false_eq_true, if_false]

theorem exec_sequencerStep_of_ok {acc : Acc} {es : List Arith} (he : runStep (metParity s (accParity s q r.m)) q r = .ok (acc, es)) :
    exec (.sequencerStep q) s =
      .next (advanceRun (noteRun (putAcc (metParity s (accParity s q r.m)) r.by_.team q r.m acc) q r es) q r) := by
  simp only [exec_sequencerStep hr hs hh, hk, hb, hp, he, Bool.false_eq_true, if_false]

end Ready
end Kept
end Step

/-- A step of tiles whose frames read well and serve one another is the matrix slice's step (R282). -/
theorem runStep_of_tiles {fa fb : Machine.Frm} {rest : List Machine.Frm} (hc : r.conv = none)
    (hf : framesIn s r.by_.team [runVa r.a r.inca r.next, runVa r.b r.incb r.next] [] = .ok (fa :: fb :: rest)) (hd : denseOk fa fb = true)
    (ht : typeClash (accOf s r.by_.team q r.m) fa.fmt = false) :
    runStep s q r = .ok (stepAcc r.sat fa.asA fb (accOf s r.by_.team q r.m)) := by
  simp only [runStep, hc, hf, hd, ht, Bool.not_true, Bool.false_eq_true, if_false]

end Sequencers

/-! ### Decode jobs, and waits for an accumulator or a sequencer -/

section Releases
variable {s : State} {c : Cmd} {n uid lane m : Nat} {w : Waiting} {k : Crew}

theorem exec_decodeJobStart (h : (s.cmds.filter fun e => e.2.runningJob).length < 16) (hn : nextJob s = some (n, c)) :
    exec .decodeJobStart s = .next { s with cmds := tset s.cmds n { c with started := true } } := by
  show execDecodeJobStart s = _
  simp only [execDecodeJobStart, if_pos h, hn]

variable (hw : waitingAt s (.crew uid lane) = some w) (hk : tget s.crews uid = some k)
include hw hk

theorem exec_accumulatorRelease_of_accumulator (ho : w.obj = .accumulator m)
    (hf : (accOf s (teamOf s (.crew uid lane)) k.quarterId m).inflight = false) :
    exec (.accumulatorRelease (.crew uid lane)) s = .next (clearWait s (.crew uid lane)) := by
  show execAccumulatorRelease (.crew uid lane) s = _
  simp only [execAccumulatorRelease, hw, hk, ho, hf, Bool.false_eq_true, if_false]

theorem exec_accumulatorRelease_of_sequencer (ho : w.obj = .sequencer) (hf : (quarterAt s k.quarterId).run = none) :
    exec (.accumulatorRelease (.crew uid lane)) s = .next (clearWait s (.crew uid lane)) := by
  show execAccumulatorRelease (.crew uid lane) s = _
  simp only [execAccumulatorRelease, hw, hk, ho, hf, Option.isSome_none, Bool.false_eq_true, if_false]

end Releases

/-- Settles O52: each clause on an event is one of its branches above. -/
theorem commandsAndSequencersRun : Obligations.CommandsAndSequencersRun := by
  unfold Obligations.CommandsAndSequencersRun
  intro s cmd q limit c
  refine ⟨fun h => ⟨finishCmd_of_over h, finishCmd_of_left h⟩, fun e => finishCmd_of_fail, fun hc hs => ⟨fun hp hd => ?_,
      fun n piece once hp hd hn hpiece => ⟨fun h => ?_, fun ht ha hf => ?_⟩, fun n => exec_decodeJobComplete hc hs,
      fun e => exec_engineFault_of_entry hc hs, fun e => exec_engineFault_of_piece hc hs,
      fun n a b x n0 n1 t tm bs bad s1 => exec_astreamPush hc hs⟩,
    fun f ps s1 h => ?_, fun r hr hs hh => ⟨exec_sequencerStep_of_skip hr hs hh, exec_sequencerStep_of_busy hr hs hh, fun hk hb => ?_⟩,
    fun r fa fb rest => runStep_of_tiles, fun n => exec_decodeJobStart,
    fun uid lane w k hw hk => ⟨fun m => exec_accumulatorRelease_of_accumulator hw hk, exec_accumulatorRelease_of_sequencer hw hk⟩⟩
  · rw [exec_commandComplete hc hs hp hd, if_pos rfl]
  · rw [exec_commandComplete hc hs hp hd, if_neg hn, workAhead_of_not hpiece h]
  · rw [exec_commandComplete hc hs hp hd, if_neg hn, workAhead_of_due hpiece ht ha hf]
    rfl
  · obtain ⟨hin, hall, hread⟩ := fullGroup_spec h
    exact ⟨hin, hall, hread, exec_fredGroupClose h⟩
  · intro met s1 stops
    have hstops (e : Cause × Nat) (h : exec (.sequencerStep q) s = .next (runStopped s1 q r e)) : stops e := ⟨_, _, _, h, rfl⟩
    exact ⟨fun hp => hstops _ (exec_sequencerStep_of_parity hr hs hh hk hb hp), fun hp =>
      ⟨fun e he => hstops e (exec_sequencerStep_of_error hr hs hh hk hb hp he), fun acc es => exec_sequencerStep_of_ok hr hs hh hk hb hp⟩⟩

end Sys2Proof.Laws
end

section
/-! SUPPORT and the obligation: the abort count, the back-off and the status word of an abort (R218, R219, R225). -/

namespace Sys2Proof.Laws

-- One theorem after another, as in the tests: the check's memory holds few more stacks.
set_option Elab.async false

open Sys2Proof Sys2Proof.Machine

/-! ### The back-off (R219) -/

theorem backoff_of_le {k : Nat} (h : k ≤ 7) : backoff k = 64 * 2 ^ (k - 1) := by
  rw [backoff, Nat.min_eq_left (by omega)]

theorem backoff_of_ge {k : Nat} (h : 7 ≤ k) : backoff k = 4096 := by
  rw [backoff, Nat.min_eq_right (by omega)]
  rfl

/-! ### The status word of a thread outside a transaction (R225) -/

/-- Outside a transaction the word is CODE, ABORTS and CAUSE over four flags, the lowest of them clear. -/
theorem status_of_inactive {t : Tx} (h : t.active = false) : ∃ flags < 8,
    t.status = BitVec.ofNat 32 (t.code.toNat * 2 ^ 12 + min t.aborts 15 * 2 ^ 8 + t.cause.toNat * 2 ^ 4 + 2 * flags) := by
  refine ⟨(if t.ts then 4 else 0) + (if t.irrev then 2 else 0) + (if t.isSpec then 1 else 0), ?_, ?_⟩
  · split <;> split <;> split <;> decide
  · simp only [Tx.status, h, Bool.false_eq_true, if_false]
    congr 1
    split <;> split <;> split <;> omega

theorem status_fields_of_inactive {t : Tx} (h : t.active = false) :
    t.status.getLsbD 0 = false ∧ t.status.toNat / 16 % 16 = t.cause.toNat ∧ t.status.toNat / 4096 % 128 = t.code.toNat ∧
      t.status.toNat / 256 % 16 = min t.aborts 15 := by
  obtain ⟨flags, hflags, hword⟩ := status_of_inactive h
  have hcode := t.code.isLt
  have hcause := t.cause.isLt
  have hnat : t.status.toNat = t.code.toNat * 2 ^ 12 + min t.aborts 15 * 2 ^ 8 + t.cause.toNat * 2 ^ 4 + 2 * flags := by
    rw [hword, BitVec.toNat_ofNat, Nat.mod_eq_of_lt (by omega)]
  have hbit : t.status.getLsbD 0 = false := by
    rw [BitVec.getLsbD, hnat, Nat.testBit_zero, decide_eq_false_iff_not]
    omega
  exact ⟨hbit, by omega, by omega, by omega⟩

/-! ### What an abort leaves (R218) -/

section Abort
variable (t : Tx) (c : TxCause) (code : Option (BitVec 7))

theorem causeCode_lt : c.code < 16 := by cases c <;> decide

theorem abort_cause_toNat : (t.abort c code).cause.toNat = c.code :=
  Nat.mod_eq_of_lt (causeCode_lt c)

/-- A count that an abort does not clear is the one the status shows. -/
theorem aborts_abort_of_count_ne_zero (h : c.count t.k ≠ 0) : (t.abort c code).aborts = c.count t.k := if_neg h

theorem capacity_count_ge (k : Nat) : 9 ≤ TxCause.capacity.count k := Nat.le_max_right _ _

/-- The number of aborts that the status shows after an abort, cause by cause. -/
theorem aborts_abort : (t.abort c code).aborts = match c with
    | .explicit | .instr | .stale => t.k + 1
    | .preempt | .fault => t.aborts
    | _ => c.count t.k := by
  cases c with
  | intra | conflict | order => exact aborts_abort_of_count_ne_zero t _ code (Nat.succ_ne_zero t.k)
  | capacity => exact aborts_abort_of_count_ne_zero t _ code (Nat.ne_of_gt (Nat.lt_of_lt_of_le (by decide) (capacity_count_ge t.k)))
  | explicit | instr | stale => rfl
  | preempt | fault => rfl

end Abort

/-- Settles O33: the counts by cause, the back-off below and above its bound, and the fields of the status after an abort. -/
theorem abortFates : Obligations.AbortFates := by
  unfold Obligations.AbortFates
  refine ⟨fun k => ⟨rfl, rfl, rfl, capacity_count_ge k, rfl, rfl, rfl, rfl, rfl⟩, fun k _ => backoff_of_le, fun k => backoff_of_ge,
    fun t c code => ?_⟩
  obtain ⟨hactive, hcause, hcode, haborts⟩ := status_fields_of_inactive (t := t.abort c (some code)) rfl
  rw [abort_cause_toNat] at hcause
  rw [aborts_abort] at haborts
  exact ⟨hactive, hcause, hcode, haborts⟩

end Sys2Proof.Laws
end

section
/-! SUPPORT: exact arithmetic on the values of codes, rounded once, flushed and clamped (R237, R240, R248 to R250, R255). -/

namespace Sys2Proof.Laws

open Sys2Proof Sys2Proof.Machine Sys2Proof.Safety

-- One theorem after another, as in the tests: the check's memory holds few more stacks.
set_option Elab.async false

/-! ### Rounding a value -/

/-- A value of the model is rounded as R237 says. -/
theorem roundNum_eq (f : FloatFmt) (rnd : Rnd) (sat : Bool) (draw : Nat) (v : Machine.Num) :
    roundNum f rnd sat draw v = (toVal v).round f rnd sat draw := by
  cases v with
  | nan => rfl
  | inf neg =>
    rw [toVal, Val.round, roundNum, infResult, codeWith_eq, FloatFmt.nanCode]
    cases f.sp <;> rfl
  | fin neg n e =>
    rw [toVal, roundNum]
    split
    · next h => rw [Val.round, if_pos (finVal_eq_zero.mpr h), codeWith_eq]
    · next h =>
      have hb : Below false rnd (stepExp f n e - e).natAbs 0 := rfl
      rw [roundFin_eq (Nat.pos_of_ne_zero h) hb (fun h => nomatch h) neg, add_zero]
      rfl

theorem finish_eq (f : FloatFmt) (rnd : Rnd) (v : Option Machine.Num) : finish f rnd v = outcome f rnd (v.map toVal) := by
  cases v with
  | none => rfl
  | some v => rw [finish, roundNum_eq]; rfl

/-! ### Sums and products -/

/-- An integer times a power of two. -/
theorem toVal_ofIntExp (z e : ℤ) : toVal (ofIntExp z e) = .num (z * 2 ^ e) (decide (z < 0)) := by
  have h : finVal (decide (z < 0)) z.natAbs e = z * 2 ^ e := by
    rw [finVal, Nat.cast_natAbs, Int.cast_abs]
    split
    · next hz => rw [abs_of_neg (by exact_mod_cast of_decide_eq_true hz)]; ring
    · next hz => rw [abs_of_nonneg (by exact_mod_cast not_lt.mp fun h => hz (decide_eq_true h))]
  rw [ofIntExp, toVal, h]

theorem toVal_add (rnd : Rnd) (a b : Machine.Num) : (a.add rnd b).map toVal = addVals rnd (toVal a) (toVal b) := by
  cases a with
  | nan => rfl
  | inf s =>
    cases b with
    | nan | fin => rfl
    | inf t =>
      simp only [Machine.Num.add, toVal, addVals]
      split <;> rfl
  | fin s n e =>
    cases b with
    | nan | inf => rfl
    | fin t m d =>
      have key {lo : ℤ} (he : lo ≤ e) (hd : lo ≤ d) :
          ((scaled s n e lo + scaled t m d lo : ℤ) : ℚ) * 2 ^ lo = finVal s n e + finVal t m d := by
        rw [Int.cast_add, add_mul, scaled_eq he, scaled_eq hd]
      have hlo := key (lo := if e < d then e else d) (by grind) (by grind)
      have hp : (0 : ℚ) < 2 ^ (if e < d then e else d) := by positivity
      simp only [Machine.Num.add, toVal, addVals]
      generalize scaled s n e (if e < d then e else d) + scaled t m d (if e < d then e else d) = z at *
      generalize (if e < d then e else d) = lo at *
      have h0 : finVal s n e + finVal t m d = 0 ↔ z = 0 := by
        rw [← hlo, mul_eq_zero, or_iff_left hp.ne', Int.cast_eq_zero]
      simp only [h0]
      split
      · next hz =>
        rw [hz, Int.cast_zero, zero_mul] at hlo
        have hn : n = 0 ∧ m = 0 ∧ s = t ↔ finVal s n e = 0 ∧ s = t := by
          rw [← finVal_eq_zero (s := s) (e := e), ← finVal_eq_zero (s := t) (e := d)]
          grind
        simp only [hn]
        split <;> simp [toVal, finVal]
      · rw [Option.map_some, toVal_ofIntExp, hlo]
        congr 2
        simp [← hlo, mul_neg_iff, hp, hp.not_gt]

theorem finVal_mul (s t : Bool) (n m : Nat) (e d : ℤ) : finVal (s ^^ t) (n * m) (e + d) = finVal s n e * finVal t m d := by
  rw [finVal, finVal, finVal, zpow_add₀ two_ne_zero]
  push_cast
  cases s <;> cases t <;> simp <;> ring

theorem toVal_mul (a b : Machine.Num) : (a.mul b).map toVal = mulVals (toVal a) (toVal b) := by
  have hx (s t : Bool) : (s != t) = (s ^^ t) := rfl
  cases a with
  | nan => rfl
  | inf s =>
    cases b with
    | nan | inf => rfl
    | fin t m d =>
      simp only [Machine.Num.mul, toVal, mulVals, finVal_eq_zero]
      split <;> rfl
  | fin s n e =>
    cases b with
    | nan => rfl
    | inf t =>
      simp only [Machine.Num.mul, toVal, mulVals, finVal_eq_zero]
      split
      · rfl
      · rw [Option.map_some, toVal, hx, Bool.xor_comm]
    | fin t m d => simp only [Machine.Num.mul, toVal, mulVals, Option.map_some, hx, finVal_mul]

theorem fAdd_eq (f : FloatFmt) (rnd : Rnd) (a b : Nat) : fAdd f rnd a b = addOut f rnd a b := by
  rw [fAdd, addOut, finish_eq, toVal_add, valOf_eq, valOf_eq]

theorem fMul_eq (f : FloatFmt) (rnd : Rnd) (a b : Nat) : fMul f rnd a b = mulOut f rnd a b := by
  rw [fMul, mulOut, finish_eq, toVal_mul, valOf_eq, valOf_eq]

theorem isNan_value (f : FloatFmt) (c : Nat) : (f.value c).isNan = nanAt f c := by
  rw [FloatFmt.value, ← isNan_eq]
  grind [Machine.Num.isNan]

theorem fFma_eq (f : FloatFmt) (rnd : Rnd) (a b c : Nat) : fFma f rnd a b c = fmaOut f rnd a b c := by
  rw [fFma, fmaOut, isNan_value, valOf_eq, valOf_eq, valOf_eq, ← toVal_mul]
  congr 1
  cases (f.value a).mul (f.value b) with
  | none => rfl
  | some p => rw [finish_eq, toVal_add]; rfl

/-! ### Codes: their range, flushing and the clamp -/

section Range
variable {f : FloatFmt}

theorem signed_lt {m : Nat} (h : m < f.signBit) (neg : Bool) : f.signed neg m < 2 * f.signBit := by
  unfold FloatFmt.signed
  split <;> omega

theorem infCode_add_lt (hm : 0 < f.mb) : f.infCode + 2 ^ (f.mb - 1) < f.signBit := by
  have hs : f.signBit = f.infCode + 2 ^ f.mb := by
    rw [FloatFmt.signBit, FloatFmt.infCode, pow_add, ← Nat.add_one_mul, Nat.sub_add_cancel (Nat.two_pow_pos _)]
  rw [hs]
  exact Nat.add_lt_add_left (Nat.pow_lt_pow_right one_lt_two (Nat.sub_lt hm one_pos)) _

theorem nanCode_lt (hm : 0 < f.mb) : f.nanCode < f.signBit := by
  have := infCode_add_lt hm
  have : 0 < f.signBit := Nat.two_pow_pos _
  unfold FloatFmt.nanCode
  split <;> omega

/-- The magnitudes that a rounding gives where it gives none of its own: of an infinity, and past the greatest number. -/
theorem overflowMag_lt (hm : 0 < f.mb) (neg : Bool) (rnd : Rnd) (sat : Bool) : overflowMag f neg rnd sat < f.signBit := by
  have := infCode_add_lt hm
  have : 0 < f.signBit := Nat.two_pow_pos _
  have := maxCode_lt f
  unfold overflowMag
  grind

theorem infResult_lt (hm : 0 < f.mb) (neg sat : Bool) : infResult f neg sat < 2 * f.signBit := by
  have h := overflowMag_lt hm neg .rne sat
  refine signed_lt (lt_of_eq_of_lt ?_ h) neg
  unfold overflowMag
  cases sat <;> rfl

/-- A result of rounding is a code of the format. -/
theorem roundNum_lt (hm : 0 < f.mb) (rnd : Rnd) (sat : Bool) (draw : Nat) (v : Machine.Num) :
    (roundNum f rnd sat draw v).1 < 2 * f.signBit := by
  cases v with
  | nan => exact (nanCode_lt hm).trans (by have := Nat.two_pow_pos (f.eb + f.mb); rw [FloatFmt.signBit]; omega)
  | inf neg => exact infResult_lt hm neg sat
  | fin neg n e =>
    rw [roundNum]
    split
    · exact signed_lt (Nat.two_pow_pos _) neg
    · rw [roundFin_steps]
      dsimp only
      split
      · exact signed_lt (overflowMag_lt hm ..) neg
      · next h => exact signed_lt (lt_of_le_of_lt (not_lt.mp h) (maxCode_lt f)) neg

theorem finish_lt (hm : 0 < f.mb) (rnd : Rnd) (v : Option Machine.Num) : (finish f rnd v).1 < 2 * f.signBit := by
  cases v with
  | none => exact roundNum_lt hm rnd false 0 .nan
  | some v => exact roundNum_lt hm rnd false 0 v

/-- A code of the format is its magnitude with its sign. -/
theorem codeWith_mag {c : Nat} (h : c < 2 * f.signBit) : codeWith f (signOf f c) (f.mag c) = c := by
  have hd := Nat.div_add_mod' c f.signBit
  have h2 : c / f.signBit < 2 := (Nat.div_lt_iff_lt_mul (Nat.two_pow_pos _)).mpr h
  rw [← codeWith_eq, ← isNeg_eq, FloatFmt.signed, FloatFmt.isNeg, FloatFmt.mag]
  obtain h0 | h1 := Nat.le_one_iff_eq_zero_or_eq_one.mp (Nat.le_of_lt_succ h2)
  · simp [h0] at hd ⊢
    omega
  · simp [h1] at hd ⊢
    omega

theorem expOf_eq_zero_iff (c : Nat) : expOf f c = 0 ↔ f.mag c < 2 ^ f.mb := by
  rw [← mag_div, Nat.div_eq_zero_iff_lt (Nat.two_pow_pos _)]

/-- Flushing a code of the format (R240, R255). -/
theorem flush_eq {c : Nat} (h : c < 2 * f.signBit) : f.flush c = flushed f c := by
  have hs := codeWith_mag h
  unfold FloatFmt.flush FloatFmt.isSub flushed
  rw [codeWith_eq, isNeg_eq]
  simp only [expOf_eq_zero_iff, Bool.and_eq_true, bne_iff_ne, decide_eq_true_eq]
  by_cases h0 : f.mag c = 0
  · rw [h0] at hs
    simp [h0, hs]
  · simp [h0]

theorem flushed_lt {c : Nat} (h : c < 2 * f.signBit) : flushed f c < 2 * f.signBit := by
  unfold flushed
  split
  · rw [← codeWith_eq]
    exact signed_lt (Nat.two_pow_pos _) _
  · exact h

/-- The clamp to [0, 1] (R250). -/
theorem clamp01_eq (hb : 1 ≤ f.bias) (sat : Bool) (c : Nat) : clamp01 f sat c = unitClamp f sat c := by
  unfold clamp01 unitClamp
  rw [valOf_eq]
  cases hv : f.value c with
  | nan | inf => rfl
  | fin neg n e =>
    have hone : magVal f (f.bias * 2 ^ f.mb) = 1 := by rw [magVal_pow hb, sub_self, zpow_zero]
    have h0 : finVal neg n e ≤ 0 ↔ neg = true ∨ n = 0 := by
      rw [le_iff_lt_or_eq, finVal_eq_zero]
      by_cases hn : n = 0
      · simp [hn]
      · rw [finVal_neg_iff hn]
    have h1 : ¬ (neg = true ∨ n = 0) → (1 < finVal neg n e ↔ f.bias * 2 ^ f.mb < f.mag c) := by
      intro hpos
      rw [← h0, not_le] at hpos
      rw [← (magVal_strictMono f).lt_iff_lt, hone, ← abs_numOf, numOf_of_fin hv, abs_of_pos hpos]
    simp only [toVal, h0]
    grind

theorem unitClamp_le (f : FloatFmt) (sat : Bool) (c : Nat) : unitClamp f sat c ≤ max c (f.bias * 2 ^ f.mb) := by
  unfold unitClamp
  split
  · exact le_max_left ..
  · split <;> grind

end Range

/-! ### Packed operations (R255) -/

@[simp] theorem signBit_half (bf : Bool) : (halfFmt bf).signBit = 32768 := by cases bf <;> rfl

theorem mb_half_pos (bf : Bool) : 0 < (halfFmt bf).mb := by cases bf <;> decide

theorem bias_half_pos (bf : Bool) : 1 ≤ (halfFmt bf).bias := by cases bf <;> decide

theorem ofNat_halves {lo : Nat} (h : lo < 65536) (hi : Nat) :
    BitVec.ofNat 32 (lo + hi * 65536) = BitVec.ofNat 16 hi ++ BitVec.ofNat 16 lo := by
  apply BitVec.eq_of_toNat_eq
  rw [BitVec.toNat_append, BitVec.toNat_ofNat, BitVec.toNat_ofNat, BitVec.toNat_ofNat, ← Nat.shiftLeft_add_eq_or_of_lt (Nat.mod_lt _ (by decide)),
    Nat.shiftLeft_eq]
  omega

/-- A packed operation is its operation on each half, where each result is a code flushed and clamped. -/
theorem packed_eq_halves {f : FloatFmt} {sat : Bool} {op : (Nat → Nat) → Nat × Option Arith} {op' : (W32 → Nat) → Nat × Option Arith}
    (h : ∀ half : Nat → Nat, (∀ w : W32, half w.toNat < 65536) → (op half).1 < 65536 ∧
      op half = (unitClamp f sat (flushed f (op' fun w => flushed f (half w.toNat)).1), (op' fun w => flushed f (half w.toNat)).2)) :
    packed op = halves f sat op' := by
  have hl (w : W32) : (w.extractLsb' 0 16).toNat = w.toNat % 65536 := by simp
  have hh (w : W32) : (w.extractLsb' 16 16).toNat = w.toNat / 65536 := by
    rw [BitVec.extractLsb'_toNat, Nat.shiftRight_eq_div_pow, Nat.mod_eq_of_lt (by have := w.isLt; omega)]
  obtain ⟨hlt, hlo⟩ := h (fun w => w % 65536) fun w => Nat.mod_lt _ (by decide)
  obtain ⟨-, hhi⟩ := h (fun w => w / 65536) fun w => by have := w.isLt; omega
  simp only [packed, halves, hl, hh, ofNat_halves hlt]
  rw [hlo, hhi]

/-- An arithmetic operation of a half: operands flushed, the result flushed and clamped. -/
theorem halfOp_eq {bf sat : Bool} {op : FloatFmt → Nat × Option Arith} (h : (op (halfFmt bf)).1 < 65536) :
    (halfOp bf sat op).1 < 65536 ∧
      halfOp bf sat op = (unitClamp (halfFmt bf) sat (flushed (halfFmt bf) (op (halfFmt bf)).1), (op (halfFmt bf)).2) := by
  have hc : (op (halfFmt bf)).1 < 2 * (halfFmt bf).signBit := by rwa [signBit_half]
  have he : halfOp bf sat op = (unitClamp (halfFmt bf) sat (flushed (halfFmt bf) (op (halfFmt bf)).1), (op (halfFmt bf)).2) := by
    rw [halfOp, flush_eq hc, clamp01_eq (bias_half_pos bf)]
  have hf := flushed_lt hc
  have hone : (halfFmt bf).bias * 2 ^ (halfFmt bf).mb < 65536 := by cases bf <;> decide
  rw [signBit_half] at hf
  refine ⟨he ▸ (unitClamp_le ..).trans_lt ?_, he⟩
  omega

section Halves
variable (bf : Bool) (rnd : Rnd) (sat : Bool) (a b c : W32)

theorem flush_half {half : Nat → Nat} (h : ∀ w : W32, half w.toNat < 65536) (w : W32) :
    (halfFmt bf).flush (half w.toNat) = flushed (halfFmt bf) (half w.toNat) :=
  flush_eq (by rw [signBit_half]; exact h w)

theorem finish_half_lt (v : Option Machine.Num) : (finish (halfFmt bf) rnd v).1 < 65536 := by
  simpa using finish_lt (mb_half_pos bf) rnd v

theorem hAdd2_eq : hAdd2 bf rnd sat a b = halves (halfFmt bf) sat fun h => addOut (halfFmt bf) rnd (h a) (h b) :=
  packed_eq_halves fun _ hh => by
    simp only [← fAdd_eq, ← flush_half bf hh]
    exact halfOp_eq (op := fun f => fAdd f rnd _ _) (finish_half_lt bf rnd _)

theorem hMul2_eq : hMul2 bf rnd sat a b = halves (halfFmt bf) sat fun h => mulOut (halfFmt bf) rnd (h a) (h b) :=
  packed_eq_halves fun _ hh => by
    simp only [← fMul_eq, ← flush_half bf hh]
    exact halfOp_eq (op := fun f => fMul f rnd _ _) (finish_half_lt bf rnd _)

theorem fFma_half_lt (u v w : Nat) : (fFma (halfFmt bf) rnd u v w).1 < 65536 := by
  rw [fFma]
  split
  · exact finish_half_lt bf rnd none
  · exact finish_half_lt bf rnd _

theorem hFma2_eq : hFma2 bf rnd sat a b c = halves (halfFmt bf) sat fun h => fmaOut (halfFmt bf) rnd (h a) (h b) (h c) :=
  packed_eq_halves fun _ hh => by
    simp only [← fFma_eq, ← flush_half bf hh]
    exact halfOp_eq (op := fun f => fFma f rnd _ _ _) (fFma_half_lt bf rnd _ _ _)

end Halves

/-! ### The lesser of two codes (R251) -/

section Order
variable (f : FloatFmt)

/-- The order of R251 is that of the model's keys. -/
theorem below_eq (a b : Nat) : below f a b = decide (orderKey f a < orderKey f b) := by
  have hlt := (magVal_strictMono f).lt_iff_lt (a := f.mag a) (b := f.mag b)
  have hgt := (magVal_strictMono f).lt_iff_lt (a := f.mag b) (b := f.mag a)
  have ha := magVal_nonneg f (f.mag a)
  have hb := magVal_nonneg f (f.mag b)
  rw [below, orderKey, orderKey, isNeg_eq, isNeg_eq, numOf_eq, numOf_eq]
  cases signOf f a <;> cases signOf f b
  · simp [hlt]
  · have : ¬ magVal f (f.mag a) < -magVal f (f.mag b) := by linarith
    simp [this]
    omega
  · have : -magVal f (f.mag a) < magVal f (f.mag b) ∨ -magVal f (f.mag a) = magVal f (f.mag b) := lt_or_eq_of_le (by linarith)
    simp [this]
  · simp [hgt]

theorem fMinMax_eq (greater nan : Bool) (a b : Nat) : fMinMax f greater nan a b = lesser f greater nan a b := by
  rw [fMinMax, lesser, isNan_eq, isNan_eq, below_eq, below_eq]
  cases nanAt f a <;> cases nanAt f b <;> cases nan <;> rfl

/-- It is one of the two, or the default NaN. -/
theorem lesser_of {P : Nat → Prop} {a b : Nat} (ha : P a) (hb : P b) (hn : P f.nanCode) (greater nan : Bool) :
    P (lesser f greater nan a b) := by
  unfold lesser
  split_ifs <;> assumption

end Order

theorem flushed_idem {f : FloatFmt} (c : Nat) : flushed f (flushed f c) = flushed f c := by
  by_cases h : expOf f c = 0
  · have hs : signOf f (codeWith f (signOf f c) 0) = signOf f c := by
      rw [codeWith, signOf]
      have hp := Nat.two_pow_pos (f.eb + f.mb)
      cases signOf f c <;> simp [hp]
    simp only [flushed, h, if_true, hs, ite_self]
  · simp only [flushed, h, if_false]

theorem hMinMax2_eq (bf greater nan : Bool) (a b : W32) : hMinMax2 bf greater nan a b =
    (halves (halfFmt bf) false fun h => (lesser (halfFmt bf) greater nan (h a) (h b), none)).1 := by
  refine congrArg Prod.fst (packed_eq_halves fun half hh => ?_)
  have hnan : (halfFmt bf).nanCode < 65536 ∧ flushed (halfFmt bf) (halfFmt bf).nanCode = (halfFmt bf).nanCode := by cases bf <;> decide
  have hw (w : W32) : flushed (halfFmt bf) (half w.toNat) < 65536 := by
    simpa using flushed_lt (f := halfFmt bf) (c := half w.toNat) (by simpa using hh w)
  obtain ⟨hlt, hfix⟩ := lesser_of (halfFmt bf) (P := fun c => c < 65536 ∧ flushed (halfFmt bf) c = c)
    ⟨hw a, flushed_idem _⟩ ⟨hw b, flushed_idem _⟩ hnan greater nan
  simp only [flush_half bf hh, fMinMax_eq]
  exact ⟨hlt, by rw [hfix]; rfl⟩

theorem hSet2_eq (bf : Bool) (cmp : FCmp) (a b : W32) : hSet2 bf cmp a b =
    let ones (w : Nat) := if compares (halfFmt bf) cmp (flushed (halfFmt bf) (a.toNat / w % 65536)) (flushed (halfFmt bf) (b.toNat / w % 65536))
      then 0xFFFF else 0
    BitVec.ofNat 32 (ones 1 + 65536 * ones 65536) := by
  have hsp : (halfFmt bf).sp = .ieee ∧ 0 < (halfFmt bf).eb := by cases bf <;> decide
  have hhi (w : W32) : w.toNat / 65536 % 65536 = w.toNat / 65536 := Nat.mod_eq_of_lt (by have := w.isLt; omega)
  have hl := flush_half bf (half := fun w => w % 65536) fun w => Nat.mod_lt _ (by decide)
  have hh := flush_half bf (half := fun w => w / 65536) fun w => by have := w.isLt; omega
  simp only [hSet2, packed, fCompare_eq hsp.1 hsp.2, hl, hh, Nat.div_one, hhi, Nat.mul_comm 65536]

/-! ### Numbers rounded to integers (R243, R254) -/

theorem roundInt_eq_keptSteps (rnd : Rnd) (draw : Nat) (neg : Bool) (n : Nat) (e : ℤ) :
    roundInt rnd draw neg n e = keptSteps rnd draw neg n e false 0 := by
  simp [roundInt, keptSteps]

theorem roundInt_zero (rnd : Rnd) (draw : Nat) (neg : Bool) (e : ℤ) : roundInt rnd draw neg 0 e = 0 := by
  simp [roundInt, roundsUp]

theorem roundInt_of_nonneg {e : ℤ} (h : 0 ≤ e) (rnd : Rnd) (draw : Nat) (neg : Bool) (n : Nat) :
    (roundInt rnd draw neg n e : ℚ) = n * 2 ^ e := by
  rw [roundInt, if_pos h]
  push_cast
  rw [← zpow_natCast, Int.natAbs_of_nonneg h]

theorem abs_finVal (s : Bool) (n : Nat) (e : ℤ) : |finVal s n e| = n * 2 ^ e := by
  have : (0 : ℚ) ≤ n * 2 ^ e := by positivity
  cases s <;> simp [finVal, abs_of_nonneg, this]

/-- The model rounds a magnitude to an integer as R243 says. -/
theorem roundInt_eq (rnd : Rnd) (draw : Nat) {s : Bool} {n : Nat} {e : ℤ} (hn : n ≠ 0) : (roundInt rnd draw s n e : ℤ) =
    ⌊|finVal s n e|⌋ + if goesUp rnd (decide (finVal s n e < 0)) draw ⌊|finVal s n e|⌋ (|finVal s n e| - ⌊|finVal s n e|⌋) then 1 else 0 := by
  have ht : Below false rnd ((0 : ℤ) - e).natAbs 0 := rfl
  have hs : decide (finVal s n e < 0) = s := by simp [finVal_neg_iff hn]
  have hfl := floor_eq_lowSteps (n := n) ht nofun
  have hk := keptSteps_eq (n := n) (draw := draw) (neg := s) ht nofun
  rw [add_zero, zpow_zero, div_one] at hfl hk
  rw [roundInt_eq_keptSteps, hk, hs, abs_finVal, hfl]
  push_cast
  rfl

theorem nearInt_finVal (rnd : Rnd) (draw : Nat) (s : Bool) (n : Nat) (e : ℤ) :
    nearInt rnd draw (finVal s n e) = if s then -(roundInt rnd draw s n e : ℤ) else roundInt rnd draw s n e := by
  by_cases hn : n = 0
  · subst hn
    simp [nearInt, finVal, roundInt_zero, goesUp]
  · simp only [nearInt, ← roundInt_eq rnd draw hn]
    simp only [finVal_neg_iff hn]

theorem abs_nearInt_finVal (rnd : Rnd) (draw : Nat) (s : Bool) (n : Nat) (e : ℤ) :
    |(nearInt rnd draw (finVal s n e) : ℚ)| = roundInt rnd draw s n e := by
  rw [nearInt_finVal]
  cases s <;> simp

theorem roundInt_le (rnd : Rnd) (draw : Nat) {s : Bool} {n k : Nat} {e : ℤ} (h : |finVal s n e| < k) : roundInt rnd draw s n e ≤ k := by
  by_cases hn : n = 0
  · simp [hn, roundInt_zero]
  · have hr := roundInt_eq rnd draw (s := s) (e := e) hn
    have : ⌊|finVal s n e|⌋ < k := Int.floor_lt.mpr (by exact_mod_cast h)
    split at hr <;> omega

/-! ### FRND (R254) -/

section Integral
variable {a n : Nat} {e : ℤ} {s : Bool}

theorem signOf_of_fin {f : FloatFmt} (h : f.value a = .fin s n e) : signOf f a = s := by
  have hv := valOf_eq f a
  rw [h, valOf, toVal] at hv
  split_ifs at hv
  exact (Val.num.inj hv).2

theorem magVal_mag_of_fin {f : FloatFmt} (h : f.value a = .fin s n e) : magVal f (f.mag a) = n * 2 ^ e := by
  rw [← abs_numOf, numOf_of_fin h, abs_finVal]

/-- A word of FP32 is its number's magnitude with its sign. -/
theorem codeWith_of_fin (ha : a < 2 ^ 32) (h : fp32.value a = .fin s n e) : codeWith fp32 s (fp32.mag a) = a := by
  rw [← signOf_of_fin h]
  exact codeWith_mag ha

theorem mag_le_maxCode (h : fp32.value a = .fin s n e) : fp32.mag a ≤ fp32.maxCode := by
  have hv := valOf_eq fp32 a
  rw [h, valOf, toVal] at hv
  split_ifs at hv with hn hi
  exact Nat.le_sub_one_of_lt (mag_lt_infCode rfl (Bool.not_eq_true _ ▸ hn) (Bool.not_eq_true _ ▸ hi))

/-- A number with no places below one: its integer is itself. -/
theorem roundInt_of_large (h : fp32.value a = .fin s n e) (hx : 2 ^ 23 ≤ |finVal s n e|) (rnd : Rnd) (draw : Nat) :
    (roundInt rnd draw s n e : ℚ) = magVal fp32 (fp32.mag a) := by
  obtain ⟨hlt, -, -⟩ := value_fp32_range h
  have he : 0 ≤ e := by
    by_contra hneg
    have h1 : (2 : ℚ) ^ e ≤ 2 ^ (-1 : ℤ) := zpow_le_zpow_right₀ one_le_two (by omega)
    have h2 : (n : ℚ) < 2 ^ 24 := by exact_mod_cast hlt
    have h3 := mul_le_mul_of_nonneg_left h1 (Nat.cast_nonneg n)
    rw [abs_finVal] at hx
    norm_num at h3 hx
    linarith
  rw [magVal_mag_of_fin h, roundInt_of_nonneg he]

theorem roundNum_integer (m : Nat) {c : Nat} (hc : c ≤ fp32.maxCode) (hm : (m : ℚ) = magVal fp32 c) :
    (roundNum fp32 .rne false 0 (.fin s m 0)).1 = codeWith fp32 s c := by
  rw [roundNum]
  split
  · next h0 =>
    have : c = 0 := by rw [← codeOf_magVal fp32 c, ← hm, h0, Nat.cast_zero, codeOf, if_pos rfl]
    rw [this, codeWith_eq]
  · next h0 => rw [roundFin_magVal (Nat.pos_of_ne_zero h0) hc (by rw [zpow_zero, mul_one, hm])]

/-- FRND gives the integer that the mode names. -/
theorem fRound_eq (ha : a < 2 ^ 32) (rnd : Rnd) : fRound rnd a = integral rnd a := by
  unfold fRound integral
  rw [valOf_eq]
  cases hv : fp32.value a with
  | nan | inf => rfl
  | fin s n e =>
    have hself := codeWith_of_fin ha hv
    simp only [toVal, finVal_eq_zero, abs_nearInt_finVal]
    split
    · next h =>
      rw [roundNum_integer _ (mag_le_maxCode hv), hself]
      rcases h with rfl | h
      · rw [roundInt_zero, magVal_mag_of_fin hv, Nat.cast_zero, zero_mul]
      · exact roundInt_of_large hv h rnd 0
    · next h =>
      rw [not_or, not_le] at h
      have hle : roundInt rnd 0 s n e ≤ 2 ^ 23 := roundInt_le rnd 0 (by exact_mod_cast h.2)
      obtain ⟨c, hc, hm⟩ : ∃ c ≤ fp32.maxCode, magVal fp32 c = roundInt rnd 0 s n e := by
        rcases Nat.eq_zero_or_pos (roundInt rnd 0 s n e) with h0 | h0
        · exact ⟨0, Nat.zero_le _, by rw [h0, magVal_zero, Nat.cast_zero]⟩
        · exact exists_mag_nat h0 (by omega)
      rw [roundNum_integer _ hc hm.symm, ← hm, codeOf_magVal]

end Integral

end Sys2Proof.Laws
end

section
/-! SUPPORT and the obligation: floating instructions without events (R251, R252, R254, R257, R258). -/

namespace Sys2Proof.Laws

open Sys2Proof Sys2Proof.Machine Sys2Proof.Safety

-- One theorem after another, as in the tests: the check's memory holds few more stacks.
set_option Elab.async false

/-- Each instruction of `floatQuiet` puts the value of its formula into every executing lane. -/
theorem exec_floatQuiet_val {s : State} {i : Instr} {x : Ex} {r : Safety.Result W32} (h : floatQuiet i = some r) (hx : runsAs s i x) :
    exec i s = .next (retire x r.ctl (x.fixV r.lat r.d (r.val x)) s) := by
  unfold floatQuiet at h
  split at h <;> cases h
  all_goals exact exec_runs hx rfl rfl

/-- Settles O4: the values are those of the order, of the integers and of the comparison over the rationals. -/
theorem quietFloatResults : Obligations.QuietFloatResults := by
  unfold Obligations.QuietFloatResults
  exact ⟨fun _ _ _ _ h hx => exec_floatQuiet_val h hx, fun _ _ _ _ => by rw [fminmaxVal, fMinMax_eq],
    fun rnd _ a => fRound_eq a.isLt rnd, hMinMax2_eq, hSet2_eq⟩

end Sys2Proof.Laws
end

section
/-! SUPPORT and the obligation: floating instructions with events (R244, R248 to R250, R255, R256). -/

namespace Sys2Proof.Laws

open Sys2Proof Sys2Proof.Machine Sys2Proof.Safety

-- One theorem after another, as in the tests: the check's memory holds few more stacks.
set_option Elab.async false

/-- Each instruction of `floatLoud` traps, or logs its events and puts the value of its formula into every executing lane. -/
theorem exec_floatLoud_val {s : State} {i : Instr} {x : Ex} {r : Safety.Result (W32 × List Arith)} (h : floatLoud i = some r)
    (hx : runsAs s i x) : exec i s = .next (withEvents x (eventsOf x.lanes fun l => (r.val x l).2) s fun s =>
      retire x r.ctl (x.fixV r.lat r.d fun l => (r.val x l).1) s) := by
  unfold floatLoud at h
  split at h <;> cases h
  all_goals exact exec_runs hx rfl rfl

theorem floatOut_eq (sat : Bool) (r : Nat × Option Arith) : floatOut sat r = word sat r := by
  rw [floatOut, word, clamp01_eq (by decide)]

/-! ### Events and their trap (R244) -/

theorem mem_eventsOf {ls : List Nat} {f : Nat → List Arith} {c : Arith} {m : Mask} :
    (c, m) ∈ eventsOf ls f ↔ (∃ l ∈ ls, c ∈ f l) ∧ m = maskOf (ls.filter fun l => (f l).contains c) := by
  simp only [eventsOf, List.mem_map, List.mem_eraseDups, List.mem_flatten, Prod.mk.injEq]
  constructor
  · rintro ⟨d, ⟨_, ⟨l, hl, rfl⟩, hd⟩, rfl, rfl⟩
    exact ⟨⟨l, hl, hd⟩, rfl⟩
  · rintro ⟨⟨l, hl, hd⟩, rfl⟩
    exact ⟨c, ⟨_, ⟨l, hl, rfl⟩, hd⟩, rfl, rfl⟩

/-- The choice of the lower cause, as `trapOf` folds it. -/
def lowerCause (best : Option (Arith × Mask)) (e : Arith × Mask) : Option (Arith × Mask) :=
  match best with
  | none => some e
  | some b => if e.1.code < b.1.code then some e else some b

/-- The fold from a choice takes the first of the lowest among it and the list. -/
theorem foldl_lowerCause (b : Arith × Mask) (l : List (Arith × Mask)) :
    ∃ e ∈ b :: l, l.foldl lowerCause (some b) = some e ∧ ∀ d ∈ b :: l, e.1.code ≤ d.1.code := by
  induction l generalizing b with
  | nil => exact ⟨b, by simp, rfl, by simp⟩
  | cons a l ih =>
    rw [List.foldl_cons, lowerCause]
    simp only [List.mem_cons] at ih ⊢
    split
    · obtain ⟨e, he, hf, hle⟩ := ih a
      exact ⟨e, by grind, hf, by grind⟩
    · obtain ⟨e, he, hf, hle⟩ := ih b
      exact ⟨e, by grind, hf, by grind⟩

/-- The events that can trap (R244). -/
def selectedEvents (r : CtlRegs) (evs : Events) : Events :=
  if r.sctl.getLsbD 1 then evs.filter fun e => e.2 != 0#64 && e.1 != .fredClamp && r.atrap.getLsbD e.1.code else []

theorem mem_selectedEvents {r : CtlRegs} {evs : Events} {e : Arith × Mask} : e ∈ selectedEvents r evs ↔
    r.sctl.getLsbD 1 = true ∧ e ∈ evs ∧ e.2 ≠ 0 ∧ e.1 ≠ .fredClamp ∧ r.atrap.getLsbD e.1.code = true := by
  unfold selectedEvents
  split
  · next h => simp [h, and_assoc]
  · next h => exact iff_of_false List.not_mem_nil fun hs => h hs.1

theorem trapOf_eq_foldl (r : CtlRegs) (evs : Events) : trapOf r evs = (selectedEvents r evs).foldl lowerCause none := by
  unfold trapOf selectedEvents
  cases r.sctl.getLsbD 1
  · rfl
  · rfl

theorem trapOf_spec (r : CtlRegs) (evs : Events) : (trapOf r evs = none ↔ ∀ e, e ∉ selectedEvents r evs) ∧
    ∀ e, trapOf r evs = some e → e ∈ selectedEvents r evs ∧ ∀ d ∈ selectedEvents r evs, e.1.code ≤ d.1.code := by
  rw [trapOf_eq_foldl]
  cases selectedEvents r evs with
  | nil => simp
  | cons b l =>
    obtain ⟨e, he, hf, hle⟩ := foldl_lowerCause b l
    rw [List.foldl_cons, show lowerCause none b = some b from rfl, hf]
    refine ⟨iff_of_false nofun fun h => h b (List.mem_cons_self ..), fun d hd => ?_⟩
    cases hd
    exact ⟨he, hle⟩

/-- Settles O5: an instruction traps by its events or takes its effect; the values are exact and rounded once. -/
theorem floatResultsAndEvents : Obligations.FloatResultsAndEvents := by
  unfold Obligations.FloatResultsAndEvents
  refine ⟨fun s i r x h hx => ⟨fun hn => ?_, fun e he => ?_⟩, fun rnd sat a b c => ⟨?_, ?_, ?_⟩,
    fun bf rnd sat a b c => ⟨hAdd2_eq .., hMul2_eq .., hFma2_eq ..⟩, fun _ _ _ _ => mem_eventsOf, fun r evs => ?_⟩
  · rw [exec_floatLoud_val h hx, withEvents_of_no_trap hn]
  · rw [exec_floatLoud_val h hx, withEvents_of_trap he]
  · rw [faddVal, floatOut_eq, fAdd_eq]
  · rw [fmulVal, floatOut_eq, fMul_eq]
  · rw [ffmaVal, floatOut_eq, fFma_eq]
  · simp only [← mem_selectedEvents]
    exact trapOf_spec r evs

end Sys2Proof.Laws
end

section
/-! SUPPORT and the obligation: conversions and the stochastic generator (R232, R234, R237, R238, R240, R243, R263, R264). -/

namespace Sys2Proof.Laws

open Sys2Proof Sys2Proof.Machine Sys2Proof.Safety

-- One theorem after another, as in the tests: the check's memory holds few more stacks.
set_option Elab.async false

/-! ### The source's value (R232, R234, R263) -/

theorem intOf_eq (bits c : Nat) : intOf bits c = Int.bmod c (2 ^ bits) := by
  rw [intOf, BitVec.toInt_ofNat']

theorem toVal_ofInt (z : ℤ) : toVal (ofIntExp z 0) = .num z (decide (z < 0)) := by
  rw [toVal_ofIntExp, zpow_zero, mul_one]

theorem sourceOf_eq (src : Fmt) (c : Nat) : sourceOf src c = toVal (srcValue src (c % 2 ^ src.bits)) := by
  unfold sourceOf srcValue
  split
  · have hm : Int.bmod (c % 2 ^ src.bits : ℕ) (2 ^ src.bits) = Int.bmod c (2 ^ src.bits) := by rw [Int.natCast_mod, Int.emod_bmod]
    rw [toVal_ofInt, intOf_eq, hm]
  · split
    · next h =>
      subst h
      show (if c % 256 = 255 then _ else _) = toVal (e8m0Value (c % 256))
      unfold e8m0Value
      split
      · rfl
      · rw [toVal, finVal, if_neg Bool.false_ne_true, Nat.cast_one, one_mul]
    · exact valOf_eq ..

/-! ### The destination's code (R240, R243) -/

section Clamp
variable {bits : Nat} {z : ℤ}

theorem clampInt_of_lt (h : z < -2 ^ (bits - 1)) : clampInt bits z = (-2 ^ (bits - 1), true) := if_pos h

theorem clampInt_of_gt (h : 2 ^ (bits - 1) - 1 < z) : clampInt bits z = (2 ^ (bits - 1) - 1, true) := by
  have : (0 : ℤ) < 2 ^ (bits - 1) := by positivity
  rw [clampInt, if_neg (by omega), if_pos h]

theorem clampInt_of_mem (hl : -2 ^ (bits - 1) ≤ z) (hh : z ≤ 2 ^ (bits - 1) - 1) : clampInt bits z = (z, false) := by
  rw [clampInt, if_neg (not_lt.mpr hl), if_neg (not_lt.mpr hh)]

end Clamp

theorem toInt_eq (rnd : Rnd) (draw bits : Nat) (v : Machine.Num) : toInt rnd draw bits v = intoInt rnd draw bits (toVal v) := by
  cases v with
  | nan | inf => rfl
  | fin s n e =>
    simp only [toInt, toVal, intoInt, nearInt_finVal]
    generalize (if s then -(roundInt rnd draw s n e : ℤ) else roundInt rnd draw s n e) = z
    by_cases hl : z < -2 ^ (bits - 1)
    · rw [if_pos hl, clampInt_of_lt hl]
      rfl
    · by_cases hh : 2 ^ (bits - 1) - 1 < z
      · rw [if_neg hl, if_pos hh, clampInt_of_gt hh]
        rfl
      · rw [if_neg hl, if_neg hh, clampInt_of_mem (not_lt.mp hl) (not_lt.mp hh)]
        rfl

theorem clog_eq {n : Nat} (hn : n ≠ 0) (e : ℤ) :
    Int.clog 2 ((n : ℚ) * 2 ^ e) = Nat.log2 n + e + if n ≠ 2 ^ Nat.log2 n then 1 else 0 := by
  have hl : 2 ^ Nat.log2 n ≤ n := Nat.log2_self_le hn
  have hu : n < 2 ^ (Nat.log2 n + 1) := Nat.lt_log2_self
  generalize Nat.log2 n = l at *
  have hpow (j : ℕ) : (2 : ℚ) ^ ((j : ℤ) + e) = ((2 ^ j : ℕ) : ℚ) * 2 ^ e := by
    rw [zpow_add₀ two_ne_zero, zpow_natCast]
    push_cast
    rfl
  split
  · next h =>
    have hx : (0 : ℚ) < 2 ^ e := by positivity
    have h1 : ((2 : ℕ) : ℚ) ^ ((l : ℤ) + e) < n * 2 ^ e := by
      rw [Nat.cast_ofNat, hpow]
      exact mul_lt_mul_of_pos_right (by exact_mod_cast lt_of_le_of_ne hl (Ne.symm h)) hx
    have h2 : (n : ℚ) * 2 ^ e ≤ ((2 : ℕ) : ℚ) ^ ((l : ℤ) + e + 1) := by
      rw [Nat.cast_ofNat, add_right_comm, ← Nat.cast_succ, hpow]
      exact mul_le_mul_of_nonneg_right (by exact_mod_cast hu.le) hx.le
    have hp : (0 : ℚ) < n * 2 ^ e := mul_pos (by exact_mod_cast Nat.pos_of_ne_zero hn) hx
    have := (Int.zpow_lt_iff_lt_clog one_lt_two hp).mp h1
    have := (Int.le_zpow_iff_clog_le one_lt_two hp).mp h2
    omega
  · next h =>
    rw [not_not.mp h, ← hpow, ← Nat.cast_ofNat (R := ℚ) (n := 2), Int.clog_zpow one_lt_two, add_zero]

theorem toE8m0_eq (rnd : Rnd) (v : Machine.Num) : toE8m0 rnd v = intoScale rnd (toVal v) := by
  cases v with
  | nan | inf => rfl
  | fin s n e =>
    have h0 : finVal s n e ≤ 0 ↔ s = true ∨ n = 0 := by
      rw [le_iff_lt_or_eq, finVal_eq_zero]
      by_cases hn : n = 0
      · simp [hn]
      · rw [finVal_neg_iff hn]
    cases s with
    | true => simp only [toE8m0, toVal, intoScale, h0, true_or, if_true]
    | false =>
      simp only [toE8m0, toVal, intoScale, h0, Bool.false_eq_true, false_or]
      split
      · rfl
      · next hn =>
        have hk : (Nat.log2 n : ℤ) + e + 127 + (if rnd = .ru ∧ n ≠ 2 ^ Nat.log2 n then 1 else 0) =
            (if rnd = .ru then Int.clog 2 (finVal false n e) else Int.log 2 (finVal false n e)) + 127 := by
          have hlog := log_add (n := n) (e := e) (t := 0) (Nat.pos_of_ne_zero hn) le_rfl zero_lt_one
          rw [add_zero] at hlog
          rw [finVal, if_neg Bool.false_ne_true, clog_eq hn, hlog]
          split_ifs <;> grind
        rw [hk]

theorem mb_fltOf_pos (dst : Fmt) : 0 < (fltOf dst).mb := by cases dst <;> decide

theorem toFloat_eq (dst : Fmt) (widening : Bool) (rnd : Rnd) (sat : Bool) (draw : Nat) (v : Machine.Num) :
    toFloat dst widening rnd sat draw v = intoFloat dst widening rnd sat draw (toVal v) := by
  have hsp : ((fltOf dst).sp == .ieee) = true ↔ (fltOf dst).sp = .ieee := beq_iff_eq
  cases v with
  | nan => simp only [toFloat, toVal, intoFloat, Val.round, hsp]
  | inf s =>
    have hr := congrArg Prod.fst (roundNum_eq (fltOf dst) rnd (sat && !widening) draw (.inf s))
    simp only [toFloat, toVal, intoFloat, Bool.and_true, hsp] at hr ⊢
    rw [← hr, roundNum]
  | fin s n e =>
    have hr := roundNum_eq (fltOf dst) rnd sat draw (.fin s n e)
    have hf := flush_eq (roundNum_lt (mb_fltOf_pos dst) rnd sat draw (.fin s n e))
    simp only [toFloat, hf]
    rw [hr]
    simp [toVal, intoFloat]
    rfl

theorem convert_eq (src dst : Fmt) (rnd : Rnd) (sat : Bool) (draw c : Nat) :
    convert src dst rnd sat draw c = converted src dst rnd sat draw c := by
  simp only [convert, converted, sourceOf_eq, toInt_eq, toE8m0_eq, toFloat_eq]

theorem toE8m0_lt (rnd : Rnd) (v : Machine.Num) : (toE8m0 rnd v).1 < 256 := by
  unfold toE8m0
  split
  · dsimp only
    split_ifs <;> simp only <;> omega
  · decide

theorem toFloat_lt (dst : Fmt) (widening : Bool) (rnd : Rnd) (sat : Bool) (draw : Nat) (v : Machine.Num) :
    (toFloat dst widening rnd sat draw v).1 < 2 * (fltOf dst).signBit := by
  have hm := mb_fltOf_pos dst
  cases v with
  | nan => exact roundNum_lt hm rnd sat draw .nan
  | inf s => exact infResult_lt hm s _
  | fin s n e =>
    have hr := roundNum_lt hm rnd sat draw (.fin s n e)
    simp only [toFloat]
    split
    · exact flush_eq hr ▸ flushed_lt hr
    · exact hr

/-- A floating destination is as wide as its codes. -/
theorem signBit_fltOf_le {dst : Fmt} (hi : ¬ dst.isInt = true) (h8 : dst ≠ .e8m0) : 2 * (fltOf dst).signBit ≤ 2 ^ dst.bits := by
  revert hi h8
  cases dst <;> decide

/-- A converted element is a code of its destination's width. -/
theorem convert_lt (src dst : Fmt) (rnd : Rnd) (sat : Bool) (draw c : Nat) : (convert src dst rnd sat draw c).1 < 2 ^ dst.bits := by
  unfold convert
  dsimp only
  split
  · exact BitVec.isLt _
  · next hi =>
    split
    · next h => subst h; exact toE8m0_lt ..
    · next h8 => exact (toFloat_lt ..).trans_le (signBit_fltOf_le hi h8)

/-- A code as it stands in its register: INT8 and INT4 sign-extended to 32 bits (R263). -/
theorem regForm_eq (dst : Fmt) (c : Nat) : regForm dst c =
    BitVec.ofNat 64 (if dst = .int8 ∨ dst = .int4 then (BitVec.ofInt 32 (Int.bmod c (2 ^ dst.bits))).toNat else c) := by
  have hs (n : Nat) : ((BitVec.ofNat n c).signExtend 32).setWidth 64 = BitVec.ofNat 64 (BitVec.ofInt 32 (Int.bmod c (2 ^ n))).toNat := by
    rw [BitVec.ofNat_toNat, BitVec.signExtend, BitVec.toInt_ofNat']
  cases dst
  case int8 => exact hs 8
  case int4 => exact hs 4
  all_goals rfl

/-! ### The generator (R238) -/

theorem drawn_eq (st : W32) : drawn st = (lfsrStep st, lfsrDraw (lfsrStep st)) := by
  have hodd : st.getLsbD 0 = true ↔ st.toNat % 2 = 1 := by
    rw [← BitVec.testBit_toNat, Nat.testBit_zero, decide_eq_true_eq]
  have ht : (lfsrStep st).toNat = if st.toNat % 2 = 1 then (st.toNat / 2) ^^^ 0x80200003 else st.toNat / 2 := by
    unfold lfsrStep
    simp only [hodd]
    split
    · rw [BitVec.toNat_xor, BitVec.toNat_ushiftRight]
      rfl
    · rw [BitVec.toNat_ushiftRight]
      rfl
  simp only [drawn, ← ht, lfsrDraw]
  rw [BitVec.ofNat_toNat, BitVec.setWidth_eq, BitVec.toNat_ushiftRight, Nat.shiftRight_eq_div_pow]

/-! ### FCVTP (R264) -/

/-- The bits of two codes side by side. -/
theorem testBit_pair {n a b : Nat} (ha : a < 2 ^ n) (j : Nat) :
    (a + b * 2 ^ n).testBit j = if j < n then a.testBit j else b.testBit (j - n) := by
  rw [Nat.add_comm, Nat.mul_comm]
  exact Nat.testBit_two_pow_mul_add b ha j

theorem testBit_mul_pow (v i j : Nat) : (v * 2 ^ i).testBit j = (decide (i ≤ j) && v.testBit (j - i)) := by
  rw [← Nat.shiftLeft_eq, Nat.testBit_shiftLeft]

/-- The bits of the register after two codes are placed in its slot. -/
theorem getLsbD_placePair {dst : Fmt} {a b : Nat} (ha : a < 2 ^ dst.bits) (hb : b < 2 ^ dst.bits) (slot : Nat) (u : W32) {k : Nat}
    (hk : k < 32) : (placePair dst slot u a b).getLsbD k =
      if k / dst.bits = 2 * slot then a.testBit (k % dst.bits)
      else if k / dst.bits = 2 * slot + 1 then b.testBit (k % dst.bits) else u.getLsbD k := by
  have hn : 0 < dst.bits := by cases dst <;> decide
  simp only [placePair, BitVec.getLsbD_or, BitVec.getLsbD_and, BitVec.getLsbD_not, BitVec.getLsbD_ofNat, hk, decide_true, Bool.true_and,
    testBit_mul_pow, testBit_pair ha, Nat.testBit_two_pow_sub_one]
  generalize dst.bits = n at *
  have hkn := Nat.div_add_mod k n
  have hr := Nat.mod_lt k hn
  generalize k / n = q at *
  generalize k % n = r at *
  subst hkn
  have hq : 2 * slot * n = n * (2 * slot) := Nat.mul_comm ..
  rw [hq]
  rcases lt_trichotomy q (2 * slot) with h | rfl | h
  · have : n * (q + 1) ≤ n * (2 * slot) := Nat.mul_le_mul_left n h
    rw [Nat.mul_add] at this
    have h1 : ¬ n * (2 * slot) ≤ n * q + r := by omega
    simp [h1, h.ne, show q ≠ 2 * slot + 1 by omega]
  · simp [hr, show r < 2 * n by omega]
  · obtain ⟨d, rfl⟩ := Nat.exists_eq_add_of_lt h
    have hsub : n * (2 * slot + d + 1) + r - n * (2 * slot) = n * d + n + r := by
      rw [Nat.mul_add, Nat.mul_add]
      omega
    have hle : n * (2 * slot) ≤ n * (2 * slot + d + 1) + r := (Nat.mul_le_mul_left n h.le).trans (Nat.le_add_right ..)
    have hge : ¬ n * d + n + r < n := by omega
    rw [hsub]
    rcases Nat.eq_zero_or_pos d with rfl | hd
    · rw [Nat.add_zero] at hle
      simp [hle, show n + r < 2 * n by omega, show n + r - n = r by omega]
    · have hnd : n ≤ n * d := Nat.le_mul_of_pos_right n hd
      have hz : b.testBit (n * d + n + r - n) = false :=
        Nat.testBit_lt_two_pow (hb.trans_le (Nat.pow_le_pow_right two_pos (by omega)))
      simp [hge, hz, show ¬ n * d + n + r < 2 * n by omega, show ¬ 2 * slot + d + 1 = 2 * slot by omega, hd.ne']

/-! ### The two instructions -/

section Instructions
variable {s : State} {x : Ex} {c : Ctl} {rnd : Rnd} {sat : Bool} {src dst : Fmt} {slot : BitVec 2} {d a b u : Spec}

theorem exec_fcvt (h : runsAs s (.fcvt c rnd sat src dst d a) x) : exec (.fcvt c rnd sat src dst d a) s =
    .next (withEvents x (eventsOf x.lanes fun l => (fcvtVal x rnd sat src dst a l).2) s (retire x c
      ((if dst = .int64 then x.body.sendW x.exec d fun l => (fcvtVal x rnd sat src dst a l).1
        else x.body.sendV x.exec d fun l => lo32 (fcvtVal x rnd sat src dst a l).1).stepGen x.exec (if rnd = .sr then 1 else 0)))) :=
  exec_runs h rfl rfl

theorem exec_fcvtp (h : runsAs s (.fcvtp c rnd sat dst slot d a b u) x) : exec (.fcvtp c rnd sat dst slot d a b u) s =
    .next (withEvents x (eventsOf x.lanes fun l => (fcvtpVal x rnd sat dst slot a b u l).2) s (retire x c
      ((x.body.sendV x.exec d fun l => (fcvtpVal x rnd sat dst slot a b u l).1).stepGen x.exec (if rnd = .sr then 2 else 0)))) :=
  exec_runs h rfl rfl

end Instructions

/-- Settles O11: each conversion is that of its exact source value, with the draws of the lane's generator. -/
theorem conversionResults : Obligations.ConversionResults := by
  unfold Obligations.ConversionResults
  refine ⟨fun s x c rnd sat src dst slot d a b u => ⟨fun h => ⟨fun hn => ?_, fun e he => ?_⟩, fun h => ⟨fun hn => ?_, fun e he => ?_⟩⟩,
    fun x rnd sat src dst slot a b u l => ⟨?_, fun _ => ⟨?_, fun k hk => ?_⟩⟩⟩
  · rw [exec_fcvt h, withEvents_of_no_trap hn]
  · rw [exec_fcvt h, withEvents_of_trap he]
  · rw [exec_fcvtp h, withEvents_of_no_trap hn]
  · rw [exec_fcvtp h, withEvents_of_trap he]
  · simp only [drawn_eq, ← convert_eq]
    rw [fcvtVal, regForm_eq]
  · simp only [drawn_eq, ← convert_eq]
    rfl
  · simp only [drawn_eq, ← convert_eq]
    exact getLsbD_placePair (convert_lt ..) (convert_lt ..) slot.toNat _ hk

end Sys2Proof.Laws
end

section
/-! SUPPORT: the instructions of the matrix slice that step, prune and quantise (R267, R273, R278, R280, R281, R284). -/

namespace Sys2Proof.Laws

open Sys2Proof Sys2Proof.Machine Sys2Proof.Safety

-- One theorem after another, as in the tests: the check's memory holds few more stacks.
set_option Elab.async false

section Steps
variable {s s1 : State} {x : Ex} {c : Ctl} {sat x2 : Bool} {m a b v d : Spec} {rnd : Rnd} {role : Role} {fmt : FrameFmt}

/-- The two ends of an instruction with events: its effect under their log, or the trap (R244). -/
theorem ends_of_withEvents {i : Instr} {evs : Events} {k : State → State} (h : exec i s = .next (withEvents x evs s1 k)) :
    (trapOf (ctlOf s1 (ctxOf s1 x.ref)) evs = none → exec i s = .next (k (logEvents s1 x.ref x.pc evs))) ∧
    (∀ e, trapOf (ctlOf s1 (ctxOf s1 x.ref)) evs = some e → exec i s = .next (faultUnit s1 x.ref x.grp.mask x.pc
      { cause := .arithTrap, addr := 0, mask := e.2, detail := BitVec.ofNat 32 e.1.code, exact := false })) :=
  ⟨fun hn => by rw [h, withEvents_of_no_trap hn], fun _ he => by rw [h, withEvents_of_trap he]⟩

/-! ### Several accumulators -/

theorem onAccs_none {i : Instr} {k : State} {ms : List Nat} (h : ms.find? (fun n => (accOf s (teamOf s x.ref) x.quarter n).inflight) = none) :
    onAccs i ms x s k = k := by
  simp only [onAccs, h]

theorem onAccs_some {i : Instr} {k : State} {ms : List Nat} {n : Nat}
    (h : ms.find? (fun n => (accOf s (teamOf s x.ref) x.quarter n).inflight) = some n) :
    onAccs i ms x s k = waitEx x (.accumulator n) i s := by
  simp only [onAccs, h]

theorem readAccs_all {ms : List Nat} {k : State → State} (h : (ms.flatMap (accParity s x.quarter)).all (·.reread) = true) :
    readAccs ms x s k = k (metParity s (ms.flatMap (accParity s x.quarter))) := by
  have hno : (ms.flatMap (accParity s x.quarter)).any (fun p => !p.reread) = false := by simpa using h
  simp only [readAccs, hno, Bool.false_eq_true, ↓reduceIte]

theorem readAccs_any {ms : List Nat} {k : State → State} (h : (ms.flatMap (accParity s x.quarter)).any (fun p => !p.reread) = true) :
    readAccs ms x s k = faultOnce x (.poison, 0) (metParity s (ms.flatMap (accParity s x.quarter))) := by
  simp only [readAccs, h, ↓reduceIte]

/-! ### MMA -/

/-- MMA once its accumulator is read: its frames are read and judged, then the step is made (R278, R280). -/
def denseStep (x : Ex) (c : Ctl) (sat : Bool) (m a b : Spec) (s : State) : State :=
  match framesIn s (teamOf s x.ref) [(x.w a x.low).toNat, (x.w b x.low).toNat] [] with
  | .error e => faultOnce x e s
  | .ok (fa :: fb :: _) =>
    let acc := accOf s (teamOf s x.ref) x.quarter m.toNat
    if !denseOk fa fb then faultOnce x (.frameFormat, misfit false fa fb (x.w a x.low).toNat (x.w b x.low).toNat) s
    else if typeClash acc fa.fmt then faultOnce x (.mmaType, 0) s
    else withEvents x ((stepAcc sat fa.asA fb acc).2.map fun e => (e, x.exec)) s fun s =>
      retireEnd x c x.body (putAcc s (teamOf s x.ref) x.quarter m.toNat (stepAcc sat fa.asA fb acc).1)
  | .ok _ => s

theorem exec_mma (h : runsAs s (.mma c sat m a b) x) : exec (.mma c sat m a b) s = .next (onAccs (.mma c sat m a b) [m.toNat] x s
    (onFrames (.mma c sat m a b) [(x.w a x.low).toNat, (x.w b x.low).toNat] x s
      (readAccs [m.toNat] x s (denseStep x c sat m a b)))) :=
  exec_runs h rfl rfl

theorem denseStep_steps {fa fb : Machine.Frm} {rest : List Machine.Frm}
    (hf : framesIn s (teamOf s x.ref) [(x.w a x.low).toNat, (x.w b x.low).toNat] [] = .ok (fa :: fb :: rest))
    (hd : denseOk fa fb = true) (ht : typeClash (accOf s (teamOf s x.ref) x.quarter m.toNat) fa.fmt = false) :
    denseStep x c sat m a b s =
      withEvents x ((stepAcc sat fa.asA fb (accOf s (teamOf s x.ref) x.quarter m.toNat)).2.map fun e => (e, x.exec)) s fun t =>
        retireEnd x c x.body (putAcc t (teamOf t x.ref) x.quarter m.toNat
          (stepAcc sat fa.asA fb (accOf s (teamOf s x.ref) x.quarter m.toNat)).1) := by
  simp only [denseStep, hf, hd, ht, Bool.not_true, Bool.false_eq_true, ↓reduceIte]

/-! ### MMAS -/

/-- The addresses of the frames of MMAS: A and B, and for a double step those beside them (R280). -/
def sparseVas (x : Ex) (x2 : Bool) (a b : Spec) : List Nat :=
  let va := (x.w a x.low).toNat
  let vb := (x.w b x.low).toNat
  if x2 then [va, vb, (va + 576) % 2 ^ 64, (vb + 576) % 2 ^ 64] else [va, vb]

/-- The pairs of frames that MMAS steps, each with the half of the metadata that it takes. -/
def sparsePairs (fs : List Machine.Frm) : List (Machine.Frm × Machine.Frm × Nat) :=
  match fs with
  | a0 :: b0 :: a1 :: b1 :: _ => [(a0, b0, 0), (a1, b1, 1)]
  | a0 :: b0 :: _ => [(a0, b0, 0)]
  | _ => []

/-- The steps of the pairs one after another, with their events. -/
def sparseSteps (x : Ex) (sat x2 : Bool) (v : Spec) (acc : Acc) (hs : List (Machine.Frm × Machine.Frm × Nat)) : Acc × List Arith :=
  hs.foldl (fun acc h =>
    ((stepAcc sat (sparseA h.1 (metaWords x x2 v h.2.2)) h.2.1 acc.1).1,
      acc.2 ++ (stepAcc sat (sparseA h.1 (metaWords x x2 v h.2.2)) h.2.1 acc.1).2)) ((acc, []) : Acc × List Arith)

/-- MMAS with its frames read: they are judged, with the metadata, then the steps are made (R278, R280). -/
def sparseOn (x : Ex) (c : Ctl) (sat x2 : Bool) (m a b v : Spec) (hs : List (Machine.Frm × Machine.Frm × Nat)) (s : State) : State :=
  let acc := accOf s (teamOf s x.ref) x.quarter m.toNat
  if let some h := hs.find? fun h => !sparseOk h.1 h.2.1 then
    faultOnce x (.frameFormat, misfit true h.1 h.2.1 ((x.w a x.low).toNat + 576 * h.2.2) ((x.w b x.low).toNat + 576 * h.2.2)) s
  else if (hs.any fun h => typeClash acc h.1.fmt) || (hs.any fun h => hs.any fun k => frInt h.1.fmt != frInt k.1.fmt) then
    faultOnce x (.mmaType, 0) s
  else if hs.any fun h => halfBad (metaWords x x2 v h.2.2) then faultOnce x (.sparseMeta, 0) s
  else withEvents x ((sparseSteps x sat x2 v acc hs).2.eraseDups.map fun e => (e, x.exec)) s fun s =>
    retireEnd x c x.body (putAcc s (teamOf s x.ref) x.quarter m.toNat (sparseSteps x sat x2 v acc hs).1)

/-- MMAS once its accumulator is read. -/
def sparseStep (x : Ex) (c : Ctl) (sat x2 : Bool) (m a b v : Spec) (s : State) : State :=
  if notW32 s x then faultOnce x (.illegalWidth, 0) s
  else match framesIn s (teamOf s x.ref) (sparseVas x x2 a b) [] with
    | .error e => faultOnce x e s
    | .ok fs => sparseOn x c sat x2 m a b v (sparsePairs fs) s

theorem exec_mmas (h : runsAs s (.mmas c sat x2 m a b v) x) : exec (.mmas c sat x2 m a b v) s =
    .next (onAccs (.mmas c sat x2 m a b v) [m.toNat] x s (onFrames (.mmas c sat x2 m a b v) (sparseVas x x2 a b) x s
      (readAccs [m.toNat] x s (sparseStep x c sat x2 m a b v)))) :=
  exec_runs h rfl rfl

theorem sparseStep_steps {fs : List Machine.Frm} (hw : notW32 s x = false)
    (hf : framesIn s (teamOf s x.ref) (sparseVas x x2 a b) [] = .ok fs)
    (hd : ∀ h ∈ sparsePairs fs, sparseOk h.1 h.2.1 = true)
    (ht : ∀ h ∈ sparsePairs fs, typeClash (accOf s (teamOf s x.ref) x.quarter m.toNat) h.1.fmt = false)
    (hi : ∀ h ∈ sparsePairs fs, ∀ k ∈ sparsePairs fs, frInt h.1.fmt = frInt k.1.fmt)
    (hm : ∀ h ∈ sparsePairs fs, halfBad (metaWords x x2 v h.2.2) = false) :
    sparseStep x c sat x2 m a b v s =
      withEvents x ((sparseSteps x sat x2 v (accOf s (teamOf s x.ref) x.quarter m.toNat) (sparsePairs fs)).2.eraseDups.map
          fun e => (e, x.exec)) s fun t =>
        retireEnd x c x.body (putAcc t (teamOf t x.ref) x.quarter m.toNat
          (sparseSteps x sat x2 v (accOf s (teamOf s x.ref) x.quarter m.toNat) (sparsePairs fs)).1) := by
  have h1 : (sparsePairs fs).find? (fun h => !sparseOk h.1 h.2.1) = none := List.find?_eq_none.mpr fun h hh => by simp [hd h hh]
  have h2 : (sparsePairs fs).any (fun h => typeClash (accOf s (teamOf s x.ref) x.quarter m.toNat) h.1.fmt) = false :=
    List.any_eq_false.mpr fun h hh => by simp [ht h hh]
  have h3 : (sparsePairs fs).any (fun h => (sparsePairs fs).any fun k => frInt h.1.fmt != frInt k.1.fmt) = false :=
    List.any_eq_false.mpr fun h hh => by simpa using fun k hk => hi h hh k hk
  have h4 : (sparsePairs fs).any (fun h => halfBad (metaWords x x2 v h.2.2)) = false :=
    List.any_eq_false.mpr fun h hh => by simp [hm h hh]
  simp only [sparseStep, hw, hf, sparseOn, h1, h2, h3, h4, Bool.or_self, Bool.false_eq_true, ↓reduceIte]

/-! ### MCOMP -/

/-- MCOMP once nothing keeps it waiting: its frame is read and judged, then pruned (R278, R281). -/
def pruneStep (x : Ex) (c : Ctl) (d a b : Spec) (s : State) : State :=
  if notW32 s x then faultOnce x (.illegalWidth, 0) s
  else match framesIn s (teamOf s x.ref) [(x.w a x.low).toNat] [((x.w b x.low).toNat, 576)] with
    | .error e => faultOnce x e s
    | .ok (f :: _) =>
      if f.role != .a || f.sparse || !frSparse f.fmt then faultOnce x (.frameFormat, (x.w a x.low).toNat) s
      else retire x c (x.body.sendV x.exec d (pruneFrame f).2)
        (frameWrite s (teamOf s x.ref) (x.w b x.low).toNat x.ref (pruneFrame f).1)
    | .ok [] => s

theorem exec_mcomp (h : runsAs s (.mcomp c d a b) x) : exec (.mcomp c d a b) s =
    .next (onFrames (.mcomp c d a b) [(x.w a x.low).toNat] x s (pruneStep x c d a b s)) :=
  exec_runs h rfl rfl

theorem pruneStep_prunes {f : Machine.Frm} {rest : List Machine.Frm} (hw : notW32 s x = false)
    (hf : framesIn s (teamOf s x.ref) [(x.w a x.low).toNat] [((x.w b x.low).toNat, 576)] = .ok (f :: rest)) (hr : f.role = .a)
    (hd : f.sparse = false) (hs : frSparse f.fmt = true) : pruneStep x c d a b s =
      retire x c (x.body.sendV x.exec d (pruneFrame f).2)
        (frameWrite s (teamOf s x.ref) (x.w b x.low).toNat x.ref (pruneFrame f).1) := by
  simp only [pruneStep, hw, hf, hr, hd, hs, bne_self_eq_false, Bool.or_self, Bool.not_true, Bool.false_eq_true, ↓reduceIte]

/-! ### MQNT -/

/-- The FP32 code that MQNT quantises at a row or column and a K index (R284). -/
def quantSource (x : Ex) (role : Role) (m : Spec) (team : Option Nat) (s : State) (r k : Nat) : Nat :=
  ((match role with
    | .a => (accOf s team x.quarter (m.toNat + k / 16)).read r (k % 16)
    | _ => (accOf s team x.quarter (m.toNat + k / 16)).read (k % 16) r) : W32).toNat

/-- MQNT once its accumulators are read: the range and the types are judged, then the frame is made (R278, R284). -/
def quantStep (x : Ex) (c : Ctl) (rnd : Rnd) (role : Role) (fmt : FrameFmt) (m b : Spec) (team : Option Nat) (s : State) : State :=
  match frameChecks s team [(64, (x.w b x.low).toNat, frBytes fmt)] with
  | some e => faultOnce x e s
  | none =>
    if (quantAccs fmt m).any fun i => (accOf s team x.quarter i).int then faultOnce x (.mmaType, 0) s
    else
      let r := quantFrame fmt role rnd (quantSource x role m team s) (x.gen x.low)
      withEvents x (if r.2.1 then [(.quantSpecial, x.exec)] else []) s fun s =>
        retire x c (x.body.setGen x.low r.2.2) (frameWrite s team (x.w b x.low).toNat x.ref r.1)

theorem exec_mqnt (h : runsAs s (.mqnt c rnd role fmt m b) x) : exec (.mqnt c rnd role fmt m b) s =
    .next (onAccs (.mqnt c rnd role fmt m b) (quantAccs fmt m) x s
      (readAccs (quantAccs fmt m) x s (quantStep x c rnd role fmt m b (teamOf s x.ref)))) :=
  exec_runs h rfl rfl

theorem quantStep_quantises {team : Option Nat} (hc : frameChecks s team [(64, (x.w b x.low).toNat, frBytes fmt)] = none)
    (hi : ∀ n ∈ quantAccs fmt m, (accOf s team x.quarter n).int = false) : quantStep x c rnd role fmt m b team s =
      let r := quantFrame fmt role rnd (quantSource x role m team s) (x.gen x.low)
      withEvents x (if r.2.1 then [(.quantSpecial, x.exec)] else []) s fun t =>
        retire x c (x.body.setGen x.low r.2.2) (frameWrite t team (x.w b x.low).toNat x.ref r.1) := by
  have hno : (quantAccs fmt m).any (fun i => (accOf s team x.quarter i).int) = false :=
    List.any_eq_false.mpr fun n hn => by simp [hi n hn]
  simp only [quantStep, hc, hno, Bool.false_eq_true, ↓reduceIte]

end Steps

end Sys2Proof.Laws
end

section
/-! SUPPORT: the value of a step of the matrix slice (R232, R233, R235, R266, R268, R274, R275). -/

namespace Sys2Proof.Laws

open Sys2Proof Sys2Proof.Machine Sys2Proof.Safety

-- One theorem after another, as in the tests: the check's memory holds few more stacks.
set_option Elab.async false

/-! ### Terms (R274) -/

theorem elemVal_eq (f : FrameFmt) (c : Nat) : elemVal f c = toVal (frValue f c) := by
  have hint (n : Nat) : toVal (ofIntExp (intOf n c) 0) = .num (Int.bmod c (2 ^ n) : ℤ) (decide (Int.bmod c (2 ^ n) < 0)) := by
    rw [toVal_ofInt, intOf_eq]
  cases f
  case int8 | mxint8 | int4 | accS32 => exact (hint _).symm
  all_goals exact valOf_eq ..

theorem frIntVal_eq (f : FrameFmt) (c : Nat) : frIntVal f c = elemInt f c := intOf_eq ..

theorem pairsOf_eq (a : StepA) (i : Nat) : pairsOf a i = pairs a i := by
  unfold pairsOf pairs
  congr 1
  funext k
  cases a.elem i k <;> rfl

/-- A value times a power of two. -/
def shiftNum (d : ℤ) : Machine.Num → Machine.Num
  | .fin s n e => .fin s n (e + d)
  | v => v

theorem toVal_shiftNum (d : ℤ) (v : Machine.Num) : toVal (shiftNum d v) = (toVal v).shift d := by
  cases v with
  | nan | inf => rfl
  | fin s n e =>
    rw [shiftNum, toVal, toVal, Val.shift, finVal, finVal, zpow_add₀ two_ne_zero]
    cases s <;> simp [mul_assoc]

/-- A term: nothing where the product is none, a NaN under a scale of 0xFF, else the product under its scales. -/
theorem termOf_cases (a : StepA) (b : Machine.Frm) (i j k c : Nat) : termOf a b i j k c =
    if !frMx a.fmt then (frValue a.fmt c).mul (frValue b.fmt (b.elem j k))
    else if a.scale i (k / 32) = 255 ∨ b.scale j (k / 32) = 255 then some .nan
    else ((frValue a.fmt c).mul (frValue b.fmt (b.elem j k))).map (shiftNum ((a.scale i (k / 32) : ℤ) + b.scale j (k / 32) - 254)) := by
  unfold termOf
  cases (frValue a.fmt c).mul (frValue b.fmt (b.elem j k)) with
  | none => cases frMx a.fmt <;> simp
  | some v =>
    cases frMx a.fmt
    · rfl
    · simp only [Bool.not_true, Bool.false_eq_true, if_false, if_true, Option.map_some]
      split
      · rfl
      · cases v with
        | nan | inf => rfl
        | fin s n e => simp only [shiftNum, add_sub_assoc, add_assoc]

theorem termAt_eq (a : StepA) (b : Machine.Frm) (i j : Nat) (p : Nat × Nat) :
    termAt a b i j p = (termOf a b i j p.1 p.2).map toVal := by
  have hs (d : ℤ) : toVal ∘ shiftNum d = Val.shift d ∘ toVal := funext (toVal_shiftNum d)
  rw [termOf_cases, termAt, elemVal_eq, elemVal_eq, ← toVal_mul]
  cases frMx a.fmt
  · rfl
  · simp only [Bool.not_true, Bool.false_eq_true, if_false]
    split
    · rfl
    · rw [Option.map_map, Option.map_map, hs]

theorem foldl_add_eq (α : Type) (g : α → ℤ) (l : List α) (z : ℤ) : l.foldl (fun z p => z + g p) z = z + (l.map g).sum := by
  induction l generalizing z with
  | nil => simp
  | cons p l ih => rw [List.foldl_cons, ih, List.map_cons, List.sum_cons, add_assoc]

theorem frCls_eq_mi8 (f : FrameFmt) : frCls f = .mi8 ↔ f = .mxint8 := by cases f <;> decide

theorem termsAt_eq (a : StepA) (b : Machine.Frm) (i j : Nat) : termsAt a b i j = (stepTerms a b i j).map (Option.map toVal) := by
  unfold termsAt stepTerms
  simp only [frCls_eq_mi8, pairsOf_eq, ne_eq, ite_not]
  split
  · simp only [List.isEmpty_iff]
    split
    · rfl
    · simp only [foldl_add_eq, zero_add, frIntVal_eq, List.map_cons, List.map_nil, Option.map_some]
      split
      · rfl
      · rw [toVal_ofIntExp, Val.shift]
  · rw [List.map_map]
    exact List.map_congr_left fun p _ => termAt_eq a b i j p

/-! ### The sum of terms (R274) -/

theorem log_finVal {n : Nat} (hn : n ≠ 0) (s : Bool) (e : ℤ) : Int.log 2 |finVal s n e| = Nat.log2 n + e := by
  have h := log_add (n := n) (e := e) (t := 0) (Nat.pos_of_ne_zero hn) le_rfl zero_lt_one
  rwa [add_zero, ← abs_finVal s] at h

theorem truncTo_fin (g : ℤ) (s : Bool) (n : Nat) (e : ℤ) : truncTo g (.fin s n e) =
    if finVal s n e < 0 then -⌊-finVal s n e / 2 ^ g⌋ else ⌊finVal s n e / 2 ^ g⌋ := by
  have hb : Below false .rz (g - e).natAbs 0 := rfl
  have hfl := floor_eq_lowSteps (n := n) hb nofun
  have ht : truncTo g (.fin s n e) = if s then -(lowSteps n e g : ℤ) else lowSteps n e g := by
    have hle : g ≤ e ↔ g - e ≤ 0 := by omega
    have habs : (e - g).natAbs = (g - e).natAbs := by omega
    simp only [truncTo, lowSteps, hle, habs]
  rw [add_zero] at hfl
  rw [ht, ← hfl]
  by_cases hn : n = 0
  · simp [hn, finVal]
  · simp only [finVal_neg_iff hn]
    cases s <;> simp [finVal]

/-- The numbers among values. -/
def numbers (vs : List Val) : List ℚ := vs.filterMap fun t => match t with | .num x _ => some x | _ => none

/-- The exponents of the nonzero finite values. -/
def topsOf (ts : List Machine.Num) : List ℤ := ts.filterMap fun t => match t with
  | .fin _ n e => if n = 0 then none else some ((Nat.log2 n : ℤ) + e)
  | _ => none

theorem logs_eq_topsOf (ts : List Machine.Num) :
    ((numbers (ts.map toVal)).filter (· ≠ 0)).map (fun x => Int.log 2 |x|) = topsOf ts := by
  induction ts with
  | nil => rfl
  | cons t ts ih =>
    cases t with
    | nan | inf => exact ih
    | fin s n e =>
      have hc : numbers ((Machine.Num.fin s n e :: ts).map toVal) = finVal s n e :: numbers (ts.map toVal) := rfl
      have ht : topsOf (.fin s n e :: ts) = if n = 0 then topsOf ts else ((Nat.log2 n : ℤ) + e) :: topsOf ts := by
        unfold topsOf
        rw [List.filterMap_cons]
        split <;> split at * <;> simp_all
      rw [hc, ht]
      split
      · next hn => rw [List.filter_cons_of_neg (by simp [hn]), ih]
      · next hn => rw [List.filter_cons_of_pos (by simp [hn]), List.map_cons, ih, log_finVal hn]

theorem sum_truncTo (g : ℤ) (ts : List Machine.Num) : (ts.map (truncTo g)).sum =
    ((numbers (ts.map toVal)).map fun x => if x < 0 then -⌊-x / 2 ^ g⌋ else ⌊x / 2 ^ g⌋).sum := by
  induction ts with
  | nil => rfl
  | cons t ts ih =>
    rw [List.map_cons, List.sum_cons, ih]
    cases t with
    | nan | inf => exact zero_add _
    | fin s n e => rw [truncTo_fin]; rfl

theorem stepSum_eq {ts : List Machine.Num} (h : ∀ s, Machine.Num.inf s ∉ ts) : toVal (stepSum ts) = truncSum (ts.map toVal) := by
  have hmax := congrArg List.max? (logs_eq_topsOf ts)
  have hall : ts.all Machine.Num.isNeg = (ts.map toVal).all fun t => match t with | .num _ neg => neg | _ => false := by
    rw [List.all_map, Bool.eq_iff_iff, List.all_eq_true, List.all_eq_true]
    refine forall₂_congr fun t ht => ?_
    cases t with
    | nan | fin => exact Iff.rfl
    | inf s => exact absurd ht (h s)
  have hs : stepSum ts = match topsOf ts with
      | [] => .fin (ts.all Machine.Num.isNeg) 0 0
      | t :: r => if ts.foldl (fun z x => z + truncTo (r.foldl max t - 34) x) 0 = 0 then .fin false 0 0
        else ofIntExp (ts.foldl (fun z x => z + truncTo (r.foldl max t - 34) x) 0) (r.foldl max t - 34) := rfl
  have ht : truncSum (ts.map toVal) = match (((numbers (ts.map toVal)).filter (· ≠ 0)).map fun x => Int.log 2 |x|).max? with
      | none => .num 0 ((ts.map toVal).all fun t => match t with | .num _ neg => neg | _ => false)
      | some e =>
        let z := ((numbers (ts.map toVal)).map fun x => if x < 0 then -⌊-x / 2 ^ (e - 34)⌋ else ⌊x / 2 ^ (e - 34)⌋).sum
        .num (z * 2 ^ (e - 34)) (decide (z < 0)) := rfl
  rw [hs, ht, hmax]
  cases topsOf ts with
  | nil => simp [toVal, finVal, hall]
  | cons t r =>
    rw [List.max?_cons']
    simp only [foldl_add_eq, zero_add, sum_truncTo]
    split
    · next hz => simp [hz, toVal, finVal]
    · exact toVal_ofIntExp ..

/-! ### Elements (R266, R274) -/

/-- The signs of the infinities among values. -/
def infinities (vs : List Val) : List Bool := vs.filterMap fun v => match v with | .inf s => some s | _ => none

def infSigns (ts : List Machine.Num) : List Bool := ts.filterMap fun v => match v with | .inf s => some s | _ => none

theorem infinities_eq (ts : List Machine.Num) : infinities (ts.map toVal) = infSigns ts := by
  rw [infinities, infSigns, List.filterMap_map]
  congr 1
  funext v
  cases v <;> rfl

theorem any_isNan_eq (ts : List Machine.Num) : ts.any Machine.Num.isNan = true ↔ Val.nan ∈ ts.map toVal := by
  rw [List.any_eq_true, List.mem_map]
  refine exists_congr fun v => and_congr_right fun _ => ?_
  cases v <;> simp [Machine.Num.isNan, toVal]

/-- A result under `.sat`: an infinity becomes the greatest number (R274). -/
def satResult (sat : Bool) (r : Nat × Option Arith) : W32 × Option Arith :=
  if infAt fp32 r.1 = true ∧ sat = true then (BitVec.ofNat 32 (r.1 - 1), some .accSat) else (BitVec.ofNat 32 r.1, r.2)

theorem infAt_fp32 (c : Nat) : infAt fp32 c = true ↔ c % 2 ^ 31 = fp32.infCode := by
  rw [infAt_iff]
  exact and_iff_right rfl

/-- Infinities of both signs: one that is not of the first's. -/
theorem both_signs (s : Bool) (r : List Bool) : r.any (· != s) = true ↔ true ∈ s :: r ∧ false ∈ s :: r := by
  rw [List.any_eq_true]
  cases s <;> simp

theorem stepF32_cases (sat : Bool) (c : W32) (ts : List (Option Machine.Num)) : stepF32 sat c ts =
    if ts.isEmpty then (c, none)
    else if (fp32.value c.toNat).isNan ∨ (ts.filterMap id).any Machine.Num.isNan then (0x7FC00000, none)
    else if ts.any Option.isNone then (0x7FC00000, some .invalid)
    else match infSigns (fp32.value c.toNat :: ts.filterMap id) with
      | s :: r => if r.any (· != s) then (0x7FC00000, some .invalid) else satResult sat (fp32.signed s fp32.infCode, none)
      | [] => satResult sat (finish fp32 .rne ((fp32.value c.toNat).add .rne (stepSum (ts.filterMap id)))) := by
  simp only [satResult, infAt_fp32]
  rfl

theorem steppedF32_cases (sat : Bool) (c : W32) (ts : List (Option Val)) : steppedF32 sat c ts =
    if ts = [] then (c, none)
    else if Val.nan ∈ valOf fp32 c.toNat :: ts.filterMap id then (0x7FC00000, none)
    else if none ∈ ts ∨ (true ∈ infinities (valOf fp32 c.toNat :: ts.filterMap id) ∧
      false ∈ infinities (valOf fp32 c.toNat :: ts.filterMap id)) then (0x7FC00000, some .invalid)
    else match infinities (valOf fp32 c.toNat :: ts.filterMap id) with
      | s :: _ => satResult sat (codeWith fp32 s fp32.infCode, none)
      | [] => satResult sat (outcome fp32 .rne (addVals .rne (valOf fp32 c.toNat) (truncSum (ts.filterMap id)))) := by
  have h : steppedF32 sat c ts =
    if ts = [] then (c, none)
    else if Val.nan ∈ valOf fp32 c.toNat :: ts.filterMap id then (0x7FC00000, none)
    else if none ∈ ts ∨ (true ∈ infinities (valOf fp32 c.toNat :: ts.filterMap id) ∧
      false ∈ infinities (valOf fp32 c.toNat :: ts.filterMap id)) then (0x7FC00000, some .invalid)
    else satResult sat (match (infinities (valOf fp32 c.toNat :: ts.filterMap id)).head? with
      | some s => (codeWith fp32 s fp32.infCode, none)
      | none => outcome fp32 .rne (addVals .rne (valOf fp32 c.toNat) (truncSum (ts.filterMap id)))) := rfl
  rw [h]
  cases infinities (valOf fp32 c.toNat :: ts.filterMap id) <;> rfl

theorem stepF32_eq (sat : Bool) (c : W32) (ts : List (Option Machine.Num)) :
    stepF32 sat c ts = steppedF32 sat c (ts.map (Option.map toVal)) := by
  have hvs : (ts.map (Option.map toVal)).filterMap id = (ts.filterMap id).map toVal := by
    rw [List.filterMap_map, List.map_filterMap]
    congr 1
  have hnan : (fp32.value c.toNat).isNan = true ∨ (ts.filterMap id).any Machine.Num.isNan = true ↔
      Val.nan ∈ valOf fp32 c.toNat :: (ts.filterMap id).map toVal := by
    rw [valOf_eq, ← List.map_cons, ← any_isNan_eq, List.any_cons, Bool.or_eq_true]
  have hnone : ts.any Option.isNone = true ↔ none ∈ ts.map (Option.map toVal) := by
    simp [List.any_eq_true, Option.isNone_iff_eq_none]
  have hinf : infinities (valOf fp32 c.toNat :: (ts.filterMap id).map toVal) = infSigns (fp32.value c.toNat :: ts.filterMap id) := by
    rw [valOf_eq, ← List.map_cons, infinities_eq]
  rw [stepF32_cases, steppedF32_cases, hvs, hinf]
  simp only [List.isEmpty_iff, List.map_eq_nil_iff, hnan, hnone]
  split
  · rfl
  split
  · rfl
  cases hi : infSigns (fp32.value c.toNat :: ts.filterMap id) with
  | cons s r =>
    simp only [← both_signs, codeWith_eq]
    by_cases hn : none ∈ ts.map (Option.map toVal)
    · simp only [hn, true_or, if_true]
    · simp only [hn, false_or, if_false]
  | nil =>
    have hno (s : Bool) : Machine.Num.inf s ∉ ts.filterMap id := by
      intro hs
      have : s ∈ infSigns (fp32.value c.toNat :: ts.filterMap id) := List.mem_filterMap.mpr ⟨_, List.mem_cons_of_mem _ hs, rfl⟩
      rw [hi] at this
      exact List.not_mem_nil this
    simp only [List.not_mem_nil, and_false, or_false, finish_eq, toVal_add, stepSum_eq hno, valOf_eq]

theorem stepS32_eq (sat : Bool) (c : W32) (ts : List ℤ) : stepS32 sat c ts = steppedS32 sat c ts.sum := by
  have hz : ts.foldl (· + ·) c.toInt = c.toInt + ts.sum := by
    have := foldl_add_eq ℤ id ts c.toInt
    rwa [List.map_id] at this
  unfold stepS32 steppedS32
  rw [hz]
  generalize c.toInt + ts.sum = z
  cases sat
  · simp only [Bool.false_eq_true, false_and, if_false]
  · simp only [true_and, if_true]
    by_cases hl : z < -2 ^ 31
    · rw [if_pos hl, clampInt_of_lt hl]
      rfl
    · by_cases hh : 2 ^ 31 ≤ z
      · rw [if_neg hl, if_pos hh, clampInt_of_gt (show (2 : ℤ) ^ 31 - 1 < z by omega)]
        rfl
      · rw [if_neg hl, if_neg hh, clampInt_of_mem (not_lt.mp hl) (show z ≤ (2 : ℤ) ^ 31 - 1 by omega)]
        rfl

/-- An element of a step is what R274 gives from its terms. -/
theorem stepElem_eq (sat : Bool) (a : StepA) (b : Machine.Frm) (c : W32) (i j : Nat) : stepElem sat a b c i j = stepped sat a b c i j := by
  simp only [stepElem, stepped, pairsOf_eq, frIntVal_eq, stepS32_eq, stepF32_eq, termsAt_eq]

/-- A step into an accumulator: its flags, its type, its elements and its events. -/
theorem stepAcc_spec (sat : Bool) (a : StepA) (b : Machine.Frm) (old : Acc) :
    (stepAcc sat a b old).1.valid = true ∧ (stepAcc sat a b old).1.dirty = true ∧ (stepAcc sat a b old).1.int = frInt a.fmt ∧
    (stepAcc sat a b old).1.inflight = old.inflight ∧
    (∀ i j, i < 16 → j < 16 → (stepAcc sat a b old).1.read i j = (stepped sat a b (old.read i j) i j).1) ∧
    (stepAcc sat a b old).2 = ((List.range 256).filterMap fun n =>
      (stepped sat a b (old.read (n / 16) (n % 16)) (n / 16) (n % 16)).2).eraseDups := by
  refine ⟨rfl, rfl, rfl, rfl, fun i j hi hj => ?_, ?_⟩
  · have hlt : 16 * i + j < 256 := by omega
    have hdiv : (16 * i + j) / 16 = i := by omega
    have hmod : (16 * i + j) % 16 = j := by omega
    simp [stepAcc, Acc.read, hlt, hdiv, hmod, stepElem_eq]
  · simp only [stepAcc, List.filterMap_map, stepElem_eq]
    rfl

end Sys2Proof.Laws
end

section
/-! SUPPORT: the elements of dense rows and of rows under metadata (R269, R271, R280). -/

namespace Sys2Proof.Laws

open Sys2Proof Sys2Proof.Machine Sys2Proof.Safety

-- One theorem after another, as in the tests: the check's memory holds few more stacks.
set_option Elab.async false

section Elements
variable {f : Machine.Frm} {w : Nat → W32} {i q k : Nat}

/-! ### Dense rows (R269) -/

theorem elem_of_bits {n kt : Nat} (hn : frBits f.fmt = n) (hk : frKt f.fmt = kt) (i k : Nat) :
    f.elem i k = f.body / 2 ^ (n * (i * kt + k)) % 2 ^ n := by
  rw [Machine.Frm.elem, elemAt, hn, hk]

theorem elem_of_bits16 (h : frBits f.fmt = 16) (i k : Nat) : f.elem i k = f.body / 2 ^ (8 * (32 * i + 2 * k)) % 2 ^ 16 := by
  rw [elem_of_bits h (kt := 16) (by simp [frKt, h])]
  congr 3
  omega

theorem elem_of_bits8 (h : frBits f.fmt = 8) (i k : Nat) : f.elem i k = f.body / 2 ^ (8 * (32 * i + k)) % 2 ^ 8 := by
  rw [elem_of_bits h (kt := 32) (by simp [frKt, h]), Nat.mul_comm i]

theorem elem_of_bits4 (h : frBits f.fmt = 4) (i k : Nat) :
    f.elem i k = f.body / 2 ^ (8 * (32 * i + k / 2)) / 2 ^ (4 * (k % 2)) % 2 ^ 4 := by
  rw [elem_of_bits h (kt := 64) (by simp [frKt, h]), Nat.div_div_eq_div_mul, ← Nat.pow_add]
  congr 3
  omega

theorem elem_of_bits6 (h : frBits f.fmt = 6) (i k : Nat) :
    f.elem i k = f.body / 2 ^ (8 * (48 * i + 3 * (k / 4))) / 2 ^ (6 * (k % 4)) % 2 ^ 6 := by
  rw [elem_of_bits h (kt := 64) (by simp [frKt, h]), Nat.div_div_eq_div_mul, ← Nat.pow_add]
  congr 3
  omega

/-! ### Rows under metadata (R271, R280) -/

theorem metaBad_eq_false {m : Nat} : metaBad m = false ↔
    m < 2 ^ 12 ∧ m % 8 < m / 8 % 8 ∧ m / 8 % 8 < m / 64 % 8 ∧ m / 64 % 8 < m / 512 % 8 := by
  simp only [metaBad, metaIdx, List.getD_cons_zero, List.getD_cons_succ, Bool.or_eq_false_iff, Bool.not_eq_false', Bool.and_eq_true,
    decide_eq_true_eq, bne_eq_false_iff_eq, Nat.div_eq_zero_iff_lt (show 0 < 2 ^ 12 by decide)]
  tauto

theorem sparseA_elem (f : Machine.Frm) (w : Nat → W32) (i k : Nat) : (sparseA f w).elem i k =
    ((metaIdx (metaAt w i (k / 8))).findIdx? (· == k % 8)).map fun u => f.body / 2 ^ (8 * (16 * i + 4 * (k / 8) + u)) % 2 ^ 8 := by
  simp only [sparseA]
  cases (metaIdx (metaAt w i (k / 8))).findIdx? (· == k % 8) <;> rfl

/-- The index that sound metadata give at a place is at that place alone. -/
theorem findIdx_metaIdx {m u : Nat} (h : metaBad m = false) (hu : u < 4) : (metaIdx m).findIdx? (· == m / 8 ^ u % 8) = some u := by
  obtain ⟨-, h0, h1, h2⟩ := metaBad_eq_false.mp h
  have hne {a b : Nat} (hlt : a < b) : (a == b) = false := beq_false_of_ne hlt.ne
  obtain rfl | rfl | rfl | rfl : u = 0 ∨ u = 1 ∨ u = 2 ∨ u = 3 := by omega
  all_goals simp [metaIdx, List.findIdx?_cons, hne, h0, h1, h2, h0.trans h1, h1.trans h2, (h0.trans h1).trans h2]

theorem sparseA_elem_of_kept {u : Nat} (h : metaBad (metaAt w i q) = false) (hu : u < 4) :
    (sparseA f w).elem i (8 * q + metaAt w i q / 8 ^ u % 8) = some (f.body / 2 ^ (8 * (16 * i + 4 * q + u)) % 2 ^ 8) := by
  have hlt : metaAt w i q / 8 ^ u % 8 < 8 := Nat.mod_lt _ (by decide)
  have hd : (8 * q + metaAt w i q / 8 ^ u % 8) / 8 = q := by omega
  have hm : (8 * q + metaAt w i q / 8 ^ u % 8) % 8 = metaAt w i q / 8 ^ u % 8 := by omega
  rw [sparseA_elem, hd, hm, findIdx_metaIdx h hu]
  rfl

theorem sparseA_elem_of_dropped (hk : k / 8 = q) (h : ∀ n, n < 4 → metaAt w i q / 8 ^ n % 8 ≠ k % 8) : (sparseA f w).elem i k = none := by
  have h0 := h 0 (by decide)
  have h1 := h 1 (by decide)
  have h2 := h 2 (by decide)
  have h3 := h 3 (by decide)
  norm_num at h0 h1 h2 h3
  rw [sparseA_elem, hk, List.findIdx?_eq_none_iff.mpr]
  · rfl
  · simp [metaIdx, h0, h1, h2, h3]

end Elements

end Sys2Proof.Laws
end

section
/-! SUPPORT: headers of operand frames (R268 to R270). -/

namespace Sys2Proof.Laws

open Sys2Proof Sys2Proof.Machine Sys2Proof.Safety

-- One theorem after another, as in the tests: the check's memory holds few more stacks.
set_option Elab.async false

section Headers
variable {f : FrameFmt} {r : Role} {sparse : Bool} {scales : Nat}

theorem code_lt (f : FrameFmt) : FrameFmt.code f < 64 := by cases f <;> decide

theorem ofCode_code (f : FrameFmt) : FrameFmt.ofCode (FrameFmt.code f) = some f := by cases f <;> rfl

theorem ofCode_roleCode (r : Role) : Role.ofCode (roleCode r) = some r := by cases r <;> rfl

theorem roleCode_lt (r : Role) : roleCode r < 4 := by cases r <;> decide

theorem frDims_lt (f : FrameFmt) (r : Role) : (frDims f r).1 < 256 ∧ (frDims f r).2 < 256 := by
  cases r <;> cases f <;> decide

/-- What stands below a multiple of a power of two is not changed by it. -/
theorem low_field (low v : Nat) {k m n : Nat} (h : k + m ≤ n) : (low + v * 2 ^ n) / 2 ^ k % 2 ^ m = low / 2 ^ k % 2 ^ m := by
  obtain ⟨d, rfl⟩ := Nat.exists_eq_add_of_le h
  rw [show v * 2 ^ (k + m + d) = 2 ^ k * (2 ^ m * (v * 2 ^ d)) by rw [pow_add, pow_add]; ring, Nat.add_mul_div_left _ _ (Nat.two_pow_pos k),
    Nat.add_mul_mod_self_left]

/-- A header without its scales (R270). -/
def headerLow (f : FrameFmt) (r : Role) (sparse : Bool) : Nat :=
  FrameFmt.code f + roleCode r * 2 ^ 8 + (if sparse then 2 ^ 10 else 0) + (frDims f r).1 * 2 ^ 16 + (frDims f r).2 * 2 ^ 24

theorem headerLow_fields (f : FrameFmt) (r : Role) (sparse : Bool) :
    let h := headerLow f r sparse
    h < 2 ^ 32 ∧ h / 2 ^ 0 % 2 ^ 6 = FrameFmt.code f ∧ h / 2 ^ 6 % 2 ^ 2 = 0 ∧ h / 2 ^ 8 % 2 ^ 2 = roleCode r ∧
    h / 2 ^ 10 % 2 ^ 1 = sparse.toNat ∧ h / 2 ^ 11 % 2 ^ 5 = 0 ∧ h / 2 ^ 16 % 2 ^ 8 = (frDims f r).1 ∧ h / 2 ^ 24 % 2 ^ 8 = (frDims f r).2 := by
  have hsp : (if sparse then 2 ^ 10 else 0) = sparse.toNat * 2 ^ 10 := by cases sparse <;> rfl
  have hlt := sparse.toNat_lt
  have hc := code_lt f
  have hr := roleCode_lt r
  obtain ⟨h1, h2⟩ := frDims_lt f r
  simp only [headerLow, hsp]
  omega

theorem frHeader_eq (f : FrameFmt) (r : Role) (sparse : Bool) (scales : Nat) :
    frHeader f r sparse scales = headerLow f r sparse + scales * 2 ^ 256 := by rw [frHeader, headerLow]

/-- The fields of a header read back (R270). -/
theorem header_fields {h : Nat} (hh : h = headerLow f r sparse + scales * 2 ^ 256) :
    h % 64 = FrameFmt.code f ∧ h / 2 ^ 8 % 4 = roleCode r ∧ (h / 2 ^ 10 % 2 == 1) = sparse ∧ h / 64 % 4 = 0 ∧ h / 2 ^ 11 % 32 = 0 ∧
    h / 2 ^ 32 % 2 ^ 224 = 0 ∧ h / 2 ^ 16 % 256 = (frDims f r).1 ∧ h / 2 ^ 24 % 256 = (frDims f r).2 := by
  obtain ⟨hlt, h0, h6, h8, h10, h11, h16, h24⟩ := headerLow_fields f r sparse
  have field {k m : Nat} (hkm : k + m ≤ 256) : h / 2 ^ k % 2 ^ m = headerLow f r sparse / 2 ^ k % 2 ^ m := by
    rw [hh, low_field _ _ hkm]
  refine ⟨?_, (field (k := 8) (m := 2) (by decide)).trans h8, ?_, (field (k := 6) (m := 2) (by decide)).trans h6,
    (field (k := 11) (m := 5) (by decide)).trans h11, ?_, (field (k := 16) (m := 8) (by decide)).trans h16,
    (field (k := 24) (m := 8) (by decide)).trans h24⟩
  · have := (field (k := 0) (m := 6) (by decide)).trans h0
    rwa [pow_zero, Nat.div_one] at this
  · have hbit : h / 2 ^ 10 % 2 = sparse.toNat := (field (k := 10) (m := 1) (by decide)).trans h10
    rw [hbit]
    cases sparse <;> rfl
  · rw [field (k := 32) (m := 224) (by decide), Nat.div_eq_of_lt hlt, Nat.zero_mod]

theorem header_scales {h : Nat} (hh : h = headerLow f r sparse + scales * 2 ^ 256) : h / 2 ^ 256 = scales := by
  obtain ⟨hlt, -⟩ := headerLow_fields f r sparse
  rw [hh, Nat.add_mul_div_right _ _ (Nat.two_pow_pos 256), Nat.div_eq_of_lt (hlt.trans (Nat.pow_lt_pow_right one_lt_two (by decide))),
    Nat.zero_add]

theorem scalesOk_congr {h h' : Nat} (e : h / 2 ^ 256 = h' / 2 ^ 256) : scalesOk f h = scalesOk f h' := by
  have hb (n : Nat) (v : Nat) : v / 2 ^ (8 * (33 + 2 * n)) = v / 2 ^ 256 / 2 ^ (8 * (1 + 2 * n)) := by
    rw [Nat.div_div_eq_div_mul, ← Nat.pow_add]
    congr 2
    omega
  simp only [scalesOk, hb, e]

/-- A header over a body is a well-formed frame where its role, scales and SPARSE bit are those of an operand of its format. -/
theorem parse_header {h : Nat} (hh : h = headerLow f r sparse + scales * 2 ^ 256) (hf : frCls f ≠ .acc) (hr : r ≠ .acc)
    (hs : scalesOk f h = true) (hsp : sparse = true → r = .a ∧ frSparse f = true) (body : Nat) :
    Machine.Frm.parse h body = some { fmt := f, role := r, sparse, hdr := h, body } := by
  obtain ⟨h1, h2, h3, h4, h5, h6, h7, h8⟩ := header_fields hh
  clear hh
  have hsp' : (!sparse || (r == .a && frSparse f)) = true := by
    cases sparse
    · rfl
    · simp [hsp rfl]
  have hacc : ((frCls f == .acc) == (r == .acc)) = true := by simp [hf, hr]
  simp only [Machine.Frm.parse, h1, h2, h3, h4, h5, h6, h7, h8, ofCode_code, ofCode_roleCode, hs, hsp', hacc, beq_self_eq_true,
    Bool.and_self, if_true]

theorem parse_frHeader (hf : frCls f ≠ .acc) (hr : r ≠ .acc) (hs : scalesOk f (frHeader f r sparse scales) = true)
    (hsp : sparse = true → r = .a ∧ frSparse f = true) (body : Nat) : Machine.Frm.parse (frHeader f r sparse scales) body =
      some { fmt := f, role := r, sparse, hdr := frHeader f r sparse scales, body } :=
  parse_header (frHeader_eq ..) hf hr hs hsp body

/-- What a frame that parses is: its header and body, with scales that are as its format wants them. -/
theorem parse_some {h bd : Nat} {fr : Machine.Frm} (e : Machine.Frm.parse h bd = some fr) :
    fr.hdr = h ∧ fr.body = bd ∧ scalesOk fr.fmt h = true := by
  unfold Machine.Frm.parse at e
  split at e
  · simp only at e
    split at e
    · next hok =>
      cases e
      simp only [Bool.and_eq_true] at hok
      exact ⟨rfl, rfl, hok.1.2⟩
    · cases e
  · cases e

theorem frHeader_lt (f : FrameFmt) (r : Role) (sparse : Bool) (h : scales < 2 ^ 256) : frHeader f r sparse scales < 256 ^ 64 := by
  have hd := header_scales (frHeader_eq f r sparse scales)
  rw [pow_256]
  exact (Nat.div_lt_iff_lt_mul (Nat.two_pow_pos 256)).mp (hd.trans_lt h) |>.trans_eq (by rw [← Nat.pow_add])

/-- A header and a body as bytes, parsed. -/
theorem parse_bytes {n : Nat} {body : Nat} (hs : scales < 2 ^ 256) (hb : body < 256 ^ n) :
    let out := toBytes 64 (frHeader f r sparse scales) ++ toBytes n body
    Machine.Frm.parse (ofBytes (out.take 64)) (ofBytes (out.drop 64)) = Machine.Frm.parse (frHeader f r sparse scales) body := by
  dsimp only
  rw [List.take_left' (toBytes_length ..), List.drop_left' (toBytes_length ..), ofBytes_toBytes, ofBytes_toBytes,
    Nat.mod_eq_of_lt (frHeader_lt f r sparse hs), Nat.mod_eq_of_lt hb]

end Headers

end Sys2Proof.Laws
end

section
/-! SUPPORT: the four kept of eight (R281). -/

namespace Sys2Proof.Laws

open Sys2Proof Sys2Proof.Machine Sys2Proof.Safety

-- One theorem after another, as in the tests: the check's memory holds few more stacks.
set_option Elab.async false

/-! ### Ranks -/

section Ranks
variable {α : Type} [LinearOrder α] (key : Nat → α)

/-- How many of the first n come before i by their keys. -/
def rankOf (n i : Nat) : Nat := ((List.range n).filter fun j => decide (key j < key i)).length

theorem rankOf_eq_card (n i : Nat) : rankOf key n i = ((Finset.range n).filter fun j => key j < key i).card := rfl

variable {key}

theorem rankOf_lt_of_lt {n i j : Nat} (hi : i < n) (h : key i < key j) : rankOf key n i < rankOf key n j := by
  rw [rankOf_eq_card, rankOf_eq_card]
  refine Finset.card_lt_card ⟨fun k hk => ?_, fun hsub => ?_⟩
  · rw [Finset.mem_filter] at hk ⊢
    exact ⟨hk.1, hk.2.trans h⟩
  · have hmem := hsub (Finset.mem_filter.mpr ⟨Finset.mem_range.mpr hi, h⟩)
    exact lt_irrefl _ (Finset.mem_filter.mp hmem).2

theorem rankOf_lt {n i : Nat} (hi : i < n) : rankOf key n i < n := by
  rw [rankOf_eq_card]
  refine (Finset.card_lt_card ⟨Finset.filter_subset .., fun hsub => ?_⟩).trans_eq (Finset.card_range n)
  exact lt_irrefl _ (Finset.mem_filter.mp (hsub (Finset.mem_range.mpr hi))).2

/-- Of n with keys of their own, as many as wanted are ranked first. -/
theorem length_ranked {n m : Nat} (hinj : Function.Injective key) (hm : m ≤ n) :
    ((List.range n).filter fun i => decide (rankOf key n i < m)).length = m := by
  have hon : Set.InjOn (rankOf key n) (Finset.range n) := by
    intro i hi j hj e
    rw [Finset.coe_range, Set.mem_Iio] at hi hj
    by_contra hne
    rcases lt_or_gt_of_ne (hinj.ne hne) with h | h
    · exact (rankOf_lt_of_lt hi h).ne e
    · exact (rankOf_lt_of_lt hj h).ne' e
  have himg : (Finset.range n).image (rankOf key n) = Finset.range n :=
    Finset.eq_of_subset_of_card_le (Finset.image_subset_iff.mpr fun i hi => Finset.mem_range.mpr (rankOf_lt (Finset.mem_range.mp hi)))
      (Finset.card_image_of_injOn hon).ge
  calc ((List.range n).filter fun i => decide (rankOf key n i < m)).length
      = ((Finset.range n).filter fun i => rankOf key n i < m).card := rfl
    _ = (((Finset.range n).filter fun i => rankOf key n i < m).image (rankOf key n)).card :=
        (Finset.card_image_of_injOn (hon.mono (Finset.coe_subset.mpr (Finset.filter_subset ..)))).symm
    _ = (Finset.range m).card := by
        congr 1
        ext j
        rw [Finset.mem_image, Finset.mem_range]
        constructor
        · rintro ⟨i, hi, rfl⟩
          exact (Finset.mem_filter.mp hi).2
        · intro hj
          obtain ⟨i, hi, rfl⟩ := Finset.mem_image.mp (himg ▸ Finset.mem_range.mpr (hj.trans_le hm))
          exact ⟨i, Finset.mem_filter.mpr ⟨hi, hj⟩, rfl⟩
    _ = m := Finset.card_range m

theorem key_lt_of_rankOf_lt {n i j : Nat} (hinj : Function.Injective key) (hj : j < n) (h : rankOf key n i < rankOf key n j) :
    key i < key j := by
  rcases lt_trichotomy (key i) (key j) with hlt | heq | hgt
  · exact hlt
  · rw [hinj heq] at h
    exact absurd h (lt_irrefl _)
  · exact absurd h (rankOf_lt_of_lt hj hgt).not_gt

end Ranks

/-! ### The order of R281 -/

/-- The size of a value: of a NaN above that of an infinity, and that above those of numbers. -/
def sizeOfVal : Val → ℕ ×ₗ ℚ
  | .nan => toLex (2, 0)
  | .inf _ => toLex (1, 0)
  | .num x _ => toLex (0, |x|)

theorem larger_eq (v w : Val) : larger v w = true ↔ sizeOfVal w < sizeOfVal v := by
  cases v <;> cases w <;> simp [larger, sizeOfVal, Prod.Lex.toLex_lt_toLex]

/-- The place of one of several values: larger ones first, equal ones by index. -/
def placeOf (v : Nat → Val) (i : Nat) : (ℕ ×ₗ ℚ)ᵒᵈ ×ₗ ℕ := toLex (OrderDual.toDual (sizeOfVal (v i)), i)

theorem placeOf_injective (v : Nat → Val) : Function.Injective (placeOf v) := fun _ _ h => (Prod.ext_iff.mp (toLex_inj.mp h)).2

theorem placeOf_lt (v : Nat → Val) (i j : Nat) :
    placeOf v i < placeOf v j ↔ larger (v i) (v j) = true ∨ larger (v j) (v i) = false ∧ i < j := by
  rw [placeOf, placeOf, Prod.Lex.toLex_lt_toLex, OrderDual.toDual_lt_toDual, OrderDual.toDual_inj, larger_eq, ← Bool.not_eq_true, larger_eq]
  constructor
  · rintro (h | ⟨he, hlt⟩)
    · exact .inl h
    · exact .inr ⟨he ▸ lt_irrefl _, hlt⟩
  · rintro (h | ⟨hn, hlt⟩)
    · exact .inl h
    · rcases lt_or_eq_of_le (not_lt.mp hn) with h | h
      · exact .inl h
      · exact .inr ⟨h.symm, hlt⟩

/-- The first four of eight values in the order of R281, in ascending order. -/
def firstFour (v : Nat → Val) : List Nat := (List.range 8).filter fun i => decide (rankOf (placeOf v) 8 i < 4)

section FirstFour
variable {v : Nat → Val}

theorem length_firstFour (v : Nat → Val) : (firstFour v).length = 4 := length_ranked (placeOf_injective v) (by decide)

theorem firstFour_sorted (v : Nat → Val) : (firstFour v).Pairwise (· < ·) := List.pairwise_lt_range.filter _

theorem lt_of_mem_firstFour {u : Nat} (h : u ∈ firstFour v) : u < 8 := List.mem_range.mp (List.mem_filter.mp h).1

/-- What is kept comes before what is not. -/
theorem firstFour_ahead {u w : Nat} (hu : u ∈ firstFour v) (hw : w < 8) (hn : w ∉ firstFour v) :
    larger (v w) (v u) = false ∧ (larger (v u) (v w) = true ∨ u < w) := by
  have hru : rankOf (placeOf v) 8 u < 4 := of_decide_eq_true (List.mem_filter.mp hu).2
  have hrw : ¬ rankOf (placeOf v) 8 w < 4 := fun h => hn (List.mem_filter.mpr ⟨List.mem_range.mpr hw, decide_eq_true h⟩)
  have hlt := (placeOf_lt v u w).mp (key_lt_of_rankOf_lt (placeOf_injective v) hw (by omega))
  rcases hlt with h | ⟨hl, hlt⟩
  · refine ⟨?_, .inl h⟩
    rw [← Bool.not_eq_true, larger_eq]
    exact ((larger_eq ..).mp h).not_gt
  · exact ⟨hl, .inr hlt⟩

end FirstFour

/-! ### The model's order -/

theorem toVal_numAbs_cmp (s t : Bool) (n m : Nat) (e d : ℤ) :
    0 < (numAbs (.fin s n e)).cmp (numAbs (.fin t m d)) ↔ |finVal t m d| < |finVal s n e| := by
  have h := cmp_fin_tells (s := false) (t := false) (n := n) (m := m) (e := e) (d := d)
  obtain ⟨h0, hlt⟩ := h
  rw [abs_finVal, abs_finVal]
  change 0 < (Machine.Num.fin false n e).cmp (.fin false m d) ↔ _
  have hn : finVal false n e = n * 2 ^ e := rfl
  have hm : finVal false m d = m * 2 ^ d := rfl
  rw [hn, hm] at h0 hlt
  constructor
  · intro hp
    rcases lt_trichotomy ((n : ℚ) * 2 ^ e) (m * 2 ^ d) with h | h | h
    · exact absurd (hlt.mpr h) (by omega)
    · exact absurd (h0.mpr h) (by omega)
    · exact h
  · intro hg
    have h1 := mt hlt.mp hg.not_gt
    have h2 := mt h0.mp hg.ne'
    omega

theorem pruneBefore_eq (f : FrameFmt) (c d : Nat) : pruneBefore (pruneKey f c) (pruneKey f d) = larger (elemVal f c) (elemVal f d) := by
  rw [elemVal_eq, elemVal_eq, pruneKey, pruneKey]
  cases frValue f c <;> cases frValue f d
  case fin.fin s n e t m d =>
    simp only [pruneBefore, toVal, larger, Bool.or_self, Bool.false_eq_true, if_false]
    exact decide_eq_decide.mpr (toVal_numAbs_cmp s t n m e d)
  all_goals simp [pruneBefore, toVal, larger, numAbs, Machine.Num.cmp]

/-- The indices that the model keeps of a group are the first four of its values. -/
theorem pruneKeep_eq (f : FrameFmt) (g : Nat → Nat) : pruneKeep f ((List.range 8).map g) = firstFour fun u => elemVal f (g u) := by
  have hkey {j : Nat} (hj : j < 8) : (((List.range 8).map g).map (pruneKey f)).getD j (.nan, true) = pruneKey f (g j) := by
    simp [hj]
  unfold pruneKeep firstFour rankOf
  refine List.filter_congr fun i hi => ?_
  have hi := List.mem_range.mp hi
  refine congrArg (fun l => decide (List.length l < 4)) (List.filter_congr fun j hj => ?_)
  have hj := List.mem_range.mp hj
  simp only [hkey hi, hkey hj, pruneBefore_eq]
  rw [Bool.eq_iff_iff, decide_eq_true_eq, placeOf_lt]
  simp only [Bool.and_eq_true, bne_iff_ne, Bool.or_eq_true, Bool.not_eq_true', decide_eq_true_eq]
  constructor
  · exact fun h => h.2
  · intro h
    refine ⟨?_, h⟩
    rintro rfl
    rcases h with h | h
    · exact lt_irrefl _ ((larger_eq ..).mp h)
    · exact lt_irrefl _ h.2

/-- Of eight that are alike the first four are kept. -/
theorem firstFour_const (v : Val) : (firstFour fun _ => v) = [0, 1, 2, 3] := by
  have hl : larger v v = false := by
    rw [← Bool.not_eq_true, larger_eq]
    exact lt_irrefl _
  have hp (i j : Nat) : placeOf (fun _ => v) i < placeOf (fun _ => v) j ↔ i < j := by
    rw [placeOf_lt]
    simp [hl]
  simp only [firstFour, rankOf, hp]
  decide

end Sys2Proof.Laws
end

section
/-! SUPPORT: the frame that MCOMP writes and its metadata (R281). -/

namespace Sys2Proof.Laws

open Sys2Proof Sys2Proof.Machine Sys2Proof.Safety

-- One theorem after another, as in the tests: the check's memory holds few more stacks.
set_option Elab.async false

/-! ### Lists of equal parts -/

section Parts
variable {g : Nat → List Nat} {b : Nat}

theorem length_parts (h : ∀ i, (g i).length = b) (n : Nat) : (((List.range n).map g).flatten).length = b * n := by
  simp [List.length_flatten, List.map_map, Function.comp_def, h, Nat.mul_comm]

theorem getD_parts (h : ∀ i, (g i).length = b) {n i j : Nat} (hi : i < n) (hj : j < b) :
    ((List.range n).map g).flatten.getD (b * i + j) 0 = (g i).getD j 0 := by
  induction n with
  | zero => exact absurd hi (Nat.not_lt_zero i)
  | succ n ih =>
    rw [List.range_succ, List.map_append, List.flatten_append, List.map_singleton, List.flatten_singleton]
    rcases Nat.lt_succ_iff_lt_or_eq.mp hi with hlt | rfl
    · have hle : b * (i + 1) ≤ b * n := Nat.mul_le_mul_left b hlt
      rw [List.getD_append _ _ _ _ (by rw [length_parts h]; linarith), ih hlt]
    · rw [List.getD_append_right _ _ _ _ (by rw [length_parts h]; omega), length_parts h, Nat.add_sub_cancel_left]

end Parts

/-! ### The kept elements (R281) -/

section Kept
variable (f : Machine.Frm) (i q : Nat)

/-- The value of element u of a group of eight: of a row under the scale 0xFF a NaN. -/
def groupVal (u : Nat) : Val := if frMx f.fmt && f.scale i 0 == 255 then .nan else elemVal f.fmt (f.elem i (8 * q + u))

/-- The indices that are kept of a group, and their codes. -/
def keptOf : List Nat := firstFour (groupVal f i q)
def keptCodes : List Nat := (keptOf f i q).map fun u => f.elem i (8 * q + u)
def keptRow : List Nat := ((List.range 4).map (keptCodes f i)).flatten
def keptBody : List Nat := ((List.range 16).map (keptRow f)).flatten

/-- The metadata of a group: its kept indices, three bits each. -/
def keptMeta : Nat :=
  (keptOf f i q).getD 0 0 + (keptOf f i q).getD 1 0 * 8 + (keptOf f i q).getD 2 0 * 64 + (keptOf f i q).getD 3 0 * 512

theorem rowVal_eq_groupVal {q u : Nat} (hq : q < 4) (hu : u < 8) : rowVal f i (8 * q + u) = groupVal f i q u := by
  rw [rowVal, groupVal, Nat.div_eq_of_lt (show 8 * q + u < 32 by omega)]

/-- What the model keeps of a group. -/
theorem kept_eq : (if frMx f.fmt && f.scale i 0 == 255 then [0, 1, 2, 3]
    else pruneKeep f.fmt ((List.range 8).map fun u => f.elem i (8 * q + u))) = keptOf f i q := by
  unfold keptOf
  split
  · next h => rw [show groupVal f i q = fun _ => Val.nan from funext fun u => if_pos h, firstFour_const]
  · next h => rw [show groupVal f i q = fun u => elemVal f.fmt (f.elem i (8 * q + u)) from funext fun u => if_neg h, pruneKeep_eq]

theorem keptCodes_length : (keptCodes f i q).length = 4 := by rw [keptCodes, List.length_map, keptOf, length_firstFour]

theorem keptRow_length : (keptRow f i).length = 16 := length_parts (keptCodes_length f i) 4

theorem keptBody_length : (keptBody f).length = 256 := length_parts (keptRow_length f) 16

theorem getD_keptBody {i q n : Nat} (hi : i < 16) (hq : q < 4) (hn : n < 4) :
    (keptBody f).getD (16 * i + 4 * q + n) 0 = f.elem i (8 * q + (keptOf f i q).getD n 0) := by
  rw [Nat.add_assoc, keptBody, getD_parts (keptRow_length f) hi (show 4 * q + n < 16 by omega), keptRow,
    getD_parts (keptCodes_length f i) hq hn, keptCodes]
  have hlen : n < (keptOf f i q).length := by rw [keptOf, length_firstFour]; exact hn
  rw [List.getD_eq_getElem _ _ (by rwa [List.length_map]), List.getElem_map, List.getD_eq_getElem _ _ hlen]

theorem getD_keptOf_lt (n : Nat) : (keptOf f i q).getD n 0 < 8 := by
  rcases Nat.lt_or_ge n (keptOf f i q).length with h | h
  · rw [List.getD_eq_getElem _ _ h]
    exact lt_of_mem_firstFour (List.getElem_mem h)
  · rw [List.getD_eq_default _ _ h]
    decide

theorem keptMeta_lt : keptMeta f i q < 2 ^ 16 := by
  have h0 := getD_keptOf_lt f i q 0
  have h1 := getD_keptOf_lt f i q 1
  have h2 := getD_keptOf_lt f i q 2
  have h3 := getD_keptOf_lt f i q 3
  unfold keptMeta
  omega

end Kept

/-! ### The frame (R281) -/

section Pruned
variable {f : Machine.Frm}

theorem bits_of_frSparse {f : FrameFmt} (h : frSparse f = true) : frBits f = 8 ∧ frKt f = 32 ∧ frCls f ≠ .acc := by
  revert h
  cases f <;> decide

theorem prunedHeader_eq {f : FrameFmt} (h : frSparse f = true) (scales : Nat) :
    FrameFmt.code f + 2 ^ 10 + 16 * 2 ^ 16 + 32 * 2 ^ 24 + scales = headerLow f .a true + scales := by
  obtain ⟨-, hk, -⟩ := bits_of_frSparse h
  simp [headerLow, frDims, roleCode, hk]

theorem pruneFrame_eq (h : frSparse f.fmt = true) : pruneFrame f =
    (toBytes 64 (frHeader f.fmt .a true (f.hdr / 2 ^ 256)) ++ toBytes 512 (vecOf 8 (keptBody f)),
      fun l => BitVec.ofNat 32 (keptMeta f (l / 2) (2 * (l % 2)) + keptMeta f (l / 2) (2 * (l % 2) + 1) * 2 ^ 16)) := by
  rw [frHeader_eq, ← prunedHeader_eq h]
  simp only [pruneFrame, kept_eq]
  rfl

theorem pruneFrame_length (h : frSparse f.fmt = true) : (pruneFrame f).1.length = 576 := by
  rw [pruneFrame_eq h, List.length_append, toBytes_length, toBytes_length]

theorem keptBody_lt (f : Machine.Frm) : vecOf 8 (keptBody f) < 2 ^ 2048 := by
  have hv := vecOf_lt 8 (keptBody f)
  rwa [keptBody_length] at hv

/-- The code at a body byte of the pruned frame. -/
theorem elemAt_keptBody (h : frSparse f.fmt = true) {i q n : Nat} (hi : i < 16) (hq : q < 4) (hn : n < 4) :
    elemAt 8 (vecOf 8 (keptBody f)) (16 * i + 4 * q + n) = f.elem i (8 * q + (keptOf f i q).getD n 0) := by
  obtain ⟨hb, -, -⟩ := bits_of_frSparse h
  rw [elemAt_vecOf, getD_keptBody f hi hq hn, Machine.Frm.elem, elemAt, hb, Nat.mod_mod]

theorem keptOf_ahead {i q u w : Nat} (hq : q < 4) (hu : u ∈ keptOf f i q) (hw : w < 8) (hn : w ∉ keptOf f i q) :
    larger (rowVal f i (8 * q + w)) (rowVal f i (8 * q + u)) = false ∧
      (larger (rowVal f i (8 * q + u)) (rowVal f i (8 * q + w)) = true ∨ u < w) := by
  rw [rowVal_eq_groupVal f i hq (lt_of_mem_firstFour hu), rowVal_eq_groupVal f i hq hw]
  exact firstFour_ahead hu hw hn

theorem prunedMeta {i q : Nat} (hq : q < 4) (h : frSparse f.fmt = true) :
    ((pruneFrame f).2 (2 * i + q / 2)).toNat / 2 ^ (16 * (q % 2)) % 2 ^ 16 = keptMeta f i q := by
  have hi : (2 * i + q / 2) / 2 = i := by omega
  have hm : (2 * i + q / 2) % 2 = q / 2 := by omega
  have hlo := keptMeta_lt f i (2 * (q / 2))
  have hhi := keptMeta_lt f i (2 * (q / 2) + 1)
  rw [pruneFrame_eq h]
  dsimp only
  rw [hi, hm, BitVec.toNat_ofNat, Nat.mod_eq_of_lt (show _ < 2 ^ 32 by omega)]
  rcases Nat.mod_two_eq_zero_or_one q with hq2 | hq2
  · have heven : 2 * (q / 2) = q := by omega
    rw [heven] at hlo hhi ⊢
    rw [hq2]
    omega
  · have hodd : 2 * (q / 2) + 1 = q := by omega
    rw [hodd] at hhi ⊢
    rw [hq2]
    omega

theorem scales_lt {h : Nat} (hh : h < 2 ^ 512) : h / 2 ^ 256 < 2 ^ 256 := by
  rw [show 512 = 256 + 256 from rfl, Nat.pow_add] at hh
  exact Nat.div_lt_of_lt_mul hh

/-- The frame that MCOMP writes (R281). -/
theorem parse_pruneFrame {h bd : Nat} (hh : h < 2 ^ 512) (hp : Machine.Frm.parse h bd = some f) (hs : frSparse f.fmt = true) :
    Machine.Frm.parse (ofBytes ((pruneFrame f).1.take 64)) (ofBytes ((pruneFrame f).1.drop 64)) =
      some { fmt := f.fmt, role := .a, sparse := true, hdr := frHeader f.fmt .a true (f.hdr / 2 ^ 256), body := vecOf 8 (keptBody f) } := by
  obtain ⟨rfl, -, hsc⟩ := parse_some hp
  obtain ⟨-, -, hacc⟩ := bits_of_frSparse hs
  have hlt := scales_lt hh
  have hbody : vecOf 8 (keptBody f) < 256 ^ 512 := by
    rw [pow_256]
    exact (keptBody_lt f).trans (Nat.pow_lt_pow_right (n := 8 * 512) one_lt_two (by decide))
  rw [pruneFrame_eq hs]
  refine (parse_bytes hlt hbody).trans (parse_frHeader (r := .a) hacc (by decide) ?_ (fun _ => ⟨rfl, hs⟩) _)
  exact (scalesOk_congr (header_scales (frHeader_eq ..))).trans hsc

end Pruned

end Sys2Proof.Laws
end

section
/-! SUPPORT: the scale and the elements of a quantised block (R284). -/

namespace Sys2Proof.Laws

open Sys2Proof Sys2Proof.Machine Sys2Proof.Safety

-- One theorem after another, as in the tests: the check's memory holds few more stacks.
set_option Elab.async false

/-! ### The generator (R238) -/

theorem foldl_lfsrStep (g : W32) (n : Nat) : (List.range n).foldl (fun g _ => lfsrStep g) g = drawnTimes g n := by
  induction n with
  | zero => rfl
  | succ n ih => rw [List.range_succ, List.foldl_append, ih, drawnTimes, drawn_eq]; rfl

theorem drawAfter_eq (g : W32) (n : Nat) : drawAfter g n = lfsrDraw (drawnTimes g (n + 1)) := by
  rw [drawAfter, drawnTimes, drawn_eq]

theorem drawnTimes_add (g : W32) (m n : Nat) : drawnTimes (drawnTimes g m) n = drawnTimes g (m + n) := by
  induction n with
  | zero => rfl
  | succ n ih => rw [drawnTimes, ih]; rfl

theorem drawAfter_drawnTimes (g : W32) (m n : Nat) : drawAfter (drawnTimes g m) n = drawAfter g (m + n) := by
  rw [drawAfter, drawnTimes_add, drawAfter]

/-! ### Draws matter to stochastic rounding alone -/

section Draws
variable {rnd : Rnd}

theorem goesUp_draw (h : rnd ≠ .sr) (neg : Bool) (draw : Nat) : goesUp rnd neg draw = goesUp rnd neg 0 := by
  cases rnd with
  | sr => exact absurd rfl h
  | rne | rz | ru | rd => rfl

theorem nearInt_draw (h : rnd ≠ .sr) (draw : Nat) (x : ℚ) : nearInt rnd draw x = nearInt rnd 0 x := by
  simp only [nearInt, goesUp_draw h _ draw]

theorem round_draw (h : rnd ≠ .sr) (f : FloatFmt) (sat : Bool) (draw : Nat) (v : Val) : v.round f rnd sat draw = v.round f rnd sat 0 := by
  cases v with
  | nan | inf => rfl
  | num x neg => simp only [Val.round, goesUp_draw h _ draw]

end Draws

/-! ### The scale of a block -/

theorem frMxElem_emax {f : FrameFmt} (h : frMx f = true) : (frMxElem f).emax = emaxOf f := by
  revert h
  cases f <;> decide

theorem mxScale_cases (el : MxElem) (xs : List Machine.Num) : mxScale el xs =
    match (topsOf xs).max? with
    | none => 0
    | some t => (clampTo 0 254 (t - el.emax + 127)).toNat := by
  have h : mxScale el xs = match topsOf xs with
    | [] => 0
    | t :: r => (clampTo 0 254 (r.foldl max t - el.emax + 127)).toNat := rfl
  rw [h]
  cases topsOf xs <;> rfl

/-- The greatest exponent among numbers is that of the greatest magnitude. -/
theorem max?_logs (xs : List ℚ) : ((xs.filter (· ≠ 0)).map fun x => Int.log 2 |x|).max? =
    match (xs.map abs).max? with
    | none => none
    | some a => if a = 0 then none else some (Int.log 2 a) := by
  cases hm : (xs.map abs).max? with
  | none =>
    have hx : xs = [] := List.map_eq_nil_iff.mp (List.max?_eq_none_iff.mp hm)
    rw [hx]
    rfl
  | some a =>
    obtain ⟨hmem, hle⟩ := List.max?_eq_some_iff.mp hm
    obtain ⟨x, hx, rfl⟩ := List.mem_map.mp hmem
    have hle {y : ℚ} (hy : y ∈ xs) : |y| ≤ |x| := hle _ (List.mem_map_of_mem hy)
    dsimp only
    split
    · next h0 =>
      refine List.max?_eq_none_iff.mpr (List.map_eq_nil_iff.mpr (List.filter_eq_nil_iff.mpr fun y hy => ?_))
      have : |y| = 0 := le_antisymm ((hle hy).trans_eq h0) (abs_nonneg y)
      simpa using this
    · next h0 =>
      refine List.max?_eq_some_iff.mpr ⟨List.mem_map.mpr ⟨x, List.mem_filter.mpr ⟨hx, by simpa using h0⟩, rfl⟩, fun e he => ?_⟩
      obtain ⟨y, hy, rfl⟩ := List.mem_map.mp he
      obtain ⟨hy, hy0⟩ := List.mem_filter.mp hy
      exact Int.log_mono_right (abs_pos.mpr (by simpa using hy0)) (hle hy)

/-- The magnitudes of the numbers among values. -/
def magnitudes (vs : List Val) : List ℚ := vs.filterMap fun v => match v with | .num x _ => some |x| | _ => none

theorem magnitudes_eq (vs : List Val) : magnitudes vs = (numbers vs).map abs := by
  rw [magnitudes, numbers, List.map_filterMap]
  congr 1
  funext v
  cases v <;> rfl

theorem blockScale_cases {f : FrameFmt} {vs : List Val} (h : Val.nan ∉ vs) : blockScale f vs =
    match (magnitudes vs).max? with
    | none => 0
    | some a => if a = 0 then 0 else (max 0 (min 254 (Int.log 2 a - emaxOf f + 127))).toNat := if_neg h

theorem mxScale_eq {f : FrameFmt} (hf : frMx f = true) {xs : List Machine.Num} (hn : Val.nan ∉ xs.map toVal) :
    mxScale (frMxElem f) xs = blockScale f (xs.map toVal) := by
  rw [mxScale_cases, ← logs_eq_topsOf, max?_logs, blockScale_cases hn, magnitudes_eq, frMxElem_emax hf]
  cases ((numbers (xs.map toVal)).map abs).max? with
  | none => rfl
  | some a =>
    dsimp only
    by_cases h : a = 0
    · simp only [h, if_true]
    · simp only [h, if_false]
      rfl

/-! ### The elements of a block -/

/-- A value divided by the scale that a code stands for. -/
theorem finVal_unscaled (s : Bool) (n : Nat) (e d : ℤ) : finVal s n (e - d) = finVal s n e / 2 ^ d := by
  rw [finVal, finVal, zpow_sub₀ two_ne_zero]
  cases s <;> simp [mul_div_assoc, neg_div]

theorem clamp8_eq (z : ℤ) : (BitVec.ofInt 8 (clampInt 8 z).1).toNat = (max (-128) (min 127 z) % 256).toNat := by
  have h : (clampInt 8 z).1 = max (-128) (min 127 z) := by
    rcases lt_or_ge z (-128) with hl | hl
    · rw [clampInt_of_lt (by omega)]
      omega
    · rcases lt_or_ge 127 z with hh | hh
      · rw [clampInt_of_gt (by omega)]
        omega
      · rw [clampInt_of_mem (by omega) (by omega)]
        omega
  rw [h, BitVec.toNat_ofInt]
  rfl

/-- An integer over a power of two, rounded down, and what is left in 65536ths. -/
theorem floor_parts (v : ℤ) (k : Nat) : ⌊(v : ℚ) / 2 ^ k⌋ = v.fdiv (2 ^ k) ∧
    ⌊((v : ℚ) / 2 ^ k - ⌊(v : ℚ) / 2 ^ k⌋) * 2 ^ 16⌋ = v.fmod (2 ^ k) * 65536 / 2 ^ k := by
  have hp : (0 : ℤ) ≤ 2 ^ k := by positivity
  have hfl (w : ℤ) : ⌊(w : ℚ) / 2 ^ k⌋ = w / 2 ^ k := by
    have := Rat.floor_intCast_div_natCast w (2 ^ k)
    push_cast at this
    exact this
  refine ⟨by rw [hfl, Int.fdiv_eq_ediv_of_nonneg _ hp], ?_⟩
  have hdm : (v : ℚ) = (2 ^ k) * (v / 2 ^ k : ℤ) + (v % 2 ^ k : ℤ) := by exact_mod_cast (Int.mul_ediv_add_emod v (2 ^ k)).symm
  have hrest : ((v : ℚ) / 2 ^ k - ⌊(v : ℚ) / 2 ^ k⌋) * 2 ^ 16 = ((v % 2 ^ k * 65536 : ℤ) : ℚ) / 2 ^ k := by
    rw [hfl]
    nth_rw 1 [hdm]
    field_simp
    push_cast
    ring
  rw [hrest, hfl, Int.fmod_eq_emod_of_nonneg _ hp]

/-- A number rounded at random to an integer, as MXINT8 elements are (R284). -/
def drawnInt (draw : Nat) (t : ℚ) : ℤ := ⌊t⌋ + if (draw : ℤ) < ⌊(t - ⌊t⌋) * 2 ^ 16⌋ then 1 else 0

theorem drawnInt_intCast (draw : Nat) (z : ℤ) : drawnInt draw z = z := by
  simp [drawnInt]

theorem drawnInt_div (draw : Nat) (v : ℤ) (k : Nat) : drawnInt draw ((v : ℚ) / 2 ^ k) =
    if (draw : ℤ) < v.fmod (2 ^ k) * 65536 / 2 ^ k then v.fdiv (2 ^ k) + 1 else v.fdiv (2 ^ k) := by
  obtain ⟨h1, h2⟩ := floor_parts v k
  rw [drawnInt, h2, h1]
  split <;> simp

theorem mxInt8_eq (rnd : Rnd) (draw : Nat) (neg : Bool) (n : Nat) (e : ℤ) : mxInt8 rnd draw neg n e =
    (max (-128) (min 127 (if rnd = .sr then drawnInt draw (finVal neg n e) else nearInt rnd draw (finVal neg n e))) % 256).toNat := by
  rw [mxInt8, ← clamp8_eq]
  congr 4
  split
  · split
    · next he =>
      have hv : finVal neg n e = ((if neg then -((n * 2 ^ e.natAbs : Nat) : ℤ) else ((n * 2 ^ e.natAbs : Nat) : ℤ) : ℤ) : ℚ) := by
        obtain ⟨k, rfl⟩ := Int.eq_ofNat_of_zero_le he
        cases neg <;> simp [finVal]
      rw [hv, drawnInt_intCast]
    · next he =>
      have hv : finVal neg n e = ((if neg then -(n : ℤ) else n : ℤ) : ℚ) / 2 ^ e.natAbs := by
        obtain ⟨k, rfl⟩ : ∃ k : ℕ, e = -(k : ℤ) := ⟨e.natAbs, by omega⟩
        cases neg <;> simp [finVal, div_eq_mul_inv]
      rw [hv, drawnInt_div]
  · rw [nearInt_finVal]

theorem elemFmt_of_frMx {f : FrameFmt} (h : frMx f = true) :
    (∃ g, frMxElem f = .flt g ∧ elemFmt f = some g ∧ 0 < g.mb ∧ 2 * g.signBit = 2 ^ frBits f) ∨
      (frMxElem f = .int8 ∧ elemFmt f = none ∧ frBits f = 8) := by
  cases f with
  | mxint8 => exact .inr ⟨rfl, rfl, rfl⟩
  | mxe4m3 | mxe5m2 | mxe3m2 | mxe2m3 | mxe2m1 => exact .inl ⟨_, rfl, rfl, by decide, by decide⟩
  | _ => exact absurd h (by decide)

/-- An element of a block is that of R284. -/
theorem mxElement_eq {f : FrameFmt} (hf : frMx f = true) (rnd : Rnd) (draw scale : Nat) (v : Machine.Num) :
    mxElement (frMxElem f) rnd draw scale v = blockCode f rnd (if rnd = .sr then draw else 0) scale (toVal v) := by
  rcases elemFmt_of_frMx hf with ⟨g, he, hg, -, -⟩ | ⟨he, hg, -⟩ <;> rw [he]
  · cases v with
    | nan => rfl
    | inf s => simp only [mxElement, toVal, blockCode, hg, codeWith_eq]
    | fin s n e =>
      simp only [mxElement, toVal, blockCode, hg]
      rw [roundNum_eq, toVal, finVal_unscaled]
      split
      · rfl
      · next hr => rw [round_draw hr]
  · cases v with
    | nan => rfl
    | inf s => simp only [mxElement, toVal, blockCode, hg]
    | fin s n e =>
      have hx : finVal s n (e - ((scale : ℤ) - 127) + 6) = finVal s n e / 2 ^ ((scale : ℤ) - 127) * 64 := by
        rw [show e - ((scale : ℤ) - 127) + 6 = e - ((scale : ℤ) - 127) - (-6) by ring, finVal_unscaled, finVal_unscaled]
        norm_num
        ring
      simp only [mxElement, toVal, blockCode, hg]
      rw [mxInt8_eq, hx]
      split
      · rfl
      · next hr => rw [nearInt_draw hr]

theorem mxElement_lt {f : FrameFmt} (hf : frMx f = true) (rnd : Rnd) (draw scale : Nat) (v : Machine.Num) :
    mxElement (frMxElem f) rnd draw scale v < 2 ^ frBits f := by
  rcases elemFmt_of_frMx hf with ⟨g, he, -, hm, hb⟩ | ⟨he, -, hb⟩ <;> rw [he]
  · rw [← hb]
    cases v with
    | nan => exact (Nat.zero_le _).trans_lt (signed_lt (maxCode_lt g) false)
    | inf s => exact signed_lt (maxCode_lt g) s
    | fin s n e => exact roundNum_lt hm ..
  · rw [hb]
    cases v with
    | nan => exact Nat.two_pow_pos 8
    | inf s =>
      show (if s then 0x80 else 0x7F) < 2 ^ 8
      cases s <;> decide
    | fin s n e => exact BitVec.isLt _

end Sys2Proof.Laws
end

section
/-! SUPPORT: the frame that MQNT writes (R269, R270, R284). -/

namespace Sys2Proof.Laws

open Sys2Proof Sys2Proof.Machine Sys2Proof.Safety

-- One theorem after another, as in the tests: the check's memory holds few more stacks.
set_option Elab.async false

/-! ### Frames from their scales and elements -/

section Frames
variable {f : FrameFmt} {role : Role} {sc elem : Nat → Nat → Nat}

theorem dims_of_frMx (h : frMx f = true) : frKt f = 32 * (frKt f / 32) ∧ 0 < frKt f / 32 ∧ frKt f / 32 ≤ 2 ∧ frCls f ≠ .acc ∧
    64 ≤ frBytes f ∧ frBits f * (16 * frKt f) = 8 * (frBytes f - 64) := by
  revert h
  cases f <;> decide

/-- The elements of a frame, a row after another. -/
def frameBody (f : FrameFmt) (elem : Nat → Nat → Nat) : Nat :=
  vecOf (frBits f) ((List.range (16 * frKt f)).map fun i => elem (i / frKt f) (i % frKt f))

/-- The frame of given scales and elements. -/
def frameOf (f : FrameFmt) (role : Role) (sc elem : Nat → Nat → Nat) : Machine.Frm :=
  { fmt := f, role, sparse := false, hdr := frHeader f role false (scalesOf f sc), body := frameBody f elem }

theorem frFrame_eq : frFrame f role sc elem =
    toBytes 64 (frHeader f role false (scalesOf f sc)) ++ toBytes (frBytes f - 64) (frameBody f elem) := rfl

theorem frFrame_length (h : frMx f = true) : (frFrame f role sc elem).length = frBytes f := by
  obtain ⟨-, -, -, -, hb, -⟩ := dims_of_frMx h
  rw [frFrame_eq, List.length_append, toBytes_length, toBytes_length]
  omega

theorem scalesOf_lt (f : FrameFmt) (sc : Nat → Nat → Nat) : scalesOf f sc < 2 ^ 256 := by
  unfold scalesOf
  split
  · refine (vecOf_lt ..).trans_eq ?_
    rw [List.length_map, List.length_range]
  · exact Nat.two_pow_pos 256

/-- Byte 2r + b of SCALES is the scale of block b of row or column r (R270). -/
theorem elemAt_scalesOf (h : frMx f = true) {r b : Nat} (hr : r < 16) (hb : b < 2) :
    elemAt 8 (scalesOf f sc) (2 * r + b) = if b * 32 < frKt f then sc r b % 256 else 0 := by
  have hd : (2 * r + b) / 2 = r := by omega
  have hm : (2 * r + b) % 2 = b := by omega
  rw [scalesOf, if_pos h, elemAt_vecOf, List.getD_eq_getElem _ _ (by rw [List.length_map, List.length_range]; omega), List.getElem_map,
    List.getElem_range, hd, hm]
  split <;> rfl

/-- The scale of a block is a byte of SCALES. -/
theorem scale_eq_elemAt {g : Machine.Frm} (r b : Nat) : g.scale r b = elemAt 8 (g.hdr / 2 ^ 256) (2 * r + b) := by
  rw [Machine.Frm.scale, elemAt, Nat.div_div_eq_div_mul, ← Nat.pow_add]
  congr 3
  omega

theorem scale_frameOf (h : frMx f = true) {r b : Nat} (hr : r < 16) (hb : b < frKt f / 32) :
    (frameOf f role sc elem).scale r b = sc r b % 256 := by
  obtain ⟨-, -, h2, -⟩ := dims_of_frMx h
  rw [scale_eq_elemAt, frameOf, header_scales (frHeader_eq ..), elemAt_scalesOf h hr (by omega), if_pos (by omega)]

theorem elem_frameOf {r k : Nat} (hr : r < 16) (hk : k < frKt f) : (frameOf f role sc elem).elem r k = elem r k % 2 ^ frBits f := by
  have hpos : 0 < frKt f := by omega
  have hlt : r * frKt f + k < 16 * frKt f := by
    have := Nat.mul_le_mul_right (frKt f) (show r + 1 ≤ 16 by omega)
    linarith
  have hd : (r * frKt f + k) / frKt f = r := by rw [Nat.mul_comm, Nat.mul_add_div hpos, Nat.div_eq_of_lt hk, Nat.add_zero]
  have hm : (r * frKt f + k) % frKt f = k := by rw [Nat.mul_comm, Nat.mul_add_mod, Nat.mod_eq_of_lt hk]
  rw [Machine.Frm.elem, frameOf, frameBody, elemAt_vecOf, List.getD_eq_getElem _ _ (by rwa [List.length_map, List.length_range]),
    List.getElem_map, List.getElem_range, hd, hm]

theorem scalesOk_frHeader (h : frMx f = true) : scalesOk f (frHeader f role false (scalesOf f sc)) = true := by
  rw [scalesOk, if_pos h, Bool.or_eq_true, bne_iff_ne]
  by_cases hk : frKt f = 32
  · refine .inr (List.all_eq_true.mpr fun r hr => beq_iff_eq.mpr ?_)
    have hr := List.mem_range.mp hr
    have hs := scale_eq_elemAt (g := frameOf f role sc fun _ _ => 0) r 1
    rw [Machine.Frm.scale, frameOf, header_scales (frHeader_eq ..), elemAt_scalesOf h hr (by decide), if_neg (by omega),
      show 8 * (32 + 2 * r + 1) = 8 * (33 + 2 * r) by omega] at hs
    exact hs
  · exact .inl hk

/-- A frame that is written is well-formed and reads back (R270). -/
theorem parse_frFrame (h : frMx f = true) (hr : role ≠ .acc) :
    Machine.Frm.parse (ofBytes ((frFrame f role sc elem).take 64)) (ofBytes ((frFrame f role sc elem).drop 64)) =
      some (frameOf f role sc elem) := by
  obtain ⟨-, -, -, hacc, -, hbits⟩ := dims_of_frMx h
  have hbody : frameBody f elem < 256 ^ (frBytes f - 64) := by
    rw [pow_256, ← hbits]
    refine (vecOf_lt ..).trans_eq ?_
    rw [List.length_map, List.length_range]
  rw [frFrame_eq]
  exact (parse_bytes (scalesOf_lt f sc) hbody).trans (parse_frHeader hacc hr (scalesOk_frHeader h) (fun hs => nomatch hs) _)

end Frames

/-! ### Blocks one after another (R284) -/

section Blocks
variable {f : FrameFmt} {rnd : Rnd} {gen : W32}

theorem steps_eq (gen : W32) (n : Nat) :
    ((List.range n).map fun i => (List.range (i + 1)).foldl (fun g _ => lfsrStep g) gen) =
      (List.range n).map fun i => drawnTimes gen (i + 1) :=
  List.map_congr_left fun i _ => foldl_lfsrStep gen (i + 1)

theorem getLastD_steps (gen : W32) (n : Nat) : ((List.range n).map fun i => drawnTimes gen (i + 1)).getLastD gen = drawnTimes gen n := by
  cases n with
  | zero => rfl
  | succ n => simp [List.range_succ]

/-- The generator before element n: it steps under stochastic rounding alone. -/
def quantGen (rnd : Rnd) (gen : W32) (n : Nat) : W32 := if rnd = .sr then drawnTimes gen n else gen

/-- The draw of an element: none matters but under stochastic rounding. -/
def quantDraw (rnd : Rnd) (gen : W32) (n : Nat) : Nat := if rnd = .sr then drawAfter gen n else 0

theorem quantGen_add (m n : Nat) : quantGen rnd (quantGen rnd gen m) n = quantGen rnd gen (m + n) := by
  unfold quantGen
  split
  · exact drawnTimes_add ..
  · rfl

theorem quantDraw_quantGen (m n : Nat) : quantDraw rnd (quantGen rnd gen m) n = quantDraw rnd gen (m + n) := by
  unfold quantDraw quantGen
  split
  · exact drawAfter_drawnTimes ..
  · rfl

theorem isInf_eq (xs : List Machine.Num) :
    xs.any (fun x => match x with | .inf _ => true | _ => false) = true ↔ ∃ neg, Val.inf neg ∈ xs.map toVal := by
  rw [List.any_eq_true]
  constructor
  · rintro ⟨v, hv, h⟩
    cases v with
    | nan | fin => cases h
    | inf s => exact ⟨s, List.mem_map.mpr ⟨_, hv, rfl⟩⟩
  · rintro ⟨s, hs⟩
    obtain ⟨v, hv, h⟩ := List.mem_map.mp hs
    cases v with
    | nan | fin => cases h
    | inf t => exact ⟨_, hv, rfl⟩

/-- The values of a block's codes. -/
def blockVals (n : Nat) (c : Nat → Nat) : List Val := (List.range n).map fun u => valOf fp32 (c u)

theorem blockVals_eq (n : Nat) (c : Nat → Nat) : blockVals n c = (((List.range n).map c).map fp32.value).map toVal := by
  rw [blockVals, List.map_map, List.map_map]
  exact List.map_congr_left fun u _ => valOf_eq ..

theorem mxQuantise_cases (el : MxElem) (rnd : Rnd) (gen : W32) (n : Nat) (c : Nat → Nat) :
    mxQuantise el rnd gen ((List.range n).map c) =
      if (((List.range n).map c).map fp32.value).any Machine.Num.isNan then (255, List.replicate n 0, true, quantGen rnd gen n)
      else
        (mxScale el (((List.range n).map c).map fp32.value),
          (List.range n).map fun u => mxElement el rnd (drawAfter gen u) (mxScale el (((List.range n).map c).map fp32.value)) (fp32.value (c u)),
          (((List.range n).map c).map fp32.value).any (fun x => match x with | .inf _ => true | _ => false), quantGen rnd gen n) := by
  have hzip : ((List.range n).map (fp32.value ∘ c)).zip ((List.range n).map fun i => drawnTimes gen (i + 1)) =
      (List.range n).map fun u => ((fp32.value ∘ c) u, drawnTimes gen (u + 1)) := List.zip_map' ..
  simp only [mxQuantise, List.length_map, List.length_range, steps_eq, getLastD_steps, List.map_map, hzip, quantGen, drawAfter_eq]
  rfl

/-- A block quantised, over the values of its codes (R284). -/
theorem mxQuantise_eq (hf : frMx f = true) (rnd : Rnd) (gen : W32) (n : Nat) (c : Nat → Nat) :
    mxQuantise (frMxElem f) rnd gen ((List.range n).map c) =
      (blockScale f (blockVals n c),
        (List.range n).map fun u =>
          if Val.nan ∈ blockVals n c then 0 else blockCode f rnd (quantDraw rnd gen u) (blockScale f (blockVals n c)) (valOf fp32 (c u)),
        decide (Val.nan ∈ blockVals n c ∨ ∃ neg, Val.inf neg ∈ blockVals n c), quantGen rnd gen n) := by
  rw [mxQuantise_cases]
  split
  · next hn =>
    rw [any_isNan_eq, ← blockVals_eq] at hn
    simp only [hn, blockScale, if_true, true_or, decide_true]
    rw [List.map_const', List.length_range]
  · next hn =>
    rw [any_isNan_eq, ← blockVals_eq] at hn
    have hs := mxScale_eq hf (xs := ((List.range n).map c).map fp32.value) (by rwa [← blockVals_eq])
    have hi := isInf_eq (((List.range n).map c).map fp32.value)
    rw [← blockVals_eq] at hs hi
    simp only [hs, hn, if_false, false_or, mxElement_eq hf, ← valOf_eq]
    rw [Bool.eq_iff_iff.mpr (hi.trans decide_eq_true_iff.symm)]
    rfl

theorem blockScale_lt (f : FrameFmt) (vs : List Val) : blockScale f vs < 256 := by
  by_cases h : Val.nan ∈ vs
  · rw [blockScale, if_pos h]
    decide
  · rw [blockScale_cases h]
    split
    · decide
    · split
      · decide
      · exact (Int.toNat_le.mpr (max_le (by decide) (min_le_left 254 _))).trans_lt (by decide)

theorem blockCode_lt (hf : frMx f = true) (rnd : Rnd) (gen : W32) (u scale c : Nat) :
    blockCode f rnd (quantDraw rnd gen u) scale (valOf fp32 c) < 2 ^ frBits f := by
  rw [valOf_eq, quantDraw, ← mxElement_eq hf]
  exact mxElement_lt hf ..

end Blocks

/-! ### The frame (R284) -/

section Quantised
variable (f : FrameFmt) (rnd : Rnd) (src : Nat → Nat → Nat) (gen : W32)

/-- The codes of block i in body order. -/
def blockSrc (i u : Nat) : Nat := src (i / (frKt f / 32)) (32 * (i % (frKt f / 32)) + u)

/-- Block i in body order, quantised after those before it. -/
def quantBlock (i : Nat) : Nat × List Nat × Bool × W32 :=
  mxQuantise (frMxElem f) rnd (quantGen rnd gen (32 * i)) ((List.range 32).map (blockSrc f src i))

/-- A block quantised after others, whose scales and codes, whose special ones and whose generator are given. -/
def addBlock (acc : List (Nat × List Nat) × Bool × W32) (i : Nat) : List (Nat × List Nat) × Bool × W32 :=
  let q := mxQuantise (frMxElem f) rnd acc.2.2 ((List.range 32).map (blockSrc f src i))
  (acc.1 ++ [(q.1, q.2.1)], acc.2.1 || q.2.2.1, q.2.2.2)

variable {f rnd src gen}

theorem quantBlock_eq (hf : frMx f = true) (i : Nat) : quantBlock f rnd src gen i =
    (blockScale f (blockVals 32 (blockSrc f src i)),
      (List.range 32).map fun u => if Val.nan ∈ blockVals 32 (blockSrc f src i) then 0
        else blockCode f rnd (quantDraw rnd gen (32 * i + u)) (blockScale f (blockVals 32 (blockSrc f src i))) (valOf fp32 (blockSrc f src i u)),
      decide (Val.nan ∈ blockVals 32 (blockSrc f src i) ∨ ∃ neg, Val.inf neg ∈ blockVals 32 (blockSrc f src i)),
      quantGen rnd gen (32 * (i + 1))) := by
  rw [quantBlock, mxQuantise_eq hf, quantGen_add, Nat.mul_succ]
  simp only [quantDraw_quantGen]

theorem foldl_addBlock (hf : frMx f = true) (n : Nat) : (List.range n).foldl (addBlock f rnd src) ([], false, gen) =
    ((List.range n).map fun i => ((quantBlock f rnd src gen i).1, (quantBlock f rnd src gen i).2.1),
      (List.range n).any fun i => (quantBlock f rnd src gen i).2.2.1, quantGen rnd gen (32 * n)) := by
  induction n with
  | zero => simp [quantGen, drawnTimes]
  | succ n ih =>
    have hg : (quantBlock f rnd src gen n).2.2.2 = quantGen rnd gen (32 * (n + 1)) := by rw [quantBlock_eq hf]
    rw [List.range_succ, List.foldl_append, ih, List.map_append, List.any_append, ← hg]
    simp only [List.foldl_cons, List.foldl_nil, List.map_cons, List.map_nil, List.any_cons, List.any_nil, Bool.or_false, addBlock]
    rfl

/-- Block b of row or column r, as the frame takes it. -/
def blockAt (f : FrameFmt) (rnd : Rnd) (src : Nat → Nat → Nat) (gen : W32) (r b : Nat) : Nat × List Nat :=
  ((List.range (16 * (frKt f / 32))).map fun i => ((quantBlock f rnd src gen i).1, (quantBlock f rnd src gen i).2.1)).getD
    (r * (frKt f / 32) + b) (0, [])

theorem quantFrame_eq (hf : frMx f = true) (role : Role) : quantFrame f role rnd src gen =
    (frFrame f role (fun r b => (blockAt f rnd src gen r b).1) fun r k => (blockAt f rnd src gen r (k / 32)).2.getD (k % 32) 0,
      (List.range (16 * (frKt f / 32))).any fun i => (quantBlock f rnd src gen i).2.2.1, quantGen rnd gen (16 * frKt f)) := by
  obtain ⟨hk, -⟩ := dims_of_frMx hf
  have h := foldl_addBlock (rnd := rnd) (src := src) (gen := gen) hf (16 * (frKt f / 32))
  rw [show 32 * (16 * (frKt f / 32)) = 16 * frKt f by omega] at h
  have hq : quantFrame f role rnd src gen =
    let blocks := (List.range (16 * (frKt f / 32))).foldl (addBlock f rnd src) ([], false, gen)
    let at_ : Nat → Nat → Nat × List Nat := fun r b => blocks.1.getD (r * (frKt f / 32) + b) (0, [])
    (frFrame f role (fun r b => (at_ r b).1) (fun r k => (at_ r (k / 32)).2.getD (k % 32) 0), blocks.2.1, blocks.2.2) := rfl
  rw [hq, h]
  rfl

theorem quantFrame_bytes (hf : frMx f = true) (role : Role) : (quantFrame f role rnd src gen).1 =
    frFrame f role (fun r b => (blockAt f rnd src gen r b).1) fun r k => (blockAt f rnd src gen r (k / 32)).2.getD (k % 32) 0 := by
  rw [quantFrame_eq hf]

theorem quantFrame_length (hf : frMx f = true) (role : Role) : (quantFrame f role rnd src gen).1.length = frBytes f := by
  rw [quantFrame_bytes hf, frFrame_length hf]

theorem quantFrame_gen (hf : frMx f = true) (role : Role) : (quantFrame f role rnd src gen).2.2 = quantGen rnd gen (16 * frKt f) := by
  rw [quantFrame_eq hf]

variable {r b : Nat}

theorem blockSrc_at (hb : b < frKt f / 32) : blockSrc f src (r * (frKt f / 32) + b) = fun u => src r (32 * b + u) := by
  have hd : (r * (frKt f / 32) + b) / (frKt f / 32) = r := by
    rw [Nat.mul_comm, Nat.mul_add_div (by omega), Nat.div_eq_of_lt hb, Nat.add_zero]
  have hm : (r * (frKt f / 32) + b) % (frKt f / 32) = b := by rw [Nat.mul_comm, Nat.mul_add_mod, Nat.mod_eq_of_lt hb]
  funext u
  rw [blockSrc, hd, hm]

theorem blockAt_eq (hf : frMx f = true) (hr : r < 16) (hb : b < frKt f / 32) : blockAt f rnd src gen r b =
    let vs := blockVals 32 fun u => src r (32 * b + u)
    (blockScale f vs, (List.range 32).map fun u =>
      if Val.nan ∈ vs then 0
      else blockCode f rnd (quantDraw rnd gen (32 * (r * (frKt f / 32) + b) + u)) (blockScale f vs) (valOf fp32 (src r (32 * b + u)))) := by
  have hlt : r * (frKt f / 32) + b < 16 * (frKt f / 32) := by
    have := Nat.mul_le_mul_right (frKt f / 32) (show r + 1 ≤ 16 by omega)
    linarith
  rw [blockAt, List.getD_eq_getElem _ _ (by rwa [List.length_map, List.length_range]), List.getElem_map, List.getElem_range,
    quantBlock_eq hf, blockSrc_at hb]

/-- The frame that MQNT writes. -/
def quantFrm (f : FrameFmt) (role : Role) (rnd : Rnd) (src : Nat → Nat → Nat) (gen : W32) : Machine.Frm :=
  frameOf f role (fun r b => (blockAt f rnd src gen r b).1) fun r k => (blockAt f rnd src gen r (k / 32)).2.getD (k % 32) 0

theorem parse_quantFrame (hf : frMx f = true) {role : Role} (hr : role ≠ .acc) :
    Machine.Frm.parse (ofBytes ((quantFrame f role rnd src gen).1.take 64)) (ofBytes ((quantFrame f role rnd src gen).1.drop 64)) =
      some (quantFrm f role rnd src gen) := by
  rw [quantFrame_bytes hf]
  exact parse_frFrame hf hr

theorem scale_quantFrm (hf : frMx f = true) (role : Role) (hr : r < 16) (hb : b < frKt f / 32) :
    (quantFrm f role rnd src gen).scale r b = blockScale f (blockVals 32 fun u => src r (32 * b + u)) := by
  rw [quantFrm, scale_frameOf hf hr hb, blockAt_eq hf hr hb]
  exact Nat.mod_eq_of_lt (blockScale_lt ..)

theorem elem_quantFrm (hf : frMx f = true) (role : Role) {k : Nat} (hr : r < 16) (hk : k < frKt f) :
    (quantFrm f role rnd src gen).elem r k =
      let vs := blockVals 32 fun u => src r (32 * (k / 32) + u)
      if Val.nan ∈ vs then 0 else blockCode f rnd (quantDraw rnd gen (r * frKt f + k)) (blockScale f vs) (valOf fp32 (src r k)) := by
  obtain ⟨hkt, -⟩ := dims_of_frMx hf
  have hb : k / 32 < frKt f / 32 := by omega
  have hm : k % 32 < 32 := Nat.mod_lt _ (by decide)
  have hat : 32 * (r * (frKt f / 32) + k / 32) + k % 32 = r * frKt f + k := by
    rw [Nat.mul_add, Nat.mul_left_comm, ← hkt]
    omega
  rw [quantFrm, elem_frameOf hr hk, blockAt_eq hf hr hb]
  dsimp only
  rw [List.getD_eq_getElem _ _ (by rwa [List.length_map, List.length_range]), List.getElem_map, List.getElem_range, hat, Nat.div_add_mod]
  split
  · exact Nat.zero_mod _
  · exact Nat.mod_eq_of_lt (blockCode_lt hf ..)

/-- A frame has a special block where a block holds a NaN or an infinity. -/
theorem quantFrame_special (hf : frMx f = true) (role : Role) : (quantFrame f role rnd src gen).2.1 = true ↔
    ∃ r b, r < 16 ∧ b < frKt f / 32 ∧ (Val.nan ∈ blockVals 32 (fun u => src r (32 * b + u)) ∨
      ∃ neg, Val.inf neg ∈ blockVals 32 (fun u => src r (32 * b + u))) := by
  rw [quantFrame_eq hf]
  obtain ⟨-, hpos, -⟩ := dims_of_frMx hf
  simp only [List.any_eq_true, List.mem_range, quantBlock_eq hf, decide_eq_true_eq]
  constructor
  · rintro ⟨i, hi, h⟩
    exact ⟨i / (frKt f / 32), i % (frKt f / 32), Nat.div_lt_of_lt_mul (by rwa [Nat.mul_comm]), Nat.mod_lt _ hpos, h⟩
  · rintro ⟨r, b, hr, hb, h⟩
    refine ⟨r * (frKt f / 32) + b, ?_, by rwa [blockSrc_at hb]⟩
    have := Nat.mul_le_mul_right (frKt f / 32) (show r + 1 ≤ 16 by omega)
    linarith

end Quantised

end Sys2Proof.Laws
end

section
/-! SUPPORT: O35, from the rules of the instructions and the values of their frames. -/

namespace Sys2Proof.Laws

open Sys2Proof Sys2Proof.Machine Sys2Proof.Safety

-- One theorem after another, as in the tests: the check's memory holds few more stacks.
set_option Elab.async false

section Reached
variable {s : State} {x : Ex} {c : Ctl} {sat x2 : Bool} {m a b v d : Spec} {rnd : Rnd} {role : Role} {fmt : FrameFmt} {n : Nat}

/-! ### Waits and poison -/

theorem exec_mma_owned (h : runsAs s (.mma c sat m a b) x) (ho : (accOf s (teamOf s x.ref) x.quarter m.toNat).inflight = true) :
    exec (.mma c sat m a b) s = .next (waitEx x (.accumulator m.toNat) (.mma c sat m a b) s) := by
  rw [exec_mma h, onAccs_owned ho]

theorem exec_mmas_owned (h : runsAs s (.mmas c sat x2 m a b v) x) (ho : (accOf s (teamOf s x.ref) x.quarter m.toNat).inflight = true) :
    exec (.mmas c sat x2 m a b v) s = .next (waitEx x (.accumulator m.toNat) (.mmas c sat x2 m a b v) s) := by
  rw [exec_mmas h, onAccs_owned ho]

theorem exec_mma_busy {o : Awaited} (h : runsAs s (.mma c sat m a b) x)
    (hf : (accOf s (teamOf s x.ref) x.quarter m.toNat).inflight = false)
    (hb : framesBusy s (teamOf s x.ref) [(x.w a x.low).toNat, (x.w b x.low).toNat] = some o) :
    exec (.mma c sat m a b) s = .next (waitEx x o (.mma c sat m a b) s) := by
  rw [exec_mma h, onAccs_free hf, onFrames_busy hb]

theorem exec_mmas_busy {o : Awaited} (h : runsAs s (.mmas c sat x2 m a b v) x)
    (hf : (accOf s (teamOf s x.ref) x.quarter m.toNat).inflight = false) (hb : framesBusy s (teamOf s x.ref) (sparseVas x x2 a b) = some o) :
    exec (.mmas c sat x2 m a b v) s = .next (waitEx x o (.mmas c sat x2 m a b v) s) := by
  rw [exec_mmas h, onAccs_free hf, onFrames_busy hb]

theorem exec_mma_poison (h : runsAs s (.mma c sat m a b) x) (hf : (accOf s (teamOf s x.ref) x.quarter m.toNat).inflight = false)
    (hp : (accParity s x.quarter m.toNat).any (fun p => !p.reread) = true)
    (hb : framesBusy s (teamOf s x.ref) [(x.w a x.low).toNat, (x.w b x.low).toNat] = none) :
    exec (.mma c sat m a b) s = .next (faultOnce x (.poison, 0) (metParity s (accParity s x.quarter m.toNat))) := by
  rw [exec_mma h, onAccs_free hf, onFrames_free hb, readAccs_poison hp]

theorem exec_mmas_poison (h : runsAs s (.mmas c sat x2 m a b v) x) (hf : (accOf s (teamOf s x.ref) x.quarter m.toNat).inflight = false)
    (hp : (accParity s x.quarter m.toNat).any (fun p => !p.reread) = true)
    (hb : framesBusy s (teamOf s x.ref) (sparseVas x x2 a b) = none) :
    exec (.mmas c sat x2 m a b v) s = .next (faultOnce x (.poison, 0) (metParity s (accParity s x.quarter m.toNat))) := by
  rw [exec_mmas h, onAccs_free hf, onFrames_free hb, readAccs_poison hp]

/-! ### Steps, prunings and quantisations that are reached -/

theorem exec_mma_reached (h : runsAs s (.mma c sat m a b) x) (hf : (accOf s (teamOf s x.ref) x.quarter m.toNat).inflight = false)
    (hp : (accParity s x.quarter m.toNat).all (·.reread) = true)
    (hb : framesBusy s (teamOf s x.ref) [(x.w a x.low).toNat, (x.w b x.low).toNat] = none) :
    exec (.mma c sat m a b) s = .next (denseStep x c sat m a b (metParity s (accParity s x.quarter m.toNat))) := by
  rw [exec_mma h, onAccs_free hf, onFrames_free hb, readAccs_reread hp]

theorem exec_mmas_reached (h : runsAs s (.mmas c sat x2 m a b v) x) (hf : (accOf s (teamOf s x.ref) x.quarter m.toNat).inflight = false)
    (hp : (accParity s x.quarter m.toNat).all (·.reread) = true)
    (hb : framesBusy s (teamOf s x.ref) (sparseVas x x2 a b) = none) :
    exec (.mmas c sat x2 m a b v) s = .next (sparseStep x c sat x2 m a b v (metParity s (accParity s x.quarter m.toNat))) := by
  rw [exec_mmas h, onAccs_free hf, onFrames_free hb, readAccs_reread hp]

theorem sparseStep_one {fa fb : Machine.Frm} (hw : notW32 s x = false)
    (hfr : framesIn s (teamOf s x.ref) [(x.w a x.low).toNat, (x.w b x.low).toNat] [] = .ok [fa, fb]) (hd : sparseOk fa fb = true)
    (ht : typeClash (accOf s (teamOf s x.ref) x.quarter m.toNat) fa.fmt = false) (hm : halfBad (metaWords x false v 0) = false) :
    sparseStep x c sat false m a b v s =
      let r := stepAcc sat (sparseA fa (metaWords x false v 0)) fb (accOf s (teamOf s x.ref) x.quarter m.toNat)
      withEvents x (r.2.eraseDups.map fun e => (e, x.exec)) s fun t =>
        retireEnd x c x.body (putAcc t (teamOf t x.ref) x.quarter m.toNat r.1) :=
  sparseStep_steps (x2 := false) (a := a) (b := b) hw hfr (List.forall_mem_singleton.mpr hd) (List.forall_mem_singleton.mpr ht)
    (List.forall_mem_singleton.mpr (List.forall_mem_singleton.mpr rfl)) (List.forall_mem_singleton.mpr hm)

theorem sparseStep_two {fa fb ga gb : Machine.Frm} (hw : notW32 s x = false)
    (hfr : framesIn s (teamOf s x.ref) (sparseVas x true a b) [] = .ok [fa, fb, ga, gb])
    (hd : sparseOk fa fb = true ∧ sparseOk ga gb = true)
    (ht : typeClash (accOf s (teamOf s x.ref) x.quarter m.toNat) fa.fmt = false ∧
      typeClash (accOf s (teamOf s x.ref) x.quarter m.toNat) ga.fmt = false)
    (hi : frInt fa.fmt = frInt ga.fmt) (hm : halfBad (metaWords x true v 0) = false ∧ halfBad (metaWords x true v 1) = false) :
    sparseStep x c sat true m a b v s =
      let r1 := stepAcc sat (sparseA fa (metaWords x true v 0)) fb (accOf s (teamOf s x.ref) x.quarter m.toNat)
      let r2 := stepAcc sat (sparseA ga (metaWords x true v 1)) gb r1.1
      withEvents x ((r1.2 ++ r2.2).eraseDups.map fun e => (e, x.exec)) s fun t =>
        retireEnd x c x.body (putAcc t (teamOf t x.ref) x.quarter m.toNat r2.1) := by
  have both {P : Machine.Frm × Machine.Frm × Nat → Prop} (h0 : P (fa, fb, 0)) (h1 : P (ga, gb, 1)) :
      ∀ h ∈ sparsePairs [fa, fb, ga, gb], P h := List.forall_mem_cons.mpr ⟨h0, List.forall_mem_singleton.mpr h1⟩
  exact sparseStep_steps hw hfr (both hd.1 hd.2) (both ht.1 ht.2) (both (both rfl hi) (both hi.symm rfl)) (both hm.1 hm.2)

theorem exec_mqnt_reached (h : runsAs s (.mqnt c rnd role fmt m b) x)
    (hf : ∀ n ∈ quantAccs fmt m, (accOf s (teamOf s x.ref) x.quarter n).inflight = false)
    (hp : ((quantAccs fmt m).flatMap (accParity s x.quarter)).all (·.reread) = true) :
    exec (.mqnt c rnd role fmt m b) s = .next (quantStep x c rnd role fmt m b (teamOf s x.ref)
      (metParity s ((quantAccs fmt m).flatMap (accParity s x.quarter)))) := by
  rw [exec_mqnt h, onAccs_none (List.find?_eq_none.mpr fun n hn => by simp [hf n hn]), readAccs_all hp]

end Reached

/-- Settles O35: the instructions are followed through their waits, reads and judgements to one step, pruning or quantisation; a step's terms
and their truncated sum are those of R274 over exact values; the kept of eight are the first four by rank in the order of R281; and the frames
that are written read back what was put into them. -/
theorem matrixSteps : Obligations.MatrixSteps := by
  refine ⟨fun s x c sat x2 m a b v d fa fb rest rnd role fmt => ?_, fun sat a fa fb w old ha => ?_, fun f i k => ?_, fun f w i q u k hq hu => ?_,
    fun h bd f hh hp hr hd hs => ?_, fun f role rnd src gen hf hr _ => ?_⟩
  · refine ⟨fun ho => ⟨fun h => exec_mma_owned h ho, fun h => exec_mmas_owned h ho⟩, fun n h hn => ?_,
      fun o hf => ⟨fun h hb => exec_mma_busy h hf hb, fun h hb => exec_mmas_busy h hf hb⟩, fun o h hb => ?_,
      fun hf hp => ⟨fun h hb => exec_mma_poison h hf hp hb, fun h hb => exec_mmas_poison h hf hp hb⟩, fun h hn hp => ?_,
      fun hf hp => ⟨fun h hb hfr hd ht => ?_, fun h hb hw hfr hd ht hm => ?_, fun ga gb h hb hw hfr hd hg ht htg hi hm0 hm1 => ?_⟩,
      fun h hb hw hfr hr hd hs => ?_, fun h hf hp hi hc => ?_⟩
    · rw [exec_mqnt h, onAccs_some hn]
    · rw [exec_mcomp h, onFrames_busy hb]
    · rw [exec_mqnt h, onAccs_none hn, readAccs_any hp]
    · exact ends_of_withEvents ((exec_mma_reached h hf hp hb).trans (congrArg _ (denseStep_steps hfr hd ht)))
    · exact ends_of_withEvents ((exec_mmas_reached h hf hp hb).trans (congrArg _ (sparseStep_one hw hfr hd ht hm)))
    · exact ends_of_withEvents ((exec_mmas_reached h hf hp hb).trans (congrArg _ (sparseStep_two hw hfr ⟨hd, hg⟩ ⟨ht, htg⟩ hi ⟨hm0, hm1⟩)))
    · rw [exec_mcomp h, onFrames_free hb, pruneStep_prunes hw hfr hr hd hs]
    · cases role <;> exact ends_of_withEvents ((exec_mqnt_reached h hf hp).trans (congrArg _ (quantStep_quantises hc hi)))
  · have hfmt : a.fmt = fa.fmt := by rcases ha with rfl | ⟨rfl, -⟩ <;> rfl
    rw [← hfmt]
    exact stepAcc_spec sat a fb old
  · exact ⟨rfl, rfl, rfl, fun h => elem_of_bits16 h i k, fun h => elem_of_bits8 h i k, fun h => elem_of_bits4 h i k,
      fun h => elem_of_bits6 h i k⟩
  · exact ⟨rfl, metaBad_eq_false, fun h => sparseA_elem_of_kept h hu, fun hk h => sparseA_elem_of_dropped hk h⟩
  · refine ⟨keptOf f, _, pruneFrame_length hs, parse_pruneFrame hh hp hs, rfl, rfl, rfl, header_scales (frHeader_eq ..),
      Nat.div_eq_of_lt (keptBody_lt f), fun i q hi hq => ⟨length_firstFour _, firstFour_sorted _, fun u hu => lt_of_mem_firstFour hu,
        fun u w hu hw hn => keptOf_ahead hq hu hw hn, fun n hn => elemAt_keptBody hs hi hq hn, ?_⟩⟩
    rw [prunedMeta hq hs, keptMeta]
    omega
  · exact ⟨quantFrame_length hf role, quantFrame_gen hf role, quantFrame_special hf role, quantFrm f role rnd src gen,
      parse_quantFrame hf hr, rfl, rfl, rfl, fun r b hr hb => scale_quantFrm hf role hr hb, fun r k hr hk => elem_quantFrm hf role hr hk⟩

end Sys2Proof.Laws
end
